-- ==== Sys2Proof/Word.lean ====
section
/-! DEFINITION. Word.lean: the byte, and the sequence of bytes, that frames, records and memory are made of. -/
namespace Sys2Proof

/-- One byte (R12, R248). -/
abbrev Byte := BitVec 8

/-- A run of bytes, lowest address first (R12). -/
abbrev Bytes := List Byte

/-- The 32 bits of a binary32 value (R247). -/
abbrev F32 := BitVec 32

end Sys2Proof
end

