-- ==== Sys2Proof/Syntax.lean ====
section
/-! DEFINITION. Syntax.lean: the commands of the block, one constructor per row of spec/opcode_table.json, with what each
brings from outside (a frame's fields, a measured value, a unit's number). -/
namespace Sys2Proof

/-- A sender on a network: MAC address, IP address (an IPv4 address as ::ffff:a.b.c.d), UDP port (R399, R400). -/
structure NetAddr where
  mac : Nat
  ip : Nat
  udp : Nat
  deriving DecidableEq, Repr

/-- What a port receiver sees of a frame below UDP (R401). Port 24 is the host port. -/
structure Rx where
  port : Nat
  fcsOk : Bool
  len : Nat
  dstMac : Nat
  dstIp : Nat
  ipv6 : Bool
  hdrOk : Bool
  udpSum : Nat
  sumOk : Bool
  frag : Bool
  dstUdp : Nat
  udpLen : Nat
  src : NetAddr
  deriving DecidableEq, Repr

/-- A control frame (R124, R125): the 40-byte header's fields, the body and the integrity tag. -/
structure CtlFrame where
  magic : Nat
  version : Nat
  ftype : Nat
  sessionId : Nat
  seq : Nat
  ack : Nat
  planTag : Nat
  step : Nat
  bodyLen : Nat
  flags : Nat
  zero : Nat
  body : Bytes
  tag : Bytes
  rx : Rx
  deriving DecidableEq, Repr

/-- An entry of a token table (R318): ordinal; position, rank and zero bits; the words at 0x8 and 0xC. -/
structure TokEntry where
  ordinal : Nat
  posRank : Nat
  w8 : Nat
  wC : Nat
  deriving DecidableEq, Repr

/-- A token frame (R317): the 64-byte header's fields, the token table and the payload with its trailers. -/
structure TokFrame where
  magic : Nat
  version : Nat
  kind : Nat
  flags : Nat
  format : Nat
  layer : Nat
  planTag : Nat
  step : Nat
  srcModule : Nat
  dstModule : Nat
  srcStall : Nat
  dstStall : Nat
  target : Nat
  tokenCount : Nat
  segFirst : Nat
  segCount : Nat
  frameSeq : Nat
  bodyLen : Nat
  brand : Nat
  queue : Nat
  returnQueue : Nat
  zero : Nat
  table : List TokEntry
  payload : Bytes
  /-- `none` for a frame from a stall of this module, which never leaves the package (R397). -/
  rx : Option Rx
  deriving DecidableEq, Repr

/-- A team frame (R445): the 32-byte header's fields, payload and integrity tag. -/
structure TeamFrame where
  magic : Nat
  version : Nat
  ftype : Nat
  srcModule : Nat
  dstModule : Nat
  step : Nat
  page : Nat
  group : Nat
  chunk : Nat
  length : Nat
  zero : Nat
  payload : Bytes
  tag : Bytes
  rx : Rx
  deriving DecidableEq, Repr

/-- A feed frame (R407). -/
structure FeedFrame where
  magic : Nat
  version : Nat
  z0 : Nat
  sessionId : Nat
  offset : Nat
  step : Nat
  length : Nat
  z1 : Nat
  payload : Bytes
  tag : Bytes
  rx : Rx
  deriving DecidableEq, Repr

/-- A received PFC frame (R403): the named priorities with their times in quanta. -/
structure PfcFrame where
  port : Nat
  times : List (Nat × Nat)
  deriving DecidableEq, Repr

/-- What the watch domain measures at a telemetry refresh (R67): units of 10 mV, 10 mA, W and °C. -/
structure Telemetry where
  vin10mV : Nat
  iin10mA : Nat
  pinW : Nat
  tjC : Int
  coolInC : Int
  coolOutC : Int
  dimmC : Int
  laserFault : Bool
  hostFault : Bool
  teamSense : Bool
  deriving DecidableEq, Repr

/-- What the management core reads in WATCH: the bytes of the bay identity memory, none where it does not answer (R84), and
whether the bring-up record can be read and passes its check (R86). -/
structure BayRead where
  mem : Option Bytes
  recordOk : Bool
  deriving DecidableEq, Repr

/-- A write of two bytes over the management bus, and the packet error code where the controller sends one (R66, R67). -/
structure BusWrite where
  value : Nat
  pec : Option Nat
  deriving DecidableEq, Repr

/-- The instructions of the test access port that R70 tells apart. -/
inductive TapInstr where
  | bypass | idcode | extestPulse | extestTrain | other
  deriving DecidableEq, Repr

/-- An application that a host pluggable advertises (R76): whether its media is 800GBASE, whether its host interface is
800GAUI-8, its host lanes, and the host-side transmit equalisation that the pluggable gives as its default. -/
structure CmisApp where
  media800 : Bool
  gaui8 : Bool
  lanes : Nat
  txEq : List Nat
  deriving DecidableEq, Repr

/-- What a read of the host pluggable over CMIS takes (R76, R84): whether its identifier is OSFP, the power its class needs
in mW, its applications, its lane state and its alarms. -/
structure Pluggable where
  osfp : Bool
  needMw : Nat
  apps : List CmisApp
  laneState : Nat
  alarms : Nat
  deriving DecidableEq, Repr

/-- What a read of a laser module takes (R78, R84): its identity, its outputs as (wavelength in nm, power in mW), the power
it draws in mW, its temperature and its alarms. -/
structure LaserModule where
  identity : Nat
  outs : List (Nat × Nat)
  drawMw : Nat
  tempC : Int
  alarms : Nat
  deriving DecidableEq, Repr

/-- What an SPD read tells of a DIMM (R80, R84, R342): `timings` in the order of the SPD. -/
structure Dimm where
  present : Bool
  mrdimm : Bool
  ecc : Bool
  spd5118 : Bool
  gib : Nat
  mts : Nat
  ranks : Nat
  timings : List Nat
  deriving DecidableEq, Repr

/-- Test results of one stall in phase 5 (R97, R98): which checks pass, with the failing address of the store and of the
trough and the low 32 bits of the GE's digest; for each tile that fails a check other than the trim its failing check
(1, 3, 4 or 5) and the column or row at fault. -/
structure StallTest where
  stall : Nat
  storeOk : Bool
  storeAddr : Nat
  troughOk : Bool
  troughAddr : Nat
  geOk : Bool
  geDigest : Nat
  tiles : List (Nat × Nat × Nat)
  deriving DecidableEq, Repr

/-- A port's outcome in phase 4 (R95): 0 failed by timeout, 1 eight lanes, 2 lane group 0, 3 lane group 1, 4 no usable
laser or pluggable. -/
structure PortOutcome where
  port : Nat
  outcome : Nat
  deriving DecidableEq, Repr

/-- The reference conversions of step 6 of R224: for each of the 8 reference columns, the ADC codes with how many of the
4,096 phases gave each. -/
abbrev RefCodes := List (List (Int × Nat))

/-- What a trim measures on one tile (R224), per line, columns first: over the 1,024 null phases the sums of the values
16 × code and of their squares, and the sums of the differences of the injected phases; and the codes of step 6. -/
structure TrimMeas where
  nullSum : List Int
  nullSq : List Nat
  diffSum : List Int
  rowNullSum : List Int
  rowNullSq : List Nat
  rowDiffSum : List Int
  refs : RefCodes
  deriving DecidableEq, Repr

/-- A cell of a row as a verify read finds it (R238): its column, whether it is the pair's positive cell, its level in
1/64. -/
structure CellRead where
  col : Nat
  pos : Bool
  l64 : Nat
  deriving DecidableEq, Repr

/-- The verify reads of one row write (R238): for each read in turn the cells that do not read where the model takes them,
which is where they stood before the write at the first read, and on their target at the later ones. -/
structure RowReads where
  row : Nat
  reads : List (List CellRead)
  deriving DecidableEq, Repr

/-- The row writes of one array. A command that writes several arrays brings a list of them by tile number; one that writes
measured levels through tile windows, by the number of the operation (ACCESS) or of the span (MOVER_BURST) that writes
them. -/
abbrev WriteReport := List RowReads

/-- What the completion of a bring-up phase reports of the physical world (R88 to R98, R116). -/
structure PhaseReport where
  fwAOk : Bool
  fwBOk : Bool
  interconnectOk : Bool
  hbmOk : Bool
  repairs : List (Nat × Nat × Nat)
  dimms : List Dimm
  loftTrained : List Bool
  loftLinks : List Bool
  zlvKatOk : Bool
  /-- The laser modules of sockets 0 to 3, and the host pluggable, as read (R84). -/
  lasers : List (Option LaserModule)
  pluggable : Option Pluggable
  ports : List PortOutcome
  stalls : List StallTest
  /-- What the start-up trims measured, by tile. -/
  trims : List (Nat × TrimMeas)
  /-- Pulses that the test patterns gave (R98, R99), by tile: pair, pulses to its positive and to its negative cell. -/
  patterns : List (Nat × List (Nat × Nat × Nat))
  /-- The reference columns as a warm path reads them (R92, R228), by tile. -/
  refs : List (Nat × RefCodes)
  /-- Whether training with the stored parameters failed, and the GE known-answer runs of the warm path that failed
  (R92, R93). -/
  warmTrainFail : Bool
  warmGeFail : List Nat
  /-- The training parameters that the phase found (R88). -/
  training : List Nat
  effQ16 : Nat
  deriving DecidableEq, Repr

/-- Where a wake request comes from (R112). -/
inductive WakeSrc where
  | ahead | demand | program
  deriving DecidableEq, Repr

/-- A wrong accumulator of the MAC array (R423: the fault a GE check finds): output row, output column, wrong bits. -/
structure MacFault where
  m : Nat
  n : Nat
  value : Nat
  deriving DecidableEq, Repr

/-- What a patrol read of a loft line finds (R341): no error, one that the code corrects, one that it only detects. -/
inductive Found where
  | clean | corrected | uncorrectable
  deriving DecidableEq, Repr

/-- The commands. -/
inductive Instr where
  | powerInputInRange
  | alwaysOnRailsGood
  | inputOutOfLimits
  | bayIdentityRead (r : BayRead)
  | resetNReleased
  | resetNLow
  | lastRailOff
  | leverOpened
  | railFault (rail mv : Nat)
  | clk25AonLost
  | clk25AonRestored
  | coreClockLost (clk : Nat)
  | pllUnlock (pll : Nat)
  | telemetryRefresh (t : Telemetry)
  | alertCauseClear (w : BusWrite)
  | i3cDynamicAddress (a : Nat)
  | tapInstruction (i : TapInstr)
  | teamSenseLoss
  | hostModuleInserted (m : Pluggable)
  | hostModuleRemoved (faulted : Bool)
  | laserModuleInserted (sock : Nat) (m : LaserModule)
  | laserModuleRemoved (sock : Nat) (faulted : Bool)
  | dimmThermalPoll (ch : Nat) (tempC : Int)
  | bringupPhaseDone (r : PhaseReport)
  | loftTestDone (failed : List Nat)
  | wakeRequest (p : Nat) (src : WakeSrc)
  | governorTick
  | stallWakeComplete (p : Nat)
  | stallNap (p : Nat)
  | stallSleep (p : Nat)
  | governorStepRaise
  | stallParked (p : Nat)
  | governorStepLower
  | ledgerCorrection (measuredW : Nat)
  | budgetWrite (w : Nat)
  | dieCurrentLimit (d amps : Nat)
  | dieCurrentPark (d : Nat)
  | dieThermalThrottle (d tj : Nat)
  | dieStepLower (d : Nat) (thermal : Bool) (value : Nat)
  | dieThermalTrip (d tj : Nat)
  | wakeWait (p : Nat)
  | openFrame (f : CtlFrame)
  | prove (f : CtlFrame)
  | challengeExpired
  | close (f : CtlFrame)
  | keepalive (f : CtlFrame)
  | ack (f : CtlFrame)
  | access (f : CtlFrame) (w : List (Nat × WriteReport))
  | registerWrite (addr value : Nat)
  | sessionIdleTimeout
  | retransmitTimeout
  | eventNote
  | ringDoorbell (ring producer : Nat)
  | ringCfgWrite (ring value : Nat)
  | evtCfgWrite (value : Nat)
  | evtConsumerWrite (value : Nat)
  | commandBusy
  | nop (ring : Nat)
  | halt (ring : Nat)
  | haltClear (ring : Nat)
  | jobEnd (ring : Nat)
  | rollback (ring : Nat) (w : List (Nat × WriteReport))
  | gate (f : CtlFrame)
  | harnessLoad (ring : Nat)
  | harnessLoadDone (w : List (Nat × WriteReport)) (lost : List Nat)
  | harnessUnload (ring : Nat)
  | harnessAmend (ring : Nat)
  | amendStaged
  | stepNop (p : Nat)
  | fwdEnd (p : Nat)
  | endProgram (p : Nat)
  | layer (p : Nat)
  | seti (p : Nat)
  | addi (p : Nat)
  | ldp (p : Nat)
  | stp (p : Nat)
  | loop (p : Nat)
  | wait (p : Nat)
  | move (p : Nat)
  | top (p : Nat)
  | qin (p : Nat)
  | mm (p : Nat)
  | vld (p : Nat)
  | vst (p : Nat)
  | vop (p : Nat)
  | vseti (p : Nat)
  | tzero (p : Nat)
  | tout (p : Nat)
  | route (p : Nat)
  | dispatch (p : Nat)
  | combine (p : Nat)
  | wake (p : Nat)
  | tileOpComplete (p slot : Nat)
  | sumWrite (p set : Nat)
  | mmComplete (p : Nat) (faults : List MacFault)
  | tileVoteDecided (p : Nat)
  | geVoteDecided (p : Nat) (faults : List MacFault)
  | driftWindowDone (p t : Nat) (xy : Int) (xx : Nat)
  | retrimDue (p t : Nat)
  | retrimForced (p t : Nat)
  | trimOverdue (p t : Nat)
  | idleRetrimStart (p t : Nat)
  | trimDone (p t : Nat) (m : TrimMeas)
  | rotationStart (p : Nat)
  | rotationFillDone (p : Nat) (w : WriteReport)
  | rotationTakeover (p : Nat) (w : WriteReport)
  | wearFlush
  | tileLevelWrite (p t row col : Nat) (levels : List Int) (w : WriteReport)
  | tileLevelRead (p t row col len : Nat)
  | fieldClear
  | histReset
  | backwardBegin
  | forwardBarrierSlow
  | backwardComplete
  | troughPartialPull (p : Nat)
  | partialWait (p : Nat)
  | dispatchFrame (f : TokFrame)
  | returnFrame (f : TokFrame)
  | closeFrame (f : TokFrame)
  | wakeFrame (f : TokFrame)
  | summaryFrame (f : TokFrame)
  | queryFrame (f : TokFrame)
  | partialFrame (f : TokFrame)
  | refuseFrame (f : TokFrame)
  | combineWait (p : Nat)
  | closeWait
  | toutLineStaged (p : Nat)
  | pln (z : Nat)
  | ctx (z : Nat)
  | updateOp (z : Nat)
  | stw (z : Nat)
  | sts (z : Nat)
  | updChipDone (z : Nat)
  | gateComplete (w : List (Nat × WriteReport))
  | loftFlitCrcError (z : Nat) (replay : Bool)
  | loftLinkRetrained (z : Nat)
  | loftLinkLost (z lanes : Nat)
  | loftPatrol (ch line : Nat) (found : Found)
  | loftFill (ring : Nat)
  | moverBurst (ch : Nat) (w : List (Nat × WriteReport))
  | chStart (ch : Nat)
  | chPause (ch : Nat)
  | chResume (ch : Nat)
  | chAbort (ch : Nat)
  | chReq (ch : Nat)
  | rateShareWrite (ch share : Nat)
  | rateWindow
  | rateHeld (ch : Nat)
  | portUp (port lanes group : Nat)
  | portAttemptFailed (port : Nat)
  | portLost (port cause : Nat)
  | portRetrainTimer (port : Nat)
  | portRetrain (port : Nat)
  | portEnable (port : Nat) (enable : Bool)
  | fecDegraded (port corrected : Nat)
  | pfcFrame (f : PfcFrame)
  | pfcPauseExpired (port prio : Nat)
  | pfcStorm (port prio : Nat)
  | xoffRepeat (port prio : Nat)
  | egressFrameStart (port : Nat)
  | arpRequest (port target : Nat) (src : NetAddr)
  | neighbourSolicitation (port target : Nat) (src : NetAddr)
  | echoRequest (rx : Rx) (payload : Bytes)
  | feedFrame (f : FeedFrame)
  | feedConsumedWrite (value : Nat)
  | feedCfgWrite (value : Nat)
  | hello (f : TeamFrame)
  | beat (f : TeamFrame)
  | beatTimer
  | teamSilence
  | teamFormationTimeout
  | bye (f : TeamFrame)
  | page (f : TeamFrame)
  | pageAck (f : TeamFrame)
  | pageResend (group page : Nat)
  | commit (f : TeamFrame)
  | commitAck (f : TeamFrame)
  | teamAccess (f : TeamFrame) (w : List (Nat × WriteReport))
  | accessResp (f : TeamFrame)
  | securingHeld
  | releaseWrite (step : Nat)
  | mirrorCopy (ring : Nat)
  | slotOnFallback (p slot : Nat)
  | rebuildStart (p slot : Nat) (w : WriteReport)
  | rebuildDone (p slot : Nat) (w : WriteReport)
  | attest (ring : Nat)
  | slotUpdate (ring : Nat)
  | fwUpdate (ring : Nat)
  | scrub (ring : Nat) (w : List (Nat × WriteReport))
  | chipLost (z : Nat)
  deriving DecidableEq, Repr

end Sys2Proof
end

