-- ==== Sys2Proof/Decode.lean ====
section
/-! DEFINITION. Decode.lean: the command a word spells. -/
namespace Sys2Proof

/-- The command a word spells by the table's bits. No row of spec/opcode_table.json gives bits, so no word spells one (DESIGN CHOICE, assumption 134). -/
def decodeTableWord (_nbits _w : Nat) : Option Instr := none

end Sys2Proof
end

