-- ==== Sys2Proof/Config.lean ====
section
/-! DEFINITION. Config.lean: the values the manual leaves open, each a constant with no body. -/
namespace Sys2Proof.Config

/-- FREE VALUE. The analogue error, in ADC codes, of the conversion numbered by the first argument on sense line
`line` (R203: the ADC codes carry analogue error and are not reproducible) (DEDUCED, assumption 6). -/
opaque adcError : (draw line : Nat) → Int

/-- FREE VALUE. The module nonce of the n-th CHALLENGE (R466 gives its length only) (PRESUMED, assumption 43). -/
opaque nonce : (draw : Nat) → List (BitVec 8)

/-- FREE VALUE. The ephemeral X448 private key of the n-th CHALLENGE (R466). -/
opaque ephemeral : (draw : Nat) → List (BitVec 8)

/-- FREE VALUE. The session number chosen at the n-th ACCEPT, before the two rules of R466 are applied to it. -/
opaque sessionId : (draw : Nat) → Nat

/-- Ed448 signing by the module's own device key, whose private half is reachable by no address (R463). -/
opaque deviceSign : (ctx msg : List (BitVec 8)) → List (BitVec 8)

/-- The public half of the device key (R463). -/
opaque deviceKey : List (BitVec 8)

/-- The DER certificate chain, from device to root (R463, R470). -/
opaque certChain : List (BitVec 8)

/-- Whether a firmware image's DER certificate chains to a fused Bumal root (R463, R471), and the key it certifies. -/
opaque firmwareCertKey : (der : List (BitVec 8)) → Option (List (BitVec 8))

/-- FREE VALUE. The result of an operation whose result the manual does not state for its operands: the draw number
and the operation's number. -/
opaque freeNat : (draw op : Nat) → Nat

/-- FREE VALUE. The level that a pair of a tile holds after the test patterns of a cold path (R98, R99: a level of a
SHAKE256 stream whose use the manual does not lay out): tile number and pair number, 528 per row (DESIGN CHOICE, assumption 14). -/
opaque patternLevel : (tile pair : Nat) → Int

/-- The version of a firmware image by its digest: R471's layout holds none (DESIGN CHOICE, assumption 10). -/
opaque fwVersion : (digest : List (BitVec 8)) → Nat

/-- FREE VALUE. The seed of the wear generator of a tile (R241 gives none). -/
opaque wearSeed : (tile : Nat) → Nat

/-- The module's serial number, 16 ASCII bytes, NUL-padded (R67). -/
opaque serial : List (BitVec 8)

end Sys2Proof.Config
end

