-- ==== Sys2Proof/Machine/Bits.lean ====
section
/-! DEFINITION. Machine/Bits.lean: bit fields, byte order and bounded counts (R11, R12). -/
namespace Sys2Proof.Machine

/-- Bits [hi:lo] of `v` (R11). -/
def bits (v hi lo : Nat) : Nat := v / 2 ^ lo % 2 ^ (hi + 1 - lo)

/-- One bit of `v`. -/
def bit (v i : Nat) : Bool := v / 2 ^ i % 2 == 1

/-- A flag as a number. -/
def b2n (b : Bool) : Nat := if b then 1 else 0

/-- Set bit `i` of `v` to `b`. -/
def setBit (v i : Nat) (b : Bool) : Nat := v - b2n (bit v i) * 2 ^ i + b2n b * 2 ^ i

/-- Number of ones among the lowest `n` bits. -/
def popcount : Nat → Nat → Nat
  | 0, _ => 0
  | n + 1, v => v % 2 + popcount n (v / 2)

/-- Little-endian value of bytes (R12). -/
def leNat : Bytes → Nat
  | [] => 0
  | b :: r => b.toNat + 256 * leNat r

/-- `n` little-endian bytes of a value (R12). -/
def leBytes : Nat → Nat → Bytes
  | 0, _ => []
  | n + 1, v => BitVec.ofNat 8 v :: leBytes n (v / 256)

/-- `n` big-endian bytes, for headers of published standards (R12). -/
def beBytes (n v : Nat) : Bytes := (leBytes n v).reverse

/-- `len` bytes at offset `off`; bytes past the end read as zero. -/
def slice (b : Bytes) (off len : Nat) : Bytes :=
  let c := (b.drop off).take len
  c ++ List.replicate (len - c.length) 0

/-- Little-endian field of `len` bytes at offset `off`. -/
def fieldAt (b : Bytes) (off len : Nat) : Nat := leNat (slice b off len)

/-- Whether `len` bytes at `off` are all zero. -/
def zeroAt (b : Bytes) (off len : Nat) : Bool := fieldAt b off len == 0

/-- A count that stops at its largest value. -/
def satAdd (max a b : Nat) : Nat := min max (a + b)

/-- The ASCII bytes of a text. -/
def ascii (t : String) : Bytes := t.toList.map (fun c => BitVec.ofNat 8 c.toNat)

/-- Two's complement reading of the lowest `w` bits. -/
def toSigned (w v : Nat) : Int :=
  let m := v % 2 ^ w
  if m < 2 ^ (w - 1) then (m : Int) else (m : Int) - (2 ^ w : Nat)

/-- Two's complement encoding in `w` bits. -/
def ofSigned (w : Nat) (i : Int) : Nat := (i % ((2 ^ w : Nat) : Int)).toNat

/-- Round a rational to the nearest integer, ties to even; the denominator is positive. -/
def roundDiv (num : Int) (den : Nat) : Int :=
  let q := num / (den : Int)
  let r := num % (den : Int)
  if 2 * r < den then q
  else if 2 * r > den then q + 1
  else if q % 2 = 0 then q else q + 1

/-- Integer square root, rounded down, by bisection on bits. -/
def isqrtGo : Nat → Nat → Nat → Nat
  | 0, _, acc => acc
  | n + 1, v, acc =>
    let c := acc + 2 ^ n
    if c * c ≤ v then isqrtGo n v c else isqrtGo n v acc

/-- Integer square root, rounded down. -/
def isqrt (v : Nat) : Nat := isqrtGo (Nat.log2 v / 2 + 1) v 0

/-- `⌈a / b⌉`. -/
def ceilDiv (a b : Nat) : Nat := (a + b - 1) / b

/-- The number of a list's elements that satisfy a test. -/
def countIf {α : Type} (l : List α) (p : α → Bool) : Nat := (l.filter p).length

/-- The whole numbers from `a` on, `n` of them. -/
def rangeFrom (a n : Nat) : List Nat := (List.range n).map (a + ·)

end Sys2Proof.Machine
end

