-- ==== Sys2Proof/Machine/Hash.lean ====
section
/-! DEFINITION. Machine/Hash.lean: SHAKE256 (FIPS 202), KMAC256 (SP 800-185), CRC-32 and CRC-32C, and the tags the manual
makes with them (R71, R416, R462). -/
namespace Sys2Proof.Machine

/-! ## Keccak-f[1600] (FIPS 202)

The state is one number of 1,600 bits; lane (x, y) is its bits 64 (5y + x) and up. -/

/-- Lane (x, y) of a state. -/
def lane (w x y : Nat) : Nat := w / 2 ^ (64 * (5 * y + x)) % 2 ^ 64

/-- Plane y of a state, or of a sum of planes: five lanes. -/
def plane (w y : Nat) : Nat := w / 2 ^ (320 * y) % 2 ^ 320

/-- A lane rotated towards its high end. -/
def rotLane (v n : Nat) : Nat := v * 2 ^ (n % 64) % 2 ^ 64 + v / 2 ^ (64 - n % 64)

/-- A state from its lanes, the first lowest. -/
def fromLanes : List Nat → Nat
  | [] => 0
  | v :: r => v + 2 ^ 64 * fromLanes r

/-- The step θ: every lane takes the parities of two columns. -/
def theta (w : Nat) : Nat :=
  let par := (List.range 5).foldl (fun m y => Nat.xor m (plane w y)) 0
  let d := fromLanes ((List.range 5).map (fun x => Nat.xor (lane par ((x + 4) % 5) 0) (rotLane (lane par ((x + 1) % 5) 0) 1)))
  Nat.xor w ((List.range 5).map (fun y => d * 2 ^ (320 * y))).sum

/-- The steps ρ and π along their common walk from (1, 0): the lane at step t turns by (t + 1)(t + 2)/2 and moves to where
the walk goes next; lane (0, 0) stays. -/
def rhoPi (w : Nat) : Nat → Nat → Nat → Nat
  | 0, _, _ => lane w 0 0
  | n + 1, x, y =>
    let t := 23 - n
    let y' := (2 * x + 3 * y) % 5
    rotLane (lane w x y) ((t + 1) * (t + 2) / 2) * 2 ^ (64 * (5 * y' + y)) + rhoPi w n y y'

/-- The step χ: within each plane a lane is flipped where the next is clear and the one after it set. -/
def chi (w : Nat) : Nat :=
  fromLanes ((List.range 25).map (fun i =>
    let y := i / 5
    Nat.xor (lane w (i % 5) y) (Nat.land (2 ^ 64 - 1 - lane w ((i + 1) % 5) y) (lane w ((i + 2) % 5) y))))

/-- One step of the register behind ι, x^8 + x^6 + x^5 + x^4 + 1. -/
def iotaStep (r : Nat) : Nat := Nat.xor (2 * r) (r / 128 * 0x171)

/-- The constant that ι takes from the register's next seven outputs: output j goes to bit 2^j − 1. -/
def iotaConst : Nat → Nat → Nat
  | 0, _ => 0
  | n + 1, r => (r % 2) * 2 ^ (2 ^ (6 - n) - 1) + iotaConst n (iotaStep r)

/-- Rounds of Keccak-f[1600]; `r` is the register of ι. -/
def keccakRounds : Nat → Nat → Nat → Nat
  | 0, w, _ => w
  | n + 1, w, r =>
    keccakRounds n (Nat.xor (chi (rhoPi (theta w) 24 1 0)) (iotaConst 7 r)) ((List.range 7).foldl (fun q _ => iotaStep q) r)

/-- Keccak-f[1600]. -/
def keccakF (w : Nat) : Nat := keccakRounds 24 w 1

/-- The rate of SHAKE256 and KMAC256 in bytes. -/
def rate : Nat := 136

/-- Absorb the padded message, block by block. -/
def absorb : Nat → Nat → Bytes → Nat
  | 0, w, _ => w
  | n + 1, w, m => absorb n (keccakF (Nat.xor w (leNat (m.take rate)))) (m.drop rate)

/-- Squeeze `n` blocks of output. -/
def squeeze : Nat → Nat → Bytes
  | 0, _ => []
  | n + 1, w => leBytes rate w ++ squeeze n (keccakF w)

/-- The multi-rate padding of FIPS 202 with a domain byte. -/
def sponge (dom : Nat) (m : Bytes) (len : Nat) : Bytes :=
  let q := rate - m.length % rate
  let pad := if q = 1 then [BitVec.ofNat 8 (dom + 0x80)]
    else [BitVec.ofNat 8 dom] ++ List.replicate (q - 2) 0 ++ [0x80]
  (squeeze (ceilDiv len rate) (absorb (m.length / rate + 1) 0 (m ++ pad))).take len

/-- SHAKE256 with `len` bytes of output (PRESUMED, assumption 148). -/
def shake256 (m : Bytes) (len : Nat) : Bytes := sponge 0x1F m len

/-- The number of bytes of a value, at least one. -/
def byteCount (v : Nat) : Nat := if v = 0 then 1 else Nat.log2 v / 8 + 1

/-- left_encode of SP 800-185. -/
def leftEncode (v : Nat) : Bytes := BitVec.ofNat 8 (byteCount v) :: beBytes (byteCount v) v

/-- right_encode of SP 800-185. -/
def rightEncode (v : Nat) : Bytes := beBytes (byteCount v) v ++ [BitVec.ofNat 8 (byteCount v)]

/-- encode_string of SP 800-185. -/
def encodeString (b : Bytes) : Bytes := leftEncode (8 * b.length) ++ b

/-- bytepad of SP 800-185 to the rate. -/
def bytepad (b : Bytes) : Bytes :=
  let m := leftEncode rate ++ b
  m ++ List.replicate ((rate - m.length % rate) % rate) 0

/-- KMAC256 of SP 800-185 with an output of 128 bits (R462). -/
def kmac256 (key msg : Bytes) (custom : String) : Bytes :=
  sponge 0x04 (bytepad (encodeString (ascii "KMAC") ++ encodeString (ascii custom))
    ++ (bytepad (encodeString key) ++ msg ++ rightEncode 128)) 16

/-- `n` steps of a reflected CRC. -/
def crcStep (poly : BitVec 32) : Nat → BitVec 32 → BitVec 32
  | 0, c => c
  | n + 1, c => crcStep poly n (if c.getLsbD 0 then (c >>> 1) ^^^ poly else c >>> 1)

/-- A reflected CRC with initial value and final XOR 0xFFFF_FFFF. -/
def crcOf (poly : BitVec 32) (b : Bytes) : Nat :=
  ((b.foldl (fun c x => crcStep poly 8 (c ^^^ x.setWidth 32)) 0xFFFFFFFF) ^^^ 0xFFFFFFFF).toNat

/-- CRC-32 of IEEE 802.3 (R71). -/
def crc32 (b : Bytes) : Nat := crcOf 0xEDB88320 b

/-- CRC-32C of RFC 3720 (R416). -/
def crc32c (b : Bytes) : Nat := crcOf 0x82F63B78 b

/-- The brand of a 64-byte line at a device address (R416). -/
def lineBrand (line : Bytes) (addr : Nat) : Nat := crc32c (slice line 0 64 ++ leBytes 8 addr)

end Sys2Proof.Machine
end

