-- ==== Sys2Proof/Machine/Curve448.lean ====
section
/-! DEFINITION. Machine/Curve448.lean: X448 (RFC 7748) and the verification of pure Ed448 signatures (RFC 8032), which R462
names (PRESUMED, assumption 148). -/
namespace Sys2Proof.Machine

/-! ## The field of 2^448 − 2^224 − 1 -/

/-- The prime of the field. -/
def p448 : Nat := 2 ^ 448 - 2 ^ 224 - 1

/-- A product in the field. -/
def pMul (a b : Nat) : Nat := a * b % p448

/-- A difference in the field. -/
def pSub (a b : Nat) : Nat := (a + p448 - b % p448) % p448

/-- A power in the field, over the lowest `n` bits of the exponent. -/
def pPow : Nat → Nat → Nat → Nat
  | 0, _, _ => 1
  | n + 1, a, e => if e % 2 = 0 then pPow n (pMul a a) (e / 2) else pMul a (pPow n (pMul a a) (e / 2))

/-- An inverse in the field; zero has zero. -/
def pInv (a : Nat) : Nat := pPow 448 a (p448 - 2)

/-! ## X448 (RFC 7748) -/

/-- The two points of the ladder, as X and Z of each. -/
structure Ladder where
  x2 : Nat
  z2 : Nat
  x3 : Nat
  z3 : Nat
  deriving DecidableEq, Repr

/-- Exchange the points of the ladder. -/
def Ladder.swap (l : Ladder) (b : Bool) : Ladder := if b then ⟨l.x3, l.z3, l.x2, l.z2⟩ else l

/-- One doubling and one addition, for base coordinate `u`. -/
def Ladder.step (l : Ladder) (u : Nat) : Ladder :=
  let a := l.x2 + l.z2
  let b := pSub l.x2 l.z2
  let aa := pMul a a
  let bb := pMul b b
  let e := pSub aa bb
  let da := pMul (pSub l.x3 l.z3) a
  let cb := pMul (l.x3 + l.z3) b
  { x2 := pMul aa bb, z2 := pMul e (aa + 39081 * e), x3 := pMul (da + cb) (da + cb),
    z3 := pMul u (pMul (pSub da cb) (pSub da cb)) }

/-- The ladder over the lowest `n` bits of the scalar, from the highest. -/
def ladderGo (k u : Nat) : Nat → Ladder → Ladder
  | 0, l => l
  | n + 1, l =>
    let b := k / 2 ^ n % 2 == 1
    ladderGo k u n (((l.swap b).step u).swap b)

/-- X448 of a 56-byte private key and a 56-byte coordinate (RFC 7748). -/
def x448 (priv pub : Bytes) : Bytes :=
  let k := fieldAt priv 0 56
  let k := (k - k % 4) % 2 ^ 447 + 2 ^ 447
  let u := fieldAt pub 0 56 % p448
  let l := ladderGo k u 448 ⟨1, 0, u, 1⟩
  leBytes 56 (pMul l.x2 (pInv l.z2))

/-- The X448 public key of a private key: base coordinate 5. -/
def x448Base (priv : Bytes) : Bytes := x448 priv (leBytes 56 5)

/-! ## Ed448 (RFC 8032) -/

/-- A point of edwards448, x² + y² = 1 − 39081 x² y², in projective coordinates. -/
structure EdPoint where
  x : Nat
  y : Nat
  z : Nat
  deriving DecidableEq, Repr

/-- The neutral point. -/
def EdPoint.zero : EdPoint := ⟨0, 1, 1⟩

/-- The sum of two points, equal ones too. -/
def EdPoint.add (a b : EdPoint) : EdPoint :=
  let zz := pMul a.z b.z
  let zz2 := pMul zz zz
  let xx := pMul a.x b.x
  let yy := pMul a.y b.y
  let e := pMul 39081 (pMul xx yy)
  let f := zz2 + e
  let g := pSub zz2 e
  let h := pSub (pMul (a.x + a.y) (b.x + b.y)) (xx + yy)
  { x := pMul zz (pMul f h), y := pMul zz (pMul g (pSub yy xx)), z := pMul f g }

/-- A multiple of a point by the lowest `n` bits of `k`. -/
def EdPoint.mul : Nat → Nat → EdPoint → EdPoint
  | 0, _, _ => EdPoint.zero
  | n + 1, k, a =>
    let r := EdPoint.mul n (k / 2) (a.add a)
    if k % 2 = 0 then r else r.add a

/-- Whether two points are the same. -/
def EdPoint.same (a b : EdPoint) : Bool := pMul a.x b.z == pMul b.x a.z && pMul a.y b.z == pMul b.y a.z

/-- The point that 57 bytes encode (RFC 8032, 5.2.3). -/
def edDecode (b : Bytes) : Option EdPoint :=
  let v := leNat b
  let y := v % 2 ^ 455
  let sign := v / 2 ^ 455
  if b.length ≠ 57 ∨ p448 ≤ y then none
  else
    let u := pSub (pMul y y) 1
    let w := pSub 0 (pMul 39081 (pMul y y) + 1)
    let u3 := pMul u (pMul u u)
    let x := pMul (pMul u3 w) (pPow 448 (pMul u3 (pMul (pMul u u) (pMul w (pMul w w)))) ((p448 - 3) / 4))
    if pMul w (pMul x x) ≠ u then none
    else if x = 0 ∧ sign = 1 then none
    else some ⟨if x % 2 = sign then x else pSub 0 x, y, 1⟩

/-- The order of the base point. -/
def edOrder : Nat :=
  2 ^ 446 - 0x8335DC163BB124B65129C96FDE933D8D723A70AADC873D6D54A7BB0D

/-- The base point. -/
def edBase : EdPoint :=
  { x := 0x4F1970C66BED0DED221D15A622BF36DA9E146570470F1767EA6DE324A3D3A46412AE1AF72AB66511433B80E18B00938E2626A82BC70CC05E,
    y := 0x693F46716EB6BC248876203756C9C7624BEA73736CA3984087789C1E05A0C2D73AD3FF1CE67C39C4FDBD132C4ED7C8AD9808795BF230FA14,
    z := 1 }

/-- Verification of a pure Ed448 signature (RFC 8032, 5.2.7): public key, context, message, signature. Of the two equations
that RFC 8032 allows the model takes the one multiplied by the cofactor 4 (DESIGN CHOICE, assumption 7). -/
def ed448Verify (key ctx msg sig : Bytes) : Bool :=
  let s := leNat (sig.drop 57)
  match edDecode key, edDecode (sig.take 57) with
  | some a, some r =>
    let dom := ascii "SigEd448" ++ leBytes 1 0 ++ leBytes 1 ctx.length ++ ctx
    let k := leNat (shake256 (dom ++ sig.take 57 ++ key ++ msg) 114) % edOrder
    sig.length == 114 && decide (s < edOrder) && decide (ctx.length < 256)
      && ((edBase.mul 446 s).mul 3 4).same (((r.add (a.mul 446 k))).mul 3 4)
  | _, _ => false

/-- Ed448 verification over the 64-byte SHAKE256 output of the signed bytes (R462). -/
def verify (key : Bytes) (ctx : String) (signed sig : Bytes) : Bool := ed448Verify key (ascii ctx) (shake256 signed 64) sig

end Sys2Proof.Machine
end

