-- ==== Sys2Proof/Machine/Tab.lean ====
section
/-! DEFINITION. Machine/Tab.lean: sparse data by number (registers, memory, per-unit records), sorted by key. -/
namespace Sys2Proof.Machine

/-- Sparse data by key: keys strictly rising in every table the model builds. -/
abbrev Tab (α : Type) := List (Nat × α)

/-- The entry at `k`, if the table lists one. -/
def tget? {α : Type} : Tab α → Nat → Option α
  | [], _ => none
  | (a, b) :: r, k => if a = k then some b else tget? r k

/-- The value at `k`: what an unlisted key reads as is `d`. -/
def tget {α : Type} (d : α) (m : Tab α) (k : Nat) : α := (tget? m k).getD d

/-- Set the entry at `k`, keeping the keys in rising order. -/
def tset {α : Type} : Tab α → Nat → α → Tab α
  | [], k, v => [(k, v)]
  | (a, b) :: r, k, v =>
    if k < a then (k, v) :: (a, b) :: r
    else if a = k then (k, v) :: r
    else (a, b) :: tset r k v

/-- Drop the entry at `k`. -/
def tdel {α : Type} (m : Tab α) (k : Nat) : Tab α := m.filter (fun p => p.1 != k)

/-- Drop every entry with `lo ≤ key < hi`. -/
def tdrop {α : Type} (m : Tab α) (lo hi : Nat) : Tab α := m.filter (fun p => p.1 < lo || hi ≤ p.1)

/-- Put entries in place of all those with `lo ≤ key < hi`. -/
def tsplice {α : Type} (m : Tab α) (lo hi : Nat) (new : Tab α) : Tab α :=
  m.filter (fun p => decide (p.1 < lo)) ++ new ++ m.filter (fun p => decide (hi ≤ p.1))

/-- Set the value at `k`, listing no entry equal to the default `d` (the canonical form). -/
def tput {α : Type} [DecidableEq α] (d : α) (m : Tab α) (k : Nat) (v : α) : Tab α :=
  if v = d then tdel m k else tset m k v

/-- Change the value at `k`. -/
def tmod {α : Type} [DecidableEq α] (d : α) (m : Tab α) (k : Nat) (f : α → α) : Tab α :=
  tput d m k (f (tget d m k))

/-- Whether the keys rise strictly. -/
def tsorted {α : Type} : Tab α → Bool
  | [] => true
  | [_] => true
  | (a, _) :: (b, y) :: r => decide (a < b) && tsorted ((b, y) :: r)

/-- The canonical form: keys strictly rising, no entry equal to the default. -/
def tcanon {α : Type} [DecidableEq α] (d : α) (m : Tab α) : Bool :=
  tsorted m && m.all (fun p => decide (p.2 ≠ d))

end Sys2Proof.Machine
end

