-- ==== Sys2Proof/Machine/Regs.lean ====
section
/-! DEFINITION. Machine/Regs.lean: every register of the manual, field by field, as the register tables of the chapters
give them: address, place of the bits, access code and reset value (R15 to R20, R137). -/
namespace Sys2Proof.Machine

/-- The access codes of R16. -/
inductive Acc where
  | rw | ro | wo | w1c | rwg | key
  deriving DecidableEq, Repr

/-- A field of a register: the register's block number × 2^24 + offset of unit 0, the distance between units, its lowest
bit, its width, its access code, its value at reset, and whether its register is laid out in 64 KiB pages (R137). -/
structure Field where
  base : Nat
  stride : Nat
  lo : Nat
  width : Nat
  acc : Acc
  rst : Nat
  paged : Bool
  deriving DecidableEq, Repr

/-- A register: its name, its place, how many units repeat it, and its fields from high to low. -/
structure RegDef where
  name : String
  base : Nat
  stride : Nat
  count : Nat
  paged : Bool
  fields : List Field
  deriving DecidableEq, Repr

/-- Distance of unit `u` from unit 0 (R137: pages of 4,096 entries where the register is laid out in pages). -/
def unitOff (paged : Bool) (stride u : Nat) : Nat :=
  if paged then 0x10000 * (u / 4096) + 8 * (u % 4096) else stride * u

/-- The number a field of unit `u` is held under. -/
def fkey (f : Field) (u : Nat) : Nat := (f.base + unitOff f.paged f.stride u) * 64 + f.lo

/-- BRU.BAY_ID.bay_number, bits 63:48, reset set. -/
def R.bruBayId_bayNumber : Field := ⟨0x5000800, 8, 48, 16, .ro, 0xffff, false⟩
/-- BRU.BAY_ID.power_limit_w, bits 47:32, reset set. -/
def R.bruBayId_powerLimitW : Field := ⟨0x5000800, 8, 32, 16, .ro, 0x960, false⟩
/-- BRU.BAY_ID.sensed_bay, bits 31:16, reset set. -/
def R.bruBayId_sensedBay : Field := ⟨0x5000800, 8, 16, 16, .ro, 0xffff, false⟩
/-- BRU.BAY_ID.team_sense_wired, bits 7, reset set. -/
def R.bruBayId_teamSenseWired : Field := ⟨0x5000800, 8, 7, 1, .ro, 0, false⟩
/-- BRU.BAY_ID.clk156_ok, bits 6, reset 0. -/
def R.bruBayId_clk156Ok : Field := ⟨0x5000800, 8, 6, 1, .ro, 0, false⟩
/-- BRU.BAY_ID.clk25_core_ok, bits 5, reset 0. -/
def R.bruBayId_clk25CoreOk : Field := ⟨0x5000800, 8, 5, 1, .ro, 0, false⟩
/-- BRU.BAY_ID.clk25_aon_ok, bits 4, reset 0. -/
def R.bruBayId_clk25AonOk : Field := ⟨0x5000800, 8, 4, 1, .ro, 0, false⟩
/-- BRU.BAY_ID.team_sense_level, bits 3, reset set: before a refresh samples it the level of an open line (DESIGN CHOICE,
assumption 10). -/
def R.bruBayId_teamSenseLevel : Field := ⟨0x5000800, 8, 3, 1, .ro, 1, false⟩
/-- BRU.BAY_ID.alert_n_driven, bits 2, reset 0. -/
def R.bruBayId_alertNDriven : Field := ⟨0x5000800, 8, 2, 1, .ro, 0, false⟩
/-- BRU.BAY_ID.bay_status, bits 1:0, reset set. -/
def R.bruBayId_bayStatus : Field := ⟨0x5000800, 8, 0, 2, .ro, 1, false⟩
/-- BRU.BAY_TAGS.feed_tag_b, bits 63:32, reset set. -/
def R.bruBayTags_feedTagB : Field := ⟨0x5000808, 8, 32, 32, .ro, 0, false⟩
/-- BRU.BAY_TAGS.feed_tag_a, bits 31:0, reset set. -/
def R.bruBayTags_feedTagA : Field := ⟨0x5000808, 8, 0, 32, .ro, 0, false⟩
/-- BRU.BAY_LOOP.loop_tag, bits 31:0, reset set. -/
def R.bruBayLoop_loopTag : Field := ⟨0x5000810, 8, 0, 32, .ro, 0, false⟩
/-- BRU.BAY_INSTALL.installation_id, bits 63:0, reset set. -/
def R.bruBayInstall_installationId : Field := ⟨0x5000818, 8, 0, 64, .ro, 0, false⟩
/-- BRU.FIT.loft_speed_mts, bits 63:48, reset set. -/
def R.bruFit_loftSpeedMts : Field := ⟨0x5000820, 8, 48, 16, .ro, 0, false⟩
/-- BRU.FIT.dimm_present, bits 47:40, reset set. -/
def R.bruFit_dimmPresent : Field := ⟨0x5000820, 8, 40, 8, .ro, 0, false⟩
/-- BRU.FIT.dimm_usable, bits 39:32, reset set. -/
def R.bruFit_dimmUsable : Field := ⟨0x5000820, 8, 32, 8, .ro, 0, false⟩
/-- BRU.FIT.loft_channel_gib, bits 31:20, reset set. -/
def R.bruFit_loftChannelGib : Field := ⟨0x5000820, 8, 20, 12, .ro, 0, false⟩
/-- BRU.FIT.laser_present, bits 19:16, reset set. -/
def R.bruFit_laserPresent : Field := ⟨0x5000820, 8, 16, 4, .ro, 0, false⟩
/-- BRU.FIT.laser_usable, bits 15:12, reset set. -/
def R.bruFit_laserUsable : Field := ⟨0x5000820, 8, 12, 4, .ro, 0, false⟩
/-- BRU.FIT.host_module_present, bits 11, reset set. -/
def R.bruFit_hostModulePresent : Field := ⟨0x5000820, 8, 11, 1, .ro, 0, false⟩
/-- BRU.FIT.host_module_usable, bits 10, reset set. -/
def R.bruFit_hostModuleUsable : Field := ⟨0x5000820, 8, 10, 1, .ro, 0, false⟩
/-- BRU.FIT.loft_population, bits 9:8, reset set. -/
def R.bruFit_loftPopulation : Field := ⟨0x5000820, 8, 8, 2, .ro, 0, false⟩
/-- BRU.CTL.force_cold, bits 1, reset set. -/
def R.bruCtl_forceCold : Field := ⟨0x5000000, 8, 1, 1, .rw, 0, false⟩
/-- BRU.CTL.warm_enable, bits 0, reset set. -/
def R.bruCtl_warmEnable : Field := ⟨0x5000000, 8, 0, 1, .rw, 1, false⟩
/-- BRU.STATUS.phase, bits 63:60, reset 0. -/
def R.bruStatus_phase : Field := ⟨0x5000008, 8, 60, 4, .ro, 0, false⟩
/-- BRU.STATUS.path, bits 59, reset set. -/
def R.bruStatus_path : Field := ⟨0x5000008, 8, 59, 1, .ro, 0, false⟩
/-- BRU.STATUS.warm_abandoned, bits 58, reset 0. -/
def R.bruStatus_warmAbandoned : Field := ⟨0x5000008, 8, 58, 1, .ro, 0, false⟩
/-- BRU.STATUS.waiting_ports, bits 57, reset 0. -/
def R.bruStatus_waitingPorts : Field := ⟨0x5000008, 8, 57, 1, .ro, 0, false⟩
/-- BRU.STATUS.stop_cause, bits 56:52, reset 0. -/
def R.bruStatus_stopCause : Field := ⟨0x5000008, 8, 52, 5, .ro, 0, false⟩
/-- BRU.STATUS.log_dropped, bits 51:40, reset 0. -/
def R.bruStatus_logDropped : Field := ⟨0x5000008, 8, 40, 12, .ro, 0, false⟩
/-- BRU.STATUS.warm_refusal, bits 39:32, reset set. -/
def R.bruStatus_warmRefusal : Field := ⟨0x5000008, 8, 32, 8, .ro, 0, false⟩
/-- BRU.STATUS.elapsed_ms, bits 31:0, reset 0. -/
def R.bruStatus_elapsedMs : Field := ⟨0x5000008, 8, 0, 32, .ro, 0, false⟩
/-- BRU.CLASS.class, bits 63:56, reset 0. -/
def R.bruClass_class : Field := ⟨0x5000010, 8, 56, 8, .ro, 0, false⟩
/-- BRU.CLASS.live_stalls, bits 55:46, reset 0. -/
def R.bruClass_liveStalls : Field := ⟨0x5000010, 8, 46, 10, .ro, 0, false⟩
/-- BRU.CLASS.live_tiles, bits 45:31, reset 0. -/
def R.bruClass_liveTiles : Field := ⟨0x5000010, 8, 31, 15, .ro, 0, false⟩
/-- BRU.CLASS.no_reserve_stalls, bits 30:21, reset 0. -/
def R.bruClass_noReserveStalls : Field := ⟨0x5000010, 8, 21, 10, .ro, 0, false⟩
/-- BRU.CLASS.no_relief_stalls, bits 20:11, reset 0. -/
def R.bruClass_noReliefStalls : Field := ⟨0x5000010, 8, 11, 10, .ro, 0, false⟩
/-- BRU.CLASS.disabled_stalls, bits 10:1, reset 0. -/
def R.bruClass_disabledStalls : Field := ⟨0x5000010, 8, 1, 10, .ro, 0, false⟩
/-- BRU.LINKS.fabric_up, bits 63:40, reset 0. -/
def R.bruLinks_fabricUp : Field := ⟨0x5000018, 8, 40, 24, .ro, 0, false⟩
/-- BRU.LINKS.fabric_narrow, bits 39:16, reset 0. -/
def R.bruLinks_fabricNarrow : Field := ⟨0x5000018, 8, 16, 24, .ro, 0, false⟩
/-- BRU.LINKS.loft_link_up, bits 15:12, reset 0. -/
def R.bruLinks_loftLinkUp : Field := ⟨0x5000018, 8, 12, 4, .ro, 0, false⟩
/-- BRU.LINKS.host_up, bits 11, reset 0. -/
def R.bruLinks_hostUp : Field := ⟨0x5000018, 8, 11, 1, .ro, 0, false⟩
/-- BRU.STALL_VERDICT.verdict, bits 63:61, reset set. -/
def R.bruStallVerdict_verdict : Field := ⟨0x5001000, 8, 61, 3, .ro, 0, false⟩
/-- BRU.STALL_VERDICT.ge_test, bits 60:59, reset set. -/
def R.bruStallVerdict_geTest : Field := ⟨0x5001000, 8, 59, 2, .ro, 0, false⟩
/-- BRU.STALL_VERDICT.store_test, bits 58:57, reset set. -/
def R.bruStallVerdict_storeTest : Field := ⟨0x5001000, 8, 57, 2, .ro, 0, false⟩
/-- BRU.STALL_VERDICT.trough_test, bits 56:55, reset set. -/
def R.bruStallVerdict_troughTest : Field := ⟨0x5001000, 8, 55, 2, .ro, 0, false⟩
/-- BRU.STALL_VERDICT.relief_pos, bits 54:49, reset set. -/
def R.bruStallVerdict_reliefPos : Field := ⟨0x5001000, 8, 49, 6, .ro, 63, false⟩
/-- BRU.STALL_VERDICT.reserve_pos, bits 48:43, reset set. -/
def R.bruStallVerdict_reservePos : Field := ⟨0x5001000, 8, 43, 6, .ro, 63, false⟩
/-- BRU.STALL_VERDICT.bad_tiles, bits 42:37, reset set. -/
def R.bruStallVerdict_badTiles : Field := ⟨0x5001000, 8, 37, 6, .ro, 0, false⟩
/-- BRU.STALL_VERDICT.tile_tested, bits 33:0, reset set. -/
def R.bruStallVerdict_tileTested : Field := ⟨0x5001000, 8, 0, 34, .ro, 0, false⟩
/-- BRU.TILE_FAIL.tile_fail, bits 33:0, reset set. -/
def R.bruTileFail_tileFail : Field := ⟨0x5002000, 8, 0, 34, .ro, 0, false⟩
/-- FUS.MAP_INFO.map_version, bits 63:48, reset set. -/
def R.fusMapInfo_mapVersion : Field := ⟨0x4000000, 8, 48, 16, .ro, 0, false⟩
/-- FUS.MAP_INFO.factory_class, bits 47:40, reset set. -/
def R.fusMapInfo_factoryClass : Field := ⟨0x4000000, 8, 40, 8, .ro, 1, false⟩
/-- FUS.MAP_INFO.fuse_good_stalls, bits 39:30, reset set. -/
def R.fusMapInfo_fuseGoodStalls : Field := ⟨0x4000000, 8, 30, 10, .ro, 512, false⟩
/-- FUS.MAP_INFO.map_ok, bits 0, reset set. -/
def R.fusMapInfo_mapOk : Field := ⟨0x4000000, 8, 0, 1, .ro, 1, false⟩
/-- FUS.FIELD_CLEAR.clear, bits 63:0, reset 0. -/
def R.fusFieldClear_clear : Field := ⟨0x4000008, 8, 0, 64, .key, 0, false⟩
/-- FUS.STALL_FUSE.trough_good, bits 36, reset set. -/
def R.fusStallFuse_troughGood : Field := ⟨0x4001000, 8, 36, 1, .ro, 1, false⟩
/-- FUS.STALL_FUSE.store_good, bits 35, reset set. -/
def R.fusStallFuse_storeGood : Field := ⟨0x4001000, 8, 35, 1, .ro, 1, false⟩
/-- FUS.STALL_FUSE.ge_good, bits 34, reset set. -/
def R.fusStallFuse_geGood : Field := ⟨0x4001000, 8, 34, 1, .ro, 1, false⟩
/-- FUS.STALL_FUSE.tile_good, bits 33:0, reset set. -/
def R.fusStallFuse_tileGood : Field := ⟨0x4001000, 8, 0, 34, .ro, 0x3ffffffff, false⟩
/-- FUS.STALL_FIELD.ge_field_off, bits 34, reset set. -/
def R.fusStallField_geFieldOff : Field := ⟨0x4002000, 8, 34, 1, .ro, 0, false⟩
/-- FUS.STALL_FIELD.tile_field_off, bits 33:0, reset set. -/
def R.fusStallField_tileFieldOff : Field := ⟨0x4002000, 8, 0, 34, .ro, 0, false⟩
/-- CLK.WATCH.count, bits 63:0, reset set. -/
def R.clkWatch_count : Field := ⟨0x3000000, 8, 0, 64, .ro, 0, false⟩
/-- CLK.WATCH_SRC.on_internal, bits 0, reset set. -/
def R.clkWatchSrc_onInternal : Field := ⟨0x3000008, 8, 0, 1, .ro, 1, false⟩
/-- CLK.IDLE.wake_linger, bits 47:32, reset 500. -/
def R.clkIdle_wakeLinger : Field := ⟨0x3000010, 8, 32, 16, .rwg, 500, false⟩
/-- CLK.IDLE.sleep_idle, bits 31:16, reset 5,000. -/
def R.clkIdle_sleepIdle : Field := ⟨0x3000010, 8, 16, 16, .rwg, 0x1388, false⟩
/-- CLK.IDLE.nap_idle, bits 15:0, reset 50. -/
def R.clkIdle_napIdle : Field := ⟨0x3000010, 8, 0, 16, .rwg, 50, false⟩
/-- CLK.BARN.pll_running, bits 7, reset 0. -/
def R.clkBarn_pllRunning : Field := ⟨0x3000800, 8, 7, 1, .ro, 0, false⟩
/-- CLK.BARN.running_stalls, bits 5:0, reset 0. -/
def R.clkBarn_runningStalls : Field := ⟨0x3000800, 8, 0, 6, .ro, 0, false⟩
/-- CLK.STALL.late_wakes, bits 63:48, reset 0. -/
def R.clkStall_lateWakes : Field := ⟨0x3001000, 8, 48, 16, .ro, 0, false⟩
/-- CLK.STALL.state, bits 15:13, reset set. -/
def R.clkStall_state : Field := ⟨0x3001000, 8, 13, 3, .ro, 0, false⟩
/-- CLK.STALL.parked, bits 12, reset 0. -/
def R.clkStall_parked : Field := ⟨0x3001000, 8, 12, 1, .ro, 0, false⟩
/-- CLK.STALL.eff_step, bits 11:9, reset 0. -/
def R.clkStall_effStep : Field := ⟨0x3001000, 8, 9, 3, .ro, 0, false⟩
/-- CLK.STALL.rest_step, bits 6:5, reset 0. -/
def R.clkStall_restStep : Field := ⟨0x3001000, 8, 5, 2, .ro, 0, false⟩
/-- CLK.STALL.no_sleep, bits 1, reset 0. -/
def R.clkStall_noSleep : Field := ⟨0x3001000, 8, 1, 1, .rwg, 0, false⟩
/-- CLK.STALL.pin_awake, bits 0, reset 0. -/
def R.clkStall_pinAwake : Field := ⟨0x3001000, 8, 0, 1, .rwg, 0, false⟩
/-- PWR.BUDGET.ceiling_w, bits 47:32, reset set. -/
def R.pwrBudget_ceilingW : Field := ⟨0x2000000, 8, 32, 16, .ro, 0x960, false⟩
/-- PWR.BUDGET.floor_w, bits 31:16, reset 1,200. -/
def R.pwrBudget_floorW : Field := ⟨0x2000000, 8, 16, 16, .ro, 0x4b0, false⟩
/-- PWR.BUDGET.budget_w, bits 15:0, reset set. -/
def R.pwrBudget_budgetW : Field := ⟨0x2000000, 8, 0, 16, .rw, 0x960, false⟩
/-- PWR.GOV.g, bits 63:61, reset 0. -/
def R.pwrGov_g : Field := ⟨0x2000008, 8, 61, 3, .ro, 0, false⟩
/-- PWR.GOV.parked, bits 60:51, reset 0. -/
def R.pwrGov_parked : Field := ⟨0x2000008, 8, 51, 10, .ro, 0, false⟩
/-- PWR.GOV.waiting, bits 50:41, reset 0. -/
def R.pwrGov_waiting : Field := ⟨0x2000008, 8, 41, 10, .ro, 0, false⟩
/-- PWR.GOV.c_w, bits 40:29, reset 0. -/
def R.pwrGov_cW : Field := ⟨0x2000008, 8, 29, 12, .ro, 0, false⟩
/-- PWR.GOV.allowance_w, bits 28:16, reset set. -/
def R.pwrGov_allowanceW : Field := ⟨0x2000008, 8, 16, 13, .ro, 0, false⟩
/-- PWR.GOV.ledger_w, bits 15:3, reset set. -/
def R.pwrGov_ledgerW : Field := ⟨0x2000008, 8, 3, 13, .ro, 0, false⟩
/-- PWR.COST.eff_q16, bits 63:48, reset set. -/
def R.pwrCost_effQ16 : Field := ⟨0x2000010, 8, 48, 16, .ro, 0xf1cb, false⟩
/-- PWR.COST.fixed_w, bits 47:38, reset set. -/
def R.pwrCost_fixedW : Field := ⟨0x2000010, 8, 38, 10, .ro, 653, false⟩
/-- PWR.COST.dynamic_mw, bits 37:26, reset set. -/
def R.pwrCost_dynamicMw : Field := ⟨0x2000010, 8, 26, 12, .ro, 0xba4, false⟩
/-- PWR.COST.static_mw, bits 25:14, reset set. -/
def R.pwrCost_staticMw : Field := ⟨0x2000010, 8, 14, 12, .ro, 300, false⟩
/-- PWR.COST.sleep_mw, bits 13:4, reset set. -/
def R.pwrCost_sleepMw : Field := ⟨0x2000010, 8, 4, 10, .ro, 20, false⟩
/-- PWR.WAKE.wait_alarm, bits 63:32, reset 25,000. -/
def R.pwrWake_waitAlarm : Field := ⟨0x2000018, 8, 32, 32, .rw, 0x61a8, false⟩
/-- PWR.WAKE.token_store, bits 13:8, reset 48. -/
def R.pwrWake_tokenStore : Field := ⟨0x2000018, 8, 8, 6, .ro, 48, false⟩
/-- PWR.WAKE.tokens_per_us, bits 7:0, reset 24. -/
def R.pwrWake_tokensPerUs : Field := ⟨0x2000018, 8, 0, 8, .ro, 24, false⟩
/-- PWR.DIE.current_a, bits 63:54, reset 0. -/
def R.pwrDie_currentA : Field := ⟨0x2000100, 8, 54, 10, .ro, 0, false⟩
/-- PWR.DIE.tj_c, bits 53:46, reset 0. -/
def R.pwrDie_tjC : Field := ⟨0x2000100, 8, 46, 8, .ro, 0, false⟩
/-- PWR.DIE.t_i, bits 45:43, reset 0. -/
def R.pwrDie_tI : Field := ⟨0x2000100, 8, 43, 3, .ro, 0, false⟩
/-- PWR.DIE.t_t, bits 42:40, reset 0. -/
def R.pwrDie_tT : Field := ⟨0x2000100, 8, 40, 3, .ro, 0, false⟩
/-- PWR.DIE.therm_c, bits 24:17, reset 105. -/
def R.pwrDie_thermC : Field := ⟨0x2000100, 8, 17, 8, .rw, 105, false⟩
/-- PWR.DIE.ilim_a, bits 9:0, reset 600. -/
def R.pwrDie_ilimA : Field := ⟨0x2000100, 8, 0, 10, .rw, 600, false⟩
/-- PWR.STALL_V.v_offset, bits 1:0, reset 0. -/
def R.pwrStallV_vOffset : Field := ⟨0x2001000, 8, 0, 2, .ro, 0, false⟩
/-- CTL.ID.part, bits 63:48, reset 0x4816. -/
def R.ctlId_part : Field := ⟨0x0000000, 8, 48, 16, .ro, 0x4816, false⟩
/-- CTL.ID.silicon_rev, bits 47:40, reset set. -/
def R.ctlId_siliconRev : Field := ⟨0x0000000, 8, 40, 8, .ro, 0, false⟩
/-- CTL.ID.fw_version, bits 31:0, reset set. -/
def R.ctlId_fwVersion : Field := ⟨0x0000000, 8, 0, 32, .ro, 0, false⟩
/-- CTL.STATE.state, bits 63:61, reset set. -/
def R.ctlState_state : Field := ⟨0x0000008, 8, 61, 3, .ro, 0, false⟩
/-- CTL.STATE.halt_cause, bits 60:57, reset 0. -/
def R.ctlState_haltCause : Field := ⟨0x0000008, 8, 57, 4, .ro, 0, false⟩
/-- CTL.STATE.halt_state_losing, bits 56, reset 0. -/
def R.ctlState_haltStateLosing : Field := ⟨0x0000008, 8, 56, 1, .ro, 0, false⟩
/-- CTL.STATE.session_open, bits 32, reset 0. -/
def R.ctlState_sessionOpen : Field := ⟨0x0000008, 8, 32, 1, .ro, 0, false⟩
/-- CTL.STATE.session_id, bits 31:0, reset 0. -/
def R.ctlState_sessionId : Field := ⟨0x0000008, 8, 0, 32, .ro, 0, false⟩
/-- CTL.TIMERS.idle_ms, bits 63:32, reset 10,000. -/
def R.ctlTimers_idleMs : Field := ⟨0x0000010, 8, 32, 32, .rw, 0x2710, false⟩
/-- CTL.TIMERS.retx_tries, bits 19:16, reset 8. -/
def R.ctlTimers_retxTries : Field := ⟨0x0000010, 8, 16, 4, .rw, 8, false⟩
/-- CTL.TIMERS.retx_us, bits 15:0, reset 100. -/
def R.ctlTimers_retxUs : Field := ⟨0x0000010, 8, 0, 16, .rw, 100, false⟩
/-- CTL.COUNTERS.auth_refused, bits 63:48, reset 0. -/
def R.ctlCounters_authRefused : Field := ⟨0x0000018, 8, 48, 16, .w1c, 0, false⟩
/-- CTL.COUNTERS.format_refused, bits 47:32, reset 0. -/
def R.ctlCounters_formatRefused : Field := ⟨0x0000018, 8, 32, 16, .w1c, 0, false⟩
/-- CTL.COUNTERS.seq_discarded, bits 31:16, reset 0. -/
def R.ctlCounters_seqDiscarded : Field := ⟨0x0000018, 8, 16, 16, .w1c, 0, false⟩
/-- CTL.COUNTERS.plan_refused, bits 15:0, reset 0. -/
def R.ctlCounters_planRefused : Field := ⟨0x0000018, 8, 0, 16, .w1c, 0, false⟩
/-- CTL.RING_CFG.base_4k, bits 47:12, reset 0. -/
def R.ctlRingCfg_base4k : Field := ⟨0x0000100, 32, 12, 36, .rw, 0, false⟩
/-- CTL.RING_CFG.size_code, bits 3:0, reset 0. -/
def R.ctlRingCfg_sizeCode : Field := ⟨0x0000100, 32, 0, 4, .rw, 0, false⟩
/-- CTL.RING_DOORBELL.producer, bits 31:0, reset 0. -/
def R.ctlRingDoorbell_producer : Field := ⟨0x0000108, 32, 0, 32, .rw, 0, false⟩
/-- CTL.RING_STATUS.completed, bits 63:32, reset 0. -/
def R.ctlRingStatus_completed : Field := ⟨0x0000110, 32, 32, 32, .ro, 0, false⟩
/-- CTL.RING_STATUS.consumer, bits 31:0, reset 0. -/
def R.ctlRingStatus_consumer : Field := ⟨0x0000110, 32, 0, 32, .ro, 0, false⟩
/-- CTL.EVT_CFG.base_4k, bits 47:12, reset set. -/
def R.ctlEvtCfg_base4k : Field := ⟨0x0000200, 8, 12, 36, .rw, 0x8ffff00, false⟩
/-- CTL.EVT_CFG.size_code, bits 3:0, reset set. -/
def R.ctlEvtCfg_sizeCode : Field := ⟨0x0000200, 8, 0, 4, .rw, 4, false⟩
/-- CTL.EVT_PRODUCER.producer, bits 31:0, reset 0. -/
def R.ctlEvtProducer_producer : Field := ⟨0x0000208, 8, 0, 32, .ro, 0, false⟩
/-- CTL.EVT_CONSUMER.consumer, bits 31:0, reset 0. -/
def R.ctlEvtConsumer_consumer : Field := ⟨0x0000210, 8, 0, 32, .rw, 0, false⟩
/-- CTL.EVT_STATUS.dropped, bits 63:32, reset 0. -/
def R.ctlEvtStatus_dropped : Field := ⟨0x0000218, 8, 32, 32, .w1c, 0, false⟩
/-- CTL.EVT_STATUS.note_ticks, bits 31:0, reset 2,500. -/
def R.ctlEvtStatus_noteTicks : Field := ⟨0x0000218, 8, 0, 32, .rw, 0x9c4, false⟩
/-- GTE.STEP.step, bits 39:0, reset 0. -/
def R.gteStep_step : Field := ⟨0x1000000, 8, 0, 40, .ro, 0, false⟩
/-- GTE.NEXT.any_step, bits 63, reset 0. -/
def R.gteNext_anyStep : Field := ⟨0x1000008, 8, 63, 1, .ro, 0, false⟩
/-- GTE.NEXT.expected, bits 39:0, reset 0. -/
def R.gteNext_expected : Field := ⟨0x1000008, 8, 0, 40, .ro, 0, false⟩
/-- GTE.STATUS.gate_complete, bits 63, reset 0. -/
def R.gteStatus_gateComplete : Field := ⟨0x1000010, 8, 63, 1, .ro, 0, false⟩
/-- GTE.STATUS.token_held, bits 62, reset 0. -/
def R.gteStatus_tokenHeld : Field := ⟨0x1000010, 8, 62, 1, .ro, 0, false⟩
/-- GTE.STATUS.halt_pending, bits 61, reset 0. -/
def R.gteStatus_haltPending : Field := ⟨0x1000010, 8, 61, 1, .ro, 0, false⟩
/-- GTE.STATUS.held_cmds, bits 60:54, reset 0. -/
def R.gteStatus_heldCmds : Field := ⟨0x1000010, 8, 54, 7, .ro, 0, false⟩
/-- GTE.STATUS.last_window_ticks, bits 31:0, reset 0. -/
def R.gteStatus_lastWindowTicks : Field := ⟨0x1000010, 8, 0, 32, .ro, 0, false⟩
/-- GTE.PLAN.plan_tag, bits 63:0, reset 0. -/
def R.gtePlan_planTag : Field := ⟨0x1000018, 8, 0, 64, .ro, 0, false⟩
/-- GTE.COMMIT_TIME.watch, bits 63:0, reset 0. -/
def R.gteCommitTime_watch : Field := ⟨0x1000020, 8, 0, 64, .ro, 0, false⟩
/-- HRN.STATUS.state, bits 63:62, reset 0. -/
def R.hrnStatus_state : Field := ⟨0x12000000, 8, 62, 2, .ro, 0, false⟩
/-- HRN.STATUS.held_amends, bits 61:59, reset 0. -/
def R.hrnStatus_heldAmends : Field := ⟨0x12000000, 8, 59, 3, .ro, 0, false⟩
/-- HRN.STATUS.structural_held, bits 58, reset 0. -/
def R.hrnStatus_structuralHeld : Field := ⟨0x12000000, 8, 58, 1, .ro, 0, false⟩
/-- HRN.STATUS.module_index, bits 49:34, reset 0. -/
def R.hrnStatus_moduleIndex : Field := ⟨0x12000000, 8, 34, 16, .ro, 0, false⟩
/-- HRN.STATUS.module_count, bits 33:18, reset 0. -/
def R.hrnStatus_moduleCount : Field := ⟨0x12000000, 8, 18, 16, .ro, 0, false⟩
/-- HRN.STATUS.image_kib, bits 17:0, reset 0. -/
def R.hrnStatus_imageKib : Field := ⟨0x12000000, 8, 0, 18, .ro, 0, false⟩
/-- HRN.BUILD.build_id, bits 63:0, reset 0. -/
def R.hrnBuild_buildId : Field := ⟨0x12000008, 8, 0, 64, .ro, 0, false⟩
/-- HRN.PLAN_NEXT.plan_tag, bits 63:0, reset 0. -/
def R.hrnPlanNext_planTag : Field := ⟨0x12000010, 8, 0, 64, .ro, 0, false⟩
/-- HRN.MISMATCH.received_tag, bits 63:0, reset 0. -/
def R.hrnMismatch_receivedTag : Field := ⟨0x12000018, 8, 0, 64, .ro, 0, false⟩
/-- HRN.MISMATCH_CNT.token_frames, bits 63:48, reset 0. -/
def R.hrnMismatchCnt_tokenFrames : Field := ⟨0x12000020, 8, 48, 16, .w1c, 0, false⟩
/-- HRN.MISMATCH_CNT.control, bits 47:32, reset 0. -/
def R.hrnMismatchCnt_control : Field := ⟨0x12000020, 8, 32, 16, .w1c, 0, false⟩
/-- HRN.MISMATCH_CNT.gate_tokens, bits 31:16, reset 0. -/
def R.hrnMismatchCnt_gateTokens : Field := ⟨0x12000020, 8, 16, 16, .w1c, 0, false⟩
/-- HRN.MISMATCH_CNT.last_source, bits 1:0, reset 0. -/
def R.hrnMismatchCnt_lastSource : Field := ⟨0x12000020, 8, 0, 2, .ro, 0, false⟩
/-- HRN.HELD.held_bytes, bits 31:0, reset 0. -/
def R.hrnHeld_heldBytes : Field := ⟨0x12000028, 8, 0, 32, .ro, 0, false⟩
/-- TIL.CTL.split_alarm, bits 47:32, reset 4,096. -/
def R.tilCtl_splitAlarm : Field := ⟨0x6000000, 8, 32, 16, .rwg, 0x1000, false⟩
/-- TIL.CTL.chk_tps_en, bits 1, reset 1. -/
def R.tilCtl_chkTpsEn : Field := ⟨0x6000000, 8, 1, 1, .rwg, 1, false⟩
/-- TIL.CTL.chk_fwd_en, bits 0, reset 1. -/
def R.tilCtl_chkFwdEn : Field := ⟨0x6000000, 8, 0, 1, .rwg, 1, false⟩
/-- TIL.CONV.range_code, bits 1:0, reset 2. -/
def R.tilConv_rangeCode : Field := ⟨0x6200000, 8, 0, 2, .rwg, 2, true⟩
/-- TIL.WSTEP.wstep, bits 31:0, reset 0. -/
def R.tilWstep_wstep : Field := ⟨0x6080000, 8, 0, 32, .ro, 0, false⟩
/-- TIL.CHK_TOL.tau_tps, bits 31:16, reset 1,236. -/
def R.tilChkTol_tauTps : Field := ⟨0x60C0000, 8, 16, 16, .ro, 0x4d4, false⟩
/-- TIL.CHK_TOL.tau_fwd, bits 15:0, reset 3,522. -/
def R.tilChkTol_tauFwd : Field := ⟨0x60C0000, 8, 0, 16, .ro, 0xdc2, false⟩
/-- TIL.COUNT.splits, bits 63:32, reset 0. -/
def R.tilCount_splits : Field := ⟨0x6100000, 8, 32, 32, .w1c, 0, false⟩
/-- TIL.COUNT.clips, bits 31:16, reset 0. -/
def R.tilCount_clips : Field := ⟨0x6100000, 8, 16, 16, .w1c, 0, false⟩
/-- TIL.COUNT.clamped, bits 15:0, reset 0. -/
def R.tilCount_clamped : Field := ⟨0x6100000, 8, 0, 16, .w1c, 0, false⟩
/-- TIL.STATUS.role, bits 63:62, reset set. -/
def R.tilStatus_role : Field := ⟨0x6140000, 8, 62, 2, .ro, 0, false⟩
/-- TIL.STATUS.slot, bits 61:57, reset set. -/
def R.tilStatus_slot : Field := ⟨0x6140000, 8, 57, 5, .ro, 0, false⟩
/-- TIL.STATUS.busy, bits 56, reset 0. -/
def R.tilStatus_busy : Field := ⟨0x6140000, 8, 56, 1, .ro, 0, false⟩
/-- TIL.STATUS.mode, bits 55, reset 0. -/
def R.tilStatus_mode : Field := ⟨0x6140000, 8, 55, 1, .ro, 0, false⟩
/-- TIL.STATUS.last_phases, bits 47:41, reset 0. -/
def R.tilStatus_lastPhases : Field := ⟨0x6140000, 8, 41, 7, .ro, 0, false⟩
/-- TIL.STATUS.chk_fail, bits 40:32, reset 0. -/
def R.tilStatus_chkFail : Field := ⟨0x6140000, 8, 32, 9, .ro, 0, false⟩
/-- TIL.PHASES.phases_step, bits 63:32, reset 0. -/
def R.tilPhases_phasesStep : Field := ⟨0x6180000, 8, 32, 32, .ro, 0, false⟩
/-- TIL.PHASES.tokens_step, bits 31:0, reset 0. -/
def R.tilPhases_tokensStep : Field := ⟨0x6180000, 8, 0, 32, .ro, 0, false⟩
/-- CAL.CTL.trim_ms, bits 63:48, reset 30,000. -/
def R.calCtl_trimMs : Field := ⟨0x11000000, 8, 48, 16, .rw, 0x7530, false⟩
/-- CAL.CTL.grace_ms, bits 47:32, reset 5,000. -/
def R.calCtl_graceMs : Field := ⟨0x11000000, 8, 32, 16, .rw, 0x1388, false⟩
/-- CAL.CTL.drift_ppm, bits 31:16, reset 1,350. -/
def R.calCtl_driftPpm : Field := ⟨0x11000000, 8, 16, 16, .rw, 0x546, false⟩
/-- CAL.CTL.trim_phases_log2, bits 15:11, reset 20. -/
def R.calCtl_trimPhasesLog2 : Field := ⟨0x11000000, 8, 11, 5, .rw, 20, false⟩
/-- CAL.CTL.grace_phases_log2, bits 10:6, reset 19. -/
def R.calCtl_gracePhasesLog2 : Field := ⟨0x11000000, 8, 6, 5, .rw, 19, false⟩
/-- CAL.CTL.rot_per_barn, bits 5:4, reset 2. -/
def R.calCtl_rotPerBarn : Field := ⟨0x11000000, 8, 4, 2, .rw, 2, false⟩
/-- CAL.CTL.fresh_wake, bits 3, reset 1. -/
def R.calCtl_freshWake : Field := ⟨0x11000000, 8, 3, 1, .rw, 1, false⟩
/-- CAL.WRITE.stuck_limit, bits 39:32, reset 64. -/
def R.calWrite_stuckLimit : Field := ⟨0x11000008, 8, 32, 8, .rw, 64, false⟩
/-- CAL.WRITE.max_rounds, bits 31:28, reset 12. -/
def R.calWrite_maxRounds : Field := ⟨0x11000008, 8, 28, 4, .ro, 12, false⟩
/-- CAL.WRITE.window_64, bits 27:24, reset 8. -/
def R.calWrite_window64 : Field := ⟨0x11000008, 8, 24, 4, .ro, 8, false⟩
/-- CAL.WRITE.hyst_16, bits 23:20, reset 1. -/
def R.calWrite_hyst16 : Field := ⟨0x11000008, 8, 20, 4, .rwg, 1, false⟩
/-- CAL.WEAR.wear_limit, bits 23:16, reset 244. -/
def R.calWear_wearLimit : Field := ⟨0x11000010, 8, 16, 8, .ro, 244, false⟩
/-- CAL.WEAR.wear_warn, bits 15:8, reset 220. -/
def R.calWear_wearWarn : Field := ⟨0x11000010, 8, 8, 8, .rw, 220, false⟩
/-- CAL.WEAR.flush_s, bits 7:0, reset 60. -/
def R.calWear_flushS : Field := ⟨0x11000010, 8, 0, 8, .ro, 60, false⟩
/-- CAL.GATE_WRITE.write_ticks, bits 63:44, reset 0. -/
def R.calGateWrite_writeTicks : Field := ⟨0x11000018, 8, 44, 20, .ro, 0, false⟩
/-- CAL.GATE_WRITE.pairs_written, bits 43:16, reset 0. -/
def R.calGateWrite_pairsWritten : Field := ⟨0x11000018, 8, 16, 28, .ro, 0, false⟩
/-- CAL.GATE_WRITE.pairs_stuck, bits 15:0, reset 0. -/
def R.calGateWrite_pairsStuck : Field := ⟨0x11000018, 8, 0, 16, .ro, 0, false⟩
/-- CAL.ROTATION.state, bits 63:61, reset 0. -/
def R.calRotation_state : Field := ⟨0x11001000, 8, 61, 3, .ro, 0, false⟩
/-- CAL.ROTATION.slot, bits 60:56, reset 0. -/
def R.calRotation_slot : Field := ⟨0x11001000, 8, 56, 5, .ro, 0, false⟩
/-- CAL.ROTATION.source_pos, bits 55:50, reset 0. -/
def R.calRotation_sourcePos : Field := ⟨0x11001000, 8, 50, 6, .ro, 0, false⟩
/-- CAL.ROTATION.relief_pos, bits 49:44, reset 0. -/
def R.calRotation_reliefPos : Field := ⟨0x11001000, 8, 44, 6, .ro, 0, false⟩
/-- CAL.ROTATION.rows_filled, bits 43:34, reset 0. -/
def R.calRotation_rowsFilled : Field := ⟨0x11001000, 8, 34, 10, .ro, 0, false⟩
/-- CAL.ROTATION.rotations, bits 31:0, reset 0. -/
def R.calRotation_rotations : Field := ⟨0x11001000, 8, 0, 32, .ro, 0, false⟩
/-- CAL.TILE_AGE.age_ms, bits 63:44, reset 0. -/
def R.calTileAge_ageMs : Field := ⟨0x11040000, 8, 44, 20, .ro, 0, false⟩
/-- CAL.TILE_AGE.phases, bits 43:12, reset 0. -/
def R.calTileAge_phases : Field := ⟨0x11040000, 8, 12, 32, .ro, 0, false⟩
/-- CAL.TILE_AGE.last_kind, bits 11:9, reset 0. -/
def R.calTileAge_lastKind : Field := ⟨0x11040000, 8, 9, 3, .ro, 0, false⟩
/-- CAL.TILE_AGE.due, bits 8, reset 0. -/
def R.calTileAge_due : Field := ⟨0x11040000, 8, 8, 1, .ro, 0, false⟩
/-- CAL.TILE_AGE.forced, bits 7, reset 0. -/
def R.calTileAge_forced : Field := ⟨0x11040000, 8, 7, 1, .ro, 0, false⟩
/-- CAL.TILE_AGE.overdue, bits 6, reset 0. -/
def R.calTileAge_overdue : Field := ⟨0x11040000, 8, 6, 1, .ro, 0, false⟩
/-- CAL.TILE_STAT.sigma_q10, bits 63:52, reset 0. -/
def R.calTileStat_sigmaQ10 : Field := ⟨0x11080000, 8, 52, 12, .ro, 0, false⟩
/-- CAL.TILE_STAT.g_ref_ppm, bits 51:32, reset 0. -/
def R.calTileStat_gRefPpm : Field := ⟨0x11080000, 8, 32, 20, .ro, 0, false⟩
/-- CAL.TILE_STAT.delta_ppm, bits 31:12, reset 0. -/
def R.calTileStat_deltaPpm : Field := ⟨0x11080000, 8, 12, 20, .ro, 0, false⟩
/-- CAL.TILE_STAT.s0_q10, bits 11:0, reset 0. -/
def R.calTileStat_s0Q10 : Field := ⟨0x11080000, 8, 0, 12, .ro, 0, false⟩
/-- CAL.TILE_WEAR.wear_max, bits 63:56, reset set. -/
def R.calTileWear_wearMax : Field := ⟨0x110C0000, 8, 56, 8, .ro, 0, false⟩
/-- CAL.TILE_WEAR.wear_max_pair, bits 55:37, reset set. -/
def R.calTileWear_wearMaxPair : Field := ⟨0x110C0000, 8, 37, 19, .ro, 0, false⟩
/-- CAL.TILE_WEAR.worn, bits 36, reset set. -/
def R.calTileWear_worn : Field := ⟨0x110C0000, 8, 36, 1, .ro, 0, false⟩
/-- CAL.TILE_WEAR.stuck_pairs, bits 35:27, reset set. -/
def R.calTileWear_stuckPairs : Field := ⟨0x110C0000, 8, 27, 9, .ro, 0, false⟩
/-- CAL.TILE_WEAR.saturated, bits 26:16, reset 0. -/
def R.calTileWear_saturated : Field := ⟨0x110C0000, 8, 16, 11, .ro, 0, false⟩
/-- CAL.TILE_WEAR.idle_aborts, bits 15:0, reset 0. -/
def R.calTileWear_idleAborts : Field := ⟨0x110C0000, 8, 0, 16, .ro, 0, false⟩
/-- FMT.CTL.hist_len_m1, bits 11:8, reset 15. -/
def R.fmtCtl_histLenM1 : Field := ⟨0xA000000, 8, 8, 4, .rwg, 15, false⟩
/-- FMT.CTL.margin, bits 1:0, reset 0. -/
def R.fmtCtl_margin : Field := ⟨0xA000000, 8, 0, 2, .rwg, 0, false⟩
/-- FMT.STATUS.trapped, bits 63, reset 0. -/
def R.fmtStatus_trapped : Field := ⟨0xA000008, 8, 63, 1, .ro, 0, false⟩
/-- FMT.STATUS.numeric_mode, bits 62, reset 0. -/
def R.fmtStatus_numericMode : Field := ⟨0xA000008, 8, 62, 1, .ro, 0, false⟩
/-- FMT.STATUS.trapped_stalls, bits 61:52, reset 0. -/
def R.fmtStatus_trappedStalls : Field := ⟨0xA000008, 8, 52, 10, .ro, 0, false⟩
/-- FMT.SEED.job_seed, bits 63:0, reset 0. -/
def R.fmtSeed_jobSeed : Field := ⟨0xA000010, 8, 0, 64, .ro, 0, false⟩
/-- FMT.TRAP_FIRST.valid, bits 63, reset 0. -/
def R.fmtTrapFirst_valid : Field := ⟨0xA000018, 8, 63, 1, .ro, 0, false⟩
/-- FMT.TRAP_FIRST.stall, bits 62:54, reset 0. -/
def R.fmtTrapFirst_stall : Field := ⟨0xA000018, 8, 54, 9, .ro, 0, false⟩
/-- FMT.TRAP_FIRST.watch, bits 53:0, reset 0. -/
def R.fmtTrapFirst_watch : Field := ⟨0xA000018, 8, 0, 54, .ro, 0, false⟩
/-- FMT.ALARM.outlier_alarm, bits 47:32, reset 4,096. -/
def R.fmtAlarm_outlierAlarm : Field := ⟨0xA000020, 8, 32, 16, .rwg, 0x1000, false⟩
/-- FMT.ALARM.eclipse_alarm, bits 31:16, reset 4,096. -/
def R.fmtAlarm_eclipseAlarm : Field := ⟨0xA000020, 8, 16, 16, .rwg, 0x1000, false⟩
/-- FMT.ALARM.sat_alarm, bits 15:0, reset 256. -/
def R.fmtAlarm_satAlarm : Field := ⟨0xA000020, 8, 0, 16, .rwg, 256, false⟩
/-- FMT.COUNT.saturated, bits 63:44, reset 0. -/
def R.fmtCount_saturated : Field := ⟨0xA000028, 8, 44, 20, .ro, 0, false⟩
/-- FMT.COUNT.eclipsed, bits 43:24, reset 0. -/
def R.fmtCount_eclipsed : Field := ⟨0xA000028, 8, 24, 20, .ro, 0, false⟩
/-- FMT.COUNT.carried, bits 23:4, reset 0. -/
def R.fmtCount_carried : Field := ⟨0xA000028, 8, 4, 20, .ro, 0, false⟩
/-- FMT.FLAT.threshold, bits 15:0, reset 1,000. -/
def R.fmtFlat_threshold : Field := ⟨0xA000030, 8, 0, 16, .rwg, 0x3e8, false⟩
/-- FMT.HIST_RESET.reset, bits 63:0, reset 0. -/
def R.fmtHistReset_reset : Field := ⟨0xA000038, 8, 0, 64, .key, 0, false⟩
/-- FMT.TRAP_A.valid, bits 63, reset 0. -/
def R.fmtTrapA_valid : Field := ⟨0xA001000, 8, 63, 1, .ro, 0, false⟩
/-- FMT.TRAP_A.source, bits 62:60, reset 0. -/
def R.fmtTrapA_source : Field := ⟨0xA001000, 8, 60, 3, .ro, 0, false⟩
/-- FMT.TRAP_A.operand, bits 59:57, reset 0. -/
def R.fmtTrapA_operand : Field := ⟨0xA001000, 8, 57, 3, .ro, 0, false⟩
/-- FMT.TRAP_A.value_kind, bits 56:55, reset 0. -/
def R.fmtTrapA_valueKind : Field := ⟨0xA001000, 8, 55, 2, .ro, 0, false⟩
/-- FMT.TRAP_A.layer, bits 54:46, reset 0. -/
def R.fmtTrapA_layer : Field := ⟨0xA001000, 8, 46, 9, .ro, 0, false⟩
/-- FMT.TRAP_A.instr, bits 45:33, reset 0. -/
def R.fmtTrapA_instr : Field := ⟨0xA001000, 8, 33, 13, .ro, 0, false⟩
/-- FMT.TRAP_A.tile, bits 32:27, reset 0. -/
def R.fmtTrapA_tile : Field := ⟨0xA001000, 8, 27, 6, .ro, 0, false⟩
/-- FMT.TRAP_B.element, bits 63:0, reset 0. -/
def R.fmtTrapB_element : Field := ⟨0xA002000, 8, 0, 64, .ro, 0, false⟩
/-- FMT.TRAP_C.watch_lo, bits 63:32, reset 0. -/
def R.fmtTrapC_watchLo : Field := ⟨0xA003000, 8, 32, 32, .ro, 0, false⟩
/-- FMT.TRAP_C.value, bits 31:0, reset 0. -/
def R.fmtTrapC_value : Field := ⟨0xA003000, 8, 0, 32, .ro, 0, false⟩
/-- FMT.FLAT_CNT.count_3, bits 63:48, reset 0. -/
def R.fmtFlatCnt_count3 : Field := ⟨0xA004000, 8, 48, 16, .ro, 0, false⟩
/-- FMT.FLAT_CNT.count_2, bits 47:32, reset 0. -/
def R.fmtFlatCnt_count2 : Field := ⟨0xA004000, 8, 32, 16, .ro, 0, false⟩
/-- FMT.FLAT_CNT.count_1, bits 31:16, reset 0. -/
def R.fmtFlatCnt_count1 : Field := ⟨0xA004000, 8, 16, 16, .ro, 0, false⟩
/-- FMT.FLAT_CNT.count_0, bits 15:0, reset 0. -/
def R.fmtFlatCnt_count0 : Field := ⟨0xA004000, 8, 0, 16, .ro, 0, false⟩
/-- FMT.SCALE.scale_c4, bits 39:32, reset 0. -/
def R.fmtScale_scaleC4 : Field := ⟨0xA005000, 8, 32, 8, .ro, 0, false⟩
/-- FMT.SCALE.scale_c3, bits 31:24, reset 0. -/
def R.fmtScale_scaleC3 : Field := ⟨0xA005000, 8, 24, 8, .ro, 0, false⟩
/-- FMT.SCALE.scale_c2, bits 23:16, reset 0. -/
def R.fmtScale_scaleC2 : Field := ⟨0xA005000, 8, 16, 8, .ro, 0, false⟩
/-- FMT.SCALE.scale_c1, bits 15:8, reset 0. -/
def R.fmtScale_scaleC1 : Field := ⟨0xA005000, 8, 8, 8, .ro, 0, false⟩
/-- FMT.SCALE.scale_c0, bits 7:0, reset 0. -/
def R.fmtScale_scaleC0 : Field := ⟨0xA005000, 8, 0, 8, .ro, 0, false⟩
/-- GEN.CTL.partial_alarm_us, bits 31:16, reset 1,000. -/
def R.genCtl_partialAlarmUs : Field := ⟨0x9000000, 8, 16, 16, .rw, 0x3e8, false⟩
/-- GEN.CTL.fwd_alarm_us, bits 15:0, reset 5,000. -/
def R.genCtl_fwdAlarmUs : Field := ⟨0x9000000, 8, 0, 16, .rw, 0x1388, false⟩
/-- GEN.PASS.pass, bits 63:62, reset 0. -/
def R.genPass_pass : Field := ⟨0x9000008, 8, 62, 2, .ro, 0, false⟩
/-- GEN.PASS.arrived, bits 61:52, reset 0. -/
def R.genPass_arrived : Field := ⟨0x9000008, 8, 52, 10, .ro, 0, false⟩
/-- GEN.PASS.ended, bits 51:42, reset 0. -/
def R.genPass_ended : Field := ⟨0x9000008, 8, 42, 10, .ro, 0, false⟩
/-- GEN.PASS.idle, bits 41:32, reset 0. -/
def R.genPass_idle : Field := ⟨0x9000008, 8, 32, 10, .ro, 0, false⟩
/-- GEN.PASS.fwd_ticks, bits 31:0, reset 0. -/
def R.genPass_fwdTicks : Field := ⟨0x9000008, 8, 0, 32, .ro, 0, false⟩
/-- GEN.STALL.pc, bits 63:51, reset 0. -/
def R.genStall_pc : Field := ⟨0x9001000, 8, 51, 13, .ro, 0, false⟩
/-- GEN.STALL.pass, bits 50:49, reset 0. -/
def R.genStall_pass : Field := ⟨0x9001000, 8, 49, 2, .ro, 0, false⟩
/-- GEN.STALL.idle, bits 48, reset 0. -/
def R.genStall_idle : Field := ⟨0x9001000, 8, 48, 1, .ro, 0, false⟩
/-- GEN.STALL.faulted, bits 47, reset 0. -/
def R.genStall_faulted : Field := ⟨0x9001000, 8, 47, 1, .ro, 0, false⟩
/-- GEN.STALL.at_fwd_end, bits 46, reset 0. -/
def R.genStall_atFwdEnd : Field := ⟨0x9001000, 8, 46, 1, .ro, 0, false⟩
/-- GEN.STALL.fb_count, bits 45:44, reset 0. -/
def R.genStall_fbCount : Field := ⟨0x9001000, 8, 44, 2, .ro, 0, false⟩
/-- GEN.STALL.fb_slot_0, bits 43:39, reset 0. -/
def R.genStall_fbSlot0 : Field := ⟨0x9001000, 8, 39, 5, .ro, 0, false⟩
/-- GEN.STALL.fb_valid_0, bits 38, reset 0. -/
def R.genStall_fbValid0 : Field := ⟨0x9001000, 8, 38, 1, .ro, 0, false⟩
/-- GEN.STALL.fb_slot_1, bits 37:33, reset 0. -/
def R.genStall_fbSlot1 : Field := ⟨0x9001000, 8, 33, 5, .ro, 0, false⟩
/-- GEN.STALL.fb_valid_1, bits 32, reset 0. -/
def R.genStall_fbValid1 : Field := ⟨0x9001000, 8, 32, 1, .ro, 0, false⟩
/-- GEN.STALL.bank_0, bits 31:30, reset 0. -/
def R.genStall_bank0 : Field := ⟨0x9001000, 8, 30, 2, .ro, 0, false⟩
/-- GEN.STALL.bank_1, bits 29:28, reset 0. -/
def R.genStall_bank1 : Field := ⟨0x9001000, 8, 28, 2, .ro, 0, false⟩
/-- GEN.STALL.mm_queue, bits 27:26, reset 0. -/
def R.genStall_mmQueue : Field := ⟨0x9001000, 8, 26, 2, .ro, 0, false⟩
/-- GEN.COUNT.mm_cycles, bits 63:32, reset 0. -/
def R.genCount_mmCycles : Field := ⟨0x9002000, 8, 32, 32, .ro, 0, false⟩
/-- GEN.COUNT.fallback_tokens, bits 31:16, reset 0. -/
def R.genCount_fallbackTokens : Field := ⟨0x9002000, 8, 16, 16, .ro, 0, false⟩
/-- GEN.COUNT.skipped, bits 15:0, reset 0. -/
def R.genCount_skipped : Field := ⟨0x9002000, 8, 0, 16, .ro, 0, false⟩
/-- GEN.FAULT.valid, bits 63, reset 0. -/
def R.genFault_valid : Field := ⟨0x9003000, 8, 63, 1, .ro, 0, false⟩
/-- GEN.FAULT.status, bits 62:55, reset 0. -/
def R.genFault_status : Field := ⟨0x9003000, 8, 55, 8, .ro, 0, false⟩
/-- GEN.FAULT.opcode, bits 54:47, reset 0. -/
def R.genFault_opcode : Field := ⟨0x9003000, 8, 47, 8, .ro, 0, false⟩
/-- GEN.FAULT.instr, bits 46:34, reset 0. -/
def R.genFault_instr : Field := ⟨0x9003000, 8, 34, 13, .ro, 0, false⟩
/-- GEN.FAULT.detail, bits 31:0, reset 0. -/
def R.genFault_detail : Field := ⟨0x9003000, 8, 0, 32, .ro, 0, false⟩
/-- RTE.CTL.close_alarm_us, bits 63:48, reset 5,000. -/
def R.rteCtl_closeAlarmUs : Field := ⟨0xB000000, 8, 48, 16, .rw, 0x1388, false⟩
/-- RTE.CTL.combine_alarm_us, bits 47:32, reset 2,000. -/
def R.rteCtl_combineAlarmUs : Field := ⟨0xB000000, 8, 32, 16, .rw, 0x7d0, false⟩
/-- RTE.CTL.default_cap, bits 31:0, reset 2,048. -/
def R.rteCtl_defaultCap : Field := ⟨0xB000000, 8, 0, 32, .rwg, 0x800, false⟩
/-- RTE.STEP.dispatched, bits 63:40, reset 0. -/
def R.rteStep_dispatched : Field := ⟨0xB000008, 8, 40, 24, .ro, 0, false⟩
/-- RTE.STEP.rerouted, bits 39:20, reset 0. -/
def R.rteStep_rerouted : Field := ⟨0xB000008, 8, 20, 20, .ro, 0, false⟩
/-- RTE.STEP.dropped, bits 19:0, reset 0. -/
def R.rteStep_dropped : Field := ⟨0xB000008, 8, 0, 20, .ro, 0, false⟩
/-- RTE.REFUSED.stale, bits 63:48, reset 0. -/
def R.rteRefused_stale : Field := ⟨0xB000010, 8, 48, 16, .w1c, 0, false⟩
/-- RTE.REFUSED.format, bits 47:32, reset 0. -/
def R.rteRefused_format : Field := ⟨0xB000010, 8, 32, 16, .w1c, 0, false⟩
/-- RTE.REFUSED.range, bits 31:16, reset 0. -/
def R.rteRefused_range : Field := ⟨0xB000010, 8, 16, 16, .w1c, 0, false⟩
/-- RTE.REFUSED.absent_quota, bits 15:0, reset 0. -/
def R.rteRefused_absentQuota : Field := ⟨0xB000010, 8, 0, 16, .w1c, 0, false⟩
/-- RTE.CLOSE.dispatch_closed, bits 63, reset 0. -/
def R.rteClose_dispatchClosed : Field := ⟨0xB000018, 8, 63, 1, .ro, 0, false⟩
/-- RTE.CLOSE.expected, bits 62:32, reset 0. -/
def R.rteClose_expected : Field := ⟨0xB000018, 8, 32, 31, .ro, 0, false⟩
/-- RTE.CLOSE.received, bits 31:0, reset 0. -/
def R.rteClose_received : Field := ⟨0xB000018, 8, 0, 32, .ro, 0, false⟩
/-- RTE.HOMES.count_3, bits 63:48, reset 0. -/
def R.rteHomes_count3 : Field := ⟨0xB001000, 8, 48, 16, .ro, 0, false⟩
/-- RTE.HOMES.count_2, bits 47:32, reset 0. -/
def R.rteHomes_count2 : Field := ⟨0xB001000, 8, 32, 16, .ro, 0, false⟩
/-- RTE.HOMES.count_1, bits 31:16, reset 0. -/
def R.rteHomes_count1 : Field := ⟨0xB001000, 8, 16, 16, .ro, 0, false⟩
/-- RTE.HOMES.count_0, bits 15:0, reset 0. -/
def R.rteHomes_count0 : Field := ⟨0xB001000, 8, 0, 16, .ro, 0, false⟩
/-- RTE.ARB.hbm_weight, bits 15:8, reset 16. -/
def R.rteArb_hbmWeight : Field := ⟨0xB002000, 8, 8, 8, .ro, 16, false⟩
/-- RTE.ARB.mesh_weight, bits 7:0, reset 16. -/
def R.rteArb_meshWeight : Field := ⟨0xB002000, 8, 0, 8, .ro, 16, false⟩
/-- RTE.QUEUE.counter, bits 63:32, reset 0. -/
def R.rteQueue_counter : Field := ⟨0xB010000, 8, 32, 32, .ro, 0, false⟩
/-- RTE.QUEUE.kind, bits 31:29, reset 0. -/
def R.rteQueue_kind : Field := ⟨0xB010000, 8, 29, 3, .ro, 0, false⟩
/-- UPD.TOUCH.base_64k, bits 47:16, reset 0. -/
def R.updTouch_base64k : Field := ⟨0x14000000, 8, 16, 32, .rwg, 0, false⟩
/-- UPD.TOUCH.sub_log2, bits 5:1, reset 16. -/
def R.updTouch_subLog2 : Field := ⟨0x14000000, 8, 1, 5, .rwg, 16, false⟩
/-- UPD.TOUCH.enable, bits 0, reset 0. -/
def R.updTouch_enable : Field := ⟨0x14000000, 8, 0, 1, .rwg, 0, false⟩
/-- UPD.DELTA.base_1m, bits 47:20, reset set. -/
def R.updDelta_base1m : Field := ⟨0x14000008, 8, 20, 28, .rw, 0x8fc00, false⟩
/-- UPD.DELTA.size_mib, bits 19:4, reset set. -/
def R.updDelta_sizeMib : Field := ⟨0x14000008, 8, 4, 16, .rw, 512, false⟩
/-- UPD.STATUS.phase, bits 63:62, reset 0. -/
def R.updStatus_phase : Field := ⟨0x14000010, 8, 62, 2, .ro, 0, false⟩
/-- UPD.STATUS.chips_done, bits 61:58, reset 0. -/
def R.updStatus_chipsDone : Field := ⟨0x14000010, 8, 58, 4, .ro, 0, false⟩
/-- UPD.STATUS.fault, bits 57, reset 0. -/
def R.updStatus_fault : Field := ⟨0x14000010, 8, 57, 1, .ro, 0, false⟩
/-- UPD.STATUS.last_ticks, bits 31:0, reset 0. -/
def R.updStatus_lastTicks : Field := ⟨0x14000010, 8, 0, 32, .ro, 0, false⟩
/-- UPD.STEP.halves, bits 63:40, reset 0. -/
def R.updStep_halves : Field := ⟨0x14000018, 8, 40, 24, .ro, 0, false⟩
/-- UPD.STEP.rows, bits 39:16, reset 0. -/
def R.updStep_rows : Field := ⟨0x14000018, 8, 16, 24, .ro, 0, false⟩
/-- UPD.STEP.saturated, bits 15:0, reset 0. -/
def R.updStep_saturated : Field := ⟨0x14000018, 8, 0, 16, .ro, 0, false⟩
/-- UPD.DELTA_STAT.entries, bits 63:36, reset 0. -/
def R.updDeltaStat_entries : Field := ⟨0x14000020, 8, 36, 28, .ro, 0, false⟩
/-- UPD.DELTA_STAT.deferred, bits 35:20, reset 0. -/
def R.updDeltaStat_deferred : Field := ⟨0x14000020, 8, 20, 16, .ro, 0, false⟩
/-- UPD.DELTA_STAT.clamped, bits 19:4, reset 0. -/
def R.updDeltaStat_clamped : Field := ⟨0x14000020, 8, 4, 16, .ro, 0, false⟩
/-- UPD.FAULT_A.valid, bits 63, reset 0. -/
def R.updFaultA_valid : Field := ⟨0x14000028, 8, 63, 1, .ro, 0, false⟩
/-- UPD.FAULT_A.cause, bits 62:60, reset 0. -/
def R.updFaultA_cause : Field := ⟨0x14000028, 8, 60, 3, .ro, 0, false⟩
/-- UPD.FAULT_A.chip, bits 59:58, reset 0. -/
def R.updFaultA_chip : Field := ⟨0x14000028, 8, 58, 2, .ro, 0, false⟩
/-- UPD.FAULT_A.program, bits 57:46, reset 0. -/
def R.updFaultA_program : Field := ⟨0x14000028, 8, 46, 12, .ro, 0, false⟩
/-- UPD.FAULT_A.slot, bits 45:40, reset 0. -/
def R.updFaultA_slot : Field := ⟨0x14000028, 8, 40, 6, .ro, 0, false⟩
/-- UPD.FAULT_A.value, bits 31:0, reset 0. -/
def R.updFaultA_value : Field := ⟨0x14000028, 8, 0, 32, .ro, 0, false⟩
/-- UPD.FAULT_B.element, bits 63:0, reset 0. -/
def R.updFaultB_element : Field := ⟨0x14000030, 8, 0, 64, .ro, 0, false⟩
/-- UPD.CHIP.state, bits 63:61, reset set. -/
def R.updChip_state : Field := ⟨0x14000100, 8, 61, 3, .ro, 0, false⟩
/-- UPD.CHIP.programs, bits 60:48, reset 0. -/
def R.updChip_programs : Field := ⟨0x14000100, 8, 48, 13, .ro, 0, false⟩
/-- UPD.CHIP.temp_c, bits 47:40, reset 0. -/
def R.updChip_tempC : Field := ⟨0x14000100, 8, 40, 8, .ro, 0, false⟩
/-- UPD.CHIP.cycles, bits 31:0, reset 0. -/
def R.updChip_cycles : Field := ⟨0x14000100, 8, 0, 32, .ro, 0, false⟩
/-- LFT.SCRUB.scrub_hours, bits 63:48, reset 24. -/
def R.lftScrub_scrubHours : Field := ⟨0x15000000, 8, 48, 16, .rw, 24, false⟩
/-- LFT.SCRUB.progress_pct, bits 7:0, reset 0. -/
def R.lftScrub_progressPct : Field := ⟨0x15000000, 8, 0, 8, .ro, 0, false⟩
/-- LFT.ECC_LAST.valid, bits 63, reset 0. -/
def R.lftEccLast_valid : Field := ⟨0x15000008, 8, 63, 1, .w1c, 0, false⟩
/-- LFT.ECC_LAST.address, bits 47:0, reset 0. -/
def R.lftEccLast_address : Field := ⟨0x15000008, 8, 0, 48, .ro, 0, false⟩
/-- LFT.CHANNEL.populated, bits 63, reset set. -/
def R.lftChannel_populated : Field := ⟨0x15000100, 8, 63, 1, .ro, 0, false⟩
/-- LFT.CHANNEL.refresh_2x, bits 62, reset 0. -/
def R.lftChannel_refresh2x : Field := ⟨0x15000100, 8, 62, 1, .ro, 0, false⟩
/-- LFT.CHANNEL.temp_c, bits 55:48, reset 0. -/
def R.lftChannel_tempC : Field := ⟨0x15000100, 8, 48, 8, .ro, 0, false⟩
/-- LFT.CHANNEL.gib, bits 47:36, reset set. -/
def R.lftChannel_gib : Field := ⟨0x15000100, 8, 36, 12, .ro, 0, false⟩
/-- LFT.CHANNEL.ranks, bits 35:32, reset set. -/
def R.lftChannel_ranks : Field := ⟨0x15000100, 8, 32, 4, .ro, 0, false⟩
/-- LFT.CHANNEL.corrected, bits 31:16, reset 0. -/
def R.lftChannel_corrected : Field := ⟨0x15000100, 8, 16, 16, .w1c, 0, false⟩
/-- LFT.CHANNEL.uncorrected, bits 15:0, reset 0. -/
def R.lftChannel_uncorrected : Field := ⟨0x15000100, 8, 0, 16, .w1c, 0, false⟩
/-- LFT.LINK.up, bits 63, reset 0. -/
def R.lftLink_up : Field := ⟨0x15000200, 8, 63, 1, .ro, 0, false⟩
/-- LFT.LINK.lanes, bits 62:59, reset 0. -/
def R.lftLink_lanes : Field := ⟨0x15000200, 8, 59, 4, .ro, 0, false⟩
/-- LFT.LINK.replays, bits 55:32, reset 0. -/
def R.lftLink_replays : Field := ⟨0x15000200, 8, 32, 24, .w1c, 0, false⟩
/-- LFT.LINK.crc_errors, bits 31:16, reset 0. -/
def R.lftLink_crcErrors : Field := ⟨0x15000200, 8, 16, 16, .w1c, 0, false⟩
/-- LFT.LINK.retrains, bits 15:0, reset 0. -/
def R.lftLink_retrains : Field := ⟨0x15000200, 8, 0, 16, .w1c, 0, false⟩
/-- MOV.CTL.rate_alarm_us, bits 15:0, reset 1,000. -/
def R.movCtl_rateAlarmUs : Field := ⟨0xC000000, 8, 0, 16, .rw, 0x3e8, false⟩
/-- MOV.RATE.window_bytes, bits 39:20, reset set. -/
def R.movRate_windowBytes : Field := ⟨0xC000100, 8, 20, 20, .ro, 0, false⟩
/-- MOV.RATE.held, bits 19, reset 0. -/
def R.movRate_held : Field := ⟨0xC000100, 8, 19, 1, .ro, 0, false⟩
/-- MOV.RATE.floor, bits 16:9, reset set. -/
def R.movRate_floor : Field := ⟨0xC000100, 8, 9, 8, .ro, 0, false⟩
/-- MOV.RATE.share, bits 8:0, reset set. -/
def R.movRate_share : Field := ⟨0xC000100, 8, 0, 9, .rw, 0, false⟩
/-- MOV.CH_DESC.desc_64, bits 47:6, reset 0. -/
def R.movChDesc_desc64 : Field := ⟨0xC001000, 64, 6, 42, .rw, 0, false⟩
/-- MOV.CH_START.start, bits 63:0, reset 0. -/
def R.movChStart_start : Field := ⟨0xC001008, 64, 0, 64, .key, 0, false⟩
/-- MOV.CH_PAUSE.pause, bits 63:0, reset 0. -/
def R.movChPause_pause : Field := ⟨0xC001010, 64, 0, 64, .key, 0, false⟩
/-- MOV.CH_RESUME.resume, bits 63:0, reset 0. -/
def R.movChResume_resume : Field := ⟨0xC001018, 64, 0, 64, .key, 0, false⟩
/-- MOV.CH_ABORT.abort, bits 63:0, reset 0. -/
def R.movChAbort_abort : Field := ⟨0xC001020, 64, 0, 64, .key, 0, false⟩
/-- MOV.CH_REQ.request, bits 63:0, reset 0. -/
def R.movChReq_request : Field := ⟨0xC001028, 64, 0, 64, .key, 0, false⟩
/-- MOV.CH_STATUS.state, bits 63:62, reset 0. -/
def R.movChStatus_state : Field := ⟨0xC001030, 64, 62, 2, .ro, 0, false⟩
/-- MOV.CH_STATUS.aborted, bits 61, reset 0. -/
def R.movChStatus_aborted : Field := ⟨0xC001030, 64, 61, 1, .ro, 0, false⟩
/-- MOV.CH_STATUS.done, bits 60, reset 0. -/
def R.movChStatus_done : Field := ⟨0xC001030, 64, 60, 1, .w1c, 0, false⟩
/-- MOV.CH_STATUS.last_status, bits 59:52, reset 0. -/
def R.movChStatus_lastStatus : Field := ⟨0xC001030, 64, 52, 8, .ro, 0, false⟩
/-- MOV.CH_STATUS.phase, bits 51:50, reset 0. -/
def R.movChStatus_phase : Field := ⟨0xC001030, 64, 50, 2, .ro, 0, false⟩
/-- MOV.CH_STATUS.pending, bits 31:16, reset 0. -/
def R.movChStatus_pending : Field := ⟨0xC001030, 64, 16, 16, .ro, 0, false⟩
/-- MOV.CH_STATUS.overflows, bits 15:0, reset 0. -/
def R.movChStatus_overflows : Field := ⟨0xC001030, 64, 0, 16, .w1c, 0, false⟩
/-- MOV.CH_PROGRESS.bytes_done, bits 63:32, reset 0. -/
def R.movChProgress_bytesDone : Field := ⟨0xC001038, 64, 32, 32, .ro, 0, false⟩
/-- MOV.CH_PROGRESS.tag, bits 31:0, reset 0. -/
def R.movChProgress_tag : Field := ⟨0xC001038, 64, 0, 32, .ro, 0, false⟩
/-- MOV.STALL_CH.state, bits 63:62, reset 0. -/
def R.movStallCh_state : Field := ⟨0xC002000, 8, 62, 2, .ro, 0, false⟩
/-- MOV.STALL_CH.faulted, bits 61, reset 0. -/
def R.movStallCh_faulted : Field := ⟨0xC002000, 8, 61, 1, .ro, 0, false⟩
/-- MOV.STALL_CH.last_status, bits 59:52, reset 0. -/
def R.movStallCh_lastStatus : Field := ⟨0xC002000, 8, 52, 8, .ro, 0, false⟩
/-- MOV.STALL_CH.phase, bits 51:50, reset 0. -/
def R.movStallCh_phase : Field := ⟨0xC002000, 8, 50, 2, .ro, 0, false⟩
/-- MOV.STALL_CH.pending, bits 31:16, reset 0. -/
def R.movStallCh_pending : Field := ⟨0xC002000, 8, 16, 16, .ro, 0, false⟩
/-- MOV.STALL_CH.overflows, bits 15:0, reset 0. -/
def R.movStallCh_overflows : Field := ⟨0xC002000, 8, 0, 16, .ro, 0, false⟩
/-- MOV.STALL_PROG.bytes_done, bits 63:32, reset 0. -/
def R.movStallProg_bytesDone : Field := ⟨0xC003000, 8, 32, 32, .ro, 0, false⟩
/-- MOV.STALL_PROG.tag, bits 31:0, reset 0. -/
def R.movStallProg_tag : Field := ⟨0xC003000, 8, 0, 32, .ro, 0, false⟩
/-- PRT.CTL.token_udp, bits 63:48, reset 47,122. -/
def R.prtCtl_tokenUdp : Field := ⟨0xD000000, 8, 48, 16, .rw, 0xb812, false⟩
/-- PRT.CTL.team_udp, bits 47:32, reset 47,123. -/
def R.prtCtl_teamUdp : Field := ⟨0xD000000, 8, 32, 16, .rw, 0xb813, false⟩
/-- PRT.CTL.pfc_alarm_us, bits 31:16, reset 10,000. -/
def R.prtCtl_pfcAlarmUs : Field := ⟨0xD000000, 8, 16, 16, .rw, 0x2710, false⟩
/-- PRT.CTL.fwd_pcp, bits 15:13, reset 5. -/
def R.prtCtl_fwdPcp : Field := ⟨0xD000000, 8, 13, 3, .rw, 5, false⟩
/-- PRT.CTL.bwd_pcp, bits 12:10, reset 6. -/
def R.prtCtl_bwdPcp : Field := ⟨0xD000000, 8, 10, 3, .rw, 6, false⟩
/-- PRT.CTL.team_pcp, bits 9:7, reset 4. -/
def R.prtCtl_teamPcp : Field := ⟨0xD000000, 8, 7, 3, .rw, 4, false⟩
/-- PRT.CTL.retrain_s, bits 6:0, reset 10. -/
def R.prtCtl_retrainS : Field := ⟨0xD000000, 8, 0, 7, .rw, 10, false⟩
/-- PRT.ADDR6_HI.addr_hi, bits 63:0, reset 0. -/
def R.prtAddr6Hi_addrHi : Field := ⟨0xD000008, 8, 0, 64, .rw, 0, false⟩
/-- PRT.ADDR6_LO.addr_lo, bits 63:0, reset 0. -/
def R.prtAddr6Lo_addrLo : Field := ⟨0xD000010, 8, 0, 64, .rw, 0, false⟩
/-- PRT.ADDR4.vid, bits 63:52, reset 0. -/
def R.prtAddr4_vid : Field := ⟨0xD000018, 8, 52, 12, .rw, 0, false⟩
/-- PRT.ADDR4.valid, bits 32, reset 0. -/
def R.prtAddr4_valid : Field := ⟨0xD000018, 8, 32, 1, .rw, 0, false⟩
/-- PRT.ADDR4.ipv4, bits 31:0, reset 0. -/
def R.prtAddr4_ipv4 : Field := ⟨0xD000018, 8, 0, 32, .rw, 0, false⟩
/-- PRT.TABLE.count, bits 63:51, reset 0. -/
def R.prtTable_count : Field := ⟨0xD000020, 8, 51, 13, .rwg, 0, false⟩
/-- PRT.TABLE.base_64, bits 47:6, reset 0. -/
def R.prtTable_base64 : Field := ⟨0xD000020, 8, 6, 42, .rwg, 0, false⟩
/-- PRT.HOLD.size_mib, bits 63:52, reset set. -/
def R.prtHold_sizeMib : Field := ⟨0xD000028, 8, 52, 12, .rw, 128, false⟩
/-- PRT.HOLD.base_1m, bits 47:20, reset set. -/
def R.prtHold_base1m : Field := ⟨0xD000028, 8, 20, 28, .rw, 0x8fe80, false⟩
/-- PRT.HOLD.headroom_mib, bits 19:8, reset set. -/
def R.prtHold_headroomMib : Field := ⟨0xD000028, 8, 8, 12, .rw, 16, false⟩
/-- PRT.HOLD_STAT.used_kib, bits 63:32, reset 0. -/
def R.prtHoldStat_usedKib : Field := ⟨0xD000030, 8, 32, 32, .ro, 0, false⟩
/-- PRT.HOLD_STAT.pass_held, bits 31:30, reset 0. -/
def R.prtHoldStat_passHeld : Field := ⟨0xD000030, 8, 30, 2, .ro, 0, false⟩
/-- PRT.HOLD_STAT.paused, bits 29, reset 0. -/
def R.prtHoldStat_paused : Field := ⟨0xD000030, 8, 29, 1, .ro, 0, false⟩
/-- PRT.HOLD_STAT.dropped, bits 15:0, reset 0. -/
def R.prtHoldStat_dropped : Field := ⟨0xD000030, 8, 0, 16, .w1c, 0, false⟩
/-- PRT.PORT_CTL.fec_alarm, bits 63:32, reset 100,000. -/
def R.prtPortCtl_fecAlarm : Field := ⟨0xD001000, 64, 32, 32, .rw, 0x186a0, false⟩
/-- PRT.PORT_CTL.enable, bits 0, reset 1. -/
def R.prtPortCtl_enable : Field := ⟨0xD001000, 64, 0, 1, .rw, 1, false⟩
/-- PRT.PORT_RETRAIN.retrain, bits 63:0, reset 0. -/
def R.prtPortRetrain_retrain : Field := ⟨0xD001008, 64, 0, 64, .key, 0, false⟩
/-- PRT.PORT_NH.next_hop_mac, bits 47:0, reset 0. -/
def R.prtPortNh_nextHopMac : Field := ⟨0xD001010, 64, 0, 48, .rwg, 0, false⟩
/-- PRT.PORT_STATUS.state, bits 63:61, reset 0. -/
def R.prtPortStatus_state : Field := ⟨0xD001018, 64, 61, 3, .ro, 0, false⟩
/-- PRT.PORT_STATUS.team, bits 60, reset 0. -/
def R.prtPortStatus_team : Field := ⟨0xD001018, 64, 60, 1, .ro, 0, false⟩
/-- PRT.PORT_STATUS.lane_group, bits 59, reset 0. -/
def R.prtPortStatus_laneGroup : Field := ⟨0xD001018, 64, 59, 1, .ro, 0, false⟩
/-- PRT.PORT_STATUS.weight, bits 58:57, reset 0. -/
def R.prtPortStatus_weight : Field := ⟨0xD001018, 64, 57, 2, .ro, 0, false⟩
/-- PRT.PORT_STATUS.rx_paused, bits 56:49, reset 0. -/
def R.prtPortStatus_rxPaused : Field := ⟨0xD001018, 64, 49, 8, .ro, 0, false⟩
/-- PRT.PORT_STATUS.tx_paused, bits 48:41, reset 0. -/
def R.prtPortStatus_txPaused : Field := ⟨0xD001018, 64, 41, 8, .ro, 0, false⟩
/-- PRT.PORT_STATUS.down_cause, bits 40:37, reset 0. -/
def R.prtPortStatus_downCause : Field := ⟨0xD001018, 64, 37, 4, .ro, 0, false⟩
/-- PRT.PORT_STATUS.attempts, bits 31:0, reset 0. -/
def R.prtPortStatus_attempts : Field := ⟨0xD001018, 64, 0, 32, .ro, 0, false⟩
/-- PRT.PORT_FEC.corrected, bits 63:32, reset 0. -/
def R.prtPortFec_corrected : Field := ⟨0xD001020, 64, 32, 32, .w1c, 0, false⟩
/-- PRT.PORT_FEC.uncorrectable, bits 31:0, reset 0. -/
def R.prtPortFec_uncorrectable : Field := ⟨0xD001020, 64, 0, 32, .w1c, 0, false⟩
/-- PRT.PORT_DROP.fcs, bits 63:48, reset 0. -/
def R.prtPortDrop_fcs : Field := ⟨0xD001028, 64, 48, 16, .w1c, 0, false⟩
/-- PRT.PORT_DROP.oversize, bits 47:32, reset 0. -/
def R.prtPortDrop_oversize : Field := ⟨0xD001028, 64, 32, 16, .w1c, 0, false⟩
/-- PRT.PORT_DROP.unaddressed, bits 31:16, reset 0. -/
def R.prtPortDrop_unaddressed : Field := ⟨0xD001028, 64, 16, 16, .w1c, 0, false⟩
/-- PRT.PORT_DROP.team_misport, bits 15:0, reset 0. -/
def R.prtPortDrop_teamMisport : Field := ⟨0xD001028, 64, 0, 16, .w1c, 0, false⟩
/-- HST.CTL.control_udp, bits 63:48, reset 47,120. -/
def R.hstCtl_controlUdp : Field := ⟨0xE000000, 8, 48, 16, .rw, 0xb810, false⟩
/-- HST.CTL.feed_udp, bits 47:32, reset 47,121. -/
def R.hstCtl_feedUdp : Field := ⟨0xE000000, 8, 32, 16, .rw, 0xb811, false⟩
/-- HST.CTL.vid, bits 31:20, reset 0. -/
def R.hstCtl_vid : Field := ⟨0xE000000, 8, 20, 12, .rw, 0, false⟩
/-- HST.CTL.control_pcp, bits 19:17, reset 6. -/
def R.hstCtl_controlPcp : Field := ⟨0xE000000, 8, 17, 3, .rw, 6, false⟩
/-- HST.CTL.feed_pcp, bits 16:14, reset 3. -/
def R.hstCtl_feedPcp : Field := ⟨0xE000000, 8, 14, 3, .rw, 3, false⟩
/-- HST.MAC.mac_base, bits 47:0, reset set. -/
def R.hstMac_macBase : Field := ⟨0xE000008, 8, 0, 48, .ro, 0, false⟩
/-- HST.ADDR6_HI.addr_hi, bits 63:0, reset 0. -/
def R.hstAddr6Hi_addrHi : Field := ⟨0xE000010, 8, 0, 64, .rw, 0, false⟩
/-- HST.ADDR6_LO.addr_lo, bits 63:0, reset 0. -/
def R.hstAddr6Lo_addrLo : Field := ⟨0xE000018, 8, 0, 64, .rw, 0, false⟩
/-- HST.ADDR4.valid, bits 32, reset 0. -/
def R.hstAddr4_valid : Field := ⟨0xE000020, 8, 32, 1, .rw, 0, false⟩
/-- HST.ADDR4.ipv4, bits 31:0, reset 0. -/
def R.hstAddr4_ipv4 : Field := ⟨0xE000020, 8, 0, 32, .rw, 0, false⟩
/-- HST.STATUS.state, bits 63:62, reset 0. -/
def R.hstStatus_state : Field := ⟨0xE000028, 8, 62, 2, .ro, 0, false⟩
/-- HST.STATUS.feed_xoff, bits 61, reset 0. -/
def R.hstStatus_feedXoff : Field := ⟨0xE000028, 8, 61, 1, .ro, 0, false⟩
/-- HST.STATUS.down_cause, bits 60:57, reset 0. -/
def R.hstStatus_downCause : Field := ⟨0xE000028, 8, 57, 4, .ro, 0, false⟩
/-- HST.FEED_CFG.base_64k, bits 47:16, reset set. -/
def R.hstFeedCfg_base64k : Field := ⟨0xE000030, 8, 16, 32, .rw, 0x8fe400, false⟩
/-- HST.FEED_CFG.size_log2, bits 5:0, reset set. -/
def R.hstFeedCfg_sizeLog2 : Field := ⟨0xE000030, 8, 0, 6, .rw, 26, false⟩
/-- HST.FEED_THR.runout_kib, bits 31:16, reset 16,384. -/
def R.hstFeedThr_runoutKib : Field := ⟨0xE000038, 8, 16, 16, .rw, 0x4000, false⟩
/-- HST.FEED_THR.xon_gap_kib, bits 15:0, reset 1,024. -/
def R.hstFeedThr_xonGapKib : Field := ⟨0xE000038, 8, 0, 16, .rw, 0x400, false⟩
/-- HST.FEED_PREFIX.prefix, bits 63:0, reset 0. -/
def R.hstFeedPrefix_prefix : Field := ⟨0xE000040, 8, 0, 64, .ro, 0, false⟩
/-- HST.FEED_CONSUMED.consumed, bits 63:0, reset 0. -/
def R.hstFeedConsumed_consumed : Field := ⟨0xE000048, 8, 0, 64, .rw, 0, false⟩
/-- HST.FEED_STAT.format, bits 63:48, reset 0. -/
def R.hstFeedStat_format : Field := ⟨0xE000050, 8, 48, 16, .w1c, 0, false⟩
/-- HST.FEED_STAT.auth, bits 47:32, reset 0. -/
def R.hstFeedStat_auth : Field := ⟨0xE000050, 8, 32, 16, .w1c, 0, false⟩
/-- HST.FEED_STAT.step_state, bits 31:16, reset 0. -/
def R.hstFeedStat_stepState : Field := ⟨0xE000050, 8, 16, 16, .w1c, 0, false⟩
/-- HST.FEED_STAT.window, bits 15:0, reset 0. -/
def R.hstFeedStat_window : Field := ⟨0xE000050, 8, 0, 16, .w1c, 0, false⟩
/-- BRD.CTL.watch_steps, bits 63:32, reset 100,000. -/
def R.brdCtl_watchSteps : Field := ⟨0x10000000, 8, 32, 32, .rw, 0x186a0, false⟩
/-- BRD.CTL.gtol_q8, bits 31:16, reset 512. -/
def R.brdCtl_gtolQ8 : Field := ⟨0x10000000, 8, 16, 16, .rwg, 512, false⟩
/-- BRD.CTL.rest_mode, bits 7:6, reset 0. -/
def R.brdCtl_restMode : Field := ⟨0x10000000, 8, 6, 2, .rwg, 0, false⟩
/-- BRD.CTL.brand_en, bits 2, reset 1. -/
def R.brdCtl_brandEn : Field := ⟨0x10000000, 8, 2, 1, .rwg, 1, false⟩
/-- BRD.CTL.ge_chk_en, bits 1, reset 1. -/
def R.brdCtl_geChkEn : Field := ⟨0x10000000, 8, 1, 1, .rwg, 1, false⟩
/-- BRD.STATUS.bound_held, bits 63, reset 1. -/
def R.brdStatus_boundHeld : Field := ⟨0x10000008, 8, 63, 1, .ro, 1, false⟩
/-- BRD.STATUS.suspect_tiles, bits 62:48, reset 0. -/
def R.brdStatus_suspectTiles : Field := ⟨0x10000008, 8, 48, 15, .ro, 0, false⟩
/-- BRD.STATUS.suspect_ges, bits 47:38, reset 0. -/
def R.brdStatus_suspectGes : Field := ⟨0x10000008, 8, 38, 10, .ro, 0, false⟩
/-- BRD.STATUS.votes_running, bits 37:28, reset 0. -/
def R.brdStatus_votesRunning : Field := ⟨0x10000008, 8, 28, 10, .ro, 0, false⟩
/-- BRD.COUNT.reread_ok, bits 63:48, reset 0. -/
def R.brdCount_rereadOk : Field := ⟨0x10000010, 8, 48, 16, .w1c, 0, false⟩
/-- BRD.COUNT.corrupt, bits 47:32, reset 0. -/
def R.brdCount_corrupt : Field := ⟨0x10000010, 8, 32, 16, .w1c, 0, false⟩
/-- BRD.COUNT.votes, bits 31:16, reset 0. -/
def R.brdCount_votes : Field := ⟨0x10000010, 8, 16, 16, .w1c, 0, false⟩
/-- BRD.COUNT.no_majority, bits 15:0, reset 0. -/
def R.brdCount_noMajority : Field := ⟨0x10000010, 8, 0, 16, .w1c, 0, false⟩
/-- BRD.COUNT2.worker_lost, bits 63:48, reset 0. -/
def R.brdCount2_workerLost : Field := ⟨0x10000018, 8, 48, 16, .w1c, 0, false⟩
/-- BRD.COUNT2.checker_lost, bits 47:32, reset 0. -/
def R.brdCount2_checkerLost : Field := ⟨0x10000018, 8, 32, 16, .w1c, 0, false⟩
/-- BRD.COUNT2.marginal, bits 31:16, reset 0. -/
def R.brdCount2_marginal : Field := ⟨0x10000018, 8, 16, 16, .w1c, 0, false⟩
/-- BRD.COUNT2.frame_brand, bits 15:0, reset 0. -/
def R.brdCount2_frameBrand : Field := ⟨0x10000018, 8, 0, 16, .w1c, 0, false⟩
/-- BRD.LINE_LAST.valid, bits 63, reset 0. -/
def R.brdLineLast_valid : Field := ⟨0x10000020, 8, 63, 1, .w1c, 0, false⟩
/-- BRD.LINE_LAST.reader, bits 62:60, reset 0. -/
def R.brdLineLast_reader : Field := ⟨0x10000020, 8, 60, 3, .ro, 0, false⟩
/-- BRD.LINE_LAST.address, bits 47:0, reset 0. -/
def R.brdLineLast_address : Field := ⟨0x10000020, 8, 0, 48, .ro, 0, false⟩
/-- BRD.VOTE_LAST.valid, bits 63, reset 0. -/
def R.brdVoteLast_valid : Field := ⟨0x10000028, 8, 63, 1, .ro, 0, false⟩
/-- BRD.VOTE_LAST.outcome, bits 62:60, reset 0. -/
def R.brdVoteLast_outcome : Field := ⟨0x10000028, 8, 60, 3, .ro, 0, false⟩
/-- BRD.VOTE_LAST.kind, bits 59, reset 0. -/
def R.brdVoteLast_kind : Field := ⟨0x10000028, 8, 59, 1, .ro, 0, false⟩
/-- BRD.VOTE_LAST.stall, bits 58:50, reset 0. -/
def R.brdVoteLast_stall : Field := ⟨0x10000028, 8, 50, 9, .ro, 0, false⟩
/-- BRD.VOTE_LAST.tile, bits 49:44, reset 0. -/
def R.brdVoteLast_tile : Field := ⟨0x10000028, 8, 44, 6, .ro, 0, false⟩
/-- BRD.VOTE_LAST.group, bits 43:40, reset 0. -/
def R.brdVoteLast_group : Field := ⟨0x10000028, 8, 40, 4, .ro, 0, false⟩
/-- BRD.VOTE_LAST.step, bits 39:0, reset 0. -/
def R.brdVoteLast_step : Field := ⟨0x10000028, 8, 0, 40, .ro, 0, false⟩
/-- BRD.STALL.ge_state, bits 63:62, reset 0. -/
def R.brdStall_geState : Field := ⟨0x10001000, 8, 62, 2, .ro, 0, false⟩
/-- BRD.STALL.ge_strikes, bits 61:60, reset 0. -/
def R.brdStall_geStrikes : Field := ⟨0x10001000, 8, 60, 2, .ro, 0, false⟩
/-- BRD.STALL.suspect_tiles, bits 55:50, reset 0. -/
def R.brdStall_suspectTiles : Field := ⟨0x10001000, 8, 50, 6, .ro, 0, false⟩
/-- BRD.STALL.v_rest, bits 49:48, reset 0. -/
def R.brdStall_vRest : Field := ⟨0x10001000, 8, 48, 2, .ro, 0, false⟩
/-- BRD.STALL.clock_rest, bits 47, reset 0. -/
def R.brdStall_clockRest : Field := ⟨0x10001000, 8, 47, 1, .ro, 0, false⟩
/-- BRD.STALL.ge_suspect_step, bits 39:0, reset 0. -/
def R.brdStall_geSuspectStep : Field := ⟨0x10001000, 8, 0, 40, .ro, 0, false⟩
/-- BRD.TILE.state, bits 63:62, reset 0. -/
def R.brdTile_state : Field := ⟨0x10040000, 8, 62, 2, .ro, 0, false⟩
/-- BRD.TILE.strikes, bits 61:60, reset 0. -/
def R.brdTile_strikes : Field := ⟨0x10040000, 8, 60, 2, .ro, 0, false⟩
/-- BRD.TILE.last_loss, bits 59:58, reset 0. -/
def R.brdTile_lastLoss : Field := ⟨0x10040000, 8, 58, 2, .ro, 0, false⟩
/-- BRD.TILE.suspect_step, bits 39:0, reset 0. -/
def R.brdTile_suspectStep : Field := ⟨0x10040000, 8, 0, 40, .ro, 0, false⟩
/-- PAIR.CTL.secure_alarm_ms, bits 63:48, reset 100. -/
def R.pairCtl_secureAlarmMs : Field := ⟨0xF000000, 8, 48, 16, .rw, 100, false⟩
/-- PAIR.CTL.loss_us, bits 47:32, reset 1,000. -/
def R.pairCtl_lossUs : Field := ⟨0xF000000, 8, 32, 16, .rw, 0x3e8, false⟩
/-- PAIR.CTL.beat_us, bits 31:16, reset 100. -/
def R.pairCtl_beatUs : Field := ⟨0xF000000, 8, 16, 16, .rw, 100, false⟩
/-- PAIR.CTL.strict, bits 0, reset set. -/
def R.pairCtl_strict : Field := ⟨0xF000000, 8, 0, 1, .rw, 0, false⟩
/-- PAIR.STATUS.team, bits 63:61, reset 0. -/
def R.pairStatus_team : Field := ⟨0xF000008, 8, 61, 3, .ro, 0, false⟩
/-- PAIR.STATUS.cause, bits 60:57, reset 0. -/
def R.pairStatus_cause : Field := ⟨0xF000008, 8, 57, 4, .ro, 0, false⟩
/-- PAIR.STATUS.feed_shared, bits 56, reset 0. -/
def R.pairStatus_feedShared : Field := ⟨0xF000008, 8, 56, 1, .ro, 0, false⟩
/-- PAIR.STATUS.loop_shared, bits 55, reset 0. -/
def R.pairStatus_loopShared : Field := ⟨0xF000008, 8, 55, 1, .ro, 0, false⟩
/-- PAIR.STATUS.sense_armed, bits 54, reset 0. -/
def R.pairStatus_senseArmed : Field := ⟨0xF000008, 8, 54, 1, .ro, 0, false⟩
/-- PAIR.STATUS.port_0, bits 53:49, reset 0. -/
def R.pairStatus_port0 : Field := ⟨0xF000008, 8, 49, 5, .ro, 0, false⟩
/-- PAIR.STATUS.port_1, bits 48:44, reset 0. -/
def R.pairStatus_port1 : Field := ⟨0xF000008, 8, 44, 5, .ro, 0, false⟩
/-- PAIR.STATUS.port_0_up, bits 43, reset 0. -/
def R.pairStatus_port0Up : Field := ⟨0xF000008, 8, 43, 1, .ro, 0, false⟩
/-- PAIR.STATUS.port_1_up, bits 42, reset 0. -/
def R.pairStatus_port1Up : Field := ⟨0xF000008, 8, 42, 1, .ro, 0, false⟩
/-- PAIR.STATUS.partner_index, bits 27:16, reset 0. -/
def R.pairStatus_partnerIndex : Field := ⟨0xF000008, 8, 16, 12, .ro, 0, false⟩
/-- PAIR.STATUS.partner_bay, bits 15:0, reset 0. -/
def R.pairStatus_partnerBay : Field := ⟨0xF000008, 8, 0, 16, .ro, 0, false⟩
/-- PAIR.SECURE.committed, bits 63:24, reset 0. -/
def R.pairSecure_committed : Field := ⟨0xF000010, 8, 24, 40, .ro, 0, false⟩
/-- PAIR.SECURE.prev_valid, bits 23, reset 0. -/
def R.pairSecure_prevValid : Field := ⟨0xF000010, 8, 23, 1, .ro, 0, false⟩
/-- PAIR.SECURE.in_flight, bits 22, reset 0. -/
def R.pairSecure_inFlight : Field := ⟨0xF000010, 8, 22, 1, .ro, 0, false⟩
/-- PAIR.SECURE.pages_left, bits 21:0, reset 0. -/
def R.pairSecure_pagesLeft : Field := ⟨0xF000010, 8, 0, 22, .ro, 0, false⟩
/-- PAIR.PREV.previous, bits 63:24, reset 0. -/
def R.pairPrev_previous : Field := ⟨0xF000018, 8, 24, 40, .ro, 0, false⟩
/-- PAIR.RELEASE.step, bits 39:0, reset 0. -/
def R.pairRelease_step : Field := ⟨0xF000020, 8, 0, 40, .rw, 0, false⟩
/-- PAIR.BUF.used_mib, bits 63:48, reset 0. -/
def R.pairBuf_usedMib : Field := ⟨0xF000028, 8, 48, 16, .ro, 0, false⟩
/-- PAIR.BUF.base_1m, bits 47:20, reset set. -/
def R.pairBuf_base1m : Field := ⟨0xF000028, 8, 20, 28, .rw, 0x8e000, false⟩
/-- PAIR.HSTATE.size_64k, bits 63:48, reset 0. -/
def R.pairHstate_size64k : Field := ⟨0xF000030, 8, 48, 16, .rw, 0, false⟩
/-- PAIR.HSTATE.base_64k, bits 47:16, reset 0. -/
def R.pairHstate_base64k : Field := ⟨0xF000030, 8, 16, 32, .rw, 0, false⟩
/-- PAIR.MIRROR_STAT.partner_step, bits 63:24, reset 0. -/
def R.pairMirrorStat_partnerStep : Field := ⟨0xF000038, 8, 24, 40, .ro, 0, false⟩
/-- PAIR.MIRROR_STAT.partner_prev_valid, bits 23, reset 0. -/
def R.pairMirrorStat_partnerPrevValid : Field := ⟨0xF000038, 8, 23, 1, .ro, 0, false⟩
/-- PAIR.MIRROR_STAT.pages_received, bits 21:0, reset 0. -/
def R.pairMirrorStat_pagesReceived : Field := ⟨0xF000038, 8, 0, 22, .ro, 0, false⟩
/-- PAIR.FAULT_LAST.stall, bits 63:54, reset 0. -/
def R.pairFaultLast_stall : Field := ⟨0xF000040, 8, 54, 10, .ro, 0, false⟩
/-- PAIR.FAULT_LAST.slot, bits 53:49, reset 0. -/
def R.pairFaultLast_slot : Field := ⟨0xF000040, 8, 49, 5, .ro, 0, false⟩
/-- PAIR.FAULT_LAST.position, bits 48:43, reset 0. -/
def R.pairFaultLast_position : Field := ⟨0xF000040, 8, 43, 6, .ro, 0, false⟩
/-- PAIR.FAULT_LAST.cause, bits 42:40, reset 0. -/
def R.pairFaultLast_cause : Field := ⟨0xF000040, 8, 40, 3, .ro, 0, false⟩
/-- PAIR.FAULT_LAST.seq_us, bits 31:16, reset 0. -/
def R.pairFaultLast_seqUs : Field := ⟨0xF000040, 8, 16, 16, .ro, 0, false⟩
/-- PAIR.FAULT_LAST.count, bits 15:0, reset 0. -/
def R.pairFaultLast_count : Field := ⟨0xF000040, 8, 0, 16, .ro, 0, false⟩
/-- PAIR.HOME.home_64k, bits 63:42, reset 0. -/
def R.pairHome_home64k : Field := ⟨0xF000100, 8, 42, 22, .rw, 0, false⟩
/-- PAIR.HOME.need_64k, bits 41:20, reset 0. -/
def R.pairHome_need64k : Field := ⟨0xF000100, 8, 20, 22, .ro, 0, false⟩
/-- PAIR.MIRROR.mirror_64k, bits 63:42, reset 0. -/
def R.pairMirror_mirror64k : Field := ⟨0xF000180, 8, 42, 22, .rw, 0, false⟩
/-- PAIR.MIRROR.cap_64k, bits 41:20, reset 0. -/
def R.pairMirror_cap64k : Field := ⟨0xF000180, 8, 20, 22, .rw, 0, false⟩
/-- PAIR.GROUP.own_pages, bits 63:42, reset 0. -/
def R.pairGroup_ownPages : Field := ⟨0xF000200, 8, 42, 22, .ro, 0, false⟩
/-- PAIR.GROUP.partner_pages, bits 41:20, reset 0. -/
def R.pairGroup_partnerPages : Field := ⟨0xF000200, 8, 20, 22, .ro, 0, false⟩
/-- PAIR.REBUILD.running, bits 63:62, reset 0. -/
def R.pairRebuild_running : Field := ⟨0xF000300, 8, 62, 2, .ro, 0, false⟩
/-- PAIR.REBUILD.waiting, bits 61:52, reset 0. -/
def R.pairRebuild_waiting : Field := ⟨0xF000300, 8, 52, 10, .ro, 0, false⟩
/-- PAIR.REBUILD.done, bits 31:0, reset 0. -/
def R.pairRebuild_done : Field := ⟨0xF000300, 8, 0, 32, .ro, 0, false⟩
/-- SEC.STATUS.slot_state, bits 63:56, reset set. -/
def R.secStatus_slotState : Field := ⟨0x13000000, 8, 56, 8, .ro, 0, false⟩
/-- SEC.STATUS.owned, bits 55, reset set. -/
def R.secStatus_owned : Field := ⟨0x13000000, 8, 55, 1, .ro, 0, false⟩
/-- SEC.STATUS.session_slot, bits 54:52, reset 7. -/
def R.secStatus_sessionSlot : Field := ⟨0x13000000, 8, 52, 3, .ro, 7, false⟩
/-- SEC.STATUS.prove_failures, bits 15:0, reset 0. -/
def R.secStatus_proveFailures : Field := ⟨0x13000000, 8, 0, 16, .w1c, 0, false⟩
/-- SEC.FW.running_copy, bits 63, reset set. -/
def R.secFw_runningCopy : Field := ⟨0x13000008, 8, 63, 1, .ro, 0, false⟩
/-- SEC.FW.staged, bits 62, reset set. -/
def R.secFw_staged : Field := ⟨0x13000008, 8, 62, 1, .ro, 0, false⟩
/-- SEC.FW.svn_running, bits 31:16, reset set. -/
def R.secFw_svnRunning : Field := ⟨0x13000008, 8, 16, 16, .ro, 0, false⟩
/-- SEC.FW.svn_fused, bits 15:0, reset set. -/
def R.secFw_svnFused : Field := ⟨0x13000008, 8, 0, 16, .ro, 0, false⟩
/-- SEC.EPOCH.epoch, bits 63:0, reset set. -/
def R.secEpoch_epoch : Field := ⟨0x13000010, 8, 0, 64, .ro, 0, false⟩
/-- SEC.SCRUB.flags, bits 63:59, reset 0. -/
def R.secScrub_flags : Field := ⟨0x13000018, 8, 59, 5, .ro, 0, false⟩
/-- SEC.SCRUB.clean, bits 58, reset 0. -/
def R.secScrub_clean : Field := ⟨0x13000018, 8, 58, 1, .ro, 0, false⟩
/-- SEC.SCRUB.ms, bits 31:0, reset 0. -/
def R.secScrub_ms : Field := ⟨0x13000018, 8, 0, 32, .ro, 0, false⟩
/-- SEC.TEAM_SECRET.secret, bits 63:0, reset 0. -/
def R.secTeamSecret_secret : Field := ⟨0x13000100, 8, 0, 64, .wo, 0, false⟩
/-- SEC.SLOT_KEY.digest, bits 63:0, reset set. -/
def R.secSlotKey_digest : Field := ⟨0x13000200, 8, 0, 64, .ro, 0, false⟩

/-- The registers of block CTL. -/
def regsCtl : List RegDef := [
  ⟨"CTL.ID", 0x0000000, 8, 1, false, [R.ctlId_part, R.ctlId_siliconRev, R.ctlId_fwVersion]⟩,
  ⟨"CTL.STATE", 0x0000008, 8, 1, false, [R.ctlState_state, R.ctlState_haltCause, R.ctlState_haltStateLosing, R.ctlState_sessionOpen, R.ctlState_sessionId]⟩,
  ⟨"CTL.TIMERS", 0x0000010, 8, 1, false, [R.ctlTimers_idleMs, R.ctlTimers_retxTries, R.ctlTimers_retxUs]⟩,
  ⟨"CTL.COUNTERS", 0x0000018, 8, 1, false, [R.ctlCounters_authRefused, R.ctlCounters_formatRefused, R.ctlCounters_seqDiscarded, R.ctlCounters_planRefused]⟩,
  ⟨"CTL.RING_CFG", 0x0000100, 32, 2, false, [R.ctlRingCfg_base4k, R.ctlRingCfg_sizeCode]⟩,
  ⟨"CTL.RING_DOORBELL", 0x0000108, 32, 2, false, [R.ctlRingDoorbell_producer]⟩,
  ⟨"CTL.RING_STATUS", 0x0000110, 32, 2, false, [R.ctlRingStatus_completed, R.ctlRingStatus_consumer]⟩,
  ⟨"CTL.EVT_CFG", 0x0000200, 8, 1, false, [R.ctlEvtCfg_base4k, R.ctlEvtCfg_sizeCode]⟩,
  ⟨"CTL.EVT_PRODUCER", 0x0000208, 8, 1, false, [R.ctlEvtProducer_producer]⟩,
  ⟨"CTL.EVT_CONSUMER", 0x0000210, 8, 1, false, [R.ctlEvtConsumer_consumer]⟩,
  ⟨"CTL.EVT_STATUS", 0x0000218, 8, 1, false, [R.ctlEvtStatus_dropped, R.ctlEvtStatus_noteTicks]⟩]

/-- The registers of block GTE. -/
def regsGte : List RegDef := [
  ⟨"GTE.STEP", 0x1000000, 8, 1, false, [R.gteStep_step]⟩,
  ⟨"GTE.NEXT", 0x1000008, 8, 1, false, [R.gteNext_anyStep, R.gteNext_expected]⟩,
  ⟨"GTE.STATUS", 0x1000010, 8, 1, false, [R.gteStatus_gateComplete, R.gteStatus_tokenHeld, R.gteStatus_haltPending, R.gteStatus_heldCmds, R.gteStatus_lastWindowTicks]⟩,
  ⟨"GTE.PLAN", 0x1000018, 8, 1, false, [R.gtePlan_planTag]⟩,
  ⟨"GTE.COMMIT_TIME", 0x1000020, 8, 1, false, [R.gteCommitTime_watch]⟩]

/-- The registers of block PWR. -/
def regsPwr : List RegDef := [
  ⟨"PWR.BUDGET", 0x2000000, 8, 1, false, [R.pwrBudget_ceilingW, R.pwrBudget_floorW, R.pwrBudget_budgetW]⟩,
  ⟨"PWR.GOV", 0x2000008, 8, 1, false, [R.pwrGov_g, R.pwrGov_parked, R.pwrGov_waiting, R.pwrGov_cW, R.pwrGov_allowanceW, R.pwrGov_ledgerW]⟩,
  ⟨"PWR.COST", 0x2000010, 8, 1, false, [R.pwrCost_effQ16, R.pwrCost_fixedW, R.pwrCost_dynamicMw, R.pwrCost_staticMw, R.pwrCost_sleepMw]⟩,
  ⟨"PWR.WAKE", 0x2000018, 8, 1, false, [R.pwrWake_waitAlarm, R.pwrWake_tokenStore, R.pwrWake_tokensPerUs]⟩,
  ⟨"PWR.DIE", 0x2000100, 8, 4, false, [R.pwrDie_currentA, R.pwrDie_tjC, R.pwrDie_tI, R.pwrDie_tT, R.pwrDie_thermC, R.pwrDie_ilimA]⟩,
  ⟨"PWR.STALL_V", 0x2001000, 8, 512, false, [R.pwrStallV_vOffset]⟩]

/-- The registers of block CLK. -/
def regsClk : List RegDef := [
  ⟨"CLK.WATCH", 0x3000000, 8, 1, false, [R.clkWatch_count]⟩,
  ⟨"CLK.WATCH_SRC", 0x3000008, 8, 1, false, [R.clkWatchSrc_onInternal]⟩,
  ⟨"CLK.IDLE", 0x3000010, 8, 1, false, [R.clkIdle_wakeLinger, R.clkIdle_sleepIdle, R.clkIdle_napIdle]⟩,
  ⟨"CLK.BARN", 0x3000800, 8, 16, false, [R.clkBarn_pllRunning, R.clkBarn_runningStalls]⟩,
  ⟨"CLK.STALL", 0x3001000, 8, 512, false, [R.clkStall_lateWakes, R.clkStall_state, R.clkStall_parked, R.clkStall_effStep, R.clkStall_restStep, R.clkStall_noSleep, R.clkStall_pinAwake]⟩]

/-- The registers of block FUS. -/
def regsFus : List RegDef := [
  ⟨"FUS.MAP_INFO", 0x4000000, 8, 1, false, [R.fusMapInfo_mapVersion, R.fusMapInfo_factoryClass, R.fusMapInfo_fuseGoodStalls, R.fusMapInfo_mapOk]⟩,
  ⟨"FUS.FIELD_CLEAR", 0x4000008, 8, 1, false, [R.fusFieldClear_clear]⟩,
  ⟨"FUS.STALL_FUSE", 0x4001000, 8, 512, false, [R.fusStallFuse_troughGood, R.fusStallFuse_storeGood, R.fusStallFuse_geGood, R.fusStallFuse_tileGood]⟩,
  ⟨"FUS.STALL_FIELD", 0x4002000, 8, 512, false, [R.fusStallField_geFieldOff, R.fusStallField_tileFieldOff]⟩]

/-- The registers of block BRU. -/
def regsBru : List RegDef := [
  ⟨"BRU.BAY_ID", 0x5000800, 8, 1, false, [R.bruBayId_bayNumber, R.bruBayId_powerLimitW, R.bruBayId_sensedBay, R.bruBayId_teamSenseWired, R.bruBayId_clk156Ok, R.bruBayId_clk25CoreOk, R.bruBayId_clk25AonOk, R.bruBayId_teamSenseLevel, R.bruBayId_alertNDriven, R.bruBayId_bayStatus]⟩,
  ⟨"BRU.BAY_TAGS", 0x5000808, 8, 1, false, [R.bruBayTags_feedTagB, R.bruBayTags_feedTagA]⟩,
  ⟨"BRU.BAY_LOOP", 0x5000810, 8, 1, false, [R.bruBayLoop_loopTag]⟩,
  ⟨"BRU.BAY_INSTALL", 0x5000818, 8, 1, false, [R.bruBayInstall_installationId]⟩,
  ⟨"BRU.FIT", 0x5000820, 8, 1, false, [R.bruFit_loftSpeedMts, R.bruFit_dimmPresent, R.bruFit_dimmUsable, R.bruFit_loftChannelGib, R.bruFit_laserPresent, R.bruFit_laserUsable, R.bruFit_hostModulePresent, R.bruFit_hostModuleUsable, R.bruFit_loftPopulation]⟩,
  ⟨"BRU.CTL", 0x5000000, 8, 1, false, [R.bruCtl_forceCold, R.bruCtl_warmEnable]⟩,
  ⟨"BRU.STATUS", 0x5000008, 8, 1, false, [R.bruStatus_phase, R.bruStatus_path, R.bruStatus_warmAbandoned, R.bruStatus_waitingPorts, R.bruStatus_stopCause, R.bruStatus_logDropped, R.bruStatus_warmRefusal, R.bruStatus_elapsedMs]⟩,
  ⟨"BRU.CLASS", 0x5000010, 8, 1, false, [R.bruClass_class, R.bruClass_liveStalls, R.bruClass_liveTiles, R.bruClass_noReserveStalls, R.bruClass_noReliefStalls, R.bruClass_disabledStalls]⟩,
  ⟨"BRU.LINKS", 0x5000018, 8, 1, false, [R.bruLinks_fabricUp, R.bruLinks_fabricNarrow, R.bruLinks_loftLinkUp, R.bruLinks_hostUp]⟩,
  ⟨"BRU.STALL_VERDICT", 0x5001000, 8, 512, false, [R.bruStallVerdict_verdict, R.bruStallVerdict_geTest, R.bruStallVerdict_storeTest, R.bruStallVerdict_troughTest, R.bruStallVerdict_reliefPos, R.bruStallVerdict_reservePos, R.bruStallVerdict_badTiles, R.bruStallVerdict_tileTested]⟩,
  ⟨"BRU.TILE_FAIL", 0x5002000, 8, 512, false, [R.bruTileFail_tileFail]⟩]

/-- The registers of block TIL. -/
def regsTil : List RegDef := [
  ⟨"TIL.CTL", 0x6000000, 8, 1, false, [R.tilCtl_splitAlarm, R.tilCtl_chkTpsEn, R.tilCtl_chkFwdEn]⟩,
  ⟨"TIL.CONV", 0x6200000, 8, 17408, true, [R.tilConv_rangeCode]⟩,
  ⟨"TIL.WSTEP", 0x6080000, 8, 17408, false, [R.tilWstep_wstep]⟩,
  ⟨"TIL.CHK_TOL", 0x60C0000, 8, 17408, false, [R.tilChkTol_tauTps, R.tilChkTol_tauFwd]⟩,
  ⟨"TIL.COUNT", 0x6100000, 8, 17408, false, [R.tilCount_splits, R.tilCount_clips, R.tilCount_clamped]⟩,
  ⟨"TIL.STATUS", 0x6140000, 8, 17408, false, [R.tilStatus_role, R.tilStatus_slot, R.tilStatus_busy, R.tilStatus_mode, R.tilStatus_lastPhases, R.tilStatus_chkFail]⟩,
  ⟨"TIL.PHASES", 0x6180000, 8, 17408, false, [R.tilPhases_phasesStep, R.tilPhases_tokensStep]⟩]

/-- The registers of block GEN. -/
def regsGen : List RegDef := [
  ⟨"GEN.CTL", 0x9000000, 8, 1, false, [R.genCtl_partialAlarmUs, R.genCtl_fwdAlarmUs]⟩,
  ⟨"GEN.PASS", 0x9000008, 8, 1, false, [R.genPass_pass, R.genPass_arrived, R.genPass_ended, R.genPass_idle, R.genPass_fwdTicks]⟩,
  ⟨"GEN.STALL", 0x9001000, 8, 512, false, [R.genStall_pc, R.genStall_pass, R.genStall_idle, R.genStall_faulted, R.genStall_atFwdEnd, R.genStall_fbCount, R.genStall_fbSlot0, R.genStall_fbValid0, R.genStall_fbSlot1, R.genStall_fbValid1, R.genStall_bank0, R.genStall_bank1, R.genStall_mmQueue]⟩,
  ⟨"GEN.COUNT", 0x9002000, 8, 512, false, [R.genCount_mmCycles, R.genCount_fallbackTokens, R.genCount_skipped]⟩,
  ⟨"GEN.FAULT", 0x9003000, 8, 512, false, [R.genFault_valid, R.genFault_status, R.genFault_opcode, R.genFault_instr, R.genFault_detail]⟩]

/-- The registers of block FMT. -/
def regsFmt : List RegDef := [
  ⟨"FMT.CTL", 0xA000000, 8, 1, false, [R.fmtCtl_histLenM1, R.fmtCtl_margin]⟩,
  ⟨"FMT.STATUS", 0xA000008, 8, 1, false, [R.fmtStatus_trapped, R.fmtStatus_numericMode, R.fmtStatus_trappedStalls]⟩,
  ⟨"FMT.SEED", 0xA000010, 8, 1, false, [R.fmtSeed_jobSeed]⟩,
  ⟨"FMT.TRAP_FIRST", 0xA000018, 8, 1, false, [R.fmtTrapFirst_valid, R.fmtTrapFirst_stall, R.fmtTrapFirst_watch]⟩,
  ⟨"FMT.ALARM", 0xA000020, 8, 1, false, [R.fmtAlarm_outlierAlarm, R.fmtAlarm_eclipseAlarm, R.fmtAlarm_satAlarm]⟩,
  ⟨"FMT.COUNT", 0xA000028, 8, 1, false, [R.fmtCount_saturated, R.fmtCount_eclipsed, R.fmtCount_carried]⟩,
  ⟨"FMT.FLAT", 0xA000030, 8, 1, false, [R.fmtFlat_threshold]⟩,
  ⟨"FMT.HIST_RESET", 0xA000038, 8, 1, false, [R.fmtHistReset_reset]⟩,
  ⟨"FMT.TRAP_A", 0xA001000, 8, 512, false, [R.fmtTrapA_valid, R.fmtTrapA_source, R.fmtTrapA_operand, R.fmtTrapA_valueKind, R.fmtTrapA_layer, R.fmtTrapA_instr, R.fmtTrapA_tile]⟩,
  ⟨"FMT.TRAP_B", 0xA002000, 8, 512, false, [R.fmtTrapB_element]⟩,
  ⟨"FMT.TRAP_C", 0xA003000, 8, 512, false, [R.fmtTrapC_watchLo, R.fmtTrapC_value]⟩,
  ⟨"FMT.FLAT_CNT", 0xA004000, 8, 128, false, [R.fmtFlatCnt_count3, R.fmtFlatCnt_count2, R.fmtFlatCnt_count1, R.fmtFlatCnt_count0]⟩,
  ⟨"FMT.SCALE", 0xA005000, 8, 512, false, [R.fmtScale_scaleC4, R.fmtScale_scaleC3, R.fmtScale_scaleC2, R.fmtScale_scaleC1, R.fmtScale_scaleC0]⟩]

/-- The registers of block RTE. -/
def regsRte : List RegDef := [
  ⟨"RTE.CTL", 0xB000000, 8, 1, false, [R.rteCtl_closeAlarmUs, R.rteCtl_combineAlarmUs, R.rteCtl_defaultCap]⟩,
  ⟨"RTE.STEP", 0xB000008, 8, 1, false, [R.rteStep_dispatched, R.rteStep_rerouted, R.rteStep_dropped]⟩,
  ⟨"RTE.REFUSED", 0xB000010, 8, 1, false, [R.rteRefused_stale, R.rteRefused_format, R.rteRefused_range, R.rteRefused_absentQuota]⟩,
  ⟨"RTE.CLOSE", 0xB000018, 8, 1, false, [R.rteClose_dispatchClosed, R.rteClose_expected, R.rteClose_received]⟩,
  ⟨"RTE.HOMES", 0xB001000, 8, 512, false, [R.rteHomes_count3, R.rteHomes_count2, R.rteHomes_count1, R.rteHomes_count0]⟩,
  ⟨"RTE.ARB", 0xB002000, 8, 512, false, [R.rteArb_hbmWeight, R.rteArb_meshWeight]⟩,
  ⟨"RTE.QUEUE", 0xB010000, 8, 8192, false, [R.rteQueue_counter, R.rteQueue_kind]⟩]

/-- The registers of block MOV. -/
def regsMov : List RegDef := [
  ⟨"MOV.CTL", 0xC000000, 8, 1, false, [R.movCtl_rateAlarmUs]⟩,
  ⟨"MOV.RATE", 0xC000100, 8, 7, false, [R.movRate_windowBytes, R.movRate_held, R.movRate_floor, R.movRate_share]⟩,
  ⟨"MOV.CH_DESC", 0xC001000, 64, 64, false, [R.movChDesc_desc64]⟩,
  ⟨"MOV.CH_START", 0xC001008, 64, 64, false, [R.movChStart_start]⟩,
  ⟨"MOV.CH_PAUSE", 0xC001010, 64, 64, false, [R.movChPause_pause]⟩,
  ⟨"MOV.CH_RESUME", 0xC001018, 64, 64, false, [R.movChResume_resume]⟩,
  ⟨"MOV.CH_ABORT", 0xC001020, 64, 64, false, [R.movChAbort_abort]⟩,
  ⟨"MOV.CH_REQ", 0xC001028, 64, 64, false, [R.movChReq_request]⟩,
  ⟨"MOV.CH_STATUS", 0xC001030, 64, 64, false, [R.movChStatus_state, R.movChStatus_aborted, R.movChStatus_done, R.movChStatus_lastStatus, R.movChStatus_phase, R.movChStatus_pending, R.movChStatus_overflows]⟩,
  ⟨"MOV.CH_PROGRESS", 0xC001038, 64, 64, false, [R.movChProgress_bytesDone, R.movChProgress_tag]⟩,
  ⟨"MOV.STALL_CH", 0xC002000, 8, 512, false, [R.movStallCh_state, R.movStallCh_faulted, R.movStallCh_lastStatus, R.movStallCh_phase, R.movStallCh_pending, R.movStallCh_overflows]⟩,
  ⟨"MOV.STALL_PROG", 0xC003000, 8, 512, false, [R.movStallProg_bytesDone, R.movStallProg_tag]⟩]

/-- The registers of block PRT. -/
def regsPrt : List RegDef := [
  ⟨"PRT.CTL", 0xD000000, 8, 1, false, [R.prtCtl_tokenUdp, R.prtCtl_teamUdp, R.prtCtl_pfcAlarmUs, R.prtCtl_fwdPcp, R.prtCtl_bwdPcp, R.prtCtl_teamPcp, R.prtCtl_retrainS]⟩,
  ⟨"PRT.ADDR6_HI", 0xD000008, 8, 1, false, [R.prtAddr6Hi_addrHi]⟩,
  ⟨"PRT.ADDR6_LO", 0xD000010, 8, 1, false, [R.prtAddr6Lo_addrLo]⟩,
  ⟨"PRT.ADDR4", 0xD000018, 8, 1, false, [R.prtAddr4_vid, R.prtAddr4_valid, R.prtAddr4_ipv4]⟩,
  ⟨"PRT.TABLE", 0xD000020, 8, 1, false, [R.prtTable_count, R.prtTable_base64]⟩,
  ⟨"PRT.HOLD", 0xD000028, 8, 1, false, [R.prtHold_sizeMib, R.prtHold_base1m, R.prtHold_headroomMib]⟩,
  ⟨"PRT.HOLD_STAT", 0xD000030, 8, 1, false, [R.prtHoldStat_usedKib, R.prtHoldStat_passHeld, R.prtHoldStat_paused, R.prtHoldStat_dropped]⟩,
  ⟨"PRT.PORT_CTL", 0xD001000, 64, 24, false, [R.prtPortCtl_fecAlarm, R.prtPortCtl_enable]⟩,
  ⟨"PRT.PORT_RETRAIN", 0xD001008, 64, 24, false, [R.prtPortRetrain_retrain]⟩,
  ⟨"PRT.PORT_NH", 0xD001010, 64, 24, false, [R.prtPortNh_nextHopMac]⟩,
  ⟨"PRT.PORT_STATUS", 0xD001018, 64, 24, false, [R.prtPortStatus_state, R.prtPortStatus_team, R.prtPortStatus_laneGroup, R.prtPortStatus_weight, R.prtPortStatus_rxPaused, R.prtPortStatus_txPaused, R.prtPortStatus_downCause, R.prtPortStatus_attempts]⟩,
  ⟨"PRT.PORT_FEC", 0xD001020, 64, 24, false, [R.prtPortFec_corrected, R.prtPortFec_uncorrectable]⟩,
  ⟨"PRT.PORT_DROP", 0xD001028, 64, 24, false, [R.prtPortDrop_fcs, R.prtPortDrop_oversize, R.prtPortDrop_unaddressed, R.prtPortDrop_teamMisport]⟩]

/-- The registers of block HST. -/
def regsHst : List RegDef := [
  ⟨"HST.CTL", 0xE000000, 8, 1, false, [R.hstCtl_controlUdp, R.hstCtl_feedUdp, R.hstCtl_vid, R.hstCtl_controlPcp, R.hstCtl_feedPcp]⟩,
  ⟨"HST.MAC", 0xE000008, 8, 1, false, [R.hstMac_macBase]⟩,
  ⟨"HST.ADDR6_HI", 0xE000010, 8, 1, false, [R.hstAddr6Hi_addrHi]⟩,
  ⟨"HST.ADDR6_LO", 0xE000018, 8, 1, false, [R.hstAddr6Lo_addrLo]⟩,
  ⟨"HST.ADDR4", 0xE000020, 8, 1, false, [R.hstAddr4_valid, R.hstAddr4_ipv4]⟩,
  ⟨"HST.STATUS", 0xE000028, 8, 1, false, [R.hstStatus_state, R.hstStatus_feedXoff, R.hstStatus_downCause]⟩,
  ⟨"HST.FEED_CFG", 0xE000030, 8, 1, false, [R.hstFeedCfg_base64k, R.hstFeedCfg_sizeLog2]⟩,
  ⟨"HST.FEED_THR", 0xE000038, 8, 1, false, [R.hstFeedThr_runoutKib, R.hstFeedThr_xonGapKib]⟩,
  ⟨"HST.FEED_PREFIX", 0xE000040, 8, 1, false, [R.hstFeedPrefix_prefix]⟩,
  ⟨"HST.FEED_CONSUMED", 0xE000048, 8, 1, false, [R.hstFeedConsumed_consumed]⟩,
  ⟨"HST.FEED_STAT", 0xE000050, 8, 1, false, [R.hstFeedStat_format, R.hstFeedStat_auth, R.hstFeedStat_stepState, R.hstFeedStat_window]⟩]

/-- The registers of block PAIR. -/
def regsPair : List RegDef := [
  ⟨"PAIR.CTL", 0xF000000, 8, 1, false, [R.pairCtl_secureAlarmMs, R.pairCtl_lossUs, R.pairCtl_beatUs, R.pairCtl_strict]⟩,
  ⟨"PAIR.STATUS", 0xF000008, 8, 1, false, [R.pairStatus_team, R.pairStatus_cause, R.pairStatus_feedShared, R.pairStatus_loopShared, R.pairStatus_senseArmed, R.pairStatus_port0, R.pairStatus_port1, R.pairStatus_port0Up, R.pairStatus_port1Up, R.pairStatus_partnerIndex, R.pairStatus_partnerBay]⟩,
  ⟨"PAIR.SECURE", 0xF000010, 8, 1, false, [R.pairSecure_committed, R.pairSecure_prevValid, R.pairSecure_inFlight, R.pairSecure_pagesLeft]⟩,
  ⟨"PAIR.PREV", 0xF000018, 8, 1, false, [R.pairPrev_previous]⟩,
  ⟨"PAIR.RELEASE", 0xF000020, 8, 1, false, [R.pairRelease_step]⟩,
  ⟨"PAIR.BUF", 0xF000028, 8, 1, false, [R.pairBuf_usedMib, R.pairBuf_base1m]⟩,
  ⟨"PAIR.HSTATE", 0xF000030, 8, 1, false, [R.pairHstate_size64k, R.pairHstate_base64k]⟩,
  ⟨"PAIR.MIRROR_STAT", 0xF000038, 8, 1, false, [R.pairMirrorStat_partnerStep, R.pairMirrorStat_partnerPrevValid, R.pairMirrorStat_pagesReceived]⟩,
  ⟨"PAIR.FAULT_LAST", 0xF000040, 8, 1, false, [R.pairFaultLast_stall, R.pairFaultLast_slot, R.pairFaultLast_position, R.pairFaultLast_cause, R.pairFaultLast_seqUs, R.pairFaultLast_count]⟩,
  ⟨"PAIR.HOME", 0xF000100, 8, 8, false, [R.pairHome_home64k, R.pairHome_need64k]⟩,
  ⟨"PAIR.MIRROR", 0xF000180, 8, 8, false, [R.pairMirror_mirror64k, R.pairMirror_cap64k]⟩,
  ⟨"PAIR.GROUP", 0xF000200, 8, 8, false, [R.pairGroup_ownPages, R.pairGroup_partnerPages]⟩,
  ⟨"PAIR.REBUILD", 0xF000300, 8, 16, false, [R.pairRebuild_running, R.pairRebuild_waiting, R.pairRebuild_done]⟩]

/-- The registers of block BRD. -/
def regsBrd : List RegDef := [
  ⟨"BRD.CTL", 0x10000000, 8, 1, false, [R.brdCtl_watchSteps, R.brdCtl_gtolQ8, R.brdCtl_restMode, R.brdCtl_brandEn, R.brdCtl_geChkEn]⟩,
  ⟨"BRD.STATUS", 0x10000008, 8, 1, false, [R.brdStatus_boundHeld, R.brdStatus_suspectTiles, R.brdStatus_suspectGes, R.brdStatus_votesRunning]⟩,
  ⟨"BRD.COUNT", 0x10000010, 8, 1, false, [R.brdCount_rereadOk, R.brdCount_corrupt, R.brdCount_votes, R.brdCount_noMajority]⟩,
  ⟨"BRD.COUNT2", 0x10000018, 8, 1, false, [R.brdCount2_workerLost, R.brdCount2_checkerLost, R.brdCount2_marginal, R.brdCount2_frameBrand]⟩,
  ⟨"BRD.LINE_LAST", 0x10000020, 8, 1, false, [R.brdLineLast_valid, R.brdLineLast_reader, R.brdLineLast_address]⟩,
  ⟨"BRD.VOTE_LAST", 0x10000028, 8, 1, false, [R.brdVoteLast_valid, R.brdVoteLast_outcome, R.brdVoteLast_kind, R.brdVoteLast_stall, R.brdVoteLast_tile, R.brdVoteLast_group, R.brdVoteLast_step]⟩,
  ⟨"BRD.STALL", 0x10001000, 8, 512, false, [R.brdStall_geState, R.brdStall_geStrikes, R.brdStall_suspectTiles, R.brdStall_vRest, R.brdStall_clockRest, R.brdStall_geSuspectStep]⟩,
  ⟨"BRD.TILE", 0x10040000, 8, 17408, false, [R.brdTile_state, R.brdTile_strikes, R.brdTile_lastLoss, R.brdTile_suspectStep]⟩]

/-- The registers of block CAL. -/
def regsCal : List RegDef := [
  ⟨"CAL.CTL", 0x11000000, 8, 1, false, [R.calCtl_trimMs, R.calCtl_graceMs, R.calCtl_driftPpm, R.calCtl_trimPhasesLog2, R.calCtl_gracePhasesLog2, R.calCtl_rotPerBarn, R.calCtl_freshWake]⟩,
  ⟨"CAL.WRITE", 0x11000008, 8, 1, false, [R.calWrite_stuckLimit, R.calWrite_maxRounds, R.calWrite_window64, R.calWrite_hyst16]⟩,
  ⟨"CAL.WEAR", 0x11000010, 8, 1, false, [R.calWear_wearLimit, R.calWear_wearWarn, R.calWear_flushS]⟩,
  ⟨"CAL.GATE_WRITE", 0x11000018, 8, 1, false, [R.calGateWrite_writeTicks, R.calGateWrite_pairsWritten, R.calGateWrite_pairsStuck]⟩,
  ⟨"CAL.ROTATION", 0x11001000, 8, 512, false, [R.calRotation_state, R.calRotation_slot, R.calRotation_sourcePos, R.calRotation_reliefPos, R.calRotation_rowsFilled, R.calRotation_rotations]⟩,
  ⟨"CAL.TILE_AGE", 0x11040000, 8, 17408, false, [R.calTileAge_ageMs, R.calTileAge_phases, R.calTileAge_lastKind, R.calTileAge_due, R.calTileAge_forced, R.calTileAge_overdue]⟩,
  ⟨"CAL.TILE_STAT", 0x11080000, 8, 17408, false, [R.calTileStat_sigmaQ10, R.calTileStat_gRefPpm, R.calTileStat_deltaPpm, R.calTileStat_s0Q10]⟩,
  ⟨"CAL.TILE_WEAR", 0x110C0000, 8, 17408, false, [R.calTileWear_wearMax, R.calTileWear_wearMaxPair, R.calTileWear_worn, R.calTileWear_stuckPairs, R.calTileWear_saturated, R.calTileWear_idleAborts]⟩]

/-- The registers of block HRN. -/
def regsHrn : List RegDef := [
  ⟨"HRN.STATUS", 0x12000000, 8, 1, false, [R.hrnStatus_state, R.hrnStatus_heldAmends, R.hrnStatus_structuralHeld, R.hrnStatus_moduleIndex, R.hrnStatus_moduleCount, R.hrnStatus_imageKib]⟩,
  ⟨"HRN.BUILD", 0x12000008, 8, 1, false, [R.hrnBuild_buildId]⟩,
  ⟨"HRN.PLAN_NEXT", 0x12000010, 8, 1, false, [R.hrnPlanNext_planTag]⟩,
  ⟨"HRN.MISMATCH", 0x12000018, 8, 1, false, [R.hrnMismatch_receivedTag]⟩,
  ⟨"HRN.MISMATCH_CNT", 0x12000020, 8, 1, false, [R.hrnMismatchCnt_tokenFrames, R.hrnMismatchCnt_control, R.hrnMismatchCnt_gateTokens, R.hrnMismatchCnt_lastSource]⟩,
  ⟨"HRN.HELD", 0x12000028, 8, 1, false, [R.hrnHeld_heldBytes]⟩]

/-- The registers of block SEC. -/
def regsSec : List RegDef := [
  ⟨"SEC.STATUS", 0x13000000, 8, 1, false, [R.secStatus_slotState, R.secStatus_owned, R.secStatus_sessionSlot, R.secStatus_proveFailures]⟩,
  ⟨"SEC.FW", 0x13000008, 8, 1, false, [R.secFw_runningCopy, R.secFw_staged, R.secFw_svnRunning, R.secFw_svnFused]⟩,
  ⟨"SEC.EPOCH", 0x13000010, 8, 1, false, [R.secEpoch_epoch]⟩,
  ⟨"SEC.SCRUB", 0x13000018, 8, 1, false, [R.secScrub_flags, R.secScrub_clean, R.secScrub_ms]⟩,
  ⟨"SEC.TEAM_SECRET", 0x13000100, 8, 4, false, [R.secTeamSecret_secret]⟩,
  ⟨"SEC.SLOT_KEY", 0x13000200, 8, 4, false, [R.secSlotKey_digest]⟩]

/-- The registers of block UPD. -/
def regsUpd : List RegDef := [
  ⟨"UPD.TOUCH", 0x14000000, 8, 1, false, [R.updTouch_base64k, R.updTouch_subLog2, R.updTouch_enable]⟩,
  ⟨"UPD.DELTA", 0x14000008, 8, 1, false, [R.updDelta_base1m, R.updDelta_sizeMib]⟩,
  ⟨"UPD.STATUS", 0x14000010, 8, 1, false, [R.updStatus_phase, R.updStatus_chipsDone, R.updStatus_fault, R.updStatus_lastTicks]⟩,
  ⟨"UPD.STEP", 0x14000018, 8, 1, false, [R.updStep_halves, R.updStep_rows, R.updStep_saturated]⟩,
  ⟨"UPD.DELTA_STAT", 0x14000020, 8, 1, false, [R.updDeltaStat_entries, R.updDeltaStat_deferred, R.updDeltaStat_clamped]⟩,
  ⟨"UPD.FAULT_A", 0x14000028, 8, 1, false, [R.updFaultA_valid, R.updFaultA_cause, R.updFaultA_chip, R.updFaultA_program, R.updFaultA_slot, R.updFaultA_value]⟩,
  ⟨"UPD.FAULT_B", 0x14000030, 8, 1, false, [R.updFaultB_element]⟩,
  ⟨"UPD.CHIP", 0x14000100, 8, 4, false, [R.updChip_state, R.updChip_programs, R.updChip_tempC, R.updChip_cycles]⟩]

/-- The registers of block LFT. -/
def regsLft : List RegDef := [
  ⟨"LFT.SCRUB", 0x15000000, 8, 1, false, [R.lftScrub_scrubHours, R.lftScrub_progressPct]⟩,
  ⟨"LFT.ECC_LAST", 0x15000008, 8, 1, false, [R.lftEccLast_valid, R.lftEccLast_address]⟩,
  ⟨"LFT.CHANNEL", 0x15000100, 8, 8, false, [R.lftChannel_populated, R.lftChannel_refresh2x, R.lftChannel_tempC, R.lftChannel_gib, R.lftChannel_ranks, R.lftChannel_corrected, R.lftChannel_uncorrected]⟩,
  ⟨"LFT.LINK", 0x15000200, 8, 4, false, [R.lftLink_up, R.lftLink_lanes, R.lftLink_replays, R.lftLink_crcErrors, R.lftLink_retrains]⟩]

/-- The register map of R137. -/
def allRegs : List RegDef :=
  regsCtl ++ regsGte ++ regsPwr ++ regsClk ++ regsFus ++ regsBru ++ regsTil ++ regsGen ++ regsFmt ++ regsRte ++ regsMov ++ regsPrt ++ regsHst ++ regsPair ++ regsBrd ++ regsCal ++ regsHrn ++ regsSec ++ regsUpd ++ regsLft

end Sys2Proof.Machine
end

