-- ==== Sys2Proof/Machine/State.lean ====
section
/-! DEFINITION. Machine/State.lean: everything the manual gives the module to remember, as plain data. -/
namespace Sys2Proof.Machine
open Sys2Proof

/-- Why a command stops the model. -/
inductive Fault where
  /-- Raised by a command that names a stall, tile, die, channel, port, socket or chip beyond those of R25, R38 and R76 to
  R80. Safe: no such unit exists, so the hardware has no behaviour there. -/
  | noSuchUnit
  deriving DecidableEq, Repr

/-- Why a command has no meaning in the model. -/
inductive Refusal where
  /-- A row of the opcode table without its meaning yet. Safe: nothing can be proved of its effect. -/
  | notModelled (mnemonic : String)
  deriving DecidableEq, Repr

/-- The eight module states (R146). -/
inductive Mode where
  | off | watch | bringup | ready | harnessed | running | gate | halted
  deriving DecidableEq, Repr

/-- The six stall states (R28). -/
inductive StallSt where
  | sleep | nap | awake | retrim | fallback | disabled
  deriving DecidableEq, Repr

/-- The fields of an event record (R152); `coord` is the coordinate word. -/
structure EventRec where
  time : Nat
  code : Nat
  coord : Nat
  step : Nat
  d0 : Nat
  d1 : Nat
  deriving DecidableEq, Repr

/-- The watch domain and the edge of the module (R54 to R72). -/
structure Board where
  inrush : Bool
  resetN : Bool
  resetting : Bool
  leverOpen : Bool
  switchOpen : Bool
  pwrOk : Bool
  railsOn : Bool
  bayRead : Bool
  /-- The bring-up record could be read and passed its check when WATCH was entered (R86). -/
  recordOk : Bool
  bayLabel : Bytes
  busMode : Nat
  dynAddr : Option Nat
  alerts : Nat
  telem : Telemetry
  tap : TapInstr
  warmValid : Bool
  everBrought : Bool
  afterFault : Bool
  deriving DecidableEq, Repr

/-- An owner key slot (R464): 0 EMPTY, 1 ACTIVE, 2 REVOKED, and its public key. -/
structure KeySlot where
  st : Nat
  key : Bytes
  deriving DecidableEq, Repr

/-- A stored firmware copy (R471), with the version that CTL.ID shows while it runs. -/
structure FwCopy where
  digest : Bytes
  svn : Nat
  version : Nat
  deriving DecidableEq, Repr

/-- One of the three copies of a stall's fuses (R100), laid out as FUS.STALL_FUSE, with the bits that cannot be read. -/
structure FuseCopy where
  bits : Nat
  dark : Nat
  deriving DecidableEq, Repr

/-- The bring-up record (R88): the register values that hold verdicts, failures and the field map, the trims, and what it
is compared with at the next bring-up. -/
structure Record where
  regs : Tab Nat
  trim : Tab Nat
  gRef : Tab (Int × Nat)
  fit : Nat
  bayNumber : Nat
  installation : Nat
  fwDigest : Bytes
  coldTime : Nat
  fwCopy : Nat
  /-- Training parameters of phases 1 to 4, by phase. -/
  training : Tab (List Nat)
  deriving DecidableEq, Repr

/-- What outlives loss of power (R86, R88, R100, R236 to R241, R464, R471): record flash, wear store, key slots, firmware copies and the cells of the arrays. -/
structure NonVol where
  record : Option Record
  wear : Tab Nat
  wearQueue : Tab Nat
  wearX : Tab Nat
  slots : List KeySlot
  fwA : FwCopy
  fwB : FwCopy
  fwStaged : Bool
  /-- Achieved level of a pair, by (tile × 512 + row) × 528 + column, where it differs from its tile's base. -/
  level : Tab Int
  /-- Tiles whose every unlisted pair is at level 0; the others still hold the test pattern of bring-up (R99). -/
  zeroed : List Nat
  /-- Stuck list (R239): tile × 270,336 + 528 row + column, oldest first. -/
  stuck : List Nat
  /-- The three copies of a stall's fuses; of a stall not listed they agree that every unit is good (R100). -/
  fuses : Tab (List FuseCopy)
  /-- FUS.FIELD_CLEAR has been written since the last completed cold path (R86). -/
  fieldCleared : Bool
  deriving DecidableEq, Repr

/-- The controls that the module writes to the host pluggable (R387): low-power request, software reset, the staged
application, data-path deinitialise, host-side transmit equalisation, transmit disable by lane. -/
structure CmisCtl where
  lowPower : Bool
  softReset : Bool
  app : Option Nat
  dpDeinit : Nat
  txEq : List Nat
  txDisable : Nat
  deriving DecidableEq, Repr

/-- The controls that the module writes to a laser module (R387): its enabled outputs and their power set-points in mW. -/
structure LaserCtl where
  enable : Nat
  setMw : List Nat
  deriving DecidableEq, Repr

/-- The attached modules as they were last read (R84), and what the module has written to them (R387). -/
structure Attach where
  host : Option Pluggable
  cmis : CmisCtl
  lasers : Tab LaserModule
  laserCtl : Tab LaserCtl
  deriving DecidableEq, Repr

/-- Bring-up in progress (R86 to R104). -/
structure Bring where
  start : Nat
  log : List EventRec
  logged : Bool
  loftDone : Bool
  loftBad : List Nat
  dimms : List Dimm
  stalls : List StallTest
  ports : List PortOutcome
  stopped : Bool
  /-- Training parameters that this bring-up found or used, by phase (R88, R92). -/
  training : Tab (List Nat)
  deriving DecidableEq, Repr

/-- A wake request that waits (R42, R115). -/
structure WakeReq where
  stall : Nat
  time : Nat
  src : WakeSrc
  alarmed : Bool
  die : Bool
  deriving DecidableEq, Repr

/-- The budget governor (R114 to R121). Tokens are held in units of 1/25, so that 24 per µs is 24 per tick. -/
structure Gov where
  tokens : Nat
  cMw : Nat
  waitq : List WakeReq
  granted : List Nat
  toPark : List (Nat × Bool)
  lastRaise : Nat
  lastLower : Nat
  excess : Bool
  episode : Nat
  overRuns : Nat
  overShown : Bool
  lowRuns : Nat
  budgetNext : Option Nat
  dieAt : Tab Nat
  /-- PLLs that lost lock (R108): barns, and 16 for the base-die core PLL. -/
  unlocked : List Nat
  deriving DecidableEq, Repr

/-- A module-to-host control frame (R125, R126) before its integrity tag. -/
structure CtlOut where
  ftype : Nat
  sessionId : Nat
  seq : Nat
  ack : Nat
  planTag : Nat
  step : Nat
  flags : Nat
  body : Bytes
  tagged : Bool
  deriving DecidableEq, Repr

/-- A numbered module-to-host frame not yet acknowledged (R132). -/
structure Unacked where
  frame : CtlOut
  tries : Nat
  due : Nat
  deriving DecidableEq, Repr

/-- The one pending challenge (R467). -/
structure Challenge where
  openBody : Bytes
  chalBody : Bytes
  ephemeral : Bytes
  keySlot : Nat
  preempt : Bool
  sent : Nat
  deriving DecidableEq, Repr

/-- The host session (R127 to R132). -/
structure Session where
  key : Option Bytes
  slot : Nat
  expect : Nat
  cache : List CtlOut
  resent : Option Nat
  nextSeq : Nat
  unacked : List Unacked
  waiting : List CtlOut
  carried : List CtlOut
  lastRx : Nat
  lastAuth : Option Nat
  lastNote : Option Nat
  peer : NetAddr
  challenge : Option Challenge
  lastId : Nat
  firstAfterReady : Bool
  deriving DecidableEq, Repr

/-- A command record taken from a ring (R142). -/
structure CmdRec where
  ring : Nat
  opcode : Nat
  tag : Nat
  planTag : Nat
  args : List Nat
  deriving DecidableEq, Repr

/-- A command in progress: when it was taken, whether its BUSY went out, when the work that only time ends is over, and a
count that its completion gives. -/
structure Running where
  cmd : CmdRec
  taken : Nat
  busy : Bool
  due : Option Nat
  count : Nat
  deriving DecidableEq, Repr

/-- A placed tile (R166). -/
structure Placement where
  module : Nat
  stall : Nat
  slot : Nat
  twoSlice : Bool
  layer : Nat
  tensor : Nat
  home : Nat
  rowSeg : Nat
  colBlk : Nat
  loftAddr : Nat
  ownerStall : Nat
  sumOrder : Nat
  updateProgram : Nat
  deriving DecidableEq, Repr

/-- An expert home (R167). -/
structure HomeRec where
  expert : Nat
  layer : Nat
  module : Nat
  home : Nat
  entryStall : Nat
  stallCount : Nat
  deriving DecidableEq, Repr

/-- A routed-attention layer (R168). -/
structure AttnRec where
  layer : Nat
  qLog2 : Nat
  kLog2 : Nat
  topKb : Nat
  firstModule : Nat
  moduleSpan : Nat
  deriving DecidableEq, Repr

/-- A format rule (R169). -/
structure FmtRule where
  layer : Nat
  cls : Nat
  format : Nat
  carry : Bool
  mx : Bool
  deriving DecidableEq, Repr

/-- The JOB record (R164). -/
structure JobRec where
  narrow : Bool
  layers : Nat
  dModel : Nat
  topK : Nat
  maxSeq : Nat
  moduleCount : Nat
  portsMin : Nat
  expertIds : Nat
  planSalt : Nat
  seed : Nat
  deriving DecidableEq, Repr

/-- A MODULES record (R165). -/
structure ModRec where
  installation : Nat
  bay : Nat
  stallsUsed : Nat
  homes : Nat
  loftGib : Nat
  deriving DecidableEq, Repr

/-- A TEAM record (R172). -/
structure TeamRec where
  a : Nat
  b : Nat
  portA0 : Nat
  portA1 : Nat
  portB0 : Nat
  portB1 : Nat
  deriving DecidableEq, Repr

/-- An update program (R171): id and its slots. -/
structure UpdProg where
  id : Nat
  slots : List Nat
  deriving DecidableEq, Repr

/-- A loft tensor (R171, R344). -/
structure LoftTensor where
  addr : Nat
  module : Nat
  rows : Nat
  rowLen : Nat
  program : Nat
  deriving DecidableEq, Repr

/-- The sections of an image, decoded (R161). -/
structure Image where
  raw : List (Nat × Bytes)
  length : Nat
  planTag : Nat
  buildId : Nat
  job : JobRec
  modules : List ModRec
  placement : List Placement
  homes : List HomeRec
  attention : List AttnRec
  formats : List FmtRule
  frozen : Bytes
  bindings : List (Nat × Nat × Nat)
  programs : List (List Nat)
  updates : List UpdProg
  loftTensors : List LoftTensor
  intervalK : Nat
  strict : Bool
  bufferMib : Nat
  teams : List TeamRec
  capacities : List (Nat × Nat)
  arbitration : List (Nat × Nat × Nat × Nat)
  constants : List (Nat × Nat × Nat)
  deriving DecidableEq, Repr

/-- A held amendment (R179, R180): the command that brought it, the image that stands once it is applied, the types it
replaces, its length, and whether its staging has ended. -/
structure Amend where
  cmd : CmdRec
  image : Image
  types : List Nat
  structural : Bool
  length : Nat
  staged : Bool
  deriving DecidableEq, Repr

/-- A held gate token (R149): its step, its plan tag, and the pending values as they stood when it was accepted (DEDUCED, assumption 49). -/
structure Token where
  step : Nat
  planTag : Nat
  snapshot : Tab Nat
  deriving DecidableEq, Repr

/-- The active image, its amendments, command execution and the gate (R141 to R183). -/
structure Job where
  image : Option Image
  loading : Option Image
  amends : List Amend
  running : Option Running
  heldBusy : Nat
  token : Option Token
  windowStart : Nat
  gateHold : Bool
  /-- The gate window's writes and pushes are done; only the report of gate-complete is to come (R453). -/
  gcReady : Bool
  gcHeldSince : Option Nat
  notifiedHold : Bool
  clampTiles : List (Nat × Nat × Nat)
  /-- When the first bound stall of the step arrived at the forward barrier (R290). -/
  firstArrival : Option Nat
  /-- Stalls whose arrays the command in progress or the gate window is still to write (R476). -/
  toWrite : List Nat
  /-- How the writes of a ROLLBACK or SCRUB end, until their stalls are AWAKE. -/
  reports : List (Nat × WriteReport)
  deriving DecidableEq, Repr

/-- A tile operation accepted by a stall (R189, R211). `next` is the next token; `run` numbers its run of TOPs. -/
structure TileOp where
  mode : Nat
  slot : Nat
  n : Nat
  code : Nat
  scale : Nat
  out : Nat
  set : Nat
  next : Nat
  run : Nat
  instr : Nat
  layer : Nat
  onFallback : Bool
  deriving DecidableEq, Repr

/-- A summing set being formed or written (R211): next token to write. -/
structure SumSet where
  set : Nat
  run : Nat
  members : List Nat
  out : Nat
  mode : Nat
  n : Nat
  osize : Nat
  next : Nat
  deriving DecidableEq, Repr

/-- An accepted matrix product (R276 to R279). -/
structure MMOp where
  a : Nat
  b : Nat
  c : Nat
  k : Nat
  m : Nat
  n : Nat
  aFmt : Nat
  bFmt : Nat
  aOrient : Nat
  bOrient : Nat
  kind : Nat
  instr : Nat
  layer : Nat
  deriving DecidableEq, Repr

/-- A bank handed on by TOUT and not yet drained (R297). `order` is the next contributor an owner pulls. -/
structure ToutOp where
  bank : Nat
  instr : Nat
  slot : Nat
  half : Nat
  site : Nat
  owner : Bool
  order : Nat
  since : Nat
  alarmed : Bool
  layer : Nat
  deriving DecidableEq, Repr

/-- A token held for a tile vote (R205, R424): its number among the stall's votes, failing groups, outputs, and the T
values and driven codes needed. -/
structure TileVote where
  no : Nat
  slot : Nat
  tile : Nat
  token : Nat
  mode : Nat
  groups : List Nat
  outs : List F32
  tvals : List Int
  codes : List Int
  n : Nat
  scale : F32
  set : Nat
  out : Nat
  pass : Nat
  deriving DecidableEq, Repr

/-- An output tile, or a fallback token's outputs, held for a GE vote (R423, R426): its number among the stall's votes, the
operation, the tile, the failing columns and the accumulators, rows first. `tok` is the token of a fallback operation. -/
structure GeVote where
  no : Nat
  op : MMOp
  tileM : Nat
  tileN : Nat
  cols : List Nat
  acc : List (List F32)
  accI : List (List Int)
  tok : Option TileOp
  deriving DecidableEq, Repr

/-- A COMBINE that was issued and waits for its segments (R327): its instruction index and word, its descriptor, the time of
its issue, and whether COMBINE_WAIT went out. -/
structure PendComb where
  ins : Nat
  word : Nat
  desc : Bytes
  since : Nat
  alarmed : Bool
  deriving DecidableEq, Repr

/-- The maximum and the sum that a source keeps of a merged query row for the backward pass (R331). -/
structure Merged where
  stall : Nat
  layer : Nat
  row : Nat
  top : F32
  sum : F32
  deriving DecidableEq, Repr

/-- One stall (R28, R284 to R297): power state, role table and sequencer. -/
structure Stall where
  st : StallSt
  live : List Nat
  relief : Option Nat
  reserve : Option Nat
  bad : List Nat
  idleSince : Nat
  napSince : Nat
  linger : Option Nat
  granted : Bool
  wakeFrom : Nat
  started : Bool
  stop : Bool
  regs : Tab Nat
  vregs : Tab (List F32)
  layer : Nat
  tensor : Nat
  expert : Option Nat
  ops : List TileOp
  sets : List SumSet
  run : Nat
  bufs : Tab (List F32)
  mmq : List MMOp
  /-- Bytes that movers moved through the store's second port since the MM at the head of the queue began (R280). -/
  moved : Nat
  touts : List ToutOp
  /-- COMBINEs that wait for their segments, oldest first (R285, R327). -/
  combines : List PendComb
  votes : List TileVote
  geVotes : List GeVote
  /-- Votes numbered so far: a stall runs one vote at a time, in order of detection (R427). -/
  voteNo : Nat
  /-- State and time at the arrival of a frame that wakes the stall (R113), and whether 0x2004 went out this step. -/
  late : Option (Nat × Nat)
  wokenLate : Bool
  deriving DecidableEq, Repr

/-- A rotation or rebuild being filled (R232, R439). -/
structure Fill where
  stall : Nat
  slot : Nat
  fromTile : Nat
  toTile : Nat
  phase : Nat
  rows : List Nat
  retried : Bool
  since : Nat
  deriving DecidableEq, Repr

/-- A waiting rebuild (R440). -/
structure RebuildReq where
  stall : Nat
  slot : Nat
  time : Nat
  deriving DecidableEq, Repr

/-- A drift tracker (R226): S_xy and S_xx in 1/1,024² of a code squared, the phases taken, and the windows complete and not
yet judged. -/
structure Drift where
  xy : Int
  xx : Nat
  n : Nat
  full : List (Int × Nat)
  deriving DecidableEq, Repr

/-- The arrays' trims, drift trackers and renewals (R200, R219 to R235). -/
structure Cal where
  /-- Trim entry by tile × 1,040 + line (rows after the 528 columns): gain in [15:0], offset in [27:16]. -/
  trim : Tab Nat
  /-- Error of a stored column sum S_c (R424), by tile × 512 + column. -/
  sumErr : Tab Int
  trimmed : Tab Nat
  dueAt : Tab Nat
  /-- Tiles whose range_code changed since their last trim (R227). -/
  ranged : List Nat
  duePhases : Tab Nat
  forcedAt : Tab Nat
  trimming : List (Nat × Nat)
  fills : List Fill
  rebuilds : List RebuildReq
  /-- g_ref of each tile's last trim, as the fraction of R224 step 6. -/
  gRef : Tab (Int × Nat)
  /-- Start of fallback by 32 × stall + slot (event 0x7003). -/
  fbSince : Tab Nat
  lastFlush : Nat
  drift : Tab Drift
  /-- Stalls that wake to re-trim their due tiles (R231). -/
  fresh : List Nat
  verify : List Int
  /-- Failed slots on their way to fallback (R437): stall, slot, cause, time of failure. -/
  failing : List (Nat × Nat × Nat × Nat)
  /-- Bytes that channels 60 to 63 have streamed of a level record, by the transfer's key (R301, R369). -/
  loads : Tab Nat
  deriving DecidableEq, Repr

/-- Scale histories, running maxima and counts (R261 to R271), by 8 × layer + cls. -/
structure Fmt where
  hist : Tab (List F32)
  atCommit : Tab (List F32)
  amaxIn : Tab F32
  amaxOut : Tab F32
  ran : List Nat
  sat : Tab Nat
  ecl : Tab Nat
  car : Tab Nat
  flatShown : List Nat
  deriving DecidableEq, Repr

/-- An inbound queue as its descriptor stood at the last commit (R320). -/
structure Queue where
  kind : Nat
  format : Nat
  segs : Nat
  pass : Nat
  layer : Nat
  homeOrNb : Nat
  slots : Nat
  rows : Nat
  base : Nat
  metaAddr : Nat
  deriving DecidableEq, Repr

/-- A source's close of a layer (R321). -/
structure CloseRec where
  pass : Nat
  layer : Nat
  module : Nat
  stall : Nat
  deriving DecidableEq, Repr

/-- A route list a ROUTE wrote this step (R311): its stall, layer and offset, kind, k, spill and tokens. -/
structure RouteList where
  stall : Nat
  layer : Nat
  off : Nat
  kind : Nat
  k : Nat
  spill : Nat
  n : Nat
  deriving DecidableEq, Repr

/-- A choice that came back cut (R316): its return queue (16 × stall + queue) and return slot; 0 new, 1 sent again for a
spare. -/
structure CutEntry where
  queue : Nat
  slot : Nat
  st : Nat
  deriving DecidableEq, Repr

/-- Where a frame between two stalls of the module is: on its source barn's segment, at a bridge as a requester (0 to 3 a
barn of the bridge's die, 4 passing through), or arrived at its die (R34, R35). -/
inductive MeshPlace where
  | segment
  | bridge (k requester : Nat)
  | arrived
  deriving DecidableEq, Repr

/-- A frame on the mesh: `left` are the flits that have yet to cross its source barn's segment (R334). -/
structure MeshItem where
  frame : TokFrame
  place : MeshPlace
  left : Nat
  deriving DecidableEq, Repr

/-- Routing and token travel (R305 to R335). -/
structure Rte where
  queues : Tab Queue
  /-- Slot state by (stall × 16 + queue) × 2^32 + slot: segments received in [31:0], 2^32 filled, 2^33 known-empty. -/
  slots : Tab Nat
  /-- Data rows taken in a query intake: slot key, position, row (R320). -/
  qrows : List (Nat × Nat × Nat)
  rowsUsed : Tab Nat
  /-- Choices admitted this step by stall × 65,536 + expert (R313). -/
  admitted : Tab Nat
  lists : List RouteList
  /-- The forward DISPATCH descriptors of kind 1 by stall and route-list offset, for R316's second dispatch. -/
  sent : List (Nat × Nat × Bytes)
  closes : List CloseRec
  mine : List CloseRec
  firstClose : Option Nat
  held : List TokFrame
  mesh : List MeshItem
  /-- Credits of the mesh arbiters by stall (R334). Every HBM access is granted in the command that makes it, so no two are
  ever requested together and the credits of the HBM arbiters stay at zero. -/
  credit : Tab Int
  /-- The stall after the last one of weight 0 that a barn's mesh arbiter served. -/
  zeroLast : Tab Nat
  /-- The requester after the last one that a bridge served. -/
  bridgeLast : Tab Nat
  frameSeq : Tab Nat
  late : List (Nat × TokFrame)
  /-- Experts whose intake had a filled slot in the previous step, as this module knows them (R332). -/
  filledPrev : List Nat
  cutEntries : List CutEntry
  /-- Choices cut this step by expert at this home. -/
  cuts : Tab Nat
  /-- Choices of this module's stalls that came back cut this step, by expert (R316). -/
  cutBack : Tab Nat
  /-- What the merges of the step keep for the backward pass (R331). -/
  merged : List Merged
  discarded : Tab Nat
  deriving DecidableEq, Repr

/-- An update unit (R343): one half of a placed block (`tensor` none) or one row of a loft tensor. -/
structure UpdUnit where
  row : Bool
  stall : Nat
  slot : Nat
  half : Nat
  tensor : Nat
  rowIx : Nat
  prog : Nat
  deriving DecidableEq, Repr

/-- A delta list of one half (R364). -/
structure DeltaList where
  stall : Nat
  slot : Nat
  two : Bool
  half : Nat
  entries : List (Nat × Nat × Int)
  clamped : Nat
  deriving DecidableEq, Repr

/-- A plane declared by PLN (R343). -/
structure Plane where
  width : Nat
  f16 : Bool
  base : Nat
  deriving DecidableEq, Repr

/-- One ZLV-20 at work (R350, R358, R359). `vec` none while the unit's uniform slots run. `uregs` holds what each slot of
the unit wrote last, by slot: a register's value is that of its latest writer in slot order (R354). -/
structure Chip where
  units : List UpdUnit
  unit : Option UpdUnit
  slot : Nat
  vec : Option Nat
  uregs : Tab (List F32)
  planes : Tab Plane
  ctx : Option (Nat × Nat × Nat)
  stores : List (Nat × Nat × List F32)
  missed : Nat
  tNum : Nat
  lists : List DeltaList
  crossings : List (Nat × Nat × Int)
  clamped : Nat
  deferred : Nat
  faulted : Bool
  lost : Bool
  active : Bool
  satProgs : List Nat
  deriving DecidableEq, Repr

/-- Update chips and the loft (R336 to R367). -/
structure Upd where
  chips : Tab Chip
  /-- Halves handed in the present step: stall, slot, half. -/
  handed : List (Nat × Nat × Nat)
  /-- Banks on their way to their chip: stall, bank, slot, half, next line. -/
  lines : List (Nat × Nat × Nat × Nat × Nat)
  startTick : Nat
  poison : List Nat
  softErr : List Nat
  lastCorr : Tab Nat
  replays : Tab Nat
  /-- Chips whose loft link retrains, with the start. -/
  retraining : Tab Nat
  /-- ACCESS frames held because they reach the loft through a link that retrains, oldest first (R338). -/
  heldAccess : List (CtlFrame × List (Nat × WriteReport))
  deriving DecidableEq, Repr

/-- A mover descriptor (R370). -/
structure Desc where
  flags : Nat
  srcW : Nat
  dstW : Nat
  reqSrc : Nat
  reqArg : Nat
  burst : Nat
  srcLog2 : Nat
  dstLog2 : Nat
  length : Nat
  src : Nat
  dst : Nat
  srcStride : Nat
  dstStride : Nat
  next : Nat
  tag : Nat
  deriving DecidableEq, Repr

/-- A mover channel (R372 to R383): 0 IDLE, 1 RUNNING, 2 PAUSED, 3 ERROR. -/
structure Chan where
  st : Nat
  desc : Option Desc
  bytesDone : Nat
  pending : Nat
  overflow : Nat
  overShown : Bool
  bucket : Nat
  held : Bool
  heldSince : Nat
  alarmed : Bool
  byPark : Bool
  deriving DecidableEq, Repr

/-- What travels in a sent frame. -/
inductive OutBody where
  /-- A control frame and its integrity tag. -/
  | ctl (c : CtlOut) (tag : Bytes)
  | tok (f : TokFrame)
  | team (f : TeamFrame)
  | pfc (prio time : Nat)
  | arpReply (target : Nat)
  | advert (target : Nat)
  | echoReply (payload : Bytes)
  deriving DecidableEq, Repr

/-- A frame in an egress queue (R399 to R402): port, priority, class of R402, die, destination and the published
headers' variable fields. -/
structure OutFrame where
  port : Nat
  prio : Nat
  cls : Nat
  die : Nat
  dst : NetAddr
  srcMac : Nat
  vid : Nat
  flow : Nat
  srcUdp : Nat
  body : OutBody
  deriving DecidableEq, Repr

/-- The ports (R386 to R406). Pause ends and storms by 8 × port + priority, in units of 0.32 ns, 125 to a tick. `table` is the copy of the
fabric table: address, port mask, valid (R397). -/
structure Prt where
  queue : List OutFrame
  wire : List OutFrame
  trainStart : Tab Nat
  pauseStart : Tab Nat
  pauseEnd : Tab Nat
  stormed : List Nat
  xoff : List Nat
  lastXoff : Tab Nat
  lastFec : Tab Nat
  table : List (Nat × Nat × Nat)
  lastDie : Tab Nat
  deriving DecidableEq, Repr

/-- The feed (R407 to R411). P, H and C are offsets of the feed stream; staged frames wait for channel 57. -/
structure Feed where
  p : Nat
  h : Nat
  written : List (Nat × Nat)
  staging : List FeedFrame
  xoffStage : Bool
  xoffRing : Bool
  deriving DecidableEq, Repr

/-- A protected page (R449 to R451) and how far its copy is. -/
structure Page where
  group : Nat
  page : Nat
  addr : Nat
  /-- Place of the page's copy in the securing buffer, once a write was held for it. -/
  buf : Option Nat
  home : Bool
  acked : Bool
  sentAt : Option Nat
  deriving DecidableEq, Repr

/-- Teams and securing (R443 to R460). -/
structure Team where
  key : Option Bytes
  rec? : Option TeamRec
  formStart : Nat
  /-- What kept the last HELLO from forming the team, as a cause of event 0xD009: 0 none came, 2, 3 or 4 (R443, R461). -/
  obstacle : Nat
  lastRx : Nat
  lastBeat : Nat
  step : Option Nat
  started : Nat
  /-- The step whose release the gate awaits (R453). -/
  awaits : Option Nat
  /-- The eight groups of the secured set, as page addresses (R447), fixed at each load. -/
  groups : List (List Nat)
  pages : List Page
  dirty : List Nat
  allDirty : Bool
  accessSeq : Nat
  /-- Results of accesses on the partner, by sequence number, as they came (R445). -/
  answers : List (Nat × Bytes)
  chunks : List (Nat × Nat × Nat × Nat)
  /-- The histories and flatline counters of the committed and the previous step (R263, R271, R447). -/
  snaps : List (Nat × Fmt × Tab Nat)
  /-- Team frames in the staging SRAM of their ports, oldest first: they wait behind one that reaches the loft through a link
  that retrains (R338, R406). -/
  staged : List (TeamFrame × List (Nat × WriteReport))
  deriving DecidableEq, Repr

/-- The module. -/
structure State where
  /-- Commands that wait, first in, first out. -/
  pending : List Instr
  mode : Mode
  /-- The watch counter (R107). -/
  now : Nat
  /-- Draws taken of the free values (the model's own field, not the manual's). -/
  draws : Nat
  /-- Active register fields that differ from their reset value, by `fkey`. -/
  reg : Tab Nat
  /-- Pending RWG values that have been written, by `fkey` (R17). -/
  pend : Tab Nat
  /-- HBM, loft, stall stores and troughs by device address (R134). -/
  mem : List Host.Cell
  /-- Lines whose brand lane does not match (R415): true when every read of the line fails. -/
  brandBad : List (Nat × Bool)
  /-- Events that are raised once per step, unit or alarm, already raised: (code, unit). -/
  once : List (Nat × Nat)
  board : Board
  att : Attach
  nv : NonVol
  bring : Bring
  gov : Gov
  ses : Session
  job : Job
  stalls : Tab Stall
  cal : Cal
  fmt : Fmt
  rte : Rte
  upd : Upd
  movs : Tab Chan
  prt : Prt
  feed : Feed
  team : Team
  deriving DecidableEq, Repr

/-- A telemetry reading before the first refresh: nothing measured, TEAM_SENSE at its pull-up (R75). -/
def Telemetry.initial : Telemetry := ⟨5000, 0, 0, 0, 0, 0, 0, false, false, true⟩

/-- The watch domain without power. -/
def Board.reset : Board :=
  { inrush := false, resetN := false, resetting := false, leverOpen := false, switchOpen := false, pwrOk := false,
    railsOn := false, bayRead := false, recordOk := false, bayLabel := [], busMode := 0, dynAddr := none, alerts := 0,
    telem := Telemetry.initial, tap := .bypass, warmValid := false, everBrought := false, afterFault := false }

/-- What the model takes a module fresh from the factory to hold. -/
def NonVol.reset : NonVol :=
  { record := none, wear := [], wearQueue := [], wearX := [], slots := List.replicate 4 ⟨0, []⟩, fwA := ⟨[], 0, 0⟩,
    fwB := ⟨[], 0, 0⟩, fwStaged := false, level := [], zeroed := [], stuck := [], fuses := [], fieldCleared := false }

/-- A host pluggable to which nothing has been written. -/
def CmisCtl.reset : CmisCtl := ⟨false, false, none, 0, [], 0⟩

/-- No attached module has been read. -/
def Attach.reset : Attach := { host := none, cmis := CmisCtl.reset, lasers := [], laserCtl := [] }

def Bring.reset : Bring :=
  { start := 0, log := [], logged := false, loftDone := false, loftBad := [], dimms := [], stalls := [], ports := [],
    stopped := false, training := [] }

/-- The token store starts full, at 48 (R115). -/
def Gov.reset : Gov :=
  { tokens := 1200, cMw := 0, waitq := [], granted := [], toPark := [], lastRaise := 0, lastLower := 0, excess := false, episode := 0,
    overRuns := 0, overShown := false, lowRuns := 0, budgetNext := none, dieAt := [],
    unlocked := [] }

def NetAddr.none : NetAddr := ⟨0, 0, 0⟩

/-- No session is open. -/
def Session.reset : Session :=
  { key := none, slot := 7, expect := 1, cache := [], resent := none, nextSeq := 1, unacked := [], waiting := [],
    carried := [], lastRx := 0, lastAuth := none, lastNote := none, peer := NetAddr.none, challenge := none, lastId := 0,
    firstAfterReady := true }

/-- No image is loaded. -/
def Job.reset : Job :=
  { image := none, loading := none, amends := [], running := none, heldBusy := 0, token := none, windowStart := 0,
    gateHold := false, gcReady := false, gcHeldSince := none, notifiedHold := false,
    clampTiles := [], firstArrival := none, toWrite := [], reports := [] }

/-- A stall as bring-up first finds it (R8): positions 0 to 31 live, 32 relief, 33 reserve; asleep. -/
def Stall.reset : Stall :=
  { st := .sleep, live := List.range 32, relief := some 32, reserve := some 33, bad := [], idleSince := 0, napSince := 0,
    linger := none, granted := false, wakeFrom := 0, started := false, stop := false, regs := [], vregs := [], layer := 0,
    tensor := 0, expert := none, ops := [], sets := [], run := 0, bufs := [], mmq := [], moved := 0, touts := [],
    combines := [], votes := [], geVotes := [], voteNo := 0, late := none, wokenLate := false }

def Drift.reset : Drift := ⟨0, 0, 0, []⟩

def Cal.reset : Cal :=
  { trim := [], sumErr := [], trimmed := [], dueAt := [], ranged := [], duePhases := [], forcedAt := [], trimming := [], fills := [],
    rebuilds := [], gRef := [], fbSince := [], lastFlush := 0, drift := [], fresh := [], verify := [], failing := [], loads := [] }

def Fmt.reset : Fmt :=
  { hist := [], atCommit := [], amaxIn := [], amaxOut := [], ran := [], sat := [], ecl := [], car := [],
    flatShown := [] }

def Queue.none : Queue := ⟨0, 0, 0, 0, 0, 0, 0, 0, 0, 0⟩

def Rte.reset : Rte :=
  { queues := [], slots := [], qrows := [], rowsUsed := [], admitted := [], lists := [], sent := [], closes := [],
    mine := [], firstClose := none, held := [], mesh := [], credit := [], zeroLast := [], bridgeLast := [], frameSeq := [], late := [], filledPrev := [],
    cutEntries := [], cuts := [], cutBack := [], merged := [], discarded := [] }

def Chip.reset : Chip :=
  { units := [], unit := none, slot := 0, vec := none, uregs := [], planes := [], ctx := none,
    stores := [], missed := 0, tNum := 0, lists := [], crossings := [], clamped := 0, deferred := 0, faulted := false,
    lost := false, active := false, satProgs := [] }

def Upd.reset : Upd :=
  { chips := [], handed := [], lines := [], startTick := 0, poison := [],
    softErr := [], lastCorr := [], replays := [], retraining := [], heldAccess := [] }

def Chan.reset : Chan :=
  { st := 0, desc := none, bytesDone := 0, pending := 0, overflow := 0, overShown := false, bucket := 0, held := false,
    heldSince := 0, alarmed := false, byPark := false }

def Prt.reset : Prt :=
  { queue := [], wire := [], trainStart := [], pauseStart := [], pauseEnd := [], stormed := [],
    xoff := [], lastXoff := [], lastFec := [], table := [], lastDie := [] }

def Feed.reset : Feed :=
  { p := 0, h := 0, written := [], staging := [], xoffStage := false, xoffRing := false }

def Team.reset : Team :=
  { key := none, rec? := none, formStart := 0, obstacle := 0, lastRx := 0, lastBeat := 0,
    step := none, started := 0, awaits := none, groups := [], pages := [], dirty := [], allDirty := false, accessSeq := 0,
    answers := [], chunks := [], snaps := [], staged := [] }

/-- The module without input power (R59): OFF, every register at its reset value, memory with nothing listed (DESIGN CHOICE, assumption 10) (DESIGN CHOICE, assumption 11). -/
def State.reset : State :=
  { pending := [], mode := .off, now := 0, draws := 0, reg := [], pend := [], mem := [], brandBad := [], once := [],
    board := Board.reset, att := Attach.reset, nv := NonVol.reset, bring := Bring.reset, gov := Gov.reset, ses := Session.reset,
    job := Job.reset, stalls := [], cal := Cal.reset, fmt := Fmt.reset, rte := Rte.reset, upd := Upd.reset, movs := [],
    prt := Prt.reset, feed := Feed.reset, team := Team.reset }

end Sys2Proof.Machine
end

