-- ==== Sys2Proof/Machine/Ops.lean ====
section
/-! DEFINITION. Machine/Ops.lean: the operations every command is built from: register fields, memory with its brand lanes
and protected pages, events, frames to the host and to the partner, completions, and access to a unit's record. -/
namespace Sys2Proof.Machine
open Sys2Proof

/-- What a command answers. -/
abbrev Out := Host.Outcome State Fault Refusal

/-! ## Register fields -/

/-- The active value of a field of unit `u`. -/
def getF (s : State) (f : Field) (u : Nat := 0) : Nat := tget f.rst s.reg (fkey f u)

/-- Set the active value of a field, at its width. -/
def setF (s : State) (f : Field) (u v : Nat) : State :=
  { s with reg := tput f.rst s.reg (fkey f u) (v % 2 ^ f.width) }

/-- A field of one bit as a flag. -/
def onF (s : State) (f : Field) (u : Nat := 0) : Bool := getF s f u != 0

/-- Add to a counting field, which stops at its largest value. -/
def bumpF (s : State) (f : Field) (u n : Nat) : State := setF s f u (satAdd (2 ^ f.width - 1) (getF s f u) n)

/-- The pending value of an RWG field: its own until it is written (R17). -/
def getP (s : State) (f : Field) (u : Nat := 0) : Nat := (tget? s.pend (fkey f u)).getD (getF s f u)

/-- Store a pending value (R17). -/
def setP (s : State) (f : Field) (u v : Nat) : State :=
  { s with pend := tset s.pend (fkey f u) (v % 2 ^ f.width) }

/-- Set several fields of unit 0. -/
def setFs (s : State) (l : List (Field × Nat)) : State := l.foldl (fun t p => setF t p.1 0 p.2) s

/-- The unit a register key belongs to, for a field repeated `n` times. -/
def unitOf (f : Field) (n k : Nat) : Option Nat :=
  if k % 64 ≠ f.lo ∨ k / 64 < f.base then none
  else
    let off := k / 64 - f.base
    let u := if f.paged then off / 0x10000 * 4096 + off % 0x10000 / 8 else off / f.stride
    if u < n ∧ unitOff f.paged f.stride u = off then some u else none

/-- A field of every unit takes its reset value. -/
def clearUnits (s : State) (f : Field) (n : Nat) : State :=
  { s with reg := s.reg.filter (fun e => (unitOf f n e.1).isNone) }

/-- Run a change for each element of a list. -/
def forEach {α : Type} (l : List α) (f : State → α → State) (s : State) : State := l.foldl f s

/-- Run a change only under a condition. -/
def when (c : Bool) (f : State → State) (s : State) : State := if c then f s else s

/-! ## Coordinates and places -/

/-- The coordinate word of the package (R152). -/
def cPkg : Nat := 0
/-- The coordinate word of a die (R152). -/
def cDie (d : Nat) : Nat := 1 * 2 ^ 28 + d * 2 ^ 13
/-- The coordinate word of a stall, by package index (R9, R152). -/
def cStall (p : Nat) : Nat := 3 * 2 ^ 28 + p * 2 ^ 6
/-- The coordinate word of a tile: stall and physical position (R7, R152). -/
def cTile (p t : Nat) : Nat := 4 * 2 ^ 28 + p * 2 ^ 6 + t
/-- The number of a tile among the package's 17,408: 34 per stall. -/
def tileIx (p t : Nat) : Nat := 34 * p + t
/-- The die of a stall (R9). -/
def dieOf (p : Nat) : Nat := p / 128
/-- The barn package index of a stall (R9). -/
def barnOf (p : Nat) : Nat := p / 32
/-- Base address of a stall's store (R136). -/
def storeBase (p : Nat) : Nat := 0x080000000000 + p * 2 ^ 31
/-- Base address of a stall's trough (R136). -/
def troughBase (p : Nat) : Nat := storeBase p + 0x400000
/-- Base address of a loft channel's region (R339). -/
def loftBase (c : Nat) : Nat := 0x040000000000 + c * 0x4000000000
/-- Size of HBM (R134). -/
def hbmEnd : Nat := 0x009000000000
/-- Base of the harness region (R174). -/
def harnessBase : Nat := 0x008FF0000000

/-! ## Memory -/

/-- One byte of memory: what nothing has written reads as zero (R418; the loft and the rest by DESIGN CHOICE, assumption 3). -/
def readByte (s : State) (a : Nat) : Byte := tget 0 s.mem a

/-- `n` bytes of memory from an address. -/
def readBytes (s : State) (a n : Nat) : Bytes :=
  let c := s.mem.filter (fun p => a ≤ p.1 && p.1 < a + n)
  (List.range n).map (fun i => tget 0 c (a + i))

/-- A little-endian number of `n` bytes. -/
def readNat (s : State) (a n : Nat) : Nat := leNat (readBytes s a n)

/-- The cells of bytes from an address: those that are not zero. -/
def cellsOf : Nat → Bytes → List Host.Cell
  | _, [] => []
  | a, b :: r => if b = 0 then cellsOf (a + 1) r else (a, b) :: cellsOf (a + 1) r

/-- Store bytes into the canonical memory. -/
def putBytes (m : List Host.Cell) (a : Nat) (b : Bytes) : List Host.Cell := tsplice m a (a + b.length) (cellsOf a b)

/-- Copy a span of memory to another place. -/
def copySpan (m : List Host.Cell) (src dst n : Nat) : List Host.Cell :=
  tsplice m dst (dst + n)
    ((m.filter (fun p => decide (src ≤ p.1) && decide (p.1 < src + n))).map (fun p => (p.1 - src + dst, p.2)))

/-- The cells of a span with single bytes of it replaced: offset and byte, the last one of an offset counting. -/
def patchCells (m : List Host.Cell) (a n : Nat) (l : List (Nat × Byte)) : List Host.Cell :=
  let old := m.filter (fun p => decide (a ≤ p.1) && decide (p.1 < a + n))
  cellsOf a ((List.range n).map (fun i => (tget? l.reverse i).getD (tget 0 old (a + i))))

/-- Drop the brand failures of lines that a write covers whole: the line is written with a new brand (R417). -/
def rebrand (s : State) (a n : Nat) : State :=
  { s with brandBad := s.brandBad.filter (fun p => !(decide (a ≤ p.1) && decide (p.1 + 64 ≤ a + n))) }

/-- A whole write of a loft line ends its poison (R341). -/
def unpoison (s : State) (a n : Nat) : State :=
  { s with upd := { s.upd with poison := s.upd.poison.filter (fun l => !(decide (a ≤ l) && decide (l + 64 ≤ a + n))),
                               softErr := s.upd.softErr.filter (fun l => !(decide (a ≤ l) && decide (l + 64 ≤ a + n))) } }

/-- Whether two spans meet. -/
def meets (a n b m : Nat) : Bool := decide (a < b + m) && decide (b < a + n)

/-- Bytes of a page of the secured set (R447). -/
def pageSize : Nat := 65536

/-- Mark the pages of the secured set that a write touches (R447). -/
def markDirty (s : State) (a n : Nat) : State :=
  let hit := s.team.groups.flatten.filter (fun g => meets g pageSize a n && !s.team.dirty.contains g)
  { s with team := { s.team with dirty := s.team.dirty ++ hit } }

/-- The write itself, with brands, poison and dirty marks, but past any protection. -/
def rawWrite (s : State) (a : Nat) (b : Bytes) : State :=
  markDirty (unpoison (rebrand { s with mem := putBytes s.mem a b } a b.length) a b.length) a b.length

/-- The write of a fill or a copy of `n` bytes that are zero but for the listed cells. -/
def rawCopy (s : State) (src dst n : Nat) : State :=
  markDirty (unpoison (rebrand { s with mem := copySpan s.mem src dst n } dst n) dst n) dst n

/-- Zero a span. -/
def rawZero (s : State) (a n : Nat) : State :=
  markDirty (unpoison (rebrand { s with mem := tdrop s.mem a (a + n) } a n) a n) a n

/-! ## Frames to fabric and partner -/

/-- A receiver's view for frames the module builds itself: nothing of it is ever read. -/
def Rx.none : Rx :=
  { port := 0, fcsOk := true, len := 0, dstMac := 0, dstIp := 0, ipv6 := true, hdrOk := true, udpSum := 0, sumOk := true,
    frag := false, dstUdp := 0, udpLen := 0, src := NetAddr.none }

/-- Place a frame in its egress queue (R402). -/
def enqueue (s : State) (f : OutFrame) : State := { s with prt := { s.prt with queue := s.prt.queue ++ [f] } }

/-- The 32-byte header of a team frame (R445). -/
def teamHeader (f : TeamFrame) : Bytes :=
  leBytes 2 f.magic ++ leBytes 1 f.version ++ leBytes 1 f.ftype ++ leBytes 2 f.srcModule ++ leBytes 2 f.dstModule
    ++ leBytes 8 f.step ++ leBytes 4 f.page ++ leBytes 1 f.group ++ leBytes 1 f.chunk ++ leBytes 2 f.length
    ++ leBytes 8 f.zero

/-- The tag of a team frame under the team key (R468). -/
def teamTag (key : Bytes) (f : TeamFrame) : Bytes := kmac256 key (teamHeader f ++ f.payload) "VRH-TEAM"

/-- The team's two ports on this module, as PAIR.STATUS shows them. -/
def teamPorts (s : State) : List Nat := [getF s R.pairStatus_port0, getF s R.pairStatus_port1]

/-- Whether a fabric port is UP_FULL (R391). -/
def portUpFull (s : State) (n : Nat) : Bool := getF s R.prtPortStatus_state n == 3

/-- This module's index in the active image. -/
def ownIndex (s : State) : Nat := getF s R.hrnStatus_moduleIndex

/-- The partner's address in the fabric table (R397) (DEDUCED, assumption 172). -/
def partnerIp (s : State) : Nat := ((s.prt.table[getF s R.pairStatus_partnerIndex]?).map (fun e => e.1)).getD 0

/-- Send a team frame on a port, with its tag (R400, R445, R468). -/
def sendTeam (s : State) (port ftype step page group chunk : Nat) (payload : Bytes) : State :=
  let f : TeamFrame :=
    { magic := 0x4D54, version := 1, ftype := ftype, srcModule := ownIndex s,
      dstModule := getF s R.pairStatus_partnerIndex, step := step, page := page, group := group, chunk := chunk,
      length := payload.length, zero := 0, payload := payload, tag := [], rx := Rx.none }
  enqueue s { port := port, prio := getF s R.prtCtl_teamPcp, cls := 3, die := 0,
              dst := { mac := getF s R.prtPortNh_nextHopMac port, ip := partnerIp s, udp := getF s R.prtCtl_teamUdp },
              srcMac := getF s R.hstMac_macBase + 1 + port, vid := getF s R.prtAddr4_vid, flow := 0,
              srcUdp := getF s R.prtCtl_teamUdp,
              body := .team { f with tag := teamTag (s.team.key.getD []) f } }

/-- Whether the team is FORMED (R443). -/
def teamFormed (s : State) : Bool := getF s R.pairStatus_team == 2

/-- The team port of the pages of one parity: channel 58 streams even pages on the first port, 59 odd pages on the
second, and either takes all when the other port is lost (R451). -/
def pagePort (s : State) (page : Nat) : Nat :=
  let a := getF s R.pairStatus_port0
  let b := getF s R.pairStatus_port1
  let want := if page % 2 = 0 then a else b
  if portUpFull s want then want else if want = a then b else a

/-- Send the eight PAGE frames of a page whose bytes lie at `src` (R451). -/
def sendPage (s : State) (src step group page : Nat) : State :=
  forEach (List.range 8)
    (fun t k => sendTeam t (pagePort t page) 3 step page group k (readBytes t (src + 8192 * k) 8192)) s

/-! ## Securing: pages and their home slots -/

/-- Base of this module's home region of a group (R448). -/
def homeBase (s : State) (g : Nat) : Nat := loftBase g + getF s R.pairHome_home64k g * pageSize

/-- Base of this module's mirror region of the partner's group (R448). -/
def mirrorBase (s : State) (g : Nat) : Nat := loftBase g + getF s R.pairMirror_mirror64k g * pageSize

/-- Pages of a directory for a group of `n` pages (R448). -/
def dirPages (n : Nat) : Nat := ceilDiv n 2048

/-- Address of the directory entry of page `i` in a region (R448). -/
def dirEntry (base i : Nat) : Nat := base + pageSize + 32 * i

/-- Address of slot `j` of page `i` of a region for `n` pages (R448). -/
def slotAddr (base n i j : Nat) : Nat := base + (dirPages n + 1 + 2 * i + j) * pageSize

/-- The slot of a page whose directory step is smaller (R451). -/
def olderSlot (s : State) (base i : Nat) : Nat :=
  if readNat s (dirEntry base i + 8) 8 ≤ readNat s (dirEntry base i + 16) 8 then 0 else 1

/-- Copy memory past protection and dirty marks: writes into home and mirror regions mark no page (R447). -/
def quietCopy (s : State) (src dst n : Nat) : State :=
  unpoison (rebrand { s with mem := copySpan s.mem src dst n } dst n) dst n

/-- Write bytes past protection and dirty marks. -/
def quietWrite (s : State) (a : Nat) (b : Bytes) : State :=
  unpoison (rebrand { s with mem := putBytes s.mem a b } a b.length) a b.length

/-- Where a page's old contents lie: the buffer if it was copied, its place otherwise (R451). -/
def pageSource (s : State) (p : Page) : Nat :=
  match p.buf with
  | some k => getF s R.pairBuf_base1m * 2 ^ 20 + k * pageSize
  | none => p.addr

/-- The securing step in flight, or zero. -/
def secStep (s : State) : Nat := s.team.step.getD 0

/-- Replace the record of a protected page. -/
def setPage (s : State) (p : Page) : State :=
  { s with team := { s.team with pages := s.team.pages.map (fun q => if q.addr = p.addr then p else q) } }

/-- Steps 1 to 3 of R451 for one page: home slot, slot step, PAGE frames to a formed team's partner. The previous step's
slots are no longer all intact (R458). -/
def streamPage (s : State) (p : Page) : State :=
  let n := (s.team.groups.getD p.group []).length
  let base := homeBase s p.group
  let j := olderSlot s base p.page
  let src := pageSource s p
  let s := quietCopy s src (slotAddr base n p.page j) pageSize
  let s := quietWrite s (dirEntry base p.page) (leBytes 8 p.addr)
  let s := quietWrite s (dirEntry base p.page + 8 + 8 * j) (leBytes 8 (secStep s))
  let s := setF s R.pairSecure_prevValid 0 0
  let s := when (teamFormed s) (fun t => sendPage t src (secStep t) p.group p.page) s
  setPage s { p with home := true, sentAt := some s.now }

/-- The securing buffer's size in MiB: that of the TEAM section, 64 for an image without one (DEDUCED, assumption 30). -/
def bufferMib (s : State) : Nat := (s.job.image.map (fun i => i.bufferMib)).getD 64

/-- Buffer places in use. -/
def bufUsed (s : State) : List Nat := s.team.pages.filterMap (fun p => p.buf)

/-- The lowest free place of the securing buffer, if any. -/
def bufFree (s : State) : Option Nat :=
  if (bufUsed s).length < bufferMib s * 16 then
    (List.range ((bufUsed s).length + 1)).find? (fun k => !(bufUsed s).contains k)
  else none

/-- PAIR.BUF.used_mib follows the places in use, rounded up. -/
def showBuf (s : State) : State := setF s R.pairBuf_usedMib 0 (ceilDiv (bufUsed s).length 16)

/-- The first write to a protected page not yet streamed: copy the old page into the buffer; with no room the stream
sends it from its place first (R450) (DEDUCED, assumption 138). -/
def protectPage (s : State) (p : Page) : State :=
  match bufFree s with
  | some k => showBuf (setPage (quietCopy s p.addr (getF s R.pairBuf_base1m * 2 ^ 20 + k * pageSize) pageSize)
      { p with buf := some k })
  | none => streamPage s p

/-- Apply R450 to a write of `n` bytes at `a`. -/
def protect (s : State) (a n : Nat) : State :=
  forEach (s.team.pages.filter (fun p => p.buf == none && !p.home && meets p.addr pageSize a n)) protectPage s

/-- Write bytes (R417, R447, R450). -/
def write (s : State) (a : Nat) (b : Bytes) : State := rawWrite (protect s a b.length) a b

/-- Write single bytes of the span from `a`, by offset below `n` (R417, R447, R450): no line is written whole. -/
def patch (s : State) (a n : Nat) (l : List (Nat × Byte)) : State :=
  match l with
  | [] => s
  | x :: _ =>
    let lo := l.foldl (fun m y => min m y.1) x.1
    let hi := l.foldl (fun m y => max m y.1) x.1 + 1
    let s := protect s (a + lo) (hi - lo)
    markDirty { s with mem := tsplice s.mem a (a + n) (patchCells s.mem a n l) } (a + lo) (hi - lo)

/-- Write a little-endian number. -/
def writeNat (s : State) (a n v : Nat) : State := write s a (leBytes n v)

/-- Copy a span (R417, R447, R450). -/
def copy (s : State) (src dst n : Nat) : State := rawCopy (protect s dst n) src dst n

/-- Zero a span (R417, R447, R450). -/
def zero (s : State) (a n : Nat) : State := rawZero (protect s a n) a n

/-! ## Events -/

/-- The 32 bytes of an event record (R152). -/
def eventBytes (r : EventRec) : Bytes :=
  leBytes 8 r.time ++ leBytes 2 r.code ++ leBytes 2 0 ++ leBytes 4 r.coord ++ leBytes 8 r.step ++ leBytes 4 r.d0
    ++ leBytes 4 r.d1

/-- Records of the event ring (R153). -/
def evtSize (s : State) : Nat := 2048 * 2 ^ getF s R.ctlEvtCfg_sizeCode

/-- Write a record to the event ring, or count it as dropped (R153 to R155). -/
def ringEvent (s : State) (r : EventRec) : State :=
  let p := getF s R.ctlEvtProducer_producer
  let c := getF s R.ctlEvtConsumer_consumer
  if (p + 2 ^ 32 - c) % 2 ^ 32 ≥ evtSize s then bumpF s R.ctlEvtStatus_dropped 0 1
  else setF (write s (getF s R.ctlEvtCfg_base4k * 4096 + 32 * (p % evtSize s)) (eventBytes r))
    R.ctlEvtProducer_producer 0 (p + 1)

/-- Whether the bring-up log still takes this code (R104). -/
def logTakes (n code : Nat) : Bool :=
  decide (n < 1016) || (decide (n < 1024) && (code == 0x1010 || code == 0x100F || code == 0x1012 || code == 0x1013))

/-- Add a record to the bring-up log, with step number 0 (R104). -/
def logEvent (s : State) (r : EventRec) : State :=
  if logTakes s.bring.log.length r.code then
    { s with bring := { s.bring with log := s.bring.log ++ [{ r with step := 0 }] } }
  else bumpF s R.bruStatus_logDropped 0 1

/-- Raise an event (R104, R152 to R155). In OFF and WATCH nothing is raised, nor once the rails are off, when all activity
has stopped (R61, R63); in BRINGUP it goes to the log. -/
def raise (s : State) (code coord d0 d1 : Nat) : State :=
  let r : EventRec :=
    { time := s.now, code := code, coord := coord, step := getF s R.gteStep_step, d0 := d0 % 2 ^ 32, d1 := d1 % 2 ^ 32 }
  if !s.board.railsOn then s
  else
    match s.mode with
    | .off => s
    | .watch => s
    | .bringup => logEvent s r
    | _ => ringEvent s r

/-- Raise an event at most once per `(code, unit)` until the pair is cleared. -/
def raiseOnce (s : State) (code unit coord d0 d1 : Nat) : State :=
  if s.once.contains (code, unit) then s
  else raise { s with once := (code, unit) :: s.once } code coord d0 d1

/-- Let an event of `raiseOnce` be raised again. -/
def clearOnce (s : State) (code unit : Nat) : State := { s with once := s.once.filter (fun p => p != (code, unit)) }

/-! ## Brands -/

/-- The lines of a span whose brand lane does not match (R415, R419). -/
def badLines (s : State) (a n : Nat) : List (Nat × Bool) := s.brandBad.filter (fun p => meets p.1 64 a n)

/-- A reader's check of the brands of a span (R419): the state after it, and whether every line can be used. `reader` is
the reader kind of R435, `coord` the reader's place. -/
def checkBrands (s : State) (reader coord a n : Nat) : State × Bool :=
  if !onF s R.brdCtl_brandEn then (s, true)
  else
    let one := fun (t : State) (p : Nat × Bool) =>
      let d0 := reader * 2 ^ 28 + p.1 / 2 ^ 32
      if p.2 then
        let t := setFs t [(R.brdLineLast_valid, 1), (R.brdLineLast_reader, reader), (R.brdLineLast_address, p.1)]
        raise (bumpF t R.brdCount_corrupt 0 1) 0xC002 coord d0 (p.1 % 2 ^ 32)
      else
        let t := { t with brandBad := t.brandBad.filter (fun q => q.1 != p.1) }
        raise (bumpF t R.brdCount_rereadOk 0 1) 0xC001 coord d0 (p.1 % 2 ^ 32)
    (forEach (badLines s a n) one s, !(badLines s a n).any (fun p => p.2))

/-- A checked read: the state after it, and the bytes unless a line is corrupt. -/
def readChecked (s : State) (reader coord a n : Nat) : State × Option Bytes :=
  let r := checkBrands s reader coord a n
  (r.1, if r.2 then some (readBytes s a n) else none)

/-- The lines a span covers in part: their brands are checked before they are merged (R417) (DEDUCED, assumption 54). -/
def partLines (a n : Nat) : List Nat :=
  let first := a / 64 * 64
  let last := (a + n - 1) / 64 * 64
  (if a % 64 ≠ 0 ∨ a + n < first + 64 then [first] else []) ++
    (if last ≠ first ∧ (a + n) % 64 ≠ 0 then [last] else [])

/-- A writer's check of the lines that some spans cover in part (R417): the state after it, and whether every one can be
used. -/
def partsChecked (s : State) (reader coord : Nat) (l : List (Nat × Nat)) : State × Bool :=
  (l.flatMap (fun x => partLines x.1 x.2)).foldl (fun x a =>
    let r := checkBrands x.1 reader coord a 64
    (r.1, x.2 && r.2)) (s, true)

/-! ## Frames to the host -/

/-- The 40-byte header of a frame from the module (R125). -/
def outHeader (c : CtlOut) : Bytes :=
  leBytes 2 0x4356 ++ leBytes 1 1 ++ leBytes 1 c.ftype ++ leBytes 4 c.sessionId ++ leBytes 4 c.seq ++ leBytes 4 c.ack
    ++ leBytes 8 c.planTag ++ leBytes 8 c.step ++ leBytes 2 c.body.length ++ leBytes 2 c.flags ++ leBytes 4 0

/-- The integrity tag of a control frame under a session key, over its header and body (R125, R466). -/
def sessionTag (key covered : Bytes) : Bytes := kmac256 key covered "VRH-CTL"

/-- The tag of a frame from the module: all zero on session-opening frames and on REFUSALs outside the session (R125, R126). -/
def outTag (s : State) (c : CtlOut) : Bytes :=
  match s.ses.key with
  | some k => if c.tagged then sessionTag k (outHeader c ++ c.body) else List.replicate 16 0
  | none => List.replicate 16 0

/-- Place a control frame in the host port's egress queue (R399, R400, R402) (DEDUCED, assumption 47). -/
def outCtl (s : State) (dst : NetAddr) (c : CtlOut) : State :=
  enqueue s { port := 24, prio := getF s R.hstCtl_controlPcp, cls := 2, die := 0, dst := dst,
              srcMac := getF s R.hstMac_macBase, vid := getF s R.hstCtl_vid, flow := 0,
              srcUdp := getF s R.hstCtl_controlUdp, body := .ctl c (outTag s c) }

/-- Whether a session is open. -/
def sessionOpen (s : State) : Bool := s.ses.key.isSome

/-- e − 1: the highest sequence number of the host received in order (R125, R131). -/
def presentAck (s : State) : Nat := (s.ses.expect + (2 ^ 32 - 1)) % 2 ^ 32

/-- A frame from the module with nothing in it but its type and session. -/
def ctlFrame (s : State) (ftype seq flags : Nat) (body : Bytes) : CtlOut :=
  { ftype := ftype, sessionId := getF s R.ctlState_sessionId, seq := seq, ack := presentAck s, planTag := 0,
    step := 0, flags := flags, body := body, tagged := true }

/-- Keep a response for a resend: those of the last 64 frames (R131). -/
def keepResponse (s : State) (c : CtlOut) : State :=
  { s with ses := { s.ses with cache := (s.ses.cache ++ [c]).reverse.take 64 |>.reverse } }

/-- Answer a frame of the session: flags bit 0 set, its seq, kept for a resend (R126, R131). -/
def respond (s : State) (f : CtlFrame) (body : Bytes) : State :=
  let c := { ctlFrame s f.ftype f.seq 1 body with ack := f.seq }
  outCtl (keepResponse s c) f.rx.src c

/-- A REFUSAL frame (R126). -/
def refusalFrame (s : State) (f : CtlFrame) (status : Nat) : CtlOut :=
  let mine := sessionOpen s && f.sessionId == getF s R.ctlState_sessionId
  { ftype := 0x3F, sessionId := if sessionOpen s then getF s R.ctlState_sessionId else 0, seq := f.seq,
    ack := if sessionOpen s then presentAck s else 0, planTag := 0, step := 0, flags := 1,
    body := leBytes 1 status ++ leBytes 1 f.ftype ++ leBytes 4 f.seq, tagged := mine }

/-- Refuse a frame (R126): never numbered. -/
def refuse (s : State) (f : CtlFrame) (status : Nat) : State := outCtl s f.rx.src (refusalFrame s f status)

/-- Refuse a frame of the session in sequence: the REFUSAL is its response (R126, R131). -/
def refuseInOrder (s : State) (f : CtlFrame) (status : Nat) : State :=
  outCtl (keepResponse s (refusalFrame s f status)) f.rx.src (refusalFrame s f status)

/-- Send a waiting frame under the session's next number, while fewer than 64 are unacknowledged (R132). -/
def sendNow (s : State) (c : CtlOut) : State :=
  let c := { c with seq := s.ses.nextSeq, sessionId := getF s R.ctlState_sessionId, ack := presentAck s }
  outCtl { s with ses := { s.ses with nextSeq := s.ses.nextSeq + 1,
                                      unacked := s.ses.unacked ++
                                        [{ frame := c, tries := 0, due := s.now + 25 * getF s R.ctlTimers_retxUs }] } }
    s.ses.peer c

/-- Send a numbered frame: at once, after those that wait, or kept for the next session (R129, R132). -/
def sendNumbered (s : State) (c : CtlOut) : State :=
  if !sessionOpen s then { s with ses := { s.ses with carried := s.ses.carried ++ [c] } }
  else if s.ses.waiting.isEmpty && decide (s.ses.unacked.length < 64) then sendNow s c
  else { s with ses := { s.ses with waiting := s.ses.waiting ++ [c] } }

/-- Send frames that wait as long as fewer than 64 are unacknowledged (R132). -/
def drainGo : Nat → State → State
  | 0, s => s
  | n + 1, s =>
    match s.ses.waiting with
    | [] => s
    | c :: r =>
      if s.ses.unacked.length < 64 then drainGo n (sendNow { s with ses := { s.ses with waiting := r } } c) else s

/-- Send frames that wait as long as fewer than 64 are unacknowledged (R132). -/
def drainWaiting (s : State) : State := drainGo s.ses.waiting.length s

/-! ## Completions -/

/-- A completion record (R144). -/
def completionRec (c : CmdRec) (status detail : Nat) : Bytes :=
  leBytes 4 c.tag ++ leBytes 2 c.opcode ++ leBytes 1 status ++ leBytes 1 c.ring ++ leBytes 8 detail

/-- Send a COMPLETION frame with one record. -/
def sendCompletion (s : State) (c : CmdRec) (status detail : Nat) : State :=
  sendNumbered s (ctlFrame s 0x30 0 0 (leBytes 2 1 ++ leBytes 6 0 ++ completionRec c status detail))

/-- A command's final completion: counted, and sent (R144). -/
def complete (s : State) (c : CmdRec) (status detail : Nat) : State :=
  sendCompletion (setF s R.ctlRingStatus_completed c.ring (getF s R.ctlRingStatus_completed c.ring + 1)) c status detail

/-- The command in progress ends, with its final completion. -/
def finish (s : State) (c : CmdRec) (status detail : Nat) : State :=
  complete { s with job := { s.job with running := none } } c status detail

/-! ## Units -/

/-- The record of a stall. -/
def getStall (s : State) (p : Nat) : Stall := tget Stall.reset s.stalls p

/-- Replace the record of a stall. -/
def setStall (s : State) (p : Nat) (t : Stall) : State := { s with stalls := tput Stall.reset s.stalls p t }

/-- Change the record of a stall. -/
def modStall (s : State) (p : Nat) (f : Stall → Stall) : State := setStall s p (f (getStall s p))

/-- The record of a ZLV-20. -/
def getChip (s : State) (z : Nat) : Chip := tget Chip.reset s.upd.chips z

/-- Replace the record of a ZLV-20. -/
def setChip (s : State) (z : Nat) (c : Chip) : State := { s with upd := { s.upd with chips := tput Chip.reset s.upd.chips z c } }

/-- The record of a mover channel: 0 to 63 base-die, 64 + p that of stall p. -/
def getChan (s : State) (c : Nat) : Chan := tget Chan.reset s.movs c

/-- Replace the record of a mover channel. -/
def setChan (s : State) (c : Nat) (h : Chan) : State := { s with movs := tput Chan.reset s.movs c h }

/-- A change that needs the rails beyond the always-on ones: without them all activity has stopped (R61, R63). -/
def live (f : State → State) (s : State) : State := if s.board.railsOn then f s else s

/-- A command on the module as a whole (DESIGN CHOICE, assumption 2). -/
def inModule (s : State) (f : State → State) : Out := .next (live f s)

/-- A command on a stall: units beyond R25 do not exist. -/
def onStall (p : Nat) (s : State) (f : State → State) : Out :=
  if p < 512 then .next (live f s) else .fault .noSuchUnit

/-- A command on a physical tile of a stall. -/
def onTile (p t : Nat) (s : State) (f : State → State) : Out :=
  if p < 512 ∧ t < 34 then .next (live f s) else .fault .noSuchUnit

/-- A command on unit `u` of `n` (DESIGN CHOICE, assumption 4). -/
def onUnit (n u : Nat) (s : State) (f : State → State) : Out :=
  if u < n then .next (live f s) else .fault .noSuchUnit

/-- The next free draw (the model's own counter) (DESIGN CHOICE, assumption 5). -/
def draw (s : State) : State := { s with draws := s.draws + 1 }

/-- Hold the gate window of the current step until HALT (R270). -/
def holdGate (s : State) : State := { s with job := { s.job with gateHold := true } }

/-- The three states in which a job stands and no window has been completed. -/
def inJob (s : State) : Bool := s.mode == .harnessed || s.mode == .running || s.mode == .gate

/-- The states of a job or the ready module (R146). -/
def upStates (s : State) : Bool :=
  s.mode == .ready || s.mode == .harnessed || s.mode == .running || s.mode == .gate || s.mode == .halted

/-- The state code of CTL.STATE and of the management bus page (R67). -/
def modeCode : Mode → Nat
  | .off => 0 | .watch => 1 | .bringup => 2 | .ready => 3 | .harnessed => 4 | .running => 5 | .gate => 6 | .halted => 7

/-- The role of a physical position in its stall, by the role table (R8): the slot it carries. -/
def slotOf (t : Stall) (pos : Nat) : Option Nat := t.live.findIdx? (fun x => x == pos)

/-- The physical position of a slot. -/
def posOf (t : Stall) (slot : Nat) : Nat := t.live.getD slot 63

/-- The active image. -/
def image (s : State) : Option Image := s.job.image

/-- The placed tiles of this module on a stall. -/
def placedOn (s : State) (p : Nat) : List Placement :=
  match s.job.image with
  | some i => i.placement.filter (fun r => r.module == ownIndex s && r.stall == p)
  | none => []

/-- The placement record of a slot of this module. -/
def placeOf (s : State) (p slot : Nat) : Option Placement := (placedOn s p).find? (fun r => r.slot == slot)

end Sys2Proof.Machine
end

