-- ==== Sys2Proof/Machine/Flags.lean ====
section
/-! DEFINITION. Machine/Flags.lean: alert causes, stall-state and mode tests, and the sums the governor's status shows. -/
namespace Sys2Proof.Machine
open Sys2Proof

/-! ## Alert causes (R67, R68) -/

/-- Set alert cause `i`. -/
def setAlert (s : State) (i : Nat) : State := { s with board := { s.board with alerts := setBit s.board.alerts i true } }

/-- Set an alert cause under a condition. -/
def alertIf (c : Bool) (i : Nat) (s : State) : State := if c then setAlert s i else s

/-- ALERT_N is low while any alert cause is set (R68). -/
def alertLow (s : State) : Bool := s.board.alerts != 0

/-- The bay identity memory is invalid (R72), as BRU.BAY_ID.bay_status shows. -/
def bayInvalid (s : State) : Bool := getF s R.bruBayId_bayStatus != 0

/-- The step of a die: the higher of its current step and its thermal step (R121). -/
def dieStep (s : State) (d : Nat) : Nat := max (getF s R.pwrDie_tI d) (getF s R.pwrDie_tT d)

/-- Some die limit acts (R121). -/
def dieActs (s : State) : Bool := (List.range 4).any (fun d => decide (0 < dieStep s d))

/-- The causes whose condition holds at a telemetry refresh (R67). A bay identity memory that has not been read since WATCH
was entered is not known to be invalid (DESIGN CHOICE, assumption 161). -/
def alertConditions (s : State) (t : Telemetry) : List Bool :=
  [decide (t.vin10mV < 4000) || decide (6000 < t.vin10mV), decide (6500 < t.iin10mA), decide (65 < t.coolOutC),
   decide (45 < t.coolInC), dieActs s, decide (95 < t.dimmC), s.mode == .halted, s.board.bayRead && bayInvalid s,
   t.laserFault, t.hostFault]

/-- Set every cause of a list of conditions, from bit `i` on. -/
def setCauses : List Bool → Nat → State → State
  | [], _, s => s
  | c :: r, i, s => setCauses r (i + 1) (alertIf c i s)

/-- Clear the causes of the bits written as 1 (R67). -/
def clearCauses (s : State) (w : Nat) : State :=
  let a := (List.range 10).foldl (fun a i => if bit w i then setBit a i false else a) s.board.alerts
  { s with board := { s.board with alerts := a } }

/-! ## Stall states -/

/-- A stall in AWAKE, RETRIM or FALLBACK: its clock runs (R106). -/
def isRunning (t : Stall) : Bool := t.st == .awake || t.st == .retrim || t.st == .fallback

/-- A stall in SLEEP or NAP. -/
def isResting (t : Stall) : Bool := t.st == .sleep || t.st == .nap

/-- The barn's PLL runs while a stall of it is out of SLEEP (R106). -/
def pllRuns (s : State) (b : Nat) : Bool :=
  (rangeFrom (32 * b) 32).any (fun p => (getStall s p).st != .sleep && (getStall s p).st != .disabled)

/-- The code of CLK.STALL.state. -/
def stallCode : StallSt → Nat
  | .sleep => 0 | .nap => 1 | .awake => 2 | .retrim => 3 | .fallback => 4 | .disabled => 5

/-- The effective step of a stall (R111). -/
def effStep (s : State) (p : Nat) : Nat :=
  min 7 (max (getF s R.pwrGov_g) (dieStep s (dieOf p)) + getF s R.clkStall_restStep p)

/-! ## The ledger (R114), in units of 1/12,000 mW -/

/-- The awake cost of a stall at effective step `k` with voltage offset `v`. -/
def awakeCost (s : State) (k v : Nat) : Nat :=
  12000 * getF s R.pwrCost_staticMw + getF s R.pwrCost_dynamicMw * (12 - k) * (1000 + 34 * v)

/-- The charge of R109. -/
def charge (s : State) (p : Nat) : Nat :=
  match (getStall s p).st with
  | .sleep => 12000 * getF s R.pwrCost_sleepMw
  | .nap => 12000 * getF s R.pwrCost_staticMw
  | .disabled => 0
  | _ => awakeCost s (effStep s p) (getF s R.pwrStallV_vOffset p)

/-- The ledger: fixed loads, every stall's charge and the correction term. -/
def ledger (s : State) : Nat :=
  12000000 * getF s R.pwrCost_fixedW + ((List.range 512).map (charge s)).sum + 12000 * s.gov.cMw

/-- The load allowance A = budget × eff / 65,536, times 65,536. -/
def allowance (s : State) : Nat := 12000000 * getF s R.pwrBudget_budgetW * getF s R.pwrCost_effQ16

/-- A ledger value fits the allowance. -/
def within (s : State) (l : Nat) : Bool := decide (l * 65536 ≤ allowance s)

/-- The ledger in W. -/
def ledgerW (s : State) : Nat := ledger s / 12000000

/-- A in W. -/
def allowanceW (s : State) : Nat := allowance s / 65536 / 12000000

/-- Stalls parked by the governor or a die. -/
def parkedCount (s : State) : Nat := countIf (List.range 512) (fun p => onF s R.clkStall_parked p)

/-- A stall counts as live unless it is disabled. -/
def stallUp (s : State) (p : Nat) : Bool := (getStall s p).st != .disabled

end Sys2Proof.Machine
end

