-- ==== Sys2Proof/Machine/Governor.lean ====
section
/-! DEFINITION. Machine/Governor.lean: watch ticks, wake requests, the ledger and the limits of dies and budget (R106 to
R123). -/
namespace Sys2Proof.Machine
open Sys2Proof

/-! ## Wake requests -/

/-- Place a request in order of arrival, requests of one tick in ascending stall index (R42). -/
def insertWake : List WakeReq → WakeReq → List WakeReq
  | [], r => [r]
  | q :: t, r => if r.time < q.time ∨ (r.time = q.time ∧ r.stall < q.stall) then r :: q :: t else q :: insertWake t r

/-- A wake-ahead starts or renews the linger of a stall (R113). -/
def renewLinger (s : State) (p : Nat) : State := modStall s p (fun t => { t with linger := some s.now })

/-- A wake request reaches the governor (R42, R112, R113). An AWAKE stall takes no grant, a wake-ahead renews its linger;
a stall whose request waits, or whose grant is under way, keeps it. -/
def requestWake (s : State) (p : Nat) (src : WakeSrc) (die : Bool) : State :=
  let t := getStall s p
  if t.st == .disabled then s
  else if isRunning t then (if src == .ahead then renewLinger s p else s)
  else
    let s := when (src == .ahead) (fun s => renewLinger s p) s
    if t.granted || s.gov.waitq.any (fun q => q.stall == p) then s
    else { s with gov := { s.gov with waitq := insertWake s.gov.waitq ⟨p, s.now, src, false, die⟩ } }

/-- Stalls in SLEEP or NAP whose arrays are to be written place wake requests (R476). -/
def wakeForWrites (s : State) (ps : List Nat) : State :=
  forEach ps (fun t p => if isResting (getStall t p) then requestWake t p .program false else t) s

/-- A frame for a stall that is not AWAKE raises a demand wake and counts as late (R113). -/
def demandWake (s : State) (p : Nat) : State :=
  let t := getStall s p
  if isResting t then
    let s := bumpF s R.clkStall_lateWakes p 1
    let s := modStall s p (fun t => { t with late := t.late <|> some (stallCode t.st, s.now) })
    requestWake s p .demand false
  else s

/-- The late frame's event, once the stall is AWAKE, at most once per stall per step (R113, R123). -/
def showLate (s : State) (p : Nat) : State :=
  let t := getStall s p
  match t.late with
  | none => s
  | some l =>
    let s := modStall s p (fun t => { t with late := none, wokenLate := true })
    if t.wokenLate then s else raise s 0x2004 (cStall p) l.1 (s.now - l.2)

/-- Grant a request: one token, the stall charged as awake from now on (R115). -/
def grant (s : State) (r : WakeReq) : State :=
  let s := modStall s r.stall (fun t => { t with granted := true, wakeFrom := stallCode t.st })
  { s with gov := { s.gov with tokens := s.gov.tokens - 25, granted := r.stall :: s.gov.granted } }

/-- The charge of the stalls whose grant is under way, beyond what they are charged in SLEEP or NAP. R115 judges a grant with
the stall charged as awake, R109 charges a stall by the state it is in: the extra counts when grants are judged, and in no
other use of the ledger (DEDUCED, assumption 151). -/
def grantedExtra (s : State) : Nat :=
  ((List.range 512).map (fun p => if (getStall s p).granted then
    awakeCost s (effStep s p) (getF s R.pwrStallV_vOffset p) - charge s p else 0)).sum

/-- The first condition of R115: the ledger with the stall charged as awake fits. -/
def hasRoom (s : State) (r : WakeReq) : Bool :=
  within s (ledger s + grantedExtra s - charge s r.stall
    + awakeCost s (effStep s r.stall) (getF s R.pwrStallV_vOffset r.stall))

/-- Whether a request meets the two conditions of R115. -/
def grantable (s : State) (r : WakeReq) : Bool := hasRoom s r && decide (25 ≤ s.gov.tokens)

/-- What keeps a request waiting (R123): 0 headroom, 1 tokens, 2 die current. -/
def waitCause (s : State) (r : WakeReq) : Nat :=
  if r.die && getF s R.pwrDie_tI (dieOf r.stall) == 7 then 2 else if !hasRoom s r then 0 else 1

/-- Consider waiting requests in order, up to the first that fails a condition (R115). A request of a stall that its die
parked is passed over while that die's t_i is 7 (R121). -/
def considerGo : List WakeReq → State → State
  | [], s => s
  | r :: t, s =>
    if r.die && getF s R.pwrDie_tI (dieOf r.stall) == 7 then
      let u := considerGo t s
      { u with gov := { u.gov with waitq := r :: u.gov.waitq } }
    else if grantable s r then considerGo t (grant s r)
    else { s with gov := { s.gov with waitq := r :: t } }

/-- Consider the waiting requests (R115). -/
def consider (s : State) : State :=
  considerGo s.gov.waitq { s with gov := { s.gov with waitq := [] } }

/-! ## Raising and lowering g, parking -/

/-- The ledger exceeds the allowance (R118). -/
def overBudget (s : State) : Bool := !within s (ledger s)

/-- Set g and raise event 0x2002 (R118). -/
def setG (s : State) (g : Nat) : State :=
  let s := setF s R.pwrGov_g 0 g
  raise s 0x2002 cPkg g (ledgerW s)

/-- The order of parking: AWAKE stalls, the latest grant first, then those in RETRIM and FALLBACK (R119). -/
def parkOrder (s : State) : List Nat :=
  let l := s.gov.granted ++ (List.range 512).filter (fun p => isRunning (getStall s p) && !s.gov.granted.contains p)
  l.filter (fun p => (getStall s p).st == .awake)
    ++ l.filter (fun p => (getStall s p).st == .retrim || (getStall s p).st == .fallback)

/-- What the ledger falls by when a stall parks as NAP. -/
def parkGain (s : State) (p : Nat) : Nat := charge s p - 12000 * getF s R.pwrCost_staticMw

/-- Choose stalls to park, one at a time, until the ledger with them as NAP fits (R119). -/
def choosePark (s : State) : List Nat → Nat → List Nat
  | [], _ => []
  | p :: r, l => if within s l then [] else p :: choosePark s r (l - parkGain s p)

/-- Stalls already chosen, with what they will save. -/
def chosenGain (s : State) : Nat := (s.gov.toPark.map (fun p => parkGain s p.1)).sum

/-- Choose stalls to park for the package budget (R118, R119). -/
def selectPark (s : State) : State :=
  let cand := (parkOrder s).filter (fun p => !s.gov.toPark.any (fun q => q.1 == p))
  let sel := choosePark s cand (ledger s - chosenGain s)
  { s with gov := { s.gov with toPark := s.gov.toPark ++ sel.map (fun p => (p, false)) } }

/-- R118: at once by one step, then by one more step every 2 µs (50 ticks) up to 7, then parking. With the ledger within A
again, the stalls chosen for the governor and not yet parked run on (R119). -/
def raiseStep (s : State) : State :=
  if !overBudget s then { s with gov := { s.gov with excess := false, toPark := s.gov.toPark.filter (fun q => q.2) } }
  else if getF s R.pwrGov_g < 7 then
    if s.gov.excess && decide (s.now < s.gov.lastRaise + 50) then s
    else setG { s with gov := { s.gov with excess := true, lastRaise := s.now } } (getF s R.pwrGov_g + 1)
  else selectPark { s with gov := { s.gov with excess := true } }

/-- The ledger if g were one step lower. -/
def ledgerLower (s : State) : Nat := ledger (setF s R.pwrGov_g 0 (getF s R.pwrGov_g - 1))

/-- R120: g falls by one step when nothing waits, the headroom is there and 100 µs (2,500 ticks) have passed. -/
def lowerStep (s : State) : State :=
  if decide (0 < getF s R.pwrGov_g) && s.gov.waitq.isEmpty && decide (s.gov.lastLower + 2500 ≤ s.now)
      && decide (ledgerLower s * 65536 * 100 ≤ allowance s * 99) then
    let s := setG { s with gov := { s.gov with lastLower := s.now } } (getF s R.pwrGov_g - 1)
    if getF s R.pwrGov_g == 0 && parkedCount s == 0 then raise s 0x200E cPkg 0 (ledgerW s) else s
  else s

/-- A new budget, with the event that records each change (R118). -/
def setBudget (s : State) (b : Nat) : State :=
  let old := getF s R.pwrBudget_budgetW
  let s := setF { s with gov := { s.gov with budgetNext := none } } R.pwrBudget_budgetW 0 b
  if old = b then s else raise s 0x2001 cPkg old b

/-- The written budget takes effect (R117). -/
def applyBudget (s : State) : State :=
  match s.gov.budgetNext with
  | none => s
  | some b => setBudget s b

/-- Tokens accrue at 24 per µs, 24/25 a tick, up to 48 (R115). -/
def accrue (s : State) : State := { s with gov := { s.gov with tokens := min 1200 (s.gov.tokens + 24) } }

def execWakeRequest (p : Nat) (src : WakeSrc) (s : State) : Out := onStall p s (fun s => requestWake s p src false)

/-- GOVERNOR_STEP_RAISE (R118). -/
def execGovernorStepRaise (s : State) : Out := inModule s raiseStep

/-- GOVERNOR_STEP_LOWER (R120). -/
def execGovernorStepLower (s : State) : Out := inModule s lowerStep

/-! ## Stall power states -/

/-- Pause a running mover channel at a burst boundary; `park` when its stall parks (R381). -/
def pauseChan (s : State) (c : Nat) (park : Bool) : State :=
  let h := getChan s c
  if h.st = 1 then setChan s c { h with st := 2, byPark := park } else s

/-- Resume a channel that parking paused (R382). -/
def unparkChan (s : State) (c : Nat) : State :=
  let h := getChan s c
  if h.st = 2 ∧ h.byPark then setChan s c { h with st := 1, byPark := false } else s

/-- The fill in progress on a stall: phases 1 to 5 are those of CAL.ROTATION.state, 6 a rebuild. -/
def fillOf (s : State) (p : Nat) (rebuild : Bool) : Option Fill :=
  s.cal.fills.find? (fun f => f.stall == p && (f.phase == 6) == rebuild)

/-- The state a running stall shows: FALLBACK while a failed slot is on fallback, RETRIM while a tile trims or a rotation is
under way, AWAKE otherwise (R230, R235, R437). -/
def runState (s : State) (p : Nat) : StallSt :=
  let rot := fillOf s p false
  if b2n (rot.any (fun f => f.phase == 5)) < getF s R.genStall_fbCount p then .fallback
  else if s.cal.trimming.any (fun q => q.1 / 34 == p) || rot.isSome then .retrim
  else .awake

/-- The idle re-trim of a tile is aborted: counted, its trims unchanged (R229, R230, R240). -/
def abortIdle (s : State) (u : Nat) : State :=
  if s.cal.trimming.contains (u, 0) then
    bumpF { s with cal := { s.cal with trimming := s.cal.trimming.filter (fun q => q != (u, 0)) } } R.calTileWear_idleAborts u 1
  else s

/-- A stall is bound to a step program (R170). -/
def isBound (s : State) (p : Nat) : Bool :=
  ((s.job.image.map (fun i => i.bindings)).getD []).any (fun b => b.1 == ownIndex s && b.2.1 == p)

/-- A bound stall starts its program at instruction 0 (R284, R291). -/
def startProgram (s : State) (p : Nat) : State :=
  let t := getStall s p
  if s.mode == .running && isRunning t && isBound s p && !t.started && !onF s R.genStall_idle p then
    setF (setF (modStall s p (fun t => { t with started := true, regs := [], vregs := [] })) R.genStall_pc p 0)
      R.genStall_pass p 1
  else s

/-- A barn PLL that stopped locks again when the barn's first stall wakes (R112). -/
def relockPll (s : State) (b : Nat) : State :=
  if pllRuns s b then s
  else { s with gov := { s.gov with unlocked := s.gov.unlocked.filter (fun x => x != b) } }

/-- STALL_WAKE_COMPLETE (R112, R113, R214, R284, R382): a granted stall is AWAKE; a parked one takes up its work again; a
stall without its program running starts it at instruction 0. -/
def wakeComplete (s : State) (p : Nat) : State :=
  let t := getStall s p
  if t.granted && isResting t then
    let s := relockPll s (barnOf p)
    let s := modStall s p (fun t => { t with st := runState s p, granted := false, idleSince := s.now })
    let s := setF s R.clkStall_parked p 0
    startProgram (showLate (unparkChan s (64 + p)) p) p
  else s

/-- A stall has step-program work, a tile phase in flight or a frame pending (R110): its program has started and has not
ended or stopped, units still work, an array write is to come (R476), or it woke for due tiles (R231). -/
def hasWork (s : State) (p : Nat) : Bool :=
  let t := getStall s p
  (t.started && !t.stop && getF s R.genStall_pass p != 3) || !t.ops.isEmpty || !t.sets.isEmpty || !t.mmq.isEmpty
    || !t.touts.isEmpty || !t.combines.isEmpty || !t.votes.isEmpty || !t.geVotes.isEmpty || s.rte.held.any (fun f => f.dstStall == p)
    || s.rte.mesh.any (fun f => f.frame.dstStall == p) || s.rte.late.any (fun x => x.1 == p) || s.job.toWrite.contains p
    || (s.cal.fresh.contains p && s.cal.dueAt.any (fun e => e.1 / 34 == p && !t.bad.contains (e.1 % 34)))

/-- The linger of a stall has expired, or was never started (R113). -/
def lingerOver (s : State) (t : Stall) : Bool :=
  match t.linger with
  | none => true
  | some n => decide (n + getF s R.clkIdle_wakeLinger ≤ s.now)

/-- What an AWAKE stall needs at every one of nap_idle ticks to enter NAP (R110). -/
def quiet (s : State) (p : Nat) : Bool :=
  !hasWork s p && lingerOver s (getStall s p) && !onF s R.clkStall_pinAwake p

/-- At each tick the count of idle ticks of a running stall that is not quiet starts again (R110). -/
def countIdle (s : State) : State :=
  { s with stalls := s.stalls.map (fun x =>
      if isRunning x.2 && !(x.2.st == .awake && quiet s x.1) then (x.1, { x.2 with idleSince := s.now }) else x) }

/-- GOVERNOR_TICK (R107, R110, R115): the watch counter counts; from BRINGUP on idle ticks are counted, and the governor
adjusts g and parking, accrues tokens and grants (DESIGN CHOICE, assumption 13). -/
def tick (s : State) : State :=
  let s := { s with now := (s.now + 1) % 2 ^ 64 }
  if !s.board.railsOn then s
  else consider (accrue (lowerStep (raiseStep (applyBudget (countIdle s)))))

/-- STALL_NAP (R110). -/
def napStall (s : State) (p : Nat) : State :=
  let t := getStall s p
  if t.st == .awake && quiet s p
      && decide (t.idleSince + max 1 (getF s R.clkIdle_napIdle) ≤ s.now) then
    let g := { s.gov with granted := s.gov.granted.filter (fun q => q != p) }
    { modStall s p (fun t => { t with st := .nap, napSince := s.now }) with
      gov := g, cal := { s.cal with fresh := s.cal.fresh.filter (fun q => q != p) } }
  else s

def execStallNap (p : Nat) (s : State) : Out := onStall p s (fun s => napStall s p)

/-- STALL_SLEEP (R110): entered only while no grant is under way. -/
def sleepStall (s : State) (p : Nat) : State :=
  let t := getStall s p
  if t.st == .nap && !t.granted && !onF s R.clkStall_noSleep p
      && decide (t.napSince + getF s R.clkIdle_sleepIdle ≤ s.now) then
    modStall s p (fun t => { t with st := .sleep })
  else s

def execStallSleep (p : Nat) (s : State) : Out := onStall p s (fun s => sleepStall s p)

/-- Whether a chosen stall parks now (R119, R121): it is the first of those chosen that the same limit parks, that limit is
still passed, and a stall in RETRIM or FALLBACK waits until the limit's AWAKE stalls are parked. -/
def parksNow (s : State) (p : Nat) (die : Bool) : Bool :=
  let mine := fun (x : Nat) => !die || dieOf x == dieOf p
  let first := s.gov.toPark.find? (fun q => q.2 == die && mine q.1)
  let over' := if die then dieStep s (dieOf p) == 7 && decide (getF s R.pwrDie_ilimA (dieOf p) < getF s R.pwrDie_currentA (dieOf p))
    else overBudget s
  first.any (fun q => q.1 == p) && over'
    && ((getStall s p).st == .awake || !(parkOrder s).any (fun x => mine x && (getStall s x).st == .awake))

/-- STALL_PARKED (R119, R214, R381): a chosen stall holds its work, enters NAP and places a wake request. An episode of
event 0x2003 lasts as long as some stall is parked (DESIGN CHOICE, assumption 152). -/
def parkStall (s : State) (p : Nat) : State :=
  match s.gov.toPark.find? (fun q => q.1 == p) with
  | none => s
  | some q =>
    if !isRunning (getStall s p) then
      { s with gov := { s.gov with toPark := s.gov.toPark.filter (fun q => q.1 != p) } }
    else if !parksNow s p q.2 then s
    else
      let n := if parkedCount s = 0 then 0 else s.gov.episode
      let s := forEach (List.range 34) (fun s t => abortIdle s (34 * p + t)) (pauseChan s (64 + p) true)
      let s := modStall s p (fun t => { t with st := .nap, napSince := s.now, granted := false })
      let s := setF s R.clkStall_parked p 1
      let s := { s with gov := { s.gov with toPark := s.gov.toPark.filter (fun q => q.1 != p),
                                            granted := s.gov.granted.filter (fun q => q != p), episode := n + 1 } }
      requestWake (raise s 0x2003 (cStall p) (b2n q.2) n) p .program q.2

def execStallParked (p : Nat) (s : State) : Out := onStall p s (fun s => parkStall s p)

/-- WAKE_WAIT (R123): a request has waited longer than wait_alarm; once per request. -/
def wakeWait (s : State) (p : Nat) : State :=
  match s.gov.waitq.find? (fun q => q.stall == p) with
  | none => s
  | some q =>
    if !q.alarmed && decide (q.time + getF s R.pwrWake_waitAlarm < s.now) then
      let w := s.gov.waitq.map (fun r => if r.stall = p then { r with alarmed := true } else r)
      raise { s with gov := { s.gov with waitq := w } } 0x2005 (cStall p) (s.now - q.time) (waitCause s q)
    else s

def execWakeWait (p : Nat) (s : State) : Out := onStall p s (fun s => wakeWait s p)

/-! ## Measured power and the budget -/

/-- R116, one comparison: c, held in whole mW, rises by the excess over ledger / eff, at the loads, rounded up (DESIGN CHOICE,
assumption 153); it halves, rounded down, after 10 ms (ten comparisons)
at least 2 % below the budget, and is zero below 1 W; the tenth comparison above the budget raises 0x200A once. -/
def correct (s : State) (w : Nat) : State :=
  let budget := getF s R.pwrBudget_budgetW
  let eff := getF s R.pwrCost_effQ16
  let excess := 12000000 * w * eff - ledger s * 65536
  let low := decide (100 * w ≤ 98 * budget)
  let g := s.gov
  let runs := if low then g.lowRuns + 1 else 0
  let c := g.cMw + ceilDiv excess (12000 * 65536)
  let c := if runs = 10 then (if c / 2 < 1000 then 0 else c / 2) else c
  let hot := decide (budget < w)
  let n := if hot then g.overRuns + 1 else 0
  let s := { s with gov := { g with cMw := c, lowRuns := if runs = 10 then 0 else runs, overRuns := n,
                                    overShown := if hot then g.overShown else false } }
  if decide (10 ≤ n) && !s.gov.overShown then
    raise { s with gov := { s.gov with overShown := true } } 0x200A cPkg w budget
  else s

def execLedgerCorrection (w : Nat) (s : State) : Out := inModule s (fun s => correct s w)

/-- The ceiling of the budget (R117). -/
def budgetCeiling (s : State) : Nat := getF s R.pwrBudget_ceilingW

/-- The status of a write of `w` to PWR.BUDGET (R117, R140). -/
def budgetStatus (s : State) (w : Nat) : Nat :=
  let b := bits w 15 0
  if !upStates s then 2 else if b < 1200 ∨ budgetCeiling s < b then 3 else 0

/-- BUDGET_WRITE (R117): takes effect at the next tick. -/
def writeBudget (s : State) (w : Nat) : State :=
  if budgetStatus s w = 0 then { s with gov := { s.gov with budgetNext := some (bits w 15 0) } } else s

def execBudgetWrite (w : Nat) (s : State) : Out := inModule s (fun s => writeBudget s w)

/-! ## Die limits (R121) -/

/-- A stamp of a die: 4 × kind + die; kinds 0 t_i raise, 1 t_i lower, 2 t_t raise, 3 t_t lower, 4 above the limit at 7. -/
def dieStamp (s : State) (kind d : Nat) : Option Nat := tget? s.gov.dieAt (4 * kind + d)

/-- Set a stamp of a die to now. -/
def stampDie (s : State) (kind d : Nat) : State :=
  { s with gov := { s.gov with dieAt := tset s.gov.dieAt (4 * kind + d) s.now } }

/-- At least `n` ticks have passed since a stamp of a die. -/
def diePassed (s : State) (kind d n : Nat) : Bool :=
  match dieStamp s kind d with
  | none => true
  | some a => decide (a + n ≤ s.now)

/-- DIE_CURRENT_LIMIT (R121): the current has stayed above ilim_a; t_i rises by one step, every 2 µs at most. Event 0x2006
comes with a rise of t_d from 0. -/
def dieCurrentUp (s : State) (d amps : Nat) : State :=
  let s := setF s R.pwrDie_currentA d amps
  let lim := getF s R.pwrDie_ilimA d
  if lim < amps ∧ diePassed s 0 d 50 then
    let t := getF s R.pwrDie_tI d
    let z := dieStep s d == 0
    let s := stampDie s 0 d
    if t < 7 then
      let s := setAlert (setF s R.pwrDie_tI d (t + 1)) 4
      if z then raise s 0x2006 (cDie d) amps lim else s
    else s
  else s

def execDieCurrentLimit (d amps : Nat) (s : State) : Out := onUnit 4 d s (fun s => dieCurrentUp s d amps)

/-- DIE_CURRENT_PARK (R121): at t_d = 7 the die parks its own stalls, in the order of R119; the next one each time. -/
def diePark (s : State) (d : Nat) : State :=
  if dieStep s d = 7 ∧ getF s R.pwrDie_ilimA d < getF s R.pwrDie_currentA d then
    match (parkOrder s).find? (fun p => dieOf p == d && !s.gov.toPark.any (fun q => q.1 == p)) with
    | some p => { s with gov := { s.gov with toPark := s.gov.toPark ++ [(p, true)] } }
    | none => s
  else s

def execDieCurrentPark (d : Nat) (s : State) : Out := onUnit 4 d s (fun s => diePark s d)

/-- DIE_THERMAL_THROTTLE (R121): t_t rises by one step, every 100 µs at most. -/
def dieThermalUp (s : State) (d tj : Nat) : State :=
  let s := setF s R.pwrDie_tjC d tj
  let lim := getF s R.pwrDie_thermC d
  if lim ≤ tj ∧ diePassed s 2 d 2500 then
    let t := getF s R.pwrDie_tT d
    let z := dieStep s d == 0
    let s := stampDie s 2 d
    if t < 7 then
      let s := setAlert (setF s R.pwrDie_tT d (t + 1)) 4
      if z then raise s 0x2007 (cDie d) tj lim else s
    else s
  else s

def execDieThermalThrottle (d tj : Nat) (s : State) : Out := onUnit 4 d s (fun s => dieThermalUp s d tj)

/-- DIE_STEP_LOWER (R121): t_i falls every 100 µs below 0.95 × ilim_a, t_t every 1 ms below therm_c − 5 °C. -/
def dieDown (s : State) (d : Nat) (thermal : Bool) (v : Nat) : State :=
  if thermal then
    let s := setF s R.pwrDie_tjC d v
    if v + 5 < getF s R.pwrDie_thermC d ∧ diePassed s 3 d 25000 ∧ 0 < getF s R.pwrDie_tT d then
      setF (stampDie s 3 d) R.pwrDie_tT d (getF s R.pwrDie_tT d - 1)
    else s
  else
    let s := setF s R.pwrDie_currentA d v
    if 100 * v < 95 * getF s R.pwrDie_ilimA d ∧ diePassed s 1 d 2500 ∧ 0 < getF s R.pwrDie_tI d then
      setF (stampDie s 1 d) R.pwrDie_tI d (getF s R.pwrDie_tI d - 1)
    else s

def execDieStepLower (d : Nat) (thermal : Bool) (v : Nat) (s : State) : Out :=
  onUnit 4 d s (fun s => dieDown s d thermal v)

end Sys2Proof.Machine
end

