-- ==== Sys2Proof/Machine/Halt.lean ====
section
/-! DEFINITION. Machine/Halt.lean: the shared changes of module state: stops, halts, loss of rails, the end of a session,
of a team and of a job (R61 to R65, R129, R144 to R147, R150, R446). -/
namespace Sys2Proof.Machine
open Sys2Proof

/-! ## Sessions -/

/-- The COMPLETION and GATE_DONE frames among frames that were sent or wait (R129). -/
def keptFrames (l : List CtlOut) : List CtlOut := l.filter (fun c => c.ftype == 0x30 || c.ftype == 0x21)

/-- Close the open session (R129); causes of event 0xE002: 1 CLOSE, 2 preempt, 3 idle, 4 retransmission, 5 slot change. -/
def closeSession (s : State) (cause : Nat) : State :=
  if !sessionOpen s then s
  else
    let s := raise s 0xE002 cPkg (getF s R.ctlState_sessionId) cause
    let kept := s.ses.carried ++ keptFrames (s.ses.unacked.map (fun u => u.frame)) ++ keptFrames s.ses.waiting
    let s := { s with ses := { Session.reset with carried := kept, lastId := s.ses.lastId, lastAuth := s.ses.lastAuth,
                                                  challenge := s.ses.challenge,
                                                  firstAfterReady := s.ses.firstAfterReady } }
    setFs s [(R.ctlState_sessionOpen, 0), (R.ctlState_sessionId, 0), (R.secStatus_sessionSlot, 7)]

/-! ## Teams -/

/-! ## The end of a securing (R451, R452) -/

/-- A page is done when its home slot is written and, for a formed team, it is acknowledged. -/
def pageDone (s : State) (p : Page) : Bool := p.home && (p.acked || !teamFormed s)

/-- Step S is secured: PAIR.SECURE shows it as committed, with event 0xD00E (DEDUCED, assumption 77). -/
def stepSecured (s : State) : State :=
  match s.team.step with
  | none => s
  | some n =>
    let old := getF s R.pairSecure_committed
    let s := setFs { s with team := { s.team with step := none } }
      [(R.pairPrev_previous, old), (R.pairSecure_prevValid, b2n (old != 0)), (R.pairSecure_committed, n),
       (R.pairSecure_inFlight, 0), (R.pairSecure_pagesLeft, 0)]
    raise s 0xD00E cPkg (n % 2 ^ 32) (s.now - s.team.started)

/-- Pages of the secured set: the page count of a home record and of COMMIT (R445, R448, R452; DEDUCED, assumption 36). -/
def securedPages (s : State) : Nat := (s.team.groups.map (fun g => g.length)).sum

/-- The group 0 home record of a securing whose pages are all done; a formed team then sends COMMIT. -/
def endSecuring (s : State) : State :=
  match s.team.step with
  | none => s
  | some n =>
    let s := quietWrite s (homeBase s 0) (leBytes 8 n ++ leBytes 8 (getF s R.pairSecure_committed)
      ++ leBytes 8 (getF s R.gtePlan_planTag) ++ leBytes 8 (securedPages s))
    if teamFormed s then sendTeam s (pagePort s 0) 5 n 0 0 0 (leBytes 8 n ++ leBytes 8 (securedPages s)) else stepSecured s

/-- Pages that are done are no longer protected and free their buffer space; with the last one the securing ends. -/
def sweepPages (s : State) : State :=
  if s.team.pages.any (pageDone s) then
    let s := showBuf { s with team := { s.team with pages := s.team.pages.filter (fun p => !pageDone s p) } }
    let s := setF s R.pairSecure_pagesLeft 0 s.team.pages.length
    if s.team.pages.isEmpty then endSecuring s else s
  else s

/-- Break a formed team, with event 0xD00B (R446); a securing in flight is completed to the home copy only (R452). -/
def breakTeam (s : State) (cause : Nat) : State :=
  if teamFormed s then
    let sent := s.team.pages.isEmpty
    let s := raise (setFs s [(R.pairStatus_team, 4), (R.pairStatus_cause, cause)]) 0xD00B cPkg cause
      (getF s R.pairSecure_committed % 2 ^ 32)
    if sent then stepSecured s else sweepPages s
  else s

/-- Protection and the securing in flight end without a secured step (R458). -/
def abandonSecuring (s : State) : State :=
  setFs (showBuf { s with team := { s.team with pages := [], step := none, awaits := none } })
    [(R.pairSecure_inFlight, 0), (R.pairSecure_pagesLeft, 0)]

/-- Send BYE on every team port that can carry it, and end the team (R446). -/
def leaveTeam (s : State) : State :=
  if getF s R.pairStatus_team == 1 || getF s R.pairStatus_team == 2 then
    let s := forEach ((teamPorts s).filter (portUpFull s)) (fun t p => sendTeam t p 9 0 0 0 0 []) s
    setF { s with team := { s.team with rec? := none } } R.pairStatus_team 0 0
  else s

/-! ## Commands and amendments when the module leaves a job -/

/-- Held amendments are discarded, each with a final completion, and the projected tag is the active one again (R145,
R179, R180). -/
def dropAmends (s : State) (status : Nat) : State :=
  let s := forEach s.job.amends (fun t a => complete t a.cmd status 0) s
  let s := setFs { s with job := { s.job with amends := [] } }
    [(R.hrnStatus_heldAmends, 0), (R.hrnStatus_structuralHeld, 0), (R.hrnHeld_heldBytes, 0)]
  setF s R.hrnPlanNext_planTag 0 (getF s R.gtePlan_planTag)

/-- The image and every record of it are discarded and the plan tag is 0 (R147, R178). -/
def dropImage (s : State) : State :=
  let s := { s with job := { Job.reset with running := s.job.running }, fmt := { s.fmt with flatShown := [] },
                    rte := Rte.reset,
                    upd := { s.upd with lines := [], handed := [],
                                        chips := (s.upd.chips.filter (fun x => x.2.lost)).map
                                          (fun x => (x.1, { Chip.reset with lost := true })) } }
  let s := forEach (List.range 512) (fun t p => modStall t p (fun x =>
    { Stall.reset with st := x.st, live := x.live, relief := x.relief, reserve := x.reserve, bad := x.bad,
                       idleSince := x.idleSince, napSince := x.napSince, linger := x.linger, granted := x.granted,
                       wakeFrom := x.wakeFrom })) s
  let s := forEach (List.range 512) (fun t p => forEach
    [R.genStall_pc, R.genStall_pass, R.genStall_idle, R.genStall_faulted, R.genStall_atFwdEnd, R.genStall_fbCount,
     R.genStall_fbSlot0, R.genStall_fbValid0, R.genStall_fbSlot1, R.genStall_fbValid1, R.genStall_bank0, R.genStall_bank1]
    (fun t f => setF t f p 0) t) s
  let s := { s with cal := { s.cal with trimming := s.cal.trimming.filter (fun q => q.2 == 0), fills := [],
                                        rebuilds := [], failing := [] } }
  let s := forEach (List.range 512) (fun t p =>
    if isRunning (getStall t p) then modStall t p (fun x => { x with st := runState t p }) else t) s
  let s := clearUnits (clearUnits (clearUnits s R.updChip_programs 4) R.rteArb_hbmWeight 512) R.rteArb_meshWeight 512
  setFs s [(R.fmtSeed_jobSeed, 0), (R.fmtStatus_numericMode, 0), (R.genPass_pass, 0), (R.updStatus_phase, 0),
    (R.updStatus_chipsDone, 0), (R.gtePlan_planTag, 0), (R.hrnPlanNext_planTag, 0), (R.hrnBuild_buildId, 0), (R.hrnStatus_state, 0),
    (R.hrnStatus_heldAmends, 0), (R.hrnStatus_structuralHeld, 0), (R.hrnStatus_moduleIndex, 0),
    (R.hrnStatus_moduleCount, 0), (R.hrnStatus_imageKib, 0), (R.hrnHeld_heldBytes, 0)]

/-- A load ends without success: every array counts as unwritten, and no record of the image stands (R61, R177). -/
def forgetArrays (s : State) : State := dropImage { s with job := { s.job with loading := none } }

/-- The command in progress when the module halts: NOT_NOW, a HARNESS_LOAD with event 0x3003 too; HALT itself goes on
(R144, R147, R177). -/
def endRunning (s : State) : State :=
  match s.job.running with
  | none => s
  | some r =>
    if r.cmd.opcode = 0x0002 then s
    else if r.cmd.opcode = 0x3001 then forgetArrays (finish (raise s 0x3003 cPkg 2 0) r.cmd 2 0)
    else finish s r.cmd 2 0

/-- Key of a transfer of a level record: 0 a fallback image, 1 a spare's fill, 2 the image of a trim on fallback, 3 the
operand of a tile vote. -/
def loadKey (kind p slot : Nat) : Nat := kind * 16384 + 32 * p + slot

/-- Votes in progress are abandoned (R427), chips stop at their next unit (R360), stall channels pause (R381). -/
def stopCompute (s : State) : State :=
  let s := forEach (List.range 512) (fun t p => pauseChan t (64 + p) false) s
  let s := forEach (List.range 512)
    (fun t p => modStall t p (fun x => { x with votes := [], geVotes := [] })) s
  let s := setF s R.brdStatus_votesRunning 0 0
  let s := { s with cal := { s.cal with loads := s.cal.loads.filter (fun x => decide (x.1 < loadKey 3 0 0)) } }
  forEach (List.range 4) (fun t z => setChip t z { getChip t z with active := false }) s

/-- A state-losing fault in a module already halted: the job it still holds is lost (R65, R108, R456); the first cause of the
halt stands (DEDUCED, assumption 12). -/
def loseHalted (s : State) : State :=
  let s := leaveTeam (when s.job.running.isSome endRunning s)
  let s := { s with job := { s.job with toWrite := [], reports := [] } }
  setF s R.ctlState_haltStateLosing 0 1

/-- Enter HALTED (R144 to R147, R150, R456). The first cause stands. -/
def enterHalted (s : State) (cause : Nat) (losing : Bool) : State :=
  if s.mode == .halted then when (losing && !onF s R.ctlState_haltStateLosing) loseHalted s
  else
    let s := stopCompute (dropAmends (endRunning s) 2)
    let s := { s with job := { s.job with token := none, toWrite := [], reports := [] } }
    let s := when losing leaveTeam s
    let s := setFs s [(R.ctlState_haltCause, cause), (R.ctlState_haltStateLosing, b2n losing),
      (R.gteStatus_haltPending, 0)]
    setAlert { s with mode := .halted } 6

/-- A halt for a fault loses state when a job stands: an image is active, in HALTED too, from where ROLLBACK would lead back
into the job (R65, R146, R456; DEDUCED, assumption 12). -/
def losingNow (s : State) : Bool := inJob s || (s.mode == .halted && s.job.image.isSome)

/-! ## Rails -/

/-- Every rail but the always-on ones is switched off: all activity stops and memory loses its contents (R61, R63). The
command in progress and those held end without completion (R144); the session ends with the host port. -/
def dropRails (s : State) : State :=
  let b := { s.board with railsOn := false, pwrOk := false }
  { s with board := b, att := Attach.reset, mem := [], brandBad := [], prt := Prt.reset, feed := Feed.reset, movs := [], upd := Upd.reset,
           ses := { Session.reset with lastId := s.ses.lastId },
           job := { Job.reset with image := none }, bring := { s.bring with log := [] },
           nv := { s.nv with wearQueue := [] } }

/-- RESET_N low, or the lever opened, outside OFF and WATCH: activity stops and the rails begin to switch off; CTL.STATE
keeps showing the present state (R61). -/
def beginReset (s : State) : State :=
  if s.mode == .off || s.mode == .watch then s
  else { dropRails s with board := { (dropRails s).board with resetting := true } }

/-- A rail fault or a thermal trip: HALTED with every rail off but the always-on ones (R63, R122). Only RESET_N or loss of
input power leads out of it. -/
def haltRailsOff (s : State) (cause : Nat) : State := dropRails (enterHalted s cause true)

/-! ## Plan mismatches -/

/-- Count and record a plan mismatch (R133, R183), token frames by their own count alone; event 0x3008 for the first of each source in each step: 0 token frame, 1 control
frame, 2 ring command, 3 gate token (R183). -/
def notePlan (s : State) (src tag : Nat) : State :=
  let f := if src = 0 then R.hrnMismatchCnt_tokenFrames else if src = 3 then R.hrnMismatchCnt_gateTokens
    else R.hrnMismatchCnt_control
  let s := when (src != 0) (fun t => bumpF t R.ctlCounters_planRefused 0 1) s
  let s := setF (bumpF s f 0 1) R.hrnMismatchCnt_lastSource 0 src
  let s := setF s R.hrnMismatch_receivedTag 0 tag
  raiseOnce s 0x3008 src cPkg src (tag % 2 ^ 32)

/-- GATE after gate-complete, or HARNESSED: no gate window is open (R149, R150). -/
def atRest (s : State) : Bool := s.mode == .harnessed || (s.mode == .gate && onF s R.gteStatus_gateComplete)

/-- What every plan mismatch does (R150, R183): counted; HALTED at once in HARNESSED or after gate-complete, halt_pending
in RUNNING and before gate-complete, no change of state elsewhere. -/
def planMismatch (s : State) (src tag : Nat) : State :=
  let s := notePlan s src tag
  if atRest s then
    enterHalted (raise s 0x3009 cPkg (getF s R.gteStep_step) (getF s R.gtePlan_planTag % 2 ^ 32)) 2 false
  else if s.mode == .running || s.mode == .gate then setF s R.gteStatus_haltPending 0 1
  else s

/-! ## Leaving a job -/

/-- The fields of the trap and fault records, with their units. -/
def recordFields : List (Field × Nat) :=
  [(R.fmtTrapA_valid, 512), (R.fmtTrapA_source, 512), (R.fmtTrapA_operand, 512), (R.fmtTrapA_valueKind, 512),
   (R.fmtTrapA_layer, 512), (R.fmtTrapA_instr, 512), (R.fmtTrapA_tile, 512), (R.fmtTrapB_element, 512),
   (R.fmtTrapC_watchLo, 512), (R.fmtTrapC_value, 512), (R.fmtTrapFirst_valid, 1), (R.fmtTrapFirst_stall, 1),
   (R.fmtTrapFirst_watch, 1), (R.fmtStatus_trapped, 1), (R.fmtStatus_trappedStalls, 1), (R.genFault_valid, 512),
   (R.genFault_status, 512), (R.genFault_opcode, 512), (R.genFault_instr, 512), (R.genFault_detail, 512),
   (R.genStall_faulted, 512), (R.movStallCh_faulted, 512),
   (R.updFaultA_valid, 1), (R.updFaultA_cause, 1), (R.updFaultA_chip, 1), (R.updFaultA_program, 1), (R.updFaultA_slot, 1),
   (R.updFaultA_value, 1), (R.updFaultB_element, 1), (R.updStatus_fault, 1)]

/-- Trap and fault records, which HALT_CLEAR and ROLLBACK clear (R270, R289, R360, R378, R419). -/
def clearFaults (s : State) : State :=
  let s := forEach recordFields (fun t f => clearUnits t f.1 f.2) s
  let s := forEach (List.range 512) (fun t p => modStall t p (fun x => { x with stop := false })) s
  { s with job := { s.job with gateHold := false } }

/-- Erase the team secret and K_t (R468). -/
def eraseTeamKey (s : State) : State :=
  forEach (List.range 4) (fun t u => setF t R.secTeamSecret_secret u 0) { s with team := { s.team with key := none } }

/-- A bring-up stop (R94): stop_cause, event 0x1010, the elapsed time frozen. -/
def stopBringup (s : State) (cause : Nat) : State :=
  let s := setF { s with bring := { s.bring with stopped := true } } R.bruStatus_stopCause 0 cause
  let s := setF s R.bruStatus_elapsedMs 0 ((s.now - s.bring.start) / 25000)
  raise s 0x1010 cPkg cause (getF s R.bruStatus_phase)

end Sys2Proof.Machine
end

