-- ==== Sys2Proof/Machine/Board.lean ====
section
/-! DEFINITION. Machine/Board.lean: input power, RESET_N, the lever, clocks, the management bus, the test access port and
the bay identity memory (R53 to R75). -/
namespace Sys2Proof.Machine
open Sys2Proof

/-! ## Entry to BRINGUP (R86, R87, R104) -/

/-- Registers whose value outlives RESET_N: the watch domain's, those of the identity memories, the fuse and wear records
and the key store (R20, R67, R107, R157; DEDUCED, assumption 9). -/
def keptFields : List Field :=
  [R.bruCtl_forceCold, R.bruCtl_warmEnable, R.bruBayId_bayNumber, R.bruBayId_powerLimitW, R.bruBayId_sensedBay,
   R.bruBayId_teamSenseWired, R.bruBayId_clk25AonOk, R.bruBayId_teamSenseLevel, R.bruBayId_bayStatus,
   R.bruBayTags_feedTagB, R.bruBayTags_feedTagA, R.bruBayLoop_loopTag, R.bruBayInstall_installationId,
   R.bruFit_loftSpeedMts, R.bruFit_dimmPresent, R.bruFit_dimmUsable, R.bruFit_loftChannelGib, R.bruFit_laserPresent,
   R.bruFit_laserUsable, R.bruFit_hostModulePresent, R.bruFit_hostModuleUsable, R.bruFit_loftPopulation,
   R.clkWatchSrc_onInternal, R.pwrBudget_ceilingW]

/-- Registers that show fuses and flash, and so outlive loss of power. -/
def flashFields : List Field :=
  [R.fusMapInfo_mapVersion, R.fusMapInfo_factoryClass,
   R.secStatus_slotState, R.secStatus_owned, R.secFw_runningCopy, R.secFw_staged, R.secFw_svnRunning, R.secFw_svnFused,
   R.secEpoch_epoch, R.hstMac_macBase, R.ctlId_siliconRev]

/-- The fields of CAL.TILE_WEAR that show the wear store and the stuck lists; the others reset to 0 (R20). -/
def wearFields : List Field :=
  [R.calTileWear_wearMax, R.calTileWear_wearMaxPair, R.calTileWear_worn, R.calTileWear_stuckPairs]

/-- Whether a stored field outlives loss of power: those of `flashFields`, the key slots, the stalls' field map, and the
wear records. -/
def flashKey (k : Nat) : Bool :=
  flashFields.any (fun f => fkey f 0 == k) || (List.range 4).any (fun u => fkey R.secSlotKey_digest u == k)
    || (decide (0x4002000 * 64 ≤ k) && decide (k < 0x4003000 * 64))
    || (decide (0x110C0000 * 64 ≤ k) && decide (k < 0x11100000 * 64) && wearFields.any (fun f => f.lo == k % 64))

/-- Whether a stored field outlives RESET_N: one of `keptFields`, or one that outlives loss of power too. -/
def keptKey (k : Nat) : Bool := keptFields.any (fun f => fkey f 0 == k) || flashKey k

/-- The value of BRU.FIT as the record compares it (R86). -/
def fitWord (s : State) : Nat :=
  getF s R.bruFit_loftSpeedMts * 2 ^ 48 + getF s R.bruFit_dimmPresent * 2 ^ 40 + getF s R.bruFit_dimmUsable * 2 ^ 32
    + getF s R.bruFit_loftChannelGib * 2 ^ 20 + getF s R.bruFit_laserPresent * 2 ^ 16
    + getF s R.bruFit_laserUsable * 2 ^ 12 + getF s R.bruFit_hostModulePresent * 2 ^ 11
    + getF s R.bruFit_hostModuleUsable * 2 ^ 10 + getF s R.bruFit_loftPopulation * 2 ^ 8

/-- The firmware copy of a number: 0 is A. -/
def fwCopyOf (s : State) (n : Nat) : FwCopy := if n = 0 then s.nv.fwA else s.nv.fwB

/-- Watch ticks of 24 hours. -/
def day : Nat := 2160000000000

/-- The firmware copy that the next bring-up runs: a staged copy first (R471), else the one the record names (R92). -/
def nextCopy (s : State) (r : Record) : Nat := if s.nv.fwStaged then 1 - getF s R.secFw_runningCopy else r.fwCopy

/-- The conditions of R86 that hold, as the bits of BRU.STATUS.warm_refusal. -/
def warmRefusal (s : State) : Nat :=
  let b0 := !s.board.everBrought || !s.board.warmValid
  let b2 := onF s R.bruCtl_forceCold || !onF s R.bruCtl_warmEnable
  let base := b2n b0 + 2 * b2n s.board.afterFault + 4 * b2n b2
  match s.nv.record with
  | none => base + 64
  | some r =>
    if !s.board.recordOk then base + 64
    else
      let differs := r.fwDigest != (fwCopyOf s (nextCopy s r)).digest || r.fit != fitWord s
        || r.bayNumber != getF s R.bruBayId_bayNumber || r.installation != getF s R.bruBayInstall_installationId
      base + 8 * b2n differs + 16 * b2n (decide (r.coldTime + day < s.now)) + 32 * b2n s.nv.fieldCleared

/-! ## The fuse map (R100) -/

/-- What the three copies of a bit give: good only where two of them that can be read say so; a bit without a majority
counts as bad. -/
def fuseVote (l : List FuseCopy) (i : Nat) : Bool := decide (2 ≤ countIf l (fun c => bit c.bits i && !bit c.dark i))

/-- Whether the three copies agree on every bit. -/
def fuseAgree (l : List FuseCopy) : Bool :=
  (List.range 37).all (fun i => l.all (fun c => !bit c.dark i && bit c.bits i == bit ((l.map (fun c => c.bits)).headD 0) i))

/-- The fuse word of a stall as FUS.STALL_FUSE shows it. -/
def fuseWord (l : List FuseCopy) : Nat := ((List.range 37).map (fun i => if fuseVote l i then 2 ^ i else 0)).sum

/-- A stall's fuse word has GE, store and trough good and at most two bad tiles. -/
def fuseGoodWord (w : Nat) : Bool := bits w 36 34 == 7 && decide (32 ≤ popcount 34 w)

/-- Bring-up loads the registers that show the fuse map (R20, R100), on entry to BRINGUP (DESIGN CHOICE, assumption 149). -/
def loadFuses (s : State) : State :=
  let s := forEach s.nv.fuses (fun t x =>
    let w := fuseWord x.2
    setF (setF (setF (setF t R.fusStallFuse_tileGood x.1 w) R.fusStallFuse_geGood x.1 (bits w 34 34))
      R.fusStallFuse_storeGood x.1 (bits w 35 35)) R.fusStallFuse_troughGood x.1 (bits w 36 36)) s
  setFs s [(R.fusMapInfo_fuseGoodStalls, 512 - countIf s.nv.fuses (fun x => !fuseGoodWord (fuseWord x.2))),
    (R.fusMapInfo_mapOk, b2n (s.nv.fuses.all (fun x => fuseAgree x.2)))]

/-- Everything the reset of RESET_N clears: what stays is the watch domain, the stores that outlive power, and the
registers of `keptKey` (DEDUCED, assumption 8). -/
def resetCore (s : State) : State :=
  { State.reset with
    pending := s.pending, now := s.now, draws := s.draws, nv := s.nv, board := s.board,
    reg := s.reg.filter (fun p => keptKey p.1), ses := { Session.reset with lastId := s.ses.lastId } }

/-- The lower of 2,500 W and the bay's limit (R117); a limit of 0 stands for 2,500 W (R73). -/
def ceilingOf (limit : Nat) : Nat := if limit = 0 then 2500 else min 2500 limit

/-- Enter BRINGUP: the path is chosen before warm_valid is cleared (R86, R87); the log starts empty (R104). -/
def enterBringup (s : State) : State :=
  let w := warmRefusal s
  let s := loadFuses (resetCore s)
  let b := { s.board with railsOn := true, pwrOk := true, resetting := false, warmValid := false, afterFault := false,
                          everBrought := true }
  let s := { s with mode := .bringup, board := b, bring := { Bring.reset with start := s.now } }
  let s := setFs s [(R.bruStatus_path, b2n (w == 0)), (R.bruStatus_warmRefusal, w),
    (R.pwrBudget_budgetW, min 2400 (getF s R.pwrBudget_ceilingW))]
  let s := raise s 0x1001 cPkg (b2n (w == 0)) w
  if bayInvalid s then raise s 0x100C cPkg (getF s R.bruBayId_bayStatus) 0 else s

/-- RESET_N is sampled in WATCH: high with the bay identity memory read starts bring-up, unless the lever is open (R60,
R62). -/
def sampleReset (s : State) : State :=
  if s.mode == .watch && s.board.resetN && s.board.bayRead && !s.board.leverOpen then enterBringup s else s

/-! ## Commands -/

def execPowerInputInRange (s : State) : Out :=
  .next (if s.mode == .off then { s with board := { s.board with inrush := true } } else s)

/-- ALWAYS_ON_RAILS_GOOD (R60, R107): WATCH, with the watch counter at zero. -/
def execAlwaysOnRailsGood (s : State) : Out :=
  .next (if s.mode == .off && s.board.inrush then
    { s with mode := .watch, now := 0, board := { s.board with pwrOk := true } } else s)

/-- INPUT_OUT_OF_LIMITS (R59): every rail is off; what outlives power stays. -/
def execInputOutOfLimits (s : State) : Out :=
  .next { State.reset with pending := s.pending, draws := s.draws, nv := s.nv,
                           reg := s.reg.filter (fun p => flashKey p.1),
                           board := { Board.reset with resetN := s.board.resetN } }

/-- bay_status of a bay identity memory (R72): 0 valid, 1 no acknowledge, 2 crc mismatch, 3 bad magic, version, flags or
bay number. A memory that fails its crc and another check shows the crc (DESIGN CHOICE, assumption 150). -/
def bayStatus : Option Bytes → Nat
  | none => 1
  | some m =>
    if crc32 (slice m 0 0xFC) ≠ fieldAt m 0xFC 4 then 2
    else if fieldAt m 0 4 ≠ 0x59414256 ∨ fieldAt m 4 1 ≠ 1 ∨ bits (fieldAt m 5 1) 1 0 = 3 ∨ bits (fieldAt m 5 1) 7 3 ≠ 0
      ∨ fieldAt m 6 2 = 0xFFFF then 3
    else 0

/-- Load the bay's fields from a valid memory (R71, R73). -/
def loadBay (s : State) (m : Bytes) : State :=
  let limit := fieldAt m 0x1C 2
  let s := setFs s [(R.bruBayId_bayStatus, 0), (R.bruBayId_bayNumber, fieldAt m 6 2),
    (R.bruBayId_powerLimitW, if limit = 0 then 2500 else limit), (R.bruBayId_sensedBay, fieldAt m 0x1E 2),
    (R.bruBayId_teamSenseWired, bits (fieldAt m 5 1) 2 2), (R.bruBayTags_feedTagA, fieldAt m 0x10 4),
    (R.bruBayTags_feedTagB, fieldAt m 0x14 4), (R.bruBayLoop_loopTag, fieldAt m 0x18 4),
    (R.bruBayInstall_installationId, fieldAt m 8 8), (R.pwrBudget_ceilingW, ceilingOf limit)]
  { s with board := { s.board with bayLabel := slice m 0x20 32, busMode := bits (fieldAt m 5 1) 1 0 } }

/-- What an absent or invalid memory leaves (R72). -/
def noBay (s : State) (st : Nat) : State :=
  let s := setFs s [(R.bruBayId_bayStatus, st), (R.bruBayId_bayNumber, 0xFFFF), (R.bruBayId_powerLimitW, 2400),
    (R.bruBayId_sensedBay, 0xFFFF), (R.bruBayId_teamSenseWired, 0), (R.bruBayTags_feedTagA, 0),
    (R.bruBayTags_feedTagB, 0), (R.bruBayLoop_loopTag, 0), (R.bruBayInstall_installationId, 0),
    (R.pwrBudget_ceilingW, 2400)]
  setAlert { s with board := { s.board with bayLabel := [], busMode := 0 } } 7

/-- The bay identity memory is read (R66, R71, R72, R84), and the bring-up record with it (R86) (DESIGN CHOICE,
assumption 174). -/
def readBay (r : BayRead) (s : State) : State :=
  let s := match r.mem with
    | some m => if bayStatus r.mem = 0 then loadBay s m else noBay s (bayStatus r.mem)
    | none => noBay s 1
  let dyn := if s.board.busMode = 0 then s.board.dynAddr else none
  sampleReset { s with board := { s.board with bayRead := true, recordOk := r.recordOk, dynAddr := dyn } }

/-- BAY_IDENTITY_READ (R60, R84). -/
def execBayIdentityRead (r : BayRead) (s : State) : Out :=
  .next (if s.mode == .watch then readBay r s else s)

/-- RESET_N_RELEASED (R60). -/
def execResetNReleased (s : State) : Out :=
  .next (sampleReset { s with board := { s.board with resetN := true } })

/-- RESET_N_LOW (R61). -/
def execResetNLow (s : State) : Out :=
  .next (beginReset { s with board := { s.board with resetN := false } })

/-- LAST_RAIL_OFF (R60, R61, R63): WATCH, where the bay identity memory is read again (R84). -/
def execLastRailOff (s : State) : Out :=
  .next (if s.board.resetting then
    { s with mode := .watch, board := { s.board with resetting := false, bayRead := false, pwrOk := true } }
  else s)

/-- LEVER_OPENED (R62). -/
def execLeverOpened (s : State) : Out :=
  .next (beginReset { s with board := { s.board with leverOpen := true, switchOpen := true,
                                                     afterFault := s.board.afterFault || s.mode != .off } })

/-- RAIL_FAULT (R63, R94, R105). -/
def execRailFault (rail mv : Nat) (s : State) : Out :=
  inModule s (fun s =>
    let s := raise s 0x100E cPkg rail mv
    let s := when (s.mode == .bringup) (fun t => stopBringup t 10) s
    let s := haltRailsOff s 4
    { s with board := { s.board with afterFault := true } })

/-- CLK25_AON_LOST (R65, R107). -/
def execClk25AonLost (s : State) : Out :=
  .next (if s.mode == .off || !onF s R.bruBayId_clk25AonOk then s
    else raise (setFs s [(R.bruBayId_clk25AonOk, 0), (R.clkWatchSrc_onInternal, 1)]) 0x200B cPkg 0 0)

/-- CLK25_AON_RESTORED (R65). -/
def execClk25AonRestored (s : State) : Out :=
  .next (if s.mode == .off || onF s R.bruBayId_clk25AonOk then s
    else raise (setFs s [(R.bruBayId_clk25AonOk, 1), (R.clkWatchSrc_onInternal, 0)]) 0x200B cPkg 1 0)

/-- CORE_CLOCK_LOST (R65, R94, R105, R123): 0 CLK25_CORE, 1 CLK156. -/
def execCoreClockLost (clk : Nat) (s : State) : Out :=
  inModule s (fun s =>
    let s := setF s (if clk = 0 then R.bruBayId_clk25CoreOk else R.bruBayId_clk156Ok) 0 0
    if s.mode == .bringup then
      if s.bring.stopped then s else stopBringup (raise s 0x100D cPkg clk (modeCode s.mode)) 2
    else enterHalted (raise s 0x200C cPkg clk (modeCode s.mode)) 5 (losingNow s))

/-- PLL_UNLOCK (R108): a barn's PLL while any of its stalls runs, or 16, the base-die core PLL. In BRINGUP, from where R146
gives no way to HALTED for it, the unlock of the core PLL is recorded and raises its event (DESIGN CHOICE, assumption 154). -/
def execPllUnlock (pll : Nat) (s : State) : Out :=
  inModule s (fun s =>
    let runs := pll == 16 || (decide (pll < 16) && (List.range 32).any (fun i => isRunning (getStall s (32 * pll + i))))
    if !runs then s
    else
      let s := { s with gov := { s.gov with unlocked := pll :: s.gov.unlocked.filter (fun x => x != pll) } }
      let s := raise s 0x200D cPkg pll (modeCode s.mode)
      if s.mode == .bringup then s else enterHalted s 5 true)

/-- TELEMETRY_REFRESH (R67, R68, R75, R123): the page is refreshed, causes whose condition holds are set, and a newly set
voltage cause raises 0x2009 (DEDUCED, assumption 51). -/
def refresh (t : Telemetry) (s : State) : State :=
  let had := bit s.board.alerts 0
  let s := setF { s with board := { s.board with telem := t } } R.bruBayId_teamSenseLevel 0 (b2n t.teamSense)
  let s := setCauses (alertConditions s t) 0 s
  if bit s.board.alerts 0 && !had then raise s 0x2009 cPkg t.vin10mV (b2n (decide (6000 < t.vin10mV))) else s

def execTelemetryRefresh (t : Telemetry) (s : State) : Out :=
  .next (if s.mode == .off then s else refresh t s)

/-! ## The management bus page (R66 to R68) -/

/-- The static address of the management bus target, in both bus modes. -/
def busAddr : Nat := 0x3A

/-- The fields of the page: command code, bytes, content (R67, R83, R103). -/
def pageFields (s : State) : List (Nat × Nat × Nat) :=
  let t := s.board.telem
  [(0x00, 1, modeCode s.mode), (0x01, 1, getF s R.bruClass_class), (0x02, 2, t.vin10mV), (0x04, 2, t.iin10mA),
   (0x06, 2, t.pinW), (0x08, 2, getF s R.pwrBudget_budgetW), (0x0A, 1, ofSigned 8 t.tjC), (0x0B, 1, ofSigned 8 t.coolInC),
   (0x0C, 1, ofSigned 8 t.coolOutC), (0x0D, 1, ofSigned 8 t.dimmC), (0x0E, 2, s.board.alerts),
   (0x10, 16, leNat (slice Config.serial 0 16)), (0x20, 2, getF s R.bruBayId_bayNumber), (0x30, 2, s.board.alerts)]

/-- The byte of the page at a command code: bytes not listed read as zero (R67). -/
def pageByte (s : State) (a : Nat) : Byte :=
  match (pageFields s).find? (fun f => decide (f.1 ≤ a) && decide (a < f.1 + f.2.1)) with
  | some f => BitVec.ofNat 8 (f.2.2 / 256 ^ (a - f.1))
  | none => 0

/-- One step of the CRC-8 of SMBus packet error checking, x^8 + x^2 + x + 1 (PRESUMED, assumption 155). -/
def pecStep : Nat → Nat → Nat
  | 0, c => c
  | n + 1, c => pecStep n (if 128 ≤ c then Nat.xor (2 * c % 256) 7 else 2 * c)

/-- The packet error code of the bytes of a bus transfer. -/
def pec (b : Bytes) : Nat := b.foldl (fun c x => pecStep 8 (Nat.xor c x.toNat)) 0

/-- What a read of `n` bytes at a command code returns: the page, and in SMBus mode the packet error code (R66, R67). -/
def busRead (s : State) (code n : Nat) : Bytes :=
  let d := (List.range n).map (fun i => pageByte s (code + i))
  if s.board.busMode = 0 then d
  else d ++ leBytes 1 (pec (leBytes 1 (2 * busAddr) ++ leBytes 1 code ++ leBytes 1 (2 * busAddr + 1) ++ d))

/-- In SMBus mode a packet error code that the controller sends with a write is checked (R66). -/
def pecOk (s : State) (code w : Nat) (sent : Option Nat) : Bool :=
  s.board.busMode == 0 || sent.all (fun c => c == pec (leBytes 1 (2 * busAddr) ++ leBytes 1 code ++ leBytes 2 w))

/-- ALERT_CAUSE_CLEAR (R66, R67, R69). -/
def execAlertCauseClear (w : BusWrite) (s : State) : Out :=
  .next (if s.mode == .off || !pecOk s 0x30 w.value w.pec then s else clearCauses s w.value)

/-- I3C_DYNAMIC_ADDRESS (R66): only in I3C Basic mode. -/
def execI3cDynamicAddress (a : Nat) (s : State) : Out :=
  .next (if s.mode != .off && s.board.busMode == 0 then { s with board := { s.board with dynAddr := some a } } else s)

/-- TAP_INSTRUCTION (R70): the instruction register takes it. -/
def execTapInstruction (i : TapInstr) (s : State) : Out := .next { s with board := { s.board with tap := i } }

/-- The instruction that acts: outside WATCH every instruction but IDCODE acts as BYPASS (R70). -/
def tapActs (s : State) : TapInstr :=
  if s.mode == .watch || s.board.tap == .idcode then s.board.tap else .bypass

/-- Width of the instruction register (R70). -/
def tapIrWidth : Nat := 5

/-- What the test access port shifts out under IDCODE (R70): version, part, manufacturer, and the bit that is always 1. -/
def idcode : Nat := 0x1 * 2 ^ 28 + 0x4816 * 2 ^ 12 + 0x51F * 2 + 1

/-- The data register that the acting instruction selects, as its width and what it shifts out, where R70 gives it: IDCODE,
and the one bit of BYPASS. -/
def tapData (s : State) : Option (Nat × Nat) :=
  match tapActs s with
  | .idcode => some (32, idcode)
  | .bypass => some (1, 0)
  | _ => none

/-- DIE_THERMAL_TRIP (R122). In BRINGUP, which R146 leaves for HALTED only on a rail fault, bring-up does nothing further and
the rails go off (DESIGN CHOICE, assumption 154). -/
def execDieThermalTrip (d tj : Nat) (s : State) : Out :=
  onUnit 4 d s (fun s =>
    if tj < 115 then s
    else
      let s := raise (setF s R.pwrDie_tjC d tj) 0x2008 (cDie d) tj 115
      if s.mode == .bringup then dropRails { s with bring := { s.bring with stopped := true } }
      else haltRailsOff s 6)

end Sys2Proof.Machine
end

