-- ==== Sys2Proof/Machine/Attached.lean ====
section
/-! DEFINITION. Machine/Attached.lean: the host pluggable and the laser modules: what the module reads from them, whether they
are usable, and the controls it writes to them (R76, R78, R84, R387). -/
namespace Sys2Proof.Machine
open Sys2Proof

/-- An application of 800GBASE media with an 800GAUI-8 host interface of 8 lanes (R76). -/
def appFits (a : CmisApp) : Bool := a.media800 && a.gaui8 && a.lanes == 8

/-- A host pluggable is usable (R76), judged on the page that the command brings (DEDUCED, assumption 133). -/
def hostUsable (m : Pluggable) : Bool := m.osfp && decide (m.needMw ≤ 16000) && m.apps.any appFits

/-- The controls written to a pluggable (R76, R387, R389): one that needs more than 16 W is held in low power; to a usable
one the application is selected, with its advertised equalisation, and data path and lanes are enabled. Nothing gives the
software reset an occasion (DESIGN CHOICE, assumption 156). -/
def cmisFor (m : Pluggable) : CmisCtl :=
  if hostUsable m then
    { CmisCtl.reset with app := m.apps.findIdx? appFits, txEq := ((m.apps.find? appFits).map (fun a => a.txEq)).getD [] }
  else { CmisCtl.reset with lowPower := decide (16000 < m.needMw), dpDeinit := 255, txDisable := 255 }

/-- The host pluggable is read, and its controls written (R84, R387). -/
def readHost (s : State) (m : Pluggable) : State :=
  setFs { s with att := { s.att with host := some m, cmis := cmisFor m } }
    [(R.bruFit_hostModulePresent, 1), (R.bruFit_hostModuleUsable, b2n (hostUsable m))]

/-- A host pluggable that has failed stays in its cage, unusable. -/
def faultHost (s : State) : State :=
  setF { s with att := { s.att with cmis := { CmisCtl.reset with dpDeinit := 255, txDisable := 255 } } }
    R.bruFit_hostModuleUsable 0 0

/-- No host pluggable is there. -/
def dropHost (s : State) : State :=
  setFs { s with att := { s.att with host := none, cmis := CmisCtl.reset } }
    [(R.bruFit_hostModulePresent, 0), (R.bruFit_hostModuleUsable, 0)]

/-- The wavelengths of R77 in nm. -/
def wavelengths : List Nat := [1271, 1291, 1311, 1331]

/-- A laser module is usable (R78). -/
def laserUsable (m : LaserModule) : Bool :=
  m.outs.length == 12 && wavelengths.all (fun l => countIf m.outs (fun o => o.1 == l) == 3)
    && m.outs.all (fun o => decide (100 ≤ o.2)) && decide (m.drawMw ≤ 12000)

/-- The controls written to a laser module (R79, R387): every output of a usable one enabled, at 100 mW. -/
def laserFor (m : LaserModule) : LaserCtl :=
  if laserUsable m then ⟨2 ^ 12 - 1, List.replicate 12 100⟩ else ⟨0, []⟩

/-- BRU.FIT follows the laser modules attached (R79). -/
def showLasers (s : State) : State :=
  let mask := fun (p : Nat → Bool) => ((List.range 4).map (fun i => b2n (p i) * 2 ^ i)).sum
  setFs s [(R.bruFit_laserPresent, mask (fun i => (tget? s.att.lasers i).isSome)),
    (R.bruFit_laserUsable, mask (fun i => (tget? s.att.lasers i).any laserUsable && (tget? s.att.laserCtl i).isSome))]

/-- The laser module of a socket is read, and its controls written (R84, R387). -/
def readLaser (s : State) (i : Nat) (m : LaserModule) : State :=
  showLasers { s with att := { s.att with lasers := tset s.att.lasers i m, laserCtl := tset s.att.laserCtl i (laserFor m) } }

/-- A laser module that has failed stays in its socket, unusable. -/
def faultLaser (s : State) (i : Nat) : State :=
  showLasers { s with att := { s.att with laserCtl := tdel s.att.laserCtl i } }

/-- No laser module is in a socket. -/
def dropLaser (s : State) (i : Nat) : State :=
  showLasers { s with att := { s.att with lasers := tdel s.att.lasers i, laserCtl := tdel s.att.laserCtl i } }

/-- The socket that lights a fabric port holds a usable module (R78, R79). -/
def laserOk (s : State) (n : Nat) : Bool := bit (getF s R.bruFit_laserUsable) (n / 6)

end Sys2Proof.Machine
end

