-- ==== Sys2Proof/Machine/F32.lean ====
section
/-! DEFINITION. Machine/F32.lean: binary32 arithmetic, computed exactly and rounded once to nearest, ties to even (R247,
R249, R277, R281). Subnormals are kept; infinity and NaN codes mark results that trap (R269). -/
namespace Sys2Proof.Machine

/-! ## Exact values -/

/-- An exact value: sign and a ratio of whole numbers. -/
structure Exact where
  neg : Bool
  num : Nat
  den : Nat
  deriving DecidableEq, Repr

/-- The ratio m × 2^e. -/
def Exact.pow2 (neg : Bool) (m : Nat) (e : Int) : Exact :=
  if 0 ≤ e then ⟨neg, m * 2 ^ e.toNat, 1⟩ else ⟨neg, m, 2 ^ (-e).toNat⟩

/-- The exact product by 2^e. -/
def Exact.scale (v : Exact) (e : Int) : Exact :=
  if 0 ≤ e then { v with num := v.num * 2 ^ e.toNat } else { v with den := v.den * 2 ^ (-e).toNat }

/-- The value as a signed numerator over its denominator. -/
def Exact.signed (v : Exact) : Int := if v.neg then -(v.num : Int) else (v.num : Int)

/-- ⌊log2 (num / den)⌋ of a nonzero ratio. -/
def floorLog2 (num den : Nat) : Int :=
  let c : Int := (Nat.log2 num : Int) - (Nat.log2 den : Int)
  let fits := if 0 ≤ c then decide (den * 2 ^ c.toNat ≤ num) else decide (den ≤ num * 2 ^ (-c).toNat)
  if fits then c else c - 1

/-- How a nonzero magnitude lies between two neighbours of a format with `frac` fraction bits and smallest normal 2^emin:
the code of the lower neighbour, and what is left of one step as a ratio (R253). -/
def neighbours (frac : Nat) (emin : Int) (num den : Nat) : Nat × Nat × Nat :=
  let e := max (floorLog2 num den) emin
  let k := e - frac
  let n := if k < 0 then num * 2 ^ (-k).toNat else num
  let d := if k < 0 then den else den * 2 ^ k.toNat
  ((e - emin).toNat * 2 ^ frac + n / d, n % d, d)

/-- The code nearest to a magnitude, ties to the even code (R253). -/
def nearest (frac : Nat) (emin : Int) (num den : Nat) : Nat :=
  if num = 0 then 0
  else
    let (c, r, d) := neighbours frac emin num den
    if 2 * r < d then c else if 2 * r > d then c + 1 else if c % 2 = 0 then c else c + 1

/-! ## binary32 codes -/

/-- The sign bit. -/
def fneg? (a : F32) : Bool := bit a.toNat 31
/-- The magnitude's code. -/
def fmag (a : F32) : Nat := a.toNat % 2 ^ 31
/-- Neither infinity nor NaN. -/
def ffinite (a : F32) : Bool := decide (fmag a < 0x7F800000)
/-- ±0. -/
def fzero? (a : F32) : Bool := fmag a == 0
/-- A NaN code. -/
def fnan? (a : F32) : Bool := decide (0x7F800000 < fmag a)

/-- A code from its sign and magnitude. -/
def fcode (neg : Bool) (mag : Nat) : F32 := BitVec.ofNat 32 (b2n neg * 2 ^ 31 + mag)

/-- The code that stands for a NaN result until the trap records it. -/
def nanCode : F32 := 0x7FC00000
/-- +infinity. -/
def infCode : F32 := 0x7F800000
/-- 1.0. -/
def oneCode : F32 := 0x3F800000

/-- Significand and exponent of a finite magnitude code: m × 2^e. -/
def fparts (mag : Nat) : Nat × Int :=
  let e : Nat := mag / 2 ^ 23
  if e = 0 then (mag, -149) else (mag % 2 ^ 23 + 2 ^ 23, (e : Int) - 150)

/-- The exact value of a finite code. -/
def fexact (a : F32) : Exact := let p := fparts (fmag a); Exact.pow2 (fneg? a) p.1 p.2

/-- Round a magnitude to binary32 with a sign; past the largest finite value it is infinity. -/
def fround (neg : Bool) (num den : Nat) : F32 := fcode neg (min 0x7F800000 (nearest 23 (-126) num den))

/-- Round a signed ratio; a zero sum takes the sign given. -/
def froundInt (zeroNeg : Bool) (num : Int) (den : Nat) : F32 :=
  if num = 0 then fcode zeroNeg 0 else fround (decide (num < 0)) num.natAbs den

/-- The binary32 value of a whole number. -/
def fofInt (i : Int) : F32 := froundInt false i 1

/-- 2^e, for e within binary32's range. -/
def fpow2 (e : Int) : F32 := let v := Exact.pow2 false 1 e; fround false v.num v.den

/-! ## Arithmetic on finite operands -/

/-- −a. -/
def fopp (a : F32) : F32 := a ^^^ 0x80000000
/-- |a|. -/
def fabs (a : F32) : F32 := a &&& 0x7FFFFFFF

/-- a + b (R281). A sum of earlier sums that left the range stays infinite, or is NaN. -/
def fadd (a b : F32) : F32 :=
  if fnan? a || fnan? b then nanCode
  else if !ffinite a then (if !ffinite b && fneg? a != fneg? b then nanCode else a)
  else if !ffinite b then b
  else
    let x := fexact a
    let y := fexact b
    froundInt (fneg? a && fneg? b) (x.signed * y.den + y.signed * x.den) (x.den * y.den)

/-- a − b. -/
def fsub (a b : F32) : F32 := fadd a (fopp b)

/-- a × b. -/
def fmul (a b : F32) : F32 :=
  let x := fexact a
  let y := fexact b
  froundInt (fneg? a != fneg? b) (x.signed * y.signed) (x.den * y.den)

/-- The sum of a value and an integer, rounded once. -/
def faddInt (a : F32) (v : Int) : F32 :=
  if ffinite a then let x := fexact a; froundInt (fneg? a && decide (v < 0)) (x.signed + v * x.den) x.den else a

/-- a × b + c, rounded once. -/
def ffma (a b c : F32) : F32 :=
  let x := fexact a
  let y := fexact b
  let z := fexact c
  froundInt ((fneg? a != fneg? b) && fneg? c) (x.signed * y.signed * z.den + z.signed * (x.den * y.den))
    (x.den * y.den * z.den)

/-- a / b; b = 0 gives infinity or NaN. -/
def fdiv (a b : F32) : F32 :=
  let neg := fneg? a != fneg? b
  if fzero? b then (if fzero? a then nanCode else fcode neg 0x7F800000)
  else
    let x := fexact a
    let y := fexact b
    froundInt neg ((if neg then -1 else 1) * (x.num * y.den : Nat)) (x.den * y.num)

/-- A key that orders finite codes as the values they stand for, −0 just below +0. -/
def fkeyOrd (a : F32) : Int := if fneg? a then -(fmag a : Int) - 1 else (fmag a : Int)

/-- a > b as values (±0 are equal). -/
def fgt (a b : F32) : Bool := if fzero? a && fzero? b then false else decide (fkeyOrd b < fkeyOrd a)

/-- The larger; of −0 and +0 it is +0 (R281). -/
def fmax (a b : F32) : F32 := if fkeyOrd a < fkeyOrd b then b else a

/-- The smaller; of −0 and +0 it is −0 (R281). -/
def fmin (a b : F32) : F32 := if fkeyOrd b < fkeyOrd a then b else a

/-- a > 0. -/
def fpos (a : F32) : Bool := !fneg? a && !fzero? a

/-! ## Roots, powers and logarithms -/

/-- √(num / den) rounded to binary32: the root with 64 bits below its point beyond the result's, and a last bit that says
whether anything is left. -/
def froot (num den : Nat) : F32 :=
  let v := num * 2 ^ 512 / den
  let r := isqrt v
  let exact := decide (r * r * den = num * 2 ^ 512)
  fround false (2 * r + b2n (!exact)) (2 ^ 257)

/-- √a; of a negative value NaN. -/
def fsqrt (a : F32) : F32 :=
  if fzero? a then a else if fneg? a then nanCode else let x := fexact a; froot x.num x.den

/-- 1 / √a. -/
def frsqrt (a : F32) : F32 :=
  if fzero? a then fcode (fneg? a) 0x7F800000 else if fneg? a then nanCode
  else let x := fexact a; froot x.den x.num

/-- Bits kept below the point in powers and logarithms. No binary32 operand whose result is not exact comes within
2^−100 of a midpoint, so that the rounding of the kept value is the rounding of the exact one. -/
def fixBits : Nat := 192

/-- ln 2 in units of 2^−192. -/
def ln2Fix : Nat := 0xb17217f7d1cf79abc9e3b39803f2f6af40f343267298b62d

/-- Σ x^k / k! from a term on, in units of 2^−192. -/
def expSeries : Nat → Nat → Nat → Nat → Nat
  | 0, _, _, _ => 0
  | n + 1, k, term, x => term + expSeries n (k + 1) (term * x / 2 ^ fixBits / (k + 1)) x

/-- 2^a of a finite value (R281) (DEDUCED, assumption 145). -/
def fexp2 (a : F32) : F32 :=
  let x := fexact a
  let n := x.signed / (x.den : Int)
  let r := (x.signed % (x.den : Int)).toNat
  if 128 ≤ n then infCode
  else if n < -160 then 0
  else
    let y := if r = 0 then 2 ^ fixBits else expSeries 60 0 (2 ^ fixBits) (r * ln2Fix / x.den)
    let v := (Exact.mk false y (2 ^ fixBits)).scale n
    fround false v.num v.den

/-- e^a as 2^RNE(a × 0x3FB8_AA3B) (R281). -/
def fexp (a : F32) : F32 := fexp2 (fmul a 0x3FB8AA3B)

/-- Σ z^(2k+1) / (2k+1) from a term on, in units of 2^−192: the inverse hyperbolic tangent. -/
def atanhSeries : Nat → Nat → Nat → Nat → Nat
  | 0, _, _, _ => 0
  | n + 1, k, p, z2 => p / (2 * k + 1) + atanhSeries n (k + 1) (p * z2 / 2 ^ fixBits) z2

/-- log2 a (R281); of 0 −infinity, of a negative value NaN. -/
def flog2 (a : F32) : F32 :=
  if fzero? a then fcode true 0x7F800000
  else if fneg? a then nanCode
  else
    let x := fexact a
    let e := floorLog2 x.num x.den
    let y := (Exact.mk false x.num x.den).scale (-e)
    if y.num = y.den then fofInt e
    else
      let z := (y.num - y.den) * 2 ^ fixBits / (y.num + y.den)
      let l := 2 * atanhSeries 70 0 z (z * z / 2 ^ fixBits)
      froundInt false (e * (2 ^ fixBits : Nat) + ((l * 2 ^ fixBits / ln2Fix : Nat) : Int)) (2 ^ fixBits)

/-! ## Lane sums -/

/-- Pairwise sums of neighbours (R282). -/
def pairSums : List F32 → List F32
  | a :: b :: r => fadd a b :: pairSums r
  | l => l

/-- Nine levels of pairwise sums (R282). -/
def treeLevels : Nat → List F32 → List F32
  | 0, l => l
  | n + 1, l => treeLevels n (pairSums l)

/-- The tree sum of 512 lanes (R282). -/
def treeSum (l : List F32) : F32 := (treeLevels 9 l).headD 0

end Sys2Proof.Machine
end

