-- ==== Sys2Proof/Machine/Formats.lean ====
section
/-! DEFINITION. Machine/Formats.lean: the number formats, stored segments, rounding, block scales and analogue input codes
(R247 to R268), as functions of values alone. -/
namespace Sys2Proof.Machine

/-! ## Formats (R247) -/

/-- A floating-point format: fraction bits, exponent of the smallest normal, code of the largest finite magnitude, width in
bytes, and whether the code after the largest finite one is an infinity. -/
structure Fm where
  frac : Nat
  emin : Int
  top : Nat
  size : Nat
  inf : Bool
  deriving DecidableEq, Repr

/-- The formats by code. -/
def fm : Nat → Fm
  | 1 => ⟨3, -6, 0x7E, 1, false⟩
  | 2 => ⟨2, -14, 0x7B, 1, true⟩
  | 3 => ⟨7, -126, 0x7F7F, 2, true⟩
  | 4 => ⟨10, -14, 0x7BFF, 2, true⟩
  | 6 => ⟨15, -126, 0x7F7FFF, 3, true⟩
  | _ => ⟨23, -126, 0x7F7FFFFF, 4, true⟩

/-- FP8 formats carry a side area (R251). -/
def isFp8 (fmt : Nat) : Bool := fmt == 1 || fmt == 2

/-- Bytes of a segment (R251). -/
def segBytes (fmt : Nat) : Nat := if isFp8 fmt then 576 else 512 * (fm fmt).size

/-- Lines of 64 bytes of a segment. -/
def segLines (fmt : Nat) : Nat := segBytes fmt / 64

/-- The sign of a code. -/
def codeNeg (f : Fm) (c : Nat) : Bool := bit c (8 * f.size - 1)

/-- The magnitude of a code. -/
def codeMag (f : Fm) (c : Nat) : Nat := c % 2 ^ (8 * f.size - 1)

/-- The magnitude as m × 2^e. -/
def magParts (f : Fm) (m : Nat) : Nat × Int :=
  let e : Nat := m / 2 ^ f.frac
  if e = 0 then (m, f.emin - f.frac) else (m % 2 ^ f.frac + 2 ^ f.frac, f.emin - f.frac + ((e : Int) - 1))

/-- The exact value of a finite code. -/
def codeExact (f : Fm) (c : Nat) : Exact := let p := magParts f (codeMag f c); Exact.pow2 (codeNeg f c) p.1 p.2

/-- An exact value rounded to binary32. -/
def exactToF32 (v : Exact) : F32 := fround v.neg v.num v.den

/-- A value that stops a conversion or a decode (R255, R269): its kind (0 NaN, 1 +infinity, 2 −infinity, 3 E8M0 0xFF), its
bits, and the lane it stands in. -/
structure BadVal where
  kind : Nat
  value : Nat
  lane : Nat
  deriving DecidableEq, Repr

/-- The kind of a code that is not finite (PRESUMED, assumption 147). -/
def badKind (f : Fm) (c : Nat) : Nat :=
  if f.inf && codeMag f c == f.top + 1 then (if codeNeg f c then 2 else 1) else 0

/-- The kind of a binary32 code that is not finite. -/
def badKind32 (a : F32) : Nat := badKind (fm 5) a.toNat

/-! ## Decoding segments (R251, R255, R266, R267) -/

/-- Cut a run of bytes into pieces of `w`, at most `n` of them. -/
def pieces : Nat → Nat → Bytes → List Bytes
  | 0, _, _ => []
  | n + 1, w, b => b.take w :: pieces n w (b.drop w)

/-- Decode a run of codes, each with its scale exponent; `lane` numbers the first (DEDUCED, assumption 22). -/
def decodeCodes (f : Fm) : Nat → List (Nat × Int) → Except BadVal (List Exact)
  | _, [] => .ok []
  | lane, (c, e) :: r =>
    if f.top < codeMag f c then .error ⟨badKind f c, c, lane⟩
    else match decodeCodes f (lane + 1) r with
      | .ok l => .ok ((codeExact f c).scale e :: l)
      | .error b => .error b

/-- +0.0 in every lane. -/
def zeros (n : Nat) : List Exact := List.replicate n ⟨false, 0, 1⟩

/-- Decode a block of FP8 elements under one scale byte (R251, R266). -/
def decodeBlock (f : Fm) (lane scale : Nat) (els : Bytes) : Except BadVal (List Exact) :=
  if scale = 0xFF then .error ⟨3, 0xFF, lane⟩
  else if scale = 0 then .ok (zeros els.length)
  else decodeCodes f lane (els.map (fun b => (b.toNat, (scale : Int) - 127)))

/-- Put the outlier in its place (R267). -/
def withOutlier (lane scale ix val : Nat) (l : List Exact) : Except BadVal (List Exact) :=
  if !bit ix 7 || scale == 0 then .ok l
  else if (fm 3).top < codeMag (fm 3) val then .error ⟨badKind (fm 3) val, val, lane + ix % 32⟩
  else .ok (l.set (ix % 32) (codeExact (fm 3) val))

/-- The element bytes of a sub-block that are decoded as elements: a valid outlier takes the place of its own (R267). -/
def plainEls (ix : Nat) (els : Bytes) : Bytes := if bit ix 7 then els.set (ix % 32) 0 else els

/-- Decode the sub-blocks of an MX segment, from sub-block `i` on. -/
def decodeMx (f : Fm) (side : Bytes) : Nat → List Bytes → Except BadVal (List Exact)
  | _, [] => .ok []
  | i, els :: r =>
    let scale := fieldAt side i 1
    match decodeBlock f (32 * i) scale (plainEls (fieldAt side (16 + i) 1) els) with
    | .error b => .error b
    | .ok l =>
      match withOutlier (32 * i) scale (fieldAt side (16 + i) 1) (fieldAt side (32 + 2 * i) 2) l with
      | .error b => .error b
      | .ok l =>
        match decodeMx f side (i + 1) r with
        | .error b => .error b
        | .ok t => .ok (l ++ t)

/-- Decode a segment; an FP8 segment's layout is taken from its side area alone (R251). -/
def decodeSeg (fmt : Nat) (b : Bytes) : Except BadVal (List Exact) :=
  let f := fm fmt
  if isFp8 fmt then
    let side := slice b 512 64
    if zeroAt side 1 63 then decodeBlock f 0 (fieldAt side 0 1) (slice b 0 512)
    else decodeMx f side 0 (pieces 16 32 (slice b 0 512))
  else decodeCodes f 0 ((pieces 512 f.size (slice b 0 (512 * f.size))).map (fun x => (leNat x, 0)))

/-! ## Rounding (R253, R254) -/

/-- Round a magnitude to a format: `none` to nearest, `some r` stochastically with the generator's output r. Answers the
magnitude's code and whether it saturated. -/
def roundMag (f : Fm) (r : Option Nat) (num den : Nat) : Nat × Bool :=
  if num = 0 then (0, false)
  else
    match r with
    | none => let m := nearest f.frac f.emin num den; if f.top < m then (f.top, true) else (m, false)
    | some r =>
      let (c, q, d) := neighbours f.frac f.emin num den
      if f.top < c ∨ (c = f.top ∧ 0 < q) then (f.top, true)
      else if r < q * 2 ^ 32 / d then (c + 1, false) else (c, false)

/-- Put a sign on a magnitude's code. -/
def signCode (f : Fm) (neg : Bool) (m : Nat) : Nat := b2n neg * 2 ^ (8 * f.size - 1) + m

/-- Round an exact value to a format's code. -/
def roundCode (f : Fm) (r : Option Nat) (v : Exact) : Nat × Bool :=
  let m := roundMag f r v.num v.den
  (signCode f v.neg m.1, m.2)

/-! ## The generator (R257, R258) -/

/-- One fold of the generator. -/
def srFold (h w : Nat) : Nat :=
  let h := Nat.xor h (w % 2 ^ 64)
  let h := Nat.xor h (h / 2 ^ 32)
  let h := h * 0x9F3C27D51B8E46A1 % 2 ^ 64
  let h := Nat.xor h (h / 2 ^ 29)
  let h := h * 0xC2B75E930D64F18B % 2 ^ 64
  Nat.xor h (h / 2 ^ 32)

/-- The generator's 32 bits. -/
def srBits (seed w0 w1 w2 : Nat) : Nat := srFold (srFold (srFold (seed % 2 ^ 64) w0) w1) w2 / 2 ^ 32

/-- The counter words w0 and w1. -/
def srW0 (step layer kind tensor site : Nat) : Nat :=
  step % 2 ^ 40 * 2 ^ 24 + layer % 512 * 2 ^ 15 + kind % 16 * 2 ^ 11 + tensor % 16 * 2 ^ 7 + site % 128

/-- The word w1 of a value that belongs to an expert, or to none. -/
def srW1 : Option Nat → Nat
  | none => 0
  | some e => 2 ^ 16 + e % 2 ^ 16

/-- The element index w2. -/
def srW2 (hi lo : Nat) : Nat := (hi * 2 ^ 24 + lo) % 2 ^ 64

/-! ## Scales (R262, R264) -/

/-- The largest finite value of an FP8 format. -/
def fp8Max (fmt : Nat) : Nat := if fmt = 1 then 448 else 57344

/-- ⌈log2 (num / den)⌉ of a nonzero ratio. -/
def ceilLog2 (num den : Nat) : Int :=
  let e := floorLog2 num den
  let v := (Exact.mk false num den).scale (-e)
  if v.num = v.den then e else e + 1

/-- A number held within bounds. -/
def clampInt (lo hi v : Int) : Int := max lo (min hi v)

/-- The exponent e of R262 for a largest value `amax` and a margin g. -/
def delayedExp (fmt g : Nat) (amax : F32) : Int :=
  let a := (fexact amax).scale g
  clampInt (-126) 127 (ceilLog2 a.num (a.den * fp8Max fmt))

/-- The exponent of X for a sub-block's `amax` (R264). -/
def mxExp (fmt : Nat) (amax : F32) : Int :=
  let a := fexact amax
  clampInt (-126) 127 (floorLog2 a.num a.den - (if fmt = 1 then 8 else 15))

/-- Whether a nonzero value is eclipsed under the scale exponent e (R265) (DEDUCED, assumption 23). -/
def eclipsed (fmt : Nat) (e : Int) (a : F32) : Bool :=
  let v := (fexact a).scale (-e)
  decide (0 < v.num) && decide (v.num * 2 ^ (if fmt = 1 then 10 else 17) < v.den)

/-! ## Encoding segments -/

/-- What a conversion gave: the bytes, the counts of R268, and the largest magnitudes in and out (R261). -/
structure Conv where
  bytes : Bytes
  sat : Nat
  ecl : Nat
  car : Nat
  amaxIn : F32
  amaxOut : F32
  deriving DecidableEq, Repr

/-- The larger of two magnitudes. -/
def magMax (a b : F32) : F32 := if a.toNat < b.toNat then b else a

/-- The largest magnitude of a list. -/
def amaxOf (l : List F32) : F32 := l.foldl (fun m a => magMax m (fabs a)) 0

/-- One converted element: its code, whether it saturated, whether it was eclipsed. -/
def convEl (fmt : Nat) (e : Int) (r : Option Nat) (a : F32) : Nat × Bool × Bool :=
  let f := fm fmt
  if isFp8 fmt && eclipsed fmt e a then (signCode f (fneg? a) 0, false, true)
  else let c := roundCode f r ((fexact a).scale (-e)); (c.1, c.2, false)

/-- A scaled magnitude above an FP8 format's largest finite value: R264 counts it as saturated however it rounds. -/
def pastTop (fmt : Nat) (e : Int) (a : F32) : Bool :=
  let v := (fexact a).scale (-e)
  decide (fp8Max fmt * v.den < v.num)

/-- The elements of a list from lane `lane` on, with the generator's outputs. -/
def convEls (fmt : Nat) (e : Int) (rnd : Nat → Option Nat) : Nat → List F32 → List (Nat × Bool × Bool)
  | _, [] => []
  | lane, a :: r => convEl fmt e (rnd lane) a :: convEls fmt e rnd (lane + 1) r

/-- The elements of an MX sub-block (R264). -/
def mxEls (fmt : Nat) (e : Int) (rnd : Nat → Option Nat) (lane : Nat) (l : List F32) : List (Nat × Bool × Bool) :=
  List.zipWith (fun a x => (x.1, x.2.1 || pastTop fmt e a, x.2.2)) l (convEls fmt e rnd lane l)

/-- Count and lay out converted elements under one scale exponent. -/
def gather (fmt : Nat) (e : Int) (els : List (Nat × Bool × Bool)) (amaxIn : F32) : Conv :=
  let f := fm fmt
  { bytes := els.flatMap (fun x => leBytes f.size x.1), sat := countIf els (fun x => x.2.1),
    ecl := countIf els (fun x => x.2.2), car := 0, amaxIn := amaxIn,
    amaxOut := amaxOf (els.map (fun x => exactToF32 ((codeExact f x.1).scale e))) }

/-- Index of the largest magnitude, the lower index on a tie. -/
def argMax (l : List F32) : Nat := (l.findIdx? (fun a => fabs a == amaxOf l)).getD 0

/-- A converted sub-block: scale byte, outlier index byte, outlier value, and the rest. -/
structure SubBlock where
  scale : Nat
  ix : Nat
  val : Nat
  conv : Conv
  deriving DecidableEq, Repr

/-- Convert a sub-block of 32 elements whose first lane is `lane` (R264 to R267). -/
def convSub (fmt : Nat) (carry : Bool) (rnd : Nat → Option Nat) (lane : Nat) (l : List F32) : SubBlock :=
  let amax := amaxOf l
  if fzero? amax then
    { scale := 0, ix := 0, val := 0, conv := ⟨List.replicate 32 0, 0, 0, 0, 0, 0⟩ }
  else
    let e := mxExp fmt amax
    let k := argMax l
    let rest := l.set k 0
    if carry && rest.any (eclipsed fmt e) && !fzero? (amaxOf rest) then
      let big := l.getD k 0
      let v := roundCode (fm 3) (rnd (lane + k)) (fexact big)
      let e := mxExp fmt (amaxOf rest)
      let els := (mxEls fmt e rnd lane rest).set k (0, false, false)
      let g := gather fmt e els amax
      { scale := (e + 127).toNat, ix := 128 + k, val := v.1,
        conv := { g with sat := g.sat + b2n v.2, car := 1,
                         amaxOut := magMax g.amaxOut (fabs (exactToF32 (codeExact (fm 3) v.1))) } }
    else { scale := (e + 127).toNat, ix := 0, val := 0, conv := gather fmt e (mxEls fmt e rnd lane l) amax }

/-- The sub-blocks of a segment, from sub-block `i` on. -/
def convSubs (fmt : Nat) (carry : Bool) (rnd : Nat → Option Nat) : Nat → Nat → List F32 → List SubBlock
  | 0, _, _ => []
  | n + 1, i, l => convSub fmt carry rnd (32 * i) (l.take 32) :: convSubs fmt carry rnd n (i + 1) (l.drop 32)

/-- An MX segment: elements, then scales, outlier indices and outlier values (R251). -/
def convMx (fmt : Nat) (carry : Bool) (rnd : Nat → Option Nat) (l : List F32) : Conv :=
  let b := convSubs fmt carry rnd 16 0 l
  { bytes := b.flatMap (fun x => x.conv.bytes) ++ b.flatMap (fun x => leBytes 1 x.scale)
      ++ b.flatMap (fun x => leBytes 1 x.ix) ++ b.flatMap (fun x => leBytes 2 x.val),
    sat := (b.map (fun x => x.conv.sat)).sum, ecl := (b.map (fun x => x.conv.ecl)).sum,
    car := (b.map (fun x => x.conv.car)).sum, amaxIn := amaxOf l,
    amaxOut := amaxOf (b.map (fun x => x.conv.amaxOut)) }

/-- A non-MX FP8 segment under scale exponent `e` (R251, R262, R266). -/
def convFp8 (fmt : Nat) (e : Int) (rnd : Nat → Option Nat) (l : List F32) : Conv :=
  if fzero? (amaxOf l) then ⟨List.replicate 576 0, 0, 0, 0, 0, 0⟩
  else
    let g := gather fmt e (convEls fmt e rnd 0 l) (amaxOf l)
    { g with bytes := g.bytes ++ leBytes 1 (e + 127).toNat ++ List.replicate 63 0 }

/-- A segment in a wider format, which has no scale (R251). -/
def convWide (fmt : Nat) (rnd : Nat → Option Nat) (l : List F32) : Conv :=
  gather fmt 0 (convEls fmt 0 rnd 0 l) (amaxOf l)

/-- The first value of a list that is not finite (R255). -/
def firstBad : Nat → List F32 → Option BadVal
  | _, [] => none
  | lane, a :: r => if ffinite a then firstBad (lane + 1) r else some ⟨badKind32 a, a.toNat, lane⟩

/-! ## Analogue input codes (R260) -/

/-- The exponent e of a segment: the smallest with amax ≤ 127 × 2^e, from −149 to 127. -/
def codeExp (amax : F32) : Int := let a := fexact amax; clampInt (-149) 127 (ceilLog2 a.num (a.den * 127))

/-- The magnitude of a code: |a| / 2^e rounded to a whole number (R253), at most 127. -/
def analogueMag (e : Int) (r : Option Nat) (a : F32) : Nat :=
  let v := (fexact a).scale (-e)
  let q := v.num / v.den
  let rem := v.num % v.den
  let up := match r with
    | none => decide (v.den < 2 * rem) || (2 * rem == v.den && q % 2 == 1)
    | some r => decide (r < rem * 2 ^ 32 / v.den)
  min 127 (if up then q + 1 else q)

/-- The codes of a list from lane `lane` on. -/
def analogueEls (e : Int) (rnd : Nat → Option Nat) : Nat → List F32 → List Int
  | _, [] => []
  | lane, a :: r =>
    let m := analogueMag e (rnd lane) a
    (if fneg? a then -(m : Int) else (m : Int)) :: analogueEls e rnd (lane + 1) r

/-- A converted segment of tile input: codes and scale; counts as `Conv` keeps them. -/
structure Codes where
  codes : List Int
  scale : F32
  ecl : Nat
  amaxIn : F32
  amaxOut : F32
  deriving DecidableEq, Repr

/-- Convert a segment to tile input (R260). -/
def analogueCodes (rnd : Nat → Option Nat) (l : List F32) : Codes :=
  let amax := amaxOf l
  if fzero? amax then ⟨l.map (fun _ => 0), 0, 0, 0, 0⟩
  else
    let e := codeExp amax
    let c := analogueEls e rnd 0 l
    { codes := c, scale := fpow2 e, ecl := countIf (l.zip c) (fun x => !fzero? x.1 && x.2 == 0), amaxIn := amax,
      amaxOut := exactToF32 ((Exact.mk false ((c.map Int.natAbs).foldl max 0) 1).scale e) }

end Sys2Proof.Machine
end

