-- ==== Sys2Proof/Machine/Numeric.lean ====
section
/-! DEFINITION. Machine/Numeric.lean: the first-NaN trap, instruction faults, and conversions under the job's rules, with
their histories, counts and alarms (R256 to R271, R289). -/
namespace Sys2Proof.Machine
open Sys2Proof

/-! ## Traps and faults -/

/-- The stalls that hold a trap record. -/
def trapped (s : State) : Bool := onF s R.fmtStatus_trapped

/-- Record the first trap since the last gate in a stall (R269, R270); `shown` are the bits that event 0x6001 gives. -/
def trapShown (s : State) (p source operand kind layer instr tile elem value shown : Nat) : State :=
  let s := modStall s p (fun t => { t with stop := true })
  if onF s R.fmtTrapA_valid p then s
  else
    let s := [(R.fmtTrapA_valid, 1), (R.fmtTrapA_source, source), (R.fmtTrapA_operand, operand),
      (R.fmtTrapA_valueKind, kind), (R.fmtTrapA_layer, layer), (R.fmtTrapA_instr, instr), (R.fmtTrapA_tile, tile),
      (R.fmtTrapB_element, elem), (R.fmtTrapC_watchLo, s.now), (R.fmtTrapC_value, value)].foldl
      (fun t x => setF t x.1 p x.2) s
    let first := !onF s R.fmtTrapFirst_valid
      || (getF s R.fmtTrapFirst_watch == s.now % 2 ^ 54 && decide (p < getF s R.fmtTrapFirst_stall))
    let s := when first (fun s => setFs s [(R.fmtTrapFirst_valid, 1), (R.fmtTrapFirst_stall, p),
      (R.fmtTrapFirst_watch, s.now)]) s
    let s := setFs s [(R.fmtStatus_trapped, 1), (R.fmtStatus_trappedStalls, getF s R.fmtStatus_trappedStalls + 1)]
    raise s 0x6001 (cStall p) (layer * 2 ^ 16 + source * 2 ^ 13 + instr) shown

/-- A trap whose event gives the bits that its record holds; 0 for a scale byte. -/
def trap (s : State) (p source operand kind layer instr tile elem value : Nat) : State :=
  trapShown s p source operand kind layer instr tile elem value (if kind = 3 then 0 else value)

/-- FREE VALUE: the bits of a NaN that a unit formed. The module defines no NaN payload (R255) (DESIGN CHOICE, assumption 21). -/
def freeNan (s : State) : Nat :=
  let v := Config.freeNat s.draws 255
  v / 2 ^ 23 % 2 * 2 ^ 31 + 0x7F800001 + v % (2 ^ 23 - 1)

/-- The bits a trap records for a result: its own if infinite, a free NaN otherwise. -/
def trapBits (s : State) (a : F32) : State × Nat := if fnan? a then (draw s, freeNan s) else (s, a.toNat)

/-- The value of a decode that is not finite as binary32 bits, 0 for a scale byte; a NaN of a narrower format has free bits. -/
def badBits (s : State) (b : BadVal) : State × Nat :=
  match b.kind with
  | 1 => (s, 0x7F800000)
  | 2 => (s, 0xFF800000)
  | 3 => (s, 0)
  | _ => if 0x7F800000 < b.value % 2 ^ 31 then (s, b.value) else (draw s, freeNan s)

/-- A trap on a decode: the record holds the source pattern (FMT.TRAP_C), the event the value as binary32 bits; `operand` is
that of an element, 3 that of a scale byte. -/
def trapDecode (s : State) (p source operand layer instr tile elem : Nat) (v : BadVal) : State :=
  let b := badBits s v
  trapShown b.1 p source (if v.kind = 3 then 3 else operand) v.kind layer instr tile elem v.value b.2

/-- Stop a stall, and hold the gate window of the step (R270, R289). -/
def stopStall (s : State) (p : Nat) : State := holdGate (modStall s p (fun t => { t with stop := true }))

/-- An instruction that breaks a limit at run time (R289): statuses 3 RANGE, 4 FORMAT, 7 FAULTED, 8 ABSENT. -/
def instrFault (s : State) (p status opcode instr detail : Nat) : State :=
  let s := stopStall s p
  if onF s R.genFault_valid p then s
  else
    let s := [(R.genFault_valid, 1), (R.genFault_status, status), (R.genFault_opcode, opcode),
      (R.genFault_instr, instr), (R.genFault_detail, detail), (R.genStall_faulted, 1)].foldl
      (fun t x => setF t x.1 p x.2) s
    raise s 0x7001 (cStall p) (status * 2 ^ 24 + opcode * 2 ^ 16 + instr) detail

/-! ## Rules and rounding -/

/-- Narrow mode (R272). -/
def narrow (s : State) : Bool := onF s R.fmtStatus_numericMode

/-- The module runs backward (GEN.PASS). -/
def inBackward (s : State) : Bool := getF s R.genPass_pass == 2

/-- The present step number. -/
def stepNo (s : State) : Nat := getF s R.gteStep_step

/-- Whether a conversion of a kind rounds stochastically (R256); `mode` 1 is a transpose. -/
def stochastic (s : State) (kind mode : Nat) : Bool :=
  if narrow s then true
  else match kind with
    | 0 => false
    | 3 => inBackward s
    | 4 => false
    | 5 => mode == 1
    | 6 => false
    | _ => true

/-- What names a conversion besides its element (R258). -/
structure Site where
  layer : Nat
  tensor : Nat
  expert : Option Nat
  site : Nat
  deriving DecidableEq, Repr

/-- The generator's output for an element, where the conversion rounds stochastically (R257). -/
def rndOf (s : State) (kind mode : Nat) (c : Site) (w2 : Nat → Nat) (lane : Nat) : Option Nat :=
  if stochastic s kind mode then
    some (srBits (getF s R.fmtSeed_jobSeed) (srW0 (stepNo s) c.layer kind c.tensor c.site) (srW1 c.expert) (w2 lane))
  else none

/-- The FORMATS rule of a layer and cls (R169). -/
def fmtRule (s : State) (layer cls : Nat) : FmtRule :=
  let l := (s.job.image.map (fun i => i.formats)).getD []
  ((l.find? (fun r => r.cls == cls && r.layer == layer)) <|> (l.find? (fun r => r.cls == cls && r.layer == 0xFFFF))).getD
    ⟨0xFFFF, cls, 5, false, false⟩

/-- The table index of a layer and cls. -/
def lcKey (layer cls : Nat) : Nat := 8 * layer + cls

/-- The largest value of the last H entries of a history as it stood at the gate commit (R261, R262). -/
def histMax (s : State) (layer cls : Nat) : F32 :=
  amaxOf ((tget [] s.fmt.atCommit (lcKey layer cls)).take (getF s R.fmtCtl_histLenM1 + 1))

/-- Scale exponent of a non-MX FP8 conversion (R262, R263), with event 0x6006 for current scaling. -/
def fp8Exp (s : State) (layer cls fmt : Nat) (amax : F32) : State × Int :=
  let h := histMax s layer cls
  let g := getF s R.fmtCtl_margin
  if fzero? h then
    (raiseOnce s 0x6006 (lcKey layer cls) cPkg (layer * 2 ^ 8 + cls)
      (b2n !(tget [] s.fmt.atCommit (lcKey layer cls)).isEmpty), delayedExp fmt g amax)
  else (s, delayedExp fmt g h)

/-! ## Counts (R261, R268) -/

/-- One alarm of R268: raised once per (layer, cls) per step when its count reaches it; 0 disables. -/
def convAlarm (s : State) (alarm : Field) (code layer cls count : Nat) : State :=
  let a := getF s alarm
  if 0 < a ∧ a ≤ count then raiseOnce s code (lcKey layer cls) cPkg (layer * 2 ^ 8 + cls) count else s

/-- Take a conversion into the maxima and counts of its (layer, cls) (DEDUCED, assumption 142). -/
def tally (s : State) (layer cls : Nat) (sat ecl car : Nat) (amaxIn amaxOut : F32) : State :=
  let k := lcKey layer cls
  let f := s.fmt
  let f := { f with amaxIn := tset f.amaxIn k (magMax (tget 0 f.amaxIn k) amaxIn),
                    amaxOut := tset f.amaxOut k (magMax (tget 0 f.amaxOut k) amaxOut),
                    ran := if f.ran.contains k then f.ran else k :: f.ran,
                    sat := tput 0 f.sat k (tget 0 f.sat k + sat), ecl := tput 0 f.ecl k (tget 0 f.ecl k + ecl),
                    car := tput 0 f.car k (tget 0 f.car k + car) }
  let s := bumpF (bumpF (bumpF { s with fmt := f } R.fmtCount_saturated 0 sat) R.fmtCount_eclipsed 0 ecl)
    R.fmtCount_carried 0 car
  let s := convAlarm s R.fmtAlarm_satAlarm 0x6002 layer cls (tget 0 f.sat k)
  let s := convAlarm s R.fmtAlarm_eclipseAlarm 0x6003 layer cls (tget 0 f.ecl k)
  convAlarm s R.fmtAlarm_outlierAlarm 0x6004 layer cls (tget 0 f.car k)

/-- Saturated results of a conversion that belongs to no cls count in the module's total alone (R254, R268). -/
def countSat (s : State) (n : Nat) : State := bumpF s R.fmtCount_saturated 0 n

/-- Convert 512 finite values to a segment by the rule of (layer, cls) (R247 to R268). -/
def convertRule (s : State) (cls kind mode : Nat) (c : Site) (w2 : Nat → Nat) (l : List F32) : State × Bytes :=
  let r := fmtRule s c.layer cls
  let rnd := rndOf s kind mode c w2
  if isFp8 r.format && !r.mx then
    let e := fp8Exp s c.layer cls r.format (amaxOf l)
    let v := convFp8 r.format e.2 rnd l
    (tally e.1 c.layer cls v.sat v.ecl v.car v.amaxIn v.amaxOut, v.bytes)
  else
    let v := if r.mx then convMx r.format r.carry rnd l else convWide r.format rnd l
    (tally s c.layer cls v.sat v.ecl v.car v.amaxIn v.amaxOut, v.bytes)

/-- Bytes of a segment by the rule of (layer, cls). -/
def ruleBytes (s : State) (layer cls : Nat) : Nat := segBytes (fmtRule s layer cls).format

end Sys2Proof.Machine
end

