-- ==== Sys2Proof/Machine/Array.lean ====
section
/-! DEFINITION. Machine/Array.lean: levels of the cell pairs, the values a tile derives from them, trims, wear, stuck pairs,
and the writing of rows (R186 to R188, R219, R236 to R243). -/
namespace Sys2Proof.Machine
open Sys2Proof

/-! ## Levels (R186, R188) -/

/-- Number of the first pair of a row of a tile. -/
def rowKey (tile r : Nat) : Nat := (tile * 512 + r) * 528

/-- The level a pair holds while it is not listed: zero once the tile was written or scrubbed, otherwise what the test
patterns of bring-up left. -/
def baseLevel (s : State) (tile r c : Nat) : Int :=
  if s.nv.zeroed.contains tile then 0 else max (-31) (min 31 (Config.patternLevel tile (528 * r + c)))

/-- The level of a data pair. -/
def level (s : State) (tile r c : Nat) : Int := (tget? s.nv.level (rowKey tile r + c)).getD (baseLevel s tile r c)

/-- The levels of the 512 data pairs of a row. -/
def rowLevels (s : State) (tile r : Nat) : List Int :=
  let k := rowKey tile r
  let l := s.nv.level.filter (fun e => k ≤ e.1 && e.1 < k + 528)
  (List.range 512).map (fun c => (tget? l (k + c)).getD (baseLevel s tile r c))

/-- Sum of a list of levels. -/
def levelSum (l : List Int) : Int := l.foldl (fun a b => a + b) 0

/-- Cut a list into pieces of `w`. -/
def chunks {α : Type} : Nat → Nat → List α → List (List α)
  | 0, _, _ => []
  | n + 1, w, l => l.take w :: chunks n w (l.drop w)

/-- s_rk for the eight checksum groups of a row. -/
def groupSums (l : List Int) : List Int := (chunks 8 64 l).map levelSum

/-- The checksum levels c_rk of a row. -/
def checkLevels (l : List Int) : List Int := (groupSums l).map (fun v => (v + 32) / 64)

/-- The checksum residuals e_rk of a row. -/
def residuals (l : List Int) : List Int := (groupSums l).map (fun v => v - 64 * ((v + 32) / 64))

/-- The levels of the reference columns. -/
def refLevels : List Int := [-14, -10, -6, -2, 2, 6, 10, 14]

/-- The 528 pairs of a row. -/
def physRow (s : State) (tile r : Nat) : List Int :=
  let l := rowLevels s tile r
  l ++ checkLevels l ++ refLevels

/-- m_r. -/
def rowMax (s : State) (tile r : Nat) : Nat := ((rowLevels s tile r).map Int.natAbs).foldl max 0

/-- The levels of a data column. -/
def colLevels (s : State) (tile c : Nat) : List Int :=
  let l := s.nv.level.filter (fun e => e.1 / 270336 == tile && e.1 % 528 == c)
  (List.range 512).map (fun r => (tget? l (rowKey tile r + c)).getD (baseLevel s tile r c))

/-- m'_c. -/
def colMax (s : State) (tile c : Nat) : Nat := ((colLevels s tile c).map Int.natAbs).foldl max 0

/-- S_c as the levels give it. -/
def colSumExact (s : State) (tile c : Nat) : Int := levelSum (colLevels s tile c)

/-- S_c as the tile holds it: what was derived last, by its own sum or afresh from the record (R188, R424) (DEDUCED, assumption 26). -/
def colSum (s : State) (tile c : Nat) : Int := colSumExact s tile c + tget 0 s.cal.sumErr (tile * 512 + c)

/-! ## Trim entries (R219, R245) -/

/-- Number of a sense line among a tile's 1,040 trim entries: columns first, then rows. -/
def rowLine (r : Nat) : Nat := 528 + r

/-- A trim entry that nothing has measured: gain 1, offset 0 (DESIGN CHOICE, assumption 20). -/
def nominalTrim : Nat := 32768

/-- The trim entry of a line. -/
def trimOf (s : State) (tile line : Nat) : Nat := tget nominalTrim s.cal.trim (tile * 1040 + line)

/-- The gain t_l of an entry. -/
def trimGain (e : Nat) : Int := (bits e 15 0 : Nat)

/-- The offset o_l of an entry. -/
def trimOffset (e : Nat) : Int := toSigned 12 (bits e 27 16)

/-- Lay out an entry. -/
def trimEntry (gain : Nat) (off : Int) : Nat := gain % 2 ^ 16 + ofSigned 12 off * 2 ^ 16

/-- T_l of an accumulator at gain `t` (R201). -/
def trimmed (t a : Int) : Int := (t * a + 2 ^ 14) / 2 ^ 15

/-- Set a trim entry. -/
def setTrim (s : State) (tile line e : Nat) : State :=
  { s with cal := { s.cal with trim := tput nominalTrim s.cal.trim (tile * 1040 + line) e } }

/-! ## Numbers of a tile's registers -/

/-- K = 1024 >> range_code (R192). -/
def convK (s : State) (tile : Nat) : Nat := 1024 / 2 ^ getF s R.tilConv_rangeCode tile

/-- The tile's weight step. -/
def wstepOf (s : State) (tile : Nat) : F32 := BitVec.ofNat 32 (getF s R.tilWstep_wstep tile)

/-! ## Wear (R241, R242) -/

/-- One advance of the 32-bit generator of R241. -/
def xorshift (x : Nat) : Nat :=
  let x := Nat.xor x (x * 2 ^ 13 % 2 ^ 32)
  let x := Nat.xor x (x / 2 ^ 17)
  Nat.xor x (x * 2 ^ 5 % 2 ^ 32)

/-- A tile's generator state: its seed is set at manufacture, and the manual gives none. -/
def wearX (s : State) (tile : Nat) : Nat := (tget? s.nv.wearX tile).getD (Config.wearSeed tile % 2 ^ 32)

/-- Number of a pair among all pairs, 528 to a row. -/
def pairKey (tile pair : Nat) : Nat := tile * 270336 + pair

/-- A pair's wear count: flushed and queued. -/
def wearCount (s : State) (tile pair : Nat) : Nat :=
  min 255 (tget 0 s.nv.wear (pairKey tile pair) + tget 0 s.nv.wearQueue (pairKey tile pair))

/-- A tile's largest wear, its pair, and the events of R242 after one increment (DEDUCED, assumption 31). -/
def wearShow (s : State) (tile pair : Nat) : State :=
  let n := wearCount s tile pair
  let p := tile / 34
  let t := tile % 34
  let s := when (decide (getF s R.calTileWear_wearMax tile < n))
    (fun s => setF (setF s R.calTileWear_wearMax tile n) R.calTileWear_wearMaxPair tile pair) s
  let s := when (decide (n = getF s R.calWear_wearWarn))
    (fun s => raiseOnce s 0x5008 tile (cTile p t) n pair) s
  if n = getF s R.calWear_wearLimit ∧ !onF s R.calTileWear_worn tile then
    raise (setF s R.calTileWear_worn tile 1) 0x5009 (cTile p t) n pair
  else s

/-- One pulse to a pair. -/
def pulse (s : State) (tile pair : Nat) : State :=
  let x := xorshift (wearX s tile)
  let s := { s with nv := { s.nv with wearX := tset s.nv.wearX tile x } }
  if x / 2 ^ 20 = 0 then
    let k := pairKey tile pair
    wearShow { s with nv := { s.nv with wearQueue := tset s.nv.wearQueue k (tget 0 s.nv.wearQueue k + 1) } } tile pair
  else s

/-- `n` pulses to a pair. -/
def pulses : Nat → State → Nat → Nat → State
  | 0, s, _, _ => s
  | n + 1, s, tile, pair => pulses n (pulse s tile pair) tile pair

/-- Flush the queued increments to the wear store (R241). -/
def wearFlush (s : State) : State :=
  let w := s.nv.wearQueue.foldl (fun m e => tput 0 m e.1 (min 255 (tget 0 m e.1 + e.2))) s.nv.wear
  { s with nv := { s.nv with wear := w, wearQueue := [] }, cal := { s.cal with lastFlush := s.now } }

/-! ## Stuck pairs (R239) -/

/-- A tile's stuck pairs, oldest first, as 528 row + column. -/
def stuckOf (s : State) (tile : Nat) : List Nat :=
  (s.nv.stuck.filter (fun k => k / 270336 == tile)).map (fun k => k % 270336)

/-- Forget a tile's stuck pairs: a full write rewrites every pair. -/
def clearStuck (s : State) (tile : Nat) : State :=
  setF { s with nv := { s.nv with stuck := s.nv.stuck.filter (fun k => k / 270336 != tile) } }
    R.calTileWear_stuckPairs tile 0

/-- Enter a pair in its tile's stuck list, which holds 256. -/
def addStuck (s : State) (tile pair : Nat) : State :=
  if (stuckOf s tile).contains pair ∨ 256 ≤ (stuckOf s tile).length then s
  else
    let s := { s with nv := { s.nv with stuck := s.nv.stuck ++ [pairKey tile pair] } }
    setF s R.calTileWear_stuckPairs tile (stuckOf s tile).length

/-! ## Writing rows (R238, R239) -/

/-- Set the levels of data pairs of one row, by column; the last one of a column counts. -/
def setRow (s : State) (tile r : Nat) (l : List (Nat × Int)) : State :=
  let k := rowKey tile r
  let old := s.nv.level.filter (fun e => decide (k ≤ e.1) && decide (e.1 < k + 512))
  let zero := s.nv.zeroed.contains tile
  let new := (List.range 512).filterMap (fun c =>
    ((tget? l.reverse c).or (tget? old (k + c))).bind (fun q => if zero && q == 0 then none else some (k + c, q)))
  { s with nv := { s.nv with level := tsplice s.nv.level k (k + 512) new } }

/-- Set the levels of data pairs of a tile; it derives the values of their columns anew (R188). -/
def setLevels (s : State) (tile : Nat) (l : List (Nat × Nat × Int)) : State :=
  let s := forEach ((List.range 512).filter (fun r => l.any (fun x => x.1 == r))) (fun s r =>
    setRow s tile r ((l.filter (fun x => x.1 == r)).map (fun x => x.2))) s
  { s with cal := { s.cal with sumErr := s.cal.sumErr.filter (fun e =>
      !(e.1 / 512 == tile && l.any (fun x => x.2.1 == e.1 % 512))) } }

/-- Every data pair of a tile at level 0. -/
def zeroLevels (s : State) (tile : Nat) : State :=
  { s with nv := { s.nv with level := tdrop s.nv.level (rowKey tile 0) (rowKey tile 512),
                             zeroed := if s.nv.zeroed.contains tile then s.nv.zeroed else tile :: s.nv.zeroed },
           cal := { s.cal with sumErr := tdrop s.cal.sumErr (tile * 512) (tile * 512 + 512) } }

/-- The level in 1/64 that one cell of a pair of level `q` holds: one cell of every pair is at level 0 (R186). -/
def cellLevel (q : Int) (pos : Bool) : Nat := 64 * (if pos then q else -q).toNat

/-- A cell as a verify read finds it: listed in the read, or where a pair of level `q` has it. -/
def cellRead (l : List CellRead) (q : Int) (c : Nat) (pos : Bool) : Nat :=
  ((l.find? (fun x => x.col == c && x.pos == pos)).map (fun x => x.l64)).getD (cellLevel q pos)

/-- Whether a cell lies outside ±8/64 level of its target (R238). -/
def outside (v t : Nat) : Bool := decide (t + 8 < v) || decide (v + 8 < t)

/-- The columns of the cells of a row that a verify read finds outside their window, one entry a cell; columns that are
skipped count as inside. `tgt` are the targets, `base` where the pairs stand unless the read says otherwise. -/
def outCells (tgt base : List Int) (skip : List Nat) (l : List CellRead) : List Nat :=
  ((List.range 528).zip (tgt.zip base)).flatMap (fun x =>
    if skip.contains x.1 then []
    else ([true, false].filter (fun b => outside (cellRead l x.2.2 x.1 b) (cellLevel x.2.1 b))).map (fun _ => x.1))

/-- A pair's level as a verify read gives it, rounded (R239). -/
def readLevel (tgt : Int) (l : List CellRead) (c : Nat) : Int :=
  max (-31) (min 31 (roundDiv ((cellRead l tgt c true : Int) - (cellRead l tgt c false : Int)) 64))

/-- The rounds of a row write (R238, R239), of which at most `n` give pulses: the columns of the pulses in order, and the
pairs still outside after the last round with the level they achieved. -/
def rounds (tgt : List Int) (skip : List Nat) : Nat → List Int → List (List CellRead) → List Nat × List (Nat × Int)
  | n, base, reads =>
    let l := reads.headD []
    match outCells tgt base skip l, n with
    | [], _ => ([], [])
    | out, 0 => ([], out.eraseDups.map (fun c => (c, readLevel (tgt.getD c 0) l c)))
    | out, n + 1 =>
      let x := rounds tgt skip n tgt (reads.drop 1)
      (out ++ x.1, x.2)

/-- The verify reads of a row in a report. -/
def readsOf (w : WriteReport) (r : Nat) : List (List CellRead) :=
  ((w.find? (fun x => x.row == r)).map (fun x => x.reads)).getD []

/-- The pairs that a row write leaves stuck are entered in the tile's list (R239). -/
def stickPairs (s : State) (tile r : Nat) (l : List (Nat × Int)) : State :=
  forEach l (fun s x => addStuck s tile (528 * r + x.1)) s

/-- Write one row of a tile (R238, R239): `old` are its 528 pairs, `l` the new levels of data pairs, by column. Pairs on the
stuck list are skipped, and outside a full write those of the reference columns (R188). Answers the pairs newly stuck. -/
def writeRow (s : State) (tile r : Nat) (full : Bool) (old : List Int) (l : List (Nat × Int)) (reads : List (List CellRead)) :
    State × List (Nat × Int) :=
  let skip := ((stuckOf s tile).filter (fun k => k / 528 == r)).map (fun k => k % 528) ++ (if full then [] else rangeFrom 520 8)
  let l := l.filter (fun x => !skip.contains x.1)
  let data := (old.take 512).mapIdx (fun c q => (tget? l.reverse c).getD q)
  let x := rounds (data ++ checkLevels data ++ refLevels) skip 12 old reads
  let new := l ++ x.2.filter (fun y => y.1 < 512)
  let s := setLevels s tile (new.map (fun y => (r, y.1, y.2)))
  let s := forEach x.1 (fun s c => pulse s tile (528 * r + c)) s
  (stickPairs s tile r x.2, x.2)

/-- What a write of a tile found: the pairs it wrote, those newly stuck with their levels, and whether the tile fails. -/
structure WriteEnd where
  written : Nat
  stuck : List (Nat × Nat × Int)
  failed : Bool
  deriving DecidableEq, Repr

/-- What a write leaves (R239): events 0x5006 and 0x500A; the tile fails when its list passes stuck_limit or a checksum or
reference pair sticks (DEDUCED, assumption 125). -/
def endWrite (s : State) (tile n : Nat) (st : List (Nat × Nat × Int)) : State × WriteEnd :=
  let p := tile / 34
  let t := tile % 34
  match st with
  | [] => (s, ⟨n, [], false⟩)
  | x :: _ =>
    let s := raiseOnce s 0x5006 tile (cTile p t) st.length (1024 * x.1 + x.2.1)
    let k := (stuckOf s tile).length
    let past := decide (getF s R.calWrite_stuckLimit < k)
    let s := when past (fun s => raise s 0x500A (cTile p t) k (getF s R.calWrite_stuckLimit)) s
    (s, ⟨n, st, past || st.any (fun x => 512 ≤ x.2.1)⟩)

/-- Rows of a tile written one at a time in the order given (R238), each with the new levels of its data pairs; `old` gives
the pairs a row holds before. -/
def writeRows (tile : Nat) (full : Bool) (old : Nat → List Int) (l : List (Nat × Nat × Int)) (w : WriteReport) :
    List Nat → State → State × List (Nat × Nat × Int)
  | [], s => (s, [])
  | r :: rs, s =>
    let x := writeRow s tile r full (old r) ((l.filter (fun y => y.1 == r)).map (fun y => y.2)) (readsOf w r)
    let y := writeRows tile full old l w rs x.1
    (y.1, x.2.map (fun z => (r, z.1, z.2)) ++ y.2)

/-- Write pairs of one tile to targets (R238, R239). A tile that was worn when the write began is not programmed (R242). -/
def writePairs (s : State) (tile : Nat) (targets : List (Nat × Nat × Int)) (w : WriteReport) : State × WriteEnd :=
  if onF s R.calTileWear_worn tile then (s, ⟨0, [], false⟩)
  else
    let rows := (List.range 512).filter (fun r => targets.any (fun x => x.1 == r))
    let n := countIf targets (fun x => !(stuckOf s tile).contains (528 * x.1 + x.2.1))
    let x := writeRows tile false (physRow s tile) targets w rows s
    endWrite x.1 tile n x.2

/-- A full write of a tile (R236, R239): every data pair, those not listed to level 0; its stuck pairs are written again. -/
def fullWrite (s : State) (tile : Nat) (l : List (Nat × Nat × Int)) (w : WriteReport) : State × WriteEnd :=
  if onF s R.calTileWear_worn tile then (s, ⟨0, [], false⟩)
  else
    let x := writeRows tile true (physRow s tile) ((List.range 512).flatMap (fun r => (List.range 512).map (fun c => (r, c, 0))) ++ l)
      w (List.range 512) (zeroLevels (clearStuck s tile) tile)
    endWrite x.1 tile 262144 x.2

/-- The report for a tile among several. -/
def reportFor (w : List (Nat × WriteReport)) (tile : Nat) : WriteReport :=
  ((w.find? (fun x => x.1 == tile)).map (fun x => x.2)).getD []

/-! ## Level records (R236, R344) -/

/-- Bytes of a level record: one i8 per data pair. -/
def recordBytes (l : List Int) : Bytes := l.map (fun q => BitVec.ofInt 8 q)

/-- The level a record byte holds. -/
def byteLevel (b : Byte) : Int := b.toInt

end Sys2Proof.Machine
end

