-- ==== Sys2Proof/Machine/Trims.lean ====
section
/-! DEFINITION. Machine/Trims.lean: what a trim computes from its measurements, its checks, and the entries and tolerances it
brings into force (R219 to R225). -/
namespace Sys2Proof.Machine
open Sys2Proof

/-- 1,024 × 1,023 × the sample variance of a line's 1,024 null values 16 × code, from their sum and the sum of their
squares (R224 step 8). -/
def nullVar (sum : Int) (sq : Nat) : Nat := (1024 * (sq : Int) - sum * sum).toNat

/-- s0² in codes as a fraction: the mean over all 1,040 lines of each line's sample variance (R224 step 8). -/
def s0Sq (m : TrimMeas) : Nat × Nat :=
  ((List.zipWith nullVar m.nullSum m.nullSq).sum + (List.zipWith nullVar m.rowNullSum m.rowNullSq).sum,
   1024 * 1023 * 256 * 1040)

/-- A tile's estimated error squared at conversion constant `k` (R221), as a fraction. -/
def sigmaSq (m : TrimMeas) (k : Nat) : Nat × Nat :=
  let s0 := s0Sq m
  (s0.1 * k * 100000 + 544100 * s0.2 + 4239 * k * s0.2, s0.2 * k * 100000)

/-- (a / b) × √(n / d), rounded to the nearest integer. -/
def rootScaled (a b : Nat) (q : Nat × Nat) : Nat := (isqrt (4 * a * a * q.1 / (b * b * q.2)) + 1) / 2

/-- round(M0) of a line: the mean of 1,024 null phases (R224 step 5). -/
def trimOff (nullSum : Int) : Int := roundDiv nullSum 1024

/-- round(32,768 × 6,144 × n / (d × (M+ − M−))); zero, which no check passes, where the divisor is not positive. -/
def trimGainOf (n d diffSum : Int) : Int :=
  if 0 < d * diffSum then roundDiv (32768 * 6144 * 1024 * n) (d * diffSum).toNat else 0

/-- Gain and offset of a line as R224 step 5 forms them from its own sums. -/
def lineTrim (nullSum diffSum : Int) : Int × Int := (trimGainOf 1 1 diffSum, trimOff nullSum)

/-- The entries of the reference columns (R224 step 5), as (gain, offset). -/
def refTrims (m : TrimMeas) : List (Int × Int) :=
  (rangeFrom 520 8).map (fun l => lineTrim (m.nullSum.getD l 0) (m.diffSum.getD l 0))

/-- Σ e_m r_m over the conversions of one reference column of level `e`, in 1/16 codes. X is 1,024 in every reference phase,
so e_m is the level itself (R224 step 6). -/
def refColumn (e : Int) (t : Int × Int) (codes : List (Int × Nat)) : Int :=
  (codes.map (fun x => e * trimmed t.1 (16 * x.1 - t.2) * (x.2 : Int))).sum

/-- g_ref of reference conversions under the reference columns' entries (R224 step 6), as Σ e_m r_m over Σ e_m², which is
4,096 × 672, both in 1/16 codes. -/
def refGain (entries : List (Int × Int)) (refs : RefCodes) : Int × Nat :=
  ((List.zipWith (fun e x => refColumn e x.1 x.2) refLevels (entries.zip refs)).sum, 16 * (4096 * 672))

/-- g_ref of a trim. -/
def trimRef (m : TrimMeas) : Int × Nat := refGain (refTrims m) m.refs

/-- Offset and gain of every line, columns first (R224 steps 5 and 7): reference columns take no g_ref. -/
def trimLines (m : TrimMeas) : List (Int × Int) :=
  let g := trimRef m
  let col := (List.range 528).map (fun l =>
    let d := m.diffSum.getD l 0
    (trimOff (m.nullSum.getD l 0), if 520 ≤ l then trimGainOf 1 1 d else trimGainOf g.2 g.1 d))
  col ++ (List.range 512).map (fun r =>
    (trimOff (m.rowNullSum.getD r 0), trimGainOf g.2 g.1 (m.rowDiffSum.getD r 0)))

/-- The first failing condition of R222: 1 offset, 2 gain, 3 g_ref, 4 σ_t; 0 when the trim passes. -/
def trimFault (m : TrimMeas) : Nat :=
  let l := trimLines m
  let q := sigmaSq m 256
  let g := trimRef m
  if l.any (fun x => decide (x.1 < -2048) || decide (2047 < x.1)) then 1
  else if l.any (fun x => decide (x.2 < 16384) || decide (65535 < x.2)) then 2
  else if 100 * g.1 < 95 * (g.2 : Int) ∨ 105 * (g.2 : Int) < 100 * g.1 then 3
  else if 42667 * 42667 * q.2 < q.1 * 10000000000 then 4
  else 0

/-- (g_ref − 1) × 10^6, rounded. -/
def refPpm (m : TrimMeas) : Int := roundDiv (((trimRef m).1 - (trimRef m).2) * 1000000) (trimRef m).2

/-- Whether xy / (xx × g) lies further than `ppm` millionths from 1 (R226, R228). -/
def driftPast (xy : Int) (xx : Nat) (g : Int × Nat) (ppm : Nat) : Bool :=
  decide (ppm * (xx * g.1.toNat) < ((xy * g.2 - xx * g.1) * 1000000).natAbs)

/-- The warm check of a tile (R92, R228): step 6 of R224 run with the stored trims. -/
def warmCheck (s : State) (u : Nat) (refs : RefCodes) : Bool :=
  let g := refGain ((rangeFrom 520 8).map (fun l => (trimGain (trimOf s u l), trimOffset (trimOf s u l)))) refs
  !driftPast g.1 g.2 (tget (1, 1) s.cal.gRef u) (getF s R.calCtl_driftPpm)

/-- TIL.CHK_TOL by R223. -/
def setTolerance (s : State) (u : Nat) (m : TrimMeas) : State :=
  let q := sigmaSq m (convK s u)
  setF (setF s R.tilChkTol_tauFwd u (rootScaled 825575 100 q)) R.tilChkTol_tauTps u (rootScaled 289631 100 q)

/-- CAL.TILE_STAT, as a trim leaves it. -/
def showStat (s : State) (u : Nat) (m : TrimMeas) : State :=
  let s := setF s R.calTileStat_sigmaQ10 u (rootScaled 1024 1 (sigmaSq m (convK s u)))
  let s := setF s R.calTileStat_gRefPpm u (ofSigned 20 (refPpm m))
  setF s R.calTileStat_s0Q10 u (rootScaled 1024 1 (s0Sq m))

/-- A trim's age starts: kinds 1 start-up, 2 idle, 3 rotation, 4 fallback. The tile is no longer due. -/
def startAge (s : State) (u kind : Nat) : State :=
  let s := { s with cal := { s.cal with trimmed := tset s.cal.trimmed u s.now, dueAt := tdel s.cal.dueAt u,
                                        duePhases := tdel s.cal.duePhases u, forcedAt := tdel s.cal.forcedAt u,
                                        ranged := s.cal.ranged.filter (fun x => x != u) } }
  forEach [(R.calTileAge_phases, 0), (R.calTileAge_lastKind, kind), (R.calTileAge_due, 0), (R.calTileAge_forced, 0),
    (R.calTileAge_overdue, 0)] (fun s x => setF s x.1 u x.2) s

/-- A passing trim comes into force: entries, tolerances, results and age (R219, R223, R224). -/
def passTrim (s : State) (u kind : Nat) (m : TrimMeas) : State :=
  let s := forEach ((trimLines m).mapIdx (fun l x => (l, trimEntry x.2.toNat x.1))) (fun s x => setTrim s u x.1 x.2) s
  let s := { s with cal := { s.cal with gRef := tset s.cal.gRef u (trimRef m) } }
  startAge (showStat (setTolerance s u m) u m) u kind

/-- Ticks since a tile's last trim. -/
def trimAge (s : State) (u : Nat) : Nat := s.now - tget 0 s.cal.trimmed u

end Sys2Proof.Machine
end

