-- ==== Sys2Proof/Machine/Bringup.lean ====
section
/-! DEFINITION. Machine/Bringup.lean: bring-up phase by phase, verdicts, roles and the capacity class (R86 to R105). -/
namespace Sys2Proof.Machine
open Sys2Proof

/-! ## Entry to READY -/

/-- Fabric ports that are up, at full or half weight (R96). -/
def fabricUp (s : State) : Nat :=
  countIf (List.range 24) (fun n => getF s R.prtPortStatus_state n == 3 || getF s R.prtPortStatus_state n == 4)

/-- The register entries a bring-up record keeps: verdicts and tile failures, the field map, and with the trims their
tolerances and results (R88, R228). -/
def recordKey (k : Nat) : Bool :=
  [(0x4002000, 0x1000), (0x5001000, 0x2000), (0x60C0000, 0x22000), (0x11080000, 0x22000)].any (fun x =>
    decide (x.1 * 64 ≤ k) && decide (k < (x.1 + x.2) * 64))

/-- On the warm path, and not abandoned (R92, R93). -/
def onWarm (s : State) : Bool := onF s R.bruStatus_path && !onF s R.bruStatus_warmAbandoned

/-- The record written on entry to READY (R88). After a warm path only its training parameters are replaced; after a cold
path its time is that of the path's completion, at the first entry to READY. -/
def makeRecord (s : State) (first : Bool) : Record :=
  let fw := getF s R.secFw_runningCopy
  let cold : Record :=
    { regs := s.reg.filter (fun p => recordKey p.1), trim := s.cal.trim, gRef := s.cal.gRef, fit := fitWord s,
      bayNumber := getF s R.bruBayId_bayNumber, installation := getF s R.bruBayInstall_installationId,
      fwDigest := (fwCopyOf s fw).digest, coldTime := s.now, fwCopy := fw, training := s.bring.training }
  match s.nv.record with
  | none => cold
  | some r =>
    if onWarm s then { r with training := s.bring.training }
    else if first then cold
    else { cold with coldTime := r.coldTime }

/-- The default shares of the privileged channels (R376). -/
def defaultShares (s : State) : State :=
  forEach [(57, 256), (58, 96), (59, 96), (60, 128), (61, 128), (62, 128), (63, 128)]
    (fun t p => setF t R.movRate_share (p.1 - 57) p.2) s

/-- The values that every entry to READY gives to fields whose Reset is "set" (the registers' own tables). -/
def readyFields : List (Field × Nat) :=
  [(R.updDelta_base1m, 0x8FC00),
   (R.updDelta_sizeMib, 512), (R.prtHold_sizeMib, 128), (R.prtHold_base1m, 0x8FE80), (R.prtHold_headroomMib, 16),
   (R.hstFeedCfg_base64k, 0x8FE400), (R.hstFeedCfg_sizeLog2, 26), (R.pairBuf_base1m, 0x8E000)]

/-- What every entry to READY does (R88, R117, R144, R241, R376; the registers' own tables): the wear counts are flushed, the
bring-up record is written, `first` for the entry from BRINGUP, and the budget is the default again, an event recording the
change (R118). -/
def readyCommon (s : State) (first : Bool) : State :=
  let s := setFs { wearFlush s with mode := .ready } ([(R.bruCtl_forceCold, 0), (R.pairFaultLast_count, 0)] ++ readyFields)
  let s := forEach (List.range 16) (fun t q => setF t R.pairRebuild_done q 0) s
  let s := forEach [0, 1] (fun t r => setF t R.ctlRingStatus_completed r 0) s
  let s := defaultShares { s with ses := { s.ses with firstAfterReady := true } }
  let s := { s with board := { s.board with warmValid := true },
                    nv := { s.nv with record := some (makeRecord s first) } }
  setBudget s (min 2400 (getF s R.pwrBudget_ceilingW))

/-- A firmware copy that was staged is committed at its first entry to READY (R471). -/
def commitFirmware (s : State) : State :=
  if s.nv.fwStaged then
    let svn := getF s R.secFw_svnRunning
    let s := setFs { s with nv := { s.nv with fwStaged := false } }
      [(R.secFw_staged, 0), (R.secFw_svnFused, max svn (getF s R.secFw_svnFused))]
    raise s 0xE005 cPkg 1 svn
  else s

/-- READY from BRINGUP: the event ring is placed (R154), the record written (R88). -/
def readyFromBringup (s : State) : State :=
  let s := setFs s [(R.bruStatus_phase, 7), (R.bruStatus_waitingPorts, 0),
    (R.bruStatus_elapsedMs, (s.now - s.bring.start) / 25000), (R.ctlEvtCfg_base4k, 0x8FFFF00),
    (R.ctlEvtCfg_sizeCode, 4), (R.ctlEvtProducer_producer, 0), (R.ctlEvtConsumer_consumer, 0)]
  let s := { s with nv := { s.nv with fieldCleared := s.nv.fieldCleared && onWarm s } }
  commitFirmware (readyCommon s true)

/-- Phase 6 with everything decided: READY once 16 fabric ports are up (R96). A bring-up that stopped does nothing further
(R94). -/
def tryReady (s : State) : State :=
  if s.bring.stopped then s
  else if 16 ≤ fabricUp s then readyFromBringup s
  else if onF s R.bruStatus_waitingPorts then s
  else raise (setF s R.bruStatus_waitingPorts 0 1) 0x1013 cPkg (fabricUp s) 16

/-! ## The loft's fit (R80, R81) -/

/-- A DIMM is usable (R80). -/
def dimmUsable (d : Dimm) : Bool :=
  d.present && d.mrdimm && d.ecc && d.spd5118 && (d.gib == 32 || d.gib == 64 || d.gib == 128 || d.gib == 256)
    && decide (6400 ≤ d.mts)

/-- The population of a set of usable slots: 2 full, 1 half, 0 unusable (R81). -/
def population (u : List Nat) : Nat :=
  if u == [0, 1, 2, 3, 4, 5, 6, 7] then 2 else if u == [0, 2, 4, 6] then 1 else 0

/-- Fill in BRU.FIT and the channels from the DIMMs and the slots that stay usable (R81) (DEDUCED, assumption 133). -/
def applyFit (s : State) (bad : List Nat) : State :=
  let ds := s.bring.dimms
  let none : Dimm := ⟨false, false, false, false, 0, 0, 0, []⟩
  let at' := fun c => ds.getD c none
  let use := (List.range 8).filter (fun c => dimmUsable (at' c) && !bad.contains c)
  let pop := population use
  let speed := if pop = 0 then 0 else use.foldl (fun m c => min m (at' c).mts) 8800
  let gib := if pop = 0 then 0 else use.foldl (fun m c => min m (at' c).gib) 256
  let s := setFs s [(R.bruFit_loftSpeedMts, speed), (R.bruFit_loftChannelGib, gib), (R.bruFit_loftPopulation, pop),
    (R.bruFit_dimmPresent, ((List.range 8).map (fun c => b2n (at' c).present * 2 ^ c)).sum),
    (R.bruFit_dimmUsable, (use.map (fun c => 2 ^ c)).sum)]
  forEach (List.range 8) (fun t c =>
    let on := pop != 0 && use.contains c
    let t := setF (setF t R.lftChannel_populated c (b2n on)) R.lftChannel_gib c (if on then gib else 0)
    setF t R.lftChannel_ranks c (if on then (at' c).ranks else 0)) s

/-! ## Verdicts and roles (R97 to R101) -/

/-- Whether a position's tile is fuse-good and not in the field map (R100). -/
def tileAllowed (s : State) (p t : Nat) : Bool :=
  bit (getF s R.fusStallFuse_tileGood p) t && !bit (getF s R.fusStallField_tileFieldOff p) t

/-- A tile is bad when R100 does not let it be used (R101). -/
def tileBad (s : State) (p t : Nat) : Bool := !tileAllowed s p t || bit (getF s R.bruTileFail_tileFail p) t

/-- The bad positions of a stall. -/
def badTiles (s : State) (p : Nat) : List Nat := (List.range 34).filter (tileBad s p)

/-- GE, store and trough are all fuse-good. A stall with more than two fuse-bad or field-disabled tiles is still tested, and
then disabled for them (R97, R101) (DESIGN CHOICE, assumption 157). -/
def fuseGood (s : State) (p : Nat) : Bool :=
  onF s R.fusStallFuse_geGood p && onF s R.fusStallFuse_storeGood p && onF s R.fusStallFuse_troughGood p

/-- The verdict of a stall (R97, R100, R101, BRU.STALL_VERDICT). -/
def verdictOf (s : State) (p : Nat) : Nat :=
  if !fuseGood s p then 1
  else if onF s R.fusStallField_geFieldOff p then 3
  else if getF s R.bruStallVerdict_geTest p == 2 || getF s R.bruStallVerdict_storeTest p == 2
      || getF s R.bruStallVerdict_troughTest p == 2 then 2
  else if 2 < (badTiles s p).length then 4 else 0

/-- Resolve a stall: verdict, roles, state (R8, R101, R105) (DEDUCED, assumption 124). -/
def decideStall (s : State) (p : Nat) : State :=
  let v := verdictOf s p
  let bad := badTiles s p
  let good := (List.range 34).filter (fun t => !bad.contains t)
  let relief := if v = 0 then good[32]? else none
  let reserve := if v = 0 then good[33]? else none
  let mask := (bad.map (fun t => 2 ^ t)).sum
  let s := setF (setF s R.bruStallVerdict_verdict p v) R.bruStallVerdict_badTiles p bad.length
  let s := setF (setF s R.bruStallVerdict_reliefPos p (relief.getD 63)) R.bruStallVerdict_reservePos p (reserve.getD 63)
  let s := setStall s p { Stall.reset with st := if v = 0 then .sleep else .disabled,
                                           live := if v = 0 then good.take 32 else [], relief := relief,
                                           reserve := reserve, bad := bad }
  if v = 0 then s else raise s 0x1006 (cStall p) v mask

/-- A stall's test result as the register shows it: 1 pass, 2 fail. -/
def testCode (ok : Bool) : Nat := if ok then 1 else 2

/-- Full-scale products that a tile has run when its known-answer run ends at a check (R98): one in each pass of check 3 and
of check 4. -/
def fullScaleRuns (check : Nat) : Nat :=
  match check with
  | 3 => 1
  | 4 => 2
  | 1 => 0
  | 2 => 0
  | _ => 4

/-- How the known-answer run of a tile ends (R98, R222, R242): 0 passed, or the failing check with the column or row at
fault. A tile whose trim the report does not list passed it with the nominal entries (DESIGN CHOICE, assumption 158). -/
def tileCheck (s : State) (r : PhaseReport) (p t : Nat) (fails : List (Nat × Nat × Nat)) : Nat × Nat :=
  let f := (fails.find? (fun x => x.1 == t)).map (fun x => x.2)
  let m := (r.trims.find? (fun x => x.1 == tileIx p t)).map (fun x => x.2)
  if f.any (fun x => x.1 == 1) then f.getD (1, 0xFFFF)
  else if m.any (fun x => trimFault x != 0) then (2, 0xFFFF)
  else if onF s R.calTileWear_worn (tileIx p t) then (3, 0xFFFF)
  else f.getD (0, 0)

/-- Event 0x5001 of a start-up trim that fails (R222). -/
def trimEvent (s : State) (p t : Nat) (m : TrimMeas) : State :=
  raise s 0x5001 (cTile p t) (trimFault m) (rootScaled 1024 1 (sigmaSq m 256))

/-- The pulses that the test patterns give a tile, at most 24 to a cell (R99, R241). -/
def patternPulses (s : State) (u : Nat) (l : List (Nat × Nat × Nat)) : State :=
  forEach l (fun s x => pulses (min 24 x.2.1 + min 24 x.2.2) s u x.1) s

/-- The known-answer run of one tile (R98, R99): its trim in force or failed, the test patterns and their pulses, the splits
that its full-scale vectors raise, its verdict. -/
def testTile (r : PhaseReport) (p : Nat) (fails : List (Nat × Nat × Nat)) (s : State) (t : Nat) : State :=
  let u := tileIx p t
  let c := tileCheck s r p t fails
  let m := (r.trims.find? (fun x => x.1 == u)).map (fun x => x.2)
  let s := match m with
    | some x => if c.1 == 1 then s else if trimFault x == 0 then passTrim s u 1 x else trimEvent s p t x
    | none => s
  let s := if c.1 == 1 || c.1 == 2 || onF s R.calTileWear_worn u then s
    else
      let s := { s with nv := { s.nv with level := tdrop s.nv.level (rowKey u 0) (rowKey u 512),
                                          zeroed := s.nv.zeroed.filter (fun x => x != u) } }
      bumpF (patternPulses s u (((r.patterns.find? (fun x => x.1 == u)).map (fun x => x.2)).getD [])) R.tilCount_splits u
        (24 * fullScaleRuns c.1)
  if c.1 = 0 then s
  else
    let s := setF s R.bruTileFail_tileFail p (setBit (getF s R.bruTileFail_tileFail p) t true)
    raise (raise s 0x1004 (cTile p t) c.1 c.2) 0x1003 (cTile p t) 0 c.1

/-- The checks of one stall in a cold path, stopping at the first that fails (R97, R100, R105). -/
def testStall (r : PhaseReport) (s : State) (p : Nat) : State :=
  let x := (r.stalls.find? (fun x => x.stall == p)).getD ⟨p, true, 0, true, 0, true, 0, []⟩
  if !fuseGood s p || onF s R.fusStallField_geFieldOff p then s
  else
    let s := setF (setF s R.bruStallVerdict_storeTest p (testCode x.storeOk)) R.bruStallVerdict_troughTest p
      (testCode x.troughOk)
    let s := if x.storeOk then s else raise (raise s 0x1005 (cStall p) 0 x.storeAddr) 0x1003 (cStall p) 2 1
    let s := if x.troughOk then s else raise (raise s 0x1005 (cStall p) 1 x.troughAddr) 0x1003 (cStall p) 3 1
    if !x.storeOk || !x.troughOk then s
    else
      let s := setF s R.bruStallVerdict_geTest p (testCode x.geOk)
      if !x.geOk then raise (raise s 0x1005 (cStall p) 2 x.geDigest) 0x1003 (cStall p) 1 2
      else
        let tested := (List.range 34).filter (tileAllowed s p)
        let s := setF s R.bruStallVerdict_tileTested p (tested.map (fun t => 2 ^ t)).sum
        forEach tested (testTile r p x.tiles) (setF s R.bruTileFail_tileFail p 0)

/-- The class of a count of live stalls: 1 A, 2 B, 3 C, 0 none (R3, R103). -/
def classOf (l : Nat) : Nat := if l = 512 then 1 else if 496 ≤ l then 2 else if 448 ≤ l then 3 else 0

/-- CLASS_DECIDED (R103): count, class, the events, and the stop below 448. -/
def decideClass (s : State) : State :=
  let up := (List.range 512).filter (fun p => getF s R.bruStallVerdict_verdict p == 0)
  let l := up.length
  let c := classOf l
  let s := setFs s [(R.bruClass_class, c), (R.bruClass_liveStalls, l), (R.bruClass_liveTiles, 32 * l),
    (R.bruClass_noReserveStalls, countIf up (fun p => (getStall s p).reserve.isNone)),
    (R.bruClass_noReliefStalls, countIf up (fun p => (getStall s p).relief.isNone)),
    (R.bruClass_disabledStalls, 512 - l)]
  let s := raise s 0x100F cPkg c l
  let factory := getF s R.fusMapInfo_factoryClass
  let s := if c = 0 ∨ factory < c then raise s 0x1012 cPkg factory c else s
  if c = 0 then stopBringup s 9 else s

/-! ## The phases -/

/-- The end of a phase: event 0x1002, then the next phase. -/
def phaseDone (s : State) : State :=
  let k := getF s R.bruStatus_phase
  let ms := (s.now - s.bring.start) / 25000
  let s := setF s R.bruStatus_elapsedMs 0 ms
  setF (raise s 0x1002 cPkg k ms) R.bruStatus_phase 0 (k + 1)

/-- WARM_ABANDONED (R93, R105): 0 training, 1 GE run, 2 reference columns. -/
def abandonWarm (s : State) (kind : Nat) : State :=
  raise (setF s R.bruStatus_warmAbandoned 0 1) 0x1011 cPkg (getF s R.bruStatus_phase) kind

/-- Phase 0 (R88, R92, R94, R471): the staged copy first, else copy A, or the record's copy on the warm path; then the
other. Cause 3 is judged at its end; event 0x1002 of the phase comes before it (DESIGN CHOICE, assumption 159). -/
def phase0 (s : State) (r : PhaseReport) : State :=
  let ok := fun n => if n = 0 then r.fwAOk else r.fwBOk
  let run := getF s R.secFw_runningCopy
  let first := if s.nv.fwStaged then 1 - run
    else if onWarm s then (s.nv.record.map (fun x => x.fwCopy)).getD 0 else 0
  let take := fun (t : State) (n : Nat) =>
    setFs t [(R.secFw_runningCopy, n), (R.secFw_svnRunning, (fwCopyOf t n).svn),
      (R.ctlId_fwVersion, (fwCopyOf t n).version)]
  if !ok 0 && !ok 1 then stopBringup s 1
  else
    let s := if ok first then take s first
      else
        let s := if s.nv.fwStaged then
            raise (setF { s with nv := { s.nv with fwStaged := false } } R.secFw_staged 0 0) 0xE005 cPkg 2
              (fwCopyOf s first).svn
          else s
        take s (1 - first)
    let s := phaseDone s
    let limit := getF s R.bruBayId_powerLimitW
    if 1 ≤ limit ∧ limit ≤ 1199 then stopBringup (setF s R.bruStatus_phase 0 0) 3 else s

/-- Phase 1 (R88, R94): clocks and interconnect, with lane repair (events 0x1008). -/
def phase1 (s : State) (r : PhaseReport) : State :=
  let s := setFs s [(R.bruBayId_clk25CoreOk, 1), (R.bruBayId_clk156Ok, 1)]
  if !r.interconnectOk then stopBringup s 4
  else phaseDone (forEach (r.repairs.filter (fun x => x.1 == 0)) (fun t x => raise t 0x1008 cPkg x.2.1 x.2.2) s)

/-- Phase 2 (R94, R418): HBM, with repairs (events 0x1007), written with zeros. -/
def phase2 (s : State) (r : PhaseReport) : State :=
  if !r.hbmOk then stopBringup s 5
  else
    let s := forEach (r.repairs.filter (fun x => x.1 == 1)) (fun t x => raise t 0x1007 cPkg x.2.1 x.2.2) s
    phaseDone (rawZero s 0 hbmEnd)

/-- Phase 3 (R80, R81, R89, R94, R105): SPD, loft training, population; the loft test starts on the cold path only. -/
def phase3 (s : State) (r : PhaseReport) : State :=
  let s := { s with bring := { s.bring with dimms := r.dimms, loftDone := onWarm s } }
  let bad := (List.range 8).filter (fun c => !(r.loftTrained.getD c true))
  let s := forEach (List.range 8) (fun t c =>
    let d := r.dimms.getD c ⟨false, false, false, false, 0, 0, 0, []⟩
    if !d.present then t
    else if !d.spd5118 then raise t 0x1009 cPkg c 1
    else if !dimmUsable d then raise t 0x1009 cPkg c 4
    else if bad.contains c then raise t 0x1009 cPkg c 2 else t) s
  let s := applyFit { s with bring := { s.bring with loftBad := bad } } bad
  if getF s R.bruFit_loftPopulation == 0 then stopBringup s 6 else phaseDone s

/-- A fabric port's outcome in phase 4 (R95, R105, R391). -/
def portOutcome (s : State) (o : PortOutcome) : State :=
  if o.port = 24 then
    if o.outcome = 1 then setF s R.hstStatus_state 0 2
    else raise (setF s R.hstStatus_state 0 (if o.outcome = 4 then 0 else 1)) 0x100B cPkg 24 (if o.outcome = 4 then 3 else 1)
  else if o.port < 24 then
    let n := o.port
    let st := setF s R.prtPortStatus_state n
    let nh := getF s R.prtPortNh_nextHopMac n != 0
    match o.outcome with
    | 1 => setF (st 3) R.prtPortStatus_weight n (if nh then 2 else 0)
    | 2 => raise (setF (setF (st 4) R.prtPortStatus_laneGroup n 0) R.prtPortStatus_weight n (b2n nh)) 0x100A cPkg n 4
    | 3 => raise (setF (setF (st 4) R.prtPortStatus_laneGroup n 1) R.prtPortStatus_weight n (b2n nh)) 0x100A cPkg n 4
    | 4 => raise (st 5) 0x100B cPkg n 2
    | _ => raise (st 2) 0x100B cPkg n 1
  else s

/-- The attached modules are read (R84). -/
def readAttached (s : State) (r : PhaseReport) : State :=
  let s := match r.pluggable with
    | some m => readHost s m
    | none => dropHost s
  forEach (List.range 4) (fun t i =>
    match r.lasers.getD i none with
    | some m => readLaser t i m
    | none => dropLaser t i) s

/-- The outcome of a port (R95): one without a usable laser module or pluggable fails at once, one that the report does not
list by timeout. -/
def outcomeOf (s : State) (r : PhaseReport) (n : Nat) : PortOutcome :=
  let lit := if n = 24 then onF s R.bruFit_hostModuleUsable else laserOk s n
  let o := ((r.ports.find? (fun o => o.port == n)).map (fun o => o.outcome)).getD 0
  ⟨n, if !lit then 4 else if o = 4 then 0 else o⟩

/-- Phase 4 (R84, R94, R95): loft links, ZLV-20 runs, ports; BRU.LINKS records the outcome. -/
def phase4 (s : State) (r : PhaseReport) : State :=
  let s := readAttached s r
  let links := (List.range 4).filter (fun z => r.loftLinks.getD z true)
  let s := forEach links (fun t z => setF (setF t R.lftLink_up z 1) R.lftLink_lanes z 8) s
  if links.length < 4 then stopBringup s 7
  else if !r.zlvKatOk then stopBringup s 8
  else
    let s := forEach (List.range 25) (fun t n => portOutcome t (outcomeOf t r n)) (forEach (List.range 4) (fun t z => setF t R.updChip_state z 1) s)
    let mask := fun (st : Nat) => ((List.range 24).map (fun n =>
      if getF s R.prtPortStatus_state n == st then 2 ^ n else 0)).sum
    phaseDone (setFs s [(R.bruLinks_fabricUp, mask 3 + mask 4), (R.bruLinks_fabricNarrow, mask 4),
      (R.bruLinks_loftLinkUp, 15), (R.bruLinks_hostUp, b2n (getF s R.hstStatus_state == 2))])

/-- Set register entries from a table. -/
def loadRegs (s : State) (l : Tab Nat) : State := { s with reg := l.foldl (fun m p => tset m p.1 p.2) s.reg }

/-- The four waves of phase 5 (R91): wave w takes the stalls whose index mod 4 is w. -/
def waves : List Nat := (List.range 4).flatMap (fun w => (List.range 128).map (fun i => 4 * i + w))

/-- The stall stores and troughs are zero after their test (R418). -/
def clearStores (s : State) : State := rawZero s 0x080000000000 0x010000000000

/-- Verdicts and trims as the record gives them (R92). -/
def loadRecord (s : State) (rec : Record) : State :=
  loadRegs { s with cal := { s.cal with trim := rec.trim, gRef := rec.gRef } }
    (rec.regs.filter (fun p => decide (0x5001000 * 64 ≤ p.1)))

/-- A stall that the record's verdicts leave live. -/
def liveByRecord (s : State) (p : Nat) : Bool := getF s R.bruStallVerdict_verdict p == 0

/-- Tiles whose warm check fails (R92, R228): those of live stalls that the report lists. -/
def warmFails (s : State) (r : PhaseReport) : List Nat :=
  ((r.refs.filter (fun x => liveByRecord s (x.1 / 34) && !tileBad s (x.1 / 34) (x.1 % 34) && !warmCheck s x.1 x.2)).map
    (fun x => x.1))

/-- Phase 5 of the warm path (R92, R93): stored trims and verdicts, the GE known-answer runs of the live stalls, the warm
check of every tile. -/
def warmPhase5 (s : State) (r : PhaseReport) : State :=
  let s := match s.nv.record with
    | some rec => loadRecord s rec
    | none => s
  if r.warmGeFail.any (fun p => decide (p < 512) && liveByRecord s p) then abandonWarm s 1
  else
    let bad := warmFails s r
    let s := forEach bad (fun t u =>
      setF t R.bruTileFail_tileFail (u / 34) (setBit (getF t R.bruTileFail_tileFail (u / 34)) (u % 34) true)) s
    if bad.isEmpty then s else abandonWarm s 2

/-- The fields of the tests' results, which a cold path's phase 5 fills in anew. -/
def verdictFields : List Field :=
  [R.bruStallVerdict_geTest, R.bruStallVerdict_storeTest, R.bruStallVerdict_troughTest, R.bruStallVerdict_tileTested,
   R.bruTileFail_tileFail]

/-- Phase 5 of the cold path (R91, R97 to R99): tests and start-up trims, which leave the test pattern in the arrays. -/
def coldPhase5 (s : State) (r : PhaseReport) : State :=
  forEach waves (testStall r) (forEach verdictFields (fun t x => clearUnits t x 512) { s with cal := { s.cal with trim := [] } })

/-- Phase 5 (R91 to R93, R97 to R99, R418): a warm path abandoned here goes on with the cold path's tests. -/
def phase5 (s : State) (r : PhaseReport) : State :=
  let s := clearStores s
  let s := when (onWarm s) (fun t => warmPhase5 t r) s
  phaseDone (when (!onWarm s) (fun t => coldPhase5 t r) s)

/-- Phase 6 (R89, R96, R101, R103, R116): the loft test awaited, verdicts, roles, class, efficiency; READY. BRU.STATUS shows
phase 6 while the test is awaited, as the phase table has it, and the phase's own event 0x1002 comes before the wait for
ports (DESIGN CHOICE, assumption 159). -/
def phase6 (s : State) (r : PhaseReport) : State :=
  if !s.bring.loftDone then s
  else if getF s R.bruFit_loftPopulation == 0 then stopBringup s 6
  else
    let s := setF s R.pwrCost_effQ16 0 r.effQ16
    let s := decideClass (forEach (List.range 512) decideStall s)
    if s.bring.stopped then s
    else tryReady (raise s 0x1002 cPkg 6 ((s.now - s.bring.start) / 25000))

/-- The training parameters that phases 1 to 4 find (R88). -/
def keepTraining (s : State) (k : Nat) (r : PhaseReport) : State :=
  if 1 ≤ k ∧ k ≤ 4 then { s with bring := { s.bring with training := tset s.bring.training k r.training } } else s

/-- BRINGUP_PHASE_DONE (R90): the present phase completes. Training with the stored parameters that fails abandons the warm
path in that phase, which then trains anew and runs its tests (R93). -/
def bringupPhase (r : PhaseReport) (s : State) : State :=
  if s.mode != .bringup || s.bring.stopped || onF s R.bruStatus_waitingPorts then s
  else
    let k := getF s R.bruStatus_phase
    let s := when (onWarm s && r.warmTrainFail && decide (1 ≤ k) && decide (k ≤ 4)) (fun t => abandonWarm t 0) s
    let s := keepTraining s k r
    match k with
    | 0 => phase0 s r
    | 1 => phase1 s r
    | 2 => phase2 s r
    | 3 => phase3 s r
    | 4 => phase4 s r
    | 5 => phase5 s r
    | _ => phase6 s r

def execBringupPhaseDone (r : PhaseReport) (s : State) : Out := inModule s (bringupPhase r)

/-- LOFT_TEST_DONE (R89, R105): DIMMs that failed count as unusable, and R81 is applied again. -/
def loftTest (failed : List Nat) (s : State) : State :=
  if s.mode == .bringup && !s.bring.stopped && !s.bring.loftDone && decide (4 ≤ getF s R.bruStatus_phase) then
    let s := { s with bring := { s.bring with loftDone := true, loftBad := s.bring.loftBad ++ failed } }
    applyFit (forEach failed (fun t c => raise t 0x1009 cPkg c 3) s) s.bring.loftBad
  else s

def execLoftTestDone (failed : List Nat) (s : State) : Out := inModule s (loftTest failed)

/-! ## The field map (R102) -/

/-- Empty the field map; a cold path must follow (R86, R102). -/
def clearField (s : State) : State :=
  let inMap := fun (p : Nat × Nat) => !(decide (0x4002000 * 64 ≤ p.1) && decide (p.1 < 0x4003000 * 64))
  { s with reg := s.reg.filter inMap,
           nv := { s.nv with fieldCleared := true, record := s.nv.record.map (fun r => { r with regs := r.regs.filter inMap }) } }

/-- FIELD_CLEAR (R102): a write to FUS.FIELD_CLEAR. -/
def execFieldClear (s : State) : Out := inModule s (fun s => if upStates s then clearField s else s)

/-- Add a unit to the field map (R102, R429): a tile, or the GE. -/
def fieldOff (s : State) (p : Nat) (tile : Option Nat) : State :=
  match tile with
  | some t => setF s R.fusStallField_tileFieldOff p (setBit (getF s R.fusStallField_tileFieldOff p) t true)
  | none => setF s R.fusStallField_geFieldOff p 1

end Sys2Proof.Machine
end

