-- ==== Sys2Proof/Machine/Layout.lean ====
section
/-! DEFINITION. Machine/Layout.lean: where the loft holds master values, state, stages, level records and count records, and
the digital fallback's images (R300, R338, R339, R343 to R345, R351). -/
namespace Sys2Proof.Machine
open Sys2Proof

/-- Base of the loft window (R134). -/
def loftWindow : Nat := 0x040000000000

/-- The channel of a loft address. -/
def chanOf (a : Nat) : Nat := (a - loftWindow) / 2 ^ 38

/-- The chip that owns a loft address. -/
def chipOf (a : Nat) : Nat := chanOf a / 2

/-- The opcode of an update-program slot. -/
def updOp (w : Nat) : Nat := bits w 63 56

/-- The plane number and record a PLN slot declares (R351). -/
def plnOf (w : Nat) : Nat × Plane := (bits w 55 52, ⟨bits w 51 48, bit w 47, bits w 24 0 * 65536⟩)

/-- The planes a program declares, first declaration of each. -/
def planesOf (slots : List Nat) : List (Nat × Plane) := (slots.filter (fun w => updOp w == 1)).map plnOf

/-- The slots of an update program of the active image. -/
def progSlots (s : State) (id : Nat) : List Nat :=
  ((s.job.image.bind (fun i => i.updates.find? (fun u => u.id == id))).map (fun u => u.slots)).getD []

/-- A plane of a program. -/
def planeIn (slots : List Nat) (j : Nat) : Plane :=
  (((planesOf slots).find? (fun x => x.1 == j)).map (fun x => x.2)).getD ⟨0, false, 0⟩

/-- The first slot number of a block or loft tensor whose master values begin at `addr` (R344). -/
def firstSlot (slots : List Nat) (addr : Nat) : Nat :=
  let m := planeIn slots 0
  (addr % 2 ^ 48 - loftWindow - m.base) / max 1 m.width

/-- Address of an element of a plane (R344). -/
def planeAddr (pl : Plane) (ei : Nat) : Nat := loftWindow + pl.base + pl.width * ei

/-- Address of the count record of the unit whose first slot is `ei` (R344). -/
def countAddr (slots : List Nat) (ei : Nat) : Nat := loftWindow + (planeIn slots 7).base + 16 * (ei / 64)

/-- Address of a placed block's level record (R344). -/
def levelAddr (s : State) (pl : Placement) : Nat :=
  let slots := progSlots s pl.updateProgram
  planeAddr (planeIn slots 6) (firstSlot slots pl.loftAddr)

/-- Bytes of a level record. -/
def recordSize : Nat := 262144

/-- A corrected read of a line: counted, and event 0x9006 at most once per channel per second (R341). -/
def noteCorrected (s : State) (l : Nat) : State :=
  let c := chanOf l
  let s := bumpF s R.lftChannel_corrected c 1
  let due := match tget? s.upd.lastCorr c with
    | none => true
    | some a => decide (a + 25000000 ≤ s.now)
  if due then
    raise { s with upd := { s.upd with lastCorr := tset s.upd.lastCorr c s.now } } 0x9006 cPkg c
      (getF s R.lftChannel_corrected c)
  else s

/-- An uncorrectable read of a line (R341). -/
def noteUncorrectable (s : State) (l : Nat) : State :=
  let c := chanOf l
  let s := setFs (bumpF s R.lftChannel_uncorrected c 1) [(R.lftEccLast_valid, 1), (R.lftEccLast_address, l)]
  raise s 0x9007 cPkg c ((l - loftWindow) % 2 ^ 38 / 64)

/-- Poisoned lines of a span. -/
def poisoned (s : State) (a n : Nat) : List Nat := s.upd.poison.filter (fun l => meets l 64 a n)

/-- A read of a span of the loft (R341): the state after it, and whether every line can be used. -/
def loftRead (s : State) (a n : Nat) : State × Bool :=
  let bad := poisoned s a n
  let s := forEach (s.upd.softErr.filter (fun l => meets l 64 a n)) noteCorrected s
  (forEach bad noteUncorrectable s, bad.isEmpty)

/-- The ECC events of a read whose data goes on as it is (R341) (DESIGN CHOICE, assumption 173). -/
def noteRead (s : State) (a n : Nat) : State := (loftRead s a n).1

/-- A row of a level record: 512 levels. -/
def recordRow (s : State) (base r : Nat) : List Int := (readBytes s (base + 512 * r) 512).map byteLevel

/-- The levels of a record that are not zero. -/
def recordLevels (s : State) (base : Nat) : List (Nat × Nat × Int) :=
  ((s.mem.filter (fun x => decide (base ≤ x.1) && decide (x.1 < base + recordSize))).map
    (fun x => ((x.1 - base) / 512, (x.1 - base) % 512, byteLevel x.2))).filter (fun x => x.2.2 != 0)

/-- Write achieved levels back to a level record (R239, R240). -/
def recordWrite (s : State) (base : Nat) (l : List (Nat × Nat × Int)) : State :=
  forEach ((List.range 512).filter (fun r => l.any (fun x => x.1 == r))) (fun s r =>
    patch s (base + 512 * r) 512 ((l.filter (fun x => x.1 == r)).map (fun x => (x.2.1, BitVec.ofInt 8 x.2.2)))) s

/-- The bytes of a whole level record with the listed levels, zero elsewhere. -/
def recordImage (l : List (Nat × Nat × Int)) : Bytes :=
  (List.range 512).flatMap (fun r =>
    let row := (l.filter (fun x => x.1 == r)).map (fun x => x.2)
    (List.range 512).map (fun c => BitVec.ofInt 8 ((tget? row c).getD 0)))

/-! ## Digital fallback images (R300, R301) -/

/-- Device address of fallback image `i` of a stall. -/
def imageBase (p i : Nat) : Nat := storeBase p + 0x380000 + 0x40000 * i

/-- The fallback image that holds a slot, if the slot is on fallback. -/
def fallbackOf (s : State) (p slot : Nat) : Option Nat :=
  if onF s R.genStall_fbValid0 p && getF s R.genStall_fbSlot0 p == slot then some 0
  else if onF s R.genStall_fbValid1 p && getF s R.genStall_fbSlot1 p == slot then some 1 else none

/-- A free fallback image of a stall. -/
def freeImage (s : State) (p : Nat) : Option Nat :=
  if !onF s R.genStall_fbValid0 p then some 0 else if !onF s R.genStall_fbValid1 p then some 1 else none

/-- Give a fallback image to a slot. -/
def takeImage (s : State) (p i slot : Nat) : State :=
  let s := if i = 0 then setF (setF s R.genStall_fbSlot0 p slot) R.genStall_fbValid0 p 1
    else setF (setF s R.genStall_fbSlot1 p slot) R.genStall_fbValid1 p 1
  setF s R.genStall_fbCount p (getF s R.genStall_fbCount p + 1)

/-- Free the fallback image of a slot. -/
def freeFallback (s : State) (p slot : Nat) : State :=
  match fallbackOf s p slot with
  | none => s
  | some i =>
    let s := if i = 0 then setF (setF s R.genStall_fbSlot0 p 0) R.genStall_fbValid0 p 0
      else setF (setF s R.genStall_fbSlot1 p 0) R.genStall_fbValid1 p 0
    setF s R.genStall_fbCount p (getF s R.genStall_fbCount p - 1)

/-- A chip's loft link retrains: its traffic is held (R338; DEDUCED, assumption 170). -/
def linkDown (s : State) (z : Nat) : Bool := (tget? s.upd.retraining z).isSome

/-- Some loft link retrains. -/
def anyLinkDown (s : State) : Bool := (List.range 4).any (linkDown s)

/-- Loft writes are open in READY, HARNESSED and HALTED (R340). -/
def loftOpen (s : State) : Bool := s.mode == .ready || s.mode == .harnessed || s.mode == .halted

end Sys2Proof.Machine
end

