-- ==== Sys2Proof/Machine/Recovery.lean ====
section
/-! DEFINITION. Machine/Recovery.lean: failed tiles, lost stalls, suspect units and their rest (R235, R428 to R430, R436,
R441, R442). -/
namespace Sys2Proof.Machine
open Sys2Proof

/-! ## Relief rotations and rebuilds in progress -/

/-- CAL.ROTATION of a stall follows its rotation. -/
def showRotation (s : State) (p : Nat) : State :=
  match fillOf s p false with
  | some f => setF (setF (setF (setF s R.calRotation_state p f.phase) R.calRotation_slot p f.slot)
      R.calRotation_sourcePos p f.fromTile) R.calRotation_reliefPos p f.toTile
  | none => setF (setF (setF (setF (setF s R.calRotation_state p 0) R.calRotation_slot p 0) R.calRotation_sourcePos p 0)
      R.calRotation_reliefPos p 0) R.calRotation_rowsFilled p 0

/-- End a stall's rotation or rebuild. -/
def dropFill (s : State) (p : Nat) (rebuild : Bool) : State :=
  let l := s.cal.fills.filter (fun f => !(f.stall == p && (f.phase == 6) == rebuild))
  showRotation { s with cal := { s.cal with fills := l } } p

/-- Replace a stall's rotation or rebuild. -/
def setFill (s : State) (f : Fill) : State :=
  let t := dropFill s f.stall (f.phase == 6)
  showRotation { t with cal := { t.cal with fills := t.cal.fills ++ [f] } } f.stall

/-- A running stall takes up the state its work gives it. -/
def settle (s : State) (p : Nat) : State :=
  if isRunning (getStall s p) then modStall s p (fun t => { t with st := runState s p }) else s

/-- Work for a tile aborts its idle re-trim (R229, R240). -/
def abortRetrim (s : State) (p u : Nat) : State :=
  if s.cal.trimming.contains (u, 0) then settle (abortIdle s u) p else s

/-- Trims of a stall's rotation end without a result. -/
def dropTrims (s : State) (p kind : Nat) : State :=
  { s with cal := { s.cal with trimming := s.cal.trimming.filter (fun q => !(q.1 / 34 == p && q.2 == kind)) } }

/-- Abandon a rotation for a row of R235 (event 0x5005). A trim on fallback, which is no rotation, just ends. -/
def abandonRotation (s : State) (p row : Nat) : State :=
  match fillOf s p false with
  | none => s
  | some f =>
    let t := dropFill (dropTrims s p 3) p false
    settle (if f.phase ≤ 4 then raise t 0x5005 (cStall p) row f.slot else t) p

/-! ## Writing a tile from a level record (R233, R236, R239, R439) -/

/-- Pairs that stick in a fill are recorded with their achieved levels (DEDUCED, assumption 121). -/
def recordStuck (s : State) (pl : Placement) (l : List (Nat × Nat × Int)) : State :=
  recordWrite s (levelAddr s pl) (l.filter (fun x => decide (x.2.1 < 512)))

/-- Fill tile `t` with the levels at `base`, for a slot whose weight step tile `k` holds. The state after it, and whether the
tile failed. -/
def fillTile (s : State) (p t k base : Nat) (pl : Placement) (w : WriteReport) : State × Bool :=
  let u := tileIx p t
  let s := setF s R.tilWstep_wstep u (getF s R.tilWstep_wstep (tileIx p k))
  let r := fullWrite s u (recordLevels s base) w
  (recordStuck r.1 pl r.2.stuck, r.2.failed)

/-- Write again the rows that a gate rewrote after the fill (R233). -/
def refillRows (s : State) (p t base : Nat) (rows : List Nat) (pl : Placement) (w : WriteReport) : State × Bool :=
  let l := rows.flatMap (fun r => (recordRow s base r).mapIdx (fun c q => (r, c, q)))
  let r := writePairs s (tileIx p t) l w
  (recordStuck r.1 pl r.2.stuck, r.2.failed)

/-- The rows of a level record can be read (R341). -/
def rowsReadable (s : State) (base : Nat) (rows : List Nat) : State × Bool :=
  rows.foldl (fun x r =>
    let y := loftRead x.1 (base + 512 * r) 512
    (y.1, x.2 && y.2)) (s, true)

/-- A slot moves to another tile (DEDUCED, assumption 119). -/
def moveSlot (s : State) (p slot t : Nat) : State :=
  let k := posOf (getStall s p) slot
  let s := modStall s p (fun x => { x with live := x.live.set slot t })
  let s := setF s R.tilStatus_busy (tileIx p t) (getF s R.tilStatus_busy (tileIx p k))
  let s := setF s R.tilStatus_mode (tileIx p t) (getF s R.tilStatus_mode (tileIx p k))
  setF s R.tilStatus_busy (tileIx p k) 0

/-! ## Barn rebuild counts (R440) -/

/-- PAIR.REBUILD of a barn follows its rebuilds. -/
def showRebuild (s : State) (b : Nat) : State :=
  let run := countIf s.cal.fills (fun f => f.phase == 6 && barnOf f.stall == b)
  let wait := countIf s.cal.rebuilds (fun r => barnOf r.stall == b)
  setF (setF s R.pairRebuild_running b run) R.pairRebuild_waiting b wait

/-- The spare of R439: the reserve tile, else the relief tile. -/
def nextSpare (s : State) (p : Nat) : Option Nat :=
  let t := getStall s p
  t.reserve <|> t.relief

/-- A stall without a spare has no rebuild to wait for: its slots stay on fallback (R439). -/
def pruneRebuilds (s : State) (p : Nat) : State :=
  if (nextSpare s p).isSome then s
  else showRebuild { s with cal := { s.cal with rebuilds := s.cal.rebuilds.filter (fun r => r.stall != p) } } (barnOf p)

/-! ## Lost stalls (R29, R442) -/

/-- TIL.STATUS.role of a tile, from its stall's role table: 0 live, 1 relief, 2 reserve, 3 bad. -/
def tileRole (s : State) (u : Nat) : Nat :=
  let t := getStall s (u / 34)
  let i := u % 34
  if t.bad.contains i then 3 else if t.live.contains i then 0 else if t.relief = some i then 1
  else if t.reserve = some i then 2 else 3

/-- TIL.STATUS.slot of a tile: its live slot, 0 without one. -/
def tileSlot (s : State) (u : Nat) : Nat :=
  if tileRole s u = 0 then (slotOf (getStall s (u / 34)) (u % 34)).getD 0 else 0

/-- The whole record has been streamed. -/
def loaded (s : State) (k : Nat) : Bool := decide (recordSize ≤ tget 0 s.cal.loads k)

/-- A transfer is used up, or begins anew. -/
def dropLoad (s : State) (k : Nat) : State := { s with cal := { s.cal with loads := tdel s.cal.loads k } }

/-- A stall is lost during a job: 0 GE, 1 tiles, 2 other (R442). Its store and trough are lost; it is disabled and the gate
window is held. -/
def loseStall (s : State) (p cause : Nat) : State :=
  let s := if (getStall s p).votes.isEmpty && (getStall s p).geVotes.isEmpty then s
    else setF s R.brdStatus_votesRunning 0 (getF s R.brdStatus_votesRunning - 1)
  let s := abandonRotation s p 5
  let s := dropFill s p true
  let s := { s with mem := tdrop s.mem (storeBase p) (storeBase p + 0x500000),
                    brandBad := s.brandBad.filter (fun q => !meets q.1 64 (storeBase p) 0x500000),
                    cal := { s.cal with rebuilds := s.cal.rebuilds.filter (fun r => r.stall != p),
                                        trimming := s.cal.trimming.filter (fun q => q.1 / 34 != p),
                                        failing := s.cal.failing.filter (fun q => q.1 != p),
                                        loads := s.cal.loads.filter (fun x => x.1 % 16384 / 32 != p) },
                    gov := { s.gov with waitq := s.gov.waitq.filter (fun q => q.stall != p),
                                        granted := s.gov.granted.filter (fun q => q != p),
                                        toPark := s.gov.toPark.filter (fun q => q.1 != p) } }
  let s := setChan (showRebuild s (barnOf p)) (64 + p) { getChan s (64 + p) with st := 0, pending := 0, byPark := false }
  let s := modStall s p (fun t => { t with st := .disabled, stop := true, granted := false, votes := [], geVotes := [] })
  raise (holdGate s) 0xD007 (cStall p) cause (placedOn s p).length

/-! ## Failed tiles (R235, R436, R441) -/

/-- A failed slot waits for its fallback (R437). -/
def noteFailing (s : State) (p slot cause : Nat) : State :=
  { s with cal := { s.cal with failing := s.cal.failing ++ [(p, slot, cause, s.now)] } }

/-- The rebuild whose spare fails waits again, for the next spare (R441). -/
def restartRebuild (s : State) (p : Nat) (f : Fill) : State :=
  let s := raise (dropFill (dropTrims s p 5) p true) 0xD006 (cStall p) f.slot 0
  showRebuild { s with cal := { s.cal with rebuilds := ⟨p, f.slot, f.since⟩ :: s.cal.rebuilds } } (barnOf p)

/-- A spare that fails is lost (R436). -/
def loseSpare (s : State) (p t : Nat) : State :=
  let st := getStall s p
  if st.relief = some t then raise (modStall s p (fun x => { x with relief := none })) 0xD002 (cTile p t) 0 0
  else if st.reserve = some t then raise (modStall s p (fun x => { x with reserve := none })) 0xD002 (cTile p t) 1 0
  else s

/-- The relief tile takes over from a tile that failed after the fill was complete (R235): the rows that a gate rewrote since
are written again first. -/
def takeOver (s : State) (p : Nat) (f : Fill) : State :=
  let s := match placeOf s p f.slot with
    | some pl => (refillRows (rowsReadable s (levelAddr s pl) f.rows).1 p f.toTile (levelAddr s pl) f.rows pl []).1
    | none => s
  let s := modStall (moveSlot s p f.slot f.toTile) p (fun x => { x with relief := none })
  raise (abandonRotation s p 2) 0xD002 (cTile p f.fromTile) 0 0

/-- The rows of a rotation that a gate rewrote can be read from the slot's level record (R235). -/
def recordIntact (s : State) (p : Nat) (f : Fill) : Bool :=
  (placeOf s p f.slot).all (fun pl => (rowsReadable s (levelAddr s pl) f.rows).2)

/-- A live slot's tile has failed. A rotation that has filled its relief tile takes over at once; any other slot waits for
its fallback (R235, R437). A rotation's rows count as written when its fill is done (DEDUCED, assumption 160). -/
def failSlot (s : State) (p t slot cause : Nat) : State :=
  match fillOf s p false with
  | some f =>
    if f.fromTile ≠ t then noteFailing s p slot cause
    else if (f.phase = 2 ∨ f.phase = 3) ∧ recordIntact s p f then takeOver s p f
    else if f.phase ≤ 3 then noteFailing (abandonRotation s p 3) p slot cause
    else noteFailing (settle (dropFill s p false) p) p slot cause
  | none => noteFailing s p slot cause

/-- A tile fails: 1 strike, 2 re-trim, 3 stuck, 4 worn, 5 other. It is bad from this instant and listed in the field map.
A spare is lost; a live slot waits for its fallback; with more than two bad tiles the stall is lost. -/
def failTile (s : State) (p t cause : Nat) : State :=
  let st := getStall s p
  if st.bad.contains t then s
  else
    let s := fieldOff (modStall s p (fun x => { x with bad := x.bad ++ [t] })) p (some t)
    let s := { s with cal := { s.cal with trimming := s.cal.trimming.filter (fun q => q.1 != tileIx p t) } }
    let s := if (fillOf s p false).any (fun f => f.toTile == t && decide (f.phase ≤ 3)) then abandonRotation s p 1 else s
    let s := if (fillOf s p false).any (fun f => f.fromTile == t && f.phase == 4) then dropFill s p false else s
    let s := match fillOf s p true with
      | some f => if f.toTile = t then restartRebuild s p f else s
      | none => s
    let s := loseSpare s p t
    if 2 < (getStall s p).bad.length then loseStall s p 1
    else
      match slotOf st t with
      | none => settle (pruneRebuilds s p) p
      | some slot => failSlot s p t slot cause

/-! ## Suspect units and rest (R428 to R430) -/

/-- Suspect units of a stall. -/
def suspects (s : State) (p : Nat) : Nat := getF s R.brdStall_suspectTiles p + b2n (getF s R.brdStall_geState p == 1)

/-- The rest of a stall, by its suspect units and rest_mode (R428). -/
def restStall (s : State) (p : Nat) : State :=
  let n := suspects s p
  let m := getF s R.brdCtl_restMode
  let v := if m = 0 then min 3 n else 0
  let c := if m = 1 ∧ 0 < n then 1 else 0
  let s := setF (setF s R.pwrStallV_vOffset p v) R.clkStall_restStep p c
  raiseStep (setF (setF s R.brdStall_vRest p v) R.brdStall_clockRest p c)

/-- The suspect counts follow the units' states. -/
def countSuspects (s : State) (p : Nat) : State :=
  let n := countIf (List.range 34) (fun t => getF s R.brdTile_state (tileIx p t) == 1)
  let old := getF s R.brdStall_suspectTiles p
  let s := setF s R.brdStall_suspectTiles p n
  setF s R.brdStatus_suspectTiles 0 (getF s R.brdStatus_suspectTiles + n - old)

/-- Detail 1 of event 0xC007. -/
def restDetail (s : State) (p : Nat) : Nat :=
  let m := getF s R.brdCtl_restMode
  m * 16 + (if m = 0 then getF s R.pwrStallV_vOffset p else getF s R.clkStall_restStep p)

/-- A strike against a tile; `loss` 1 data path, 2 checksum path, 3 both (R428, R429). -/
def strikeTile (s : State) (p t loss : Nat) : State :=
  let u := tileIx p t
  let s := setF s R.brdTile_lastLoss u loss
  match getF s R.brdTile_state u with
  | 0 =>
    let s := setF (setF (setF s R.brdTile_state u 1) R.brdTile_strikes u 1) R.brdTile_suspectStep u (stepNo s)
    let s := restStall (countSuspects s p) p
    raise s 0xC007 (cTile p t) 0 (restDetail s p)
  | 1 =>
    let steps := stepNo s - getF s R.brdTile_suspectStep u
    let s := setF (setF s R.brdTile_state u 2) R.brdTile_strikes u 2
    let s := restStall (countSuspects s p) p
    failTile (raise s 0xC008 (cTile p t) 0 steps) p t 1
  | _ => s

/-- A strike against a GE (R428, R429). -/
def strikeGe (s : State) (p : Nat) : State :=
  match getF s R.brdStall_geState p with
  | 0 =>
    let s := setF (setF (setF s R.brdStall_geState p 1) R.brdStall_geStrikes p 1) R.brdStall_geSuspectStep p (stepNo s)
    let s := restStall (setF s R.brdStatus_suspectGes 0 (getF s R.brdStatus_suspectGes + 1)) p
    raise s 0xC007 (cStall p) 1 (restDetail s p)
  | 1 =>
    let steps := stepNo s - getF s R.brdStall_geSuspectStep p
    let s := setF (setF s R.brdStall_geState p 2) R.brdStall_geStrikes p 2
    let s := restStall (setF s R.brdStatus_suspectGes 0 (getF s R.brdStatus_suspectGes - 1)) p
    loseStall (fieldOff (raise s 0xC008 (cStall p) 1 steps) p none) p 0
  | _ => s

/-- R430 at a gate commit of step `n`: suspect units whose watch has passed become good. -/
def clearSuspects (s : State) (n : Nat) : State :=
  let w := getF s R.brdCtl_watchSteps
  forEach (List.range 512) (fun s p =>
    if suspects s p = 0 then s
    else
      let s := forEach (List.range 34) (fun s t =>
        let u := tileIx p t
        if getF s R.brdTile_state u = 1 ∧ getF s R.brdTile_suspectStep u + w ≤ n then
          raise (setF (setF (setF s R.brdTile_state u 0) R.brdTile_strikes u 0) R.brdTile_suspectStep u 0)
            0xC009 (cTile p t) 0 0
        else s) s
      let s := if getF s R.brdStall_geState p = 1 ∧ getF s R.brdStall_geSuspectStep p + w ≤ n then
          raise (setF (setF (setF (setF s R.brdStall_geState p 0) R.brdStall_geStrikes p 0) R.brdStall_geSuspectStep p 0)
            R.brdStatus_suspectGes 0 (getF s R.brdStatus_suspectGes - 1)) 0xC009 (cStall p) 1 0
        else s
      restStall (countSuspects s p) p) s

end Sys2Proof.Machine
end

