-- ==== Sys2Proof/Machine/Image.lean ====
section
/-! DEFINITION. Machine/Image.lean: the container of a harness image, its plan tag, its section records, and what the checks
2 and 6 of a load or an amendment judge (R158 to R173, R250, R276, R288, R297, R306, R343 to R356). -/
namespace Sys2Proof.Machine
open Sys2Proof

/-! ## Container (R159 to R163) -/

/-- The sections of R161 with the size of a fixed record, 0 for a body of variable layout. -/
def sectionSizes : List (Nat × Nat) :=
  [(0x01, 64), (0x02, 32), (0x03, 32), (0x04, 16), (0x05, 16), (0x06, 8), (0x07, 0), (0x08, 0), (0x09, 0), (0x40, 8),
   (0x41, 8), (0x42, 8)]

/-- Sections a full image must hold. -/
def requiredTypes : List Nat := sectionSizes.map (fun p => p.1)

/-- Sections an amendment may hold. -/
def amendableTypes : List Nat := [0x05, 0x06, 0x07, 0x08, 0x09, 0x40, 0x41, 0x42]

/-- A type below 0x40 is structural. -/
def structuralType (t : Nat) : Bool := decide (t < 0x40)

/-- The 16-byte directory entries of an image (R160). -/
def dirEntries (b : Bytes) : List Bytes := (List.range (fieldAt b 0x0C 2)).map (fun i => slice b (0x40 + 16 * i) 16)

/-- The sections of an image, by type. -/
def sectionsOf (b : Bytes) : List (Nat × Bytes) :=
  (dirEntries b).map (fun e => (fieldAt e 0 1, slice b (fieldAt e 4 4) (fieldAt e 8 4)))

/-- The body of a section; none of a type reads as empty. -/
def body (raw : List (Nat × Bytes)) (t : Nat) : Bytes := ((raw.find? (fun p => p.1 == t)).map (fun p => p.2)).getD []

/-- The place after `n` step programs, each a byte length, a zero word and its bytes (R170); none where they do not fit. -/
def programsEnd (b : Bytes) : Nat → Nat → Option Nat
  | 0, off => some off
  | n + 1, off =>
    if off + 8 ≤ b.length then programsEnd b n (off + 8 + fieldAt b off 4) else none

/-- Whether a section's length is what its records and counts give (R160). -/
def lengthSuits (t count : Nat) (b : Bytes) : Bool :=
  if t = 0x7F then true
  else if t = 0x07 then
    decide (72 ≤ b.length) && fieldAt b 64 4 == count
      && programsEnd b count (72 + 8 * fieldAt b 68 4) == some b.length
  else if t = 0x08 then
    decide (8 ≤ b.length) && fieldAt b 0 2 == count && b.length == 8 + 520 * count + 16 * fieldAt b 2 2
  else if t = 0x09 then decide (8 ≤ b.length) && fieldAt b 4 2 == count && b.length == 8 + 8 * count
  else
    match sectionSizes.find? (fun p => p.1 == t) with
    | some p => b.length == p.2 * count && (t != 0x01 || count == 1)
    | none => false

/-- Whether the entries are in order, each section following the one before it (R160, R161); `pos` is where the next
begins and `prev` the type before it, plus one. -/
def entriesForm (b : Bytes) : List Bytes → Nat → Nat → Bool
  | [], pos, _ => b.length == pos + 128
  | e :: r, pos, prev =>
    let t := fieldAt e 0 1
    let len := fieldAt e 8 4
    (t == 0x7F || requiredTypes.contains t) && decide (prev ≤ t) && fieldAt e 1 1 == b2n (structuralType t)
      && zeroAt e 2 2 && fieldAt e 4 4 == pos && len % 8 == 0 && decide (pos + len + 128 ≤ b.length)
      && (t == 0x7F || len != 0 || fieldAt e 12 4 == 0) && lengthSuits t (fieldAt e 12 4) (slice b pos len)
      && entriesForm b r (pos + len) (t + 1)

/-- The types an image holds suit its kind (R161). -/
def typesSuit (kind : Nat) (ts : List Nat) : Bool :=
  if kind = 0 then requiredTypes.all (fun t => ts.contains t)
  else !ts.isEmpty && ts.all (fun t => amendableTypes.contains t)

/-- Check 2: header, directory, section layout and the zero bytes after the signature (R159 to R162). An amendment names
the active image's module count (DEDUCED, assumption 61). -/
def imageForm (kind modules : Nat) (b : Bytes) : Bool :=
  let n := fieldAt b 0x0C 2
  decide (208 ≤ b.length) && fieldAt b 0 4 == 0x4E524856 && fieldAt b 4 2 == 1 && fieldAt b 6 1 == kind && zeroAt b 7 1
    && fieldAt b 8 4 == b.length && b.length % 8 == 0 && decide (1 ≤ n) && decide (n ≤ 32)
    && decide (fieldAt b 0x0E 1 ≤ 3) && zeroAt b 0x0F 1 && (kind == 1 || zeroAt b 0x18 8) && zeroAt b 0x2A 22
    && decide (1 ≤ fieldAt b 0x28 2) && decide (fieldAt b 0x28 2 ≤ 4096)
    && entriesForm b (dirEntries b) (0x40 + 16 * n) 0 && typesSuit kind ((sectionsOf b).map (fun p => p.1))
    && fieldAt b 0x28 2 == (if kind = 0 then fieldAt (body (sectionsOf b) 0x01) 0x0C 2 else modules)
    && zeroAt b (b.length - 14) 14

/-- The plan tag of a set of sections (R163). -/
def planTagOf (raw : List (Nat × Bytes)) : Nat :=
  let one := fun (t : Nat) =>
    match raw.find? (fun p => p.1 == t) with
    | some p => leBytes 4 t ++ leBytes 4 p.2.length ++ p.2
    | none => []
  leNat (shake256 (ascii "VRH-PLAN" ++ ((rangeFrom 1 0x3F).map one).flatten) 8)

/-- Check 3: the signature, under the key of an ACTIVE slot (R162). -/
def imageSigned (s : State) (b : Bytes) : Bool :=
  let k := s.nv.slots.getD (fieldAt b 0x0E 1) ⟨0, []⟩
  k.st == 1 && verify k.key "VRHHRN" (b.take (b.length - 128)) (slice b (b.length - 128) 114)

/-! ## Section records (R164 to R173) -/

/-- The records of a section. -/
def recs (size : Nat) (b : Bytes) : List Bytes := (List.range (b.length / size)).map (fun i => slice b (size * i) size)

/-- JOB (R164). -/
def jobOf (b : Bytes) : JobRec :=
  { narrow := fieldAt b 0 1 == 1, layers := fieldAt b 2 2, dModel := fieldAt b 4 2, topK := fieldAt b 6 1,
    maxSeq := fieldAt b 8 4, moduleCount := fieldAt b 0x0C 2, portsMin := fieldAt b 0x0E 1,
    expertIds := fieldAt b 0x10 4, planSalt := fieldAt b 0x14 4, seed := fieldAt b 0x18 8 }

/-- A MODULES record (R165). -/
def modRecOf (b : Bytes) : ModRec :=
  { installation := fieldAt b 0 8, bay := fieldAt b 8 2, stallsUsed := fieldAt b 10 2, homes := fieldAt b 12 2,
    loftGib := fieldAt b 14 2 }

/-- A PLACEMENT record (R166). -/
def placementOf (b : Bytes) : Placement :=
  { module := fieldAt b 0 2, stall := fieldAt b 2 2, slot := fieldAt b 4 1, twoSlice := bit (fieldAt b 5 1) 0,
    layer := fieldAt b 6 2, tensor := fieldAt b 8 1, home := fieldAt b 0x0A 2, rowSeg := fieldAt b 0x0C 2,
    colBlk := fieldAt b 0x0E 2, loftAddr := fieldAt b 0x10 8, ownerStall := fieldAt b 0x18 2,
    sumOrder := fieldAt b 0x1A 1, updateProgram := fieldAt b 0x1C 2 }

/-- An EXPERT_HOMES record (R167). -/
def homeRecOf (b : Bytes) : HomeRec :=
  { expert := fieldAt b 0 2, layer := fieldAt b 2 2, module := fieldAt b 4 2, home := fieldAt b 6 2,
    entryStall := fieldAt b 8 2, stallCount := fieldAt b 10 2 }

/-- An ATTENTION record (R168). -/
def attnRecOf (b : Bytes) : AttnRec :=
  { layer := fieldAt b 0 2, qLog2 := fieldAt b 2 1, kLog2 := fieldAt b 3 1, topKb := fieldAt b 4 1,
    firstModule := fieldAt b 8 2, moduleSpan := fieldAt b 10 2 }

/-- A FORMATS rule (R169). -/
def fmtRuleOf (b : Bytes) : FmtRule :=
  { layer := fieldAt b 0 2, cls := fieldAt b 2 1, format := fieldAt b 3 1, carry := bit (fieldAt b 4 1) 0,
    mx := bit (fieldAt b 4 1) 1 }

/-- Words of eight bytes. -/
def wordsOf (b : Bytes) : List Nat := (recs 8 b).map leNat

/-- The step programs from an offset on (R170). -/
def programsFrom (b : Bytes) : Nat → Nat → List (List Nat)
  | 0, _ => []
  | n + 1, off => wordsOf (slice b (off + 8) (fieldAt b off 4)) :: programsFrom b n (off + 8 + fieldAt b off 4)

/-- The places of the step programs. -/
def programPlaces (b : Bytes) : Nat → Nat → List Nat
  | 0, _ => []
  | n + 1, off => off :: programPlaces b n (off + 8 + fieldAt b off 4)

/-- An update program (R171): the slots beyond instr_count are zero and no instruction. -/
def updProgOf (b : Bytes) : UpdProg := { id := fieldAt b 0 2, slots := wordsOf (slice b 8 (8 * fieldAt b 2 1)) }

/-- A loft-tensor record (R171, R344). -/
def loftTensorOf (b : Bytes) : LoftTensor :=
  { addr := fieldAt b 0 6, module := fieldAt b 6 2, rows := fieldAt b 8 4, rowLen := fieldAt b 12 2,
    program := fieldAt b 14 2 }

/-- A TEAM record (R172). -/
def teamRecOf (b : Bytes) : TeamRec :=
  { a := fieldAt b 0 2, b := fieldAt b 2 2, portA0 := fieldAt b 4 1, portA1 := fieldAt b 5 1, portB0 := fieldAt b 6 1,
    portB1 := fieldAt b 7 1 }

/-- The sections of an image, decoded. -/
def decodeImage (raw : List (Nat × Bytes)) (length planTag buildId : Nat) : Image :=
  let st := body raw 0x07
  let up := body raw 0x08
  let tm := body raw 0x09
  { raw := raw, length := length, planTag := planTag, buildId := buildId, job := jobOf (body raw 0x01),
    modules := (recs 32 (body raw 0x02)).map modRecOf, placement := (recs 32 (body raw 0x03)).map placementOf,
    homes := (recs 16 (body raw 0x04)).map homeRecOf, attention := (recs 16 (body raw 0x05)).map attnRecOf,
    formats := (recs 8 (body raw 0x06)).map fmtRuleOf, frozen := slice st 0 64,
    bindings := (recs 8 (slice st 72 (8 * fieldAt st 68 4))).map (fun b => (fieldAt b 0 2, fieldAt b 2 2, fieldAt b 4 2)),
    programs := programsFrom st (fieldAt st 64 4) (72 + 8 * fieldAt st 68 4),
    updates := (recs 520 (slice up 8 (520 * fieldAt up 0 2))).map updProgOf,
    loftTensors := (recs 16 (slice up (8 + 520 * fieldAt up 0 2) (16 * fieldAt up 2 2))).map loftTensorOf,
    intervalK := fieldAt tm 0 1, strict := fieldAt tm 1 1 == 1, bufferMib := fieldAt tm 2 2,
    teams := (recs 8 (slice tm 8 (8 * fieldAt tm 4 2))).map teamRecOf,
    capacities := (recs 8 (body raw 0x40)).map (fun b => (fieldAt b 0 2, fieldAt b 4 4)),
    arbitration := (recs 8 (body raw 0x41)).map (fun b => (fieldAt b 0 2, fieldAt b 2 2, fieldAt b 4 1, fieldAt b 5 1)),
    constants := (recs 8 (body raw 0x42)).map (fun b => (fieldAt b 0 2, fieldAt b 2 1, fieldAt b 4 4)) }

/-- The sections that stand once an amendment is applied (R163, R180). -/
def mergeRaw (raw new : List (Nat × Bytes)) : List (Nat × Bytes) :=
  raw.map (fun p => match new.find? (fun q => q.1 == p.1) with | some q => q | none => p)

/-! ## Check 6 -/

/-- Numbers that rise strictly. -/
def rising : List Nat → Bool
  | [] => true
  | [_] => true
  | a :: b :: r => decide (a < b) && rising (b :: r)

/-- A value within limits. -/
def between (lo v hi : Nat) : Bool := decide (lo ≤ v) && decide (v ≤ hi)

/-- JOB's form and limits (R164). -/
def jobForm (b : Bytes) : Bool :=
  let d := fieldAt b 4 2
  decide (fieldAt b 0 1 ≤ 1) && zeroAt b 1 1 && between 1 (fieldAt b 2 2) 512 && between 64 d 16384 && d % 64 == 0
    && between 1 (fieldAt b 6 1) 16 && zeroAt b 7 1 && between 1 (fieldAt b 8 4) 8388608
    && between 1 (fieldAt b 0x0C 2) 4096 && between 16 (fieldAt b 0x0E 1) 24 && zeroAt b 0x0F 1
    && decide (fieldAt b 0x10 4 ≤ 65536) && zeroAt b 0x20 32

/-- Two placements of one block: same module, layer, tensor, row segment and column block (DEDUCED, assumption 62). -/
def sameBlock (x y : Placement) : Bool :=
  x.module == y.module && x.layer == y.layer && x.tensor == y.tensor && x.rowSeg == y.rowSeg && x.colBlk == y.colBlk

/-- The contributors of a block (R297): the records of the same block and owner with a place above 0. -/
def contributors (l : List Placement) (x : Placement) : List Placement :=
  l.filter (fun y => sameBlock x y && y.ownerStall == x.ownerStall && y.sumOrder != 0)

/-- The distinct elements of a list. -/
def distinct (l : List Nat) : List Nat := l.eraseDups

/-- The home values a stall carries (R30). -/
def homesOnStall (l : List Placement) (m p : Nat) : List Nat :=
  distinct ((l.filter (fun x => x.module == m && x.stall == p && x.home != 0xFFFF)).map (fun x => x.home))

/-- A tensor of an expert. -/
def expertTensor (t : Nat) : Bool := t == 4 || t == 5 || t == 6

/-- One PLACEMENT record's limits (R30, R166, R297, R344). -/
def placementOk (j : JobRec) (l : List Placement) (x : Placement) : Bool :=
  let orders := (contributors l x).map (fun y => y.sumOrder)
  decide (x.module < j.moduleCount) && decide (x.stall < 512) && decide (x.slot < 32) && decide (x.layer < j.layers)
    && decide (x.tensor ≤ 11) && (if expertTensor x.tensor then decide (x.home ≤ 2047) else x.home == 0xFFFF)
    && decide (x.ownerStall < 512) && decide (x.loftAddr < 2 ^ 48)
    && decide ((homesOnStall l x.module x.stall).length ≤ 4)
    && l.any (fun y => sameBlock x y && y.stall == x.ownerStall)
    && (x.sumOrder != 0 || x.ownerStall == x.stall)
    && (rangeFrom 1 orders.length).all (fun k => orders.contains k)

/-- PLACEMENT's form (R166). -/
def placementForm (j : JobRec) (b : Bytes) : Bool :=
  let r := recs 32 b
  let l := r.map placementOf
  r.all (fun e => decide (fieldAt e 5 1 ≤ 1) && zeroAt e 9 1 && zeroAt e 0x1B 1 && zeroAt e 0x1E 2)
    && rising (l.map (fun x => (x.module * 65536 + x.stall) * 256 + x.slot)) && l.all (placementOk j l)

/-- The placements of an expert home (R306). -/
def homePlaces (l : List Placement) (m h : Nat) : List Placement := l.filter (fun x => x.module == m && x.home == h)

/-- EXPERT_HOMES' form (R41, R167, R306). -/
def homesForm (j : JobRec) (l : List Placement) (b : Bytes) : Bool :=
  let r := recs 16 b
  let hs := r.map homeRecOf
  r.all (fun e => zeroAt e 12 4) && hs.map (fun h => h.expert) == List.range j.expertIds
    && hs.all (fun h =>
      decide (h.layer < j.layers) && decide (h.module < j.moduleCount) && decide (h.home ≤ 2047)
        && countIf hs (fun g => g.module == h.module && g.home == h.home) == 1
        && h.stallCount == (distinct ((homePlaces l h.module h.home).map (fun x => x.stall))).length
        && (homePlaces l h.module h.home).any (fun x => x.stall == h.entryStall && (x.tensor == 4 || x.tensor == 5)))
    && l.all (fun x => x.home == 0xFFFF || hs.any (fun h => h.module == x.module && h.home == x.home))

/-- MODULES' form (R165). -/
def modulesForm (j : JobRec) (l : List Placement) (hs : List HomeRec) (b : Bytes) : Bool :=
  let r := recs 32 b
  r.length == j.moduleCount && r.all (fun e => zeroAt e 16 16)
    && (r.mapIdx (fun i e => (i, modRecOf e))).all (fun x =>
      x.2.stallsUsed == (distinct ((l.filter (fun y => y.module == x.1)).map (fun y => y.stall))).length
        && x.2.homes == countIf hs (fun h => h.module == x.1))

/-- ATTENTION's form (R168). -/
def attentionForm (j : JobRec) (b : Bytes) : Bool :=
  let r := recs 16 b
  let l := r.map attnRecOf
  r.all (fun e => zeroAt e 5 3 && zeroAt e 12 4) && rising (l.map (fun x => x.layer))
    && l.all (fun x => decide (x.layer < j.layers) && between 6 x.qLog2 16 && between 6 x.kLog2 16 && between 1 x.topKb 64
      && decide (x.firstModule < j.moduleCount) && between 1 x.moduleSpan (j.moduleCount - x.firstModule))

/-- FORMATS' form (R169, R250, R272). -/
def formatsForm (j : JobRec) (b : Bytes) : Bool :=
  let r := recs 8 b
  let l := r.map fmtRuleOf
  r.all (fun e => decide (fieldAt e 4 1 ≤ 3) && zeroAt e 5 3) && rising (l.map (fun x => x.layer * 256 + x.cls))
    && l.all (fun x => (decide (x.layer < j.layers) || x.layer == 0xFFFF) && decide (x.cls ≤ 4) && between 1 x.format 5
      && (!x.mx || decide (x.format ≤ 2)) && (!x.carry || x.mx) && !(j.narrow && x.format == 5))
    && (List.range 5).all (fun c => l.any (fun x => x.layer == 0xFFFF && x.cls == c))

/-! ### Step programs (R276, R286 to R288) -/

/-- Bits [hi:lo] set. -/
def span (p : Nat × Nat) : Nat := 2 ^ (p.1 + 1) - 2 ^ p.2

/-- The field bits of an opcode between the opcode and wg (R286); none for an unknown opcode. -/
def stepFields (op : Nat) : Option (List (Nat × Nat)) :=
  match op with
  | 0x00 => some []
  | 0x01 => some []
  | 0x02 => some []
  | 0x03 => some [(55, 25)]
  | 0x04 => some [(55, 52), (48, 1)]
  | 0x05 => some [(55, 48), (32, 1)]
  | 0x06 => some [(55, 48), (16, 1)]
  | 0x07 => some [(55, 48), (16, 1)]
  | 0x08 => some [(55, 52), (16, 1)]
  | 0x09 => some [(55, 40)]
  | 0x0A => some [(55, 52)]
  | 0x10 => some [(55, 42)]
  | 0x11 => some [(55, 23)]
  | 0x20 => some [(55, 28)]
  | 0x30 => some [(55, 43)]
  | 0x31 => some [(55, 36)]
  | 0x32 => some [(55, 21)]
  | 0x33 => some [(55, 51), (32, 1)]
  | 0x40 => some [(55, 55)]
  | 0x41 => some [(55, 42)]
  | 0x50 => some [(55, 52)]
  | 0x51 => some [(55, 52)]
  | 0x52 => some [(55, 52)]
  | 0x53 => some [(55, 52)]
  | _ => none

/-- The opcode of a step-program instruction. -/
def stepOp (w : Nat) : Nat := bits w 63 56

/-- Whether a pairing of operand formats is one of R276. -/
def pairing (a b : Nat) : Bool :=
  (between 1 a 2 && between 1 b 2) || (a == 3 && b == 3) || (a == 8 && b == 8)

/-- What R276, R287 and R288 ask of one instruction at index `i`. -/
def instrOk (i w : Nat) : Bool :=
  match stepFields (stepOp w) with
  | none => false
  | some fs =>
    let named := stepOp w * 2 ^ 56 + (fs.map span).sum + 1
    let wg := bit w 0
    Nat.land w named == w
      && (match stepOp w with
        | 0x08 => between 1 (bits w 16 1) i
        | 0x09 => !bit w 54 && !bit w 55
        | 0x20 => pairing (bits w 39 36) (bits w 35 32) && (decide (2 ≤ bits w 29 28) || wg)
        | 0x30 => between 1 (bits w 46 43) 6
        | 0x31 => decide (bits w 46 43 ≤ 5) || bits w 46 43 == 15
        | 0x32 => decide (bits w 35 30 ≤ 20)
        | 0x33 => decide (bits w 32 1 % 2 ^ 31 < 0x7F800000)
        | 0x40 => wg
        | 0x41 => wg
        | _ => true)

/-- A step program (R170, R284, R288). -/
def programOk (p : List Nat) : Bool :=
  between 1 p.length 8192 && (p.mapIdx (fun i w => instrOk i w)).all id && (p.getLast?.map stepOp) == some 2
    && countIf p (fun w => stepOp w == 1) == 1

/-- STEP_PROGRAMS' form (R170). -/
def stepsForm (j : JobRec) (l : List Placement) (b : Bytes) : Bool :=
  let n := fieldAt b 64 4
  let bs := recs 8 (slice b 72 (8 * fieldAt b 68 4))
  let places := programPlaces b n (72 + 8 * fieldAt b 68 4)
  let key := fun (e : Bytes) => fieldAt e 0 2 * 65536 + fieldAt e 2 2
  bs.all (fun e => zeroAt e 6 2 && decide (fieldAt e 0 2 < j.moduleCount) && decide (fieldAt e 2 2 < 512)
      && decide (fieldAt e 4 2 < n) && l.any (fun x => x.module * 65536 + x.stall == key e))
    && rising (bs.map key) && l.all (fun x => bs.any (fun e => x.module * 65536 + x.stall == key e))
    && places.all (fun o => fieldAt b o 4 % 8 == 0 && decide (fieldAt b o 4 ≤ 65536) && zeroAt b (o + 4) 4)
    && (programsFrom b n (72 + 8 * fieldAt b 68 4)).all programOk

/-! ### Update programs (R343, R346, R351 to R356) -/

/-- The fields of an update slot (R351). -/
def updFields (op : Nat) : Option (List (Nat × Nat)) :=
  match op with
  | 1 => some [(55, 47), (24, 0)]
  | 2 => some [(55, 36)]
  | 3 => some [(55, 30)]
  | 4 => some [(47, 42), (6, 0)]
  | 5 => some [(55, 54), (47, 42), (6, 0)]
  | _ => none

/-- The number of operands of an update operation (R352). -/
def opArity (k : Nat) : Nat := if k == 3 || k == 11 then 3 else if k == 7 || k == 8 || k == 9 then 1 else 2

/-- The source codes an update slot reads. -/
def srcReads (w : Nat) : List Nat :=
  match updOp w with
  | 3 => [bits w 47 42, bits w 41 36, bits w 35 30].take (opArity (bits w 51 48))
  | 4 => [bits w 47 42]
  | 5 => [bits w 47 42]
  | _ => []

/-- Whether a source is uniform, given the uniform and the other written registers (R354). -/
def uniformSource (uni : List Nat) (c : Nat) : Bool :=
  if c < 16 then uni.contains c else decide (c < 32) || decide (38 ≤ c)

/-- What R351, R352 and R356 ask of the slots in order; `w` holds the registers written, `u` those that are uniform. -/
def slotsOk (planes : List Nat) : List Nat → List Nat → List Nat → Bool
  | [], _, _ => true
  | x :: r, w, u =>
    let op := updOp x
    let reads := srcReads x
    let uni := reads.all (uniformSource u)
    let d := bits x 55 52
    match updFields op with
    | none => false
    | some fs =>
      Nat.land x (op * 2 ^ 56 + (fs.map span).sum) == x
        && reads.all (fun c => (if c < 16 then w.contains c else decide (c ≤ 41))
          && (!between 34 c 37 || planes.contains (c - 33)))
        && (op != 3 || (decide (bits x 51 48 ≤ 11) && decide (bits x 47 42 ≤ 41) && decide (bits x 41 36 ≤ 41)
          && decide (bits x 35 30 ≤ 41) && (bits x 51 48 != 10 || uni)))
        && (op != 5 || planes.contains (1 + bits x 55 54))
        && (if op = 3 then slotsOk planes r (d :: w) (if uni then d :: u else u.filter (fun y => y != d))
            else slotsOk planes r w u)

/-- Whether a plane's width and f16 bit suit the numeric mode (R343, R346). -/
def planeOk (narrow : Bool) (p : Nat × Plane) : Bool :=
  let j := p.1
  let w := p.2.width
  decide (j ≤ 7) && (!p.2.f16 || (narrow && decide (j ≤ 4)))
    && (if j = 0 then w == (if narrow then 2 else 3) else if j ≤ 4 then w == (if narrow then 2 else 4)
        else if j = 5 then w == 4 else if j = 6 then w == 1 || w == 2 else w == 0)

/-- No number twice. -/
def once (l : List Nat) : Bool := l.all (fun a => countIf l (fun b => b == a) == 1)

/-- The chip a program's planes lie on. -/
def progChip (slots : List Nat) : Nat := (planeIn slots 0).base / 2 ^ 39

/-- An update program's form (R171, R346, R356); `b` is its 520 bytes. -/
def updateOk (narrow : Bool) (b : Bytes) : Bool :=
  let n := fieldAt b 2 1
  let sl := (updProgOf b).slots
  let ps := planesOf sl
  let of := fun (k : Nat) => sl.filter (fun w => updOp w == k)
  between 1 n 64 && zeroAt b 3 5 && zeroAt b (8 + 8 * n) (512 - 8 * n) && slotsOk (ps.map (fun p => p.1)) sl [] []
    && ps.all (planeOk narrow) && once (ps.map (fun p => p.1))
    && [0, 5, 7].all (fun j => ps.any (fun p => p.1 == j)) && ps.all (fun p => p.2.base / 2 ^ 39 == progChip sl)
    && decide ((of 4).length ≤ 1) && decide ((of 2).length ≤ 1) && once ((of 5).map (fun w => bits w 55 54))
    && once ((of 4 ++ of 5).map (fun w => bits w 6 0))

/-- Whether units that begin at `addr` suit their program: first slot a whole multiple of 64, on the program's chip
(R344, R346). -/
def placeSuits (slots : List Nat) (addr : Nat) : Bool :=
  let m := planeIn slots 0
  let off := addr % 2 ^ 48 - loftWindow
  decide (loftWindow + m.base ≤ addr % 2 ^ 48) && (off - m.base) % (64 * max 1 m.width) == 0
    && off / 2 ^ 39 == progChip slots

/-- UPDATE_PROGRAMS' form (R171, R346, R356). -/
def updatesForm (j : JobRec) (l : List Placement) (b : Bytes) : Bool :=
  let n := fieldAt b 0 2
  let ps := recs 520 (slice b 8 (520 * n))
  let us := ps.map updProgOf
  let ts := (recs 16 (slice b (8 + 520 * n) (16 * fieldAt b 2 2))).map loftTensorOf
  let prog := fun (id : Nat) => us.find? (fun u => u.id == id)
  decide (n ≤ 4096) && zeroAt b 4 4 && rising (us.map (fun u => u.id)) && ps.all (updateOk j.narrow)
    && l.all (fun x => match prog x.updateProgram with
      | none => false
      | some u => (planesOf u.slots).any (fun p => p.1 == 6 && p.2.width == (if x.twoSlice then 2 else 1))
          && placeSuits u.slots x.loftAddr
          && l.all (fun y => y.updateProgram != x.updateProgram || y.twoSlice == x.twoSlice))
    && ts.all (fun t => match prog t.program with
      | none => false
      | some u => t.rowLen % 64 == 0 && decide (t.module < j.moduleCount) && placeSuits u.slots t.addr
          && u.slots.any (fun w => updOp w == 2))

/-- TEAM's form (R40, R172). -/
def teamsForm (j : JobRec) (b : Bytes) : Bool :=
  let ts := (recs 8 (slice b 8 (8 * fieldAt b 4 2))).map teamRecOf
  between 1 (fieldAt b 0 1) 64 && decide (fieldAt b 1 1 ≤ 1) && between 64 (fieldAt b 2 2) 4096 && zeroAt b 6 2
    && once (ts.map (fun t => t.a) ++ ts.map (fun t => t.b))
    && ts.all (fun t => decide (t.a < j.moduleCount) && decide (t.b < j.moduleCount)
      && [t.portA0, t.portA1, t.portB0, t.portB1].all (fun p => decide (p < 24)) && t.portA0 != t.portA1
      && t.portB0 != t.portB1)

/-- The non-structural sections' form (R173). -/
def tablesForm (j : JobRec) (us : List UpdProg) (raw : List (Nat × Bytes)) : Bool :=
  let caps := recs 8 (body raw 0x40)
  let arb := recs 8 (body raw 0x41)
  let con := recs 8 (body raw 0x42)
  caps.all (fun e => zeroAt e 2 2 && decide (fieldAt e 0 2 < j.expertIds)) && rising (caps.map (fun e => fieldAt e 0 2))
    && arb.all (fun e => zeroAt e 6 2 && decide (fieldAt e 0 2 < j.moduleCount) && decide (fieldAt e 2 2 < 512))
    && rising (arb.map (fun e => fieldAt e 0 2 * 65536 + fieldAt e 2 2))
    && con.all (fun e => zeroAt e 3 1 && decide (fieldAt e 2 1 ≤ 15) && us.any (fun u => u.id == fieldAt e 0 2))
    && rising (con.map (fun e => fieldAt e 0 2 * 256 + fieldAt e 2 1))

/-- Check 6: every record meets its form and limits, judged beside the sections it stands with (R176, R179). -/
def recordsOk (i : Image) : Bool :=
  jobForm (body i.raw 0x01) && placementForm i.job (body i.raw 0x03) && homesForm i.job i.placement (body i.raw 0x04)
    && modulesForm i.job i.placement i.homes (body i.raw 0x02) && attentionForm i.job (body i.raw 0x05)
    && formatsForm i.job (body i.raw 0x06) && stepsForm i.job i.placement (body i.raw 0x07)
    && updatesForm i.job i.placement (body i.raw 0x08) && teamsForm i.job (body i.raw 0x09)
    && tablesForm i.job i.updates i.raw

/-! ## Where a module's units lie (R344, R346, R447) -/

/-- Slots of a placed block or a loft tensor: its program's slots, its first slot number, and how many it has. -/
def unitSpans (i : Image) (own : Nat) : List (List Nat × Nat × Nat × Bool) :=
  let prog := fun (id : Nat) => ((i.updates.find? (fun u => u.id == id)).map (fun u => u.slots)).getD []
  (i.placement.filter (fun x => x.module == own)).map (fun x =>
      let sl := prog x.updateProgram
      (sl, firstSlot sl x.loftAddr, 512 * (if x.twoSlice then 256 else 512), true))
    ++ (i.loftTensors.filter (fun t => t.module == own)).map (fun t =>
      let sl := prog t.program
      (sl, firstSlot sl t.addr, t.rows * t.rowLen, false))

/-- The extent of a plane for a run of slots: address and bytes (DEDUCED, assumption 63). -/
def planeExtent (j : Nat) (pl : Plane) (first n : Nat) : Nat × Nat :=
  if j = 7 then (loftWindow + pl.base + 16 * (first / 64), 16 * ceilDiv n 64)
  else (planeAddr pl first, pl.width * n)

/-- The extents of the planes `js` of this module's units. -/
def extents (i : Image) (own : Nat) (js : List Nat) : List (Nat × Nat) :=
  ((unitSpans i own).map (fun u =>
    ((planesOf u.1).filter (fun p => js.contains p.1 && (p.1 != 6 || u.2.2.2))).map (fun p =>
      planeExtent p.1 p.2 u.2.1 u.2.2.1))).flatten

/-- A span lies in the fitted part of one populated channel (R339). -/
def fitted (s : State) (a n : Nat) : Bool :=
  let c := chanOf a
  decide (loftWindow ≤ a) && decide (c < 8) && onF s R.lftChannel_populated c
    && decide (a - loftBase c + n ≤ getF s R.bruFit_loftChannelGib * 2 ^ 30)

/-- The pages that spans touch, ascending. -/
def pagesOf (l : List (Nat × Nat)) : List Nat :=
  let ps := (l.map (fun e => (rangeFrom (e.1 / pageSize) (if e.2 = 0 then 0 else (e.1 + e.2 - 1) / pageSize
    - e.1 / pageSize + 1)))).flatten
  ((ps.foldl (fun (m : Tab Nat) p => tset m p 0) []).map (fun p => p.1 * pageSize))

/-- The eight groups of the secured set (R447). -/
def securedGroups (s : State) (i : Image) (own : Nat) : List (List Nat) :=
  let loft := pagesOf (extents i own [0, 1, 2, 3, 4, 6, 7])
  let host := (List.range (getF s R.pairHstate_size64k)).map (fun k => (getF s R.pairHstate_base64k + k) * pageSize)
  let numeric := (List.range 16).map (fun k => 0x008FE0100000 + k * pageSize)
  (List.range 8).map (fun c =>
    let l := loft.filter (fun a => chanOf a == c)
    if c = 0 then numeric ++ host ++ l else l)

/-- Pages a region needs for a group of `p` pages (R448). -/
def regionPages (p : Nat) : Nat := 1 + dirPages p + 2 * p

end Sys2Proof.Machine
end

