-- ==== Sys2Proof/Machine/Session.lean ====
section
/-! DEFINITION. Machine/Session.lean: received frames, control frames, session opening and closing, sequence and
retransmission (R124 to R132, R156, R401, R464, R466, R467). -/
namespace Sys2Proof.Machine
open Sys2Proof

/-! ## Classification of received frames (R395, R396, R401) -/

/-- The MAC address of a port: 24 is the host port (R395). -/
def portMac (s : State) (port : Nat) : Nat :=
  if port = 24 then getF s R.hstMac_macBase else getF s R.hstMac_macBase + 1 + port

/-- An IPv4 address as an IPv4-mapped IPv6 address. -/
def mapped4 (a : Nat) : Nat := 0xFFFF * 2 ^ 32 + a

/-- The link-local address of a MAC by modified EUI-64 (R396). -/
def linkLocal (mac : Nat) : Nat :=
  let hi := mac / 2 ^ 24
  let flip := if bit hi 17 then hi - 2 ^ 17 else hi + 2 ^ 17
  0xFE80 * 2 ^ 112 + flip * 2 ^ 40 + 0xFFFE * 2 ^ 24 + mac % 2 ^ 24

/-- The fabric ports' IPv6 module address. -/
def moduleAddr6 (s : State) : Nat := getF s R.prtAddr6Hi_addrHi * 2 ^ 64 + getF s R.prtAddr6Lo_addrLo

/-- Whether an IP address is the port's own (R396). -/
def ownIp (s : State) (port ip : Nat) : Bool :=
  if port = 24 then
    let a6 := getF s R.hstAddr6Hi_addrHi * 2 ^ 64 + getF s R.hstAddr6Lo_addrLo
    ip == linkLocal (portMac s 24) || (a6 != 0 && ip == a6)
      || (onF s R.hstAddr4_valid && ip == mapped4 (getF s R.hstAddr4_ipv4))
  else (moduleAddr6 s != 0 && ip == moduleAddr6 s)
      || (onF s R.prtAddr4_valid && ip == mapped4 (getF s R.prtAddr4_ipv4))

/-- Whether a fabric port is a team port (R412): shown in PRT.PORT_STATUS.team. -/
def isTeamPort (s : State) (n : Nat) : Bool := onF s R.prtPortStatus_team n

/-- The UDP ports of R400 on a link. -/
def udpKnown (s : State) (port udp : Nat) : Bool :=
  if port = 24 then udp == getF s R.hstCtl_controlUdp || udp == getF s R.hstCtl_feedUdp
  else udp == getF s R.prtCtl_tokenUdp || udp == getF s R.prtCtl_teamUdp

/-- The first condition of R401 that a frame meets, or 0. -/
def dropReason (s : State) (r : Rx) : Nat :=
  if !r.fcsOk then 1
  else if 9216 < r.len then 2
  else if r.dstMac ≠ portMac s r.port ∨ !ownIp s r.port r.dstIp then 3
  else if !r.hdrOk || (if r.udpSum == 0 then r.ipv6 else !r.sumOk) then 4
  else if r.frag then 5
  else if r.port < 24 ∧ r.dstUdp = getF s R.prtCtl_teamUdp ∧ !isTeamPort s r.port then 6
  else if !udpKnown s r.port r.dstUdp then 7
  else 0

/-- A port can receive: a fabric port that is up, or the host port that is up (R391). -/
def portOpen (s : State) (port : Nat) : Bool :=
  if port = 24 then getF s R.hstStatus_state == 2
  else getF s R.prtPortStatus_state port == 3 || getF s R.prtPortStatus_state port == 4

/-- FRAME_DROPPED (R401): counted at a fabric port, and event 0xB007 once per port per step (DEDUCED, assumption 176). -/
def dropFrame (s : State) (r : Rx) (reason : Nat) : State :=
  let s := if r.port = 24 then s
    else match reason with
      | 1 => bumpF s R.prtPortDrop_fcs r.port 1
      | 2 => bumpF s R.prtPortDrop_oversize r.port 1
      | 6 => bumpF s R.prtPortDrop_teamMisport r.port 1
      | _ => bumpF s R.prtPortDrop_unaddressed r.port 1
  raiseOnce s 0xB007 r.port cPkg (reason * 256 + r.port) 1

/-- What a received frame does: nothing on a port that is down, a drop by R401, or `f`. -/
def received (s : State) (r : Rx) (udp : Nat) (f : State → State) : State :=
  if !portOpen s r.port then s
  else
    let d := dropReason s r
    if d ≠ 0 then dropFrame s r d
    else if r.dstUdp = udp then f s else s

/-! ## Control frames (R124 to R126) -/

/-- The 40-byte header (R125). -/
def ctlHeader (f : CtlFrame) : Bytes :=
  leBytes 2 f.magic ++ leBytes 1 f.version ++ leBytes 1 f.ftype ++ leBytes 4 f.sessionId ++ leBytes 4 f.seq
    ++ leBytes 4 f.ack ++ leBytes 8 f.planTag ++ leBytes 8 f.step ++ leBytes 2 f.bodyLen ++ leBytes 2 f.flags
    ++ leBytes 4 f.zero

/-- The types a host may send (R126). -/
def hostTypes : List Nat := [0x01, 0x03, 0x05, 0x06, 0x07, 0x10, 0x20]

/-- Whether a body length suits its type (R126, R138, R148, R466). -/
def lenSuits (ftype n : Nat) : Bool :=
  if ftype = 0x01 then n == 160
  else if ftype = 0x03 then n == 120
  else if ftype = 0x10 then decide (n ≤ 8192)
  else if ftype = 0x20 then n == 8
  else n == 0

/-- The zero bytes of the session-opening bodies (R466). -/
def bodyZeros (f : CtlFrame) : Bool :=
  if f.ftype = 0x01 then
    zeroAt f.body 89 7 && zeroAt f.body 153 7 && (fieldAt f.body 88 1 == 0xFF || zeroAt f.body 96 57)
  else if f.ftype = 0x03 then zeroAt f.body 114 6
  else true

/-- Whether a control frame is well formed (R124 to R126). -/
def ctlForm (f : CtlFrame) : Bool :=
  decide (f.bodyLen ≤ 8192) && f.rx.udpLen == 56 + f.bodyLen && f.body.length == f.bodyLen && f.magic == 0x4356
    && f.version == 1 && hostTypes.contains f.ftype && f.zero == 0 && !bit f.flags 0 && !bit f.flags 1
    && f.flags / 8 == 0 && f.step / 2 ^ 40 == 0 && lenSuits f.ftype f.bodyLen && bodyZeros f

/-- The integrity tag of a frame under a session key (R125, R466). -/
def ctlTag (key : Bytes) (f : CtlFrame) : Bytes := sessionTag key (ctlHeader f ++ f.body)

/-- Whether a frame is the open session's, with a valid tag (R128). -/
def authentic (s : State) (f : CtlFrame) : Bool :=
  match s.ses.key with
  | none => false
  | some k => f.sessionId == getF s R.ctlState_sessionId && f.tag == ctlTag k f

/-- Refuse with FORMAT, counted (R126). -/
def refuseFormat (s : State) (f : CtlFrame) : State := refuse (bumpF s R.ctlCounters_formatRefused 0 1) f 4

/-- Refuse with AUTH, counted; at most one REFUSAL a millisecond goes out (R128). -/
def refuseAuth (s : State) (f : CtlFrame) : State :=
  let s := bumpF s R.ctlCounters_authRefused 0 1
  let due := match s.ses.lastAuth with
    | none => true
    | some a => decide (a + 25000 ≤ s.now)
  if due then refuse { s with ses := { s.ses with lastAuth := some s.now } } f 6 else s

/-- The ack field acknowledges every module seq up to its value (R132). -/
def takeAck (s : State) (ack : Nat) : State :=
  drainWaiting { s with ses := { s.ses with unacked := s.ses.unacked.filter (fun u => !decide (u.frame.seq ≤ ack)) } }

/-- A valid tag: the session is alive, and its sender is where the module sends (R129, R132, R400). -/
def heard (s : State) (f : CtlFrame) : State :=
  takeAck { s with ses := { s.ses with lastRx := s.now, peer := f.rx.src } } f.ack

/-- Distance of a seq from the next expected one, among 32-bit numbers (R131). -/
def seqAhead (s : State) (f : CtlFrame) : Nat := (f.seq + 2 ^ 32 - s.ses.expect) % 2 ^ 32

/-- Sequence (R131): the next frame is executed; an earlier one of the last 64 gets its cached response; a gap below 16
asks once for a resend; the rest is discarded. -/
def sequence (s : State) (f : CtlFrame) (run : State → State) : State :=
  let d := seqAhead s f
  if d = 0 then run { s with ses := { s.ses with expect := (s.ses.expect + 1) % 2 ^ 32 } }
  else if 2 ^ 32 - 64 ≤ d then
    match s.ses.cache.find? (fun c => c.seq == f.seq) with
    | some c => outCtl s f.rx.src c
    | none => s
  else
    let s := bumpF s R.ctlCounters_seqDiscarded 0 1
    if d < 16 ∧ s.ses.resent ≠ some s.ses.expect then
      let c := ctlFrame s 0x07 f.seq 3 []
      outCtl { s with ses := { s.ses with resent := some s.ses.expect } } f.rx.src c
    else s

/-- A frame of the session: form, authentication, sequence, then `run` (R126, R128, R131) (DEDUCED, assumption 17). -/
def sessionFrame (s : State) (f : CtlFrame) (ftype : Nat) (run : State → State) : State :=
  received s f.rx (getF s R.hstCtl_controlUdp) (fun s =>
    if f.rx.port ≠ 24 then s
    else if !ctlForm f then refuseFormat s f
    else if f.ftype ≠ ftype then s
    else if !authentic s f then refuseAuth s f
    else sequence (heard s f) f run)

/-- A session-opening frame: form only (R125, R126). -/
def openingFrame (s : State) (f : CtlFrame) (ftype : Nat) (run : State → State) : State :=
  received s f.rx (getF s R.hstCtl_controlUdp) (fun s =>
    if f.rx.port ≠ 24 then s
    else if !ctlForm f then refuseFormat s f
    else if f.ftype ≠ ftype then s
    else run s)

/-! ## Owner key slots (R464) -/

/-- The module is owned while some slot is ACTIVE. -/
def owned (s : State) : Bool := s.nv.slots.any (fun k => k.st == 1)

/-- A slot's record. -/
def slotAt (s : State) (i : Nat) : KeySlot := s.nv.slots.getD i ⟨0, []⟩

/-- SEC.STATUS and SEC.SLOT_KEY follow the slots. -/
def showSlots (s : State) : State :=
  let st := ((List.range 4).map (fun i => (slotAt s i).st * 2 ^ (2 * i))).sum
  let s := setFs s [(R.secStatus_slotState, st), (R.secStatus_owned, b2n (owned s))]
  forEach (List.range 4) (fun t i =>
    setF t R.secSlotKey_digest i (if (slotAt t i).st = 0 then 0 else leNat (shake256 (slotAt t i).key 8))) s

/-- Set a slot. -/
def setSlot (s : State) (i : Nat) (k : KeySlot) : State :=
  showSlots { s with nv := { s.nv with slots := s.nv.slots.set i k } }

/-! ## Session opening (R127, R466, R467) -/

/-- The transcript digest TD (R466). -/
def transcript (openBody chalBody : Bytes) : Bytes := shake256 (ascii "VRH-SESS" ++ openBody ++ slice chalBody 0 152) 64

/-- The key slot an OPEN names. -/
def openSlot (body : Bytes) : Nat := fieldAt body 88 1

/-- Whether an OPEN's slot may open a session: an ACTIVE slot, or a claim of an unowned module (R464, R467). -/
def slotAllowed (s : State) (n : Nat) : Bool :=
  if n = 0xFF then !owned s else decide (n < 4) && (slotAt s n).st == 1

/-- Answer an OPEN with a CHALLENGE, which replaces any pending one (R466, R467). -/
def challenge (s : State) (f : CtlFrame) : State :=
  let eph := Config.ephemeral s.draws
  let head := slice (Config.nonce s.draws) 0 32 ++ slice (x448Base eph) 0 56 ++ slice Config.deviceKey 0 57
    ++ List.replicate 7 0
  let td := transcript f.body head
  let sig := slice (Config.deviceSign (ascii "VRHSEM") (shake256 td 64)) 0 114
  let body := head ++ sig ++ List.replicate 6 0
  let c : Challenge := { openBody := f.body, chalBody := body, ephemeral := eph, keySlot := openSlot f.body,
                         preempt := bit f.flags 2, sent := s.now }
  outCtl (draw { s with ses := { s.ses with challenge := some c } }) f.rx.src
    { ftype := 0x02, sessionId := 0, seq := f.seq, ack := 0, planTag := 0, step := 0, flags := 0, body := body,
      tagged := false }

/-- OPEN (R127, R466, R467). -/
def openSession (f : CtlFrame) (s : State) : State :=
  if !upStates s then refuse s f 2
  else if sessionOpen s && !bit f.flags 2 then refuse s f 2
  else if !slotAllowed s (openSlot f.body) then refuseAuth s f
  else challenge s f

def execOpenFrame (f : CtlFrame) (s : State) : Out :=
  inModule s (fun s => openingFrame s f 0x01 (openSession f))

/-- A session number: nonzero and not the previous one (R466). -/
def freshId (s : State) : Nat :=
  let v := Config.sessionId s.draws % 2 ^ 32
  let c := [v, (v + 1) % 2 ^ 32, (v + 2) % 2 ^ 32]
  (c.find? (fun x => x != 0 && x != s.ses.lastId)).getD 1

/-- The key that must have signed a PROVE: the claim key or the slot's (R466). -/
def proveKey (s : State) (c : Challenge) : Bytes :=
  if c.keySlot = 0xFF then slice c.openBody 96 57 else (slotAt s c.keySlot).key

/-- The bring-up log goes to the event ring, oldest first (R104, R130). -/
def appendLog (s : State) : State :=
  if s.ses.firstAfterReady then
    let l := s.bring.log
    forEach l ringEvent { s with bring := { s.bring with log := [] }, ses := { s.ses with firstAfterReady := false } }
  else s

/-- CLAIM (R464): the claim key becomes slot 0, ACTIVE (DEDUCED, assumption 42). -/
def claim (s : State) (c : Challenge) : State :=
  if c.keySlot = 0xFF then setSlot s 0 ⟨1, slice c.openBody 96 57⟩ else s

/-- The instant of acceptance: a preempted session closes, a claim installs its key, the session opens with ACCEPT, the
log goes out, and what earlier sessions left is sent (R127, R129, R130, R464, R466) (DEDUCED, assumption 44). -/
def accept (s : State) (f : CtlFrame) (c : Challenge) : State :=
  let td := transcript c.openBody c.chalBody
  let ks := shake256 (ascii "VRH-SKEY" ++ slice (x448 c.ephemeral (slice c.openBody 32 56)) 0 56 ++ td) 32
  let s := claim (closeSession s 2) c
  let id := freshId s
  let slot := if c.keySlot = 0xFF then 4 else c.keySlot
  let carried := s.ses.carried
  let s := draw { s with ses := { Session.reset with key := some ks, slot := slot, lastRx := s.now, peer := f.rx.src,
                                                     lastId := id, lastAuth := s.ses.lastAuth,
                                                     firstAfterReady := s.ses.firstAfterReady } }
  let s := setFs s [(R.ctlState_sessionOpen, 1), (R.ctlState_sessionId, id), (R.secStatus_sessionSlot, slot)]
  let s := raise (appendLog s) 0xE001 cPkg id slot
  let s := outCtl s f.rx.src
    { ftype := 0x04, sessionId := 0, seq := f.seq, ack := 0, planTag := 0, step := 0, flags := 0,
      body := leBytes 4 id ++ leBytes 4 0 ++ kmac256 ks td "VRH-ACC", tagged := false }
  forEach carried sendNumbered s

/-- The pending challenge, unless a second has passed since it was sent (R467). -/
def pendingChallenge (s : State) : Option Challenge :=
  match s.ses.challenge with
  | some c => if s.now < c.sent + 25000000 then some c else none
  | none => none

/-- Drop the pending challenge and its ephemeral key (R127, R467). -/
def dropChallenge (s : State) : State := { s with ses := { s.ses with challenge := none } }

/-- A PROVE that fails (R467) (DEDUCED, assumption 41). -/
def proveFailed (s : State) (f : CtlFrame) (why slot : Nat) : State :=
  refuseAuth (raise (bumpF s R.secStatus_proveFailures 0 1) 0xE003 cPkg why slot) f

/-- PROVE (R127, R464, R466, R467). -/
def proveSession (f : CtlFrame) (s : State) : State :=
  match pendingChallenge s with
  | none => proveFailed s f 0 7
  | some c =>
    if !verify (proveKey s c) "VRHSEH" (transcript c.openBody c.chalBody) (slice f.body 0 114) then
      proveFailed s f 1 (if c.keySlot = 0xFF then 4 else c.keySlot)
    else if !upStates s || (sessionOpen s && !c.preempt) || !slotAllowed s c.keySlot then refuse (dropChallenge s) f 2
    else accept (dropChallenge s) f c

def execProve (f : CtlFrame) (s : State) : Out := inModule s (fun s => openingFrame s f 0x03 (proveSession f))

/-- CHALLENGE_EXPIRED (R467). -/
def execChallengeExpired (s : State) : Out :=
  inModule s (fun s =>
    match s.ses.challenge with
    | some c => if c.sent + 25000000 ≤ s.now then dropChallenge s else s
    | none => s)

/-- CLOSE (R129, R131): answered, then the session closes. -/
def execClose (f : CtlFrame) (s : State) : Out :=
  inModule s (fun s => sessionFrame s f 0x05 (fun s => closeSession (respond s f []) 1))

/-- KEEPALIVE (R129, R131). -/
def execKeepalive (f : CtlFrame) (s : State) : Out :=
  inModule s (fun s => sessionFrame s f 0x06 (fun s => respond s f []))

/-- ACK (R131, R132): the ack field has already been taken with the valid tag. -/
def execAck (f : CtlFrame) (s : State) : Out :=
  inModule s (fun s => sessionFrame s f 0x07 (fun s => respond s f []))

/-- SESSION_IDLE_TIMEOUT (R129). -/
def execSessionIdleTimeout (s : State) : Out :=
  inModule s (fun s =>
    if sessionOpen s && decide (s.ses.lastRx + 25000 * getF s R.ctlTimers_idleMs ≤ s.now) then closeSession s 3 else s)

/-- RETRANSMIT_TIMEOUT (R129, R132): the oldest frame again, with twice the wait; past retx_tries the session closes. -/
def retransmit (s : State) : State :=
  match s.ses.unacked with
  | [] => s
  | u :: r =>
    if s.now < u.due then s
    else if getF s R.ctlTimers_retxTries ≤ u.tries then closeSession s 4
    else
      let v := { u with tries := u.tries + 1, due := s.now + 25 * getF s R.ctlTimers_retxUs * 2 ^ (u.tries + 1) }
      outCtl { s with ses := { s.ses with unacked := v :: r } } s.ses.peer u.frame

def execRetransmitTimeout (s : State) : Out := inModule s retransmit

/-- EVENT_NOTE (R156) (DEDUCED, assumption 146). -/
def eventNote (s : State) : State :=
  let p := getF s R.ctlEvtProducer_producer
  let due := match s.ses.lastNote with
    | none => true
    | some a => decide (a + getF s R.ctlEvtStatus_noteTicks ≤ s.now)
  if sessionOpen s && p != getF s R.ctlEvtConsumer_consumer && due then
    sendNumbered { s with ses := { s.ses with lastNote := some s.now } }
      (ctlFrame s 0x31 0 0 (leBytes 4 p ++ leBytes 4 (getF s R.ctlEvtStatus_dropped)))
  else s

def execEventNote (s : State) : Out := inModule s eventNote

end Sys2Proof.Machine
end

