-- ==== Sys2Proof/Machine/Form.lean ====
section
/-! DEFINITION. Machine/Form.lean: the team key, and how a module begins to form a team or ends one (R443, R468, R477). -/
namespace Sys2Proof.Machine
open Sys2Proof

/-- The TEAM record that names a module. -/
def teamRecIn (i : Image) (own : Nat) : Option TeamRec := i.teams.find? (fun t => t.a == own || t.b == own)

/-- This side's ports of a record, and the partner's index. -/
def teamSide (t : TeamRec) (own : Nat) : Nat × Nat × Nat :=
  if t.a = own then (t.portA0, t.portA1, t.b) else (t.portB0, t.portB1, t.a)

/-- The 32 bytes of SEC.TEAM_SECRET. -/
def teamSecret (s : State) : Bytes := ((List.range 4).map (fun k => leBytes 8 (getF s R.secTeamSecret_secret k))).flatten

/-- K_t (R468). -/
def teamKey (s : State) (tag : Nat) (t : TeamRec) : Bytes :=
  shake256 (ascii "VRH-TEAM" ++ teamSecret s ++ leBytes 8 tag ++ leBytes 2 t.a ++ leBytes 2 t.b) 32

/-- PRT.PORT_STATUS.team shows the team ports of the active record (R412). -/
def showTeamFlags (s : State) (l : List Nat) : State :=
  forEach (List.range 24) (fun t n => setF t R.prtPortStatus_team n (b2n (l.contains n))) s

/-- Refuse the team (R443): causes of event 0xD009. -/
def refuseTeam (s : State) (cause : Nat) : State :=
  raise (setFs s [(R.pairStatus_team, 3), (R.pairStatus_cause, cause)]) 0xD009 cPkg cause
    (getF s R.pairStatus_partnerIndex)

/-- PAIR.STATUS without a team. -/
def clearTeam (s : State) : State :=
  showTeamFlags (setFs { s with team := { s.team with rec? := none } }
    [(R.pairStatus_team, 0), (R.pairStatus_cause, 0), (R.pairStatus_feedShared, 0), (R.pairStatus_loopShared, 0),
     (R.pairStatus_senseArmed, 0), (R.pairStatus_port0, 0), (R.pairStatus_port1, 0), (R.pairStatus_partnerIndex, 0),
     (R.pairStatus_partnerBay, 0)]) []

/-- Begin to form the team of the active image's record, or run unteamed (R443, R468). -/
def joinTeam (s : State) : State :=
  let s := clearTeam s
  match s.job.image.bind (fun i => teamRecIn i (ownIndex s)) with
  | none => s
  | some t =>
    let x := teamSide t (ownIndex s)
    let s := showTeamFlags (setFs s [(R.pairStatus_team, 1), (R.pairStatus_port0, x.1), (R.pairStatus_port1, x.2.1),
      (R.pairStatus_partnerIndex, x.2.2)]) [x.1, x.2.1]
    let s := { s with team := { s.team with rec? := some t, key := some (teamKey s (getF s R.gtePlan_planTag) t),
                                            formStart := s.now, obstacle := 0, lastBeat := s.now, accessSeq := 0, allDirty := true } }
    if (teamSecret s).all (fun b => b == 0) then refuseTeam s 2 else s

end Sys2Proof.Machine
end

