-- ==== Sys2Proof/Machine/Mover.lean ====
section
/-! DEFINITION. Machine/Mover.lean: the address map's ranges, descriptors and their checks, and the starting, pausing,
resuming and aborting of mover channels (R134 to R136, R339, R369 to R383). -/
namespace Sys2Proof.Machine
open Sys2Proof

/-! ## The address map (R134, R136, R339) -/

/-- The range of an address: 0 HBM, 1 loft, 2 stores and troughs, 3 tile windows, 4 registers, none outside all. -/
def rangeOf (a : Nat) : Option Nat :=
  if a < hbmEnd then some 0
  else if 0x040000000000 ≤ a ∧ a < 0x060000000000 then some 1
  else if 0x080000000000 ≤ a ∧ a < 0x090000000000 then some 2
  else if 0x0A0000000000 ≤ a ∧ a < 0x0B0000000000 then some 3
  else if 0x0F0000000000 ≤ a ∧ a < 0x100000000000 then some 4
  else none

/-- A span lies within one range. -/
def oneRange (a n : Nat) : Bool := (rangeOf a).isSome && rangeOf a == rangeOf (a + n - 1)

/-- The package stall index of an address in ranges 2 and 3. -/
def stallOf (a : Nat) : Nat := a / 2 ^ 31 % 512

/-- The tile of an address in a tile window, and the offset in its window. -/
def tileOf (a : Nat) : Nat × Nat := (a / 2 ^ 25 % 64, a % 2 ^ 25)

/-- Fitted bytes of a loft channel. -/
def fittedBytes (s : State) : Nat := getF s R.bruFit_loftChannelGib * 2 ^ 30

/-- The loft channels a span touches. -/
def chansOf (a n : Nat) : List Nat := rangeFrom (chanOf a) (chanOf (a + n - 1) + 1 - chanOf a)

/-- Every byte of a span in the loft window is at a fitted offset. -/
def loftFitted (s : State) (a n : Nat) : Bool :=
  if fittedBytes s = 2 ^ 38 then true
  else chanOf a == chanOf (a + n - 1) && decide ((a - loftWindow) % 2 ^ 38 + n ≤ fittedBytes s)

/-- A span addresses something: R134, R136 and the fitted loft (R339). Registers are judged one by one. -/
def addressable (s : State) (a n : Nat) : Bool :=
  oneRange a n &&
  match rangeOf a with
  | some 1 => loftFitted s a n
  | some 2 => decide (a % 2 ^ 31 + n ≤ 0x500000)
  | some 3 => decide ((tileOf a).1 < 34) && decide ((tileOf a).2 + n ≤ 2 ^ 25)
  | _ => true

/-- A span reaches a loft channel that is not populated (R339). -/
def reachesAbsent (s : State) (a n : Nat) : Bool :=
  rangeOf a == some 1 && (chansOf a n).any (fun c => !onF s R.lftChannel_populated c)

/-- A span in the loft lies behind a link that retrains. -/
def linkHeld (s : State) (a n : Nat) : Bool :=
  rangeOf a == some 1 && (chansOf a n).any (fun c => linkDown s (c / 2))

/-- The blocks of 2^k bytes that a span touches. -/
def blocksOf (a n k : Nat) : List Nat := rangeFrom (a / 2 ^ k) ((a + n - 1) / 2 ^ k + 1 - a / 2 ^ k)

/-- A span reaches a disabled stall or a bad tile (R136, R216, R377). -/
def reachesFaulted (s : State) (a n : Nat) : Bool :=
  match rangeOf a with
  | some 2 => (blocksOf a n 31).any (fun p => (getStall s (p % 512)).st == .disabled)
  | some 3 => (blocksOf a n 25).any (fun k =>
      let h := getStall s (k / 64 % 512)
      h.st == .disabled || h.bad.contains (k % 64))
  | _ => false

/-- A span reaches a store, trough or tile window of a stall in SLEEP or NAP (R136, R216). -/
def reachesResting (s : State) (a : Nat) : Bool :=
  match rangeOf a with
  | some 2 => isResting (getStall s (stallOf a))
  | some 3 => isResting (getStall s (stallOf a))
  | _ => false

/-! ## Descriptors (R370, R371) -/

/-- Bytes of an element by its width code. -/
def widthOf : Nat → Nat
  | 0 => 1 | 1 => 2 | 2 => 3 | 3 => 4 | 4 => 8 | _ => 64

/-- The fields of a descriptor. -/
def parseDesc (b : Bytes) : Desc :=
  { flags := fieldAt b 0 1, srcW := fieldAt b 1 1 % 16, dstW := fieldAt b 1 1 / 16, reqSrc := fieldAt b 2 1,
    reqArg := fieldAt b 3 1, burst := fieldAt b 4 2, srcLog2 := fieldAt b 6 1, dstLog2 := fieldAt b 7 1,
    length := fieldAt b 8 4, src := fieldAt b 0x10 8, dst := fieldAt b 0x18 8, srcStride := fieldAt b 0x20 4,
    dstStride := fieldAt b 0x24 4, next := fieldAt b 0x28 8, tag := fieldAt b 0x30 4 }

/-- Whether the reserved bytes of a descriptor are zero. -/
def descZeros (b : Bytes) : Bool := zeroAt b 0x0C 4 && zeroAt b 0x34 12

/-- The sides of a descriptor: address, width, stride, circular size (0 when not circular). -/
structure Side where
  addr : Nat
  w : Nat
  stride : Nat
  circ : Nat
  deriving DecidableEq, Repr

/-- The source side. -/
def srcSide (d : Desc) : Side :=
  { addr := d.src, w := widthOf d.srcW, stride := if d.srcStride = 0 then widthOf d.srcW else d.srcStride,
    circ := if bit d.flags 0 then 2 ^ d.srcLog2 else 0 }

/-- The destination side. -/
def dstSide (d : Desc) : Side :=
  { addr := d.dst, w := widthOf d.dstW, stride := if d.dstStride = 0 then widthOf d.dstW else d.dstStride,
    circ := if bit d.flags 1 then 2 ^ d.dstLog2 else 0 }

/-- Address of element `i` of a side (R371). -/
def elemAddr (x : Side) (i : Nat) : Nat :=
  if x.circ = 0 then x.addr + i * x.stride
  else
    let base := x.addr - x.addr % x.circ
    base + (x.addr - base + i * x.stride) % x.circ

/-- Elements of a side of a stream. -/
def elemCount (x : Side) (len : Nat) : Nat := ceilDiv len x.w

/-- The span of a side (R377). -/
def sideSpan (x : Side) (len : Nat) : Nat := (elemCount x len - 1) * x.stride + x.w

/-- The spans a side reaches: one when it is contiguous or lies in HBM, the two parts of a circular run of elements that
fill their buffer evenly, else its elements. -/
def sideSpans (x : Side) (len : Nat) : List (Nat × Nat) :=
  let n := sideSpan x len
  if x.circ = 0 ∧ (x.stride = x.w ∨ x.addr + n ≤ hbmEnd) then [(x.addr, n)]
  else if x.circ ≠ 0 ∧ x.stride = x.w ∧ x.circ % x.w = 0 ∧ x.addr % x.w = 0 then
    let room := x.circ - x.addr % x.circ
    if n ≤ room then [(x.addr, n)] else [(x.addr, room), (x.addr - x.addr % x.circ, n - room)]
  else (List.range (elemCount x len)).map (fun i => (elemAddr x i, x.w))

/-- Channels 64 and up are those of the stalls. -/
def isStallChan (c : Nat) : Bool := decide (64 ≤ c)

/-- The number of a channel within its mover engine. -/
def chanNo (c : Nat) : Nat := if isStallChan c then (c - 64) % 32 else c

/-- Whether a request line is allowed for a channel (R374). -/
def reqAllowed (c : Nat) (d : Desc) : Bool :=
  match d.reqSrc with
  | 0 => d.reqArg == 0 && (isStallChan c || decide (c < 57))
  | 1 => d.reqArg == 0 && decide (c < 57)
  | 2 => decide (d.reqArg < 16) && isStallChan c
  | 3 => (if isStallChan c then decide (d.reqArg < 32) else decide (d.reqArg < 57) && decide (c < 57))
      && d.reqArg != chanNo c
  | _ => false

/-- A circular size suits its flag (R370). -/
def circOk (on : Bool) (n : Nat) : Bool := if on then decide (6 ≤ n) && decide (n ≤ 40) else n == 0

/-- A side in the register range has width code 4, and stride and length that are multiples of 8 (R371). -/
def regSideOk (addr code stride len : Nat) : Bool :=
  rangeOf addr != some 4 || (code == 4 && stride % 8 == 0 && len % 8 == 0)

/-- Check 1 of R377 (DEDUCED, assumption 60). -/
def descForm (c : Nat) (b : Bytes) (d : Desc) : Bool :=
  descZeros b && decide (d.flags < 16) && decide (d.srcW < 6) && decide (d.dstW < 6)
    && (d.srcStride == 0 || decide (widthOf d.srcW ≤ d.srcStride))
    && (d.dstStride == 0 || decide (widthOf d.dstW ≤ d.dstStride))
    && circOk (bit d.flags 0) d.srcLog2 && circOk (bit d.flags 1) d.dstLog2
    && decide (1 ≤ d.burst) && decide (d.burst ≤ 4096) && d.burst % Nat.lcm (widthOf d.srcW) (widthOf d.dstW) == 0
    && reqAllowed c d && regSideOk d.src d.srcW d.srcStride d.length && regSideOk d.dst d.dstW d.dstStride d.length
    && decide (d.src < 2 ^ 48) && decide (d.dst < 2 ^ 48)
    && (if bit d.flags 2 then d.next % 64 == 0 else d.next == 0)

/-- Check 3 for one side. -/
def circFits (x : Side) (len : Nat) : Bool :=
  x.circ == 0 || (decide (sideSpan x len ≤ x.circ) && oneRange (x.addr - x.addr % x.circ) x.circ)

/-- Check 4 for one side. -/
def plainFits (s : State) (x : Side) (len : Nat) : Bool :=
  x.circ != 0 || (sideSpans x len).all (fun p => addressable s p.1 p.2)

/-- A span of a stall channel in its own stall's fallback region (R377). -/
def inOwnFallback (p : Nat) (a n : Nat) : Bool := meets a n (storeBase p + 0x380000) 0x80000

/-- A span in another stall's store or trough while that stall rests (R377). -/
def inOtherResting (s : State) (p a n : Nat) : Bool :=
  rangeOf a == some 2 && (blocksOf a n 31).any (fun k => k % 512 != p && isResting (getStall s (k % 512)))

/-- The first failing check of R377 past check 2, with its status; (0, 0) when all pass. -/
def descChecks (s : State) (c : Nat) (d : Desc) : Nat × Nat :=
  let x := srcSide d
  let y := dstSide d
  let spans := sideSpans x d.length ++ sideSpans y d.length
  if !circFits x d.length || !circFits y d.length then (3, 3)
  else if !plainFits s x d.length || !plainFits s y d.length then (4, 3)
  else if spans.any (fun p => reachesAbsent s p.1 p.2) then (5, 8)
  else if spans.any (fun p => reachesFaulted s p.1 p.2) then (6, 7)
  else if isStallChan c && spans.any (fun p => inOwnFallback (c - 64) p.1 p.2) then (7, 3)
  else if isStallChan c && spans.any (fun p => inOtherResting s (c - 64) p.1 p.2) then (7, 2)
  else (0, 0)

/-! ## Channel events and records -/

/-- The coordinate of a channel's events (R385). -/
def chanCoord (c : Nat) : Nat := if isStallChan c then cStall (c - 64) else cPkg

/-- A refusal: event 0xA002, ERROR, and for a stall channel the stop of its stall (R378, R379). -/
def refuseChan (s : State) (c status phase check : Nat) : State :=
  let h := getChan s c
  let s := setChan s c { h with st := 3 }
  let s := raise s 0xA002 (chanCoord c) (status * 2 ^ 24 + phase * 2 ^ 16 + check * 2 ^ 8 + chanNo c) h.bytesDone
  if isStallChan c then
    let p := c - 64
    stopStall (setF (setF (setF s R.movStallCh_faulted p 1) R.movStallCh_lastStatus p status) R.movStallCh_phase p phase) p
  else setF (setF s R.movChStatus_lastStatus c status) R.movChStatus_phase c phase

/-- Device address of a descriptor: a stall channel's lie in its own store (R370). -/
def descAddr (c loc : Nat) : Nat := if isStallChan c then storeBase (c - 64) + loc % 2 ^ 23 else loc

/-- Whether a descriptor lies where its channel may read it. -/
def descPlace (c loc : Nat) : Bool :=
  if isStallChan c then decide (loc % 2 ^ 23 + 64 ≤ 0x380000) else decide (loc + 64 ≤ hbmEnd)

/-- A descriptor has completed: event 0xA001 when asked for, then IDLE (R380). -/
def descDone (s : State) (c : Nat) (d : Desc) : State :=
  if bit d.flags 3 then raise s 0xA001 (chanCoord c) (chanNo c) d.tag else s

/-- The channel's chain has completed. -/
def chanIdle (s : State) (c : Nat) : State :=
  let s := setChan s c { getChan s c with st := 0 }
  if isStallChan c then s else setF s R.movChStatus_done c 1

/-- Read, check and start the descriptor at `loc` (R377, R380); the second result is the next descriptor of its chain,
where one of length 0 has completed at once. -/
def readDesc (s : State) (c loc phase : Nat) : State × Option Nat :=
  if !descPlace c loc then (refuseChan s c 3 phase 1, none)
  else
    let r := readChecked s 3 cPkg (descAddr c loc) 64
    match r.2 with
    | none => (refuseChan r.1 c 7 phase 0, none)
    | some b =>
      let d := parseDesc b
      let s := setChan r.1 c { getChan r.1 c with desc := some d, bytesDone := 0, st := 1, overflow := 0, overShown := false }
      if !descForm c b d then (refuseChan s c 4 phase 1, none)
      else if d.length = 0 then
        if bit d.flags 2 then (descDone s c d, some d.next) else (chanIdle (descDone s c d) c, none)
      else
        let k := descChecks s c d
        (if k.2 = 0 then s else refuseChan s c k.2 phase k.1, none)

/-- Start a chain: empty descriptors are followed at once, here for at most `n` of them (a longer run of them goes on at
the channel's next burst). -/
def startDesc (n : Nat) (s : State) (c loc phase : Nat) : State :=
  let r := readDesc s c loc phase
  match n, r.2 with
  | n + 1, some next => startDesc n r.1 c next 2
  | _, _ => r.1

/-- Start a chain: the pending count is zeroed (R374, R377) (DESIGN CHOICE, assumption 38). -/
def startChain (s : State) (c loc : Nat) : State :=
  startDesc 64 (setChan s c { getChan s c with pending := 0, byPark := false }) c loc 0

/-- Add one request to a channel on a request line; past 65,535 it is lost (R374). -/
def addRequest (s : State) (c : Nat) : State :=
  let h := getChan s c
  if h.st ≠ 1 ∧ h.st ≠ 2 then s
  else if h.pending < 65535 then setChan s c { h with pending := h.pending + 1 }
  else
    let n := h.overflow + 1
    let s := if isStallChan c then bumpF s R.movStallCh_overflows (c - 64) 1 else bumpF s R.movChStatus_overflows c 1
    let s := setChan s c { h with overflow := n, overShown := true }
    if h.overShown then s else raise s 0xA003 (chanCoord c) (chanNo c) n

/-- A queue's counter rose by `n`: requests for its stall's channel (R322, R374). -/
def queueRise (s : State) (p q n : Nat) : State :=
  match (getChan s (64 + p)).desc with
  | some d => if d.reqSrc = 2 ∧ d.reqArg = q then forEach (List.range n) (fun t _ => addRequest t (64 + p)) s else s
  | none => s

/-! ## Register commands (R376, R377, R381 to R383) -/

/-- Status of a write to CH_START. -/
def chStartStatus (s : State) (c : Nat) : Nat :=
  if 57 ≤ c ∨ (getChan s c).st ≠ 0 ∨ s.mode == .bringup then 2 else 0

/-- A write to CH_START: the refusal of a check is the write's own status. -/
def chStart (s : State) (c : Nat) : State × Nat :=
  let w := chStartStatus s c
  if w ≠ 0 then (s, w)
  else
    let s := setF s R.movChStatus_aborted c 0
    let t := startChain s c (getF s R.movChDesc_desc64 c * 64)
    (t, if (getChan t c).st = 3 then getF t R.movChStatus_lastStatus c else 0)

/-- A write to CH_PAUSE. -/
def chPause (s : State) (c : Nat) : State × Nat :=
  if 57 ≤ c ∨ (getChan s c).st ≠ 1 then (s, 2) else (pauseChan s c false, 0)

/-- A write to CH_RESUME. -/
def chResume (s : State) (c : Nat) : State × Nat :=
  let h := getChan s c
  if 57 ≤ c ∨ h.st ≠ 2 then (s, 2) else (setChan s c { h with st := 1 }, 0)

/-- End a channel's descriptor and drop its chain (R383). -/
def abortChan (s : State) (c : Nat) : State :=
  setChan s c { getChan s c with st := 0, pending := 0, byPark := false }

/-- A write to CH_ABORT. -/
def chAbort (s : State) (c : Nat) : State × Nat :=
  if 57 ≤ c ∨ (getChan s c).st = 0 then (s, 2) else (setF (abortChan s c) R.movChStatus_aborted c 1, 0)

/-- The running descriptor waits for software requests. -/
def onSoftware (s : State) (c : Nat) : Bool :=
  let h := getChan s c
  (h.st == 1 || h.st == 2) && h.desc.any (fun d => d.reqSrc == 1)

/-- A write to CH_REQ. -/
def chReq (s : State) (c : Nat) : State × Nat := if 57 ≤ c ∨ !onSoftware s c then (s, 2) else (addRequest s c, 0)

def execChStart (ch : Nat) (s : State) : Out := onUnit 64 ch s (fun s => (chStart s ch).1)

def execChPause (ch : Nat) (s : State) : Out := onUnit 64 ch s (fun s => (chPause s ch).1)

def execChResume (ch : Nat) (s : State) : Out := onUnit 64 ch s (fun s => (chResume s ch).1)

def execChAbort (ch : Nat) (s : State) : Out := onUnit 64 ch s (fun s => (chAbort s ch).1)

def execChReq (ch : Nat) (s : State) : Out := onUnit 64 ch s (fun s => (chReq s ch).1)

/-- The lowest share a privileged channel accepts (R376). -/
def shareFloor (c : Nat) : Nat := if c = 57 then 1 else if c < 60 then 16 else 96

/-- The reference rate of a privileged channel, in bytes per µs. -/
def refRate (c : Nat) : Nat := if c = 57 then 100000 else if c < 60 then 200000 else 105400

/-- Bytes a privileged channel's bucket gains per window at its present share. -/
def windowBytes (s : State) (c : Nat) : Nat := getF s R.movRate_share (c - 57) * refRate c / 256

/-- Status of a share. -/
def shareStatus (c share : Nat) : Nat := if share < shareFloor c ∨ 256 < share then 3 else 0

/-- RATE_SHARE_WRITE (R376): the next window uses it. -/
def writeShare (c share : Nat) (s : State) : State :=
  if shareStatus c share = 0 then setF s R.movRate_share (c - 57) share else s

def execRateShareWrite (ch share : Nat) (s : State) : Out :=
  if 57 ≤ ch ∧ ch < 64 then .next (live (writeShare ch share) s) else .fault .noSuchUnit

end Sys2Proof.Machine
end

