-- ==== Sys2Proof/Machine/Tile.lean ====
section
/-! DEFINITION. Machine/Tile.lean: a tile's token, from packing to its outputs and tests, summing sets, and the tile vote
(R189 to R213, R302, R424, R425, R427). -/
namespace Sys2Proof.Machine
open Sys2Proof

/-! ## Packing (R192, R193) -/

/-- A line to drive: its number, its code, and the largest level on it. -/
structure Drive where
  line : Nat
  code : Int
  mx : Nat
  deriving DecidableEq, Repr

/-- The codes of a block of bytes; −128 is taken as −127 (R190). -/
def driveCode (b : Byte) : Int := if b.toInt = -128 then -127 else b.toInt

/-- The predicted peak of a group. -/
def predicted (l : List Drive) : Nat := (l.map (fun d => d.code.natAbs * d.mx)).sum

/-- The phases of a group and its splits: a group that is predicted past 255 × K is halved. Three halvings always do. -/
def driveGroup (k : Nat) : Nat → List Drive → List (List Drive) × Nat
  | 0, l => ([l], 0)
  | n + 1, l =>
    if predicted l ≤ 255 * k then ([l], 0)
    else
      let h := (l.length + 1) / 2
      let a := driveGroup k n (l.take h)
      let b := driveGroup k n (l.drop h)
      (a.1 ++ b.1, a.2 + b.2 + 1)

/-- The phases of a token, or of a pass, and its splits. -/
def packToken (k : Nat) (l : List Drive) : List (List Drive) × Nat :=
  let nz := l.filter (fun d => d.code != 0)
  let g := ((chunks 8 64 nz).filter (fun x => !x.isEmpty)).map (driveGroup k 7)
  (g.flatMap (fun x => x.1), (g.map (fun x => x.2)).sum)

/-! ## Phases (R192, R199 to R201) -/

/-- What the phases of a pass gave: how many ran, the splits, clipped conversions as (line, code), the T values of the
sensed lines, and the lines driven. -/
structure PassOut where
  phases : Nat
  splits : Nat
  clips : List (Nat × Int)
  tvals : List Int
  driven : List Drive
  deriving DecidableEq, Repr

/-- The analogue sums of a phase on the sensed lines: 528 columns forward, 512 rows in transpose. -/
def phaseSums (s : State) (tile mode : Nat) (l : List Drive) : List Int :=
  if mode = 0 then
    l.foldl (fun acc d => List.zipWith (fun a q => a + d.code * q) acc (physRow s tile d.line))
      (List.replicate 528 0)
  else (List.range 512).map (fun r =>
    let row := rowLevels s tile r
    levelSum (l.map (fun d => d.code * row.getD d.line 0)))

/-- The ADC code of a line's sum at conversion constant `k`: the ideal code with a free analogue error, held to −256 to 255
(R192, R199, R203). -/
def lineCode (draw line k : Nat) (v : Int) : Int := clampInt (-256) 255 (roundDiv v k + Config.adcError draw line)

/-- The ADC codes of a phase: reference columns always convert at 1,024 (R197). -/
def phaseCodes (draw k : Nat) (sums : List Int) : List Int :=
  sums.mapIdx (fun l v => lineCode draw l (if 520 ≤ l then 1024 else k) v)

/-- What a forward phase whose driven codes sum to `x` gives the drift tracker (R226): e_m is x × L_m / 1,024, and a window
is full after 4,096 phases. `entries` are the reference columns'. -/
def driftPhase (draw : Nat) (entries : List Nat) (d : Drift) (x : Int) : Drift :=
  if x.natAbs < 1024 then d
  else
    let e := refLevels.map (fun l => x * l)
    let r := List.zipWith (fun t c => trimmed (trimGain t) (16 * c - trimOffset t)) entries
      (e.mapIdx (fun m v => lineCode draw (520 + m) 1024 v))
    let xy := d.xy + 64 * levelSum (List.zipWith (fun a b => a * b) e r)
    let xx := d.xx + (levelSum (e.map (fun a => a * a))).toNat
    if d.n + 1 = 4096 then { Drift.reset with full := d.full ++ [(xy, xx)] } else { d with xy := xy, xx := xx, n := d.n + 1 }

/-- The phases of a forward pass in turn, from draw `n`. -/
def driftPhases (entries : List Nat) : Nat → Drift → List (List Drive) → Drift
  | _, d, [] => d
  | n, d, g :: r => driftPhases entries (n + 1) (driftPhase n entries d (levelSum (g.map (fun x => x.code)))) r

/-- The drift tracker watches the phases of a forward pass (R197, R226). -/
def watchDrift (s : State) (tile : Nat) (g : List (List Drive)) : State :=
  let entries := (rangeFrom 520 8).map (trimOf s tile)
  let d := driftPhases entries s.draws (tget Drift.reset s.cal.drift tile) g
  { s with cal := { s.cal with drift := tput Drift.reset s.cal.drift tile d } }

/-- Accumulate the phases of a pass: A_l, and the clips (R199, R200). -/
def runPhases (s : State) (tile mode k : Nat) (offs : List Int) :
    List (List Drive) → Nat → List Int → List (Nat × Int) → List Int × List (Nat × Int)
  | [], _, acc, clips => (acc, clips)
  | g :: r, n, acc, clips =>
    let c := phaseCodes (s.draws + n) k (phaseSums s tile mode g)
    let acc := List.zipWith (fun a x => a + x) acc (List.zipWith (fun x o => 16 * x - o) c offs)
    let new := ((List.range c.length).zip c).filter (fun x => x.2 == -256 || x.2 == 255)
    runPhases s tile mode k offs r (n + 1) acc (clips ++ new)

/-- One pass over the sensed lines (R200, R201). The phases take draws of the free analogue error. -/
def runPass (s : State) (tile mode : Nat) (l : List Drive) : State × PassOut :=
  let k := convK s tile
  let g := packToken k l
  let lines := if mode = 0 then List.range 528 else (List.range 512).map rowLine
  let entries := lines.map (trimOf s tile)
  let r := runPhases s tile mode k (entries.map trimOffset) g.1 0 (lines.map (fun _ => 0)) []
  let t := List.zipWith (fun a e => trimmed (trimGain e) a) r.1 entries
  let s := when (mode == 0) (fun s => watchDrift s tile g.1) s
  ({ s with draws := s.draws + g.1.length }, ⟨g.1.length, g.2, r.2, t, l.filter (fun d => d.code != 0)⟩)

/-! ## Tests (R204, R209) -/

/-- round(256 × √n). -/
def rootQ (n : Nat) : Nat := (isqrt (4 * 65536 * n) + 1) / 2

/-- The tolerance of a test over n phases, in 1/16 code. -/
def tolerance (tau n : Nat) : Nat := tau * rootQ n / 256

/-- R_k = Σ x_r e_rk over the driven rows. -/
def residualSums (s : State) (tile : Nat) (driven : List Drive) : List Int :=
  driven.foldl (fun acc d => List.zipWith (fun a e => a + d.code * e) acc (residuals (rowLevels s tile d.line)))
    (List.replicate 8 0)

/-- Σ_j T_{64k+j} for the eight groups. -/
def groupT (t : List Int) : List Int := (chunks 8 64 (t.take 512)).map levelSum

/-- The failing groups of a forward token, with |D| / K (R204). -/
def forwardTest (s : State) (tile : Nat) (o : PassOut) : List (Nat × Nat) :=
  if o.phases = 0 ∨ !onF s R.tilCtl_chkFwdEn then []
  else
    let k := convK s tile
    let tol := k * tolerance (getF s R.tilChkTol_tauFwd tile) o.phases
    let d := List.zipWith (fun (g : Int × Int) r => (k : Int) * (g.1 - 64 * g.2) - 16 * r)
      ((groupT o.tvals).zip (o.tvals.drop 512)) (residualSums s tile o.driven)
    (((List.range 8).zip d).filter (fun x => decide (tol < x.2.natAbs))).map (fun x => (x.1, x.2.natAbs / k))

/-- The failing test of a transpose pass, numbered 8 (R209). -/
def transposeTest (s : State) (tile : Nat) (o : PassOut) : List (Nat × Nat) :=
  if o.phases = 0 ∨ !onF s R.tilCtl_chkTpsEn then []
  else
    let k := convK s tile
    let d := (k : Int) * levelSum o.tvals - 16 * levelSum (o.driven.map (fun x => x.code * colSum s tile x.line))
    if k * tolerance (getF s R.tilChkTol_tauTps tile) o.phases < d.natAbs then [(8, d.natAbs / k)] else []

/-! ## The output stage (R202, R302) -/

/-- a_l = T_l × 2^(log2 K − 4). -/
def stageIn (k : Nat) (t : Int) : F32 := froundInt false (t * k) 16

/-- One output element from its exact or combined value. -/
def stageOut (wstep scale v : F32) : F32 :=
  if fzero? v then 0
  else
    let y := fmul v wstep
    if ffinite y then fmul y scale else y

/-- High and low slices of neighbouring columns, 32 × high + low rounded once. -/
def pairSlices : List F32 → List F32
  | h :: l :: r => ffma 0x42000000 h l :: pairSlices r
  | _ => []

/-- The outputs of a token from the sums of its one or two passes. -/
def formOutputs (mode : Nat) (two : Bool) (wstep scale : F32) (a b : List F32) : List F32 :=
  let v := if two && mode == 0 then pairSlices a
    else if two then List.zipWith (fun h l => ffma 0x42000000 h l) a b else a
  v.map (stageOut wstep scale)

/-- Output elements per token (R203). -/
def outElems (mode : Nat) (two : Bool) : Nat := if mode = 0 ∧ two then 256 else 512

/-- Code bytes per token (R189). -/
def codeBytes (mode : Nat) (two : Bool) : Nat := if mode = 1 ∧ two then 256 else 512

/-- The lines driven by the codes of a pass: rows forward; columns in transpose, every second one from `pass` in two-slice
mode (R207). -/
def drives (s : State) (tile mode : Nat) (two : Bool) (pass : Nat) (codes : List Int) : List Drive :=
  codes.mapIdx (fun i x =>
    let l := if mode = 1 ∧ two then 2 * i + pass else i
    ⟨l, x, if x = 0 then 0 else if mode = 0 then rowMax s tile l else colMax s tile l⟩)

/-! ## A token on the array -/

/-- What a token gave: outputs, failing tests with |D| / K, phases, splits, clips, the T values of a forward token, and
which passes failed. -/
structure TokenOut where
  outs : List F32
  fails : List (Nat × Nat)
  phases : Nat
  splits : Nat
  clips : List (Nat × Int)
  tvals : List Int
  pass : Nat
  passPhases : List Nat
  deriving DecidableEq, Repr

/-- Run a token that is not a zero segment. -/
def runToken (s : State) (tile mode : Nat) (two : Bool) (codes : List Int) (scale : F32) : State × TokenOut :=
  let k := convK s tile
  let w := wstepOf s tile
  let x := runPass s tile mode (drives s tile mode two 0 codes)
  let o := x.2
  if mode = 0 then
    let outs := formOutputs 0 two w scale ((o.tvals.take 512).map (stageIn k)) []
    (x.1, ⟨outs, forwardTest s tile o, o.phases, o.splits, o.clips, o.tvals, 0, [o.phases]⟩)
  else
    let rows := o.clips.map (fun c => (0x1000 + c.1, c.2))
    let f := transposeTest s tile o
    if two then
      let y := runPass x.1 tile mode (drives s tile mode two 1 codes)
      let q := y.2
      let g := transposeTest s tile q
      let outs := formOutputs 1 true w scale (o.tvals.map (stageIn k)) (q.tvals.map (stageIn k))
      (y.1, ⟨outs, f ++ g, o.phases + q.phases, o.splits + q.splits,
        rows ++ q.clips.map (fun c => (0x1000 + c.1, c.2)), [], b2n (!f.isEmpty) + 2 * b2n (!g.isEmpty),
        [o.phases, q.phases]⟩)
    else (x.1, ⟨formOutputs 1 false w scale (o.tvals.map (stageIn k)) [], f, o.phases, o.splits, rows, [], 1, [o.phases]⟩)

/-- The exact sums of a token on a level image or record: one a_l per column or row (R302). `row` gives its levels. -/
def exactSums (row : Nat → List Int) (mode : Nat) (two : Bool) (pass : Nat) (codes : List Int) : List F32 :=
  if mode = 0 then
    (((List.range codes.length).zip codes).foldl
      (fun acc x => if x.2 = 0 then acc else List.zipWith (fun a q => a + x.2 * q) acc (row x.1))
      (List.replicate 512 0)).map fofInt
  else
    (List.range 512).map (fun r =>
      let l := row r
      fofInt (levelSum (codes.mapIdx (fun i x =>
        if x = 0 then 0 else x * l.getD (if two then 2 * i + pass else i) 0))))

/-- The outputs of a token by the digital path of R302. -/
def exactOutputs (row : Nat → List Int) (mode : Nat) (two : Bool) (wstep scale : F32) (codes : List Int) : List F32 :=
  formOutputs mode two wstep scale (exactSums row mode two 0 codes)
    (if mode = 1 ∧ two then exactSums row mode two 1 codes else [])

/-! ## Counts and events of a token -/

/-- Splits and clamped codes of a tile in the present step. -/
def stepCounts (s : State) (tile : Nat) : Nat × Nat :=
  ((s.job.clampTiles.find? (fun x => x.1 == tile)).map (fun x => x.2)).getD (0, 0)

/-- Add to them. -/
def addStep (s : State) (tile splits clamped : Nat) : State :=
  let c := stepCounts s tile
  { s with job := { s.job with clampTiles :=
      (tile, c.1 + splits, c.2 + clamped) :: s.job.clampTiles.filter (fun x => x.1 != tile) } }

/-- Codes of −128 driven as −127 (R190). -/
def noteClamped (s : State) (p t mode n : Nat) : State :=
  if n = 0 then s
  else
    let u := tileIx p t
    let s := addStep (bumpF s R.tilCount_clamped u n) u 0 n
    raiseOnce s 0x4003 u (cTile p t) (stepCounts s u).2 mode

/-- Splits, and their alarm (R194). -/
def noteSplits (s : State) (p t n : Nat) : State :=
  if n = 0 then s
  else
    let u := tileIx p t
    let s := addStep (bumpF s R.tilCount_splits u n) u n 0
    let a := getF s R.tilCtl_splitAlarm
    if 0 < a ∧ a ≤ (stepCounts s u).1 then
      raiseOnce s 0x4002 u (cTile p t) (stepCounts s u).1 (getF s R.tilConv_rangeCode u)
    else s

/-- Clipped conversions (R199). -/
def noteClips (s : State) (p t : Nat) (l : List (Nat × Int)) : State :=
  match l with
  | [] => s
  | c :: _ =>
    let u := tileIx p t
    raiseOnce (bumpF s R.tilCount_clips u l.length) 0x4004 u (cTile p t) c.1 (ofSigned 32 c.2)

/-- Phases and tokens of a tile (TIL.PHASES, TIL.STATUS, CAL.TILE_AGE). -/
def notePhases (s : State) (p t n : Nat) : State :=
  let u := tileIx p t
  let s := bumpF (bumpF s R.tilPhases_phasesStep u n) R.tilPhases_tokensStep u 1
  bumpF (setF s R.tilStatus_lastPhases u n) R.calTileAge_phases u n

/-! ## Operations and summing sets (R189, R211) -/

/-- Replace the operation of a slot. -/
def setOp (t : Stall) (o : TileOp) : Stall := { t with ops := t.ops.map (fun x => if x.slot = o.slot then o else x) }

/-- Number of a token of a slot, as a member of a summing set, in the output buffers. -/
def bufKey (slot set token : Nat) : Nat := (slot * 16 + set) * 65536 + token

/-- The bytes of binary32 values. -/
def f32Bytes (l : List F32) : Bytes := l.flatMap (fun a => leBytes 4 a.toNat)

/-- The values of binary32 bytes. -/
def bytesF32 (n : Nat) (b : Bytes) : List F32 := (pieces n 4 b).map (fun x => BitVec.ofNat 32 (leNat x))

/-- An operation has run its last token: the tile is free. -/
def endOp (s : State) (p : Nat) (o : TileOp) : State :=
  let t := getStall s p
  let s := setF s R.tilStatus_busy (tileIx p (posOf t o.slot)) 0
  modStall s p (fun t => { t with ops := t.ops.filter (fun x => x.slot != o.slot),
                                  mmq := t.mmq.filter (fun m => !(m.kind == 4 && m.a == o.slot)) })

/-- A token's outputs are released: written, or handed to the summing unit; the operation goes on (R203, R211). -/
def releaseToken (s : State) (p : Nat) (o : TileOp) (outs : List F32) : State :=
  let s := if o.set = 0 then write s (storeBase p + o.out + 4 * outs.length * o.next) (f32Bytes outs)
    else modStall s p (fun t => { t with bufs := tset t.bufs (bufKey o.slot o.set o.next) outs })
  let o := { o with next := o.next + 1 }
  let s := modStall s p (fun t => setOp t o)
  if o.next = o.n then endOp s p o else s

/-- A member with both its buffers full holds its next token (R211). -/
def bufsFull (t : Stall) (o : TileOp) : Bool :=
  o.set != 0 && decide (2 ≤ countIf t.bufs (fun b => b.1 / 2 ^ 20 == o.slot))

/-- A stop of the stall by a corrupt line (R419) (DEDUCED, assumption 25). -/
def corruptStop (s : State) (p : Nat) : State := stopStall s p

/-- The scale, and the codes as bytes, of an operation's next token: the state after the brand checks, and nothing if a
line is corrupt. -/
def tokenIn (s : State) (p : Nat) (o : TileOp) (two : Bool) : State × Option (F32 × Bytes) :=
  let b := codeBytes o.mode two
  let x := readChecked s 0 (cStall p) (storeBase p + o.scale + 4 * o.next) 4
  let y := readChecked x.1 0 (cStall p) (storeBase p + o.code + b * o.next) b
  match x.2, y.2 with
  | some a, some c => (y.1, some (BitVec.ofNat 32 (leNat a), c))
  | _, _ => (y.1, none)

/-- A result that is not finite traps as a tile result (R202). -/
def resultTrap (s : State) (p tile : Nat) (o : TileOp) (v : BadVal) : State :=
  let b := trapBits s (BitVec.ofNat 32 v.value)
  trap b.1 p 3 2 v.kind o.layer o.instr tile (srW2 o.next v.lane) b.2

/-- Hold a failing token for the vote (R205). -/
def holdToken (s : State) (p t : Nat) (o : TileOp) (codes : List Int) (scale : F32) (r : TokenOut) : State :=
  let u := tileIx p t
  let mask := r.fails.foldl (fun m f => setBit m f.1 true) 0
  let s := setF s R.tilStatus_chkFail u mask
  let s := forEach r.fails (fun s f => raise s 0x4001 (cTile p t) (f.1 + o.next * 2 ^ 8) (min (2 ^ 32 - 1) f.2)) s
  let v : TileVote :=
    { no := (getStall s p).voteNo, slot := o.slot, tile := t, token := o.next, mode := o.mode, groups := (r.fails.map (fun f => f.1)).eraseDups, outs := r.outs,
      tvals := r.tvals, codes := codes, n := r.phases, scale := scale, set := o.set, out := o.out, pass := r.pass }
  let first := (getStall s p).votes.isEmpty && (getStall s p).geVotes.isEmpty
  let s := modStall s p (fun x => { x with votes := x.votes ++ [v], voteNo := x.voteNo + 1 })
  if first then setF s R.brdStatus_votesRunning 0 (getF s R.brdStatus_votesRunning + 1) else s

/-- A token whose codes are not all zero, on the array. -/
def arrayToken (s : State) (p t : Nat) (o : TileOp) (two : Bool) (scale : F32) (codes : List Int) : State :=
  let u := tileIx p t
  let x := runToken s u o.mode two codes scale
  let r := x.2
  let s := noteClips (noteSplits (notePhases x.1 p t r.phases) p t r.splits) p t r.clips
  if !r.fails.isEmpty then holdToken s p t o codes scale r
  else match firstBad 0 r.outs with
    | some v => resultTrap s p t o v
    | none => releaseToken s p o r.outs

/-- The next token of an operation is judged by its scale, then as a zero segment; `run` takes the codes of any other, with
its tile, its slicing and its scale (R191, R195, R302). -/
def openToken (s : State) (p : Nat) (o : TileOp) (run : State → Nat → Bool → F32 → List Int → State) : State :=
  let st := getStall s p
  let t := posOf st o.slot
  let two := ((placeOf s p o.slot).map (fun r => r.twoSlice)).getD false
  let x := tokenIn s p o two
  match x.2 with
  | none => corruptStop x.1 p
  | some (scale, bytes) =>
    let s := x.1
    if !ffinite scale then trap s p 3 3 (badKind32 scale) o.layer o.instr t (srW2 o.next 0) scale.toNat
    else
      let s := if o.onFallback then bumpF s R.genCount_fallbackTokens p 1 else s
      if fzero? scale || bytes.all (fun b => b == 0) then
        releaseToken (if o.onFallback then s else notePhases s p t 0) p o (List.replicate (outElems o.mode two) 0)
      else run (noteClamped s p t o.mode (countIf bytes (fun b => b.toInt == -128))) t two scale (bytes.map driveCode)

/-- The next token of an operation is complete on its tile. -/
def runNext (s : State) (p : Nat) (o : TileOp) : State :=
  openToken s p o (fun s t two scale codes => arrayToken s p t o two scale codes)

/-- A stall's units work: the module runs a step, and the stall's clock runs and it has not stopped. -/
def working (s : State) (p : Nat) : Bool := s.mode == .running && isRunning (getStall s p) && !(getStall s p).stop

/-- A slot of a stall can go on with its next token: the stall works, no vote holds the slot, and its buffers have room. -/
def tokenReady (s : State) (p : Nat) (o : TileOp) : Bool :=
  let t := getStall s p
  working s p && !t.votes.any (fun v => v.slot == o.slot) && !bufsFull t o

/-- TILE_OP_COMPLETE (R189 to R205): the next token of a slot's operation ends on its tile. An operation on fallback goes on
with MM_COMPLETE. -/
def tileOpComplete (p slot : Nat) (s : State) : State :=
  match (getStall s p).ops.find? (fun o => o.slot == slot) with
  | some o =>
    let t := getStall s p
    if tokenReady s p o && !o.onFallback && !t.bad.contains (posOf t slot) then runNext s p o else s
  | none => s

def execTileOpComplete (p slot : Nat) (s : State) : Out := onStall p s (tileOpComplete p slot)

/-- Add members' element values, in ascending slot order (R211). -/
def sumOuts : List (List F32) → List F32
  | [] => []
  | a :: r => r.foldl (fun acc l => List.zipWith fadd acc l) a

/-- A set has written its last sum. -/
def endSet (t : Stall) (x : SumSet) : Stall := { t with sets := t.sets.filter (fun y => y.set != x.set) }

/-- SUM_WRITE (R211): the set's next token, once the run that forms it has ended and every member has passed. -/
def sumWrite (p set : Nat) (s : State) : State :=
  let t := getStall s p
  match t.sets.find? (fun x => x.set == set) with
  | none => s
  | some x =>
    let outs := x.members.filterMap (fun m => tget? t.bufs (bufKey m x.set x.next))
    if working s p && decide (x.run < t.run) && outs.length == x.members.length && !outs.isEmpty then
      let sum := sumOuts outs
      match firstBad 0 sum with
      | some v =>
        let b := trapBits s (BitVec.ofNat 32 v.value)
        trap b.1 p 3 2 v.kind t.layer 0 63 (srW2 x.next v.lane) b.2
      | none =>
        let s := write s (storeBase p + x.out + x.osize * x.next) (f32Bytes sum)
        modStall s p (fun t =>
          let t := { t with bufs := t.bufs.filter (fun b => !x.members.any (fun m => b.1 == bufKey m x.set x.next)) }
          let y := { x with next := x.next + 1 }
          if y.next = x.n then endSet t x
          else { t with sets := t.sets.map (fun z => if z.set = set then y else z) })
    else s

def execSumWrite (p set : Nat) (s : State) : Out := onStall p s (sumWrite p set)

/-! ## The tile vote (R424, R425) -/

/-- W_k and Q_k of a failing forward group agree within K × tol_n. -/
def forwardAgrees (s : State) (v : TileVote) (u : Nat) (row : Nat → List Int) (k : Nat) : Bool × Bool :=
  let kk : Int := convK s u
  let tol := convK s u * tolerance (getF s R.tilChkTol_tauFwd u) v.n
  let rows := (List.range v.codes.length).zip v.codes
  let e := levelSum (rows.map (fun x => if x.2 = 0 then 0 else x.2 * (groupSums (row x.1)).getD k 0))
  let rk := levelSum (rows.map (fun x => if x.2 = 0 then 0 else x.2 * (residuals (rowLevels s u x.1)).getD k 0))
  let w := kk * (groupT v.tvals).getD k 0 - 16 * e
  let q := kk * 64 * v.tvals.getD (512 + k) 0 + 16 * rk - 16 * e
  (decide (w.natAbs ≤ tol), decide (q.natAbs ≤ tol))

/-- The driven columns of a pass whose stored sums are compared: whether the record's sum of them differs. -/
def sumsDiffer (s : State) (v : TileVote) (u : Nat) (row : Nat → List Int) (two : Bool) (pass : Nat) : Bool :=
  let cols := (List.range v.codes.length).zip v.codes
  let at_ := fun (i : Nat) => if two then 2 * i + pass else i
  let stored := levelSum (cols.map (fun x => if x.2 = 0 then 0 else x.2 * colSum s u (at_ x.1)))
  let rec_ := levelSum ((List.range 512).map (fun r =>
    let l := row r
    levelSum (cols.map (fun x => if x.2 = 0 then 0 else x.2 * l.getD (at_ x.1) 0))))
  decide (stored ≠ rec_)

/-- Every S_c is derived afresh from the record (R424). -/
def deriveSums (s : State) (u : Nat) (row : Nat → List Int) : State :=
  let totals := (List.range 512).foldl (fun acc r => List.zipWith (fun a q => a + q) acc (row r)) (List.replicate 512 0)
  forEach ((List.range 512).zip totals) (fun s x =>
    { s with cal := { s.cal with sumErr := tput 0 s.cal.sumErr (u * 512 + x.1) (x.2 - colSumExact s u x.1) } }) s

/-- The outcome of a vote: 0 checker lost, 1 worker lost, 2 both lost, 3 marginal. Of several failing groups, a side agrees
when it agrees in each (DEDUCED, assumption 27). -/
def voteOutcome (s : State) (v : TileVote) (u : Nat) (row : Nat → List Int) (two : Bool) : Nat :=
  if v.mode = 0 then
    let a := v.groups.map (forwardAgrees s v u row)
    match a.all (fun x => x.1), a.all (fun x => x.2) with
    | true, false => 0
    | false, true => 1
    | false, false => 2
    | true, true => 3
  else if (bit v.pass 0 && sumsDiffer s v u row two 0) || (bit v.pass 1 && sumsDiffer s v u row two 1) then 0
  else 1

/-- A vote of a stall has ended: the next that waits begins. -/
def endVote (s : State) (p : Nat) : State :=
  let s := modStall s p (fun t => { t with votes := t.votes.drop 1 })
  if (getStall s p).votes.isEmpty && (getStall s p).geVotes.isEmpty then
    setF s R.brdStatus_votesRunning 0 (getF s R.brdStatus_votesRunning - 1)
  else s

/-- BRD.VOTE_LAST. -/
def showVote (s : State) (outcome kind p tile group : Nat) : State :=
  setFs s [(R.brdVoteLast_valid, 1), (R.brdVoteLast_outcome, outcome), (R.brdVoteLast_kind, kind),
    (R.brdVoteLast_stall, p), (R.brdVoteLast_tile, tile), (R.brdVoteLast_group, group), (R.brdVoteLast_step, stepNo s)]

/-- A vote with nothing to release (R425, R426): the stall stops, event 0xC006. -/
def noMajority (s : State) (p kind tile group d0 d1 : Nat) : State :=
  let s := bumpF (showVote s 4 kind p tile group) R.brdCount_noMajority 0 1
  raise (stopStall s p) 0xC006 (cStall p) d0 d1

/-- The counts, register and event of a decided tile vote. -/
def noteVote (s : State) (p : Nat) (v : TileVote) (outcome : Nat) : State :=
  let g := v.groups.headD 0
  let s := bumpF (showVote s outcome 0 p v.tile g) R.brdCount_votes 0 1
  let s := if outcome = 0 then bumpF s R.brdCount2_checkerLost 0 1
    else if outcome = 1 then bumpF s R.brdCount2_workerLost 0 1
    else if outcome = 3 then bumpF s R.brdCount2_marginal 0 1 else s
  raise s 0xC005 (cTile p v.tile) outcome g

/-- A vote of a stall is the first that waits (R427). -/
def voteFirst (t : Stall) (no : Nat) : Bool :=
  t.votes.all (fun v => decide (no ≤ v.no)) && t.geVotes.all (fun v => decide (no ≤ v.no))

/-- TILE_VOTE_DECIDED (R424, R425): the level record must have come through the loft channel of its chip. -/
def decideTileVote (p : Nat) (s : State) : State :=
  let t := getStall s p
  match t.votes, t.ops.find? (fun o => t.votes.any (fun v => v.slot == o.slot && t.votes.head? == some v)) with
  | v :: _, some o =>
    if !working s p || !voteFirst t v.no then s
    else match placeOf s p v.slot with
      | none => endVote s p
      | some pl =>
        if !loaded s (loadKey 3 p v.slot) then s else
        let base := levelAddr s pl
        let u := tileIx p v.tile
        let rd := loftRead (dropLoad s (loadKey 3 p v.slot)) base recordSize
        let s := rd.1
        if !rd.2 then noMajority (endVote s p) p 0 v.tile (v.groups.headD 0) 1 v.slot
        else
          let row := fun r => recordRow s base r
          let outcome := voteOutcome s v u row pl.twoSlice
          let outs := if outcome = 1 ∨ outcome = 2
            then exactOutputs row v.mode pl.twoSlice (wstepOf s u) v.scale v.codes else v.outs
          let s := noteVote s p v outcome
          let s := if outcome = 0 ∧ v.mode = 1 then deriveSums s u row else s
          let s := endVote s p
          let s := match firstBad 0 outs with
            | some b => resultTrap s p v.tile o b
            | none => releaseToken s p o outs
          match outcome with
          | 0 => strikeTile s p v.tile 2
          | 1 => strikeTile s p v.tile 1
          | 2 => strikeTile s p v.tile 3
          | _ => s
  | _, _ => s

def execTileVoteDecided (p : Nat) (s : State) : Out := onStall p s (decideTileVote p)

end Sys2Proof.Machine
end

