-- ==== Sys2Proof/Machine/Seq.lean ====
section
/-! DEFINITION. Machine/Seq.lean: issuing of step-program instructions, and those of the scalar registers, the mover, the
tiles and the vector unit (R26, R189, R211, R260, R276 to R289, R295). -/
namespace Sys2Proof.Machine
open Sys2Proof

/-! ## Issue (R284, R285, R291, R295) -/

/-- The words of the step program bound to a stall (R170). -/
def programOf (s : State) (p : Nat) : List Nat :=
  match s.job.image with
  | none => []
  | some i =>
    match i.bindings.find? (fun b => b.1 == ownIndex s && b.2.1 == p) with
    | some b => i.programs.getD b.2.2 []
    | none => []

/-- A layer's bit of the frozen bitmap (R170). -/
def frozenLayer (s : State) (l : Nat) : Bool :=
  match s.job.image with
  | none => false
  | some i => bit (i.frozen.getD (l / 8) 0).toNat (l % 8)

/-- Opcode of an instruction (R284). -/
def insOp (w : Nat) : Nat := bits w 63 56

/-- The stall's next instruction can issue: its program has started, has neither ended nor stopped, and it is not waiting at
FWD_END. -/
def canIssue (s : State) (p : Nat) : Bool :=
  let t := getStall s p
  s.mode == .running && isRunning t && t.started && !t.stop && getF s R.genStall_pass p != 3 && !onF s R.genStall_atFwdEnd p

/-- A P register (R284). -/
def preg (s : State) (p i : Nat) : Nat := if i = 0 then 0 else tget 0 (getStall s p).regs i

/-- Write a P register; P0 is never written. -/
def setPreg (s : State) (p i v : Nat) : State :=
  if i = 0 then s else modStall s p (fun t => { t with regs := tput 0 t.regs i (v % 2 ^ 64) })

/-- The next instruction's index. -/
def insAt (s : State) (p : Nat) : Nat := getF s R.genStall_pc p

/-- Issue goes on at an index. -/
def jump (s : State) (p ix : Nat) : State := setF s R.genStall_pc p ix

/-- Issue goes on at the next instruction. -/
def advance (s : State) (p : Nat) : State := jump s p (insAt s p + 1)

/-- A run of TOPs ends at the first instruction that is not a TOP; a set of it with nothing to write is over (R211). -/
def endTops (t : Stall) : Stall :=
  if t.sets.any (fun x => x.run == t.run) then
    { t with run := t.run + 1, sets := t.sets.filter (fun x => x.next != x.n) }
  else t

/-- Issue of a stall's next instruction, when it is this row's: a wg instruction of a frozen layer is passed over (R295);
`run` gets the instruction (DEDUCED, assumption 16) (DEDUCED, assumption 97). -/
def issue (p op : Nat) (s : State) (run : State → Nat → State) : Out :=
  onStall p s (fun s =>
    if !canIssue s p then s
    else match (programOf s p)[insAt s p]? with
      | none => s
      | some w =>
        if insOp w ≠ op then s
        else
          let s := if op = 0x10 then s else modStall s p endTops
          if bit w 0 && frozenLayer s (getStall s p).layer then advance (bumpF s R.genCount_skipped p 1) p
          else run s w)

/-- A fault of the instruction at hand (R289). -/
def faultIns (s : State) (p w status detail : Nat) : State := instrFault s p status (insOp w) (insAt s p) detail

/-- The end of what an instruction may name in its stall store: the fallback region begins here (R300). -/
def storeTop : Nat := 0x380000

/-- A span of the stall store that an instruction may name (DEDUCED, assumption 100). -/
def inStore (off n : Nat) : Bool := n == 0 || decide (off + n ≤ storeTop)

/-- The site of a conversion by the instruction at hand (R283). -/
def siteOf (s : State) (p site : Nat) : Site :=
  let t := getStall s p
  { layer := t.layer, tensor := t.tensor, expert := t.expert, site := site }

/-- A checked read of the stall's own store; nothing if a line is corrupt, which stops the stall (R419). -/
def storeRead (s : State) (p w reader off n : Nat) : State × Option Bytes :=
  let r := readChecked s reader (cStall p) (storeBase p + off) n
  match r.2 with
  | some b => (r.1, some b)
  | none => (faultIns r.1 p w 7 off, none)

/-- The lines of the stall's own store that a write covers in part must be sound, else the stall stops (R417, R419). -/
def storeParts (s : State) (p w reader off n : Nat) : State × Bool :=
  let r := partsChecked s reader (cStall p) [(storeBase p + off, n)]
  if r.2 then r else (faultIns r.1 p w 7 off, false)

/-! ## Scalar instructions -/

def execStepNop (p : Nat) (s : State) : Out := issue p 0x00 s (fun s _ => advance s p)

/-- SETI. -/
def runSeti (p : Nat) (s : State) (w : Nat) : State := advance (setPreg s p (bits w 55 52) (bits w 48 1)) p

def execSeti (p : Nat) (s : State) : Out := issue p 0x04 s (runSeti p)

/-- ADDI: the immediate is an i32. -/
def runAddi (p : Nat) (s : State) (w : Nat) : State :=
  advance (setPreg s p (bits w 55 52)
    (ofSigned 64 ((preg s p (bits w 51 48) : Int) + toSigned 32 (bits w 32 1)))) p

def execAddi (p : Nat) (s : State) : Out := issue p 0x05 s (runAddi p)

/-- The stall-store offset of LDP and STP. -/
def slotOffset (s : State) (p w : Nat) : Nat := preg s p (bits w 51 48) % 2 ^ 23 + bits w 16 1

/-- LDP. -/
def runLdp (p : Nat) (s : State) (w : Nat) : State :=
  let a := slotOffset s p w
  if !inStore a 8 then faultIns s p w 3 a
  else match storeRead s p w 2 a 8 with
    | (s, some b) => advance (setPreg s p (bits w 55 52) (leNat b)) p
    | (s, none) => s

def execLdp (p : Nat) (s : State) : Out := issue p 0x06 s (runLdp p)

/-- STP. -/
def runStp (p : Nat) (s : State) (w : Nat) : State :=
  let a := slotOffset s p w
  if !inStore a 8 then faultIns s p w 3 a
  else
    let r := storeParts s p w 1 a 8
    if r.2 then advance (writeNat r.1 (storeBase p + a) 8 (preg s p (bits w 55 52))) p else r.1

def execStp (p : Nat) (s : State) : Out := issue p 0x07 s (runStp p)

/-- LOOP. -/
def runLoop (p : Nat) (s : State) (w : Nat) : State :=
  let d := bits w 55 52
  let v := preg s p d
  if v = 0 then advance s p
  else
    let s := setPreg s p d (v - 1)
    if v = 1 then advance s p else jump s p (insAt s p - bits w 16 1)

def execLoop (p : Nat) (s : State) : Out := issue p 0x08 s (runLoop p)

/-- Number of a queue of a stall among the package's 8,192. -/
def queueIx (p q : Nat) : Nat := 16 * p + q

/-- Every condition of a WAIT holds (R287) (DEDUCED, assumption 102). -/
def waitOver (s : State) (p w : Nat) : Bool :=
  let t := getStall s p
  (!bit w 48 || (t.ops.isEmpty && t.sets.isEmpty)) && (!bit w 49 || t.mmq.isEmpty)
    && (!bit w 50 || (getChan s (64 + p)).st == 0)
    && (!bit w 51 || getF s R.genStall_bank0 p == 0) && (!bit w 52 || getF s R.genStall_bank1 p == 0)
    && (!bit w 53 || decide (preg s p (bits w 47 44) ≤ getF s R.rteQueue_counter (queueIx p (bits w 43 40))))

def execWait (p : Nat) (s : State) : Out := issue p 0x09 s (fun s w => if waitOver s p w then advance s p else s)

/-- MOVE: a busy channel holds issue (R285); the descriptor lies at Pa[22:0], a multiple of 64 within the store and outside
the fallback region (R286, R289, R300, R370) (DEDUCED, assumption 165). -/
def runMove (p : Nat) (s : State) (w : Nat) : State :=
  let a := preg s p (bits w 55 52) % 2 ^ 23
  if a % 64 ≠ 0 ∨ !inStore a 64 then faultIns s p w 3 a
  else if (getChan s (64 + p)).st = 0 then advance (startChain s (64 + p) a) p else s

def execMove (p : Nat) (s : State) : Out := issue p 0x0A s (runMove p)

/-! ## Tile operations (R189, R190, R211, R229, R286, R302, R438) -/

/-- A trough bank's state (GEN.STALL): 0 free, 1 busy, 2 draining, 3 waiting for the owner's pull. -/
def bankState (s : State) (p b : Nat) : Nat := if b = 0 then getF s R.genStall_bank0 p else getF s R.genStall_bank1 p

/-- Set it. -/
def setBank (s : State) (p b v : Nat) : State :=
  if b = 0 then setF s R.genStall_bank0 p v else setF s R.genStall_bank1 p v

/-- The failed slot waits for its fallback: nothing more is issued to it (R438) (DEDUCED, assumption 98). -/
def quiesced (s : State) (p slot : Nat) : Bool :=
  s.cal.failing.any (fun q => q.1 == p && q.2.1 == slot) && (fallbackOf s p slot).isNone

/-- A TOP that R189 refuses: event 0x4005, then as a fault (R289). -/
def refuseTop (s : State) (p w n slot detail : Nat) : State :=
  faultIns (raise s 0x4005 (cTile p (posOf (getStall s p) slot)) 3 n) p w 3 detail

/-- The blocks of an operation: codes, scales, outputs. -/
def topSpans (o : TileOp) (two : Bool) : List (Nat × Nat) :=
  [(o.code, codeBytes o.mode two * o.n), (o.scale, 4 * o.n), (o.out, 4 * outElems o.mode two * o.n)]

/-- Whether an operation can join its summing set: `none` to wait for an earlier run's set, else whether it agrees. -/
def setAgrees (t : Stall) (o : TileOp) (osize : Nat) : Option Bool :=
  match t.sets.find? (fun x => x.set == o.set) with
  | none => some true
  | some x =>
    if x.run = t.run then some (x.out == o.out && x.mode == o.mode && x.n == o.n && x.osize == osize)
    else if x.next < x.n then none else some true

/-- Join, or begin, the summing set of the present run. Members stand in ascending slot order. -/
def joinSet (t : Stall) (o : TileOp) (osize : Nat) : Stall :=
  if o.set = 0 then t
  else match t.sets.find? (fun x => x.set == o.set && x.run == t.run) with
    | some x =>
      let y := { x with members := (x.members ++ [o.slot]).mergeSort (fun a b => decide (a ≤ b)) }
      { t with sets := t.sets.map (fun z => if z.set = o.set then y else z) }
    | none =>
      { t with sets := t.sets.filter (fun z => z.set != o.set)
          ++ [{ set := o.set, run := t.run, members := [o.slot], out := o.out, mode := o.mode, n := o.n, osize := osize,
                next := 0 }] }

/-- The operation of a TOP. -/
def topOf (s : State) (p w : Nat) : TileOp :=
  let t := getStall s p
  let a := preg s p (bits w 45 42)
  let slot := bits w 54 50
  { mode := b2n (bit w 55), slot := slot, n := bits a 63 48, code := 64 * bits a 47 32, scale := 64 * bits a 31 16,
    out := 64 * bits a 15 0, set := bits w 49 46, next := 0, run := t.run, instr := insAt s p, layer := t.layer,
    onFallback := (fallbackOf s p slot).isSome }

/-- The slot of an operation has a summing set it is already a member of (DEDUCED, assumption 99). -/
def alreadyMember (t : Stall) (o : TileOp) : Bool :=
  t.sets.any (fun x => x.set == o.set && x.run == t.run && x.members.contains o.slot)

/-- An operation joins the MM queue (R280). -/
def queueMm (s : State) (p : Nat) (o : MMOp) : State :=
  modStall s p (fun t => { t with mmq := t.mmq ++ [o], moved := if t.mmq.isEmpty then 0 else t.moved })

/-- An accepted operation: its tile is busy, or it joins the MM queue (R189, R229, R302). -/
def acceptTop (s : State) (p : Nat) (o : TileOp) (osize : Nat) : State :=
  let s := modStall s p (fun t => joinSet t o osize)
  if o.n = 0 then s
  else
    let pos := posOf (getStall s p) o.slot
    let u := tileIx p pos
    let s := modStall s p (fun t => { t with ops := t.ops ++ [o] })
    let s := when (!o.onFallback) (fun s => setF (setF s R.tilStatus_busy u 1) R.tilStatus_mode u o.mode) s
    if o.onFallback then
      queueMm s p { a := o.slot, b := 0, c := 0, k := 0, m := 0, n := 0, aFmt := 8, bFmt := 8, aOrient := 0, bOrient := 0,
                    kind := 4, instr := o.instr, layer := o.layer }
    else abortRetrim s p u

/-- TOP. -/
def runTop (p : Nat) (s : State) (w : Nat) : State :=
  let o := topOf s p w
  let t := getStall s p
  match placeOf s p o.slot with
  | none => faultIns s p w 8 o.slot
  | some pl =>
    let osize := 4 * outElems o.mode pl.twoSlice
    let spans := (topSpans o pl.twoSlice).filter (fun x => x.2 != 0)
    match spans.find? (fun x => decide (0x400000 < x.1 + x.2)) with
    | some x => refuseTop s p w o.n o.slot x.1
    | none =>
      match spans.find? (fun x => !inStore x.1 x.2) with
      | some x => faultIns s p w 3 x.1
      | none =>
        match (if o.set = 0 then some true else setAgrees t o osize) with
        | none => s
        | some false => refuseTop s p w o.n o.slot o.set
        | some true =>
          if t.ops.any (fun x => x.slot == o.slot) || quiesced s p o.slot
              || (o.onFallback && decide (2 ≤ t.mmq.length) && o.n != 0) then s
          else if o.set ≠ 0 ∧ alreadyMember t o then refuseTop s p w o.n o.slot o.set
          else advance (acceptTop s p o osize) p

def execTop (p : Nat) (s : State) : Out := issue p 0x10 s (runTop p)

/-! ## Conversions of the vector unit (R260, R281 to R283, R286) -/

/-- The ordinal of a token by the list at P15 (R284): nothing when its entry lies outside the store. -/
def ordinalAt (s : State) (p t : Nat) : Option Nat :=
  let a := preg s p 15 % 2 ^ 23 + 4 * t
  if inStore a 4 then some (readNat s (storeBase p + a) 4) else none

/-- A trap of a conversion input, with its counter (R269). -/
def inputTrap (s : State) (p w2 : Nat) (v : BadVal) : State :=
  trap s p 2 4 v.kind (getStall s p).layer (insAt s p) 63 w2 v.value

/-- QIN's sources: for each token, its ordinal and its elements. -/
def qinTokens (s : State) (p src pos n : Nat) : Option (List (Nat × List F32)) :=
  (List.range n).mapM (fun i =>
    (ordinalAt s p (pos + i)).map (fun o => (o, bytesF32 512 (readBytes s (storeBase p + src + 2048 * i) 2048))))

/-- One token of QIN: the first `els` codes and the scale of its segment, and its share of the counts of cls 0 or 1 (R260,
R261). -/
def qinToken (p mode els : Nat) (c : Site) (seg code scale : Nat) (s : State) (x : Nat × Nat × List F32) : State :=
  let v := analogueCodes (rndOf s 5 mode c (fun lane => srW2 x.2.1 (512 * seg + lane))) x.2.2
  let s := tally s c.layer mode 0 v.ecl 0 v.amaxIn v.amaxOut
  let s := write s (storeBase p + code + els * x.1) ((v.codes.take els).map (fun a => BitVec.ofInt 8 a))
  write s (storeBase p + scale + 4 * x.1) (leBytes 4 v.scale.toNat)

/-- QIN converts whole segments; with half set it writes the first 256 codes of each (DEDUCED, assumption 103). -/
def runQin (p : Nat) (s : State) (w : Nat) : State :=
  let a := preg s p (bits w 54 51)
  let b := preg s p (bits w 50 47)
  let mode := b2n (bit w 55)
  let els := if bit w 23 then 256 else 512
  let seg := bits w 39 24
  let src := 64 * bits a 15 0
  let pos := bits a 31 16
  let n := bits a 47 32
  let code := 64 * bits b 15 0
  let scale := 64 * bits b 31 16
  if !inStore src (2048 * n) then faultIns s p w 3 src
  else if !inStore code (els * n) then faultIns s p w 3 code
  else if !inStore scale (4 * n) then faultIns s p w 3 scale
  else match storeRead s p w 2 src (2048 * n) with
    | (s, none) => s
    | (s, some _) =>
      match qinTokens s p src pos n with
      | none => faultIns s p w 3 (preg s p 15)
      | some l =>
        match l.findSome? (fun x => (firstBad 0 x.2).map (fun v => (x.1, v))) with
        | some (o, v) => inputTrap s p (srW2 o (512 * seg + v.lane)) v
        | none =>
          let r := storeParts s p w 2 scale (4 * n)
          if r.2 then
            advance (forEach (l.mapIdx (fun i x => (i, x)))
              (qinToken p mode els (siteOf s p (bits w 46 40)) seg code scale) r.1) p
          else r.1

def execQin (p : Nat) (s : State) : Out := issue p 0x11 s (runQin p)

/-- A V register: 512 lanes, +0.0 when the program starts. -/
def vreg (s : State) (p i : Nat) : List F32 := (tget? (getStall s p).vregs i).getD (List.replicate 512 0)

/-- Write a V register. -/
def setVreg (s : State) (p i : Nat) (l : List F32) : State :=
  modStall s p (fun t => { t with vregs := tset t.vregs i l })

/-- VLD: a decode that leaves binary32's range counts as an infinity (DEDUCED, assumption 104). -/
def runVld (p : Nat) (s : State) (w : Nat) : State :=
  let a := preg s p (bits w 50 47)
  let fmt := bits w 46 43
  let off := 64 * bits a 15 0
  let elem := fun lane => srW2 (bits a 31 16) (512 * bits a 47 32 + lane)
  let t := getStall s p
  if !inStore off (segBytes fmt) then faultIns s p w 3 off
  else match storeRead s p w 2 off (segBytes fmt) with
    | (s, none) => s
    | (s, some b) =>
      match decodeSeg fmt b with
      | .error v =>
        trapDecode s p 4 0 t.layer (insAt s p) 63 (elem v.lane) v
      | .ok l =>
        let r := l.map exactToF32
        match firstBad 0 r with
        | some v => trap s p 4 0 v.kind t.layer (insAt s p) 63 (elem v.lane) v.value
        | none => advance (setVreg s p (bits w 55 51) r) p

def execVld (p : Nat) (s : State) : Out := issue p 0x30 s (runVld p)

/-- What VST writes: the segment by its selector (R283). -/
def vstBytes (s : State) (sel : Nat) (c : Site) (w2 : Nat → Nat) (l : List F32) : State × Bytes :=
  if sel ≤ 4 then convertRule s sel sel 0 c w2 l
  else if sel = 5 ∧ narrow s then
    let v := convWide 3 (rndOf s 6 0 c w2) l
    (countSat s v.sat, v.bytes)
  else (s, f32Bytes l)

/-- Bytes of it. -/
def vstSize (s : State) (sel layer : Nat) : Nat :=
  if sel ≤ 4 then ruleBytes s layer sel else if sel = 5 ∧ narrow s then segBytes 3 else segBytes 5

/-- VST. -/
def runVst (p : Nat) (s : State) (w : Nat) : State :=
  let a := preg s p (bits w 50 47)
  let sel := bits w 46 43
  let off := 64 * bits a 15 0
  let seg := bits a 47 32
  let l := vreg s p (bits w 55 51)
  let c := siteOf s p (bits w 42 36)
  if !inStore off (vstSize s sel c.layer) then faultIns s p w 3 off
  else match (if sel = 15 then some 0 else ordinalAt s p (bits a 31 16)) with
    | none => faultIns s p w 3 (preg s p 15)
    | some o =>
      let w2 := fun lane => srW2 o (512 * seg + lane)
      match (if sel = 15 then none else firstBad 0 l) with
      | some v => inputTrap s p (w2 v.lane) v
      | none =>
        let x := vstBytes s sel c w2 l
        advance (write x.1 (storeBase p + off) x.2) p

def execVst (p : Nat) (s : State) : Out := issue p 0x31 s (runVst p)

/-- The operands a lane of a VOP examines, by operand number, and its result (R281). -/
structure VLane where
  uses : List (Nat × F32)
  out : F32
  deriving DecidableEq, Repr

/-- A lane of an operation that goes lane by lane. -/
def vopLane (op i : Nat) (a b c : F32) : VLane :=
  match op with
  | 0 => ⟨[(0, a), (1, b)], fadd a b⟩
  | 1 => ⟨[(0, a), (1, b)], fsub a b⟩
  | 2 => ⟨[(0, a), (1, b)], fmul a b⟩
  | 3 => ⟨[(0, a), (1, b), (2, c)], ffma a b c⟩
  | 4 => ⟨[(0, a), (1, b)], fmax a b⟩
  | 5 => ⟨[(0, a), (1, b)], fmin a b⟩
  | 6 => ⟨[(0, a)], fabs a⟩
  | 7 => ⟨[(0, a)], fopp a⟩
  | 8 => ⟨[(0, a)], fdiv oneCode a⟩
  | 9 => ⟨[(0, a)], frsqrt a⟩
  | 10 => ⟨[(0, a)], fsqrt a⟩
  | 11 => ⟨[(0, a)], fexp2 a⟩
  | 12 => ⟨[(0, a)], fexp a⟩
  | 13 => if fpos c then ⟨[(0, a), (2, c)], fexp a⟩ else ⟨[(2, c)], 0⟩
  | 14 => ⟨[(0, a)], flog2 a⟩
  | 15 => ⟨[(0, a), (1, b)], if fgt a b then oneCode else 0⟩
  | 16 => if fpos c then ⟨[(0, a), (2, c)], a⟩ else ⟨[(1, b), (2, c)], b⟩
  | _ => ⟨[], fofInt i⟩

/-- The 512 lanes of a VOP. -/
def vopLanes (op lane : Nat) (a b c : List F32) : List VLane :=
  match op with
  | 17 => let x := a.getD lane 0; List.replicate 512 ⟨[(0, x)], x⟩
  | 18 => let x := treeSum a; a.map (fun y => ⟨[(0, y)], x⟩)
  | 19 => let x := a.foldl fmax (a.headD 0); a.map (fun y => ⟨[(0, y)], x⟩)
  | _ => (List.range 512).map (fun i => vopLane op i (a.getD i 0) (b.getD i 0) (c.getD i 0))

/-- The first non-finite operand of an operand number, with its lane (DEDUCED, assumption 24). -/
def badOperand (l : List VLane) (k : Nat) : Option (Nat × Nat × F32) :=
  ((l.mapIdx (fun i v => (i, v))).findSome? (fun x =>
    (x.2.uses.find? (fun u => u.1 == k && !ffinite u.2)).map (fun u => (x.1, k, u.2))))

/-- What traps in a VOP: an operand, the lower number first, then a result (R269). -/
def vopBad (l : List VLane) : Option (Nat × Nat × F32) :=
  (badOperand l 0) <|> (badOperand l 1) <|> (badOperand l 2)
    <|> ((firstBad 0 (l.map (fun v => v.out))).map (fun v => (v.lane, 2, BitVec.ofNat 32 v.value)))

/-- VOP. -/
def runVop (p : Nat) (s : State) (w : Nat) : State :=
  let l := vopLanes (bits w 35 30) (bits w 29 21) (vreg s p (bits w 50 46)) (vreg s p (bits w 45 41))
    (vreg s p (bits w 40 36))
  match vopBad l with
  | some (lane, operand, v) =>
    let x := trapBits s v
    trap x.1 p 1 operand (badKind32 v) (getStall s p).layer (insAt s p) 63 lane x.2
  | none => advance (setVreg s p (bits w 55 51) (l.map (fun v => v.out))) p

def execVop (p : Nat) (s : State) : Out := issue p 0x32 s (runVop p)

/-- VSETI. -/
def runVseti (p : Nat) (s : State) (w : Nat) : State :=
  advance (setVreg s p (bits w 55 51) (List.replicate 512 (BitVec.ofNat 32 (bits w 32 1)))) p

def execVseti (p : Nat) (s : State) : Out := issue p 0x33 s (runVseti p)

/-! ## Matrix products and troughs (R276 to R280, R296) -/

/-- An operand pack (R278). -/
structure Pack where
  off : Nat
  stride : Nat
  eoff : Nat
  zero : Bool
  deriving DecidableEq, Repr

/-- The fields of an operand pack. -/
def packOf (v : Nat) : Pack := ⟨64 * bits v 16 0, bits v 47 32, bits v 63 48, bits v 31 17 == 0⟩

/-- The rows of an operand and the elements each row holds: k rows of `m` in orientation 0, `m` rows of k in 1. -/
def packShape (orient k m : Nat) : Nat × Nat := if orient = 0 then (k, m) else (m, k)

/-- Bytes of a row's segment in an operand format; i8 rows have no side area. -/
def rowSeg (fmt : Nat) : Nat := if fmt = 8 then 512 else segBytes fmt

/-- Bytes of an element in an operand format. -/
def elSize (fmt : Nat) : Nat := if fmt = 8 then 1 else (fm fmt).size

/-- The lines of a row, counted from the store's start: of its elements and of the side areas of its segments. -/
def rowLines (fmt : Nat) (pk : Pack) (orient r els : Nat) : List Nat :=
  let base := pk.off + 64 * pk.stride * r
  let s0 := pk.eoff / 512
  let s1 := if orient = 0 then s0 else (pk.eoff + els - 1) / 512
  (rangeFrom s0 (s1 + 1 - s0)).flatMap (fun g =>
    let lo := max pk.eoff (512 * g) - 512 * g
    let hi := min (pk.eoff + els) (512 * (g + 1)) - 512 * g
    let at_ := base + rowSeg fmt * g
    let first := (at_ + elSize fmt * lo) / 64
    let last := (at_ + elSize fmt * hi - 1) / 64
    rangeFrom first (last + 1 - first) ++ (if isFp8 fmt then [(at_ + 512) / 64] else []))

/-- The lines of an operand. -/
def packLines (fmt : Nat) (pk : Pack) (orient k m : Nat) : List Nat :=
  let sh := packShape orient k m
  (List.range sh.1).flatMap (fun r => rowLines fmt pk orient r sh.2)

/-- An operand pack breaks a limit of R278: the status, or 0 (DEDUCED, assumption 101). -/
def packFault (fmt : Nat) (pk : Pack) (orient k m : Nat) : Nat :=
  let lines := packLines fmt pk orient k m
  if !pk.zero then 4
  else if pk.eoff % 64 ≠ 0 ∨ (orient = 0 ∧ 512 < pk.eoff + m) ∨ (isFp8 fmt ∧ pk.stride < 9) then 3
  else if lines.any (fun l => decide (storeTop ≤ 64 * l)) then 3 else 0

/-- The bytes of an output: (m, n) lies at offset + 64 × stride × m + 4 n (R279). -/
def outAt (c m n : Nat) : Nat := 64 * bits c 16 0 + 64 * bits c 47 32 * m + 4 * n

/-- A destination pack breaks a limit of R279: the status, or 0. -/
def destFault (c kind m n : Nat) : Nat :=
  if bits c 31 17 ≠ 0 ∨ bits c 63 48 ≠ 0 then 4
  else
    let lo := outAt c 0 0
    let hi := outAt c (m - 1) (n - 1) + 4
    if kind < 2 then (if lo < 0x400000 ∨ 0x500000 < hi then 3 else 0) else if storeTop < hi then 3 else 0

/-- The lines of an output. -/
def outLines (c m n : Nat) : List Nat :=
  (List.range m).flatMap (fun r => rangeFrom (outAt c r 0 / 64) ((outAt c r (n - 1) + 3) / 64 + 1 - outAt c r 0 / 64))

/-- Cycles of an MM while movers moved `moved` bytes through the port (R280) (DEDUCED, assumption 137). -/
def mmCycles (o : MMOp) (moved : Nat) : Nat :=
  let f := if o.aFmt = 3 then 2 else 1
  let c := o.m / 64 * (o.n / 128) * max (f * o.k) 128
  let ops := (packLines o.aFmt (packOf o.a) o.aOrient o.k o.m ++ packLines o.bFmt (packOf o.b) o.bOrient o.k o.n).eraseDups
  let out := if o.kind < 2 then 0 else (outLines o.c o.m o.n).eraseDups.length * (if o.kind = 3 then 2 else 1)
  24 + max c (ceilDiv (ops.length + out) 4 + ceilDiv moved 256)

/-- The MM of an instruction. -/
def mmOf (s : State) (p w : Nat) : MMOp :=
  let d := preg s p (bits w 43 40)
  { a := preg s p (bits w 55 52), b := preg s p (bits w 51 48), c := preg s p (bits w 47 44), k := bits d 63 48,
    m := bits d 47 32, n := bits d 31 16, aFmt := bits w 39 36, bFmt := bits w 35 32, aOrient := b2n (bit w 31),
    bOrient := b2n (bit w 30), kind := bits w 29 28, instr := insAt s p, layer := (getStall s p).layer }

/-- What an MM breaks, as (status, detail): dimensions (R276), packs (R278), destination (R279), operand buffer (R280). -/
def mmFault (o : MMOp) : Option (Nat × Nat) :=
  if o.m % 64 ≠ 0 ∨ o.m = 0 ∨ 512 < o.m then some (3, o.m)
  else if o.n % 128 ≠ 0 ∨ o.n = 0 ∨ 512 < o.n then some (3, o.n)
  else if o.k = 0 ∨ 4096 < o.k then some (3, o.k)
  else
    let fa := packFault o.aFmt (packOf o.a) o.aOrient o.k o.m
    let fb := packFault o.bFmt (packOf o.b) o.bOrient o.k o.n
    let fc := destFault o.c o.kind o.m o.n
    if fa ≠ 0 then some (fa, o.a)
    else if fb ≠ 0 then some (fb, o.b)
    else if fc ≠ 0 then some (fc, o.c)
    else
      let lines := (packLines o.aFmt (packOf o.a) o.aOrient o.k o.m
        ++ packLines o.bFmt (packOf o.b) o.bOrient o.k o.n).eraseDups.length
      if 16384 < lines then some (3, lines) else none

/-- The trough banks an operation of the MM queue writes. -/
def mmBanks (o : MMOp) : List Nat :=
  if 2 ≤ o.kind then []
  else
    let lo := (outAt o.c 0 0 - 0x400000) / 0x80000
    let hi := (outAt o.c (o.m - 1) (o.n - 1) - 0x400000) / 0x80000
    rangeFrom lo (hi + 1 - lo)

/-- The banks an MM writes become busy (R296). -/
def touchBanks (s : State) (p : Nat) (o : MMOp) : State :=
  forEach (mmBanks o) (fun s b => if bankState s p b = 0 then setBank s p b 1 else s) s

/-- MM: the queue holds one running and one more (R280, R285). -/
def runMm (p : Nat) (s : State) (w : Nat) : State :=
  let o := mmOf s p w
  match mmFault o with
  | some (st, d) => faultIns s p w st d
  | none =>
    if 2 ≤ (getStall s p).mmq.length then s
    else advance (touchBanks (queueMm s p o) p o) p

def execMm (p : Nat) (s : State) : Out := issue p 0x20 s (runMm p)

/-- Device address of a trough bank (R294). -/
def bankBase (p b : Nat) : Nat := troughBase p + 0x80000 * b

/-- TZERO. It waits for the bank's products that were issued before it, so that the bank changes in program order (R296) (DEDUCED, assumption 107). -/
def runTzero (p : Nat) (s : State) (w : Nat) : State :=
  let b := b2n (bit w 55)
  if (getStall s p).mmq.any (fun o => (mmBanks o).contains b) then s else
  let s := zero s (bankBase p b) 0x80000
  advance (if bankState s p b = 0 then setBank s p b 1 else s) p

def execTzero (p : Nat) (s : State) : Out := issue p 0x40 s (runTzero p)

end Sys2Proof.Machine
end

