-- ==== Sys2Proof/Machine/Update.lean ====
section
/-! DEFINITION. Machine/Update.lean: update programs and their slots, the ZLV-20 chips at work, touch lists, delta lists and
the gradient stage (R343 to R365). -/
namespace Sys2Proof.Machine
open Sys2Proof

/-! ## Update programs as slots (R350 to R356) -/

/-- The destination register of an OP. -/
def opDst (w : Nat) : Nat := bits w 55 52
/-- The operation of an OP. -/
def opKind (w : Nat) : Nat := bits w 51 48
/-- Sources a, b and c. -/
def srcA (w : Nat) : Nat := bits w 47 42
/-- Source b. -/
def srcB (w : Nat) : Nat := bits w 41 36
/-- Source c. -/
def srcC (w : Nat) : Nat := bits w 35 30

/-- The sources an operation uses. -/
def opSources (w : Nat) : List Nat :=
  match opKind w with
  | 3 => [srcA w, srcB w, srcC w]
  | 11 => [srcA w, srcB w, srcC w]
  | 7 => [srcA w]
  | 8 => [srcA w]
  | 9 => [srcA w]
  | _ => [srcA w, srcB w]

/-- The sources any slot uses. -/
def slotSources (w : Nat) : List Nat :=
  if updOp w = 3 then opSources w else if updOp w = 4 ∨ updOp w = 5 then [srcA w] else []

/-- A source that is uniform given the registers that are (R354). -/
def srcUniform (us : List Nat) (code : Nat) : Bool :=
  if code < 0x10 then us.contains code else decide (code < 0x20) || (decide (0x26 ≤ code) && decide (code ≤ 0x29))

/-- Which slots are uniform OPs, given the registers that are uniform so far (DEDUCED, assumption 110). -/
def uniformFrom : List Nat → List Nat → List Bool
  | [], _ => []
  | w :: r, us =>
    if updOp w = 3 then
      let u := (opSources w).all (srcUniform us)
      u :: uniformFrom r (if u then opDst w :: us else us.filter (fun x => x != opDst w))
    else false :: uniformFrom r us

/-- Whether slot `k` of a program runs once per unit: PLN, CTX and the uniform OPs (R354). -/
def oncePerUnit (prog : List Nat) (k : Nat) : Bool :=
  let w := prog.getD k 0
  updOp w == 1 || updOp w == 2 || (updOp w == 3 && (uniformFrom prog []).getD k false)

/-- The first slot at or after `k` of one of the two kinds. -/
def nextSlot (prog : List Nat) (once : Bool) (k : Nat) : Option Nat :=
  (rangeFrom k (prog.length - k)).find? (fun j => oncePerUnit prog j == once)

/-- The latest writer of a register before slot `k`. -/
def writerOf (prog : List Nat) (k u : Nat) : Option Nat :=
  (List.range k).reverse.find? (fun j => updOp (prog.getD j 0) == 3 && opDst (prog.getD j 0) == u)

/-- Cycles of an OP (R352, R354). -/
def opCycles (w : Nat) (once : Bool) : Nat :=
  if opKind w = 10 then 48 else if !once && (opKind w == 4 || opKind w == 8 || opKind w == 9) then 4 else 1

/-! ## Units (R344, R345) -/

/-- The placement of a placed half. -/
def unitPlace (s : State) (u : UpdUnit) : Option Placement := placeOf s u.stall u.slot

/-- The loft tensor of a row. -/
def unitTensor (s : State) (u : UpdUnit) : LoftTensor :=
  ((s.job.image.bind (fun i => i.loftTensors[u.tensor]?))).getD ⟨loftWindow, 0, 0, 64, 0⟩

/-- Weight columns of a block (R344). -/
def blockCols (two : Bool) : Nat := if two then 256 else 512

/-- Whether a unit's block is two-slice. -/
def unitTwo (s : State) (u : UpdUnit) : Bool := ((unitPlace s u).map (fun x => x.twoSlice)).getD false

/-- The first slot number of a unit. -/
def unitFirst (s : State) (u : UpdUnit) : Nat :=
  let prog := progSlots s u.prog
  if u.row then firstSlot prog (unitTensor s u).addr + (unitTensor s u).rowLen * u.rowIx
  else firstSlot prog (((unitPlace s u).map (fun x => x.loftAddr)).getD loftWindow) + 256 * blockCols (unitTwo s u) * u.half

/-- Elements of a unit. -/
def unitElems (s : State) (u : UpdUnit) : Nat :=
  if u.row then (unitTensor s u).rowLen else 256 * blockCols (unitTwo s u)

/-- The w2 of element `i` of a unit (R355). -/
def unitW2 (s : State) (u : UpdUnit) (i : Nat) : Nat :=
  if u.row then srW2 u.rowIx i
  else
    let c := blockCols (unitTwo s u)
    match unitPlace s u with
    | some pl => srW2 (512 * pl.rowSeg + 256 * u.half + i / c) (c * pl.colBlk + i % c)
    | none => 0

/-- Address of a unit's count record. -/
def unitCount (s : State) (u : UpdUnit) : Nat := countAddr (progSlots s u.prog) (unitFirst s u)

/-- The fields of a count record. -/
def countLast (s : State) (a : Nat) : Nat := readNat s a 8 % 2 ^ 40
/-- Updates applied. -/
def countUpdates (s : State) (a : Nat) : Nat := bits (readNat s a 8) 63 40
/-- Step of the last gradient. -/
def countStaged (s : State) (a : Nat) : Nat := readNat s (a + 8) 8 % 2 ^ 40
/-- e of R236 of a placed half. -/
def countWexp (s : State) (a : Nat) : Int := toSigned 16 (bits (readNat s (a + 8) 8) 55 40)

/-- Set staged_step. -/
def setStaged (s : State) (a n : Nat) : State :=
  writeNat s (a + 8) 8 (readNat s (a + 8) 8 / 2 ^ 40 * 2 ^ 40 + n % 2 ^ 40)

/-- Set last_step and updates. -/
def setCount (s : State) (a last updates : Nat) : State := writeNat s a 8 (last % 2 ^ 40 + updates % 2 ^ 24 * 2 ^ 40)

/-- The expert id of a placed block, for its expert tensors. -/
def placeExpert (s : State) (pl : Placement) : Option Nat :=
  if pl.home = 0xFFFF then none
  else (s.job.image.bind (fun i => i.homes.find? (fun h => h.module == ownIndex s && h.home == pl.home))).map
    (fun h => h.expert)

/-! ## Faults (R360) -/

/-- Halves whose list found no room (R365): the event goes out once per step, when no chip works any more. -/
def showDeferred (s : State) : State :=
  let d := getF s R.updDeltaStat_deferred
  if d = 0 ∨ (List.range 4).any (fun z => (getChip s z).active) then s
  else raiseOnce s 0x9005 0 cPkg d
    (((List.range 4).filter (fun z => decide (0 < (getChip s z).deferred))).map (fun z => 2 ^ z)).sum

/-- A chip faults. Causes 4 and 5 are state-losing; the others hold the gate window (DEDUCED, assumption 111). -/
def faultChip (s : State) (z cause prog slot value element : Nat) : State :=
  let s := setChip s z { getChip s z with faulted := true, active := false, unit := none, units := [] }
  let s := setFs (setF s R.updChip_state z 5)
    [(R.updFaultA_valid, 1), (R.updFaultA_cause, cause), (R.updFaultA_chip, z), (R.updFaultA_program, prog),
     (R.updFaultA_slot, slot), (R.updFaultA_value, value), (R.updFaultB_element, element), (R.updStatus_fault, 1)]
  let s := showDeferred s
  let s := raise (holdGate s) 0x9003 cPkg (cause * 2 ^ 28 + z * 2 ^ 26 + prog % 4096 * 2 ^ 14 + slot * 2 ^ 8) value
  if cause = 4 ∨ cause = 5 then enterHalted s 3 true else s

/-- Read a span for a unit: a poisoned line faults with cause 4 at the first element it holds. -/
def unitRead (s : State) (z : Nat) (u : UpdUnit) (a n w first : Nat) : State × Option Bytes :=
  let r := loftRead s a n
  if r.2 then (r.1, some (readBytes s a n))
  else
    let l := (poisoned s a n).foldl min (a + n)
    (faultChip r.1 z 4 u.prog 0 0 (unitW2 s u (first + (max a l - a) / max 1 w)), none)

/-! ## Sources (R350) -/

/-- The format of a plane's elements: BM24 or BF16 for masters, binary32 or BF16 for state, binary16 in an f16 plane. -/
def planeFormat (s : State) (j : Nat) (pl : Plane) : Nat :=
  if j = 5 then 5 else if pl.f16 then 4 else if narrow s then 3 else if j = 0 then 6 else 5

/-- A stored code decoded exactly to binary32 (R248); the codes of infinities and NaNs keep sign and fraction. -/
def widen (f c : Nat) : F32 :=
  if f = 5 then BitVec.ofNat 32 c
  else if f = 6 then BitVec.ofNat 32 (c * 2 ^ 8)
  else if f = 3 then BitVec.ofNat 32 (c * 2 ^ 16)
  else if codeMag (fm f) c ≤ (fm f).top then exactToF32 (codeExact (fm f) c)
  else BitVec.ofNat 32 (b2n (codeNeg (fm f) c) * 2 ^ 31 + 0x7F800000 + c % 2 ^ (fm f).frac * 2 ^ (23 - (fm f).frac))

/-- Lanes of the vector at hand. -/
def unitLanes (s : State) (u : UpdUnit) (v : Nat) : Nat := min 256 (unitElems s u - v)

/-- A plane's values for the vector at hand: exact in binary32 (R248). -/
def planeLanes (s : State) (z : Nat) (u : UpdUnit) (v j : Nat) : State × Option (List F32) :=
  let pl := (tget? (getChip s z).planes j).getD (planeIn (progSlots s u.prog) j)
  let n := unitLanes s u v
  let f := planeFormat s j pl
  match unitRead s z u (planeAddr pl (unitFirst s u + v)) (n * pl.width) pl.width v with
  | (s, none) => (s, none)
  | (s, some b) =>
    (s, some ((pieces n pl.width b).map (fun x =>
      widen f (leNat x))))

/-- Values rounded to BF16 by SR with kind 2 of the counter, and how many saturated (R254, R358). -/
def roundBf16 (s : State) (site : Site) (w2 : Nat → Nat) (l : List F32) : List F32 × Nat :=
  let els := l.mapIdx (fun i a => roundCode (fm 3) (rndOf s 2 0 site w2 i) (fexact a))
  (els.map (fun e => exactToF32 (codeExact (fm 3) e.1)), countIf els (fun e => e.2))

/-- The counter's site of a row's gradient. -/
def gradSite (s : State) (z : Nat) : Site :=
  let c := ((getChip s z).ctx).getD (0, 0, 0)
  { layer := c.1, tensor := c.2.1, expert := none, site := c.2.2 }

/-- The gradient of a row in Narrow mode is the staged sum rounded to BF16 by SR (R358). A value that is not finite stays as
it is: the slot that reads it faults (R360). -/
def roundGrad (s : State) (z : Nat) (u : UpdUnit) (v : Nat) (l : List F32) : List F32 :=
  if u.row && narrow s && l.all ffinite then (roundBf16 s (gradSite s z) (fun k => unitW2 s u (v + k)) l).1 else l

/-- A slot's word reads the gradient. -/
def readsGrad (w : Nat) : Bool :=
  if updOp w = 3 then (opSources w).contains 0x20 else (updOp w == 4 || updOp w == 5) && srcA w == 0x20

/-- Saturated results of a vector's gradient conversion are counted once, at its end (R254). -/
def countGrad (s : State) (z : Nat) (u : UpdUnit) (v : Nat) : State :=
  if u.row && narrow s && (progSlots s u.prog).any readsGrad then
    let l := bytesF32 (unitLanes s u v) (readBytes s (planeAddr (planeIn (progSlots s u.prog) 5) (unitFirst s u + v)) (4 * unitLanes s u v))
    countSat s (roundBf16 s (gradSite s z) (fun k => unitW2 s u (v + k)) l).2
  else s

/-- Constant `i` of a program (R173, R350). -/
def updConst (s : State) (prog i : Nat) : F32 :=
  BitVec.ofNat 32 (((s.job.image.bind (fun m => m.constants.find? (fun c => c.1 == prog && c.2.1 == i))).map
    (fun c => c.2.2)).getD 0)

/-- The lanes of a source; a uniform source has one. -/
def srcLanes (s : State) (z : Nat) (u : UpdUnit) (v k code : Nat) : State × Option (List F32) :=
  let c := getChip s z
  if code < 0x10 then (s, some (((writerOf (progSlots s u.prog) k code).bind (tget? c.uregs)).getD [0]))
  else if code < 0x20 then (s, some [updConst s u.prog (code - 0x10)])
  else if code = 0x20 then
    match planeLanes s z u v 5 with
    | (s, some l) => (s, some (roundGrad s z u v l))
    | r => r
  else if code = 0x21 then planeLanes s z u v 0
  else if code < 0x26 then planeLanes s z u v (code - 0x21)
  else if code = 0x26 then (s, some [fofInt (c.tNum : Int)])
  else if code = 0x27 then (s, some [fofInt (c.missed : Int)])
  else if code = 0x28 then (s, some [0])
  else (s, some [oneCode])

/-- The lanes of several sources. -/
def allLanes (z : Nat) (u : UpdUnit) (v k : Nat) : List Nat → State → State × Option (List (List F32))
  | [], s => (s, some [])
  | a :: r, s =>
    match srcLanes s z u v k a with
    | (s, none) => (s, none)
    | (s, some l) =>
      match allLanes z u v k r s with
      | (s, none) => (s, none)
      | (s, some ls) => (s, some (l :: ls))

/-- Lane `i` of a source. -/
def laneOf (l : List F32) (i : Nat) : F32 := if l.length = 1 then l.headD 0 else l.getD i 0

/-! ## Lane operations (R352, R353) -/

/-- pown's loop over bits i, i − 1, …, 0. -/
def pownGo (a : F32) (n : Nat) : Nat → F32 → F32
  | 0, r => r
  | i + 1, r =>
    let r := fmul r r
    pownGo a n i (if bit n i then fmul r a else r)

/-- The exponent of POWN, if it is an integer from 0 to 16,777,215. -/
def pownExp (b : F32) : Option Nat :=
  let v := fexact b
  if ffinite b && (!v.neg || v.num == 0) && v.num % v.den == 0 && decide (v.num / v.den < 2 ^ 24) then some (v.num / v.den)
  else none

/-- One lane of an operation; `none` where the manual states no result (an exponent outside R353). -/
def laneOp (op : Nat) (a b c : F32) : Option F32 :=
  match op with
  | 0 => some (fadd a b)
  | 1 => some (fsub a b)
  | 2 => some (fmul a b)
  | 3 => some (ffma a b c)
  | 4 => some (fdiv a b)
  | 5 => some (fmax a b)
  | 6 => some (fmin a b)
  | 7 => some (fabs a)
  | 8 => some (fsqrt a)
  | 9 => some (frsqrt a)
  | 10 => (pownExp b).map (fun n => pownGo a n 24 oneCode)
  | _ => some (if fpos c then a else b)

/-- The first non-finite value of lanes, with its lane. -/
def badLane (l : List F32) : Option (Nat × F32) := (l.mapIdx (fun i a => (i, a))).find? (fun x => !ffinite x.2)

/-- The result lanes of an OP; a POWN outside R353 gives a free value. -/
def opLanes (s : State) (op n : Nat) (ls : List (List F32)) : List F32 :=
  (List.range n).map (fun i =>
    (laneOp op (laneOf (ls.getD 0 []) i) (laneOf (ls.getD 1 []) i) (laneOf (ls.getD 2 []) i)).getD
      (BitVec.ofNat 32 (Config.freeNat s.draws 353)))

/-- A non-finite value faults with cause 1; a NaN that the chip formed has free bits (R255). -/
def faultValue (s : State) (z : Nat) (u : UpdUnit) (k v : Nat) (formed : Bool) (x : Nat × F32) : State :=
  let r := if formed then trapBits s x.2 else (s, x.2.toNat)
  faultChip r.1 z 1 u.prog k r.2 (unitW2 s u (v + x.1))

/-! ## Stores (R355) -/

/-- The counter's site of a store. -/
def storeSite (s : State) (z : Nat) (u : UpdUnit) (site : Nat) : Site :=
  if u.row then
    let c := ((getChip s z).ctx).getD (0, 0, 0)
    { layer := c.1, tensor := c.2.1, expert := none, site := site }
  else match unitPlace s u with
    | some pl => { layer := pl.layer, tensor := pl.tensor, expert := placeExpert s pl, site := site }
    | none => { layer := 0, tensor := 0, expert := none, site := site }

/-- One store of a vector: the plane's bytes, and how many values saturated. -/
def storeBytes (s : State) (z : Nat) (u : UpdUnit) (v j site : Nat) (pl : Plane) (l : List F32) : Bytes × Nat :=
  let f := planeFormat s j pl
  if f = 5 then (f32Bytes l, 0)
  else
    let kind := if j = 0 then (if u.row then 9 else 7) else 8
    let c := storeSite s z u site
    let els := l.mapIdx (fun i a =>
      roundCode (fm f) (rndOf s kind 0 c (fun k => unitW2 s u (v + k)) i) (fexact a))
    (els.flatMap (fun e => leBytes (fm f).size e.1), countIf els (fun e => e.2))

/-- Count saturated stores, with event 0x9004 once per program per step. -/
def noteStoreSat (s : State) (z prog n : Nat) : State :=
  if n = 0 then s
  else
    let s := bumpF s R.updStep_saturated 0 n
    if (List.range 4).any (fun y => (getChip s y).satProgs.contains prog) then s
    else
      let c := getChip s z
      raise (setChip s z { c with satProgs := prog :: c.satProgs }) 0x9004 cPkg prog (getF s R.updStep_saturated)

/-- Write a vector's stores, after every slot of it has run. -/
def storeVector (s : State) (z : Nat) (u : UpdUnit) (v : Nat) : State :=
  forEach (getChip s z).stores (fun s x =>
    let pl := (tget? (getChip s z).planes x.1).getD (planeIn (progSlots s u.prog) x.1)
    let b := storeBytes s z u v x.1 x.2.1 pl x.2.2
    noteStoreSat (write s (planeAddr pl (unitFirst s u + v)) b.1) z u.prog b.2) s

/-! ## Crossings (R236, R237, R363) -/

/-- The level of a weight at u = num / den: n, and whether it was clamped (R236). -/
def levelOf (two : Bool) (u : Exact) : Int × Bool :=
  let r := roundDiv u.signed u.den
  let n := if two then clampInt (-1008) 1007 r else clampInt (-31) 31 r
  (n, n != r)

/-- The high and low slices of a two-slice level (R187). -/
def sliceHi (w : Int) : Int := (w + 16) / 32
/-- The low slice. -/
def sliceLo (w : Int) : Int := w - 32 * sliceHi w

/-- The new level of a recorded level by the crossing rule (R237). -/
def crossed (two : Bool) (hyst : Nat) (u : Exact) (q : Int) : Int :=
  let n := (levelOf two u).1
  let d := (u.signed - q * u.den).natAbs
  if n ≠ q ∧ (8 + hyst) * u.den ≤ 16 * d then n else q

/-- The physical pairs of a weight's levels: one-slice its column, two-slice its high and low columns. -/
def physLevels (two : Bool) (c : Nat) (w : Int) : List (Nat × Int) :=
  if two then [(2 * c, sliceHi w), (2 * c + 1, sliceLo w)] else [(c, w)]

/-- The recorded pairs of a weight, as the bytes of its level record give them. -/
def recordedLevels (two : Bool) (c i : Nat) (l : List Int) : List (Nat × Int) :=
  if two then [(2 * c, l.getD (2 * i) 0), (2 * c + 1, l.getD (2 * i + 1) 0)] else [(c, l.getD i 0)]

/-- List the pairs of a vector whose levels change from the recorded ones, in (row, column) order (R363). -/
def listCrossings (s : State) (z : Nat) (u : UpdUnit) (v : Nat) : State :=
  match unitPlace s u with
  | none => s
  | some pl =>
    let two := pl.twoSlice
    let cols := blockCols two
    let base := levelAddr s pl
    let m := planeIn (progSlots s u.prog) 0
    let f := planeFormat s 0 m
    let wexp := countWexp s (unitCount s u)
    let n := unitLanes s u v
    let row := 256 * u.half + v / cols
    let col := v % cols
    let per := if two then 2 else 1
    match unitRead s z u (planeAddr m (unitFirst s u + v)) (n * m.width) m.width v with
    | (s, none) => s
    | (s, some mb) =>
    match unitRead s z u (base + 512 * row + per * col) (n * per) per v with
    | (s, none) => s
    | (s, some rb) =>
      let vals := (pieces n m.width mb).map leNat
      let rec1 := rb.map byteLevel
      let one := fun (i : Nat) =>
        let x := (codeExact (fm f) (vals.getD i 0)).scale (-wexp)
        let q := if two then 32 * rec1.getD (2 * i) 0 + rec1.getD (2 * i + 1) 0 else rec1.getD i 0
        let w := crossed two (getF s R.calWrite_hyst16) x q
        let old := recordedLevels two (col + i) i rec1
        let new := if w = q then [] else (physLevels two (col + i) w).filter (fun y => !old.contains y)
        (new.map (fun y => (row, y.1, y.2)), (levelOf two x).2)
      let l := (List.range n).map one
      let c := getChip s z
      setChip s z { c with crossings := c.crossings ++ l.flatMap (fun x => x.1), clamped := c.clamped + countIf l (fun x => x.2) }

/-! ## Delta lists (R364, R365) -/

/-- Bytes of a list of `n` entries, padded. -/
def listBytes (n : Nat) : Nat := ceilDiv (16 + 4 * n) 64 * 64

/-- Bytes of a chip's quarter of the delta area. -/
def quarterBytes (s : State) : Nat := getF s R.updDelta_sizeMib * 2 ^ 20 / 4

/-- Base of a chip's quarter. -/
def quarterBase (s : State) (z : Nat) : Nat := getF s R.updDelta_base1m * 2 ^ 20 + z * quarterBytes s

/-- The lists with entries: those that are written. -/
def writtenLists (c : Chip) : List DeltaList := c.lists.filter (fun l => !l.entries.isEmpty)

/-- Bytes a chip's lists use, with the header. -/
def usedBytes (c : Chip) : Nat := 64 + ((writtenLists c).map (fun l => listBytes l.entries.length)).sum

/-- A half's list is kept, or deferred where its quarter has no room (DEDUCED, assumption 112). -/
def endList (s : State) (z : Nat) (u : UpdUnit) : State :=
  let c := getChip s z
  let s := bumpF s R.updDeltaStat_clamped 0 c.clamped
  let d : DeltaList := { stall := u.stall, slot := u.slot, two := unitTwo s u, half := u.half, entries := c.crossings,
                         clamped := c.clamped }
  if c.crossings.isEmpty && c.clamped == 0 then s
  else if c.crossings.isEmpty then setChip s z { c with lists := c.lists ++ [d], clamped := 0 }
  else if usedBytes c + listBytes c.crossings.length ≤ quarterBytes s then
    bumpF (setChip s z { c with lists := c.lists ++ [d], crossings := [], clamped := 0 }) R.updDeltaStat_entries 0
      c.crossings.length
  else
    bumpF (setChip s z { c with lists := if c.clamped = 0 then c.lists else c.lists ++ [{ d with entries := [] }],
                                crossings := [], clamped := 0, deferred := c.deferred + 1 }) R.updDeltaStat_deferred 0 1

/-- An entry of a list (R364). -/
def entryWord (e : Nat × Nat × Int) : Nat := e.1 + e.2.1 * 2 ^ 9 + ofSigned 8 e.2.2 * 2 ^ 24

/-- The bytes of a quarter: its header and lists. -/
def quarterImage (s : State) (c : Chip) : Bytes :=
  let ls := writtenLists c
  let body := ls.flatMap (fun l =>
    slice (leBytes 2 l.stall ++ leBytes 1 l.slot ++ leBytes 1 (b2n l.two + 2 * l.half) ++ leBytes 4 l.entries.length
      ++ leBytes 4 l.clamped ++ leBytes 4 0 ++ l.entries.flatMap (fun e => leBytes 4 (entryWord e)))
      0 (listBytes l.entries.length))
  leBytes 8 (stepNo s) ++ leBytes 4 ls.length ++ leBytes 4 (64 + body.length) ++ leBytes 4 c.deferred
    ++ List.replicate 44 0 ++ body

/-- An entry as the gate window reads it. -/
def readDelta (w : Nat) : Nat × Nat × Int := (w % 512, w / 512 % 512, toSigned 8 (w / 2 ^ 24))

/-- The lists of a quarter as the gate window reads them from address `a` on (R364, R366). -/
def readLists (s : State) : Nat → Nat → List DeltaList
  | 0, _ => []
  | n + 1, a =>
    let k := readNat s (a + 4) 4
    { stall := readNat s a 2, slot := readNat s (a + 2) 1, two := bit (readNat s (a + 3) 1) 0,
      half := bits (readNat s (a + 3) 1) 1 1, entries := (List.range k).map (fun i => readDelta (readNat s (a + 16 + 4 * i) 4)),
      clamped := readNat s (a + 8) 4 } :: readLists s n (a + listBytes k)

/-- The lists that chip `z`'s quarter holds for this step: none unless its header names the step (R364). -/
def quarterLists (s : State) (z : Nat) : List DeltaList :=
  let a := quarterBase s z
  if readNat s a 8 = stepNo s then
    (readLists s (min (readNat s (a + 8) 4) (quarterBytes s / 64)) (a + 64)).filter (fun l => decide (l.stall < 512))
  else []

/-! ## Running units (R358, R359) -/

/-- Start the next unit of a chip: load its count record, judge it, and run its uniform slots from the first. -/
def nextUnit (s : State) (z : Nat) : State :=
  let c := getChip s z
  match c.units with
  | [] => setChip s z { c with unit := none }
  | u :: r =>
    if !c.active then setChip s z { c with unit := none }
    else
      let a := unitCount s u
      let c := { c with units := r, unit := some u, vec := none, uregs := [], planes := [], ctx := none, stores := [],
                        crossings := [], clamped := 0 }
      match unitRead (setChip s z c) z u a 16 16 0 with
      | (s, none) => s
      | (s, some _) =>
        let n := stepNo s
        if n ≤ countLast s a then faultChip s z 3 u.prog 0 0 (unitW2 s u 0)
        else
          let s := bumpF s R.updChip_cycles z 64
          setChip s z { getChip s z with
            slot := (nextSlot (progSlots s u.prog) true 0).getD 0,
            tNum := min (countUpdates s a + 1) 0xFFFFFF, missed := min (n - countLast s a - 1) 0xFFFFFF }

/-- A unit ends: its count record, its totals and its list; then the next one. -/
def endUnit (s : State) (z : Nat) (u : UpdUnit) : State :=
  let a := unitCount s u
  let s := setCount s a (stepNo s) (min (countUpdates s a + 1) 0xFFFFFF)
  let s := if u.row then bumpF s R.updStep_rows 0 1 else endList (bumpF s R.updStep_halves 0 1) z u
  nextUnit s z

/-- Vectors of a program without vector slots: only the crossings. -/
def bareVectors (z : Nat) (u : UpdUnit) : Nat → Nat → State → State
  | 0, _, s => s
  | n + 1, v, s =>
    if (getChip s z).faulted then s else bareVectors z u n (v + 256) (if u.row then s else listCrossings s z u v)

/-- Go on to vector `v` of a unit, or end the unit. -/
def startVector (s : State) (z : Nat) (u : UpdUnit) (v : Nat) : State :=
  if unitElems s u ≤ v then endUnit s z u
  else match nextSlot (progSlots s u.prog) false 0 with
    | some k => setChip s z { getChip s z with vec := some v, slot := k, stores := [] }
    | none =>
      let s := bareVectors z u (ceilDiv (unitElems s u - v) 256) v s
      if (getChip s z).faulted then s else endUnit s z u

/-- After a slot: the next slot of its kind, or the end of the uniform slots or of the vector. -/
def advanceChip (s : State) (z : Nat) (u : UpdUnit) : State :=
  let c := getChip s z
  match nextSlot (progSlots s u.prog) c.vec.isNone (c.slot + 1) with
  | some k => setChip s z { c with slot := k }
  | none =>
    match c.vec with
    | none => startVector s z u 0
    | some v =>
      let s := storeVector (countGrad s z u v) z u v
      let s := if u.row then s else listCrossings s z u v
      if (getChip s z).faulted then s else startVector s z u (v + 256)

/-- Run the present slot of a chip's unit when it is this row's instruction. -/
def chipSlot (z op : Nat) (s : State) (f : State → UpdUnit → Nat → Nat → State) : Out :=
  onUnit 4 z s (fun s =>
    let c := getChip s z
    match c.unit with
    | none => s
    | some u =>
      let w := (progSlots s u.prog).getD c.slot 0
      if updOp w = op then
        let t := f s u (c.vec.getD 0) w
        if (getChip t z).unit.isSome then advanceChip t z u else t
      else s)

/-- PLN (R351): declares a plane. -/
def execPln (z : Nat) (s : State) : Out :=
  chipSlot z 1 s (fun s _ _ w =>
    let c := getChip s z
    setChip s z { c with planes := tset c.planes (plnOf w).1 (plnOf w).2 })

/-- CTX (R351): layer, tensor code and gsite of loft-tensor units. -/
def execCtx (z : Nat) (s : State) : Out :=
  chipSlot z 2 s (fun s _ _ w => setChip s z { getChip s z with ctx := some (bits w 55 47, bits w 46 43, bits w 42 36) })

/-- OP (R352 to R354): once per unit in one lane when its sources are uniform, per vector otherwise. -/
def runOp (z : Nat) (s : State) (u : UpdUnit) (v w : Nat) : State :=
  let k := (getChip s z).slot
  let once := (getChip s z).vec.isNone
  match allLanes z u v k (opSources w) s with
  | (s, none) => s
  | (s, some ls) =>
    match ls.findSome? badLane with
    | some x => faultValue s z u k v false x
    | none =>
      let l := opLanes s (opKind w) (if once then 1 else unitLanes s u v) ls
      let s := bumpF s R.updChip_cycles z (opCycles w once)
      match badLane l with
      | some x => faultValue s z u k v true x
      | none =>
        let s := if opKind w = 10 then draw s else s
        let c := getChip s z
        setChip s z { c with uregs := tset c.uregs k l }

def execUpdateOp (z : Nat) (s : State) : Out := chipSlot z 3 s (runOp z)

/-- STW and STS (R355): the values of plane `j`, written after every slot of the vector. -/
def runStore (z j : Nat) (s : State) (u : UpdUnit) (v w : Nat) : State :=
  let k := (getChip s z).slot
  match srcLanes s z u v k (srcA w) with
  | (s, none) => s
  | (s, some l) =>
    match badLane l with
    | some x => faultValue s z u k v false x
    | none =>
      let s := bumpF s R.updChip_cycles z 1
      let c := getChip s z
      let vals := (List.range (unitLanes s u v)).map (laneOf l)
      setChip s z { c with stores := c.stores ++ [(j, bits w 6 0, vals)] }

def execStw (z : Nat) (s : State) : Out := chipSlot z 4 s (fun s u v w => runStore z 0 s u v w)

def execSts (z : Nat) (s : State) : Out := chipSlot z 5 s (fun s u v w => runStore z (1 + bits w 55 54) s u v w)

/-! ## Touch lists (R348, R349) -/

/-- Base of a stall's sub-list. -/
def touchBase (s : State) (p : Nat) : Nat :=
  getF s R.updTouch_base64k * 65536 + p * 2 ^ getF s R.updTouch_subLog2

/-- Bytes of a record of a tensor's rows. -/
def touchRecord (rowLen : Nat) : Nat := ceilDiv (16 + 4 * rowLen) 64 * 64

/-- Take one gradient record of tensor `k` into its row's stage; a poisoned count record or stage faults the chip (R360). -/
def touchRow (s : State) (z k : Nat) (t : LoftTensor) (row : Nat) (vals : List F32) : State :=
  let prog := progSlots s t.program
  let ei := firstSlot prog t.addr + t.rowLen * row
  let st := planeAddr (planeIn prog 5) ei
  let ca := countAddr prog ei
  let n := stepNo s
  let u : UpdUnit := { row := true, stall := 0, slot := 0, half := 0, tensor := k, rowIx := row, prog := t.program }
  match unitRead s z u ca 16 16 0 with
  | (s, none) => s
  | (s, some _) =>
    if countStaged s ca = n then
      match unitRead s z u st (4 * t.rowLen) 4 0 with
      | (s, none) => s
      | (s, some b) => write s st (f32Bytes (List.zipWith fadd (bytesF32 t.rowLen b) vals))
    else setStaged (write s st (f32Bytes vals)) ca n

/-- The records of a sub-list from offset `off` on: the tensors of chip `z` are taken; `none` where the list is malformed. -/
def touchGo (z base size bytes : Nat) : Nat → Nat → State → Option State
  | 0, off, s => if off = bytes then some s else none
  | n + 1, off, s =>
    if size < off + 16 ∨ bytes < off + 16 then none
    else
      let h := readBytes s (base + off) 16
      let ts := (s.job.image.map (fun i => i.loftTensors)).getD []
      match ts[fieldAt h 0 2]? with
      | none => none
      | some t =>
        let len := touchRecord t.rowLen
        let row := fieldAt h 4 4
        if bytes < off + len ∨ t.rows ≤ row then none
        else
          let s := if t.module = ownIndex s ∧ chipOf t.addr = z then
              touchRow s z (fieldAt h 0 2) t row (bytesF32 t.rowLen (readBytes s (base + off + 16) (4 * t.rowLen)))
            else s
          if (getChip s z).faulted then some s else touchGo z base size bytes n (off + len) s

/-- Read every sub-list of the step, in ascending stall index. -/
def touchLists (z : Nat) : List Nat → State → State
  | [], s => s
  | p :: r, s =>
    let base := touchBase s p
    let h := readBytes s base 64
    if fieldAt h 0 8 % 2 ^ 40 ≠ stepNo s then touchLists z r s
    else
      let bytes := fieldAt h 12 4
      let size := 2 ^ getF s R.updTouch_subLog2
      match (if size < bytes ∨ bytes < 64 then none else touchGo z base size bytes (fieldAt h 8 4) 64 s) with
      | some s => if (getChip s z).faulted then s else touchLists z r s
      | none => faultChip s z 2 0 0 0 p

/-! ## The update phase (R358) -/

/-- The placed halves of a chip whose staged_step is the present step, in (stall, slot, half) order. -/
def stagedHalves (s : State) (z : Nat) : List UpdUnit :=
  let pls : List Placement := match s.job.image with
    | some i => i.placement.filter (fun r => r.module == ownIndex s && chipOf r.loftAddr == z)
    | none => []
  (pls.flatMap (fun r => [0, 1].map (fun h =>
    ({ row := false, stall := r.stall, slot := r.slot, half := h, tensor := 0, rowIx := 0, prog := r.updateProgram } : UpdUnit)))).filter
    (fun u => countStaged s (unitCount s u) == stepNo s)

/-- Rows of a tensor whose count record may be staged: those with something in memory, or all in step 0 (DEDUCED, assumption 114). -/
def rowCandidates (s : State) (t : LoftTensor) : List Nat :=
  if stepNo s = 0 then List.range t.rows
  else
    let prog := progSlots s t.program
    let base := countAddr prog (firstSlot prog t.addr)
    let stride := 16 * (t.rowLen / 64)
    ((s.mem.filter (fun p => decide (base ≤ p.1) && decide (p.1 < base + stride * t.rows)
        && decide ((p.1 - base) % stride < 16))).map (fun p => (p.1 - base) / stride)).foldl
      (fun l r => if l.contains r then l else l ++ [r]) []

/-- The rows of a chip whose staged_step is the present step, in (tensor, row) order. -/
def stagedRows (s : State) (z : Nat) : List UpdUnit :=
  let ts := (s.job.image.map (fun i => i.loftTensors)).getD []
  ((List.range ts.length).flatMap (fun k =>
    match ts[k]? with
    | some t =>
      if t.module = ownIndex s ∧ chipOf t.addr = z then
        (rowCandidates s t).map (fun r =>
          ({ row := true, stall := 0, slot := 0, half := 0, tensor := k, rowIx := r, prog := t.program } : UpdUnit))
      else []
    | none => [])).filter (fun u => countStaged s (unitCount s u) == stepNo s)

/-- A chip starts its update phase: touch lists, then its units. -/
def startChip (s : State) (z : Nat) : State :=
  let c := getChip s z
  if c.faulted || c.lost then s
  else
    let s := setF (setF s R.updChip_state z 3) R.updChip_cycles z 0
    let s := setChip s z { c with active := true, lists := [], deferred := 0, satProgs := [], unit := none, units := [] }
    let s := when (onF s R.updTouch_enable) (fun s => touchLists z (List.range 512) s) s
    if (getChip s z).faulted then s
    else setChip s z { getChip s z with units := stagedHalves s z ++ stagedRows s z }

/-- Backward is complete: every chip starts, with event 0x9001 (R46, R293, R358). -/
def startUpdate (s : State) : State :=
  let s := setFs { s with upd := { s.upd with startTick := s.now } } [(R.updStatus_phase, 2), (R.updStatus_chipsDone, 0)]
  let s := forEach (List.range 4) startChip s
  let count := fun (row : Bool) => ((List.range 4).map (fun z => countIf (getChip s z).units (fun u => u.row == row))).sum
  forEach (List.range 4) (fun s z => if (getChip s z).active then nextUnit s z else s)
    (raise s 0x9001 cPkg (count false) (count true))

/-! ## Gradients arriving (R347) -/

/-- Bytes of a bank: 256 rows of a block's columns in binary32. -/
def bankLen (two : Bool) : Nat := 256 * blockCols two * 4

/-- A line of an owner's bank reaches the stage plane. In Narrow mode a line carries 32 values, rounded to BF16 by SR. -/
def stageLine (s : State) (p bank slot half line : Nat) (o : ToutOp) (pl : Placement) : State :=
  let prog := progSlots s pl.updateProgram
  let cols := blockCols pl.twoSlice
  let per := if narrow s then 32 else 16
  let ei := firstSlot prog pl.loftAddr + 256 * cols * half
  let ca := countAddr prog ei
  let z := chipOf pl.loftAddr
  let u : UpdUnit := { row := false, stall := p, slot := slot, half := half, tensor := 0, rowIx := 0,
                       prog := pl.updateProgram }
  if line = 0 ∧ s.upd.handed.contains (p, slot, half) then faultChip s z 6 pl.updateProgram 0 0 (unitW2 s u 0)
  else
    let s := if line = 0 then
        let s := setStaged { s with upd := { s.upd with handed := (p, slot, half) :: s.upd.handed } } ca (stepNo s)
        setF (if (getChip s z).faulted || (getChip s z).lost then s else setF s R.updChip_state z 2) R.updStatus_phase 0 1
      else s
    let at_ := troughBase p + 0x80000 * bank + 2048 * (per * line / cols) + 4 * (per * line % cols)
    match readChecked s 5 (cStall p) at_ (4 * per) with
    | (s, none) => corruptStop s p
    | (s, some b) =>
      let vals := bytesF32 per b
      let to_ := planeAddr (planeIn prog 5) (ei + per * line)
      if narrow s then
        match firstBad 0 vals with
        | some v => trap s p 2 4 v.kind o.layer o.instr 63 (unitW2 s u (per * line + v.lane)) v.value
        | none =>
          let site : Site := { layer := pl.layer, tensor := pl.tensor, expert := placeExpert s pl, site := o.site }
          let r := roundBf16 s site (fun k => unitW2 s u (per * line + k)) vals
          write (countSat s r.2) to_ (f32Bytes r.1)
      else write s to_ (f32Bytes vals)

/-- TOUT_LINE_STAGED (R347): the stall's oldest handed line that has not arrived. The bank drains with its last line. -/
def lineStaged (p : Nat) (s : State) : State :=
  match (if working s p then s.upd.lines.find? (fun l => l.1 == p) else none) with
  | none => s
  | some (_, bank, slot, half, line) =>
    match (getStall s p).touts.find? (fun o => o.bank == bank), placeOf s p slot with
    | some o, some pl =>
      if linkDown s (chipOf pl.loftAddr) then s else
      let s := stageLine s p bank slot half line o pl
      if (getStall s p).stop then s else
      let per := if narrow s then 128 else 64
      let rest := s.upd.lines.filter (fun l => !(l.1 == p && l.2.1 == bank))
      if per * (line + 1) < bankLen pl.twoSlice then
        { s with upd := { s.upd with lines := s.upd.lines.map (fun l =>
            if l.1 == p && l.2.1 == bank then (p, bank, slot, half, line + 1) else l) } }
      else
        let s := modStall { s with upd := { s.upd with lines := rest } } p
          (fun t => { t with touts := t.touts.filter (fun o => o.bank != bank) })
        setF s (if bank = 0 then R.genStall_bank0 else R.genStall_bank1) p 0
    | _, _ => { s with upd := { s.upd with lines := s.upd.lines.filter (fun l => !(l.1 == p && l.2.1 == bank)) } }

def execToutLineStaged (p : Nat) (s : State) : Out := onStall p s (lineStaged p)

end Sys2Proof.Machine
end

