-- ==== Sys2Proof/Machine/GradEngine.lean ====
section
/-! DEFINITION. Machine/GradEngine.lean: the MAC array, its checksums and votes, digital fallback, and the hand-off of trough
banks (R276 to R280, R293 to R297, R302, R303, R422 to R426). -/
namespace Sys2Proof.Machine
open Sys2Proof

/-! ## Operands (R251, R276 to R278) -/

/-- One element of a stored segment, by the layout its side area gives (R251). -/
def decodeLane (fmt : Nat) (seg : Bytes) (lane : Nat) : Except BadVal Exact :=
  let f := fm fmt
  if isFp8 fmt then
    let side := slice seg 512 64
    let mx := !zeroAt side 1 63
    let i := if mx then lane / 32 else 0
    let scale := fieldAt side i 1
    let ix := fieldAt side (16 + i) 1
    if scale = 0xFF then .error ⟨3, 0xFF, 32 * i⟩
    else if mx && bit ix 7 && scale != 0 && ix % 32 == lane % 32 then
      (withOutlier (32 * i) scale ix (fieldAt side (32 + 2 * i) 2) (zeros 32)).map (fun l => l.getD (lane % 32) ⟨false, 0, 1⟩)
    else (decodeBlock f lane scale (slice seg lane 1)).map (fun l => l.headD ⟨false, 0, 1⟩)
  else (decodeCodes f lane [(fieldAt seg (f.size * lane) f.size, 0)]).map (fun l => l.headD ⟨false, 0, 1⟩)

/-- The store offset of the segment that holds element `e` of a row. -/
def segAt (fmt : Nat) (pk : Pack) (r e : Nat) : Nat := pk.off + 64 * pk.stride * r + rowSeg fmt * ((pk.eoff + e) / 512)

/-- The first `n` elements of row `r` of a floating-point operand. -/
def operandRow (s : State) (p fmt : Nat) (pk : Pack) (r n : Nat) : List (Except BadVal Exact) :=
  let segs := (List.range ((pk.eoff + n + 511) / 512)).map (fun i =>
    readBytes s (storeBase p + segAt fmt pk r (512 * i - pk.eoff)) (rowSeg fmt))
  (List.range n).map (fun e => decodeLane fmt (segs.getD ((pk.eoff + e) / 512) []) ((pk.eoff + e) % 512))

/-- Element `e` of row `r` of an i8 operand; −128 is taken as −127. -/
def operandInt (s : State) (p : Nat) (pk : Pack) (r e : Nat) : Int :=
  driveCode (readByte s (storeBase p + segAt 8 pk r e + (pk.eoff + e) % 512))

/-- Rows turned into columns: `n` of them. -/
def columns {α : Type} (n : Nat) (l : List (List α)) : List (List α) :=
  l.foldr (fun r c => List.zipWith (fun x y => x :: y) r c) (List.replicate n [])

/-- A decoded operand, k slices first: `w` elements in each. -/
def operand (s : State) (p fmt orient k w : Nat) (pk : Pack) : List (List (Except BadVal Exact)) :=
  if orient = 0 then (List.range k).map (fun i => operandRow s p fmt pk i w)
  else columns k ((List.range w).map (fun j => operandRow s p fmt pk j k))

/-- An i8 operand, k slices first. -/
def operandI (s : State) (p orient k w : Nat) (pk : Pack) : List (List Int) :=
  if orient = 0 then (List.range k).map (fun i => (List.range w).map (fun j => operandInt s p pk i j))
  else (List.range k).map (fun i => (List.range w).map (fun j => operandInt s p pk j i))

/-- The first element of a slice that does not decode: its index and what it holds. -/
def badIn : Nat → List (Except BadVal Exact) → Option (Nat × BadVal)
  | _, [] => none
  | j, .ok _ :: r => badIn (j + 1) r
  | j, .error v :: _ => some (j, v)

/-- The decoded values of a slice; called where every element decodes. -/
def okays (l : List (Except BadVal Exact)) : List Exact :=
  l.map (fun x => match x with
    | .ok v => v
    | .error _ => ⟨false, 0, 1⟩)

/-- The product of two decoded operands, rounded to binary32 (R277). -/
def product (a b : Exact) : F32 := fround (a.neg != b.neg) (a.num * b.num) (a.den * b.den)

/-- Add the products of one slice to the accumulators, rows first. -/
def macSlice (a b : List Exact) (acc : List (List F32)) : List (List F32) :=
  List.zipWith (fun x row => List.zipWith (fun y c => if ffinite c then fadd c (product x y) else c) b row) a acc

/-- The accumulators of an output (R277): from +0.0, products in ascending k. One that leaves the range keeps its infinity. -/
def macAll (a b : List (List Exact)) (m n : Nat) : List (List F32) :=
  (a.zip b).foldl (fun acc x => macSlice x.1 x.2 acc) (List.replicate m (List.replicate n 0))

/-- The output tiles of an MM, row by row. -/
def mmTiles (o : MMOp) : List (Nat × Nat) :=
  (List.range (o.m / 64)).flatMap (fun i => (List.range (o.n / 128)).map (fun j => (i, j)))

/-- What stops an MM: an operand element (k, operand, index, its value), or an accumulator that becomes infinite. -/
inductive MacStop where
  | decode (k operand ix : Nat) (v : BadVal)
  | acc (m n : Nat) (v : F32)
  deriving DecidableEq, Repr

/-- The first accumulator of a tile that is not finite. -/
def badAcc (acc : List (List F32)) : Option (Nat × Nat × F32) :=
  (acc.mapIdx (fun i r => (i, r))).findSome? (fun x =>
    (x.2.mapIdx (fun j v => (j, v))).findSome? (fun y => if ffinite y.2 then none else some (x.1, y.1, y.2)))

/-- The first stop of a tile at `tm`, `tn` (R269, R277): slices in ascending k; in one slice A, then B, then the
accumulators. -/
def tileStop (tm tn : Nat) : Nat → List (List F32) → List (List (Except BadVal Exact)) → List (List (Except BadVal Exact)) →
    Option MacStop
  | k, acc, a :: ar, b :: br =>
    let x := (a.drop (64 * tm)).take 64
    let y := (b.drop (128 * tn)).take 128
    match badIn (64 * tm) x, badIn (128 * tn) y with
    | some (j, v), _ => some (.decode k 0 j v)
    | none, some (j, v) => some (.decode k 1 j v)
    | none, none =>
      let acc := macSlice (okays x) (okays y) acc
      match badAcc acc with
      | some (i, j, v) => some (.acc (64 * tm + i) (128 * tn + j) v)
      | none => tileStop tm tn (k + 1) acc ar br
  | _, _, _, _ => none

/-- Every element decodes. -/
def allDecode (l : List (List (Except BadVal Exact))) : Bool := l.all (fun r => (badIn 0 r).isNone)

/-- The exact accumulators of the i8 pairing. -/
def macInt (a b : List (List Int)) (m n : Nat) : List (List Int) :=
  (a.zip b).foldl (fun acc x => List.zipWith (fun u row => List.zipWith (fun v c => c + u * v) x.2 row) x.1 acc)
    (List.replicate m (List.replicate n 0))

/-- Replace an element of a matrix. -/
def set2 {α : Type} (l : List (List α)) (i j : Nat) (v : α) : List (List α) := l.set i ((l.getD i []).set j v)

/-- The 64 × 128 tile at a place of a matrix. -/
def tileAt {α : Type} (l : List (List α)) (tm tn : Nat) : List (List α) :=
  ((l.drop (64 * tm)).take 64).map (fun r => (r.drop (128 * tn)).take 128)

/-! ## The GE checksum (R422) -/

/-- A finite value in units of 2^−149. -/
def fixed (a : F32) : Int := let v := (fexact a).scale 149; if v.neg then -((v.num / v.den : Nat) : Int) else (v.num / v.den : Nat)

/-- out[n] of a column of a tile. -/
def colOut (acc : List (List F32)) (j : Nat) : F32 := acc.foldl (fun t row => fadd t (row.getD j 0)) 0

/-- s[k] and r[k] of each slice of a tile's 64 rows. -/
def sliceSums (a : List (List Exact)) (tm : Nat) : List (F32 × F32) :=
  a.map (fun l =>
    let v := (l.drop (64 * tm)).take 64
    (v.foldl (fun t x => fadd t (exactToF32 x)) 0, v.foldl (fun t x => fadd t (fabs (exactToF32 x))) 0))

/-- chk[n] and mag[n] of a column (DEDUCED, assumption 108). -/
def colChk (sums : List (F32 × F32)) (b : List (List Exact)) (n : Nat) : F32 × F32 :=
  (sums.zip b).foldl (fun t x =>
    let y := exactToF32 (x.2.getD n ⟨false, 0, 1⟩)
    (fadd t.1 (fmul x.1.1 y), fadd t.2 (fmul x.1.2 (fabs y)))) (0, 0)

/-- A column passes (R422). A sum out of binary32's range meets no bound; a bound out of it holds. -/
def colPasses (s : State) (k : Nat) (out chk mag : F32) : Bool :=
  if !ffinite out || !ffinite chk then false
  else if !ffinite mag then true
  else
    let g := getF s R.brdCtl_gtolQ8
    decide ((fixed out - fixed chk).natAbs * 2 ^ 32 ≤ g * (k + 64) * (fixed mag).natAbs + (k + 64) * 2 ^ 32)

/-- The failing columns of an output tile of a floating-point MM. -/
def failCols (s : State) (k tm tn : Nat) (a b : List (List Exact)) (tile : List (List F32)) : List Nat :=
  let sums := sliceSums a tm
  (List.range 128).filter (fun j =>
    let c := colChk sums b (128 * tn + j)
    !colPasses s k (colOut tile j) c.1 c.2)

/-- The failing columns of an output tile of an i8 MM: the sums are exact. -/
def failColsI (tm tn : Nat) (a b : List (List Int)) (tile : List (List Int)) : List Nat :=
  (List.range 128).filter (fun j =>
    let out := levelSum (tile.map (fun r => r.getD j 0))
    let chk := levelSum ((a.zip b).map (fun x => levelSum ((x.1.drop (64 * tm)).take 64) * x.2.getD (128 * tn + j) 0))
    decide (out ≠ chk))

/-! ## Destinations (R279) -/

/-- The `n` elements of the destination from (i, j) on, as they stand. -/
def destOld (s : State) (p : Nat) (o : MMOp) (i j n : Nat) : List F32 :=
  bytesF32 n (readBytes s (storeBase p + outAt o.c i j) (4 * n))

/-- What a row of the destination becomes, of accumulators in binary32: its first element is (i, j). -/
def destRow (s : State) (p : Nat) (o : MMOp) (i j : Nat) (acc : List F32) : List F32 :=
  if o.kind = 0 ∨ o.kind = 3 then List.zipWith fadd (destOld s p o i j acc.length) acc else acc

/-- The same of the exact accumulators of the i8 pairing: one rounding (R277, R279); i32 for kind 2. -/
def destRowI (s : State) (p : Nat) (o : MMOp) (i j : Nat) (acc : List Int) : List F32 :=
  if o.kind = 0 ∨ o.kind = 3 then List.zipWith faddInt (destOld s p o i j acc.length) acc
  else if o.kind = 2 then acc.map (fun v => BitVec.ofInt 32 v) else acc.map fofInt

/-- The rows a tile leaves in its destination, each with the place of its first element; i32 for kind 2 of the i8 pairing. -/
def tileRows (s : State) (p : Nat) (o : MMOp) (tm tn : Nat) (acc : List (List F32)) (accI : List (List Int)) :
    List (Nat × Nat × List F32) :=
  (List.range 64).map (fun i =>
    let m := 64 * tm + i
    let n := 128 * tn
    (m, n, if o.aFmt = 8 then destRowI s p o m n (accI.getD i []) else destRow s p o m n (acc.getD i [])))

/-- Write them (DEDUCED, assumption 106). -/
def writeTile (s : State) (p : Nat) (o : MMOp) (l : List (Nat × Nat × List F32)) : State :=
  forEach l (fun s x => write s (storeBase p + outAt o.c x.1 x.2.1) (f32Bytes x.2.2)) s

/-- The first value that is no finite binary32, where the destination holds binary32. -/
def badDest (o : MMOp) (l : List (Nat × Nat × List F32)) : Option (Nat × Nat × F32) :=
  if o.aFmt = 8 ∧ o.kind = 2 then none
  else l.findSome? (fun x => (x.2.2.mapIdx (fun j v => (j, v))).findSome? (fun y =>
    if ffinite y.2 then none else some (x.1, x.2.1 + y.1, y.2)))

/-- A trap of the MAC array's result (R269) (DEDUCED, assumption 105). -/
def macTrap (s : State) (p : Nat) (o : MMOp) (x : Nat × Nat × F32) : State :=
  let b := trapBits s x.2.2
  trap b.1 p 0 2 (badKind32 x.2.2) o.layer o.instr 63 (srW2 x.1 x.2.1) b.2

/-- A trap at an operand or an accumulator of the MAC array (R269, R277). -/
def stopMm (s : State) (p : Nat) (o : MMOp) : MacStop → State
  | .decode k operand j v =>
    trapDecode s p 0 operand o.layer o.instr 63 (srW2 k j) v
  | .acc m n v => macTrap s p o (m, n, v)

/-! ## MM_COMPLETE (R277, R280, R422, R423) -/

/-- A corrupt line stops the stall (R419). -/
def linesRead (s : State) (p : Nat) (o : MMOp) : State × Bool :=
  let ls := (packLines o.aFmt (packOf o.a) o.aOrient o.k o.m ++ packLines o.bFmt (packOf o.b) o.bOrient o.k o.n
    ++ (if o.kind = 0 ∨ o.kind = 3 then outLines o.c o.m o.n else [])).eraseDups
  ls.foldl (fun x l =>
    let r := checkBrands x.1 1 (cStall p) (storeBase p + 64 * l) 64
    (r.1, x.2 && r.2)) (s, true)

/-- A tile's index within its MM. -/
def tileNo (o : MMOp) (tm tn : Nat) : Nat := tm * (o.n / 128) + tn

/-- The accumulators of an MM: decoded operands, or the i8 pairing's, with the faults of the MAC array put in. -/
structure MacOut where
  a : List (List Exact)
  b : List (List Exact)
  ai : List (List Int)
  bi : List (List Int)
  acc : List (List F32)
  accI : List (List Int)
  deriving DecidableEq, Repr

/-- Put faults into accumulators (DEDUCED, assumption 28). -/
def withFaults (l : List (List F32)) (faults : List MacFault) : List (List F32) :=
  faults.foldl (fun l f => set2 l f.m f.n (BitVec.ofNat 32 f.value)) l

/-- Put faults into the accumulators of the i8 pairing. -/
def withFaultsI (l : List (List Int)) (faults : List MacFault) : List (List Int) :=
  faults.foldl (fun l f => set2 l f.m f.n (toSigned 32 f.value)) l

/-- Form the accumulators of an MM, or name what stops it, tiles in order. -/
def formAcc (s : State) (p : Nat) (o : MMOp) (faults : List MacFault) : Except MacStop MacOut :=
  if o.aFmt = 8 then
    let a := operandI s p o.aOrient o.k o.m (packOf o.a)
    let b := operandI s p o.bOrient o.k o.n (packOf o.b)
    .ok ⟨[], [], a, b, [], withFaultsI (macInt a b o.m o.n) faults⟩
  else
    let a := operand s p o.aFmt o.aOrient o.k o.m (packOf o.a)
    let b := operand s p o.bFmt o.bOrient o.k o.n (packOf o.b)
    let acc := macAll (a.map okays) (b.map okays) o.m o.n
    let stop := if allDecode a && allDecode b && (badAcc acc).isNone then none
      else (mmTiles o).findSome? (fun x =>
        tileStop x.1 x.2 0 (List.replicate 64 (List.replicate 128 0)) a b)
    match stop with
    | some x => .error x
    | none => .ok ⟨a.map okays, b.map okays, [], [], withFaults acc faults, []⟩

/-- The failing columns of a tile. -/
def tileFails (s : State) (o : MMOp) (v : MacOut) (tm tn : Nat) : List Nat :=
  if !onF s R.brdCtl_geChkEn then []
  else if o.aFmt = 8 then failColsI tm tn v.ai v.bi (tileAt v.accI tm tn)
  else failCols s o.k tm tn v.a v.b (tileAt v.acc tm tn)

/-- Hold a failing tile for its vote, with event 0xC004 (R423). -/
def holdTile (p : Nat) (o : MMOp) (v : MacOut) (s : State) (x : Nat × Nat × List Nat) : State :=
  let t := getStall s p
  let first := t.votes.isEmpty && t.geVotes.isEmpty
  let g : GeVote := { no := t.voteNo, op := o, tileM := x.1, tileN := x.2.1, cols := x.2.2, acc := tileAt v.acc x.1 x.2.1,
                      accI := tileAt v.accI x.1 x.2.1, tok := none }
  let s := modStall s p (fun t => { t with geVotes := t.geVotes ++ [g], voteNo := t.voteNo + 1 })
  let s := if first then setF s R.brdStatus_votesRunning 0 (getF s R.brdStatus_votesRunning + 1) else s
  raise s 0xC004 (cStall p) (o.instr * 2 ^ 16 + x.2.2.length) (tileNo o x.1 x.2.1)

/-- The head of the MM queue is done: the next begins. -/
def dropMm (s : State) (p : Nat) : State := modStall s p (fun t => { t with mmq := t.mmq.drop 1, moved := 0 })

/-- The MM at the head of the queue ends: its tiles drain, but for those that fail their check. -/
def endMm (s : State) (p : Nat) (o : MMOp) (faults : List MacFault) : State :=
  let r := linesRead s p o
  if !r.2 then instrFault r.1 p 7 0x20 o.instr (o.a % 2 ^ 32)
  else
    let s := bumpF r.1 R.genCount_mmCycles p (mmCycles o (getStall r.1 p).moved)
    match formAcc s p o faults with
    | .error x => stopMm s p o x
    | .ok v =>
      let held := (mmTiles o).filterMap (fun x =>
        let c := tileFails s o v x.1 x.2
        if c.isEmpty then none else some (x.1, x.2, c))
      let good := (mmTiles o).filter (fun x => !held.any (fun h => h.1 == x.1 && h.2.1 == x.2))
      let vals := good.flatMap (fun x => tileRows s p o x.1 x.2 (tileAt v.acc x.1 x.2) (tileAt v.accI x.1 x.2))
      match badDest o vals with
      | some x => macTrap s p o x
      | none =>
        let s := writeTile s p o vals
        if held.isEmpty then dropMm s p else forEach held (holdTile p o v) s

/-! ## Fallback tokens (R302, R303, R423) -/

/-- A fallback token's exact sums with the MAC array's faults: `n` numbers the sum, and 512 on those of a second pass. -/
def faultedSums (pass : Nat) (l : List F32) (faults : List MacFault) : List F32 :=
  faults.foldl (fun l f => if f.m = 0 ∧ f.n / 512 = pass then l.set (f.n % 512) (fofInt (toSigned 32 f.value)) else l) l

/-- The outputs of a fallback token, as the array formed them. -/
def fallbackOuts (row : Nat → List Int) (mode : Nat) (two : Bool) (wstep scale : F32) (codes : List Int)
    (faults : List MacFault) : List F32 :=
  formOutputs mode two wstep scale (faultedSums 0 (exactSums row mode two 0 codes) faults)
    (if mode = 1 ∧ two then faultedSums 1 (exactSums row mode two 1 codes) faults else [])

/-- The sums that faults made wrong: those the exact check of the i8 pairing fails. -/
def wrongSums (row : Nat → List Int) (mode : Nat) (two : Bool) (codes : List Int) (faults : List MacFault) : List Nat :=
  let a := exactSums row mode two 0 codes
  let b := if mode = 1 ∧ two then exactSums row mode two 1 codes else []
  ((List.range 512).filter (fun i => a.getD i 0 != (faultedSums 0 a faults).getD i 0))
    ++ ((List.range b.length).filter (fun i => b.getD i 0 != (faultedSums 1 b faults).getD i 0)).map (fun i => 512 + i)

/-- One token of an operation on fallback: R302 over the image, checked as an MM is (DEDUCED, assumption 109) (DEDUCED, assumption 140). -/
def fallbackToken (s : State) (p t i : Nat) (o : TileOp) (two : Bool) (scale : F32) (codes : List Int)
    (faults : List MacFault) : State :=
  let s := bumpF s R.genCount_mmCycles p 32
  let row := fun r => recordRow s (imageBase p i) r
  let w := wstepOf s (tileIx p t)
  let bad := if onF s R.brdCtl_geChkEn then wrongSums row o.mode two codes faults else []
  let outs := fallbackOuts row o.mode two w scale codes faults
  if bad.isEmpty then
    match firstBad 0 outs with
    | some v => resultTrap s p t o v
    | none => releaseToken s p o outs
  else
    let st := getStall s p
    let m : MMOp := (st.mmq.headD { a := o.slot, b := 0, c := 0, k := 0, m := 0, n := 0, aFmt := 8, bFmt := 8,
                                    aOrient := 0, bOrient := 0, kind := 4, instr := o.instr, layer := o.layer })
    let first := st.votes.isEmpty && st.geVotes.isEmpty
    let g : GeVote := { no := st.voteNo, op := m, tileM := 0, tileN := 0, cols := bad, acc := [outs],
                        accI := [codes], tok := some o }
    let s := modStall s p (fun x => { x with geVotes := x.geVotes ++ [g], voteNo := x.voteNo + 1 })
    let s := if first then setF s R.brdStatus_votesRunning 0 (getF s R.brdStatus_votesRunning + 1) else s
    raise s 0xC004 (cStall p) (o.instr * 2 ^ 16 + bad.length) 0

/-- The fallback operation at the head of the queue goes on with its next token; a batch of up to 64 takes 24 cycles more
(R303). -/
def fallbackNext (s : State) (p slot : Nat) (faults : List MacFault) : State :=
  match (getStall s p).ops.find? (fun o => o.slot == slot), fallbackOf s p slot with
  | some o, some i =>
    if tokenReady s p o then
      let x := checkBrands s 1 (cStall p) (imageBase p i) recordSize
      if x.2 then
        openToken (if o.next % 64 = 0 then bumpF x.1 R.genCount_mmCycles p 24 else x.1) p o
          (fun s t two scale codes => fallbackToken s p t i o two scale codes faults)
      else corruptStop x.1 p
    else s
  | _, _ => s

/-- MM_COMPLETE (R277, R280, R302, R422, R423). -/
def mmComplete (p : Nat) (faults : List MacFault) (s : State) : State :=
  let t := getStall s p
  match t.mmq with
  | [] => s
  | o :: _ =>
    if !working s p || !t.geVotes.isEmpty then s
    else if o.kind = 4 then fallbackNext s p o.a faults
    else endMm s p o faults

def execMmComplete (p : Nat) (faults : List MacFault) (s : State) : Out := onStall p s (mmComplete p faults)

/-! ## GE votes (R426, R427) -/

/-- A GE vote is over; the last of an MM takes it from the queue. -/
def endGeVote (s : State) (p : Nat) : State :=
  let fin := ((getStall s p).geVotes.head?.map (fun g => g.tok.isNone)).getD false
  let s := modStall s p (fun t => { t with geVotes := t.geVotes.drop 1 })
  let t := getStall s p
  let s := if fin && t.geVotes.isEmpty then dropMm s p else s
  if t.votes.isEmpty && t.geVotes.isEmpty then
    setF s R.brdStatus_votesRunning 0 (getF s R.brdStatus_votesRunning - 1)
  else s

/-- Register, counts and event of a decided GE vote: 0 checker lost, 1 worker lost; the GE takes the strike. -/
def geDecided (s : State) (p outcome col : Nat) : State :=
  let s := bumpF (showVote s outcome 1 p 63 0) R.brdCount_votes 0 1
  let s := if outcome = 0 then bumpF s R.brdCount2_checkerLost 0 1 else bumpF s R.brdCount2_workerLost 0 1
  strikeGe (raise s 0xC005 (cStall p) outcome col) p

/-- The columns of a held tile as the vector unit forms them again, with its own faults put in. -/
def recomputed (v : MacOut) (g : GeVote) (faults : List MacFault) : List (List F32) :=
  let l := tileAt (withFaults v.acc faults) g.tileM g.tileN
  List.zipWith (fun row new => row.mapIdx (fun j x => if g.cols.contains j then new.getD j 0 else x)) g.acc l

/-- The same for the i8 pairing. -/
def recomputedI (v : MacOut) (g : GeVote) (faults : List MacFault) : List (List Int) :=
  let l := tileAt (withFaultsI v.accI faults) g.tileM g.tileN
  List.zipWith (fun row new => row.mapIdx (fun j x => if g.cols.contains j then new.getD j 0 else x)) g.accI l

/-- A vote on an output tile. -/
def decideTile (s : State) (p : Nat) (g : GeVote) (faults : List MacFault) : State :=
  let o := g.op
  match formAcc s p o [] with
  | .error x => stopMm (endGeVote s p) p o x
  | .ok v =>
    let acc := recomputed v g faults
    let accI := recomputedI v g faults
    let same := acc == g.acc && accI == g.accI
    let col := g.cols.headD 0
    let passes := if o.aFmt = 8 then (failColsI g.tileM g.tileN v.ai v.bi accI).isEmpty
      else (failCols s o.k g.tileM g.tileN v.a v.b acc).isEmpty
    if !same && !passes then
      strikeGe (noMajority (endGeVote s p) p 1 63 0 0 o.instr) p
    else
      let vals := tileRows s p o g.tileM g.tileN acc accI
      match badDest o vals with
      | some x => macTrap (geDecided (endGeVote s p) p (if same then 0 else 1) col) p o x
      | none => geDecided (endGeVote (writeTile s p o vals) p) p (if same then 0 else 1) col

/-- A vote on a fallback token: the outputs are formed again by R302. -/
def decideToken (s : State) (p : Nat) (g : GeVote) (o : TileOp) (faults : List MacFault) : State :=
  match fallbackOf s p o.slot with
  | none => endGeVote s p
  | some i =>
    let two := ((placeOf s p o.slot).map (fun r => r.twoSlice)).getD false
    let t := posOf (getStall s p) o.slot
    let row := fun r => recordRow s (imageBase p i) r
    let codes := g.accI.headD []
    let x := readChecked s 0 (cStall p) (storeBase p + o.scale + 4 * o.next) 4
    match x.2 with
    | none => corruptStop x.1 p
    | some b =>
      let outs := fallbackOuts row o.mode two (wstepOf s (tileIx p t)) (BitVec.ofNat 32 (leNat b)) codes faults
      let same := outs == g.acc.headD []
      if !same && !(wrongSums row o.mode two codes faults).isEmpty then
        strikeGe (noMajority (endGeVote x.1 p) p 1 63 0 0 o.instr) p
      else
        let s := geDecided (endGeVote x.1 p) p (if same then 0 else 1) (g.cols.headD 0)
        match firstBad 0 outs with
        | some v => resultTrap s p t o v
        | none => releaseToken s p o outs

/-- GE_VOTE_DECIDED (R426, R427): `faults` are those of the recompute. -/
def geVoteDecided (p : Nat) (faults : List MacFault) (s : State) : State :=
  let t := getStall s p
  match t.geVotes with
  | [] => s
  | g :: _ =>
    if !working s p || !voteFirst t g.no then s
    else match g.tok with
      | some o => decideToken s p g o faults
      | none => decideTile s p g faults

def execGeVoteDecided (p : Nat) (faults : List MacFault) (s : State) : Out := onStall p s (geVoteDecided p faults)

/-! ## Handing a bank on (R294, R296, R297) -/

/-- Columns of a placed block's bank rows. -/
def bankCols (pl : Placement) : Nat := if pl.twoSlice then 256 else 512

/-- The banks that a stall owns, has handed to TOUT, and has not yet handed on. -/
def pullOps (s : State) (p : Nat) : List ToutOp :=
  (getStall s p).touts.filter (fun o => o.owner && !s.upd.lines.any (fun l => l.1 == p && l.2.1 == o.bank))

/-- Replace a handed bank's record. -/
def setTout (s : State) (p : Nat) (o : ToutOp) : State :=
  modStall s p (fun t => { t with touts := t.touts.map (fun x => if x.bank = o.bank then o else x) })

/-- The contributors of a block in ascending sum_order, from `k` on. -/
def fromOrder (s : State) (pl : Placement) (k : Nat) : List Placement :=
  let l := contributors ((s.job.image.map (fun i => i.placement)).getD []) pl
  (l.filter (fun x => decide (k ≤ x.sumOrder))).mergeSort (fun a b => decide (a.sumOrder ≤ b.sumOrder))

/-- The bank a contributor holds for a half of its block. -/
def offered (s : State) (x : Placement) (half : Nat) : Option ToutOp :=
  (getStall s x.stall).touts.find? (fun o => o.slot == x.slot && o.half == half && !o.owner)

/-- A contributor that gives no partial in this step: it is idle, or its program has ended without one (R297). -/
def givesNone (s : State) (x : Placement) : Bool :=
  onF s R.genStall_idle x.stall || getF s R.genStall_pass x.stall == 3

/-- The next contributor an owner waits for, past those that give nothing (DEDUCED, assumption 94). -/
def nextPull (s : State) (pl : Placement) (o : ToutOp) : Option Placement :=
  (fromOrder s pl o.order).find? (fun x => (offered s x o.half).isSome || !givesNone s x)

/-- A bank can go on: no partial is left to pull, or the next is offered by a stall that works. -/
def pullable (s : State) (p : Nat) (o : ToutOp) : Bool :=
  (placeOf s p o.slot).any (fun pl => (nextPull s pl o).all (fun x => (offered s x o.half).isSome && working s x.stall))

/-- The stall's first bank that can go on. -/
def pullOp (s : State) (p : Nat) : Option ToutOp := (pullOps s p).find? (pullable s p)

/-- With no partial left to pull, the bank goes to its chip line by line (R297, R347). -/
def handOn (s : State) (p : Nat) (pl : Placement) (o : ToutOp) : State :=
  if (nextPull s pl o).isNone then
    setBank { s with upd := { s.upd with lines := s.upd.lines ++ [(p, o.bank, o.slot, o.half, 0)] } } p o.bank 2
  else s

/-- TOUT. -/
def runTout (p : Nat) (s : State) (w : Nat) : State :=
  let b := b2n (bit w 55)
  let slot := bits w 54 50
  match placeOf s p slot with
  | none => faultIns s p w 8 slot
  | some pl =>
    let t := getStall s p
    if t.touts.any (fun o => o.bank == b) then s
    else
      let own := pl.ownerStall == p && pl.sumOrder == 0
      let o : ToutOp := { bank := b, instr := insAt s p, slot := slot, half := b2n (bit w 49), site := bits w 48 42,
                          owner := own, order := 1, since := s.now, alarmed := false, layer := t.layer }
      let s := setBank (modStall s p (fun t => { t with touts := t.touts ++ [o] })) p b (if own then 2 else 3)
      advance (if own then handOn s p pl o else s) p

def execTout (p : Nat) (s : State) : Out := issue p 0x41 s (runTout p)

/-- w2 of an element of a bank: weight-indexed over the whole tensor (R297). -/
def bankW2 (pl : Placement) (half i c : Nat) : Nat :=
  srW2 (512 * pl.rowSeg + 256 * half + i) (bankCols pl * pl.colBlk + c)

/-- A row of a bank. -/
def bankRow (s : State) (p b i cols : Nat) : List F32 := bytesF32 cols (readBytes s (bankBase p b + 2048 * i) (4 * cols))

/-- One row of a partial, converted at the contributor, decoded and added at the owner: the state with the conversion
counted, and the new row; or the trap, which leaves nothing else behind (R269). -/
def pullRow (s : State) (p : Nat) (own : ToutOp) (pl x : Placement) (c : ToutOp) (i : Nat) :
    Except (State → State) (State × Bytes) :=
  let cols := bankCols pl
  let row := bankRow s x.stall c.bank i cols
  let site : Site := { layer := x.layer, tensor := x.tensor, expert := placeExpert s x, site := c.site }
  match firstBad 0 row with
  | some v => .error (fun t => trap t x.stall 2 4 v.kind c.layer c.instr 63 (bankW2 x c.half i v.lane) v.value)
  | none =>
    let y := convertRule s 2 2 0 site (bankW2 x c.half i) (row ++ List.replicate (512 - cols) 0)
    let vals := match decodeSeg (fmtRule s x.layer 2).format y.2 with
      | .ok l => (l.take cols).map exactToF32
      | .error _ => []
    let sum := List.zipWith fadd (bankRow s p own.bank i cols) vals
    match firstBad 0 sum with
    | some v => .error (fun t =>
        let b := trapBits t (BitVec.ofNat 32 v.value)
        trap b.1 p 0 2 v.kind own.layer own.instr 63 (srW2 i v.lane) b.2)
    | none => .ok (y.1, f32Bytes sum)

/-- The rows of a partial from row `i` on, `n` of them. -/
def pullRows (p : Nat) (own : ToutOp) (pl x : Placement) (c : ToutOp) : Nat → Nat → State →
    Except (State → State) (State × List (Nat × Bytes))
  | 0, _, s => .ok (s, [])
  | n + 1, i, s =>
    match pullRow s p own pl x c i with
    | .error f => .error f
    | .ok r => match pullRows p own pl x c n (i + 1) r.1 with
      | .error f => .error f
      | .ok q => .ok (q.1, (i, r.2) :: q.2)

/-- The brands of a bank's rows (R417). -/
def bankRead (s : State) (p b : Nat) : State × Bool := checkBrands s 5 (cStall p) (bankBase p b) 0x80000

/-- TROUGH_PARTIAL_PULL (R297): an owner pulls its next partial, and hands the bank on after the last. -/
def partialPull (p : Nat) (s : State) : State :=
  match pullOp s p with
  | none => s
  | some o =>
    match placeOf s p o.slot with
    | none => s
    | some pl =>
      if !working s p then s
      else match nextPull s pl o with
        | none => handOn s p pl o
        | some x =>
          match offered s x o.half with
          | none => s
          | some c =>
            if !working s x.stall then s
            else
              let r := bankRead s x.stall c.bank
              if !r.2 then corruptStop r.1 x.stall
              else
                match pullRows p o pl x c 256 0 r.1 with
                | .error f => f r.1
                | .ok q =>
                  let s := forEach q.2 (fun s y => write s (bankBase p o.bank + 2048 * y.1) y.2) q.1
                  let s := setBank (modStall s x.stall (fun t =>
                    { t with touts := t.touts.filter (fun y => y.bank != c.bank) })) x.stall c.bank 0
                  let o := { o with order := x.sumOrder + 1, since := s.now, alarmed := false }
                  handOn (setTout s p o) p pl o

def execTroughPartialPull (p : Nat) (s : State) : Out := onStall p s (partialPull p)

/-- The alarm of one bank: once for a block in the step. -/
def waitOne (p : Nat) (s : State) (o : ToutOp) : State :=
  match (placeOf s p o.slot).bind (fun pl => nextPull s pl o) with
  | none => s
  | some x =>
    if o.since + 25 * getF s R.genCtl_partialAlarmUs ≤ s.now then
      raiseOnce s 0x7005 (32 * p + o.slot) (cStall p) (o.slot * 2 ^ 16 + o.half) x.stall
    else s

/-- PARTIAL_WAIT (R297): each handed bank of the stall that waits for a partial. -/
def partialWait (p : Nat) (s : State) : State := forEach (pullOps s p) (waitOne p) s

def execPartialWait (p : Nat) (s : State) : Out := onStall p s (partialWait p)

end Sys2Proof.Machine
end

