-- ==== Sys2Proof/Machine/Mesh.lean ====
section
/-! DEFINITION. Machine/Mesh.lean: how a token frame between two stalls of the module crosses the barns' mesh segments and the
die-to-die bridges, and which frame arrives next (R31, R34, R35, R113, R334). -/
namespace Sys2Proof.Machine
open Sys2Proof

/-! ## Dies and bridges (R34, R35) -/

/-- The die that a frame on die `a` for die `b` goes to next: its neighbour on the way, or the lower-numbered of the two
dies between them. -/
def nextDie (a b : Nat) : Nat := if (a + 1) % 4 = b ∨ (b + 1) % 4 = a then b else if a % 2 = 0 then 1 else 0

/-- The bridge from a die to a neighbour: 0 to 3 lead from die d to d + 1, 4 to 7 from die d to d − 1. -/
def bridgeTo (a h : Nat) : Nat := if (a + 1) % 4 = h then a else 4 + a

/-- The die at a bridge's far end. -/
def bridgeEnd (k : Nat) : Nat := if k < 4 then (k + 1) % 4 else (k + 3) % 4

/-- The die a frame is for. -/
def frameDie (f : TokFrame) : Nat := dieOf f.dstStall

/-- Where a frame goes from a die: arrived, or to the bridge on its way as requester `r`. -/
def onward (f : TokFrame) (die r : Nat) : MeshPlace :=
  if frameDie f = die then .arrived else .bridge (bridgeTo die (nextDie die (frameDie f))) r

/-! ## The mesh segment of a barn (R31, R334) -/

/-- A stall has a frame on its segment. -/
def meshAsks (s : State) (p : Nat) : Bool := s.rte.mesh.any (fun x => x.place == .segment && x.frame.srcStall == p)

/-- The mesh weight of a stall. -/
def meshWeight (s : State) (p : Nat) : Nat := getF s R.rteArb_meshWeight p

/-- A stall's credit at a slot before the grant (R334). -/
def slotCredit (s : State) (p : Nat) : Int :=
  if meshAsks s p && meshWeight s p != 0 then tget 0 s.rte.credit p + meshWeight s p else 0

/-- The stall of the largest credit among those that ask, ties to the lower (R334). -/
def bestCredit (s : State) : List Nat → Option Nat
  | [] => none
  | p :: r => match bestCredit s r with
    | some q => if slotCredit s p < slotCredit s q then some q else some p
    | none => some p

/-- The stalls of weight 0 that ask, from the one after the last served (R334). -/
def zeroTurn (s : State) (barn : Nat) (l : List Nat) : Option Nat :=
  let last := tget 0 s.rte.zeroLast barn
  (l.find? (fun p => decide (last ≤ p))).or l.head?

/-- One slot of a barn's arbiter: the state with the credits after the grant, and the stall granted. -/
def meshGrant (s : State) (barn : Nat) : State × Option Nat :=
  let l := rangeFrom (32 * barn) 32
  let asks := l.filter (meshAsks s)
  let paid := asks.filter (fun p => meshWeight s p != 0)
  let total : Int := ((paid.map (meshWeight s)).sum : Nat)
  let best := bestCredit s paid
  let credit := l.foldl (fun c p =>
    tput 0 c p (if best = some p then slotCredit s p - total else slotCredit s p)) s.rte.credit
  let s' := { s with rte := { s.rte with credit := credit } }
  match best with
  | some p => (s', some p)
  | none =>
    match zeroTurn s barn asks with
    | some p => ({ s' with rte := { s'.rte with zeroLast := tput 0 s'.rte.zeroLast barn (p + 1) } }, some p)
    | none => (s', none)

/-- The place of a frame in the mesh list: the first of those a test holds of. -/
def meshFirst (s : State) (t : MeshItem → Bool) : Option MeshItem := s.rte.mesh.find? t

/-- Put an item in the place of another. -/
def meshSet (s : State) (x y : MeshItem) : State :=
  { s with rte := { s.rte with mesh := s.rte.mesh.map (fun z => if z = x then y else z) } }

/-- Move an item to another place, behind those that are there. -/
def meshMove (s : State) (x : MeshItem) (dest : MeshPlace) : State :=
  { s with rte := { s.rte with mesh := s.rte.mesh.erase x ++ [{ x with place := dest, left := 0 }] } }

/-- Slots of a barn's segment until frame `f` has crossed it; none when a frame of the same die crosses before, which must
be taken first. -/
def crossSegment (barn : Nat) (f : TokFrame) : Nat → State → Option State
  | 0, _ => none
  | n + 1, s =>
    let g := meshGrant s barn
    match g.2.bind (fun p => meshFirst s (fun x => x.place == .segment && x.frame.srcStall == p)) with
    | none => none
    | some x =>
      if 1 < x.left then crossSegment barn f n (meshSet g.1 x { x with left := x.left - 1 })
      else
        let dest := onward x.frame (barn / 4) (barn % 4)
        let t := meshMove g.1 x dest
        if x.frame = f then some t else if dest = .arrived then none else crossSegment barn f n t

/-! ## Bridges (R35) -/

/-- The requester a bridge serves next: the four barns of its die, then frames passing through, from the one after the last
served. -/
def bridgeTurn (s : State) (k : Nat) : Option MeshItem :=
  let last := tget 0 s.rte.bridgeLast k
  (rangeFrom last 5).findSome? (fun i => meshFirst s (fun x => x.place == .bridge k (i % 5)))

/-- Grants of the bridges until frame `f` has arrived at its die; none when another frame must arrive before. -/
def crossBridges (f : TokFrame) : Nat → State → Option State
  | 0, _ => none
  | n + 1, s =>
    match meshFirst s (fun x => x.frame == f) with
    | none => none
    | some y =>
      match y.place with
      | .arrived => some s
      | .segment => none
      | .bridge k _ =>
        match bridgeTurn s k with
        | none => none
        | some x =>
          let dest := onward x.frame (bridgeEnd k) 4
          let t := { s with rte := { s.rte with bridgeLast := tput 0 s.rte.bridgeLast k (match x.place with
            | .bridge _ r => (r + 1) % 5
            | _ => 0) } }
          let t := meshMove t x dest
          if x.frame ≠ f ∧ dest = .arrived then none else crossBridges f n t

/-! ## Arrival (R113, R397) -/

/-- Bytes that wait in a barn's ingress buffer (R113). -/
def ingressBytes (s : State) (barn : Nat) : Nat :=
  ((s.rte.late.filter (fun x => barnOf x.1 == barn)).map (fun x => x.2.bodyLen)).sum

/-- A barn's ingress buffer of 64 KiB has room for a frame (R113). -/
def ingressRoom (s : State) (f : TokFrame) : Bool :=
  decide (512 ≤ f.dstStall) || decide (ingressBytes s (barnOf f.dstStall) + f.bodyLen ≤ 65536)

/-- Flits of 64 bytes on the mesh. -/
def flits (f : TokFrame) : Nat := max 1 (ceilDiv f.bodyLen 64)

/-- A frame of this module's own stalls enters its barn's segment. -/
def meshEnter (s : State) (f : TokFrame) : State :=
  { s with rte := { s.rte with mesh := s.rte.mesh ++ [⟨f, .segment, flits f⟩] } }

/-- A frame that has arrived at its die is held back while its barn's ingress buffer is full (R113). -/
def meshHold (s : State) (f : TokFrame) : State :=
  { s with rte := { s.rte with mesh := s.rte.mesh ++ [⟨f, .arrived, 0⟩] } }

/-- All flits on the mesh: a bound on the slots until every frame has crossed. -/
def meshLoad (s : State) : Nat := (s.rte.mesh.map (fun x => x.left + 3)).sum

/-- Frame `f` reaches its barn next: the mesh without it. None while arbiters, bridges, an earlier arrival at its barn or a
full ingress buffer put another frame before it (DEDUCED, assumptions 86 and 136). -/
def meshTake (s : State) (f : TokFrame) : Option State :=
  let n := meshLoad s
  match meshFirst s (fun x => x.frame == f) with
  | none => none
  | some x =>
    let t := match x.place with
      | .segment => (crossSegment (barnOf f.srcStall) f n s).bind (crossBridges f n)
      | _ => crossBridges f n s
    t.bind (fun t =>
      match meshFirst t (fun y => y.place == .arrived && barnOf y.frame.dstStall == barnOf f.dstStall) with
      | some y => if y.frame = f ∧ ingressRoom t f then some { t with rte := { t.rte with mesh := t.rte.mesh.erase y } } else none
      | none => none)

end Sys2Proof.Machine
end

