-- ==== Sys2Proof/Machine/Port.lean ====
section
/-! DEFINITION. Machine/Port.lean: port states and weights, routes, egress, priority flow control, modules in their cages,
and the replies of published protocols (R76, R79, R386 to R406, R412, R414). -/
namespace Sys2Proof.Machine
open Sys2Proof

/-! ## Weights and routes (R391, R394, R397, R398) -/

/-- The weight a port's state and next hop give it. -/
def stateWeight (s : State) (n : Nat) : Nat :=
  if getF s R.prtPortNh_nextHopMac n = 0 then 0
  else if getF s R.prtPortStatus_state n = 3 then 2
  else if getF s R.prtPortStatus_state n = 4 then 1 else 0

/-- At a gate commit every weight given since takes effect; a next hop set to 0 takes its port's weight (R394). -/
def commitWeights (s : State) : State :=
  forEach (List.range 24) (fun s n => setF s R.prtPortStatus_weight n (stateWeight s n)) s

/-- The entries of pick_port's list. -/
def portList (s : State) (mask : Nat) : List Nat :=
  (List.range 24).flatMap (fun n => if bit mask n then List.replicate (getF s R.prtPortStatus_weight n) n else [])

/-- The hash of R398, kept by R399 for flow label and source port. -/
def routeHash (step srcStall dst : Nat) : Nat := srFold step (srcStall * 2 ^ 16 + dst)

/-- pick_port (DEDUCED, assumption 141). -/
def pickPort (s : State) (step srcStall dst mask : Nat) : Option Nat :=
  let l := portList s mask
  if l.isEmpty then none else l[(routeHash step srcStall dst / 2 ^ 32) % l.length]?

/-- The table's entry for a module that can be addressed (R397). -/
def routeEntry (s : State) (dst : Nat) : Option (Nat × Nat) :=
  match s.prt.table[dst]? with
  | none => none
  | some (addr, mask, valid) =>
    let v4 := addr / 2 ^ 32 == 0xFFFF
    if valid = 0 then none
    else if v4 && !onF s R.prtAddr4_valid then none
    else if !v4 && moduleAddr6 s == 0 then none
    else some (addr, mask)

/-- Bytes in network order as a number (R397). -/
def beNat (b : Bytes) : Nat := leNat b.reverse

/-- Read the fabric table (R397) (DEDUCED, assumption 83). -/
def readTable (s : State) : List (Nat × Nat × Nat) :=
  (List.range (getF s R.prtTable_count)).map (fun i =>
    let b := readBytes s (getF s R.prtTable_base64 * 64 + 32 * i) 32
    (beNat (b.take 16), fieldAt b 16 4, fieldAt b 20 1 % 2))

/-! ## Token frames out (R37, R397 to R400) -/

/-- A frame with no route (R398): its stall stops, event 0xB008. -/
def noRoute (s : State) (srcStall dst : Nat) : State :=
  let mask := ((s.prt.table[dst]?).map (fun e => e.2.1)).getD 0
  raise (stopStall s srcStall) 0xB008 (cStall srcStall) dst mask

/-- Hand a token frame to its port, or to the mesh for this module's own stalls (R397, R398). -/
def sendToken (s : State) (f : TokFrame) : State :=
  if f.dstModule = ownIndex s then
    meshEnter s { f with rx := none }
  else
    match routeEntry s f.dstModule with
    | none => noRoute s f.srcStall f.dstModule
    | some (addr, mask) =>
      match pickPort s (f.step % 2 ^ 40) f.srcStall f.dstModule mask with
      | none => noRoute s f.srcStall f.dstModule
      | some n =>
        let h := routeHash (f.step % 2 ^ 40) f.srcStall f.dstModule
        enqueue s { port := n, prio := if bit f.flags 0 then getF s R.prtCtl_bwdPcp else getF s R.prtCtl_fwdPcp,
                    cls := 2, die := dieOf f.srcStall,
                    dst := { mac := getF s R.prtPortNh_nextHopMac n, ip := addr, udp := getF s R.prtCtl_tokenUdp },
                    srcMac := portMac s n, vid := getF s R.prtAddr4_vid, flow := h % 2 ^ 20,
                    srcUdp := 0xC000 + h / 2 ^ 50, body := .tok f }

/-! ## Team ports (R412, R446) -/

/-- PAIR.STATUS shows which team ports are at full width (DEDUCED, assumption 82). -/
def showTeamPorts (s : State) : State :=
  setFs s [(R.pairStatus_port0Up, b2n (s.team.rec?.isSome && portUpFull s (getF s R.pairStatus_port0))),
    (R.pairStatus_port1Up, b2n (s.team.rec?.isSome && portUpFull s (getF s R.pairStatus_port1)))]

/-- A team port left UP_FULL (R446). -/
def teamPortLost (s : State) (n : Nat) : State :=
  let s := showTeamPorts s
  if teamFormed s && (teamPorts s).contains n then
    let up := countIf (teamPorts s) (portUpFull s)
    let s := raise s 0xD00C cPkg n up
    if up = 0 then breakTeam s 2 else s
  else s

/-! ## Ports up and down (R390 to R394) -/

/-- Up fabric ports fell below the image's least number (R394). -/
def checkMin (s : State) (before : Nat) : State :=
  match s.job.image with
  | none => s
  | some i =>
    if i.job.portsMin ≤ before ∧ fabricUp s < i.job.portsMin then raise s 0xB009 cPkg (fabricUp s) i.job.portsMin else s

/-- Give a port again to a queued frame of a port that went down (R392): token frames by R398, team frames the other team
port, replies and PFC frames none. -/
def rePort (n : Nat) (s : State) (f : OutFrame) : State :=
  if f.port ≠ n then enqueue s f
  else match f.body with
    | .tok t => sendToken s t
    | .team _ =>
      match (teamPorts s).filter (fun q => q != n && portUpFull s q) with
      | q :: _ => enqueue s { f with port := q, srcMac := portMac s q,
                                     dst := { f.dst with mac := getF s R.prtPortNh_nextHopMac q } }
      | [] => s
    | _ => s

/-- Hand on every frame queued for a lost port. -/
def requeue (s : State) (n : Nat) : State :=
  let q := s.prt.queue
  forEach q (rePort n) { s with prt := { s.prt with queue := [] } }

/-- A fabric port leaves its state for `st`; a link that was up goes down with event 0xB002 (R391, R392). -/
def portDown (s : State) (n cause st : Nat) : State :=
  let was := portOpen s n
  let before := fabricUp s
  let full := portUpFull s n
  let s := setF (setF s R.prtPortStatus_state n st) R.prtPortStatus_weight n 0
  if was || cause == 5 || cause == 6 then
    let s := raise (setF s R.prtPortStatus_downCause n cause) 0xB002 cPkg n cause
    let s := if was then requeue s n else s
    let s := if full then teamPortLost s n else s
    checkMin s before
  else s

/-- Start a training attempt (R390, R393); without a usable laser it fails at once (R79). -/
def startAttempt (s : State) (n : Nat) : State :=
  if !laserOk s n then setF s R.prtPortStatus_state n 5
  else
    let s := bumpF (setF s R.prtPortStatus_state n 1) R.prtPortStatus_attempts n 1
    { s with prt := { s.prt with trainStart := tset s.prt.trainStart n s.now } }

/-- The host port goes down; it trains again whenever a usable pluggable is present (R389). -/
def hostDown (s : State) (cause st : Nat) : State :=
  let was := getF s R.hstStatus_state == 2
  let s := setF s R.hstStatus_state 0 st
  if was || cause == 6 then raise (setF s R.hstStatus_downCause 0 cause) 0xB002 cPkg 24 cause else s

/-- PORT_UP (R389, R390, R394, R96): a step of training succeeded. -/
def portUp (n lanes group : Nat) (s : State) : State :=
  if n = 24 then
    if getF s R.hstStatus_state = 1 ∧ lanes = 8 then raise (setF s R.hstStatus_state 0 2) 0xB001 cPkg 24 8 else s
  else if getF s R.prtPortStatus_state n ≠ 1 then s
  else
    let s := if lanes = 8 then raise (setF s R.prtPortStatus_state n 3) 0xB001 cPkg n 8
      else
        let g := group % 2
        raise (raise (setF (setF s R.prtPortStatus_state n 4) R.prtPortStatus_laneGroup n g) 0xB001 cPkg n 4)
          0xB003 cPkg n g
    let s := showTeamPorts s
    if s.mode == .bringup && onF s R.bruStatus_waitingPorts then tryReady s else s

def execPortUp (port lanes group : Nat) (s : State) : Out := onUnit 25 port s (portUp port lanes group)

/-- PORT_ATTEMPT_FAILED (R390, R391). -/
def attemptFailed (n : Nat) (s : State) : State :=
  if n = 24 then (if getF s R.hstStatus_state = 1 then hostDown s 6 1 else s)
  else if getF s R.prtPortStatus_state n = 1 then portDown s n 6 2 else s

def execPortAttemptFailed (port : Nat) (s : State) : Out := onUnit 25 port s (attemptFailed port)

/-- PORT_LOST (R392); causes 1 alignment, 2 uncorrectable codewords, 3 laser, 4 pluggable. -/
def portLost (n cause : Nat) (s : State) : State :=
  if n = 24 then (if getF s R.hstStatus_state = 2 then hostDown s cause 1 else s)
  else if portOpen s n then portDown s n cause (if cause = 3 then 5 else 2) else s

/-- PORT_RETRAIN_TIMER (R393). -/
def retrainTimer (n : Nat) (s : State) : State :=
  if getF s R.prtPortStatus_state n = 2 ∧ onF s R.prtPortCtl_enable n ∧ laserOk s n
      ∧ tget 0 s.prt.trainStart n + 25000000 * getF s R.prtCtl_retrainS ≤ s.now then startAttempt s n
  else s

def execPortRetrainTimer (port : Nat) (s : State) : Out := onUnit 24 port s (retrainTimer port)

/-- Status of a write to PRT.PORT_RETRAIN. -/
def retrainStatus (s : State) (n : Nat) : Nat :=
  let st := if n = 24 then (if getF s R.hstStatus_state = 2 then 3 else getF s R.hstStatus_state)
    else getF s R.prtPortStatus_state n
  if st = 0 ∨ st = 1 ∨ st = 5 then 2 else 0

/-- PORT_RETRAIN (R393): an up port goes down at once, losing alignment, and an attempt starts (DEDUCED, assumption 32). -/
def retrainPort (n : Nat) (s : State) : State :=
  if retrainStatus s n ≠ 0 then s
  else if n = 24 then hostDown s 1 1
  else startAttempt (if portOpen s n then portDown s n 1 2 else s) n

/-- PORT_ENABLE (R393). -/
def enablePort (n : Nat) (on : Bool) (s : State) : State :=
  let was := onF s R.prtPortCtl_enable n
  let s := setF s R.prtPortCtl_enable n (b2n on)
  if !on then (if getF s R.prtPortStatus_state n = 0 then s else portDown s n 5 0)
  else if !was || getF s R.prtPortStatus_state n == 0 then startAttempt s n else s

/-- FEC_DEGRADED (R414): at most once per port per second. -/
def fecDegraded (n corrected : Nat) (s : State) : State :=
  let s := bumpF s R.prtPortFec_corrected n corrected
  let due := match tget? s.prt.lastFec n with
    | none => true
    | some a => decide (a + 25000000 ≤ s.now)
  if decide (getF s R.prtPortCtl_fecAlarm n < corrected) && due then
    raise { s with prt := { s.prt with lastFec := tset s.prt.lastFec n s.now } } 0xB004 cPkg n corrected
  else s

def execFecDegraded (port corrected : Nat) (s : State) : Out := onUnit 24 port s (fecDegraded port corrected)

/-! ## Modules in their cages (R76, R79, R389) -/

/-- HOST_MODULE_INSERTED (R76, R84, R387). -/
def hostInserted (m : Pluggable) (s : State) : State :=
  let ok := hostUsable m
  raise (setF (readHost s m) R.hstStatus_state 0 (b2n ok)) 0xB00B cPkg (if ok then 1 else 3) 0

def execHostModuleInserted (m : Pluggable) (s : State) : Out := inModule s (hostInserted m)

/-- HOST_MODULE_REMOVED, or its fault. -/
def hostRemoved (faulted : Bool) (s : State) : State :=
  let s := hostDown (raise s 0xB00B cPkg (if faulted then 2 else 0) 0) 4 0
  if faulted then faultHost s else dropHost s

def execHostModuleRemoved (faulted : Bool) (s : State) : Out := inModule s (hostRemoved faulted)

/-- The fabric ports of a laser socket. -/
def socketPorts (i : Nat) : List Nat := rangeFrom (6 * i) 6

/-- LASER_MODULE_INSERTED (R78, R84, R387). -/
def laserInserted (i : Nat) (m : LaserModule) (s : State) : State :=
  let ok := laserUsable m
  let s := raise (readLaser s i m) 0xB00C cPkg i (if ok then 1 else 3)
  if ok then forEach ((socketPorts i).filter (fun n => onF s R.prtPortCtl_enable n)) startAttempt s else s

def execLaserModuleInserted (sock : Nat) (m : LaserModule) (s : State) : Out := onUnit 4 sock s (laserInserted sock m)

/-- LASER_MODULE_REMOVED, or its failure: its ports go down as link failures. -/
def laserRemoved (i : Nat) (faulted : Bool) (s : State) : State :=
  let s := raise (if faulted then faultLaser s i else dropLaser s i) 0xB00C cPkg i (if faulted then 2 else 0)
  forEach ((socketPorts i).filter (fun n => getF s R.prtPortStatus_state n != 0)) (fun s n => portDown s n 3 5) s

/-! ## Priority flow control (R403, R404) -/

/-- Number of a priority of a port. -/
def prioKey (port prio : Nat) : Nat := 8 * port + prio

/-- The far end pauses a priority of a port. -/
def paused (s : State) (port prio : Nat) : Bool := (tget? s.prt.pauseEnd (prioKey port prio)).isSome

/-- Quanta of a port in units of 0.32 ns: one on a full fabric port, two on a half port or the host port. -/
def quantum (s : State) (port : Nat) : Nat := if port < 24 ∧ portUpFull s port then 1 else 2

/-- rx_paused of a fabric port follows. -/
def showPaused (s : State) (port : Nat) : State :=
  if port < 24 then
    setF s R.prtPortStatus_rxPaused port
      ((List.range 8).foldl (fun m q => setBit m q (paused s port q)) 0)
  else s

/-- A priority may send again. -/
def release (s : State) (port prio : Nat) : State :=
  let k := prioKey port prio
  showPaused { s with prt := { s.prt with pauseEnd := tdel s.prt.pauseEnd k, pauseStart := tdel s.prt.pauseStart k,
                                          stormed := s.prt.stormed.filter (fun x => x != k) } } port

/-- One named priority of a received PFC frame. -/
def pfcOne (port : Nat) (s : State) (x : Nat × Nat) : State :=
  let k := prioKey port (x.1 % 8)
  if x.2 = 0 then release s port (x.1 % 8)
  else
    let start := (tget? s.prt.pauseStart k).getD s.now
    showPaused { s with prt := { s.prt with pauseStart := tset s.prt.pauseStart k start,
                                            pauseEnd := tset s.prt.pauseEnd k (125 * s.now + x.2 * quantum s port) } } port

/-- PFC_FRAME (R403). -/
def execPfcFrame (f : PfcFrame) (s : State) : Out :=
  onUnit 25 f.port s (fun s => if portOpen s f.port then forEach f.times (pfcOne f.port) s else s)

/-- PFC_PAUSE_EXPIRED (R403). -/
def pauseExpired (port prio : Nat) (s : State) : State :=
  match tget? s.prt.pauseEnd (prioKey port prio) with
  | some e => if e ≤ 125 * s.now then release s port prio else s
  | none => s

def execPfcPauseExpired (port prio : Nat) (s : State) : Out := onUnit 25 port s (pauseExpired port (prio % 8))

/-- PFC_STORM (R403). -/
def pfcStorm (port prio : Nat) (s : State) : State :=
  let k := prioKey port prio
  match tget? s.prt.pauseStart k with
  | some a =>
    if a + 25 * getF s R.prtCtl_pfcAlarmUs ≤ s.now ∧ !s.prt.stormed.contains k then
      raise { s with prt := { s.prt with stormed := k :: s.prt.stormed } } 0xB005 cPkg port prio
    else s
  | none => s

def execPfcStorm (port prio : Nat) (s : State) : Out := onUnit 25 port s (pfcStorm port (prio % 8))

/-- Send a PFC frame for one priority. -/
def sendPfc (s : State) (port prio time : Nat) : State :=
  enqueue s { port := port, prio := prio, cls := 4, die := 0, dst := NetAddr.none, srcMac := portMac s port, vid := 0,
              flow := 0, srcUdp := 0, body := .pfc prio time }

/-- tx_paused of a fabric port follows. -/
def showXoff (s : State) (port : Nat) : State :=
  if port < 24 then
    setF s R.prtPortStatus_txPaused port
      ((List.range 8).foldl (fun m q => setBit m q (s.prt.xoff.contains (prioKey port q))) 0)
  else s

/-- A pause condition arises or clears (R404). -/
def setXoff (s : State) (port prio : Nat) (on : Bool) : State :=
  let k := prioKey port prio
  if on && !s.prt.xoff.contains k then
    let s := { s with prt := { s.prt with xoff := k :: s.prt.xoff, lastXoff := tset s.prt.lastXoff k s.now } }
    showXoff (sendPfc s port prio 65535) port
  else if !on && s.prt.xoff.contains k then
    showXoff (sendPfc { s with prt := { s.prt with xoff := s.prt.xoff.filter (fun x => x != k) } } port prio 0) port
  else s

/-- XOFF_REPEAT (R404): every 10 µs while the condition holds. -/
def xoffRepeat (port prio : Nat) (s : State) : State :=
  let k := prioKey port prio
  if s.prt.xoff.contains k && decide (tget 0 s.prt.lastXoff k + 250 ≤ s.now) then
    sendPfc { s with prt := { s.prt with lastXoff := tset s.prt.lastXoff k s.now } } port prio 65535
  else s

def execXoffRepeat (port prio : Nat) (s : State) : Out := onUnit 25 port s (xoffRepeat port (prio % 8))

/-! ## Egress (R37, R402) -/

/-- A frame may start: PFC frames always, others on a priority that is not paused. -/
def mayStart (s : State) (f : OutFrame) : Bool := f.cls == 4 || !paused s f.port f.prio

/-- Split a list of numbered frames at the first that satisfies a test. -/
def takeFirst (p : OutFrame → Bool) (l : List OutFrame) : Option Nat := l.findIdx? p

/-- The frame a queue of one priority gives next: the dies in round robin after the last one served. -/
def queueHead (s : State) (port cls prio : Nat) : Option Nat :=
  let last := (tget? s.prt.lastDie (prioKey port prio)).getD 3
  let order := (List.range 4).map (fun i => (last + 1 + i) % 4)
  let at_ := fun (d : Nat) =>
    takeFirst (fun f => f.port == port && f.cls == cls && f.prio == prio && f.die == d && mayStart s f) s.prt.queue
  (order.filterMap at_).head?

/-- The next frame of a class: the oldest among the heads of its priorities' queues. -/
def classHead (s : State) (port cls : Nat) : Option Nat :=
  (((List.range 8).filterMap (queueHead s port cls)).foldl (fun m i => match m with
    | none => some i
    | some j => some (min i j)) none)

/-- EGRESS_FRAME_START (R402) (DESIGN CHOICE, assumption 39). -/
def egressStart (port : Nat) (s : State) : State :=
  if !portOpen s port then s
  else match ([1, 2, 3, 4].filterMap (classHead s port)).head? with
    | none => s
    | some i =>
      match s.prt.queue[i]? with
      | none => s
      | some f => { s with prt := { s.prt with queue := s.prt.queue.eraseIdx i, wire := s.prt.wire ++ [f],
                                               lastDie := tset s.prt.lastDie (prioKey port f.prio) f.die } }

def execEgressFrameStart (port : Nat) (s : State) : Out := onUnit 25 port s (egressStart port)

/-! ## Replies of published protocols (R386, R396) -/

/-- Send a reply of class 1; its priority is the one the manual gives no number for, 0 (DESIGN CHOICE, assumption 40). -/
def reply (s : State) (port : Nat) (dst : NetAddr) (b : OutBody) : State :=
  enqueue s { port := port, prio := 0, cls := 1, die := 0, dst := dst, srcMac := portMac s port,
              vid := if port = 24 then getF s R.hstCtl_vid else getF s R.prtAddr4_vid, flow := 0, srcUdp := 0, body := b }

/-- ARP_REQUEST (R396): answered for the port's own IPv4 address. -/
def arpRequest (port target : Nat) (src : NetAddr) (s : State) : State :=
  if portOpen s port && decide (target < 2 ^ 32) && ownIp s port (mapped4 target) then
    reply s port src (.arpReply target)
  else s

def execArpRequest (port target : Nat) (src : NetAddr) (s : State) : Out := onUnit 25 port s (arpRequest port target src)

/-- NEIGHBOUR_SOLICITATION (R396): answered for the port's own IPv6 addresses. -/
def solicitation (port target : Nat) (src : NetAddr) (s : State) : State :=
  if portOpen s port && target / 2 ^ 32 != 0xFFFF && ownIp s port target then reply s port src (.advert target) else s

def execNeighbourSolicitation (port target : Nat) (src : NetAddr) (s : State) : Out :=
  onUnit 25 port s (solicitation port target src)

/-- ECHO_REQUEST (R386): a request that conditions 1 to 5 of R401 let through is answered. -/
def echoRequest (r : Rx) (payload : Bytes) (s : State) : State :=
  if !portOpen s r.port then s
  else
    let d := dropReason s { r with dstUdp := if r.port = 24 then getF s R.hstCtl_controlUdp else getF s R.prtCtl_tokenUdp }
    if d ≠ 0 then dropFrame s r d else reply s r.port r.src (.echoReply payload)

def execEchoRequest (rx : Rx) (payload : Bytes) (s : State) : Out := onUnit 25 rx.port s (echoRequest rx payload)

end Sys2Proof.Machine
end

