-- ==== Sys2Proof/Machine/Travel.lean ====
section
/-! DEFINITION. Machine/Travel.lean: homes, sources and key blocks, inbound queues, the frames a stall sends, and the checks and
the effect of each token frame a module receives (R291, R305 to R324, R328, R332, R420). -/
namespace Sys2Proof.Machine
open Sys2Proof

/-! ## Homes, sources and key blocks (R305 to R308, R328) -/

/-- PLACEMENT of the whole job. -/
def placements (s : State) : List Placement := (s.job.image.map (fun i => i.placement)).getD []

/-- The home table (R305). -/
def homeTable (s : State) : List HomeRec := (s.job.image.map (fun i => i.homes)).getD []

/-- The home of an expert. -/
def homeOf (s : State) (e : Nat) : Option HomeRec := (homeTable s).find? (fun h => h.expert == e)

/-- The experts of a layer, in layer order (R305). -/
def layerExperts (s : State) (l : Nat) : List HomeRec :=
  ((homeTable s).filter (fun h => h.layer == l)).mergeSort (fun a b => decide (a.expert ≤ b.expert))

/-- The ATTENTION record of a layer. -/
def attnOf (s : State) (l : Nat) : Option AttnRec := (s.job.image.bind (fun i => i.attention.find? (fun a => a.layer == l)))

/-- Stalls of a module that place a tensor of a layer, in ascending index. -/
def stallsPlacing (s : State) (m l t : Nat) : List Nat :=
  (distinct (((placements s).filter (fun x => x.module == m && x.layer == l && x.tensor == t)).map (fun x => x.stall))).mergeSort
    (fun a b => decide (a ≤ b))

/-- The source stalls of a layer on a module for a route kind: 0 experts, 1 key blocks (R307). -/
def sourcesFor (s : State) (m l kind : Nat) : List Nat :=
  if kind = 0 then (if (layerExperts s l).isEmpty then [] else stallsPlacing s m l 10)
  else (if (attnOf s l).isSome then stallsPlacing s m l 0 else [])

/-- All source stalls of a layer on a module. -/
def sources (s : State) (m l : Nat) : List Nat := distinct (sourcesFor s m l 0 ++ sourcesFor s m l 1)

/-- The number of modules of the job. -/
def modules (s : State) : Nat := (s.job.image.map (fun i => i.job.moduleCount)).getD 0

/-- The layers of the job. -/
def jobLayers (s : State) : Nat := (s.job.image.map (fun i => i.job.layers)).getD 0

/-- The intake stalls of a home (R306). -/
def intakeStalls (s : State) (h : HomeRec) : List Nat :=
  distinct (((placements s).filter (fun x => x.module == h.module && x.layer == h.layer && x.home == h.home
    && (x.tensor == 4 || x.tensor == 5))).map (fun x => x.stall))

/-- The stalls of a module that home key blocks of a layer: ks of R328. -/
def keyStalls (s : State) (a : AttnRec) (m : Nat) : List Nat := stallsPlacing s m a.layer 1

/-- Module and stall of a key block (R328). -/
def keyHome (s : State) (a : AttnRec) (j : Nat) : Option (Nat × Nat) :=
  let m := a.firstModule + j % max 1 a.moduleSpan
  let ks := keyStalls s a m
  if ks.isEmpty then none else ks[j / max 1 a.moduleSpan % ks.length]?.map (fun p => (m, p))

/-- Module and stall of a query block (R328). -/
def queryHome (s : State) (a : AttnRec) (i : Nat) : Option (Nat × Nat) :=
  let j := i * 2 ^ a.qLog2 / 2 ^ a.kLog2
  let m := a.firstModule + j % max 1 a.moduleSpan
  let qs := stallsPlacing s m a.layer 0
  if qs.isEmpty then none else qs[j / max 1 a.moduleSpan % qs.length]?.map (fun p => (m, p))

/-- A key block's local index on its stall (R320, R328). -/
def keyLocal (s : State) (a : AttnRec) (j : Nat) : Nat :=
  let m := a.firstModule + j % max 1 a.moduleSpan
  j / max 1 a.moduleSpan / max 1 (keyStalls s a m).length

/-- The key block of a local index on a stall. -/
def keyGlobal (s : State) (a : AttnRec) (m p b : Nat) : Nat :=
  let ks := keyStalls s a m
  let pos := (ks.findIdx? (fun x => x == p)).getD 0
  (b * max 1 ks.length + pos) * max 1 a.moduleSpan + (m - a.firstModule)

/-- The key blocks of a layer that a stall homes, of those a sequence of the job's greatest length has. -/
def keyCount (s : State) (a : AttnRec) (m p : Nat) : Nat :=
  let n := ceilDiv ((s.job.image.map (fun i => i.job.maxSeq)).getD 0) (2 ^ a.kLog2)
  countIf (List.range n) (fun j => keyHome s a j == some (m, p))

/-- A module holds key blocks of a layer. -/
def holdsKeys (s : State) (m l : Nat) : Bool :=
  match attnOf s l with
  | some a => decide (a.firstModule ≤ m) && decide (m < a.firstModule + a.moduleSpan) && !(keyStalls s a m).isEmpty
  | none => false

/-- A module holds homes or key blocks of a layer. -/
def serves (s : State) (m l : Nat) : Bool := (homeTable s).any (fun h => h.module == m && h.layer == l) || holdsKeys s m l

/-- The layers with a home or key block on this module. -/
def servedLayers (s : State) : List Nat := (List.range (jobLayers s)).filter (serves s (ownIndex s))

/-- Forward closes this module expects in a step (R323). -/
def expectedCloses (s : State) : Nat :=
  ((servedLayers s).map (fun l => ((List.range (modules s)).map (fun m => (sources s m l).length)).sum)).sum

/-- The capacity of an expert (R312). -/
def capacity (s : State) (e : Nat) : Nat :=
  (((s.job.image.bind (fun i => i.capacities.find? (fun c => c.1 == e))).map (fun c => c.2))).getD (getF s R.rteCtl_defaultCap)

/-- share (R312). -/
def share (c n i : Nat) : Nat := c / n + (if i < c % n then 1 else 0)
/-- start (R312). -/
def start (c n i : Nat) : Nat := i * (c / n) + min i (c % n)

/-- A source stall's region of an expert's slots: base and size (R312). -/
def region (s : State) (e l m p : Nat) : Nat × Nat :=
  let c := capacity s e
  let rs := sourcesFor s m l 0
  match rs.findIdx? (fun x => x == p) with
  | none => (0, 0)
  | some i =>
    let q := share c (max 1 (modules s)) m
    (start c (max 1 (modules s)) m + start q rs.length i, share q rs.length i)

/-! ## Inbound queues (R320, R322) -/

/-- A queue of a stall. -/
def queueOf (s : State) (ix : Nat) : Queue := tget Queue.none s.rte.queues ix

/-- Address of a queue's descriptor. -/
def queueDesc (ix : Nat) : Nat := 0x008FE0000000 + 32 * ix

/-- The fields of a descriptor. -/
def parseQueue (b : Bytes) : Queue :=
  { kind := fieldAt b 0 1, format := fieldAt b 1 1, segs := fieldAt b 2 1, pass := fieldAt b 3 1, layer := fieldAt b 4 2,
    homeOrNb := fieldAt b 6 2, slots := fieldAt b 8 4, rows := fieldAt b 12 4, base := fieldAt b 16 8,
    metaAddr := fieldAt b 24 8 }

/-- Bytes of a row with a trailer. -/
def rowBytes (q : Queue) (tr : Nat) : Nat := ceilDiv (q.segs * segBytes q.format + tr) 64 * 64

/-- Number of a slot among all. -/
def slotKey (ix slot : Nat) : Nat := ix * 2 ^ 32 + slot

/-- State of a slot. -/
def slotSt (s : State) (ix slot : Nat) : Nat := tget 0 s.rte.slots (slotKey ix slot)

/-- Set it. -/
def setSlotSt (s : State) (ix slot v : Nat) : State :=
  { s with rte := { s.rte with slots := tput 0 s.rte.slots (slotKey ix slot) v } }

/-- A slot is filled. -/
def slotFilled (s : State) (ix slot : Nat) : Bool := bit (slotSt s ix slot) 32

/-- A slot is filled or known-empty. -/
def slotDone (s : State) (ix slot : Nat) : Bool := decide (2 ^ 32 ≤ slotSt s ix slot)

/-- A queue's counter. -/
def counterOf (s : State) (ix : Nat) : Nat := getF s R.rteQueue_counter ix

/-- A counter rises by `n`, with requests to a paced channel (R322, R374). -/
def raiseCounter (s : State) (ix n : Nat) : State :=
  if n = 0 then s
  else queueRise (setF s R.rteQueue_counter ix (counterOf s ix + n)) (ix / 16) (ix % 16) n

/-- The slots done from a place on. -/
def donePrefix (s : State) (ix : Nat) : Nat → Nat → Nat
  | 0, _ => 0
  | n + 1, k => if slotDone s ix k then 1 + donePrefix s ix n (k + 1) else 0

/-- The counter of a prefix follows its slots (R322). -/
def stepPrefix (s : State) (ix : Nat) : State :=
  let c := counterOf s ix
  raiseCounter s ix (donePrefix s ix ((queueOf s ix).slots - c) c)

/-- Queues of a stall. -/
def queuesOf (s : State) (p : Nat) : List (Nat × Queue) :=
  (List.range 16).map (fun q => (queueIx p q, queueOf s (queueIx p q)))

/-- The filled slots of a queue. -/
def filledSlots (s : State) (ix : Nat) : List Nat :=
  (s.rte.slots.filter (fun x => x.1 / 2 ^ 32 == ix && bit x.2 32)).map (fun x => x.1 % 2 ^ 32)

/-- The homes a stall of this module carries, ascending. -/
def homesOn (s : State) (p : Nat) : List Nat :=
  (homesOnStall (placements s) (ownIndex s) p).mergeSort (fun a b => decide (a ≤ b))

/-- The home record of a home index of this module. -/
def homeHere (s : State) (h : Nat) : Option HomeRec := (homeTable s).find? (fun r => r.module == ownIndex s && r.home == h)

/-- The pass a stall's counts are of: 0 forward, 1 backward. -/
def nowPass (s : State) : Nat := if inBackward s then 1 else 0

/-- The intake queues a stall works from: those of its homes' entry stalls, and its own query intakes, each with its place
among the stall's homes and key-block intakes. -/
def intakesOf (s : State) (p : Nat) : List (Nat × Nat × Queue) :=
  let hs := homesOn s p
  let homes := (hs.mapIdx (fun i h => (i, h))).flatMap (fun x =>
    match homeHere s x.2 with
    | some r => ((queuesOf s r.entryStall).filter (fun q => q.2.kind == 1 && q.2.homeOrNb == x.2)).map
        (fun q => (x.1, q.1, q.2))
    | none => [])
  let keys := ((queuesOf s p).filter (fun q => q.2.kind == 3)).map (fun q =>
    let ls := distinct (((queuesOf s p).filter (fun r => r.2.kind == 3 && decide (r.2.layer < q.2.layer))).map (fun r => r.2.layer))
    (hs.length + ls.length, q.1, q.2))
  homes ++ keys

/-- A stall's routed token count for a layer in the present pass (R324). -/
def routedCount (s : State) (p l : Nat) : Nat :=
  (((intakesOf s p).filter (fun x => x.2.2.layer == l && x.2.2.pass == nowPass s)).map
    (fun x => (filledSlots s x.2.1).length)).sum

/-- RTE.HOMES of the stalls that work from a queue count one more slot (R324). -/
def bumpHomes (s : State) (ix : Nat) : State :=
  let q := queueOf s ix
  if q.pass ≠ nowPass s then s
  else
    let ps := if q.kind = 1 then
        (List.range 512).filter (fun p => (homesOn s p).contains q.homeOrNb)
      else [ix / 16]
    forEach ps (fun s p =>
      match (intakesOf s p).find? (fun x => x.2.1 == ix) with
      | some (0, _) => bumpF s R.rteHomes_count0 p 1
      | some (1, _) => bumpF s R.rteHomes_count1 p 1
      | some (2, _) => bumpF s R.rteHomes_count2 p 1
      | some (3, _) => bumpF s R.rteHomes_count3 p 1
      | _ => s) s

/-- A slot is filled. -/
def fillSlot (s : State) (ix slot : Nat) : State :=
  bumpHomes (setSlotSt s ix slot (slotSt s ix slot % 2 ^ 32 + 2 ^ 32)) ix

/-- A slot's metadata (R320). -/
def metaBytes (row ordinal posRank ret srcModule srcStall retQueue flags : Nat) : Bytes :=
  leBytes 4 row ++ leBytes 4 ordinal ++ leBytes 4 posRank ++ leBytes 4 ret ++ leBytes 2 srcModule ++ leBytes 2 srcStall
    ++ leBytes 1 retQueue ++ leBytes 1 flags ++ leBytes 10 0

/-- A slot becomes known-empty: zero bytes in an expert-intake row (R321). -/
def emptySlot (s : State) (ix slot : Nat) : State :=
  if slotDone s ix slot then s
  else
    let q := queueOf s ix
    let s := setSlotSt s ix slot (slotSt s ix slot % 2 ^ 32 + 2 ^ 33)
    let s := write s (q.metaAddr + 32 * slot) (metaBytes 0 0 0 0 0 0 0 2)
    if q.kind = 1 then zero s (q.base + slot * rowBytes q 0) (rowBytes q 0) else s

/-! ## Frames out (R317, R318, R420) -/

/-- Bytes of a payload segment by format; none without a payload. -/
def paySeg (fmt : Nat) : Nat := if fmt = 0 then 0 else segBytes fmt

/-- Bytes of a token's trailer (R317). -/
def trailerOf (kind flags : Nat) : Nat :=
  if kind = 6 ∧ bit flags 0 then 12 else if kind = 7 ∧ !bit flags 0 then 8 else 0

/-- body_len of R317. -/
def bodyLen (kind flags fmt tokens segs : Nat) : Nat :=
  64 + tokens * (16 + segs * paySeg fmt + trailerOf kind flags)

/-- The 64-byte header with a brand. -/
def tokHeader (f : TokFrame) : Bytes :=
  leBytes 2 f.magic ++ leBytes 1 f.version ++ leBytes 1 f.kind ++ leBytes 1 f.flags ++ leBytes 1 f.format
    ++ leBytes 2 f.layer ++ leBytes 8 f.planTag ++ leBytes 8 f.step ++ leBytes 2 f.srcModule ++ leBytes 2 f.dstModule
    ++ leBytes 2 f.srcStall ++ leBytes 2 f.dstStall ++ leBytes 4 f.target ++ leBytes 2 f.tokenCount ++ leBytes 1 f.segFirst
    ++ leBytes 1 f.segCount ++ leBytes 4 f.frameSeq ++ leBytes 4 f.bodyLen ++ leBytes 8 f.brand ++ leBytes 1 f.queue
    ++ leBytes 1 f.returnQueue ++ leBytes 6 f.zero

/-- The token table. -/
def tableBytes (l : List TokEntry) : Bytes :=
  l.flatMap (fun e => leBytes 4 e.ordinal ++ leBytes 4 e.posRank ++ leBytes 4 e.w8 ++ leBytes 4 e.wC)

/-- The brand of a frame (R420). -/
def frameBrand (f : TokFrame) : Nat :=
  let h := tokHeader f
  let rest := tableBytes f.table ++ f.payload
  crc32c (h.take 0x30 ++ h.drop 0x38) + (if rest.isEmpty then 0 else crc32c rest) * 2 ^ 32

/-- A frame's count at its source stall (R317). -/
def nextSeq (s : State) (p : Nat) : Nat := tget 0 s.rte.frameSeq p

/-- Send a token frame of a stall: its sequence number, step, tag, length and brand are filled in here. -/
def emit (s : State) (p : Nat) (f : TokFrame) : State :=
  let n := nextSeq s p
  let f := { f with magic := 0x4654, version := 1, planTag := getF s R.gtePlan_planTag, step := stepNo s,
                    srcModule := ownIndex s, srcStall := p, tokenCount := f.table.length, frameSeq := n,
                    bodyLen := bodyLen f.kind f.flags f.format f.table.length f.segCount, brand := 0, zero := 0, rx := none }
  let f := if onF s R.brdCtl_brandEn then { f with brand := frameBrand f } else f
  sendToken { s with rte := { s.rte with frameSeq := tput 0 s.rte.frameSeq p ((n + 1) % 2 ^ 32) } } f

/-- A frame with nothing in it yet. -/
def blankFrame (kind pass layer dstModule dstStall target queue : Nat) : TokFrame :=
  { magic := 0x4654, version := 1, kind := kind, flags := pass, format := 0, layer := layer, planTag := 0, step := 0,
    srcModule := 0, dstModule := dstModule, srcStall := 0, dstStall := dstStall, target := target, tokenCount := 0,
    segFirst := 0, segCount := 0, frameSeq := 0, bodyLen := 0, brand := 0, queue := queue, returnQueue := 0, zero := 0,
    table := [], payload := [], rx := none }

/-! ## The checks (R319) -/

/-- The zero bits of a token-table entry (R318). -/
def entryZeros (kind : Nat) (e : TokEntry) : Bool :=
  bits e.posRank 31 28 == 0 && (if kind = 2 ∨ kind = 7 then e.wC == 0 else if kind = 5 then e.w8 == 0 && e.wC == 0 else true)

/-- Check 1: form. -/
def tokForm (f : TokFrame) : Bool :=
  f.magic == 0x4654 && f.version == 1 && decide (1 ≤ f.kind) && decide (f.kind ≤ 8) && decide (f.flags < 8) && f.zero == 0
    && f.step / 2 ^ 40 == 0 && (f.kind != 3 || f.target == 0)
    && (f.kind == 8 || (decide (f.format ≤ 5) && (f.format == 0) == f.payload.isEmpty))
    && f.table.all (entryZeros f.kind) && f.table.length == f.tokenCount
    && f.bodyLen == bodyLen f.kind f.flags (if f.kind = 8 then 0 else f.format) f.tokenCount f.segCount
    && f.bodyLen == 64 + 16 * f.table.length + f.payload.length
    && (match f.rx with
        | some r => r.udpLen == f.bodyLen
        | none => true)

/-- The queue kind that suits a frame kind (R319). -/
def suitedKind : Nat → Option Nat
  | 1 => some 1 | 2 => some 2 | 5 => some 4 | 6 => some 3 | 7 => some 2 | _ => none

/-- An expert's home enters at a stall of this module. -/
def expertAt (s : State) (e p : Nat) : Bool :=
  (homeOf s e).any (fun h => h.module == ownIndex s && h.entryStall == p)

/-- A key block of a layer lies on a stall of this module. -/
def keyAt (s : State) (l j p : Nat) : Bool :=
  (attnOf s l).any (fun a => keyHome s a j == some (ownIndex s, p))

/-- The queue a frame names. -/
def frameQueue (f : TokFrame) : Nat := queueIx f.dstStall f.queue

/-- Check 4: the frame's target is here. -/
def tokPlace (s : State) (f : TokFrame) : Bool :=
  f.dstModule == ownIndex s
    && (match suitedKind f.kind with
        | some k => decide (f.dstStall < 512) && decide (f.queue < 16) && (queueOf s (frameQueue f)).kind == k
        | none => true)
    && (match f.kind with
        | 1 => expertAt s f.target f.dstStall
        | 4 => expertAt s f.target f.dstStall || keyAt s f.layer f.target f.dstStall
        | 6 => keyAt s f.layer f.target f.dstStall
        | 8 => decide (f.dstStall < 512)
        | _ => true)

/-- The slot a table entry names. -/
def entrySlot (kind : Nat) (e : TokEntry) : Nat := if kind = 5 then e.ordinal else e.w8

/-- Check 5: ranges. -/
def tokRange (s : State) (f : TokFrame) : Bool :=
  decide (f.bodyLen ≤ 8960) && f.table.all (fun e => decide (bits e.posRank 23 0 < 2 ^ 23))
    && ((suitedKind f.kind).isNone || f.table.all (fun e => decide (entrySlot f.kind e < (queueOf s (frameQueue f)).slots)))

/-- The data row of a query row that has one (R320). -/
def queryRow (s : State) (ix slot pos : Nat) : Option Nat :=
  (s.rte.qrows.find? (fun x => x.1 == slotKey ix slot && x.2.1 == pos)).map (fun x => x.2.2)

/-- Check 6: the data rows a QUERY frame takes. -/
def tokRows (s : State) (f : TokFrame) : Bool :=
  let ix := frameQueue f
  f.kind != 6 ||
    decide (tget 0 s.rte.rowsUsed ix
      + countIf f.table (fun e => (queryRow s ix e.w8 (bits e.posRank 23 0)).isNone) ≤ (queueOf s ix).rows)

/-- A frame refused (R319): counted, event 0x8002, and a REFUSE where the check calls for one. -/
def refuseTok (s : State) (f : TokFrame) (status : Nat) (send : Bool) : State :=
  let s := raise s 0x8002 cPkg (status * 2 ^ 24 + f.kind % 256 * 2 ^ 16 + f.srcModule % 2 ^ 16) f.frameSeq
  if send then
    emit s f.dstStall { blankFrame 8 (f.flags % 2) f.layer f.srcModule f.srcStall f.frameSeq 0 with format := status }
  else s

/-- Checks 4 to 7: the state after a refusal, or nothing where all pass (DEDUCED, assumption 88). -/
def tokChecks (s : State) (f : TokFrame) : Option State :=
  if !tokPlace s f then some (refuseTok (bumpF s R.rteRefused_absentQuota 0 1) f 8 true)
  else if !tokRange s f then some (refuseTok (bumpF s R.rteRefused_range 0 1) f 3 true)
  else if !tokRows s f then some (refuseTok (bumpF s R.rteRefused_absentQuota 0 1) f 9 true)
  else if onF s R.brdCtl_brandEn && f.brand != frameBrand { f with brand := 0 } then
    let s := raise (bumpF s R.brdCount2_frameBrand 0 1) 0xC003 cPkg (f.srcModule * 2 ^ 16 + f.srcStall) f.frameSeq
    some (refuseTok s f 7 true)
  else none

/-! ## What a frame does -/

/-- The payload bytes of a frame's token `i`: its segments and its trailer. -/
def tokenBytes (f : TokFrame) (i : Nat) : Bytes × Bytes :=
  let n := f.segCount * paySeg f.format
  let tr := trailerOf f.kind f.flags
  let at_ := i * (n + tr)
  (slice f.payload at_ n, slice f.payload (at_ + n) tr)

/-- Write a token's segments and trailer into a row. -/
def putRow (s : State) (f : TokFrame) (q : Queue) (row : Nat) (i : Nat) : State :=
  let b := tokenBytes f i
  let tr := trailerOf f.kind f.flags
  let base := q.base + row * rowBytes q tr
  let s := write s (base + f.segFirst * segBytes q.format) b.1
  if tr = 0 then s else write s (base + q.segs * segBytes q.format) b.2

/-- The spans of metadata and trailers that a frame's tokens write. -/
def frameSpans (s : State) (f : TokFrame) : List (Nat × Nat) :=
  let ix := frameQueue f
  let q := queueOf s ix
  let tr := trailerOf f.kind f.flags
  let known := fun (e : TokEntry) => queryRow s ix e.w8 (bits e.posRank 23 0)
  (f.table.mapIdx (fun i e => (i, e))).flatMap (fun x =>
    let e := x.2
    let new := tget 0 s.rte.rowsUsed ix + countIf (f.table.take x.1) (fun y => (known y).isNone)
    let row := if f.kind = 6 then (known e).getD new else entrySlot f.kind e
    (if f.kind = 1 ∨ f.kind = 6 then [(q.metaAddr + 32 * e.w8, 32)] else [])
      ++ (if tr = 0 ∨ (suitedKind f.kind).isNone then []
          else [(q.base + row * rowBytes q tr + q.segs * segBytes q.format, tr)]))

/-- The home cuts a choice (R316): known-empty slot, event 0x8005, and a RETURN with the cut flag. The further frames of a
choice whose segments come in several are part of the same cut. -/
def homeCut (s : State) (f : TokFrame) (ix : Nat) (e : TokEntry) : State :=
  if slotDone s ix e.w8 then s else
  let n := tget 0 s.rte.cuts f.target + 1
  let s := emptySlot { s with rte := { s.rte with cuts := tput 0 s.rte.cuts f.target n } } ix e.w8
  let s := raiseOnce s 0x8005 f.layer (cStall f.dstStall) f.target n
  emit s f.dstStall { blankFrame 2 (f.flags % 2 + 4) f.layer f.srcModule f.srcStall f.target f.returnQueue with
    table := [{ ordinal := e.ordinal, posRank := e.posRank, w8 := e.wC, wC := 0 }] }

/-- One token of a DISPATCH frame (R316, R320, R322). -/
def dispatchTok (f : TokFrame) (s : State) (x : Nat × TokEntry) : State :=
  let ix := frameQueue f
  let q := queueOf s ix
  let e := x.2
  if capacity s f.target ≤ e.w8 then homeCut s f ix e
  else
    let got := slotSt s ix e.w8 % 2 ^ 32 + f.segCount
    let full := decide (q.segs ≤ got)
    let s := putRow s f q e.w8 x.1
    let s := write s (q.metaAddr + 32 * e.w8)
      (metaBytes e.w8 e.ordinal e.posRank e.wC f.srcModule f.srcStall f.returnQueue (b2n full))
    let s := setSlotSt s ix e.w8 (slotSt s ix e.w8 / 2 ^ 32 * 2 ^ 32 + got)
    if full && !slotFilled s ix e.w8 then fillSlot s ix e.w8 else s

/-- Take a data row of a query intake. -/
def takeRow (s : State) (ix slot pos : Nat) : State × Nat :=
  match queryRow s ix slot pos with
  | some r => (s, r)
  | none =>
    let r := tget 0 s.rte.rowsUsed ix
    ({ s with rte := { s.rte with qrows := (slotKey ix slot, pos, r) :: s.rte.qrows,
                                  rowsUsed := tput 0 s.rte.rowsUsed ix (r + 1) } }, r)

/-- One query row of a QUERY frame (R320, R330): its slot is filled with the segments of its last row. -/
def queryTok (f : TokFrame) (s : State) (x : Nat × TokEntry) : State :=
  let ix := frameQueue f
  let q := queueOf s ix
  let e := x.2
  let first := slotSt s ix e.w8 % 2 ^ 32 == 0
  let qb := ((attnOf s f.layer).map (fun a => 2 ^ a.qLog2)).getD 1
  let t := takeRow s ix e.w8 (bits e.posRank 23 0)
  let s := putRow t.1 f q t.2 x.1
  let got := slotSt s ix e.w8 % 2 ^ 32 + f.segCount
  let full := decide (q.segs * qb ≤ got)
  let s := if first then
      write s (q.metaAddr + 32 * e.w8)
        (metaBytes t.2 e.ordinal e.posRank e.wC f.srcModule f.srcStall f.returnQueue (b2n full))
    else if full then write s (q.metaAddr + 32 * e.w8 + 0x15) [1] else s
  let s := setSlotSt s ix e.w8 (slotSt s ix e.w8 / 2 ^ 32 * 2 ^ 32 + got)
  if full && !slotFilled s ix e.w8 then fillSlot s ix e.w8 else s

/-- A choice came back cut (R316). -/
def noteCut (s : State) (ix slot : Nat) : State :=
  if s.rte.cutEntries.any (fun c => c.queue == ix && c.slot == slot) then
    { s with rte := { s.rte with cutEntries := s.rte.cutEntries.map (fun c =>
        if c.queue = ix ∧ c.slot = slot ∧ c.st = 1 then { c with st := 2 } else c) } }
  else { s with rte := { s.rte with cutEntries := s.rte.cutEntries ++ [{ queue := ix, slot := slot, st := 0 }] } }

/-- One token of a RETURN or PARTIAL frame (R316, R322). -/
def returnTok (f : TokFrame) (s : State) (x : Nat × TokEntry) : State :=
  let ix := frameQueue f
  let q := queueOf s ix
  if f.kind = 2 ∧ bit f.flags 2 then
    let s := { s with rte := { s.rte with cutBack := tput 0 s.rte.cutBack f.target (tget 0 s.rte.cutBack f.target + 1) } }
    raiseCounter (noteCut s ix x.2.w8) ix q.segs
  else raiseCounter (putRow s f q x.2.w8 x.1) ix f.segCount

/-- One summary of a SUMMARY frame (R322, R329). -/
def summaryTok (f : TokFrame) (s : State) (x : Nat × TokEntry) : State :=
  let ix := frameQueue f
  let q := queueOf s ix
  let j := x.2.ordinal
  let got := slotSt s ix j % 2 ^ 32 + f.segCount
  let s := putRow s f q j x.1
  setSlotSt s ix j (got + (if q.segs ≤ got then 2 ^ 32 else 0))

/-! ## Idle stalls and the forward barrier (R290, R291) -/

/-- The stalls of this module that the image binds to a program. -/
def boundStalls (s : State) : List Nat :=
  (((s.job.image.map (fun i => i.bindings)).getD []).filter (fun b => b.1 == ownIndex s)).map (fun b => b.2.1)

/-- A stall owns a block with contributors on other stalls. -/
def ownsOthers (s : State) (p : Nat) : Bool :=
  (placedOn s p).any (fun x => x.ownerStall == p && x.sumOrder == 0
    && (contributors (placements s) x).any (fun y => y.stall != p))

/-- A stall sleeps with nothing asked of it: not started, resting, no wake request, frame or tile operation pending. -/
def untouched (s : State) (p : Nat) : Bool :=
  let t := getStall s p
  !t.started && isResting t && !t.granted && !s.gov.waitq.any (fun q => q.stall == p) && t.ops.isEmpty
    && !s.rte.late.any (fun x => x.1 == p) && !s.rte.mesh.any (fun f => f.frame.dstStall == p)
    && !s.rte.held.any (fun f => f.dstStall == p)

/-- The conditions under which a bound stall is idle in the forward pass (R291). -/
def idleNow (s : State) (p : Nat) : Bool := untouched s p && onF s R.rteClose_dispatchClosed && !ownsOthers s p

/-- A bound stall is idle: as it stood when backward began, or by R291's conditions while forward runs. -/
def isIdle (s : State) (p : Nat) : Bool :=
  onF s R.genStall_idle p || (getF s R.genPass_pass == 1 && isBound s p && idleNow s p)

/-- A bound stall has arrived at the forward barrier. An owner that is not idle only for R291's exception counts as arrived
too: it is woken when backward begins. -/
def arrivedNow (s : State) (p : Nat) : Bool :=
  onF s R.genStall_atFwdEnd p || onF s R.genStall_idle p || decide (2 ≤ getF s R.genStall_pass p)
    || (untouched s p && onF s R.rteClose_dispatchClosed)

/-- Remember the first arrival of the step (R290). -/
def noteArrival (s : State) : State :=
  if s.job.firstArrival.isSome || getF s R.genPass_pass != 1 || !(boundStalls s).any (arrivedNow s) then s
  else { s with job := { s.job with firstArrival := some s.now } }

/-! ## Closes (R321, R323, R335) -/

/-- Dispatch-closed as the closes give it (R323). -/
def showClosed (s : State) : State :=
  setF s R.rteClose_dispatchClosed 0 (b2n (decide (getF s R.rteClose_expected ≤ getF s R.rteClose_received)))

/-- The slots of a close's region in a queue (R312, R321). -/
def regionSlots (s : State) (c : CloseRec) (q : Queue) : List Nat :=
  if q.pass ≠ c.pass ∨ q.layer ≠ c.layer then []
  else if q.kind = 1 then
    match homeHere s q.homeOrNb with
    | some h =>
      let r := region s h.expert c.layer c.module c.stall
      (rangeFrom r.1 r.2).filter (fun k => decide (k < q.slots))
    | none => []
  else if q.kind = 3 then
    match attnOf s c.layer with
    | some a => (List.range q.slots).filter (fun k => queryHome s a (k / max 1 q.homeOrNb) == some (c.module, c.stall))
    | none => []
  else []

/-- The unfilled slots of a closed region become known-empty, and the counters follow. -/
def emptyRegion (s : State) (c : CloseRec) : State :=
  forEach ((List.range 8192).filter (fun ix => !(regionSlots s c (queueOf s ix)).isEmpty))
    (fun s ix => stepPrefix (forEach (regionSlots s c (queueOf s ix)) (fun s k => emptySlot s ix k) s) ix) s

/-- A source's close of a layer arrives. -/
def takeClose (s : State) (pass layer module stall : Nat) : State :=
  let c : CloseRec := ⟨pass, layer, module, stall⟩
  if s.rte.closes.contains c || !(sources s module layer).contains stall then s
  else
    let s := { s with rte := { s.rte with closes := s.rte.closes ++ [c] } }
    let s := if pass = 0 ∧ (servedLayers s).contains layer then
        let s := { s with rte := { s.rte with firstClose := s.rte.firstClose <|> some s.now } }
        noteArrival (showClosed (bumpF s R.rteClose_received 0 1))
      else s
    emptyRegion s c

/-- Every source has closed a layer in a pass. -/
def allClosed (s : State) (pass layer : Nat) : Bool :=
  (List.range (modules s)).all (fun m => (sources s m layer).all (fun p => s.rte.closes.contains ⟨pass, layer, m, p⟩))

/-! ## Wake-ahead at a home -/

/-- Wake requests for a home's intake stalls, or a key block's stall (R332). -/
def wakeHome (s : State) (e : Nat) : State :=
  match homeOf s e with
  | some h => forEach (intakeStalls s h) (fun s p => requestWake s p .ahead false) s
  | none => s

end Sys2Proof.Machine
end

