-- ==== Sys2Proof/Machine/Experts.lean ====
section
/-! DEFINITION. Machine/Experts.lean: the routing unit's instructions ROUTE, DISPATCH, COMBINE and WAKE (R309 to R316, R325 to
R332). -/
namespace Sys2Proof.Machine
open Sys2Proof

/-! ## Descriptors -/

/-- The 64-byte descriptor of a routing instruction at Pa[22:0]: its bytes, or a stop. -/
def withDesc (s : State) (p w : Nat) (run : State → Bytes → State) : State :=
  let off := preg s p (bits w 55 52) % 2 ^ 23
  if off % 64 ≠ 0 ∨ !inStore off 64 then faultIns s p w 3 off
  else match storeRead s p w 4 off 64 with
    | (s, some b) => run s b
    | (s, none) => s

/-- A fault, if any, ends the instruction; else it runs. -/
def faultOr (s : State) (p w : Nat) (f : Option (Nat × Nat)) (run : State → State) : State :=
  match f with
  | some (st, d) => faultIns s p w st d
  | none => run s

/-- The first condition that holds gives the status and the detail. -/
def firstFault : List (Bool × Nat × Nat) → Option (Nat × Nat)
  | [] => none
  | (c, st, d) :: r => if c then some (st, d) else firstFault r

/-- FREE VALUE. A field of `w` bits of a route-list entry that the manual gives no value; `tag` tells the fields of an entry
apart (DESIGN CHOICE, assumption 84). -/
def freeField (s : State) (k tag w : Nat) : Nat := Config.freeNat (s.draws + k) tag % 2 ^ w

/-- FREE VALUE. stands_for, module and gate of an entry where the manual gives them none. -/
def freeStandsFor (s : State) (k : Nat) : Nat := freeField s k 311 8
def freeModule (s : State) (k : Nat) : Nat := freeField s k 312 16
def freeGate (s : State) (k : Nat) : F32 := BitVec.ofNat 32 (freeField s k 313 32)

/-- Positions of 2^23 or more are refused (R14). -/
def positionBad (n : Nat) : Bool := decide (2 ^ 23 ≤ n)

/-- A u32 of a list in the store. -/
def storeU32 (s : State) (p off i : Nat) : Nat := readNat s (storeBase p + off + 4 * i) 4

/-- A read of a gradient engine: the brand check and, in the loft, the check bits (R341). -/
def geRead (s : State) (p a n : Nat) : State × Bool :=
  let r := checkBrands s 4 (cStall p) a n
  let l := loftRead r.1 a n
  (l.1, r.2 && l.2)

/-- Reads of several spans. -/
def geReads (s : State) (p : Nat) (l : List (Nat × Nat)) : State × Bool :=
  l.foldl (fun x y =>
    let r := geRead x.1 p y.1 y.2
    (r.1, x.2 && r.2)) (s, true)

/-- Why a gradient engine may not reach a span: RANGE, or ABSENT at an odd loft channel in half population (R339). -/
def geFault (s : State) (a n : Nat) : Option (Nat × Nat) :=
  if n = 0 then none
  else if !addressable s a n then some (3, a % 2 ^ 32)
  else if reachesAbsent s a n then some (8, a % 2 ^ 32)
  else none

/-- The same for a span it writes: the loft takes writes only in READY, HARNESSED and HALTED (R340). -/
def geWriteFault (s : State) (a n : Nat) : Option (Nat × Nat) :=
  geFault s a n <|> if n ≠ 0 ∧ rangeOf a = some 1 ∧ !loftOpen s then some (2, a % 2 ^ 32) else none

/-! ## Arithmetic that traps (R269, R281) -/

/-- A value an operation of R281 consumes or produces: a NaN or an infinity traps. -/
def checked (a : F32) : Except BadVal F32 := if ffinite a then .ok a else .error ⟨badKind32 a, a.toNat, 0⟩

/-- The same for the lanes of a row. -/
def checkedRow (l : List F32) : Except BadVal (List F32) :=
  match firstBad 0 l with
  | some v => .error v
  | none => .ok l

/-- EXP of a value. -/
def checkedExp (a : F32) : Except BadVal F32 := (checked a).bind (fun a => checked (fexp a))

/-- RECIP of a value. -/
def checkedRecip (a : F32) : Except BadVal F32 := (checked a).bind (fun a => checked (fdiv oneCode a))

/-- A sum of computed terms in the order of a list. -/
def checkedSum (term : F32 → Except BadVal F32) (l : List F32) : Except BadVal F32 :=
  l.foldl (fun t x => t.bind (fun t => (term x).bind (fun y => checked (fadd t y)))) (.ok 0)

/-! ## ROUTE (R309 to R314, R330) -/

/-- A ROUTE descriptor. -/
structure RouteDesc where
  kind : Nat
  gateFn : Nat
  k : Nat
  spill : Nat
  layer : Nat
  n : Nat
  width : Nat
  scores : Nat
  stride : Nat
  pos : Nat
  out : Nat
  firstBlock : Nat
  deriving DecidableEq, Repr

/-- Its fields (R309). -/
def parseRoute (b : Bytes) : RouteDesc :=
  { kind := fieldAt b 0 1, gateFn := fieldAt b 1 1, k := fieldAt b 2 1, spill := fieldAt b 3 1, layer := fieldAt b 4 2,
    n := fieldAt b 8 4, width := fieldAt b 12 4, scores := fieldAt b 16 4, stride := fieldAt b 20 4,
    pos := fieldAt b 24 4, out := fieldAt b 28 4, firstBlock := fieldAt b 32 4 }

/-- What a ROUTE descriptor breaks (R309). -/
def routeFault (s : State) (p : Nat) (b : Bytes) (d : RouteDesc) : Option (Nat × Nat) :=
  let topK := (s.job.image.map (fun i => i.job.topK)).getD 0
  firstFault
    [(decide (1 < d.kind), 4, d.kind), (!zeroAt b 6 2 || !zeroAt b 0x24 28, 4, 0),
     (d.kind == 0 && (decide (3 < d.gateFn) || d.pos != 0 || d.firstBlock != 0), 4, d.gateFn),
     (d.kind == 1 && (d.gateFn != 0 || d.spill != 0), 4, d.gateFn),
     (!(sourcesFor s (ownIndex s) d.layer d.kind).contains p, 8, d.layer),
     (d.kind == 0 && (d.k == 0 || decide (topK < d.k)), 3, d.k),
     (d.kind == 1 && (attnOf s d.layer).all (fun a => a.topKb != d.k), 3, d.k),
     (decide (4 < d.spill), 3, d.spill), (d.n == 0 || decide (65535 < d.n), 3, d.n),
     (d.kind == 0 && d.width != (layerExperts s d.layer).length, 3, d.width),
     (d.kind == 1 && (d.width == 0 || decide (131072 < d.width)), 3, d.width),
     (d.stride % 64 != 0, 3, d.stride), (!inStore d.scores (d.stride * (d.n - 1) + 4 * d.width), 3, d.scores),
     (d.kind == 1 && !inStore d.pos (8 * d.n), 3, d.pos), (!inStore d.out (16 * (d.k + d.spill) * d.n), 3, d.out)]

/-- An entry of a route list (R311). -/
structure RouteEntry where
  target : Nat
  module : Nat
  flags : Nat
  standsFor : Nat
  slot : Nat
  gate : F32
  deriving DecidableEq, Repr

/-- An entry's bytes. -/
def entryBytes (e : RouteEntry) : Bytes :=
  leBytes 4 e.target ++ leBytes 2 e.module ++ leBytes 1 e.flags ++ leBytes 1 e.standsFor ++ leBytes 4 e.slot
    ++ leBytes 4 e.gate.toNat

/-- The fields of an entry's bytes. -/
def parseEntry (b : Bytes) : RouteEntry :=
  ⟨fieldAt b 0 4, fieldAt b 4 2, fieldAt b 6 1, fieldAt b 7 1, fieldAt b 8 4, BitVec.ofNat 32 (fieldAt b 12 4)⟩

/-- What stands for no target and no slot. -/
def noneCode : Nat := 0xFFFFFFFF

/-- Scores in descending order, the lower index first among equals, with their columns (R310). -/
def ranked (l : List F32) : List (Nat × F32) :=
  (l.mapIdx (fun i a => (i, a))).mergeSort (fun a b => !fgt b.2 a.2)

/-- σ(s) (R310). -/
def sigmoid (a : F32) : Except BadVal F32 :=
  (checkedExp (fopp a)).bind (fun e => (checked (fadd oneCode e)).bind checkedRecip)

/-- A term times the reciprocal of a sum. -/
def shareOf (x z : Except BadVal F32) : Except BadVal F32 :=
  x.bind (fun x => (z.bind checkedRecip).bind (fun i => checked (fmul x i)))

/-- The gate of a score of a row by the gate function, given the ranking (R310), or the value that traps. -/
def gateOf (fn k : Nat) (row : List F32) (r : List (Nat × F32)) (a : F32) : Except BadVal F32 :=
  let top := (r.take k).map (fun x => x.2)
  let m := (r.head?.map (fun x => x.2)).getD 0
  let term := fun (x : F32) => checkedExp (fsub x m)
  match fn with
  | 0 => shareOf (term a) (checkedSum term row)
  | 1 => shareOf (term a) (checkedSum term top)
  | 2 => shareOf (sigmoid a) (checkedSum sigmoid top)
  | _ => sigmoid a

/-- Choices a stall has admitted to an expert in the step. -/
def admittedTo (s : State) (p e : Nat) : Nat := tget 0 s.rte.admitted (p * 65536 + e)

/-- A stall's region of an expert still has room. -/
def slotRoom (s : State) (p l e : Nat) : Bool := decide (admittedTo s p e < (region s e l (ownIndex s) p).2)

/-- Admit a choice: its slot, and the counts (R313, R314). -/
def seatToken (s : State) (p l e : Nat) : State × Nat :=
  let j := admittedTo s p e
  let slot := (region s e l (ownIndex s) p).1 + j
  let s := { s with rte := { s.rte with admitted := tput 0 s.rte.admitted (p * 65536 + e) (j + 1) } }
  (bumpF s R.rteStep_dispatched 0 1, slot)

/-- The first spare of a token's entries that has room and is not admitted for that token (R313): its rank. -/
def pickSpare (s : State) (p l k : Nat) (es : List RouteEntry) : Option Nat :=
  (rangeFrom k (es.length - k)).find? (fun r =>
    match es[r]? with
    | some e => e.target != noneCode && !bit e.flags 0 && !es.any (fun x => x.target == e.target && bit x.flags 0)
        && slotRoom s p l e.target
    | none => false)

/-- A cut choice `r` of a token takes a spare, or is dropped (R313, R316). -/
def useSpare (s : State) (p l k r : Nat) (stands : Nat) (gate : F32) (es : List RouteEntry) : State × List RouteEntry × Option Nat :=
  match pickSpare s p l k es with
  | some q =>
    match es[q]? with
    | some e =>
      let x := seatToken s p l e.target
      let e := { e with flags := e.flags % 256 ||| 3, standsFor := stands, slot := x.2, gate := gate }
      (bumpF x.1 R.rteStep_rerouted 0 1, es.set q e, some q)
    | none => (s, es, none)
  | none =>
    match es[r]? with
    | some e => (bumpF s R.rteStep_dropped 0 1, es.set r { e with flags := e.flags ||| 16 }, none)
    | none => (s, es, none)

/-- Admit a token's primary choices in ascending rank (R313). -/
def admitToken (p l k : Nat) : List Nat → State × List RouteEntry → State × List RouteEntry
  | [], x => x
  | r :: rs, (s, es) =>
    match es[r]? with
    | none => (s, es)
    | some e =>
      if e.target = noneCode then admitToken p l k rs (s, es)
      else if slotRoom s p l e.target then
        let x := seatToken s p l e.target
        admitToken p l k rs (x.1, es.set r { e with flags := e.flags ||| 1, slot := x.2 })
      else
        let x := useSpare s p l k r r e.gate es
        admitToken p l k rs (x.1, x.2.1)

/-- A token's entries before admission: ranks, targets, gates (R310, R311). Entry bytes with no stated value are free. -/
def expertEntries (s : State) (d : RouteDesc) (row : List F32) (base : Nat) : List RouteEntry :=
  let r := ranked row
  let es := layerExperts s d.layer
  (List.range (d.k + d.spill)).map (fun i =>
    match r[i]? with
    | some (c, a) =>
      match es[c]? with
      | some h => ⟨h.expert, h.module, if i < d.k then 0 else 8, if i < d.k then i else freeStandsFor s (base + i), noneCode,
          (gateOf d.gateFn d.k row r a).toOption.getD 0⟩
      | none => ⟨noneCode, 0, 0, 0, noneCode, 0⟩
    | none => ⟨noneCode, freeModule s (base + i), if i < d.k then 0 else 8, freeStandsFor s (base + i), noneCode,
        freeGate s (base + i)⟩)

/-- The score rows of a ROUTE. -/
def scoreRow (s : State) (p : Nat) (d : RouteDesc) (t : Nat) : List F32 :=
  bytesF32 d.width (readBytes s (storeBase p + d.scores + d.stride * t) (4 * d.width))

/-- The first non-finite score: token, column, value. -/
def badScore (s : State) (p : Nat) (d : RouteDesc) : Option (Nat × BadVal) :=
  (List.range d.n).findSome? (fun t => (firstBad 0 (scoreRow s p d t)).map (fun v => (t, v)))

/-- One token of an expert ROUTE. -/
def routeToken (p : Nat) (d : RouteDesc) (s : State) (t : Nat) : State :=
  let es := expertEntries s d (scoreRow s p d t) (t * (d.k + d.spill))
  let x := admitToken p d.layer d.k (List.range d.k) (s, es)
  write x.1 (storeBase p + d.out + 16 * (d.k + d.spill) * t) (x.2.flatMap entryBytes)

/-- The gate of a token that no arithmetic of R310 can form, an EXP, a RECIP or a sum out of range: the token, and the value
at the rank (DESIGN CHOICE, assumption 144). -/
def badGate (s : State) (p : Nat) (d : RouteDesc) : Option (Nat × BadVal) :=
  (List.range d.n).findSome? (fun t =>
    let row := scoreRow s p d t
    let r := ranked row
    ((r.take (d.k + d.spill)).mapIdx (fun i x => (i, x.2))).findSome? (fun x =>
      match gateOf d.gateFn d.k row r x.2 with
      | .error v => some (t, { v with lane := x.1 })
      | .ok _ => none))

/-- The blocks a query block selects (R330): mandatory ones, then the best below them. -/
def selectBlocks (kb k firstBlock : Nat) (row : List F32) (f l : Nat) : List Nat :=
  let mand := rangeFrom (f / kb) (l / kb + 1 - f / kb)
  let cand := (row.mapIdx (fun i a => (firstBlock + i, a))).filter (fun x => decide (x.1 < f / kb))
  let best := (cand.mergeSort (fun a b => !fgt b.2 a.2)).map (fun x => x.1)
  mand ++ best.take (k - mand.length)

/-- First and last position of a query block. -/
def blockSpan (s : State) (p : Nat) (d : RouteDesc) (t : Nat) : Nat × Nat :=
  (readNat s (storeBase p + d.pos + 8 * t) 4, readNat s (storeBase p + d.pos + 8 * t + 4) 4)

/-- One query block of a key-block ROUTE. -/
def routeBlock (p : Nat) (d : RouteDesc) (a : AttnRec) (s : State) (t : Nat) : State :=
  let row := scoreRow s p d t
  let sp := blockSpan s p d t
  let sel := selectBlocks (2 ^ a.kLog2) d.k d.firstBlock row sp.1 sp.2
  let i := sp.1 / 2 ^ a.qLog2
  let es := (List.range d.k).map (fun r =>
    let k := t * d.k + r
    match sel[r]? with
    | some j =>
      let h := (keyHome s a j).getD (0, 0)
      let score := if d.firstBlock ≤ j then (row[j - d.firstBlock]?).getD (freeGate s k) else freeGate s k
      (⟨j, h.1, 1, r, i * keyCount s a h.1 h.2 + keyLocal s a j, score⟩ : RouteEntry)
    | none => ⟨noneCode, freeModule s k, 0, freeStandsFor s k, noneCode, freeGate s k⟩)
  write s (storeBase p + d.out + 16 * d.k * t) (es.flatMap entryBytes)

/-- A query block has more mandatory blocks than k (R330). -/
def tooMany (s : State) (p : Nat) (d : RouteDesc) (a : AttnRec) : Option Nat :=
  (List.range d.n).find? (fun t =>
    let sp := blockSpan s p d t
    decide (d.k < sp.2 / 2 ^ a.kLog2 + 1 - sp.1 / 2 ^ a.kLog2))

/-- A query block lies at a position of 2^23 or more (R14). -/
def blockPastEnd (s : State) (p : Nat) (d : RouteDesc) : Option Nat :=
  (List.range d.n).findSome? (fun t =>
    let sp := blockSpan s p d t
    if positionBad sp.1 then some sp.1 else if positionBad sp.2 then some sp.2 else none)

/-- Remember a route list under its stall and offset. -/
def noteList (s : State) (p : Nat) (d : RouteDesc) : State :=
  let l : RouteList := ⟨p, d.layer, d.out, d.kind, d.k, d.spill, d.n⟩
  { s with rte := { s.rte with lists := l :: s.rte.lists.filter (fun x => !(x.stall == p && x.off == d.out)) },
           draws := s.draws + d.n * (d.k + d.spill) }

/-- The events of choices rerouted or dropped since a state (R335). -/
def noteChoices (s0 s : State) (l : Nat) : State :=
  let s := if getF s0 R.rteStep_rerouted < getF s R.rteStep_rerouted
    then raiseOnce s 0x8003 l cPkg l (getF s R.rteStep_rerouted) else s
  if getF s0 R.rteStep_dropped < getF s R.rteStep_dropped
    then raiseOnce s 0x8004 l cPkg l (getF s R.rteStep_dropped) else s

/-- A score or gate that is not finite traps (R310). -/
def routeTrap (s : State) (p : Nat) (operand : Nat) (x : Nat × BadVal) : State :=
  let b := trapBits s (BitVec.ofNat 32 x.2.value)
  trap b.1 p 1 operand x.2.kind (getStall s p).layer (insAt s p) 63 (srW2 x.1 x.2.lane) b.2

/-- ROUTE with its lines checked (R310, R311): a value that traps records itself and stops, else the choices are written
and their list is noted. -/
def routeGo (p w : Nat) (d : RouteDesc) (s : State) : State :=
  match badScore s p d with
  | some x => routeTrap s p 0 x
  | none =>
    if d.kind = 0 then
      match badGate s p d with
      | some x => routeTrap s p 2 x
      | none => advance (noteList (noteChoices s (forEach (List.range d.n) (routeToken p d) s) d.layer) p d) p
    else
      match attnOf s d.layer with
      | none => s
      | some a =>
        match blockPastEnd s p d <|> tooMany s p d a with
        | some t => faultIns s p w 3 t
        | none => advance (noteList (forEach (List.range d.n) (routeBlock p d a) s) p d) p

/-- ROUTE. -/
def runRoute (p : Nat) (s : State) (w : Nat) : State :=
  withDesc s p w (fun s b =>
    let d := parseRoute b
    faultOr s p w (routeFault s p b d) (fun s =>
      let x := checkBrands s 4 (cStall p) (storeBase p + d.scores) (d.stride * (d.n - 1) + 4 * d.width)
      let r := partsChecked x.1 4 (cStall p) [(storeBase p + d.out, 16 * (d.k + d.spill) * d.n)]
      if !(x.2 && r.2) then faultIns r.1 p w 7 (if x.2 then d.out else d.scores)
      else routeGo p w d r.1))

def execRoute (p : Nat) (s : State) : Out := issue p 0x50 s (runRoute p)

/-! ## Route lists in the store -/

/-- The route list of a kind at an offset, of `n` tokens from it on: its choices per token are those of the ROUTE of this
step whose list holds the offset, else of the stall's last ROUTE of the layer (DEDUCED, assumption 167). -/
def listFrom (s : State) (p layer kind off n : Nat) : Option RouteList :=
  let own := s.rte.lists.filter (fun x => x.stall == p && x.layer == layer && x.kind == kind)
  ((own.find? (fun x => decide (x.off ≤ off) && decide (off < x.off + 16 * (x.k + x.spill) * x.n))) <|> own.head?).map
    (fun x => { x with off := off, n := n })

/-- Entry `e` of a list, read from the store. -/
def readEntry (s : State) (p : Nat) (l : RouteList) (e : Nat) : RouteEntry :=
  parseEntry (readBytes s (storeBase p + l.off + 16 * e) 16)

/-- A token's entries. -/
def tokenEntries (s : State) (p : Nat) (l : RouteList) (t : Nat) : List RouteEntry :=
  (List.range (l.k + l.spill)).map (fun r => readEntry s p l ((l.k + l.spill) * t + r))

/-- An entry travels: admitted, not cut at its home, not dropped (R325, R326). -/
def travels (e : RouteEntry) : Bool := e.target != noneCode && bit e.flags 0 && !bit e.flags 2 && !bit e.flags 4

/-! ## DISPATCH (R321, R325, R326, R329, R330) -/

/-- A DISPATCH descriptor. -/
structure SendDesc where
  kind : Nat
  pass : Nat
  format : Nat
  frameSegs : Nat
  layer : Nat
  queue : Nat
  segs : Nat
  n : Nat
  list : Nat
  rows : Nat
  rowBytes : Nat
  ordinals : Nat
  positions : Nat
  trailers : Nat
  returnQueue : Nat
  deriving DecidableEq, Repr

/-- Its fields (R325). -/
def parseSend (b : Bytes) : SendDesc :=
  { kind := fieldAt b 0 1, pass := fieldAt b 1 1, format := fieldAt b 2 1, frameSegs := fieldAt b 3 1,
    layer := fieldAt b 4 2, queue := fieldAt b 6 1, segs := fieldAt b 7 1, n := fieldAt b 8 4, list := fieldAt b 12 4,
    rows := fieldAt b 16 8, rowBytes := fieldAt b 24 4, ordinals := fieldAt b 28 4, positions := fieldAt b 32 4,
    trailers := fieldAt b 36 4, returnQueue := fieldAt b 40 1 }

/-- What a token sends: where to, under which target and return queue, its table entry, its payload row, its trailer, and
which segments. -/
structure SendTok where
  module : Nat
  stall : Nat
  target : Nat
  queue : Nat
  entry : TokEntry
  row : Nat
  trailer : Bytes
  deriving DecidableEq, Repr

/-- Rows of a query block. -/
def blockRows (s : State) (l kind : Nat) : Nat := if kind = 6 ∨ kind = 7 then ((attnOf s l).map (fun a => 2 ^ a.qLog2)).getD 1 else 1

/-- The intake queue whose metadata kinds 2 and 7 use: the stall's own, or that of a home's entry stall. -/
def intakeFor (s : State) (p : Nat) (d : SendDesc) : Option Nat :=
  let k := if d.kind = 2 then 1 else 3
  if (queueOf s (queueIx p d.queue)).kind = k then some (queueIx p d.queue)
  else if d.kind = 7 then none
  else ((homesOn s p).filterMap (homeHere s)).findSome? (fun h =>
    let ix := queueIx h.entryStall d.queue
    let q := queueOf s ix
    if h.layer = d.layer ∧ q.kind = 1 ∧ q.homeOrNb = h.home then some ix else none)

/-- The route list of a DISPATCH of kind 1 or 6. -/
def sendList (s : State) (p : Nat) (d : SendDesc) : Option RouteList :=
  if d.kind = 1 ∨ d.kind = 6 then listFrom s p d.layer (if d.kind = 6 then 1 else 0) d.list d.n else none

/-- What a DISPATCH descriptor breaks. -/
def sendFault (s : State) (p : Nat) (b : Bytes) (d : SendDesc) : Option (Nat × Nat) :=
  let want := if d.kind = 5 then 5 else (fmtRule s d.layer 3).format
  let routed := d.kind == 1 || d.kind == 6
  let tr := trailerOf d.kind d.pass
  let rowsOf := blockRows s d.layer d.kind
  firstFault
    [(!([1, 2, 3, 5, 6, 7].contains d.kind), 4, d.kind), (decide (1 < d.pass), 4, d.pass), (!zeroAt b 0x29 23, 4, 0),
     (decide (jobLayers s ≤ d.layer), 3, d.layer),
     ((routed || d.kind == 3) && !(sources s (ownIndex s) d.layer).contains p, 8, d.layer),
     (d.kind != 3 && d.format != want, 4, d.format),
     (d.kind != 3 && (d.frameSegs == 0 || decide (d.segs < d.frameSegs)), 3, d.frameSegs),
     (d.kind != 3 && decide (8960 < bodyLen d.kind d.pass d.format 1 d.frameSegs), 3, d.frameSegs),
     (decide (15 < d.queue), 3, d.queue), (d.rowBytes % 64 != 0, 3, d.rowBytes),
     (routed && (sendList s p d).isNone, 8, d.list),
     (routed && (sendList s p d).any (fun l => !inStore l.off (16 * (l.k + l.spill) * l.n)), 3, d.list),
     (routed && !inStore d.ordinals (4 * d.n), 3, d.ordinals),
     (routed && (!inStore d.positions (4 * d.n * rowsOf)
        || (List.range (d.n * rowsOf)).any (fun i => positionBad (storeU32 s p d.positions i))), 3, d.positions),
     (d.kind == 6 && tr != 0 && !inStore d.trailers (tr * d.n * rowsOf), 3, d.trailers),
     ((d.kind == 2 || d.kind == 7) && (intakeFor s p d).isNone, 8, d.queue),
     (d.kind == 7 && tr != 0 && !inStore d.trailers (tr * (d.list + d.n) * rowsOf), 3, d.trailers),
     (d.kind == 5 && (attnOf s d.layer).isNone, 8, d.layer)]

/-- What an expert entry of token `t` sends. -/
def expertTok (s : State) (p : Nat) (d : SendDesc) (l : RouteList) (t r : Nat) (e : RouteEntry) : Option SendTok :=
  (homeOf s e.target).map (fun h =>
    { module := h.module, stall := h.entryStall, target := e.target, queue := d.queue,
      entry := { ordinal := storeU32 s p d.ordinals t,
                 posRank := storeU32 s p d.positions t + r % 16 * 2 ^ 24, w8 := e.slot,
                 wC := (l.k + l.spill) * t + r },
      row := d.rows + t * d.rowBytes, trailer := [] })

/-- The tokens of kind 1, in route-list order. -/
def expertToks (s : State) (p : Nat) (d : SendDesc) (l : RouteList) : List SendTok :=
  (List.range d.n).flatMap (fun t =>
    ((tokenEntries s p l t).mapIdx (fun r e => (r, e))).filterMap (fun x =>
      if travels x.2 then expertTok s p d l t x.1 x.2 else none))

/-- The tokens of kind 6: each row of each query block to each key block it selected (R330). -/
def queryToks (s : State) (p : Nat) (d : SendDesc) (l : RouteList) (a : AttnRec) : List SendTok :=
  let qb := 2 ^ a.qLog2
  let tr := trailerOf 6 d.pass
  (List.range d.n).flatMap (fun t =>
    ((tokenEntries s p l t).mapIdx (fun r e => (r, e))).flatMap (fun x =>
      match (if travels x.2 then keyHome s a x.2.target else none) with
      | none => []
      | some h => (List.range qb).map (fun j =>
          { module := h.1, stall := h.2, target := x.2.target, queue := d.queue,
            entry := { ordinal := storeU32 s p d.ordinals t,
                       posRank := storeU32 s p d.positions (t * qb + j) + x.1 % 16 * 2 ^ 24, w8 := x.2.slot,
                       wC := (t * l.k + x.1) * qb + j },
            row := d.rows + (t * qb + j) * d.rowBytes,
            trailer := readBytes s (storeBase p + d.trailers + tr * (t * qb + j)) tr })))

/-- The metadata of a slot. -/
def slotMeta (s : State) (q : Queue) (slot : Nat) : Bytes := readBytes s (q.metaAddr + 32 * slot) 32

/-- The tokens of kinds 2 and 7: the filled slots of the intake, ascending. A slot's metadata is that of its first row to
arrive; row `j` of a query block has the block's position plus `j`, and its return slot likewise (R328, R330). -/
def answerToks (s : State) (p : Nat) (d : SendDesc) (ix : Nat) : List SendTok :=
  let q := queueOf s ix
  let qb := blockRows s d.layer d.kind
  let tr := trailerOf d.kind d.pass
  let expert := ((homeHere s q.homeOrNb).map (fun h => h.expert)).getD 0
  let slots := (rangeFrom d.list d.n).filter (slotFilled s ix)
  slots.flatMap (fun k =>
    let m := slotMeta s q k
    let target := if d.kind = 2 then expert
      else ((attnOf s d.layer).map (fun a => keyGlobal s a (ownIndex s) p (k % max 1 q.homeOrNb))).getD 0
    let first := fieldAt m 8 4 % qb
    (List.range qb).map (fun j =>
      { module := fieldAt m 0x10 2, stall := fieldAt m 0x12 2, target := target, queue := fieldAt m 0x14 1,
        entry := { ordinal := fieldAt m 4 4, posRank := fieldAt m 8 4 - first + j, w8 := fieldAt m 12 4 - first + j, wC := 0 },
        row := d.rows + (k * qb + j) * d.rowBytes,
        trailer := readBytes s (storeBase p + d.trailers + tr * (k * qb + j)) tr }))

/-- The tokens of kind 5: each summary to each module with a source stall of the layer, at the first of them. -/
def summaryToks (s : State) (d : SendDesc) : List SendTok :=
  (List.range (modules s)).flatMap (fun m =>
    match sourcesFor s m d.layer 1 with
    | [] => []
    | q :: _ => (List.range d.n).map (fun i =>
        { module := m, stall := q, target := d.list + i, queue := d.queue,
          entry := { ordinal := d.list + i, posRank := 0, w8 := 0, wC := 0 }, row := d.rows + i * d.rowBytes, trailer := [] }))

/-- The segments a stall sends of a row. Of kind 2 these are its own (R325): in the forward pass its column blocks of tensor
6, in the backward pass its row segments of tensors 4 and 5 (DEDUCED, assumption 168). -/
def ownSegs (s : State) (p : Nat) (d : SendDesc) (ix : Nat) : List Nat :=
  if d.kind = 2 then
    let mine := (placedOn s p).filter (fun x => x.layer == d.layer && x.home == (queueOf s ix).homeOrNb)
    let segs := if d.pass = 0 then
        (mine.filter (fun x => x.tensor == 6)).map (fun x => if x.twoSlice then x.colBlk / 2 else x.colBlk)
      else (mine.filter (fun x => x.tensor == 4 || x.tensor == 5)).map (fun x => x.rowSeg)
    ((distinct segs).filter (fun g => decide (g < d.segs))).mergeSort (fun a b => decide (a ≤ b))
  else List.range d.segs

/-- Cut ascending segments into runs of neighbours of at most `n`: first and count. -/
def segRuns (n : Nat) : List Nat → List (Nat × Nat)
  | [] => []
  | g :: r =>
    match segRuns n r with
    | (f, c) :: t => if f = g + 1 ∧ c < n then (g, c + 1) :: t else (g, 1) :: (f, c) :: t
    | [] => [(g, 1)]

/-- Cut the segments of a row into frames of `n` segments from the lowest up. -/
def segFrames (n : Nat) (l : List Nat) : List (Nat × Nat) :=
  match l with
  | [] => []
  | _ =>
    let runs := segRuns 256 l
    runs.flatMap (fun x => (List.range (ceilDiv x.2 n)).map (fun i => (x.1 + n * i, min n (x.2 - n * i))))

/-- Two tokens can share a frame: one destination and one target; summaries share by destination alone. -/
def sameFrame (kind : Nat) (t u : SendTok) : Bool :=
  u.module == t.module && u.stall == t.stall && u.queue == t.queue && (u.target == t.target || kind == 5)

/-- Group consecutive tokens into frames of at most `n` while they fit, first to last; `g` is the group being filled, newest
token first. -/
def groupFrom (n kind : Nat) : List SendTok → List SendTok → List (List SendTok)
  | g, [] => if g.isEmpty then [] else [g.reverse]
  | [], t :: r => groupFrom n kind [t] r
  | u :: g, t :: r =>
    if sameFrame kind u t ∧ g.length + 1 < n then groupFrom n kind (t :: u :: g) r
    else (u :: g).reverse :: groupFrom n kind [t] r

/-- Group consecutive tokens for one destination and target, at most `n` to a frame (R325). -/
def groupToks (n kind : Nat) (l : List SendTok) : List (List SendTok) := groupFrom n kind [] l

/-- Tokens a frame of some segments can carry (R319). -/
def perFrame (d : SendDesc) (segs : Nat) : Nat :=
  max 1 ((8960 - 64) / (16 + segs * paySeg d.format + trailerOf d.kind d.pass))

/-- Send one frame of a group of tokens. -/
def sendGroup (p : Nat) (d : SendDesc) (g : List SendTok) (s : State) (x : Nat × Nat) : State :=
  match g with
  | [] => s
  | t :: _ =>
    let b := paySeg d.format
    emit s p { blankFrame d.kind d.pass d.layer t.module t.stall t.target t.queue with
      format := d.format, segFirst := x.1, segCount := x.2,
      returnQueue := d.returnQueue, table := g.map (fun u => u.entry),
      payload := g.flatMap (fun u => readBytes s (u.row + x.1 * b) (x.2 * b) ++ u.trailer) }

/-- The tokens of a descriptor. -/
def sendToks (s : State) (p : Nat) (d : SendDesc) : List SendTok :=
  match d.kind with
  | 1 => ((sendList s p d).map (expertToks s p d)).getD []
  | 2 => ((intakeFor s p d).map (answerToks s p d)).getD []
  | 5 => summaryToks s d
  | 6 => ((sendList s p d).bind (fun l => (attnOf s d.layer).map (queryToks s p d l))).getD []
  | 7 => ((intakeFor s p d).map (answerToks s p d)).getD []
  | _ => []

/-- Send tokens, group by group, segments ascending (R325). -/
def sendAll (s : State) (p : Nat) (d : SendDesc) (toks : List SendTok) : State :=
  let segs := ownSegs s p d ((intakeFor s p d).getD 0)
  forEach (groupToks (perFrame d d.frameSegs) d.kind toks)
    (fun s g => forEach (segFrames (max 1 d.frameSegs) segs) (sendGroup p d g) s) s

/-- A frame of a source stall's layer and pass toward a module. -/
def sourceFrame (s : State) (p pass l m : Nat) (f : TokFrame) : Bool :=
  f.srcModule == ownIndex s && f.srcStall == p && f.dstModule == m && f.layer == l && f.flags % 2 == pass
    && (f.kind == 1 || f.kind == 5 || f.kind == 6)

/-- A frame with the close flag, and its brand anew. -/
def withClose (s : State) (f : TokFrame) : TokFrame :=
  let f := { f with flags := f.flags ||| 2, brand := 0 }
  if onF s R.brdCtl_brandEn then { f with brand := frameBrand f } else f

/-- The frame numbers of a source stall's frames of a layer and pass toward a module that are still on their way out. -/
def waitingFrames (s : State) (p pass l m : Nat) : List Nat :=
  (s.rte.mesh.filter (fun x => sourceFrame s p pass l m x.frame)).map (fun x => x.frame.frameSeq)
    ++ s.prt.queue.filterMap (fun x => match x.body with
      | .tok f => if sourceFrame s p pass l m f then some f.frameSeq else none
      | _ => none)

/-- Set the close flag on the last of these frames. -/
def flagFrame (s : State) (p pass l m n : Nat) : State :=
  let mark := fun (f : TokFrame) => if sourceFrame s p pass l m f ∧ f.frameSeq = n then withClose s f else f
  { s with rte := { s.rte with mesh := s.rte.mesh.map (fun x => { x with frame := mark x.frame }) },
           prt := { s.prt with queue := s.prt.queue.map (fun x => match x.body with
             | .tok f => { x with body := .tok (mark f) }
             | _ => x) } }

/-- Close a layer and pass toward a module (R321): on the stall's last frame of the layer and pass where that has not left
yet, else in an empty CLOSE frame (DEDUCED, assumption 169). -/
def closeToward (p pass l : Nat) (s : State) (m : Nat) : State :=
  let s := { s with rte := { s.rte with mine := s.rte.mine ++ [⟨pass, l, m, p⟩] } }
  match (waitingFrames s p pass l m).getLast? with
  | some n => flagFrame s p pass l m n
  | none => emit s p (blankFrame 3 pass l m 0xFFFF 0 0)

/-- Close a layer and pass toward every module it serves that is still open (R321). -/
def closeLayer (s : State) (p pass l : Nat) : State :=
  forEach ((List.range (modules s)).filter (fun m => serves s m l && !s.rte.mine.contains ⟨pass, l, m, p⟩))
    (closeToward p pass l) s

/-- The spans of a DISPATCH's payload rows. -/
def rowSpans (d : SendDesc) (toks : List SendTok) : List (Nat × Nat) := toks.map (fun t => (t.row, d.segs * paySeg d.format))

/-- DISPATCH. -/
def runDispatch (p : Nat) (s : State) (w : Nat) : State :=
  withDesc s p w (fun s b =>
    let d := parseSend b
    faultOr s p w (sendFault s p b d) (fun s =>
      if d.kind = 3 then advance (closeLayer s p d.pass d.layer) p
      else
        let toks := sendToks s p d
        match (rowSpans d toks).findSome? (fun x => geFault s x.1 x.2) with
        | some x => faultIns s p w x.1 x.2
        | none =>
          if (rowSpans d toks).any (fun x => linkHeld s x.1 x.2) then s else
          let r := geReads s p (rowSpans d toks)
          if !r.2 then faultIns r.1 p w 7 (d.rows % 2 ^ 32)
          else
            let s := sendAll r.1 p d toks
            let s := if d.kind = 1 ∧ d.pass = 0 then
                { s with rte := { s.rte with sent := (p, d.list, b) :: s.rte.sent.filter (fun x => !(x.1 == p && x.2.1 == d.list)) } }
              else s
            if (getStall s p).stop then s else advance s p))

def execDispatch (p : Nat) (s : State) : Out := issue p 0x51 s (runDispatch p)

/-! ## COMBINE (R316, R327, R331) -/

/-- A COMBINE descriptor. -/
structure CombDesc where
  kind : Nat
  k : Nat
  spill : Nat
  queue : Nat
  layer : Nat
  segs : Nat
  n : Nat
  route : Nat
  resid : Nat
  out : Nat
  qBlock : Nat
  deriving DecidableEq, Repr

/-- Its fields (R327). -/
def parseComb (b : Bytes) : CombDesc :=
  { kind := fieldAt b 0 1, k := fieldAt b 1 1, spill := fieldAt b 2 1, queue := fieldAt b 3 1, layer := fieldAt b 4 2,
    segs := fieldAt b 6 2, n := fieldAt b 8 4, route := fieldAt b 12 4, resid := fieldAt b 16 8, out := fieldAt b 24 8,
    qBlock := fieldAt b 32 4 }

/-- Bytes of a row of binary32 segments. -/
def wideRow (d : CombDesc) : Nat := 2048 * d.segs

/-- The tokens or blocks of the list that a COMBINE covers. -/
def combTokens (d : CombDesc) : Nat := if d.kind < 2 then d.n else ceilDiv d.n (max 1 d.qBlock)

/-- The route list a COMBINE names: its descriptor gives the offset, k and spill (R327). -/
def combList (p : Nat) (d : CombDesc) : RouteList :=
  ⟨p, d.layer, d.route, if d.kind < 2 then 0 else 1, d.k, d.spill, combTokens d⟩

/-- What a COMBINE descriptor breaks. -/
def combFault (s : State) (p : Nat) (b : Bytes) (d : CombDesc) : Option (Nat × Nat) :=
  let q := queueOf s (queueIx p d.queue)
  firstFault
    [(decide (3 < d.kind), 4, d.kind), (!zeroAt b 0x24 28, 4, 0), (decide (15 < d.queue), 3, d.queue),
     (q.kind != 2, 8, d.queue), (decide (jobLayers s ≤ d.layer), 3, d.layer), (d.segs != q.segs, 3, d.segs),
     (decide (2 ≤ d.kind) && (attnOf s d.layer).all (fun a => d.qBlock != 2 ^ a.qLog2), 3, d.qBlock),
     (!inStore d.route (16 * (d.k + d.spill) * combTokens d), 3, d.route)]
  <|> (if d.kind = 0 then geFault s d.resid (wideRow d * d.n) else none)
  <|> geWriteFault s d.out (wideRow d * d.n)

/-- Segments a COMBINE waits for: those of every admitted entry, cut or not. -/
def expectedSegs (s : State) (p : Nat) (d : CombDesc) (l : RouteList) : Nat :=
  let each := if d.kind < 2 then d.segs else d.segs * d.qBlock
  each * ((List.range (combTokens d)).map (fun t =>
    countIf (tokenEntries s p l t) (fun e => e.target != noneCode && bit e.flags 0 && (d.kind != 1 || travels e)))).sum

/-- The cut entries of a queue, of the tokens of a list, that are not yet dealt with, in ascending (token, rank) order. -/
def freshCuts (s : State) (ix : Nat) (l : RouteList) : List CutEntry :=
  (s.rte.cutEntries.filter (fun c => c.queue == ix && (c.st == 0 || c.st == 2)
    && decide (c.slot < (l.k + l.spill) * l.n))).mergeSort (fun a b => decide (a.slot ≤ b.slot))

/-- Write a token's entries back. -/
def writeEntries (s : State) (p : Nat) (l : RouteList) (t : Nat) (es : List RouteEntry) : State :=
  write s (storeBase p + l.off + 16 * (l.k + l.spill) * t) (es.flatMap entryBytes)

/-- Deal with one cut entry (R316): its next spare, sent at once, or a drop; a choice cut a second time is dropped. Answers
the entry to send. -/
def dealCut (p : Nat) (l : RouteList) (x : State × List (Nat × Nat)) (c : CutEntry) : State × List (Nat × Nat) :=
  let s := x.1
  let k := l.k + l.spill
  let t := c.slot / max 1 k
  let r := c.slot % max 1 k
  let es := tokenEntries s p l t
  match es[r]? with
  | none => x
  | some e =>
    let es := es.set r { e with flags := e.flags ||| 4 }
    let done := fun (s : State) =>
      { s with rte := { s.rte with cutEntries := s.rte.cutEntries.map (fun y =>
          if y.queue = c.queue ∧ y.slot = c.slot then { y with st := 3 } else y) } }
    if c.st = 2 then
      (done (writeEntries (bumpF s R.rteStep_dropped 0 1) p l t (es.set r { e with flags := e.flags ||| 20 })), x.2)
    else
      let u := useSpare s p l.layer l.k r e.standsFor e.gate es
      let s := done (writeEntries u.1 p l t u.2.1)
      match u.2.2 with
      | some q =>
        ({ s with rte := { s.rte with cutEntries := s.rte.cutEntries ++ [{ queue := c.queue, slot := k * t + q, st := 1 }] } },
          x.2 ++ [(t, q)])
      | none => (s, x.2)

/-- Send the choices that replace cut ones, with the descriptor by which their list was dispatched (R316). -/
def resend (s : State) (p : Nat) (l : RouteList) (entries : List (Nat × Nat)) : State :=
  match s.rte.sent.find? (fun x => x.1 == p && x.2.1 == l.off) with
  | none => s
  | some x =>
    let d := parseSend x.2.2
    sendAll s p d (entries.filterMap (fun y =>
      expertTok s p d l y.1 y.2 (readEntry s p l ((l.k + l.spill) * y.1 + y.2))))

/-- A returned row: its segments in binary32, or the element that does not decode. -/
def returnedRow (s : State) (q : Queue) (tr slot : Nat) : Except BadVal (List F32) :=
  let base := q.base + slot * rowBytes q tr
  (List.range q.segs).foldl (fun acc g =>
    match acc with
    | .error v => .error v
    | .ok l =>
      match decodeSeg q.format (readBytes s (base + g * segBytes q.format) (segBytes q.format)) with
      | .error v => .error { v with lane := 512 * g + v.lane }
      | .ok x => .ok (l ++ x.map exactToF32)) (.ok [])

/-- A row's trailer values: m_j and l_j. -/
def rowTrailer (s : State) (q : Queue) (slot : Nat) : F32 × F32 :=
  let a := q.base + slot * rowBytes q 8 + q.segs * segBytes q.format
  (BitVec.ofNat 32 (readNat s a 4), BitVec.ofNat 32 (readNat s (a + 4) 4))

/-- Rows in ascending rank of the choice they stand for: of kinds 0 and 1, with their gates. -/
def choiceRows (s : State) (p : Nat) (d : CombDesc) (l : RouteList) (t : Nat) : List (Nat × F32) :=
  let es := (tokenEntries s p l t).mapIdx (fun r e => (r, e))
  (List.range d.k).filterMap (fun r =>
    (es.find? (fun x => travels x.2 && x.2.standsFor == r)).map (fun x => ((l.k + l.spill) * t + x.1, x.2.gate)))

/-- Rows in ascending key block: of kinds 2 and 3, for query row `i`. -/
def blockRowsOf (s : State) (p : Nat) (d : CombDesc) (l : RouteList) (i : Nat) : List Nat :=
  let t := i / max 1 d.qBlock
  let es := ((tokenEntries s p l t).mapIdx (fun r e => (r, e))).filter (fun x => travels x.2)
  (es.mergeSort (fun a b => decide (a.2.target ≤ b.2.target))).map (fun x => (t * l.k + x.1) * d.qBlock + i % max 1 d.qBlock)

/-- FREE VALUE. The lanes of a merged row none of whose partials holds a key (DESIGN CHOICE, assumption 85). -/
def freeLanes (s : State) (n : Nat) : List F32 := (List.range n).map (fun i => BitVec.ofNat 32 (Config.freeNat (s.draws + i) 331))

/-- What stops a COMBINE's row: an element that does not decode, or a value of the arithmetic (R269). -/
structure CombBad where
  decoding : Bool
  value : BadVal
  deriving DecidableEq, Repr

/-- A value of COMBINE's arithmetic that traps. -/
def byArith {α : Type} (x : Except BadVal α) : Except CombBad α := x.mapError (fun v => ⟨false, v⟩)

/-- An element of a returned row that does not decode. -/
def byDecode {α : Type} (x : Except BadVal α) : Except CombBad α := x.mapError (fun v => ⟨true, v⟩)

/-- The state of a merge: m, l and O (R331). -/
abbrev Merge : Type := F32 × F32 × List F32

/-- One partial joins a merge: m_j, l_j and O_j (R331). -/
def mergeStep (acc : Option Merge) (mj lj : F32) (oj : List F32) : Except BadVal (Option Merge) :=
  (checked lj).bind (fun lj =>
    if lj = 0 then .ok acc
    else (checked mj).bind (fun mj => (checkedRow oj).bind (fun oj =>
      match acc with
      | none => .ok (some (mj, lj, oj))
      | some (m, l, o) =>
        let m1 := fmax m mj
        (checkedExp (fsub m m1)).bind (fun a => (checkedExp (fsub mj m1)).bind (fun c =>
          (checkedRow (o.map (fun z => fmul z a))).bind (fun oa =>
            (checkedRow (List.zipWith (fun y z => ffma y c z) oj oa)).bind (fun o1 =>
              (checked (fmul l a)).bind (fun la => (checked (ffma lj c la)).map (fun l1 => some (m1, l1, o1))))))))))

/-- Take returned rows one after another, up to the first that does not decode or whose arithmetic traps. -/
def foldRows {α β : Type} (rd : β → Except BadVal (List F32)) (f : α → β → List F32 → Except BadVal α) :
    List β → α → Except CombBad α
  | [], a => .ok a
  | x :: r, a => (byDecode (rd x)).bind (fun o => (byArith (f a x o)).bind (fun a => foldRows rd f r a))

/-- The rows of a query row's partials, merged (R331). -/
def mergedRow (s : State) (p : Nat) (d : CombDesc) (l : RouteList) (i : Nat) : Except CombBad (Option Merge) :=
  let q := queueOf s (queueIx p d.queue)
  foldRows (returnedRow s q 8) (fun a k o => mergeStep a (rowTrailer s q k).1 (rowTrailer s q k).2 o)
    (blockRowsOf s p d l i) none

/-- The row a merge gives: O × RECIP(l). -/
def mergeOut (s : State) (n : Nat) : Option Merge → Except CombBad (List F32)
  | some (_, l, o) => byArith ((checkedRecip l).bind (fun c => checkedRow (o.map (fun y => fmul y c))))
  | none => .ok (freeLanes s n)

/-- One row of the result (R327), or the value that traps. -/
def combRow (s : State) (p : Nat) (d : CombDesc) (l : RouteList) (i : Nat) : Except CombBad (List F32) :=
  let q := queueOf s (queueIx p d.queue)
  let n := 512 * d.segs
  let zero : List F32 := List.replicate n 0
  match d.kind with
  | 0 =>
    (foldRows (fun (x : Nat × F32) => returnedRow s q 0 x.1)
      (fun a x o => (checked x.2).bind (fun g => checkedRow (List.zipWith (fun t y => ffma g y t) a o)))
      (choiceRows s p d l i) zero).bind
      (fun a => byArith ((checkedRow (bytesF32 n (readBytes s (d.resid + wideRow d * i) (4 * n)))).bind
        (fun r => checkedRow (List.zipWith fadd r a))))
  | 1 =>
    foldRows (fun (x : Nat × F32) => returnedRow s q 0 x.1) (fun a _ o => checkedRow (List.zipWith fadd a o))
      (choiceRows s p d l i) zero
  | 2 => (mergedRow s p d l i).bind (mergeOut s n)
  | _ => foldRows (returnedRow s q 0) (fun a _ o => checkedRow (List.zipWith fadd a o)) (blockRowsOf s p d l i) zero

/-- The first row that traps, of those a COMBINE forms. -/
def combBad (s : State) (p : Nat) (d : CombDesc) (l : RouteList) : Option (Nat × CombBad) :=
  (List.range d.n).findSome? (fun i =>
    match combRow s p d l i with
    | .error v => some (i, v)
    | .ok _ => none)

/-- The trap of a row: a unit that decodes, or the vector unit's arithmetic. -/
def combTrap (s : State) (p : Nat) (d : CombDesc) (ins : Nat) (x : Nat × CombBad) : State :=
  let v := x.2.value
  if x.2.decoding then trapDecode s p 4 0 d.layer ins 63 (srW2 x.1 v.lane) v
  else
    let b := trapBits s (BitVec.ofNat 32 v.value)
    trap b.1 p 1 2 v.kind d.layer ins 63 (srW2 x.1 v.lane) b.2

/-- m and l of the merged rows, kept for the backward pass (R331). -/
def keepMerges (s : State) (p : Nat) (d : CombDesc) (l : RouteList) : State :=
  if d.kind ≠ 2 then s
  else
    let rows := (List.range d.n).filterMap (fun i =>
      match mergedRow s p d l i with
      | .ok (some (m, z, _)) => some ({ stall := p, layer := d.layer, row := i, top := m, sum := z } : Merged)
      | _ => none)
    { s with rte := { s.rte with
        merged := rows ++ s.rte.merged.filter (fun x => !(x.stall == p && x.layer == d.layer && decide (x.row < d.n))) } }

/-- Write the rows of a COMBINE. -/
def combWrite (s : State) (p : Nat) (d : CombDesc) (l : RouteList) : State :=
  forEach ((List.range d.n).map (fun i => (i, (combRow s p d l i).toOption.getD [])))
    (fun s x => write s (d.out + wideRow d * x.1) (f32Bytes x.2)) (keepMerges s p d l)

/-- The spans a COMBINE reads: the returned rows it takes, and its residual rows. -/
def combSpans (s : State) (p : Nat) (d : CombDesc) (l : RouteList) : List (Nat × Nat) :=
  let q := queueOf s (queueIx p d.queue)
  let size := rowBytes q (if d.kind = 2 then 8 else 0)
  let rows := (List.range d.n).flatMap (fun i =>
    if d.kind < 2 then (choiceRows s p d l i).map (fun x => x.1) else blockRowsOf s p d l i)
  (if d.kind = 0 then [(d.resid, wideRow d * d.n)] else []) ++ rows.map (fun k => (q.base + k * size, size))

/-- A COMBINE whose segments are all in: the rows, or the fault or trap of its instruction. -/
def runCombined (p : Nat) (c : PendComb) (d : CombDesc) (s : State) : State :=
  let l := combList p d
  let r := geReads s p (combSpans s p d l)
  if !r.2 then instrFault r.1 p 7 (insOp c.word) c.ins (d.out % 2 ^ 32)
  else match combBad r.1 p d l with
    | some x => combTrap r.1 p d c.ins x
    | none =>
      let s := combWrite r.1 p d l
      { s with draws := s.draws + 512 * d.segs * d.n }

/-- Take a pending COMBINE off its stall's list. -/
def dropComb (s : State) (p : Nat) (c : PendComb) : State :=
  modStall s p (fun t => { t with combines := t.combines.erase c })

/-- A pending COMBINE goes on once its queue's counter holds every expected segment: cut choices are dealt with and sent
again, and when none is outstanding the rows are formed (R316, R327). A stopped stall holds it. -/
def serveCombine (p : Nat) (s : State) (c : PendComb) : State :=
  let d := parseComb c.desc
  let l := combList p d
  let ix := queueIx p d.queue
  if (getStall s p).stop ∨ counterOf s ix < expectedSegs s p d l ∨ linkHeld s d.resid (wideRow d * d.n) then s
  else
    let x := (if d.kind < 2 then freshCuts s ix l else []).foldl (dealCut p l) (s, [])
    let s := noteChoices s (resend x.1 p l x.2) d.layer
    if x.2.isEmpty then dropComb (runCombined p c d s) p c else s

/-- The pending COMBINEs of a stall, oldest first. -/
def serveCombines (s : State) (p : Nat) : State := forEach (getStall s p).combines (serveCombine p) s

/-- COMBINE is asynchronous (R285, R286): a sound descriptor waits for its segments beside the program, which goes on. -/
def runCombine (p : Nat) (s : State) (w : Nat) : State :=
  withDesc s p w (fun s b =>
    faultOr s p w (combFault s p b (parseComb b)) (fun s =>
      let c : PendComb := { ins := insAt s p, word := w, desc := b, since := s.now, alarmed := false }
      serveCombine p (advance (modStall s p (fun t => { t with combines := t.combines ++ [c] })) p) c))

def execCombine (p : Nat) (s : State) : Out := issue p 0x52 s (runCombine p)

/-- COMBINE_WAIT (R327): once per instruction, for the oldest COMBINE that has waited combine_alarm_us. -/
def combineWait (p : Nat) (s : State) : State :=
  match (getStall s p).combines.find? (fun c => !c.alarmed && decide (c.since + 25 * getF s R.rteCtl_combineAlarmUs ≤ s.now)) with
  | none => s
  | some c =>
    let d := parseComb c.desc
    raise (modStall s p (fun t => { t with combines := t.combines.map (fun x => if x = c then { x with alarmed := true } else x) }))
      0x8007 (cStall p) d.layer (expectedSegs s p d (combList p d) - counterOf s (queueIx p d.queue))

def execCombineWait (p : Nat) (s : State) : Out := onStall p s (combineWait p)

/-! ## WAKE (R332) -/

/-- The route list that a WAKE of mode 0 names: of experts or, where no ROUTE of the layer chose experts, of key blocks. -/
def wakeList (s : State) (p : Nat) (b : Bytes) : Option RouteList :=
  let kind := match s.rte.lists.find? (fun x => x.stall == p && x.off == fieldAt b 8 4) with
    | some l => l.kind
    | none => if s.rte.lists.any (fun x => x.stall == p && x.layer == fieldAt b 2 2 && x.kind == 0) then 0 else 1
  listFrom s p (fieldAt b 2 2) kind (fieldAt b 8 4) (fieldAt b 4 4)

/-- What a WAKE descriptor breaks. -/
def wakeFault (s : State) (p : Nat) (b : Bytes) : Option (Nat × Nat) :=
  firstFault
    [(decide (2 < fieldAt b 0 1), 4, fieldAt b 0 1), (decide (1 < fieldAt b 1 1), 4, fieldAt b 1 1),
     (!zeroAt b 12 52, 4, 0), (decide (jobLayers s ≤ fieldAt b 2 2), 3, fieldAt b 2 2),
     (fieldAt b 0 1 == 0 && (wakeList s p b).isNone, 8, fieldAt b 8 4),
     (fieldAt b 0 1 == 0 && (wakeList s p b).any (fun l => !inStore l.off (16 * (l.k + l.spill) * l.n)), 3, fieldAt b 8 4)]

/-- The experts and key blocks a WAKE names: (whether a key block, number). -/
def wakeTargets (s : State) (p : Nat) (b : Bytes) : List (Bool × Nat) :=
  let l := fieldAt b 2 2
  match fieldAt b 0 1 with
  | 0 =>
    match wakeList s p b with
    | some r => ((List.range (fieldAt b 4 4)).flatMap (fun t =>
        ((tokenEntries s p r t).filter travels).map (fun e => (r.kind == 1, e.target)))).eraseDups
    | none => []
  | 1 => (layerExperts s l).map (fun h => (false, h.expert))
  | _ => ((layerExperts s l).filter (fun h => s.rte.filledPrev.contains h.expert)).map (fun h => (false, h.expert))

/-- Wake one target: requests on this module, a WAKE frame to another. -/
def wakeTarget (p pass l : Nat) (s : State) (x : Bool × Nat) : State :=
  if x.1 then
    match (attnOf s l).bind (fun a => keyHome s a x.2) with
    | none => s
    | some (m, q) => if m = ownIndex s then requestWake s q .ahead false else emit s p (blankFrame 4 pass l m q x.2 0)
  else
    match homeOf s x.2 with
    | none => s
    | some h => if h.module = ownIndex s then wakeHome s x.2
        else emit s p (blankFrame 4 pass l h.module h.entryStall x.2 0)

/-- WAKE. -/
def runWake (p : Nat) (s : State) (w : Nat) : State :=
  withDesc s p w (fun s b =>
    faultOr s p w (wakeFault s p b) (fun s =>
      advance (forEach (wakeTargets s p b) (wakeTarget p (fieldAt b 1 1) (fieldAt b 2 2)) s) p))

def execWake (p : Nat) (s : State) : Out := issue p 0x53 s (runWake p)

end Sys2Proof.Machine
end

