-- ==== Sys2Proof/Machine/Delivery.lean ====
section
/-! DEFINITION. Machine/Delivery.lean: the arrival of a token frame: its step and plan, the hold area, the ingress buffers, and
the rows of the frames (R45, R50, R113, R181, R319, R405). -/
namespace Sys2Proof.Machine
open Sys2Proof

/-! ## Delivery -/

/-- A WAKE frame's stalls. -/
def takeWake (s : State) (f : TokFrame) : State :=
  if expertAt s f.target f.dstStall && ((attnOf s f.layer).isNone || !keyAt s f.layer f.target f.dstStall) then
    wakeHome s f.target
  else requestWake s f.dstStall .ahead false

/-- A stall that receives a REFUSE stops (R319). -/
def takeRefuse (s : State) (f : TokFrame) : State :=
  raise (stopStall s f.dstStall) 0x8006 (cStall f.dstStall) f.format f.target

/-- The effect of a checked frame whose stall runs. -/
def deliver (s : State) (f : TokFrame) : State :=
  let l := f.table.mapIdx (fun i e => (i, e))
  let ix := frameQueue f
  let c := partsChecked s 4 (cStall f.dstStall) (frameSpans s f)
  let s := if !c.2 then corruptStop c.1 f.dstStall else match f.kind with
    | 1 => stepPrefix (forEach l (dispatchTok f) s) ix
    | 2 => serveCombines (forEach l (returnTok f) s) f.dstStall
    | 5 => stepPrefix (forEach l (summaryTok f) s) ix
    | 6 => stepPrefix (forEach l (queryTok f) s) ix
    | 7 => serveCombines (forEach l (returnTok f) s) f.dstStall
    | 8 => takeRefuse s f
    | _ => s
  if bit f.flags 1 || f.kind == 3 then takeClose s (f.flags % 2) f.layer f.srcModule f.srcStall else s

/-- A frame for a stall that is idle in this step (R291): a backward frame is discarded, with event 0x7006. -/
def discardIdle (s : State) (f : TokFrame) : State :=
  let n := tget 0 s.rte.discarded f.dstStall + 1
  raise { s with rte := { s.rte with discarded := tput 0 s.rte.discarded f.dstStall n } } 0x7006 (cStall f.dstStall) n
    f.srcModule

/-- A frame waits for its stall in its barn's ingress buffer, with a demand wake (R113) (DEDUCED, assumption 91). -/
def keepLate (s : State) (f : TokFrame) : State :=
  demandWake { s with rte := { s.rte with late := s.rte.late ++ [(f.dstStall, { f with rx := none })] } } f.dstStall

/-- A close waits behind frames of its source that wait for their stalls (DEDUCED, assumption 92). -/
def behindLate (s : State) (f : TokFrame) : Bool :=
  s.rte.late.any (fun x => x.2.srcModule == f.srcModule && x.2.srcStall == f.srcStall && x.2.layer == f.layer)

/-- A frame past checks 1 and 2: the plan tag, checks 4 to 7, then its stall (R181, R319). -/
def processTok (s : State) (f : TokFrame) : State :=
  if f.planTag ≠ getF s R.gtePlan_planTag ∨ s.mode == .halted ∨ s.mode == .ready then
    refuseTok (if f.planTag ≠ getF s R.gtePlan_planTag then planMismatch s 0 f.planTag else s) f 5 false
  else match tokChecks s f with
    | some s => s
    | none =>
      if f.kind = 4 then takeWake s f
      else if f.kind = 3 then
        if behindLate s f then { s with rte := { s.rte with late := s.rte.late ++ [(0xFFFF, { f with rx := none })] } }
        else deliver s f
      else if bit f.flags 0 && onF s R.genStall_idle f.dstStall && f.kind != 8 then discardIdle s f
      else if isResting (getStall s f.dstStall) then keepLate s f
      else deliver s f

/-! ## The hold area (R45, R50, R405) -/

/-- Bytes held (DEDUCED, assumption 90). -/
def heldBytes (s : State) : Nat := (s.rte.held.map (fun f => f.bodyLen)).sum

/-- PRT.HOLD_STAT and the XOFFs follow the bytes held. -/
def showHold (s : State) : State :=
  let n := heldBytes s
  let size := getF s R.prtHold_sizeMib * 2 ^ 20
  let room := getF s R.prtHold_headroomMib * 2 ^ 20
  let pass := match s.rte.held with
    | f :: _ => 1 + f.flags % 2
    | [] => 0
  let was := onF s R.prtHoldStat_paused
  let on := decide (size ≤ n + room) || (was && decide (size ≤ n + 2 * room))
  let last := getF s R.prtHoldStat_passHeld
  let prio := if (if pass = 0 then last else pass) = 2 then getF s R.prtCtl_bwdPcp else getF s R.prtCtl_fwdPcp
  let s := setFs s [(R.prtHoldStat_usedKib, ceilDiv n 1024), (R.prtHoldStat_passHeld, pass), (R.prtHoldStat_paused, b2n on)]
  if was = on then s else forEach (List.range 24) (fun s port => setXoff s port prio on) s

/-- Hold a frame, or drop it when the area is full (DEDUCED, assumption 89). -/
def holdTok (s : State) (f : TokFrame) : State :=
  if getF s R.prtHold_sizeMib * 2 ^ 20 < heldBytes s + f.bodyLen then
    let s := bumpF s R.prtHoldStat_dropped 0 1
    raise s 0xB00A cPkg (f.flags % 2) (getF s R.prtHoldStat_dropped)
  else showHold { s with rte := { s.rte with held := s.rte.held ++ [f] } }

/-- A received token frame (R45, R50, R319). -/
def takeTok (s : State) (f : TokFrame) : State :=
  if !tokForm f then refuseTok (bumpF s R.rteRefused_format 0 1) f 4 true
  else
    let n := stepNo s
    if f.step = n + 1 then holdTok s f
    else if f.step ≠ n then
      let s := raise (bumpF s R.rteRefused_stale 0 1) 0x8001 cPkg (f.step % 2 ^ 32) f.srcModule
      refuseTok s f 3 false
    else if bit f.flags 0 && getF s R.genPass_pass == 1 then holdTok s f
    else processTok s f

/-- Release the held frames in order of arrival; those of a pass still to come are held again. -/
def releaseHeld (s : State) : State :=
  let l := s.rte.held
  forEach l (fun s f => takeTok s f) (showHold { s with rte := { s.rte with held := [] } })

/-- The kinds a frame row takes: its own, and those no row names. -/
def rowTakes (kind : Nat) (f : TokFrame) : Bool := f.kind == kind || f.kind == 0 || decide (8 < f.kind)

/-- A token frame from the fabric; its barn's full ingress buffer holds it back (R113). -/
def fabricTok (s : State) (f : TokFrame) : State :=
  if ingressRoom s f then takeTok s f else meshHold s { f with rx := none }

/-- The row of a token frame: from the fabric through its port, or over the mesh, where it must be the frame that arrives
next (DEDUCED, assumption 86) (DEDUCED, assumption 87). -/
def frameRow (kind : Nat) (f : TokFrame) (s : State) : Out :=
  inModule s (fun s =>
    if !rowTakes kind f then s
    else match f.rx with
      | some r => if r.port < 24 then received s r (getF s R.prtCtl_tokenUdp) (fun s => fabricTok s f) else s
      | none => match meshTake s f with
        | some t => takeTok t f
        | none => s)

def execDispatchFrame (f : TokFrame) (s : State) : Out := frameRow 1 f s

def execReturnFrame (f : TokFrame) (s : State) : Out := frameRow 2 f s

def execCloseFrame (f : TokFrame) (s : State) : Out := frameRow 3 f s

def execWakeFrame (f : TokFrame) (s : State) : Out := frameRow 4 f s

def execSummaryFrame (f : TokFrame) (s : State) : Out := frameRow 5 f s

def execQueryFrame (f : TokFrame) (s : State) : Out := frameRow 6 f s

def execPartialFrame (f : TokFrame) (s : State) : Out := frameRow 7 f s

def execRefuseFrame (f : TokFrame) (s : State) : Out := frameRow 8 f s

/-! ## A stall wakes (R112, R113) -/

/-- Deliver the frames that waited for a stall, and closes that waited behind them. -/
def deliverLate (s : State) (p : Nat) : State :=
  let mine := s.rte.late.filter (fun x => x.1 == p)
  let s := { s with rte := { s.rte with late := s.rte.late.filter (fun x => x.1 != p) } }
  let s := forEach mine (fun s x => processTok s x.2) s
  let closes := s.rte.late.filter (fun x => x.1 == 0xFFFF)
  let s := { s with rte := { s.rte with late := s.rte.late.filter (fun x => x.1 != 0xFFFF) } }
  forEach closes (fun s x => processTok s x.2) s

/-- A granted stall wakes and takes the frames that waited for it. -/
def stallWoken (p : Nat) (s : State) : State :=
  let t := wakeComplete s p
  if isRunning (getStall t p) then deliverLate t p else t

/-- CLOSE_WAIT (R335): once per layer per step, for the first layer that still lacks a close. -/
def closeWait (s : State) : State :=
  match s.rte.firstClose with
  | none => s
  | some a =>
    if onF s R.rteClose_dispatchClosed || decide (s.now < a + 25 * getF s R.rteCtl_closeAlarmUs) then s
    else match (servedLayers s).find? (fun l => !allClosed s 0 l && !s.once.contains (0x8008, l)) with
      | none => s
      | some l =>
        let m := ((List.range (modules s)).find? (fun m =>
          !(sources s m l).all (fun p => s.rte.closes.contains ⟨0, l, m, p⟩))).getD 0
        raiseOnce s 0x8008 l cPkg l m

def execCloseWait (s : State) : Out := inModule s closeWait

end Sys2Proof.Machine
end

