-- ==== Sys2Proof/Machine/Barrier.lean ====
section
/-! DEFINITION. Machine/Barrier.lean: LAYER, the forward barrier, and the ends of backward (R290 to R293, R295). -/
namespace Sys2Proof.Machine
open Sys2Proof

/-! ## LAYER (R292, R324) -/

/-- The next LAYER, FWD_END or END after an index. -/
def nextBlock (prog : List Nat) (ix : Nat) : Nat :=
  ((rangeFrom (ix + 1) (prog.length - (ix + 1))).find? (fun j =>
    let op := insOp (prog.getD j 0)
    op == 1 || op == 2 || op == 3)).getD (prog.length - 1)

/-- Every source that closes a layer toward this module has closed it in the present pass (DEDUCED, assumption 93). -/
def layerClosed (s : State) (l : Nat) : Bool := !serves s (ownIndex s) l || allClosed s (nowPass s) l

/-- LAYER. -/
def runLayer (p : Nat) (s : State) (w : Nat) : State :=
  let l := bits w 55 47
  let idle := bit w 25 && routedCount s p l == 0
  if idle && layerClosed s l then jump s p (nextBlock (programOf s p) (insAt s p))
  else if idle then s
  else advance (modStall s p (fun t =>
    { t with layer := l, tensor := bits w 46 43, expert := if bit w 42 then some (bits w 41 26) else none })) p

def execLayer (p : Nat) (s : State) : Out := issue p 0x03 s (runLayer p)

/-! ## FWD_END and END (R290, R291, R293, R321) -/

/-- Close every layer the stall sources in a pass. -/
def closeAll (s : State) (p pass : Nat) : State :=
  forEach ((List.range (jobLayers s)).filter (fun l => (sources s (ownIndex s) l).contains p)) (fun s l => closeLayer s p pass l) s

/-- FWD_END: the stall waits until backward begins; once it has begun, it goes on. -/
def runFwdEnd (p : Nat) (s : State) (_ : Nat) : State :=
  let s := closeAll s p 0
  if (getStall s p).stop then s
  else if inBackward s then advance (setF s R.genStall_pass p 2) p
  else noteArrival (setF s R.genStall_atFwdEnd p 1)

def execFwdEnd (p : Nat) (s : State) : Out := issue p 0x01 s (runFwdEnd p)

/-- The stall's own asynchronous work is complete. -/
def asyncDone (s : State) (p : Nat) : Bool :=
  let t := getStall s p
  t.ops.isEmpty && t.sets.isEmpty && t.mmq.isEmpty && t.votes.isEmpty && t.geVotes.isEmpty
    && (getChan s (64 + p)).st == 0

/-- END: the program is complete for the step once what it issued is (DEDUCED, assumption 96). -/
def runEnd (p : Nat) (s : State) (_ : Nat) : State :=
  if !asyncDone s p ∨ !(getStall s p).combines.isEmpty then s
  else
    let s := closeAll s p 1
    if (getStall s p).stop then s
    else modStall (setF s R.genStall_pass p 3) p (fun t => { t with idleSince := s.now })

def execEndProgram (p : Nat) (s : State) : Out := issue p 0x02 s (runEnd p)

/-! ## Backward begins (R45, R290, R291) -/

/-- Token frames of this module still on their way out. -/
def sendsPending (s : State) : Bool :=
  s.rte.mesh.any (fun x => x.frame.srcModule == ownIndex s) || s.prt.queue.any (fun f => match f.body with
    | .tok _ => true
    | _ => false)

/-- The conditions of R290. -/
def barrierMet (s : State) : Bool :=
  s.mode == .running && getF s R.genPass_pass == 1 && (boundStalls s).all (fun p => arrivedNow s p && asyncDone s p)
    && !sendsPending s

/-- What the start of backward does to one bound stall. -/
def beginStall (s : State) (p : Nat) : State :=
  if onF s R.genStall_atFwdEnd p then advance (setF (setF s R.genStall_atFwdEnd p 0) R.genStall_pass p 2) p
  else if ownsOthers s p then requestWake s p .program false
  else setF s R.genStall_idle p 1

/-- RTE.HOMES counts the slots of one pass. -/
def clearHomes (s : State) : State :=
  forEach (List.range 512) (fun s p =>
    setF (setF (setF (setF s R.rteHomes_count0 p 0) R.rteHomes_count1 p 0) R.rteHomes_count2 p 0) R.rteHomes_count3 p 0) s

/-- BACKWARD_BEGIN. -/
def backwardBegin (s : State) : State :=
  if !barrierMet s then s
  else
    let s := setFs s [(R.genPass_pass, 2),
      (R.genPass_fwdTicks, min (2 ^ 32 - 1) (s.now - getF s R.gteCommitTime_watch))]
    releaseHeld (clearHomes (forEach (boundStalls s) beginStall s))

def execBackwardBegin (s : State) : Out := inModule s backwardBegin

/-- FORWARD_BARRIER_SLOW (R290): once per step. -/
def barrierSlow (s : State) : State :=
  match s.job.firstArrival with
  | none => s
  | some a =>
    if getF s R.genPass_pass = 1 ∧ a + 25 * getF s R.genCtl_fwdAlarmUs ≤ s.now then
      raiseOnce s 0x7004 0 cPkg (countIf (boundStalls s) (fun p => !arrivedNow s p)) ((s.now - a) / 25)
    else s

def execForwardBarrierSlow (s : State) : Out := inModule s barrierSlow

/-! ## Backward is complete (R46, R293) -/

/-- Every bound stall has executed END or is idle, and every trough bank has drained (R293, R296) (DEDUCED, assumption 95). -/
def backwardOver (s : State) : Bool :=
  s.mode == .running && getF s R.genPass_pass == 2
    && (boundStalls s).all (fun p => getF s R.genStall_pass p == 3 || onF s R.genStall_idle p)
    && (List.range 512).all (fun p => getF s R.genStall_bank0 p == 0 && getF s R.genStall_bank1 p == 0
      && (getStall s p).touts.isEmpty) && s.upd.lines.isEmpty

/-- BACKWARD_COMPLETE: the update programs begin. -/
def backwardComplete (s : State) : State :=
  if backwardOver s then startUpdate (setF s R.genPass_pass 0 3) else s

def execBackwardComplete (s : State) : Out := inModule s backwardComplete

end Sys2Proof.Machine
end

