-- ==== Sys2Proof/Machine/Ring.lean ====
section
/-! DEFINITION. Machine/Ring.lean: command rings, the event ring's placement, taking a command, NOP, HALT and the
completion with BUSY (R133, R141 to R147, R153, R154). -/
namespace Sys2Proof.Machine
open Sys2Proof

/-! ## Ring placement and doorbells -/

/-- Records of a ring. -/
def ringSize (s : State) (r : Nat) : Nat := 64 * 2 ^ getF s R.ctlRingCfg_sizeCode r

/-- The next record to be taken. -/
def ringConsumer (s : State) (r : Nat) : Nat := getF s R.ctlRingStatus_consumer r

/-- Every record up to here is eligible. -/
def ringProducer (s : State) (r : Nat) : Nat := getF s R.ctlRingDoorbell_producer r

/-- A ring has an eligible record. -/
def ringPending (s : State) (r : Nat) : Bool := ringConsumer s r != ringProducer s r

/-- Distance from `a` on to `b` among free-running u32 indexes. -/
def indexAhead (a b : Nat) : Nat := (b + 2 ^ 32 - a) % 2 ^ 32

/-- Status of a write to CTL.RING_DOORBELL (R143). -/
def doorbellStatus (s : State) (r v : Nat) : Nat :=
  let c := ringConsumer s r
  let ahead := indexAhead c (bits v 31 0)
  if ringSize s r < ahead ∨ ahead < indexAhead c (ringProducer s r) then 3 else 0

/-- RING_DOORBELL (R143). -/
def doorbell (r v : Nat) (s : State) : State :=
  if doorbellStatus s r v = 0 then setF s R.ctlRingDoorbell_producer r (bits v 31 0) else s

def execRingDoorbell (ring producer : Nat) (s : State) : Out := onUnit 2 ring s (doorbell ring producer)

/-- Status of a write to CTL.RING_CFG: the ring must be empty; then its place and size are judged. -/
def ringCfgStatus (s : State) (r v : Nat) : Nat :=
  if ringPending s r then 2
  else if 10 < bits v 3 0 ∨ hbmEnd < bits v 47 12 * 4096 + 64 * 64 * 2 ^ bits v 3 0 then 3 else 0

/-- RING_CFG_WRITE (R141): the producer becomes the consumer. -/
def ringCfg (r v : Nat) (s : State) : State :=
  if ringCfgStatus s r v = 0 then
    setF (setF (setF s R.ctlRingCfg_base4k r (bits v 47 12)) R.ctlRingCfg_sizeCode r (bits v 3 0))
      R.ctlRingDoorbell_producer r (ringConsumer s r)
  else s

def execRingCfgWrite (ring value : Nat) (s : State) : Out := onUnit 2 ring s (ringCfg ring value)

/-- Status of a write to CTL.EVT_CFG (R154). -/
def evtCfgStatus (s : State) (v : Nat) : Nat :=
  if getF s R.ctlEvtProducer_producer ≠ getF s R.ctlEvtConsumer_consumer then 2
  else if 9 < bits v 3 0 ∨ hbmEnd < bits v 47 12 * 4096 + 32 * 2048 * 2 ^ bits v 3 0 then 3 else 0

/-- EVT_CFG_WRITE (R154): a move changes neither index. -/
def evtCfg (v : Nat) (s : State) : State :=
  if evtCfgStatus s v = 0 then
    setFs s [(R.ctlEvtCfg_base4k, bits v 47 12), (R.ctlEvtCfg_sizeCode, bits v 3 0)]
  else s

def execEvtCfgWrite (value : Nat) (s : State) : Out := inModule s (evtCfg value)

/-- Status of a write to CTL.EVT_CONSUMER. -/
def evtConsumerStatus (s : State) (v : Nat) : Nat :=
  let c := getF s R.ctlEvtConsumer_consumer
  if indexAhead c (getF s R.ctlEvtProducer_producer) < indexAhead c (bits v 31 0) then 3 else 0

/-- EVT_CONSUMER_WRITE (R153). -/
def evtConsumer (v : Nat) (s : State) : State :=
  if evtConsumerStatus s v = 0 then setF s R.ctlEvtConsumer_consumer 0 (bits v 31 0) else s

def execEvtConsumerWrite (value : Nat) (s : State) : Out := inModule s (evtConsumer value)

/-! ## Taking a command -/

/-- The opcodes of all chapters. -/
def opcodes : List Nat :=
  [0x0001, 0x0002, 0x0003, 0x0004, 0x0005, 0x3001, 0x3002, 0x3003, 0x9001, 0xD001, 0xE001, 0xE002, 0xE003, 0xE004]

/-- A record's fields (R142). -/
def parseCmd (r : Nat) (b : Bytes) : CmdRec :=
  { ring := r, opcode := fieldAt b 0 2, tag := fieldAt b 4 4, planTag := fieldAt b 8 8,
    args := (List.range 6).map (fun i => fieldAt b (16 + 8 * i) 8) }

/-- The bytes of a ring's next record. -/
def nextRecord (s : State) (r : Nat) : Bytes :=
  readBytes s (getF s R.ctlRingCfg_base4k r * 4096 + 64 * (ringConsumer s r % ringSize s r)) 64

/-- The management core can take ring `r`'s next record: no command runs, and ring 1 goes first (R141, R143). -/
def canTake (s : State) (r : Nat) : Bool :=
  upStates s && s.job.running.isNone && ringPending s r && (r == 1 || !ringPending s 1)

/-- Argument `i` of a command. -/
def arg (c : CmdRec) (i : Nat) : Nat := c.args.getD i 0

/-- Take the next record of a ring and run it when it is this row's command. An unknown opcode or a nonzero reserved field
completes with FORMAT, whichever row takes it (DEDUCED, assumption 15). -/
def takeCmd (ring op : Nat) (s : State) (run : State → CmdRec → State) : Out :=
  onUnit 2 ring s (fun s =>
    if canTake s ring then
      let b := nextRecord s ring
      let c := parseCmd ring b
      let t := setF s R.ctlRingStatus_consumer ring (ringConsumer s ring + 1)
      if !opcodes.contains c.opcode || !zeroAt b 2 2 then complete t c 4 0
      else if c.opcode = op then run t c else s
    else s)

/-- The state is judged first: NOT_NOW with no side effect (R145). -/
def legalIn (ok : Bool) (s : State) (c : CmdRec) (run : State → CmdRec → State) : State :=
  if ok then run s c else complete s c 2 0

/-- The plan_tag field of a command that changes structure (R133). -/
def planChecked (s : State) (c : CmdRec) (run : State → CmdRec → State) : State :=
  if c.planTag = getF s R.gtePlan_planTag then run s c else planMismatch (complete s c 5 0) 2 c.planTag

/-- A command goes on past this instant: `due` is when the work that only time ends is over, `count` what its completion
gives. -/
def startLong (s : State) (c : CmdRec) (due : Option Nat) (count : Nat) : State :=
  { s with job := { s.job with running := some { cmd := c, taken := s.now, busy := false, due := due, count := count } } }

/-- A command goes on until another row ends it. -/
def startRunning (s : State) (c : CmdRec) : State := startLong s c none 0

/-- Whether the command in progress has taken its time. -/
def timeOver (s : State) (r : Running) : Bool := r.due.all (fun d => decide (d ≤ s.now))

/-- NOP (R147). -/
def execNop (ring : Nat) (s : State) : Out := takeCmd ring 0x0001 s (fun s c => complete s c 0 0)

/-- HALT (R147): the detail gives the step reached. -/
def haltCmd (s : State) (c : CmdRec) : State :=
  complete (enterHalted s 1 false) c 0 (getF s R.gteStep_step)

def execHalt (ring : Nat) (s : State) : Out := takeCmd ring 0x0002 s (fun s c => legalIn (inJob s) s c haltCmd)

/-- COMMAND_BUSY (R144). -/
def commandBusy (s : State) : State :=
  match s.job.running with
  | none => s
  | some r =>
    if r.busy || decide (s.now < r.taken + 2500) then s
    else sendCompletion { s with job := { s.job with running := some { r with busy := true } } } r.cmd 1 0

def execCommandBusy (s : State) : Out := inModule s commandBusy

end Sys2Proof.Machine
end

