-- ==== Sys2Proof/Machine/Harness.lean ====
section
/-! DEFINITION. Machine/Harness.lean: loading, unloading and amending the harness image, and the full write of a tile from
its master values (R174 to R183, R236, R447, R448, R476, R477). -/
namespace Sys2Proof.Machine
open Sys2Proof

/-! ## The ten checks of a load (R176) -/

/-- An image lies wholly in HBM outside the harness region, and its length is its header's total_len, a multiple of 8. -/
def imageSpan (s : State) (a n : Nat) : Bool :=
  decide (0 < n) && n % 8 == 0 && decide (a + n ≤ hbmEnd) && !meets a n harnessBase 0xFF00000 && readNat s (a + 8) 4 == n

/-- Largest full image. -/
def imageMax : Nat := 128 * 2 ^ 20

/-- A stall is live with 32 live tiles (check 8). -/
def stallReady (s : State) (p : Nat) : Bool :=
  let t := getStall s p
  t.st != .disabled && countIf t.live (fun x => !t.bad.contains x) == 32

/-- The placements of a module. -/
def ownPlaces (i : Image) (own : Nat) : List Placement := i.placement.filter (fun x => x.module == own)

/-- The stalls a module's placements name. -/
def ownStalls (i : Image) (own : Nat) : List Nat := distinct ((ownPlaces i own).map (fun x => x.stall))

/-- Check 7: the module index, and the bay of its MODULES record (R165). -/
def bayMatches (s : State) (i : Image) (own : Nat) : Bool :=
  match i.modules[own]? with
  | none => false
  | some m => (m.installation == 0 || m.installation == getF s R.bruBayInstall_installationId)
      && (m.bay == 0xFFFF || m.bay == getF s R.bruBayId_bayNumber)

/-- A module address is set (check 9, R396). -/
def addressSet (s : State) : Bool := moduleAddr6 s != 0 || onF s R.prtAddr4_valid

/-- The home regions the secured set needs (R448): address and bytes per populated channel. -/
def homeRegions (s : State) (groups : List (List Nat)) : List (Nat × Nat) :=
  ((List.range 8).filter (fun c => onF s R.lftChannel_populated c)).map (fun c =>
    (homeBase s c, regionPages (groups.getD c []).length * pageSize))

/-- Check 10: the loft holds what the image needs (R346, R448). -/
def loftSuits (s : State) (i : Image) (own : Nat) : Bool :=
  let ext := extents i own [0, 1, 2, 3, 4, 5, 6, 7]
  let homes := homeRegions s (securedGroups s i own)
  ((i.modules[own]?.map (fun m => decide (m.loftGib ≤ getF s R.bruFit_loftChannelGib))).getD false)
    && (ownPlaces i own).all (fun x => fitted s x.loftAddr 1) && ext.all (fun e => fitted s e.1 e.2)
    && homes.all (fun h => fitted s h.1 h.2 && ext.all (fun e => !meets h.1 h.2 e.1 e.2))

/-- The first of checks 2 to 10 that fails, with its status; `b` is the copied image and `own` the module index. -/
def loadFault (s : State) (c : CmdRec) (b : Bytes) (i : Image) (own : Nat) : Option (Nat × Nat) :=
  if !imageForm 0 0 b then some (4, 2)
  else if !imageSigned s b then some (6, 3)
  else if planTagOf i.raw ≠ i.planTag ∨ i.planTag = 0 then some (4, 4)
  else if c.planTag ≠ i.planTag then some (5, 5)
  else if !recordsOk i then some (4, 6)
  else if !(decide (own < i.job.moduleCount) && bayMatches s i own) then some (3, 7)
  else if !(ownStalls i own).all (stallReady s) then some (7, 8)
  else if fabricUp s < i.job.portsMin ∨ (1 < i.job.moduleCount ∧ !addressSet s) then some (9, 9)
  else if !loftSuits s i own then some (9, 10)
  else none

/-! ## Records into their units (R177) -/

/-- RTE.ARB from ARBITRATION (R173, R334). -/
def loadArb (s : State) (i : Image) (own : Nat) : State :=
  let s := forEach (List.range 512) (fun t p => setF (setF t R.rteArb_hbmWeight p 16) R.rteArb_meshWeight p 16) s
  forEach (i.arbitration.filter (fun r => r.1 == own))
    (fun t r => setF (setF t R.rteArb_hbmWeight r.2.1 r.2.2.1) R.rteArb_meshWeight r.2.1 r.2.2.2) s

/-- UPD.CHIP.programs. -/
def loadPrograms (s : State) (i : Image) : State :=
  forEach (List.range 4) (fun t z => setF t R.updChip_programs z i.updates.length) s

/-- A home region begins empty: its group record and directory are written afresh, every slot empty (R448, assumption 34). -/
def freshHome (s : State) (c : Nat) : State :=
  let g := s.team.groups.getD c []
  let base := homeBase s c
  let n := (1 + dirPages g.length) * pageSize
  let s := unpoison (rebrand { s with mem := tdrop s.mem base (base + n) } base n) base n
  forEach (g.mapIdx (fun i a => (i, a))) (fun s x => quietWrite s (dirEntry base x.1) (leBytes 8 x.2)) s

/-- The secured set and its registers (R447, R448): no step of the new job is secured yet. -/
def loadGroups (s : State) (i : Image) (own : Nat) : State :=
  let g := securedGroups s i own
  let s := forEach (List.range 8) (fun t c =>
    let n := (g.getD c []).length
    setF (setF t R.pairGroup_ownPages c n) R.pairHome_need64k c (regionPages n)) s
  let s := { s with team := { s.team with groups := g, pages := [], dirty := [], allDirty := true, step := none,
                                          awaits := none, snaps := [] } }
  let s := setFs s [(R.pairSecure_committed, 0), (R.pairPrev_previous, 0), (R.pairSecure_prevValid, 0)]
  forEach ((List.range 8).filter (fun c => onF s R.lftChannel_populated c)) freshHome s

/-- Histories, flatline counters and running maxima start empty (R263, R271). -/
def clearHistories (s : State) : State :=
  forEach (List.range 128) (fun t k => setF (setF (setF (setF t R.fmtFlatCnt_count0 k 0) R.fmtFlatCnt_count1 k 0)
    R.fmtFlatCnt_count2 k 0) R.fmtFlatCnt_count3 k 0) { s with fmt := Fmt.reset }

/-- Steps 1 and 2 of R177. -/
def installImage (s : State) (i : Image) (own : Nat) : State :=
  let s := setFs s [(R.hrnStatus_moduleIndex, own), (R.hrnStatus_moduleCount, i.job.moduleCount),
    (R.hrnStatus_imageKib, ceilDiv i.length 1024), (R.hrnBuild_buildId, i.buildId), (R.fmtSeed_jobSeed, i.job.seed),
    (R.fmtStatus_numericMode, b2n i.job.narrow), (R.pairCtl_strict, b2n i.strict), (R.secScrub_clean, 0)]
  clearHistories (loadGroups (loadPrograms (loadArb s i own) i) i own)

/-- A load is refused (R177). -/
def refuseLoad (s : State) (c : CmdRec) (f : Nat × Nat) : State :=
  complete (raise (setF s R.hrnStatus_state 0 0) 0x3003 cPkg f.1 f.2) c f.1 0

/-- The arrays of these stalls are to be written: those that rest are woken through the governor (R476). -/
def toWrite (s : State) (ps : List Nat) : State := wakeForWrites { s with job := { s.job with toWrite := ps } } ps

/-- A write still waits for one of these stalls to be AWAKE (R476) (DEDUCED, assumption 67). -/
def writesWait (s : State) (ps : List Nat) : Bool := ps.any (fun p => isResting (getStall s p))

/-- HARNESS_LOAD (R176, R177). -/
def loadCmd (s : State) (c : CmdRec) : State :=
  let a := arg c 0
  let n := arg c 1
  let own := arg c 2
  let s := raise s 0x3001 cPkg n own
  if !(imageSpan s a n && decide (n ≤ imageMax)) then refuseLoad s c (3, 1)
  else
    let s := copy s a harnessBase n
    let b := readBytes s harnessBase n
    let i := decodeImage (sectionsOf b) n (fieldAt b 0x10 8) (fieldAt b 0x20 8)
    match loadFault s c b i own with
    | some f => refuseLoad s c f
    | none =>
      let s := startRunning (installImage (setF s R.hrnStatus_state 0 1) i own) c
      toWrite { s with job := { s.job with loading := some i } } (ownStalls i own)

def execHarnessLoad (ring : Nat) (s : State) : Out :=
  takeCmd ring 0x3001 s (fun s c => legalIn (s.mode == .ready) s c loadCmd)

/-! ## Full write of a tile (R236, R238, R239) -/

/-- A block's master values. One that is not finite, or lies in a line that cannot be read, is a free value. -/
def masters (s : State) (pl : Placement) : State × List Exact :=
  let sl := progSlots s pl.updateProgram
  let m := planeIn sl 0
  let f := planeFormat s 0 m
  let a := planeAddr m (firstSlot sl pl.loftAddr)
  let n := 512 * blockCols pl.twoSlice
  let bad := poisoned s a (n * m.width)
  let one := fun (k c : Nat) =>
    if badKind (fm f) c ≠ 0 ∨ bad.any (fun l => meets l 64 (a + m.width * k) m.width) then
      codeExact (fm f) (Config.freeNat s.draws (4096 + k) % 2 ^ (8 * m.width))
    else codeExact (fm f) c
  let row := blockCols pl.twoSlice * m.width
  let b := (List.range 512).flatMap (fun r => pieces (blockCols pl.twoSlice) m.width (readBytes s (a + row * r) row))
  (draw (loftRead s a (n * m.width)).1, (b.map leNat).mapIdx one)

/-- The larger of two magnitudes. -/
def larger (a b : Exact) : Exact := if a.num * b.den < b.num * a.den then b else a

/-- The largest magnitude of a list. -/
def largest (l : List Exact) : Exact := l.foldl larger ⟨false, 0, 1⟩

/-- M of R236: that of the block, or of its tensor when the block is all zero (DEDUCED, assumption 64). -/
def tensorMax (s : State) (pl : Placement) (own : List Exact) : Exact :=
  let m := largest own
  if m.num ≠ 0 then m
  else
    match s.job.image with
    | none => m
    | some i => largest (((ownPlaces i (ownIndex s)).filter (fun x =>
        x.layer == pl.layer && x.tensor == pl.tensor && x.home == pl.home)).map (fun x => largest (masters s x).2))

/-- e of R236. -/
def stepExp (two : Bool) (m : Exact) : Int :=
  if m.num = 0 then -24 else ceilLog2 (5 * m.num) (4 * m.den * (if two then 1007 else 31))

/-- The levels of a block at weight step 2^e, those that are not zero, and how many were clamped (DESIGN CHOICE, assumption 65). -/
def blockLevels (two : Bool) (e : Int) (l : List Exact) : List (Nat × Nat × Int) × Nat :=
  let cols := blockCols two
  let w := l.mapIdx (fun k m => (k, levelOf two (m.scale (-e))))
  ((w.flatMap (fun x => ((physLevels two (x.1 % cols) x.2.1).filter (fun y => y.2 != 0)).map
      (fun y => (x.1 / cols, y.1, y.2)))),
    countIf w (fun x => x.2.2))

/-- The achieved levels of a tile that are not zero. -/
def achieved (s : State) (tile : Nat) : List (Nat × Nat × Int) :=
  (s.nv.level.filter (fun e => rowKey tile 0 ≤ e.1 && e.1 < rowKey tile 512)).map
    (fun e => ((e.1 - rowKey tile 0) / 528, (e.1 - rowKey tile 0) % 528, e.2))

/-- The level record of a block takes its tile's achieved levels. -/
def recordTile (s : State) (pl : Placement) (tile : Nat) : State :=
  write s (levelAddr s pl) (recordImage (achieved s tile))

/-- wexp of the count records of a placed block's two halves (R345). -/
def setWexp (s : State) (pl : Placement) (e : Int) : State :=
  let sl := progSlots s pl.updateProgram
  let f := firstSlot sl pl.loftAddr
  forEach [0, 1] (fun t h =>
    writeNat t (countAddr sl (f + 256 * blockCols pl.twoSlice * h) + 13) 2 (ofSigned 16 e)) s

/-- Write one placed tile at a load: weight step, levels, level record (R177 step 3, R236) (DEDUCED, assumption 66). -/
def loadTile (s : State) (pl : Placement) (w : List (Nat × WriteReport)) : State :=
  let t := posOf (getStall s pl.stall) pl.slot
  let tile := tileIx pl.stall t
  let m := masters s pl
  let e := stepExp pl.twoSlice (tensorMax s pl m.2)
  let l := blockLevels pl.twoSlice e m.2
  let step := if e < -149 then Config.freeNat s.draws 42 else (fpow2 e).toNat
  let s := setWexp (setF m.1 R.tilWstep_wstep tile step) pl e
  let s := setF { s with once := s.once.filter (fun x => x != (0x5007, tile)) } R.calTileWear_saturated tile l.2
  let s := when (decide (0 < l.2)) (fun s => raiseOnce s 0x5007 tile (cTile pl.stall t) l.2 (b2n pl.twoSlice)) s
  let r := fullWrite s tile l.1 (reportFor w tile)
  let s := recordTile r.1 pl tile
  if r.2.failed then failTile s pl.stall t 3 else s

/-- Step 4 of R177. -/
def activate (s : State) (c : CmdRec) (i : Image) : State :=
  let s := setFs { s with mode := .harnessed } [(R.gtePlan_planTag, i.planTag), (R.hrnPlanNext_planTag, i.planTag),
    (R.gteNext_anyStep, 1), (R.hrnStatus_state, 2)]
  joinTeam (finish (raise s 0x3002 cPkg (i.planTag % 2 ^ 32) (i.planTag / 2 ^ 32)) c 0 i.planTag)

/-- HARNESS_LOAD_DONE (R177): `lost` are the stalls whose failure to wake or whose store made them unusable (R442). -/
def loadDone (w : List (Nat × WriteReport)) (lost : List Nat) (s : State) : State :=
  match s.job.running, s.job.loading with
  | some r, some i =>
    let ps := ownStalls i (ownIndex s)
    let gone := ps.filter (fun p => lost.contains p)
    if r.cmd.opcode ≠ 0x3001 ∨ s.mode ≠ .ready ∨ writesWait s (ps.filter (fun p => !gone.contains p)) then s
    else
      let s := { s with job := { s.job with image := some i, loading := none, toWrite := [] } }
      let s := forEach gone (fun t p => loseStall t p 2) s
      let s := forEach (ownPlaces i (ownIndex s)) (fun t pl =>
        if (getStall t pl.stall).st == .disabled then t else loadTile t pl w) s
      if ps.any (fun p => (getStall s p).st == .disabled) then
        forgetArrays (finish (raise s 0x3003 cPkg 7 8) r.cmd 7 0)
      else activate s r.cmd i
  | _, _ => s

def execHarnessLoadDone (w : List (Nat × WriteReport)) (lost : List Nat) (s : State) : Out := inModule s (loadDone w lost)

/-! ## Unloading (R178) -/

/-- Leave a job for READY: the team ends, its key is erased, held commands complete with NOT_NOW, every record is
discarded, and wear increments are flushed (R145, R178, R241, R446, R468). -/
def leaveJob (s : State) : State :=
  let s := dropImage (dropAmends (eraseTeamKey (clearTeam (leaveTeam s))) 2)
  let s := forEach (List.range 16) showRebuild (forEach (List.range 512) showRotation s)
  readyCommon s false

/-- HARNESS_UNLOAD (R178): the harness region is zeroed; the flush of wear and the entry to READY follow within 21 ms
(DESIGN CHOICE, assumption 162). -/
def unloadCmd (s : State) (c : CmdRec) : State :=
  startLong (draw (setF (rawZero s harnessBase 0xFF00000) R.hrnStatus_state 0 3)) c
    (some (s.now + Config.freeNat s.draws 178 % 525001)) 0

/-- The end of HARNESS_UNLOAD. -/
def unloadEnd (s : State) (c : CmdRec) : State :=
  finish (raise (leaveJob s) 0x3004 cPkg (getF s R.gtePlan_planTag % 2 ^ 32) 0) c 0 0

def execHarnessUnload (ring : Nat) (s : State) : Out :=
  takeCmd ring 0x3002 s (fun s c => legalIn (s.mode == .harnessed) s c (fun s c => planChecked s c unloadCmd))

/-! ## Amendments (R179, R180, R477) -/

/-- The image the next amendment applies to: the last held one's, else the active one (DEDUCED, assumption 68). -/
def projected (s : State) : Option Image :=
  match s.job.amends.getLast? with
  | some a => some a.image
  | none => s.job.image

/-- Space of held amendments. -/
def heldMax : Nat := 64 * 2 ^ 20

/-- The first of checks 2 to 6 of R179 that fails, with its status. -/
def amendFault (s : State) (c : CmdRec) (b : Bytes) (base new : Image) : Option (Nat × Nat) :=
  let proj := getF s R.hrnPlanNext_planTag
  if !imageForm 1 base.job.moduleCount b then some (4, 2)
  else if !imageSigned s b then some (6, 3)
  else if c.planTag ≠ proj ∨ fieldAt b 0x18 8 ≠ proj then some (5, 4)
  else if planTagOf new.raw ≠ new.planTag ∨ new.planTag = 0 then some (4, 5)
  else if !recordsOk new then some (4, 6)
  else none

/-- A refused amendment; check 4 is a plan mismatch (R179, R183). -/
def refuseAmend (s : State) (c : CmdRec) (f : Nat × Nat) (base : Nat) : State :=
  let s := complete (raise s 0x3007 cPkg f.1 f.2) c f.1 0
  if f.2 = 4 then
    planMismatch s 2 (if c.planTag = getF s R.hrnPlanNext_planTag then base else c.planTag)
  else s

/-- The registers that show held amendments. -/
def showHeld (s : State) : State :=
  setFs s [(R.hrnStatus_heldAmends, s.job.amends.length), (R.hrnStatus_structuralHeld, b2n (s.job.amends.any (fun a => a.structural))),
    (R.hrnHeld_heldBytes, (s.job.amends.map (fun a => a.length)).sum)]

/-- Event 0x3005's mask of replaced types (R185). -/
def typeMask (ts : List Nat) : Nat := (ts.map (fun t => 2 ^ (if t < 0x40 then t else t - 0x30))).sum

/-- Hold a passing amendment (R145, R179) (DEDUCED, assumption 69) (DEDUCED, assumption 70). -/
def holdAmend (s : State) (c : CmdRec) (b : Bytes) (new : Image) : State :=
  let ts := (sectionsOf b).map (fun p => p.1)
  let s := write s (harnessBase + imageMax + getF s R.hrnHeld_heldBytes) b
  let a : Amend := { cmd := c, image := new, types := ts, structural := ts.any structuralType, length := b.length,
                     staged := false }
  let s := setF (showHeld { s with job := { s.job with amends := s.job.amends ++ [a] } }) R.hrnPlanNext_planTag 0 new.planTag
  sendCompletion (raise s 0x3005 cPkg (new.planTag % 2 ^ 32) (typeMask ts)) c 1 0

/-- HARNESS_AMEND (R179). -/
def amendCmd (s : State) (c : CmdRec) : State :=
  let a := arg c 0
  let n := arg c 1
  match projected s with
  | none => complete s c 2 0
  | some base =>
    if !imageSpan s a n then refuseAmend s c (3, 1) 0
    else if 4 ≤ s.job.amends.length ∨ heldMax < getF s R.hrnHeld_heldBytes + n then refuseAmend s c (9, 1) 0
    else
      let b := readBytes s a n
      let new := decodeImage (mergeRaw base.raw (sectionsOf b)) base.length (fieldAt b 0x10 8) base.buildId
      match amendFault s c b base new with
      | some f => refuseAmend s c f (fieldAt b 0x18 8)
      | none => holdAmend s c b new

def execHarnessAmend (ring : Nat) (s : State) : Out :=
  takeCmd ring 0x3003 s (fun s c => legalIn (inJob s) s c amendCmd)

/-- The rule of a (layer, cls) in an image. -/
def ruleIn (i : Image) (layer cls : Nat) : Option (Nat × Bool × Bool) :=
  let at' := fun (l : Nat) => i.formats.find? (fun r => r.layer == l && r.cls == cls)
  ((at' layer).or (at' 0xFFFF)).map (fun r => (r.format, r.carry, r.mx))

/-- Histories of the (layer, cls) whose rule an amendment changes are emptied (R263). -/
def changedHistories (s : State) (old new : Image) : State :=
  let keep := fun (k : Nat) => ruleIn old (k / 8) (k % 8) == ruleIn new (k / 8) (k % 8)
  { s with fmt := { s.fmt with hist := s.fmt.hist.filter (fun e => keep e.1) } }

/-- What the commit of a TEAM amendment does (R477). -/
def amendTeam (s : State) (old new : Image) : State :=
  let s := setF s R.pairCtl_strict 0 (b2n new.strict)
  if teamRecIn old (ownIndex s) = teamRecIn new (ownIndex s) then s else joinTeam (leaveTeam s)

/-- The commit of one held amendment (R180). -/
def applyAmend (s : State) (a : Amend) : State :=
  match s.job.image with
  | none => s
  | some old =>
    let tag := getF s R.gtePlan_planTag
    let new := a.image
    let s := setF { s with job := { s.job with image := some new } } R.gtePlan_planTag 0 new.planTag
    let s := when (a.types.contains 0x06) (fun t => changedHistories t old new) s
    let s := when (a.types.contains 0x08) (fun t => loadPrograms t new) s
    let s := when (a.types.contains 0x41) (fun t => loadArb t new (ownIndex t)) s
    let s := when (a.types.contains 0x09) (fun t => amendTeam t old new) s
    complete (raise s 0x3006 cPkg (tag % 2 ^ 32) (new.planTag % 2 ^ 32)) a.cmd 0 new.planTag

/-- Every held amendment exchanges its stores, in order. -/
def applyAmends (s : State) : State :=
  let l := s.job.amends
  let s := forEach l applyAmend s
  showHeld { s with job := { s.job with amends := [] } }

end Sys2Proof.Machine
end

