-- ==== Sys2Proof/Machine/Window.lean ====
section
/-! DEFINITION. Machine/Window.lean: the end of the update phase, the gate window, gate-complete, the gate token and the
commit, and how a securing begins (R47, R49, R146 to R151, R180, R240, R261, R271, R293, R358, R366, R449, R453, R454). -/
namespace Sys2Proof.Machine
open Sys2Proof

/-! ## The gate window opens (R240, R358, R476) -/

/-- The delta lists of the step, in ascending chip, as the quarters of the delta area hold them (R364) (DEDUCED, assumption 163). -/
def windowLists (s : State) : List DeltaList := (List.range 4).flatMap (quarterLists s)

/-- The stalls that have pairs to write. -/
def windowStalls (s : State) : List Nat := distinct ((windowLists s).map (fun l => l.stall))

/-- Every chip that stands has reported done (DEDUCED, assumption 113). -/
def allChipsDone (s : State) : Bool :=
  (List.range 4).all (fun z => bit (getF s R.updStatus_chipsDone) z || (getChip s z).lost)

/-- A tile with a write pending aborts its idle re-trim. -/
def abortForWrites (s : State) : State :=
  forEach (windowLists s) (fun s l => abortRetrim s l.stall (tileIx l.stall (posOf (getStall s l.stall) l.slot))) s

/-- The module enters GATE: stalls with pairs to write are woken. -/
def openWindow (s : State) : State :=
  let s := { s with mode := .gate, job := { s.job with windowStart := s.now, gcReady := false, gcHeldSince := none,
                                                        notifiedHold := false } }
  toWrite (abortForWrites s) (windowStalls s)

/-- The last chip is done: totals, event 0x9005 where halves were deferred, 0x9002, and GATE unless the window is held. -/
def updateOver (s : State) : State :=
  let t := min (2 ^ 32 - 1) (s.now - s.upd.startTick)
  let s := setFs s [(R.updStatus_phase, 3), (R.updStatus_lastTicks, t)]
  let s := raise s 0x9002 cPkg t (getF s R.updStep_halves + getF s R.updStep_rows)
  if s.job.gateHold then s else openWindow s

/-- UPD_CHIP_DONE: a chip with no unit left writes its delta lists and reports done. -/
def chipDone (z : Nat) (s : State) : State :=
  let c := getChip s z
  if !c.active || c.unit.isSome || !c.units.isEmpty || s.mode != .running || linkDown s z then s
  else
    let s := write s (quarterBase s z) (quarterImage s c)
    let s := setF (setChip s z { c with active := false }) R.updChip_state z 4
    let s := setF s R.updStatus_chipsDone 0 (setBit (getF s R.updStatus_chipsDone) z true)
    let s := showDeferred s
    if allChipsDone s then updateOver s else s

def execUpdChipDone (z : Nat) (s : State) : Out := onUnit 4 z s (chipDone z)

/-! ## Array writes of the window (R239, R240, R242, R301, R366) -/

/-- The slots with lists and their entries, both halves together. -/
def windowSlots (s : State) : List ((Nat × Nat) × List (Nat × Nat × Int)) :=
  let ls := windowLists s
  (ls.map (fun l => (l.stall, l.slot))).eraseDups.map (fun k =>
    (k, (ls.filter (fun l => l.stall == k.1 && l.slot == k.2)).flatMap (fun l => l.entries)))

/-- Rows that the gate writes for a slot being filled into another tile are written there again (R233, R366) (DEDUCED, assumption 120). -/
def markRows (s : State) (p slot : Nat) (rows : List Nat) : State :=
  { s with cal := { s.cal with fills := s.cal.fills.map (fun f =>
      if f.stall = p ∧ f.slot = slot ∧ (f.phase ≤ 3 ∨ f.phase = 6) then { f with rows := distinct (f.rows ++ rows) } else f) } }

/-- Set levels of a fallback image exactly. -/
def imageWrite (s : State) (p i : Nat) (l : List (Nat × Nat × Int)) : State := recordWrite s (imageBase p i) l

/-- Write the listed pairs of one slot. A slot that waits for its fallback takes its new levels into its record. -/
def writeSlot (w : List (Nat × WriteReport)) (s : State) (x : (Nat × Nat) × List (Nat × Nat × Int)) : State :=
  let p := x.1.1
  let slot := x.1.2
  match placeOf s p slot with
  | none => s
  | some pl =>
    let s := markRows s p slot (x.2.map (fun y => y.1))
    let base := levelAddr s pl
    match fallbackOf s p slot with
    | some i => imageWrite (recordWrite s base x.2) p i x.2
    | none =>
      let pos := posOf (getStall s p) slot
      if (getStall s p).bad.contains pos then recordWrite s base x.2
      else
        let tile := tileIx p pos
        let l := x.2.filter (fun y => !(stuckOf s tile).contains (528 * y.1 + y.2.1))
        let r := writePairs s tile l (reportFor w tile)
        let s := recordWrite r.1 base (l.map (fun y => (y.1, y.2.1, level r.1 tile y.1 y.2.1)))
        let s := bumpF (bumpF s R.calGateWrite_pairsWritten 0 r.2.written) R.calGateWrite_pairsStuck 0 r.2.stuck.length
        if r.2.failed then failTile s p pos 3 else s

/-- Tiles that an earlier gate or load wore out. -/
def wornTiles (s : State) : List Nat :=
  (s.reg.filterMap (fun e => if e.2 = 0 then none else unitOf R.calTileWear_worn 17408 e.1)).filter
    (fun u => !(getStall s (u / 34)).bad.contains (u % 34))

/-- Clamped levels of the window, by tile, with event 0x5007 once per tile per step. -/
def showClamped (s : State) : State :=
  let ls := (List.range 4).flatMap (fun z => (getChip s z).lists.filter (fun l => decide (0 < l.clamped)))
  forEach ls (fun s l =>
    let pos := posOf (getStall s l.stall) l.slot
    let u := tileIx l.stall pos
    let s := bumpF s R.calTileWear_saturated u l.clamped
    raiseOnce s 0x5007 u (cTile l.stall pos) (getF s R.calTileWear_saturated u) (b2n l.two))
    (clearUnits s R.calTileWear_saturated 17408)

/-- Every array write of the window. -/
def windowWrites (w : List (Nat × WriteReport)) (s : State) : State :=
  let worn := wornTiles s
  let s := showClamped (setFs s [(R.calGateWrite_pairsWritten, 0), (R.calGateWrite_pairsStuck, 0)])
  let s := forEach (windowSlots s) (writeSlot w) s
  let s := forEach worn (fun s u => failTile s (u / 34) (u % 34) 4) s
  setF s R.calGateWrite_writeTicks 0 (min (2 ^ 20 - 1) (s.now - s.job.windowStart))

/-! ## Pushes of the window (R261, R271) -/

/-- Address and size of the numeric state area (R447) (DESIGN CHOICE, assumption 75). -/
def numericArea : Nat × Nat := (0x008FE0100000, 0x100000)

/-- The module writes its histories and counters to the numeric state area. -/
def touchNumeric (s : State) : State := markDirty (protect s numericArea.1 numericArea.2) numericArea.1 numericArea.2

/-- Push each (layer, cls) that converted onto its history, which keeps 16. -/
def pushHistories (s : State) : State :=
  let one := fun (h : Tab (List F32)) (k : Nat) =>
    if k % 8 ≤ 4 then tset h k ((tget 0 s.fmt.amaxIn k :: tget [] h k).take 16) else h
  { s with fmt := { s.fmt with hist := s.fmt.ran.foldl one s.fmt.hist } }

/-- The flatline counter of a layer. -/
def flatField (l : Nat) : Field :=
  match l % 4 with
  | 0 => R.fmtFlatCnt_count0
  | 1 => R.fmtFlatCnt_count1
  | 2 => R.fmtFlatCnt_count2
  | _ => R.fmtFlatCnt_count3

/-- A layer's flatline counter in the window, with event 0x6005. -/
def flatLayer (s : State) (l : Nat) : State :=
  let ran := s.fmt.ran.contains (lcKey l 1) || s.fmt.ran.contains (lcKey l 2)
  let g := magMax (tget 0 s.fmt.amaxOut (lcKey l 1)) (tget 0 s.fmt.amaxOut (lcKey l 2))
  let s := if !ran then s
    else if fzero? g then bumpF s (flatField l) (l / 4) 1
    else setF { s with fmt := { s.fmt with flatShown := s.fmt.flatShown.filter (fun x => x != l) } } (flatField l) (l / 4) 0
  let n := getF s (flatField l) (l / 4)
  let th := getF s R.fmtFlat_threshold
  if 0 < th ∧ th ≤ n ∧ !s.fmt.flatShown.contains l then
    raise { s with fmt := { s.fmt with flatShown := l :: s.fmt.flatShown } } 0x6005 cPkg l n
  else s

/-- The window's pushes, before gate-complete. -/
def windowPushes (s : State) : State :=
  touchNumeric (forEach (List.range (jobLayers s)) flatLayer (pushHistories s))

/-! ## Securing begins (R449) -/

/-- K: interval_k for a module that a TEAM record names, 1 otherwise (DEDUCED, assumption 143). -/
def interval (s : State) : Nat :=
  match s.job.image with
  | none => 1
  | some i => if (teamRecIn i (ownIndex s)).isSome then max 1 i.intervalK else 1

/-- The flatline counters. -/
def flatCounts (s : State) : Tab Nat := (List.range (jobLayers s)).map (fun l => (l, getF s (flatField l) (l / 4)))

/-- The pages of a group to protect: page index and address. -/
def groupPages (s : State) (g : Nat) : List Page :=
  (((s.team.groups.getD g []).mapIdx (fun i a => (i, a))).filter (fun x => s.team.allDirty || s.team.dirty.contains x.2)).map
    (fun x => { group := g, page := x.1, addr := x.2, buf := none, home := false, acked := false, sentAt := none })

/-- At gate-complete of a securing step every dirty page is protected. -/
def beginSecuring (s : State) : State :=
  let n := stepNo s
  if n % interval s ≠ 0 then s
  else
    let ps := (List.range 8).flatMap (groupPages s)
    let keep := s.team.snaps.filter (fun x => x.1 == getF s R.pairSecure_committed || x.1 == getF s R.pairPrev_previous)
    let s := { s with team := { s.team with
      pages := ps, dirty := [], allDirty := false, step := some n, started := s.now, awaits := some n,
      snaps := keep.filter (fun x => x.1 != n) ++ [(n, s.fmt, flatCounts s)] } }
    let s := setFs s [(R.pairSecure_inFlight, 1), (R.pairSecure_pagesLeft, ps.length)]
    let s := raise s 0xD00D cPkg (n % 2 ^ 32) ps.length
    if ps.isEmpty then endSecuring s else s

/-! ## The commit (R17, R149, R180) -/

/-- The value a register field takes at reset, by its key. -/
def resetOf (k : Nat) : Nat :=
  ((allRegs.findSome? (fun r => r.fields.find? (fun f => (unitOf f r.count k).isSome))).map (fun f => f.rst)).getD 0

/-- The pending values as they stood at the token's acceptance become active; later ones stay pending. -/
def commitPending (s : State) (snap : Tab Nat) : State :=
  { s with pend := s.pend.filter (fun e => tget? snap e.1 != some e.2),
           reg := snap.foldl (fun r e => tput (resetOf e.1) r e.1 e.2) s.reg }

/-- The four check enables that R434 names: brand_en, ge_chk_en, chk_fwd_en, chk_tps_en. -/
def checkEnables (s : State) : List Nat :=
  [getF s R.brdCtl_brandEn, getF s R.brdCtl_geChkEn, getF s R.tilCtl_chkFwdEn, getF s R.tilCtl_chkTpsEn]

/-- BRD.STATUS.bound_held and event 0xC00A (R434). -/
def showBound (s : State) (old : List Nat) : State :=
  let l := checkEnables s
  let off := (l.mapIdx (fun i v => if v = 0 then 2 ^ i else 0)).sum
  let s := setF s R.brdStatus_boundHeld 0 (b2n (off == 0))
  if l ≠ old ∧ off ≠ 0 then raise s 0xC00A cPkg off 0 else s

/-- Tiles whose range_code the commit changes: due at once (R227). -/
def changedRanges (s : State) (snap : Tab Nat) : List Nat :=
  snap.filterMap (fun e => match unitOf R.tilConv_rangeCode 17408 e.1 with
    | some u => if getF s R.tilConv_rangeCode u = e.2 then none else some u
    | none => none)

/-- A tile becomes due: the tick and its phases then (R227). With fresh_wake a resting stall asks for a wake (R231). -/
def makeDue (s : State) (u : Nat) : State :=
  if onF s R.calTileAge_due u then s
  else
    let p := u / 34
    let s := when (onF s R.calCtl_freshWake && isResting (getStall s p)) (fun s =>
      requestWake { s with cal := { s.cal with fresh := p :: s.cal.fresh.filter (fun q => q != p) } } p .program false) s
    setF { s with cal := { s.cal with dueAt := tset s.cal.dueAt u s.now,
                                      duePhases := tset s.cal.duePhases u (getF s R.calTileAge_phases u) } }
      R.calTileAge_due u 1

/-- A changed range_code makes its tile due. -/
def noteRange (s : State) (u : Nat) : State :=
  makeDue { s with cal := { s.cal with ranged := if s.cal.ranged.contains u then s.cal.ranged else u :: s.cal.ranged } } u

/-- Events that are not of a step: wear warnings once per tile. -/
def keptOnce : List Nat := [0x5008]

/-- Scale bytes of a layer for the step (R262). -/
def showScale (s : State) (l : Nat) : State :=
  forEach [(0, R.fmtScale_scaleC0), (1, R.fmtScale_scaleC1), (2, R.fmtScale_scaleC2), (3, R.fmtScale_scaleC3),
      (4, R.fmtScale_scaleC4)] (fun s x =>
    let r := fmtRule s l x.1
    let h := histMax s l x.1
    let v := if isFp8 r.format && !r.mx && !fzero? h then (delayedExp r.format (getF s R.fmtCtl_margin) h + 127).toNat else 0
    setF s x.2 l v) s

/-- Counters that each gate clears, with the number of their units. -/
def gateCounters : List (Field × Nat) :=
  [(R.clkStall_lateWakes, 512), (R.tilStatus_chkFail, 17408), (R.tilPhases_phasesStep, 17408),
   (R.tilPhases_tokensStep, 17408), (R.calTileWear_idleAborts, 17408), (R.fmtCount_saturated, 1),
   (R.fmtCount_eclipsed, 1), (R.fmtCount_carried, 1), (R.genCount_mmCycles, 512), (R.genCount_fallbackTokens, 512),
   (R.genCount_skipped, 512), (R.rteStep_dispatched, 1), (R.rteStep_rerouted, 1), (R.rteStep_dropped, 1),
   (R.rteClose_dispatchClosed, 1), (R.rteClose_received, 1), (R.rteHomes_count0, 512), (R.rteHomes_count1, 512),
   (R.rteHomes_count2, 512), (R.rteHomes_count3, 512), (R.rteQueue_counter, 8192), (R.updStep_halves, 1),
   (R.updStep_rows, 1), (R.updStep_saturated, 1), (R.updDeltaStat_entries, 1), (R.updDeltaStat_deferred, 1),
   (R.updDeltaStat_clamped, 1), (R.movStallCh_overflows, 512), (R.genStall_pc, 512), (R.genStall_pass, 512),
   (R.genStall_idle, 512), (R.genStall_atFwdEnd, 512), (R.genStall_bank0, 512), (R.genStall_bank1, 512)]

/-- Choices that this module's stalls admitted to an expert and that its home did not cut (R313, R316). -/
def keptChoices (s : State) (e : Nat) : Nat :=
  ((s.rte.admitted.filter (fun x => x.1 % 65536 == e)).map (fun x => x.2)).sum - tget 0 s.rte.cutBack e

/-- FREE VALUE. A home on another module whose intake took no token of this module may have been filled by the others
(DESIGN CHOICE, assumption 166). -/
def filledElsewhere (s : State) (e : Nat) : Bool := Config.freeNat (s.draws + e) 341 % 2 == 1

/-- The experts whose intake had a filled slot (R332): at this module's homes by their slots; at another's by the choices
sent there, else as the other modules filled it. -/
def filledExperts (s : State) : List Nat :=
  let own := (s.rte.queues.filter (fun q => q.2.kind == 1 && !(filledSlots s q.1).isEmpty)).filterMap
    (fun q => (homeHere s q.2.homeOrNb).map (fun h => h.expert))
  ((homeTable s).filter (fun h =>
    if h.module = ownIndex s then own.contains h.expert
    else decide (0 < keptChoices s h.expert) || filledElsewhere s h.expert)).map (fun h => h.expert)

/-- The inbound queues, read afresh (R320): a descriptor of zeros is unused. -/
def readQueues (s : State) : State :=
  let lo := queueDesc 0
  let ixs := distinct ((s.mem.filter (fun c => decide (lo ≤ c.1) && decide (c.1 < lo + 0x40000))).map (fun c => (c.1 - lo) / 32))
  let qs := (ixs.map (fun ix => (ix, parseQueue (readBytes s (queueDesc ix) 32)))).filter (fun x => x.2.kind != 0)
  let s := clearUnits s R.rteQueue_kind 8192
  forEach qs (fun s x => setF s R.rteQueue_kind x.1 x.2.kind) { s with rte := { s.rte with queues := qs } }

/-- What a step leaves on a stall is cleared. -/
def clearStall (t : Stall) : Stall :=
  { t with started := false, stop := false, regs := [], vregs := [], layer := 0, tensor := 0, expert := none, ops := [],
           sets := [], run := 0, bufs := [], mmq := [], moved := 0, touts := [], combines := [],
           late := none, wokenLate := false }

/-- Everything of the past step is cleared. -/
def clearStep (s : State) : State :=
  let filled := filledExperts s
  let s := forEach gateCounters (fun s x => clearUnits s x.1 x.2) s
  let s := { s with
    once := s.once.filter (fun x => keptOnce.contains x.1),
    job := { s.job with clampTiles := [], firstArrival := none, gcReady := false, gcHeldSince := none, notifiedHold := false },
    stalls := s.stalls.map (fun x => (x.1, clearStall x.2)),
    movs := s.movs.map (fun x => if 64 ≤ x.1 then (x.1, { x.2 with overflow := 0 }) else x),
    fmt := { s.fmt with atCommit := s.fmt.hist, amaxIn := [], amaxOut := [], ran := [], sat := [], ecl := [], car := [] },
    rte := { Rte.reset with held := s.rte.held, mesh := s.rte.mesh, bridgeLast := s.rte.bridgeLast, frameSeq := s.rte.frameSeq, filledPrev := filled },
    draws := s.draws + 65536,
    upd := { s.upd with handed := [], lines := [],
                        chips := s.upd.chips.map (fun x => (x.1, { Chip.reset with lost := x.2.lost })) } }
  forEach (List.range 4) (fun s z => if (getChip s z).lost then s else setF s R.updChip_state z 1)
    (setFs s [(R.updStatus_phase, 0), (R.updStatus_chipsDone, 0)])

/-- A pinned stall that rests when a step begins is woken (R291, R308: the step's stalls are woken by the feed, by wake-ahead
or by pin_awake; DEDUCED, assumption 35). -/
def wakePinned (s : State) : State :=
  wakeForWrites s ((List.range 512).filter (fun p => onF s R.clkStall_pinAwake p))

/-- The new step begins: queues, closes, programs, frames that waited for it (R45, R50, R291, R323). -/
def beginStep (s : State) : State :=
  let s := readQueues s
  let s := setFs s [(R.genPass_pass, 1), (R.rteClose_expected, expectedCloses s), (R.gteCommitTime_watch, s.now)]
  let s := showClosed s
  let s := wakePinned (forEach (boundStalls s) startProgram s)
  noteArrival (releaseHeld s)

/-- A gate commit. -/
def commitGate (s : State) (t : Token) : State :=
  let checks := checkEnables s
  let table := (getF s R.prtTable_count, getF s R.prtTable_base64)
  let ranges := changedRanges s t.snapshot
  let s := applyAmends { s with job := { s.job with token := none } }
  let s := { s with cal := { s.cal with ranged := [] } }
  let s := forEach ranges noteRange (commitPending s t.snapshot)
  let s := setFs s [(R.gteStep_step, t.step), (R.gteNext_expected, t.step + 1), (R.gteNext_anyStep, 0),
    (R.gteStatus_gateComplete, 0)]
  let s := { clearStep s with mode := .running }
  let s := showBound (clearSuspects s t.step) checks
  let s := when (decide (table ≠ (getF s R.prtTable_count, getF s R.prtTable_base64)))
    (fun s => { s with prt := { s.prt with table := readTable s } }) s
  let s := forEach (List.range (jobLayers s)) showScale (commitWeights s)
  beginStep s

/-- Every held amendment is staged. -/
def amendsStaged (s : State) : Bool := s.job.amends.all (fun a => a.staged)

/-- A token that waits commits once gate-complete is reported and every held command can run. -/
def tryCommit (s : State) : State :=
  match s.job.token with
  | some t => if atRest s && amendsStaged s then commitGate s t else s
  | none => s

/-- AMEND_STAGED (R180): the staging of the oldest unstaged amendment ends. -/
def amendStaged (s : State) : State :=
  match s.job.amends.findIdx? (fun a => !a.staged) with
  | none => s
  | some k =>
    let l := s.job.amends.mapIdx (fun i a => if i = k then { a with staged := true } else a)
    tryCommit { s with job := { s.job with amends := l } }

def execAmendStaged (s : State) : Out := inModule s amendStaged

/-! ## Gate-complete (R47, R150, R151, R240, R453, R454) -/

/-- What holds the report of gate-complete: 0 securing, 1 release, 2 the buffer (R453, R454). -/
def holdCause (s : State) : Option Nat :=
  if s.team.step.isSome then some 0
  else if s.team.awaits.any (fun n => decide (getF s R.pairRelease_step < n)) then some 1
  else if bufferMib s * 16 < (bufUsed s).length then some 2 else none

/-- GATE_DONE (R151). -/
def gateDone (s : State) (halting held backlog : Bool) : State :=
  let n := stepNo s
  let body := leBytes 8 n ++ leBytes 4 (getF s R.gteStatus_lastWindowTicks)
    ++ leBytes 4 (b2n halting + 2 * b2n held + 4 * b2n backlog)
  sendNumbered s { ctlFrame s 0x21 0 0 body with planTag := getF s R.gtePlan_planTag, step := n }

/-- Gate-complete is reported: securing begins, GATE_DONE goes out, then a plan mismatch halts or a held token commits. -/
def reportGate (s : State) : State :=
  let halting := onF s R.gteStatus_haltPending
  let held := s.job.token.isSome && !halting
  let s := setFs s [(R.gteStatus_gateComplete, 1), (R.gteStatus_lastWindowTicks, min (2 ^ 32 - 1) (s.now - s.job.windowStart))]
  let s := beginSecuring { s with job := { s.job with gcHeldSince := none, notifiedHold := false } }
  let s := gateDone s halting held (decide (0 < getF s R.pairSecure_pagesLeft))
  if halting then
    enterHalted (raise s 0x3009 cPkg (stepNo s) (getF s R.gtePlan_planTag % 2 ^ 32)) 2 false
  else tryCommit s

/-- Report gate-complete once the window's work is done and nothing holds the report. -/
def tryReport (s : State) : State :=
  if s.mode != .gate || !s.job.gcReady || onF s R.gteStatus_gateComplete || s.job.gateHold then s
  else match holdCause s with
    | none => reportGate s
    | some _ => { s with job := { s.job with gcHeldSince := s.job.gcHeldSince <|> some s.now } }

/-- GATE_COMPLETE: the window's writes and pushes end, and gate-complete is reported. -/
def gateComplete (w : List (Nat × WriteReport)) (s : State) : State :=
  if s.mode != .gate || onF s R.gteStatus_gateComplete then s
  else if s.job.gcReady then tryReport s
  else if writesWait s s.job.toWrite ∨ anyLinkDown s then s
  else
    let s := windowPushes (windowWrites w s)
    tryReport { s with job := { s.job with gcReady := true, toWrite := [] } }

def execGateComplete (w : List (Nat × WriteReport)) (s : State) : Out := inModule s (gateComplete w)

/-- JOB_END completes once the last step is secured (R147): HARNESSED, wear flushed (R241). -/
def endJob (s : State) (c : CmdRec) : State :=
  let s := wearFlush (dropAmends s 2)
  finish (setF { s with mode := .harnessed } R.genPass_pass 0 0) c 0 0

/-- What waits for a securing or a release goes on: the report of gate-complete, and JOB_END (DEDUCED, assumption 139). -/
def afterSecured (s : State) : State :=
  let s := tryReport s
  match s.job.running with
  | some r => if r.cmd.opcode = 0x0004 ∧ s.team.step.isNone then endJob s r.cmd else s
  | none => s

/-- SECURING_HELD (R453): the report has been held for longer than secure_alarm_ms; once per step. -/
def securingHeld (s : State) : State :=
  match s.job.gcHeldSince, holdCause s with
  | some a, some c =>
    if s.job.notifiedHold || decide (s.now ≤ a + 25000 * getF s R.pairCtl_secureAlarmMs) then s
    else raise { s with job := { s.job with notifiedHold := true } } 0xD00F cPkg (stepNo s % 2 ^ 32) c
  | _, _ => s

def execSecuringHeld (s : State) : Out := inModule s securingHeld

/-! ## The gate token (R133, R148 to R150, R182) -/

/-- The response to a GATE frame: the status, then seven zero bytes. -/
def answerGate (s : State) (f : CtlFrame) (status : Nat) : State := respond s f (leBytes 1 status ++ leBytes 7 0)

/-- A command is running that ends the job or takes it back (DESIGN CHOICE, assumption 164). -/
def jobEnding (s : State) : Bool := s.job.running.any (fun r => [0x0004, 0x0005, 0x3002].contains r.cmd.opcode)

/-- A GATE frame in sequence (DEDUCED, assumption 46) (DEDUCED, assumption 48). -/
def gateFrame (f : CtlFrame) (s : State) : State :=
  let n := fieldAt f.body 0 8
  if f.step ≠ n ∨ n / 2 ^ 40 ≠ 0 then answerGate s f 4
  else if !inJob s || s.job.token.isSome || jobEnding s then answerGate s f 2
  else if f.planTag ≠ getF s R.hrnPlanNext_planTag then planMismatch (answerGate s f 5) 3 f.planTag
  else if stepNo s = 0xFFFFFFFFFF ∨ !(onF s R.gteNext_anyStep || n == getF s R.gteNext_expected) then answerGate s f 3
  else
    let s' := answerGate s f (if atRest s then 0 else 1)
    let t : Token := { step := n, planTag := f.planTag, snapshot := s.pend }
    tryCommit { s' with job := { s'.job with token := some t } }

def execGate (f : CtlFrame) (s : State) : Out := inModule s (fun s => sessionFrame s f 0x20 (gateFrame f))

end Sys2Proof.Machine
end

