-- ==== Sys2Proof/Machine/Fallback.lean ====
section
/-! DEFINITION. Machine/Fallback.lean: a failed slot moves to the digital fallback, and rebuilds move it onto a spare (R300 to
R302, R437 to R441). -/
namespace Sys2Proof.Machine
open Sys2Proof

/-- The gate window is open and its writes are not done. -/
def inWindow (s : State) : Bool := s.mode == .gate && !s.job.gcReady

/-! ## Images (R301) -/

/-- Load a slot's image from its level record: the state after it, and whether the record could be read. -/
def loadImage (s : State) (p i : Nat) (pl : Placement) : State × Bool :=
  let base := levelAddr s pl
  let r := loftRead s base recordSize
  if r.2 then (copy r.1 base (imageBase p i) recordSize, true) else (r.1, false)

/-- The queue entry of an operation on fallback (R302). -/
def fallbackEntry (o : TileOp) : MMOp :=
  { a := o.slot, b := 0, c := 0, k := 0, m := 0, n := 0, aFmt := 8, bFmt := 8, aOrient := 0, bOrient := 0, kind := 4,
    instr := o.instr, layer := o.layer }

/-- A slot's operation goes on from its next token in the MM queue (R302, R438). -/
def opsToFallback (t : Stall) (slot : Nat) : Stall :=
  let mine := t.ops.filter (fun o => o.slot == slot && !o.onFallback)
  { t with ops := t.ops.map (fun o => if o.slot = slot then { o with onFallback := true } else o),
           mmq := t.mmq ++ mine.map fallbackEntry }

/-- A slot's operation goes on from its next token on a tile. -/
def opsToTile (t : Stall) (slot : Nat) : Stall :=
  { t with ops := t.ops.map (fun o => if o.slot = slot then { o with onFallback := false } else o),
           mmq := t.mmq.filter (fun m => !(m.kind == 4 && m.a == slot)) }

/-- Key of a slot of a stall. -/
def fbKey (p slot : Nat) : Nat := 32 * p + slot

/-- Fallback of a slot starts: event 0x7002. -/
def beginFallback (s : State) (p slot i : Nat) : State :=
  let s := takeImage s p i slot
  let s := { s with cal := { s.cal with fbSince := tset s.cal.fbSince (fbKey p slot) s.now } }
  let s := setF s R.tilStatus_busy (tileIx p (posOf (getStall s p) slot)) 0
  let s := modStall s p (fun t => opsToFallback t slot)
  settle (raise s 0x7002 (cStall p) slot (posOf (getStall s p) slot)) p

/-- Fallback of a slot ends and its image is free: event 0x7003. -/
def endFallback (s : State) (p slot : Nat) : State :=
  let n := s.now - tget s.now s.cal.fbSince (fbKey p slot)
  let s := freeFallback s p slot
  let s := { s with cal := { s.cal with fbSince := tdel s.cal.fbSince (fbKey p slot) } }
  let s := when ((getStall s p).ops.any (fun o => o.slot == slot)) (fun t =>
    setF t R.tilStatus_busy (tileIx p (posOf (getStall t p) slot)) 1) s
  raise (modStall s p (fun t => opsToTile t slot)) 0x7003 (cStall p) slot (min (2 ^ 32 - 1) n)

/-! ## SLOT_ON_FALLBACK (R437 to R441) -/

/-- Rebuilds running in a barn. -/
def barnRebuilds (s : State) (b : Nat) : Nat := countIf s.cal.fills (fun f => f.phase == 6 && barnOf f.stall == b)

/-- A slot on fallback waits for its rebuild, if the stall has a spare: event 0xD005 when it cannot start now. -/
def queueRebuild (s : State) (p slot since : Nat) : State :=
  if (nextSpare s p).isNone then s
  else
    let n := barnRebuilds s (barnOf p)
    let busy := (fillOf s p true).isSome || decide (2 ≤ n)
    let s := showRebuild { s with cal := { s.cal with rebuilds := s.cal.rebuilds ++ [⟨p, slot, since⟩] } } (barnOf p)
    if busy then raise s 0xD005 (cStall p) slot n else s

/-- PAIR.FAULT_LAST and event 0xD001: the sequence of R437 has ended. -/
def noteSequence (s : State) (p slot cause since : Nat) : State :=
  let us := (s.now - since) / 25
  let pos := posOf (getStall s p) slot
  let s := setFs s [(R.pairFaultLast_stall, p), (R.pairFaultLast_slot, slot), (R.pairFaultLast_position, pos),
    (R.pairFaultLast_cause, cause), (R.pairFaultLast_seqUs, min 65535 us)]
  raise (bumpF s R.pairFaultLast_count 0 1) 0xD001 (cTile p pos) (slot * 2 ^ 8 + cause) us

/-- The failed slot is on fallback, or needs none as nothing is placed on it. -/
def endSequence (s : State) (p slot cause since : Nat) : State :=
  let s := { s with cal := { s.cal with failing := s.cal.failing.filter (fun q => !(q.1 == p && q.2.1 == slot)) } }
  let s := noteSequence s p slot cause since
  if (fallbackOf s p slot).isSome then queueRebuild s p slot since else s

/-- SLOT_ON_FALLBACK. An unreadable level record stops the stall (DEDUCED, assumption 29). -/
def slotOnFallback (p slot : Nat) (s : State) : State :=
  match s.cal.failing.find? (fun q => q.1 == p && q.2.1 == slot) with
  | none => s
  | some (_, _, cause, since) =>
    let t := getStall s p
    if !isRunning t || t.stop || inWindow s then s
    else match placeOf s p slot, fallbackOf s p slot, freeImage s p with
      | some pl, none, some i =>
        if !loaded s (loadKey 0 p slot) then s else
        let r := loadImage (dropLoad s (loadKey 0 p slot)) p i pl
        if r.2 then endSequence (beginFallback r.1 p slot i) p slot cause since else corruptStop r.1 p
      | some _, none, none => s
      | _, _, _ => endSequence s p slot cause since

def execSlotOnFallback (p slot : Nat) (s : State) : Out := onStall p s (slotOnFallback p slot)

/-- A token of the slot is held by a vote: no token boundary. -/
def slotHeld (t : Stall) (slot : Nat) : Bool :=
  t.votes.any (fun v => v.slot == slot) || t.geVotes.any (fun g => g.tok.any (fun o => o.slot == slot))

/-! ## Rebuilds (R439 to R441) -/

/-- A waiting rebuild goes before another: by time, stall, slot. -/
def rebuildBefore (a b : RebuildReq) : Bool :=
  decide (a.time < b.time) || (a.time == b.time && (decide (a.stall < b.stall) || (a.stall == b.stall && decide (a.slot < b.slot))))

/-- A waiting rebuild could start: its stall runs, has no rebuild under way, and its spare is not in a rotation. -/
def rebuildReady (s : State) (r : RebuildReq) : Bool :=
  let t := getStall s r.stall
  isRunning t && (fillOf s r.stall true).isNone && (nextSpare s r.stall).isSome
    && (t.reserve.isSome || (fillOf s r.stall false).isNone)

/-- The image of a rebuild's slot, reloaded with event 0xD006 where a line of it is corrupt: the state, and whether it can
be read. -/
def rebuildSource (s : State) (p slot i : Nat) (pl : Placement) : State × Bool :=
  let x := checkBrands s 0 (cStall p) (imageBase p i) recordSize
  if x.2 then (x.1, true) else loadImage (raise x.1 0xD006 (cStall p) slot 1) p i pl

/-- The fill of a rebuild: the spare is written from the image and begins its trim. -/
def startRebuild (s : State) (p slot i spare : Nat) (pl : Placement) (w : WriteReport) : State :=
  let k := posOf (getStall s p) slot
  let s := { s with cal := { s.cal with rebuilds := s.cal.rebuilds.filter (fun q => !(q.stall == p && q.slot == slot)) } }
  let s := setFill s { stall := p, slot := slot, fromTile := k, toTile := spare, phase := 6, rows := [], retried := false,
                       since := s.now }
  let s := raise (showRebuild s (barnOf p)) 0xD003 (cStall p) slot spare
  let r := fillTile s p spare k (imageBase p i) pl w
  if r.2 then failTile r.1 p spare 3
  else settle { r.1 with cal := { r.1.cal with trimming := r.1.cal.trimming ++ [(tileIx p spare, 5)] } } p

/-- REBUILD_START. -/
def rebuildStart (p slot : Nat) (w : WriteReport) (s : State) : State :=
  match s.cal.rebuilds.find? (fun r => r.stall == p && r.slot == slot), nextSpare s p, placeOf s p slot, fallbackOf s p slot with
  | some r, some spare, some pl, some i =>
    let first := s.cal.rebuilds.all (fun q => !(barnOf q.stall == barnOf p && rebuildReady s q && rebuildBefore q r))
    if rebuildReady s r && decide (barnRebuilds s (barnOf p) < 2) && first && !inWindow s && !(getStall s p).stop then
      let x := rebuildSource s p slot i pl
      if x.2 then startRebuild x.1 p slot i spare pl w else corruptStop x.1 p
    else s
  | _, _, _, _ => s

def execRebuildStart (p slot : Nat) (w : WriteReport) (s : State) : Out := onStall p s (rebuildStart p slot w)

/-- The slot moves onto its spare. -/
def finishRebuild (s : State) (p : Nat) (f : Fill) : State :=
  let s := moveSlot s p f.slot f.toTile
  let s := modStall s p (fun t => { t with reserve := if t.reserve = some f.toTile then none else t.reserve,
                                           relief := if t.relief = some f.toTile then none else t.relief })
  let s := dropFill (endFallback s p f.slot) p true
  let s := raise s 0xD004 (cStall p) f.slot ((s.now - f.since) / 25)
  let s := showRebuild (bumpF s R.pairRebuild_done (barnOf p) 1) (barnOf p)
  settle (pruneRebuilds s p) p

/-- REBUILD_DONE. -/
def rebuildDone (p slot : Nat) (w : WriteReport) (s : State) : State :=
  let t := getStall s p
  match (fillOf s p true).filter (fun f => f.slot == slot), placeOf s p slot, fallbackOf s p slot with
  | some f, some pl, some i =>
    if !isRunning t || inWindow s || slotHeld t slot || s.cal.trimming.contains (tileIx p f.toTile, 5) then s
    else
      let r := refillRows s p f.toTile (imageBase p i) f.rows pl w
      if r.2 then failTile r.1 p f.toTile 3 else finishRebuild r.1 p f
  | _, _, _ => s

def execRebuildDone (p slot : Nat) (w : WriteReport) (s : State) : Out := onStall p s (rebuildDone p slot w)

end Sys2Proof.Machine
end

