-- ==== Sys2Proof/Machine/Retrim.lean ====
section
/-! DEFINITION. Machine/Retrim.lean: when re-trims become due and forced, idle re-trims, relief rotations, trims on fallback,
and the measured-level windows (R222 to R235, R243, R244). -/
namespace Sys2Proof.Machine
open Sys2Proof

/-! ## Due, forced, overdue (R226, R227) -/

/-- A tile that can be renewed: its stall is not disabled, and it is not bad. -/
def trimmable (s : State) (p t : Nat) : Bool :=
  upStates s && (getStall s p).st != .disabled && !(getStall s p).bad.contains t

/-- RETRIM_DUE: by age or by phases. -/
def retrimDue (p t : Nat) (s : State) : State :=
  let u := tileIx p t
  if trimmable s p t && (decide (25000 * getF s R.calCtl_trimMs ≤ trimAge s u)
      || decide (2 ^ getF s R.calCtl_trimPhasesLog2 ≤ getF s R.calTileAge_phases u)) then makeDue s u
  else s

def execRetrimDue (p t : Nat) (s : State) : Out := onTile p t s (retrimDue p t)

/-- A tile's re-trim is forced: 0 time, 1 phases, 2 drift, 3 range_code; event 0x5003 (DEDUCED, assumption 123). -/
def forceTrim (s : State) (p t cause : Nat) : State :=
  let u := tileIx p t
  if onF s R.calTileAge_forced u then s
  else
    let s := setF (makeDue s u) R.calTileAge_forced u 1
    let s := { s with cal := { s.cal with forcedAt := tset s.cal.forcedAt u s.now } }
    raise s 0x5003 (cTile p t) cause (b2n (getStall s p).relief.isNone)

/-- The tile has traffic in the present step. -/
def hasTraffic (s : State) (p t : Nat) : Bool :=
  let x := getStall s p
  x.ops.any (fun o => posOf x o.slot == t) || decide (0 < getF s R.tilPhases_tokensStep (tileIx p t))

/-- What forces a due tile. -/
def forceCause (s : State) (p t : Nat) : Option Nat :=
  let u := tileIx p t
  if tget s.now s.cal.dueAt u + 25000 * getF s R.calCtl_graceMs ≤ s.now then some 0
  else if tget 0 s.cal.duePhases u + 2 ^ getF s R.calCtl_gracePhasesLog2 ≤ getF s R.calTileAge_phases u then some 1
  else if s.cal.ranged.contains u && hasTraffic s p t then some 3
  else none

/-- RETRIM_FORCED. -/
def retrimForced (p t : Nat) (s : State) : State :=
  if trimmable s p t && onF s R.calTileAge_due (tileIx p t) then
    match forceCause s p t with
    | some c => forceTrim s p t c
    | none => s
  else s

def execRetrimForced (p t : Nat) (s : State) : Out := onTile p t s (retrimForced p t)

/-- TRIM_OVERDUE: 10 ms after being forced; once per forcing. -/
def trimOverdue (p t : Nat) (s : State) : State :=
  let u := tileIx p t
  let at_ := tget s.now s.cal.forcedAt u
  if onF s R.calTileAge_forced u && !onF s R.calTileAge_overdue u && decide (at_ + 250000 ≤ s.now) then
    raise (setF s R.calTileAge_overdue u 1) 0x5004 (cTile p t) ((s.now - at_) / 25000)
      (min (2 ^ 20 - 1) (trimAge s u / 25000))
  else s

def execTrimOverdue (p t : Nat) (s : State) : Out := onTile p t s (trimOverdue p t)

/-- δ in ppm of a tracker window, rounded: `xy` and `xx` are the window's sums, g the last trim's g_ref (R226) (DESIGN CHOICE, assumption 122). -/
def driftPpm (xy : Int) (xx : Nat) (g : Int × Nat) : Int :=
  roundDiv ((xy * g.2 - xx * g.1) * 1000000) (xx * g.1.toNat)

/-- DRIFT_WINDOW_DONE: the oldest complete window of the tile's tracker is judged (R226). A value outside the i20 of the
register is a free value. -/
def driftDone (p t : Nat) (s : State) : State :=
  let u := tileIx p t
  let d := tget Drift.reset s.cal.drift u
  let g := tget (1, 1) s.cal.gRef u
  match d.full with
  | [] => s
  | (xy, xx) :: rest =>
    let s := { s with cal := { s.cal with drift := tput Drift.reset s.cal.drift u { d with full := rest } } }
    if !trimmable s p t || xx = 0 || decide (g.1 ≤ 0) then s
    else
      let v := driftPpm xy xx g
      let lim := getF s R.calCtl_driftPpm
      let s := if v < -524288 ∨ 524287 < v then draw (setF s R.calTileStat_deltaPpm u (Config.freeNat s.draws 226))
        else setF s R.calTileStat_deltaPpm u (ofSigned 20 v)
      if driftPast xy xx g lim then forceTrim (raise s 0x5002 (cTile p t) (ofSigned 32 v) lim) p t 2 else s

/-- DRIFT_WINDOW_DONE names the sums of the window that is judged, which are those the tile's tracker holds: no other window
is there to be judged (DEDUCED, assumption 175). -/
def execDriftWindowDone (p t : Nat) (xy : Int) (xx : Nat) (s : State) : Out :=
  onTile p t s (fun s =>
    if (tget Drift.reset s.cal.drift (tileIx p t)).full.head? = some (xy, xx) then driftDone p t s else s)

/-! ## Idle re-trims (R229) -/

/-- No operation runs or waits on the tile, and no vote holds a token of it. -/
def tileIdle (s : State) (p t : Nat) : Bool :=
  let x := getStall s p
  !x.ops.any (fun o => posOf x o.slot == t && !o.onFallback) && !x.votes.any (fun v => v.tile == t)

/-- The gate window has pairs to write to the tile. -/
def writePending (s : State) (p t : Nat) : Bool :=
  inWindow s && (windowSlots s).any (fun x => x.1.1 == p && posOf (getStall s p) x.1.2 == t)

/-- IDLE_RETRIM_START. -/
def idleRetrim (p t : Nat) (s : State) : State :=
  let u := tileIx p t
  let x := getStall s p
  let filling := s.cal.fills.any (fun f => f.stall == p && (f.fromTile == t || f.toTile == t))
  if trimmable s p t && onF s R.calTileAge_due u && (x.st == .awake || x.st == .retrim) && tileIdle s p t && !filling
      && !s.cal.trimming.any (fun q => q.1 == u) && !writePending s p t then
    settle { s with cal := { s.cal with trimming := s.cal.trimming ++ [(u, 0)] } } p
  else s

def execIdleRetrimStart (p t : Nat) (s : State) : Out := onTile p t s (idleRetrim p t)

/-! ## Relief rotations and trims on fallback (R232 to R235) -/

/-- Forced tiles of a stall that carry a slot and wait for their renewal: time, slot, tile. -/
def waitingForced (s : State) (p : Nat) : List (Nat × Nat × Nat) :=
  let x := getStall s p
  ((x.live.mapIdx (fun j t => (j, t))).filter (fun y => onF s R.calTileAge_forced (tileIx p y.2) && !x.bad.contains y.2
      && !s.cal.trimming.any (fun q => q.1 == tileIx p y.2))).map
    (fun y => (tget 0 s.cal.forcedAt (tileIx p y.2), y.1, y.2))

/-- The first of a stall's waiting tiles. -/
def firstForced (s : State) (p : Nat) : Option (Nat × Nat × Nat) :=
  (waitingForced s p).foldl (fun m x => match m with
    | none => some x
    | some y => if x.1 < y.1 ∨ (x.1 = y.1 ∧ x.2.1 < y.2.1) then some x else some y) none

/-- A stall could begin a rotation now. -/
def canRotate (s : State) (p : Nat) : Bool :=
  let x := getStall s p
  isRunning x && !x.stop && (fillOf s p false).isNone
    && x.relief.any (fun r => !(fillOf s p true).any (fun f => f.toTile == r) && !s.cal.trimming.any (fun q => q.1 == tileIx p r))

/-- Rotations under way in a barn. -/
def barnRotations (s : State) (b : Nat) : Nat :=
  countIf s.cal.fills (fun f => decide (f.phase ≤ 4) && barnOf f.stall == b)

/-- No tile of the barn that could rotate goes before. -/
def firstInBarn (s : State) (p time : Nat) : Bool :=
  (rangeFrom (32 * barnOf p) 32).all (fun q => q == p || !canRotate s q
    || !(firstForced s q).any (fun x => decide (x.1 < time) || (x.1 == time && decide (q < p))))

/-- A trim on fallback begins, in a stall without a relief tile (R235). -/
def startFallbackTrim (s : State) (p slot t : Nat) : State :=
  match placeOf s p slot, freeImage s p with
  | some pl, some i =>
    if !loaded s (loadKey 2 p slot) then s else
    let r := loadImage (dropLoad s (loadKey 2 p slot)) p i pl
    if !r.2 then corruptStop r.1 p
    else
      let s := setFill r.1 { stall := p, slot := slot, fromTile := t, toTile := t, phase := 5, rows := [], retried := false,
                             since := r.1.now }
      beginFallback { s with cal := { s.cal with trimming := s.cal.trimming ++ [(tileIx p t, 4)] } } p slot i
  | _, _ => s

/-- ROTATION_START: the stall's first forced tile begins its renewal. -/
def rotationStart (p : Nat) (s : State) : State :=
  let x := getStall s p
  match firstForced s p with
  | none => s
  | some (time, slot, t) =>
    match x.relief with
    | some r =>
      if canRotate s p && decide (barnRotations s (barnOf p) < getF s R.calCtl_rotPerBarn) && firstInBarn s p time then
        let f : Fill := { stall := p, slot := slot, fromTile := t, toTile := r, phase := 1, rows := [], retried := false,
                          since := s.now }
        settle (setFill (setF (dropLoad s (loadKey 1 p slot)) R.calRotation_rowsFilled p 0) f) p
      else s
    | none =>
      if isRunning x && !x.stop && !inWindow s && (fillOf s p false).isNone && !slotHeld x slot then startFallbackTrim s p slot t
      else s

def execRotationStart (p : Nat) (s : State) : Out := onStall p s (rotationStart p)

/-- ROTATION_FILL_DONE: the relief tile is filled from the level record and begins its trim. A record that cannot be read
restarts the fill once. -/
def rotationFill (p : Nat) (w : WriteReport) (s : State) : State :=
  match (fillOf s p false).filter (fun f => f.phase == 1) with
  | none => s
  | some f =>
    match placeOf s p f.slot with
    | none => abandonRotation s p 4
    | some pl =>
      let base := levelAddr s pl
      if !isRunning (getStall s p) || inWindow s || !loaded s (loadKey 1 p f.slot) then s
      else
        let x := loftRead (dropLoad s (loadKey 1 p f.slot)) base recordSize
        if !x.2 then (if f.retried then abandonRotation x.1 p 4 else setFill x.1 { f with retried := true })
        else
          let r := fillTile x.1 p f.toTile f.fromTile base pl w
          if r.2 then failTile r.1 p f.toTile 3
          else
            let s := setF (setFill r.1 { f with phase := 2, rows := [] }) R.calRotation_rowsFilled p 512
            { s with cal := { s.cal with trimming := s.cal.trimming ++ [(tileIx p f.toTile, 3)] } }

def execRotationFillDone (p : Nat) (w : WriteReport) (s : State) : Out := onStall p s (rotationFill p w)

/-- ROTATION_TAKEOVER: rows that a gate rewrote are written again, then the relief tile takes the slot at its token
boundary and the former tile becomes the relief tile and trims. -/
def rotationTake (p : Nat) (w : WriteReport) (s : State) : State :=
  let x := getStall s p
  match (fillOf s p false).filter (fun f => f.phase == 3) with
  | none => s
  | some f =>
    match placeOf s p f.slot with
    | none => abandonRotation s p 4
    | some pl =>
      if !isRunning x || inWindow s || slotHeld x f.slot then s
      else
        let x := rowsReadable s (levelAddr s pl) f.rows
        if !x.2 then
          if f.retried then abandonRotation x.1 p 4 else setFill x.1 { f with phase := 1, rows := [], retried := true }
        else
        let r := refillRows x.1 p f.toTile (levelAddr s pl) f.rows pl w
        if r.2 then failTile r.1 p f.toTile 3
        else
          let s := modStall (moveSlot r.1 p f.slot f.toTile) p (fun t => { t with relief := some f.fromTile })
          let s := setFill s { f with phase := 4, rows := [] }
          settle { s with cal := { s.cal with trimming := s.cal.trimming ++ [(tileIx p f.fromTile, 3)] } } p

def execRotationTakeover (p : Nat) (w : WriteReport) (s : State) : Out := onStall p s (rotationTake p w)

/-! ## Transfers of channels 60 to 63 (R301, R369, R439) -/

/-- The level records that a chip's channel has to stream: the keys of the transfers whose start waits for them, operands
of tile votes first (R424), then images of failed slots, then spare fills, then trims on fallback (DEDUCED, assumption 37). -/
def wantedLoads (s : State) (z : Nat) : List Nat :=
  let here := fun (p slot : Nat) => (placeOf s p slot).any (fun pl => chipOf (levelAddr s pl) == z)
  let ready := fun (p : Nat) => isRunning (getStall s p) && !(getStall s p).stop && !inWindow s
  let images := (s.cal.failing.filter (fun q => here q.1 q.2.1 && ready q.1 && (fallbackOf s q.1 q.2.1).isNone
    && (freeImage s q.1).isSome)).map (fun q => loadKey 0 q.1 q.2.1)
  let fills := (s.cal.fills.filter (fun f => f.phase == 1 && here f.stall f.slot && ready f.stall)).map
    (fun f => loadKey 1 f.stall f.slot)
  let trims := ((List.range 512).filter (fun p => (getStall s p).relief.isNone && ready p && (fillOf s p false).isNone)).filterMap
    (fun p => (firstForced s p).bind (fun x =>
      if here p x.2.1 && (freeImage s p).isSome then some (loadKey 2 p x.2.1) else none))
  let votes := (List.range 512).filterMap (fun p => (getStall s p).votes.head?.bind (fun v =>
    if here p v.slot && working s p && voteFirst (getStall s p) v.no then some (loadKey 3 p v.slot) else none))
  (votes ++ images ++ fills ++ trims).filter (fun k => !loaded s k)

/-- Bytes that a chip's channel has still to stream. -/
def loadBytes (s : State) (z : Nat) : Nat := ((wantedLoads s z).map (fun k => recordSize - tget 0 s.cal.loads k)).sum

/-! ## TRIM_DONE (R222 to R225, R232, R235, R439) -/

/-- A failed trim: event 0x5001, the tile fails, its trims stand (R222). -/
def trimFails (s : State) (p t c : Nat) (m : TrimMeas) : State :=
  let sigma := rootScaled 1024 1 (sigmaSq m (convK s (tileIx p t)))
  settle (failTile (raise s 0x5001 (cTile p t) c sigma) p t 2) p

/-- A trim of a rotation ends: that of the relief tile leads to the takeover, that of the former tile ends the rotation. -/
def rotationTrim (s : State) (p t : Nat) (m : TrimMeas) (c : Nat) : State :=
  match fillOf s p false with
  | none => s
  | some f =>
    if f.phase = 4 then
      let s := dropFill (bumpF s R.calRotation_rotations p 1) p false
      if c = 0 then passTrim s (tileIx p t) 3 m else trimFails s p t c m
    else if c = 0 then setFill (passTrim s (tileIx p t) 3 m) { f with phase := 3 }
    else trimFails s p t c m

/-- What a trim's end does, by its kind. The kind that a rebuild's trim shows is a free value. -/
def endTrim (s : State) (p t kind c : Nat) (m : TrimMeas) : State :=
  let u := tileIx p t
  match kind with
  | 3 => rotationTrim s p t m c
  | 4 =>
    if c ≠ 0 then trimFails s p t c m
    else match fillOf s p false with
      | some f => endFallback (dropFill (passTrim s u 4 m) p false) p f.slot
      | none => passTrim s u 4 m
  | 5 => if c = 0 then passTrim (draw s) u (Config.freeNat s.draws 49) m else trimFails s p t c m
  | _ => if c = 0 then passTrim s u 2 m else trimFails s p t c m

/-- TRIM_DONE. -/
def trimDone (p t : Nat) (m : TrimMeas) (s : State) : State :=
  let u := tileIx p t
  match s.cal.trimming.find? (fun q => q.1 == u) with
  | none => s
  | some (_, kind) =>
    if !isRunning (getStall s p) then s
    else
      let s := { s with cal := { s.cal with trimming := s.cal.trimming.filter (fun q => q.1 != u) } }
      settle (endTrim s p t kind (trimFault m) m) p

def execTrimDone (p t : Nat) (m : TrimMeas) (s : State) : Out := onTile p t s (trimDone p t m)

/-! ## Measured levels (R216, R243, R244) -/

/-- What keeps a tile's window from being reached (R216). -/
def windowStatus (s : State) (p t : Nat) : Nat :=
  let x := getStall s p
  if x.st == .disabled || x.bad.contains t then 7 else if isResting x then 2 else 0

/-- The tile runs nothing. -/
def runsNothing (s : State) (p t : Nat) : Bool :=
  tileIdle s p t && !s.cal.trimming.any (fun q => q.1 == tileIx p t)

/-- Status of a read of `len` measured levels from (row, col). -/
def levelReadStatus (s : State) (p t at_ len : Nat) : Nat :=
  let w := windowStatus s p t
  if 270336 < at_ + len then 3
  else if w ≠ 0 then w
  else if (s.mode == .ready || s.mode == .halted || atRest s) && runsNothing s p t then 0 else 2

/-- Measured levels from pair number `at_` on. -/
def measured (s : State) (u at_ len : Nat) : List Int :=
  let rows := (rangeFrom (at_ / 528) (ceilDiv (at_ % 528 + len) 528)).flatMap (physRow s u)
  (rows.drop (at_ % 528)).take len

/-- TILE_LEVEL_READ: what the verify reads measured stays to be seen. -/
def tileLevelRead (p t row col len : Nat) (s : State) : State :=
  let a := 528 * row + col
  if levelReadStatus s p t a len = 0 then { s with cal := { s.cal with verify := measured s (tileIx p t) a len } } else s

def execTileLevelRead (p t row col len : Nat) (s : State) : Out := onTile p t s (tileLevelRead p t row col len)

/-- Pairs written by levels from pair number `at_` on. -/
def pairsAt (at_ : Nat) (l : List Int) : List (Nat × Nat × Int) :=
  l.mapIdx (fun i q => ((at_ + i) / 528, (at_ + i) % 528, q))

/-- Status of a write of measured levels. -/
def levelWriteStatus (s : State) (p t at_ : Nat) (l : List Int) : Nat :=
  let w := windowStatus s p t
  if 270336 < at_ + l.length then 3
  else if w ≠ 0 then w
  else if s.mode != .ready || !runsNothing s p t then 2
  else if (pairsAt at_ l).any (fun x => decide (512 ≤ x.2.1)) then 2
  else if l.any (fun q => decide (q < -31) || decide (31 < q)) then 3
  else 0

/-- Program pairs in READY (R238, R244). -/
def writeLevels (s : State) (p t at_ : Nat) (l : List Int) (w : WriteReport) : State :=
  let r := writePairs s (tileIx p t) (pairsAt at_ l) w
  if r.2.failed then failTile r.1 p t 3 else r.1

/-- TILE_LEVEL_WRITE. -/
def tileLevelWrite (p t row col : Nat) (l : List Int) (w : WriteReport) (s : State) : State :=
  let a := 528 * row + col
  if levelWriteStatus s p t a l = 0 then writeLevels s p t a l w else s

def execTileLevelWrite (p t row col : Nat) (levels : List Int) (w : WriteReport) (s : State) : Out :=
  onTile p t s (tileLevelWrite p t row col levels w)

end Sys2Proof.Machine
end

