-- ==== Sys2Proof/Machine/Feed.lean ====
section
/-! DEFINITION. Machine/Feed.lean: feed frames, the feed ring and its flow control, and the rate limiters (R376, R407 to
R411). -/
namespace Sys2Proof.Machine
open Sys2Proof

/-! ## The ring (R408 to R410) -/

/-- Bytes of the ring. -/
def feedSize (s : State) : Nat := 2 ^ getF s R.hstFeedCfg_sizeLog2

/-- Device address of a stream offset. -/
def feedAddr (s : State) (o : Nat) : Nat := getF s R.hstFeedCfg_base64k * 65536 + o % feedSize s

/-- C. -/
def feedC (s : State) : Nat := getF s R.hstFeedConsumed_consumed

/-- Bytes that wait for channel 57. -/
def stagedBytes (s : State) : Nat := (s.feed.staging.map (fun f => f.length)).sum

/-- XOFF and XON for feed_pcp follow the ring's fill and the staging (R409, R411). -/
def feedFlow (s : State) : State :=
  let run := getF s R.hstFeedThr_runoutKib * 1024
  let gap := getF s R.hstFeedThr_xonGapKib * 1024
  let used := s.feed.h - feedC s
  let ring := decide (feedSize s ≤ used + run) || (s.feed.xoffRing && decide (feedSize s < used + run + gap))
  let n := stagedBytes s
  let stage := decide (131072 ≤ n) || (s.feed.xoffStage && decide (65536 < n))
  setXoff { s with feed := { s.feed with xoffRing := ring, xoffStage := stage } } 24 (getF s R.hstCtl_feedPcp) (ring || stage)

/-- P after the written spans that begin at or below it. -/
def feedPrefix : Nat → Nat → List (Nat × Nat) → Nat
  | 0, p, _ => p
  | n + 1, p, l =>
    match l.find? (fun x => decide (x.1 ≤ p) && decide (p < x.2)) with
    | some x => feedPrefix n x.2 l
    | none => p

/-- The span of a frame's payload is written; P and H advance. -/
def noteWritten (s : State) (o n : Nat) : State :=
  let l := (o, o + n) :: s.feed.written
  let p := feedPrefix l.length s.feed.p l
  setF { s with feed := { s.feed with p := p, h := max s.feed.h (o + n), written := l.filter (fun x => decide (p < x.2)) } }
    R.hstFeedPrefix_prefix 0 p

/-- P, H and C become 0 (R410, R458, R473). -/
def feedReset (s : State) : State :=
  feedFlow (setFs { s with feed := { s.feed with p := 0, h := 0, written := [], staging := [] } }
    [(R.hstFeedPrefix_prefix, 0), (R.hstFeedConsumed_consumed, 0)])

/-! ## Feed frames (R407, R408) -/

/-- The header of a feed frame. -/
def feedHeader (f : FeedFrame) : Bytes :=
  leBytes 2 f.magic ++ leBytes 1 f.version ++ leBytes 1 f.z0 ++ leBytes 4 f.sessionId ++ leBytes 8 f.offset
    ++ leBytes 8 f.step ++ leBytes 4 f.length ++ leBytes 4 f.z1

/-- Condition 1: form. -/
def feedForm (f : FeedFrame) : Bool :=
  f.magic == 0x4446 && f.version == 1 && f.z0 == 0 && f.z1 == 0 && f.offset % 64 == 0 && f.length % 64 == 0
    && decide (64 ≤ f.length) && decide (f.length ≤ 8192) && f.payload.length == f.length && f.step / 2 ^ 40 == 0
    && f.rx.udpLen == 48 + f.length

/-- Condition 2: the open session's frame, its tag by the session key. -/
def feedAuthentic (s : State) (f : FeedFrame) : Bool :=
  match s.ses.key with
  | none => false
  | some k => f.sessionId == getF s R.ctlState_sessionId && f.tag == kmac256 k (feedHeader f ++ f.payload) "VRH-FEED"

/-- The first condition of R408 that applies, or 0. -/
def feedFault (s : State) (f : FeedFrame) : Nat :=
  if !feedForm f then 1
  else if !feedAuthentic s f then 2
  else if !inJob s then 3
  else if !(onF s R.gteNext_anyStep || f.step == stepNo s || f.step == stepNo s + 1) then 4
  else if f.offset < feedC s ∨ feedC s + feedSize s < f.offset + f.length then 5
  else if 262144 < stagedBytes s + f.length then 6
  else 0

/-- The counter of each condition. -/
def feedCounter (n : Nat) : Field :=
  if n = 1 then R.hstFeedStat_format else if n = 2 then R.hstFeedStat_auth else if n ≤ 4 then R.hstFeedStat_stepState
  else R.hstFeedStat_window

/-- A frame with a valid tag keeps its session open (R129). -/
def feedHeard (s : State) (f : FeedFrame) : State :=
  if feedForm f && feedAuthentic s f then { s with ses := { s.ses with lastRx := s.now } } else s

/-- FEED_FRAME: dropped, or staged for channel 57 (DEDUCED, assumption 45). -/
def takeFeed (f : FeedFrame) (s : State) : State :=
  let s := feedHeard s f
  let n := feedFault s f
  if n ≠ 0 then raiseOnce (bumpF s (feedCounter n) 0 1) 0xB006 0 cPkg n 1
  else feedFlow { s with feed := { s.feed with staging := s.feed.staging ++ [f] } }

def execFeedFrame (f : FeedFrame) (s : State) : Out :=
  inModule s (fun s => if f.rx.port ≠ 24 then s else received s f.rx (getF s R.hstCtl_feedUdp) (takeFeed f))

/-- Channel 57 writes the oldest staged payload into the ring. -/
def feedBurst (s : State) : State :=
  match s.feed.staging with
  | [] => s
  | f :: r =>
    let s := { s with feed := { s.feed with staging := r } }
    let room := feedSize s - f.offset % feedSize s
    let s := write s (feedAddr s f.offset) (f.payload.take room)
    let s := if room < f.length then write s (feedAddr s 0) (f.payload.drop room) else s
    feedFlow (noteWritten s f.offset f.length)

/-! ## Register writes (R410) -/

/-- Status of a write to HST.FEED_CONSUMED. -/
def consumedStatus (s : State) (v : Nat) : Nat := if v < feedC s ∨ s.feed.p < v then 3 else 0

/-- FEED_CONSUMED_WRITE. -/
def writeConsumed (v : Nat) (s : State) : State :=
  if consumedStatus s v = 0 then feedFlow (setF s R.hstFeedConsumed_consumed 0 v) else s

def execFeedConsumedWrite (value : Nat) (s : State) : Out := inModule s (writeConsumed (value % 2 ^ 64))

/-- Status of a write to HST.FEED_CFG. -/
def feedCfgStatus (s : State) (v : Nat) : Nat :=
  let z := bits v 5 0
  if !((s.mode == .ready || s.mode == .harnessed) && s.feed.p == feedC s) then 2
  else if z < 20 ∨ 36 < z ∨ hbmEnd < bits v 47 16 * 65536 + 2 ^ z then 3 else 0

/-- FEED_CFG_WRITE. -/
def writeFeedCfg (v : Nat) (s : State) : State :=
  if feedCfgStatus s v = 0 then
    feedReset (setFs s [(R.hstFeedCfg_base64k, bits v 47 16), (R.hstFeedCfg_sizeLog2, bits v 5 0)])
  else s

def execFeedCfgWrite (value : Nat) (s : State) : Out := inModule s (writeFeedCfg value)

/-! ## Rate limiters (R376) -/

/-- A privileged channel's bucket, in units of 1/256 byte, gains a window's bytes, up to twice that. -/
def fillBucket (s : State) (c : Nat) : State :=
  let g := getF s R.movRate_share (c - 57) * refRate c
  let h := getChan s c
  setChan s c { h with bucket := min (2 * g) (h.bucket + g) }

/-- RATE_WINDOW: a window of 1 µs begins (DEDUCED, assumption 135). -/
def rateWindow (s : State) : State := forEach (rangeFrom 57 7) fillBucket s

def execRateWindow (s : State) : Out := inModule s rateWindow

/-- The pages channel 58 or 59 has to stream: its parity, or all when the other team port is lost; none when its own port
is lost and the other is not. -/
def pagesFor (s : State) (c : Nat) : List Page :=
  let l := s.team.pages.filter (fun p => !p.home)
  let own := portUpFull s (getF s (if c = 58 then R.pairStatus_port0 else R.pairStatus_port1))
  let other := portUpFull s (getF s (if c = 58 then R.pairStatus_port1 else R.pairStatus_port0))
  if teamFormed s && own && !other then l
  else if teamFormed s && !own && other then []
  else l.filter (fun p => p.page % 2 == c - 58)

/-- Bytes that wait for a privileged channel. -/
def pendingBytes (s : State) (c : Nat) : Nat :=
  if c = 57 then stagedBytes s
  else if c = 58 ∨ c = 59 then
    pageSize * (pagesFor s c).length
  else if c < 64 then loadBytes s (c - 60)
  else 0

/-- CH_STATUS.state of a base-die channel: a privileged one runs while work waits for it (R369, R381). -/
def chanState (s : State) (c : Nat) : Nat :=
  if 57 ≤ c ∧ c < 64 then (if pendingBytes s c = 0 then 0 else 1) else (getChan s c).st

/-- RATE_HELD: the limiter has held the channel's work for rate_alarm_us; once until the channel next runs dry. -/
def rateHeld (c : Nat) (s : State) : State :=
  let h := getChan s c
  if h.held && !h.alarmed && decide (h.heldSince + 25 * getF s R.movCtl_rateAlarmUs ≤ s.now) && pendingBytes s c != 0 then
    raise (setChan s c { h with alarmed := true }) 0xA004 cPkg c (min (2 ^ 32 - 1) (pendingBytes s c))
  else s

def execRateHeld (ch : Nat) (s : State) : Out :=
  if 57 ≤ ch ∧ ch < 64 then .next (live (rateHeld ch) s) else .fault .noSuchUnit

/-- Take a burst's bytes from a channel's bucket: whether it may start. -/
def takeBucket (s : State) (c n : Nat) : State × Bool :=
  let h := getChan s c
  if 256 * n ≤ h.bucket then (setChan s c { h with bucket := h.bucket - 256 * n, held := false }, true)
  else (setChan s c { h with held := true, heldSince := if h.held then h.heldSince else s.now }, false)

/-- A privileged channel that has run dry may raise its alarm again. -/
def ranDry (s : State) (c : Nat) : State :=
  if pendingBytes s c = 0 then setChan s c { getChan s c with held := false, alarmed := false } else s

end Sys2Proof.Machine
end

