-- ==== Sys2Proof/Machine/Team.lean ====
section
/-! DEFINITION. Machine/Team.lean: team frames, formation and breaking, the mirror of the partner, securing's acknowledgement
and release, and MIRROR_COPY (R74, R75, R443 to R446, R448, R451 to R453, R459, R460, R469). -/
namespace Sys2Proof.Machine
open Sys2Proof

/-! ## Team frames (R445, R469) -/

/-- The payload length of each type; ACCESS and ACCESS_RESP carry the bodies of R138 and R139. -/
def teamLen (ftype n : Nat) : Bool :=
  match ftype with
  | 1 => n == 104
  | 3 => n == 8192
  | 5 => n == 16
  | 7 => decide (n ≤ 8192)
  | 8 => decide (n ≤ 8192)
  | _ => n == 0

/-- Form of a team frame's header. -/
def teamForm (f : TeamFrame) : Bool :=
  f.magic == 0x4D54 && f.version == 1 && decide (1 ≤ f.ftype) && decide (f.ftype ≤ 9) && f.zero == 0
    && f.step / 2 ^ 40 == 0 && (decide (3 ≤ f.ftype && f.ftype ≤ 6) || f.step == 0) && decide (f.group < 8)
    && decide (f.chunk < 8) && f.payload.length == f.length && teamLen f.ftype f.length
    && f.rx.udpLen == 48 + f.length

/-- A dropped frame, counted as a tag failure: event 0xE006 once per step. -/
def dropTeam (s : State) : State := raiseOnce s 0xE006 0 cPkg (getF s R.pairStatus_partnerIndex) 1

/-- A HELLO could not form the team that forms: the cause is kept for the time-out (R443, R461). -/
def noteObstacle (s : State) (f : TeamFrame) (cause : Nat) : State :=
  if f.ftype = 1 ∧ getF s R.pairStatus_team = 1 then { s with team := { s.team with obstacle := cause } } else s

/-- The team frames in a port's staging SRAM (R406). -/
def stagedOn (s : State) (port : Nat) : List (TeamFrame × List (Nat × WriteReport)) :=
  s.team.staged.filter (fun x => x.1.rx.port == port)

/-- Bytes in a port's staging SRAM. -/
def teamStaged (s : State) (port : Nat) : Nat := ((stagedOn s port).map (fun x => 48 + x.1.length)).sum

/-- XOFF for team_pcp at 512 KiB of staged frames, XON at 256 KiB (R406). -/
def teamFlow (s : State) (port : Nat) : State :=
  let n := teamStaged s port
  let prio := getF s R.prtCtl_teamPcp
  setXoff s port prio (decide (524288 ≤ n) || (s.prt.xoff.contains (prioKey port prio) && decide (262144 < n)))

/-- A frame is staged; one that finds the 1 MiB full is lost (DESIGN CHOICE, assumption 171). -/
def stageTeam (s : State) (f : TeamFrame) (w : List (Nat × WriteReport)) : State :=
  if 2 ^ 20 < teamStaged s f.rx.port + 48 + f.length then s
  else teamFlow { s with team := { s.team with staged := s.team.staged ++ [(f, w)] } } f.rx.port

/-- A frame of the present team, in form and authentic, named for this module (DEDUCED, assumption 80). Its port absorbs it
at once unless frames before it still wait in the staging SRAM (R406) (DESIGN CHOICE, assumption 171). -/
def teamFrame (f : TeamFrame) (ftype : Nat) (s : State) (run : State → State) (w : List (Nat × WriteReport) := []) : Out :=
  inModule s (fun s => received s f.rx (getF s R.prtCtl_teamUdp) (fun s =>
    if 24 ≤ f.rx.port ∨ !teamForm f ∨ f.ftype ≠ ftype then s
    else if !(getF s R.pairStatus_team == 1 || teamFormed s) then s
    else match s.team.key with
      | none => s
      | some k =>
        if f.tag ≠ teamTag k f then dropTeam (noteObstacle s f 2)
        else if f.srcModule ≠ getF s R.pairStatus_partnerIndex ∨ f.dstModule ≠ ownIndex s then noteObstacle s f 3
        else
          let s := { s with team := { s.team with lastRx := s.now } }
          if (stagedOn s f.rx.port).isEmpty then run s else stageTeam s f w))

/-! ## Formation (R74, R75, R443, R444) -/

/-- The HELLO payload. -/
def helloBody (s : State) : Bytes :=
  leBytes 8 (getF s R.gtePlan_planTag) ++ leBytes 8 (getF s R.bruBayInstall_installationId) ++ leBytes 2 (ownIndex s)
    ++ leBytes 2 (getF s R.bruBayId_bayNumber) ++ leBytes 4 0 ++ leBytes 4 (getF s R.bruBayTags_feedTagA)
    ++ leBytes 4 (getF s R.bruBayTags_feedTagB) ++ leBytes 4 (getF s R.bruBayLoop_loopTag) ++ leBytes 4 0
    ++ (List.range 8).flatMap (fun c => leBytes 4 (getF s R.pairGroup_ownPages c))
    ++ (List.range 8).flatMap (fun c => leBytes 4 (getF s R.pairMirror_cap64k c))

/-- Send a frame without payload on every team port that can carry it. -/
def sendBoth (s : State) (ftype : Nat) (payload : Bytes) : State :=
  forEach ((teamPorts s).filter (portOpen s)) (fun t p => sendTeam t p ftype 0 0 0 0 payload) s

/-- Two modules share a feed: some nonzero tag of one equals one of the other. -/
def sharesFeed (a b : List Nat) : Bool := a.any (fun x => x != 0 && b.contains x)

/-- Every mirror holds what its partner needs: group pages and capacities of a HELLO. -/
def mirrorsFit (s : State) (pages caps : List Nat) : Bool :=
  (List.range 8).all (fun c => decide (regionPages (pages.getD c 0) ≤ getF s R.pairMirror_cap64k c)
    && decide (getF s R.pairHome_need64k c ≤ caps.getD c 0))

/-- The team is FORMED, with event 0xD012; its first securing protects every page (DEDUCED, assumption 81). -/
def formTeam (s : State) (free : Bool) : State :=
  raise (setF { s with team := { s.team with allDirty := true, accessSeq := 0, lastRx := s.now, chunks := [] } }
    R.pairStatus_team 0 2) 0xD012 cPkg (getF s R.pairStatus_partnerIndex) (b2n free)

/-- What a HELLO tells of the partner goes into its registers. A bay whose memory is invalid shares a feed and a loop with
every bay (R72). -/
def noteHello (s : State) (b : Bytes) : State :=
  let own := [getF s R.bruBayTags_feedTagA, getF s R.bruBayTags_feedTagB]
  let theirs := [fieldAt b 24 4, fieldAt b 28 4]
  let loop := getF s R.bruBayLoop_loopTag
  let bay := fieldAt b 18 2
  let unknown := getF s R.bruBayId_bayNumber == 0xFFFF || bay == 0xFFFF
  let armed := onF s R.bruBayId_teamSenseWired && bay == getF s R.bruBayId_sensedBay
  let s := setFs s [(R.pairStatus_partnerBay, bay), (R.pairStatus_feedShared, b2n (unknown || sharesFeed own theirs)),
    (R.pairStatus_loopShared, b2n (unknown || loop != 0 && loop == fieldAt b 32 4)), (R.pairStatus_senseArmed, b2n armed)]
  forEach (List.range 8) (fun s c => setF s R.pairGroup_partnerPages c (fieldAt b (40 + 4 * c) 4)) s

/-- A verified HELLO while the team forms. -/
def takeHello (f : TeamFrame) (s : State) : State :=
  let b := f.payload
  if getF s R.pairStatus_team ≠ 1 then s
  else if fieldAt b 0 8 ≠ getF s R.gtePlan_planTag ∨ fieldAt b 16 2 ≠ f.srcModule then noteObstacle s f 3
  else
    let s := showTeamPorts (noteHello s b)
    let caps := (List.range 8).map (fun c => fieldAt b (72 + 4 * c) 4)
    let pages := (List.range 8).map (fun c => fieldAt b (40 + 4 * c) 4)
    let bits := getF s R.pairStatus_feedShared + 2 * getF s R.pairStatus_loopShared
    if !mirrorsFit s pages caps then noteObstacle s f 4
    else if !(teamPorts s).all (portUpFull s) then s
    else
      let s := when (bits != 0) (fun s => raise s 0xD00A cPkg bits (getF s R.pairStatus_partnerBay)) s
      if bits ≠ 0 ∧ onF s R.pairCtl_strict then refuseTeam s 5 else formTeam s (bits == 0)

def execHello (f : TeamFrame) (s : State) : Out := teamFrame f 1 s (takeHello f)

/-- BEAT: a valid frame alone shows the partner is alive. -/
def execBeat (f : TeamFrame) (s : State) : Out := teamFrame f 2 s (fun s => s)

/-- BEAT_TIMER (R443, R446): every beat_us HELLO while forming, BEAT while formed. -/
def beatTimer (s : State) : State :=
  if s.now < s.team.lastBeat + 25 * getF s R.pairCtl_beatUs then s
  else
    let t := { s with team := { s.team with lastBeat := s.now } }
    if getF s R.pairStatus_team = 1 then sendBoth t 1 (helloBody s) else if teamFormed s then sendBoth t 2 [] else s

/-- DEDUCED, assumption 79. -/
def execBeatTimer (s : State) : Out := inModule s beatTimer

/-- Why the team has not formed when its time is up: a team port that is not up, what was wrong with the last HELLO, or
nothing but the time (R443, R461) (DEDUCED, assumption 81). -/
def refuseCause (s : State) : Nat :=
  if !(teamPorts s).all (portUpFull s) then 1 else if s.team.obstacle = 0 then 6 else s.team.obstacle

/-- TEAM_FORMATION_TIMEOUT (R443): 10 s after the load. -/
def formationTimeout (s : State) : State :=
  if getF s R.pairStatus_team = 1 ∧ s.team.formStart + 250000000 ≤ s.now then refuseTeam s (refuseCause s) else s

def execTeamFormationTimeout (s : State) : Out := inModule s formationTimeout

/-! ## Breaking (R75, R446) -/

/-- Break the team; a securing that ends with it lets the gate go on. -/
def breakWith (s : State) (cause : Nat) : State := afterSecured (breakTeam s cause)

/-- TEAM_SILENCE: no valid team frame for loss_us. -/
def teamSilence (s : State) : State :=
  if teamFormed s && decide (s.team.lastRx + 25 * getF s R.pairCtl_lossUs ≤ s.now) then breakWith s 1 else s

def execTeamSilence (s : State) : Out := inModule s teamSilence

/-- TEAM_SENSE_LOSS: the armed TEAM_SENSE has been low for 2 µs. -/
def senseLoss (s : State) : State := if teamFormed s && onF s R.pairStatus_senseArmed then breakWith s 3 else s

def execTeamSenseLoss (s : State) : Out := inModule s senseLoss

def execBye (f : TeamFrame) (s : State) : Out := teamFrame f 9 s (fun s => breakWith s 4)

/-! ## Ports whose loss can break the team (R392, R393, R446) -/

def execPortLost (port cause : Nat) (s : State) : Out := onUnit 25 port s (fun s => afterSecured (portLost port cause s))

def execPortRetrain (port : Nat) (s : State) : Out := onUnit 25 port s (fun s => afterSecured (retrainPort port s))

def execPortEnable (port : Nat) (enable : Bool) (s : State) : Out :=
  onUnit 24 port s (fun s => afterSecured (enablePort port enable s))

def execLaserModuleRemoved (sock : Nat) (faulted : Bool) (s : State) : Out :=
  onUnit 4 sock s (fun s => afterSecured (laserRemoved sock faulted s))

/-! ## The mirror of the partner (R448, R451, R452) -/

/-- Pages of the partner's group. -/
def partnerPages (s : State) (g : Nat) : Nat := getF s R.pairGroup_partnerPages g

/-- The partner's groups as the image gives them. Of its host state region only the number of pages is known; their
addresses are free values. -/
def partnerGroup (s : State) (g : Nat) : List Nat :=
  match s.job.image with
  | none => []
  | some i =>
    let l := (securedGroups (setF s R.pairHstate_size64k 0 0) i (getF s R.pairStatus_partnerIndex)).getD g []
    if g = 0 then
      l.take 16 ++ (rangeFrom 0 (partnerPages s 0 - l.length)).map (fun k => Config.freeNat k 448 % 2 ^ 48) ++ l.drop 16
    else l

/-- The securing step of the partner that is in flight, from the chunks received. -/
def partnerStep (s : State) : Option Nat := s.team.chunks.head?.map (fun c => c.1)

/-- Chunks of a page received in the securing in flight. -/
def pageChunks (s : State) (g i : Nat) : Nat := countIf s.team.chunks (fun c => c.2.1 == g && c.2.2.1 == i)

/-- The mirror slot a page is written to: the older one, or the one already complete in this securing. -/
def mirrorSlot (s : State) (g i step : Nat) : Nat :=
  let base := mirrorBase s g
  if pageChunks s g i = 8 then (if readNat s (dirEntry base i + 8) 8 = step then 0 else 1) else olderSlot s base i

/-- A PAGE frame (R451, R469): its chunk goes into the mirror slot; a complete page gets its slot's step and PAGE_ACK (DEDUCED, assumption 76) (DEDUCED, assumption 78). -/
def takePage (f : TeamFrame) (s : State) : State :=
  if !teamFormed s then s
  else if f.step < getF s R.pairMirrorStat_partnerStep ∨ partnerPages s f.group ≤ f.page then dropTeam s
  else
    let s := if partnerStep s = some f.step then s
      else setFs { s with team := { s.team with chunks := [] } }
        [(R.pairMirrorStat_pagesReceived, 0), (R.pairMirrorStat_partnerPrevValid, 0)]
    let base := mirrorBase s f.group
    let n := partnerPages s f.group
    let j := mirrorSlot s f.group f.page f.step
    let was := pageChunks s f.group f.page
    let s := quietWrite s (slotAddr base n f.page j + 8192 * f.chunk) f.payload
    let c := (f.step, f.group, f.page, f.chunk)
    let s := if s.team.chunks.contains c then s else { s with team := { s.team with chunks := s.team.chunks ++ [c] } }
    if pageChunks s f.group f.page < 8 then s
    else
      let s := quietWrite s (dirEntry base f.page) (leBytes 8 ((partnerGroup s f.group).getD f.page 0))
      let s := quietWrite s (dirEntry base f.page + 8 + 8 * j) (leBytes 8 f.step)
      let s := when (was != 8) (fun s => bumpF s R.pairMirrorStat_pagesReceived 0 1) s
      sendTeam s f.rx.port 4 f.step f.page f.group 0 []

def execPage (f : TeamFrame) (s : State) : Out := teamFrame f 3 s (takePage f)

/-- A COMMIT frame (R452, R469). -/
def takeCommit (f : TeamFrame) (s : State) : State :=
  if !teamFormed s then s
  else if partnerStep s ≠ some f.step ∨ fieldAt f.payload 0 8 ≠ f.step then dropTeam s
  else
    let old := getF s R.pairMirrorStat_partnerStep
    let s := quietWrite s (mirrorBase s 0) (leBytes 8 f.step ++ leBytes 8 old ++ leBytes 8 (getF s R.gtePlan_planTag)
      ++ leBytes 8 (fieldAt f.payload 8 8))
    let s := setFs { s with team := { s.team with chunks := [] } }
      [(R.pairMirrorStat_partnerStep, f.step), (R.pairMirrorStat_partnerPrevValid, b2n (old != 0)),
       (R.pairMirrorStat_pagesReceived, 0)]
    sendTeam s f.rx.port 6 f.step 0 0 0 []

def execCommit (f : TeamFrame) (s : State) : Out := teamFrame f 5 s (takeCommit f)

/-! ## Acknowledgements of this module's securing (R451 to R453) -/

/-- PAGE_ACK: the page is done; the last one leads to the home record and COMMIT. -/
def takePageAck (f : TeamFrame) (s : State) : State :=
  if s.team.step ≠ some f.step then s
  else
    let ps := s.team.pages.map (fun p => if p.group = f.group ∧ p.page = f.page ∧ p.home then { p with acked := true } else p)
    afterSecured (sweepPages { s with team := { s.team with pages := ps } })

def execPageAck (f : TeamFrame) (s : State) : Out := teamFrame f 4 s (takePageAck f)

/-- COMMIT_ACK: the step is secured; a held gate-complete and JOB_END may go on. -/
def takeCommitAck (f : TeamFrame) (s : State) : State :=
  if s.team.step = some f.step ∧ s.team.pages.isEmpty then afterSecured (stepSecured s) else s

def execCommitAck (f : TeamFrame) (s : State) : Out := teamFrame f 6 s (takeCommitAck f)

/-- PAGE_RESEND: a streamed page unacknowledged for 200 µs is sent again from its home slot. -/
def resendPage (g i : Nat) (s : State) : State :=
  match s.team.pages.find? (fun p => p.group == g && p.page == i) with
  | none => s
  | some p =>
    if p.home && !p.acked && teamFormed s && p.sentAt.any (fun a => decide (a + 5000 ≤ s.now)) then
      let base := homeBase s g
      let n := (s.team.groups.getD g []).length
      let j := if readNat s (dirEntry base i + 8) 8 = secStep s then 0 else 1
      let a := slotAddr base n i j
      setPage (sendPage (noteRead s a pageSize) a (secStep s) g i) { p with sentAt := some s.now }
    else s

def execPageResend (group page : Nat) (s : State) : Out := inModule s (resendPage group page)

/-- Status of a write to PAIR.RELEASE. -/
def releaseStatus (s : State) (v : Nat) : Nat := if bits v 39 0 < getF s R.pairRelease_step then 3 else 0

/-- RELEASE_WRITE (R453): a held report may go on. -/
def releaseWrite (v : Nat) (s : State) : State :=
  if releaseStatus s v = 0 then afterSecured (setF s R.pairRelease_step 0 (bits v 39 0)) else s

def execReleaseWrite (step : Nat) (s : State) : Out := inModule s (releaseWrite step)

/-! ## MIRROR_COPY (R460) -/

/-- The mirrored pages of a span of the partner's addresses: group, page, source. -/
def mirrorPages (s : State) (a n : Nat) : List (Nat × Nat × Nat) :=
  (List.range 8).flatMap (fun g => ((List.range (partnerPages s g)).map (fun i =>
    (g, i, readNat s (dirEntry (mirrorBase s g) i) 8))).filter (fun x => decide (a ≤ x.2.2) && decide (x.2.2 < a + n)
      && (readNat s (dirEntry (mirrorBase s g) x.2.1 + 8) 8 != 0 || readNat s (dirEntry (mirrorBase s g) x.2.1 + 16) 8 != 0)))

/-- The slot of a page in a region whose step is the largest not above `t`. -/
def bestSlot (s : State) (base i t : Nat) : Option Nat :=
  let a := readNat s (dirEntry base i + 8) 8
  let b := readNat s (dirEntry base i + 16) 8
  let okA := a != 0 && decide (a ≤ t)
  let okB := b != 0 && decide (b ≤ t)
  if okA && (!okB || decide (b ≤ a)) then some 0 else if okB then some 1 else none

/-- A page fits in HBM or in the fitted loft. -/
def pageFits (s : State) (a : Nat) : Bool := decide (a + pageSize ≤ hbmEnd) || fitted s a pageSize

/-- The status of a MIRROR_COPY before any byte moves. -/
def mirrorStatus (s : State) (c : CmdRec) (ps : List (Nat × Nat × Nat)) : Nat :=
  let a := arg c 0
  let d := arg c 2
  if a % pageSize ≠ 0 ∨ arg c 1 % pageSize ≠ 0 ∨ d % pageSize ≠ 0 then 3
  else if getF s R.pairMirrorStat_partnerStep = 0 then 8
  else if !ps.all (fun x => (bestSlot s (mirrorBase s x.1) x.2.1 (arg c 3)).isSome && pageFits s (d + (x.2.2 - a))) then 3
  else 0

/-- MIRROR_COPY. -/
def mirrorCopy (s : State) (c : CmdRec) : State :=
  let a := arg c 0
  let ps := mirrorPages s a (arg c 1)
  let st := mirrorStatus s c ps
  if st ≠ 0 then complete s c st 0
  else
    let s := forEach ps (fun s x =>
      let base := mirrorBase s x.1
      let j := (bestSlot s base x.2.1 (arg c 3)).getD 0
      let b := slotAddr base (partnerPages s x.1) x.2.1 j
      copy (noteRead s b pageSize) b (arg c 2 + (x.2.2 - a)) pageSize) s
    complete (raise s 0xD011 cPkg (arg c 3 % 2 ^ 32) ps.length) c 0 ps.length

/-- HALTED without loss of state (R146, R460). -/
def haltedKept (s : State) : Bool := s.mode == .halted && !onF s R.ctlState_haltStateLosing

def execMirrorCopy (ring : Nat) (s : State) : Out :=
  takeCmd ring 0xD001 s (fun s c =>
    legalIn (s.mode == .ready || s.mode == .harnessed || haltedKept s) s c mirrorCopy)

end Sys2Proof.Machine
end

