-- ==== Sys2Proof/Machine/Commands.lean ====
section
/-! DEFINITION. Machine/Commands.lean: HALT_CLEAR, JOB_END, ROLLBACK, the emptying of the scale histories, the flush of
wear and LOFT_FILL (R145 to R147, R241, R263, R367, R458). -/
namespace Sys2Proof.Machine
open Sys2Proof

/-! ## Ends of faults -/

/-- Every chip that stands is idle and without a fault, and every stall channel is IDLE (R270, R360, R378, R382). -/
def clearUnitFaults (s : State) : State :=
  let s := clearFaults s
  let s := { s with upd := { s.upd with chips := s.upd.chips.map (fun x => (x.1, { Chip.reset with lost := x.2.lost })) },
                    movs := s.movs.filter (fun x => decide (x.1 < 64)) }
  forEach (List.range 4) (fun s z => if (getChip s z).lost then s else setF s R.updChip_state z 1) s

/-! ## HALT_CLEAR (R147) -/

/-- HALT_CLEAR: the job ends and the module is READY (DEDUCED, assumption 71). -/
def haltClear (s : State) (c : CmdRec) : State :=
  complete (leaveJob (clearUnitFaults (abandonSecuring s))) c 0 0

def execHaltClear (ring : Nat) (s : State) : Out :=
  takeCmd ring 0x0003 s (fun s c => legalIn (s.mode == .halted && s.board.railsOn) s c haltClear)

/-! ## JOB_END (R147) -/

/-- GATE after gate-complete. -/
def gateOver (s : State) : Bool := s.mode == .gate && onF s R.gteStatus_gateComplete

/-- JOB_END: done at once, or when the securing of the last step ends (DEDUCED, assumption 72). -/
def jobEnd (s : State) (c : CmdRec) : State := if s.team.step.isNone then endJob s c else startRunning s c

def execJobEnd (ring : Nat) (s : State) : Out :=
  takeCmd ring 0x0004 s (fun s c => legalIn (gateOver s && s.job.token.isNone) s c jobEnd)

/-! ## ROLLBACK (R147, R458) -/

/-- Step `t` can be restored: the committed step, or the previous one while both its slots are intact. -/
def canRestore (s : State) (t : Nat) : Bool :=
  t != 0 && (t == getF s R.pairSecure_committed || (t == getF s R.pairPrev_previous && onF s R.pairSecure_prevValid))

/-- A page's home slots hold a step after `t`. -/
def slotAfter (s : State) (g i t : Nat) : Bool :=
  let e := dirEntry (homeBase s g) i
  decide (t < readNat s (e + 8) 8) || decide (t < readNat s (e + 16) 8)

/-- Pages of the secured set that may have been written since step `t`: group, index, address. `held` are the pages that were
still protected. -/
def pagesSince (s : State) (held : List Nat) (t : Nat) : List (Nat × Nat × Nat) :=
  (List.range 8).flatMap (fun g => ((s.team.groups.getD g []).mapIdx (fun i a => (g, i, a))).filter (fun x =>
    s.team.dirty.contains x.2.2 || held.contains x.2.2 || slotAfter s g x.2.1 t))

/-- Every page, when the module takes all of them as dirty. -/
def pagesToRestore (s : State) (held : List Nat) (t : Nat) : List (Nat × Nat × Nat) :=
  if s.team.allDirty then (List.range 8).flatMap (fun g => (s.team.groups.getD g []).mapIdx (fun i a => (g, i, a)))
  else pagesSince s held t

/-- The home slot of a page for step `t`. -/
def slotFor (s : State) (t : Nat) (x : Nat × Nat × Nat) : Option Nat := bestSlot s (homeBase s x.1) x.2.1 t

/-- Copy a page back from its home slot. -/
def restorePage (t : Nat) (s : State) (x : Nat × Nat × Nat) : State :=
  match slotFor s t x with
  | some j =>
    let a := slotAddr (homeBase s x.1) (s.team.groups.getD x.1 []).length x.2.1 j
    copy (noteRead s a pageSize) a x.2.2 pageSize
  | none => s

/-- Histories and flatline counters as of step `t` (R263, R271, R447). -/
def restoreNumeric (s : State) (t : Nat) : State :=
  match s.team.snaps.find? (fun x => x.1 == t) with
  | none => s
  | some (_, f, n) => forEach n (fun s x => setF s (flatField x.1) (x.1 / 4) x.2) { s with fmt := f }

/-- Step 4 for one placed tile: its array takes its level record, its weight step stands; a slot on fallback reloads its
image, and a tile that has failed is not written (DEDUCED, assumption 33). -/
def rewriteTile (w : List (Nat × WriteReport)) (s : State) (pl : Placement) : State :=
  let base := levelAddr s pl
  let pos := posOf (getStall s pl.stall) pl.slot
  let s := markRows s pl.stall pl.slot (List.range 512)
  if (getStall s pl.stall).st == .disabled then s
  else
    let rd := loftRead s base recordSize
    match fallbackOf s pl.stall pl.slot with
    | some i => if rd.2 then copy rd.1 base (imageBase pl.stall i) recordSize else corruptStop rd.1 pl.stall
    | none =>
      if (getStall s pl.stall).bad.contains pos then s
      else
        let u := tileIx pl.stall pos
        if !rd.2 then corruptStop rd.1 pl.stall else
        let r := fullWrite rd.1 u (recordLevels rd.1 base) (reportFor w u)
        let s := when (!r.2.stuck.isEmpty) (fun s => recordTile s pl u) r.1
        if r.2.failed then failTile s pl.stall pos 3 else s

/-- The placed tiles of this module. -/
def ownPlacements (s : State) : List Placement :=
  match s.job.image with
  | some i => ownPlaces i (ownIndex s)
  | none => []

/-- Step 1: the channels stop, and the securing in flight is abandoned. -/
def rollbackStop (s : State) : State :=
  abandonSecuring { s with movs := s.movs.filter (fun x => decide (x.1 < 57) || (decide (60 ≤ x.1) && decide (x.1 < 64))) }

/-- Steps 5 and 6, with the registers of the securing: step `t` is the committed one. -/
def rollbackRegs (s : State) (t : Nat) : State :=
  let s := if t = getF s R.pairSecure_committed then s
    else setFs s [(R.pairSecure_committed, t), (R.pairPrev_previous, 0), (R.pairSecure_prevValid, 0)]
  setFs (feedReset s) [(R.gteStep_step, t), (R.gteNext_expected, t + 1), (R.gteNext_anyStep, 0), (R.pairRelease_step, t),
    (R.gteStatus_haltPending, 0), (R.genPass_pass, 0)]

/-- Everything the undone steps left: waiting frames, held amendments and token, faults. -/
def rollbackClear (s : State) : State :=
  let s := clearStep (dropAmends s 2)
  clearUnitFaults { s with rte := { s.rte with held := [], mesh := [] },
                           job := { s.job with token := none, gcReady := false } }

/-- Steps 5 and 6: the registers, what the undone steps left, and HARNESSED (DEDUCED, assumption 73). -/
def rollbackEnd (s : State) (c : CmdRec) (pages : Nat) : State :=
  let s := rollbackClear (rollbackRegs s (arg c 0))
  let s := { s with mode := .harnessed, team := { s.team with allDirty := true } }
  finish (raise s 0xD010 cPkg (arg c 0 % 2 ^ 32) pages) c 0 0

/-- A ROLLBACK ends once no stall rests whose arrays it is to write (R476). -/
def rollbackMore (s : State) (r : Running) : State :=
  if writesWait s s.job.toWrite then s
  else rollbackEnd { s with job := { s.job with toWrite := [], reports := [] } } r.cmd r.count

/-- Step 4 for the placed tiles of the stalls in `ps`. -/
def rewriteStalls (w : List (Nat × WriteReport)) (ps : List Nat) (s : State) : State :=
  forEach ((ownPlacements s).filter (fun x => ps.contains x.stall)) (rewriteTile w) s

/-- ROLLBACK that can be carried out: `ps` are the pages copied back. The arrays of running stalls are written, the others
once they are AWAKE. -/
def rollbackTo (s : State) (c : CmdRec) (w : List (Nat × WriteReport)) (t : Nat) (ps : List (Nat × Nat × Nat)) : State :=
  let s := restoreNumeric (forEach ps (restorePage t) s) t
  let mine := distinct ((ownPlacements s).map (fun x => x.stall))
  let wait := mine.filter (fun p => isResting (getStall s p))
  let s := rewriteStalls w (mine.filter (fun p => !wait.contains p)) s
  let s := toWrite (startLong { s with job := { s.job with reports := w } } c none ps.length) wait
  rollbackMore s ⟨c, s.now, false, none, ps.length⟩

/-- ROLLBACK. -/
def rollback (w : List (Nat × WriteReport)) (s : State) (c : CmdRec) : State :=
  let t := arg c 0
  let held := s.team.pages.map (fun p => p.addr)
  let s := rollbackStop s
  let ps := pagesToRestore s held t
  if canRestore s t && ps.all (fun x => (slotFor s t x).isSome) then rollbackTo s c w t ps else complete s c 3 0

def execRollback (ring : Nat) (w : List (Nat × WriteReport)) (s : State) : Out :=
  takeCmd ring 0x0005 s (fun s c => legalIn (gateOver s || haltedKept s) s c (fun s c => planChecked s c (rollback w)))

/-! ## Histories and wear -/

/-- Status of a write to FMT.HIST_RESET. -/
def histResetStatus (s : State) : Nat := if atRest s then 0 else 2

/-- HIST_RESET (R263): the history table lies in the numeric state area (DEDUCED, assumption 74). -/
def histReset (s : State) : State :=
  if histResetStatus s = 0 then touchNumeric { s with fmt := { s.fmt with hist := [], atCommit := [] } } else s

def execHistReset (s : State) : Out := inModule s histReset

/-- WEAR_FLUSH (R241): every flush_s seconds. -/
def wearTimer (s : State) : State :=
  if s.cal.lastFlush + 25000000 * getF s R.calWear_flushS ≤ s.now then wearFlush s else s

def execWearFlush (s : State) : Out := inModule s wearTimer

/-! ## LOFT_FILL (R367) -/

/-- The status of a LOFT_FILL before any byte is written. -/
def fillStatus (s : State) (a n : Nat) : Nat :=
  if a % 64 ≠ 0 ∨ n % 64 ≠ 0 then 3
  else if n = 0 then 0
  else if rangeOf a ≠ some 1 ∨ !addressable s a n then 3
  else if reachesAbsent s a n then 8
  else 0

/-- Write a pattern of eight bytes over a span: nothing more than zeros where the pattern is zero. -/
def fillSpan (s : State) (a n v : Nat) : State :=
  if v = 0 then zero s a n else write s a ((List.range (n / 8)).flatMap (fun _ => leBytes 8 v))

/-- LOFT_FILL. -/
def loftFill (s : State) (c : CmdRec) : State :=
  let a := arg c 0
  let n := arg c 1
  let st := fillStatus s a n
  if st ≠ 0 ∨ n = 0 then complete s c st 0 else complete (fillSpan s a n (arg c 2)) c 0 0

/-- LOFT_FILL waits in its ring while a loft link retrains (R338). -/
def execLoftFill (ring : Nat) (s : State) : Out :=
  if anyLinkDown s then inModule s id else takeCmd ring 0x9001 s (fun s c =>
    legalIn (s.mode == .ready || s.mode == .harnessed || s.mode == .halted) s c loftFill)

end Sys2Proof.Machine
end

