-- ==== Sys2Proof/Machine/Loft.lean ====
section
/-! DEFINITION. Machine/Loft.lean: loft links, lost chips, patrol scrubbing and the temperature of the DIMMs (R81, R337, R338,
R341, R342, R360). -/
namespace Sys2Proof.Machine
open Sys2Proof

/-! ## Links (R337, R338) -/

/-- LOFT_FLIT_CRC_ERROR: `replay` tells a failed replay of the same flit from the first failure of a new one. After 16 failed
replays the link retrains: event 0x9008 (DEDUCED, assumption 117). -/
def flitError (z : Nat) (replay : Bool) (s : State) : State :=
  if !onF s R.lftLink_up z then s
  else
    let n := if replay then tget 0 s.upd.replays z + 1 else 0
    let s := bumpF { s with upd := { s.upd with replays := tput 0 s.upd.replays z n } } R.lftLink_crcErrors z 1
    if n < 16 then bumpF s R.lftLink_replays z 1
    else
      let s := setF (setF (bumpF s R.lftLink_retrains z 1) R.lftLink_up z 0) R.lftLink_lanes z 0
      let s := { s with upd := { s.upd with replays := tdel s.upd.replays z, retraining := tset s.upd.retraining z s.now } }
      raise s 0x9008 cPkg z (getF s R.lftLink_retrains z)

def execLoftFlitCrcError (z : Nat) (replay : Bool) (s : State) : Out := onUnit 4 z s (flitError z replay)

/-- The link trains at some number of lanes. -/
def setLink (s : State) (z lanes : Nat) : State :=
  let s := setF (setF s R.lftLink_up z (b2n (lanes == 8))) R.lftLink_lanes z lanes
  { s with upd := { s.upd with retraining := tdel s.upd.retraining z } }

/-- A link or a chip is lost: event 0x9009, a state-losing fault; in a job the chip's fault is recorded with cause 5 (DEDUCED, assumption 118). -/
def loseChip (s : State) (z lanes : Nat) : State :=
  let s := raise (setLink s z lanes) 0x9009 cPkg z (modeCode s.mode)
  let s := if inJob s then faultChip s z 5 0 0 0 0 else if upStates s then enterHalted s 3 true else s
  setF (setChip s z { getChip s z with lost := true, active := false, unit := none, units := [] }) R.updChip_state z 6

/-- LOFT_LINK_LOST: a retrain has not reached 8 lanes within 1 ms. -/
def linkLost (z lanes : Nat) (s : State) : State :=
  match tget? s.upd.retraining z with
  | none => s
  | some a => if lanes < 8 ∧ a + 25000 ≤ s.now then loseChip s z lanes else s

/-- CHIP_LOST: handled as a lost link. -/
def chipLost (z : Nat) (s : State) : State := if upStates s && !(getChip s z).lost then loseChip s z 0 else s

def execChipLost (z : Nat) (s : State) : Out := onUnit 4 z s (chipLost z)

/-! ## Patrol (R341) -/

/-- Address of a line of a channel. -/
def lineAddr (ch line : Nat) : Nat := loftBase ch + 64 * line

/-- A patrol read finds an uncorrectable error, now or since an earlier read. -/
def patrolBad (s : State) (a : Nat) (found : Found) : Bool := found == .uncorrectable || s.upd.poison.contains a

/-- LOFT_PATROL: a corrected line is rewritten in place, an uncorrectable one is poisoned (DEDUCED, assumption 115) (DEDUCED, assumption 116). -/
def patrol (ch line : Nat) (found : Found) (s : State) : State :=
  let a := lineAddr ch line
  let n := fittedBytes s / 64
  if !upStates s || !onF s R.lftChannel_populated ch || decide (n ≤ line) || (getChip s (ch / 2)).lost then s
  else
    let s := setF s R.lftScrub_progressPct 0 (100 * line / n)
    if patrolBad s a found then
      let p := if s.upd.poison.contains a then s.upd.poison else a :: s.upd.poison
      noteUncorrectable { s with upd := { s.upd with poison := p } } a
    else if found == .corrected || s.upd.softErr.contains a then
      noteCorrected { s with upd := { s.upd with softErr := s.upd.softErr.filter (fun l => l != a) } } a
    else s

def execLoftPatrol (ch line : Nat) (found : Found) (s : State) : Out := onUnit 8 ch s (patrol ch line found)

/-! ## Temperature (R81, R342) -/

/-- Event 0x900A when a reading crosses a limit. -/
def crossing (s : State) (ch old new limit : Nat) : State :=
  if decide (limit < old) != decide (limit < new) then raise s 0x900A cPkg ch new else s

/-- DIMM_THERMAL_POLL: refresh doubles above 85 °C; above 95 °C the DIMM alert cause is set. -/
def dimmPoll (ch : Nat) (temp : Int) (s : State) : State :=
  if !onF s R.lftChannel_populated ch then s
  else
    let new := temp.toNat
    let old := getF s R.lftChannel_tempC ch
    let s := setF (setF s R.lftChannel_tempC ch (min 255 new)) R.lftChannel_refresh2x ch (b2n (decide (85 < new)))
    let s := crossing (crossing s ch old new 85) ch old new 95
    if 95 < new then setAlert s 5 else s

def execDimmThermalPoll (ch : Nat) (tempC : Int) (s : State) : Out := onUnit 8 ch s (dimmPoll ch tempC)

end Sys2Proof.Machine
end

