-- ==== Sys2Proof/Machine/Registers.lean ====
section
/-! DEFINITION. Machine/Registers.lean: reading and writing a register by its address: what each field shows, which writes
are refused, what a write does (R15 to R19, R137, R139, R140). -/
namespace Sys2Proof.Machine
open Sys2Proof

/-! ## Finding a register (R137) -/

/-- Base of the register range (R134). -/
def regWindow : Nat := 0x0F0000000000

/-- A register as an address names it: which one, of which unit, and whether at its pending offset. -/
structure RegRef where
  reg : RegDef
  unit : Nat
  pending : Bool
  deriving DecidableEq, Repr

/-- The unit whose entry lies at `off` bytes from a register's base. -/
def unitAt (r : RegDef) (off : Nat) : Option Nat :=
  let u := if r.paged then off / 0x10000 * 4096 + off % 0x10000 / 8 else off / r.stride
  if u < r.count ∧ unitOff r.paged r.stride u = off then some u else none

/-- A register has RWG fields. -/
def hasPending (r : RegDef) : Bool := r.fields.any (fun f => f.acc == .rwg)

/-- The register of a list that lies at a place. -/
def findIn (x : Nat) (pending : Bool) : List RegDef → Option RegRef
  | [] => none
  | r :: l =>
    let y := if pending then x - 0x8000 else x
    if (!pending || (hasPending r && decide (0x8000 ≤ x))) && decide (r.base ≤ y) then
      match unitAt r (y - r.base) with
      | some u => some ⟨r, u, pending⟩
      | none => findIn x pending l
    else findIn x pending l

/-- The register at a device address, if one lies there. -/
def findReg (a : Nat) : Option RegRef :=
  let x := a - regWindow
  if a < regWindow ∨ 2 ^ 32 ≤ x ∨ x % 8 ≠ 0 then none
  else (findIn x false allRegs) <|> (findIn x true allRegs)

/-! ## Reading (R16, R17) -/

/-- Stalls of a barn in AWAKE, RETRIM or FALLBACK. -/
def runningIn (s : State) (b : Nat) : Nat := countIf (rangeFrom (32 * b) 32) (fun p => isRunning (getStall s p))

/-- The tag of a channel's descriptor. -/
def chanTag (s : State) (c : Nat) : Nat := ((getChan s c).desc.map (fun d => d.tag)).getD 0

/-- The fields that show what the state holds elsewhere (DEDUCED, assumption 52). -/
def liveViews : List (Field × (State → Nat → Nat)) := [
  (R.bruBayId_alertNDriven, fun s _ => b2n (alertLow s)),
  (R.clkWatch_count, fun s _ => s.now % 2 ^ 64),
  (R.clkBarn_pllRunning, fun s b => b2n (pllRuns s b && !s.gov.unlocked.contains b)),
  (R.clkBarn_runningStalls, runningIn),
  (R.clkStall_state, fun s p => stallCode (getStall s p).st),
  (R.clkStall_effStep, effStep),
  (R.pwrGov_parked, fun s _ => parkedCount s),
  (R.pwrGov_waiting, fun s _ => s.gov.waitq.length),
  (R.pwrGov_cW, fun s _ => s.gov.cMw / 1000),
  (R.pwrGov_allowanceW, fun s _ => allowanceW s),
  (R.pwrGov_ledgerW, fun s _ => ledgerW s),
  (R.ctlState_state, fun s _ => modeCode s.mode),
  (R.gteStatus_tokenHeld, fun s _ => b2n s.job.token.isSome),
  (R.gteStatus_heldCmds, fun s _ => s.job.amends.length),
  (R.calTileAge_ageMs, fun s u => min (2 ^ 20 - 1) (trimAge s u / 25000)),
  (R.tilStatus_role, tileRole),
  (R.tilStatus_slot, tileSlot),
  (R.genPass_arrived, fun s _ => countIf (boundStalls s) (arrivedNow s)),
  (R.genPass_ended, fun s _ => countIf (boundStalls s) (fun p => getF s R.genStall_pass p == 3 || isIdle s p)),
  (R.genPass_idle, fun s _ => countIf (boundStalls s) (isIdle s)),
  (R.genStall_idle, fun s p => b2n (isIdle s p)),
  (R.genStall_mmQueue, fun s p => (getStall s p).mmq.length),
  (R.movRate_windowBytes, fun s i => windowBytes s (57 + i)),
  (R.movRate_held, fun s i => b2n (getChan s (57 + i)).held),
  (R.movRate_floor, fun _ i => shareFloor (57 + i) - 1),
  (R.movChStatus_state, chanState),
  (R.movChStatus_pending, fun s c => (getChan s c).pending),
  (R.movChProgress_bytesDone, fun s c => (getChan s c).bytesDone),
  (R.movChProgress_tag, chanTag),
  (R.movStallCh_state, fun s p => (getChan s (64 + p)).st),
  (R.movStallCh_pending, fun s p => (getChan s (64 + p)).pending),
  (R.movStallProg_bytesDone, fun s p => (getChan s (64 + p)).bytesDone),
  (R.movStallProg_tag, fun s p => chanTag s (64 + p)),
  (R.hstStatus_feedXoff, fun s _ => b2n (s.feed.xoffRing || s.feed.xoffStage))]

/-- What a field of unit `u` shows (DEDUCED, assumption 53). -/
def viewField (s : State) (f : Field) (u : Nat) : Nat :=
  match f.acc with
  | .wo => 0
  | .key => 0
  | _ =>
    match liveViews.find? (fun x => x.1 == f) with
    | some x => x.2 s u % 2 ^ f.width
    | none => getF s f u

/-- What a register shows, at its active or its pending offset (R17). -/
def readReg (s : State) (r : RegRef) : Nat :=
  (r.reg.fields.map (fun f =>
    if r.pending then (if f.acc = .rwg then getP s f r.unit * 2 ^ f.lo else 0)
    else viewField s f r.unit * 2 ^ f.lo)).sum

/-! ## What refuses a write (R140) -/

/-- The bits of a field in a word. -/
def inWord (f : Field) (v : Nat) : Nat := v / 2 ^ f.lo % 2 ^ f.width

/-- A value within limits: status 0, else RANGE. -/
def rangeIf (ok : Bool) : Nat := if ok then 0 else 3

/-- A write allowed now, then its value judged. -/
def nowIf (ok : Bool) (value : Nat) : Nat := if ok then value else 2

/-- Within limits. -/
def within2 (lo hi v : Nat) : Bool := decide (lo ≤ v) && decide (v ≤ hi)

/-- READY or HARNESSED. -/
def readyOrHarnessed (s : State) : Bool := s.mode == .ready || s.mode == .harnessed

/-- READY. -/
def isReady (s : State) : Bool := s.mode == .ready

/-- A span of HBM. -/
def inHbm (a n : Nat) : Bool := decide (a + n ≤ hbmEnd)

/-- Limits of CTL.TIMERS. -/
def timersStatus (v : Nat) : Nat :=
  rangeIf (within2 100 600000 (inWord R.ctlTimers_idleMs v) && within2 1 15 (inWord R.ctlTimers_retxTries v)
    && within2 10 10000 (inWord R.ctlTimers_retxUs v))

/-- Limits of CAL.CTL. -/
def calCtlStatus (v : Nat) : Nat :=
  rangeIf (within2 1000 60000 (inWord R.calCtl_trimMs v) && within2 0 60000 (inWord R.calCtl_graceMs v)
    && within2 100 20000 (inWord R.calCtl_driftPpm v) && within2 12 30 (inWord R.calCtl_trimPhasesLog2 v)
    && within2 10 30 (inWord R.calCtl_gracePhasesLog2 v) && within2 1 3 (inWord R.calCtl_rotPerBarn v))

/-- Limits of PRT.CTL. -/
def prtCtlStatus (s : State) (v : Nat) : Nat :=
  nowIf (readyOrHarnessed s) (rangeIf (inWord R.prtCtl_pfcAlarmUs v != 0 && inWord R.prtCtl_retrainS v != 0
    && inWord R.prtCtl_bwdPcp v != inWord R.prtCtl_fwdPcp v && inWord R.prtCtl_bwdPcp v != inWord R.prtCtl_teamPcp v))

/-- Limits of PRT.HOLD. -/
def holdStatus (s : State) (v : Nat) : Nat :=
  let size := inWord R.prtHold_sizeMib v
  nowIf (isReady s) (rangeIf (within2 16 4095 size && inHbm (inWord R.prtHold_base1m v * 2 ^ 20) (size * 2 ^ 20)
    && decide (2 * inWord R.prtHold_headroomMib v < size)))

/-- Limits of HST.CTL. -/
def hstCtlStatus (v : Nat) : Nat :=
  rangeIf (inWord R.hstCtl_feedUdp v != inWord R.hstCtl_controlUdp v
    && inWord R.hstCtl_feedPcp v != inWord R.hstCtl_controlPcp v)

/-- Limits of HST.FEED_THR. -/
def feedThrStatus (s : State) (v : Nat) : Nat :=
  let run := inWord R.hstFeedThr_runoutKib v
  let gap := inWord R.hstFeedThr_xonGapKib v
  rangeIf (decide (64 ≤ run) && gap != 0 && decide ((run + gap) * 1024 < feedSize s))

/-- Limits of PAIR.CTL. -/
def pairCtlStatus (s : State) (v : Nat) : Nat :=
  let beat := inWord R.pairCtl_beatUs v
  nowIf (readyOrHarnessed s) (rangeIf (inWord R.pairCtl_secureAlarmMs v != 0 && within2 10 10000 beat
    && decide (4 * beat ≤ inWord R.pairCtl_lossUs v)))

/-- Limits of UPD.DELTA. -/
def updDeltaStatus (s : State) (v : Nat) : Nat :=
  let n := inWord R.updDelta_sizeMib v
  nowIf (readyOrHarnessed s) (rangeIf (within2 16 65532 n && n % 4 == 0
    && inHbm (inWord R.updDelta_base1m v * 2 ^ 20) (n * 2 ^ 20)))

/-- Limits of PAIR.MIRROR of a channel: the region lies in the fitted loft. -/
def mirrorRegStatus (s : State) (c v : Nat) : Nat :=
  let n := inWord R.pairMirror_cap64k v
  nowIf (isReady s) (rangeIf (n == 0 || (onF s R.lftChannel_populated c
    && decide ((inWord R.pairMirror_mirror64k v + n) * pageSize ≤ fittedBytes s))))

/-- Status of a write to MOV.CH_DESC. -/
def chDescStatus (s : State) (c v : Nat) : Nat :=
  nowIf (decide (c < 57) && (getChan s c).st == 0) (rangeIf (inHbm (inWord R.movChDesc_desc64 v * 64) 64))

/-- A key of a channel that needs a state of it. -/
def chanKey (ok : Bool) (c : Nat) : Nat := nowIf (decide (c < 57) && ok) 0

/-- The status of a write of `v` to a register at its active offset: its base, then state, unit and value. -/
def activeRules : List (Nat × (State → Nat → Nat → Nat)) := [
  (R.pwrBudget_budgetW.base, fun s _ v => budgetStatus s v),
  (R.pwrDie_ilimA.base, fun _ _ v => rangeIf (within2 85 110 (inWord R.pwrDie_thermC v)
    && within2 200 640 (inWord R.pwrDie_ilimA v))),
  (R.ctlTimers_idleMs.base, fun _ _ v => timersStatus v),
  (R.ctlRingCfg_base4k.base, ringCfgStatus),
  (R.ctlRingDoorbell_producer.base, doorbellStatus),
  (R.ctlEvtCfg_base4k.base, fun s _ v => evtCfgStatus s v),
  (R.ctlEvtConsumer_consumer.base, fun s _ v => evtConsumerStatus s v),
  (R.calCtl_trimMs.base, fun _ _ v => calCtlStatus v),
  (R.calWrite_stuckLimit.base, fun _ _ v => rangeIf (inWord R.calWrite_stuckLimit v != 0)),
  (R.calWear_wearWarn.base, fun _ _ v => rangeIf (within2 1 243 (inWord R.calWear_wearWarn v))),
  (R.fmtHistReset_reset.base, fun s _ _ => histResetStatus s),
  (R.genCtl_fwdAlarmUs.base, fun _ _ v => rangeIf (inWord R.genCtl_fwdAlarmUs v != 0
    && inWord R.genCtl_partialAlarmUs v != 0)),
  (R.rteCtl_closeAlarmUs.base, fun _ _ v => rangeIf (inWord R.rteCtl_closeAlarmUs v != 0
    && inWord R.rteCtl_combineAlarmUs v != 0)),
  (R.updDelta_base1m.base, fun s _ v => updDeltaStatus s v),
  (R.lftScrub_scrubHours.base, fun _ _ v => rangeIf (within2 1 168 (inWord R.lftScrub_scrubHours v))),
  (R.movCtl_rateAlarmUs.base, fun _ _ v => rangeIf (inWord R.movCtl_rateAlarmUs v != 0)),
  (R.movRate_share.base, fun _ i v => shareStatus (57 + i) (inWord R.movRate_share v)),
  (R.movChDesc_desc64.base, chDescStatus),
  (R.movChStart_start.base, fun s c _ => chStartStatus s c),
  (R.movChPause_pause.base, fun s c _ => chanKey ((getChan s c).st == 1) c),
  (R.movChResume_resume.base, fun s c _ => chanKey ((getChan s c).st == 2) c),
  (R.movChAbort_abort.base, fun s c _ => chanKey ((getChan s c).st != 0) c),
  (R.movChReq_request.base, fun s c _ => chanKey (onSoftware s c) c),
  (R.prtCtl_tokenUdp.base, fun s _ v => prtCtlStatus s v),
  (R.prtAddr6Hi_addrHi.base, fun s _ _ => nowIf (isReady s) 0),
  (R.prtAddr6Lo_addrLo.base, fun s _ _ => nowIf (isReady s) 0),
  (R.prtAddr4_ipv4.base, fun s _ _ => nowIf (isReady s) 0),
  (R.prtHold_sizeMib.base, fun s _ v => holdStatus s v),
  (R.prtPortRetrain_retrain.base, fun s n _ => retrainStatus s n),
  (R.hstCtl_controlUdp.base, fun _ _ v => hstCtlStatus v),
  (R.hstFeedCfg_base64k.base, fun s _ v => feedCfgStatus s v),
  (R.hstFeedThr_runoutKib.base, fun s _ v => feedThrStatus s v),
  (R.hstFeedConsumed_consumed.base, fun s _ v => consumedStatus s v),
  (R.brdCtl_watchSteps.base, fun _ _ v => rangeIf (inWord R.brdCtl_watchSteps v != 0)),
  (R.pairCtl_beatUs.base, fun s _ v => pairCtlStatus s v),
  (R.pairRelease_step.base, fun s _ v => releaseStatus s v),
  (R.pairBuf_base1m.base, fun s _ v => nowIf (readyOrHarnessed s)
    (rangeIf (inHbm (inWord R.pairBuf_base1m v * 2 ^ 20) (bufferMib s * 2 ^ 20)))),
  (R.pairHstate_size64k.base, fun s _ v => nowIf (isReady s)
    (rangeIf (inHbm (inWord R.pairHstate_base64k v * 65536) (inWord R.pairHstate_size64k v * pageSize)))),
  (R.pairHome_home64k.base, fun s _ _ => nowIf (isReady s) 0),
  (R.pairMirror_cap64k.base, mirrorRegStatus),
  (R.secTeamSecret_secret.base, fun s _ _ => nowIf (isReady s) 0)]

/-- The same at the pending offset, where only RWG fields exist (R17). -/
def pendingRules : List (Nat × (Nat → Nat)) := [
  (R.calWrite_hyst16.base, fun v => rangeIf (decide (inWord R.calWrite_hyst16 v ≤ 8))),
  (R.updTouch_base64k.base, fun v =>
    let z := inWord R.updTouch_subLog2 v
    rangeIf (within2 16 24 z && inHbm (inWord R.updTouch_base64k v * 65536) (512 * 2 ^ z))),
  (R.prtTable_count.base, fun v =>
    rangeIf (decide (inWord R.prtTable_count v ≤ 4096)
      && inHbm (inWord R.prtTable_base64 v * 64) (32 * inWord R.prtTable_count v))),
  (R.brdCtl_gtolQ8.base, fun v => rangeIf (decide (256 ≤ inWord R.brdCtl_gtolQ8 v)
    && decide (inWord R.brdCtl_restMode v ≤ 1)))]

/-- The status of a write of `v` to a register (DEDUCED, assumption 50). -/
def regStatus (s : State) (r : RegRef) (v : Nat) : Nat :=
  if r.pending then
    match pendingRules.find? (fun x => x.1 == r.reg.base) with
    | some x => x.2 v
    | none => 0
  else
    match activeRules.find? (fun x => x.1 == r.reg.base) with
    | some x => x.2 s r.unit v
    | none => 0

/-! ## What a write does (R16, R18, R19) -/

/-- A write to one field by its access code. -/
def writeField (u v : Nat) (s : State) (f : Field) : State :=
  match f.acc with
  | .rw => setF s f u (inWord f v)
  | .wo => setF s f u (inWord f v)
  | .w1c => if inWord f v = 0 then s else setF s f u 0
  | _ => s

/-- A write to each field of a register. -/
def writeFields (r : RegRef) (v : Nat) (s : State) : State := forEach r.reg.fields (writeField r.unit v) s

/-- A write at the pending offset (R17). -/
def putPending (r : RegRef) (v : Nat) (s : State) : State :=
  forEach (r.reg.fields.filter (fun f => f.acc == .rwg)) (fun s f => setP s f r.unit (inWord f v)) s

/-- Writing 1 to a record's valid bit clears the record. -/
def clearRecord (valid : Field) (rest : List Field) (v : Nat) (s : State) : State :=
  if inWord valid v = 0 then s else setFs s ((valid, 0) :: rest.map (fun f => (f, 0)))

/-- A write to HST.FEED_THR: flow control follows the new thresholds. -/
def writeFeedThr (v : Nat) (s : State) : State :=
  feedFlow (setFs s [(R.hstFeedThr_runoutKib, inWord R.hstFeedThr_runoutKib v),
    (R.hstFeedThr_xonGapKib, inWord R.hstFeedThr_xonGapKib v)])

/-- A write to PRT.PORT_CTL. -/
def writePortCtl (n v : Nat) (s : State) : State :=
  let s := setF s R.prtPortCtl_fecAlarm n (inWord R.prtPortCtl_fecAlarm v)
  afterSecured (enablePort n (inWord R.prtPortCtl_enable v != 0) s)

/-- The registers whose write does more than store: base, then unit, value and state. -/
def writeActs : List (Nat × (Nat → Nat → State → State)) := [
  (R.fusFieldClear_clear.base, fun _ _ s => if upStates s then clearField s else s),
  (R.pwrBudget_budgetW.base, fun _ v s => writeBudget s v),
  (R.ctlRingCfg_base4k.base, ringCfg),
  (R.ctlRingDoorbell_producer.base, doorbell),
  (R.ctlEvtCfg_base4k.base, fun _ v s => evtCfg v s),
  (R.ctlEvtConsumer_consumer.base, fun _ v s => evtConsumer v s),
  (R.fmtHistReset_reset.base, fun _ _ s => histReset s),
  (R.movRate_share.base, fun i v s => writeShare (57 + i) (inWord R.movRate_share v) s),
  (R.movChStart_start.base, fun c _ s => (chStart s c).1),
  (R.movChPause_pause.base, fun c _ s => (chPause s c).1),
  (R.movChResume_resume.base, fun c _ s => (chResume s c).1),
  (R.movChAbort_abort.base, fun c _ s => (chAbort s c).1),
  (R.movChReq_request.base, fun c _ s => (chReq s c).1),
  (R.prtPortCtl_enable.base, writePortCtl),
  (R.prtPortRetrain_retrain.base, fun n _ s => afterSecured (retrainPort n s)),
  (R.hstFeedCfg_base64k.base, fun _ v s => writeFeedCfg v s),
  (R.hstFeedThr_runoutKib.base, fun _ v s => writeFeedThr v s),
  (R.hstFeedConsumed_consumed.base, fun _ v s => writeConsumed v s),
  (R.pairRelease_step.base, fun _ v s => releaseWrite (inWord R.pairRelease_step v) s),
  (R.lftEccLast_valid.base, fun _ v s => clearRecord R.lftEccLast_valid [R.lftEccLast_address] v s),
  (R.brdLineLast_valid.base, fun _ v s =>
    clearRecord R.brdLineLast_valid [R.brdLineLast_reader, R.brdLineLast_address] v s)]

/-- A write that nothing refuses. -/
def writeReg (r : RegRef) (v : Nat) (s : State) : State :=
  if r.pending then putPending r v s
  else
    match writeActs.find? (fun x => x.1 == r.reg.base) with
    | some x => x.2 r.unit v s
    | none => writeFields r v s

/-- A write of a whole register: refused, it changes nothing (R140). -/
def putReg (s : State) (r : RegRef) (v : Nat) : State := if regStatus s r v = 0 then writeReg r (v % 2 ^ 64) s else s

/-- REGISTER_WRITE. -/
def registerWrite (addr value : Nat) (s : State) : State :=
  match findReg addr with
  | none => s
  | some r => putReg s r value

def execRegisterWrite (addr value : Nat) (s : State) : Out := inModule s (registerWrite addr value)

end Sys2Proof.Machine
end

