-- ==== Sys2Proof/Machine/Access.lean ====
section
/-! DEFINITION. Machine/Access.lean: access by device address: judging a span, reading and writing it, the operations of an
ACCESS body, and their frames from host and partner (R133 to R140, R174, R216, R243 to R245, R339 to R341, R445, R469). -/
namespace Sys2Proof.Machine
open Sys2Proof

/-- A master of the address map: its reader kind (R435), the place its events name, and whether it is ACCESS. -/
structure Master where
  reader : Nat
  coord : Nat
  access : Bool
  deriving DecidableEq, Repr

/-- ACCESS. -/
def Master.ofAccess : Master := ⟨7, cPkg, true⟩

/-! ## Refusals in R140's order -/

/-- A refusal: its step in R140's list and its status; status 0 refuses nothing. -/
abbrev Verdict := Nat × Nat

/-- The step of R140 of a status that state or value give. -/
def verdictBy (status : Nat) : Verdict :=
  (if status = 8 then 3 else if status = 7 then 4 else if status = 2 then 5 else 6, status)

/-- The first refusal in R140's order. -/
def firstRefusal (l : List Verdict) : Verdict :=
  l.foldl (fun m x => if x.2 ≠ 0 ∧ (m.2 = 0 ∨ x.1 < m.1) then x else m) (0, 0)

/-! ## Tile windows (R216, R243 to R245) -/

/-- The areas of a tile's window: 0 trim entries, 1 values read only, 2 measured levels, 3 wear counts and stuck list; none
for an offset that is not listed. -/
def tileArea (off : Nat) : Option Nat :=
  if off < 0x1080 ∨ (0x2000 ≤ off ∧ off < 0x3000) then some 0
  else if (0x4000 ≤ off ∧ off < 0x4800) ∨ (0x5000 ≤ off ∧ off < 0x7000) then some 1
  else if 0x10000 ≤ off ∧ off < 0x52000 then some 2
  else if (0x80000 ≤ off ∧ off < 0xC2000) ∨ (0x100000 ≤ off ∧ off < 0x100800) then some 3
  else none

/-- The trim line of an offset in the trim tables. -/
def trimLine (off : Nat) : Nat := if off < 0x2000 then off / 8 else rowLine ((off - 0x2000) / 8)

/-- A stuck list entry. -/
def stuckEntry (s : State) (u i : Nat) : Nat :=
  match (stuckOf s u)[i]? with
  | some k => 2 ^ 63 + k % 528 * 2 ^ 9 + k / 528
  | none => 0

/-- Byte `i` of a little-endian number. -/
def byteAt (v i : Nat) : Byte := BitVec.ofNat 8 (v / 2 ^ (8 * i))

/-- The S_c field as the tile holds it. -/
def sumField (s : State) (u c : Nat) : Nat := ofSigned 16 (colSum s u c)

/-- A byte of the values a tile derives. -/
def derivedByte (s : State) (u off : Nat) : Byte :=
  if off < 0x4200 then BitVec.ofNat 8 (rowMax s u (off - 0x4000))
  else if off < 0x4400 then BitVec.ofNat 8 (colMax s u (off - 0x4200))
  else if off < 0x4800 then byteAt (sumField s u ((off - 0x4400) / 2)) (off % 2)
  else if off < 0x6000 then BitVec.ofInt 8 ((residuals (rowLevels s u ((off - 0x5000) / 8))).getD (off % 8) 0)
  else BitVec.ofInt 8 ((checkLevels (rowLevels s u ((off - 0x6000) / 8))).getD (off % 8) 0)

/-- A byte of a tile's window outside the measured levels. -/
def tileByte (s : State) (u off : Nat) : Byte :=
  if off < 0x3000 then byteAt (trimOf s u (trimLine off)) (off % 8)
  else if off < 0x7000 then derivedByte s u off
  else if off < 0x100000 then BitVec.ofNat 8 (wearCount s u (off - 0x80000))
  else byteAt (stuckEntry s u ((off - 0x100000) / 8)) (off % 8)

/-- A span of a tile's window. -/
def tileBytes (s : State) (u off n : Nat) : Bytes :=
  if tileArea off = some 2 then (measured s u (off - 0x10000) n).map (fun q => BitVec.ofInt 8 q)
  else (rangeFrom off n).map (tileByte s u)

/-- Offsets of the words of a span. -/
def wordOffsets (a n : Nat) : List Nat := (List.range (ceilDiv n 4)).map (fun i => a + 4 * i)

/-- The tile number of an address. -/
def windowTile (a : Nat) : Nat := tileIx (stallOf a) (tileOf a).1

/-- Reading a span of a tile's window. -/
def judgeTileRead (s : State) (a n : Nat) : Verdict :=
  let p := stallOf a
  let t := (tileOf a).1
  let off := (tileOf a).2
  firstRefusal ((wordOffsets off n).map (fun o => match tileArea o with
    | none => (2, 3)
    | some 2 => verdictBy (levelReadStatus s p t (off - 0x10000) n)
    | some _ => verdictBy (windowStatus s p t)))

/-- Writing bytes to a span of a tile's window (DEDUCED, assumption 55). -/
def judgeTileWrite (s : State) (a : Nat) (b : Bytes) : Verdict :=
  let p := stallOf a
  let t := (tileOf a).1
  let off := (tileOf a).2
  let w := windowStatus s p t
  firstRefusal ((wordOffsets off b.length).map (fun o => match tileArea o with
    | none => (2, 3)
    | some 0 => verdictBy (if w ≠ 0 then w else if s.mode == .ready && !s.cal.trimming.any (fun q => q.1 == windowTile a) then 0 else 2)
    | some 2 => verdictBy (levelWriteStatus s p t (off - 0x10000) (b.map byteLevel))
    | some _ => verdictBy (if w ≠ 0 then w else 2)))

/-- Replace a byte of a trim entry; bits above the offset read as zero (DEDUCED, assumption 56). -/
def putTrimByte (u : Nat) (s : State) (x : Nat × Byte) : State :=
  let e := trimOf s u (trimLine x.1)
  let i := x.1 % 8
  let e := e - e / 2 ^ (8 * i) % 256 * 2 ^ (8 * i) + x.2.toNat * 2 ^ (8 * i)
  setTrim s u (trimLine x.1) (e % 2 ^ 28)

/-- Write a span of a tile's window that nothing refuses. Levels are programmed, and `w` says how that ends. -/
def putTile (s : State) (a : Nat) (b : Bytes) (w : WriteReport) : State :=
  let off := (tileOf a).2
  if tileArea off = some 2 then writeLevels s (stallOf a) (tileOf a).1 (off - 0x10000) (b.map byteLevel) w
  else forEach (b.mapIdx (fun i x => (off + i, x))) (putTrimByte (windowTile a)) s

/-! ## Spans of the address map -/

/-- What the map itself refuses of a span outside the register range. -/
def judgeSpan (s : State) (a n : Nat) : Verdict :=
  if !addressable s a n then (2, 3)
  else if reachesAbsent s a n then (3, 8)
  else if reachesFaulted s a n then (4, 7)
  else if reachesResting s a then (5, 2) else (0, 0)

/-- The registers of a span of the register range. -/
def regsOf (a n : Nat) : List Nat := (List.range (n / 8)).map (fun i => a + 8 * i)

/-- Judge a read whole (R139, R140). -/
def judgeRead (s : State) (a n : Nat) : Verdict :=
  if rangeOf a = some 4 then firstRefusal ((regsOf a n).map (fun x => if (findReg x).isSome then (0, 0) else (2, 3)))
  else
    firstRefusal (judgeSpan s a n :: if rangeOf a = some 3 then [judgeTileRead s a n] else [])

/-- A write to the harness region by ACCESS, or to the loft outside those states (DEDUCED, assumption 57). -/
def judgePlace (m : Master) (s : State) (a n : Nat) : Verdict :=
  if m.access && meets a n harnessBase 0xFF00000 then (5, 2)
  else if rangeOf a = some 1 ∧ !loftOpen s then (5, 2) else (0, 0)

/-- Judge the write of one register word. -/
def judgeReg (s : State) (a v : Nat) : Verdict :=
  match findReg a with
  | none => (2, 3)
  | some r => verdictBy (regStatus s r v)

/-- Judge a write whole (R139, R140). -/
def judgeWrite (m : Master) (s : State) (a : Nat) (b : Bytes) : Verdict :=
  if rangeOf a = some 4 then
    firstRefusal ((List.range (b.length / 8)).map (fun i => judgeReg s (a + 8 * i) (fieldAt b (8 * i) 8)))
  else
    firstRefusal [judgeSpan s a b.length,
      if rangeOf a = some 3 then judgeTileWrite s a b else judgePlace m s a b.length]

/-- Read a span that the judgement let through: a corrupt or poisoned line answers FAULTED (R341, R419). -/
def takeSpan (m : Master) (s : State) (a n : Nat) : State × Option Bytes :=
  match rangeOf a with
  | some 1 =>
    let r := loftRead s a n
    (r.1, if r.2 then some (readBytes r.1 a n) else none)
  | some 3 => (s, some (tileBytes s (windowTile a) (tileOf a).2 n))
  | some 4 => (s, some ((regsOf a n).flatMap (fun x => leBytes 8 (((findReg x).map (readReg s)).getD 0))))
  | _ => readChecked s m.reader m.coord a n

/-- Check the lines that a write covers in part. -/
def checkParts (m : Master) (s : State) (a n : Nat) : State × Bool := partsChecked s m.reader m.coord [(a, n)]

/-- Write a word to its register: the operation was judged whole before its first word moved (R139). -/
def putWord (s : State) (a v : Nat) : State :=
  match findReg a with
  | some r => writeReg r v s
  | none => s

/-- Write a span that nothing refuses; words go in ascending address order (R139). -/
def putSpan (s : State) (a : Nat) (b : Bytes) (w : WriteReport) : State :=
  match rangeOf a with
  | some 3 => putTile s a b w
  | some 4 => forEach (List.range (b.length / 8)) (fun s i => putWord s (a + 8 * i) (fieldAt b (8 * i) 8)) s
  | _ => write s a b

/-! ## The operations of an ACCESS body (R138 to R140) -/

/-- One operation. -/
structure AccOp where
  isWrite : Bool
  len : Nat
  addr : Nat
  data : Bytes
  deriving DecidableEq, Repr

/-- Bytes rounded up to a multiple of 8. -/
def pad8 (n : Nat) : Nat := ceilDiv n 8 * 8

/-- The operations of a body, at most `n`. None when a header is malformed or the body is not filled exactly (DEDUCED, assumption 18). -/
def parseOps : Nat → Bytes → Option (List AccOp)
  | _, [] => some []
  | 0, _ => none
  | n + 1, b =>
    let kind := fieldAt b 0 1
    let len := fieldAt b 4 4
    let addr := fieldAt b 8 8
    let size := if kind = 2 then pad8 len else 0
    if b.length < 16 ∨ (kind ≠ 1 ∧ kind ≠ 2) ∨ !zeroAt b 1 3 ∨ 2 ^ 48 ≤ addr ∨ b.length < 16 + size then none
    else
      (parseOps n (b.drop (16 + size))).map
        (fun l => ⟨kind == 2, len, addr, if kind = 2 then slice b 16 len else []⟩ :: l)

/-- Bytes of an operation's record. -/
def answerLen (o : AccOp) : Nat := 8 + if o.isWrite then 0 else pad8 o.len

/-- The operations of a body that can run; none refuses the whole frame with FORMAT. -/
def accessOps (b : Bytes) : Option (List AccOp) :=
  match parseOps 64 b with
  | none => none
  | some l => if l.isEmpty || decide (8192 < (l.map answerLen).sum) then none else some l

/-- The form of an operation: length and alignment. -/
def opForm (o : AccOp) : Bool :=
  let g := if rangeOf o.addr = some 4 then 8 else 4
  decide (1 ≤ o.len) && decide (o.len ≤ 4096) && o.addr % g == 0 && o.len % g == 0

/-- The record of an operation. -/
def record (status : Nat) (data : Bytes) : Bytes :=
  leBytes 1 status ++ leBytes 3 0 ++ leBytes 4 data.length ++ data ++ List.replicate (pad8 data.length - data.length) 0

/-- A write to MOV.CH_START answers with the refusal of its checks (R378). -/
def startRefusal (s : State) (o : AccOp) : Nat :=
  let one := fun a => match findReg a with
    | some r =>
      if r.reg.base = R.movChStart_start.base ∧ !r.pending ∧ (getChan s r.unit).st = 3 then
        verdictBy (getF s R.movChStatus_lastStatus r.unit)
      else (0, 0)
    | none => (0, 0)
  if rangeOf o.addr = some 4 then (firstRefusal ((regsOf o.addr o.len).map one)).2 else 0

/-- A READ. -/
def runRead (s : State) (o : AccOp) : State × Bytes :=
  let v := judgeRead s o.addr o.len
  if v.2 ≠ 0 then (s, record v.2 [])
  else
    match takeSpan Master.ofAccess s o.addr o.len with
    | (t, some b) => (t, record 0 b)
    | (t, none) => (t, record 7 [])

/-- A WRITE. -/
def runWrite (s : State) (o : AccOp) (w : WriteReport) : State × Bytes :=
  let v := judgeWrite Master.ofAccess s o.addr o.data
  if v.2 ≠ 0 then (s, record v.2 [])
  else
    let c := checkParts Master.ofAccess s o.addr o.len
    if !c.2 then (c.1, record 7 [])
    else
      let t := putSpan c.1 o.addr o.data w
      (t, record (startRefusal t o) [])

/-- Run one operation. -/
def runAccOp (s : State) (o : AccOp) (w : WriteReport) : State × Bytes :=
  if !opForm o then (s, record 4 []) else if o.isWrite then runWrite s o w else runRead s o

/-- Run the operations in body order, numbered from `i`. -/
def runOps : State → Nat → List AccOp → List (Nat × WriteReport) → State × Bytes
  | s, _, [], _ => (s, [])
  | s, i, o :: l, w =>
    let x := runAccOp s o (reportFor w i)
    let y := runOps x.1 (i + 1) l w
    (y.1, x.2 ++ y.2)

/-! ## ACCESS from the host (R133, R138, R139) -/

/-- The last frame queued leaves from another UDP port: a new control_udp waits for the response to its frame. -/
def lastFrom (udp : Nat) (s : State) : State :=
  { s with prt := { s.prt with queue := s.prt.queue.dropLast ++
      (s.prt.queue.getLast?.map (fun f => { f with srcUdp := udp })).toList } }

/-- Some operation reaches the loft through a link that retrains (R338). -/
def opsHeld (s : State) (l : List AccOp) : Bool := l.any (fun o => linkHeld s o.addr o.len)

/-- Run the operations of an ACCESS frame and answer it. -/
def answerAccess (f : CtlFrame) (w : List (Nat × WriteReport)) (s : State) : State :=
  let r := runOps s 0 ((accessOps f.body).getD []) w
  lastFrom (getF s R.hstCtl_controlUdp) (respond r.1 f r.2)

/-- An ACCESS frame in sequence (DEDUCED, assumption 19). -/
def accessFrame (f : CtlFrame) (w : List (Nat × WriteReport)) (s : State) : State :=
  match accessOps f.body with
  | none => refuseInOrder (bumpF s R.ctlCounters_formatRefused 0 1) f 4
  | some l =>
    if f.planTag ≠ 0 ∧ f.planTag ≠ getF s R.gtePlan_planTag then planMismatch (refuseInOrder s f 5) 1 f.planTag
    else if opsHeld s l ∨ !s.upd.heldAccess.isEmpty then
      { s with upd := { s.upd with heldAccess := s.upd.heldAccess ++ [(f, w)] } }
    else answerAccess f w s

def execAccess (f : CtlFrame) (w : List (Nat × WriteReport)) (s : State) : Out :=
  inModule s (fun s => sessionFrame s f 0x10 (accessFrame f w))

/-! ## ACCESS within a team (R445, R469) -/

/-- Run the operations of a partner's ACCESS frame and answer it. -/
def answerTeam (f : TeamFrame) (w : List (Nat × WriteReport)) (s : State) : State :=
  let r := runOps s 0 ((accessOps f.payload).getD []) w
  sendTeam r.1 f.rx.port 8 0 f.page 0 0 r.2

/-- An ACCESS frame of the partner: its number must rise; a body that does not parse is not answered (DEDUCED, assumption 131). -/
def teamAccess (f : TeamFrame) (w : List (Nat × WriteReport)) (s : State) : State :=
  if !teamFormed s then s
  else if f.page ≤ s.team.accessSeq then dropTeam s
  else
    match accessOps f.payload with
    | none => s
    | some l =>
      let s := { s with team := { s.team with accessSeq := f.page } }
      if opsHeld s l then stageTeam s f w else answerTeam f w s

def execTeamAccess (f : TeamFrame) (w : List (Nat × WriteReport)) (s : State) : Out := teamFrame f 7 s (teamAccess f w) w

/-- ACCESS_RESP: the results of this module's operations on its partner (DEDUCED, assumption 132). -/
def accessResp (f : TeamFrame) (s : State) : State :=
  if teamFormed s then { s with team := { s.team with answers := s.team.answers ++ [(f.page, f.payload)] } } else s

def execAccessResp (f : TeamFrame) (s : State) : Out := teamFrame f 8 s (accessResp f)

/-! ## A loft link's traffic resumes (R338) -/

/-- The effect of a staged team frame, by its type (R445). -/
def absorbTeam (s : State) (x : TeamFrame × List (Nat × WriteReport)) : State :=
  match x.1.ftype with
  | 1 => takeHello x.1 s
  | 3 => takePage x.1 s
  | 4 => takePageAck x.1 s
  | 5 => takeCommit x.1 s
  | 6 => takeCommitAck x.1 s
  | 7 => if x.1.page = s.team.accessSeq then answerTeam x.1 x.2 s else teamAccess x.1 x.2 s
  | 8 => accessResp x.1 s
  | 9 => breakWith s 4
  | _ => s

/-- ACCESS frames that a retraining link held run, oldest first, once no link holds them, and the staging SRAMs empty; frames
of a session or a team that has ended are dropped. -/
def resumeAccess (s : State) : State :=
  if anyLinkDown s then s
  else
    let host := s.upd.heldAccess
    let team := s.team.staged
    let s := { s with upd := { s.upd with heldAccess := [] }, team := { s.team with staged := [] } }
    let s := forEach host (fun s x => if onF s R.ctlState_sessionOpen ∧ x.1.sessionId = getF s R.ctlState_sessionId then answerAccess x.1 x.2 s else s) s
    let s := forEach team (fun s x => if getF s R.pairStatus_team = 1 ∨ teamFormed s then absorbTeam s x else s) s
    forEach (List.range 24) teamFlow s

/-- LOFT_LINK_RETRAINED: held traffic resumes. -/
def linkRetrained (z : Nat) (s : State) : State :=
  if linkDown s z then resumeAccess (setLink s z 8) else s

def execLoftLinkRetrained (z : Nat) (s : State) : Out := onUnit 4 z s (linkRetrained z)

def execLoftLinkLost (z lanes : Nat) (s : State) : Out := onUnit 4 z s (fun s => resumeAccess (linkLost z lanes s))

end Sys2Proof.Machine
end

