-- ==== Sys2Proof/Machine/MoverBurst.lean ====
section
/-! DEFINITION. Machine/MoverBurst.lean: MOVER_BURST: one burst of a general, stall or privileged channel (R369, R371 to
R376, R379, R380, R411, R451). -/
namespace Sys2Proof.Machine
open Sys2Proof

/-! ## The bytes of a burst (R371, R372) -/

/-- The spans that `n` stream bytes from byte `b` on take on a side: whole elements when read, the last one cut when
written. -/
def sidePieces (x : Side) (b n : Nat) (whole : Bool) : List (Nat × Nat) :=
  let k := ceilDiv n x.w
  if x.circ = 0 ∧ x.stride = x.w then [(x.addr + b, if whole then k * x.w else n)]
  else (List.range k).map (fun i => (elemAddr x (b / x.w + i), if whole then x.w else min x.w (n - i * x.w)))

/-- A mover of a channel, as a master: reader kind 3, named by the package (R435). -/
def moverMaster : Master := ⟨3, cPkg, false⟩

/-- Read the spans of a burst in order: the state after it, and the bytes, or the refusal. -/
def readPieces (s : State) (l : List (Nat × Nat)) : State × Nat × Bytes :=
  let v := firstRefusal (l.map (fun p => judgeRead s p.1 p.2))
  if v.2 ≠ 0 then (s, v.2, [])
  else
    l.foldl (fun (x : State × Nat × Bytes) p =>
      match takeSpan moverMaster x.1 p.1 p.2 with
      | (t, some b) => (t, x.2.1, x.2.2 ++ b)
      | (t, none) => (t, 7, x.2.2)) (s, 0, [])

/-- Pair each span with its bytes of the stream. -/
def cutStream : List (Nat × Nat) → Bytes → List (Nat × Bytes)
  | [], _ => []
  | (a, n) :: l, b => (a, b.take n) :: cutStream l (b.drop n)

/-- One write after another: a span that goes on where the one before ends joins it, so that every line a burst covers is
written whole (R373). -/
def joinWrites : List (Nat × Bytes) → List (Nat × Bytes)
  | [] => []
  | x :: l =>
    match joinWrites l with
    | y :: r => if x.1 + x.2.length = y.1 then (x.1, x.2 ++ y.2) :: r else x :: y :: r
    | [] => [x]

/-- A burst that goes once round its circular buffer ends where it began. -/
def joinRound (l : List (Nat × Bytes)) : List (Nat × Bytes) :=
  match l.head?, l.getLast? with
  | some x, some y => if 1 < l.length ∧ y.1 + y.2.length = x.1 then (y.1, y.2 ++ x.2) :: (l.drop 1).dropLast else l
  | _, _ => l

/-- Write the spans of a burst, all of them or none: the state after it, and the refusal or 0. -/
def writePieces (s : State) (l : List (Nat × Bytes)) (w : List (Nat × WriteReport)) : State × Nat :=
  let v := firstRefusal (l.map (fun p => judgeWrite moverMaster s p.1 p.2))
  if v.2 ≠ 0 then (s, v.2)
  else
    let c := l.foldl (fun (x : State × Bool) p =>
      let r := checkParts moverMaster x.1 p.1 p.2.length
      (r.1, x.2 && r.2)) (s, true)
    if c.2 then (forEach (l.mapIdx (fun i p => (i, p))) (fun t x => putSpan t x.2.1 x.2.2 (reportFor w x.1)) c.1, 0)
    else (c.1, 7)

/-! ## Channels paced by requests (R374, R380) -/

/-- The channels of the same mover engine. -/
def engineOf (c : Nat) : List Nat := if isStallChan c then rangeFrom (64 + (c - 64) / 32 * 32) 32 else List.range 57

/-- A burst of channel `c` completed: a request for each channel that names it as its peer. -/
def tellPeers (s : State) (c : Nat) : State :=
  let waits := fun (k : Nat) => (getChan s k).desc.any (fun d => d.reqSrc == 3 && d.reqArg == chanNo c)
  forEach ((engineOf c).filter waits) addRequest s

/-- The descriptor has completed: the next of its chain starts, with the pending requests, or the channel is idle. -/
def endDesc (s : State) (c : Nat) (d : Desc) : State :=
  let s := descDone s c d
  if bit d.flags 2 then startDesc 64 s c d.next 2 else chanIdle s c

/-- Take one request of a channel on a request line (DEDUCED, assumption 59). -/
def takeRequest (s : State) (c : Nat) (d : Desc) : State :=
  let h := getChan s c
  if d.reqSrc = 0 then s else setChan s c { h with pending := h.pending - 1 }

/-- Bytes that a burst of a stall channel moves through a stall store's second port add to the store's traffic (R280, R375). -/
def chargePort (s : State) (x : Nat × Nat) : State :=
  if rangeOf x.1 = some 2 ∧ x.1 % 2 ^ 31 < 0x400000 then
    modStall s (stallOf x.1) (fun t => if t.mmq.isEmpty then t else { t with moved := t.moved + x.2 })
  else s

/-- A burst reaches the loft through a link that retrains (R338). -/
def burstHeld (s : State) (d : Desc) (b n : Nat) : Bool :=
  (sidePieces (srcSide d) b n true ++ sidePieces (dstSide d) b n false).any (fun x => linkHeld s x.1 x.2)

/-- Move `n` bytes from stream byte `b` of a descriptor. -/
def moveBytes (s : State) (c : Nat) (d : Desc) (b n : Nat) (w : List (Nat × WriteReport)) : State :=
  let r := readPieces s (sidePieces (srcSide d) b n true)
  if r.2.1 ≠ 0 then refuseChan r.1 c r.2.1 1 0
  else
    let t := writePieces r.1 (joinRound (joinWrites (cutStream (sidePieces (dstSide d) b n false) (r.2.2.take n)))) w
    if t.2 ≠ 0 then refuseChan t.1 c t.2 1 0
    else
      let s := setChan t.1 c { getChan t.1 c with bytesDone := b + n }
      let s := if isStallChan c then
          forEach (sidePieces (srcSide d) b n true ++ sidePieces (dstSide d) b n false) chargePort s else s
      let s := tellPeers s c
      if d.length ≤ b + n then endDesc s c d else s

/-- A burst of a channel that runs, with a pending request and work remaining. -/
def chanBurst (c : Nat) (w : List (Nat × WriteReport)) (s : State) : State :=
  let h := getChan s c
  match h.desc with
  | none => s
  | some d =>
    if h.st ≠ 1 then s
    else if d.length ≤ h.bytesDone then endDesc s c d
    else if d.reqSrc ≠ 0 ∧ h.pending = 0 then s
    else if burstHeld s d h.bytesDone (min d.burst (d.length - h.bytesDone)) then s
    else moveBytes (takeRequest s c d) c d h.bytesDone (min d.burst (d.length - h.bytesDone)) w

/-! ## Privileged channels (R369, R376, R451) -/

/-- The bytes a privileged channel moves at once: lines of 64 bytes, at most 4,096 and at most what a window brings (DESIGN CHOICE, assumption 58). -/
def burstSize (s : State) (c : Nat) : Nat := max 64 (min 4096 (windowBytes s c / 64 * 64))

/-- Move a burst of a unit of `n` bytes; its last burst does `done`. -/
def pacedBurst (s : State) (c n : Nat) (done : State → State) : State :=
  let b := (getChan s c).bytesDone
  let m := min (burstSize s c) (n - b)
  let r := takeBucket s c m
  if !r.2 then r.1
  else
    let h := getChan r.1 c
    if n ≤ b + m then ranDry (done (setChan r.1 c { h with bytesDone := 0 })) c
    else setChan r.1 c { h with bytesDone := b + m }

/-- Order of pages: group, then page. -/
def firstPage (l : List Page) : Option Page :=
  l.foldl (fun m p => match m with
    | none => some p
    | some q => if p.group < q.group ∨ (p.group = q.group ∧ p.page < q.page) then some p else some q) none

/-- A burst of securing: the last one of a page writes its home slot and sends it. -/
def pageBurst (c : Nat) (s : State) : State :=
  match firstPage (pagesFor s c) with
  | none => s
  | some p => pacedBurst s c pageSize (fun t => sweepPages (streamPage (noteRead t (pageSource t p) pageSize) p))

/-- A burst of feed ingest: the last one of a frame writes its payload into the ring. -/
def ingestBurst (s : State) : State :=
  match s.feed.staging with
  | [] => s
  | f :: _ => pacedBurst s 57 f.length feedBurst

/-- A burst of loft streaming: bytes of the first level record that a transfer of the chip waits for; the command that
completes the transfer takes the record when all of it has come (R301, R369) (DEDUCED, assumption 37). -/
def loftBurst (c : Nat) (s : State) : State :=
  match wantedLoads s (c - 60) with
  | [] => s
  | k :: _ =>
    let b := tget 0 s.cal.loads k
    let m := min (burstSize s c) (recordSize - b)
    let r := takeBucket s c m
    if !r.2 then r.1 else ranDry { r.1 with cal := { r.1.cal with loads := tset r.1.cal.loads k (b + m) } } c

/-- MOVER_BURST: base-die channels 0 to 63, then 64 + p for stall p. Traffic of a retraining loft link is held (R338). -/
def moverBurst (c : Nat) (w : List (Nat × WriteReport)) (s : State) : State :=
  if isStallChan c then chanBurst c w s
  else if c < 57 then chanBurst c w s
  else if c = 57 then ingestBurst s
  else if c < 60 then (if anyLinkDown s then s else afterSecured (pageBurst c s))
  else if linkDown s (c - 60) then s
  else loftBurst c s

def execMoverBurst (ch : Nat) (w : List (Nat × WriteReport)) (s : State) : Out := onUnit 576 ch s (moverBurst ch w)

end Sys2Proof.Machine
end

