-- ==== Sys2Proof/Machine/Security.lean ====
section
/-! DEFINITION. Machine/Security.lean: attestation, owner key slots, firmware and scrubbing (R462 to R465, R468, R470, R471,
R473, R474). -/
namespace Sys2Proof.Machine
open Sys2Proof

/-- The management core as a master of the address map. -/
def coreMaster : Master := ⟨7, cPkg, false⟩

/-! ## ATTEST (R470) -/

/-- The certificate chain, at most 4 KiB. -/
def chain : Bytes := Config.certChain.take 4096

/-- The digest of the active harness image, zero when none. -/
def imageDigest (s : State) : Bytes :=
  match s.job.image with
  | some i => shake256 (readBytes s harnessBase i.length) 64
  | none => List.replicate 64 0

/-- The public key of a slot, 57 zero bytes when it is EMPTY. -/
def slotBytes (s : State) (i : Nat) : Bytes :=
  if (slotAt s i).st = 0 then List.replicate 57 0 else slice (slotAt s i).key 0 57

/-- Bytes 0 to 0x107 of the report. -/
def reportHead (s : State) (nonce : Bytes) : Bytes :=
  ascii "VATT" ++ leBytes 2 1 ++ leBytes 1 (getF s R.bruClass_class) ++ leBytes 1 (modeCode s.mode) ++ slice nonce 0 32
    ++ slice Config.serial 0 16 ++ slice (fwCopyOf s (getF s R.secFw_runningCopy)).digest 0 64
    ++ leBytes 2 (getF s R.secFw_svnRunning) ++ leBytes 2 (getF s R.secFw_svnFused)
    ++ leBytes 2 (getF s R.bruBayId_bayNumber) ++ leBytes 2 0 ++ leBytes 8 (getF s R.bruBayInstall_installationId)
    ++ leBytes 8 (getF s R.gtePlan_planTag) ++ leBytes 8 (getF s R.gteStep_step) ++ leBytes 8 s.now ++ imageDigest s
    ++ leBytes 1 (getF s R.secStatus_slotState)
    ++ leBytes 1 (if onF s R.secScrub_clean then getF s R.secScrub_flags else 0) ++ leBytes 6 0
    ++ shake256 ((List.range 4).flatMap (slotBytes s)) 32

/-- The signed report of 384 bytes. -/
def report (s : State) (nonce : Bytes) : Bytes :=
  let h := reportHead s nonce
  h ++ slice (Config.deviceSign (ascii "VRHATT") (shake256 h 64)) 0 114 ++ leBytes 6 0

/-- What lies at the chain address. -/
def chainBytes : Bytes := leBytes 4 chain.length ++ chain

/-- ATTEST: space for the chain is judged before anything is written, and so are the places (DEDUCED, assumption 129). -/
def attest (s : State) (c : CmdRec) : State :=
  let a := arg c 0
  let b := report s (readBytes s (a + 8) 32)
  let v := firstRefusal [judgeRead s (a + 8) 32, judgeWrite coreMaster s a b, judgeWrite coreMaster s (arg c 1) chainBytes]
  if a % 64 ≠ 0 ∨ arg c 2 < chain.length + 4 then complete s c 3 0
  else if v.2 ≠ 0 then complete s c v.2 0
  else
    let s := putSpan (putSpan s a b []) (arg c 1) chainBytes []
    complete s c 0 chain.length

def execAttest (ring : Nat) (s : State) : Out := takeCmd ring 0xE001 s (fun s c => legalIn (upStates s) s c attest)

/-! ## SLOT_UPDATE (R464, R465) -/

/-- The form of a slot record, its zero fields and serial. -/
def slotForm (b : Bytes) : Bool :=
  decide (fieldAt b 0 1 < 4) && decide (fieldAt b 1 1 < 4) && decide (1 ≤ fieldAt b 2 1) && decide (fieldAt b 2 1 ≤ 3)
    && zeroAt b 3 5 && slice b 0x10 16 == slice Config.serial 0 16 && (fieldAt b 2 1 == 1 || zeroAt b 0x20 57)
    && zeroAt b 0x59 7 && zeroAt b 0xD2 14

/-- The signer is ACTIVE and its signature over bytes 0x00 to 0x5F verifies. -/
def slotSigned (s : State) (b : Bytes) : Bool :=
  let k := slotAt s (fieldAt b 1 1)
  k.st == 1 && verify k.key "VRHKEY" (slice b 0 0x60) (slice b 0x60 114)

/-- The target suits the operation. -/
def slotFits (s : State) (slot op : Nat) : Bool :=
  match op with
  | 1 => (slotAt s slot).st != 1
  | 2 => (slotAt s slot).st == 1 && decide (1 < countIf (List.range 4) (fun i => (slotAt s i).st == 1))
  | _ => true

/-- The status of a slot record (DEDUCED, assumption 130). -/
def slotStatus (s : State) (b : Bytes) : Nat :=
  if !slotForm b then 4
  else if !slotSigned s b then 6
  else if fieldAt b 8 8 ≤ getF s R.secEpoch_epoch then 3
  else if !slotFits s (fieldAt b 0 1) (fieldAt b 2 1) then 9
  else 0

/-- Apply an operation to the slots. -/
def applySlot (s : State) (slot op : Nat) (key : Bytes) : State :=
  match op with
  | 1 => setSlot s slot ⟨1, key⟩
  | 2 => setSlot s slot ⟨2, (slotAt s slot).key⟩
  | _ => forEach (List.range 4) (fun s i => setSlot s i ⟨0, []⟩) s

/-- The slot the open session was opened with: a claim's is slot 0. -/
def sessionSlot (s : State) : Nat := if s.ses.slot = 4 then 0 else s.ses.slot

/-- SLOT_UPDATE: the session of a slot that is no longer ACTIVE closes after the completion. -/
def slotUpdate (s : State) (c : CmdRec) : State :=
  let a := arg c 0
  if !inHbm a 224 then complete s c 3 0
  else
    let b := readBytes s a 224
    let st := slotStatus s b
    if st ≠ 0 then complete s c st 0
    else
      let slot := fieldAt b 0 1
      let op := fieldAt b 2 1
      let s := setF (applySlot s slot op (slice b 0x20 57)) R.secEpoch_epoch 0 (fieldAt b 8 8)
      let s := complete (raise s 0xE004 cPkg slot op) c 0 0
      if sessionOpen s && (slotAt s (sessionSlot s)).st != 1 then closeSession s 5 else s

def execSlotUpdate (ring : Nat) (s : State) : Out :=
  takeCmd ring 0xE002 s (fun s c => legalIn (s.mode == .ready) s c slotUpdate)

/-! ## FW_UPDATE (R471) -/

/-- The form of a firmware image of `n` bytes. -/
def fwForm (b : Bytes) (n : Nat) : Bool :=
  slice b 0 4 == ascii "VFWI" && fieldAt b 4 2 == 1 && fieldAt b 8 4 == n
    && 64 + fieldAt b 12 4 + fieldAt b 16 4 + 128 == n && zeroAt b 20 44 && zeroAt b (n - 14) 14

/-- The certificate chains to a fused root and the signature verifies. -/
def fwSigned (b : Bytes) (n : Nat) : Bool :=
  match Config.firmwareCertKey (slice b (64 + fieldAt b 12 4) (fieldAt b 16 4)) with
  | some k => verify k "VRHFW" (b.take (n - 128)) (slice b (n - 128) 114)
  | none => false

/-- The status of a firmware image. -/
def fwStatus (s : State) (b : Bytes) (n : Nat) : Nat :=
  if !fwForm b n then 4 else if !fwSigned b n then 6 else if fieldAt b 6 2 < getF s R.secFw_svnFused then 3 else 0

/-- Write the copy that is not running. -/
def stageFirmware (s : State) (f : FwCopy) : State :=
  let s := if getF s R.secFw_runningCopy = 0 then { s with nv := { s.nv with fwB := f, fwStaged := true } }
    else { s with nv := { s.nv with fwA := f, fwStaged := true } }
  setF s R.secFw_staged 0 1

/-- FW_UPDATE. -/
def fwUpdate (s : State) (c : CmdRec) : State :=
  let a := arg c 0
  let n := arg c 1
  if n < 192 ∨ 2 ^ 24 < n then complete s c 4 0
  else if !inHbm a n then complete s c 3 0
  else
    let b := readBytes s a n
    let st := fwStatus s b n
    if st ≠ 0 then complete s c st 0
    else
      let svn := fieldAt b 6 2
      complete (raise (stageFirmware s ⟨shake256 b 64, svn, Config.fwVersion (shake256 b 64)⟩) 0xE005 cPkg 0 svn) c 0 0

def execFwUpdate (ring : Nat) (s : State) : Out :=
  takeCmd ring 0xE003 s (fun s c => legalIn (s.mode == .ready) s c fwUpdate)

/-! ## SCRUB (R473) -/

/-- A field takes its Reset value: RW or RWG, outside SEC, BRU, FUS, PAIR.HOME and PAIR.MIRROR. -/
def scrubs (r : RegDef) (f : Field) : Bool :=
  let block := f.base / 2 ^ 24
  (f.acc == .rw || f.acc == .rwg) && block != 0x13 && block != 0x05 && block != 0x04
    && r.base != R.pairHome_home64k.base && r.base != R.pairMirror_mirror64k.base

/-- Bit 3: registers. A disabled port is enabled again, a tile whose range changes is due, and a ring whose placement is
reset is empty (DEDUCED, assumption 127). -/
def scrubRegs (s : State) : State :=
  let ranges := (s.reg.filterMap (fun e => unitOf R.tilConv_rangeCode 17408 e.1)).filter (fun u => getF s R.tilConv_rangeCode u != 2)
  let budget := getF s R.pwrBudget_budgetW
  let off := (List.range 24).filter (fun n => !onF s R.prtPortCtl_enable n)
  let s := forEach off (fun s n => enablePort n true s) s
  let s := forEach allRegs (fun s r => forEach (r.fields.filter (scrubs r)) (fun s f => clearUnits s f r.count) s) s
  let s := setFs { s with pend := [] } (readyFields ++ [(R.ctlEvtCfg_base4k, 0x8FFFF00), (R.ctlEvtCfg_sizeCode, 4)])
  let s := setBudget (setF s R.pwrBudget_budgetW 0 budget) (min 2400 (getF s R.pwrBudget_ceilingW))
  let s := forEach [0, 1] (fun s r => setF s R.ctlRingDoorbell_producer r (ringConsumer s r)) s
  feedReset (forEach ranges noteRange (defaultShares s))

/-- Bit 0: HBM, with the histories it holds. -/
def scrubHbm (s : State) : State :=
  let s := zero s 0 hbmEnd
  { s with fmt := { s.fmt with hist := [], atCommit := [] }, team := { s.team with snaps := [] } }

/-- Bit 2: every fitted loft line. -/
def scrubLoft (s : State) : State :=
  forEach ((List.range 8).filter (fun c => onF s R.lftChannel_populated c)) (fun s c => zero s (loftBase c) (fittedBytes s)) s

/-- The parts of a scrub that reach a stall: bit 1 zeroes its store and trough, bit 4 writes every data pair of its good tiles
to level 0; `w` says how the writes end, by tile. -/
def scrubStall (w : List (Nat × WriteReport)) (flags : Nat) (s : State) (p : Nat) : State :=
  let s := when (bit flags 1) (fun s => zero s (storeBase p) 0x500000) s
  let tiles := (List.range 34).filter (fun t => !(getStall s p).bad.contains t)
  let one := fun (s : State) (t : Nat) =>
    let r := fullWrite s (tileIx p t) [] (reportFor w (tileIx p t))
    if r.2.failed then failTile r.1 p t 3 else r.1
  when (bit flags 4) (forEach tiles one) s

/-- The stalls that a scrub reaches. -/
def scrubStalls (s : State) (flags : Nat) : List Nat :=
  if bit flags 1 || bit flags 4 then (List.range 512).filter (fun p => (getStall s p).st != .disabled) else []

/-- The parts of a scrub: those of running stalls at once, those of the others once they are AWAKE (R476) (DEDUCED, assumption 128). -/
def scrubParts (w : List (Nat × WriteReport)) (flags : Nat) (s : State) : State :=
  let all := scrubStalls s flags
  let wait := all.filter (fun p => isResting (getStall s p))
  let s := when (bit flags 0) scrubHbm s
  let s := when (bit flags 2) scrubLoft s
  let s := forEach (all.filter (fun p => !wait.contains p)) (scrubStall w flags) s
  toWrite { (when (bit flags 3) scrubRegs s) with job := { s.job with reports := w } } wait

/-- Ticks that a scrub takes at most (R473): 100 ms, or what its slowest channel takes to fill and 0.3 s. -/
def scrubBound (s : State) (flags : Nat) : Nat :=
  if bit flags 2 then 7500000 + fittedBytes s * 25 / (8 * max 1 (getF s R.bruFit_loftSpeedMts)) else 2500000

/-- SCRUB. How long it takes within R473's times is a free value (DEDUCED, assumption 126). -/
def scrub (w : List (Nat × WriteReport)) (s : State) (c : CmdRec) : State :=
  let flags := arg c 0
  if 32 ≤ flags then complete s c 4 0
  else if flags = 0 then complete s c 0 0
  else
    let due := s.now + Config.freeNat s.draws 473 % (scrubBound s flags + 1)
    startLong (scrubParts w flags (draw s)) c (some due) 0

/-- The end of a SCRUB. -/
def scrubEnd (s : State) (r : Running) : State :=
  let flags := arg r.cmd 0
  let ms := (s.now - r.taken) / 25000
  let s := eraseTeamKey { s with job := { s.job with toWrite := [], reports := [] } }
  let s := setFs s [(R.secScrub_flags, flags), (R.secScrub_clean, 1), (R.secScrub_ms, ms)]
  finish (raise s 0xE007 cPkg flags ms) r.cmd 0 0

def execScrub (ring : Nat) (w : List (Nat × WriteReport)) (s : State) : Out :=
  takeCmd ring 0xE004 s (fun s c => legalIn (s.mode == .ready) s c (scrub w))

/-! ## Commands that time or a wake ends (R144, R178, R458, R473, R476) -/

/-- A command in progress whose work is over completes. -/
def workOn (s : State) : State :=
  match s.job.running with
  | none => s
  | some r =>
    if r.cmd.opcode = 0x3002 then if timeOver s r then unloadEnd s r.cmd else s
    else if r.cmd.opcode = 0x0005 then rollbackMore s r
    else if r.cmd.opcode = 0xE004 ∧ timeOver s r ∧ !writesWait s s.job.toWrite then scrubEnd s r
    else s

/-- GOVERNOR_TICK. -/
def execGovernorTick (s : State) : Out := .next (if s.mode == .off then s else workOn (tick s))

/-- The writes of a ROLLBACK or SCRUB that waited for a stall begin once it is AWAKE. -/
def writeWoken (p : Nat) (s : State) : State :=
  if !isRunning (getStall s p) || !s.job.toWrite.contains p then s
  else
    match s.job.running with
    | none => s
    | some r =>
      let w := s.job.reports
      let t := { s with job := { s.job with toWrite := s.job.toWrite.filter (fun q => q != p) } }
      if r.cmd.opcode = 0x0005 then workOn (rewriteStalls w [p] t)
      else if r.cmd.opcode = 0xE004 then workOn (scrubStall w (arg r.cmd 0) t p)
      else s

/-- STALL_WAKE_COMPLETE. -/
def execStallWakeComplete (p : Nat) (s : State) : Out := onStall p s (fun s => writeWoken p (stallWoken p s))

end Sys2Proof.Machine
end

