-- ==== Sys2Proof/Machine/Dispatch.lean ====
section
/-! DEFINITION. Machine/Dispatch.lean: one arm per command. -/
namespace Sys2Proof.Machine

/-- A command's effect on everything but the queue. -/
def exec (i : Instr) (s : State) : Host.Outcome State Fault Refusal :=
  match i with
  | .powerInputInRange => Sys2Proof.Machine.execPowerInputInRange s
  | .alwaysOnRailsGood => Sys2Proof.Machine.execAlwaysOnRailsGood s
  | .inputOutOfLimits => Sys2Proof.Machine.execInputOutOfLimits s
  | .bayIdentityRead r => Sys2Proof.Machine.execBayIdentityRead r s
  | .resetNReleased => Sys2Proof.Machine.execResetNReleased s
  | .resetNLow => Sys2Proof.Machine.execResetNLow s
  | .lastRailOff => Sys2Proof.Machine.execLastRailOff s
  | .leverOpened => Sys2Proof.Machine.execLeverOpened s
  | .railFault rail mv => Sys2Proof.Machine.execRailFault rail mv s
  | .clk25AonLost => Sys2Proof.Machine.execClk25AonLost s
  | .clk25AonRestored => Sys2Proof.Machine.execClk25AonRestored s
  | .coreClockLost clk => Sys2Proof.Machine.execCoreClockLost clk s
  | .pllUnlock pll => Sys2Proof.Machine.execPllUnlock pll s
  | .telemetryRefresh t => Sys2Proof.Machine.execTelemetryRefresh t s
  | .alertCauseClear w => Sys2Proof.Machine.execAlertCauseClear w s
  | .i3cDynamicAddress a => Sys2Proof.Machine.execI3cDynamicAddress a s
  | .tapInstruction op => Sys2Proof.Machine.execTapInstruction op s
  | .teamSenseLoss => Sys2Proof.Machine.execTeamSenseLoss s
  | .hostModuleInserted m => Sys2Proof.Machine.execHostModuleInserted m s
  | .hostModuleRemoved faulted => Sys2Proof.Machine.execHostModuleRemoved faulted s
  | .laserModuleInserted sock m => Sys2Proof.Machine.execLaserModuleInserted sock m s
  | .laserModuleRemoved sock faulted => Sys2Proof.Machine.execLaserModuleRemoved sock faulted s
  | .dimmThermalPoll ch tempC => Sys2Proof.Machine.execDimmThermalPoll ch tempC s
  | .bringupPhaseDone r => Sys2Proof.Machine.execBringupPhaseDone r s
  | .loftTestDone failed => Sys2Proof.Machine.execLoftTestDone failed s
  | .wakeRequest p src => Sys2Proof.Machine.execWakeRequest p src s
  | .governorTick => Sys2Proof.Machine.execGovernorTick s
  | .stallWakeComplete p => Sys2Proof.Machine.execStallWakeComplete p s
  | .stallNap p => Sys2Proof.Machine.execStallNap p s
  | .stallSleep p => Sys2Proof.Machine.execStallSleep p s
  | .governorStepRaise => Sys2Proof.Machine.execGovernorStepRaise s
  | .stallParked p => Sys2Proof.Machine.execStallParked p s
  | .governorStepLower => Sys2Proof.Machine.execGovernorStepLower s
  | .ledgerCorrection measuredW => Sys2Proof.Machine.execLedgerCorrection measuredW s
  | .budgetWrite w => Sys2Proof.Machine.execBudgetWrite w s
  | .dieCurrentLimit d amps => Sys2Proof.Machine.execDieCurrentLimit d amps s
  | .dieCurrentPark d => Sys2Proof.Machine.execDieCurrentPark d s
  | .dieThermalThrottle d tj => Sys2Proof.Machine.execDieThermalThrottle d tj s
  | .dieStepLower d thermal value => Sys2Proof.Machine.execDieStepLower d thermal value s
  | .dieThermalTrip d tj => Sys2Proof.Machine.execDieThermalTrip d tj s
  | .wakeWait p => Sys2Proof.Machine.execWakeWait p s
  | .openFrame f => Sys2Proof.Machine.execOpenFrame f s
  | .prove f => Sys2Proof.Machine.execProve f s
  | .challengeExpired => Sys2Proof.Machine.execChallengeExpired s
  | .close f => Sys2Proof.Machine.execClose f s
  | .keepalive f => Sys2Proof.Machine.execKeepalive f s
  | .ack f => Sys2Proof.Machine.execAck f s
  | .access f w => Sys2Proof.Machine.execAccess f w s
  | .registerWrite addr value => Sys2Proof.Machine.execRegisterWrite addr value s
  | .sessionIdleTimeout => Sys2Proof.Machine.execSessionIdleTimeout s
  | .retransmitTimeout => Sys2Proof.Machine.execRetransmitTimeout s
  | .eventNote => Sys2Proof.Machine.execEventNote s
  | .ringDoorbell ring producer => Sys2Proof.Machine.execRingDoorbell ring producer s
  | .ringCfgWrite ring value => Sys2Proof.Machine.execRingCfgWrite ring value s
  | .evtCfgWrite value => Sys2Proof.Machine.execEvtCfgWrite value s
  | .evtConsumerWrite value => Sys2Proof.Machine.execEvtConsumerWrite value s
  | .commandBusy => Sys2Proof.Machine.execCommandBusy s
  | .nop ring => Sys2Proof.Machine.execNop ring s
  | .halt ring => Sys2Proof.Machine.execHalt ring s
  | .haltClear ring => Sys2Proof.Machine.execHaltClear ring s
  | .jobEnd ring => Sys2Proof.Machine.execJobEnd ring s
  | .rollback ring w => Sys2Proof.Machine.execRollback ring w s
  | .gate f => Sys2Proof.Machine.execGate f s
  | .harnessLoad ring => Sys2Proof.Machine.execHarnessLoad ring s
  | .harnessLoadDone w lost => Sys2Proof.Machine.execHarnessLoadDone w lost s
  | .harnessUnload ring => Sys2Proof.Machine.execHarnessUnload ring s
  | .harnessAmend ring => Sys2Proof.Machine.execHarnessAmend ring s
  | .amendStaged => Sys2Proof.Machine.execAmendStaged s
  | .stepNop p => Sys2Proof.Machine.execStepNop p s
  | .fwdEnd p => Sys2Proof.Machine.execFwdEnd p s
  | .endProgram p => Sys2Proof.Machine.execEndProgram p s
  | .layer p => Sys2Proof.Machine.execLayer p s
  | .seti p => Sys2Proof.Machine.execSeti p s
  | .addi p => Sys2Proof.Machine.execAddi p s
  | .ldp p => Sys2Proof.Machine.execLdp p s
  | .stp p => Sys2Proof.Machine.execStp p s
  | .loop p => Sys2Proof.Machine.execLoop p s
  | .wait p => Sys2Proof.Machine.execWait p s
  | .move p => Sys2Proof.Machine.execMove p s
  | .top p => Sys2Proof.Machine.execTop p s
  | .qin p => Sys2Proof.Machine.execQin p s
  | .mm p => Sys2Proof.Machine.execMm p s
  | .vld p => Sys2Proof.Machine.execVld p s
  | .vst p => Sys2Proof.Machine.execVst p s
  | .vop p => Sys2Proof.Machine.execVop p s
  | .vseti p => Sys2Proof.Machine.execVseti p s
  | .tzero p => Sys2Proof.Machine.execTzero p s
  | .tout p => Sys2Proof.Machine.execTout p s
  | .route p => Sys2Proof.Machine.execRoute p s
  | .dispatch p => Sys2Proof.Machine.execDispatch p s
  | .combine p => Sys2Proof.Machine.execCombine p s
  | .wake p => Sys2Proof.Machine.execWake p s
  | .tileOpComplete p slot => Sys2Proof.Machine.execTileOpComplete p slot s
  | .sumWrite p set => Sys2Proof.Machine.execSumWrite p set s
  | .mmComplete p faults => Sys2Proof.Machine.execMmComplete p faults s
  | .tileVoteDecided p => Sys2Proof.Machine.execTileVoteDecided p s
  | .geVoteDecided p faults => Sys2Proof.Machine.execGeVoteDecided p faults s
  | .driftWindowDone p t xy xx => Sys2Proof.Machine.execDriftWindowDone p t xy xx s
  | .retrimDue p t => Sys2Proof.Machine.execRetrimDue p t s
  | .retrimForced p t => Sys2Proof.Machine.execRetrimForced p t s
  | .trimOverdue p t => Sys2Proof.Machine.execTrimOverdue p t s
  | .idleRetrimStart p t => Sys2Proof.Machine.execIdleRetrimStart p t s
  | .trimDone p t m => Sys2Proof.Machine.execTrimDone p t m s
  | .rotationStart p => Sys2Proof.Machine.execRotationStart p s
  | .rotationFillDone p w => Sys2Proof.Machine.execRotationFillDone p w s
  | .rotationTakeover p w => Sys2Proof.Machine.execRotationTakeover p w s
  | .wearFlush => Sys2Proof.Machine.execWearFlush s
  | .tileLevelWrite p t row col levels w => Sys2Proof.Machine.execTileLevelWrite p t row col levels w s
  | .tileLevelRead p t row col len => Sys2Proof.Machine.execTileLevelRead p t row col len s
  | .fieldClear => Sys2Proof.Machine.execFieldClear s
  | .histReset => Sys2Proof.Machine.execHistReset s
  | .backwardBegin => Sys2Proof.Machine.execBackwardBegin s
  | .forwardBarrierSlow => Sys2Proof.Machine.execForwardBarrierSlow s
  | .backwardComplete => Sys2Proof.Machine.execBackwardComplete s
  | .troughPartialPull p => Sys2Proof.Machine.execTroughPartialPull p s
  | .partialWait p => Sys2Proof.Machine.execPartialWait p s
  | .dispatchFrame f => Sys2Proof.Machine.execDispatchFrame f s
  | .returnFrame f => Sys2Proof.Machine.execReturnFrame f s
  | .closeFrame f => Sys2Proof.Machine.execCloseFrame f s
  | .wakeFrame f => Sys2Proof.Machine.execWakeFrame f s
  | .summaryFrame f => Sys2Proof.Machine.execSummaryFrame f s
  | .queryFrame f => Sys2Proof.Machine.execQueryFrame f s
  | .partialFrame f => Sys2Proof.Machine.execPartialFrame f s
  | .refuseFrame f => Sys2Proof.Machine.execRefuseFrame f s
  | .combineWait p => Sys2Proof.Machine.execCombineWait p s
  | .closeWait => Sys2Proof.Machine.execCloseWait s
  | .toutLineStaged p => Sys2Proof.Machine.execToutLineStaged p s
  | .pln z => Sys2Proof.Machine.execPln z s
  | .ctx z => Sys2Proof.Machine.execCtx z s
  | .updateOp z => Sys2Proof.Machine.execUpdateOp z s
  | .stw z => Sys2Proof.Machine.execStw z s
  | .sts z => Sys2Proof.Machine.execSts z s
  | .updChipDone z => Sys2Proof.Machine.execUpdChipDone z s
  | .gateComplete w => Sys2Proof.Machine.execGateComplete w s
  | .loftFlitCrcError z replay => Sys2Proof.Machine.execLoftFlitCrcError z replay s
  | .loftLinkRetrained z => Sys2Proof.Machine.execLoftLinkRetrained z s
  | .loftLinkLost z lanes => Sys2Proof.Machine.execLoftLinkLost z lanes s
  | .loftPatrol ch line found => Sys2Proof.Machine.execLoftPatrol ch line found s
  | .loftFill ring => Sys2Proof.Machine.execLoftFill ring s
  | .moverBurst ch w => Sys2Proof.Machine.execMoverBurst ch w s
  | .chStart ch => Sys2Proof.Machine.execChStart ch s
  | .chPause ch => Sys2Proof.Machine.execChPause ch s
  | .chResume ch => Sys2Proof.Machine.execChResume ch s
  | .chAbort ch => Sys2Proof.Machine.execChAbort ch s
  | .chReq ch => Sys2Proof.Machine.execChReq ch s
  | .rateShareWrite ch share => Sys2Proof.Machine.execRateShareWrite ch share s
  | .rateWindow => Sys2Proof.Machine.execRateWindow s
  | .rateHeld ch => Sys2Proof.Machine.execRateHeld ch s
  | .portUp port lanes group => Sys2Proof.Machine.execPortUp port lanes group s
  | .portAttemptFailed port => Sys2Proof.Machine.execPortAttemptFailed port s
  | .portLost port cause => Sys2Proof.Machine.execPortLost port cause s
  | .portRetrainTimer port => Sys2Proof.Machine.execPortRetrainTimer port s
  | .portRetrain port => Sys2Proof.Machine.execPortRetrain port s
  | .portEnable port enable => Sys2Proof.Machine.execPortEnable port enable s
  | .fecDegraded port corrected => Sys2Proof.Machine.execFecDegraded port corrected s
  | .pfcFrame f => Sys2Proof.Machine.execPfcFrame f s
  | .pfcPauseExpired port prio => Sys2Proof.Machine.execPfcPauseExpired port prio s
  | .pfcStorm port prio => Sys2Proof.Machine.execPfcStorm port prio s
  | .xoffRepeat port prio => Sys2Proof.Machine.execXoffRepeat port prio s
  | .egressFrameStart port => Sys2Proof.Machine.execEgressFrameStart port s
  | .arpRequest port target src => Sys2Proof.Machine.execArpRequest port target src s
  | .neighbourSolicitation port target src => Sys2Proof.Machine.execNeighbourSolicitation port target src s
  | .echoRequest rx payload => Sys2Proof.Machine.execEchoRequest rx payload s
  | .feedFrame f => Sys2Proof.Machine.execFeedFrame f s
  | .feedConsumedWrite value => Sys2Proof.Machine.execFeedConsumedWrite value s
  | .feedCfgWrite value => Sys2Proof.Machine.execFeedCfgWrite value s
  | .hello f => Sys2Proof.Machine.execHello f s
  | .beat f => Sys2Proof.Machine.execBeat f s
  | .beatTimer => Sys2Proof.Machine.execBeatTimer s
  | .teamSilence => Sys2Proof.Machine.execTeamSilence s
  | .teamFormationTimeout => Sys2Proof.Machine.execTeamFormationTimeout s
  | .bye f => Sys2Proof.Machine.execBye f s
  | .page f => Sys2Proof.Machine.execPage f s
  | .pageAck f => Sys2Proof.Machine.execPageAck f s
  | .pageResend group page => Sys2Proof.Machine.execPageResend group page s
  | .commit f => Sys2Proof.Machine.execCommit f s
  | .commitAck f => Sys2Proof.Machine.execCommitAck f s
  | .teamAccess f w => Sys2Proof.Machine.execTeamAccess f w s
  | .accessResp f => Sys2Proof.Machine.execAccessResp f s
  | .securingHeld => Sys2Proof.Machine.execSecuringHeld s
  | .releaseWrite step => Sys2Proof.Machine.execReleaseWrite step s
  | .mirrorCopy ring => Sys2Proof.Machine.execMirrorCopy ring s
  | .slotOnFallback p slot => Sys2Proof.Machine.execSlotOnFallback p slot s
  | .rebuildStart p slot w => Sys2Proof.Machine.execRebuildStart p slot w s
  | .rebuildDone p slot w => Sys2Proof.Machine.execRebuildDone p slot w s
  | .attest ring => Sys2Proof.Machine.execAttest ring s
  | .slotUpdate ring => Sys2Proof.Machine.execSlotUpdate ring s
  | .fwUpdate ring => Sys2Proof.Machine.execFwUpdate ring s
  | .scrub ring w => Sys2Proof.Machine.execScrub ring w s
  | .chipLost z => Sys2Proof.Machine.execChipLost z s

end Sys2Proof.Machine
end

