-- ==== Sys2Proof/Machine/Wire.lean ====
section
/-! DEFINITION. Machine/Wire.lean: the bytes of a frame as it leaves a port: Ethernet, 802.1Q, IP and UDP headers, payload
and FCS (R12, R399, R400). -/
namespace Sys2Proof.Machine
open Sys2Proof

/-- The payload of a UDP frame; replies and PFC frames, which published protocols lay out whole, have none here. -/
def udpPayload : OutBody → Option Bytes
  | .ctl c tag => some (outHeader c ++ c.body ++ tag)
  | .tok f => some (tokHeader f ++ tableBytes f.table ++ f.payload)
  | .team f => some (teamHeader f ++ f.payload ++ f.tag)
  | .pfc _ _ => none
  | .arpReply _ => none
  | .advert _ => none
  | .echoReply _ => none

/-- An address selects IPv4 encapsulation: it is IPv4-mapped (R397). -/
def isMapped (ip : Nat) : Bool := ip / 2 ^ 32 == 0xFFFF

/-- The source address of a frame sent by a port to an address: the module's own address of the same kind; on the host port
the link-local one where no other is set (R396) (DESIGN CHOICE, assumption 172). -/
def sourceIp (s : State) (port ip : Nat) : Nat :=
  if port < 24 then (if isMapped ip then mapped4 (getF s R.prtAddr4_ipv4) else moduleAddr6 s)
  else if isMapped ip then mapped4 (getF s R.hstAddr4_ipv4)
  else
    let a := getF s R.hstAddr6Hi_addrHi * 2 ^ 64 + getF s R.hstAddr6Lo_addrLo
    if a = 0 then linkLocal (portMac s port) else a

/-- Sum of the 16-bit words of some bytes in network order, an odd last byte filled with zero. -/
def wordSum : Bytes → Nat
  | [] => 0
  | [a] => a.toNat * 256
  | a :: b :: l => a.toNat * 256 + b.toNat + wordSum l

/-- A sum folded to 16 bits in ones' complement, and inverted. -/
def inetSum (n : Nat) : Nat :=
  let a := n % 65536 + n / 65536
  65535 - (a % 65536 + a / 65536)

/-- The IPv4 header (R399), its checksum given. -/
def ipv4Header (prio len src dst sum : Nat) : Bytes :=
  beBytes 1 0x45 ++ beBytes 1 (8 * prio * 4) ++ beBytes 2 (20 + len) ++ beBytes 2 0 ++ beBytes 2 0x4000 ++ beBytes 1 64
    ++ beBytes 1 17 ++ beBytes 2 sum ++ beBytes 4 src ++ beBytes 4 dst

/-- The IP header of a UDP frame of `len` bytes (R399): DSCP 8 × PCP, the hash as flow label. -/
def ipHeader (f : OutFrame) (src len : Nat) : Bytes :=
  if isMapped f.dst.ip then
    ipv4Header f.prio len (src % 2 ^ 32) (f.dst.ip % 2 ^ 32) (inetSum (wordSum (ipv4Header f.prio len (src % 2 ^ 32) (f.dst.ip % 2 ^ 32) 0)))
  else
    beBytes 4 (6 * 2 ^ 28 + 8 * f.prio * 4 * 2 ^ 20 + f.flow % 2 ^ 20) ++ beBytes 2 len ++ beBytes 1 17 ++ beBytes 1 64
      ++ beBytes 16 src ++ beBytes 16 f.dst.ip

/-- The addresses, protocol and length that the UDP checksum covers besides the datagram. -/
def udpPseudo (f : OutFrame) (src len : Nat) : Bytes :=
  if isMapped f.dst.ip then beBytes 4 src ++ beBytes 4 f.dst.ip ++ beBytes 2 17 ++ beBytes 2 len
  else beBytes 16 src ++ beBytes 16 f.dst.ip ++ beBytes 4 len ++ beBytes 4 17

/-- The UDP header, its checksum given. -/
def udpHeader (f : OutFrame) (len sum : Nat) : Bytes := beBytes 2 f.srcUdp ++ beBytes 2 f.dst.udp ++ beBytes 2 len ++ beBytes 2 sum

/-- The UDP checksum, always computed: a result of 0 is sent as 0xFFFF (R399). -/
def udpSum (f : OutFrame) (src : Nat) (b : Bytes) : Nat :=
  let len := 8 + b.length
  let n := inetSum (wordSum (udpPseudo f src len) + wordSum (udpHeader f len 0 ++ b))
  if n = 0 then 0xFFFF else n

/-- The bytes of a control, token or team frame on its wire (R399); the FCS is the CRC-32 of IEEE 802.3 over the rest
(PRESUMED, assumption 172). -/
def wireBytes (s : State) (f : OutFrame) : Option Bytes :=
  (udpPayload f.body).map (fun b =>
    let src := sourceIp s f.port f.dst.ip
    let len := 8 + b.length
    let frame := beBytes 6 f.dst.mac ++ beBytes 6 f.srcMac ++ beBytes 2 0x8100 ++ beBytes 2 (f.prio * 2 ^ 13 + f.vid % 2 ^ 12)
      ++ beBytes 2 (if isMapped f.dst.ip then 0x0800 else 0x86DD) ++ ipHeader f src len ++ udpHeader f len (udpSum f src b) ++ b
    frame ++ leBytes 4 (crc32 frame))

/-- What the module has put on its wires, oldest first: the port, and the bytes. -/
def wireFrames (s : State) : List (Nat × Bytes) := s.prt.wire.filterMap (fun f => (wireBytes s f).map (fun b => (f.port, b)))

/-! ## The ports' PLLs (R106, R388) -/

/-- A port's PLL runs while the port is enabled, from phase 4 of bring-up onward. -/
def portPllRuns (s : State) (n : Nat) : Bool :=
  s.board.railsOn && s.mode != .off && s.mode != .watch
    && (s.mode != .bringup || decide (4 ≤ getF s R.bruStatus_phase))
    && (n == 24 || onF s R.prtPortCtl_enable n)

end Sys2Proof.Machine
end

