-- ==== Sys2Proof/Safety.lean ====
section
/-! DEFINITION. Safety.lean: what a well-kept state is, in the terms the statements use. -/
namespace Sys2Proof
open Sys2Proof.Machine

/-- The memory is in canonical form: addresses strictly rising, no entry equal to what an unlisted address reads as. -/
def Machine.Memory.wf (m : List Host.Cell) : Bool := tcanon 0 m

/-- The memory of the module is in canonical form. -/
def Machine.State.memOk (s : State) : Bool := Machine.Memory.wf s.mem

/-- The tables of the registers, their pending values, the stalls, the mover channels and the ZLV-20s list each key once,
in rising order: no register and no unit has two homes. -/
def Machine.State.tablesOk (s : State) : Bool :=
  tsorted s.reg && tsorted s.pend && tsorted s.stalls && tsorted s.movs && tsorted s.upd.chips

/-- The bounds the manual sets to what the module keeps: 1024 records of the bring-up log (R104), the responses of the last
64 frames (R131), 64 unacknowledged frames (R132), four key slots (R464). -/
def Machine.State.boundsOk (s : State) : Bool :=
  decide (s.bring.log.length ≤ 1024) && decide (s.ses.cache.length ≤ 64) && decide (s.ses.unacked.length ≤ 64)
    && decide (s.nv.slots.length = 4)

/-- The newest control frame waiting to leave by the host port: where it goes, and the frame. -/
def Machine.State.lastCtl (s : State) : Option (NetAddr × CtlOut) :=
  (s.prt.queue.filterMap (fun o => match o.body with | .ctl c _ => some (o.dst, c) | _ => none)).getLast?

/-- The numbered frames that the host has not acknowledged yet, oldest first, by type and body (R129, R132): those sent and
those that wait with a session open, those carried to the next session without one. -/
def Machine.State.numbered (s : State) : List (Nat × Bytes) :=
  (if sessionOpen s then s.ses.unacked.map (fun u => u.frame) ++ s.ses.waiting else s.ses.carried).map
    (fun c => (c.ftype, c.body))

/-- The body of a COMPLETION frame with one record (R144). -/
def completionBody (c : CmdRec) (status detail : Nat) : Bytes := leBytes 2 1 ++ leBytes 6 0 ++ completionRec c status detail

/-- A control frame of a type that the host port takes in: the port is up, no rule of R401 drops it, it goes to the control
UDP port, and its form is right (R125, R126). -/
def Machine.State.hears (s : State) (f : CtlFrame) (ty : Nat) : Prop :=
  s.board.railsOn = true ∧ f.rx.port = 24 ∧ portOpen s 24 = true ∧ dropReason s f.rx = 0 ∧
    f.rx.dstUdp = getF s R.hstCtl_controlUdp ∧ ctlForm f = true ∧ f.ftype = ty

/-- A frame of the open session, with its tag, in sequence (R130, R131). -/
def Machine.State.takes (s : State) (f : CtlFrame) (ty : Nat) : Prop :=
  s.hears f ty ∧ authentic s f = true ∧ seqAhead s f = 0

/-- The state in which a frame in sequence has its effect: its acknowledgement is taken, the next number expected (R131). -/
def Machine.State.inOrder (s : State) (f : CtlFrame) : State :=
  { heard s f with ses := { (heard s f).ses with expect := ((heard s f).ses.expect + 1) % 2 ^ 32 } }

/-- The answer to a frame is the newest control frame: the frame's own type and number, flags bit 0 (R126). -/
def Machine.State.answers (t : State) (f : CtlFrame) (body : Bytes) : Prop :=
  ∃ id, t.lastCtl = some (f.rx.src,
    { ftype := f.ftype, sessionId := id, seq := f.seq, ack := f.seq, planTag := 0, step := 0, flags := 1, body := body,
      tagged := true })

/-- The next record to be taken from the rings is on this ring, has this opcode, and is `c` (R142 to R144). -/
def Machine.State.holds (s : State) (ring op : Nat) (c : CmdRec) : Prop :=
  ring < 2 ∧ s.board.railsOn = true ∧ canTake s ring = true ∧ parseCmd ring (nextRecord s ring) = c ∧ c.opcode = op ∧
    zeroAt (nextRecord s ring) 2 2 = true

/-- The state with the next record of a ring taken: its consumer index has moved on (R142). -/
def Machine.State.taken (s : State) (ring : Nat) : State := setF s R.ctlRingStatus_consumer ring (ringConsumer s ring + 1)

/-- A command has ended with this status and detail: one more completion counted on its ring, and its COMPLETION frame is
the newest numbered frame (R144). -/
def Machine.State.completes (s t : State) (c : CmdRec) (status detail : Nat) : Prop :=
  getF t R.ctlRingStatus_completed c.ring = (getF s R.ctlRingStatus_completed c.ring + 1) % 2 ^ 32 ∧
    t.numbered.getLast? = some (0x30, completionBody c status detail)

/-- A stall issues the word `w` of this opcode: it can issue, the word stands at its program counter, and no frozen layer skips
it (R285, R286, R295). -/
def Machine.State.issues (s : State) (p op w : Nat) : Prop :=
  p < 512 ∧ s.board.railsOn = true ∧ canIssue s p = true ∧ (programOf s p)[insAt s p]? = some w ∧ insOp w = op ∧
    (bit w 0 && frozenLayer s (getStall s p).layer) = false

/-- The instructions of the step program, by opcode (R286). -/
def stepRows (p : Nat) : List (Nat × Instr) :=
  [(0x00, .stepNop p), (0x01, .fwdEnd p), (0x02, .endProgram p), (0x03, .layer p), (0x04, .seti p), (0x05, .addi p),
   (0x06, .ldp p), (0x07, .stp p), (0x08, .loop p), (0x09, .wait p), (0x0A, .move p), (0x10, .top p), (0x11, .qin p),
   (0x20, .mm p), (0x30, .vld p), (0x31, .vst p), (0x32, .vop p), (0x33, .vseti p), (0x40, .tzero p), (0x41, .tout p),
   (0x50, .route p), (0x51, .dispatch p), (0x52, .combine p), (0x53, .wake p)]

/-- The state in which an instruction other than TOP has its effect: the run of TOPs before it has ended (R211). -/
def Machine.State.ended (s : State) (p : Nat) : State := modStall s p endTops

/-- The stall goes on with the next instruction, the module's mode unchanged. -/
def Machine.State.goesOn (s t : State) (p : Nat) : Prop :=
  getF t R.genStall_pc p = (insAt s p + 1) % 2 ^ 13 ∧ t.mode = s.mode

/-- Nothing but the wake itself happens when the stall wakes: no late frame and no array write waits for it (R113, R476). -/
def Machine.State.wakesPlain (s : State) (p : Nat) : Prop :=
  s.rte.late.any (fun x => x.1 == p || x.1 == 0xFFFF) = false ∧ s.job.toWrite.contains p = false

/-- No event record is ever put at this address: it lies outside the event ring (R153). -/
def Machine.State.eventsOff (s : State) (a : Nat) : Prop :=
  a < getF s R.ctlEvtCfg_base4k * 4096 ∨ getF s R.ctlEvtCfg_base4k * 4096 + 32 * evtSize s ≤ a

/-- A token frame comes in: by an open fabric port that does not drop it, at the token UDP port, with room in its barn's
ingress buffer, or as the frame that arrives next from a stall of this module (R113, R319, R334, R401). -/
def Machine.State.arrives (s : State) (f : TokFrame) : Prop :=
  s.board.railsOn = true ∧ match f.rx with
    | some r => r.port < 24 ∧ portOpen s r.port = true ∧ dropReason s r = 0 ∧ r.dstUdp = getF s R.prtCtl_tokenUdp ∧
        ingressRoom s f = true
    | none => (meshTake s f).isSome = true

/-- The state in which a token frame has its effect: a frame of this module has left its mesh. -/
def Machine.State.lifted (s : State) (f : TokFrame) : State :=
  match f.rx with
  | some _ => s
  | none => (meshTake s f).getD s

/-- A token frame of a kind is admitted (R320, R420): form, step, pass, plan tag and every check of the frame agree. -/
def Machine.State.admits (s : State) (f : TokFrame) (kind : Nat) : Prop :=
  s.arrives f ∧ f.kind = kind ∧ tokForm f = true ∧ f.step = stepNo s ∧
    (bit f.flags 0 = true → getF s R.genPass_pass ≠ 1) ∧ f.planTag = getF s R.gtePlan_planTag ∧ s.mode ≠ .halted ∧
    s.mode ≠ .ready ∧ tokChecks (s.lifted f) f = none

/-- Its stall is at work, and takes frames of this pass (R291, R292, R332). -/
def Machine.State.atWork (s : State) (f : TokFrame) : Prop :=
  isResting (getStall s f.dstStall) = false ∧ (bit f.flags 0 = true → onF s R.genStall_idle f.dstStall = false)

/-- The chip is at a slot of this opcode: the unit it works on, and the slot's word (R345, R350). -/
def Machine.State.atSlot (s : State) (z op : Nat) (u : UpdUnit) (w : Nat) : Prop :=
  z < 4 ∧ s.board.railsOn = true ∧ (getChip s z).unit = some u ∧ (progSlots s u.prog).getD (getChip s z).slot 0 = w ∧
    updOp w = op

/-- A team frame of a type that this module takes (R444, R445, R468): from the partner, over a fabric port that drops nothing of
it, well formed, with the team key's tag, while the team forms or is formed, and no frame of its port waits before it. -/
def Machine.State.fromPartner (s : State) (f : TeamFrame) (ty : Nat) : Prop :=
  s.board.railsOn = true ∧ f.rx.port < 24 ∧ portOpen s f.rx.port = true ∧ dropReason s f.rx = 0 ∧
    f.rx.dstUdp = getF s R.prtCtl_teamUdp ∧ teamForm f = true ∧ f.ftype = ty ∧
    (getF s R.pairStatus_team = 1 ∨ getF s R.pairStatus_team = 2) ∧ (∃ k, s.team.key = some k ∧ f.tag = teamTag k f) ∧
    f.srcModule = getF s R.pairStatus_partnerIndex ∧ f.dstModule = ownIndex s ∧ stagedOn s f.rx.port = []

/-- A feed frame that the host port takes in (R383, R384, R401). -/
def Machine.State.hearsFeed (s : State) (f : FeedFrame) : Prop :=
  s.board.railsOn = true ∧ f.rx.port = 24 ∧ portOpen s 24 = true ∧ dropReason s f.rx = 0 ∧
    f.rx.dstUdp = getF s R.hstCtl_feedUdp

end Sys2Proof
end

