-- ==== Sys2Proof/WellFormed.lean ====
section
/-! DEFINITION. WellFormed.lean: the operands a command can bring, by the widths and counts of the manual. -/
namespace Sys2Proof

/-- A byte string of at most `n` bytes. -/
def atMost (b : Bytes) (n : Nat) : Bool := decide (b.length ≤ n)

/-- Each value fits its number of bits. -/
def fits (l : List (Nat × Nat)) : Bool := l.all (fun p => decide (p.1 < 2 ^ p.2))

/-- A network address: MAC of 48 bits, IP of 128, UDP port of 16. -/
def NetAddr.wf (a : NetAddr) : Bool := fits [(a.mac, 48), (a.ip, 128), (a.udp, 16)]

/-- What a receiver sees: ports 0 to 23 are fabric ports, 24 the host port. -/
def Rx.wf (r : Rx) : Bool :=
  decide (r.port < 25) && fits [(r.dstMac, 48), (r.dstIp, 128), (r.udpSum, 16), (r.dstUdp, 16), (r.udpLen, 16)] && r.src.wf

/-- A control frame's header fields at their widths, and a 16-byte tag (R124, R125). -/
def CtlFrame.wf (f : CtlFrame) : Bool :=
  fits [(f.magic, 16), (f.version, 8), (f.ftype, 8), (f.sessionId, 32), (f.seq, 32), (f.ack, 32), (f.planTag, 64),
    (f.step, 64), (f.bodyLen, 16), (f.flags, 16), (f.zero, 32)] && f.tag.length == 16 && f.rx.wf

/-- An entry of a token table at its widths (R318). -/
def TokEntry.wf (e : TokEntry) : Bool := fits [(e.ordinal, 32), (e.posRank, 32), (e.w8, 32), (e.wC, 32)]

/-- A token frame's header fields at their widths (R317). -/
def TokFrame.wf (f : TokFrame) : Bool :=
  fits [(f.magic, 16), (f.version, 8), (f.kind, 8), (f.flags, 8), (f.format, 8), (f.layer, 16), (f.planTag, 64),
    (f.step, 64), (f.srcModule, 16), (f.dstModule, 16), (f.srcStall, 16), (f.dstStall, 16), (f.target, 32),
    (f.tokenCount, 16), (f.segFirst, 8), (f.segCount, 8), (f.frameSeq, 32), (f.bodyLen, 32), (f.brand, 64),
    (f.queue, 8), (f.returnQueue, 8), (f.zero, 48)] && f.table.all TokEntry.wf
    && (match f.rx with | some r => r.wf | none => true)

/-- A team frame's header fields at their widths (R445). -/
def TeamFrame.wf (f : TeamFrame) : Bool :=
  fits [(f.magic, 16), (f.version, 8), (f.ftype, 8), (f.srcModule, 16), (f.dstModule, 16), (f.step, 64), (f.page, 32),
    (f.group, 8), (f.chunk, 8), (f.length, 16), (f.zero, 64)] && f.tag.length == 16 && f.rx.wf

/-- A feed frame's header fields at their widths (R407). -/
def FeedFrame.wf (f : FeedFrame) : Bool :=
  fits [(f.magic, 16), (f.version, 8), (f.z0, 8), (f.sessionId, 32), (f.offset, 64), (f.step, 64), (f.length, 16),
    (f.z1, 64)] && f.tag.length == 16 && f.rx.wf

/-- A pluggable's page fields at their widths (R84). -/
def Pluggable.wf (m : Pluggable) : Bool := fits [(m.needMw, 16), (m.laneState, 8), (m.alarms, 32)]

/-- Step 6 of R224 converts each of the 8 reference columns 4,096 times, to codes of 9 bits (R199). -/
def refCodesWf (l : RefCodes) : Bool :=
  l.length == 8 && l.all (fun c => (c.map (fun x => x.2)).sum == 4096 && c.all (fun x => decide (-256 ≤ x.1) && decide (x.1 ≤ 255)))

/-- A trim measures every line (R224): 528 columns and 512 rows. -/
def TrimMeas.wf (m : TrimMeas) : Bool :=
  m.nullSum.length == 528 && m.nullSq.length == 528 && m.diffSum.length == 528 && m.rowNullSum.length == 512
    && m.rowNullSq.length == 512 && m.rowDiffSum.length == 512 && refCodesWf m.refs

/-- A verify read names cells of the row, at levels from 0 to 31 (R186). -/
def rowReadsWf (r : RowReads) : Bool :=
  decide (r.row < 512) && r.reads.all (fun l => l.all (fun c => decide (c.col < 528) && decide (c.l64 ≤ 31 * 64)))

/-- A write's verify reads. -/
def reportWf (w : WriteReport) : Bool := w.all rowReadsWf

/-- The verify reads of several writes. -/
def reportsWf (l : List (Nat × WriteReport)) : Bool := l.all (fun x => reportWf x.2)

/-- What the completion of a phase reports names units that exist (R25, R76 to R80). -/
def PhaseReport.wf (r : PhaseReport) : Bool :=
  r.dimms.length == 8 && r.loftTrained.length == 8 && r.loftLinks.length == 4 && r.lasers.length == 4
    && r.ports.all (fun o => decide (o.port < 25)) && r.stalls.all (fun x => decide (x.stall < 512))
    && r.refs.all (fun x => decide (x.1 < 17408) && refCodesWf x.2)
    && r.trims.all (fun x => decide (x.1 < 17408) && x.2.wf)

/-- The counts of R25, R38, R76 to R80, R141 and R369. -/
def isStall (p : Nat) : Bool := decide (p < 512)
def isTile (p t : Nat) : Bool := decide (p < 512) && decide (t < 34)
def isSlot (p slot : Nat) : Bool := decide (p < 512) && decide (slot < 32)
def isRing (r : Nat) : Bool := decide (r < 2)
def isPort (n : Nat) : Bool := decide (n < 24)
def isDie (d : Nat) : Bool := decide (d < 4)
def isChan (c : Nat) : Bool := decide (c < 576)
def isBase (c : Nat) : Bool := decide (c < 64)
def isPaced (c : Nat) : Bool := decide (57 ≤ c) && decide (c < 64)

/-- Whether a command's operands are ones the manual gives it. -/
def Instr.wf : Instr → Bool
  | .powerInputInRange => true
  | .alwaysOnRailsGood => true
  | .inputOutOfLimits => true
  | .bayIdentityRead r => match r.mem with | some b => decide (256 ≤ b.length) | none => true
  | .resetNReleased => true
  | .resetNLow => true
  | .lastRailOff => true
  | .leverOpened => true
  | .railFault rail mv => fits [(rail, 32), (mv, 32)]
  | .clk25AonLost => true
  | .clk25AonRestored => true
  | .coreClockLost clk => decide (clk < 2)
  | .pllUnlock pll => decide (pll < 17)
  | .telemetryRefresh t => fits [(t.vin10mV, 16), (t.iin10mA, 16), (t.pinW, 16)]
  | .alertCauseClear w => fits [(w.value, 16), (w.pec.getD 0, 8)]
  | .i3cDynamicAddress a => fits [(a, 7)]
  | .tapInstruction _ => true
  | .teamSenseLoss => true
  | .hostModuleInserted m => m.wf
  | .hostModuleRemoved _ => true
  | .laserModuleInserted sock _ => decide (sock < 4)
  | .laserModuleRemoved sock _ => decide (sock < 4)
  | .dimmThermalPoll ch _ => decide (ch < 8)
  | .bringupPhaseDone r => r.wf
  | .loftTestDone failed => failed.all (fun c => decide (c < 8))
  | .wakeRequest p _ => isStall p
  | .governorTick => true
  | .stallWakeComplete p => isStall p
  | .stallNap p => isStall p
  | .stallSleep p => isStall p
  | .governorStepRaise => true
  | .stallParked p => isStall p
  | .governorStepLower => true
  | .ledgerCorrection w => fits [(w, 16)]
  | .budgetWrite w => fits [(w, 64)]
  | .dieCurrentLimit d amps => isDie d && fits [(amps, 10)]
  | .dieCurrentPark d => isDie d
  | .dieThermalThrottle d tj => isDie d && fits [(tj, 8)]
  | .dieStepLower d _ v => isDie d && fits [(v, 10)]
  | .dieThermalTrip d tj => isDie d && fits [(tj, 8)]
  | .wakeWait p => isStall p
  | .openFrame f => f.wf
  | .prove f => f.wf
  | .challengeExpired => true
  | .close f => f.wf
  | .keepalive f => f.wf
  | .ack f => f.wf
  | .access f w => f.wf && reportsWf w
  | .registerWrite a v => fits [(a, 48), (v, 64)]
  | .sessionIdleTimeout => true
  | .retransmitTimeout => true
  | .eventNote => true
  | .ringDoorbell r v => isRing r && fits [(v, 64)]
  | .ringCfgWrite r v => isRing r && fits [(v, 64)]
  | .evtCfgWrite v => fits [(v, 64)]
  | .evtConsumerWrite v => fits [(v, 64)]
  | .commandBusy => true
  | .nop r => isRing r
  | .halt r => isRing r
  | .haltClear r => isRing r
  | .jobEnd r => isRing r
  | .rollback r w => isRing r && reportsWf w
  | .gate f => f.wf
  | .harnessLoad r => isRing r
  | .harnessLoadDone w lost => reportsWf w && lost.all isStall
  | .harnessUnload r => isRing r
  | .harnessAmend r => isRing r
  | .amendStaged => true
  | .stepNop p => isStall p
  | .fwdEnd p => isStall p
  | .endProgram p => isStall p
  | .layer p => isStall p
  | .seti p => isStall p
  | .addi p => isStall p
  | .ldp p => isStall p
  | .stp p => isStall p
  | .loop p => isStall p
  | .wait p => isStall p
  | .move p => isStall p
  | .top p => isStall p
  | .qin p => isStall p
  | .mm p => isStall p
  | .vld p => isStall p
  | .vst p => isStall p
  | .vop p => isStall p
  | .vseti p => isStall p
  | .tzero p => isStall p
  | .tout p => isStall p
  | .route p => isStall p
  | .dispatch p => isStall p
  | .combine p => isStall p
  | .wake p => isStall p
  | .tileOpComplete p slot => isSlot p slot
  | .sumWrite p set => isStall p && decide (set < 16)
  | .mmComplete p fs => isStall p && fs.all (fun f => fits [(f.value, 32)])
  | .tileVoteDecided p => isStall p
  | .geVoteDecided p fs => isStall p && fs.all (fun f => fits [(f.value, 32)])
  | .driftWindowDone p t _ _ => isTile p t
  | .retrimDue p t => isTile p t
  | .retrimForced p t => isTile p t
  | .trimOverdue p t => isTile p t
  | .idleRetrimStart p t => isTile p t
  | .trimDone p t m => isTile p t && m.wf
  | .rotationStart p => isStall p
  | .rotationFillDone p w => isStall p && reportWf w
  | .rotationTakeover p w => isStall p && reportWf w
  | .wearFlush => true
  | .tileLevelWrite p t row col ls w =>
      reportWf w && isTile p t && decide (row < 512) && decide (col + ls.length ≤ 512) && ls.all (fun v => decide (-128 ≤ v) && decide (v ≤ 127))
  | .tileLevelRead p t row col len => isTile p t && decide (row < 512) && decide (col + len ≤ 512)
  | .fieldClear => true
  | .histReset => true
  | .backwardBegin => true
  | .forwardBarrierSlow => true
  | .backwardComplete => true
  | .troughPartialPull p => isStall p
  | .partialWait p => isStall p
  | .dispatchFrame f => f.wf
  | .returnFrame f => f.wf
  | .closeFrame f => f.wf
  | .wakeFrame f => f.wf
  | .summaryFrame f => f.wf
  | .queryFrame f => f.wf
  | .partialFrame f => f.wf
  | .refuseFrame f => f.wf
  | .combineWait p => isStall p
  | .closeWait => true
  | .toutLineStaged p => isStall p
  | .pln z => isDie z
  | .ctx z => isDie z
  | .updateOp z => isDie z
  | .stw z => isDie z
  | .sts z => isDie z
  | .updChipDone z => isDie z
  | .gateComplete w => reportsWf w
  | .loftFlitCrcError z _ => isDie z
  | .loftLinkRetrained z => isDie z
  | .loftLinkLost z lanes => isDie z && decide (lanes < 8)
  | .loftPatrol ch line _ => decide (ch < 8) && fits [(line, 32)]
  | .loftFill r => isRing r
  | .moverBurst c w => isChan c && reportsWf w
  | .chStart c => isBase c
  | .chPause c => isBase c
  | .chResume c => isBase c
  | .chAbort c => isBase c
  | .chReq c => isBase c
  | .rateShareWrite c share => isPaced c && fits [(share, 64)]
  | .rateWindow => true
  | .rateHeld c => isPaced c
  | .portUp port lanes group => decide (port < 25) && decide (lanes = 8 ∨ lanes = 4) && decide (group < 2)
  | .portAttemptFailed port => decide (port < 25)
  | .portLost port cause => decide (port < 25) && decide (1 ≤ cause) && decide (cause ≤ 6)
  | .portRetrainTimer port => isPort port
  | .portRetrain port => isPort port
  | .portEnable port _ => isPort port
  | .fecDegraded port c => isPort port && fits [(c, 32)]
  | .pfcFrame f => decide (f.port < 25) && f.times.all (fun p => decide (p.1 < 8) && decide (p.2 < 65536))
  | .pfcPauseExpired port prio => decide (port < 25) && decide (prio < 8)
  | .pfcStorm port prio => decide (port < 25) && decide (prio < 8)
  | .xoffRepeat port prio => decide (port < 25) && decide (prio < 8)
  | .egressFrameStart port => decide (port < 25)
  | .arpRequest port target src => decide (port < 25) && fits [(target, 32)] && src.wf
  | .neighbourSolicitation port target src => decide (port < 25) && fits [(target, 128)] && src.wf
  | .echoRequest rx b => rx.wf && atMost b 9216
  | .feedFrame f => f.wf
  | .feedConsumedWrite v => fits [(v, 64)]
  | .feedCfgWrite v => fits [(v, 64)]
  | .hello f => f.wf
  | .beat f => f.wf
  | .beatTimer => true
  | .teamSilence => true
  | .teamFormationTimeout => true
  | .bye f => f.wf
  | .page f => f.wf
  | .pageAck f => f.wf
  | .pageResend g pg => decide (g < 8) && fits [(pg, 32)]
  | .commit f => f.wf
  | .commitAck f => f.wf
  | .teamAccess f w => f.wf && reportsWf w
  | .accessResp f => f.wf
  | .securingHeld => true
  | .releaseWrite v => fits [(v, 64)]
  | .mirrorCopy r => isRing r
  | .slotOnFallback p slot => isSlot p slot
  | .rebuildStart p slot w => isSlot p slot && reportWf w
  | .rebuildDone p slot w => isSlot p slot && reportWf w
  | .attest r => isRing r
  | .slotUpdate r => isRing r
  | .fwUpdate r => isRing r
  | .scrub r w => isRing r && reportsWf w
  | .chipLost z => isDie z

end Sys2Proof
end

