-- ==== Sys2Proof/Certificates/Slice0/Obligations.lean ====
section
/-! DEFINITION. Certificates/Slice0/Obligations.lean: what is stated about the model, for the provers. Each statement names the
rules of the specification it rests on; what it says of a command is its completion, its result and its frame. -/
section
open Sys2Proof Sys2Proof.Machine

/-- A step runs the command at the front of the queue on the state with the queue's rest; on an empty queue the module idles
(assumption 1), and no word spells a command, since the table gives its rows no bits (assumption 134). -/
def Obligations.StepRunsFront : Prop :=
  (∀ (c : Instr) (r : List Instr) (s : State),
    step { s with pending := c :: r } = exec c { s with pending := r }) ∧
  (∀ s : State, s.pending = [] → step s = .next s) ∧
  (∀ (s : State) (nbits w : Nat), decodeTableWord nbits w = none ∧ s.withFetchWord nbits w = s)

/-- The state before power comes: OFF, nothing waiting, memory with nothing listed, the rails off, every register field at the
value its table gives for reset; it is well kept. -/
def Obligations.ResetState : Prop :=
  State.reset.mode = .off ∧ State.reset.pending = [] ∧ State.reset.mem = [] ∧ State.reset.board.railsOn = false ∧
    (∀ f u, getF State.reset f u = f.rst) ∧ (∀ a, readByte State.reset a = 0) ∧ State.reset.ses.key = none ∧
    State.reset.job.image = none ∧ State.reset.memOk = true ∧ State.reset.tablesOk = true ∧ State.reset.boundsOk = true

/-- Every step keeps the memory's canonical form. -/
def Obligations.StepKeepsMemory : Prop :=
  ∀ s t : State, s.memOk = true → step s = .next t → t.memOk = true

/-- Every step keeps one home for each register and each unit, and the bounds of R104, R131, R132 and R464. -/
def Obligations.StepKeepsTables : Prop :=
  (∀ s t : State, s.tablesOk = true → step s = .next t → t.tablesOk = true) ∧
  (∀ s t : State, s.boundsOk = true → step s = .next t → t.boundsOk = true)

/-- A command leaves the queue of waiting commands as it is, and the count of the free values it has drawn never falls. -/
def Obligations.ExecKeepsQueue : Prop :=
  ∀ (c : Instr) (s t : State), exec c s = .next t → t.pending = s.pending ∧ s.draws ≤ t.draws

/-- Every command with operands the manual admits answers a next state, in every state; no command is refused in any state,
whatever its operands. -/
def Obligations.EveryCommandAnswers : Prop :=
  (∀ (c : Instr) (s : State), c.wf = true → ∃ t, exec c s = .next t) ∧
  (∀ (c : Instr) (s : State) (r : Refusal), exec c s ≠ .refused r)

/-- OFF is left only when the always-on rails come good (R60): every other command leaves a module in OFF, its rails down and no
reset under way, in OFF. -/
def Obligations.OffKept : Prop :=
  ∀ (c : Instr) (s t : State), s.mode = .off → s.board.railsOn = false → s.board.resetting = false →
    c ≠ .alwaysOnRailsGood → exec c s = .next t → t.mode = .off ∧ t.board.railsOn = false ∧ t.board.resetting = false

/-- A full event ring takes no record (R155): memory and producer stay, the dropped count goes up by one and stops at its
largest value; in bring-up an event goes to the log and not to the ring. -/
def Obligations.RingFull : Prop :=
  (∀ (s : State) (code coord d0 d1 : Nat), s.board.railsOn = true → s.mode ≠ .off → s.mode ≠ .watch → s.mode ≠ .bringup →
    evtSize s ≤ (getF s R.ctlEvtProducer_producer + 2 ^ 32 - getF s R.ctlEvtConsumer_consumer) % 2 ^ 32 →
    let t := raise s code coord d0 d1
    t.mem = s.mem ∧ getF t R.ctlEvtProducer_producer = getF s R.ctlEvtProducer_producer ∧
      getF t R.ctlEvtStatus_dropped = min 0xFFFFFFFF (getF s R.ctlEvtStatus_dropped + 1)) ∧
  (∀ (s : State) (code coord d0 d1 : Nat), s.mode = .bringup →
    let t := raise s code coord d0 d1
    t.mem = s.mem ∧ getF t R.ctlEvtProducer_producer = getF s R.ctlEvtProducer_producer ∧
      getF t R.ctlEvtStatus_dropped = getF s R.ctlEvtStatus_dropped)

/-- Memory (R46, R152, R153, R450): what is written reads back, also over a protected page; with no page protected every other
byte reads as before; the first write to a protected page leaves the old page in the securing buffer. An event with room in the
ring stands as its 32 bytes at the producer's place, and the producer moves on. -/
def Obligations.MemoryWrites : Prop :=
  (∀ (s : State) (a : Nat) (b : Bytes), readBytes (write s a b) a b.length = b) ∧
  (∀ (s : State) (a x : Nat) (b : Bytes), s.team.pages = [] →
    readByte (write s a b) x = if a ≤ x ∧ x < a + b.length then b.getD (x - a) 0 else readByte s x) ∧
  (∀ (s : State) (a k : Nat) (b : Bytes) (p : Page), s.team.pages = [p] → p.buf = none → p.home = false →
    meets p.addr pageSize a b.length = true → bufFree s = some k →
    let slot := getF s R.pairBuf_base1m * 2 ^ 20 + k * pageSize
    slot + pageSize ≤ a ∨ a + b.length ≤ slot →
    readBytes (write s a b) slot pageSize = readBytes s p.addr pageSize ∧
      (write s a b).team.pages = [{ p with buf := some k }]) ∧
  (∀ (s : State) (code coord d0 d1 : Nat), s.board.railsOn = true → s.mode ≠ .off → s.mode ≠ .watch → s.mode ≠ .bringup →
    s.team.pages = [] →
    (getF s R.ctlEvtProducer_producer + 2 ^ 32 - getF s R.ctlEvtConsumer_consumer) % 2 ^ 32 < evtSize s →
    let t := raise s code coord d0 d1
    let at_ := getF s R.ctlEvtCfg_base4k * 4096 + 32 * (getF s R.ctlEvtProducer_producer % evtSize s)
    readBytes t at_ 32 = leBytes 8 s.now ++ leBytes 2 code ++ leBytes 2 0 ++ leBytes 4 coord ++
        leBytes 8 (getF s R.gteStep_step) ++ leBytes 4 d0 ++ leBytes 4 d1 ∧
      getF t R.ctlEvtProducer_producer = (getF s R.ctlEvtProducer_producer + 1) % 2 ^ 32 ∧
      ∀ x, x < at_ ∨ at_ + 32 ≤ x → readByte t x = readByte s x)

/-- RSUM (R282): with v_0 the lanes of the operand and v_j the rounded sums of neighbours of v_(j-1), every lane of the result
is v_9[0]. -/
def Obligations.LaneSum : Prop :=
  ∀ (a b c : List F32) (lane : Nat) (v : Nat → Nat → F32), a.length = 512 → (∀ i < 512, v 0 i = a.getD i 0) →
    (∀ j < 9, ∀ i, v (j + 1) i = fadd (v j (2 * i)) (v j (2 * i + 1))) →
    (vopLanes 18 lane a b c).map (fun x => x.out) = List.replicate 512 (v 9 0)

/-- POWN (R353): for an exponent that is an integer from 0 to 16,777,215, the result is the loop's over bits 23 to 0, from 1:
square, and multiply where the bit is set, each rounded. -/
def Obligations.IntegerPower : Prop :=
  ∀ (a b c : F32) (n : Nat) (r : Nat → F32), n ≤ 16777215 → ffinite b = true → (n = 0 ∨ (fexact b).neg = false) →
    (fexact b).num = n * (fexact b).den → (fexact b).den ≠ 0 →
    r 24 = 0x3F800000#32 →
    (∀ i < 24, r i = if n.testBit i then fmul (fmul (r (i + 1)) (r (i + 1))) a else fmul (r (i + 1)) (r (i + 1))) →
    laneOp 10 a b c = some (r 0)

/-- EVENT_NOTE (R156): in an open session, when the producer differs from the consumer, unless one was sent within note_ticks;
its 8 bytes are the producer and the dropped count. Else nothing is sent. -/
def Obligations.EventNotes : Prop :=
  (∀ s : State, s.board.railsOn = true → sessionOpen s = true →
    getF s R.ctlEvtProducer_producer ≠ getF s R.ctlEvtConsumer_consumer →
    (∀ a, s.ses.lastNote = some a → a + getF s R.ctlEvtStatus_noteTicks ≤ s.now) →
    ∃ t, exec .eventNote s = .next t ∧ t.ses.lastNote = some s.now ∧ t.reg = s.reg ∧ t.mem = s.mem ∧
      t.numbered = s.numbered ++ [(0x31, leBytes 4 (getF s R.ctlEvtProducer_producer) ++
        leBytes 4 (getF s R.ctlEvtStatus_dropped))]) ∧
  (∀ (s : State) (a : Nat), s.board.railsOn = true → s.ses.lastNote = some a →
    s.now < a + getF s R.ctlEvtStatus_noteTicks → exec .eventNote s = .next s) ∧
  (∀ s : State, s.board.railsOn = true →
    (sessionOpen s = false ∨ getF s R.ctlEvtProducer_producer = getF s R.ctlEvtConsumer_consumer) →
    exec .eventNote s = .next s)

/-- Power-up, step by step (R59, R60, R107): the input in range starts inrush in OFF; good always-on rails enter WATCH with the
watch counter at zero; the input out of its limits in any state enters OFF, with memory, session and job gone and everything
kept that outlives power. RESET_N (R60, R61, R62, R86, R87): released in WATCH with the bay read and the lever closed it starts
bring-up at phase 0, with rails on, warm_valid cleared, the path that R86 chooses, and the budget at the lower of 2,400 W and
the ceiling; low, or with the lever opened, it empties memory and ends the session, CTL.STATE unchanged; the last rail off
enters WATCH. -/
def Obligations.PowerAndReset : Prop :=
  (∀ s : State, exec .powerInputInRange s =
    .next (if s.mode = .off then { s with board := { s.board with inrush := true } } else s)) ∧
  (∀ s : State, s.mode = .off → s.board.inrush = true →
    ∃ t, exec .alwaysOnRailsGood s = .next t ∧ t.mode = .watch ∧ t.now = 0 ∧ t.board.pwrOk = true ∧
      t.reg = s.reg ∧ t.nv = s.nv ∧ t.board.railsOn = s.board.railsOn) ∧
  (∀ s : State, ∃ t, exec .inputOutOfLimits s = .next t ∧ t.mode = .off ∧ t.mem = [] ∧ t.ses.key = none ∧
    t.job.image = none ∧ t.board.railsOn = false ∧ t.board.pwrOk = false ∧ t.board.resetN = s.board.resetN ∧
    t.nv = s.nv ∧ t.pending = s.pending) ∧
  (∀ s : State, s.mode = .watch → s.board.bayRead = true → s.board.leverOpen = false →
    ∃ t, exec .resetNReleased s = .next t ∧ t.mode = .bringup ∧ t.board.railsOn = true ∧ t.board.pwrOk = true ∧
      t.board.resetN = true ∧ t.board.warmValid = false ∧ t.bring.start = s.now ∧ t.bring.stopped = false ∧
      getF t R.bruStatus_phase = 0 ∧ getF t R.pwrBudget_budgetW = min 2400 (getF t R.pwrBudget_ceilingW) ∧
      getF t R.bruStatus_path = b2n (warmRefusal s == 0) ∧
      t.mem = [] ∧ t.job.image = none ∧ t.ses.key = none ∧ t.nv = s.nv ∧ t.now = s.now) ∧
  (∀ s : State, s.mode ≠ .off → s.mode ≠ .watch →
    ∃ t, exec .resetNLow s = .next t ∧ t.mode = s.mode ∧ t.board.resetting = true ∧ t.board.railsOn = false ∧
      t.board.resetN = false ∧ t.mem = [] ∧ t.ses.key = none ∧ t.job.image = none ∧ t.reg = s.reg) ∧
  (∀ s : State, s.mode ≠ .off → s.mode ≠ .watch →
    ∃ t, exec .leverOpened s = .next t ∧ t.mode = s.mode ∧ t.board.leverOpen = true ∧ t.board.switchOpen = true ∧
      t.board.afterFault = true ∧ t.board.resetting = true ∧ t.board.railsOn = false ∧ t.mem = [] ∧ t.ses.key = none) ∧
  (∀ s : State, exec .lastRailOff s = .next (if s.board.resetting then
    { s with mode := .watch, board := { s.board with resetting := false, bayRead := false, pwrOk := true } } else s))

/-- BAY_IDENTITY_READ in WATCH with RESET_N low (R71, R72, R73): a valid memory loads every bay field, a power limit of 0
standing for 2,500 W; a missing or invalid one leaves bay number 0xFFFF, no tags, a limit of 2,400 W, and alert cause 7. -/
def Obligations.BayIdentity : Prop :=
  (∀ (s : State) (m : Bytes) (ok : Bool), s.mode = .watch → s.board.resetN = false → bayStatus (some m) = 0 →
    ∃ t, exec (.bayIdentityRead ⟨some m, ok⟩) s = .next t ∧ t.mode = .watch ∧ t.board.bayRead = true ∧
      t.board.recordOk = ok ∧
      getF t R.bruBayId_bayStatus = 0 ∧ getF t R.bruBayId_bayNumber = fieldAt m 6 2 ∧
      getF t R.bruBayId_powerLimitW = (if fieldAt m 0x1C 2 = 0 then 2500 else fieldAt m 0x1C 2) ∧
      getF t R.bruBayId_sensedBay = fieldAt m 0x1E 2 ∧ getF t R.bruBayId_teamSenseWired = bits (fieldAt m 5 1) 2 2 ∧
      getF t R.bruBayTags_feedTagA = fieldAt m 0x10 4 ∧ getF t R.bruBayTags_feedTagB = fieldAt m 0x14 4 ∧
      getF t R.bruBayLoop_loopTag = fieldAt m 0x18 4 ∧ getF t R.bruBayInstall_installationId = fieldAt m 8 8 ∧
      getF t R.pwrBudget_ceilingW = (if fieldAt m 0x1C 2 = 0 then 2500 else min 2500 (fieldAt m 0x1C 2)) ∧
      t.board.bayLabel = slice m 0x20 32 ∧ t.board.alerts = s.board.alerts) ∧
  (∀ (s : State) (o : Option Bytes) (ok : Bool), s.mode = .watch → s.board.resetN = false → bayStatus o ≠ 0 →
    ∃ t, exec (.bayIdentityRead ⟨o, ok⟩) s = .next t ∧ t.mode = .watch ∧ t.board.bayRead = true ∧
      t.board.recordOk = ok ∧
      getF t R.bruBayId_bayStatus = bayStatus o ∧ getF t R.bruBayId_bayNumber = 0xFFFF ∧
      getF t R.bruBayId_powerLimitW = 2400 ∧ getF t R.bruBayId_sensedBay = 0xFFFF ∧
      getF t R.bruBayId_teamSenseWired = 0 ∧ getF t R.bruBayTags_feedTagA = 0 ∧ getF t R.bruBayTags_feedTagB = 0 ∧
      getF t R.bruBayLoop_loopTag = 0 ∧ getF t R.bruBayInstall_installationId = 0 ∧
      getF t R.pwrBudget_ceilingW = 2400 ∧ t.board.bayLabel = [] ∧ bit t.board.alerts 7 = true)

/-- The faults that halt the module at once (R63, R65, R108, R122), from a state that is not halted yet: HALTED, the fault's
cause, alert cause 6; a rail fault or a thermal trip switches the rails off; a lost core clock loses state when a job stands, a
lost PLL always; in bring-up a lost core clock stops it with cause 2, a thermal trip stops it with its rails off, a lost PLL
only shows. In a halted module a losing fault makes the halt state-losing, and the first cause stays. -/
def Obligations.HardFaults : Prop :=
  (∀ (s : State) (rail mv : Nat), s.board.railsOn = true → s.mode ≠ .halted →
    ∃ t, exec (.railFault rail mv) s = .next t ∧ t.mode = .halted ∧ getF t R.ctlState_haltCause = 4 ∧
      getF t R.ctlState_haltStateLosing = 1 ∧ t.board.railsOn = false ∧ t.board.afterFault = true ∧ t.mem = [] ∧
      bit t.board.alerts 6 = true) ∧
  (∀ (s : State) (clk : Nat), s.board.railsOn = true → s.mode ≠ .halted → s.mode ≠ .bringup →
    ∃ t, exec (.coreClockLost clk) s = .next t ∧ t.mode = .halted ∧ getF t R.ctlState_haltCause = 5 ∧
      getF t R.ctlState_haltStateLosing = b2n (inJob s) ∧ bit t.board.alerts 6 = true) ∧
  (∀ (s : State) (clk : Nat), s.board.railsOn = true → s.mode = .bringup → s.bring.stopped = false →
    ∃ t, exec (.coreClockLost clk) s = .next t ∧ t.mode = .bringup ∧ t.bring.stopped = true ∧
      getF t R.bruStatus_stopCause = 2 ∧ getF t (if clk = 0 then R.bruBayId_clk25CoreOk else R.bruBayId_clk156Ok) = 0) ∧
  (∀ (s : State) (pll : Nat), s.board.railsOn = true → upStates s = true → s.mode ≠ .halted →
    (pll = 16 ∨ (pll < 16 ∧ ∃ i < 32, isRunning (getStall s (32 * pll + i)) = true)) →
    ∃ t, exec (.pllUnlock pll) s = .next t ∧ t.mode = .halted ∧ getF t R.ctlState_haltCause = 5 ∧
      getF t R.ctlState_haltStateLosing = 1 ∧ bit t.board.alerts 6 = true) ∧
  (∀ (s : State) (d tj : Nat), d < 4 → 115 ≤ tj → s.board.railsOn = true → s.mode ≠ .halted →
    s.mode ≠ .bringup →
    ∃ t, exec (.dieThermalTrip d tj) s = .next t ∧ t.mode = .halted ∧ getF t R.ctlState_haltCause = 6 ∧
      getF t R.ctlState_haltStateLosing = 1 ∧ t.board.railsOn = false ∧ t.mem = []) ∧
  (∀ (s : State) (d tj : Nat), d < 4 → 115 ≤ tj → s.board.railsOn = true → s.mode = .bringup →
    ∃ t, exec (.dieThermalTrip d tj) s = .next t ∧ t.mode = .bringup ∧ t.bring.stopped = true ∧ t.board.railsOn = false ∧
      t.mem = []) ∧
  (∀ s : State, s.board.railsOn = true → s.mode = .bringup →
    ∃ t, exec (.pllUnlock 16) s = .next t ∧ t.mode = .bringup ∧ t.bring.stopped = s.bring.stopped ∧ 16 ∈ t.gov.unlocked ∧
      t.mem = s.mem) ∧
  (∀ (s : State) (clk : Nat), s.board.railsOn = true → s.mode = .halted → s.job.image.isSome = true →
    s.job.running = none → getF s R.ctlState_haltStateLosing = 0 →
    ∃ t, exec (.coreClockLost clk) s = .next t ∧ t.mode = .halted ∧ getF t R.ctlState_haltStateLosing = 1 ∧
      getF t R.ctlState_haltCause = getF s R.ctlState_haltCause)

/-- CLK25_AON lost and restored (R65): the present bit, the watch clock's source and event 0x200B change together. The alert
causes (R67, R69): a telemetry refresh sets every cause whose condition holds and clears none, and keeps the readings; a write
of one bits whose packet error code, if it is sent, is right clears exactly those causes. The board management bus and the test
access port (R66, R70): a dynamic address is taken only where the bay selects I3C Basic mode; outside WATCH every instruction
but IDCODE acts as BYPASS. The optical modules and the DIMMs (R78, R82, R339, R394): a host module or a laser module that is put
in or taken out shows in the fitted record; a usable laser module starts its enabled ports, one that goes leaves its ports
without a laser; a channel keeps its temperature, doubles its refresh above 85 °C and raises alert cause 5 above 95 °C. -/
def Obligations.BoardEvents : Prop :=
  (∀ s : State, s.mode ≠ .off → onF s R.bruBayId_clk25AonOk = true →
    exec .clk25AonLost s = .next (raise (setF (setF s R.bruBayId_clk25AonOk 0 0) R.clkWatchSrc_onInternal 0 1) 0x200B cPkg 0 0)) ∧
  (∀ s : State, s.mode ≠ .off → onF s R.bruBayId_clk25AonOk = false →
    exec .clk25AonRestored s =
      .next (raise (setF (setF s R.bruBayId_clk25AonOk 0 1) R.clkWatchSrc_onInternal 0 0) 0x200B cPkg 1 0)) ∧
  (∀ (s : State) (m : Telemetry), s.mode ≠ .off →
    ∃ t, exec (.telemetryRefresh m) s = .next t ∧ t.board.telem = m ∧ t.mode = s.mode ∧ t.now = s.now ∧
      ∀ i < 10, bit t.board.alerts i = (bit s.board.alerts i || (alertConditions s m).getD i false)) ∧
  (∀ (s : State) (w : Nat) (pec : Option Nat), s.mode ≠ .off → pecOk s 0x30 w pec = true →
    ∃ t, exec (.alertCauseClear ⟨w, pec⟩) s = .next t ∧ t = { s with board := { s.board with alerts := t.board.alerts } } ∧
      ∀ i < 10, bit t.board.alerts i = (bit s.board.alerts i && !bit w i)) ∧
  (∀ (s : State) (w : Nat) (pec : Option Nat), s.mode = .off ∨ pecOk s 0x30 w pec = false →
    exec (.alertCauseClear ⟨w, pec⟩) s = .next s) ∧
  (∀ (s : State) (a : Nat), exec (.i3cDynamicAddress a) s = .next (if s.mode ≠ .off ∧ s.board.busMode = 0 then
    { s with board := { s.board with dynAddr := some a } } else s)) ∧
  (∀ (s : State) (i : TapInstr), ∃ t, exec (.tapInstruction i) s = .next t ∧ t = { s with board := { s.board with tap := i } } ∧
    tapActs t = if s.mode = .watch ∨ i = .idcode then i else .bypass) ∧
  (∀ (s : State) (m : Pluggable), s.board.railsOn = true →
    ∃ t, exec (.hostModuleInserted m) s = .next t ∧ t.mode = s.mode ∧ getF t R.bruFit_hostModulePresent = 1 ∧
      getF t R.bruFit_hostModuleUsable = b2n (hostUsable m) ∧ getF t R.hstStatus_state = b2n (hostUsable m) ∧
      t.att.host = some m) ∧
  (∀ (s : State) (faulted : Bool), s.board.railsOn = true →
    ∃ t, exec (.hostModuleRemoved faulted) s = .next t ∧ t.mode = s.mode ∧
      getF t R.bruFit_hostModulePresent = (if faulted then getF s R.bruFit_hostModulePresent else 0) ∧
      getF t R.bruFit_hostModuleUsable = 0 ∧ getF t R.hstStatus_state = 0) ∧
  (∀ (s : State) (i : Nat) (m : LaserModule), i < 4 → s.board.railsOn = true →
    ∃ t, exec (.laserModuleInserted i m) s = .next t ∧ t.mode = s.mode ∧
      bit (getF t R.bruFit_laserPresent) i = true ∧ bit (getF t R.bruFit_laserUsable) i = laserUsable m ∧
      (laserUsable m = true → ∀ n ∈ socketPorts i, onF s R.prtPortCtl_enable n = true →
        getF t R.prtPortStatus_state n = 1 ∧ tget? t.prt.trainStart n = some s.now)) ∧
  (∀ (s : State) (i : Nat) (faulted : Bool), i < 4 → s.board.railsOn = true → s.job.token = none →
    s.job.running = none →
    ∃ t, exec (.laserModuleRemoved i faulted) s = .next t ∧
      bit (getF t R.bruFit_laserPresent) i = (faulted && (tget? s.att.lasers i).isSome) ∧
      bit (getF t R.bruFit_laserUsable) i = false ∧
      ∀ n ∈ socketPorts i, getF t R.prtPortStatus_state n = (if getF s R.prtPortStatus_state n = 0 then 0 else 5)) ∧
  (∀ (s : State) (ch : Nat) (temp : Int), ch < 8 → s.board.railsOn = true → onF s R.lftChannel_populated ch = true →
    ∃ t, exec (.dimmThermalPoll ch temp) s = .next t ∧ t.mode = s.mode ∧ getF t R.lftChannel_tempC ch = min 255 temp.toNat ∧
      getF t R.lftChannel_refresh2x ch = b2n (decide (85 < temp)) ∧ (95 < temp → bit t.board.alerts 5 = true))

/-- BRINGUP_PHASE_DONE in phases 1 and 2 (R90, R94, R418): with good interconnect the core clocks show present and phase 2
follows; with good HBM every byte of it reads zero and phase 3 follows; a bad one stops bring-up there with cause 4 or 5.
LOFT_TEST_DONE and FIELD_CLEAR (R89, R102): a failed DIMM's channel is no longer populated and the test counts as done;
FIELD_CLEAR empties the field map of every stall, and the next bring-up must be cold. -/
def Obligations.BringupPhases : Prop :=
  (∀ (s : State) (r : PhaseReport), s.board.railsOn = true → s.mode = .bringup → s.bring.stopped = false →
    getF s R.bruStatus_waitingPorts = 0 → (onWarm s = true → r.warmTrainFail = false) → getF s R.bruStatus_phase = 1 →
    ∃ t, exec (.bringupPhaseDone r) s = .next t ∧ t.mode = .bringup ∧
      if r.interconnectOk then
        t.bring.stopped = false ∧ getF t R.bruStatus_phase = 2 ∧ getF t R.bruBayId_clk25CoreOk = 1 ∧
          getF t R.bruBayId_clk156Ok = 1
      else t.bring.stopped = true ∧ getF t R.bruStatus_stopCause = 4) ∧
  (∀ (s : State) (r : PhaseReport), s.board.railsOn = true → s.mode = .bringup → s.bring.stopped = false →
    getF s R.bruStatus_waitingPorts = 0 → (onWarm s = true → r.warmTrainFail = false) → getF s R.bruStatus_phase = 2 →
    ∃ t, exec (.bringupPhaseDone r) s = .next t ∧ t.mode = .bringup ∧
      if r.hbmOk then t.bring.stopped = false ∧ getF t R.bruStatus_phase = 3 ∧ ∀ a < hbmEnd, readByte t a = 0
      else t.bring.stopped = true ∧ getF t R.bruStatus_stopCause = 5) ∧
  (∀ (s : State) (failed : List Nat), s.board.railsOn = true → s.mode = .bringup → s.bring.loftDone = false →
    4 ≤ getF s R.bruStatus_phase →
    ∃ t, exec (.loftTestDone failed) s = .next t ∧ t.bring.loftDone = true ∧ t.mode = .bringup ∧
      ∀ c < 8, c ∈ failed → getF t R.lftChannel_populated c = 0) ∧
  (∀ s : State, s.board.railsOn = true → upStates s = true →
    ∃ t, exec .fieldClear s = .next t ∧ t.nv.fieldCleared = true ∧ t.mode = s.mode ∧ t.mem = s.mem ∧
      ∀ p < 512, getF t R.fusStallField_tileFieldOff p = 0 ∧ getF t R.fusStallField_geFieldOff p = 0)

/-- The class of a module (R3, R103): the live stalls are those with verdict 0, with 32 live tiles each; 512 of them are class
A, 496 to 511 class B, 448 to 495 class C, and with fewer bring-up stops with cause 9. A stall with more than two bad tiles, a
bad gradient engine, store or trough is disabled and counts as no live stall; any other has 32 live positions, its lowest good
ones, and the next two good ones as relief and reserve (R3, R8, R101). -/
def Obligations.ClassAndStalls : Prop :=
  (∀ s : State, s.mode = .bringup → s.bring.stopped = false →
    let l := ((List.range 512).filter (fun p => getF s R.bruStallVerdict_verdict p == 0)).length
    getF (decideClass s) R.bruClass_liveStalls = l ∧ getF (decideClass s) R.bruClass_liveTiles = 32 * l ∧
      getF (decideClass s) R.bruClass_disabledStalls = 512 - l ∧
      (l = 512 → getF (decideClass s) R.bruClass_class = 1) ∧
      (496 ≤ l → l < 512 → getF (decideClass s) R.bruClass_class = 2) ∧
      (448 ≤ l → l < 496 → getF (decideClass s) R.bruClass_class = 3) ∧
      (l < 448 → getF (decideClass s) R.bruClass_class = 0 ∧ (decideClass s).bring.stopped = true ∧
        getF (decideClass s) R.bruStatus_stopCause = 9) ∧
      (448 ≤ l → (decideClass s).bring.stopped = false)) ∧
  (∀ (s : State) (p : Nat), p < 512 →
    let good := (List.range 34).filter (fun u => !tileBad s p u)
    let t := decideStall s p
    (verdictOf s p = 0 → getF t R.bruStallVerdict_verdict p = 0 ∧ (getStall t p).st = .sleep ∧
      (getStall t p).live = good.take 32 ∧ (getStall t p).live.length = 32 ∧
      (getStall t p).relief = good[32]? ∧ (getStall t p).reserve = good[33]?) ∧
    (verdictOf s p ≠ 0 → (getStall t p).st = .disabled ∧ (getStall t p).live = []) ∧
    (2 < (badTiles s p).length → verdictOf s p ≠ 0) ∧
    (onF s R.fusStallFuse_geGood p = false → verdictOf s p = 1))

/-- A governor tick with nothing to do (R107, R110, R115, R119): the watch counter counts modulo 2^64, the stalls' idle ticks
are counted, 24/25 of a token accrues, up to 48, and the stalls chosen for the package budget run on; in WATCH, without rails,
the counter alone moves. BUDGET_WRITE and the tick (R117): a budget outside 1,200 W and the ceiling, or written outside READY
and the states of a job, is refused and changes nothing; another one waits, and the next tick puts it in force. The steps of g
(R118, R120): over budget and not raised yet, g rises by one at once, with event 0x2002; within the budget nothing rises. It
falls by one when nothing waits, 100 us have passed and the lower step leaves 1 % of headroom. -/
def Obligations.Governor : Prop :=
  (∀ s : State, s.mode ≠ .off → s.board.railsOn = true → s.gov.waitq = [] → s.gov.budgetNext = none →
    s.job.running = none → getF s R.pwrGov_g = 0 → within s (ledger s) = true →
    exec .governorTick s = .next { countIdle { s with now := (s.now + 1) % 2 ^ 64 } with
      gov := { s.gov with
        tokens := min 1200 (s.gov.tokens + 24), excess := false, toPark := s.gov.toPark.filter (fun q => q.2) } }) ∧
  (∀ s : State, s.mode ≠ .off → s.board.railsOn = false → s.job.running = none →
    exec .governorTick s = .next { s with now := (s.now + 1) % 2 ^ 64 }) ∧
  (∀ (s : State) (w : Nat), s.board.railsOn = true →
    exec (.budgetWrite w) s = .next (if upStates s = true ∧ 1200 ≤ bits w 15 0 ∧ bits w 15 0 ≤ budgetCeiling s then
      { s with gov := { s.gov with budgetNext := some (bits w 15 0) } } else s)) ∧
  (∀ (s : State) (b : Nat), s.mode ≠ .off → s.board.railsOn = true → s.gov.budgetNext = some b → b < 2 ^ 16 →
    s.job.running = none →
    ∃ t, exec .governorTick s = .next t ∧ getF t R.pwrBudget_budgetW = b ∧ t.gov.budgetNext = none) ∧
  (∀ s : State, s.board.railsOn = true → overBudget s = true → getF s R.pwrGov_g < 7 → s.gov.excess = false →
    exec .governorStepRaise s =
      .next (raise (setF { s with gov := { s.gov with excess := true, lastRaise := s.now } } R.pwrGov_g 0
        (getF s R.pwrGov_g + 1)) 0x2002 cPkg (getF s R.pwrGov_g + 1)
        (ledgerW (setF { s with gov := { s.gov with excess := true, lastRaise := s.now } } R.pwrGov_g 0
          (getF s R.pwrGov_g + 1))))) ∧
  (∀ s : State, s.board.railsOn = true → overBudget s = false →
    exec .governorStepRaise s = .next { s with
      gov := { s.gov with excess := false, toPark := s.gov.toPark.filter (fun q => q.2) } }) ∧
  (∀ s : State, s.board.railsOn = true → 0 < getF s R.pwrGov_g → getF s R.pwrGov_g ≤ 7 → s.gov.waitq = [] →
    s.gov.lastLower + 2500 ≤ s.now → ledgerLower s * 65536 * 100 ≤ allowance s * 99 →
    ∃ t, exec .governorStepLower s = .next t ∧ getF t R.pwrGov_g = getF s R.pwrGov_g - 1 ∧
      t.gov.lastLower = s.now ∧ t.stalls = s.stalls ∧ t.mode = s.mode)

/-- WAKE_REQUEST and WAKE_WAIT (R42, R112, R113, R123): the request of a resting stall enters the queue, which stays in order of
time and stall index; a stall that runs, is disabled, waits already or has its grant gets no request; a wake-ahead starts or
renews the linger. A request that has waited longer than wait_alarm raises event 0x2005 with the ticks it waited and what keeps
it, and is marked; no other does. -/
def Obligations.WakeRequests : Prop :=
  (∀ (s : State) (p : Nat) (src : WakeSrc), p < 512 → s.board.railsOn = true → isResting (getStall s p) = true →
    (getStall s p).granted = false → s.gov.waitq.any (fun q => q.stall == p) = false →
    exec (.wakeRequest p src) s = .next { (if src = .ahead then modStall s p (fun t => { t with linger := some s.now }) else s)
      with gov := { s.gov with waitq := insertWake s.gov.waitq ⟨p, s.now, src, false, false⟩ } }) ∧
  (∀ (l : List WakeReq) (r : WakeReq),
    (insertWake l r).Perm (r :: l) ∧
      (l.Pairwise (fun a b => a.time < b.time ∨ (a.time = b.time ∧ a.stall ≤ b.stall)) →
        (insertWake l r).Pairwise (fun a b => a.time < b.time ∨ (a.time = b.time ∧ a.stall ≤ b.stall)))) ∧
  (∀ (s : State) (p : Nat) (src : WakeSrc), p < 512 → s.board.railsOn = true → (getStall s p).st ≠ .disabled →
    (isRunning (getStall s p) = true ∨ (getStall s p).granted = true ∨ s.gov.waitq.any (fun q => q.stall == p) = true) →
    exec (.wakeRequest p src) s =
      .next (if src = .ahead then modStall s p (fun t => { t with linger := some s.now }) else s)) ∧
  (∀ (s : State) (p : Nat) (src : WakeSrc), p < 512 → (getStall s p).st = .disabled → exec (.wakeRequest p src) s = .next s) ∧
  (∀ (s : State) (p : Nat) (q : WakeReq), p < 512 → s.board.railsOn = true →
    s.gov.waitq.find? (fun r => r.stall == p) = some q → q.alarmed = false → q.time + getF s R.pwrWake_waitAlarm < s.now →
    exec (.wakeWait p) s = .next (raise { s with
      gov := { s.gov with waitq := s.gov.waitq.map (fun r => if r.stall = p then { r with alarmed := true } else r) } }
      0x2005 (cStall p) (s.now - q.time) (waitCause s q))) ∧
  (∀ (s : State) (p : Nat), p < 512 →
    (∀ q, s.gov.waitq.find? (fun r => r.stall == p) = some q →
      q.alarmed = true ∨ s.now ≤ q.time + getF s R.pwrWake_waitAlarm) →
    exec (.wakeWait p) s = .next s)

/-- The power states of a stall (R110, R112, R113, R284): a granted resting stall wakes to AWAKE, RETRIM or FALLBACK and is no
longer parked; in RUNNING a bound stall starts its program at instruction 0; an idle AWAKE stall enters NAP, a napping one
SLEEP, each after its time. STALL_PARKED (R119): a running stall that was chosen, and whose turn it is, enters NAP, shows
parked, and waits in the queue for its wake. -/
def Obligations.StallPower : Prop :=
  (∀ (s : State) (p : Nat), p < 512 → s.board.railsOn = true → (getStall s p).granted = true →
    isResting (getStall s p) = true → s.mode ≠ .running → (getStall s p).late = none → (getChan s (64 + p)).byPark = false →
    s.wakesPlain p →
    exec (.stallWakeComplete p) s = .next (setF (modStall (relockPll s (barnOf p)) p (fun t =>
      { t with st := runState s p, granted := false, idleSince := s.now })) R.clkStall_parked p 0)) ∧
  (∀ (s : State) (p : Nat), p < 512 → s.board.railsOn = true → (getStall s p).granted = true →
    isResting (getStall s p) = true → s.mode = .running → isBound s p = true → (getStall s p).started = false →
    getF s R.genStall_idle p = 0 → s.wakesPlain p →
    ∃ t, exec (.stallWakeComplete p) s = .next t ∧ isRunning (getStall t p) = true ∧ (getStall t p).started = true ∧
      getF t R.genStall_pc p = 0 ∧ getF t R.genStall_pass p = 1 ∧ getF t R.clkStall_parked p = 0) ∧
  (∀ (s : State) (p : Nat), p < 512 → s.board.railsOn = true → (getStall s p).st = .awake → hasWork s p = false →
    (getStall s p).linger = none → getF s R.clkStall_pinAwake p = 0 →
    (getStall s p).idleSince + max 1 (getF s R.clkIdle_napIdle) ≤ s.now →
    ∃ t, exec (.stallNap p) s = .next t ∧ (getStall t p).st = .nap ∧ (getStall t p).napSince = s.now ∧
      t.reg = s.reg ∧ t.mem = s.mem ∧ ∀ q, q ≠ p → getStall t q = getStall s q) ∧
  (∀ (s : State) (p : Nat), p < 512 → s.board.railsOn = true → (getStall s p).st = .nap → (getStall s p).granted = false →
    getF s R.clkStall_noSleep p = 0 → (getStall s p).napSince + getF s R.clkIdle_sleepIdle ≤ s.now →
    exec (.stallSleep p) s = .next (modStall s p (fun t => { t with st := .sleep }))) ∧
  (∀ (s : State) (p : Nat) (die : Bool), p < 512 → s.board.railsOn = true →
    s.gov.toPark.find? (fun q => q.1 == p) = some (p, die) → parksNow s p die = true →
    isRunning (getStall s p) = true → s.gov.waitq.any (fun q => q.stall == p) = false →
    ∃ t, exec (.stallParked p) s = .next t ∧ (getStall t p).st = .nap ∧ getF t R.clkStall_parked p = 1 ∧
      t.gov.waitq = insertWake s.gov.waitq ⟨p, s.now, .program, false, die⟩ ∧
      t.gov.toPark = s.gov.toPark.filter (fun q => q.1 != p) ∧
      t.gov.episode = (if parkedCount s = 0 then 0 else s.gov.episode) + 1 ∧ t.mode = s.mode)

/-- LEDGER_CORRECTION (R116): c rises by what the measured power exceeds ledger / eff by, and on the tenth comparison in a row
at least 2 % below the budget it is halved, to zero below 1 W. The limits of a die (R121): a current above ilim_a raises t_i by
one, a temperature from therm_c on raises t_t by one, up to 7 and each after its time, with alert cause 4; below 0.95 times the
limit t_i falls by one, below therm_c - 5 t_t does; a die at step 7 and above its limit has its first running stall parked. -/
def Obligations.LedgerAndDies : Prop :=
  (∀ (s : State) (w : Nat), s.board.railsOn = true →
    let rise := ceilDiv (12000000 * w * getF s R.pwrCost_effQ16 - ledger s * 65536) (12000 * 65536)
    let c := s.gov.cMw + rise
    ∃ t, exec (.ledgerCorrection w) s = .next t ∧
      t.gov.cMw = (if 100 * w ≤ 98 * getF s R.pwrBudget_budgetW ∧ s.gov.lowRuns + 1 = 10 then
        (if c / 2 < 1000 then 0 else c / 2) else c) ∧
      t.stalls = s.stalls ∧ t.mode = s.mode ∧ t.gov.waitq = s.gov.waitq) ∧
  (∀ (s : State) (d a : Nat), d < 4 → s.board.railsOn = true → a < 2 ^ 10 → getF s R.pwrDie_ilimA d < a →
    diePassed s 0 d 50 = true → getF s R.pwrDie_tI d < 7 →
    ∃ t, exec (.dieCurrentLimit d a) s = .next t ∧ getF t R.pwrDie_tI d = getF s R.pwrDie_tI d + 1 ∧
      getF t R.pwrDie_currentA d = a ∧ bit t.board.alerts 4 = true ∧ t.stalls = s.stalls ∧ t.mode = s.mode) ∧
  (∀ (s : State) (d tj : Nat), d < 4 → s.board.railsOn = true → tj < 2 ^ 8 → getF s R.pwrDie_thermC d ≤ tj →
    diePassed s 2 d 2500 = true → getF s R.pwrDie_tT d < 7 →
    ∃ t, exec (.dieThermalThrottle d tj) s = .next t ∧ getF t R.pwrDie_tT d = getF s R.pwrDie_tT d + 1 ∧
      getF t R.pwrDie_tjC d = tj ∧ bit t.board.alerts 4 = true ∧ t.stalls = s.stalls ∧ t.mode = s.mode) ∧
  (∀ (s : State) (d v : Nat), d < 4 → s.board.railsOn = true → 100 * v < 95 * getF s R.pwrDie_ilimA d →
    diePassed s 1 d 2500 = true → 0 < getF s R.pwrDie_tI d → getF s R.pwrDie_tI d ≤ 7 →
    ∃ t, exec (.dieStepLower d false v) s = .next t ∧ getF t R.pwrDie_tI d = getF s R.pwrDie_tI d - 1 ∧
      getF t R.pwrDie_tT d = getF s R.pwrDie_tT d ∧ t.stalls = s.stalls) ∧
  (∀ (s : State) (d v : Nat), d < 4 → s.board.railsOn = true → v + 5 < getF s R.pwrDie_thermC d →
    diePassed s 3 d 25000 = true → 0 < getF s R.pwrDie_tT d → getF s R.pwrDie_tT d ≤ 7 →
    ∃ t, exec (.dieStepLower d true v) s = .next t ∧ getF t R.pwrDie_tT d = getF s R.pwrDie_tT d - 1 ∧
      getF t R.pwrDie_tI d = getF s R.pwrDie_tI d ∧ t.stalls = s.stalls) ∧
  (∀ (s : State) (d p : Nat), d < 4 → s.board.railsOn = true → dieStep s d = 7 →
    getF s R.pwrDie_ilimA d < getF s R.pwrDie_currentA d →
    (parkOrder s).find? (fun q => dieOf q == d && !s.gov.toPark.any (fun r => r.1 == q)) = some p →
    exec (.dieCurrentPark d) s = .next { s with gov := { s.gov with toPark := s.gov.toPark ++ [(p, true)] } })

/-- The session's opening (R128, R467): an OPEN that may open a session is answered by a CHALLENGE that becomes the one pending
challenge; a PROVE whose signature verifies opens the session under a fresh identifier, and one that does not is counted and
opens none; a challenge that is one second old is gone. -/
def Obligations.SessionOpening : Prop :=
  (∀ (s : State) (f : CtlFrame), s.hears f 0x01 → upStates s = true → (sessionOpen s = false ∨ bit f.flags 2 = true) →
    slotAllowed s (openSlot f.body) = true →
    ∃ t c, exec (.openFrame f) s = .next t ∧ t.ses.challenge = some c ∧ c.openBody = f.body ∧ c.sent = s.now ∧
      c.keySlot = openSlot f.body ∧ c.preempt = bit f.flags 2 ∧ t.ses.key = s.ses.key ∧ t.reg = s.reg ∧ t.mem = s.mem ∧
      t.lastCtl = some (f.rx.src,
        { ftype := 0x02, sessionId := 0, seq := f.seq, ack := 0, planTag := 0, step := 0, flags := 0, body := c.chalBody,
          tagged := false })) ∧
  (∀ (s : State) (f : CtlFrame) (c : Challenge), s.hears f 0x03 → pendingChallenge s = some c → upStates s = true →
    (sessionOpen s = false ∨ c.preempt = true) → slotAllowed s c.keySlot = true →
    ∃ t, exec (.prove f) s = .next t ∧ t.mode = s.mode ∧
      if verify (proveKey s c) "VRHSEH" (transcript c.openBody c.chalBody) (slice f.body 0 114) = true then
        sessionOpen t = true ∧ t.ses.challenge = none ∧ t.ses.expect = 1 ∧ t.ses.lastRx = s.now ∧
          t.ses.peer = f.rx.src ∧ getF t R.ctlState_sessionOpen = 1 ∧ getF t R.ctlState_sessionId = t.ses.lastId ∧
          0 < t.ses.lastId ∧ t.ses.lastId < 2 ^ 32 ∧ t.ses.lastId ≠ s.ses.lastId
      else t.ses.key = s.ses.key ∧ t.ses.challenge = s.ses.challenge ∧ t.ses.lastId = s.ses.lastId ∧
        getF t R.ctlState_sessionOpen = getF s R.ctlState_sessionOpen ∧
        getF t R.secStatus_proveFailures = min 65535 (getF s R.secStatus_proveFailures + 1)) ∧
  (∀ (s : State) (c : Challenge), s.board.railsOn = true → s.ses.challenge = some c → c.sent + 25000000 ≤ s.now →
    exec .challengeExpired s = .next { s with ses := { s.ses with challenge := none } })

/-- The frames of an open session (R126, R129, R131, R139): KEEPALIVE and ACK are answered and change nothing else; an ACCESS
runs its operations in body order and answers with their records, or waits while a loft link it reaches retrains (R338); a CLOSE
is answered and ends the session. Each moves the expected number on and renews the idle time. -/
def Obligations.SessionFrames : Prop :=
  (∀ (s : State) (f : CtlFrame), s.takes f 0x06 → ∃ t, exec (.keepalive f) s = .next t ∧ t.answers f [] ∧
    t.ses.expect = (s.ses.expect + 1) % 2 ^ 32 ∧ t.ses.lastRx = s.now ∧ t.ses.peer = f.rx.src ∧ t.ses.key = s.ses.key ∧
    t.reg = s.reg ∧ t.mem = s.mem ∧ t.mode = s.mode ∧ t.job = s.job) ∧
  (∀ (s : State) (f : CtlFrame), s.takes f 0x07 → ∃ t, exec (.ack f) s = .next t ∧ t.answers f [] ∧
    t.ses.expect = (s.ses.expect + 1) % 2 ^ 32 ∧ t.ses.lastRx = s.now ∧ t.ses.key = s.ses.key ∧ t.reg = s.reg ∧
    t.mem = s.mem ∧ t.mode = s.mode ∧ (s.ses.waiting = [] →
      t.ses.unacked = s.ses.unacked.filter (fun u => decide (f.ack < u.frame.seq)))) ∧
  (∀ (s : State) (f : CtlFrame) (l : List AccOp) (w : List (Nat × WriteReport)), s.takes f 0x10 →
    accessOps f.body = some l → f.planTag = 0 ∨ f.planTag = getF s R.gtePlan_planTag → s.upd.heldAccess = [] →
    ∃ t, exec (.access f w) s = .next t ∧
      if opsHeld s l = true then t.upd.heldAccess = [(f, w)] ∧ t.mem = s.mem ∧ t.reg = s.reg
      else t.answers f (runOps (s.inOrder f) 0 l w).2 ∧ t.upd.heldAccess = (runOps (s.inOrder f) 0 l w).1.upd.heldAccess ∧
        t.mem = (runOps (s.inOrder f) 0 l w).1.mem ∧ t.reg = (runOps (s.inOrder f) 0 l w).1.reg) ∧
  (∀ (s : State) (f : CtlFrame), s.takes f 0x05 → ∃ t, exec (.close f) s = .next t ∧ t.answers f [] ∧
    sessionOpen t = false ∧ getF t R.ctlState_sessionOpen = 0 ∧ getF t R.ctlState_sessionId = 0 ∧
    getF t R.secStatus_sessionSlot = 7 ∧ t.mode = s.mode ∧ t.job = s.job ∧ t.ses.lastId = s.ses.lastId)

/-- The timers of a session (R129, R132): silence for idle_ms ends it; a frame not acknowledged in time is sent again,
unchanged, its next time twice as far, and after its last try the session ends. A command that has run for 100 us is told of
once, by one BUSY completion (R144). -/
def Obligations.SessionTimers : Prop :=
  (∀ s : State, s.board.railsOn = true → sessionOpen s = true →
    s.ses.lastRx + 25000 * getF s R.ctlTimers_idleMs ≤ s.now →
    ∃ t, exec .sessionIdleTimeout s = .next t ∧ sessionOpen t = false ∧ getF t R.ctlState_sessionOpen = 0 ∧
      getF t R.ctlState_sessionId = 0 ∧ t.mode = s.mode ∧ t.job = s.job) ∧
  (∀ (s : State) (u : Unacked) (r : List Unacked), s.board.railsOn = true → s.ses.unacked = u :: r → u.due ≤ s.now →
    u.tries < getF s R.ctlTimers_retxTries →
    ∃ t v, exec .retransmitTimeout s = .next t ∧ t.ses.unacked = v :: r ∧ v.frame = u.frame ∧ v.tries = u.tries + 1 ∧
      v.due = s.now + 25 * getF s R.ctlTimers_retxUs * 2 ^ (u.tries + 1) ∧ t.lastCtl = some (s.ses.peer, u.frame) ∧
      t.reg = s.reg ∧ t.mem = s.mem) ∧
  (∀ (s : State) (u : Unacked) (r : List Unacked), s.board.railsOn = true → sessionOpen s = true →
    s.ses.unacked = u :: r → u.due ≤ s.now → getF s R.ctlTimers_retxTries ≤ u.tries →
    ∃ t, exec .retransmitTimeout s = .next t ∧ sessionOpen t = false ∧ getF t R.ctlState_sessionOpen = 0 ∧ t.mode = s.mode) ∧
  (∀ (s : State) (r : Running), s.board.railsOn = true → s.job.running = some r → r.busy = false →
    r.taken + 2500 ≤ s.now →
    ∃ t, exec .commandBusy s = .next t ∧ t.job.running = some { r with busy := true } ∧ t.reg = s.reg ∧ t.mem = s.mem ∧
      t.numbered = s.numbered ++ [(0x30, completionBody r.cmd 1 0)] ∧ exec .commandBusy t = .next t)

/-- A register write (R16, R17, R18, R19, R140): by its access code a field takes the value, is cleared by a one, or keeps its
value; a field at its pending offset takes a pending value and no active value changes; a write that its register refuses, or at
an address without a register, changes nothing. The rings' registers (R142, R143, R153): a producer moves on within the ring's
size and never back; an idle ring takes a new base and size, its producer at its consumer; the event ring the same, empty; its
consumer moves up to the producer. What breaks one of these rules changes nothing. -/
def Obligations.RegisterAccess : Prop :=
  (∀ (s : State) (a v : Nat) (r : RegRef) (f : Field), s.board.railsOn = true → findReg a = some r → r.pending = false →
    regStatus s r v = 0 → writeActs.find? (fun x => x.1 == r.reg.base) = none → f ∈ r.reg.fields →
    ∃ t, exec (.registerWrite a v) s = .next t ∧ t.mem = s.mem ∧ t.mode = s.mode ∧ t.pend = s.pend ∧
      getF t f r.unit = match f.acc with
        | .rw => bits v (f.lo + f.width - 1) f.lo
        | .wo => bits v (f.lo + f.width - 1) f.lo
        | .w1c => if bits v (f.lo + f.width - 1) f.lo = 0 then getF s f r.unit else 0
        | _ => getF s f r.unit) ∧
  (∀ (s : State) (a v : Nat) (r : RegRef) (f : Field), s.board.railsOn = true → findReg a = some r → r.pending = true →
    regStatus s r v = 0 → f ∈ r.reg.fields → f.acc = .rwg →
    ∃ t, exec (.registerWrite a v) s = .next t ∧ t.reg = s.reg ∧ t.mem = s.mem ∧
      getP t f r.unit = bits v (f.lo + f.width - 1) f.lo) ∧
  (∀ (s : State) (a v : Nat), (∀ r, findReg a = some r → regStatus s r v ≠ 0) →
    exec (.registerWrite a v) s = .next s) ∧
  (∀ (s : State) (r v : Nat), r < 2 → s.board.railsOn = true →
    exec (.ringDoorbell r v) s = .next (if (v % 2 ^ 32 + 2 ^ 32 - ringConsumer s r) % 2 ^ 32 ≤ ringSize s r ∧
      (ringProducer s r + 2 ^ 32 - ringConsumer s r) % 2 ^ 32 ≤ (v % 2 ^ 32 + 2 ^ 32 - ringConsumer s r) % 2 ^ 32
      then setF s R.ctlRingDoorbell_producer r v else s)) ∧
  (∀ (s : State) (r v : Nat), r < 2 → s.board.railsOn = true → ringConsumer s r < 2 ^ 32 →
    ∃ t, exec (.ringCfgWrite r v) s = .next t ∧ t.mem = s.mem ∧ t.mode = s.mode ∧
      if ringPending s r = false ∧ bits v 3 0 ≤ 10 ∧ bits v 47 12 * 4096 + 4096 * 2 ^ bits v 3 0 ≤ hbmEnd then
        getF t R.ctlRingCfg_base4k r = bits v 47 12 ∧ getF t R.ctlRingCfg_sizeCode r = bits v 3 0 ∧
          ringPending t r = false ∧ ringConsumer t r = ringConsumer s r
      else t = s) ∧
  (∀ (s : State) (v : Nat), s.board.railsOn = true →
    ∃ t, exec (.evtCfgWrite v) s = .next t ∧ t.mem = s.mem ∧ t.mode = s.mode ∧
      if getF s R.ctlEvtProducer_producer = getF s R.ctlEvtConsumer_consumer ∧ bits v 3 0 ≤ 9 ∧
          bits v 47 12 * 4096 + 65536 * 2 ^ bits v 3 0 ≤ hbmEnd then
        getF t R.ctlEvtCfg_base4k = bits v 47 12 ∧ evtSize t = 2048 * 2 ^ bits v 3 0 ∧
          getF t R.ctlEvtProducer_producer = getF s R.ctlEvtProducer_producer
      else t = s) ∧
  (∀ (s : State) (v : Nat), s.board.railsOn = true →
    exec (.evtConsumerWrite v) s = .next (if (v % 2 ^ 32 + 2 ^ 32 - getF s R.ctlEvtConsumer_consumer) % 2 ^ 32 ≤
        (getF s R.ctlEvtProducer_producer + 2 ^ 32 - getF s R.ctlEvtConsumer_consumer) % 2 ^ 32
      then setF s R.ctlEvtConsumer_consumer 0 v else s))

/-- NOP, HALT, HALT_CLEAR and JOB_END (R146, R148, R150, R151): NOP completes and changes nothing else; HALT in a job enters
HALTED without losing state, with cause 1 and the step as its detail; HALT_CLEAR leaves it for READY, the image gone; JOB_END
after a completed gate window returns to HARNESSED. ROLLBACK in a completed gate or in HALTED without state lost (R147, R458,
R476), with the active plan tag: to a step whose pages can all be restored, with no stall resting whose arrays it writes, it
ends HARNESSED at that step, the next one expected, no securing in flight, no token held, every page dirty, the feed at 0; with
such a stall resting it goes on; to any other step it ends with RANGE and the mode stays. -/
def Obligations.HaltAndEnd : Prop :=
  (∀ (s : State) (ring : Nat) (c : CmdRec), s.holds ring 0x0001 c → ∃ t, exec (.nop ring) s = .next t ∧
    s.completes t c 0 0 ∧ ringConsumer t ring = (ringConsumer s ring + 1) % 2 ^ 32 ∧ t.mem = s.mem ∧ t.mode = s.mode ∧
    t.job = s.job ∧ t.stalls = s.stalls) ∧
  (∀ (s : State) (ring : Nat) (c : CmdRec), s.holds ring 0x0002 c → inJob s = true → ∃ t, exec (.halt ring) s = .next t ∧
    t.mode = .halted ∧ getF t R.ctlState_haltCause = 1 ∧ getF t R.ctlState_haltStateLosing = 0 ∧ t.job.token = none ∧
    t.job.image = s.job.image ∧ t.mem = s.mem ∧ bit t.board.alerts 6 = true ∧
    t.numbered.getLast? = some (0x30, completionBody c 0 (getF s R.gteStep_step))) ∧
  (∀ (s : State) (ring : Nat) (c : CmdRec), s.holds ring 0x0003 c → s.mode = .halted →
    ∃ t, exec (.haltClear ring) s = .next t ∧ t.mode = .ready ∧ t.job.image = none ∧ t.team.step = none ∧
      t.team.pages = [] ∧ getF t R.gtePlan_planTag = 0 ∧ getF t R.hrnStatus_state = 0 ∧ t.board.warmValid = true ∧
      t.numbered.getLast? = some (0x30, completionBody c 0 0)) ∧
  (∀ (s : State) (ring : Nat) (c : CmdRec), s.holds ring 0x0004 c → s.mode = .gate →
    onF s R.gteStatus_gateComplete = true → s.job.token = none → s.team.step = none →
    ∃ t, exec (.jobEnd ring) s = .next t ∧ t.mode = .harnessed ∧ getF t R.genPass_pass = 0 ∧ t.job.amends = [] ∧
      t.job.image = s.job.image ∧ t.job.running = none ∧ t.numbered.getLast? = some (0x30, completionBody c 0 0)) ∧
  (∀ (s : State) (ring : Nat) (c : CmdRec) (w : List (Nat × WriteReport)), s.holds ring 0x0005 c →
    (gateOver s = true ∨ haltedKept s = true) → c.planTag = getF s R.gtePlan_planTag →
    let v := rollbackStop (s.taken ring)
    let ps := pagesToRestore v (s.team.pages.map (fun p => p.addr)) (arg c 0)
    ∃ t, exec (.rollback ring w) s = .next t ∧ t.team.pages = [] ∧ t.team.step = none ∧
      if canRestore v (arg c 0) = true ∧ (∀ x ∈ ps, (slotFor v (arg c 0) x).isSome = true) then
        if (ownPlacements s).any (fun x => isResting (getStall s x.stall)) then t.job.running.isSome = true ∧ t.job.toWrite ≠ []
        else
          t.mode = .harnessed ∧ getF t R.gteStep_step = arg c 0 % 2 ^ 40 ∧
            getF t R.gteNext_expected = (arg c 0 + 1) % 2 ^ 40 ∧ getF t R.gteNext_anyStep = 0 ∧
            getF t R.pairRelease_step = arg c 0 % 2 ^ 40 ∧ t.team.allDirty = true ∧ t.job.token = none ∧
            t.job.running = none ∧ t.job.amends = [] ∧ t.feed.p = 0 ∧ getF t R.hstFeedConsumed_consumed = 0 ∧
            t.numbered.getLast? = some (0x30, completionBody c 0 0)
      else t.mode = s.mode ∧ t.mem = s.mem ∧ t.job = s.job ∧ s.completes t c 3 0)

/-- HARNESS_LOAD in READY (R175, R176, R178): an image within its bounds that passes every check is being loaded, the command in
progress; one that does not leaves the module READY without an image, and the command ends with the status of the first check
that failed. -/
def Obligations.ImageLoad : Prop :=
  ∀ (s : State) (ring : Nat) (c : CmdRec), s.holds ring 0x3001 c → s.mode = .ready → s.job.loading = none →
    let v := raise (s.taken ring) 0x3001 cPkg (arg c 1) (arg c 2)
    let u := copy v (arg c 0) harnessBase (arg c 1)
    let b := readBytes u harnessBase (arg c 1)
    let i := decodeImage (sectionsOf b) (arg c 1) (fieldAt b 0x10 8) (fieldAt b 0x20 8)
    ∃ t, exec (.harnessLoad ring) s = .next t ∧ t.mode = .ready ∧ t.job.image = s.job.image ∧
      if imageSpan v (arg c 0) (arg c 1) = true ∧ arg c 1 ≤ imageMax then
        match loadFault u c b i (arg c 2) with
        | none => t.job.running.map (fun r => r.cmd) = some c ∧ t.job.loading = some i ∧ getF t R.hrnStatus_state = 1 ∧
            getF t R.hrnStatus_moduleIndex = arg c 2 % 2 ^ 16
        | some f => t.job.running = none ∧ t.job.loading = none ∧ getF t R.hrnStatus_state = 0 ∧ s.completes t c f.1 0
      else t.job.running = none ∧ t.job.loading = none ∧ s.completes t c 3 0

/-- HARNESS_LOAD_DONE (R177, R178): with the image's stalls awake its masters are written and it becomes the active image, the
module HARNESSED under its plan tag; where one of its stalls was lost, the module stays READY with no image. HARNESS_UNLOAD in
HARNESSED with the active plan tag (R178, R182): its region of HBM is zero, and it goes on for at most 21 ms (the instant is a
free value, assumption 162); the tick that finds its time over enters READY without an image. -/
def Obligations.ImageLoaded : Prop :=
  (∀ (s : State) (r : Running) (i : Image) (w : List (Nat × WriteReport)) (lost : List Nat), s.board.railsOn = true →
    s.mode = .ready → s.job.running = some r → r.cmd.opcode = 0x3001 → s.job.loading = some i →
    writesWait s ((ownStalls i (ownIndex s)).filter (fun p => !((ownStalls i (ownIndex s)).filter (fun q =>
      lost.contains q)).contains p)) = false →
    ∃ t, exec (.harnessLoadDone w lost) s = .next t ∧ t.job.loading = none ∧ t.job.running = none ∧
      if (ownStalls i (ownIndex s)).any (fun p => (getStall t p).st == .disabled) = true then
        t.mode = .ready ∧ t.job.image = none ∧ t.numbered.getLast? = some (0x30, completionBody r.cmd 7 0)
      else t.mode = .harnessed ∧ t.job.image = some i ∧ getF t R.gtePlan_planTag = i.planTag % 2 ^ 64 ∧
        getF t R.hrnStatus_state = 2 ∧ t.numbered.getLast? = some (0x30, completionBody r.cmd 0 i.planTag)) ∧
  (∀ (s : State) (ring : Nat) (c : CmdRec), s.holds ring 0x3002 c → s.mode = .harnessed →
    c.planTag = getF s R.gtePlan_planTag →
    ∃ t d, exec (.harnessUnload ring) s = .next t ∧ t.mode = .harnessed ∧ t.job.image = s.job.image ∧
      t.job.running = some ⟨c, s.now, false, some d, 0⟩ ∧ s.now ≤ d ∧ d ≤ s.now + 525000 ∧
      getF t R.hrnStatus_state = 3 ∧
      ∀ x, readByte t x = if harnessBase ≤ x ∧ x < harnessBase + 0xFF00000 then 0 else readByte s x) ∧
  (∀ (s : State) (r : Running), s.board.railsOn = true → s.mode = .harnessed → s.job.running = some r →
    r.cmd.opcode = 0x3002 → timeOver { s with now := (s.now + 1) % 2 ^ 64 } r = true →
    ∃ t, exec .governorTick s = .next t ∧ t.mode = .ready ∧ t.job.image = none ∧ t.job.amends = [] ∧ t.job.running = none ∧
      getF t R.gtePlan_planTag = 0 ∧ getF t R.hrnStatus_state = 0 ∧
      t.numbered.getLast? = some (0x30, completionBody r.cmd 0 0))

/-- HARNESS_AMEND and its staging (R179, R180, R181): an amendment that passes is held, last, under its new plan tag and with a
BUSY completion; one that fails is not. Staging marks the oldest amendment still to be staged; with a token held, the module at
rest and every amendment staged, the step commits. -/
def Obligations.Amendments : Prop :=
  (∀ (s : State) (ring : Nat) (c : CmdRec) (base : Image), s.holds ring 0x3003 c → inJob s = true →
    projected s = some base → imageSpan (s.taken ring) (arg c 0) (arg c 1) = true → s.job.amends.length < 4 →
    getF s R.hrnHeld_heldBytes + arg c 1 ≤ heldMax →
    let b := readBytes s (arg c 0) (arg c 1)
    let new := decodeImage (mergeRaw base.raw (sectionsOf b)) base.length (fieldAt b 0x10 8) base.buildId
    ∃ t, exec (.harnessAmend ring) s = .next t ∧ t.job.image = s.job.image ∧ t.job.running = none ∧
      match amendFault (s.taken ring) c b base new with
      | none => t.mode = s.mode ∧ getF t R.hrnPlanNext_planTag = new.planTag % 2 ^ 64 ∧
          (∃ a, t.job.amends = s.job.amends ++ [a] ∧ a.cmd = c ∧ a.image = new ∧ a.staged = false ∧ a.length = arg c 1) ∧
          t.numbered.getLast? = some (0x30, completionBody c 1 0)
      | some f => f.2 ≠ 4 → t.mode = s.mode ∧ t.job.amends = s.job.amends ∧ s.completes t c f.1 0) ∧
  (∀ (s : State) (k : Nat), s.board.railsOn = true → s.job.amends.findIdx? (fun a => !a.staged) = some k →
    (s.job.token = none ∨ atRest s = false) →
    exec .amendStaged s = .next { s with job := { s.job with
      amends := s.job.amends.mapIdx (fun i a => if i = k then { a with staged := true } else a) } }) ∧
  (∀ (s : State) (k : Nat) (x : Token), s.board.railsOn = true → s.job.amends.findIdx? (fun a => !a.staged) = some k →
    (∀ i, i ≠ k → ∀ a, s.job.amends[i]? = some a → a.staged = true) → s.job.token = some x → atRest s = true →
    x.step < 2 ^ 40 →
    ∃ t, exec .amendStaged s = .next t ∧ t.mode = .running ∧ getF t R.gteStep_step = x.step ∧ t.job.token = none ∧
      t.job.amends = [])

/-- A GATE frame (R147, R149, R420): with the projected plan tag and the expected step, a module at rest whose amendments are
staged commits the step at once and runs it; otherwise the token is held with the pending values of that moment, and the answer
says HELD while the module is not at rest. -/
def Obligations.GateToken : Prop :=
  (∀ (s : State) (f : CtlFrame), s.takes f 0x20 → f.step = fieldAt f.body 0 8 → f.step < 2 ^ 40 → inJob s = true →
    s.job.token = none → jobEnding s = false → f.planTag = getF s R.hrnPlanNext_planTag →
    stepNo s ≠ 0xFFFFFFFFFF → (onF s R.gteNext_anyStep = true ∨ getF s R.gteNext_expected = f.step) →
    atRest s = true → amendsStaged s = true →
    ∃ t, exec (.gate f) s = .next t ∧ t.mode = .running ∧ getF t R.gteStep_step = f.step ∧
      getF t R.gteNext_expected = (f.step + 1) % 2 ^ 40 ∧ getF t R.gteNext_anyStep = 0 ∧
      getF t R.gteStatus_gateComplete = 0 ∧ getF t R.genPass_pass = 1 ∧ t.job.token = none ∧ t.job.amends = []) ∧
  (∀ (s : State) (f : CtlFrame), s.takes f 0x20 → f.step = fieldAt f.body 0 8 → f.step < 2 ^ 40 → inJob s = true →
    s.job.token = none → jobEnding s = false → f.planTag = getF s R.hrnPlanNext_planTag →
    stepNo s ≠ 0xFFFFFFFFFF → (onF s R.gteNext_anyStep = true ∨ getF s R.gteNext_expected = f.step) →
    (atRest s = false ∨ amendsStaged s = false) →
    ∃ t, exec (.gate f) s = .next t ∧ t.mode = s.mode ∧ t.reg = s.reg ∧ t.mem = s.mem ∧
      t.job.token = some { step := f.step, planTag := f.planTag, snapshot := s.pend } ∧
      t.answers f (leBytes 1 (if atRest s then 0 else 1) ++ leBytes 7 0))

/-- GATE_COMPLETE (R149, R453, R476): once the stalls of the window's writes are awake and no loft link retrains, the window is
done and the module stays in GATE; with nothing to hold it, gate-complete is set, the window's length is kept and GATE_DONE is
sent. The hold of the next window (R453, R454): a window held past secure_alarm_ms is reported once, by event 0xD00F; a release
up to a step that is not behind the last one is kept, an earlier one changes nothing. -/
def Obligations.GateWindow : Prop :=
  (∀ (s : State) (w : List (Nat × WriteReport)), s.board.railsOn = true → s.mode = .gate →
    onF s R.gteStatus_gateComplete = false → s.job.gcReady = false → writesWait s s.job.toWrite = false →
    anyLinkDown s = false →
    s.job.token = none → onF s R.gteStatus_haltPending = false →
    ∃ t, exec (.gateComplete w) s = .next t ∧ t.mode = .gate ∧ t.job.gcReady = true ∧ t.job.image = s.job.image) ∧
  (∀ (s : State) (w : List (Nat × WriteReport)), s.board.railsOn = true → s.mode = .gate →
    onF s R.gteStatus_gateComplete = false → s.job.gcReady = true → s.job.gateHold = false → holdCause s = none →
    s.job.token = none → onF s R.gteStatus_haltPending = false →
    ∃ t, exec (.gateComplete w) s = .next t ∧ t.mode = .gate ∧ onF t R.gteStatus_gateComplete = true ∧
      getF t R.gteStatus_lastWindowTicks = min (2 ^ 32 - 1) (s.now - s.job.windowStart) ∧
      t.numbered.getLast? = some (0x21, leBytes 8 (stepNo s) ++ leBytes 4 (getF t R.gteStatus_lastWindowTicks) ++
        leBytes 4 (4 * b2n (decide (0 < getF t R.pairSecure_pagesLeft))))) ∧
  (∀ (s : State) (a k : Nat), s.board.railsOn = true → s.job.gcHeldSince = some a → holdCause s = some k →
    s.job.notifiedHold = false → a + 25000 * getF s R.pairCtl_secureAlarmMs < s.now →
    ∃ t, exec .securingHeld s = .next t ∧ t.job.notifiedHold = true ∧ t.mode = s.mode ∧
      t = raise { s with job := { s.job with notifiedHold := true } } 0xD00F cPkg (stepNo s % 2 ^ 32) k) ∧
  (∀ (s : State) (v : Nat), s.board.railsOn = true → s.job.token = none →
    ∃ t, exec (.releaseWrite v) s = .next t ∧
      if getF s R.pairRelease_step ≤ bits v 39 0 then getF t R.pairRelease_step = bits v 39 0 else t = s)

/-- MIRROR_COPY (R455): refused, it changes no memory; otherwise the command ends with the number of mirrored pages in the span
named. LOFT_FILL (R341, R342): with no page protected, the span named holds the 8-byte value again and again, lowest byte first,
and no other byte changes; while a loft link retrains it waits (R338). SCRUB in READY (R473): flags above 31 are refused, none
ends at once, others go on for at most the time of their parts (the instant is a free value, assumption 126); the tick that
finds that over, with no stall resting that is to be written, keeps the flags, counts the module as clean, and the team secret
and key are gone. ATTEST (R470): the certificate chain, its length first, stands where the command asks for it, and the command
ends with its length. -/
def Obligations.MemoryCommands : Prop :=
  (∀ (s : State) (ring : Nat) (c : CmdRec), s.holds ring 0xD001 c →
    (s.mode = .ready ∨ s.mode = .harnessed ∨ haltedKept s = true) →
    let u := s.taken ring
    let ps := mirrorPages u (arg c 0) (arg c 1)
    ∃ t, exec (.mirrorCopy ring) s = .next t ∧ t.mode = s.mode ∧ t.job.image = s.job.image ∧ t.stalls = s.stalls ∧
      if mirrorStatus u c ps = 0 then s.completes t c 0 ps.length else s.completes t c (mirrorStatus u c ps) 0 ∧ t.mem = s.mem) ∧
  (∀ (s : State) (ring : Nat) (c : CmdRec), s.holds ring 0x9001 c → anyLinkDown s = false →
    (s.mode = .ready ∨ s.mode = .harnessed ∨ s.mode = .halted) → s.team.pages = [] →
    fillStatus (s.taken ring) (arg c 0) (arg c 1) = 0 → arg c 1 ≠ 0 →
    ∃ t, exec (.loftFill ring) s = .next t ∧ s.completes t c 0 0 ∧ t.mode = s.mode ∧
      ∀ x, readByte t x = if arg c 0 ≤ x ∧ x < arg c 0 + arg c 1 then (leBytes 8 (arg c 2)).getD ((x - arg c 0) % 8) 0
        else readByte s x) ∧
  (∀ (s : State) (ring : Nat), anyLinkDown s = true → exec (.loftFill ring) s = .next s) ∧
  (∀ (s : State) (ring : Nat) (c : CmdRec) (w : List (Nat × WriteReport)), s.holds ring 0xE004 c → s.mode = .ready →
    ∃ t, exec (.scrub ring w) s = .next t ∧ t.mode = .ready ∧
      if arg c 0 = 0 then s.completes t c 0 0
      else if 32 ≤ arg c 0 then s.completes t c 4 0
      else ∃ d, t.job.running = some ⟨c, s.now, false, some d, 0⟩ ∧ s.now ≤ d ∧ d ≤ s.now + scrubBound s (arg c 0)) ∧
  (∀ (s : State) (r : Running), s.board.railsOn = true → s.mode = .ready → s.job.running = some r →
    r.cmd.opcode = 0xE004 → arg r.cmd 0 < 32 → timeOver { s with now := (s.now + 1) % 2 ^ 64 } r = true →
    writesWait s s.job.toWrite = false →
    ∃ t, exec .governorTick s = .next t ∧ t.mode = .ready ∧ t.job.running = none ∧
      getF t R.secScrub_flags = arg r.cmd 0 ∧ getF t R.secScrub_clean = 1 ∧ t.team.key = none ∧
      (∀ u < 4, getF t R.secTeamSecret_secret u = 0) ∧ t.numbered.getLast? = some (0x30, completionBody r.cmd 0 0)) ∧
  (∀ (s : State) (ring : Nat) (c : CmdRec), s.holds ring 0xE001 c →
    let u := s.taken ring
    (firstRefusal [judgeRead u (arg c 0 + 8) 32, judgeWrite coreMaster u (arg c 0) (report u (readBytes u (arg c 0 + 8) 32)),
      judgeWrite coreMaster u (arg c 1) chainBytes]).2 = 0 →
    arg c 0 % 64 = 0 → chain.length + 4 ≤ arg c 2 → rangeOf (arg c 0) ≠ some 3 → rangeOf (arg c 0) ≠ some 4 → rangeOf (arg c 1) ≠ some 3 → rangeOf (arg c 1) ≠ some 4 →
    ∃ t, exec (.attest ring) s = .next t ∧ readBytes t (arg c 1) chainBytes.length = chainBytes ∧ t.mode = s.mode ∧
      s.completes t c 0 chain.length)

/-- SLOT_UPDATE and FW_UPDATE in READY (R464, R465, R471): a record in HBM that is well formed, signed, new and fitting is
applied: the slot named is set, revoked, or every slot emptied, and the epoch is the record's; the firmware copy that does not
run is staged. Any other record changes no slot, no epoch and no copy, and its status says why. -/
def Obligations.KeyAndFirmware : Prop :=
  (∀ (s : State) (ring : Nat) (c : CmdRec), s.holds ring 0xE002 c → s.mode = .ready → inHbm (arg c 0) 224 = true →
    let b := readBytes s (arg c 0) 224
    let st := slotStatus (s.taken ring) b
    ∃ t, exec (.slotUpdate ring) s = .next t ∧ t.mode = s.mode ∧
      if st = 0 then
        t.nv.slots = (applySlot s (fieldAt b 0 1) (fieldAt b 2 1) (slice b 0x20 57)).nv.slots ∧
          getF t R.secEpoch_epoch = fieldAt b 8 8
      else t.nv = s.nv ∧ getF t R.secEpoch_epoch = getF s R.secEpoch_epoch ∧ s.completes t c st 0) ∧
  (∀ (s : State) (ring : Nat) (c : CmdRec), s.holds ring 0xE003 c → s.mode = .ready → 192 ≤ arg c 1 → arg c 1 ≤ 2 ^ 24 →
    inHbm (arg c 0) (arg c 1) = true →
    let b := readBytes s (arg c 0) (arg c 1)
    let st := fwStatus (s.taken ring) b (arg c 1)
    ∃ t, exec (.fwUpdate ring) s = .next t ∧ t.mode = s.mode ∧ s.completes t c st 0 ∧
      if st = 0 then
        t.nv.fwStaged = true ∧ getF t R.secFw_staged = 1 ∧
          (if getF s R.secFw_runningCopy = 0 then t.nv.fwB = ⟨shake256 b 64, fieldAt b 6 2, Config.fwVersion (shake256 b 64)⟩ ∧ t.nv.fwA = s.nv.fwA
           else t.nv.fwA = ⟨shake256 b 64, fieldAt b 6 2, Config.fwVersion (shake256 b 64)⟩ ∧ t.nv.fwB = s.nv.fwB)
      else t.nv = s.nv)

/-- The instructions of control (R285, R286, R287, R289, R291): NOP goes on; LAYER sets the site, or skips to the next block
where no token was routed and the layer is closed, and waits while it is not; LOOP counts down and jumps back while it is not
done; WAIT goes on once its conditions hold, and waits until then; FWD_END stops at the barrier, or starts the backward half;
END ends the program once its asynchronous work and its COMBINEs are done. Any instruction marked wg is passed over in a frozen
layer, and counted (R295). -/
def Obligations.SeqControl : Prop :=
  (∀ (s : State) (p w : Nat), s.issues p 0x00 w → ∃ t, exec (.stepNop p) s = .next t ∧ s.goesOn t p ∧ t.mem = s.mem ∧
    (∀ i, preg t p i = preg s p i) ∧ ∀ q, q ≠ p → getStall t q = getStall s q) ∧
  (∀ (s : State) (p w : Nat), s.issues p 0x03 w →
    ¬ (bit w 25 = true ∧ routedCount s p (bits w 55 47) = 0) →
    ∃ t, exec (.layer p) s = .next t ∧ s.goesOn t p ∧ (getStall t p).layer = bits w 55 47 ∧
      (getStall t p).tensor = bits w 46 43 ∧ (getStall t p).expert = (if bit w 42 then some (bits w 41 26) else none) ∧
      t.mem = s.mem) ∧
  (∀ (s : State) (p w : Nat), s.issues p 0x03 w → bit w 25 = true → routedCount s p (bits w 55 47) = 0 →
    layerClosed s (bits w 55 47) = true →
    ∃ t, exec (.layer p) s = .next t ∧ t.mode = s.mode ∧ t.mem = s.mem ∧ (getStall t p).layer = (getStall s p).layer ∧
      getF t R.genStall_pc p = nextBlock (programOf s p) (insAt s p) % 2 ^ 13) ∧
  (∀ (s : State) (p w : Nat), s.issues p 0x03 w → bit w 25 = true → routedCount s p (bits w 55 47) = 0 →
    layerClosed s (bits w 55 47) = false →
    ∃ t, exec (.layer p) s = .next t ∧ getF t R.genStall_pc p = getF s R.genStall_pc p ∧ t.mem = s.mem ∧ t.mode = s.mode ∧
      (getStall t p).layer = (getStall s p).layer) ∧
  (∀ (s : State) (p w : Nat), s.issues p 0x08 w → ∃ t, exec (.loop p) s = .next t ∧ t.mode = s.mode ∧ t.mem = s.mem ∧
    getF t R.genStall_pc p = (if preg s p (bits w 55 52) ≤ 1 then insAt s p + 1 else insAt s p - bits w 16 1) % 2 ^ 13 ∧
    ∀ i, preg t p i = if i = bits w 55 52 ∧ preg s p i ≠ 0 then (preg s p i - 1) % 2 ^ 64 else preg s p i) ∧
  (∀ (s : State) (p w : Nat), s.issues p 0x09 w → waitOver (s.ended p) p w = true →
    ∃ t, exec (.wait p) s = .next t ∧ s.goesOn t p ∧ t.mem = s.mem ∧ ∀ i, preg t p i = preg s p i) ∧
  (∀ (s : State) (p w : Nat), s.issues p 0x09 w → waitOver (s.ended p) p w = false →
    ∃ t, exec (.wait p) s = .next t ∧ getF t R.genStall_pc p = getF s R.genStall_pc p ∧ t.mem = s.mem ∧ t.mode = s.mode) ∧
  (∀ (s : State) (p w : Nat), s.issues p 0x01 w → (getStall (closeAll (s.ended p) p 0) p).stop = false →
    ∃ t, exec (.fwdEnd p) s = .next t ∧ t.mode = s.mode ∧
      if inBackward (closeAll (s.ended p) p 0) = true then s.goesOn t p ∧ getF t R.genStall_pass p = 2
      else getF t R.genStall_atFwdEnd p = 1 ∧ getF t R.genStall_pc p = insAt s p) ∧
  (∀ (s : State) (p w : Nat), s.issues p 0x02 w → asyncDone (s.ended p) p = true → (getStall s p).combines = [] →
    (getStall (closeAll (s.ended p) p 1) p).stop = false →
    ∃ t, exec (.endProgram p) s = .next t ∧ t.mode = s.mode ∧ getF t R.genStall_pass p = 3 ∧
      (getStall t p).idleSince = s.now) ∧
  (∀ (s : State) (p w : Nat) (x : Nat × Instr), p < 512 → s.board.railsOn = true → canIssue s p = true →
    (programOf s p)[insAt s p]? = some w → bit w 0 = true → frozenLayer s (getStall s p).layer = true →
    x ∈ stepRows p → x.1 = insOp w →
    ∃ t, exec x.2 s = .next t ∧ s.goesOn t p ∧ t.mem = s.mem ∧ (∀ i, preg t p i = preg s p i) ∧
      (∀ i, vreg t p i = vreg s p i) ∧ getF t R.genCount_skipped p = min 0xFFFF (getF s R.genCount_skipped p + 1))

/-- The instructions on the parameter registers (R284, R287, R288): SETI and ADDI write one register, LDP loads eight bytes of
the store lowest first, STP stores them there and nowhere else; register 0 reads as zero and takes no value. -/
def Obligations.SeqParameters : Prop :=
  (∀ (s : State) (p w : Nat), s.issues p 0x04 w → ∃ t, exec (.seti p) s = .next t ∧ s.goesOn t p ∧ t.mem = s.mem ∧
    ∀ i, preg t p i = if i = bits w 55 52 ∧ i ≠ 0 then bits w 48 1 else preg s p i) ∧
  (∀ (s : State) (p w : Nat), s.issues p 0x05 w → ∃ t, exec (.addi p) s = .next t ∧ s.goesOn t p ∧ t.mem = s.mem ∧
    ∀ i, preg t p i = if i = bits w 55 52 ∧ i ≠ 0
      then (((preg s p (bits w 51 48) : Int) + toSigned 32 (bits w 32 1)) % 2 ^ 64).toNat else preg s p i) ∧
  (∀ (s : State) (p w : Nat), s.issues p 0x06 w → inStore (slotOffset s p w) 8 = true → s.brandBad = [] →
    ∃ t, exec (.ldp p) s = .next t ∧ s.goesOn t p ∧ t.mem = s.mem ∧
      ∀ i, preg t p i = if i = bits w 55 52 ∧ i ≠ 0 then readNat s (storeBase p + slotOffset s p w) 8 else preg s p i) ∧
  (∀ (s : State) (p w : Nat), s.issues p 0x07 w → inStore (slotOffset s p w) 8 = true → s.brandBad = [] →
    s.team.pages = [] →
    ∃ t, exec (.stp p) s = .next t ∧ s.goesOn t p ∧ (∀ i, preg t p i = preg s p i) ∧
      ∀ a, readByte t a = if storeBase p + slotOffset s p w ≤ a ∧ a < storeBase p + slotOffset s p w + 8
        then (leBytes 8 (preg s p (bits w 55 52))).getD (a - (storeBase p + slotOffset s p w)) 0 else readByte s a) ∧
  (∀ s p, preg s p 0 = 0)

/-- MOVE and TOP (R189, R211, R287, R289, R370): MOVE starts the stall's mover channel at the descriptor it names, once the
channel is idle; a descriptor beyond the store or (the model's choice, log entry 165) no multiple of 64 stops the stall with a
range fault; TOP hands a tile operation with at least one token to a slot that has none. The gradient engine's instructions
(R275, R276, R277, R297): MM queues its product while fewer than two are queued; TZERO, with no product still to write the bank,
makes it zero and marks an empty bank as filling; TOUT hands a bank on, to the chip or to its owner. -/
def Obligations.SeqStarts : Prop :=
  (∀ (s : State) (p w : Nat), s.issues p 0x0A w → (getChan s (64 + p)).st = 0 →
    preg s p (bits w 55 52) % 2 ^ 23 % 64 = 0 → inStore (preg s p (bits w 55 52) % 2 ^ 23) 64 = true →
    ∃ t, exec (.move p) s = .next t ∧ s.goesOn t p ∧
      getChan t (64 + p) = getChan (startChain (s.ended p) (64 + p) (preg s p (bits w 55 52) % 2 ^ 23)) (64 + p)) ∧
  (∀ (s : State) (p w : Nat), s.issues p 0x0A w → (preg s p (bits w 55 52) % 2 ^ 23 % 64 ≠ 0 ∨
      inStore (preg s p (bits w 55 52) % 2 ^ 23) 64 = false) → getF s R.genFault_valid p = 0 →
    ∃ t, exec (.move p) s = .next t ∧ (getStall t p).stop = true ∧ getF t R.genFault_status p = 3 ∧
      getF t R.genFault_detail p = preg s p (bits w 55 52) % 2 ^ 23) ∧
  (∀ (s : State) (p w : Nat) (pl : Placement), s.issues p 0x10 w → placeOf s p (topOf s p w).slot = some pl →
    (∀ x ∈ topSpans (topOf s p w) pl.twoSlice, inStore x.1 x.2 = true) →
    (topOf s p w).set = 0 ∨
      (setAgrees (getStall s p) (topOf s p w) (4 * outElems (topOf s p w).mode pl.twoSlice) = some true ∧
        alreadyMember (getStall s p) (topOf s p w) = false) →
    (∀ x ∈ (getStall s p).ops, x.slot ≠ (topOf s p w).slot) → quiesced s p (topOf s p w).slot = false →
    ((topOf s p w).onFallback = true → (getStall s p).mmq.length < 2) → (topOf s p w).n ≠ 0 →
    ∃ t, exec (.top p) s = .next t ∧ s.goesOn t p ∧ (getStall t p).ops = (getStall s p).ops ++ [topOf s p w] ∧ t.mem = s.mem) ∧
  (∀ (s : State) (p w : Nat), s.issues p 0x20 w → mmFault (mmOf s p w) = none → (getStall s p).mmq.length < 2 →
    ∃ t, exec (.mm p) s = .next t ∧ s.goesOn t p ∧ (getStall t p).mmq = (getStall s p).mmq ++ [mmOf s p w] ∧
      t.mem = s.mem) ∧
  (∀ (s : State) (p w : Nat), s.issues p 0x40 w → s.team.pages = [] →
    (∀ o ∈ (getStall s p).mmq, b2n (bit w 55) ∉ mmBanks o) →
    ∃ t, exec (.tzero p) s = .next t ∧ s.goesOn t p ∧
      bankState t p (b2n (bit w 55)) = (if bankState s p (b2n (bit w 55)) = 0 then 1 else bankState s p (b2n (bit w 55))) ∧
      ∀ a, readByte t a = if bankBase p (b2n (bit w 55)) ≤ a ∧ a < bankBase p (b2n (bit w 55)) + 0x80000 then 0
        else readByte s a) ∧
  (∀ (s : State) (p w : Nat) (pl : Placement), s.issues p 0x41 w → placeOf s p (bits w 54 50) = some pl →
    (∀ o ∈ (getStall s p).touts, o.bank ≠ b2n (bit w 55)) →
    ∃ t o, exec (.tout p) s = .next t ∧ s.goesOn t p ∧ (getStall t p).touts = (getStall s p).touts ++ [o] ∧
      o.bank = b2n (bit w 55) ∧ o.slot = bits w 54 50 ∧ o.half = b2n (bit w 49) ∧ o.since = s.now ∧ t.mem = s.mem ∧
      bankState t p (b2n (bit w 55)) = if pl.ownerStall = p ∧ pl.sumOrder = 0 then 2 else 3)

/-- QIN (R193, R246): each token's segment becomes its codes and its scale in the store, token by token. The vector unit (R280,
R281, R282, R283): VLD loads a register with a segment's exact values as FP32, VST stores a register in the form it names, VOP
writes what its operation gives for 512 lanes, VSETI one constant in every lane. -/
def Obligations.SeqVector : Prop :=
  (∀ (s : State) (p w : Nat), s.issues p 0x11 w → s.brandBad = [] →
    let a := preg s p (bits w 54 51)
    let b := preg s p (bits w 50 47)
    let els := if bit w 23 then 256 else 512
    inStore (64 * bits a 15 0) (2048 * bits a 47 32) = true → inStore (64 * bits b 15 0) (els * bits a 47 32) = true →
    inStore (64 * bits b 31 16) (4 * bits a 47 32) = true →
    ∀ l, qinTokens (s.ended p) p (64 * bits a 15 0) (bits a 31 16) (bits a 47 32) = some l →
      (∀ x ∈ l, firstBad 0 x.2 = none) →
      ∃ t, exec (.qin p) s = .next t ∧ s.goesOn t p ∧
        t.mem = ((l.mapIdx (fun i x => (i, x))).foldl (qinToken p (b2n (bit w 55)) els (siteOf (s.ended p) p (bits w 46 40))
          (bits w 39 24) (64 * bits b 15 0) (64 * bits b 31 16)) (s.ended p)).mem) ∧
  (∀ (s : State) (p w : Nat) (l : List Exact), s.issues p 0x30 w → s.brandBad = [] →
    let off := 64 * bits (preg s p (bits w 50 47)) 15 0
    inStore off (segBytes (bits w 46 43)) = true →
    decodeSeg (bits w 46 43) (readBytes s (storeBase p + off) (segBytes (bits w 46 43))) = .ok l →
    firstBad 0 (l.map exactToF32) = none →
    ∃ t, exec (.vld p) s = .next t ∧ s.goesOn t p ∧ t.mem = s.mem ∧
      ∀ i, vreg t p i = if i = bits w 55 51 then l.map exactToF32 else vreg s p i) ∧
  (∀ (s : State) (p w o : Nat), s.issues p 0x31 w →
    let a := preg s p (bits w 50 47)
    let u := s.ended p
    let x := vstBytes u (bits w 46 43) (siteOf u p (bits w 42 36)) (fun lane => srW2 o (512 * bits a 47 32 + lane))
      (vreg s p (bits w 55 51))
    inStore (64 * bits a 15 0) (vstSize u (bits w 46 43) (getStall s p).layer) = true →
    (if bits w 46 43 = 15 then some 0 else ordinalAt u p (bits a 31 16)) = some o →
    (bits w 46 43 = 15 ∨ firstBad 0 (vreg s p (bits w 55 51)) = none) →
    ∃ t, exec (.vst p) s = .next t ∧ s.goesOn t p ∧ (∀ i, vreg t p i = vreg s p i) ∧
      readBytes t (storeBase p + 64 * bits a 15 0) x.2.length = x.2) ∧
  (∀ (s : State) (p w : Nat), s.issues p 0x32 w →
    let l := vopLanes (bits w 35 30) (bits w 29 21) (vreg s p (bits w 50 46)) (vreg s p (bits w 45 41))
      (vreg s p (bits w 40 36))
    vopBad l = none →
    ∃ t, exec (.vop p) s = .next t ∧ s.goesOn t p ∧ t.mem = s.mem ∧
      ∀ i, vreg t p i = if i = bits w 55 51 then l.map (fun v => v.out) else vreg s p i) ∧
  (∀ (s : State) (p w : Nat), s.issues p 0x33 w →
    ∃ t, exec (.vseti p) s = .next t ∧ s.goesOn t p ∧ t.mem = s.mem ∧
      ∀ i, vreg t p i = if i = bits w 55 51 then List.replicate 512 (BitVec.ofNat 32 (bits w 32 1)) else vreg s p i)

/-- The instructions of expert and token travel (R309, R311, R318, R327, R328, R333): a ROUTE, DISPATCH, COMBINE or WAKE whose
descriptor and data pass every check has its effect and the stall goes on: the route list is noted, the frames are queued or the
close is sent, the targets are woken; a COMBINE whose segments are not all in waits beside the program, and one whose segments
are in writes its rows. -/
def Obligations.SeqTravel : Prop :=
  (∀ (s : State) (p w : Nat), s.issues p 0x50 w → s.brandBad = [] →
    let off := preg s p (bits w 55 52) % 2 ^ 23
    let u := s.ended p
    let b := readBytes s (storeBase p + off) 64
    let d := parseRoute b
    off % 64 = 0 → inStore off 64 = true → routeFault u p b d = none → badScore u p d = none →
    (d.kind = 0 → badGate u p d = none) →
    (d.kind ≠ 0 → blockPastEnd u p d = none ∧ ∃ a, attnOf u d.layer = some a ∧ tooMany u p d a = none) →
    ∃ t, exec (.route p) s = .next t ∧ s.goesOn t p ∧
      t.rte.lists.head? = some ⟨p, d.layer, d.out, d.kind, d.k, d.spill, d.n⟩) ∧
  (∀ (s : State) (p w : Nat), s.issues p 0x51 w → s.brandBad = [] →
    let off := preg s p (bits w 55 52) % 2 ^ 23
    let u := s.ended p
    let b := readBytes s (storeBase p + off) 64
    let d := parseSend b
    let l := rowSpans d (sendToks u p d)
    let v := if d.kind = 3 then closeLayer u p d.pass d.layer else sendAll (geReads u p l).1 p d (sendToks u p d)
    off % 64 = 0 → inStore off 64 = true → sendFault u p b d = none →
    (d.kind ≠ 3 → l.findSome? (fun x => geFault u x.1 x.2) = none ∧ l.any (fun x => linkHeld u x.1 x.2) = false ∧
      (geReads u p l).2 = true ∧ (getStall v p).stop = false) →
    ∃ t, exec (.dispatch p) s = .next t ∧ s.goesOn t p ∧ t.prt.queue = v.prt.queue ∧
      (d.kind = 1 → d.pass = 0 → t.rte.sent.head? = some (p, d.list, b))) ∧
  (∀ (s : State) (p w : Nat), s.issues p 0x52 w → s.brandBad = [] →
    let off := preg s p (bits w 55 52) % 2 ^ 23
    let b := readBytes s (storeBase p + off) 64
    let d := parseComb b
    let c : PendComb := ⟨insAt s p, w, b, s.now, false⟩
    off % 64 = 0 → inStore off 64 = true → combFault (s.ended p) p b d = none →
    counterOf s (queueIx p d.queue) < expectedSegs (s.ended p) p d (combList p d) →
    ∃ t, exec (.combine p) s = .next t ∧ s.goesOn t p ∧ (getStall t p).combines = (getStall s p).combines ++ [c] ∧
      t.mem = s.mem) ∧
  (∀ (s : State) (p w : Nat), s.issues p 0x52 w → s.brandBad = [] →
    let off := preg s p (bits w 55 52) % 2 ^ 23
    let u := s.ended p
    let b := readBytes s (storeBase p + off) 64
    let d := parseComb b
    let l := combList p d
    let c : PendComb := ⟨insAt s p, w, b, s.now, false⟩
    off % 64 = 0 → inStore off 64 = true → combFault u p b d = none →
    expectedSegs u p d l ≤ counterOf u (queueIx p d.queue) → linkHeld u d.resid (wideRow d * d.n) = false →
    (d.kind < 2 → freshCuts u (queueIx p d.queue) l = []) → (geReads u p (combSpans u p d l)).2 = true →
    combBad (geReads u p (combSpans u p d l)).1 p d l = none →
    ∃ t, exec (.combine p) s = .next t ∧ s.goesOn t p ∧ (getStall t p).combines = ((getStall s p).combines ++ [c]).erase c ∧
      t.mem = (combWrite (geReads u p (combSpans u p d l)).1 p d l).mem) ∧
  (∀ (s : State) (p w : Nat), s.issues p 0x53 w → s.brandBad = [] →
    let off := preg s p (bits w 55 52) % 2 ^ 23
    let u := s.ended p
    let b := readBytes s (storeBase p + off) 64
    let v := (wakeTargets u p b).foldl (wakeTarget p (fieldAt b 1 1) (fieldAt b 2 2)) u
    off % 64 = 0 → inStore off 64 = true → wakeFault u p b = none →
    ∃ t, exec (.wake p) s = .next t ∧ s.goesOn t p ∧ t.gov.waitq = v.gov.waitq ∧ t.prt.queue = v.prt.queue)

/-- A token of a tile operation (R192, R196, R201, R423): the working slot reads its codes and its scale; a zero token gives
zeros, any other what the array and the output stage give; with the checks passed and no summing set, its outputs stand in the
store as FP32 and the operation moves on to its next token, or ends. A token whose checks fail is held for a vote, a result that
is no number stops the stall. -/
def Obligations.TileTokens : Prop :=
  ∀ (s : State) (p slot : Nat) (o : TileOp) (scale : F32) (codes : Bytes), p < 512 → s.board.railsOn = true →
    (getStall s p).ops.find? (fun x => x.slot == slot) = some o → tokenReady s p o = true → o.onFallback = false →
    posOf (getStall s p) slot ∉ (getStall s p).bad → s.brandBad = [] → o.set = 0 →
    let two := ((placeOf s p o.slot).map (fun r => r.twoSlice)).getD false
    let t0 := posOf (getStall s p) slot
    (tokenIn s p o two).2 = some (scale, codes) → ffinite scale = true →
    let zeros := List.replicate (outElems o.mode two) (0 : F32)
    let u := noteClamped s p t0 o.mode (countIf codes (fun b => b.toInt == -128))
    let r := (runToken u (tileIx p t0) o.mode two (codes.map driveCode) scale).2
    ∃ t, exec (.tileOpComplete p slot) s = .next t ∧ t.mode = s.mode ∧
      let released := fun outs : List F32 =>
        readBytes t (storeBase p + o.out + 4 * outs.length * o.next) (4 * outs.length) = f32Bytes outs ∧
          (if o.next + 1 = o.n then (∀ x ∈ (getStall t p).ops, x.slot ≠ slot) ∧ getF t R.tilStatus_busy (tileIx p t0) = 0
           else { o with next := o.next + 1 } ∈ (getStall t p).ops)
      if fzero? scale = true ∨ codes.all (fun b => b == 0) = true then released zeros
      else if r.fails ≠ [] then (getStall t p).votes.length = (getStall s p).votes.length + 1
      else match firstBad 0 r.outs with
        | some _ => (getStall t p).stop = true
        | none => released r.outs

/-- A summing set's write (R211, R269, R282): the outputs of its members for one token are summed in slot order; the sum stands
in the store and nothing else there changes, the buffers are free again, and the set moves on to its next token, or ends; a sum
that is no number stops the stall. The votes (R424, R426, R427). The oldest vote of a stall on a tile waits for its level
record; with the record in and readable it is decided: one vote more is counted, by its outcome, the tile's last loss is noted,
the vote is gone, and the outputs of the side that holds (the record's own where the worker lost) are released, or stop the
stall where one is no number; a record that cannot be read leaves no majority, and the stall stops. A vote on an output tile of
the gradient engine is decided by its second computation: the results that hold are written and the vote is gone, and with
neither result holding the stall stops; a fallback token's vote likewise. What is said here of a vote decided is said while no
second strike fails the unit. -/
def Obligations.SumsAndVotes : Prop :=
  (∀ (s : State) (p set : Nat) (x : SumSet), p < 512 → s.board.railsOn = true →
    (getStall s p).sets.find? (fun y => y.set == set) = some x → working s p = true → x.run < (getStall s p).run →
    x.members ≠ [] → (∀ m ∈ x.members, (tget? (getStall s p).bufs (bufKey m x.set x.next)).isSome = true) →
    let sum := sumOuts (x.members.filterMap (fun m => tget? (getStall s p).bufs (bufKey m x.set x.next)))
    ∃ t, exec (.sumWrite p set) s = .next t ∧ t.mode = s.mode ∧
      match firstBad 0 sum with
      | some _ => (getStall t p).stop = true
      | none =>
        readBytes t (storeBase p + x.out + x.osize * x.next) (4 * sum.length) = f32Bytes sum ∧
        (s.team.pages = [] → ∀ a, (a < storeBase p + x.out + x.osize * x.next ∨
          storeBase p + x.out + x.osize * x.next + 4 * sum.length ≤ a) → readByte t a = readByte s a) ∧
        (∀ m ∈ x.members, tget? (getStall t p).bufs (bufKey m x.set x.next) = none) ∧
        if x.next + 1 = x.n then ∀ y ∈ (getStall t p).sets, y.set ≠ set
        else { x with next := x.next + 1 } ∈ (getStall t p).sets) ∧
  (∀ (s : State) (p : Nat) (v : TileVote) (l : List TileVote) (o : TileOp) (pl : Placement), p < 512 →
    s.board.railsOn = true → (getStall s p).votes = v :: l →
    (getStall s p).ops.find? (fun x => x.slot == v.slot) = some o → working s p = true →
    voteFirst (getStall s p) v.no = true → placeOf s p v.slot = some pl →
    let base := levelAddr s pl
    let tile := tileIx p v.tile
    if loaded s (loadKey 3 p v.slot) = false then exec (.tileVoteDecided p) s = .next s
    else if poisoned s base recordSize = [] then
      let u := (loftRead (dropLoad s (loadKey 3 p v.slot)) base recordSize).1
      let row := fun r => recordRow u base r
      let c := voteOutcome u v tile row pl.twoSlice
      let outs := if c = 1 ∨ c = 2 then exactOutputs row v.mode pl.twoSlice (wstepOf u tile) v.scale v.codes else v.outs
      (c = 3 ∨ getF s R.brdTile_state tile ≠ 1) →
      ∃ t, exec (.tileVoteDecided p) s = .next t ∧ t.mode = s.mode ∧ (getStall t p).votes = l ∧
        getF t R.brdVoteLast_outcome 0 = c ∧
        getF t R.brdCount_votes 0 = min 0xFFFF (getF s R.brdCount_votes 0 + 1) ∧
        getF t R.brdCount2_checkerLost 0 = min 0xFFFF (getF s R.brdCount2_checkerLost 0 + b2n (c == 0)) ∧
        getF t R.brdCount2_workerLost 0 = min 0xFFFF (getF s R.brdCount2_workerLost 0 + b2n (c == 1)) ∧
        getF t R.brdCount2_marginal 0 = min 0xFFFF (getF s R.brdCount2_marginal 0 + b2n (c == 3)) ∧
        (c ≠ 3 → getF t R.brdTile_lastLoss tile = [2, 1, 3].getD c 0) ∧
        match firstBad 0 outs with
        | some _ => (getStall t p).stop = true
        | none =>
          let at_ := storeBase p + o.out + 4 * outs.length * o.next
          if o.set = 0 then s.team.pages = [] → (∀ i, i < 4 * outs.length → s.eventsOff (at_ + i)) →
            readBytes t at_ (4 * outs.length) = f32Bytes outs
          else tget? (getStall t p).bufs (bufKey o.slot o.set o.next) = some outs
    else
      ∃ t, exec (.tileVoteDecided p) s = .next t ∧ t.mode = s.mode ∧ (getStall t p).votes = l ∧
        (getStall t p).stop = true ∧ getF t R.brdVoteLast_outcome 0 = 4 ∧
        getF t R.brdCount_noMajority 0 = min 0xFFFF (getF s R.brdCount_noMajority 0 + 1)) ∧
  (∀ (s : State) (p : Nat) (g : GeVote) (l : List GeVote) (faults : List MacFault), p < 512 →
    s.board.railsOn = true → (getStall s p).geVotes = g :: l → working s p = true → voteFirst (getStall s p) g.no = true →
    getF s R.brdStall_geState p ≠ 1 → g.tok = none →
    ∃ t, exec (.geVoteDecided p faults) s = .next t ∧ t.mode = s.mode ∧ (getStall t p).geVotes = l ∧
      (getStall t p).mmq = (if l = [] then (getStall s p).mmq.drop 1 else (getStall s p).mmq) ∧
      match formAcc s p g.op [] with
      | .error _ => (getStall t p).stop = true
      | .ok m =>
        let acc := recomputed m g faults
        let accI := recomputedI m g faults
        let same := acc == g.acc && accI == g.accI
        let passes := if g.op.aFmt = 8 then (failColsI g.tileM g.tileN m.ai m.bi accI).isEmpty
          else (failCols s g.op.k g.tileM g.tileN m.a m.b acc).isEmpty
        let vals := tileRows s p g.op g.tileM g.tileN acc accI
        if same = false ∧ passes = false then
          (getStall t p).stop = true ∧ getF t R.brdVoteLast_outcome 0 = 4 ∧
            getF t R.brdCount_noMajority 0 = min 0xFFFF (getF s R.brdCount_noMajority 0 + 1)
        else getF t R.brdVoteLast_outcome 0 = (if same then 0 else 1) ∧
          getF t R.brdCount_votes 0 = min 0xFFFF (getF s R.brdCount_votes 0 + 1) ∧
          if badDest g.op vals ≠ none then (getStall t p).stop = true else s.team.pages = [] →
            ∀ a, s.eventsOff a → readByte t a = readByte (writeTile s p g.op vals) a) ∧
  (∀ (s : State) (p i : Nat) (g : GeVote) (l : List GeVote) (o : TileOp) (b : Bytes) (faults : List MacFault), p < 512 →
    s.board.railsOn = true → (getStall s p).geVotes = g :: l → working s p = true → voteFirst (getStall s p) g.no = true →
    getF s R.brdStall_geState p ≠ 1 → g.tok = some o → fallbackOf s p o.slot = some i →
    (readChecked s 0 (cStall p) (storeBase p + o.scale + 4 * o.next) 4) = (s, some b) →
    let two := ((placeOf s p o.slot).map (fun r => r.twoSlice)).getD false
    let row := fun r => recordRow s (imageBase p i) r
    let outs := fallbackOuts row o.mode two (wstepOf s (tileIx p (posOf (getStall s p) o.slot)))
      (BitVec.ofNat 32 (leNat b)) (g.accI.headD []) faults
    let same := outs == g.acc.headD []
    ∃ t, exec (.geVoteDecided p faults) s = .next t ∧ t.mode = s.mode ∧ (getStall t p).geVotes = l ∧
      if same = false ∧ wrongSums row o.mode two (g.accI.headD []) faults ≠ [] then
        (getStall t p).stop = true ∧ getF t R.brdVoteLast_outcome 0 = 4
      else getF t R.brdVoteLast_outcome 0 = (if same then 0 else 1) ∧
        match firstBad 0 outs with
        | some _ => (getStall t p).stop = true
        | none => o.set = 0 →
            readBytes t (storeBase p + o.out + 4 * outs.length * o.next) (4 * outs.length) = f32Bytes outs)

/-- A matrix product's end (R276 to R280, R423): its accumulators are formed in the order of R277; with every column within its
bound and every result a number, the tiles stand at their places and the product leaves the queue; a column past its bound holds
its tile for a vote; an operand or result that is no number stops the stall. -/
def Obligations.ProductDone : Prop :=
  ∀ (s : State) (p : Nat) (o : MMOp) (l : List MMOp) (faults : List MacFault), p < 512 → s.board.railsOn = true →
    (getStall s p).mmq = o :: l → working s p = true → (getStall s p).geVotes = [] → o.kind ≠ 4 → s.brandBad = [] →
    let u := bumpF s R.genCount_mmCycles p (mmCycles o (getStall s p).moved)
    ∃ t, exec (.mmComplete p faults) s = .next t ∧ t.mode = s.mode ∧
      match formAcc u p o faults with
      | .error _ => (getStall t p).stop = true
      | .ok v =>
        let bad := (mmTiles o).filter (fun x => !(tileFails u o v x.1 x.2).isEmpty)
        let good := (mmTiles o).filter (fun x => (tileFails u o v x.1 x.2).isEmpty)
        let vals := good.flatMap (fun x => tileRows u p o x.1 x.2 (tileAt v.acc x.1 x.2) (tileAt v.accI x.1 x.2))
        if badDest o vals ≠ none then (getStall t p).stop = true
        else if bad = [] then (getStall t p).mmq = l ∧ t.mem = (writeTile u p o vals).mem
        else (getStall t p).geVotes.length = bad.length ∧ (getStall t p).mmq = o :: l

/-- The two halves of a step (R290, R291, R292, R293): with every bound stall at its barrier and nothing on the way, the
backward half begins and, with no frame held, a waiting stall goes on past FWD_END; a barrier that waits past fwd_alarm_us is
reported once; with the backward half over, the update begins. UPD_CHIP_DONE (R361, R364, R367): the chip's delta quarter stands
in memory, where nothing else but the event ring changes, the chip shows done, and once every chip is done the update is over
and the gate window opens, unless it is held; over a link that retrains nothing ends. -/
def Obligations.StepHalves : Prop :=
  (∀ s : State, s.board.railsOn = true → barrierMet s = true →
    ∃ t, exec .backwardBegin s = .next t ∧ t.mode = .running ∧
      (s.rte.held = [] → (∀ p ∈ boundStalls s, p < 512) →
        getF t R.genPass_pass = 2 ∧
        getF t R.genPass_fwdTicks = min (2 ^ 32 - 1) (s.now - getF s R.gteCommitTime_watch) ∧
        ∀ p ∈ boundStalls s, getF t R.genStall_atFwdEnd p = 0)) ∧
  (∀ s : State, s.board.railsOn = true → barrierMet s = false → exec .backwardBegin s = .next s) ∧
  (∀ (s : State) (a : Nat), s.board.railsOn = true → s.job.firstArrival = some a → getF s R.genPass_pass = 1 →
    a + 25 * getF s R.genCtl_fwdAlarmUs ≤ s.now →
    ∃ t, exec .forwardBarrierSlow s = .next t ∧ t.mode = s.mode ∧ t.stalls = s.stalls ∧ (0x7004, 0) ∈ t.once ∧
      exec .forwardBarrierSlow t = .next t) ∧
  (∀ s : State, s.board.railsOn = true → backwardOver s = true → s.upd.poison = [] →
    ∃ t, exec .backwardComplete s = .next t ∧ t.mode = .running ∧ getF t R.genPass_pass = 3 ∧
      getF t R.updStatus_phase = 2 ∧ t.upd.startTick = s.now) ∧
  (∀ s : State, s.board.railsOn = true → backwardOver s = false → exec .backwardComplete s = .next s) ∧
  (∀ (s : State) (z : Nat), z < 4 → s.board.railsOn = true → s.mode = .running → (getChip s z).active = true →
    (getChip s z).unit = none → (getChip s z).units = [] →
    if linkDown s z = true then exec (.updChipDone z) s = .next s
    else
      ∃ t, exec (.updChipDone z) s = .next t ∧ (getChip t z).active = false ∧ getF t R.updChip_state z = 4 ∧
        bit (getF t R.updStatus_chipsDone) z = true ∧
        (s.team.pages = [] → ∀ a, s.eventsOff a →
          readByte t a = readByte (write s (quarterBase s z) (quarterImage s (getChip s z))) a) ∧
        if allChipsDone t = true then getF t R.updStatus_phase = 3 ∧ t.mode = (if s.job.gateHold then .running else .gate)
        else t.mode = .running)

/-- An owner's pull of a contribution (R269, R297, R298): its rows, rounded as R298 says, are added to the owner's bank, the
contributor's bank is free, and the owner's next contributor follows; a row that is no number stops a stall and leaves the banks
as they were. Each handed bank whose partial is waited for past partial_alarm_us is reported, once. TOUT_LINE_STAGED (R297,
R338, R348): the next line of a bank on its way is staged, in a wide job its 64 bytes as they are; after its last line the bank
is free and its hand-over is done; a line that stops the stall stays where it is, and no line crosses a link that retrains. -/
def Obligations.PartialPulls : Prop :=
  (∀ (s : State) (p : Nat) (o c : ToutOp) (pl x : Placement), p < 512 → s.board.railsOn = true → pullOp s p = some o →
    placeOf s p o.slot = some pl → working s p = true → nextPull s pl o = some x → offered s x o.half = some c →
    working s x.stall = true → s.brandBad = [] → c.bank < 2 → o.bank < 2 → (x.stall = p → c.bank ≠ o.bank) →
    ∃ t, exec (.troughPartialPull p) s = .next t ∧ t.mode = s.mode ∧
      match pullRows p o pl x c 256 0 s with
      | .ok q =>
        t.mem = (q.2.foldl (fun u y => write u (bankBase p o.bank + 2048 * y.1) y.2) q.1).mem ∧
          bankState t x.stall c.bank = 0 ∧ (∀ y ∈ (getStall t x.stall).touts, y.bank ≠ c.bank) ∧
          ∃ y ∈ (getStall t p).touts, y.bank = o.bank ∧ y.order = x.sumOrder + 1
      | .error _ => ((getStall t p).stop = true ∨ (getStall t x.stall).stop = true) ∧
          (s.team.pages = [] → ∀ a, s.eventsOff a → readByte t a = readByte s a)) ∧
  (∀ (s : State) (p : Nat), p < 512 → s.board.railsOn = true →
    ∃ t, exec (.partialWait p) s = .next t ∧ t.mode = s.mode ∧ t.stalls = s.stalls ∧
      exec (.partialWait p) t = .next t ∧
      let due := fun (o : ToutOp) => ((placeOf s p o.slot).bind (fun pl => nextPull s pl o)).isSome = true ∧
        o.since + 25 * getF s R.genCtl_partialAlarmUs ≤ s.now
      (∀ o ∈ pullOps s p, due o → (0x7005, 32 * p + o.slot) ∈ t.once) ∧
      ((∀ o ∈ pullOps s p, ¬ due o) → t = s)) ∧
  (∀ (s : State) (p bank slot half line : Nat) (o : ToutOp) (pl : Placement), p < 512 → s.board.railsOn = true →
    working s p = true → s.upd.lines.find? (fun l => l.1 == p) = some (p, bank, slot, half, line) →
    (getStall s p).touts.find? (fun x => x.bank == bank) = some o → placeOf s p slot = some pl → bank < 2 →
    if linkDown s (chipOf pl.loftAddr) = true then exec (.toutLineStaged p) s = .next s
    else
      let u := stageLine s p bank slot half line o pl
      ∃ t, exec (.toutLineStaged p) s = .next t ∧ t.mode = s.mode ∧
        if (getStall u p).stop = true then (getStall t p).stop = true ∧ t.upd.lines = s.upd.lines
        else
          let cols := if pl.twoSlice then 256 else 512
          let prog := progSlots s pl.updateProgram
          (narrow s = false → line ≠ 0 → s.brandBad = [] →
            readBytes t (planeAddr (planeIn prog 5) (firstSlot prog pl.loftAddr + 256 * cols * half + 16 * line)) 64 =
              readBytes s (bankBase p bank + 2048 * (16 * line / cols) + 4 * (16 * line % cols)) 64) ∧
          if (if narrow s then 128 else 64) * (line + 1) < bankLen pl.twoSlice then
            (p, bank, slot, half, line + 1) ∈ t.upd.lines
          else (∀ l ∈ t.upd.lines, ¬ (l.1 = p ∧ l.2.1 = bank)) ∧ (∀ x ∈ (getStall t p).touts, x.bank ≠ bank) ∧
            bankState t p bank = 0)

/-- Frames of experts and queries (R316, R320, R322, R329): an admitted token of a DISPATCH, QUERY or SUMMARY frame adds its
segments to its slot, a slot with all of its segments is filled, and an expert's metadata is written; a choice beyond the home's
capacity is cut once: counted, reported, and its slot empty. -/
def Obligations.TokenSlots : Prop :=
  (∀ (s : State) (f : TokFrame) (e : TokEntry), s.admits f 1 → (s.lifted f).atWork f → f.table = [e] →
    bit f.flags 1 = false → s.brandBad = [] →
    let u := s.lifted f
    let ix := frameQueue f
    let got := slotSt u ix e.w8 % 2 ^ 32 + f.segCount
    let at_ := (queueOf u ix).metaAddr + 32 * e.w8
    ∃ t, exec (.dispatchFrame f) s = .next t ∧ t.mode = s.mode ∧
      if capacity u f.target ≤ e.w8 then
        if slotDone u ix e.w8 = true then t.rte.cuts = u.rte.cuts
        else tget 0 t.rte.cuts f.target = tget 0 u.rte.cuts f.target + 1 ∧ slotDone t ix e.w8 = true ∧
          (0x8005, f.layer) ∈ t.once
      else got < 2 ^ 32 →
        slotSt t ix e.w8 % 2 ^ 32 = got ∧ ((queueOf u ix).segs ≤ got → slotFilled t ix e.w8 = true) ∧
        (s.team.pages = [] → (∀ i < 32, s.eventsOff (at_ + i)) →
          readBytes t at_ 32 = metaBytes e.w8 e.ordinal e.posRank e.wC f.srcModule f.srcStall
            f.returnQueue (b2n (decide ((queueOf u ix).segs ≤ got))))) ∧
  (∀ (s : State) (f : TokFrame) (e : TokEntry), s.admits f 6 → (s.lifted f).atWork f → f.table = [e] →
    bit f.flags 1 = false → s.brandBad = [] →
    let u := s.lifted f
    let ix := frameQueue f
    let got := slotSt u ix e.w8 % 2 ^ 32 + f.segCount
    let rows := ((attnOf u f.layer).map (fun a => 2 ^ a.qLog2)).getD 1
    got < 2 ^ 32 →
    ∃ t, exec (.queryFrame f) s = .next t ∧ t.mode = s.mode ∧ slotSt t ix e.w8 % 2 ^ 32 = got ∧
      ((queueOf u ix).segs * rows ≤ got → slotFilled t ix e.w8 = true)) ∧
  (∀ (s : State) (f : TokFrame) (e : TokEntry), s.admits f 5 → (s.lifted f).atWork f → f.table = [e] →
    bit f.flags 1 = false → s.brandBad = [] →
    let u := s.lifted f
    let ix := frameQueue f
    let got := slotSt u ix e.ordinal % 2 ^ 32 + f.segCount
    ∃ t, exec (.summaryFrame f) s = .next t ∧ t.mode = s.mode ∧
      slotSt t ix e.ordinal = got + (if (queueOf u ix).segs ≤ got then 2 ^ 32 else 0))

/-- Frames that come back (R316, R322): an admitted token of a RETURN or PARTIAL frame raises its queue's counter by the
segments it brings, and, with no COMBINE of its stall waiting, its bytes stand in its row and every other byte of memory but the
event ring's stays; a RETURN of a choice that was cut raises the counter by the row's segments and is noted. -/
def Obligations.TokenReturns : Prop :=
  (∀ (s : State) (f : TokFrame) (e : TokEntry), s.admits f 2 → (s.lifted f).atWork f → f.table = [e] →
    bit f.flags 1 = false → s.brandBad = [] →
    let u := s.lifted f
    let ix := frameQueue f
    let q := queueOf u ix
    let n := if bit f.flags 2 then q.segs else f.segCount
    ∃ t, exec (.returnFrame f) s = .next t ∧ t.mode = s.mode ∧
      counterOf t ix = (if n = 0 then counterOf u ix else (counterOf u ix + n) % 2 ^ 32) ∧
      ((getStall u f.dstStall).combines = [] →
        if bit f.flags 2 = true then tget 0 t.rte.cutBack f.target = tget 0 u.rte.cutBack f.target + 1 ∧
          t.rte.cutEntries.any (fun c => c.queue == ix && c.slot == e.w8) = true
        else
          let at_ := q.base + e.w8 * rowBytes q 0 + f.segFirst * segBytes q.format
          let b := (tokenBytes f 0).1
          s.team.pages = [] → ∀ a, s.eventsOff a →
            readByte t a = if at_ ≤ a ∧ a < at_ + b.length then b.getD (a - at_) 0 else readByte s a)) ∧
  (∀ (s : State) (f : TokFrame) (e : TokEntry), s.admits f 7 → (s.lifted f).atWork f → f.table = [e] →
    bit f.flags 1 = false → s.brandBad = [] →
    let u := s.lifted f
    let ix := frameQueue f
    ∃ t, exec (.partialFrame f) s = .next t ∧ t.mode = s.mode ∧
      counterOf t ix = (if f.segCount = 0 then counterOf u ix else (counterOf u ix + f.segCount) % 2 ^ 32) ∧
      ((getStall u f.dstStall).combines = [] → s.team.pages = [] →
        ∀ a, s.eventsOff a → readByte t a = readByte (putRow u f (queueOf u ix) e.w8 0) a))

/-- CLOSE, WAKE and REFUSE frames (R319, R321, R332, R335): an admitted close of a source of the layer is recorded, a new one of
the forward pass for a layer this module serves is counted, one behind frames that wait for their stall waits too, and one that
is no source's does nothing. A wake-ahead renews the linger of a stall that is not disabled, and a stall at rest with none gets
a request for it; for an expert, every stall of its home is running or asked for. A REFUSE stops the stall it goes to, or waits
while that rests, with a request for it. The alarms of a travel that waits (R326, R328, R335): of the COMBINEs of a stall that
wait past combine_alarm_us the first not yet reported is reported, by event 0x8007 with its layer and the segments still
missing; the closes still to come past close_alarm_us once for each layer, by event 0x8008; otherwise nothing happens. -/
def Obligations.TokenSignals : Prop :=
  (∀ (s : State) (f : TokFrame), s.admits f 3 →
    let u := s.lifted f
    let c : CloseRec := ⟨f.flags % 2, f.layer, f.srcModule, f.srcStall⟩
    ∃ t, exec (.closeFrame f) s = .next t ∧ t.mode = s.mode ∧
      if behindLate u f = true then t.rte.late = u.rte.late ++ [(0xFFFF, { f with rx := none })] ∧ t.rte.closes = u.rte.closes
      else if (sources u f.srcModule f.layer).contains f.srcStall = true then
        c ∈ t.rte.closes ∧
        (f.flags % 2 = 0 → c ∉ u.rte.closes → (servedLayers u).contains f.layer = true →
          getF t R.rteClose_received = min (2 ^ R.rteClose_received.width - 1) (getF u R.rteClose_received + 1))
      else t = u) ∧
  (∀ (s : State) (f : TokFrame), s.admits f 4 →
    let u := s.lifted f
    let d := getStall u f.dstStall
    ∃ t, exec (.wakeFrame f) s = .next t ∧ t.mode = s.mode ∧ t.mem = s.mem ∧
      if (expertAt u f.target f.dstStall && ((attnOf u f.layer).isNone || !keyAt u f.layer f.target f.dstStall)) = true then
        ∀ h, homeOf u f.target = some h → ∀ p ∈ intakeStalls u h, (getStall t p).st = .disabled ∨
          isRunning (getStall t p) = true ∨ (getStall t p).granted = true ∨ t.gov.waitq.any (fun q => q.stall == p) = true
      else if d.st = .disabled then t = u
      else (getStall t f.dstStall).linger = some s.now ∧
        t.gov.waitq = if isRunning d = true ∨ d.granted = true ∨ u.gov.waitq.any (fun q => q.stall == f.dstStall) = true
          then u.gov.waitq else insertWake u.gov.waitq ⟨f.dstStall, s.now, .ahead, false, false⟩) ∧
  (∀ (s : State) (f : TokFrame), s.admits f 8 →
    let u := s.lifted f
    ∃ t, exec (.refuseFrame f) s = .next t ∧ t.mode = s.mode ∧
      if isResting (getStall u f.dstStall) = true then
        t.rte.late = u.rte.late ++ [(f.dstStall, { f with rx := none })] ∧
          ((getStall t f.dstStall).granted = true ∨ t.gov.waitq.any (fun q => q.stall == f.dstStall) = true)
      else (getStall t f.dstStall).stop = true ∧ t.job.gateHold = true) ∧
  (∀ (s : State) (p : Nat), p < 512 → s.board.railsOn = true →
    match (getStall s p).combines.find? (fun c =>
      !c.alarmed && decide (c.since + 25 * getF s R.rteCtl_combineAlarmUs ≤ s.now)) with
    | none => exec (.combineWait p) s = .next s
    | some c =>
      let d := parseComb c.desc
      let l := combList p d
      ∃ t, exec (.combineWait p) s = .next t ∧ t.mode = s.mode ∧
        t = raise { s with stalls := t.stalls } 0x8007 (cStall p) d.layer
          (expectedSegs s p d l - counterOf s (queueIx p d.queue)) ∧
        (getStall t p).combines = (getStall s p).combines.map (fun x => if x = c then { x with alarmed := true } else x) ∧
        ∀ q, q ≠ p → getStall t q = getStall s q) ∧
  (∀ (s : State) (a l : Nat), s.board.railsOn = true → s.rte.firstClose = some a →
    onF s R.rteClose_dispatchClosed = false → a + 25 * getF s R.rteCtl_closeAlarmUs ≤ s.now →
    (servedLayers s).find? (fun l => !allClosed s 0 l && !s.once.contains (0x8008, l)) = some l →
    ∃ t m, exec .closeWait s = .next t ∧ t.mode = s.mode ∧ t.stalls = s.stalls ∧ (0x8008, l) ∈ t.once ∧
      t = raiseOnce s 0x8008 l cPkg l m ∧ m < modules s ∧
      (sources s m l).all (fun p => s.rte.closes.contains ⟨0, l, m, p⟩) = false) ∧
  (∀ s : State, s.board.railsOn = true → (s.rte.firstClose = none ∨ onF s R.rteClose_dispatchClosed = true ∨
    (∀ a, s.rte.firstClose = some a → s.now < a + 25 * getF s R.rteCtl_closeAlarmUs) ∨
    ∀ l ∈ servedLayers s, allClosed s 0 l = true ∨ (0x8008, l) ∈ s.once) → exec .closeWait s = .next s)

/-- The slots of an update program (R345, R346, R350, R352, R354): PLN declares a plane, CTX the context of the rounding
numbers, a vector slot writes its register from the sources it names, STW and STS put a register's lanes aside for the vector's
end; the chip then goes on to its next slot. -/
def Obligations.UpdateSlots : Prop :=
  (∀ (s : State) (z w : Nat) (u : UpdUnit), s.atSlot z 1 u w →
    exec (.pln z) s = .next (advanceChip (setChip s z { getChip s z with
      planes := tset (getChip s z).planes (bits w 55 52) ⟨bits w 51 48, bit w 47, bits w 24 0 * 65536⟩ }) z u)) ∧
  (∀ (s : State) (z w : Nat) (u : UpdUnit), s.atSlot z 2 u w →
    exec (.ctx z) s = .next (advanceChip (setChip s z { getChip s z with
      ctx := some (bits w 55 47, bits w 46 43, bits w 42 36) }) z u)) ∧
  (∀ (s v : State) (z w : Nat) (u : UpdUnit) (ls : List (List F32)), s.atSlot z 3 u w →
    allLanes z u ((getChip s z).vec.getD 0) (getChip s z).slot (opSources w) s = (v, some ls) →
    ls.findSome? badLane = none →
    let l := opLanes v (opKind w) (if (getChip s z).vec.isNone then 1 else unitLanes v u ((getChip s z).vec.getD 0)) ls
    badLane l = none →
    let v1 := bumpF v R.updChip_cycles z (opCycles w (getChip s z).vec.isNone)
    let v2 := if opKind w = 10 then draw v1 else v1
    exec (.updateOp z) s = .next (advanceChip (setChip v2 z { getChip v2 z with
      uregs := tset (getChip v2 z).uregs (getChip s z).slot l }) z u)) ∧
  (∀ (s v : State) (z w : Nat) (u : UpdUnit) (l : List F32), s.atSlot z 4 u w →
    srcLanes s z u ((getChip s z).vec.getD 0) (getChip s z).slot (srcA w) = (v, some l) → badLane l = none →
    let v1 := bumpF v R.updChip_cycles z 1
    let vals := (List.range (unitLanes v1 u ((getChip s z).vec.getD 0))).map (laneOf l)
    exec (.stw z) s = .next (advanceChip (setChip v1 z { getChip v1 z with
      stores := (getChip v1 z).stores ++ [(0, bits w 6 0, vals)] }) z u)) ∧
  (∀ (s v : State) (z w : Nat) (u : UpdUnit) (l : List F32), s.atSlot z 5 u w →
    srcLanes s z u ((getChip s z).vec.getD 0) (getChip s z).slot (srcA w) = (v, some l) → badLane l = none →
    let v1 := bumpF v R.updChip_cycles z 1
    let vals := (List.range (unitLanes v1 u ((getChip s z).vec.getD 0))).map (laneOf l)
    exec (.sts z) s = .next (advanceChip (setChip v1 z { getChip v1 z with
      stores := (getChip v1 z).stores ++ [(1 + bits w 55 54, bits w 6 0, vals)] }) z u)) ∧
  (∀ (s : State) (z k : Nat) (u : UpdUnit),
    nextSlot (progSlots s u.prog) (getChip s z).vec.isNone ((getChip s z).slot + 1) = some k →
    advanceChip s z u = setChip s z { getChip s z with slot := k })

/-- The rows that decide when a tile is trimmed (R219 to R222, R226): the oldest full window of a tile's tracker is judged and
gone; it keeps the measured change and forces a trim where it is past drift_ppm; age or phases make a trim due, the grace or new
traffic forces it; one forced for 10 ms without a trim is overdue, once. Trims (R222, R224, R227, R228): an idle tile whose trim
is due begins one; a trim that ends within its bounds starts the tile's age again, a trim out of them fails the tile. -/
def Obligations.Trims : Prop :=
  (∀ (s : State) (p t xx : Nat) (xy : Int), p < 512 → t < 34 → s.board.railsOn = true →
    (tget Drift.reset s.cal.drift (tileIx p t)).full.head? ≠ some (xy, xx) → exec (.driftWindowDone p t xy xx) s = .next s) ∧
  (∀ (s : State) (p t xx : Nat) (xy : Int) (l : List (Int × Nat)), p < 512 → t < 34 → s.board.railsOn = true →
    (tget Drift.reset s.cal.drift (tileIx p t)).full = (xy, xx) :: l → trimmable s p t = true → xx ≠ 0 →
    0 < (tget (1, 1) s.cal.gRef (tileIx p t)).1 →
    let d := driftPpm xy xx (tget (1, 1) s.cal.gRef (tileIx p t))
    d ≤ 524287 → -524288 ≤ d →
    ∃ u, exec (.driftWindowDone p t xy xx) s = .next u ∧ u.mode = s.mode ∧
      (tget Drift.reset u.cal.drift (tileIx p t)).full = l ∧
      getF u R.calTileStat_deltaPpm (tileIx p t) = (d % 2 ^ 20).toNat ∧
      (driftPast xy xx (tget (1, 1) s.cal.gRef (tileIx p t)) (getF s R.calCtl_driftPpm) = true →
        onF u R.calTileAge_forced (tileIx p t) = true)) ∧
  (∀ (s : State) (p t : Nat), p < 512 → t < 34 → s.board.railsOn = true → trimmable s p t = true →
    (25000 * getF s R.calCtl_trimMs ≤ trimAge s (tileIx p t) ∨
      2 ^ getF s R.calCtl_trimPhasesLog2 ≤ getF s R.calTileAge_phases (tileIx p t)) →
    ∃ u, exec (.retrimDue p t) s = .next u ∧ u.mode = s.mode ∧ u.mem = s.mem ∧
      onF u R.calTileAge_due (tileIx p t) = true) ∧
  (∀ (s : State) (p t c : Nat), p < 512 → t < 34 → s.board.railsOn = true → trimmable s p t = true →
    onF s R.calTileAge_due (tileIx p t) = true → forceCause s p t = some c →
    ∃ u, exec (.retrimForced p t) s = .next u ∧ u.mode = s.mode ∧ onF u R.calTileAge_forced (tileIx p t) = true) ∧
  (∀ (s : State) (p t : Nat), p < 512 → t < 34 → s.board.railsOn = true →
    onF s R.calTileAge_forced (tileIx p t) = true → onF s R.calTileAge_overdue (tileIx p t) = false →
    tget s.now s.cal.forcedAt (tileIx p t) + 250000 ≤ s.now →
    ∃ u, exec (.trimOverdue p t) s = .next u ∧ u.mode = s.mode ∧ onF u R.calTileAge_overdue (tileIx p t) = true ∧
      exec (.trimOverdue p t) u = .next u) ∧
  (∀ (s : State) (p t : Nat), p < 512 → t < 34 → s.board.railsOn = true → trimmable s p t = true →
    onF s R.calTileAge_due (tileIx p t) = true → ((getStall s p).st = .awake ∨ (getStall s p).st = .retrim) →
    tileIdle s p t = true → (∀ f ∈ s.cal.fills, f.stall = p → f.fromTile ≠ t ∧ f.toTile ≠ t) →
    (∀ q ∈ s.cal.trimming, q.1 ≠ tileIx p t) → writePending s p t = false →
    ∃ u, exec (.idleRetrimStart p t) s = .next u ∧ u.cal.trimming = s.cal.trimming ++ [(tileIx p t, 0)] ∧
      u.mode = s.mode ∧ u.mem = s.mem ∧ u.reg = s.reg) ∧
  (∀ (s : State) (p t : Nat) (m : TrimMeas), p < 512 → t < 34 → s.board.railsOn = true →
    s.cal.trimming.find? (fun q => q.1 == tileIx p t) = some (tileIx p t, 0) → isRunning (getStall s p) = true →
    ∃ u, exec (.trimDone p t m) s = .next u ∧ u.mode = s.mode ∧
      if trimFault m = 0 then
        (∀ q ∈ u.cal.trimming, q.1 ≠ tileIx p t) ∧ tget? u.cal.trimmed (tileIx p t) = some s.now ∧ onF u R.calTileAge_due (tileIx p t) = false ∧
          onF u R.calTileAge_forced (tileIx p t) = false ∧ onF u R.calTileAge_overdue (tileIx p t) = false
      else t ∈ (getStall u p).bad) ∧
  (∀ (s : State) (p t kind : Nat) (m : TrimMeas), p < 512 → t < 34 → s.board.railsOn = true →
    s.cal.trimming.find? (fun q => q.1 == tileIx p t) = some (tileIx p t, kind) → isRunning (getStall s p) = true →
    exec (.trimDone p t m) s = .next (settle (endTrim { s with cal := { s.cal with
      trimming := s.cal.trimming.filter (fun q => q.1 != tileIx p t) } } p t kind (trimFault m) m) p))

/-- Rotation (R232, R234): the first forced tile of the barn whose stall can rotate begins to move to the relief position; the
fill writes the relief tile from the reference block and begins its trim; at the takeover the relief tile carries the slot and
the old tile is the relief. -/
def Obligations.Rotations : Prop :=
  (∀ (s : State) (p time slot t r : Nat), p < 512 → s.board.railsOn = true → firstForced s p = some (time, slot, t) →
    (getStall s p).relief = some r → canRotate s p = true → barnRotations s (barnOf p) < getF s R.calCtl_rotPerBarn →
    firstInBarn s p time = true →
    ∃ u f, exec (.rotationStart p) s = .next u ∧ u.mode = s.mode ∧ u.mem = s.mem ∧ f ∈ u.cal.fills ∧ f.stall = p ∧
      f.slot = slot ∧ f.fromTile = t ∧ f.toTile = r ∧ f.phase = 1 ∧ f.since = s.now ∧
      getF u R.calRotation_rowsFilled p = 0) ∧
  (∀ (s : State) (p : Nat) (f : Fill) (pl : Placement) (w : WriteReport), p < 512 → s.board.railsOn = true →
    fillOf s p false = some f → f.phase = 1 → placeOf s p f.slot = some pl → isRunning (getStall s p) = true →
    inWindow s = false → loaded s (loadKey 1 p f.slot) = true → s.upd.poison = [] → s.upd.softErr = [] →
    let r := fillTile (dropLoad s (loadKey 1 p f.slot)) p f.toTile f.fromTile (levelAddr s pl) pl w
    ∃ u, exec (.rotationFillDone p w) s = .next u ∧ u.mode = s.mode ∧
      if r.2 = true then u = failTile r.1 p f.toTile 3
      else { f with phase := 2, rows := [] } ∈ u.cal.fills ∧ (tileIx p f.toTile, 3) ∈ u.cal.trimming ∧
        getF u R.calRotation_rowsFilled p = 512) ∧
  (∀ (s : State) (p : Nat) (f : Fill) (pl : Placement) (w : WriteReport), p < 512 → s.board.railsOn = true →
    fillOf s p false = some f → f.phase = 3 → placeOf s p f.slot = some pl → isRunning (getStall s p) = true →
    inWindow s = false → slotHeld (getStall s p) f.slot = false → s.upd.poison = [] → s.upd.softErr = [] →
    let r := refillRows s p f.toTile (levelAddr s pl) f.rows pl w
    ∃ u, exec (.rotationTakeover p w) s = .next u ∧ u.mode = s.mode ∧
      if r.2 = true then u = failTile r.1 p f.toTile 3
      else (getStall u p).live = (getStall r.1 p).live.set f.slot f.toTile ∧ (getStall u p).relief = some f.fromTile ∧
        { f with phase := 4, rows := [] } ∈ u.cal.fills ∧ (tileIx p f.fromTile, 3) ∈ u.cal.trimming)

/-- Levels, wear and histories (R174, R236, R237, R241, R271): the wear counts reach flash after flush_s; levels are written and
read at a stall that runs nothing, and an access that a rule refuses changes nothing; HIST_RESET at rest empties every history. -/
def Obligations.LevelsAndWear : Prop :=
  (∀ s : State, s.board.railsOn = true → s.cal.lastFlush + 25000000 * getF s R.calWear_flushS ≤ s.now →
    ∃ t, exec .wearFlush s = .next t ∧ t.nv.wearQueue = [] ∧ t.cal.lastFlush = s.now ∧ t.reg = s.reg ∧ t.mem = s.mem ∧
      t.mode = s.mode) ∧
  (∀ (s : State) (p t row col : Nat) (l : List Int) (w : WriteReport), p < 512 → t < 34 → s.board.railsOn = true →
    exec (.tileLevelWrite p t row col l w) s = .next (if levelWriteStatus s p t (528 * row + col) l = 0
      then writeLevels s p t (528 * row + col) l w else s)) ∧
  (∀ (s : State) (p t row col len : Nat), p < 512 → t < 34 → s.board.railsOn = true →
    exec (.tileLevelRead p t row col len) s = .next (if levelReadStatus s p t (528 * row + col) len = 0
      then { s with cal := { s.cal with verify := measured s (tileIx p t) (528 * row + col) len } } else s)) ∧
  (∀ s : State, s.board.railsOn = true → atRest s = true →
    ∃ t, exec .histReset s = .next t ∧ t.fmt.hist = [] ∧ t.fmt.atCommit = [] ∧ t.mode = s.mode ∧ t.stalls = s.stalls)

/-- Fallback and rebuild (R369, R437 to R440): a failed slot waits for its reference block to come through its chip's channel,
and once it is in and can be read goes on at an image of the store; a rebuild that may start fills the spare tile, and at its
end the spare carries the slot. -/
def Obligations.FallbackAndRebuild : Prop :=
  (∀ (s : State) (p slot cause since i : Nat) (pl : Placement), p < 512 → slot < 32 → s.board.railsOn = true →
    s.cal.failing.find? (fun q => q.1 == p && q.2.1 == slot) = some (p, slot, cause, since) →
    isRunning (getStall s p) = true → (getStall s p).stop = false → inWindow s = false → placeOf s p slot = some pl →
    fallbackOf s p slot = none → freeImage s p = some i → s.upd.poison = [] → s.upd.softErr = [] →
    if loaded s (loadKey 0 p slot) = false then exec (.slotOnFallback p slot) s = .next s
    else ∃ t, exec (.slotOnFallback p slot) s = .next t ∧ t.mode = s.mode ∧ fallbackOf t p slot = some i ∧
      ∀ q ∈ t.cal.failing, ¬ (q.1 = p ∧ q.2.1 = slot)) ∧
  (∀ (s : State) (p slot spare i : Nat) (r : RebuildReq) (pl : Placement) (w : WriteReport), p < 512 →
    s.board.railsOn = true → s.cal.rebuilds.find? (fun r => r.stall == p && r.slot == slot) = some r →
    nextSpare s p = some spare → placeOf s p slot = some pl → fallbackOf s p slot = some i → rebuildReady s r = true →
    barnRebuilds s (barnOf p) < 2 →
    (∀ q ∈ s.cal.rebuilds, barnOf q.stall = barnOf p → rebuildReady s q = true → rebuildBefore q r = false) →
    inWindow s = false → (getStall s p).stop = false → s.brandBad = [] →
    exec (.rebuildStart p slot w) s = .next (startRebuild s p slot i spare pl w)) ∧
  (∀ (s : State) (p slot i : Nat) (f : Fill) (pl : Placement) (w : WriteReport), p < 512 → s.board.railsOn = true →
    fillOf s p true = some f → f.slot = slot → placeOf s p slot = some pl → fallbackOf s p slot = some i →
    isRunning (getStall s p) = true → inWindow s = false → slotHeld (getStall s p) slot = false →
    s.cal.trimming.contains (tileIx p f.toTile, 5) = false →
    let r := refillRows s p f.toTile (imageBase p i) f.rows pl w
    ∃ t, exec (.rebuildDone p slot w) s = .next t ∧
      if r.2 = true then t = failTile r.1 p f.toTile 3
      else (getStall t p).live = (getStall r.1 p).live.set slot f.toTile)

/-- The loft's links (R337, R338): a frame with a bad CRC is counted and replayed, and the sixteenth replay of one frame starts
a retraining; a link that comes back has 8 lanes, and what waited for it goes on; one that does not within 1 ms, or a chip that
is lost, takes the chip out of service and halts the module. The loft's patrol (R341): a line that cannot be corrected is
poisoned and shown, a corrected one is written back. -/
def Obligations.LoftHealth : Prop :=
  (∀ (s : State) (z : Nat) (replay : Bool), z < 4 → s.board.railsOn = true → onF s R.lftLink_up z = true →
    let n := if replay then tget 0 s.upd.replays z + 1 else 0
    ∃ t, exec (.loftFlitCrcError z replay) s = .next t ∧ t.mode = s.mode ∧
      getF t R.lftLink_crcErrors z = min (2 ^ R.lftLink_crcErrors.width - 1) (getF s R.lftLink_crcErrors z + 1) ∧
      if n < 16 then onF t R.lftLink_up z = true ∧ tget 0 t.upd.replays z = n ∧ t.mem = s.mem
      else onF t R.lftLink_up z = false ∧ tget? t.upd.retraining z = some s.now) ∧
  (∀ (s : State) (z : Nat), z < 4 → s.board.railsOn = true → (tget? s.upd.retraining z).isSome = true →
    ∃ u, exec (.loftLinkRetrained z) s = .next (resumeAccess u) ∧
      onF u R.lftLink_up z = true ∧ getF u R.lftLink_lanes z = 8 ∧ tget? u.upd.retraining z = none ∧ u.mode = s.mode ∧
      u.mem = s.mem ∧ (anyLinkDown u = true → resumeAccess u = u) ∧
      (s.upd.heldAccess = [] → s.team.staged = [] → (resumeAccess u).mode = s.mode ∧ (resumeAccess u).mem = s.mem ∧
        onF (resumeAccess u) R.lftLink_up z = true)) ∧
  (∀ (s : State) (z lanes a : Nat), z < 4 → s.board.railsOn = true → tget? s.upd.retraining z = some a → lanes < 8 →
    a + 25000 ≤ s.now →
    ∃ u, exec (.loftLinkLost z lanes) s = .next (resumeAccess u) ∧ (getChip u z).lost = true ∧
      getF u R.updChip_state z = 6 ∧ onF u R.lftLink_up z = false ∧ getF u R.lftLink_lanes z = lanes ∧
      tget? u.upd.retraining z = none ∧ (upStates s = true → u.mode = .halted)) ∧
  (∀ (s : State) (z : Nat), z < 4 → s.board.railsOn = true → upStates s = true → (getChip s z).lost = false →
    ∃ t, exec (.chipLost z) s = .next t ∧ (getChip t z).lost = true ∧ getF t R.updChip_state z = 6 ∧ t.mode = .halted) ∧
  (∀ (s : State) (ch line : Nat) (found : Found), ch < 8 → s.board.railsOn = true → upStates s = true →
    onF s R.lftChannel_populated ch = true → line < fittedBytes s / 64 → (getChip s (ch / 2)).lost = false →
    s.team.pages = [] →
    ∃ t, exec (.loftPatrol ch line found) s = .next t ∧ t.mode = s.mode ∧
      if patrolBad s (lineAddr ch line) found = true then
        lineAddr ch line ∈ t.upd.poison ∧ getF t R.lftEccLast_valid = 1 ∧
          getF t R.lftEccLast_address = lineAddr ch line % 2 ^ R.lftEccLast_address.width
      else t.upd.poison = s.upd.poison ∧ lineAddr ch line ∉ (if found = .corrected then t.upd.softErr else []))

/-- The channels' commands (R369, R371, R372, R374): an idle channel starts at the descriptor it is given; a running one pauses,
a paused one resumes, one that is not idle aborts, and a request counts for a channel that waits for software. What a channel's
state does not admit changes nothing. The rates of channels 57 to 63 (R380, R381, R382): a share from the channel's floor to 256
is kept, another one changes nothing; at each window every bucket fills by its share of the reference rate, up to twice that; a
channel held for rate_alarm_us with bytes to move is reported once. -/
def Obligations.ChannelCommands : Prop :=
  (∀ (s : State) (c : Nat), c < 57 → s.board.railsOn = true → (getChan s c).st = 0 → s.mode ≠ .bringup →
    exec (.chStart c) s =
      .next (startChain (setF s R.movChStatus_aborted c 0) c (getF s R.movChDesc_desc64 c * 64))) ∧
  (∀ (s : State) (c : Nat), c < 57 → s.board.railsOn = true →
    exec (.chPause c) s = .next (if (getChan s c).st = 1 then setChan s c { getChan s c with st := 2, byPark := false }
      else s)) ∧
  (∀ (s : State) (c : Nat), c < 57 → s.board.railsOn = true →
    exec (.chResume c) s = .next (if (getChan s c).st = 2 then setChan s c { getChan s c with st := 1 } else s)) ∧
  (∀ (s : State) (c : Nat), c < 57 → s.board.railsOn = true →
    ∃ t, exec (.chAbort c) s = .next t ∧ t.mem = s.mem ∧ t.mode = s.mode ∧
      if (getChan s c).st = 0 then t = s
      else (getChan t c).st = 0 ∧ (getChan t c).pending = 0 ∧ getF t R.movChStatus_aborted c = 1) ∧
  (∀ (s : State) (c : Nat), c < 57 → s.board.railsOn = true → onSoftware s c = true → (getChan s c).pending < 65535 →
    exec (.chReq c) s = .next (setChan s c { getChan s c with pending := (getChan s c).pending + 1 })) ∧
  (∀ (s : State) (c : Nat), 57 ≤ c → c < 64 → s.board.railsOn = true →
    exec (.chStart c) s = .next s ∧ exec (.chPause c) s = .next s ∧ exec (.chResume c) s = .next s ∧
      exec (.chAbort c) s = .next s ∧ exec (.chReq c) s = .next s) ∧
  (∀ (s : State) (c v : Nat), 57 ≤ c → c < 64 → s.board.railsOn = true →
    exec (.rateShareWrite c v) s = .next (if shareFloor c ≤ v ∧ v ≤ 256 then setF s R.movRate_share (c - 57) v else s)) ∧
  (∀ s : State, s.board.railsOn = true →
    ∃ t, exec .rateWindow s = .next t ∧ t.reg = s.reg ∧ t.mem = s.mem ∧ t.mode = s.mode ∧
      ∀ c, getChan t c = if 57 ≤ c ∧ c < 64 then
        { getChan s c with
          bucket := min (2 * (getF s R.movRate_share (c - 57) * refRate c))
            ((getChan s c).bucket + getF s R.movRate_share (c - 57) * refRate c) } else getChan s c) ∧
  (∀ (s : State) (c : Nat), 57 ≤ c → c < 64 → s.board.railsOn = true → (getChan s c).held = true →
    (getChan s c).alarmed = false → (getChan s c).heldSince + 25 * getF s R.movCtl_rateAlarmUs ≤ s.now →
    pendingBytes s c ≠ 0 →
    ∃ t, exec (.rateHeld c) s = .next t ∧ t.mode = s.mode ∧ (getChan t c).alarmed = true ∧ exec (.rateHeld c) t = .next t)

/-- A burst of a channel with a descriptor (R338, R369, R373, R374, R375): it takes a request where it is paced, and waits where
none is there or a link it needs retrains; it reads the next bytes of its source, then writes them to its destination, and
nothing else of memory but the event ring changes; the bytes done follow, and the last burst ends the descriptor, and without a
next one the chain. A refused read or write stops the channel. A burst of channels 60 to 63 streams the next bytes of a level
record that a transfer of its chip waits for, as far as its bucket reaches, and is held where it is empty. -/
def Obligations.Bursts : Prop :=
  (∀ (s : State) (c : Nat) (d : Desc) (w : List (Nat × WriteReport)), (c < 57 ∨ (64 ≤ c ∧ c < 576)) →
    s.board.railsOn = true → (getChan s c).desc = some d → (getChan s c).st = 1 → (getChan s c).bytesDone < d.length →
    let b := (getChan s c).bytesDone
    let n := min d.burst (d.length - b)
    if (d.reqSrc ≠ 0 ∧ (getChan s c).pending = 0) ∨ burstHeld s d b n = true then exec (.moverBurst c w) s = .next s
    else
      let v := takeRequest s c d
      let r := readPieces v (sidePieces (srcSide d) b n true)
      let x := writePieces r.1 (joinRound (joinWrites (cutStream (sidePieces (dstSide d) b n false) (r.2.2.take n)))) w
      (getChan v c).pending = (getChan s c).pending - b2n (d.reqSrc != 0) ∧
      ∃ t, exec (.moverBurst c w) s = .next t ∧
        if r.2.1 ≠ 0 then (getChan t c).st = 3
        else if x.2 ≠ 0 then (getChan t c).st = 3
        else
          (x.1.team.pages = [] → ∀ a, x.1.eventsOff a → readByte t a = readByte x.1 a) ∧
          if d.length ≤ b + n then bit d.flags 2 = false → (getChan t c).st = 0
          else (getChan t c).bytesDone = b + n ∧ (getChan t c).st = (getChan x.1 c).st) ∧
  (∀ (s : State) (z k : Nat) (l : List Nat) (w : List (Nat × WriteReport)), z < 4 → s.board.railsOn = true →
    wantedLoads s z = k :: l →
    let n := min (burstSize s (60 + z)) (recordSize - tget 0 s.cal.loads k)
    if linkDown s z = true then exec (.moverBurst (60 + z) w) s = .next s
    else ∃ t, exec (.moverBurst (60 + z) w) s = .next t ∧ t.mem = s.mem ∧ t.reg = s.reg ∧ t.mode = s.mode ∧
      if 256 * n ≤ (getChan s (60 + z)).bucket then
        tget 0 t.cal.loads k = tget 0 s.cal.loads k + n ∧
          (getChan t (60 + z)).bucket = (getChan s (60 + z)).bucket - 256 * n
      else (getChan t (60 + z)).held = true ∧ t.cal = s.cal)

/-- The host port and the fabric ports come up and go down (R386, R387, R391, R392): a training port comes up full or on four
lanes; a failed attempt, a loss, a retraining, a disable and an enable set its state, with the cause shown and the event raised. -/
def Obligations.PortStates : Prop :=
  (∀ (s : State) (n lanes group : Nat), n < 24 → s.board.railsOn = true → getF s R.prtPortStatus_state n = 1 →
    s.mode ≠ .bringup →
    ∃ t, exec (.portUp n lanes group) s = .next t ∧ t.mode = s.mode ∧
      if lanes = 8 then getF t R.prtPortStatus_state n = 3
      else getF t R.prtPortStatus_state n = 4 ∧ getF t R.prtPortStatus_laneGroup n = group % 2) ∧
  (∀ (s : State) (group : Nat), s.board.railsOn = true → getF s R.hstStatus_state = 1 →
    ∃ t, exec (.portUp 24 8 group) s = .next t ∧ t.mode = s.mode ∧ getF t R.hstStatus_state = 2) ∧
  (∀ (s : State) (n : Nat), n < 24 → s.board.railsOn = true → getF s R.prtPortStatus_state n = 1 →
    ∃ t, exec (.portAttemptFailed n) s = .next t ∧ t.mode = s.mode ∧ getF t R.prtPortStatus_state n = 2 ∧
      getF t R.prtPortStatus_downCause n = 6 ∧ getF t R.prtPortStatus_weight n = 0) ∧
  (∀ (s : State) (n cause : Nat), n < 24 → cause < 8 → s.board.railsOn = true → portOpen s n = true →
    s.job.token = none → s.job.running = none →
    ∃ t, exec (.portLost n cause) s = .next t ∧ getF t R.prtPortStatus_state n = (if cause = 3 then 5 else 2) ∧
      getF t R.prtPortStatus_downCause n = cause ∧ getF t R.prtPortStatus_weight n = 0) ∧
  (∀ (s : State) (cause : Nat), cause < 8 → s.board.railsOn = true → getF s R.hstStatus_state = 2 → s.job.token = none →
    s.job.running = none →
    ∃ t, exec (.portLost 24 cause) s = .next t ∧ getF t R.hstStatus_state = 1 ∧ getF t R.hstStatus_downCause = cause) ∧
  (∀ (s : State) (n : Nat), n < 24 → s.board.railsOn = true → getF s R.prtPortStatus_state n = 2 →
    onF s R.prtPortCtl_enable n = true → laserOk s n = true →
    tget 0 s.prt.trainStart n + 25000000 * getF s R.prtCtl_retrainS ≤ s.now →
    ∃ t, exec (.portRetrainTimer n) s = .next t ∧ t.mode = s.mode ∧ t.mem = s.mem ∧
      getF t R.prtPortStatus_state n = 1 ∧ tget? t.prt.trainStart n = some s.now) ∧
  (∀ (s : State) (n : Nat), n < 24 → s.board.railsOn = true → retrainStatus s n = 0 → s.job.token = none →
    s.job.running = none →
    ∃ t, exec (.portRetrain n) s = .next t ∧
      getF t R.prtPortStatus_state n = (if laserOk s n = true then 1 else 5)) ∧
  (∀ s : State, s.board.railsOn = true → retrainStatus s 24 = 0 → s.job.token = none → s.job.running = none →
    ∃ t, exec (.portRetrain 24) s = .next t ∧ getF t R.hstStatus_state = 1 ∧
      (getF s R.hstStatus_state = 2 → getF t R.hstStatus_downCause = 1)) ∧
  (∀ (s : State) (n : Nat), n < 24 → s.board.railsOn = true → s.job.token = none → s.job.running = none →
    (∃ t, exec (.portEnable n false) s = .next t ∧ onF t R.prtPortCtl_enable n = false ∧
      getF t R.prtPortStatus_state n = 0) ∧
    (onF s R.prtPortCtl_enable n = false → ∃ t, exec (.portEnable n true) s = .next t ∧
      onF t R.prtPortCtl_enable n = true ∧ getF t R.prtPortStatus_state n = (if laserOk s n = true then 1 else 5)))

/-- Priority flow control and the counters of a port (R393, R404, R405): a pause time ends a priority's pause after so many
quanta, zero at once; a pause that ended is released; a storm is reported once; an XOFF still in force is sent again; corrected
FEC blocks are counted. What the ports answer and send of themselves (R396, R401, R402): an ARP request, a neighbour
solicitation and an echo request for an address of the port are answered, and nothing else changes; the frame that starts on a
port is the first of the lowest class that may start, and leaves its queue. -/
def Obligations.PortTraffic : Prop :=
  (∀ (s : State) (port q time : Nat), port < 25 → q < 8 → s.board.railsOn = true → portOpen s port = true →
    ∃ t, exec (.pfcFrame { port := port, times := [(q, time)] }) s = .next t ∧ t.mode = s.mode ∧ t.mem = s.mem ∧
      tget? t.prt.pauseEnd (prioKey port q) = (if time = 0 then none else some (125 * s.now + time * quantum s port)) ∧
      t.prt.queue = s.prt.queue) ∧
  (∀ (s : State) (port q e : Nat), port < 25 → q < 8 → s.board.railsOn = true →
    tget? s.prt.pauseEnd (prioKey port q) = some e → e ≤ 125 * s.now →
    ∃ t, exec (.pfcPauseExpired port q) s = .next t ∧ t.mode = s.mode ∧ t.mem = s.mem ∧
      tget? t.prt.pauseEnd (prioKey port q) = none ∧ prioKey port q ∉ t.prt.stormed) ∧
  (∀ (s : State) (port q a : Nat), port < 25 → q < 8 → s.board.railsOn = true →
    tget? s.prt.pauseStart (prioKey port q) = some a → a + 25 * getF s R.prtCtl_pfcAlarmUs ≤ s.now →
    prioKey port q ∉ s.prt.stormed →
    ∃ t, exec (.pfcStorm port q) s = .next t ∧ t.mode = s.mode ∧ prioKey port q ∈ t.prt.stormed ∧
      exec (.pfcStorm port q) t = .next t) ∧
  (∀ (s : State) (port q : Nat), port < 25 → q < 8 → s.board.railsOn = true → prioKey port q ∈ s.prt.xoff →
    tget 0 s.prt.lastXoff (prioKey port q) + 250 ≤ s.now →
    ∃ t o, exec (.xoffRepeat port q) s = .next t ∧ t.prt.queue = s.prt.queue ++ [o] ∧ o.port = port ∧ o.prio = q ∧
      o.body = .pfc q 65535 ∧ t.reg = s.reg ∧ t.mem = s.mem ∧ tget? t.prt.lastXoff (prioKey port q) = some s.now) ∧
  (∀ (s : State) (n k : Nat), n < 24 → s.board.railsOn = true →
    ∃ t, exec (.fecDegraded n k) s = .next t ∧ t.mode = s.mode ∧
      getF t R.prtPortFec_corrected n = min (2 ^ R.prtPortFec_corrected.width - 1) (getF s R.prtPortFec_corrected n + k)) ∧
  (∀ (s : State) (port ip : Nat) (src : NetAddr), port < 25 → s.board.railsOn = true → portOpen s port = true →
    ip < 2 ^ 32 → ownIp s port (mapped4 ip) = true →
    ∃ t o, exec (.arpRequest port ip src) s = .next t ∧ t = { s with prt := { s.prt with queue := s.prt.queue ++ [o] } } ∧
      o.port = port ∧ o.dst = src ∧ o.cls = 1 ∧ o.body = .arpReply ip) ∧
  (∀ (s : State) (port ip : Nat) (src : NetAddr), port < 25 → s.board.railsOn = true → portOpen s port = true →
    ip / 2 ^ 32 ≠ 0xFFFF → ownIp s port ip = true →
    ∃ t o, exec (.neighbourSolicitation port ip src) s = .next t ∧
      t = { s with prt := { s.prt with queue := s.prt.queue ++ [o] } } ∧ o.port = port ∧ o.dst = src ∧ o.cls = 1 ∧
      o.body = .advert ip) ∧
  (∀ (s : State) (r : Rx) (b : Bytes), r.port < 25 → s.board.railsOn = true → portOpen s r.port = true →
    dropReason s { r with dstUdp := if r.port = 24 then getF s R.hstCtl_controlUdp else getF s R.prtCtl_tokenUdp } = 0 →
    ∃ t o, exec (.echoRequest r b) s = .next t ∧ t = { s with prt := { s.prt with queue := s.prt.queue ++ [o] } } ∧
      o.port = r.port ∧ o.dst = r.src ∧ o.cls = 1 ∧ o.body = .echoReply b) ∧
  (∀ (s : State) (port cls i : Nat), port < 25 → s.board.railsOn = true → portOpen s port = true →
    1 ≤ cls → cls ≤ 4 → classHead s port cls = some i → (∀ k, 1 ≤ k → k < cls → classHead s port k = none) →
    ∃ t f, exec (.egressFrameStart port) s = .next t ∧ s.prt.queue[i]? = some f ∧ f.port = port ∧ f.cls = cls ∧
      t.prt.queue = s.prt.queue.eraseIdx i ∧ t.prt.wire = s.prt.wire ++ [f] ∧ t.reg = s.reg ∧ t.mem = s.mem)

/-- The feed (R383, R384, R385): a frame that every check admits waits in the staging buffer and renews the session's idle time;
a consumed count between the last one and the prefix is kept; an idle feed takes a new ring and starts again at zero. -/
def Obligations.FeedRing : Prop :=
  (∀ (s : State) (f : FeedFrame), s.hearsFeed f → feedFault s f = 0 →
    ∃ t, exec (.feedFrame f) s = .next t ∧ t.feed.staging = s.feed.staging ++ [f] ∧ t.ses.lastRx = s.now ∧
      t.mem = s.mem ∧ t.mode = s.mode) ∧
  (∀ (s : State) (v : Nat), s.board.railsOn = true →
    ∃ t, exec (.feedConsumedWrite v) s = .next t ∧ t.mem = s.mem ∧ t.mode = s.mode ∧
      if feedC s ≤ v % 2 ^ 64 ∧ v % 2 ^ 64 ≤ s.feed.p then feedC t = v % 2 ^ R.hstFeedConsumed_consumed.width else t = s) ∧
  (∀ (s : State) (v : Nat), s.board.railsOn = true →
    ∃ t, exec (.feedCfgWrite v) s = .next t ∧ t.mem = s.mem ∧ t.mode = s.mode ∧
      if feedCfgStatus s v = 0 then
        getF t R.hstFeedCfg_base64k = bits v 47 16 ∧ feedSize t = 2 ^ bits v 5 0 ∧ feedC t = 0 ∧ t.feed.p = 0 ∧
          t.feed.staging = [] ∧ t.feed.written = []
      else t = s)

/-- A team forms (R72, R443, R444, R445): the partner's HELLO with this plan tag, the mirrors large enough and both team ports
up, forms the team, or refuses it with cause 5 where the two share a feed or a loop, as a bay of unknown number does with every
other, and the job is strict; after 10 s without it, the team is refused with the cause that stands (the model's reading, log
entry 81). A HELLO or a BEAT goes out on both team ports every beat_us. A formed team breaks (R446): at loss_us of silence, at
TEAM_SENSE low while it is armed, at a BYE, each with its cause; what else the module does goes on. -/
def Obligations.TeamForms : Prop :=
  (∀ (s : State) (f : TeamFrame), s.fromPartner f 1 → getF s R.pairStatus_team = 1 →
    fieldAt f.payload 0 8 = getF s R.gtePlan_planTag → fieldAt f.payload 16 2 = f.srcModule →
    let v := showTeamPorts (noteHello s f.payload)
    let unknown := getF s R.bruBayId_bayNumber == 0xFFFF || fieldAt f.payload 18 2 == 0xFFFF
    let feed := unknown || sharesFeed [getF s R.bruBayTags_feedTagA, getF s R.bruBayTags_feedTagB]
      [fieldAt f.payload 24 4, fieldAt f.payload 28 4]
    let loop := unknown || getF s R.bruBayLoop_loopTag != 0 && getF s R.bruBayLoop_loopTag == fieldAt f.payload 32 4
    ∃ t, exec (.hello f) s = .next t ∧ t.mode = s.mode ∧ getF t R.pairStatus_partnerBay = fieldAt f.payload 18 2 ∧
      getF t R.pairStatus_feedShared = b2n feed ∧ getF t R.pairStatus_loopShared = b2n loop ∧
      getF t R.pairStatus_senseArmed = b2n (onF s R.bruBayId_teamSenseWired &&
        fieldAt f.payload 18 2 == getF s R.bruBayId_sensedBay) ∧
      getF t R.pairStatus_team =
        if (teamPorts v).all (portUpFull v) = true ∧ mirrorsFit v ((List.range 8).map (fun c => fieldAt f.payload (40 + 4 * c) 4))
            ((List.range 8).map (fun c => fieldAt f.payload (72 + 4 * c) 4)) = true then
          (if (feed || loop) = true ∧ onF s R.pairCtl_strict = true then 3 else 2)
        else 1) ∧
  (∀ s : State, s.board.railsOn = true → (s.now < s.team.lastBeat + 25 * getF s R.pairCtl_beatUs ∨
    (getF s R.pairStatus_team ≠ 1 ∧ getF s R.pairStatus_team ≠ 2)) → exec .beatTimer s = .next s) ∧
  (∀ s : State, s.board.railsOn = true → s.team.lastBeat + 25 * getF s R.pairCtl_beatUs ≤ s.now →
    (getF s R.pairStatus_team = 1 ∨ getF s R.pairStatus_team = 2) →
    ∃ t l, exec .beatTimer s = .next t ∧ t.team.lastBeat = s.now ∧ t.reg = s.reg ∧ t.mem = s.mem ∧ t.mode = s.mode ∧
      t.prt.queue = s.prt.queue ++ l ∧
      l.map (fun o => o.port) = (teamPorts s).filter (portOpen s) ∧
      ∀ o ∈ l, ∃ g, o.body = .team g ∧ g.ftype = getF s R.pairStatus_team ∧
        g.payload = if getF s R.pairStatus_team = 1 then helloBody s else []) ∧
  (∀ (s : State) (f : TeamFrame), s.fromPartner f 2 →
    exec (.beat f) s = .next { s with team := { s.team with lastRx := s.now } }) ∧
  (∀ s : State, s.board.railsOn = true → getF s R.pairStatus_team = 1 → s.team.formStart + 250000000 ≤ s.now →
    ∃ t, exec .teamFormationTimeout s = .next t ∧ getF t R.pairStatus_team = 3 ∧
      getF t R.pairStatus_cause = (if (teamPorts s).all (portUpFull s) = true then
        (if s.team.obstacle = 0 then 6 else s.team.obstacle % 16) else 1) ∧
      t.mode = s.mode ∧ t.job = s.job) ∧
  (∀ s : State, s.board.railsOn = true → getF s R.pairStatus_team = 2 → s.job.token = none →
    s.team.lastRx + 25 * getF s R.pairCtl_lossUs ≤ s.now →
    ∃ t, exec .teamSilence s = .next t ∧ getF t R.pairStatus_team = 4 ∧ getF t R.pairStatus_cause = 1) ∧
  (∀ s : State, s.board.railsOn = true → getF s R.pairStatus_team = 2 → s.job.token = none →
    getF s R.pairStatus_senseArmed = 1 →
    ∃ t, exec .teamSenseLoss s = .next t ∧ getF t R.pairStatus_team = 4 ∧ getF t R.pairStatus_cause = 3) ∧
  (∀ (s : State) (f : TeamFrame), s.fromPartner f 9 → getF s R.pairStatus_team = 2 → s.job.token = none →
    ∃ t, exec (.bye f) s = .next t ∧ getF t R.pairStatus_team = 4 ∧ getF t R.pairStatus_cause = 4)

/-- The pages of a securing (R445, R451): a PAGE of the partner's securing stands in its mirror slot, the eighth of a page is
answered by PAGE_ACK; an acknowledged page whose home copy stands is done; a page not acknowledged for 200 us is sent again. A
securing's end, and the partner's accesses (R445, R452, R469): the partner's COMMIT of its step in flight is kept and answered;
COMMIT_ACK secures this module's step; an ACCESS with a higher number runs its operations and answers, and waits in its port's
staging memory while a link it needs retrains; an answer of the partner is kept. -/
def Obligations.TeamPages : Prop :=
  (∀ (s : State) (f : TeamFrame), s.fromPartner f 3 → getF s R.pairStatus_team = 2 →
    getF s R.pairMirrorStat_partnerStep ≤ f.step → f.page < getF s R.pairGroup_partnerPages f.group →
    let v := if partnerStep s = some f.step then s else { s with team := { s.team with chunks := [] } }
    ∃ t, exec (.page f) s = .next t ∧ t.mode = s.mode ∧ (f.step, f.group, f.page, f.chunk) ∈ t.team.chunks ∧
      if pageChunks t f.group f.page < 8 then
        t.mem = putBytes s.mem (slotAddr (mirrorBase s f.group) (getF s R.pairGroup_partnerPages f.group) f.page
          (mirrorSlot v f.group f.page f.step) + 8192 * f.chunk) f.payload ∧ t.prt.queue = s.prt.queue
      else ∃ o g, t.prt.queue = s.prt.queue ++ [o] ∧ o.port = f.rx.port ∧ o.body = .team g ∧ g.ftype = 4 ∧ g.step = f.step ∧
        g.page = f.page ∧ g.group = f.group) ∧
  (∀ (s : State) (f : TeamFrame), s.fromPartner f 4 → s.team.step = some f.step → s.mode ≠ .gate → s.job.running = none →
    ∃ t, exec (.pageAck f) s = .next t ∧ t.mode = s.mode ∧ ∀ p ∈ t.team.pages,
      ¬ (p.group = f.group ∧ p.page = f.page ∧ p.home = true)) ∧
  (∀ (s : State) (g i a : Nat) (p : Page), s.board.railsOn = true →
    s.team.pages.find? (fun q => q.group == g && q.page == i) = some p → p.home = true → p.acked = false →
    getF s R.pairStatus_team = 2 → p.sentAt = some a → a + 5000 ≤ s.now → s.upd.poison = [] → s.upd.softErr = [] →
    ∃ t l, exec (.pageResend g i) s = .next t ∧ t.mem = s.mem ∧ t.reg = s.reg ∧ t.mode = s.mode ∧
      (∀ q ∈ t.team.pages, q.addr = p.addr → q = { p with sentAt := some s.now }) ∧
      t.prt.queue = s.prt.queue ++ l ∧ l.length = 8 ∧
      ∀ o ∈ l, ∃ x, o.body = .team x ∧ x.ftype = 3 ∧ x.step = secStep s ∧ x.group = g ∧ x.page = i) ∧
  (∀ (s : State) (f : TeamFrame), s.fromPartner f 5 → getF s R.pairStatus_team = 2 → partnerStep s = some f.step →
    fieldAt f.payload 0 8 = f.step →
    ∃ t o g, exec (.commit f) s = .next t ∧ t.mode = s.mode ∧ getF t R.pairMirrorStat_partnerStep = f.step ∧
      t.team.chunks = [] ∧ readNat t (mirrorBase s 0) 8 = f.step ∧
      t.prt.queue = s.prt.queue ++ [o] ∧ o.body = .team g ∧ g.ftype = 6 ∧ g.step = f.step) ∧
  (∀ (s : State) (f : TeamFrame), s.fromPartner f 6 → s.team.step = some f.step → s.team.pages = [] →
    s.mode ≠ .gate → s.job.running = none →
    ∃ t, exec (.commitAck f) s = .next t ∧ t.mode = s.mode ∧ t.team.step = none ∧ getF t R.pairSecure_committed = f.step ∧
      getF t R.pairPrev_previous = getF s R.pairSecure_committed % 2 ^ 40 ∧ getF t R.pairSecure_inFlight = 0) ∧
  (∀ (s : State) (f : TeamFrame) (w : List (Nat × WriteReport)) (l : List AccOp), s.fromPartner f 7 →
    getF s R.pairStatus_team = 2 → s.team.accessSeq < f.page → accessOps f.payload = some l →
    if opsHeld s l = true then ∃ t, exec (.teamAccess f w) s = .next t ∧ t.mem = s.mem ∧
      t.team.staged = s.team.staged ++ [(f, w)] ∧ t.team.accessSeq = f.page
    else
    let r := runOps { s with team := { s.team with lastRx := s.now, accessSeq := f.page } } 0 l w
    ∃ t o g, exec (.teamAccess f w) s = .next t ∧ t.mem = r.1.mem ∧ t.reg = r.1.reg ∧ t.prt.queue = r.1.prt.queue ++ [o] ∧
      o.port = f.rx.port ∧ o.body = .team g ∧ g.ftype = 8 ∧ g.page = f.page ∧ g.payload = r.2) ∧
  (∀ (s : State) (f : TeamFrame), s.fromPartner f 8 → getF s R.pairStatus_team = 2 →
    exec (.accessResp f) s = .next { s with
      team := { s.team with lastRx := s.now, answers := s.team.answers ++ [(f.page, f.payload)] } })

end
end

