-- ==== Sys2Proof/Laws/Tab.lean ====
section
/-! SUPPORT. Laws/Tab.lean: the laws of sparse tables: what a lookup finds after an update, and that updates keep the
canonical form. -/
namespace Sys2Proof.Machine

variable {α : Type}

@[simp] theorem tget?_nil (k : Nat) : tget? ([] : Tab α) k = none := rfl

theorem tget?_cons (a : Nat) (b : α) (r : Tab α) (k : Nat) :
    tget? ((a, b) :: r) k = if a = k then some b else tget? r k := rfl

/-! ## Lookup after an update -/

theorem tget?_tset (m : Tab α) (k k' : Nat) (v : α) :
    tget? (tset m k v) k' = if k' = k then some v else tget? m k' := by
  induction m with
  | nil => simp [tset, tget?_cons, eq_comm]
  | cons p r ih =>
    obtain ⟨a, b⟩ := p
    by_cases hk : k' = k
    · subst hk; unfold tset; split
      · simp [tget?_cons]
      · split <;> simp_all [tget?_cons]
    · have hk' : k ≠ k' := fun e => hk e.symm
      unfold tset; split
      · simp [tget?_cons, hk']
      · split
        · subst_vars; simp [tget?_cons, hk']
        · rw [tget?_cons, tget?_cons, ih, if_neg hk]

/-- A filter that looks at keys alone hides the keys it drops and nothing else. -/
theorem tget?_filter (m : Tab α) (f : Nat → Bool) (k : Nat) :
    tget? (m.filter (fun p => f p.1)) k = if f k then tget? m k else none := by
  induction m with
  | nil => simp
  | cons p r ih =>
    obtain ⟨a, b⟩ := p
    rw [List.filter_cons]
    split
    · simp only [tget?_cons, ih]; split <;> simp_all
    · rw [ih, tget?_cons]; split
      · split
        · subst_vars; simp_all
        · rfl
      · rfl

theorem tget?_tdel (m : Tab α) (k k' : Nat) : tget? (tdel m k) k' = if k' = k then none else tget? m k' := by
  unfold tdel
  rw [tget?_filter m (fun x => x != k)]
  by_cases h : k' = k <;> simp [h]

theorem tget?_tdrop (m : Tab α) (lo hi k : Nat) :
    tget? (tdrop m lo hi) k = if k < lo ∨ hi ≤ k then tget? m k else none := by
  unfold tdrop
  rw [tget?_filter m (fun x => x < lo || hi ≤ x)]
  simp

theorem tget?_append (l r : Tab α) (k : Nat) : tget? (l ++ r) k = (tget? l k).or (tget? r k) := by
  induction l with
  | nil => simp
  | cons p l ih => obtain ⟨a, b⟩ := p; simp only [List.cons_append, tget?_cons, ih]; split <;> simp

/-- Keys outside a range are not found in a table whose keys lie in it. -/
theorem tget?_none (m : Tab α) (k : Nat) (h : ∀ p ∈ m, p.1 ≠ k) : tget? m k = none := by
  induction m with
  | nil => rfl
  | cons p r ih =>
    obtain ⟨a, b⟩ := p
    rw [tget?_cons, if_neg (h (a, b) (by simp)), ih (fun q hq => h q (by simp [hq]))]

theorem tget?_tsplice (m new : Tab α) (lo hi k : Nat) (h : ∀ p ∈ new, lo ≤ p.1 ∧ p.1 < hi) :
    tget? (tsplice m lo hi new) k = if lo ≤ k ∧ k < hi then tget? new k else tget? m k := by
  have e1 := tget?_filter m (fun x => decide (x < lo)) k
  have e2 := tget?_filter m (fun x => decide (hi ≤ x)) k
  simp only [decide_eq_true_eq] at e1 e2
  unfold tsplice
  rw [tget?_append, tget?_append, e1, e2]
  by_cases hk : lo ≤ k ∧ k < hi
  · rw [if_pos hk, if_neg (by omega), if_neg (by omega)]; simp
  · rw [if_neg hk, tget?_none new k (fun p hp e => hk (e ▸ h p hp))]
    by_cases h1 : k < lo
    · by_cases h2 : hi ≤ k <;> simp [h1, h2]
    · have : hi ≤ k := by omega
      simp [h1, this]

theorem tget_tset (d : α) (m : Tab α) (k k' : Nat) (v : α) :
    tget d (tset m k v) k' = if k' = k then v else tget d m k' := by
  unfold tget; rw [tget?_tset]; split <;> rfl

theorem tget_tput [DecidableEq α] (d : α) (m : Tab α) (k k' : Nat) (v : α) :
    tget d (tput d m k v) k' = if k' = k then v else tget d m k' := by
  unfold tput
  split
  · subst_vars; unfold tget; rw [tget?_tdel]; split <;> rfl
  · exact tget_tset d m k k' v

@[simp] theorem tget_tput_self [DecidableEq α] (d : α) (m : Tab α) (k : Nat) (v : α) : tget d (tput d m k v) k = v := by
  simp [tget_tput]

/-- An update at another key, whatever default it is canonical for. -/
theorem tget_tput_ne [DecidableEq α] (d e : α) (m : Tab α) {k k' : Nat} (v : α) (h : k' ≠ k) :
    tget d (tput e m k v) k' = tget d m k' := by
  unfold tput
  split
  · unfold tget; rw [tget?_tdel, if_neg h]
  · rw [tget_tset, if_neg h]

/-! ## The canonical form -/

theorem tsorted_iff (m : Tab α) : tsorted m = true ↔ m.Pairwise (fun a b => a.1 < b.1) := by
  induction m with
  | nil => simp [tsorted]
  | cons p r ih =>
    cases r with
    | nil => simp [tsorted]
    | cons q r =>
      obtain ⟨a, x⟩ := p
      obtain ⟨b, y⟩ := q
      rw [tsorted, Bool.and_eq_true, ih, decide_eq_true_eq, List.pairwise_cons (a := (a, x))]
      constructor
      · rintro ⟨h, k⟩
        refine ⟨fun c hc => ?_, k⟩
        rcases List.mem_cons.mp hc with rfl | hc
        · exact h
        · exact Nat.lt_trans h ((List.pairwise_cons.mp k).1 c hc)
      · rintro ⟨h, k⟩
        exact ⟨h (b, y) (by simp), k⟩

theorem tsorted_filter {m : Tab α} (f : Nat × α → Bool) (h : tsorted m = true) : tsorted (m.filter f) = true :=
  (tsorted_iff _).mpr (((tsorted_iff m).mp h).filter f)

theorem tsorted_tdel {m : Tab α} (k : Nat) (h : tsorted m = true) : tsorted (tdel m k) = true := tsorted_filter _ h

theorem tsorted_tdrop {m : Tab α} (lo hi : Nat) (h : tsorted m = true) : tsorted (tdrop m lo hi) = true := tsorted_filter _ h

theorem mem_tset {m : Tab α} {k : Nat} {v : α} {p : Nat × α} (h : p ∈ tset m k v) : p = (k, v) ∨ p ∈ m := by
  induction m with
  | nil => simpa [tset] using h
  | cons q r ih =>
    obtain ⟨a, b⟩ := q
    unfold tset at h
    split at h
    · simpa using h
    · split at h
      · rcases List.mem_cons.mp h with h | h
        · exact .inl h
        · exact .inr (by simp [h])
      · rcases List.mem_cons.mp h with h | h
        · exact .inr (by simp [h])
        · rcases ih h with h | h
          · exact .inl h
          · exact .inr (by simp [h])

theorem tsorted_tset {m : Tab α} (k : Nat) (v : α) (h : tsorted m = true) : tsorted (tset m k v) = true := by
  rw [tsorted_iff] at *
  induction m with
  | nil => simp [tset]
  | cons q r ih =>
    obtain ⟨a, b⟩ := q
    have hr := List.pairwise_cons.mp h
    unfold tset
    split
    · rename_i hk
      refine List.pairwise_cons.mpr ⟨fun p hp => ?_, h⟩
      rcases List.mem_cons.mp hp with rfl | hp
      · exact hk
      · exact Nat.lt_trans hk (hr.1 p hp)
    · split
      · subst_vars; exact List.pairwise_cons.mpr ⟨fun p hp => hr.1 p hp, hr.2⟩
      · refine List.pairwise_cons.mpr ⟨fun p hp => ?_, ih hr.2⟩
        rcases mem_tset hp with rfl | hp
        · simp only; omega
        · exact hr.1 p hp

theorem tsorted_tput [DecidableEq α] {m : Tab α} (d : α) (k : Nat) (v : α) (h : tsorted m = true) :
    tsorted (tput d m k v) = true := by
  unfold tput; split
  · exact tsorted_tdel k h
  · exact tsorted_tset k v h

/-- A change of the values alone keeps the order of the keys. -/
theorem tsorted_map {β : Type} {m : Tab α} (f : Nat × α → Nat × β) (hf : ∀ p, (f p).1 = p.1) (h : tsorted m = true) :
    tsorted (m.map f) = true := by
  rw [tsorted_iff] at *
  rw [List.pairwise_map]
  exact h.imp (fun {a b} hab => by rw [hf, hf]; exact hab)

theorem tsorted_tsplice {m new : Tab α} {lo hi : Nat} (h : tsorted m = true) (hn : tsorted new = true)
    (hr : ∀ p ∈ new, lo ≤ p.1 ∧ p.1 < hi) (hle : lo ≤ hi) : tsorted (tsplice m lo hi new) = true := by
  rw [tsorted_iff] at *
  unfold tsplice
  refine List.pairwise_append.mpr ⟨List.pairwise_append.mpr ⟨h.filter _, hn, fun a ha b hb => ?_⟩, h.filter _,
    fun a ha b hb => ?_⟩
  · have := (List.mem_filter.mp ha).2
    have := hr b hb
    simp only [decide_eq_true_eq] at *
    omega
  · have hb := (List.mem_filter.mp hb).2
    simp only [decide_eq_true_eq] at hb
    rcases List.mem_append.mp ha with ha | ha
    · have ha := (List.mem_filter.mp ha).2
      simp only [decide_eq_true_eq] at ha
      omega
    · have := hr a ha
      omega

section canonical
variable [DecidableEq α]

theorem tcanon_iff (d : α) (m : Tab α) : tcanon d m = true ↔ tsorted m = true ∧ ∀ p ∈ m, p.2 ≠ d := by
  simp [tcanon, List.all_eq_true]

theorem tcanon_filter {d : α} {m : Tab α} (f : Nat × α → Bool) (h : tcanon d m = true) : tcanon d (m.filter f) = true := by
  rw [tcanon_iff] at *
  exact ⟨tsorted_filter f h.1, fun p hp => h.2 p (List.mem_filter.mp hp).1⟩

theorem tcanon_tdel {d : α} {m : Tab α} (k : Nat) (h : tcanon d m = true) : tcanon d (tdel m k) = true := tcanon_filter _ h

theorem tcanon_tdrop {d : α} {m : Tab α} (lo hi : Nat) (h : tcanon d m = true) : tcanon d (tdrop m lo hi) = true :=
  tcanon_filter _ h

theorem tcanon_tput {d : α} {m : Tab α} (k : Nat) (v : α) (h : tcanon d m = true) : tcanon d (tput d m k v) = true := by
  unfold tput
  split
  · exact tcanon_tdel k h
  · rename_i hv
    rw [tcanon_iff] at *
    refine ⟨tsorted_tset k v h.1, fun p hp => ?_⟩
    rcases mem_tset hp with rfl | hp
    · exact hv
    · exact h.2 p hp

theorem tcanon_tsplice {d : α} {m new : Tab α} {lo hi : Nat} (h : tcanon d m = true) (hn : tcanon d new = true)
    (hr : ∀ p ∈ new, lo ≤ p.1 ∧ p.1 < hi) (hle : lo ≤ hi) : tcanon d (tsplice m lo hi new) = true := by
  rw [tcanon_iff] at *
  refine ⟨tsorted_tsplice h.1 hn.1 hr hle, fun p hp => ?_⟩
  unfold tsplice at hp
  rcases List.mem_append.mp hp with hp | hp
  · rcases List.mem_append.mp hp with hp | hp
    · exact h.2 p (List.mem_filter.mp hp).1
    · exact hn.2 p hp
  · exact h.2 p (List.mem_filter.mp hp).1

end canonical

end Sys2Proof.Machine
end

