-- ==== Sys2Proof/Laws/Memory.lean ====
section
/-! SUPPORT. Laws/Memory.lean: what a read finds after each memory operation, and that each keeps the canonical form. -/
namespace Sys2Proof.Machine
open Sys2Proof

/-! ## Cells of a span -/

theorem cellsOf_range (a : Nat) (b : Bytes) : ∀ p ∈ cellsOf a b, a ≤ p.1 ∧ p.1 < a + b.length := by
  induction b generalizing a with
  | nil => simp [cellsOf]
  | cons x r ih =>
    intro p hp
    have hlen : (x :: r).length = r.length + 1 := rfl
    unfold cellsOf at hp
    split at hp
    · have := ih (a + 1) p hp; omega
    · rcases List.mem_cons.mp hp with rfl | hp
      · simp only; omega
      · have := ih (a + 1) p hp; omega

theorem cellsOf_canon (a : Nat) (b : Bytes) : tcanon 0 (cellsOf a b) = true := by
  induction b generalizing a with
  | nil => rfl
  | cons x r ih =>
    unfold cellsOf
    split
    · exact ih _
    · rename_i hx
      have h := (tcanon_iff 0 _).mp (ih (a + 1))
      refine (tcanon_iff 0 _).mpr ⟨(tsorted_iff _).mpr (List.pairwise_cons.mpr ⟨fun p hp => ?_, (tsorted_iff _).mp h.1⟩),
        fun p hp => ?_⟩
      · have := cellsOf_range (a + 1) r p hp; simp only; omega
      · rcases List.mem_cons.mp hp with rfl | hp
        · exact hx
        · exact h.2 p hp

/-- The cells of bytes read back as the bytes. -/
theorem tget_cellsOf (a : Nat) (b : Bytes) (i : Nat) : tget 0 (cellsOf a b) (a + i) = b.getD i 0 := by
  induction b generalizing a i with
  | nil => simp [cellsOf, tget]
  | cons x r ih =>
    cases i with
    | zero =>
      unfold cellsOf
      have hn : tget 0 (cellsOf (a + 1) r) (a + 0) = 0 := by
        unfold tget; rw [tget?_none _ _ (fun p hp => by have := cellsOf_range (a + 1) r p hp; omega)]; rfl
      split
      · rename_i h; rw [hn, h]; rfl
      · simp [tget, tget?_cons]
    | succ i =>
      have e : a + (i + 1) = a + 1 + i := by omega
      unfold cellsOf
      split
      · rw [e, ih]; rfl
      · unfold tget; rw [tget?_cons, if_neg (by omega), e]; exact ih (a + 1) i

/-! ## The stored cells of each operation -/

theorem putBytes_canon {m : List Host.Cell} (a : Nat) (b : Bytes) (h : Memory.wf m = true) :
    Memory.wf (putBytes m a b) = true :=
  tcanon_tsplice h (cellsOf_canon a b) (cellsOf_range a b) (Nat.le_add_right _ _)

theorem copySpan_canon {m : List Host.Cell} (src dst n : Nat) (h : Memory.wf m = true) :
    Memory.wf (copySpan m src dst n) = true := by
  have hm := (tcanon_iff 0 m).mp h
  have hin : ∀ p ∈ m.filter (fun p => decide (src ≤ p.1) && decide (p.1 < src + n)), src ≤ p.1 ∧ p.1 < src + n := by
    intro p hp; simpa using (List.mem_filter.mp hp).2
  have hp := List.Pairwise.filter (fun p => decide (src ≤ p.1) && decide (p.1 < src + n)) ((tsorted_iff m).mp hm.1)
  refine tcanon_tsplice h ((tcanon_iff 0 _).mpr ⟨(tsorted_iff _).mpr (List.pairwise_map.mpr ?_), ?_⟩) ?_
    (Nat.le_add_right _ _)
  · refine hp.imp_of_mem (fun {x y} hx hy hxy => ?_)
    have := hin x hx
    have := hin y hy
    simp only; omega
  · intro p hp
    obtain ⟨q, hq, rfl⟩ := List.mem_map.mp hp
    exact hm.2 q (List.mem_filter.mp hq).1
  · intro p hp
    obtain ⟨q, hq, rfl⟩ := List.mem_map.mp hp
    have := hin q hq
    simp only; omega

theorem patchCells_length (m : List Host.Cell) (a n : Nat) (l : List (Nat × Byte)) :
    ∀ p ∈ patchCells m a n l, a ≤ p.1 ∧ p.1 < a + n := by
  intro p hp
  simpa using cellsOf_range a _ p hp

theorem patch_canon {m : List Host.Cell} (a n : Nat) (l : List (Nat × Byte)) (h : Memory.wf m = true) :
    Memory.wf (tsplice m a (a + n) (patchCells m a n l)) = true :=
  tcanon_tsplice h (cellsOf_canon a _) (patchCells_length m a n l) (Nat.le_add_right _ _)

/-- One byte after bytes were stored. -/
theorem tget_putBytes (m : List Host.Cell) (a : Nat) (b : Bytes) (x : Nat) :
    tget 0 (putBytes m a b) x = if a ≤ x ∧ x < a + b.length then b.getD (x - a) 0 else tget 0 m x := by
  unfold putBytes
  rw [tget, tget?_tsplice _ _ _ _ _ (cellsOf_range a b)]
  split
  · have e := tget_cellsOf a b (x - a)
    rw [show a + (x - a) = x by omega] at e
    exact e
  · rfl

/-- One byte after a span was copied: that of the source, read before. -/
theorem tget_copySpan (m : List Host.Cell) (src dst n x : Nat) :
    tget 0 (copySpan m src dst n) x = if dst ≤ x ∧ x < dst + n then tget 0 m (x - dst + src) else tget 0 m x := by
  unfold copySpan
  rw [tget, tget?_tsplice _ _ _ _ _ (fun p hp => by
    obtain ⟨q, hq, rfl⟩ := List.mem_map.mp hp
    have : src ≤ q.1 ∧ q.1 < src + n := by simpa using (List.mem_filter.mp hq).2
    simp only; omega)]
  split
  · rename_i hx
    have key : ∀ l : List Host.Cell,
        tget? ((l.filter (fun p => decide (src ≤ p.1) && decide (p.1 < src + n))).map (fun p => (p.1 - src + dst, p.2))) x
          = tget? l (x - dst + src) := by
      intro l
      induction l with
      | nil => rfl
      | cons p r ih =>
        obtain ⟨a, b⟩ := p
        rw [List.filter_cons, tget?_cons]
        by_cases hin : src ≤ a ∧ a < src + n
        · rw [if_pos (by simpa using hin), List.map_cons, tget?_cons, ih]
          by_cases e : a = x - dst + src
          · rw [if_pos e, if_pos (by omega)]
          · rw [if_neg e, if_neg (by omega)]
        · rw [if_neg (by simpa using hin), ih, if_neg (by omega)]
    rw [key]; rfl
  · rfl

/-! ## The operations -/

/-- What brands, poison and dirty marks change, no byte of memory is. -/
@[simp] theorem rebrand_mem (s : State) (a n : Nat) : (rebrand s a n).mem = s.mem := rfl
@[simp] theorem unpoison_mem (s : State) (a n : Nat) : (unpoison s a n).mem = s.mem := rfl
@[simp] theorem markDirty_mem (s : State) (a n : Nat) : (markDirty s a n).mem = s.mem := rfl
@[simp] theorem rawWrite_mem (s : State) (a : Nat) (b : Bytes) : (rawWrite s a b).mem = putBytes s.mem a b := rfl
@[simp] theorem rawCopy_mem (s : State) (src dst n : Nat) : (rawCopy s src dst n).mem = copySpan s.mem src dst n := rfl
@[simp] theorem rawZero_mem (s : State) (a n : Nat) : (rawZero s a n).mem = tdrop s.mem a (a + n) := rfl
@[simp] theorem quietWrite_mem (s : State) (a : Nat) (b : Bytes) : (quietWrite s a b).mem = putBytes s.mem a b := rfl
@[simp] theorem quietCopy_mem (s : State) (src dst n : Nat) : (quietCopy s src dst n).mem = copySpan s.mem src dst n := rfl

/-- A write past protection stores its bytes at its address and leaves every other byte. -/
theorem readByte_rawWrite (s : State) (a : Nat) (b : Bytes) (x : Nat) :
    readByte (rawWrite s a b) x = if a ≤ x ∧ x < a + b.length then b.getD (x - a) 0 else readByte s x := by
  unfold readByte; rw [rawWrite_mem, tget_putBytes]

theorem readByte_rawCopy (s : State) (src dst n x : Nat) :
    readByte (rawCopy s src dst n) x = if dst ≤ x ∧ x < dst + n then readByte s (x - dst + src) else readByte s x := by
  unfold readByte; rw [rawCopy_mem, tget_copySpan]

theorem readByte_rawZero (s : State) (a n x : Nat) :
    readByte (rawZero s a n) x = if a ≤ x ∧ x < a + n then 0 else readByte s x := by
  unfold readByte tget
  rw [rawZero_mem, tget?_tdrop]
  split
  · rw [if_neg (by omega)]
  · rw [if_pos (by omega)]; rfl

/-- With no page protected, a write stores its bytes at its address and leaves every other byte. -/
theorem write_unprotected (s : State) (a : Nat) (b : Bytes) (h : s.team.pages = []) : write s a b = rawWrite s a b := by
  unfold write protect; rw [h]; rfl

/-- A span read is its bytes. -/
theorem readBytes_eq (s : State) (a n : Nat) : readBytes s a n = (List.range n).map (fun i => readByte s (a + i)) := by
  unfold readBytes readByte
  refine List.map_congr_left (fun i hi => ?_)
  unfold tget
  have e := tget?_filter s.mem (fun x => decide (a ≤ x) && decide (x < a + n)) (a + i)
  have hi := List.mem_range.mp hi
  simp only [Bool.and_eq_true, decide_eq_true_eq] at e
  simp only [e]
  rw [if_pos (by omega)]

@[simp] theorem readBytes_length (s : State) (a n : Nat) : (readBytes s a n).length = n := by simp [readBytes]

/-- States that read the same byte everywhere read the same spans. -/
theorem readBytes_congr {s t : State} (h : s.mem = t.mem) (a n : Nat) : readBytes s a n = readBytes t a n := by
  unfold readBytes; rw [h]

/-- Bytes written past protection read back whole. -/
theorem readBytes_rawWrite (s : State) (a : Nat) (b : Bytes) : readBytes (rawWrite s a b) a b.length = b := by
  rw [readBytes_eq]
  refine List.ext_getElem (by simp) (fun i h1 h2 => ?_)
  simp only [List.getElem_map, List.getElem_range, readByte_rawWrite]
  rw [if_pos (by omega), Nat.add_sub_cancel_left]
  simp [h2]

end Sys2Proof.Machine
end

