-- ==== Sys2Proof/Laws/State.lean ====
section
/-! SUPPORT. Laws/State.lean: what each plain update of the state leaves as it was, field by field. -/
namespace Sys2Proof.Machine
open Sys2Proof

/-! ## setF -/

@[simp] theorem setF_pending (s : State) (f : Field) (u v : Nat) : (setF s f u v).pending = s.pending := rfl
@[simp] theorem setF_mode (s : State) (f : Field) (u v : Nat) : (setF s f u v).mode = s.mode := rfl
@[simp] theorem setF_now (s : State) (f : Field) (u v : Nat) : (setF s f u v).now = s.now := rfl
@[simp] theorem setF_draws (s : State) (f : Field) (u v : Nat) : (setF s f u v).draws = s.draws := rfl
@[simp] theorem setF_pend (s : State) (f : Field) (u v : Nat) : (setF s f u v).pend = s.pend := rfl
@[simp] theorem setF_mem (s : State) (f : Field) (u v : Nat) : (setF s f u v).mem = s.mem := rfl
@[simp] theorem setF_brandBad (s : State) (f : Field) (u v : Nat) : (setF s f u v).brandBad = s.brandBad := rfl
@[simp] theorem setF_once (s : State) (f : Field) (u v : Nat) : (setF s f u v).once = s.once := rfl
@[simp] theorem setF_board (s : State) (f : Field) (u v : Nat) : (setF s f u v).board = s.board := rfl
@[simp] theorem setF_att (s : State) (f : Field) (u v : Nat) : (setF s f u v).att = s.att := rfl
@[simp] theorem setF_nv (s : State) (f : Field) (u v : Nat) : (setF s f u v).nv = s.nv := rfl
@[simp] theorem setF_bring (s : State) (f : Field) (u v : Nat) : (setF s f u v).bring = s.bring := rfl
@[simp] theorem setF_gov (s : State) (f : Field) (u v : Nat) : (setF s f u v).gov = s.gov := rfl
@[simp] theorem setF_ses (s : State) (f : Field) (u v : Nat) : (setF s f u v).ses = s.ses := rfl
@[simp] theorem setF_job (s : State) (f : Field) (u v : Nat) : (setF s f u v).job = s.job := rfl
@[simp] theorem setF_stalls (s : State) (f : Field) (u v : Nat) : (setF s f u v).stalls = s.stalls := rfl
@[simp] theorem setF_cal (s : State) (f : Field) (u v : Nat) : (setF s f u v).cal = s.cal := rfl
@[simp] theorem setF_fmt (s : State) (f : Field) (u v : Nat) : (setF s f u v).fmt = s.fmt := rfl
@[simp] theorem setF_rte (s : State) (f : Field) (u v : Nat) : (setF s f u v).rte = s.rte := rfl
@[simp] theorem setF_upd (s : State) (f : Field) (u v : Nat) : (setF s f u v).upd = s.upd := rfl
@[simp] theorem setF_movs (s : State) (f : Field) (u v : Nat) : (setF s f u v).movs = s.movs := rfl
@[simp] theorem setF_prt (s : State) (f : Field) (u v : Nat) : (setF s f u v).prt = s.prt := rfl
@[simp] theorem setF_feed (s : State) (f : Field) (u v : Nat) : (setF s f u v).feed = s.feed := rfl
@[simp] theorem setF_team (s : State) (f : Field) (u v : Nat) : (setF s f u v).team = s.team := rfl

/-! ## setP -/

@[simp] theorem setP_pending (s : State) (f : Field) (u v : Nat) : (setP s f u v).pending = s.pending := rfl
@[simp] theorem setP_mode (s : State) (f : Field) (u v : Nat) : (setP s f u v).mode = s.mode := rfl
@[simp] theorem setP_now (s : State) (f : Field) (u v : Nat) : (setP s f u v).now = s.now := rfl
@[simp] theorem setP_draws (s : State) (f : Field) (u v : Nat) : (setP s f u v).draws = s.draws := rfl
@[simp] theorem setP_reg (s : State) (f : Field) (u v : Nat) : (setP s f u v).reg = s.reg := rfl
@[simp] theorem setP_mem (s : State) (f : Field) (u v : Nat) : (setP s f u v).mem = s.mem := rfl
@[simp] theorem setP_brandBad (s : State) (f : Field) (u v : Nat) : (setP s f u v).brandBad = s.brandBad := rfl
@[simp] theorem setP_once (s : State) (f : Field) (u v : Nat) : (setP s f u v).once = s.once := rfl
@[simp] theorem setP_board (s : State) (f : Field) (u v : Nat) : (setP s f u v).board = s.board := rfl
@[simp] theorem setP_att (s : State) (f : Field) (u v : Nat) : (setP s f u v).att = s.att := rfl
@[simp] theorem setP_nv (s : State) (f : Field) (u v : Nat) : (setP s f u v).nv = s.nv := rfl
@[simp] theorem setP_bring (s : State) (f : Field) (u v : Nat) : (setP s f u v).bring = s.bring := rfl
@[simp] theorem setP_gov (s : State) (f : Field) (u v : Nat) : (setP s f u v).gov = s.gov := rfl
@[simp] theorem setP_ses (s : State) (f : Field) (u v : Nat) : (setP s f u v).ses = s.ses := rfl
@[simp] theorem setP_job (s : State) (f : Field) (u v : Nat) : (setP s f u v).job = s.job := rfl
@[simp] theorem setP_stalls (s : State) (f : Field) (u v : Nat) : (setP s f u v).stalls = s.stalls := rfl
@[simp] theorem setP_cal (s : State) (f : Field) (u v : Nat) : (setP s f u v).cal = s.cal := rfl
@[simp] theorem setP_fmt (s : State) (f : Field) (u v : Nat) : (setP s f u v).fmt = s.fmt := rfl
@[simp] theorem setP_rte (s : State) (f : Field) (u v : Nat) : (setP s f u v).rte = s.rte := rfl
@[simp] theorem setP_upd (s : State) (f : Field) (u v : Nat) : (setP s f u v).upd = s.upd := rfl
@[simp] theorem setP_movs (s : State) (f : Field) (u v : Nat) : (setP s f u v).movs = s.movs := rfl
@[simp] theorem setP_prt (s : State) (f : Field) (u v : Nat) : (setP s f u v).prt = s.prt := rfl
@[simp] theorem setP_feed (s : State) (f : Field) (u v : Nat) : (setP s f u v).feed = s.feed := rfl
@[simp] theorem setP_team (s : State) (f : Field) (u v : Nat) : (setP s f u v).team = s.team := rfl

/-! ## bumpF -/

@[simp] theorem bumpF_pending (s : State) (f : Field) (u n : Nat) : (bumpF s f u n).pending = s.pending := rfl
@[simp] theorem bumpF_mode (s : State) (f : Field) (u n : Nat) : (bumpF s f u n).mode = s.mode := rfl
@[simp] theorem bumpF_now (s : State) (f : Field) (u n : Nat) : (bumpF s f u n).now = s.now := rfl
@[simp] theorem bumpF_draws (s : State) (f : Field) (u n : Nat) : (bumpF s f u n).draws = s.draws := rfl
@[simp] theorem bumpF_pend (s : State) (f : Field) (u n : Nat) : (bumpF s f u n).pend = s.pend := rfl
@[simp] theorem bumpF_mem (s : State) (f : Field) (u n : Nat) : (bumpF s f u n).mem = s.mem := rfl
@[simp] theorem bumpF_brandBad (s : State) (f : Field) (u n : Nat) : (bumpF s f u n).brandBad = s.brandBad := rfl
@[simp] theorem bumpF_once (s : State) (f : Field) (u n : Nat) : (bumpF s f u n).once = s.once := rfl
@[simp] theorem bumpF_board (s : State) (f : Field) (u n : Nat) : (bumpF s f u n).board = s.board := rfl
@[simp] theorem bumpF_att (s : State) (f : Field) (u n : Nat) : (bumpF s f u n).att = s.att := rfl
@[simp] theorem bumpF_nv (s : State) (f : Field) (u n : Nat) : (bumpF s f u n).nv = s.nv := rfl
@[simp] theorem bumpF_bring (s : State) (f : Field) (u n : Nat) : (bumpF s f u n).bring = s.bring := rfl
@[simp] theorem bumpF_gov (s : State) (f : Field) (u n : Nat) : (bumpF s f u n).gov = s.gov := rfl
@[simp] theorem bumpF_ses (s : State) (f : Field) (u n : Nat) : (bumpF s f u n).ses = s.ses := rfl
@[simp] theorem bumpF_job (s : State) (f : Field) (u n : Nat) : (bumpF s f u n).job = s.job := rfl
@[simp] theorem bumpF_stalls (s : State) (f : Field) (u n : Nat) : (bumpF s f u n).stalls = s.stalls := rfl
@[simp] theorem bumpF_cal (s : State) (f : Field) (u n : Nat) : (bumpF s f u n).cal = s.cal := rfl
@[simp] theorem bumpF_fmt (s : State) (f : Field) (u n : Nat) : (bumpF s f u n).fmt = s.fmt := rfl
@[simp] theorem bumpF_rte (s : State) (f : Field) (u n : Nat) : (bumpF s f u n).rte = s.rte := rfl
@[simp] theorem bumpF_upd (s : State) (f : Field) (u n : Nat) : (bumpF s f u n).upd = s.upd := rfl
@[simp] theorem bumpF_movs (s : State) (f : Field) (u n : Nat) : (bumpF s f u n).movs = s.movs := rfl
@[simp] theorem bumpF_prt (s : State) (f : Field) (u n : Nat) : (bumpF s f u n).prt = s.prt := rfl
@[simp] theorem bumpF_feed (s : State) (f : Field) (u n : Nat) : (bumpF s f u n).feed = s.feed := rfl
@[simp] theorem bumpF_team (s : State) (f : Field) (u n : Nat) : (bumpF s f u n).team = s.team := rfl

/-! ## clearUnits -/

@[simp] theorem clearUnits_pending (s : State) (f : Field) (n : Nat) : (clearUnits s f n).pending = s.pending := rfl
@[simp] theorem clearUnits_mode (s : State) (f : Field) (n : Nat) : (clearUnits s f n).mode = s.mode := rfl
@[simp] theorem clearUnits_now (s : State) (f : Field) (n : Nat) : (clearUnits s f n).now = s.now := rfl
@[simp] theorem clearUnits_draws (s : State) (f : Field) (n : Nat) : (clearUnits s f n).draws = s.draws := rfl
@[simp] theorem clearUnits_pend (s : State) (f : Field) (n : Nat) : (clearUnits s f n).pend = s.pend := rfl
@[simp] theorem clearUnits_mem (s : State) (f : Field) (n : Nat) : (clearUnits s f n).mem = s.mem := rfl
@[simp] theorem clearUnits_brandBad (s : State) (f : Field) (n : Nat) : (clearUnits s f n).brandBad = s.brandBad := rfl
@[simp] theorem clearUnits_once (s : State) (f : Field) (n : Nat) : (clearUnits s f n).once = s.once := rfl
@[simp] theorem clearUnits_board (s : State) (f : Field) (n : Nat) : (clearUnits s f n).board = s.board := rfl
@[simp] theorem clearUnits_att (s : State) (f : Field) (n : Nat) : (clearUnits s f n).att = s.att := rfl
@[simp] theorem clearUnits_nv (s : State) (f : Field) (n : Nat) : (clearUnits s f n).nv = s.nv := rfl
@[simp] theorem clearUnits_bring (s : State) (f : Field) (n : Nat) : (clearUnits s f n).bring = s.bring := rfl
@[simp] theorem clearUnits_gov (s : State) (f : Field) (n : Nat) : (clearUnits s f n).gov = s.gov := rfl
@[simp] theorem clearUnits_ses (s : State) (f : Field) (n : Nat) : (clearUnits s f n).ses = s.ses := rfl
@[simp] theorem clearUnits_job (s : State) (f : Field) (n : Nat) : (clearUnits s f n).job = s.job := rfl
@[simp] theorem clearUnits_stalls (s : State) (f : Field) (n : Nat) : (clearUnits s f n).stalls = s.stalls := rfl
@[simp] theorem clearUnits_cal (s : State) (f : Field) (n : Nat) : (clearUnits s f n).cal = s.cal := rfl
@[simp] theorem clearUnits_fmt (s : State) (f : Field) (n : Nat) : (clearUnits s f n).fmt = s.fmt := rfl
@[simp] theorem clearUnits_rte (s : State) (f : Field) (n : Nat) : (clearUnits s f n).rte = s.rte := rfl
@[simp] theorem clearUnits_upd (s : State) (f : Field) (n : Nat) : (clearUnits s f n).upd = s.upd := rfl
@[simp] theorem clearUnits_movs (s : State) (f : Field) (n : Nat) : (clearUnits s f n).movs = s.movs := rfl
@[simp] theorem clearUnits_prt (s : State) (f : Field) (n : Nat) : (clearUnits s f n).prt = s.prt := rfl
@[simp] theorem clearUnits_feed (s : State) (f : Field) (n : Nat) : (clearUnits s f n).feed = s.feed := rfl
@[simp] theorem clearUnits_team (s : State) (f : Field) (n : Nat) : (clearUnits s f n).team = s.team := rfl

/-! ## rebrand -/

@[simp] theorem rebrand_pending (s : State) (a n : Nat) : (rebrand s a n).pending = s.pending := rfl
@[simp] theorem rebrand_mode (s : State) (a n : Nat) : (rebrand s a n).mode = s.mode := rfl
@[simp] theorem rebrand_now (s : State) (a n : Nat) : (rebrand s a n).now = s.now := rfl
@[simp] theorem rebrand_draws (s : State) (a n : Nat) : (rebrand s a n).draws = s.draws := rfl
@[simp] theorem rebrand_reg (s : State) (a n : Nat) : (rebrand s a n).reg = s.reg := rfl
@[simp] theorem rebrand_pend (s : State) (a n : Nat) : (rebrand s a n).pend = s.pend := rfl
@[simp] theorem rebrand_once (s : State) (a n : Nat) : (rebrand s a n).once = s.once := rfl
@[simp] theorem rebrand_board (s : State) (a n : Nat) : (rebrand s a n).board = s.board := rfl
@[simp] theorem rebrand_att (s : State) (a n : Nat) : (rebrand s a n).att = s.att := rfl
@[simp] theorem rebrand_nv (s : State) (a n : Nat) : (rebrand s a n).nv = s.nv := rfl
@[simp] theorem rebrand_bring (s : State) (a n : Nat) : (rebrand s a n).bring = s.bring := rfl
@[simp] theorem rebrand_gov (s : State) (a n : Nat) : (rebrand s a n).gov = s.gov := rfl
@[simp] theorem rebrand_ses (s : State) (a n : Nat) : (rebrand s a n).ses = s.ses := rfl
@[simp] theorem rebrand_job (s : State) (a n : Nat) : (rebrand s a n).job = s.job := rfl
@[simp] theorem rebrand_stalls (s : State) (a n : Nat) : (rebrand s a n).stalls = s.stalls := rfl
@[simp] theorem rebrand_cal (s : State) (a n : Nat) : (rebrand s a n).cal = s.cal := rfl
@[simp] theorem rebrand_fmt (s : State) (a n : Nat) : (rebrand s a n).fmt = s.fmt := rfl
@[simp] theorem rebrand_rte (s : State) (a n : Nat) : (rebrand s a n).rte = s.rte := rfl
@[simp] theorem rebrand_upd (s : State) (a n : Nat) : (rebrand s a n).upd = s.upd := rfl
@[simp] theorem rebrand_movs (s : State) (a n : Nat) : (rebrand s a n).movs = s.movs := rfl
@[simp] theorem rebrand_prt (s : State) (a n : Nat) : (rebrand s a n).prt = s.prt := rfl
@[simp] theorem rebrand_feed (s : State) (a n : Nat) : (rebrand s a n).feed = s.feed := rfl
@[simp] theorem rebrand_team (s : State) (a n : Nat) : (rebrand s a n).team = s.team := rfl

/-! ## unpoison -/

@[simp] theorem unpoison_pending (s : State) (a n : Nat) : (unpoison s a n).pending = s.pending := rfl
@[simp] theorem unpoison_mode (s : State) (a n : Nat) : (unpoison s a n).mode = s.mode := rfl
@[simp] theorem unpoison_now (s : State) (a n : Nat) : (unpoison s a n).now = s.now := rfl
@[simp] theorem unpoison_draws (s : State) (a n : Nat) : (unpoison s a n).draws = s.draws := rfl
@[simp] theorem unpoison_reg (s : State) (a n : Nat) : (unpoison s a n).reg = s.reg := rfl
@[simp] theorem unpoison_pend (s : State) (a n : Nat) : (unpoison s a n).pend = s.pend := rfl
@[simp] theorem unpoison_brandBad (s : State) (a n : Nat) : (unpoison s a n).brandBad = s.brandBad := rfl
@[simp] theorem unpoison_once (s : State) (a n : Nat) : (unpoison s a n).once = s.once := rfl
@[simp] theorem unpoison_board (s : State) (a n : Nat) : (unpoison s a n).board = s.board := rfl
@[simp] theorem unpoison_att (s : State) (a n : Nat) : (unpoison s a n).att = s.att := rfl
@[simp] theorem unpoison_nv (s : State) (a n : Nat) : (unpoison s a n).nv = s.nv := rfl
@[simp] theorem unpoison_bring (s : State) (a n : Nat) : (unpoison s a n).bring = s.bring := rfl
@[simp] theorem unpoison_gov (s : State) (a n : Nat) : (unpoison s a n).gov = s.gov := rfl
@[simp] theorem unpoison_ses (s : State) (a n : Nat) : (unpoison s a n).ses = s.ses := rfl
@[simp] theorem unpoison_job (s : State) (a n : Nat) : (unpoison s a n).job = s.job := rfl
@[simp] theorem unpoison_stalls (s : State) (a n : Nat) : (unpoison s a n).stalls = s.stalls := rfl
@[simp] theorem unpoison_cal (s : State) (a n : Nat) : (unpoison s a n).cal = s.cal := rfl
@[simp] theorem unpoison_fmt (s : State) (a n : Nat) : (unpoison s a n).fmt = s.fmt := rfl
@[simp] theorem unpoison_rte (s : State) (a n : Nat) : (unpoison s a n).rte = s.rte := rfl
@[simp] theorem unpoison_movs (s : State) (a n : Nat) : (unpoison s a n).movs = s.movs := rfl
@[simp] theorem unpoison_prt (s : State) (a n : Nat) : (unpoison s a n).prt = s.prt := rfl
@[simp] theorem unpoison_feed (s : State) (a n : Nat) : (unpoison s a n).feed = s.feed := rfl
@[simp] theorem unpoison_team (s : State) (a n : Nat) : (unpoison s a n).team = s.team := rfl

/-! ## markDirty -/

@[simp] theorem markDirty_pending (s : State) (a n : Nat) : (markDirty s a n).pending = s.pending := rfl
@[simp] theorem markDirty_mode (s : State) (a n : Nat) : (markDirty s a n).mode = s.mode := rfl
@[simp] theorem markDirty_now (s : State) (a n : Nat) : (markDirty s a n).now = s.now := rfl
@[simp] theorem markDirty_draws (s : State) (a n : Nat) : (markDirty s a n).draws = s.draws := rfl
@[simp] theorem markDirty_reg (s : State) (a n : Nat) : (markDirty s a n).reg = s.reg := rfl
@[simp] theorem markDirty_pend (s : State) (a n : Nat) : (markDirty s a n).pend = s.pend := rfl
@[simp] theorem markDirty_brandBad (s : State) (a n : Nat) : (markDirty s a n).brandBad = s.brandBad := rfl
@[simp] theorem markDirty_once (s : State) (a n : Nat) : (markDirty s a n).once = s.once := rfl
@[simp] theorem markDirty_board (s : State) (a n : Nat) : (markDirty s a n).board = s.board := rfl
@[simp] theorem markDirty_att (s : State) (a n : Nat) : (markDirty s a n).att = s.att := rfl
@[simp] theorem markDirty_nv (s : State) (a n : Nat) : (markDirty s a n).nv = s.nv := rfl
@[simp] theorem markDirty_bring (s : State) (a n : Nat) : (markDirty s a n).bring = s.bring := rfl
@[simp] theorem markDirty_gov (s : State) (a n : Nat) : (markDirty s a n).gov = s.gov := rfl
@[simp] theorem markDirty_ses (s : State) (a n : Nat) : (markDirty s a n).ses = s.ses := rfl
@[simp] theorem markDirty_job (s : State) (a n : Nat) : (markDirty s a n).job = s.job := rfl
@[simp] theorem markDirty_stalls (s : State) (a n : Nat) : (markDirty s a n).stalls = s.stalls := rfl
@[simp] theorem markDirty_cal (s : State) (a n : Nat) : (markDirty s a n).cal = s.cal := rfl
@[simp] theorem markDirty_fmt (s : State) (a n : Nat) : (markDirty s a n).fmt = s.fmt := rfl
@[simp] theorem markDirty_rte (s : State) (a n : Nat) : (markDirty s a n).rte = s.rte := rfl
@[simp] theorem markDirty_upd (s : State) (a n : Nat) : (markDirty s a n).upd = s.upd := rfl
@[simp] theorem markDirty_movs (s : State) (a n : Nat) : (markDirty s a n).movs = s.movs := rfl
@[simp] theorem markDirty_prt (s : State) (a n : Nat) : (markDirty s a n).prt = s.prt := rfl
@[simp] theorem markDirty_feed (s : State) (a n : Nat) : (markDirty s a n).feed = s.feed := rfl

/-! ## rawWrite -/

@[simp] theorem rawWrite_pending (s : State) (a : Nat) (b : Bytes) : (rawWrite s a b).pending = s.pending := rfl
@[simp] theorem rawWrite_mode (s : State) (a : Nat) (b : Bytes) : (rawWrite s a b).mode = s.mode := rfl
@[simp] theorem rawWrite_now (s : State) (a : Nat) (b : Bytes) : (rawWrite s a b).now = s.now := rfl
@[simp] theorem rawWrite_draws (s : State) (a : Nat) (b : Bytes) : (rawWrite s a b).draws = s.draws := rfl
@[simp] theorem rawWrite_reg (s : State) (a : Nat) (b : Bytes) : (rawWrite s a b).reg = s.reg := rfl
@[simp] theorem rawWrite_pend (s : State) (a : Nat) (b : Bytes) : (rawWrite s a b).pend = s.pend := rfl
@[simp] theorem rawWrite_once (s : State) (a : Nat) (b : Bytes) : (rawWrite s a b).once = s.once := rfl
@[simp] theorem rawWrite_board (s : State) (a : Nat) (b : Bytes) : (rawWrite s a b).board = s.board := rfl
@[simp] theorem rawWrite_att (s : State) (a : Nat) (b : Bytes) : (rawWrite s a b).att = s.att := rfl
@[simp] theorem rawWrite_nv (s : State) (a : Nat) (b : Bytes) : (rawWrite s a b).nv = s.nv := rfl
@[simp] theorem rawWrite_bring (s : State) (a : Nat) (b : Bytes) : (rawWrite s a b).bring = s.bring := rfl
@[simp] theorem rawWrite_gov (s : State) (a : Nat) (b : Bytes) : (rawWrite s a b).gov = s.gov := rfl
@[simp] theorem rawWrite_ses (s : State) (a : Nat) (b : Bytes) : (rawWrite s a b).ses = s.ses := rfl
@[simp] theorem rawWrite_job (s : State) (a : Nat) (b : Bytes) : (rawWrite s a b).job = s.job := rfl
@[simp] theorem rawWrite_stalls (s : State) (a : Nat) (b : Bytes) : (rawWrite s a b).stalls = s.stalls := rfl
@[simp] theorem rawWrite_cal (s : State) (a : Nat) (b : Bytes) : (rawWrite s a b).cal = s.cal := rfl
@[simp] theorem rawWrite_fmt (s : State) (a : Nat) (b : Bytes) : (rawWrite s a b).fmt = s.fmt := rfl
@[simp] theorem rawWrite_rte (s : State) (a : Nat) (b : Bytes) : (rawWrite s a b).rte = s.rte := rfl
@[simp] theorem rawWrite_movs (s : State) (a : Nat) (b : Bytes) : (rawWrite s a b).movs = s.movs := rfl
@[simp] theorem rawWrite_prt (s : State) (a : Nat) (b : Bytes) : (rawWrite s a b).prt = s.prt := rfl
@[simp] theorem rawWrite_feed (s : State) (a : Nat) (b : Bytes) : (rawWrite s a b).feed = s.feed := rfl

/-! ## rawCopy -/

@[simp] theorem rawCopy_pending (s : State) (src dst n : Nat) : (rawCopy s src dst n).pending = s.pending := rfl
@[simp] theorem rawCopy_mode (s : State) (src dst n : Nat) : (rawCopy s src dst n).mode = s.mode := rfl
@[simp] theorem rawCopy_now (s : State) (src dst n : Nat) : (rawCopy s src dst n).now = s.now := rfl
@[simp] theorem rawCopy_draws (s : State) (src dst n : Nat) : (rawCopy s src dst n).draws = s.draws := rfl
@[simp] theorem rawCopy_reg (s : State) (src dst n : Nat) : (rawCopy s src dst n).reg = s.reg := rfl
@[simp] theorem rawCopy_pend (s : State) (src dst n : Nat) : (rawCopy s src dst n).pend = s.pend := rfl
@[simp] theorem rawCopy_once (s : State) (src dst n : Nat) : (rawCopy s src dst n).once = s.once := rfl
@[simp] theorem rawCopy_board (s : State) (src dst n : Nat) : (rawCopy s src dst n).board = s.board := rfl
@[simp] theorem rawCopy_att (s : State) (src dst n : Nat) : (rawCopy s src dst n).att = s.att := rfl
@[simp] theorem rawCopy_nv (s : State) (src dst n : Nat) : (rawCopy s src dst n).nv = s.nv := rfl
@[simp] theorem rawCopy_bring (s : State) (src dst n : Nat) : (rawCopy s src dst n).bring = s.bring := rfl
@[simp] theorem rawCopy_gov (s : State) (src dst n : Nat) : (rawCopy s src dst n).gov = s.gov := rfl
@[simp] theorem rawCopy_ses (s : State) (src dst n : Nat) : (rawCopy s src dst n).ses = s.ses := rfl
@[simp] theorem rawCopy_job (s : State) (src dst n : Nat) : (rawCopy s src dst n).job = s.job := rfl
@[simp] theorem rawCopy_stalls (s : State) (src dst n : Nat) : (rawCopy s src dst n).stalls = s.stalls := rfl
@[simp] theorem rawCopy_cal (s : State) (src dst n : Nat) : (rawCopy s src dst n).cal = s.cal := rfl
@[simp] theorem rawCopy_fmt (s : State) (src dst n : Nat) : (rawCopy s src dst n).fmt = s.fmt := rfl
@[simp] theorem rawCopy_rte (s : State) (src dst n : Nat) : (rawCopy s src dst n).rte = s.rte := rfl
@[simp] theorem rawCopy_movs (s : State) (src dst n : Nat) : (rawCopy s src dst n).movs = s.movs := rfl
@[simp] theorem rawCopy_prt (s : State) (src dst n : Nat) : (rawCopy s src dst n).prt = s.prt := rfl
@[simp] theorem rawCopy_feed (s : State) (src dst n : Nat) : (rawCopy s src dst n).feed = s.feed := rfl

/-! ## rawZero -/

@[simp] theorem rawZero_pending (s : State) (a n : Nat) : (rawZero s a n).pending = s.pending := rfl
@[simp] theorem rawZero_mode (s : State) (a n : Nat) : (rawZero s a n).mode = s.mode := rfl
@[simp] theorem rawZero_now (s : State) (a n : Nat) : (rawZero s a n).now = s.now := rfl
@[simp] theorem rawZero_draws (s : State) (a n : Nat) : (rawZero s a n).draws = s.draws := rfl
@[simp] theorem rawZero_reg (s : State) (a n : Nat) : (rawZero s a n).reg = s.reg := rfl
@[simp] theorem rawZero_pend (s : State) (a n : Nat) : (rawZero s a n).pend = s.pend := rfl
@[simp] theorem rawZero_once (s : State) (a n : Nat) : (rawZero s a n).once = s.once := rfl
@[simp] theorem rawZero_board (s : State) (a n : Nat) : (rawZero s a n).board = s.board := rfl
@[simp] theorem rawZero_att (s : State) (a n : Nat) : (rawZero s a n).att = s.att := rfl
@[simp] theorem rawZero_nv (s : State) (a n : Nat) : (rawZero s a n).nv = s.nv := rfl
@[simp] theorem rawZero_bring (s : State) (a n : Nat) : (rawZero s a n).bring = s.bring := rfl
@[simp] theorem rawZero_gov (s : State) (a n : Nat) : (rawZero s a n).gov = s.gov := rfl
@[simp] theorem rawZero_ses (s : State) (a n : Nat) : (rawZero s a n).ses = s.ses := rfl
@[simp] theorem rawZero_job (s : State) (a n : Nat) : (rawZero s a n).job = s.job := rfl
@[simp] theorem rawZero_stalls (s : State) (a n : Nat) : (rawZero s a n).stalls = s.stalls := rfl
@[simp] theorem rawZero_cal (s : State) (a n : Nat) : (rawZero s a n).cal = s.cal := rfl
@[simp] theorem rawZero_fmt (s : State) (a n : Nat) : (rawZero s a n).fmt = s.fmt := rfl
@[simp] theorem rawZero_rte (s : State) (a n : Nat) : (rawZero s a n).rte = s.rte := rfl
@[simp] theorem rawZero_movs (s : State) (a n : Nat) : (rawZero s a n).movs = s.movs := rfl
@[simp] theorem rawZero_prt (s : State) (a n : Nat) : (rawZero s a n).prt = s.prt := rfl
@[simp] theorem rawZero_feed (s : State) (a n : Nat) : (rawZero s a n).feed = s.feed := rfl

/-! ## enqueue -/

@[simp] theorem enqueue_pending (s : State) (f : OutFrame) : (enqueue s f).pending = s.pending := rfl
@[simp] theorem enqueue_mode (s : State) (f : OutFrame) : (enqueue s f).mode = s.mode := rfl
@[simp] theorem enqueue_now (s : State) (f : OutFrame) : (enqueue s f).now = s.now := rfl
@[simp] theorem enqueue_draws (s : State) (f : OutFrame) : (enqueue s f).draws = s.draws := rfl
@[simp] theorem enqueue_reg (s : State) (f : OutFrame) : (enqueue s f).reg = s.reg := rfl
@[simp] theorem enqueue_pend (s : State) (f : OutFrame) : (enqueue s f).pend = s.pend := rfl
@[simp] theorem enqueue_mem (s : State) (f : OutFrame) : (enqueue s f).mem = s.mem := rfl
@[simp] theorem enqueue_brandBad (s : State) (f : OutFrame) : (enqueue s f).brandBad = s.brandBad := rfl
@[simp] theorem enqueue_once (s : State) (f : OutFrame) : (enqueue s f).once = s.once := rfl
@[simp] theorem enqueue_board (s : State) (f : OutFrame) : (enqueue s f).board = s.board := rfl
@[simp] theorem enqueue_att (s : State) (f : OutFrame) : (enqueue s f).att = s.att := rfl
@[simp] theorem enqueue_nv (s : State) (f : OutFrame) : (enqueue s f).nv = s.nv := rfl
@[simp] theorem enqueue_bring (s : State) (f : OutFrame) : (enqueue s f).bring = s.bring := rfl
@[simp] theorem enqueue_gov (s : State) (f : OutFrame) : (enqueue s f).gov = s.gov := rfl
@[simp] theorem enqueue_ses (s : State) (f : OutFrame) : (enqueue s f).ses = s.ses := rfl
@[simp] theorem enqueue_job (s : State) (f : OutFrame) : (enqueue s f).job = s.job := rfl
@[simp] theorem enqueue_stalls (s : State) (f : OutFrame) : (enqueue s f).stalls = s.stalls := rfl
@[simp] theorem enqueue_cal (s : State) (f : OutFrame) : (enqueue s f).cal = s.cal := rfl
@[simp] theorem enqueue_fmt (s : State) (f : OutFrame) : (enqueue s f).fmt = s.fmt := rfl
@[simp] theorem enqueue_rte (s : State) (f : OutFrame) : (enqueue s f).rte = s.rte := rfl
@[simp] theorem enqueue_upd (s : State) (f : OutFrame) : (enqueue s f).upd = s.upd := rfl
@[simp] theorem enqueue_movs (s : State) (f : OutFrame) : (enqueue s f).movs = s.movs := rfl
@[simp] theorem enqueue_feed (s : State) (f : OutFrame) : (enqueue s f).feed = s.feed := rfl
@[simp] theorem enqueue_team (s : State) (f : OutFrame) : (enqueue s f).team = s.team := rfl

/-! ## outCtl -/

@[simp] theorem outCtl_pending (s : State) (d : NetAddr) (c : CtlOut) : (outCtl s d c).pending = s.pending := rfl
@[simp] theorem outCtl_mode (s : State) (d : NetAddr) (c : CtlOut) : (outCtl s d c).mode = s.mode := rfl
@[simp] theorem outCtl_now (s : State) (d : NetAddr) (c : CtlOut) : (outCtl s d c).now = s.now := rfl
@[simp] theorem outCtl_draws (s : State) (d : NetAddr) (c : CtlOut) : (outCtl s d c).draws = s.draws := rfl
@[simp] theorem outCtl_reg (s : State) (d : NetAddr) (c : CtlOut) : (outCtl s d c).reg = s.reg := rfl
@[simp] theorem outCtl_pend (s : State) (d : NetAddr) (c : CtlOut) : (outCtl s d c).pend = s.pend := rfl
@[simp] theorem outCtl_mem (s : State) (d : NetAddr) (c : CtlOut) : (outCtl s d c).mem = s.mem := rfl
@[simp] theorem outCtl_brandBad (s : State) (d : NetAddr) (c : CtlOut) : (outCtl s d c).brandBad = s.brandBad := rfl
@[simp] theorem outCtl_once (s : State) (d : NetAddr) (c : CtlOut) : (outCtl s d c).once = s.once := rfl
@[simp] theorem outCtl_board (s : State) (d : NetAddr) (c : CtlOut) : (outCtl s d c).board = s.board := rfl
@[simp] theorem outCtl_att (s : State) (d : NetAddr) (c : CtlOut) : (outCtl s d c).att = s.att := rfl
@[simp] theorem outCtl_nv (s : State) (d : NetAddr) (c : CtlOut) : (outCtl s d c).nv = s.nv := rfl
@[simp] theorem outCtl_bring (s : State) (d : NetAddr) (c : CtlOut) : (outCtl s d c).bring = s.bring := rfl
@[simp] theorem outCtl_gov (s : State) (d : NetAddr) (c : CtlOut) : (outCtl s d c).gov = s.gov := rfl
@[simp] theorem outCtl_ses (s : State) (d : NetAddr) (c : CtlOut) : (outCtl s d c).ses = s.ses := rfl
@[simp] theorem outCtl_job (s : State) (d : NetAddr) (c : CtlOut) : (outCtl s d c).job = s.job := rfl
@[simp] theorem outCtl_stalls (s : State) (d : NetAddr) (c : CtlOut) : (outCtl s d c).stalls = s.stalls := rfl
@[simp] theorem outCtl_cal (s : State) (d : NetAddr) (c : CtlOut) : (outCtl s d c).cal = s.cal := rfl
@[simp] theorem outCtl_fmt (s : State) (d : NetAddr) (c : CtlOut) : (outCtl s d c).fmt = s.fmt := rfl
@[simp] theorem outCtl_rte (s : State) (d : NetAddr) (c : CtlOut) : (outCtl s d c).rte = s.rte := rfl
@[simp] theorem outCtl_upd (s : State) (d : NetAddr) (c : CtlOut) : (outCtl s d c).upd = s.upd := rfl
@[simp] theorem outCtl_movs (s : State) (d : NetAddr) (c : CtlOut) : (outCtl s d c).movs = s.movs := rfl
@[simp] theorem outCtl_feed (s : State) (d : NetAddr) (c : CtlOut) : (outCtl s d c).feed = s.feed := rfl
@[simp] theorem outCtl_team (s : State) (d : NetAddr) (c : CtlOut) : (outCtl s d c).team = s.team := rfl

/-! ## keepResponse -/

@[simp] theorem keepResponse_pending (s : State) (c : CtlOut) : (keepResponse s c).pending = s.pending := rfl
@[simp] theorem keepResponse_mode (s : State) (c : CtlOut) : (keepResponse s c).mode = s.mode := rfl
@[simp] theorem keepResponse_now (s : State) (c : CtlOut) : (keepResponse s c).now = s.now := rfl
@[simp] theorem keepResponse_draws (s : State) (c : CtlOut) : (keepResponse s c).draws = s.draws := rfl
@[simp] theorem keepResponse_reg (s : State) (c : CtlOut) : (keepResponse s c).reg = s.reg := rfl
@[simp] theorem keepResponse_pend (s : State) (c : CtlOut) : (keepResponse s c).pend = s.pend := rfl
@[simp] theorem keepResponse_mem (s : State) (c : CtlOut) : (keepResponse s c).mem = s.mem := rfl
@[simp] theorem keepResponse_brandBad (s : State) (c : CtlOut) : (keepResponse s c).brandBad = s.brandBad := rfl
@[simp] theorem keepResponse_once (s : State) (c : CtlOut) : (keepResponse s c).once = s.once := rfl
@[simp] theorem keepResponse_board (s : State) (c : CtlOut) : (keepResponse s c).board = s.board := rfl
@[simp] theorem keepResponse_att (s : State) (c : CtlOut) : (keepResponse s c).att = s.att := rfl
@[simp] theorem keepResponse_nv (s : State) (c : CtlOut) : (keepResponse s c).nv = s.nv := rfl
@[simp] theorem keepResponse_bring (s : State) (c : CtlOut) : (keepResponse s c).bring = s.bring := rfl
@[simp] theorem keepResponse_gov (s : State) (c : CtlOut) : (keepResponse s c).gov = s.gov := rfl
@[simp] theorem keepResponse_job (s : State) (c : CtlOut) : (keepResponse s c).job = s.job := rfl
@[simp] theorem keepResponse_stalls (s : State) (c : CtlOut) : (keepResponse s c).stalls = s.stalls := rfl
@[simp] theorem keepResponse_cal (s : State) (c : CtlOut) : (keepResponse s c).cal = s.cal := rfl
@[simp] theorem keepResponse_fmt (s : State) (c : CtlOut) : (keepResponse s c).fmt = s.fmt := rfl
@[simp] theorem keepResponse_rte (s : State) (c : CtlOut) : (keepResponse s c).rte = s.rte := rfl
@[simp] theorem keepResponse_upd (s : State) (c : CtlOut) : (keepResponse s c).upd = s.upd := rfl
@[simp] theorem keepResponse_movs (s : State) (c : CtlOut) : (keepResponse s c).movs = s.movs := rfl
@[simp] theorem keepResponse_prt (s : State) (c : CtlOut) : (keepResponse s c).prt = s.prt := rfl
@[simp] theorem keepResponse_feed (s : State) (c : CtlOut) : (keepResponse s c).feed = s.feed := rfl
@[simp] theorem keepResponse_team (s : State) (c : CtlOut) : (keepResponse s c).team = s.team := rfl

/-! ## respond -/

@[simp] theorem respond_pending (s : State) (f : CtlFrame) (b : Bytes) : (respond s f b).pending = s.pending := rfl
@[simp] theorem respond_mode (s : State) (f : CtlFrame) (b : Bytes) : (respond s f b).mode = s.mode := rfl
@[simp] theorem respond_now (s : State) (f : CtlFrame) (b : Bytes) : (respond s f b).now = s.now := rfl
@[simp] theorem respond_draws (s : State) (f : CtlFrame) (b : Bytes) : (respond s f b).draws = s.draws := rfl
@[simp] theorem respond_reg (s : State) (f : CtlFrame) (b : Bytes) : (respond s f b).reg = s.reg := rfl
@[simp] theorem respond_pend (s : State) (f : CtlFrame) (b : Bytes) : (respond s f b).pend = s.pend := rfl
@[simp] theorem respond_mem (s : State) (f : CtlFrame) (b : Bytes) : (respond s f b).mem = s.mem := rfl
@[simp] theorem respond_brandBad (s : State) (f : CtlFrame) (b : Bytes) : (respond s f b).brandBad = s.brandBad := rfl
@[simp] theorem respond_once (s : State) (f : CtlFrame) (b : Bytes) : (respond s f b).once = s.once := rfl
@[simp] theorem respond_board (s : State) (f : CtlFrame) (b : Bytes) : (respond s f b).board = s.board := rfl
@[simp] theorem respond_att (s : State) (f : CtlFrame) (b : Bytes) : (respond s f b).att = s.att := rfl
@[simp] theorem respond_nv (s : State) (f : CtlFrame) (b : Bytes) : (respond s f b).nv = s.nv := rfl
@[simp] theorem respond_bring (s : State) (f : CtlFrame) (b : Bytes) : (respond s f b).bring = s.bring := rfl
@[simp] theorem respond_gov (s : State) (f : CtlFrame) (b : Bytes) : (respond s f b).gov = s.gov := rfl
@[simp] theorem respond_job (s : State) (f : CtlFrame) (b : Bytes) : (respond s f b).job = s.job := rfl
@[simp] theorem respond_stalls (s : State) (f : CtlFrame) (b : Bytes) : (respond s f b).stalls = s.stalls := rfl
@[simp] theorem respond_cal (s : State) (f : CtlFrame) (b : Bytes) : (respond s f b).cal = s.cal := rfl
@[simp] theorem respond_fmt (s : State) (f : CtlFrame) (b : Bytes) : (respond s f b).fmt = s.fmt := rfl
@[simp] theorem respond_rte (s : State) (f : CtlFrame) (b : Bytes) : (respond s f b).rte = s.rte := rfl
@[simp] theorem respond_upd (s : State) (f : CtlFrame) (b : Bytes) : (respond s f b).upd = s.upd := rfl
@[simp] theorem respond_movs (s : State) (f : CtlFrame) (b : Bytes) : (respond s f b).movs = s.movs := rfl
@[simp] theorem respond_feed (s : State) (f : CtlFrame) (b : Bytes) : (respond s f b).feed = s.feed := rfl
@[simp] theorem respond_team (s : State) (f : CtlFrame) (b : Bytes) : (respond s f b).team = s.team := rfl

/-! ## setStall -/

@[simp] theorem setStall_pending (s : State) (p : Nat) (t : Stall) : (setStall s p t).pending = s.pending := rfl
@[simp] theorem setStall_mode (s : State) (p : Nat) (t : Stall) : (setStall s p t).mode = s.mode := rfl
@[simp] theorem setStall_now (s : State) (p : Nat) (t : Stall) : (setStall s p t).now = s.now := rfl
@[simp] theorem setStall_draws (s : State) (p : Nat) (t : Stall) : (setStall s p t).draws = s.draws := rfl
@[simp] theorem setStall_reg (s : State) (p : Nat) (t : Stall) : (setStall s p t).reg = s.reg := rfl
@[simp] theorem setStall_pend (s : State) (p : Nat) (t : Stall) : (setStall s p t).pend = s.pend := rfl
@[simp] theorem setStall_mem (s : State) (p : Nat) (t : Stall) : (setStall s p t).mem = s.mem := rfl
@[simp] theorem setStall_brandBad (s : State) (p : Nat) (t : Stall) : (setStall s p t).brandBad = s.brandBad := rfl
@[simp] theorem setStall_once (s : State) (p : Nat) (t : Stall) : (setStall s p t).once = s.once := rfl
@[simp] theorem setStall_board (s : State) (p : Nat) (t : Stall) : (setStall s p t).board = s.board := rfl
@[simp] theorem setStall_att (s : State) (p : Nat) (t : Stall) : (setStall s p t).att = s.att := rfl
@[simp] theorem setStall_nv (s : State) (p : Nat) (t : Stall) : (setStall s p t).nv = s.nv := rfl
@[simp] theorem setStall_bring (s : State) (p : Nat) (t : Stall) : (setStall s p t).bring = s.bring := rfl
@[simp] theorem setStall_gov (s : State) (p : Nat) (t : Stall) : (setStall s p t).gov = s.gov := rfl
@[simp] theorem setStall_ses (s : State) (p : Nat) (t : Stall) : (setStall s p t).ses = s.ses := rfl
@[simp] theorem setStall_job (s : State) (p : Nat) (t : Stall) : (setStall s p t).job = s.job := rfl
@[simp] theorem setStall_cal (s : State) (p : Nat) (t : Stall) : (setStall s p t).cal = s.cal := rfl
@[simp] theorem setStall_fmt (s : State) (p : Nat) (t : Stall) : (setStall s p t).fmt = s.fmt := rfl
@[simp] theorem setStall_rte (s : State) (p : Nat) (t : Stall) : (setStall s p t).rte = s.rte := rfl
@[simp] theorem setStall_upd (s : State) (p : Nat) (t : Stall) : (setStall s p t).upd = s.upd := rfl
@[simp] theorem setStall_movs (s : State) (p : Nat) (t : Stall) : (setStall s p t).movs = s.movs := rfl
@[simp] theorem setStall_prt (s : State) (p : Nat) (t : Stall) : (setStall s p t).prt = s.prt := rfl
@[simp] theorem setStall_feed (s : State) (p : Nat) (t : Stall) : (setStall s p t).feed = s.feed := rfl
@[simp] theorem setStall_team (s : State) (p : Nat) (t : Stall) : (setStall s p t).team = s.team := rfl

/-! ## modStall -/

@[simp] theorem modStall_pending (s : State) (p : Nat) (f : Stall → Stall) : (modStall s p f).pending = s.pending := rfl
@[simp] theorem modStall_mode (s : State) (p : Nat) (f : Stall → Stall) : (modStall s p f).mode = s.mode := rfl
@[simp] theorem modStall_now (s : State) (p : Nat) (f : Stall → Stall) : (modStall s p f).now = s.now := rfl
@[simp] theorem modStall_draws (s : State) (p : Nat) (f : Stall → Stall) : (modStall s p f).draws = s.draws := rfl
@[simp] theorem modStall_reg (s : State) (p : Nat) (f : Stall → Stall) : (modStall s p f).reg = s.reg := rfl
@[simp] theorem modStall_pend (s : State) (p : Nat) (f : Stall → Stall) : (modStall s p f).pend = s.pend := rfl
@[simp] theorem modStall_mem (s : State) (p : Nat) (f : Stall → Stall) : (modStall s p f).mem = s.mem := rfl
@[simp] theorem modStall_brandBad (s : State) (p : Nat) (f : Stall → Stall) : (modStall s p f).brandBad = s.brandBad := rfl
@[simp] theorem modStall_once (s : State) (p : Nat) (f : Stall → Stall) : (modStall s p f).once = s.once := rfl
@[simp] theorem modStall_board (s : State) (p : Nat) (f : Stall → Stall) : (modStall s p f).board = s.board := rfl
@[simp] theorem modStall_att (s : State) (p : Nat) (f : Stall → Stall) : (modStall s p f).att = s.att := rfl
@[simp] theorem modStall_nv (s : State) (p : Nat) (f : Stall → Stall) : (modStall s p f).nv = s.nv := rfl
@[simp] theorem modStall_bring (s : State) (p : Nat) (f : Stall → Stall) : (modStall s p f).bring = s.bring := rfl
@[simp] theorem modStall_gov (s : State) (p : Nat) (f : Stall → Stall) : (modStall s p f).gov = s.gov := rfl
@[simp] theorem modStall_ses (s : State) (p : Nat) (f : Stall → Stall) : (modStall s p f).ses = s.ses := rfl
@[simp] theorem modStall_job (s : State) (p : Nat) (f : Stall → Stall) : (modStall s p f).job = s.job := rfl
@[simp] theorem modStall_cal (s : State) (p : Nat) (f : Stall → Stall) : (modStall s p f).cal = s.cal := rfl
@[simp] theorem modStall_fmt (s : State) (p : Nat) (f : Stall → Stall) : (modStall s p f).fmt = s.fmt := rfl
@[simp] theorem modStall_rte (s : State) (p : Nat) (f : Stall → Stall) : (modStall s p f).rte = s.rte := rfl
@[simp] theorem modStall_upd (s : State) (p : Nat) (f : Stall → Stall) : (modStall s p f).upd = s.upd := rfl
@[simp] theorem modStall_movs (s : State) (p : Nat) (f : Stall → Stall) : (modStall s p f).movs = s.movs := rfl
@[simp] theorem modStall_prt (s : State) (p : Nat) (f : Stall → Stall) : (modStall s p f).prt = s.prt := rfl
@[simp] theorem modStall_feed (s : State) (p : Nat) (f : Stall → Stall) : (modStall s p f).feed = s.feed := rfl
@[simp] theorem modStall_team (s : State) (p : Nat) (f : Stall → Stall) : (modStall s p f).team = s.team := rfl

/-! ## setChip -/

@[simp] theorem setChip_pending (s : State) (z : Nat) (c : Chip) : (setChip s z c).pending = s.pending := rfl
@[simp] theorem setChip_mode (s : State) (z : Nat) (c : Chip) : (setChip s z c).mode = s.mode := rfl
@[simp] theorem setChip_now (s : State) (z : Nat) (c : Chip) : (setChip s z c).now = s.now := rfl
@[simp] theorem setChip_draws (s : State) (z : Nat) (c : Chip) : (setChip s z c).draws = s.draws := rfl
@[simp] theorem setChip_reg (s : State) (z : Nat) (c : Chip) : (setChip s z c).reg = s.reg := rfl
@[simp] theorem setChip_pend (s : State) (z : Nat) (c : Chip) : (setChip s z c).pend = s.pend := rfl
@[simp] theorem setChip_mem (s : State) (z : Nat) (c : Chip) : (setChip s z c).mem = s.mem := rfl
@[simp] theorem setChip_brandBad (s : State) (z : Nat) (c : Chip) : (setChip s z c).brandBad = s.brandBad := rfl
@[simp] theorem setChip_once (s : State) (z : Nat) (c : Chip) : (setChip s z c).once = s.once := rfl
@[simp] theorem setChip_board (s : State) (z : Nat) (c : Chip) : (setChip s z c).board = s.board := rfl
@[simp] theorem setChip_att (s : State) (z : Nat) (c : Chip) : (setChip s z c).att = s.att := rfl
@[simp] theorem setChip_nv (s : State) (z : Nat) (c : Chip) : (setChip s z c).nv = s.nv := rfl
@[simp] theorem setChip_bring (s : State) (z : Nat) (c : Chip) : (setChip s z c).bring = s.bring := rfl
@[simp] theorem setChip_gov (s : State) (z : Nat) (c : Chip) : (setChip s z c).gov = s.gov := rfl
@[simp] theorem setChip_ses (s : State) (z : Nat) (c : Chip) : (setChip s z c).ses = s.ses := rfl
@[simp] theorem setChip_job (s : State) (z : Nat) (c : Chip) : (setChip s z c).job = s.job := rfl
@[simp] theorem setChip_stalls (s : State) (z : Nat) (c : Chip) : (setChip s z c).stalls = s.stalls := rfl
@[simp] theorem setChip_cal (s : State) (z : Nat) (c : Chip) : (setChip s z c).cal = s.cal := rfl
@[simp] theorem setChip_fmt (s : State) (z : Nat) (c : Chip) : (setChip s z c).fmt = s.fmt := rfl
@[simp] theorem setChip_rte (s : State) (z : Nat) (c : Chip) : (setChip s z c).rte = s.rte := rfl
@[simp] theorem setChip_movs (s : State) (z : Nat) (c : Chip) : (setChip s z c).movs = s.movs := rfl
@[simp] theorem setChip_prt (s : State) (z : Nat) (c : Chip) : (setChip s z c).prt = s.prt := rfl
@[simp] theorem setChip_feed (s : State) (z : Nat) (c : Chip) : (setChip s z c).feed = s.feed := rfl
@[simp] theorem setChip_team (s : State) (z : Nat) (c : Chip) : (setChip s z c).team = s.team := rfl

/-! ## setChan -/

@[simp] theorem setChan_pending (s : State) (c : Nat) (h : Chan) : (setChan s c h).pending = s.pending := rfl
@[simp] theorem setChan_mode (s : State) (c : Nat) (h : Chan) : (setChan s c h).mode = s.mode := rfl
@[simp] theorem setChan_now (s : State) (c : Nat) (h : Chan) : (setChan s c h).now = s.now := rfl
@[simp] theorem setChan_draws (s : State) (c : Nat) (h : Chan) : (setChan s c h).draws = s.draws := rfl
@[simp] theorem setChan_reg (s : State) (c : Nat) (h : Chan) : (setChan s c h).reg = s.reg := rfl
@[simp] theorem setChan_pend (s : State) (c : Nat) (h : Chan) : (setChan s c h).pend = s.pend := rfl
@[simp] theorem setChan_mem (s : State) (c : Nat) (h : Chan) : (setChan s c h).mem = s.mem := rfl
@[simp] theorem setChan_brandBad (s : State) (c : Nat) (h : Chan) : (setChan s c h).brandBad = s.brandBad := rfl
@[simp] theorem setChan_once (s : State) (c : Nat) (h : Chan) : (setChan s c h).once = s.once := rfl
@[simp] theorem setChan_board (s : State) (c : Nat) (h : Chan) : (setChan s c h).board = s.board := rfl
@[simp] theorem setChan_att (s : State) (c : Nat) (h : Chan) : (setChan s c h).att = s.att := rfl
@[simp] theorem setChan_nv (s : State) (c : Nat) (h : Chan) : (setChan s c h).nv = s.nv := rfl
@[simp] theorem setChan_bring (s : State) (c : Nat) (h : Chan) : (setChan s c h).bring = s.bring := rfl
@[simp] theorem setChan_gov (s : State) (c : Nat) (h : Chan) : (setChan s c h).gov = s.gov := rfl
@[simp] theorem setChan_ses (s : State) (c : Nat) (h : Chan) : (setChan s c h).ses = s.ses := rfl
@[simp] theorem setChan_job (s : State) (c : Nat) (h : Chan) : (setChan s c h).job = s.job := rfl
@[simp] theorem setChan_stalls (s : State) (c : Nat) (h : Chan) : (setChan s c h).stalls = s.stalls := rfl
@[simp] theorem setChan_cal (s : State) (c : Nat) (h : Chan) : (setChan s c h).cal = s.cal := rfl
@[simp] theorem setChan_fmt (s : State) (c : Nat) (h : Chan) : (setChan s c h).fmt = s.fmt := rfl
@[simp] theorem setChan_rte (s : State) (c : Nat) (h : Chan) : (setChan s c h).rte = s.rte := rfl
@[simp] theorem setChan_upd (s : State) (c : Nat) (h : Chan) : (setChan s c h).upd = s.upd := rfl
@[simp] theorem setChan_prt (s : State) (c : Nat) (h : Chan) : (setChan s c h).prt = s.prt := rfl
@[simp] theorem setChan_feed (s : State) (c : Nat) (h : Chan) : (setChan s c h).feed = s.feed := rfl
@[simp] theorem setChan_team (s : State) (c : Nat) (h : Chan) : (setChan s c h).team = s.team := rfl

/-! ## draw -/

@[simp] theorem draw_pending (s : State) : (draw s).pending = s.pending := rfl
@[simp] theorem draw_mode (s : State) : (draw s).mode = s.mode := rfl
@[simp] theorem draw_now (s : State) : (draw s).now = s.now := rfl
@[simp] theorem draw_reg (s : State) : (draw s).reg = s.reg := rfl
@[simp] theorem draw_pend (s : State) : (draw s).pend = s.pend := rfl
@[simp] theorem draw_mem (s : State) : (draw s).mem = s.mem := rfl
@[simp] theorem draw_brandBad (s : State) : (draw s).brandBad = s.brandBad := rfl
@[simp] theorem draw_once (s : State) : (draw s).once = s.once := rfl
@[simp] theorem draw_board (s : State) : (draw s).board = s.board := rfl
@[simp] theorem draw_att (s : State) : (draw s).att = s.att := rfl
@[simp] theorem draw_nv (s : State) : (draw s).nv = s.nv := rfl
@[simp] theorem draw_bring (s : State) : (draw s).bring = s.bring := rfl
@[simp] theorem draw_gov (s : State) : (draw s).gov = s.gov := rfl
@[simp] theorem draw_ses (s : State) : (draw s).ses = s.ses := rfl
@[simp] theorem draw_job (s : State) : (draw s).job = s.job := rfl
@[simp] theorem draw_stalls (s : State) : (draw s).stalls = s.stalls := rfl
@[simp] theorem draw_cal (s : State) : (draw s).cal = s.cal := rfl
@[simp] theorem draw_fmt (s : State) : (draw s).fmt = s.fmt := rfl
@[simp] theorem draw_rte (s : State) : (draw s).rte = s.rte := rfl
@[simp] theorem draw_upd (s : State) : (draw s).upd = s.upd := rfl
@[simp] theorem draw_movs (s : State) : (draw s).movs = s.movs := rfl
@[simp] theorem draw_prt (s : State) : (draw s).prt = s.prt := rfl
@[simp] theorem draw_feed (s : State) : (draw s).feed = s.feed := rfl
@[simp] theorem draw_team (s : State) : (draw s).team = s.team := rfl

/-! ## holdGate -/

@[simp] theorem holdGate_pending (s : State) : (holdGate s).pending = s.pending := rfl
@[simp] theorem holdGate_mode (s : State) : (holdGate s).mode = s.mode := rfl
@[simp] theorem holdGate_now (s : State) : (holdGate s).now = s.now := rfl
@[simp] theorem holdGate_draws (s : State) : (holdGate s).draws = s.draws := rfl
@[simp] theorem holdGate_reg (s : State) : (holdGate s).reg = s.reg := rfl
@[simp] theorem holdGate_pend (s : State) : (holdGate s).pend = s.pend := rfl
@[simp] theorem holdGate_mem (s : State) : (holdGate s).mem = s.mem := rfl
@[simp] theorem holdGate_brandBad (s : State) : (holdGate s).brandBad = s.brandBad := rfl
@[simp] theorem holdGate_once (s : State) : (holdGate s).once = s.once := rfl
@[simp] theorem holdGate_board (s : State) : (holdGate s).board = s.board := rfl
@[simp] theorem holdGate_att (s : State) : (holdGate s).att = s.att := rfl
@[simp] theorem holdGate_nv (s : State) : (holdGate s).nv = s.nv := rfl
@[simp] theorem holdGate_bring (s : State) : (holdGate s).bring = s.bring := rfl
@[simp] theorem holdGate_gov (s : State) : (holdGate s).gov = s.gov := rfl
@[simp] theorem holdGate_ses (s : State) : (holdGate s).ses = s.ses := rfl
@[simp] theorem holdGate_stalls (s : State) : (holdGate s).stalls = s.stalls := rfl
@[simp] theorem holdGate_cal (s : State) : (holdGate s).cal = s.cal := rfl
@[simp] theorem holdGate_fmt (s : State) : (holdGate s).fmt = s.fmt := rfl
@[simp] theorem holdGate_rte (s : State) : (holdGate s).rte = s.rte := rfl
@[simp] theorem holdGate_upd (s : State) : (holdGate s).upd = s.upd := rfl
@[simp] theorem holdGate_movs (s : State) : (holdGate s).movs = s.movs := rfl
@[simp] theorem holdGate_prt (s : State) : (holdGate s).prt = s.prt := rfl
@[simp] theorem holdGate_feed (s : State) : (holdGate s).feed = s.feed := rfl
@[simp] theorem holdGate_team (s : State) : (holdGate s).team = s.team := rfl

/-! ## clearOnce -/

@[simp] theorem clearOnce_pending (s : State) (c u : Nat) : (clearOnce s c u).pending = s.pending := rfl
@[simp] theorem clearOnce_mode (s : State) (c u : Nat) : (clearOnce s c u).mode = s.mode := rfl
@[simp] theorem clearOnce_now (s : State) (c u : Nat) : (clearOnce s c u).now = s.now := rfl
@[simp] theorem clearOnce_draws (s : State) (c u : Nat) : (clearOnce s c u).draws = s.draws := rfl
@[simp] theorem clearOnce_reg (s : State) (c u : Nat) : (clearOnce s c u).reg = s.reg := rfl
@[simp] theorem clearOnce_pend (s : State) (c u : Nat) : (clearOnce s c u).pend = s.pend := rfl
@[simp] theorem clearOnce_mem (s : State) (c u : Nat) : (clearOnce s c u).mem = s.mem := rfl
@[simp] theorem clearOnce_brandBad (s : State) (c u : Nat) : (clearOnce s c u).brandBad = s.brandBad := rfl
@[simp] theorem clearOnce_board (s : State) (c u : Nat) : (clearOnce s c u).board = s.board := rfl
@[simp] theorem clearOnce_att (s : State) (c u : Nat) : (clearOnce s c u).att = s.att := rfl
@[simp] theorem clearOnce_nv (s : State) (c u : Nat) : (clearOnce s c u).nv = s.nv := rfl
@[simp] theorem clearOnce_bring (s : State) (c u : Nat) : (clearOnce s c u).bring = s.bring := rfl
@[simp] theorem clearOnce_gov (s : State) (c u : Nat) : (clearOnce s c u).gov = s.gov := rfl
@[simp] theorem clearOnce_ses (s : State) (c u : Nat) : (clearOnce s c u).ses = s.ses := rfl
@[simp] theorem clearOnce_job (s : State) (c u : Nat) : (clearOnce s c u).job = s.job := rfl
@[simp] theorem clearOnce_stalls (s : State) (c u : Nat) : (clearOnce s c u).stalls = s.stalls := rfl
@[simp] theorem clearOnce_cal (s : State) (c u : Nat) : (clearOnce s c u).cal = s.cal := rfl
@[simp] theorem clearOnce_fmt (s : State) (c u : Nat) : (clearOnce s c u).fmt = s.fmt := rfl
@[simp] theorem clearOnce_rte (s : State) (c u : Nat) : (clearOnce s c u).rte = s.rte := rfl
@[simp] theorem clearOnce_upd (s : State) (c u : Nat) : (clearOnce s c u).upd = s.upd := rfl
@[simp] theorem clearOnce_movs (s : State) (c u : Nat) : (clearOnce s c u).movs = s.movs := rfl
@[simp] theorem clearOnce_prt (s : State) (c u : Nat) : (clearOnce s c u).prt = s.prt := rfl
@[simp] theorem clearOnce_feed (s : State) (c u : Nat) : (clearOnce s c u).feed = s.feed := rfl
@[simp] theorem clearOnce_team (s : State) (c u : Nat) : (clearOnce s c u).team = s.team := rfl

end Sys2Proof.Machine
end

