-- ==== Sys2Proof/Laws/Ops.lean ====
section
/-! SUPPORT. Laws/Ops.lean: what each shared operation does and what it leaves as it was. -/
namespace Sys2Proof.Machine
open Sys2Proof

/-! ## Register fields -/

/-- A field just set reads as the value at its width. -/
@[simp] theorem getF_setF (s : State) (f : Field) (u v : Nat) : getF (setF s f u v) f u = v % 2 ^ f.width := by
  simp [getF, setF]

/-- A field elsewhere reads as before. -/
theorem getF_setF_ne (s : State) {f g : Field} {u w : Nat} (v : Nat) (h : fkey g w ≠ fkey f u) :
    getF (setF s f u v) g w = getF s g w := tget_tput_ne _ _ _ _ h

/-- A field reads the register table alone. -/
theorem getF_congr {s t : State} (h : s.reg = t.reg) (f : Field) (u : Nat) : getF s f u = getF t f u := by
  unfold getF; rw [h]

/-- A counting field goes up by what is added and stops at its largest value (R22). -/
theorem getF_bumpF (s : State) (f : Field) (u n : Nat) :
    getF (bumpF s f u n) f u = min (2 ^ f.width - 1) (getF s f u + n) := by
  unfold bumpF satAdd
  rw [getF_setF, Nat.mod_eq_of_lt]
  have := Nat.two_pow_pos f.width
  omega

theorem getF_bumpF_ne (s : State) {f g : Field} {u w : Nat} (n : Nat) (h : fkey g w ≠ fkey f u) :
    getF (bumpF s f u n) g w = getF s g w := getF_setF_ne s _ h

/-- Fields of different units of one register lie apart. -/
theorem fkey_unit_ne {f : Field} {u w : Nat} (hp : f.paged = false) (hs : 0 < f.stride) (h : u ≠ w) : fkey f u ≠ fkey f w := by
  intro e
  simp only [fkey, unitOff, hp, Bool.false_eq_true, if_false] at e
  have : f.stride * u = f.stride * w := by omega
  exact h (Nat.eq_of_mul_eq_mul_left hs this)

/-- The pending value of a field just written (R17). -/
@[simp] theorem getP_setP (s : State) (f : Field) (u v : Nat) : getP (setP s f u v) f u = v % 2 ^ f.width := by
  simp [getP, setP, tget?_tset]

/-- A pending write leaves the active value (R17). -/
@[simp] theorem getF_setP (s : State) (f g : Field) (u w v : Nat) : getF (setP s f u v) g w = getF s g w := rfl

/-! ## Records of units -/

@[simp] theorem getStall_setStall (s : State) (p : Nat) (t : Stall) : getStall (setStall s p t) p = t := by
  simp [getStall, setStall]

theorem getStall_setStall_ne (s : State) {p q : Nat} (t : Stall) (h : q ≠ p) : getStall (setStall s p t) q = getStall s q :=
  tget_tput_ne _ _ _ _ h

@[simp] theorem getStall_modStall (s : State) (p : Nat) (f : Stall → Stall) : getStall (modStall s p f) p = f (getStall s p) := by
  simp [modStall]

theorem getStall_modStall_ne (s : State) {p q : Nat} (f : Stall → Stall) (h : q ≠ p) :
    getStall (modStall s p f) q = getStall s q := getStall_setStall_ne s _ h

@[simp] theorem getStall_setF (s : State) (f : Field) (u v p : Nat) : getStall (setF s f u v) p = getStall s p := rfl

@[simp] theorem getF_setStall (s : State) (p : Nat) (t : Stall) (f : Field) (u : Nat) : getF (setStall s p t) f u = getF s f u := rfl

@[simp] theorem getF_modStall (s : State) (p : Nat) (g : Stall → Stall) (f : Field) (u : Nat) :
    getF (modStall s p g) f u = getF s f u := rfl

@[simp] theorem getChip_setChip (s : State) (n : Nat) (c : Chip) : getChip (setChip s n c) n = c := by
  simp [getChip, setChip]

theorem getChip_setChip_ne (s : State) {m n : Nat} (c : Chip) (h : m ≠ n) : getChip (setChip s n c) m = getChip s m :=
  tget_tput_ne _ _ _ _ h

@[simp] theorem getChan_setChan (s : State) (c : Nat) (k : Chan) : getChan (setChan s c k) c = k := by
  simp [getChan, setChan]

theorem getChan_setChan_ne (s : State) {c d : Nat} (k : Chan) (h : d ≠ c) : getChan (setChan s c k) d = getChan s d :=
  tget_tput_ne _ _ _ _ h

@[simp] theorem getChan_setF (s : State) (f : Field) (u v c : Nat) : getChan (setF s f u v) c = getChan s c := rfl

@[simp] theorem getF_setChan (s : State) (c : Nat) (k : Chan) (f : Field) (u : Nat) : getF (setChan s c k) f u = getF s f u := rfl

/-! ## Conditions -/

theorem live_on {f : State → State} {s : State} (h : s.board.railsOn = true) : live f s = f s := by simp [live, h]

theorem inModule_on {f : State → State} {s : State} (h : s.board.railsOn = true) : inModule s f = .next (f s) := by
  simp [inModule, live, h]

theorem onStall_on {p : Nat} {f : State → State} {s : State} (hp : p < 512) (h : s.board.railsOn = true) :
    onStall p s f = .next (f s) := by simp [onStall, live, hp, h]

theorem onTile_on {p t : Nat} {f : State → State} {s : State} (hp : p < 512) (ht : t < 34) (h : s.board.railsOn = true) :
    onTile p t s f = .next (f s) := by simp [onTile, live, hp, ht, h]

theorem onUnit_on {n u : Nat} {f : State → State} {s : State} (hu : u < n) (h : s.board.railsOn = true) :
    onUnit n u s f = .next (f s) := by simp [onUnit, live, hu, h]

@[simp] theorem when_true (f : State → State) (s : State) : when true f s = f s := rfl
@[simp] theorem when_false (f : State → State) (s : State) : when false f s = s := rfl

/-! ## What the writes and the events leave -/

/-- A change under a condition leaves what the change leaves. -/
theorem when_frame {β : Type} (g : State → β) {f : State → State} (h : ∀ s, g (f s) = g s) (c : Bool) (s : State) :
    g (when c f s) = g s := by
  unfold when; split
  · exact h s
  · rfl

/-- A fold whose every step leaves a part of the state leaves it. -/
theorem forEach_frame {α β : Type} (g : State → β) {f : State → α → State} (h : ∀ s a, g (f s a) = g s) (l : List α)
    (s : State) : g (forEach l f s) = g s := by
  unfold forEach
  induction l generalizing s with
  | nil => rfl
  | cons a r ih => exact (ih (f s a)).trans (h s a)

/-- `t` differs from `s` at most in registers, memory with its brands and poison, securing and frames to send. -/
structure OnlyStores (s t : State) : Prop where
  mode : t.mode = s.mode
  now : t.now = s.now
  draws : t.draws = s.draws
  pend : t.pend = s.pend
  once : t.once = s.once
  board : t.board = s.board
  att : t.att = s.att
  nv : t.nv = s.nv
  gov : t.gov = s.gov
  ses : t.ses = s.ses
  job : t.job = s.job
  stalls : t.stalls = s.stalls
  cal : t.cal = s.cal
  fmt : t.fmt = s.fmt
  rte : t.rte = s.rte
  movs : t.movs = s.movs
  feed : t.feed = s.feed
  pending : t.pending = s.pending
  bring : t.bring = s.bring

variable {z s t : State}

theorem OnlyStores.refl (s : State) : OnlyStores s s := by constructor <;> rfl

theorem OnlyStores.trans (h : OnlyStores z s) (k : OnlyStores s t) : OnlyStores z t :=
  ⟨k.mode.trans h.mode, k.now.trans h.now, k.draws.trans h.draws, k.pend.trans h.pend, k.once.trans h.once, k.board.trans h.board, k.att.trans h.att, k.nv.trans h.nv, k.gov.trans h.gov, k.ses.trans h.ses, k.job.trans h.job, k.stalls.trans h.stalls, k.cal.trans h.cal, k.fmt.trans h.fmt, k.rte.trans h.rte, k.movs.trans h.movs, k.feed.trans h.feed, k.pending.trans h.pending, k.bring.trans h.bring⟩

theorem OnlyStores.setF (s : State) (f : Field) (u v : Nat) : OnlyStores s (setF s f u v) := by constructor <;> rfl

theorem OnlyStores.quietWrite (s : State) (a : Nat) (b : Bytes) : OnlyStores s (quietWrite s a b) := by constructor <;> rfl

theorem OnlyStores.quietCopy (s : State) (a b n : Nat) : OnlyStores s (quietCopy s a b n) := by constructor <;> rfl

theorem OnlyStores.rawWrite (s : State) (a : Nat) (b : Bytes) : OnlyStores s (rawWrite s a b) := by constructor <;> rfl

theorem OnlyStores.rawCopy (s : State) (a b n : Nat) : OnlyStores s (rawCopy s a b n) := by constructor <;> rfl

theorem OnlyStores.rawZero (s : State) (a n : Nat) : OnlyStores s (rawZero s a n) := by constructor <;> rfl

theorem OnlyStores.setPage (s : State) (p : Page) : OnlyStores s (setPage s p) := by constructor <;> rfl

theorem OnlyStores.sendTeam (s : State) (port ftype step page group chunk : Nat) (b : Bytes) :
    OnlyStores s (sendTeam s port ftype step page group chunk b) := by constructor <;> rfl

theorem OnlyStores.forEach {α : Type} {f : State → α → State} (h : ∀ s a, OnlyStores s (f s a)) (l : List α) (s : State) :
    OnlyStores s (forEach l f s) := by
  unfold Machine.forEach
  induction l generalizing s with
  | nil => exact .refl s
  | cons a r ih => exact (h s a).trans (ih (f s a))

theorem OnlyStores.when {f : State → State} (h : ∀ s, OnlyStores s (f s)) (c : Bool) (s : State) :
    OnlyStores s (when c f s) := by
  unfold Machine.when; split
  · exact h s
  · exact .refl s

theorem OnlyStores.sendPage (s : State) (src step group page : Nat) : OnlyStores s (sendPage s src step group page) :=
  .forEach (fun t k => .sendTeam t _ _ _ _ _ _ _) _ s

theorem OnlyStores.streamPage (s : State) (p : Page) : OnlyStores s (streamPage s p) := by
  unfold Machine.streamPage
  exact ((((OnlyStores.quietCopy s _ _ _).trans (.quietWrite _ _ _)).trans (.quietWrite _ _ _)).trans (.setF _ _ _ _)).trans
    ((OnlyStores.when (fun u => .sendPage u _ _ _ _) _ _).trans (.setPage _ _))

theorem OnlyStores.protect (s : State) (a n : Nat) : OnlyStores s (protect s a n) := by
  refine .forEach (fun t p => ?_) _ s
  unfold protectPage
  split
  · exact ((OnlyStores.quietCopy t _ _ _).trans (.setPage _ _)).trans (.setF _ _ _ _)
  · exact .streamPage t p

theorem OnlyStores.write (s : State) (a : Nat) (b : Bytes) : OnlyStores s (write s a b) :=
  (OnlyStores.protect s a b.length).trans (.rawWrite _ a b)

theorem OnlyStores.copy (s : State) (src dst n : Nat) : OnlyStores s (copy s src dst n) :=
  (OnlyStores.protect s dst n).trans (.rawCopy _ src dst n)

theorem OnlyStores.zero (s : State) (a n : Nat) : OnlyStores s (zero s a n) :=
  (OnlyStores.protect s a n).trans (.rawZero _ a n)

theorem OnlyStores.ringEvent (s : State) (r : EventRec) : OnlyStores s (ringEvent s r) := by
  unfold Machine.ringEvent
  dsimp only
  split
  · exact .setF s _ _ _
  · exact (OnlyStores.write s _ _).trans (.setF _ _ _ _)

/-- All an event can do (R61, R63, R104, R152): nothing, a log entry in bring-up, a record in the ring past it. -/
theorem raise_cases (s : State) (code coord d0 d1 : Nat) : raise s code coord d0 d1 = s ∨
    (s.mode = .bringup ∧ ∃ r, raise s code coord d0 d1 = logEvent s r) ∨
    (s.mode ≠ .bringup ∧ ∃ r, raise s code coord d0 d1 = ringEvent s r) := by
  unfold raise
  dsimp only
  split
  · exact .inl rfl
  · generalize s.mode = m
    cases m
    case off => exact .inl rfl
    case watch => exact .inl rfl
    case bringup => exact .inr (.inl ⟨rfl, _, rfl⟩)
    all_goals exact .inr (.inr ⟨nofun, _, rfl⟩)

/-- A raised event changes nothing else, outside bring-up, than its record needs. -/
theorem OnlyStores.raise (s : State) (code coord d0 d1 : Nat) (h : s.mode ≠ .bringup) :
    OnlyStores s (raise s code coord d0 d1) := by
  rcases raise_cases s code coord d0 d1 with e | ⟨e, -⟩ | ⟨-, r, e⟩
  · rw [e]; exact .refl s
  · contradiction
  · rw [e]; exact .ringEvent s r


@[simp] theorem protect_mode (s : State) (a n : Nat) : (protect s a n).mode = s.mode := (OnlyStores.protect s a n).mode
@[simp] theorem protect_now (s : State) (a n : Nat) : (protect s a n).now = s.now := (OnlyStores.protect s a n).now
@[simp] theorem protect_draws (s : State) (a n : Nat) : (protect s a n).draws = s.draws := (OnlyStores.protect s a n).draws
@[simp] theorem protect_pend (s : State) (a n : Nat) : (protect s a n).pend = s.pend := (OnlyStores.protect s a n).pend
@[simp] theorem protect_once (s : State) (a n : Nat) : (protect s a n).once = s.once := (OnlyStores.protect s a n).once
@[simp] theorem protect_board (s : State) (a n : Nat) : (protect s a n).board = s.board := (OnlyStores.protect s a n).board
@[simp] theorem protect_att (s : State) (a n : Nat) : (protect s a n).att = s.att := (OnlyStores.protect s a n).att
@[simp] theorem protect_nv (s : State) (a n : Nat) : (protect s a n).nv = s.nv := (OnlyStores.protect s a n).nv
@[simp] theorem protect_gov (s : State) (a n : Nat) : (protect s a n).gov = s.gov := (OnlyStores.protect s a n).gov
@[simp] theorem protect_ses (s : State) (a n : Nat) : (protect s a n).ses = s.ses := (OnlyStores.protect s a n).ses
@[simp] theorem protect_job (s : State) (a n : Nat) : (protect s a n).job = s.job := (OnlyStores.protect s a n).job
@[simp] theorem protect_stalls (s : State) (a n : Nat) : (protect s a n).stalls = s.stalls := (OnlyStores.protect s a n).stalls
@[simp] theorem protect_cal (s : State) (a n : Nat) : (protect s a n).cal = s.cal := (OnlyStores.protect s a n).cal
@[simp] theorem protect_fmt (s : State) (a n : Nat) : (protect s a n).fmt = s.fmt := (OnlyStores.protect s a n).fmt
@[simp] theorem protect_rte (s : State) (a n : Nat) : (protect s a n).rte = s.rte := (OnlyStores.protect s a n).rte
@[simp] theorem protect_movs (s : State) (a n : Nat) : (protect s a n).movs = s.movs := (OnlyStores.protect s a n).movs
@[simp] theorem protect_feed (s : State) (a n : Nat) : (protect s a n).feed = s.feed := (OnlyStores.protect s a n).feed
@[simp] theorem protect_pending (s : State) (a n : Nat) : (protect s a n).pending = s.pending := (OnlyStores.protect s a n).pending
@[simp] theorem protect_bring (s : State) (a n : Nat) : (protect s a n).bring = s.bring := (OnlyStores.protect s a n).bring

@[simp] theorem write_mode (s : State) (a : Nat) (b : Bytes) : (write s a b).mode = s.mode := (OnlyStores.write s a b).mode
@[simp] theorem write_now (s : State) (a : Nat) (b : Bytes) : (write s a b).now = s.now := (OnlyStores.write s a b).now
@[simp] theorem write_draws (s : State) (a : Nat) (b : Bytes) : (write s a b).draws = s.draws := (OnlyStores.write s a b).draws
@[simp] theorem write_pend (s : State) (a : Nat) (b : Bytes) : (write s a b).pend = s.pend := (OnlyStores.write s a b).pend
@[simp] theorem write_once (s : State) (a : Nat) (b : Bytes) : (write s a b).once = s.once := (OnlyStores.write s a b).once
@[simp] theorem write_board (s : State) (a : Nat) (b : Bytes) : (write s a b).board = s.board := (OnlyStores.write s a b).board
@[simp] theorem write_att (s : State) (a : Nat) (b : Bytes) : (write s a b).att = s.att := (OnlyStores.write s a b).att
@[simp] theorem write_nv (s : State) (a : Nat) (b : Bytes) : (write s a b).nv = s.nv := (OnlyStores.write s a b).nv
@[simp] theorem write_gov (s : State) (a : Nat) (b : Bytes) : (write s a b).gov = s.gov := (OnlyStores.write s a b).gov
@[simp] theorem write_ses (s : State) (a : Nat) (b : Bytes) : (write s a b).ses = s.ses := (OnlyStores.write s a b).ses
@[simp] theorem write_job (s : State) (a : Nat) (b : Bytes) : (write s a b).job = s.job := (OnlyStores.write s a b).job
@[simp] theorem write_stalls (s : State) (a : Nat) (b : Bytes) : (write s a b).stalls = s.stalls := (OnlyStores.write s a b).stalls
@[simp] theorem write_cal (s : State) (a : Nat) (b : Bytes) : (write s a b).cal = s.cal := (OnlyStores.write s a b).cal
@[simp] theorem write_fmt (s : State) (a : Nat) (b : Bytes) : (write s a b).fmt = s.fmt := (OnlyStores.write s a b).fmt
@[simp] theorem write_rte (s : State) (a : Nat) (b : Bytes) : (write s a b).rte = s.rte := (OnlyStores.write s a b).rte
@[simp] theorem write_movs (s : State) (a : Nat) (b : Bytes) : (write s a b).movs = s.movs := (OnlyStores.write s a b).movs
@[simp] theorem write_feed (s : State) (a : Nat) (b : Bytes) : (write s a b).feed = s.feed := (OnlyStores.write s a b).feed
@[simp] theorem write_pending (s : State) (a : Nat) (b : Bytes) : (write s a b).pending = s.pending := (OnlyStores.write s a b).pending
@[simp] theorem write_bring (s : State) (a : Nat) (b : Bytes) : (write s a b).bring = s.bring := (OnlyStores.write s a b).bring

@[simp] theorem copy_mode (s : State) (src dst n : Nat) : (copy s src dst n).mode = s.mode := (OnlyStores.copy s src dst n).mode
@[simp] theorem copy_now (s : State) (src dst n : Nat) : (copy s src dst n).now = s.now := (OnlyStores.copy s src dst n).now
@[simp] theorem copy_draws (s : State) (src dst n : Nat) : (copy s src dst n).draws = s.draws := (OnlyStores.copy s src dst n).draws
@[simp] theorem copy_pend (s : State) (src dst n : Nat) : (copy s src dst n).pend = s.pend := (OnlyStores.copy s src dst n).pend
@[simp] theorem copy_once (s : State) (src dst n : Nat) : (copy s src dst n).once = s.once := (OnlyStores.copy s src dst n).once
@[simp] theorem copy_board (s : State) (src dst n : Nat) : (copy s src dst n).board = s.board := (OnlyStores.copy s src dst n).board
@[simp] theorem copy_att (s : State) (src dst n : Nat) : (copy s src dst n).att = s.att := (OnlyStores.copy s src dst n).att
@[simp] theorem copy_nv (s : State) (src dst n : Nat) : (copy s src dst n).nv = s.nv := (OnlyStores.copy s src dst n).nv
@[simp] theorem copy_gov (s : State) (src dst n : Nat) : (copy s src dst n).gov = s.gov := (OnlyStores.copy s src dst n).gov
@[simp] theorem copy_ses (s : State) (src dst n : Nat) : (copy s src dst n).ses = s.ses := (OnlyStores.copy s src dst n).ses
@[simp] theorem copy_job (s : State) (src dst n : Nat) : (copy s src dst n).job = s.job := (OnlyStores.copy s src dst n).job
@[simp] theorem copy_stalls (s : State) (src dst n : Nat) : (copy s src dst n).stalls = s.stalls := (OnlyStores.copy s src dst n).stalls
@[simp] theorem copy_cal (s : State) (src dst n : Nat) : (copy s src dst n).cal = s.cal := (OnlyStores.copy s src dst n).cal
@[simp] theorem copy_fmt (s : State) (src dst n : Nat) : (copy s src dst n).fmt = s.fmt := (OnlyStores.copy s src dst n).fmt
@[simp] theorem copy_rte (s : State) (src dst n : Nat) : (copy s src dst n).rte = s.rte := (OnlyStores.copy s src dst n).rte
@[simp] theorem copy_movs (s : State) (src dst n : Nat) : (copy s src dst n).movs = s.movs := (OnlyStores.copy s src dst n).movs
@[simp] theorem copy_feed (s : State) (src dst n : Nat) : (copy s src dst n).feed = s.feed := (OnlyStores.copy s src dst n).feed
@[simp] theorem copy_pending (s : State) (src dst n : Nat) : (copy s src dst n).pending = s.pending := (OnlyStores.copy s src dst n).pending
@[simp] theorem copy_bring (s : State) (src dst n : Nat) : (copy s src dst n).bring = s.bring := (OnlyStores.copy s src dst n).bring

@[simp] theorem zero_mode (s : State) (a n : Nat) : (zero s a n).mode = s.mode := (OnlyStores.zero s a n).mode
@[simp] theorem zero_now (s : State) (a n : Nat) : (zero s a n).now = s.now := (OnlyStores.zero s a n).now
@[simp] theorem zero_draws (s : State) (a n : Nat) : (zero s a n).draws = s.draws := (OnlyStores.zero s a n).draws
@[simp] theorem zero_pend (s : State) (a n : Nat) : (zero s a n).pend = s.pend := (OnlyStores.zero s a n).pend
@[simp] theorem zero_once (s : State) (a n : Nat) : (zero s a n).once = s.once := (OnlyStores.zero s a n).once
@[simp] theorem zero_board (s : State) (a n : Nat) : (zero s a n).board = s.board := (OnlyStores.zero s a n).board
@[simp] theorem zero_att (s : State) (a n : Nat) : (zero s a n).att = s.att := (OnlyStores.zero s a n).att
@[simp] theorem zero_nv (s : State) (a n : Nat) : (zero s a n).nv = s.nv := (OnlyStores.zero s a n).nv
@[simp] theorem zero_gov (s : State) (a n : Nat) : (zero s a n).gov = s.gov := (OnlyStores.zero s a n).gov
@[simp] theorem zero_ses (s : State) (a n : Nat) : (zero s a n).ses = s.ses := (OnlyStores.zero s a n).ses
@[simp] theorem zero_job (s : State) (a n : Nat) : (zero s a n).job = s.job := (OnlyStores.zero s a n).job
@[simp] theorem zero_stalls (s : State) (a n : Nat) : (zero s a n).stalls = s.stalls := (OnlyStores.zero s a n).stalls
@[simp] theorem zero_cal (s : State) (a n : Nat) : (zero s a n).cal = s.cal := (OnlyStores.zero s a n).cal
@[simp] theorem zero_fmt (s : State) (a n : Nat) : (zero s a n).fmt = s.fmt := (OnlyStores.zero s a n).fmt
@[simp] theorem zero_rte (s : State) (a n : Nat) : (zero s a n).rte = s.rte := (OnlyStores.zero s a n).rte
@[simp] theorem zero_movs (s : State) (a n : Nat) : (zero s a n).movs = s.movs := (OnlyStores.zero s a n).movs
@[simp] theorem zero_feed (s : State) (a n : Nat) : (zero s a n).feed = s.feed := (OnlyStores.zero s a n).feed
@[simp] theorem zero_pending (s : State) (a n : Nat) : (zero s a n).pending = s.pending := (OnlyStores.zero s a n).pending
@[simp] theorem zero_bring (s : State) (a n : Nat) : (zero s a n).bring = s.bring := (OnlyStores.zero s a n).bring

@[simp] theorem ringEvent_mode (s : State) (r : EventRec) : (ringEvent s r).mode = s.mode := (OnlyStores.ringEvent s r).mode
@[simp] theorem ringEvent_now (s : State) (r : EventRec) : (ringEvent s r).now = s.now := (OnlyStores.ringEvent s r).now
@[simp] theorem ringEvent_draws (s : State) (r : EventRec) : (ringEvent s r).draws = s.draws := (OnlyStores.ringEvent s r).draws
@[simp] theorem ringEvent_pend (s : State) (r : EventRec) : (ringEvent s r).pend = s.pend := (OnlyStores.ringEvent s r).pend
@[simp] theorem ringEvent_once (s : State) (r : EventRec) : (ringEvent s r).once = s.once := (OnlyStores.ringEvent s r).once
@[simp] theorem ringEvent_board (s : State) (r : EventRec) : (ringEvent s r).board = s.board := (OnlyStores.ringEvent s r).board
@[simp] theorem ringEvent_att (s : State) (r : EventRec) : (ringEvent s r).att = s.att := (OnlyStores.ringEvent s r).att
@[simp] theorem ringEvent_nv (s : State) (r : EventRec) : (ringEvent s r).nv = s.nv := (OnlyStores.ringEvent s r).nv
@[simp] theorem ringEvent_gov (s : State) (r : EventRec) : (ringEvent s r).gov = s.gov := (OnlyStores.ringEvent s r).gov
@[simp] theorem ringEvent_ses (s : State) (r : EventRec) : (ringEvent s r).ses = s.ses := (OnlyStores.ringEvent s r).ses
@[simp] theorem ringEvent_job (s : State) (r : EventRec) : (ringEvent s r).job = s.job := (OnlyStores.ringEvent s r).job
@[simp] theorem ringEvent_stalls (s : State) (r : EventRec) : (ringEvent s r).stalls = s.stalls := (OnlyStores.ringEvent s r).stalls
@[simp] theorem ringEvent_cal (s : State) (r : EventRec) : (ringEvent s r).cal = s.cal := (OnlyStores.ringEvent s r).cal
@[simp] theorem ringEvent_fmt (s : State) (r : EventRec) : (ringEvent s r).fmt = s.fmt := (OnlyStores.ringEvent s r).fmt
@[simp] theorem ringEvent_rte (s : State) (r : EventRec) : (ringEvent s r).rte = s.rte := (OnlyStores.ringEvent s r).rte
@[simp] theorem ringEvent_movs (s : State) (r : EventRec) : (ringEvent s r).movs = s.movs := (OnlyStores.ringEvent s r).movs
@[simp] theorem ringEvent_feed (s : State) (r : EventRec) : (ringEvent s r).feed = s.feed := (OnlyStores.ringEvent s r).feed
@[simp] theorem ringEvent_pending (s : State) (r : EventRec) : (ringEvent s r).pending = s.pending := (OnlyStores.ringEvent s r).pending
@[simp] theorem ringEvent_bring (s : State) (r : EventRec) : (ringEvent s r).bring = s.bring := (OnlyStores.ringEvent s r).bring

@[simp] theorem logEvent_mode (s : State) (r : EventRec) : (logEvent s r).mode = s.mode := by unfold logEvent; split <;> rfl

@[simp] theorem raise_mode (s : State) (code coord d0 d1 : Nat) : (raise s code coord d0 d1).mode = s.mode := by
  rcases raise_cases s code coord d0 d1 with e | ⟨-, r, e⟩ | ⟨-, r, e⟩ <;> rw [e]
  · exact logEvent_mode s r
  · exact (OnlyStores.ringEvent s r).mode

@[simp] theorem logEvent_now (s : State) (r : EventRec) : (logEvent s r).now = s.now := by unfold logEvent; split <;> rfl

@[simp] theorem raise_now (s : State) (code coord d0 d1 : Nat) : (raise s code coord d0 d1).now = s.now := by
  rcases raise_cases s code coord d0 d1 with e | ⟨-, r, e⟩ | ⟨-, r, e⟩ <;> rw [e]
  · exact logEvent_now s r
  · exact (OnlyStores.ringEvent s r).now

@[simp] theorem logEvent_draws (s : State) (r : EventRec) : (logEvent s r).draws = s.draws := by unfold logEvent; split <;> rfl

@[simp] theorem raise_draws (s : State) (code coord d0 d1 : Nat) : (raise s code coord d0 d1).draws = s.draws := by
  rcases raise_cases s code coord d0 d1 with e | ⟨-, r, e⟩ | ⟨-, r, e⟩ <;> rw [e]
  · exact logEvent_draws s r
  · exact (OnlyStores.ringEvent s r).draws

@[simp] theorem logEvent_pend (s : State) (r : EventRec) : (logEvent s r).pend = s.pend := by unfold logEvent; split <;> rfl

@[simp] theorem raise_pend (s : State) (code coord d0 d1 : Nat) : (raise s code coord d0 d1).pend = s.pend := by
  rcases raise_cases s code coord d0 d1 with e | ⟨-, r, e⟩ | ⟨-, r, e⟩ <;> rw [e]
  · exact logEvent_pend s r
  · exact (OnlyStores.ringEvent s r).pend

@[simp] theorem logEvent_once (s : State) (r : EventRec) : (logEvent s r).once = s.once := by unfold logEvent; split <;> rfl

@[simp] theorem raise_once (s : State) (code coord d0 d1 : Nat) : (raise s code coord d0 d1).once = s.once := by
  rcases raise_cases s code coord d0 d1 with e | ⟨-, r, e⟩ | ⟨-, r, e⟩ <;> rw [e]
  · exact logEvent_once s r
  · exact (OnlyStores.ringEvent s r).once

@[simp] theorem logEvent_board (s : State) (r : EventRec) : (logEvent s r).board = s.board := by unfold logEvent; split <;> rfl

@[simp] theorem raise_board (s : State) (code coord d0 d1 : Nat) : (raise s code coord d0 d1).board = s.board := by
  rcases raise_cases s code coord d0 d1 with e | ⟨-, r, e⟩ | ⟨-, r, e⟩ <;> rw [e]
  · exact logEvent_board s r
  · exact (OnlyStores.ringEvent s r).board

@[simp] theorem logEvent_att (s : State) (r : EventRec) : (logEvent s r).att = s.att := by unfold logEvent; split <;> rfl

@[simp] theorem raise_att (s : State) (code coord d0 d1 : Nat) : (raise s code coord d0 d1).att = s.att := by
  rcases raise_cases s code coord d0 d1 with e | ⟨-, r, e⟩ | ⟨-, r, e⟩ <;> rw [e]
  · exact logEvent_att s r
  · exact (OnlyStores.ringEvent s r).att

@[simp] theorem logEvent_nv (s : State) (r : EventRec) : (logEvent s r).nv = s.nv := by unfold logEvent; split <;> rfl

@[simp] theorem raise_nv (s : State) (code coord d0 d1 : Nat) : (raise s code coord d0 d1).nv = s.nv := by
  rcases raise_cases s code coord d0 d1 with e | ⟨-, r, e⟩ | ⟨-, r, e⟩ <;> rw [e]
  · exact logEvent_nv s r
  · exact (OnlyStores.ringEvent s r).nv

@[simp] theorem logEvent_gov (s : State) (r : EventRec) : (logEvent s r).gov = s.gov := by unfold logEvent; split <;> rfl

@[simp] theorem raise_gov (s : State) (code coord d0 d1 : Nat) : (raise s code coord d0 d1).gov = s.gov := by
  rcases raise_cases s code coord d0 d1 with e | ⟨-, r, e⟩ | ⟨-, r, e⟩ <;> rw [e]
  · exact logEvent_gov s r
  · exact (OnlyStores.ringEvent s r).gov

@[simp] theorem logEvent_ses (s : State) (r : EventRec) : (logEvent s r).ses = s.ses := by unfold logEvent; split <;> rfl

@[simp] theorem raise_ses (s : State) (code coord d0 d1 : Nat) : (raise s code coord d0 d1).ses = s.ses := by
  rcases raise_cases s code coord d0 d1 with e | ⟨-, r, e⟩ | ⟨-, r, e⟩ <;> rw [e]
  · exact logEvent_ses s r
  · exact (OnlyStores.ringEvent s r).ses

@[simp] theorem logEvent_job (s : State) (r : EventRec) : (logEvent s r).job = s.job := by unfold logEvent; split <;> rfl

@[simp] theorem raise_job (s : State) (code coord d0 d1 : Nat) : (raise s code coord d0 d1).job = s.job := by
  rcases raise_cases s code coord d0 d1 with e | ⟨-, r, e⟩ | ⟨-, r, e⟩ <;> rw [e]
  · exact logEvent_job s r
  · exact (OnlyStores.ringEvent s r).job

@[simp] theorem logEvent_stalls (s : State) (r : EventRec) : (logEvent s r).stalls = s.stalls := by unfold logEvent; split <;> rfl

@[simp] theorem raise_stalls (s : State) (code coord d0 d1 : Nat) : (raise s code coord d0 d1).stalls = s.stalls := by
  rcases raise_cases s code coord d0 d1 with e | ⟨-, r, e⟩ | ⟨-, r, e⟩ <;> rw [e]
  · exact logEvent_stalls s r
  · exact (OnlyStores.ringEvent s r).stalls

@[simp] theorem logEvent_cal (s : State) (r : EventRec) : (logEvent s r).cal = s.cal := by unfold logEvent; split <;> rfl

@[simp] theorem raise_cal (s : State) (code coord d0 d1 : Nat) : (raise s code coord d0 d1).cal = s.cal := by
  rcases raise_cases s code coord d0 d1 with e | ⟨-, r, e⟩ | ⟨-, r, e⟩ <;> rw [e]
  · exact logEvent_cal s r
  · exact (OnlyStores.ringEvent s r).cal

@[simp] theorem logEvent_fmt (s : State) (r : EventRec) : (logEvent s r).fmt = s.fmt := by unfold logEvent; split <;> rfl

@[simp] theorem raise_fmt (s : State) (code coord d0 d1 : Nat) : (raise s code coord d0 d1).fmt = s.fmt := by
  rcases raise_cases s code coord d0 d1 with e | ⟨-, r, e⟩ | ⟨-, r, e⟩ <;> rw [e]
  · exact logEvent_fmt s r
  · exact (OnlyStores.ringEvent s r).fmt

@[simp] theorem logEvent_rte (s : State) (r : EventRec) : (logEvent s r).rte = s.rte := by unfold logEvent; split <;> rfl

@[simp] theorem raise_rte (s : State) (code coord d0 d1 : Nat) : (raise s code coord d0 d1).rte = s.rte := by
  rcases raise_cases s code coord d0 d1 with e | ⟨-, r, e⟩ | ⟨-, r, e⟩ <;> rw [e]
  · exact logEvent_rte s r
  · exact (OnlyStores.ringEvent s r).rte

@[simp] theorem logEvent_movs (s : State) (r : EventRec) : (logEvent s r).movs = s.movs := by unfold logEvent; split <;> rfl

@[simp] theorem raise_movs (s : State) (code coord d0 d1 : Nat) : (raise s code coord d0 d1).movs = s.movs := by
  rcases raise_cases s code coord d0 d1 with e | ⟨-, r, e⟩ | ⟨-, r, e⟩ <;> rw [e]
  · exact logEvent_movs s r
  · exact (OnlyStores.ringEvent s r).movs

@[simp] theorem logEvent_feed (s : State) (r : EventRec) : (logEvent s r).feed = s.feed := by unfold logEvent; split <;> rfl

@[simp] theorem raise_feed (s : State) (code coord d0 d1 : Nat) : (raise s code coord d0 d1).feed = s.feed := by
  rcases raise_cases s code coord d0 d1 with e | ⟨-, r, e⟩ | ⟨-, r, e⟩ <;> rw [e]
  · exact logEvent_feed s r
  · exact (OnlyStores.ringEvent s r).feed

@[simp] theorem logEvent_pending (s : State) (r : EventRec) : (logEvent s r).pending = s.pending := by unfold logEvent; split <;> rfl

@[simp] theorem raise_pending (s : State) (code coord d0 d1 : Nat) : (raise s code coord d0 d1).pending = s.pending := by
  rcases raise_cases s code coord d0 d1 with e | ⟨-, r, e⟩ | ⟨-, r, e⟩ <;> rw [e]
  · exact logEvent_pending s r
  · exact (OnlyStores.ringEvent s r).pending

end Sys2Proof.Machine
end

