-- ==== Sys2Proof/Laws/Events.lean ====
section
/-! SUPPORT. Laws/Events.lean: the register fields that writes and events change, all others read as before; the bits of a
number after one of them is set; a field read after several are set. -/
namespace Sys2Proof.Machine
open Sys2Proof

/-- The fields that a write, a page's securing or an event changes: the event ring's producer and dropped count, the buffer's
use, the mark of the previous step's slots, and the count of what the log dropped. -/
def eventKeys : List Nat :=
  [fkey R.ctlEvtProducer_producer 0, fkey R.ctlEvtStatus_dropped 0, fkey R.pairBuf_usedMib 0,
    fkey R.pairSecure_prevValid 0, fkey R.bruStatus_logDropped 0]

/-- Every register field but those of `eventKeys` reads in `t` as in `s`. -/
def KeepsReg (s t : State) : Prop := ∀ f u, fkey f u ∉ eventKeys → getF t f u = getF s f u

variable {z s t : State}

theorem KeepsReg.refl (s : State) : KeepsReg s s := fun _ _ _ => rfl

theorem KeepsReg.trans (h : KeepsReg z s) (k : KeepsReg s t) : KeepsReg z t :=
  fun f u n => (k f u n).trans (h f u n)

/-- The register table is the same. -/
theorem KeepsReg.same (h : t.reg = s.reg) : KeepsReg s t := fun f u _ => getF_congr h f u

/-- One of those fields is set. -/
theorem KeepsReg.setF (s : State) {f : Field} {u : Nat} (v : Nat) (h : fkey f u ∈ eventKeys) : KeepsReg s (setF s f u v) :=
  fun _ _ n => getF_setF_ne s v (fun e => n (e ▸ h))

theorem KeepsReg.forEach {α : Type} {f : State → α → State} (h : ∀ s a, KeepsReg s (f s a)) (l : List α) (s : State) :
    KeepsReg s (forEach l f s) := by
  induction l generalizing s with
  | nil => exact .refl s
  | cons a l ih => exact (h s a).trans (ih _)

theorem KeepsReg.when {f : State → State} (h : ∀ s, KeepsReg s (f s)) (c : Bool) (s : State) : KeepsReg s (when c f s) := by
  unfold Machine.when; split
  · exact h s
  · exact .refl s

theorem KeepsReg.sendPage (s : State) (src step group page : Nat) : KeepsReg s (sendPage s src step group page) := by
  unfold Machine.sendPage
  refine .forEach (fun s k => ?_) _ s
  exact .same rfl

theorem KeepsReg.quietWrite (s : State) (a : Nat) (b : Bytes) : KeepsReg s (quietWrite s a b) := .same rfl

theorem KeepsReg.quietCopy (s : State) (a b n : Nat) : KeepsReg s (quietCopy s a b n) := .same rfl

theorem KeepsReg.setPage (s : State) (p : Page) : KeepsReg s (setPage s p) := .same rfl

theorem KeepsReg.streamPage (s : State) (p : Page) : KeepsReg s (streamPage s p) := by
  unfold Machine.streamPage
  extract_lets
  refine KeepsReg.trans ?_ (KeepsReg.setPage _ _)
  refine KeepsReg.trans ?_ (KeepsReg.when (fun t => KeepsReg.sendPage t _ _ _ _) _ _)
  refine KeepsReg.trans ?_ (KeepsReg.setF _ _ (by decide))
  refine KeepsReg.trans ?_ (KeepsReg.quietWrite _ _ _)
  refine KeepsReg.trans ?_ (KeepsReg.quietWrite _ _ _)
  exact KeepsReg.quietCopy _ _ _ _

theorem KeepsReg.protect (s : State) (a n : Nat) : KeepsReg s (protect s a n) := by
  refine .forEach (fun s p => ?_) _ s
  unfold protectPage
  split
  · exact (KeepsReg.same (by rfl)).trans (KeepsReg.setF _ _ (by decide))
  · exact .streamPage s p

theorem KeepsReg.write (s : State) (a : Nat) (b : Bytes) : KeepsReg s (write s a b) :=
  (KeepsReg.protect s a b.length).trans (.same rfl)

theorem KeepsReg.zero (s : State) (a n : Nat) : KeepsReg s (zero s a n) := (KeepsReg.protect s a n).trans (.same rfl)

theorem KeepsReg.copy (s : State) (a b n : Nat) : KeepsReg s (copy s a b n) := (KeepsReg.protect s b n).trans (.same rfl)

theorem KeepsReg.ringEvent (s : State) (r : EventRec) : KeepsReg s (ringEvent s r) := by
  unfold Machine.ringEvent
  dsimp only
  split
  · exact .setF s _ (by decide)
  · exact (KeepsReg.write s _ _).trans (.setF _ _ (by decide))

theorem KeepsReg.raise (s : State) (code coord d0 d1 : Nat) : KeepsReg s (raise s code coord d0 d1) := by
  unfold Machine.raise
  dsimp only
  split
  · exact .refl s
  · generalize s.mode = m
    cases m
    case off => exact .refl s
    case watch => exact .refl s
    case bringup =>
      dsimp only
      unfold logEvent; split
      · exact .same rfl
      · exact .setF s _ (by decide)
    all_goals exact .ringEvent s _

theorem KeepsReg.raiseOnce (s : State) (code unit coord d0 d1 : Nat) : KeepsReg s (raiseOnce s code unit coord d0 d1) := by
  unfold Machine.raiseOnce
  split
  · exact .refl s
  · exact (KeepsReg.same (by rfl)).trans (.raise _ _ _ _ _)

theorem getF_write {f : Field} {u : Nat} (h : fkey f u ∉ eventKeys) (s : State) (a : Nat) (b : Bytes) :
    getF (write s a b) f u = getF s f u := KeepsReg.write s a b f u h

theorem getF_raise {f : Field} {u : Nat} (h : fkey f u ∉ eventKeys) (s : State) (code coord d0 d1 : Nat) :
    getF (raise s code coord d0 d1) f u = getF s f u := KeepsReg.raise s code coord d0 d1 f u h

theorem getF_raiseOnce {f : Field} {u : Nat} (h : fkey f u ∉ eventKeys) (s : State) (code unit coord d0 d1 : Nat) :
    getF (raiseOnce s code unit coord d0 d1) f u = getF s f u := KeepsReg.raiseOnce s code unit coord d0 d1 f u h

theorem getF_outCtl (s : State) (dst : NetAddr) (c : CtlOut) (f : Field) (u : Nat) : getF (outCtl s dst c) f u = getF s f u := rfl

theorem sendNumbered_reg (s : State) (c : CtlOut) : (sendNumbered s c).reg = s.reg := by
  unfold sendNumbered; split
  · rfl
  · split <;> rfl

theorem getF_sendNumbered (s : State) (c : CtlOut) (f : Field) (u : Nat) : getF (sendNumbered s c) f u = getF s f u :=
  getF_congr (sendNumbered_reg s c) f u

/-- Several fields of unit 0 set: one that is not among them reads as before. -/
theorem getF_setFs_ne (s : State) (l : List (Field × Nat)) {f : Field} {u : Nat} (h : ∀ p ∈ l, fkey f u ≠ fkey p.1 0) :
    getF (setFs s l) f u = getF s f u := by
  induction l generalizing s with
  | nil => rfl
  | cons p l ih =>
    show getF (setFs (setF s p.1 0 p.2) l) f u = _
    rw [ih _ (fun q m => h q (List.mem_cons_of_mem _ m)), getF_setF_ne s _ (h p List.mem_cons_self)]

/-- The last of several fields set reads as its value, and an earlier one too where no later one is the same. -/
theorem getF_setFs (s : State) (l r : List (Field × Nat)) (f : Field) (v : Nat) (h : ∀ p ∈ r, fkey f 0 ≠ fkey p.1 0) :
    getF (setFs s (l ++ (f, v) :: r)) f 0 = v % 2 ^ f.width := by
  have : setFs s (l ++ (f, v) :: r) = setFs (setF (setFs s l) f 0 v) r := by simp [setFs, List.foldl_append]
  rw [this, getF_setFs_ne _ r h, getF_setF]

/-! ## Bits of a number -/

theorem bit_eq_testBit (v i : Nat) : bit v i = v.testBit i := by
  rw [Nat.testBit_eq_decide_div_mod_eq]; rfl

/-- A bit set reads as set; every other reads as before. -/
theorem bit_setBit (v i : Nat) (b : Bool) (j : Nat) : bit (setBit v i b) j = if j = i then b else bit v j := by
  have h1 := Nat.div_add_mod v (2 ^ i)
  have h2 := Nat.div_add_mod (v / 2 ^ i) 2
  have h3 : v / 2 ^ (i + 1) = v / 2 ^ i / 2 := by rw [pow_succ, Nat.div_div_eq_div_mul]
  have h4 : b2n (bit v i) = v / 2 ^ i % 2 := by
    unfold b2n bit; rcases Nat.mod_two_eq_zero_or_one (v / 2 ^ i) with h | h <;> simp [h]
  have hv : v = (v / 2 ^ (i + 1)) * 2 ^ (i + 1) + (b2n (bit v i) * 2 ^ i + v % 2 ^ i) := by
    rw [h3, h4, pow_succ]
    have h5 : 2 ^ i * (2 * (v / 2 ^ i / 2) + v / 2 ^ i % 2) + v % 2 ^ i = v := by rw [h2]; exact h1
    calc v = 2 ^ i * (2 * (v / 2 ^ i / 2) + v / 2 ^ i % 2) + v % 2 ^ i := h5.symm
      _ = _ := by ring
  have hs : setBit v i b = (v / 2 ^ (i + 1)) * 2 ^ (i + 1) + (b2n b * 2 ^ i + v % 2 ^ i) := by
    unfold setBit; omega
  have hlo : v % 2 ^ i < 2 ^ i := Nat.mod_lt _ (Nat.two_pow_pos i)
  have hc : b2n b * 2 ^ i + v % 2 ^ i < 2 ^ (i + 1) := by rw [pow_succ]; unfold b2n; split <;> omega
  rw [bit_eq_testBit, bit_eq_testBit, hs, mul_comm, Nat.testBit_two_pow_mul_add _ hc]
  by_cases hj : j < i + 1
  · rw [if_pos hj, mul_comm, Nat.testBit_two_pow_mul_add _ hlo]
    by_cases hji : j < i
    · rw [if_pos hji, if_neg (by omega), Nat.testBit_mod_two_pow]; simp [hji]
    · have : j = i := by omega
      subst this; rw [if_neg hji, if_pos rfl]; cases b <;> simp [b2n]
  · rw [if_neg hj, if_neg (by omega), Nat.testBit_div_two_pow]; congr 1; omega

end Sys2Proof.Machine
end

