-- ==== Sys2Proof/Laws/Kept.lean ====
section
/-! SUPPORT. Laws/Kept.lean: what every operation of the model keeps, whatever it does: the queue of waiting commands, the
canonical memory, the order of the tables and the bounds of Safety.lean; and that draws of free values are never taken
back. The other files of this kind say it of one operation each. -/
namespace Sys2Proof.Machine
open Sys2Proof

/-- `t` came from `s` without touching the queue, and is kept as well as `s` was. -/
structure Kept (s t : State) : Prop where
  queue : t.pending = s.pending
  draws : s.draws ≤ t.draws
  mem : s.memOk = true → t.memOk = true
  tables : s.tablesOk = true → t.tablesOk = true
  bounds : s.boundsOk = true → t.boundsOk = true

/-- Every next state of an outcome is kept. -/
structure KeptOut (s : State) (o : Out) : Prop where
  out : ∀ t, o = .next t → Kept s t

variable {z s t : State}

theorem Kept.refl (s : State) : Kept s s := ⟨rfl, Nat.le_refl _, id, id, id⟩

theorem Kept.trans (h : Kept z s) (k : Kept s t) : Kept z t :=
  ⟨k.queue.trans h.queue, Nat.le_trans h.draws k.draws, fun m => k.mem (h.mem m), fun m => k.tables (h.tables m),
    fun m => k.bounds (h.bounds m)⟩

/-- The parts of the state that `Kept` speaks of. -/
def keptParts (s : State) :=
  (s.pending, s.draws, s.mem, s.reg, s.pend, s.stalls, s.movs, s.upd.chips, s.bring.log, s.ses.cache, s.ses.unacked,
    s.nv.slots)

theorem Kept.ofParts (h : keptParts t = keptParts s) : Kept s t := by
  simp only [keptParts, Prod.mk.injEq] at h
  obtain ⟨h1, h2, h3, h4, h5, h6, h7, h8, h9, h10, h11, h12⟩ := h
  refine ⟨h1, h2 ▸ Nat.le_refl _, fun h => ?_, fun h => ?_, fun h => ?_⟩
  · unfold State.memOk at *; rw [h3]; exact h
  · unfold State.tablesOk at *; rw [h4, h5, h6, h7, h8]; exact h
  · unfold State.boundsOk at *; rw [h9, h10, h11, h12]; exact h

/-- A change of nothing that `Kept` speaks of. -/
theorem Kept.same (h : Kept z s) (e : keptParts t = keptParts s) : Kept z t := h.trans (.ofParts e)

/-- The same for a state written field by field. -/
theorem Kept.lit {mode : Mode} {now : Nat} {bb : List (Nat × Bool)} {once : List (Nat × Nat)} {board : Board} {att : Attach} {nv : NonVol}
    {bring : Bring} {gov : Gov} {ses : Session} {job : Job} {cal : Cal} {fmt : Fmt} {rte : Rte} {upd : Upd} {prt : Prt}
    {feed : Feed} {team : Team} (h : Kept z s)
    (e : (upd.chips, bring.log, ses.cache, ses.unacked, nv.slots)
      = (s.upd.chips, s.bring.log, s.ses.cache, s.ses.unacked, s.nv.slots)) :
    Kept z (State.mk s.pending mode now s.draws s.reg s.pend s.mem bb once board att nv bring gov ses job s.stalls cal fmt rte
      upd s.movs prt feed team) := by
  simp only [Prod.mk.injEq] at e
  refine h.same ?_
  simp only [keptParts, e]

theorem Kept.fst {β : Type} {b : β} (h : Kept z s) : Kept z (s, b).1 := h

/-- The state of a pair that a match has taken apart. -/
theorem Kept.ofPair {β : Type} {x : State × β} {b : β} (e : x = (s, b)) (h : Kept z x.1) : Kept z s := by
  rw [e] at h; exact h

/-- Cut: a kept intermediate state. -/
theorem Kept.cut {p q : Prop} (h : p) (k : p → q) : q := k h

/-- Either branch is kept. -/
theorem Kept.ofIte {c : Prop} [Decidable c] {a b : State} (h1 : Kept z a) (h2 : Kept z b) :
    Kept z (if c then a else b) := by
  split
  · exact h1
  · exact h2

/-- A pair whose first form a kept step takes on. -/
theorem Kept.thenGo {x : State × Bool} {g : State → State} (h : Kept z x.1)
    (hg : ∀ t, Kept z t → Kept z (g t)) : Kept z (if x.2 then g x.1 else x.1) :=
  Kept.ofIte (hg _ h) h

/-- A pair that is either its first form or a kept step on from it. -/
theorem Kept.orElse {x : State × Bool} {g : State → State} (h : Kept z x.1)
    (hg : ∀ t, Kept z t → Kept z (g t)) : Kept z (if x.2 then x else (g x.1, false)).1 := by
  rcases x with ⟨t, _ | _⟩
  · exact hg t h
  · exact h

theorem Kept.ofFun {α β : Type} (_ : α → β) {p : Prop} (h : p) : p := h

theorem KeptOut.next (h : Kept z s) : KeptOut z (.next s) := ⟨fun t e => by
  cases e; exact h⟩

theorem KeptOut.fault (f : Fault) : KeptOut z (.fault f) := ⟨fun t e => by cases e⟩

/-- A state's own memory is replaced by a canonical one. -/
theorem Kept.setMem (h : Kept z s) {m : List Host.Cell} (hm : Memory.wf s.mem = true → Memory.wf m = true) :
    Kept z { s with mem := m } :=
  h.trans ⟨rfl, Nat.le_refl _, hm, id, id⟩

theorem Kept.setDraws (h : Kept z s) {n : Nat} (hn : s.draws ≤ n) : Kept z { s with draws := n } :=
  h.trans ⟨rfl, hn, id, id, id⟩

/-- Draws taken, and nothing else that `Kept` speaks of. -/
theorem Kept.moreDraws (h : Kept z s) (e : keptParts t = (s.pending, t.draws, s.mem, s.reg, s.pend, s.stalls, s.movs,
    s.upd.chips, s.bring.log, s.ses.cache, s.ses.unacked, s.nv.slots)) (hn : s.draws ≤ t.draws) : Kept z t :=
  (h.setDraws hn).same e

theorem tablesOk_iff (s : State) : s.tablesOk = true ↔ tsorted s.reg = true ∧ tsorted s.pend = true ∧
    tsorted s.stalls = true ∧ tsorted s.movs = true ∧ tsorted s.upd.chips = true := by
  simp [State.tablesOk, and_assoc]

theorem boundsOk_iff (s : State) : s.boundsOk = true ↔ s.bring.log.length ≤ 1024 ∧ s.ses.cache.length ≤ 64 ∧
    s.ses.unacked.length ≤ 64 ∧ s.nv.slots.length = 4 := by
  simp [State.boundsOk, and_assoc]

/-- New tables in place of the old, each sorted if the old ones were. -/
theorem Kept.setTables (h : Kept z s) (q : t.pending = s.pending) (d : t.draws = s.draws) (m : t.mem = s.mem)
    (r : tsorted s.reg = true → tsorted t.reg = true) (p : tsorted s.pend = true → tsorted t.pend = true)
    (a : tsorted s.stalls = true → tsorted t.stalls = true) (b : tsorted s.movs = true → tsorted t.movs = true)
    (c : tsorted s.upd.chips = true → tsorted t.upd.chips = true)
    (l : (t.bring.log, t.ses.cache, t.ses.unacked, t.nv.slots) = (s.bring.log, s.ses.cache, s.ses.unacked, s.nv.slots)) :
    Kept z t := by
  refine h.trans ⟨q, d ▸ Nat.le_refl _, fun k => ?_, fun k => ?_, fun k => ?_⟩
  · unfold State.memOk at *; rw [m]; exact k
  · rw [tablesOk_iff] at *
    exact ⟨r k.1, p k.2.1, a k.2.2.1, b k.2.2.2.1, c k.2.2.2.2⟩
  · simp only [Prod.mk.injEq] at l
    rw [boundsOk_iff] at *
    rw [l.1, l.2.1, l.2.2.1, l.2.2.2]; exact k

/-- A new register table. -/
theorem Kept.setReg (h : Kept z s) {r : Tab Nat} (hr : tsorted s.reg = true → tsorted r = true) :
    Kept z { s with reg := r } := h.setTables rfl rfl rfl hr id id id id rfl

/-- New session and log records within their bounds. -/
theorem Kept.setBounds (h : Kept z s) (e : (t.pending, t.draws, t.mem, t.reg, t.pend, t.stalls, t.movs, t.upd.chips)
      = (s.pending, s.draws, s.mem, s.reg, s.pend, s.stalls, s.movs, s.upd.chips))
    (l : s.bring.log.length ≤ 1024 → t.bring.log.length ≤ 1024) (c : s.ses.cache.length ≤ 64 → t.ses.cache.length ≤ 64)
    (u : s.ses.unacked.length ≤ 64 → t.ses.unacked.length ≤ 64) (n : t.nv.slots.length = s.nv.slots.length) :
    Kept z t := by
  simp only [Prod.mk.injEq] at e
  obtain ⟨h1, h2, h3, h4, h5, h6, h7, h8⟩ := e
  refine h.trans ⟨h1, h2 ▸ Nat.le_refl _, fun k => ?_, fun k => ?_, fun k => ?_⟩
  · unfold State.memOk at *; rw [h3]; exact k
  · unfold State.tablesOk at *; rw [h4, h5, h6, h7, h8]; exact k
  · rw [boundsOk_iff] at *
    rw [n]
    exact ⟨l k.1, c k.2.1, u k.2.2.1, k.2.2.2⟩

/-- A fold whose every step keeps a property of its accumulator keeps it. -/
theorem foldl_inv {α β : Type} {f : β → α → β} {l : List α} (P : β → Prop) (hf : ∀ b a, P b → P (f b a)) {b : β} (h : P b) :
    P (l.foldl f b) := by
  induction l generalizing b with
  | nil => exact h
  | cons a r ih => exact ih (hf _ _ h)

/-- A fold that keeps the state at every element keeps it. -/
theorem Kept.foldl {α : Type} {f : State → α → State} {l : List α} (hf : ∀ z s a, Kept z s → Kept z (f s a))
    (h : Kept z s) : Kept z (l.foldl f s) := by
  induction l generalizing s with
  | nil => exact h
  | cons a r ih => exact ih (hf _ _ _ h)

/-- The same for a fold that carries a value beside the state. -/
theorem Kept.foldl_fst {α β : Type} {f : State × β → α → State × β} {l : List α}
    (hf : ∀ z x a, Kept z x.1 → Kept z (f x a).1) {x : State × β} (h : Kept z x.1) : Kept z (l.foldl f x).1 := by
  induction l generalizing x with
  | nil => exact h
  | cons a r ih => exact ih (hf _ _ _ h)

end Sys2Proof.Machine
end

