-- ==== Sys2Proof/Laws/KeptOps.lean ====
section
/-! SUPPORT. Laws/KeptOps.lean: what every operation of Machine/Ops.lean keeps (Laws/Kept.lean). -/
namespace Sys2Proof.Machine
open Sys2Proof

theorem setF_kept {s : State} {f : Field} {u v : Nat} {z : State} (h : Kept z s) : Kept z (setF s f u v) :=
  h.setReg (tsorted_tput _ _ _)

theorem bumpF_kept {s : State} {f : Field} {u : Nat} {n : Nat} {z : State} (h : Kept z s) :
    Kept z (bumpF s f u n) := by
  unfold bumpF
  repeat' (first
    | (intro z; intros; try beta_reduce)
    | with_reducible assumption
    | with_reducible apply setF_kept
    | (with_reducible refine Kept.lit (by assumption) ?_; rfl)
    | dsimp -zeta only)

theorem setP_kept {s : State} {f : Field} {u v : Nat} {z : State} (h : Kept z s) : Kept z (setP s f u v) :=
  h.setTables rfl rfl rfl id (tsorted_tset _ _) id id id rfl

theorem setFs_kept {s : State} {l : List (Field × Nat)} {z : State} (h : Kept z s) :
    Kept z (setFs s l) := by
  unfold setFs
  repeat' (first
    | (intro z; intros; try beta_reduce)
    | with_reducible assumption
    | with_reducible apply setF_kept
    | (with_reducible refine Kept.lit (by assumption) ?_; rfl)
    | with_reducible apply Kept.foldl
    | with_reducible apply Kept.foldl_fst
    | dsimp -zeta only)

theorem clearUnits_kept {s : State} {f : Field} {n : Nat} {z : State} (h : Kept z s) : Kept z (clearUnits s f n) :=
  h.setReg (tsorted_filter _)

theorem forEach_kept {α : Type} {l : List α} {f : State → α → State} {s : State} {z : State}
    (h_f : ∀ z s a, Kept z s → Kept z (f s a)) (h : Kept z s) : Kept z (forEach l f s) := Kept.foldl h_f h

theorem when_kept {c : Bool} {f : State → State} {s : State} (h_f : ∀ z a0, Kept z a0 → Kept z (f a0)) {z : State} (h : Kept z s) :
    Kept z (when c f s) := by
  unfold when
  repeat' (first
    | (intro z; intros; try beta_reduce)
    | with_reducible assumption
    | with_reducible apply h_f
    | (with_reducible refine Kept.lit (by assumption) ?_; rfl)
    | split
    | (clear_value *; split)
    | dsimp -zeta only)

theorem rebrand_kept {s : State} {a : Nat} {n : Nat} {z : State} (h : Kept z s) :
    Kept z (rebrand s a n) := by
  unfold rebrand
  repeat' (first
    | (intro z; intros; try beta_reduce)
    | with_reducible assumption
    | (extract_lets +onlyGivenNames x; refine Kept.cut (p := Kept z x) ?_ (fun _ => ?_)
       on_goal 1 => dsimp -zeta only [x]; clear x
       on_goal 2 => try clear_value x
       on_goal 2 => rename' x => y)
    | (extract_lets +onlyGivenNames x; refine Kept.cut (p := Kept z x.1) ?_ (fun _ => ?_)
       on_goal 1 => dsimp -zeta only [x]; clear x
       on_goal 2 => try clear_value x
       on_goal 2 => rename' x => y)
    | (extract_lets +onlyGivenNames x; refine Kept.ofFun x ?_; dsimp -zeta only [x]; clear x)
    | (extract_lets +onlyGivenNames x; rename' x => y)
    | (with_reducible refine Kept.lit (by assumption) ?_; rfl)
    | dsimp -zeta only)

theorem unpoison_kept {s : State} {a : Nat} {n : Nat} {z : State} (h : Kept z s) :
    Kept z (unpoison s a n) := by
  unfold unpoison
  repeat' (first
    | (intro z; intros; try beta_reduce)
    | with_reducible assumption
    | (extract_lets +onlyGivenNames x; refine Kept.cut (p := Kept z x) ?_ (fun _ => ?_)
       on_goal 1 => dsimp -zeta only [x]; clear x
       on_goal 2 => try clear_value x
       on_goal 2 => rename' x => y)
    | (extract_lets +onlyGivenNames x; refine Kept.cut (p := Kept z x.1) ?_ (fun _ => ?_)
       on_goal 1 => dsimp -zeta only [x]; clear x
       on_goal 2 => try clear_value x
       on_goal 2 => rename' x => y)
    | (extract_lets +onlyGivenNames x; refine Kept.ofFun x ?_; dsimp -zeta only [x]; clear x)
    | (extract_lets +onlyGivenNames x; rename' x => y)
    | (with_reducible refine Kept.lit (by assumption) ?_; rfl)
    | dsimp -zeta only)

theorem markDirty_kept {s : State} {a : Nat} {n : Nat} {z : State} (h : Kept z s) :
    Kept z (markDirty s a n) := by
  unfold markDirty
  repeat' (first
    | (intro z; intros; try beta_reduce)
    | with_reducible assumption
    | (extract_lets +onlyGivenNames x; refine Kept.cut (p := Kept z x) ?_ (fun _ => ?_)
       on_goal 1 => dsimp -zeta only [x]; clear x
       on_goal 2 => try clear_value x
       on_goal 2 => rename' x => y)
    | (extract_lets +onlyGivenNames x; refine Kept.cut (p := Kept z x.1) ?_ (fun _ => ?_)
       on_goal 1 => dsimp -zeta only [x]; clear x
       on_goal 2 => try clear_value x
       on_goal 2 => rename' x => y)
    | (extract_lets +onlyGivenNames x; refine Kept.ofFun x ?_; dsimp -zeta only [x]; clear x)
    | (extract_lets +onlyGivenNames x; rename' x => y)
    | (with_reducible refine Kept.lit (by assumption) ?_; rfl)
    | dsimp -zeta only)

theorem rawWrite_kept {s : State} {a : Nat} {b : Bytes} {z : State} (h : Kept z s) : Kept z (rawWrite s a b) :=
  (h.setMem (putBytes_canon a b)).same rfl

theorem rawCopy_kept {s : State} {src dst n : Nat} {z : State} (h : Kept z s) : Kept z (rawCopy s src dst n) :=
  (h.setMem (copySpan_canon src dst n)).same rfl

theorem rawZero_kept {s : State} {a n : Nat} {z : State} (h : Kept z s) : Kept z (rawZero s a n) :=
  (h.setMem (tcanon_tdrop a (a + n))).same rfl

theorem enqueue_kept {s : State} {f : OutFrame} {z : State} (h : Kept z s) :
    Kept z (enqueue s f) := by
  unfold enqueue
  repeat' (first
    | (intro z; intros; try beta_reduce)
    | with_reducible assumption
    | (extract_lets +onlyGivenNames x; refine Kept.cut (p := Kept z x) ?_ (fun _ => ?_)
       on_goal 1 => dsimp -zeta only [x]; clear x
       on_goal 2 => try clear_value x
       on_goal 2 => rename' x => y)
    | (extract_lets +onlyGivenNames x; refine Kept.cut (p := Kept z x.1) ?_ (fun _ => ?_)
       on_goal 1 => dsimp -zeta only [x]; clear x
       on_goal 2 => try clear_value x
       on_goal 2 => rename' x => y)
    | (extract_lets +onlyGivenNames x; refine Kept.ofFun x ?_; dsimp -zeta only [x]; clear x)
    | (extract_lets +onlyGivenNames x; rename' x => y)
    | (with_reducible refine Kept.lit (by assumption) ?_; rfl)
    | dsimp -zeta only)

theorem sendTeam_kept {s : State} {port : Nat} {ftype : Nat} {step : Nat} {page : Nat} {group : Nat} {chunk : Nat} {payload : Bytes} {z : State} (h : Kept z s) :
    Kept z (sendTeam s port ftype step page group chunk payload) := by
  unfold sendTeam
  repeat' (first
    | (intro z; intros; try beta_reduce)
    | with_reducible assumption
    | (extract_lets +onlyGivenNames x; refine Kept.cut (p := Kept z x) ?_ (fun _ => ?_)
       on_goal 1 => dsimp -zeta only [x]; clear x
       on_goal 2 => try clear_value x
       on_goal 2 => rename' x => y)
    | (extract_lets +onlyGivenNames x; refine Kept.cut (p := Kept z x.1) ?_ (fun _ => ?_)
       on_goal 1 => dsimp -zeta only [x]; clear x
       on_goal 2 => try clear_value x
       on_goal 2 => rename' x => y)
    | (extract_lets +onlyGivenNames x; refine Kept.ofFun x ?_; dsimp -zeta only [x]; clear x)
    | (extract_lets +onlyGivenNames x; rename' x => y)
    | with_reducible apply enqueue_kept
    | (with_reducible refine Kept.lit (by assumption) ?_; rfl)
    | (with_reducible refine Kept.lit ?_ ?_; on_goal 2 => rfl
       with_reducible first | apply enqueue_kept)
    | dsimp -zeta only)

theorem sendPage_kept {s : State} {src : Nat} {step : Nat} {group : Nat} {page : Nat} {z : State} (h : Kept z s) :
    Kept z (sendPage s src step group page) := by
  unfold sendPage
  repeat' (first
    | (intro z; intros; try beta_reduce)
    | with_reducible assumption
    | with_reducible apply forEach_kept
    | with_reducible apply sendTeam_kept
    | (with_reducible refine Kept.lit (by assumption) ?_; rfl)
    | dsimp -zeta only)

theorem quietCopy_kept {s : State} {src dst n : Nat} {z : State} (h : Kept z s) : Kept z (quietCopy s src dst n) :=
  (h.setMem (copySpan_canon src dst n)).same rfl

theorem quietWrite_kept {s : State} {a : Nat} {b : Bytes} {z : State} (h : Kept z s) : Kept z (quietWrite s a b) :=
  (h.setMem (putBytes_canon a b)).same rfl

theorem setPage_kept {s : State} {p : Page} {z : State} (h : Kept z s) :
    Kept z (setPage s p) := by
  unfold setPage
  repeat' (first
    | (intro z; intros; try beta_reduce)
    | with_reducible assumption
    | (extract_lets +onlyGivenNames x; refine Kept.cut (p := Kept z x) ?_ (fun _ => ?_)
       on_goal 1 => dsimp -zeta only [x]; clear x
       on_goal 2 => try clear_value x
       on_goal 2 => rename' x => y)
    | (extract_lets +onlyGivenNames x; refine Kept.cut (p := Kept z x.1) ?_ (fun _ => ?_)
       on_goal 1 => dsimp -zeta only [x]; clear x
       on_goal 2 => try clear_value x
       on_goal 2 => rename' x => y)
    | (extract_lets +onlyGivenNames x; refine Kept.ofFun x ?_; dsimp -zeta only [x]; clear x)
    | (extract_lets +onlyGivenNames x; rename' x => y)
    | (with_reducible refine Kept.lit (by assumption) ?_; rfl)
    | split
    | (clear_value *; split)
    | dsimp -zeta only)

theorem streamPage_kept {s : State} {p : Page} {z : State} (h : Kept z s) :
    Kept z (streamPage s p) := by
  unfold streamPage
  repeat' (first
    | (intro z; intros; try beta_reduce)
    | with_reducible assumption
    | (extract_lets +onlyGivenNames x; refine Kept.cut (p := Kept z x) ?_ (fun _ => ?_)
       on_goal 1 => dsimp -zeta only [x]; clear x
       on_goal 2 => try clear_value x
       on_goal 2 => rename' x => y)
    | (extract_lets +onlyGivenNames x; refine Kept.cut (p := Kept z x.1) ?_ (fun _ => ?_)
       on_goal 1 => dsimp -zeta only [x]; clear x
       on_goal 2 => try clear_value x
       on_goal 2 => rename' x => y)
    | (extract_lets +onlyGivenNames x; refine Kept.ofFun x ?_; dsimp -zeta only [x]; clear x)
    | (extract_lets +onlyGivenNames x; rename' x => y)
    | with_reducible apply quietCopy_kept
    | with_reducible apply quietWrite_kept
    | with_reducible apply setF_kept
    | with_reducible apply when_kept
    | with_reducible apply sendPage_kept
    | with_reducible apply setPage_kept
    | (with_reducible refine Kept.lit (by assumption) ?_; rfl)
    | (with_reducible refine Kept.lit ?_ ?_; on_goal 2 => rfl
       with_reducible first | apply quietCopy_kept | apply quietWrite_kept | apply setF_kept | apply when_kept | apply sendPage_kept | apply setPage_kept)
    | dsimp -zeta only)

theorem showBuf_kept {s : State} {z : State} (h : Kept z s) :
    Kept z (showBuf s) := by
  unfold showBuf
  repeat' (first
    | (intro z; intros; try beta_reduce)
    | with_reducible assumption
    | with_reducible apply setF_kept
    | (with_reducible refine Kept.lit (by assumption) ?_; rfl)
    | dsimp -zeta only)

theorem protectPage_kept {s : State} {p : Page} {z : State} (h : Kept z s) :
    Kept z (protectPage s p) := by
  unfold protectPage
  repeat' (first
    | (intro z; intros; try beta_reduce)
    | with_reducible assumption
    | (extract_lets +onlyGivenNames x; refine Kept.cut (p := Kept z x) ?_ (fun _ => ?_)
       on_goal 1 => dsimp -zeta only [x]; clear x
       on_goal 2 => try clear_value x
       on_goal 2 => rename' x => y)
    | (extract_lets +onlyGivenNames x; refine Kept.cut (p := Kept z x.1) ?_ (fun _ => ?_)
       on_goal 1 => dsimp -zeta only [x]; clear x
       on_goal 2 => try clear_value x
       on_goal 2 => rename' x => y)
    | (extract_lets +onlyGivenNames x; refine Kept.ofFun x ?_; dsimp -zeta only [x]; clear x)
    | (extract_lets +onlyGivenNames x; rename' x => y)
    | with_reducible apply showBuf_kept
    | with_reducible apply setPage_kept
    | with_reducible apply quietCopy_kept
    | with_reducible apply streamPage_kept
    | (with_reducible refine Kept.lit (by assumption) ?_; rfl)
    | split
    | (clear_value *; split)
    | (with_reducible refine Kept.lit ?_ ?_; on_goal 2 => rfl
       with_reducible first | apply showBuf_kept | apply setPage_kept | apply quietCopy_kept | apply streamPage_kept)
    | with_reducible refine Kept.ofPair (by assumption) ?_
    | dsimp -zeta only)

theorem protect_kept {s : State} {a : Nat} {n : Nat} {z : State} (h : Kept z s) :
    Kept z (protect s a n) := by
  unfold protect
  repeat' (first
    | (intro z; intros; try beta_reduce)
    | with_reducible assumption
    | with_reducible apply forEach_kept
    | with_reducible apply protectPage_kept
    | (with_reducible refine Kept.lit (by assumption) ?_; rfl)
    | dsimp -zeta only)

theorem write_kept {s : State} {a : Nat} {b : Bytes} {z : State} (h : Kept z s) :
    Kept z (write s a b) := by
  unfold write
  repeat' (first
    | (intro z; intros; try beta_reduce)
    | with_reducible assumption
    | with_reducible apply rawWrite_kept
    | with_reducible apply protect_kept
    | (with_reducible refine Kept.lit (by assumption) ?_; rfl)
    | dsimp -zeta only)

theorem patch_kept {s : State} {a n : Nat} {l : List (Nat × Byte)} {z : State} (h : Kept z s) : Kept z (patch s a n l) := by
  unfold patch
  split
  · exact h
  · exact ((protect_kept h).setMem (patch_canon a n _)).same rfl

theorem writeNat_kept {s : State} {a : Nat} {n : Nat} {v : Nat} {z : State} (h : Kept z s) :
    Kept z (writeNat s a n v) := by
  unfold writeNat
  repeat' (first
    | (intro z; intros; try beta_reduce)
    | with_reducible assumption
    | with_reducible apply write_kept
    | (with_reducible refine Kept.lit (by assumption) ?_; rfl)
    | dsimp -zeta only)

theorem copy_kept {s : State} {src : Nat} {dst : Nat} {n : Nat} {z : State} (h : Kept z s) :
    Kept z (copy s src dst n) := by
  unfold copy
  repeat' (first
    | (intro z; intros; try beta_reduce)
    | with_reducible assumption
    | with_reducible apply rawCopy_kept
    | with_reducible apply protect_kept
    | (with_reducible refine Kept.lit (by assumption) ?_; rfl)
    | dsimp -zeta only)

theorem zero_kept {s : State} {a : Nat} {n : Nat} {z : State} (h : Kept z s) :
    Kept z (zero s a n) := by
  unfold zero
  repeat' (first
    | (intro z; intros; try beta_reduce)
    | with_reducible assumption
    | with_reducible apply rawZero_kept
    | with_reducible apply protect_kept
    | (with_reducible refine Kept.lit (by assumption) ?_; rfl)
    | dsimp -zeta only)

theorem ringEvent_kept {s : State} {r : EventRec} {z : State} (h : Kept z s) :
    Kept z (ringEvent s r) := by
  unfold ringEvent
  repeat' (first
    | (intro z; intros; try beta_reduce)
    | with_reducible assumption
    | (extract_lets +onlyGivenNames x; refine Kept.cut (p := Kept z x) ?_ (fun _ => ?_)
       on_goal 1 => dsimp -zeta only [x]; clear x
       on_goal 2 => try clear_value x
       on_goal 2 => rename' x => y)
    | (extract_lets +onlyGivenNames x; refine Kept.cut (p := Kept z x.1) ?_ (fun _ => ?_)
       on_goal 1 => dsimp -zeta only [x]; clear x
       on_goal 2 => try clear_value x
       on_goal 2 => rename' x => y)
    | (extract_lets +onlyGivenNames x; refine Kept.ofFun x ?_; dsimp -zeta only [x]; clear x)
    | (extract_lets +onlyGivenNames x; rename' x => y)
    | with_reducible apply bumpF_kept
    | with_reducible apply setF_kept
    | with_reducible apply write_kept
    | (with_reducible refine Kept.lit (by assumption) ?_; rfl)
    | split
    | (clear_value *; split)
    | dsimp -zeta only)

theorem logEvent_kept {s : State} {r : EventRec} {z : State} (h : Kept z s) : Kept z (logEvent s r) := by
  unfold logEvent
  split
  · rename_i k
    refine h.setBounds rfl (fun _ => ?_) id id rfl
    have : s.bring.log.length < 1024 := by
      simp only [logTakes, Bool.or_eq_true, Bool.and_eq_true, decide_eq_true_eq] at k
      rcases k with k | k
      · omega
      · exact k.1
    simp only [List.length_append, List.length_singleton]; omega
  · exact bumpF_kept h

theorem raise_kept {s : State} {code : Nat} {coord : Nat} {d0 : Nat} {d1 : Nat} {z : State} (h : Kept z s) :
    Kept z (raise s code coord d0 d1) := by
  unfold raise
  repeat' (first
    | (intro z; intros; try beta_reduce)
    | with_reducible assumption
    | (extract_lets +onlyGivenNames x; refine Kept.cut (p := Kept z x) ?_ (fun _ => ?_)
       on_goal 1 => dsimp -zeta only [x]; clear x
       on_goal 2 => try clear_value x
       on_goal 2 => rename' x => y)
    | (extract_lets +onlyGivenNames x; refine Kept.cut (p := Kept z x.1) ?_ (fun _ => ?_)
       on_goal 1 => dsimp -zeta only [x]; clear x
       on_goal 2 => try clear_value x
       on_goal 2 => rename' x => y)
    | (extract_lets +onlyGivenNames x; refine Kept.ofFun x ?_; dsimp -zeta only [x]; clear x)
    | (extract_lets +onlyGivenNames x; rename' x => y)
    | with_reducible apply logEvent_kept
    | with_reducible apply ringEvent_kept
    | (with_reducible refine Kept.lit (by assumption) ?_; rfl)
    | split
    | (clear_value *; split)
    | (with_reducible refine Kept.lit ?_ ?_; on_goal 2 => rfl
       with_reducible first | apply logEvent_kept | apply ringEvent_kept)
    | with_reducible refine Kept.ofPair (by assumption) ?_
    | dsimp -zeta only)

theorem raiseOnce_kept {s : State} {code : Nat} {unit : Nat} {coord : Nat} {d0 : Nat} {d1 : Nat} {z : State} (h : Kept z s) :
    Kept z (raiseOnce s code unit coord d0 d1) := by
  unfold raiseOnce
  repeat' (first
    | (intro z; intros; try beta_reduce)
    | with_reducible assumption
    | (extract_lets +onlyGivenNames x; refine Kept.cut (p := Kept z x) ?_ (fun _ => ?_)
       on_goal 1 => dsimp -zeta only [x]; clear x
       on_goal 2 => try clear_value x
       on_goal 2 => rename' x => y)
    | (extract_lets +onlyGivenNames x; refine Kept.cut (p := Kept z x.1) ?_ (fun _ => ?_)
       on_goal 1 => dsimp -zeta only [x]; clear x
       on_goal 2 => try clear_value x
       on_goal 2 => rename' x => y)
    | (extract_lets +onlyGivenNames x; refine Kept.ofFun x ?_; dsimp -zeta only [x]; clear x)
    | (extract_lets +onlyGivenNames x; rename' x => y)
    | with_reducible apply raise_kept
    | (with_reducible refine Kept.lit (by assumption) ?_; rfl)
    | split
    | (clear_value *; split)
    | (with_reducible refine Kept.lit ?_ ?_; on_goal 2 => rfl
       with_reducible first | apply raise_kept)
    | dsimp -zeta only)

theorem clearOnce_kept {s : State} {code : Nat} {unit : Nat} {z : State} (h : Kept z s) :
    Kept z (clearOnce s code unit) := by
  unfold clearOnce
  repeat' (first
    | (intro z; intros; try beta_reduce)
    | with_reducible assumption
    | (extract_lets +onlyGivenNames x; refine Kept.cut (p := Kept z x) ?_ (fun _ => ?_)
       on_goal 1 => dsimp -zeta only [x]; clear x
       on_goal 2 => try clear_value x
       on_goal 2 => rename' x => y)
    | (extract_lets +onlyGivenNames x; refine Kept.cut (p := Kept z x.1) ?_ (fun _ => ?_)
       on_goal 1 => dsimp -zeta only [x]; clear x
       on_goal 2 => try clear_value x
       on_goal 2 => rename' x => y)
    | (extract_lets +onlyGivenNames x; refine Kept.ofFun x ?_; dsimp -zeta only [x]; clear x)
    | (extract_lets +onlyGivenNames x; rename' x => y)
    | (with_reducible refine Kept.lit (by assumption) ?_; rfl)
    | dsimp -zeta only)

theorem checkBrands_kept {s : State} {reader : Nat} {coord : Nat} {a : Nat} {n : Nat} {z : State} (h : Kept z s) :
    Kept z (checkBrands s reader coord a n).1 := by
  unfold checkBrands
  repeat' (first
    | (intro z; intros; try beta_reduce)
    | with_reducible assumption
    | (extract_lets +onlyGivenNames x; refine Kept.cut (p := Kept z x) ?_ (fun _ => ?_)
       on_goal 1 => dsimp -zeta only [x]; clear x
       on_goal 2 => try clear_value x
       on_goal 2 => rename' x => y)
    | (extract_lets +onlyGivenNames x; refine Kept.cut (p := Kept z x.1) ?_ (fun _ => ?_)
       on_goal 1 => dsimp -zeta only [x]; clear x
       on_goal 2 => try clear_value x
       on_goal 2 => rename' x => y)
    | (extract_lets +onlyGivenNames x; refine Kept.ofFun x ?_; dsimp -zeta only [x]; clear x)
    | (extract_lets +onlyGivenNames x; rename' x => y)
    | with_reducible apply setFs_kept
    | with_reducible apply raise_kept
    | with_reducible apply bumpF_kept
    | with_reducible apply forEach_kept
    | (with_reducible refine Kept.lit (by assumption) ?_; rfl)
    | split
    | (clear_value *; split)
    | (with_reducible refine Kept.lit ?_ ?_; on_goal 2 => rfl
       with_reducible first | apply setFs_kept | apply raise_kept | apply bumpF_kept | apply forEach_kept)
    | dsimp -zeta only)

theorem readChecked_kept {s : State} {reader : Nat} {coord : Nat} {a : Nat} {n : Nat} {z : State} (h : Kept z s) :
    Kept z (readChecked s reader coord a n).1 := by
  unfold readChecked
  repeat' (first
    | (intro z; intros; try beta_reduce)
    | with_reducible assumption
    | (extract_lets +onlyGivenNames x; refine Kept.cut (p := Kept z x) ?_ (fun _ => ?_)
       on_goal 1 => dsimp -zeta only [x]; clear x
       on_goal 2 => try clear_value x
       on_goal 2 => rename' x => y)
    | (extract_lets +onlyGivenNames x; refine Kept.cut (p := Kept z x.1) ?_ (fun _ => ?_)
       on_goal 1 => dsimp -zeta only [x]; clear x
       on_goal 2 => try clear_value x
       on_goal 2 => rename' x => y)
    | (extract_lets +onlyGivenNames x; refine Kept.ofFun x ?_; dsimp -zeta only [x]; clear x)
    | (extract_lets +onlyGivenNames x; rename' x => y)
    | with_reducible apply checkBrands_kept
    | (with_reducible refine Kept.lit (by assumption) ?_; rfl)
    | split
    | (clear_value *; split)
    | dsimp -zeta only)

theorem partsChecked_kept {s : State} {reader : Nat} {coord : Nat} {l : List (Nat × Nat)} {z : State} (h : Kept z s) :
    Kept z (partsChecked s reader coord l).1 := by
  unfold partsChecked
  repeat' (first
    | (intro z; intros; try beta_reduce)
    | with_reducible assumption
    | (extract_lets +onlyGivenNames x; refine Kept.cut (p := Kept z x) ?_ (fun _ => ?_)
       on_goal 1 => dsimp -zeta only [x]; clear x
       on_goal 2 => try clear_value x
       on_goal 2 => rename' x => y)
    | (extract_lets +onlyGivenNames x; refine Kept.cut (p := Kept z x.1) ?_ (fun _ => ?_)
       on_goal 1 => dsimp -zeta only [x]; clear x
       on_goal 2 => try clear_value x
       on_goal 2 => rename' x => y)
    | (extract_lets +onlyGivenNames x; refine Kept.ofFun x ?_; dsimp -zeta only [x]; clear x)
    | (extract_lets +onlyGivenNames x; rename' x => y)
    | with_reducible apply checkBrands_kept
    | (with_reducible refine Kept.lit (by assumption) ?_; rfl)
    | with_reducible apply Kept.foldl
    | with_reducible apply Kept.foldl_fst
    | dsimp -zeta only)

theorem outCtl_kept {s : State} {dst : NetAddr} {c : CtlOut} {z : State} (h : Kept z s) :
    Kept z (outCtl s dst c) := by
  unfold outCtl
  repeat' (first
    | (intro z; intros; try beta_reduce)
    | with_reducible assumption
    | with_reducible apply enqueue_kept
    | (with_reducible refine Kept.lit (by assumption) ?_; rfl)
    | dsimp -zeta only)

theorem keepResponse_kept {s : State} {c : CtlOut} {z : State} (h : Kept z s) : Kept z (keepResponse s c) :=
  h.setBounds rfl id (fun _ => by simp only [keepResponse, List.length_reverse, List.length_take]; omega) id rfl

theorem respond_kept {s : State} {f : CtlFrame} {body : Bytes} {z : State} (h : Kept z s) :
    Kept z (respond s f body) := by
  unfold respond
  repeat' (first
    | (intro z; intros; try beta_reduce)
    | with_reducible assumption
    | (extract_lets +onlyGivenNames x; refine Kept.cut (p := Kept z x) ?_ (fun _ => ?_)
       on_goal 1 => dsimp -zeta only [x]; clear x
       on_goal 2 => try clear_value x
       on_goal 2 => rename' x => y)
    | (extract_lets +onlyGivenNames x; refine Kept.cut (p := Kept z x.1) ?_ (fun _ => ?_)
       on_goal 1 => dsimp -zeta only [x]; clear x
       on_goal 2 => try clear_value x
       on_goal 2 => rename' x => y)
    | (extract_lets +onlyGivenNames x; refine Kept.ofFun x ?_; dsimp -zeta only [x]; clear x)
    | (extract_lets +onlyGivenNames x; rename' x => y)
    | with_reducible apply outCtl_kept
    | with_reducible apply keepResponse_kept
    | (with_reducible refine Kept.lit (by assumption) ?_; rfl)
    | (with_reducible refine Kept.lit ?_ ?_; on_goal 2 => rfl
       with_reducible first | apply outCtl_kept | apply keepResponse_kept)
    | dsimp -zeta only)

theorem refuse_kept {s : State} {f : CtlFrame} {status : Nat} {z : State} (h : Kept z s) :
    Kept z (refuse s f status) := by
  unfold refuse
  repeat' (first
    | (intro z; intros; try beta_reduce)
    | with_reducible assumption
    | with_reducible apply outCtl_kept
    | (with_reducible refine Kept.lit (by assumption) ?_; rfl)
    | dsimp -zeta only)

theorem refuseInOrder_kept {s : State} {f : CtlFrame} {status : Nat} {z : State} (h : Kept z s) :
    Kept z (refuseInOrder s f status) := by
  unfold refuseInOrder
  repeat' (first
    | (intro z; intros; try beta_reduce)
    | with_reducible assumption
    | with_reducible apply outCtl_kept
    | with_reducible apply keepResponse_kept
    | (with_reducible refine Kept.lit (by assumption) ?_; rfl)
    | dsimp -zeta only)

theorem sendNow_kept {s : State} {c : CtlOut} {z : State} (k : s.ses.unacked.length < 64) (h : Kept z s) :
    Kept z (sendNow s c) := by
  unfold sendNow
  refine outCtl_kept (h.setBounds rfl id id (fun _ => ?_) rfl)
  simp only [List.length_append, List.length_singleton]; omega

theorem sendNumbered_kept {s : State} {c : CtlOut} {z : State} (h : Kept z s) : Kept z (sendNumbered s c) := by
  unfold sendNumbered
  split
  · exact h.same rfl
  · split
    · rename_i k
      simp only [Bool.and_eq_true, decide_eq_true_eq] at k
      exact sendNow_kept k.2 h
    · exact h.same rfl

theorem drainGo_kept {n : Nat} {s : State} {z : State} (h : Kept z s) : Kept z (drainGo n s) := by
  induction n generalizing s with
  | zero => exact h
  | succ n ih =>
    unfold drainGo
    split
    · exact h
    · split
      · exact ih (sendNow_kept (by assumption) (h.same rfl))
      · exact h

theorem drainWaiting_kept {s : State} {z : State} (h : Kept z s) :
    Kept z (drainWaiting s) := by
  unfold drainWaiting
  repeat' (first
    | (intro z; intros; try beta_reduce)
    | with_reducible assumption
    | with_reducible apply drainGo_kept
    | (with_reducible refine Kept.lit (by assumption) ?_; rfl)
    | dsimp -zeta only)

theorem sendCompletion_kept {s : State} {c : CmdRec} {status : Nat} {detail : Nat} {z : State} (h : Kept z s) :
    Kept z (sendCompletion s c status detail) := by
  unfold sendCompletion
  repeat' (first
    | (intro z; intros; try beta_reduce)
    | with_reducible assumption
    | with_reducible apply sendNumbered_kept
    | (with_reducible refine Kept.lit (by assumption) ?_; rfl)
    | dsimp -zeta only)

theorem complete_kept {s : State} {c : CmdRec} {status : Nat} {detail : Nat} {z : State} (h : Kept z s) :
    Kept z (complete s c status detail) := by
  unfold complete
  repeat' (first
    | (intro z; intros; try beta_reduce)
    | with_reducible assumption
    | with_reducible apply sendCompletion_kept
    | with_reducible apply setF_kept
    | (with_reducible refine Kept.lit (by assumption) ?_; rfl)
    | dsimp -zeta only)

theorem finish_kept {s : State} {c : CmdRec} {status : Nat} {detail : Nat} {z : State} (h : Kept z s) :
    Kept z (finish s c status detail) := by
  unfold finish
  repeat' (first
    | (intro z; intros; try beta_reduce)
    | with_reducible assumption
    | (extract_lets +onlyGivenNames x; refine Kept.cut (p := Kept z x) ?_ (fun _ => ?_)
       on_goal 1 => dsimp -zeta only [x]; clear x
       on_goal 2 => try clear_value x
       on_goal 2 => rename' x => y)
    | (extract_lets +onlyGivenNames x; refine Kept.cut (p := Kept z x.1) ?_ (fun _ => ?_)
       on_goal 1 => dsimp -zeta only [x]; clear x
       on_goal 2 => try clear_value x
       on_goal 2 => rename' x => y)
    | (extract_lets +onlyGivenNames x; refine Kept.ofFun x ?_; dsimp -zeta only [x]; clear x)
    | (extract_lets +onlyGivenNames x; rename' x => y)
    | with_reducible apply complete_kept
    | (with_reducible refine Kept.lit (by assumption) ?_; rfl)
    | (with_reducible refine Kept.lit ?_ ?_; on_goal 2 => rfl
       with_reducible first | apply complete_kept)
    | dsimp -zeta only)

theorem setStall_kept {s : State} {p : Nat} {t : Stall} {z : State} (h : Kept z s) : Kept z (setStall s p t) :=
  h.setTables rfl rfl rfl id id (tsorted_tput _ _ _) id id rfl

theorem modStall_kept {s : State} {p : Nat} {f : Stall → Stall} {z : State} (h : Kept z s) :
    Kept z (modStall s p f) := by
  unfold modStall
  repeat' (first
    | (intro z; intros; try beta_reduce)
    | with_reducible assumption
    | with_reducible apply setStall_kept
    | (with_reducible refine Kept.lit (by assumption) ?_; rfl)
    | dsimp -zeta only)

theorem setChip_kept {s : State} {n : Nat} {c : Chip} {z : State} (h : Kept z s) : Kept z (setChip s n c) :=
  h.setTables rfl rfl rfl id id id id (tsorted_tput _ _ _) rfl

theorem setChan_kept {s : State} {c : Nat} {k : Chan} {z : State} (h : Kept z s) : Kept z (setChan s c k) :=
  h.setTables rfl rfl rfl id id id (tsorted_tput _ _ _) id rfl

theorem live_kept {f : State → State} {s : State} (h_f : ∀ z a0, Kept z a0 → Kept z (f a0)) {z : State} (h : Kept z s) :
    Kept z (live f s) := by
  unfold live
  repeat' (first
    | (intro z; intros; try beta_reduce)
    | with_reducible assumption
    | with_reducible apply h_f
    | (with_reducible refine Kept.lit (by assumption) ?_; rfl)
    | split
    | (clear_value *; split)
    | dsimp -zeta only)

theorem inModule_kept {s : State} {f : State → State} (h_f : ∀ z a0, Kept z a0 → Kept z (f a0)) {z : State} (h : Kept z s) :
    KeptOut z (inModule s f) := by
  unfold inModule
  repeat' (first
    | (intro z; intros; try beta_reduce)
    | with_reducible assumption
    | with_reducible apply live_kept
    | with_reducible apply h_f
    | with_reducible apply KeptOut.next
    | with_reducible exact KeptOut.fault _
    | (with_reducible refine Kept.lit (by assumption) ?_; rfl)
    | split
    | (clear_value *; split)
    | dsimp -zeta only)

theorem onStall_kept {p : Nat} {s : State} {f : State → State} (h_f : ∀ z a0, Kept z a0 → Kept z (f a0)) {z : State} (h : Kept z s) :
    KeptOut z (onStall p s f) := by
  unfold onStall
  repeat' (first
    | (intro z; intros; try beta_reduce)
    | with_reducible assumption
    | with_reducible apply live_kept
    | with_reducible apply h_f
    | with_reducible apply KeptOut.next
    | with_reducible exact KeptOut.fault _
    | (with_reducible refine Kept.lit (by assumption) ?_; rfl)
    | split
    | (clear_value *; split)
    | dsimp -zeta only)

theorem onTile_kept {p : Nat} {t : Nat} {s : State} {f : State → State} (h_f : ∀ z a0, Kept z a0 → Kept z (f a0)) {z : State} (h : Kept z s) :
    KeptOut z (onTile p t s f) := by
  unfold onTile
  repeat' (first
    | (intro z; intros; try beta_reduce)
    | with_reducible assumption
    | with_reducible apply live_kept
    | with_reducible apply h_f
    | with_reducible apply KeptOut.next
    | with_reducible exact KeptOut.fault _
    | (with_reducible refine Kept.lit (by assumption) ?_; rfl)
    | split
    | (clear_value *; split)
    | dsimp -zeta only)

theorem onUnit_kept {n : Nat} {u : Nat} {s : State} {f : State → State} (h_f : ∀ z a0, Kept z a0 → Kept z (f a0)) {z : State} (h : Kept z s) :
    KeptOut z (onUnit n u s f) := by
  unfold onUnit
  repeat' (first
    | (intro z; intros; try beta_reduce)
    | with_reducible assumption
    | with_reducible apply live_kept
    | with_reducible apply h_f
    | with_reducible apply KeptOut.next
    | with_reducible exact KeptOut.fault _
    | (with_reducible refine Kept.lit (by assumption) ?_; rfl)
    | split
    | (clear_value *; split)
    | dsimp -zeta only)

theorem draw_kept {s : State} {z : State} (h : Kept z s) : Kept z (draw s) := h.setDraws (Nat.le_succ _)

theorem holdGate_kept {s : State} {z : State} (h : Kept z s) :
    Kept z (holdGate s) := by
  unfold holdGate
  repeat' (first
    | (intro z; intros; try beta_reduce)
    | with_reducible assumption
    | (extract_lets +onlyGivenNames x; refine Kept.cut (p := Kept z x) ?_ (fun _ => ?_)
       on_goal 1 => dsimp -zeta only [x]; clear x
       on_goal 2 => try clear_value x
       on_goal 2 => rename' x => y)
    | (extract_lets +onlyGivenNames x; refine Kept.cut (p := Kept z x.1) ?_ (fun _ => ?_)
       on_goal 1 => dsimp -zeta only [x]; clear x
       on_goal 2 => try clear_value x
       on_goal 2 => rename' x => y)
    | (extract_lets +onlyGivenNames x; refine Kept.ofFun x ?_; dsimp -zeta only [x]; clear x)
    | (extract_lets +onlyGivenNames x; rename' x => y)
    | (with_reducible refine Kept.lit (by assumption) ?_; rfl)
    | dsimp -zeta only)

end Sys2Proof.Machine
end

