-- ==== Sys2Proof/Laws/KeptFlags.lean ====
section
/-! SUPPORT. Laws/KeptFlags.lean: what every operation of Machine/Flags.lean keeps (Laws/Kept.lean). -/
namespace Sys2Proof.Machine
open Sys2Proof

theorem setAlert_kept {s : State} {i : Nat} {z : State} (h : Kept z s) :
    Kept z (setAlert s i) := by
  unfold setAlert
  repeat' (first
    | (intro z; intros; try beta_reduce)
    | with_reducible assumption
    | (extract_lets +onlyGivenNames x; refine Kept.cut (p := Kept z x) ?_ (fun _ => ?_)
       on_goal 1 => dsimp -zeta only [x]; clear x
       on_goal 2 => try clear_value x
       on_goal 2 => rename' x => y)
    | (extract_lets +onlyGivenNames x; refine Kept.cut (p := Kept z x.1) ?_ (fun _ => ?_)
       on_goal 1 => dsimp -zeta only [x]; clear x
       on_goal 2 => try clear_value x
       on_goal 2 => rename' x => y)
    | (extract_lets +onlyGivenNames x; refine Kept.ofFun x ?_; dsimp -zeta only [x]; clear x)
    | (extract_lets +onlyGivenNames x; rename' x => y)
    | (with_reducible refine Kept.lit (by assumption) ?_; rfl)
    | dsimp -zeta only)

theorem alertIf_kept {c : Bool} {i : Nat} {s : State} {z : State} (h : Kept z s) :
    Kept z (alertIf c i s) := by
  unfold alertIf
  repeat' (first
    | (intro z; intros; try beta_reduce)
    | with_reducible assumption
    | with_reducible apply setAlert_kept
    | (with_reducible refine Kept.lit (by assumption) ?_; rfl)
    | split
    | (clear_value *; split)
    | dsimp -zeta only)

theorem setCauses_kept {l : List Bool} {i : Nat} {s : State} {z : State} (h : Kept z s) : Kept z (setCauses l i s) := by
  induction l generalizing i s with
  | nil => exact h
  | cons c r ih => exact ih (alertIf_kept h)

theorem clearCauses_kept {s : State} {w : Nat} {z : State} (h : Kept z s) :
    Kept z (clearCauses s w) := by
  unfold clearCauses
  repeat' (first
    | (intro z; intros; try beta_reduce)
    | with_reducible assumption
    | (extract_lets +onlyGivenNames x; refine Kept.cut (p := Kept z x) ?_ (fun _ => ?_)
       on_goal 1 => dsimp -zeta only [x]; clear x
       on_goal 2 => try clear_value x
       on_goal 2 => rename' x => y)
    | (extract_lets +onlyGivenNames x; refine Kept.cut (p := Kept z x.1) ?_ (fun _ => ?_)
       on_goal 1 => dsimp -zeta only [x]; clear x
       on_goal 2 => try clear_value x
       on_goal 2 => rename' x => y)
    | (extract_lets +onlyGivenNames x; refine Kept.ofFun x ?_; dsimp -zeta only [x]; clear x)
    | (extract_lets +onlyGivenNames x; rename' x => y)
    | (with_reducible refine Kept.lit (by assumption) ?_; rfl)
    | with_reducible apply Kept.foldl
    | with_reducible apply Kept.foldl_fst
    | split
    | (clear_value *; split)
    | dsimp -zeta only)

end Sys2Proof.Machine
end

