-- ==== Sys2Proof/Laws/KeptGovernor.lean ====
section
/-! SUPPORT. Laws/KeptGovernor.lean: what every operation of Machine/Governor.lean keeps (Laws/Kept.lean). -/
namespace Sys2Proof.Machine
open Sys2Proof

theorem renewLinger_kept {s : State} {p : Nat} {z : State} (h : Kept z s) :
    Kept z (renewLinger s p) := by
  unfold renewLinger
  repeat' (first
    | (intro z; intros; try beta_reduce)
    | with_reducible assumption
    | (extract_lets +onlyGivenNames x; refine Kept.cut (p := Kept z x) ?_ (fun _ => ?_)
       on_goal 1 => dsimp -zeta only [x]; clear x
       on_goal 2 => try clear_value x
       on_goal 2 => rename' x => y)
    | (extract_lets +onlyGivenNames x; refine Kept.cut (p := Kept z x.1) ?_ (fun _ => ?_)
       on_goal 1 => dsimp -zeta only [x]; clear x
       on_goal 2 => try clear_value x
       on_goal 2 => rename' x => y)
    | (extract_lets +onlyGivenNames x; refine Kept.ofFun x ?_; dsimp -zeta only [x]; clear x)
    | (extract_lets +onlyGivenNames x; rename' x => y)
    | with_reducible apply modStall_kept
    | (with_reducible refine Kept.lit (by assumption) ?_; rfl)
    | (with_reducible refine Kept.lit ?_ ?_; on_goal 2 => rfl
       with_reducible first | apply modStall_kept)
    | dsimp -zeta only)

theorem requestWake_kept {s : State} {p : Nat} {src : WakeSrc} {die : Bool} {z : State} (h : Kept z s) :
    Kept z (requestWake s p src die) := by
  unfold requestWake
  repeat' (first
    | (intro z; intros; try beta_reduce)
    | with_reducible assumption
    | (extract_lets +onlyGivenNames x; refine Kept.cut (p := Kept z x) ?_ (fun _ => ?_)
       on_goal 1 => dsimp -zeta only [x]; clear x
       on_goal 2 => try clear_value x
       on_goal 2 => rename' x => y)
    | (extract_lets +onlyGivenNames x; refine Kept.cut (p := Kept z x.1) ?_ (fun _ => ?_)
       on_goal 1 => dsimp -zeta only [x]; clear x
       on_goal 2 => try clear_value x
       on_goal 2 => rename' x => y)
    | (extract_lets +onlyGivenNames x; refine Kept.ofFun x ?_; dsimp -zeta only [x]; clear x)
    | (extract_lets +onlyGivenNames x; rename' x => y)
    | with_reducible apply renewLinger_kept
    | with_reducible apply when_kept
    | (with_reducible refine Kept.lit (by assumption) ?_; rfl)
    | split
    | (clear_value *; split)
    | (with_reducible refine Kept.lit ?_ ?_; on_goal 2 => rfl
       with_reducible first | apply renewLinger_kept | apply when_kept)
    | dsimp -zeta only)

theorem wakeForWrites_kept {s : State} {ps : List Nat} {z : State} (h : Kept z s) :
    Kept z (wakeForWrites s ps) := by
  unfold wakeForWrites
  repeat' (first
    | (intro z; intros; try beta_reduce)
    | with_reducible assumption
    | with_reducible apply forEach_kept
    | with_reducible apply requestWake_kept
    | (with_reducible refine Kept.lit (by assumption) ?_; rfl)
    | split
    | (clear_value *; split)
    | dsimp -zeta only)

theorem demandWake_kept {s : State} {p : Nat} {z : State} (h : Kept z s) :
    Kept z (demandWake s p) := by
  unfold demandWake
  repeat' (first
    | (intro z; intros; try beta_reduce)
    | with_reducible assumption
    | (extract_lets +onlyGivenNames x; refine Kept.cut (p := Kept z x) ?_ (fun _ => ?_)
       on_goal 1 => dsimp -zeta only [x]; clear x
       on_goal 2 => try clear_value x
       on_goal 2 => rename' x => y)
    | (extract_lets +onlyGivenNames x; refine Kept.cut (p := Kept z x.1) ?_ (fun _ => ?_)
       on_goal 1 => dsimp -zeta only [x]; clear x
       on_goal 2 => try clear_value x
       on_goal 2 => rename' x => y)
    | (extract_lets +onlyGivenNames x; refine Kept.ofFun x ?_; dsimp -zeta only [x]; clear x)
    | (extract_lets +onlyGivenNames x; rename' x => y)
    | with_reducible apply bumpF_kept
    | with_reducible apply modStall_kept
    | with_reducible apply requestWake_kept
    | (with_reducible refine Kept.lit (by assumption) ?_; rfl)
    | split
    | (clear_value *; split)
    | (with_reducible refine Kept.lit ?_ ?_; on_goal 2 => rfl
       with_reducible first | apply bumpF_kept | apply modStall_kept | apply requestWake_kept)
    | dsimp -zeta only)

theorem showLate_kept {s : State} {p : Nat} {z : State} (h : Kept z s) :
    Kept z (showLate s p) := by
  unfold showLate
  repeat' (first
    | (intro z; intros; try beta_reduce)
    | with_reducible assumption
    | (extract_lets +onlyGivenNames x; refine Kept.cut (p := Kept z x) ?_ (fun _ => ?_)
       on_goal 1 => dsimp -zeta only [x]; clear x
       on_goal 2 => try clear_value x
       on_goal 2 => rename' x => y)
    | (extract_lets +onlyGivenNames x; refine Kept.cut (p := Kept z x.1) ?_ (fun _ => ?_)
       on_goal 1 => dsimp -zeta only [x]; clear x
       on_goal 2 => try clear_value x
       on_goal 2 => rename' x => y)
    | (extract_lets +onlyGivenNames x; refine Kept.ofFun x ?_; dsimp -zeta only [x]; clear x)
    | (extract_lets +onlyGivenNames x; rename' x => y)
    | with_reducible apply modStall_kept
    | with_reducible apply raise_kept
    | (with_reducible refine Kept.lit (by assumption) ?_; rfl)
    | split
    | (clear_value *; split)
    | (with_reducible refine Kept.lit ?_ ?_; on_goal 2 => rfl
       with_reducible first | apply modStall_kept | apply raise_kept)
    | with_reducible refine Kept.ofPair (by assumption) ?_
    | dsimp -zeta only)

theorem grant_kept {s : State} {r : WakeReq} {z : State} (h : Kept z s) :
    Kept z (grant s r) := by
  unfold grant
  repeat' (first
    | (intro z; intros; try beta_reduce)
    | with_reducible assumption
    | (extract_lets +onlyGivenNames x; refine Kept.cut (p := Kept z x) ?_ (fun _ => ?_)
       on_goal 1 => dsimp -zeta only [x]; clear x
       on_goal 2 => try clear_value x
       on_goal 2 => rename' x => y)
    | (extract_lets +onlyGivenNames x; refine Kept.cut (p := Kept z x.1) ?_ (fun _ => ?_)
       on_goal 1 => dsimp -zeta only [x]; clear x
       on_goal 2 => try clear_value x
       on_goal 2 => rename' x => y)
    | (extract_lets +onlyGivenNames x; refine Kept.ofFun x ?_; dsimp -zeta only [x]; clear x)
    | (extract_lets +onlyGivenNames x; rename' x => y)
    | with_reducible apply modStall_kept
    | (with_reducible refine Kept.lit (by assumption) ?_; rfl)
    | (with_reducible refine Kept.lit ?_ ?_; on_goal 2 => rfl
       with_reducible first | apply modStall_kept)
    | dsimp -zeta only)

theorem considerGo_kept {l : List WakeReq} {s : State} {z : State} (h : Kept z s) : Kept z (considerGo l s) := by
  induction l generalizing s with
  | nil => exact h
  | cons r t ih =>
    unfold considerGo
    split
    · exact (ih h).same rfl
    · split
      · exact ih (grant_kept h)
      · exact h.same rfl

theorem consider_kept {s : State} {z : State} (h : Kept z s) :
    Kept z (consider s) := by
  unfold consider
  repeat' (first
    | (intro z; intros; try beta_reduce)
    | with_reducible assumption
    | (extract_lets +onlyGivenNames x; refine Kept.cut (p := Kept z x) ?_ (fun _ => ?_)
       on_goal 1 => dsimp -zeta only [x]; clear x
       on_goal 2 => try clear_value x
       on_goal 2 => rename' x => y)
    | (extract_lets +onlyGivenNames x; refine Kept.cut (p := Kept z x.1) ?_ (fun _ => ?_)
       on_goal 1 => dsimp -zeta only [x]; clear x
       on_goal 2 => try clear_value x
       on_goal 2 => rename' x => y)
    | (extract_lets +onlyGivenNames x; refine Kept.ofFun x ?_; dsimp -zeta only [x]; clear x)
    | (extract_lets +onlyGivenNames x; rename' x => y)
    | with_reducible apply considerGo_kept
    | (with_reducible refine Kept.lit (by assumption) ?_; rfl)
    | (with_reducible refine Kept.lit ?_ ?_; on_goal 2 => rfl
       with_reducible first | apply considerGo_kept)
    | dsimp -zeta only)

theorem setG_kept {s : State} {g : Nat} {z : State} (h : Kept z s) :
    Kept z (setG s g) := by
  unfold setG
  repeat' (first
    | (intro z; intros; try beta_reduce)
    | with_reducible assumption
    | (extract_lets +onlyGivenNames x; refine Kept.cut (p := Kept z x) ?_ (fun _ => ?_)
       on_goal 1 => dsimp -zeta only [x]; clear x
       on_goal 2 => try clear_value x
       on_goal 2 => rename' x => y)
    | (extract_lets +onlyGivenNames x; refine Kept.cut (p := Kept z x.1) ?_ (fun _ => ?_)
       on_goal 1 => dsimp -zeta only [x]; clear x
       on_goal 2 => try clear_value x
       on_goal 2 => rename' x => y)
    | (extract_lets +onlyGivenNames x; refine Kept.ofFun x ?_; dsimp -zeta only [x]; clear x)
    | (extract_lets +onlyGivenNames x; rename' x => y)
    | with_reducible apply setF_kept
    | with_reducible apply raise_kept
    | (with_reducible refine Kept.lit (by assumption) ?_; rfl)
    | dsimp -zeta only)

theorem selectPark_kept {s : State} {z : State} (h : Kept z s) :
    Kept z (selectPark s) := by
  unfold selectPark
  repeat' (first
    | (intro z; intros; try beta_reduce)
    | with_reducible assumption
    | (extract_lets +onlyGivenNames x; refine Kept.cut (p := Kept z x) ?_ (fun _ => ?_)
       on_goal 1 => dsimp -zeta only [x]; clear x
       on_goal 2 => try clear_value x
       on_goal 2 => rename' x => y)
    | (extract_lets +onlyGivenNames x; refine Kept.cut (p := Kept z x.1) ?_ (fun _ => ?_)
       on_goal 1 => dsimp -zeta only [x]; clear x
       on_goal 2 => try clear_value x
       on_goal 2 => rename' x => y)
    | (extract_lets +onlyGivenNames x; refine Kept.ofFun x ?_; dsimp -zeta only [x]; clear x)
    | (extract_lets +onlyGivenNames x; rename' x => y)
    | (with_reducible refine Kept.lit (by assumption) ?_; rfl)
    | dsimp -zeta only)

theorem raiseStep_kept {s : State} {z : State} (h : Kept z s) :
    Kept z (raiseStep s) := by
  unfold raiseStep
  repeat' (first
    | (intro z; intros; try beta_reduce)
    | with_reducible assumption
    | (extract_lets +onlyGivenNames x; refine Kept.cut (p := Kept z x) ?_ (fun _ => ?_)
       on_goal 1 => dsimp -zeta only [x]; clear x
       on_goal 2 => try clear_value x
       on_goal 2 => rename' x => y)
    | (extract_lets +onlyGivenNames x; refine Kept.cut (p := Kept z x.1) ?_ (fun _ => ?_)
       on_goal 1 => dsimp -zeta only [x]; clear x
       on_goal 2 => try clear_value x
       on_goal 2 => rename' x => y)
    | (extract_lets +onlyGivenNames x; refine Kept.ofFun x ?_; dsimp -zeta only [x]; clear x)
    | (extract_lets +onlyGivenNames x; rename' x => y)
    | with_reducible apply setG_kept
    | with_reducible apply selectPark_kept
    | (with_reducible refine Kept.lit (by assumption) ?_; rfl)
    | split
    | (clear_value *; split)
    | (with_reducible refine Kept.lit ?_ ?_; on_goal 2 => rfl
       with_reducible first | apply setG_kept | apply selectPark_kept)
    | dsimp -zeta only)

theorem lowerStep_kept {s : State} {z : State} (h : Kept z s) :
    Kept z (lowerStep s) := by
  unfold lowerStep
  repeat' (first
    | (intro z; intros; try beta_reduce)
    | with_reducible assumption
    | (extract_lets +onlyGivenNames x; refine Kept.cut (p := Kept z x) ?_ (fun _ => ?_)
       on_goal 1 => dsimp -zeta only [x]; clear x
       on_goal 2 => try clear_value x
       on_goal 2 => rename' x => y)
    | (extract_lets +onlyGivenNames x; refine Kept.cut (p := Kept z x.1) ?_ (fun _ => ?_)
       on_goal 1 => dsimp -zeta only [x]; clear x
       on_goal 2 => try clear_value x
       on_goal 2 => rename' x => y)
    | (extract_lets +onlyGivenNames x; refine Kept.ofFun x ?_; dsimp -zeta only [x]; clear x)
    | (extract_lets +onlyGivenNames x; rename' x => y)
    | with_reducible apply setG_kept
    | with_reducible apply raise_kept
    | (with_reducible refine Kept.lit (by assumption) ?_; rfl)
    | split
    | (clear_value *; split)
    | (with_reducible refine Kept.lit ?_ ?_; on_goal 2 => rfl
       with_reducible first | apply setG_kept | apply raise_kept)
    | dsimp -zeta only)

theorem setBudget_kept {s : State} {b : Nat} {z : State} (h : Kept z s) :
    Kept z (setBudget s b) := by
  unfold setBudget
  repeat' (first
    | (intro z; intros; try beta_reduce)
    | with_reducible assumption
    | (extract_lets +onlyGivenNames x; refine Kept.cut (p := Kept z x) ?_ (fun _ => ?_)
       on_goal 1 => dsimp -zeta only [x]; clear x
       on_goal 2 => try clear_value x
       on_goal 2 => rename' x => y)
    | (extract_lets +onlyGivenNames x; refine Kept.cut (p := Kept z x.1) ?_ (fun _ => ?_)
       on_goal 1 => dsimp -zeta only [x]; clear x
       on_goal 2 => try clear_value x
       on_goal 2 => rename' x => y)
    | (extract_lets +onlyGivenNames x; refine Kept.ofFun x ?_; dsimp -zeta only [x]; clear x)
    | (extract_lets +onlyGivenNames x; rename' x => y)
    | with_reducible apply setF_kept
    | with_reducible apply raise_kept
    | (with_reducible refine Kept.lit (by assumption) ?_; rfl)
    | split
    | (clear_value *; split)
    | (with_reducible refine Kept.lit ?_ ?_; on_goal 2 => rfl
       with_reducible first | apply setF_kept | apply raise_kept)
    | dsimp -zeta only)

theorem applyBudget_kept {s : State} {z : State} (h : Kept z s) :
    Kept z (applyBudget s) := by
  unfold applyBudget
  repeat' (first
    | (intro z; intros; try beta_reduce)
    | with_reducible assumption
    | (extract_lets +onlyGivenNames x; refine Kept.cut (p := Kept z x) ?_ (fun _ => ?_)
       on_goal 1 => dsimp -zeta only [x]; clear x
       on_goal 2 => try clear_value x
       on_goal 2 => rename' x => y)
    | (extract_lets +onlyGivenNames x; refine Kept.cut (p := Kept z x.1) ?_ (fun _ => ?_)
       on_goal 1 => dsimp -zeta only [x]; clear x
       on_goal 2 => try clear_value x
       on_goal 2 => rename' x => y)
    | (extract_lets +onlyGivenNames x; refine Kept.ofFun x ?_; dsimp -zeta only [x]; clear x)
    | (extract_lets +onlyGivenNames x; rename' x => y)
    | with_reducible apply setBudget_kept
    | (with_reducible refine Kept.lit (by assumption) ?_; rfl)
    | split
    | (clear_value *; split)
    | (with_reducible refine Kept.lit ?_ ?_; on_goal 2 => rfl
       with_reducible first | apply setBudget_kept)
    | with_reducible refine Kept.ofPair (by assumption) ?_
    | dsimp -zeta only)

theorem accrue_kept {s : State} {z : State} (h : Kept z s) :
    Kept z (accrue s) := by
  unfold accrue
  repeat' (first
    | (intro z; intros; try beta_reduce)
    | with_reducible assumption
    | (extract_lets +onlyGivenNames x; refine Kept.cut (p := Kept z x) ?_ (fun _ => ?_)
       on_goal 1 => dsimp -zeta only [x]; clear x
       on_goal 2 => try clear_value x
       on_goal 2 => rename' x => y)
    | (extract_lets +onlyGivenNames x; refine Kept.cut (p := Kept z x.1) ?_ (fun _ => ?_)
       on_goal 1 => dsimp -zeta only [x]; clear x
       on_goal 2 => try clear_value x
       on_goal 2 => rename' x => y)
    | (extract_lets +onlyGivenNames x; refine Kept.ofFun x ?_; dsimp -zeta only [x]; clear x)
    | (extract_lets +onlyGivenNames x; rename' x => y)
    | (with_reducible refine Kept.lit (by assumption) ?_; rfl)
    | dsimp -zeta only)

theorem execWakeRequest_kept {p : Nat} {src : WakeSrc} {s : State} {z : State} (h : Kept z s) :
    KeptOut z (execWakeRequest p src s) := by
  unfold execWakeRequest
  repeat' (first
    | (intro z; intros; try beta_reduce)
    | with_reducible assumption
    | with_reducible apply onStall_kept
    | with_reducible apply requestWake_kept
    | with_reducible apply KeptOut.next
    | with_reducible exact KeptOut.fault _
    | (with_reducible refine Kept.lit (by assumption) ?_; rfl)
    | split
    | (clear_value *; split)
    | dsimp -zeta only)

theorem execGovernorStepRaise_kept {s : State} {z : State} (h : Kept z s) :
    KeptOut z (execGovernorStepRaise s) := by
  unfold execGovernorStepRaise
  repeat' (first
    | (intro z; intros; try beta_reduce)
    | with_reducible assumption
    | with_reducible apply inModule_kept
    | with_reducible apply raiseStep_kept
    | with_reducible apply KeptOut.next
    | with_reducible exact KeptOut.fault _
    | (with_reducible refine Kept.lit (by assumption) ?_; rfl)
    | split
    | (clear_value *; split)
    | dsimp -zeta only)

theorem execGovernorStepLower_kept {s : State} {z : State} (h : Kept z s) :
    KeptOut z (execGovernorStepLower s) := by
  unfold execGovernorStepLower
  repeat' (first
    | (intro z; intros; try beta_reduce)
    | with_reducible assumption
    | with_reducible apply inModule_kept
    | with_reducible apply lowerStep_kept
    | with_reducible apply KeptOut.next
    | with_reducible exact KeptOut.fault _
    | (with_reducible refine Kept.lit (by assumption) ?_; rfl)
    | split
    | (clear_value *; split)
    | dsimp -zeta only)

theorem pauseChan_kept {s : State} {c : Nat} {park : Bool} {z : State} (h : Kept z s) :
    Kept z (pauseChan s c park) := by
  unfold pauseChan
  repeat' (first
    | (intro z; intros; try beta_reduce)
    | with_reducible assumption
    | (extract_lets +onlyGivenNames x; refine Kept.cut (p := Kept z x) ?_ (fun _ => ?_)
       on_goal 1 => dsimp -zeta only [x]; clear x
       on_goal 2 => try clear_value x
       on_goal 2 => rename' x => y)
    | (extract_lets +onlyGivenNames x; refine Kept.cut (p := Kept z x.1) ?_ (fun _ => ?_)
       on_goal 1 => dsimp -zeta only [x]; clear x
       on_goal 2 => try clear_value x
       on_goal 2 => rename' x => y)
    | (extract_lets +onlyGivenNames x; refine Kept.ofFun x ?_; dsimp -zeta only [x]; clear x)
    | (extract_lets +onlyGivenNames x; rename' x => y)
    | with_reducible apply setChan_kept
    | (with_reducible refine Kept.lit (by assumption) ?_; rfl)
    | split
    | (clear_value *; split)
    | (with_reducible refine Kept.lit ?_ ?_; on_goal 2 => rfl
       with_reducible first | apply setChan_kept)
    | dsimp -zeta only)

theorem unparkChan_kept {s : State} {c : Nat} {z : State} (h : Kept z s) :
    Kept z (unparkChan s c) := by
  unfold unparkChan
  repeat' (first
    | (intro z; intros; try beta_reduce)
    | with_reducible assumption
    | (extract_lets +onlyGivenNames x; refine Kept.cut (p := Kept z x) ?_ (fun _ => ?_)
       on_goal 1 => dsimp -zeta only [x]; clear x
       on_goal 2 => try clear_value x
       on_goal 2 => rename' x => y)
    | (extract_lets +onlyGivenNames x; refine Kept.cut (p := Kept z x.1) ?_ (fun _ => ?_)
       on_goal 1 => dsimp -zeta only [x]; clear x
       on_goal 2 => try clear_value x
       on_goal 2 => rename' x => y)
    | (extract_lets +onlyGivenNames x; refine Kept.ofFun x ?_; dsimp -zeta only [x]; clear x)
    | (extract_lets +onlyGivenNames x; rename' x => y)
    | with_reducible apply setChan_kept
    | (with_reducible refine Kept.lit (by assumption) ?_; rfl)
    | split
    | (clear_value *; split)
    | (with_reducible refine Kept.lit ?_ ?_; on_goal 2 => rfl
       with_reducible first | apply setChan_kept)
    | dsimp -zeta only)

theorem abortIdle_kept {s : State} {u : Nat} {z : State} (h : Kept z s) :
    Kept z (abortIdle s u) := by
  unfold abortIdle
  repeat' (first
    | (intro z; intros; try beta_reduce)
    | with_reducible assumption
    | (extract_lets +onlyGivenNames x; refine Kept.cut (p := Kept z x) ?_ (fun _ => ?_)
       on_goal 1 => dsimp -zeta only [x]; clear x
       on_goal 2 => try clear_value x
       on_goal 2 => rename' x => y)
    | (extract_lets +onlyGivenNames x; refine Kept.cut (p := Kept z x.1) ?_ (fun _ => ?_)
       on_goal 1 => dsimp -zeta only [x]; clear x
       on_goal 2 => try clear_value x
       on_goal 2 => rename' x => y)
    | (extract_lets +onlyGivenNames x; refine Kept.ofFun x ?_; dsimp -zeta only [x]; clear x)
    | (extract_lets +onlyGivenNames x; rename' x => y)
    | with_reducible apply bumpF_kept
    | (with_reducible refine Kept.lit (by assumption) ?_; rfl)
    | split
    | (clear_value *; split)
    | (with_reducible refine Kept.lit ?_ ?_; on_goal 2 => rfl
       with_reducible first | apply bumpF_kept)
    | dsimp -zeta only)

theorem startProgram_kept {s : State} {p : Nat} {z : State} (h : Kept z s) :
    Kept z (startProgram s p) := by
  unfold startProgram
  repeat' (first
    | (intro z; intros; try beta_reduce)
    | with_reducible assumption
    | (extract_lets +onlyGivenNames x; refine Kept.cut (p := Kept z x) ?_ (fun _ => ?_)
       on_goal 1 => dsimp -zeta only [x]; clear x
       on_goal 2 => try clear_value x
       on_goal 2 => rename' x => y)
    | (extract_lets +onlyGivenNames x; refine Kept.cut (p := Kept z x.1) ?_ (fun _ => ?_)
       on_goal 1 => dsimp -zeta only [x]; clear x
       on_goal 2 => try clear_value x
       on_goal 2 => rename' x => y)
    | (extract_lets +onlyGivenNames x; refine Kept.ofFun x ?_; dsimp -zeta only [x]; clear x)
    | (extract_lets +onlyGivenNames x; rename' x => y)
    | with_reducible apply setF_kept
    | with_reducible apply modStall_kept
    | (with_reducible refine Kept.lit (by assumption) ?_; rfl)
    | split
    | (clear_value *; split)
    | (with_reducible refine Kept.lit ?_ ?_; on_goal 2 => rfl
       with_reducible first | apply setF_kept | apply modStall_kept)
    | dsimp -zeta only)

theorem relockPll_kept {s : State} {b : Nat} {z : State} (h : Kept z s) :
    Kept z (relockPll s b) := by
  unfold relockPll
  repeat' (first
    | (intro z; intros; try beta_reduce)
    | with_reducible assumption
    | (extract_lets +onlyGivenNames x; refine Kept.cut (p := Kept z x) ?_ (fun _ => ?_)
       on_goal 1 => dsimp -zeta only [x]; clear x
       on_goal 2 => try clear_value x
       on_goal 2 => rename' x => y)
    | (extract_lets +onlyGivenNames x; refine Kept.cut (p := Kept z x.1) ?_ (fun _ => ?_)
       on_goal 1 => dsimp -zeta only [x]; clear x
       on_goal 2 => try clear_value x
       on_goal 2 => rename' x => y)
    | (extract_lets +onlyGivenNames x; refine Kept.ofFun x ?_; dsimp -zeta only [x]; clear x)
    | (extract_lets +onlyGivenNames x; rename' x => y)
    | (with_reducible refine Kept.lit (by assumption) ?_; rfl)
    | split
    | (clear_value *; split)
    | dsimp -zeta only)

theorem wakeComplete_kept {s : State} {p : Nat} {z : State} (h : Kept z s) :
    Kept z (wakeComplete s p) := by
  unfold wakeComplete
  repeat' (first
    | (intro z; intros; try beta_reduce)
    | with_reducible assumption
    | (extract_lets +onlyGivenNames x; refine Kept.cut (p := Kept z x) ?_ (fun _ => ?_)
       on_goal 1 => dsimp -zeta only [x]; clear x
       on_goal 2 => try clear_value x
       on_goal 2 => rename' x => y)
    | (extract_lets +onlyGivenNames x; refine Kept.cut (p := Kept z x.1) ?_ (fun _ => ?_)
       on_goal 1 => dsimp -zeta only [x]; clear x
       on_goal 2 => try clear_value x
       on_goal 2 => rename' x => y)
    | (extract_lets +onlyGivenNames x; refine Kept.ofFun x ?_; dsimp -zeta only [x]; clear x)
    | (extract_lets +onlyGivenNames x; rename' x => y)
    | with_reducible apply relockPll_kept
    | with_reducible apply modStall_kept
    | with_reducible apply setF_kept
    | with_reducible apply startProgram_kept
    | with_reducible apply showLate_kept
    | with_reducible apply unparkChan_kept
    | (with_reducible refine Kept.lit (by assumption) ?_; rfl)
    | split
    | (clear_value *; split)
    | (with_reducible refine Kept.lit ?_ ?_; on_goal 2 => rfl
       with_reducible first | apply relockPll_kept | apply modStall_kept | apply setF_kept | apply startProgram_kept | apply showLate_kept | apply unparkChan_kept)
    | dsimp -zeta only)

theorem countIdle_kept {s : State} {z : State} (h : Kept z s) :
    Kept z (countIdle s) := by
  unfold countIdle
  repeat' (first
    | (intro z; intros; try beta_reduce)
    | with_reducible assumption
    | (extract_lets +onlyGivenNames x; refine Kept.cut (p := Kept z x) ?_ (fun _ => ?_)
       on_goal 1 => dsimp -zeta only [x]; clear x
       on_goal 2 => try clear_value x
       on_goal 2 => rename' x => y)
    | (extract_lets +onlyGivenNames x; refine Kept.cut (p := Kept z x.1) ?_ (fun _ => ?_)
       on_goal 1 => dsimp -zeta only [x]; clear x
       on_goal 2 => try clear_value x
       on_goal 2 => rename' x => y)
    | (extract_lets +onlyGivenNames x; refine Kept.ofFun x ?_; dsimp -zeta only [x]; clear x)
    | (extract_lets +onlyGivenNames x; rename' x => y)
    | (with_reducible refine Kept.lit (by assumption) ?_; rfl)
    | split
    | (clear_value *; split)
    | (have hk := ‹Kept z _›; exact hk.setTables rfl rfl rfl id id (tsorted_map _ (fun x => by dsimp only; split <;> rfl)) id id rfl)
    | dsimp -zeta only)

theorem tick_kept {s : State} {z : State} (h : Kept z s) :
    Kept z (tick s) := by
  unfold tick
  repeat' (first
    | (intro z; intros; try beta_reduce)
    | with_reducible assumption
    | (extract_lets +onlyGivenNames x; refine Kept.cut (p := Kept z x) ?_ (fun _ => ?_)
       on_goal 1 => dsimp -zeta only [x]; clear x
       on_goal 2 => try clear_value x
       on_goal 2 => rename' x => y)
    | (extract_lets +onlyGivenNames x; refine Kept.cut (p := Kept z x.1) ?_ (fun _ => ?_)
       on_goal 1 => dsimp -zeta only [x]; clear x
       on_goal 2 => try clear_value x
       on_goal 2 => rename' x => y)
    | (extract_lets +onlyGivenNames x; refine Kept.ofFun x ?_; dsimp -zeta only [x]; clear x)
    | (extract_lets +onlyGivenNames x; rename' x => y)
    | with_reducible apply consider_kept
    | with_reducible apply accrue_kept
    | with_reducible apply lowerStep_kept
    | with_reducible apply raiseStep_kept
    | with_reducible apply applyBudget_kept
    | with_reducible apply countIdle_kept
    | (with_reducible refine Kept.lit (by assumption) ?_; rfl)
    | split
    | (clear_value *; split)
    | (with_reducible refine Kept.lit ?_ ?_; on_goal 2 => rfl
       with_reducible first | apply consider_kept | apply accrue_kept | apply lowerStep_kept | apply raiseStep_kept | apply applyBudget_kept | apply countIdle_kept)
    | dsimp -zeta only)

theorem napStall_kept {s : State} {p : Nat} {z : State} (h : Kept z s) :
    Kept z (napStall s p) := by
  unfold napStall
  repeat' (first
    | (intro z; intros; try beta_reduce)
    | with_reducible assumption
    | (extract_lets +onlyGivenNames x; refine Kept.cut (p := Kept z x) ?_ (fun _ => ?_)
       on_goal 1 => dsimp -zeta only [x]; clear x
       on_goal 2 => try clear_value x
       on_goal 2 => rename' x => y)
    | (extract_lets +onlyGivenNames x; refine Kept.cut (p := Kept z x.1) ?_ (fun _ => ?_)
       on_goal 1 => dsimp -zeta only [x]; clear x
       on_goal 2 => try clear_value x
       on_goal 2 => rename' x => y)
    | (extract_lets +onlyGivenNames x; refine Kept.ofFun x ?_; dsimp -zeta only [x]; clear x)
    | (extract_lets +onlyGivenNames x; rename' x => y)
    | with_reducible apply modStall_kept
    | (with_reducible refine Kept.lit (by assumption) ?_; rfl)
    | split
    | (clear_value *; split)
    | (with_reducible refine Kept.lit ?_ ?_; on_goal 2 => rfl
       with_reducible first | apply modStall_kept)
    | dsimp -zeta only)

theorem execStallNap_kept {p : Nat} {s : State} {z : State} (h : Kept z s) :
    KeptOut z (execStallNap p s) := by
  unfold execStallNap
  repeat' (first
    | (intro z; intros; try beta_reduce)
    | with_reducible assumption
    | with_reducible apply onStall_kept
    | with_reducible apply napStall_kept
    | with_reducible apply KeptOut.next
    | with_reducible exact KeptOut.fault _
    | (with_reducible refine Kept.lit (by assumption) ?_; rfl)
    | split
    | (clear_value *; split)
    | dsimp -zeta only)

theorem sleepStall_kept {s : State} {p : Nat} {z : State} (h : Kept z s) :
    Kept z (sleepStall s p) := by
  unfold sleepStall
  repeat' (first
    | (intro z; intros; try beta_reduce)
    | with_reducible assumption
    | (extract_lets +onlyGivenNames x; refine Kept.cut (p := Kept z x) ?_ (fun _ => ?_)
       on_goal 1 => dsimp -zeta only [x]; clear x
       on_goal 2 => try clear_value x
       on_goal 2 => rename' x => y)
    | (extract_lets +onlyGivenNames x; refine Kept.cut (p := Kept z x.1) ?_ (fun _ => ?_)
       on_goal 1 => dsimp -zeta only [x]; clear x
       on_goal 2 => try clear_value x
       on_goal 2 => rename' x => y)
    | (extract_lets +onlyGivenNames x; refine Kept.ofFun x ?_; dsimp -zeta only [x]; clear x)
    | (extract_lets +onlyGivenNames x; rename' x => y)
    | with_reducible apply modStall_kept
    | (with_reducible refine Kept.lit (by assumption) ?_; rfl)
    | split
    | (clear_value *; split)
    | (with_reducible refine Kept.lit ?_ ?_; on_goal 2 => rfl
       with_reducible first | apply modStall_kept)
    | dsimp -zeta only)

theorem execStallSleep_kept {p : Nat} {s : State} {z : State} (h : Kept z s) :
    KeptOut z (execStallSleep p s) := by
  unfold execStallSleep
  repeat' (first
    | (intro z; intros; try beta_reduce)
    | with_reducible assumption
    | with_reducible apply onStall_kept
    | with_reducible apply sleepStall_kept
    | with_reducible apply KeptOut.next
    | with_reducible exact KeptOut.fault _
    | (with_reducible refine Kept.lit (by assumption) ?_; rfl)
    | split
    | (clear_value *; split)
    | dsimp -zeta only)

theorem parkStall_kept {s : State} {p : Nat} {z : State} (h : Kept z s) :
    Kept z (parkStall s p) := by
  unfold parkStall
  repeat' (first
    | (intro z; intros; try beta_reduce)
    | with_reducible assumption
    | (extract_lets +onlyGivenNames x; refine Kept.cut (p := Kept z x) ?_ (fun _ => ?_)
       on_goal 1 => dsimp -zeta only [x]; clear x
       on_goal 2 => try clear_value x
       on_goal 2 => rename' x => y)
    | (extract_lets +onlyGivenNames x; refine Kept.cut (p := Kept z x.1) ?_ (fun _ => ?_)
       on_goal 1 => dsimp -zeta only [x]; clear x
       on_goal 2 => try clear_value x
       on_goal 2 => rename' x => y)
    | (extract_lets +onlyGivenNames x; refine Kept.ofFun x ?_; dsimp -zeta only [x]; clear x)
    | (extract_lets +onlyGivenNames x; rename' x => y)
    | with_reducible apply forEach_kept
    | with_reducible apply abortIdle_kept
    | with_reducible apply pauseChan_kept
    | with_reducible apply modStall_kept
    | with_reducible apply setF_kept
    | with_reducible apply requestWake_kept
    | with_reducible apply raise_kept
    | (with_reducible refine Kept.lit (by assumption) ?_; rfl)
    | split
    | (clear_value *; split)
    | (with_reducible refine Kept.lit ?_ ?_; on_goal 2 => rfl
       with_reducible first | apply forEach_kept | apply abortIdle_kept | apply pauseChan_kept | apply modStall_kept | apply setF_kept | apply requestWake_kept | apply raise_kept)
    | with_reducible refine Kept.ofPair (by assumption) ?_
    | dsimp -zeta only)

theorem execStallParked_kept {p : Nat} {s : State} {z : State} (h : Kept z s) :
    KeptOut z (execStallParked p s) := by
  unfold execStallParked
  repeat' (first
    | (intro z; intros; try beta_reduce)
    | with_reducible assumption
    | with_reducible apply onStall_kept
    | with_reducible apply parkStall_kept
    | with_reducible apply KeptOut.next
    | with_reducible exact KeptOut.fault _
    | (with_reducible refine Kept.lit (by assumption) ?_; rfl)
    | split
    | (clear_value *; split)
    | dsimp -zeta only)

theorem wakeWait_kept {s : State} {p : Nat} {z : State} (h : Kept z s) :
    Kept z (wakeWait s p) := by
  unfold wakeWait
  repeat' (first
    | (intro z; intros; try beta_reduce)
    | with_reducible assumption
    | (extract_lets +onlyGivenNames x; refine Kept.cut (p := Kept z x) ?_ (fun _ => ?_)
       on_goal 1 => dsimp -zeta only [x]; clear x
       on_goal 2 => try clear_value x
       on_goal 2 => rename' x => y)
    | (extract_lets +onlyGivenNames x; refine Kept.cut (p := Kept z x.1) ?_ (fun _ => ?_)
       on_goal 1 => dsimp -zeta only [x]; clear x
       on_goal 2 => try clear_value x
       on_goal 2 => rename' x => y)
    | (extract_lets +onlyGivenNames x; refine Kept.ofFun x ?_; dsimp -zeta only [x]; clear x)
    | (extract_lets +onlyGivenNames x; rename' x => y)
    | with_reducible apply raise_kept
    | (with_reducible refine Kept.lit (by assumption) ?_; rfl)
    | split
    | (clear_value *; split)
    | (with_reducible refine Kept.lit ?_ ?_; on_goal 2 => rfl
       with_reducible first | apply raise_kept)
    | with_reducible refine Kept.ofPair (by assumption) ?_
    | dsimp -zeta only)

theorem execWakeWait_kept {p : Nat} {s : State} {z : State} (h : Kept z s) :
    KeptOut z (execWakeWait p s) := by
  unfold execWakeWait
  repeat' (first
    | (intro z; intros; try beta_reduce)
    | with_reducible assumption
    | with_reducible apply onStall_kept
    | with_reducible apply wakeWait_kept
    | with_reducible apply KeptOut.next
    | with_reducible exact KeptOut.fault _
    | (with_reducible refine Kept.lit (by assumption) ?_; rfl)
    | split
    | (clear_value *; split)
    | dsimp -zeta only)

theorem correct_kept {s : State} {w : Nat} {z : State} (h : Kept z s) :
    Kept z (correct s w) := by
  unfold correct
  repeat' (first
    | (intro z; intros; try beta_reduce)
    | with_reducible assumption
    | (extract_lets +onlyGivenNames x; refine Kept.cut (p := Kept z x) ?_ (fun _ => ?_)
       on_goal 1 => dsimp -zeta only [x]; clear x
       on_goal 2 => try clear_value x
       on_goal 2 => rename' x => y)
    | (extract_lets +onlyGivenNames x; refine Kept.cut (p := Kept z x.1) ?_ (fun _ => ?_)
       on_goal 1 => dsimp -zeta only [x]; clear x
       on_goal 2 => try clear_value x
       on_goal 2 => rename' x => y)
    | (extract_lets +onlyGivenNames x; refine Kept.ofFun x ?_; dsimp -zeta only [x]; clear x)
    | (extract_lets +onlyGivenNames x; rename' x => y)
    | with_reducible apply raise_kept
    | (with_reducible refine Kept.lit (by assumption) ?_; rfl)
    | split
    | (clear_value *; split)
    | (with_reducible refine Kept.lit ?_ ?_; on_goal 2 => rfl
       with_reducible first | apply raise_kept)
    | dsimp -zeta only)

theorem execLedgerCorrection_kept {w : Nat} {s : State} {z : State} (h : Kept z s) :
    KeptOut z (execLedgerCorrection w s) := by
  unfold execLedgerCorrection
  repeat' (first
    | (intro z; intros; try beta_reduce)
    | with_reducible assumption
    | with_reducible apply inModule_kept
    | with_reducible apply correct_kept
    | with_reducible apply KeptOut.next
    | with_reducible exact KeptOut.fault _
    | (with_reducible refine Kept.lit (by assumption) ?_; rfl)
    | split
    | (clear_value *; split)
    | dsimp -zeta only)

theorem writeBudget_kept {s : State} {w : Nat} {z : State} (h : Kept z s) :
    Kept z (writeBudget s w) := by
  unfold writeBudget
  repeat' (first
    | (intro z; intros; try beta_reduce)
    | with_reducible assumption
    | (extract_lets +onlyGivenNames x; refine Kept.cut (p := Kept z x) ?_ (fun _ => ?_)
       on_goal 1 => dsimp -zeta only [x]; clear x
       on_goal 2 => try clear_value x
       on_goal 2 => rename' x => y)
    | (extract_lets +onlyGivenNames x; refine Kept.cut (p := Kept z x.1) ?_ (fun _ => ?_)
       on_goal 1 => dsimp -zeta only [x]; clear x
       on_goal 2 => try clear_value x
       on_goal 2 => rename' x => y)
    | (extract_lets +onlyGivenNames x; refine Kept.ofFun x ?_; dsimp -zeta only [x]; clear x)
    | (extract_lets +onlyGivenNames x; rename' x => y)
    | (with_reducible refine Kept.lit (by assumption) ?_; rfl)
    | split
    | (clear_value *; split)
    | dsimp -zeta only)

theorem execBudgetWrite_kept {w : Nat} {s : State} {z : State} (h : Kept z s) :
    KeptOut z (execBudgetWrite w s) := by
  unfold execBudgetWrite
  repeat' (first
    | (intro z; intros; try beta_reduce)
    | with_reducible assumption
    | with_reducible apply inModule_kept
    | with_reducible apply writeBudget_kept
    | with_reducible apply KeptOut.next
    | with_reducible exact KeptOut.fault _
    | (with_reducible refine Kept.lit (by assumption) ?_; rfl)
    | split
    | (clear_value *; split)
    | dsimp -zeta only)

theorem stampDie_kept {s : State} {kind : Nat} {d : Nat} {z : State} (h : Kept z s) :
    Kept z (stampDie s kind d) := by
  unfold stampDie
  repeat' (first
    | (intro z; intros; try beta_reduce)
    | with_reducible assumption
    | (extract_lets +onlyGivenNames x; refine Kept.cut (p := Kept z x) ?_ (fun _ => ?_)
       on_goal 1 => dsimp -zeta only [x]; clear x
       on_goal 2 => try clear_value x
       on_goal 2 => rename' x => y)
    | (extract_lets +onlyGivenNames x; refine Kept.cut (p := Kept z x.1) ?_ (fun _ => ?_)
       on_goal 1 => dsimp -zeta only [x]; clear x
       on_goal 2 => try clear_value x
       on_goal 2 => rename' x => y)
    | (extract_lets +onlyGivenNames x; refine Kept.ofFun x ?_; dsimp -zeta only [x]; clear x)
    | (extract_lets +onlyGivenNames x; rename' x => y)
    | (with_reducible refine Kept.lit (by assumption) ?_; rfl)
    | dsimp -zeta only)

theorem dieCurrentUp_kept {s : State} {d : Nat} {amps : Nat} {z : State} (h : Kept z s) :
    Kept z (dieCurrentUp s d amps) := by
  unfold dieCurrentUp
  repeat' (first
    | (intro z; intros; try beta_reduce)
    | with_reducible assumption
    | (extract_lets +onlyGivenNames x; refine Kept.cut (p := Kept z x) ?_ (fun _ => ?_)
       on_goal 1 => dsimp -zeta only [x]; clear x
       on_goal 2 => try clear_value x
       on_goal 2 => rename' x => y)
    | (extract_lets +onlyGivenNames x; refine Kept.cut (p := Kept z x.1) ?_ (fun _ => ?_)
       on_goal 1 => dsimp -zeta only [x]; clear x
       on_goal 2 => try clear_value x
       on_goal 2 => rename' x => y)
    | (extract_lets +onlyGivenNames x; refine Kept.ofFun x ?_; dsimp -zeta only [x]; clear x)
    | (extract_lets +onlyGivenNames x; rename' x => y)
    | with_reducible apply setF_kept
    | with_reducible apply stampDie_kept
    | with_reducible apply setAlert_kept
    | with_reducible apply raise_kept
    | (with_reducible refine Kept.lit (by assumption) ?_; rfl)
    | split
    | (clear_value *; split)
    | dsimp -zeta only)

theorem execDieCurrentLimit_kept {d : Nat} {amps : Nat} {s : State} {z : State} (h : Kept z s) :
    KeptOut z (execDieCurrentLimit d amps s) := by
  unfold execDieCurrentLimit
  repeat' (first
    | (intro z; intros; try beta_reduce)
    | with_reducible assumption
    | with_reducible apply onUnit_kept
    | with_reducible apply dieCurrentUp_kept
    | with_reducible apply KeptOut.next
    | with_reducible exact KeptOut.fault _
    | (with_reducible refine Kept.lit (by assumption) ?_; rfl)
    | split
    | (clear_value *; split)
    | dsimp -zeta only)

theorem diePark_kept {s : State} {d : Nat} {z : State} (h : Kept z s) :
    Kept z (diePark s d) := by
  unfold diePark
  repeat' (first
    | (intro z; intros; try beta_reduce)
    | with_reducible assumption
    | (extract_lets +onlyGivenNames x; refine Kept.cut (p := Kept z x) ?_ (fun _ => ?_)
       on_goal 1 => dsimp -zeta only [x]; clear x
       on_goal 2 => try clear_value x
       on_goal 2 => rename' x => y)
    | (extract_lets +onlyGivenNames x; refine Kept.cut (p := Kept z x.1) ?_ (fun _ => ?_)
       on_goal 1 => dsimp -zeta only [x]; clear x
       on_goal 2 => try clear_value x
       on_goal 2 => rename' x => y)
    | (extract_lets +onlyGivenNames x; refine Kept.ofFun x ?_; dsimp -zeta only [x]; clear x)
    | (extract_lets +onlyGivenNames x; rename' x => y)
    | (with_reducible refine Kept.lit (by assumption) ?_; rfl)
    | split
    | (clear_value *; split)
    | with_reducible refine Kept.ofPair (by assumption) ?_
    | dsimp -zeta only)

theorem execDieCurrentPark_kept {d : Nat} {s : State} {z : State} (h : Kept z s) :
    KeptOut z (execDieCurrentPark d s) := by
  unfold execDieCurrentPark
  repeat' (first
    | (intro z; intros; try beta_reduce)
    | with_reducible assumption
    | with_reducible apply onUnit_kept
    | with_reducible apply diePark_kept
    | with_reducible apply KeptOut.next
    | with_reducible exact KeptOut.fault _
    | (with_reducible refine Kept.lit (by assumption) ?_; rfl)
    | split
    | (clear_value *; split)
    | dsimp -zeta only)

theorem dieThermalUp_kept {s : State} {d : Nat} {tj : Nat} {z : State} (h : Kept z s) :
    Kept z (dieThermalUp s d tj) := by
  unfold dieThermalUp
  repeat' (first
    | (intro z; intros; try beta_reduce)
    | with_reducible assumption
    | (extract_lets +onlyGivenNames x; refine Kept.cut (p := Kept z x) ?_ (fun _ => ?_)
       on_goal 1 => dsimp -zeta only [x]; clear x
       on_goal 2 => try clear_value x
       on_goal 2 => rename' x => y)
    | (extract_lets +onlyGivenNames x; refine Kept.cut (p := Kept z x.1) ?_ (fun _ => ?_)
       on_goal 1 => dsimp -zeta only [x]; clear x
       on_goal 2 => try clear_value x
       on_goal 2 => rename' x => y)
    | (extract_lets +onlyGivenNames x; refine Kept.ofFun x ?_; dsimp -zeta only [x]; clear x)
    | (extract_lets +onlyGivenNames x; rename' x => y)
    | with_reducible apply setF_kept
    | with_reducible apply stampDie_kept
    | with_reducible apply setAlert_kept
    | with_reducible apply raise_kept
    | (with_reducible refine Kept.lit (by assumption) ?_; rfl)
    | split
    | (clear_value *; split)
    | dsimp -zeta only)

theorem execDieThermalThrottle_kept {d : Nat} {tj : Nat} {s : State} {z : State} (h : Kept z s) :
    KeptOut z (execDieThermalThrottle d tj s) := by
  unfold execDieThermalThrottle
  repeat' (first
    | (intro z; intros; try beta_reduce)
    | with_reducible assumption
    | with_reducible apply onUnit_kept
    | with_reducible apply dieThermalUp_kept
    | with_reducible apply KeptOut.next
    | with_reducible exact KeptOut.fault _
    | (with_reducible refine Kept.lit (by assumption) ?_; rfl)
    | split
    | (clear_value *; split)
    | dsimp -zeta only)

theorem dieDown_kept {s : State} {d : Nat} {thermal : Bool} {v : Nat} {z : State} (h : Kept z s) :
    Kept z (dieDown s d thermal v) := by
  unfold dieDown
  repeat' (first
    | (intro z; intros; try beta_reduce)
    | with_reducible assumption
    | (extract_lets +onlyGivenNames x; refine Kept.cut (p := Kept z x) ?_ (fun _ => ?_)
       on_goal 1 => dsimp -zeta only [x]; clear x
       on_goal 2 => try clear_value x
       on_goal 2 => rename' x => y)
    | (extract_lets +onlyGivenNames x; refine Kept.cut (p := Kept z x.1) ?_ (fun _ => ?_)
       on_goal 1 => dsimp -zeta only [x]; clear x
       on_goal 2 => try clear_value x
       on_goal 2 => rename' x => y)
    | (extract_lets +onlyGivenNames x; refine Kept.ofFun x ?_; dsimp -zeta only [x]; clear x)
    | (extract_lets +onlyGivenNames x; rename' x => y)
    | with_reducible apply setF_kept
    | with_reducible apply stampDie_kept
    | (with_reducible refine Kept.lit (by assumption) ?_; rfl)
    | split
    | (clear_value *; split)
    | dsimp -zeta only)

theorem execDieStepLower_kept {d : Nat} {thermal : Bool} {v : Nat} {s : State} {z : State} (h : Kept z s) :
    KeptOut z (execDieStepLower d thermal v s) := by
  unfold execDieStepLower
  repeat' (first
    | (intro z; intros; try beta_reduce)
    | with_reducible assumption
    | with_reducible apply onUnit_kept
    | with_reducible apply dieDown_kept
    | with_reducible apply KeptOut.next
    | with_reducible exact KeptOut.fault _
    | (with_reducible refine Kept.lit (by assumption) ?_; rfl)
    | split
    | (clear_value *; split)
    | dsimp -zeta only)

end Sys2Proof.Machine
end

