-- ==== Sys2Proof/Laws/KeptHalt.lean ====
section
/-! SUPPORT. Laws/KeptHalt.lean: what every operation of Machine/Halt.lean keeps (Laws/Kept.lean). -/
namespace Sys2Proof.Machine
open Sys2Proof

theorem closeSession_kept {s : State} {cause : Nat} {z : State} (h : Kept z s) :
    Kept z (closeSession s cause) := by
  unfold closeSession
  repeat' (first
    | (intro z; intros; try beta_reduce)
    | with_reducible assumption
    | (extract_lets +onlyGivenNames x; refine Kept.cut (p := Kept z x) ?_ (fun _ => ?_)
       on_goal 1 => dsimp -zeta only [x]; clear x
       on_goal 2 => try clear_value x
       on_goal 2 => rename' x => y)
    | (extract_lets +onlyGivenNames x; refine Kept.cut (p := Kept z x.1) ?_ (fun _ => ?_)
       on_goal 1 => dsimp -zeta only [x]; clear x
       on_goal 2 => try clear_value x
       on_goal 2 => rename' x => y)
    | (extract_lets +onlyGivenNames x; refine Kept.ofFun x ?_; dsimp -zeta only [x]; clear x)
    | (extract_lets +onlyGivenNames x; rename' x => y)
    | with_reducible apply raise_kept
    | with_reducible apply setFs_kept
    | (with_reducible refine Kept.lit (by assumption) ?_; rfl)
    | split
    | (clear_value *; split)
    | (with_reducible refine Kept.lit ?_ ?_; on_goal 2 => rfl
       with_reducible first | apply raise_kept | apply setFs_kept)
    | (have hk := ‹Kept z _›; exact hk.setBounds rfl id (fun _ => Nat.zero_le _) (fun _ => Nat.zero_le _) rfl)
    | dsimp -zeta only)

theorem stepSecured_kept {s : State} {z : State} (h : Kept z s) :
    Kept z (stepSecured s) := by
  unfold stepSecured
  repeat' (first
    | (intro z; intros; try beta_reduce)
    | with_reducible assumption
    | (extract_lets +onlyGivenNames x; refine Kept.cut (p := Kept z x) ?_ (fun _ => ?_)
       on_goal 1 => dsimp -zeta only [x]; clear x
       on_goal 2 => try clear_value x
       on_goal 2 => rename' x => y)
    | (extract_lets +onlyGivenNames x; refine Kept.cut (p := Kept z x.1) ?_ (fun _ => ?_)
       on_goal 1 => dsimp -zeta only [x]; clear x
       on_goal 2 => try clear_value x
       on_goal 2 => rename' x => y)
    | (extract_lets +onlyGivenNames x; refine Kept.ofFun x ?_; dsimp -zeta only [x]; clear x)
    | (extract_lets +onlyGivenNames x; rename' x => y)
    | with_reducible apply setFs_kept
    | with_reducible apply raise_kept
    | (with_reducible refine Kept.lit (by assumption) ?_; rfl)
    | split
    | (clear_value *; split)
    | (with_reducible refine Kept.lit ?_ ?_; on_goal 2 => rfl
       with_reducible first | apply setFs_kept | apply raise_kept)
    | with_reducible refine Kept.ofPair (by assumption) ?_
    | dsimp -zeta only)

theorem endSecuring_kept {s : State} {z : State} (h : Kept z s) :
    Kept z (endSecuring s) := by
  unfold endSecuring
  repeat' (first
    | (intro z; intros; try beta_reduce)
    | with_reducible assumption
    | (extract_lets +onlyGivenNames x; refine Kept.cut (p := Kept z x) ?_ (fun _ => ?_)
       on_goal 1 => dsimp -zeta only [x]; clear x
       on_goal 2 => try clear_value x
       on_goal 2 => rename' x => y)
    | (extract_lets +onlyGivenNames x; refine Kept.cut (p := Kept z x.1) ?_ (fun _ => ?_)
       on_goal 1 => dsimp -zeta only [x]; clear x
       on_goal 2 => try clear_value x
       on_goal 2 => rename' x => y)
    | (extract_lets +onlyGivenNames x; refine Kept.ofFun x ?_; dsimp -zeta only [x]; clear x)
    | (extract_lets +onlyGivenNames x; rename' x => y)
    | with_reducible apply quietWrite_kept
    | with_reducible apply sendTeam_kept
    | with_reducible apply stepSecured_kept
    | (with_reducible refine Kept.lit (by assumption) ?_; rfl)
    | split
    | (clear_value *; split)
    | (with_reducible refine Kept.lit ?_ ?_; on_goal 2 => rfl
       with_reducible first | apply quietWrite_kept | apply sendTeam_kept | apply stepSecured_kept)
    | with_reducible refine Kept.ofPair (by assumption) ?_
    | dsimp -zeta only)

theorem sweepPages_kept {s : State} {z : State} (h : Kept z s) :
    Kept z (sweepPages s) := by
  unfold sweepPages
  repeat' (first
    | (intro z; intros; try beta_reduce)
    | with_reducible assumption
    | (extract_lets +onlyGivenNames x; refine Kept.cut (p := Kept z x) ?_ (fun _ => ?_)
       on_goal 1 => dsimp -zeta only [x]; clear x
       on_goal 2 => try clear_value x
       on_goal 2 => rename' x => y)
    | (extract_lets +onlyGivenNames x; refine Kept.cut (p := Kept z x.1) ?_ (fun _ => ?_)
       on_goal 1 => dsimp -zeta only [x]; clear x
       on_goal 2 => try clear_value x
       on_goal 2 => rename' x => y)
    | (extract_lets +onlyGivenNames x; refine Kept.ofFun x ?_; dsimp -zeta only [x]; clear x)
    | (extract_lets +onlyGivenNames x; rename' x => y)
    | with_reducible apply showBuf_kept
    | with_reducible apply setF_kept
    | with_reducible apply endSecuring_kept
    | (with_reducible refine Kept.lit (by assumption) ?_; rfl)
    | split
    | (clear_value *; split)
    | (with_reducible refine Kept.lit ?_ ?_; on_goal 2 => rfl
       with_reducible first | apply showBuf_kept | apply setF_kept | apply endSecuring_kept)
    | dsimp -zeta only)

theorem breakTeam_kept {s : State} {cause : Nat} {z : State} (h : Kept z s) :
    Kept z (breakTeam s cause) := by
  unfold breakTeam
  repeat' (first
    | (intro z; intros; try beta_reduce)
    | with_reducible assumption
    | (extract_lets +onlyGivenNames x; refine Kept.cut (p := Kept z x) ?_ (fun _ => ?_)
       on_goal 1 => dsimp -zeta only [x]; clear x
       on_goal 2 => try clear_value x
       on_goal 2 => rename' x => y)
    | (extract_lets +onlyGivenNames x; refine Kept.cut (p := Kept z x.1) ?_ (fun _ => ?_)
       on_goal 1 => dsimp -zeta only [x]; clear x
       on_goal 2 => try clear_value x
       on_goal 2 => rename' x => y)
    | (extract_lets +onlyGivenNames x; refine Kept.ofFun x ?_; dsimp -zeta only [x]; clear x)
    | (extract_lets +onlyGivenNames x; rename' x => y)
    | with_reducible apply raise_kept
    | with_reducible apply setFs_kept
    | with_reducible apply stepSecured_kept
    | with_reducible apply sweepPages_kept
    | (with_reducible refine Kept.lit (by assumption) ?_; rfl)
    | split
    | (clear_value *; split)
    | dsimp -zeta only)

theorem abandonSecuring_kept {s : State} {z : State} (h : Kept z s) :
    Kept z (abandonSecuring s) := by
  unfold abandonSecuring
  repeat' (first
    | (intro z; intros; try beta_reduce)
    | with_reducible assumption
    | (extract_lets +onlyGivenNames x; refine Kept.cut (p := Kept z x) ?_ (fun _ => ?_)
       on_goal 1 => dsimp -zeta only [x]; clear x
       on_goal 2 => try clear_value x
       on_goal 2 => rename' x => y)
    | (extract_lets +onlyGivenNames x; refine Kept.cut (p := Kept z x.1) ?_ (fun _ => ?_)
       on_goal 1 => dsimp -zeta only [x]; clear x
       on_goal 2 => try clear_value x
       on_goal 2 => rename' x => y)
    | (extract_lets +onlyGivenNames x; refine Kept.ofFun x ?_; dsimp -zeta only [x]; clear x)
    | (extract_lets +onlyGivenNames x; rename' x => y)
    | with_reducible apply setFs_kept
    | with_reducible apply showBuf_kept
    | (with_reducible refine Kept.lit (by assumption) ?_; rfl)
    | (with_reducible refine Kept.lit ?_ ?_; on_goal 2 => rfl
       with_reducible first | apply setFs_kept | apply showBuf_kept)
    | dsimp -zeta only)

theorem leaveTeam_kept {s : State} {z : State} (h : Kept z s) :
    Kept z (leaveTeam s) := by
  unfold leaveTeam
  repeat' (first
    | (intro z; intros; try beta_reduce)
    | with_reducible assumption
    | (extract_lets +onlyGivenNames x; refine Kept.cut (p := Kept z x) ?_ (fun _ => ?_)
       on_goal 1 => dsimp -zeta only [x]; clear x
       on_goal 2 => try clear_value x
       on_goal 2 => rename' x => y)
    | (extract_lets +onlyGivenNames x; refine Kept.cut (p := Kept z x.1) ?_ (fun _ => ?_)
       on_goal 1 => dsimp -zeta only [x]; clear x
       on_goal 2 => try clear_value x
       on_goal 2 => rename' x => y)
    | (extract_lets +onlyGivenNames x; refine Kept.ofFun x ?_; dsimp -zeta only [x]; clear x)
    | (extract_lets +onlyGivenNames x; rename' x => y)
    | with_reducible apply forEach_kept
    | with_reducible apply sendTeam_kept
    | with_reducible apply setF_kept
    | (with_reducible refine Kept.lit (by assumption) ?_; rfl)
    | split
    | (clear_value *; split)
    | (with_reducible refine Kept.lit ?_ ?_; on_goal 2 => rfl
       with_reducible first | apply forEach_kept | apply sendTeam_kept | apply setF_kept)
    | dsimp -zeta only)

theorem dropAmends_kept {s : State} {status : Nat} {z : State} (h : Kept z s) :
    Kept z (dropAmends s status) := by
  unfold dropAmends
  repeat' (first
    | (intro z; intros; try beta_reduce)
    | with_reducible assumption
    | (extract_lets +onlyGivenNames x; refine Kept.cut (p := Kept z x) ?_ (fun _ => ?_)
       on_goal 1 => dsimp -zeta only [x]; clear x
       on_goal 2 => try clear_value x
       on_goal 2 => rename' x => y)
    | (extract_lets +onlyGivenNames x; refine Kept.cut (p := Kept z x.1) ?_ (fun _ => ?_)
       on_goal 1 => dsimp -zeta only [x]; clear x
       on_goal 2 => try clear_value x
       on_goal 2 => rename' x => y)
    | (extract_lets +onlyGivenNames x; refine Kept.ofFun x ?_; dsimp -zeta only [x]; clear x)
    | (extract_lets +onlyGivenNames x; rename' x => y)
    | with_reducible apply forEach_kept
    | with_reducible apply complete_kept
    | with_reducible apply setFs_kept
    | with_reducible apply setF_kept
    | (with_reducible refine Kept.lit (by assumption) ?_; rfl)
    | (with_reducible refine Kept.lit ?_ ?_; on_goal 2 => rfl
       with_reducible first | apply forEach_kept | apply complete_kept | apply setFs_kept | apply setF_kept)
    | dsimp -zeta only)

theorem dropImage_kept {s : State} {z : State} (h : Kept z s) :
    Kept z (dropImage s) := by
  unfold dropImage
  repeat' (first
    | (intro z; intros; try beta_reduce)
    | with_reducible assumption
    | (extract_lets +onlyGivenNames x; refine Kept.cut (p := Kept z x) ?_ (fun _ => ?_)
       on_goal 1 => dsimp -zeta only [x]; clear x
       on_goal 2 => try clear_value x
       on_goal 2 => rename' x => y)
    | (extract_lets +onlyGivenNames x; refine Kept.cut (p := Kept z x.1) ?_ (fun _ => ?_)
       on_goal 1 => dsimp -zeta only [x]; clear x
       on_goal 2 => try clear_value x
       on_goal 2 => rename' x => y)
    | (extract_lets +onlyGivenNames x; refine Kept.ofFun x ?_; dsimp -zeta only [x]; clear x)
    | (extract_lets +onlyGivenNames x; rename' x => y)
    | with_reducible apply forEach_kept
    | with_reducible apply modStall_kept
    | with_reducible apply live_kept
    | with_reducible apply setF_kept
    | with_reducible apply clearUnits_kept
    | with_reducible apply setFs_kept
    | (with_reducible refine Kept.lit (by assumption) ?_; rfl)
    | split
    | (clear_value *; split)
    | (with_reducible refine Kept.lit ?_ ?_; on_goal 2 => rfl
       with_reducible first | apply forEach_kept | apply modStall_kept | apply live_kept | apply setF_kept | apply clearUnits_kept | apply setFs_kept)
    | (have hk := ‹Kept z _›; exact hk.setTables rfl rfl rfl id id id id (fun k => tsorted_map _ (fun _ => rfl) (tsorted_filter _ k)) rfl)
    | dsimp -zeta only)

theorem forgetArrays_kept {s : State} {z : State} (h : Kept z s) :
    Kept z (forgetArrays s) := by
  unfold forgetArrays
  repeat' (first
    | (intro z; intros; try beta_reduce)
    | with_reducible assumption
    | (extract_lets +onlyGivenNames x; refine Kept.cut (p := Kept z x) ?_ (fun _ => ?_)
       on_goal 1 => dsimp -zeta only [x]; clear x
       on_goal 2 => try clear_value x
       on_goal 2 => rename' x => y)
    | (extract_lets +onlyGivenNames x; refine Kept.cut (p := Kept z x.1) ?_ (fun _ => ?_)
       on_goal 1 => dsimp -zeta only [x]; clear x
       on_goal 2 => try clear_value x
       on_goal 2 => rename' x => y)
    | (extract_lets +onlyGivenNames x; refine Kept.ofFun x ?_; dsimp -zeta only [x]; clear x)
    | (extract_lets +onlyGivenNames x; rename' x => y)
    | with_reducible apply dropImage_kept
    | (with_reducible refine Kept.lit (by assumption) ?_; rfl)
    | (with_reducible refine Kept.lit ?_ ?_; on_goal 2 => rfl
       with_reducible first | apply dropImage_kept)
    | dsimp -zeta only)

theorem endRunning_kept {s : State} {z : State} (h : Kept z s) :
    Kept z (endRunning s) := by
  unfold endRunning
  repeat' (first
    | (intro z; intros; try beta_reduce)
    | with_reducible assumption
    | (extract_lets +onlyGivenNames x; refine Kept.cut (p := Kept z x) ?_ (fun _ => ?_)
       on_goal 1 => dsimp -zeta only [x]; clear x
       on_goal 2 => try clear_value x
       on_goal 2 => rename' x => y)
    | (extract_lets +onlyGivenNames x; refine Kept.cut (p := Kept z x.1) ?_ (fun _ => ?_)
       on_goal 1 => dsimp -zeta only [x]; clear x
       on_goal 2 => try clear_value x
       on_goal 2 => rename' x => y)
    | (extract_lets +onlyGivenNames x; refine Kept.ofFun x ?_; dsimp -zeta only [x]; clear x)
    | (extract_lets +onlyGivenNames x; rename' x => y)
    | with_reducible apply forgetArrays_kept
    | with_reducible apply finish_kept
    | with_reducible apply raise_kept
    | (with_reducible refine Kept.lit (by assumption) ?_; rfl)
    | split
    | (clear_value *; split)
    | (with_reducible refine Kept.lit ?_ ?_; on_goal 2 => rfl
       with_reducible first | apply forgetArrays_kept | apply finish_kept | apply raise_kept)
    | with_reducible refine Kept.ofPair (by assumption) ?_
    | dsimp -zeta only)

theorem stopCompute_kept {s : State} {z : State} (h : Kept z s) :
    Kept z (stopCompute s) := by
  unfold stopCompute
  repeat' (first
    | (intro z; intros; try beta_reduce)
    | with_reducible assumption
    | (extract_lets +onlyGivenNames x; refine Kept.cut (p := Kept z x) ?_ (fun _ => ?_)
       on_goal 1 => dsimp -zeta only [x]; clear x
       on_goal 2 => try clear_value x
       on_goal 2 => rename' x => y)
    | (extract_lets +onlyGivenNames x; refine Kept.cut (p := Kept z x.1) ?_ (fun _ => ?_)
       on_goal 1 => dsimp -zeta only [x]; clear x
       on_goal 2 => try clear_value x
       on_goal 2 => rename' x => y)
    | (extract_lets +onlyGivenNames x; refine Kept.ofFun x ?_; dsimp -zeta only [x]; clear x)
    | (extract_lets +onlyGivenNames x; rename' x => y)
    | with_reducible apply forEach_kept
    | with_reducible apply pauseChan_kept
    | with_reducible apply modStall_kept
    | with_reducible apply setF_kept
    | with_reducible apply setChip_kept
    | (with_reducible refine Kept.lit (by assumption) ?_; rfl)
    | (with_reducible refine Kept.lit ?_ ?_; on_goal 2 => rfl
       with_reducible first | apply forEach_kept | apply pauseChan_kept | apply modStall_kept | apply setF_kept | apply setChip_kept)
    | dsimp -zeta only)

theorem loseHalted_kept {s : State} {z : State} (h : Kept z s) :
    Kept z (loseHalted s) := by
  unfold loseHalted
  repeat' (first
    | (intro z; intros; try beta_reduce)
    | with_reducible assumption
    | (extract_lets +onlyGivenNames x; refine Kept.cut (p := Kept z x) ?_ (fun _ => ?_)
       on_goal 1 => dsimp -zeta only [x]; clear x
       on_goal 2 => try clear_value x
       on_goal 2 => rename' x => y)
    | (extract_lets +onlyGivenNames x; refine Kept.cut (p := Kept z x.1) ?_ (fun _ => ?_)
       on_goal 1 => dsimp -zeta only [x]; clear x
       on_goal 2 => try clear_value x
       on_goal 2 => rename' x => y)
    | (extract_lets +onlyGivenNames x; refine Kept.ofFun x ?_; dsimp -zeta only [x]; clear x)
    | (extract_lets +onlyGivenNames x; rename' x => y)
    | with_reducible apply leaveTeam_kept
    | with_reducible apply when_kept
    | with_reducible apply endRunning_kept
    | with_reducible apply setF_kept
    | (with_reducible refine Kept.lit (by assumption) ?_; rfl)
    | (with_reducible refine Kept.lit ?_ ?_; on_goal 2 => rfl
       with_reducible first | apply leaveTeam_kept | apply when_kept | apply endRunning_kept | apply setF_kept)
    | dsimp -zeta only)

theorem enterHalted_kept {s : State} {cause : Nat} {losing : Bool} {z : State} (h : Kept z s) :
    Kept z (enterHalted s cause losing) := by
  unfold enterHalted
  repeat' (first
    | (intro z; intros; try beta_reduce)
    | with_reducible assumption
    | (extract_lets +onlyGivenNames x; refine Kept.cut (p := Kept z x) ?_ (fun _ => ?_)
       on_goal 1 => dsimp -zeta only [x]; clear x
       on_goal 2 => try clear_value x
       on_goal 2 => rename' x => y)
    | (extract_lets +onlyGivenNames x; refine Kept.cut (p := Kept z x.1) ?_ (fun _ => ?_)
       on_goal 1 => dsimp -zeta only [x]; clear x
       on_goal 2 => try clear_value x
       on_goal 2 => rename' x => y)
    | (extract_lets +onlyGivenNames x; refine Kept.ofFun x ?_; dsimp -zeta only [x]; clear x)
    | (extract_lets +onlyGivenNames x; rename' x => y)
    | with_reducible apply when_kept
    | with_reducible apply loseHalted_kept
    | with_reducible apply stopCompute_kept
    | with_reducible apply dropAmends_kept
    | with_reducible apply endRunning_kept
    | with_reducible apply leaveTeam_kept
    | with_reducible apply setFs_kept
    | with_reducible apply setAlert_kept
    | (with_reducible refine Kept.lit (by assumption) ?_; rfl)
    | split
    | (clear_value *; split)
    | (with_reducible refine Kept.lit ?_ ?_; on_goal 2 => rfl
       with_reducible first | apply when_kept | apply loseHalted_kept | apply stopCompute_kept | apply dropAmends_kept | apply endRunning_kept | apply leaveTeam_kept | apply setFs_kept | apply setAlert_kept)
    | dsimp -zeta only)

theorem dropRails_kept {s : State} {z : State} (h : Kept z s) : Kept z (dropRails s) :=
  h.trans ⟨rfl, Nat.le_refl _, fun _ => rfl, fun k => by
    rw [tablesOk_iff] at *
    exact ⟨k.1, k.2.1, k.2.2.1, rfl, rfl⟩, fun k => by
    rw [boundsOk_iff] at *
    exact ⟨Nat.zero_le _, Nat.zero_le _, Nat.zero_le _, k.2.2.2⟩⟩

theorem beginReset_kept {s : State} {z : State} (h : Kept z s) :
    Kept z (beginReset s) := by
  unfold beginReset
  repeat' (first
    | (intro z; intros; try beta_reduce)
    | with_reducible assumption
    | (extract_lets +onlyGivenNames x; refine Kept.cut (p := Kept z x) ?_ (fun _ => ?_)
       on_goal 1 => dsimp -zeta only [x]; clear x
       on_goal 2 => try clear_value x
       on_goal 2 => rename' x => y)
    | (extract_lets +onlyGivenNames x; refine Kept.cut (p := Kept z x.1) ?_ (fun _ => ?_)
       on_goal 1 => dsimp -zeta only [x]; clear x
       on_goal 2 => try clear_value x
       on_goal 2 => rename' x => y)
    | (extract_lets +onlyGivenNames x; refine Kept.ofFun x ?_; dsimp -zeta only [x]; clear x)
    | (extract_lets +onlyGivenNames x; rename' x => y)
    | with_reducible apply dropRails_kept
    | (with_reducible refine Kept.lit (by assumption) ?_; rfl)
    | split
    | (clear_value *; split)
    | (with_reducible refine Kept.lit ?_ ?_; on_goal 2 => rfl
       with_reducible first | apply dropRails_kept)
    | dsimp -zeta only)

theorem haltRailsOff_kept {s : State} {cause : Nat} {z : State} (h : Kept z s) :
    Kept z (haltRailsOff s cause) := by
  unfold haltRailsOff
  repeat' (first
    | (intro z; intros; try beta_reduce)
    | with_reducible assumption
    | with_reducible apply dropRails_kept
    | with_reducible apply enterHalted_kept
    | (with_reducible refine Kept.lit (by assumption) ?_; rfl)
    | dsimp -zeta only)

theorem notePlan_kept {s : State} {src : Nat} {tag : Nat} {z : State} (h : Kept z s) :
    Kept z (notePlan s src tag) := by
  unfold notePlan
  repeat' (first
    | (intro z; intros; try beta_reduce)
    | with_reducible assumption
    | (extract_lets +onlyGivenNames x; refine Kept.cut (p := Kept z x) ?_ (fun _ => ?_)
       on_goal 1 => dsimp -zeta only [x]; clear x
       on_goal 2 => try clear_value x
       on_goal 2 => rename' x => y)
    | (extract_lets +onlyGivenNames x; refine Kept.cut (p := Kept z x.1) ?_ (fun _ => ?_)
       on_goal 1 => dsimp -zeta only [x]; clear x
       on_goal 2 => try clear_value x
       on_goal 2 => rename' x => y)
    | (extract_lets +onlyGivenNames x; refine Kept.ofFun x ?_; dsimp -zeta only [x]; clear x)
    | (extract_lets +onlyGivenNames x; rename' x => y)
    | with_reducible apply when_kept
    | with_reducible apply bumpF_kept
    | with_reducible apply setF_kept
    | with_reducible apply raiseOnce_kept
    | (with_reducible refine Kept.lit (by assumption) ?_; rfl)
    | split
    | (clear_value *; split)
    | with_reducible refine Kept.ofPair (by assumption) ?_
    | dsimp -zeta only)

theorem planMismatch_kept {s : State} {src : Nat} {tag : Nat} {z : State} (h : Kept z s) :
    Kept z (planMismatch s src tag) := by
  unfold planMismatch
  repeat' (first
    | (intro z; intros; try beta_reduce)
    | with_reducible assumption
    | (extract_lets +onlyGivenNames x; refine Kept.cut (p := Kept z x) ?_ (fun _ => ?_)
       on_goal 1 => dsimp -zeta only [x]; clear x
       on_goal 2 => try clear_value x
       on_goal 2 => rename' x => y)
    | (extract_lets +onlyGivenNames x; refine Kept.cut (p := Kept z x.1) ?_ (fun _ => ?_)
       on_goal 1 => dsimp -zeta only [x]; clear x
       on_goal 2 => try clear_value x
       on_goal 2 => rename' x => y)
    | (extract_lets +onlyGivenNames x; refine Kept.ofFun x ?_; dsimp -zeta only [x]; clear x)
    | (extract_lets +onlyGivenNames x; rename' x => y)
    | with_reducible apply notePlan_kept
    | with_reducible apply enterHalted_kept
    | with_reducible apply raise_kept
    | with_reducible apply setF_kept
    | (with_reducible refine Kept.lit (by assumption) ?_; rfl)
    | split
    | (clear_value *; split)
    | dsimp -zeta only)

theorem clearFaults_kept {s : State} {z : State} (h : Kept z s) :
    Kept z (clearFaults s) := by
  unfold clearFaults
  repeat' (first
    | (intro z; intros; try beta_reduce)
    | with_reducible assumption
    | (extract_lets +onlyGivenNames x; refine Kept.cut (p := Kept z x) ?_ (fun _ => ?_)
       on_goal 1 => dsimp -zeta only [x]; clear x
       on_goal 2 => try clear_value x
       on_goal 2 => rename' x => y)
    | (extract_lets +onlyGivenNames x; refine Kept.cut (p := Kept z x.1) ?_ (fun _ => ?_)
       on_goal 1 => dsimp -zeta only [x]; clear x
       on_goal 2 => try clear_value x
       on_goal 2 => rename' x => y)
    | (extract_lets +onlyGivenNames x; refine Kept.ofFun x ?_; dsimp -zeta only [x]; clear x)
    | (extract_lets +onlyGivenNames x; rename' x => y)
    | with_reducible apply forEach_kept
    | with_reducible apply clearUnits_kept
    | with_reducible apply modStall_kept
    | (with_reducible refine Kept.lit (by assumption) ?_; rfl)
    | (with_reducible refine Kept.lit ?_ ?_; on_goal 2 => rfl
       with_reducible first | apply forEach_kept | apply clearUnits_kept | apply modStall_kept)
    | dsimp -zeta only)

theorem eraseTeamKey_kept {s : State} {z : State} (h : Kept z s) :
    Kept z (eraseTeamKey s) := by
  unfold eraseTeamKey
  repeat' (first
    | (intro z; intros; try beta_reduce)
    | with_reducible assumption
    | (extract_lets +onlyGivenNames x; refine Kept.cut (p := Kept z x) ?_ (fun _ => ?_)
       on_goal 1 => dsimp -zeta only [x]; clear x
       on_goal 2 => try clear_value x
       on_goal 2 => rename' x => y)
    | (extract_lets +onlyGivenNames x; refine Kept.cut (p := Kept z x.1) ?_ (fun _ => ?_)
       on_goal 1 => dsimp -zeta only [x]; clear x
       on_goal 2 => try clear_value x
       on_goal 2 => rename' x => y)
    | (extract_lets +onlyGivenNames x; refine Kept.ofFun x ?_; dsimp -zeta only [x]; clear x)
    | (extract_lets +onlyGivenNames x; rename' x => y)
    | with_reducible apply forEach_kept
    | with_reducible apply setF_kept
    | (with_reducible refine Kept.lit (by assumption) ?_; rfl)
    | (with_reducible refine Kept.lit ?_ ?_; on_goal 2 => rfl
       with_reducible first | apply forEach_kept | apply setF_kept)
    | dsimp -zeta only)

theorem stopBringup_kept {s : State} {cause : Nat} {z : State} (h : Kept z s) :
    Kept z (stopBringup s cause) := by
  unfold stopBringup
  repeat' (first
    | (intro z; intros; try beta_reduce)
    | with_reducible assumption
    | (extract_lets +onlyGivenNames x; refine Kept.cut (p := Kept z x) ?_ (fun _ => ?_)
       on_goal 1 => dsimp -zeta only [x]; clear x
       on_goal 2 => try clear_value x
       on_goal 2 => rename' x => y)
    | (extract_lets +onlyGivenNames x; refine Kept.cut (p := Kept z x.1) ?_ (fun _ => ?_)
       on_goal 1 => dsimp -zeta only [x]; clear x
       on_goal 2 => try clear_value x
       on_goal 2 => rename' x => y)
    | (extract_lets +onlyGivenNames x; refine Kept.ofFun x ?_; dsimp -zeta only [x]; clear x)
    | (extract_lets +onlyGivenNames x; rename' x => y)
    | with_reducible apply setF_kept
    | with_reducible apply raise_kept
    | (with_reducible refine Kept.lit (by assumption) ?_; rfl)
    | (with_reducible refine Kept.lit ?_ ?_; on_goal 2 => rfl
       with_reducible first | apply setF_kept | apply raise_kept)
    | dsimp -zeta only)

end Sys2Proof.Machine
end

