-- ==== Sys2Proof/Laws/KeptBoard.lean ====
section
/-! SUPPORT. Laws/KeptBoard.lean: what every operation of Machine/Board.lean keeps (Laws/Kept.lean). -/
namespace Sys2Proof.Machine
open Sys2Proof

theorem loadFuses_kept {s : State} {z : State} (h : Kept z s) :
    Kept z (loadFuses s) := by
  unfold loadFuses
  repeat' (first
    | (intro z; intros; try beta_reduce)
    | with_reducible assumption
    | (extract_lets +onlyGivenNames x; refine Kept.cut (p := Kept z x) ?_ (fun _ => ?_)
       on_goal 1 => dsimp -zeta only [x]; clear x
       on_goal 2 => try clear_value x
       on_goal 2 => rename' x => y)
    | (extract_lets +onlyGivenNames x; refine Kept.cut (p := Kept z x.1) ?_ (fun _ => ?_)
       on_goal 1 => dsimp -zeta only [x]; clear x
       on_goal 2 => try clear_value x
       on_goal 2 => rename' x => y)
    | (extract_lets +onlyGivenNames x; refine Kept.ofFun x ?_; dsimp -zeta only [x]; clear x)
    | (extract_lets +onlyGivenNames x; rename' x => y)
    | with_reducible apply forEach_kept
    | with_reducible apply setF_kept
    | with_reducible apply setFs_kept
    | (with_reducible refine Kept.lit (by assumption) ?_; rfl)
    | dsimp -zeta only)

theorem resetCore_kept {s : State} {z : State} (h : Kept z s) : Kept z (resetCore s) :=
  h.trans ⟨rfl, Nat.le_refl _, fun _ => rfl, fun k => by
    rw [tablesOk_iff] at *
    exact ⟨tsorted_filter _ k.1, rfl, rfl, rfl, rfl⟩, fun k => by
    rw [boundsOk_iff] at *
    exact ⟨Nat.zero_le _, Nat.zero_le _, Nat.zero_le _, k.2.2.2⟩⟩

theorem enterBringup_kept {s : State} {z : State} (h : Kept z s) :
    Kept z (enterBringup s) := by
  unfold enterBringup
  repeat' (first
    | (intro z; intros; try beta_reduce)
    | with_reducible assumption
    | (extract_lets +onlyGivenNames x; refine Kept.cut (p := Kept z x) ?_ (fun _ => ?_)
       on_goal 1 => dsimp -zeta only [x]; clear x
       on_goal 2 => try clear_value x
       on_goal 2 => rename' x => y)
    | (extract_lets +onlyGivenNames x; refine Kept.cut (p := Kept z x.1) ?_ (fun _ => ?_)
       on_goal 1 => dsimp -zeta only [x]; clear x
       on_goal 2 => try clear_value x
       on_goal 2 => rename' x => y)
    | (extract_lets +onlyGivenNames x; refine Kept.ofFun x ?_; dsimp -zeta only [x]; clear x)
    | (extract_lets +onlyGivenNames x; rename' x => y)
    | with_reducible apply loadFuses_kept
    | with_reducible apply resetCore_kept
    | with_reducible apply setFs_kept
    | with_reducible apply raise_kept
    | (with_reducible refine Kept.lit (by assumption) ?_; rfl)
    | split
    | (clear_value *; split)
    | (with_reducible refine Kept.lit ?_ ?_; on_goal 2 => rfl
       with_reducible first | apply loadFuses_kept | apply resetCore_kept | apply setFs_kept | apply raise_kept)
    | (have hk := ‹Kept z _›; exact hk.setBounds rfl (fun _ => Nat.zero_le _) id id rfl)
    | dsimp -zeta only)

theorem sampleReset_kept {s : State} {z : State} (h : Kept z s) :
    Kept z (sampleReset s) := by
  unfold sampleReset
  repeat' (first
    | (intro z; intros; try beta_reduce)
    | with_reducible assumption
    | with_reducible apply enterBringup_kept
    | (with_reducible refine Kept.lit (by assumption) ?_; rfl)
    | split
    | (clear_value *; split)
    | dsimp -zeta only)

theorem execPowerInputInRange_kept {s : State} {z : State} (h : Kept z s) :
    KeptOut z (execPowerInputInRange s) := by
  unfold execPowerInputInRange
  repeat' (first
    | (intro z; intros; try beta_reduce)
    | with_reducible assumption
    | (extract_lets +onlyGivenNames x; refine Kept.cut (p := Kept z x) ?_ (fun _ => ?_)
       on_goal 1 => dsimp -zeta only [x]; clear x
       on_goal 2 => try clear_value x
       on_goal 2 => rename' x => y)
    | (extract_lets +onlyGivenNames x; refine Kept.cut (p := Kept z x.1) ?_ (fun _ => ?_)
       on_goal 1 => dsimp -zeta only [x]; clear x
       on_goal 2 => try clear_value x
       on_goal 2 => rename' x => y)
    | (extract_lets +onlyGivenNames x; refine Kept.ofFun x ?_; dsimp -zeta only [x]; clear x)
    | (extract_lets +onlyGivenNames x; rename' x => y)
    | with_reducible apply KeptOut.next
    | with_reducible exact KeptOut.fault _
    | (with_reducible refine Kept.lit (by assumption) ?_; rfl)
    | split
    | (clear_value *; split)
    | dsimp -zeta only)

theorem execAlwaysOnRailsGood_kept {s : State} {z : State} (h : Kept z s) :
    KeptOut z (execAlwaysOnRailsGood s) := by
  unfold execAlwaysOnRailsGood
  repeat' (first
    | (intro z; intros; try beta_reduce)
    | with_reducible assumption
    | (extract_lets +onlyGivenNames x; refine Kept.cut (p := Kept z x) ?_ (fun _ => ?_)
       on_goal 1 => dsimp -zeta only [x]; clear x
       on_goal 2 => try clear_value x
       on_goal 2 => rename' x => y)
    | (extract_lets +onlyGivenNames x; refine Kept.cut (p := Kept z x.1) ?_ (fun _ => ?_)
       on_goal 1 => dsimp -zeta only [x]; clear x
       on_goal 2 => try clear_value x
       on_goal 2 => rename' x => y)
    | (extract_lets +onlyGivenNames x; refine Kept.ofFun x ?_; dsimp -zeta only [x]; clear x)
    | (extract_lets +onlyGivenNames x; rename' x => y)
    | with_reducible apply KeptOut.next
    | with_reducible exact KeptOut.fault _
    | (with_reducible refine Kept.lit (by assumption) ?_; rfl)
    | split
    | (clear_value *; split)
    | dsimp -zeta only)

theorem execInputOutOfLimits_kept {s : State} {z : State} (h : Kept z s) : KeptOut z (execInputOutOfLimits s) :=
  .next (h.trans ⟨rfl, Nat.le_refl _, fun _ => rfl, fun k => by
    rw [tablesOk_iff] at *
    exact ⟨tsorted_filter _ k.1, rfl, rfl, rfl, rfl⟩, fun k => by
    rw [boundsOk_iff] at *
    exact ⟨Nat.zero_le _, Nat.zero_le _, Nat.zero_le _, k.2.2.2⟩⟩)

theorem loadBay_kept {s : State} {m : Bytes} {z : State} (h : Kept z s) :
    Kept z (loadBay s m) := by
  unfold loadBay
  repeat' (first
    | (intro z; intros; try beta_reduce)
    | with_reducible assumption
    | (extract_lets +onlyGivenNames x; refine Kept.cut (p := Kept z x) ?_ (fun _ => ?_)
       on_goal 1 => dsimp -zeta only [x]; clear x
       on_goal 2 => try clear_value x
       on_goal 2 => rename' x => y)
    | (extract_lets +onlyGivenNames x; refine Kept.cut (p := Kept z x.1) ?_ (fun _ => ?_)
       on_goal 1 => dsimp -zeta only [x]; clear x
       on_goal 2 => try clear_value x
       on_goal 2 => rename' x => y)
    | (extract_lets +onlyGivenNames x; refine Kept.ofFun x ?_; dsimp -zeta only [x]; clear x)
    | (extract_lets +onlyGivenNames x; rename' x => y)
    | with_reducible apply setFs_kept
    | (with_reducible refine Kept.lit (by assumption) ?_; rfl)
    | split
    | (clear_value *; split)
    | (with_reducible refine Kept.lit ?_ ?_; on_goal 2 => rfl
       with_reducible first | apply setFs_kept)
    | dsimp -zeta only)

theorem noBay_kept {s : State} {st : Nat} {z : State} (h : Kept z s) :
    Kept z (noBay s st) := by
  unfold noBay
  repeat' (first
    | (intro z; intros; try beta_reduce)
    | with_reducible assumption
    | (extract_lets +onlyGivenNames x; refine Kept.cut (p := Kept z x) ?_ (fun _ => ?_)
       on_goal 1 => dsimp -zeta only [x]; clear x
       on_goal 2 => try clear_value x
       on_goal 2 => rename' x => y)
    | (extract_lets +onlyGivenNames x; refine Kept.cut (p := Kept z x.1) ?_ (fun _ => ?_)
       on_goal 1 => dsimp -zeta only [x]; clear x
       on_goal 2 => try clear_value x
       on_goal 2 => rename' x => y)
    | (extract_lets +onlyGivenNames x; refine Kept.ofFun x ?_; dsimp -zeta only [x]; clear x)
    | (extract_lets +onlyGivenNames x; rename' x => y)
    | with_reducible apply setFs_kept
    | with_reducible apply setAlert_kept
    | (with_reducible refine Kept.lit (by assumption) ?_; rfl)
    | (with_reducible refine Kept.lit ?_ ?_; on_goal 2 => rfl
       with_reducible first | apply setFs_kept | apply setAlert_kept)
    | dsimp -zeta only)

theorem readBay_kept {r : BayRead} {s : State} {z : State} (h : Kept z s) :
    Kept z (readBay r s) := by
  unfold readBay
  repeat' (first
    | (intro z; intros; try beta_reduce)
    | with_reducible assumption
    | (extract_lets +onlyGivenNames x; refine Kept.cut (p := Kept z x) ?_ (fun _ => ?_)
       on_goal 1 => dsimp -zeta only [x]; clear x
       on_goal 2 => try clear_value x
       on_goal 2 => rename' x => y)
    | (extract_lets +onlyGivenNames x; refine Kept.cut (p := Kept z x.1) ?_ (fun _ => ?_)
       on_goal 1 => dsimp -zeta only [x]; clear x
       on_goal 2 => try clear_value x
       on_goal 2 => rename' x => y)
    | (extract_lets +onlyGivenNames x; refine Kept.ofFun x ?_; dsimp -zeta only [x]; clear x)
    | (extract_lets +onlyGivenNames x; rename' x => y)
    | with_reducible apply loadBay_kept
    | with_reducible apply noBay_kept
    | with_reducible apply sampleReset_kept
    | (with_reducible refine Kept.lit (by assumption) ?_; rfl)
    | split
    | (clear_value *; split)
    | (with_reducible refine Kept.lit ?_ ?_; on_goal 2 => rfl
       with_reducible first | apply loadBay_kept | apply noBay_kept | apply sampleReset_kept)
    | with_reducible refine Kept.ofPair (by assumption) ?_
    | dsimp -zeta only)

theorem execBayIdentityRead_kept {r : BayRead} {s : State} {z : State} (h : Kept z s) :
    KeptOut z (execBayIdentityRead r s) := by
  unfold execBayIdentityRead
  repeat' (first
    | (intro z; intros; try beta_reduce)
    | with_reducible assumption
    | with_reducible apply readBay_kept
    | with_reducible apply KeptOut.next
    | with_reducible exact KeptOut.fault _
    | (with_reducible refine Kept.lit (by assumption) ?_; rfl)
    | split
    | (clear_value *; split)
    | dsimp -zeta only)

theorem execResetNReleased_kept {s : State} {z : State} (h : Kept z s) :
    KeptOut z (execResetNReleased s) := by
  unfold execResetNReleased
  repeat' (first
    | (intro z; intros; try beta_reduce)
    | with_reducible assumption
    | (extract_lets +onlyGivenNames x; refine Kept.cut (p := Kept z x) ?_ (fun _ => ?_)
       on_goal 1 => dsimp -zeta only [x]; clear x
       on_goal 2 => try clear_value x
       on_goal 2 => rename' x => y)
    | (extract_lets +onlyGivenNames x; refine Kept.cut (p := Kept z x.1) ?_ (fun _ => ?_)
       on_goal 1 => dsimp -zeta only [x]; clear x
       on_goal 2 => try clear_value x
       on_goal 2 => rename' x => y)
    | (extract_lets +onlyGivenNames x; refine Kept.ofFun x ?_; dsimp -zeta only [x]; clear x)
    | (extract_lets +onlyGivenNames x; rename' x => y)
    | with_reducible apply sampleReset_kept
    | with_reducible apply KeptOut.next
    | with_reducible exact KeptOut.fault _
    | (with_reducible refine Kept.lit (by assumption) ?_; rfl)
    | split
    | (clear_value *; split)
    | (with_reducible refine Kept.lit ?_ ?_; on_goal 2 => rfl
       with_reducible first | apply sampleReset_kept)
    | dsimp -zeta only)

theorem execResetNLow_kept {s : State} {z : State} (h : Kept z s) :
    KeptOut z (execResetNLow s) := by
  unfold execResetNLow
  repeat' (first
    | (intro z; intros; try beta_reduce)
    | with_reducible assumption
    | (extract_lets +onlyGivenNames x; refine Kept.cut (p := Kept z x) ?_ (fun _ => ?_)
       on_goal 1 => dsimp -zeta only [x]; clear x
       on_goal 2 => try clear_value x
       on_goal 2 => rename' x => y)
    | (extract_lets +onlyGivenNames x; refine Kept.cut (p := Kept z x.1) ?_ (fun _ => ?_)
       on_goal 1 => dsimp -zeta only [x]; clear x
       on_goal 2 => try clear_value x
       on_goal 2 => rename' x => y)
    | (extract_lets +onlyGivenNames x; refine Kept.ofFun x ?_; dsimp -zeta only [x]; clear x)
    | (extract_lets +onlyGivenNames x; rename' x => y)
    | with_reducible apply beginReset_kept
    | with_reducible apply KeptOut.next
    | with_reducible exact KeptOut.fault _
    | (with_reducible refine Kept.lit (by assumption) ?_; rfl)
    | split
    | (clear_value *; split)
    | (with_reducible refine Kept.lit ?_ ?_; on_goal 2 => rfl
       with_reducible first | apply beginReset_kept)
    | dsimp -zeta only)

theorem execLastRailOff_kept {s : State} {z : State} (h : Kept z s) :
    KeptOut z (execLastRailOff s) := by
  unfold execLastRailOff
  repeat' (first
    | (intro z; intros; try beta_reduce)
    | with_reducible assumption
    | (extract_lets +onlyGivenNames x; refine Kept.cut (p := Kept z x) ?_ (fun _ => ?_)
       on_goal 1 => dsimp -zeta only [x]; clear x
       on_goal 2 => try clear_value x
       on_goal 2 => rename' x => y)
    | (extract_lets +onlyGivenNames x; refine Kept.cut (p := Kept z x.1) ?_ (fun _ => ?_)
       on_goal 1 => dsimp -zeta only [x]; clear x
       on_goal 2 => try clear_value x
       on_goal 2 => rename' x => y)
    | (extract_lets +onlyGivenNames x; refine Kept.ofFun x ?_; dsimp -zeta only [x]; clear x)
    | (extract_lets +onlyGivenNames x; rename' x => y)
    | with_reducible apply KeptOut.next
    | with_reducible exact KeptOut.fault _
    | (with_reducible refine Kept.lit (by assumption) ?_; rfl)
    | split
    | (clear_value *; split)
    | dsimp -zeta only)

theorem execLeverOpened_kept {s : State} {z : State} (h : Kept z s) :
    KeptOut z (execLeverOpened s) := by
  unfold execLeverOpened
  repeat' (first
    | (intro z; intros; try beta_reduce)
    | with_reducible assumption
    | (extract_lets +onlyGivenNames x; refine Kept.cut (p := Kept z x) ?_ (fun _ => ?_)
       on_goal 1 => dsimp -zeta only [x]; clear x
       on_goal 2 => try clear_value x
       on_goal 2 => rename' x => y)
    | (extract_lets +onlyGivenNames x; refine Kept.cut (p := Kept z x.1) ?_ (fun _ => ?_)
       on_goal 1 => dsimp -zeta only [x]; clear x
       on_goal 2 => try clear_value x
       on_goal 2 => rename' x => y)
    | (extract_lets +onlyGivenNames x; refine Kept.ofFun x ?_; dsimp -zeta only [x]; clear x)
    | (extract_lets +onlyGivenNames x; rename' x => y)
    | with_reducible apply beginReset_kept
    | with_reducible apply KeptOut.next
    | with_reducible exact KeptOut.fault _
    | (with_reducible refine Kept.lit (by assumption) ?_; rfl)
    | split
    | (clear_value *; split)
    | (with_reducible refine Kept.lit ?_ ?_; on_goal 2 => rfl
       with_reducible first | apply beginReset_kept)
    | dsimp -zeta only)

theorem execRailFault_kept {rail : Nat} {mv : Nat} {s : State} {z : State} (h : Kept z s) :
    KeptOut z (execRailFault rail mv s) := by
  unfold execRailFault
  repeat' (first
    | (intro z; intros; try beta_reduce)
    | with_reducible assumption
    | (extract_lets +onlyGivenNames x; refine Kept.cut (p := Kept z x) ?_ (fun _ => ?_)
       on_goal 1 => dsimp -zeta only [x]; clear x
       on_goal 2 => try clear_value x
       on_goal 2 => rename' x => y)
    | (extract_lets +onlyGivenNames x; refine Kept.cut (p := Kept z x.1) ?_ (fun _ => ?_)
       on_goal 1 => dsimp -zeta only [x]; clear x
       on_goal 2 => try clear_value x
       on_goal 2 => rename' x => y)
    | (extract_lets +onlyGivenNames x; refine Kept.ofFun x ?_; dsimp -zeta only [x]; clear x)
    | (extract_lets +onlyGivenNames x; rename' x => y)
    | with_reducible apply inModule_kept
    | with_reducible apply raise_kept
    | with_reducible apply when_kept
    | with_reducible apply stopBringup_kept
    | with_reducible apply haltRailsOff_kept
    | with_reducible apply KeptOut.next
    | with_reducible exact KeptOut.fault _
    | (with_reducible refine Kept.lit (by assumption) ?_; rfl)
    | split
    | (clear_value *; split)
    | (with_reducible refine Kept.lit ?_ ?_; on_goal 2 => rfl
       with_reducible first | apply inModule_kept | apply raise_kept | apply when_kept | apply stopBringup_kept | apply haltRailsOff_kept)
    | dsimp -zeta only)

theorem execClk25AonLost_kept {s : State} {z : State} (h : Kept z s) :
    KeptOut z (execClk25AonLost s) := by
  unfold execClk25AonLost
  repeat' (first
    | (intro z; intros; try beta_reduce)
    | with_reducible assumption
    | with_reducible apply raise_kept
    | with_reducible apply setFs_kept
    | with_reducible apply KeptOut.next
    | with_reducible exact KeptOut.fault _
    | (with_reducible refine Kept.lit (by assumption) ?_; rfl)
    | split
    | (clear_value *; split)
    | dsimp -zeta only)

theorem execClk25AonRestored_kept {s : State} {z : State} (h : Kept z s) :
    KeptOut z (execClk25AonRestored s) := by
  unfold execClk25AonRestored
  repeat' (first
    | (intro z; intros; try beta_reduce)
    | with_reducible assumption
    | with_reducible apply raise_kept
    | with_reducible apply setFs_kept
    | with_reducible apply KeptOut.next
    | with_reducible exact KeptOut.fault _
    | (with_reducible refine Kept.lit (by assumption) ?_; rfl)
    | split
    | (clear_value *; split)
    | dsimp -zeta only)

theorem execCoreClockLost_kept {clk : Nat} {s : State} {z : State} (h : Kept z s) :
    KeptOut z (execCoreClockLost clk s) := by
  unfold execCoreClockLost
  repeat' (first
    | (intro z; intros; try beta_reduce)
    | with_reducible assumption
    | (extract_lets +onlyGivenNames x; refine Kept.cut (p := Kept z x) ?_ (fun _ => ?_)
       on_goal 1 => dsimp -zeta only [x]; clear x
       on_goal 2 => try clear_value x
       on_goal 2 => rename' x => y)
    | (extract_lets +onlyGivenNames x; refine Kept.cut (p := Kept z x.1) ?_ (fun _ => ?_)
       on_goal 1 => dsimp -zeta only [x]; clear x
       on_goal 2 => try clear_value x
       on_goal 2 => rename' x => y)
    | (extract_lets +onlyGivenNames x; refine Kept.ofFun x ?_; dsimp -zeta only [x]; clear x)
    | (extract_lets +onlyGivenNames x; rename' x => y)
    | with_reducible apply inModule_kept
    | with_reducible apply setF_kept
    | with_reducible apply stopBringup_kept
    | with_reducible apply raise_kept
    | with_reducible apply enterHalted_kept
    | with_reducible apply KeptOut.next
    | with_reducible exact KeptOut.fault _
    | (with_reducible refine Kept.lit (by assumption) ?_; rfl)
    | split
    | (clear_value *; split)
    | dsimp -zeta only)

theorem execPllUnlock_kept {pll : Nat} {s : State} {z : State} (h : Kept z s) :
    KeptOut z (execPllUnlock pll s) := by
  unfold execPllUnlock
  repeat' (first
    | (intro z; intros; try beta_reduce)
    | with_reducible assumption
    | (extract_lets +onlyGivenNames x; refine Kept.cut (p := Kept z x) ?_ (fun _ => ?_)
       on_goal 1 => dsimp -zeta only [x]; clear x
       on_goal 2 => try clear_value x
       on_goal 2 => rename' x => y)
    | (extract_lets +onlyGivenNames x; refine Kept.cut (p := Kept z x.1) ?_ (fun _ => ?_)
       on_goal 1 => dsimp -zeta only [x]; clear x
       on_goal 2 => try clear_value x
       on_goal 2 => rename' x => y)
    | (extract_lets +onlyGivenNames x; refine Kept.ofFun x ?_; dsimp -zeta only [x]; clear x)
    | (extract_lets +onlyGivenNames x; rename' x => y)
    | with_reducible apply inModule_kept
    | with_reducible apply raise_kept
    | with_reducible apply enterHalted_kept
    | with_reducible apply KeptOut.next
    | with_reducible exact KeptOut.fault _
    | (with_reducible refine Kept.lit (by assumption) ?_; rfl)
    | split
    | (clear_value *; split)
    | (with_reducible refine Kept.lit ?_ ?_; on_goal 2 => rfl
       with_reducible first | apply inModule_kept | apply raise_kept | apply enterHalted_kept)
    | dsimp -zeta only)

theorem refresh_kept {t : Telemetry} {s : State} {z : State} (h : Kept z s) :
    Kept z (refresh t s) := by
  unfold refresh
  repeat' (first
    | (intro z; intros; try beta_reduce)
    | with_reducible assumption
    | (extract_lets +onlyGivenNames x; refine Kept.cut (p := Kept z x) ?_ (fun _ => ?_)
       on_goal 1 => dsimp -zeta only [x]; clear x
       on_goal 2 => try clear_value x
       on_goal 2 => rename' x => y)
    | (extract_lets +onlyGivenNames x; refine Kept.cut (p := Kept z x.1) ?_ (fun _ => ?_)
       on_goal 1 => dsimp -zeta only [x]; clear x
       on_goal 2 => try clear_value x
       on_goal 2 => rename' x => y)
    | (extract_lets +onlyGivenNames x; refine Kept.ofFun x ?_; dsimp -zeta only [x]; clear x)
    | (extract_lets +onlyGivenNames x; rename' x => y)
    | with_reducible apply setF_kept
    | with_reducible apply setCauses_kept
    | with_reducible apply raise_kept
    | (with_reducible refine Kept.lit (by assumption) ?_; rfl)
    | split
    | (clear_value *; split)
    | (with_reducible refine Kept.lit ?_ ?_; on_goal 2 => rfl
       with_reducible first | apply setF_kept | apply setCauses_kept | apply raise_kept)
    | dsimp -zeta only)

theorem execTelemetryRefresh_kept {t : Telemetry} {s : State} {z : State} (h : Kept z s) :
    KeptOut z (execTelemetryRefresh t s) := by
  unfold execTelemetryRefresh
  repeat' (first
    | (intro z; intros; try beta_reduce)
    | with_reducible assumption
    | with_reducible apply refresh_kept
    | with_reducible apply KeptOut.next
    | with_reducible exact KeptOut.fault _
    | (with_reducible refine Kept.lit (by assumption) ?_; rfl)
    | split
    | (clear_value *; split)
    | dsimp -zeta only)

theorem execAlertCauseClear_kept {w : BusWrite} {s : State} {z : State} (h : Kept z s) :
    KeptOut z (execAlertCauseClear w s) := by
  unfold execAlertCauseClear
  repeat' (first
    | (intro z; intros; try beta_reduce)
    | with_reducible assumption
    | with_reducible apply clearCauses_kept
    | with_reducible apply KeptOut.next
    | with_reducible exact KeptOut.fault _
    | (with_reducible refine Kept.lit (by assumption) ?_; rfl)
    | split
    | (clear_value *; split)
    | dsimp -zeta only)

theorem execI3cDynamicAddress_kept {a : Nat} {s : State} {z : State} (h : Kept z s) :
    KeptOut z (execI3cDynamicAddress a s) := by
  unfold execI3cDynamicAddress
  repeat' (first
    | (intro z; intros; try beta_reduce)
    | with_reducible assumption
    | (extract_lets +onlyGivenNames x; refine Kept.cut (p := Kept z x) ?_ (fun _ => ?_)
       on_goal 1 => dsimp -zeta only [x]; clear x
       on_goal 2 => try clear_value x
       on_goal 2 => rename' x => y)
    | (extract_lets +onlyGivenNames x; refine Kept.cut (p := Kept z x.1) ?_ (fun _ => ?_)
       on_goal 1 => dsimp -zeta only [x]; clear x
       on_goal 2 => try clear_value x
       on_goal 2 => rename' x => y)
    | (extract_lets +onlyGivenNames x; refine Kept.ofFun x ?_; dsimp -zeta only [x]; clear x)
    | (extract_lets +onlyGivenNames x; rename' x => y)
    | with_reducible apply KeptOut.next
    | with_reducible exact KeptOut.fault _
    | (with_reducible refine Kept.lit (by assumption) ?_; rfl)
    | split
    | (clear_value *; split)
    | dsimp -zeta only)

theorem execTapInstruction_kept {i : TapInstr} {s : State} {z : State} (h : Kept z s) :
    KeptOut z (execTapInstruction i s) := by
  unfold execTapInstruction
  repeat' (first
    | (intro z; intros; try beta_reduce)
    | with_reducible assumption
    | (extract_lets +onlyGivenNames x; refine Kept.cut (p := Kept z x) ?_ (fun _ => ?_)
       on_goal 1 => dsimp -zeta only [x]; clear x
       on_goal 2 => try clear_value x
       on_goal 2 => rename' x => y)
    | (extract_lets +onlyGivenNames x; refine Kept.cut (p := Kept z x.1) ?_ (fun _ => ?_)
       on_goal 1 => dsimp -zeta only [x]; clear x
       on_goal 2 => try clear_value x
       on_goal 2 => rename' x => y)
    | (extract_lets +onlyGivenNames x; refine Kept.ofFun x ?_; dsimp -zeta only [x]; clear x)
    | (extract_lets +onlyGivenNames x; rename' x => y)
    | with_reducible apply KeptOut.next
    | with_reducible exact KeptOut.fault _
    | (with_reducible refine Kept.lit (by assumption) ?_; rfl)
    | split
    | (clear_value *; split)
    | dsimp -zeta only)

theorem execDieThermalTrip_kept {d : Nat} {tj : Nat} {s : State} {z : State} (h : Kept z s) :
    KeptOut z (execDieThermalTrip d tj s) := by
  unfold execDieThermalTrip
  repeat' (first
    | (intro z; intros; try beta_reduce)
    | with_reducible assumption
    | (extract_lets +onlyGivenNames x; refine Kept.cut (p := Kept z x) ?_ (fun _ => ?_)
       on_goal 1 => dsimp -zeta only [x]; clear x
       on_goal 2 => try clear_value x
       on_goal 2 => rename' x => y)
    | (extract_lets +onlyGivenNames x; refine Kept.cut (p := Kept z x.1) ?_ (fun _ => ?_)
       on_goal 1 => dsimp -zeta only [x]; clear x
       on_goal 2 => try clear_value x
       on_goal 2 => rename' x => y)
    | (extract_lets +onlyGivenNames x; refine Kept.ofFun x ?_; dsimp -zeta only [x]; clear x)
    | (extract_lets +onlyGivenNames x; rename' x => y)
    | with_reducible apply onUnit_kept
    | with_reducible apply raise_kept
    | with_reducible apply setF_kept
    | with_reducible apply dropRails_kept
    | with_reducible apply haltRailsOff_kept
    | with_reducible apply KeptOut.next
    | with_reducible exact KeptOut.fault _
    | (with_reducible refine Kept.lit (by assumption) ?_; rfl)
    | split
    | (clear_value *; split)
    | (with_reducible refine Kept.lit ?_ ?_; on_goal 2 => rfl
       with_reducible first | apply onUnit_kept | apply raise_kept | apply setF_kept | apply dropRails_kept | apply haltRailsOff_kept)
    | dsimp -zeta only)

end Sys2Proof.Machine
end

