-- ==== Sys2Proof/Laws/KeptAttached.lean ====
section
/-! SUPPORT. Laws/KeptAttached.lean: what every operation of Machine/Attached.lean keeps (Laws/Kept.lean). -/
namespace Sys2Proof.Machine
open Sys2Proof

theorem readHost_kept {s : State} {m : Pluggable} {z : State} (h : Kept z s) :
    Kept z (readHost s m) := by
  unfold readHost
  repeat' (first
    | (intro z; intros; try beta_reduce)
    | with_reducible assumption
    | (extract_lets +onlyGivenNames x; refine Kept.cut (p := Kept z x) ?_ (fun _ => ?_)
       on_goal 1 => dsimp -zeta only [x]; clear x
       on_goal 2 => try clear_value x
       on_goal 2 => rename' x => y)
    | (extract_lets +onlyGivenNames x; refine Kept.cut (p := Kept z x.1) ?_ (fun _ => ?_)
       on_goal 1 => dsimp -zeta only [x]; clear x
       on_goal 2 => try clear_value x
       on_goal 2 => rename' x => y)
    | (extract_lets +onlyGivenNames x; refine Kept.ofFun x ?_; dsimp -zeta only [x]; clear x)
    | (extract_lets +onlyGivenNames x; rename' x => y)
    | with_reducible apply setFs_kept
    | (with_reducible refine Kept.lit (by assumption) ?_; rfl)
    | (with_reducible refine Kept.lit ?_ ?_; on_goal 2 => rfl
       with_reducible first | apply setFs_kept)
    | dsimp -zeta only)

theorem faultHost_kept {s : State} {z : State} (h : Kept z s) :
    Kept z (faultHost s) := by
  unfold faultHost
  repeat' (first
    | (intro z; intros; try beta_reduce)
    | with_reducible assumption
    | (extract_lets +onlyGivenNames x; refine Kept.cut (p := Kept z x) ?_ (fun _ => ?_)
       on_goal 1 => dsimp -zeta only [x]; clear x
       on_goal 2 => try clear_value x
       on_goal 2 => rename' x => y)
    | (extract_lets +onlyGivenNames x; refine Kept.cut (p := Kept z x.1) ?_ (fun _ => ?_)
       on_goal 1 => dsimp -zeta only [x]; clear x
       on_goal 2 => try clear_value x
       on_goal 2 => rename' x => y)
    | (extract_lets +onlyGivenNames x; refine Kept.ofFun x ?_; dsimp -zeta only [x]; clear x)
    | (extract_lets +onlyGivenNames x; rename' x => y)
    | with_reducible apply setF_kept
    | (with_reducible refine Kept.lit (by assumption) ?_; rfl)
    | (with_reducible refine Kept.lit ?_ ?_; on_goal 2 => rfl
       with_reducible first | apply setF_kept)
    | dsimp -zeta only)

theorem dropHost_kept {s : State} {z : State} (h : Kept z s) :
    Kept z (dropHost s) := by
  unfold dropHost
  repeat' (first
    | (intro z; intros; try beta_reduce)
    | with_reducible assumption
    | (extract_lets +onlyGivenNames x; refine Kept.cut (p := Kept z x) ?_ (fun _ => ?_)
       on_goal 1 => dsimp -zeta only [x]; clear x
       on_goal 2 => try clear_value x
       on_goal 2 => rename' x => y)
    | (extract_lets +onlyGivenNames x; refine Kept.cut (p := Kept z x.1) ?_ (fun _ => ?_)
       on_goal 1 => dsimp -zeta only [x]; clear x
       on_goal 2 => try clear_value x
       on_goal 2 => rename' x => y)
    | (extract_lets +onlyGivenNames x; refine Kept.ofFun x ?_; dsimp -zeta only [x]; clear x)
    | (extract_lets +onlyGivenNames x; rename' x => y)
    | with_reducible apply setFs_kept
    | (with_reducible refine Kept.lit (by assumption) ?_; rfl)
    | (with_reducible refine Kept.lit ?_ ?_; on_goal 2 => rfl
       with_reducible first | apply setFs_kept)
    | dsimp -zeta only)

theorem showLasers_kept {s : State} {z : State} (h : Kept z s) :
    Kept z (showLasers s) := by
  unfold showLasers
  repeat' (first
    | (intro z; intros; try beta_reduce)
    | with_reducible assumption
    | (extract_lets +onlyGivenNames x; refine Kept.cut (p := Kept z x) ?_ (fun _ => ?_)
       on_goal 1 => dsimp -zeta only [x]; clear x
       on_goal 2 => try clear_value x
       on_goal 2 => rename' x => y)
    | (extract_lets +onlyGivenNames x; refine Kept.cut (p := Kept z x.1) ?_ (fun _ => ?_)
       on_goal 1 => dsimp -zeta only [x]; clear x
       on_goal 2 => try clear_value x
       on_goal 2 => rename' x => y)
    | (extract_lets +onlyGivenNames x; refine Kept.ofFun x ?_; dsimp -zeta only [x]; clear x)
    | (extract_lets +onlyGivenNames x; rename' x => y)
    | with_reducible apply setFs_kept
    | (with_reducible refine Kept.lit (by assumption) ?_; rfl)
    | dsimp -zeta only)

theorem readLaser_kept {s : State} {i : Nat} {m : LaserModule} {z : State} (h : Kept z s) :
    Kept z (readLaser s i m) := by
  unfold readLaser
  repeat' (first
    | (intro z; intros; try beta_reduce)
    | with_reducible assumption
    | (extract_lets +onlyGivenNames x; refine Kept.cut (p := Kept z x) ?_ (fun _ => ?_)
       on_goal 1 => dsimp -zeta only [x]; clear x
       on_goal 2 => try clear_value x
       on_goal 2 => rename' x => y)
    | (extract_lets +onlyGivenNames x; refine Kept.cut (p := Kept z x.1) ?_ (fun _ => ?_)
       on_goal 1 => dsimp -zeta only [x]; clear x
       on_goal 2 => try clear_value x
       on_goal 2 => rename' x => y)
    | (extract_lets +onlyGivenNames x; refine Kept.ofFun x ?_; dsimp -zeta only [x]; clear x)
    | (extract_lets +onlyGivenNames x; rename' x => y)
    | with_reducible apply showLasers_kept
    | (with_reducible refine Kept.lit (by assumption) ?_; rfl)
    | (with_reducible refine Kept.lit ?_ ?_; on_goal 2 => rfl
       with_reducible first | apply showLasers_kept)
    | dsimp -zeta only)

theorem faultLaser_kept {s : State} {i : Nat} {z : State} (h : Kept z s) :
    Kept z (faultLaser s i) := by
  unfold faultLaser
  repeat' (first
    | (intro z; intros; try beta_reduce)
    | with_reducible assumption
    | (extract_lets +onlyGivenNames x; refine Kept.cut (p := Kept z x) ?_ (fun _ => ?_)
       on_goal 1 => dsimp -zeta only [x]; clear x
       on_goal 2 => try clear_value x
       on_goal 2 => rename' x => y)
    | (extract_lets +onlyGivenNames x; refine Kept.cut (p := Kept z x.1) ?_ (fun _ => ?_)
       on_goal 1 => dsimp -zeta only [x]; clear x
       on_goal 2 => try clear_value x
       on_goal 2 => rename' x => y)
    | (extract_lets +onlyGivenNames x; refine Kept.ofFun x ?_; dsimp -zeta only [x]; clear x)
    | (extract_lets +onlyGivenNames x; rename' x => y)
    | with_reducible apply showLasers_kept
    | (with_reducible refine Kept.lit (by assumption) ?_; rfl)
    | (with_reducible refine Kept.lit ?_ ?_; on_goal 2 => rfl
       with_reducible first | apply showLasers_kept)
    | dsimp -zeta only)

theorem dropLaser_kept {s : State} {i : Nat} {z : State} (h : Kept z s) :
    Kept z (dropLaser s i) := by
  unfold dropLaser
  repeat' (first
    | (intro z; intros; try beta_reduce)
    | with_reducible assumption
    | (extract_lets +onlyGivenNames x; refine Kept.cut (p := Kept z x) ?_ (fun _ => ?_)
       on_goal 1 => dsimp -zeta only [x]; clear x
       on_goal 2 => try clear_value x
       on_goal 2 => rename' x => y)
    | (extract_lets +onlyGivenNames x; refine Kept.cut (p := Kept z x.1) ?_ (fun _ => ?_)
       on_goal 1 => dsimp -zeta only [x]; clear x
       on_goal 2 => try clear_value x
       on_goal 2 => rename' x => y)
    | (extract_lets +onlyGivenNames x; refine Kept.ofFun x ?_; dsimp -zeta only [x]; clear x)
    | (extract_lets +onlyGivenNames x; rename' x => y)
    | with_reducible apply showLasers_kept
    | (with_reducible refine Kept.lit (by assumption) ?_; rfl)
    | (with_reducible refine Kept.lit ?_ ?_; on_goal 2 => rfl
       with_reducible first | apply showLasers_kept)
    | dsimp -zeta only)

end Sys2Proof.Machine
end

