-- ==== Sys2Proof/Laws/KeptNumeric.lean ====
section
/-! SUPPORT. Laws/KeptNumeric.lean: what every operation of Machine/Numeric.lean keeps (Laws/Kept.lean). -/
namespace Sys2Proof.Machine
open Sys2Proof

theorem trapShown_kept {s : State} {p : Nat} {source : Nat} {operand : Nat} {kind : Nat} {layer : Nat} {instr : Nat} {tile : Nat} {elem : Nat} {value : Nat} {shown : Nat} {z : State} (h : Kept z s) :
    Kept z (trapShown s p source operand kind layer instr tile elem value shown) := by
  unfold trapShown
  repeat' (first
    | (intro z; intros; try beta_reduce)
    | with_reducible assumption
    | (extract_lets +onlyGivenNames x; refine Kept.cut (p := Kept z x) ?_ (fun _ => ?_)
       on_goal 1 => dsimp -zeta only [x]; clear x
       on_goal 2 => try clear_value x
       on_goal 2 => rename' x => y)
    | (extract_lets +onlyGivenNames x; refine Kept.cut (p := Kept z x.1) ?_ (fun _ => ?_)
       on_goal 1 => dsimp -zeta only [x]; clear x
       on_goal 2 => try clear_value x
       on_goal 2 => rename' x => y)
    | (extract_lets +onlyGivenNames x; refine Kept.ofFun x ?_; dsimp -zeta only [x]; clear x)
    | (extract_lets +onlyGivenNames x; rename' x => y)
    | with_reducible apply modStall_kept
    | with_reducible apply setF_kept
    | with_reducible apply when_kept
    | with_reducible apply setFs_kept
    | with_reducible apply raise_kept
    | (with_reducible refine Kept.lit (by assumption) ?_; rfl)
    | with_reducible apply Kept.foldl
    | with_reducible apply Kept.foldl_fst
    | split
    | (clear_value *; split)
    | (with_reducible refine Kept.lit ?_ ?_; on_goal 2 => rfl
       with_reducible first | apply modStall_kept | apply setF_kept | apply when_kept | apply setFs_kept | apply raise_kept)
    | dsimp -zeta only)

theorem trap_kept {s : State} {p : Nat} {source : Nat} {operand : Nat} {kind : Nat} {layer : Nat} {instr : Nat} {tile : Nat} {elem : Nat} {value : Nat} {z : State} (h : Kept z s) :
    Kept z (trap s p source operand kind layer instr tile elem value) := by
  unfold trap
  repeat' (first
    | (intro z; intros; try beta_reduce)
    | with_reducible assumption
    | with_reducible apply trapShown_kept
    | (with_reducible refine Kept.lit (by assumption) ?_; rfl)
    | split
    | (clear_value *; split)
    | dsimp -zeta only)

theorem trapBits_kept {s : State} {a : F32} {z : State} (h : Kept z s) :
    Kept z (trapBits s a).1 := by
  unfold trapBits
  repeat' (first
    | (intro z; intros; try beta_reduce)
    | with_reducible assumption
    | with_reducible apply draw_kept
    | (with_reducible refine Kept.lit (by assumption) ?_; rfl)
    | split
    | (clear_value *; split)
    | dsimp -zeta only)

theorem badBits_kept {s : State} {b : BadVal} {z : State} (h : Kept z s) :
    Kept z (badBits s b).1 := by
  unfold badBits
  repeat' (first
    | (intro z; intros; try beta_reduce)
    | with_reducible assumption
    | (extract_lets +onlyGivenNames x; refine Kept.cut (p := Kept z x) ?_ (fun _ => ?_)
       on_goal 1 => dsimp -zeta only [x]; clear x
       on_goal 2 => try clear_value x
       on_goal 2 => rename' x => y)
    | (extract_lets +onlyGivenNames x; refine Kept.cut (p := Kept z x.1) ?_ (fun _ => ?_)
       on_goal 1 => dsimp -zeta only [x]; clear x
       on_goal 2 => try clear_value x
       on_goal 2 => rename' x => y)
    | (extract_lets +onlyGivenNames x; refine Kept.ofFun x ?_; dsimp -zeta only [x]; clear x)
    | (extract_lets +onlyGivenNames x; rename' x => y)
    | with_reducible apply draw_kept
    | (with_reducible refine Kept.lit (by assumption) ?_; rfl)
    | split
    | (clear_value *; split)
    | (with_reducible refine Kept.lit ?_ ?_; on_goal 2 => rfl
       with_reducible first | apply draw_kept)
    | with_reducible refine Kept.ofPair (by assumption) ?_
    | dsimp -zeta only)

theorem trapDecode_kept {s : State} {p : Nat} {source : Nat} {operand : Nat} {layer : Nat} {instr : Nat} {tile : Nat} {elem : Nat} {v : BadVal} {z : State} (h : Kept z s) :
    Kept z (trapDecode s p source operand layer instr tile elem v) := by
  unfold trapDecode
  repeat' (first
    | (intro z; intros; try beta_reduce)
    | with_reducible assumption
    | (extract_lets +onlyGivenNames x; refine Kept.cut (p := Kept z x) ?_ (fun _ => ?_)
       on_goal 1 => dsimp -zeta only [x]; clear x
       on_goal 2 => try clear_value x
       on_goal 2 => rename' x => y)
    | (extract_lets +onlyGivenNames x; refine Kept.cut (p := Kept z x.1) ?_ (fun _ => ?_)
       on_goal 1 => dsimp -zeta only [x]; clear x
       on_goal 2 => try clear_value x
       on_goal 2 => rename' x => y)
    | (extract_lets +onlyGivenNames x; refine Kept.ofFun x ?_; dsimp -zeta only [x]; clear x)
    | (extract_lets +onlyGivenNames x; rename' x => y)
    | with_reducible apply badBits_kept
    | with_reducible apply trapShown_kept
    | (with_reducible refine Kept.lit (by assumption) ?_; rfl)
    | split
    | (clear_value *; split)
    | dsimp -zeta only)

theorem stopStall_kept {s : State} {p : Nat} {z : State} (h : Kept z s) :
    Kept z (stopStall s p) := by
  unfold stopStall
  repeat' (first
    | (intro z; intros; try beta_reduce)
    | with_reducible assumption
    | (extract_lets +onlyGivenNames x; refine Kept.cut (p := Kept z x) ?_ (fun _ => ?_)
       on_goal 1 => dsimp -zeta only [x]; clear x
       on_goal 2 => try clear_value x
       on_goal 2 => rename' x => y)
    | (extract_lets +onlyGivenNames x; refine Kept.cut (p := Kept z x.1) ?_ (fun _ => ?_)
       on_goal 1 => dsimp -zeta only [x]; clear x
       on_goal 2 => try clear_value x
       on_goal 2 => rename' x => y)
    | (extract_lets +onlyGivenNames x; refine Kept.ofFun x ?_; dsimp -zeta only [x]; clear x)
    | (extract_lets +onlyGivenNames x; rename' x => y)
    | with_reducible apply holdGate_kept
    | with_reducible apply modStall_kept
    | (with_reducible refine Kept.lit (by assumption) ?_; rfl)
    | (with_reducible refine Kept.lit ?_ ?_; on_goal 2 => rfl
       with_reducible first | apply holdGate_kept | apply modStall_kept)
    | dsimp -zeta only)

theorem instrFault_kept {s : State} {p : Nat} {status : Nat} {opcode : Nat} {instr : Nat} {detail : Nat} {z : State} (h : Kept z s) :
    Kept z (instrFault s p status opcode instr detail) := by
  unfold instrFault
  repeat' (first
    | (intro z; intros; try beta_reduce)
    | with_reducible assumption
    | (extract_lets +onlyGivenNames x; refine Kept.cut (p := Kept z x) ?_ (fun _ => ?_)
       on_goal 1 => dsimp -zeta only [x]; clear x
       on_goal 2 => try clear_value x
       on_goal 2 => rename' x => y)
    | (extract_lets +onlyGivenNames x; refine Kept.cut (p := Kept z x.1) ?_ (fun _ => ?_)
       on_goal 1 => dsimp -zeta only [x]; clear x
       on_goal 2 => try clear_value x
       on_goal 2 => rename' x => y)
    | (extract_lets +onlyGivenNames x; refine Kept.ofFun x ?_; dsimp -zeta only [x]; clear x)
    | (extract_lets +onlyGivenNames x; rename' x => y)
    | with_reducible apply stopStall_kept
    | with_reducible apply setF_kept
    | with_reducible apply raise_kept
    | (with_reducible refine Kept.lit (by assumption) ?_; rfl)
    | with_reducible apply Kept.foldl
    | with_reducible apply Kept.foldl_fst
    | split
    | (clear_value *; split)
    | dsimp -zeta only)

theorem fp8Exp_kept {s : State} {layer : Nat} {cls : Nat} {fmt : Nat} {amax : F32} {z : State} (h : Kept z s) :
    Kept z (fp8Exp s layer cls fmt amax).1 := by
  unfold fp8Exp
  repeat' (first
    | (intro z; intros; try beta_reduce)
    | with_reducible assumption
    | (extract_lets +onlyGivenNames x; refine Kept.cut (p := Kept z x) ?_ (fun _ => ?_)
       on_goal 1 => dsimp -zeta only [x]; clear x
       on_goal 2 => try clear_value x
       on_goal 2 => rename' x => y)
    | (extract_lets +onlyGivenNames x; refine Kept.cut (p := Kept z x.1) ?_ (fun _ => ?_)
       on_goal 1 => dsimp -zeta only [x]; clear x
       on_goal 2 => try clear_value x
       on_goal 2 => rename' x => y)
    | (extract_lets +onlyGivenNames x; refine Kept.ofFun x ?_; dsimp -zeta only [x]; clear x)
    | (extract_lets +onlyGivenNames x; rename' x => y)
    | with_reducible apply raiseOnce_kept
    | (with_reducible refine Kept.lit (by assumption) ?_; rfl)
    | split
    | (clear_value *; split)
    | dsimp -zeta only)

theorem convAlarm_kept {s : State} {alarm : Field} {code : Nat} {layer : Nat} {cls : Nat} {count : Nat} {z : State} (h : Kept z s) :
    Kept z (convAlarm s alarm code layer cls count) := by
  unfold convAlarm
  repeat' (first
    | (intro z; intros; try beta_reduce)
    | with_reducible assumption
    | (extract_lets +onlyGivenNames x; refine Kept.cut (p := Kept z x) ?_ (fun _ => ?_)
       on_goal 1 => dsimp -zeta only [x]; clear x
       on_goal 2 => try clear_value x
       on_goal 2 => rename' x => y)
    | (extract_lets +onlyGivenNames x; refine Kept.cut (p := Kept z x.1) ?_ (fun _ => ?_)
       on_goal 1 => dsimp -zeta only [x]; clear x
       on_goal 2 => try clear_value x
       on_goal 2 => rename' x => y)
    | (extract_lets +onlyGivenNames x; refine Kept.ofFun x ?_; dsimp -zeta only [x]; clear x)
    | (extract_lets +onlyGivenNames x; rename' x => y)
    | with_reducible apply raiseOnce_kept
    | (with_reducible refine Kept.lit (by assumption) ?_; rfl)
    | split
    | (clear_value *; split)
    | dsimp -zeta only)

theorem tally_kept {s : State} {layer : Nat} {cls : Nat} {sat : Nat} {ecl : Nat} {car : Nat} {amaxIn : F32} {amaxOut : F32} {z : State} (h : Kept z s) :
    Kept z (tally s layer cls sat ecl car amaxIn amaxOut) := by
  unfold tally
  repeat' (first
    | (intro z; intros; try beta_reduce)
    | with_reducible assumption
    | (extract_lets +onlyGivenNames x; refine Kept.cut (p := Kept z x) ?_ (fun _ => ?_)
       on_goal 1 => dsimp -zeta only [x]; clear x
       on_goal 2 => try clear_value x
       on_goal 2 => rename' x => y)
    | (extract_lets +onlyGivenNames x; refine Kept.cut (p := Kept z x.1) ?_ (fun _ => ?_)
       on_goal 1 => dsimp -zeta only [x]; clear x
       on_goal 2 => try clear_value x
       on_goal 2 => rename' x => y)
    | (extract_lets +onlyGivenNames x; refine Kept.ofFun x ?_; dsimp -zeta only [x]; clear x)
    | (extract_lets +onlyGivenNames x; rename' x => y)
    | with_reducible apply bumpF_kept
    | with_reducible apply convAlarm_kept
    | (with_reducible refine Kept.lit (by assumption) ?_; rfl)
    | split
    | (clear_value *; split)
    | (with_reducible refine Kept.lit ?_ ?_; on_goal 2 => rfl
       with_reducible first | apply bumpF_kept | apply convAlarm_kept)
    | dsimp -zeta only)

theorem countSat_kept {s : State} {n : Nat} {z : State} (h : Kept z s) :
    Kept z (countSat s n) := by
  unfold countSat
  repeat' (first
    | (intro z; intros; try beta_reduce)
    | with_reducible assumption
    | with_reducible apply bumpF_kept
    | (with_reducible refine Kept.lit (by assumption) ?_; rfl)
    | dsimp -zeta only)

theorem convertRule_kept {s : State} {cls : Nat} {kind : Nat} {mode : Nat} {c : Site} {w2 : Nat → Nat} {l : List F32} {z : State} (h : Kept z s) :
    Kept z (convertRule s cls kind mode c w2 l).1 := by
  unfold convertRule
  repeat' (first
    | (intro z; intros; try beta_reduce)
    | with_reducible assumption
    | (extract_lets +onlyGivenNames x; refine Kept.cut (p := Kept z x) ?_ (fun _ => ?_)
       on_goal 1 => dsimp -zeta only [x]; clear x
       on_goal 2 => try clear_value x
       on_goal 2 => rename' x => y)
    | (extract_lets +onlyGivenNames x; refine Kept.cut (p := Kept z x.1) ?_ (fun _ => ?_)
       on_goal 1 => dsimp -zeta only [x]; clear x
       on_goal 2 => try clear_value x
       on_goal 2 => rename' x => y)
    | (extract_lets +onlyGivenNames x; refine Kept.ofFun x ?_; dsimp -zeta only [x]; clear x)
    | (extract_lets +onlyGivenNames x; rename' x => y)
    | with_reducible apply fp8Exp_kept
    | with_reducible apply tally_kept
    | (with_reducible refine Kept.lit (by assumption) ?_; rfl)
    | split
    | (clear_value *; split)
    | dsimp -zeta only)

end Sys2Proof.Machine
end

