-- ==== Sys2Proof/Laws/KeptImage.lean ====
section
/-! SUPPORT. Laws/KeptImage.lean: what every operation of Machine/Image.lean keeps (Laws/Kept.lean). -/
namespace Sys2Proof.Machine
open Sys2Proof


end Sys2Proof.Machine
end

