-- ==== Sys2Proof/Laws/KeptSession.lean ====
section
/-! SUPPORT. Laws/KeptSession.lean: what every operation of Machine/Session.lean keeps (Laws/Kept.lean). -/
namespace Sys2Proof.Machine
open Sys2Proof

theorem dropFrame_kept {s : State} {r : Rx} {reason : Nat} {z : State} (h : Kept z s) :
    Kept z (dropFrame s r reason) := by
  unfold dropFrame
  repeat' (first
    | (intro z; intros; try beta_reduce)
    | with_reducible assumption
    | (extract_lets +onlyGivenNames x; refine Kept.cut (p := Kept z x) ?_ (fun _ => ?_)
       on_goal 1 => dsimp -zeta only [x]; clear x
       on_goal 2 => try clear_value x
       on_goal 2 => rename' x => y)
    | (extract_lets +onlyGivenNames x; refine Kept.cut (p := Kept z x.1) ?_ (fun _ => ?_)
       on_goal 1 => dsimp -zeta only [x]; clear x
       on_goal 2 => try clear_value x
       on_goal 2 => rename' x => y)
    | (extract_lets +onlyGivenNames x; refine Kept.ofFun x ?_; dsimp -zeta only [x]; clear x)
    | (extract_lets +onlyGivenNames x; rename' x => y)
    | with_reducible apply bumpF_kept
    | with_reducible apply raiseOnce_kept
    | (with_reducible refine Kept.lit (by assumption) ?_; rfl)
    | split
    | (clear_value *; split)
    | (with_reducible refine Kept.lit ?_ ?_; on_goal 2 => rfl
       with_reducible first | apply bumpF_kept | apply raiseOnce_kept)
    | with_reducible refine Kept.ofPair (by assumption) ?_
    | dsimp -zeta only)

theorem received_kept {s : State} {r : Rx} {udp : Nat} {f : State → State} (h_f : ∀ z a0, Kept z a0 → Kept z (f a0)) {z : State} (h : Kept z s) :
    Kept z (received s r udp f) := by
  unfold received
  repeat' (first
    | (intro z; intros; try beta_reduce)
    | with_reducible assumption
    | (extract_lets +onlyGivenNames x; refine Kept.cut (p := Kept z x) ?_ (fun _ => ?_)
       on_goal 1 => dsimp -zeta only [x]; clear x
       on_goal 2 => try clear_value x
       on_goal 2 => rename' x => y)
    | (extract_lets +onlyGivenNames x; refine Kept.cut (p := Kept z x.1) ?_ (fun _ => ?_)
       on_goal 1 => dsimp -zeta only [x]; clear x
       on_goal 2 => try clear_value x
       on_goal 2 => rename' x => y)
    | (extract_lets +onlyGivenNames x; refine Kept.ofFun x ?_; dsimp -zeta only [x]; clear x)
    | (extract_lets +onlyGivenNames x; rename' x => y)
    | with_reducible apply dropFrame_kept
    | with_reducible apply h_f
    | (with_reducible refine Kept.lit (by assumption) ?_; rfl)
    | split
    | (clear_value *; split)
    | dsimp -zeta only)

theorem refuseFormat_kept {s : State} {f : CtlFrame} {z : State} (h : Kept z s) :
    Kept z (refuseFormat s f) := by
  unfold refuseFormat
  repeat' (first
    | (intro z; intros; try beta_reduce)
    | with_reducible assumption
    | with_reducible apply refuse_kept
    | with_reducible apply bumpF_kept
    | (with_reducible refine Kept.lit (by assumption) ?_; rfl)
    | dsimp -zeta only)

theorem refuseAuth_kept {s : State} {f : CtlFrame} {z : State} (h : Kept z s) :
    Kept z (refuseAuth s f) := by
  unfold refuseAuth
  repeat' (first
    | (intro z; intros; try beta_reduce)
    | with_reducible assumption
    | (extract_lets +onlyGivenNames x; refine Kept.cut (p := Kept z x) ?_ (fun _ => ?_)
       on_goal 1 => dsimp -zeta only [x]; clear x
       on_goal 2 => try clear_value x
       on_goal 2 => rename' x => y)
    | (extract_lets +onlyGivenNames x; refine Kept.cut (p := Kept z x.1) ?_ (fun _ => ?_)
       on_goal 1 => dsimp -zeta only [x]; clear x
       on_goal 2 => try clear_value x
       on_goal 2 => rename' x => y)
    | (extract_lets +onlyGivenNames x; refine Kept.ofFun x ?_; dsimp -zeta only [x]; clear x)
    | (extract_lets +onlyGivenNames x; rename' x => y)
    | with_reducible apply bumpF_kept
    | with_reducible apply refuse_kept
    | (with_reducible refine Kept.lit (by assumption) ?_; rfl)
    | split
    | (clear_value *; split)
    | (with_reducible refine Kept.lit ?_ ?_; on_goal 2 => rfl
       with_reducible first | apply bumpF_kept | apply refuse_kept)
    | with_reducible refine Kept.ofPair (by assumption) ?_
    | dsimp -zeta only)

theorem takeAck_kept {s : State} {ack : Nat} {z : State} (h : Kept z s) :
    Kept z (takeAck s ack) := by
  unfold takeAck
  repeat' (first
    | (intro z; intros; try beta_reduce)
    | with_reducible assumption
    | (extract_lets +onlyGivenNames x; refine Kept.cut (p := Kept z x) ?_ (fun _ => ?_)
       on_goal 1 => dsimp -zeta only [x]; clear x
       on_goal 2 => try clear_value x
       on_goal 2 => rename' x => y)
    | (extract_lets +onlyGivenNames x; refine Kept.cut (p := Kept z x.1) ?_ (fun _ => ?_)
       on_goal 1 => dsimp -zeta only [x]; clear x
       on_goal 2 => try clear_value x
       on_goal 2 => rename' x => y)
    | (extract_lets +onlyGivenNames x; refine Kept.ofFun x ?_; dsimp -zeta only [x]; clear x)
    | (extract_lets +onlyGivenNames x; rename' x => y)
    | with_reducible apply drainWaiting_kept
    | (with_reducible refine Kept.lit (by assumption) ?_; rfl)
    | (with_reducible refine Kept.lit ?_ ?_; on_goal 2 => rfl
       with_reducible first | apply drainWaiting_kept)
    | (have hk := ‹Kept z _›; exact hk.setBounds rfl id id (fun k => Nat.le_trans (List.length_filter_le _ _) k) rfl)
    | dsimp -zeta only)

theorem heard_kept {s : State} {f : CtlFrame} {z : State} (h : Kept z s) :
    Kept z (heard s f) := by
  unfold heard
  repeat' (first
    | (intro z; intros; try beta_reduce)
    | with_reducible assumption
    | (extract_lets +onlyGivenNames x; refine Kept.cut (p := Kept z x) ?_ (fun _ => ?_)
       on_goal 1 => dsimp -zeta only [x]; clear x
       on_goal 2 => try clear_value x
       on_goal 2 => rename' x => y)
    | (extract_lets +onlyGivenNames x; refine Kept.cut (p := Kept z x.1) ?_ (fun _ => ?_)
       on_goal 1 => dsimp -zeta only [x]; clear x
       on_goal 2 => try clear_value x
       on_goal 2 => rename' x => y)
    | (extract_lets +onlyGivenNames x; refine Kept.ofFun x ?_; dsimp -zeta only [x]; clear x)
    | (extract_lets +onlyGivenNames x; rename' x => y)
    | with_reducible apply takeAck_kept
    | (with_reducible refine Kept.lit (by assumption) ?_; rfl)
    | (with_reducible refine Kept.lit ?_ ?_; on_goal 2 => rfl
       with_reducible first | apply takeAck_kept)
    | dsimp -zeta only)

theorem sequence_kept {s : State} {f : CtlFrame} {run : State → State} (h_run : ∀ z a0, Kept z a0 → Kept z (run a0)) {z : State} (h : Kept z s) :
    Kept z (sequence s f run) := by
  unfold sequence
  repeat' (first
    | (intro z; intros; try beta_reduce)
    | with_reducible assumption
    | (extract_lets +onlyGivenNames x; refine Kept.cut (p := Kept z x) ?_ (fun _ => ?_)
       on_goal 1 => dsimp -zeta only [x]; clear x
       on_goal 2 => try clear_value x
       on_goal 2 => rename' x => y)
    | (extract_lets +onlyGivenNames x; refine Kept.cut (p := Kept z x.1) ?_ (fun _ => ?_)
       on_goal 1 => dsimp -zeta only [x]; clear x
       on_goal 2 => try clear_value x
       on_goal 2 => rename' x => y)
    | (extract_lets +onlyGivenNames x; refine Kept.ofFun x ?_; dsimp -zeta only [x]; clear x)
    | (extract_lets +onlyGivenNames x; rename' x => y)
    | with_reducible apply outCtl_kept
    | with_reducible apply bumpF_kept
    | with_reducible apply h_run
    | (with_reducible refine Kept.lit (by assumption) ?_; rfl)
    | split
    | (clear_value *; split)
    | (with_reducible refine Kept.lit ?_ ?_; on_goal 2 => rfl
       with_reducible first | apply outCtl_kept | apply bumpF_kept)
    | with_reducible refine Kept.ofPair (by assumption) ?_
    | dsimp -zeta only)

theorem sessionFrame_kept {s : State} {f : CtlFrame} {ftype : Nat} {run : State → State} (h_run : ∀ z a0, Kept z a0 → Kept z (run a0)) {z : State} (h : Kept z s) :
    Kept z (sessionFrame s f ftype run) := by
  unfold sessionFrame
  repeat' (first
    | (intro z; intros; try beta_reduce)
    | with_reducible assumption
    | with_reducible apply received_kept
    | with_reducible apply refuseFormat_kept
    | with_reducible apply refuseAuth_kept
    | with_reducible apply sequence_kept
    | with_reducible apply heard_kept
    | with_reducible apply h_run
    | (with_reducible refine Kept.lit (by assumption) ?_; rfl)
    | split
    | (clear_value *; split)
    | dsimp -zeta only)

theorem openingFrame_kept {s : State} {f : CtlFrame} {ftype : Nat} {run : State → State} (h_run : ∀ z a0, Kept z a0 → Kept z (run a0)) {z : State} (h : Kept z s) :
    Kept z (openingFrame s f ftype run) := by
  unfold openingFrame
  repeat' (first
    | (intro z; intros; try beta_reduce)
    | with_reducible assumption
    | with_reducible apply received_kept
    | with_reducible apply refuseFormat_kept
    | with_reducible apply h_run
    | (with_reducible refine Kept.lit (by assumption) ?_; rfl)
    | split
    | (clear_value *; split)
    | dsimp -zeta only)

theorem showSlots_kept {s : State} {z : State} (h : Kept z s) :
    Kept z (showSlots s) := by
  unfold showSlots
  repeat' (first
    | (intro z; intros; try beta_reduce)
    | with_reducible assumption
    | (extract_lets +onlyGivenNames x; refine Kept.cut (p := Kept z x) ?_ (fun _ => ?_)
       on_goal 1 => dsimp -zeta only [x]; clear x
       on_goal 2 => try clear_value x
       on_goal 2 => rename' x => y)
    | (extract_lets +onlyGivenNames x; refine Kept.cut (p := Kept z x.1) ?_ (fun _ => ?_)
       on_goal 1 => dsimp -zeta only [x]; clear x
       on_goal 2 => try clear_value x
       on_goal 2 => rename' x => y)
    | (extract_lets +onlyGivenNames x; refine Kept.ofFun x ?_; dsimp -zeta only [x]; clear x)
    | (extract_lets +onlyGivenNames x; rename' x => y)
    | with_reducible apply setFs_kept
    | with_reducible apply forEach_kept
    | with_reducible apply setF_kept
    | (with_reducible refine Kept.lit (by assumption) ?_; rfl)
    | split
    | (clear_value *; split)
    | dsimp -zeta only)

theorem setSlot_kept {s : State} {i : Nat} {k : KeySlot} {z : State} (h : Kept z s) :
    Kept z (setSlot s i k) := by
  unfold setSlot
  repeat' (first
    | (intro z; intros; try beta_reduce)
    | with_reducible assumption
    | (extract_lets +onlyGivenNames x; refine Kept.cut (p := Kept z x) ?_ (fun _ => ?_)
       on_goal 1 => dsimp -zeta only [x]; clear x
       on_goal 2 => try clear_value x
       on_goal 2 => rename' x => y)
    | (extract_lets +onlyGivenNames x; refine Kept.cut (p := Kept z x.1) ?_ (fun _ => ?_)
       on_goal 1 => dsimp -zeta only [x]; clear x
       on_goal 2 => try clear_value x
       on_goal 2 => rename' x => y)
    | (extract_lets +onlyGivenNames x; refine Kept.ofFun x ?_; dsimp -zeta only [x]; clear x)
    | (extract_lets +onlyGivenNames x; rename' x => y)
    | with_reducible apply showSlots_kept
    | (with_reducible refine Kept.lit (by assumption) ?_; rfl)
    | (with_reducible refine Kept.lit ?_ ?_; on_goal 2 => rfl
       with_reducible first | apply showSlots_kept)
    | (have hk := ‹Kept z _›; exact hk.setBounds rfl id id id List.length_set)
    | dsimp -zeta only)

theorem challenge_kept {s : State} {f : CtlFrame} {z : State} (h : Kept z s) :
    Kept z (challenge s f) := by
  unfold challenge
  repeat' (first
    | (intro z; intros; try beta_reduce)
    | with_reducible assumption
    | (extract_lets +onlyGivenNames x; refine Kept.cut (p := Kept z x) ?_ (fun _ => ?_)
       on_goal 1 => dsimp -zeta only [x]; clear x
       on_goal 2 => try clear_value x
       on_goal 2 => rename' x => y)
    | (extract_lets +onlyGivenNames x; refine Kept.cut (p := Kept z x.1) ?_ (fun _ => ?_)
       on_goal 1 => dsimp -zeta only [x]; clear x
       on_goal 2 => try clear_value x
       on_goal 2 => rename' x => y)
    | (extract_lets +onlyGivenNames x; refine Kept.ofFun x ?_; dsimp -zeta only [x]; clear x)
    | (extract_lets +onlyGivenNames x; rename' x => y)
    | with_reducible apply outCtl_kept
    | with_reducible apply draw_kept
    | (with_reducible refine Kept.lit (by assumption) ?_; rfl)
    | (with_reducible refine Kept.lit ?_ ?_; on_goal 2 => rfl
       with_reducible first | apply outCtl_kept | apply draw_kept)
    | dsimp -zeta only)

theorem openSession_kept {f : CtlFrame} {s : State} {z : State} (h : Kept z s) :
    Kept z (openSession f s) := by
  unfold openSession
  repeat' (first
    | (intro z; intros; try beta_reduce)
    | with_reducible assumption
    | with_reducible apply refuse_kept
    | with_reducible apply refuseAuth_kept
    | with_reducible apply challenge_kept
    | (with_reducible refine Kept.lit (by assumption) ?_; rfl)
    | split
    | (clear_value *; split)
    | dsimp -zeta only)

theorem execOpenFrame_kept {f : CtlFrame} {s : State} {z : State} (h : Kept z s) :
    KeptOut z (execOpenFrame f s) := by
  unfold execOpenFrame
  repeat' (first
    | (intro z; intros; try beta_reduce)
    | with_reducible assumption
    | with_reducible apply inModule_kept
    | with_reducible apply openingFrame_kept
    | with_reducible apply openSession_kept
    | with_reducible apply KeptOut.next
    | with_reducible exact KeptOut.fault _
    | (with_reducible refine Kept.lit (by assumption) ?_; rfl)
    | split
    | (clear_value *; split)
    | dsimp -zeta only)

theorem appendLog_kept {s : State} {z : State} (h : Kept z s) :
    Kept z (appendLog s) := by
  unfold appendLog
  repeat' (first
    | (intro z; intros; try beta_reduce)
    | with_reducible assumption
    | (extract_lets +onlyGivenNames x; refine Kept.cut (p := Kept z x) ?_ (fun _ => ?_)
       on_goal 1 => dsimp -zeta only [x]; clear x
       on_goal 2 => try clear_value x
       on_goal 2 => rename' x => y)
    | (extract_lets +onlyGivenNames x; refine Kept.cut (p := Kept z x.1) ?_ (fun _ => ?_)
       on_goal 1 => dsimp -zeta only [x]; clear x
       on_goal 2 => try clear_value x
       on_goal 2 => rename' x => y)
    | (extract_lets +onlyGivenNames x; refine Kept.ofFun x ?_; dsimp -zeta only [x]; clear x)
    | (extract_lets +onlyGivenNames x; rename' x => y)
    | with_reducible apply forEach_kept
    | with_reducible apply ringEvent_kept
    | (with_reducible refine Kept.lit (by assumption) ?_; rfl)
    | split
    | (clear_value *; split)
    | (with_reducible refine Kept.lit ?_ ?_; on_goal 2 => rfl
       with_reducible first | apply forEach_kept | apply ringEvent_kept)
    | (have hk := ‹Kept z _›; exact hk.setBounds rfl (fun _ => Nat.zero_le _) id id rfl)
    | dsimp -zeta only)

theorem claim_kept {s : State} {c : Challenge} {z : State} (h : Kept z s) :
    Kept z (claim s c) := by
  unfold claim
  repeat' (first
    | (intro z; intros; try beta_reduce)
    | with_reducible assumption
    | with_reducible apply setSlot_kept
    | (with_reducible refine Kept.lit (by assumption) ?_; rfl)
    | split
    | (clear_value *; split)
    | dsimp -zeta only)

theorem accept_kept {s : State} {f : CtlFrame} {c : Challenge} {z : State} (h : Kept z s) :
    Kept z (accept s f c) := by
  unfold accept
  repeat' (first
    | (intro z; intros; try beta_reduce)
    | with_reducible assumption
    | (extract_lets +onlyGivenNames x; refine Kept.cut (p := Kept z x) ?_ (fun _ => ?_)
       on_goal 1 => dsimp -zeta only [x]; clear x
       on_goal 2 => try clear_value x
       on_goal 2 => rename' x => y)
    | (extract_lets +onlyGivenNames x; refine Kept.cut (p := Kept z x.1) ?_ (fun _ => ?_)
       on_goal 1 => dsimp -zeta only [x]; clear x
       on_goal 2 => try clear_value x
       on_goal 2 => rename' x => y)
    | (extract_lets +onlyGivenNames x; refine Kept.ofFun x ?_; dsimp -zeta only [x]; clear x)
    | (extract_lets +onlyGivenNames x; rename' x => y)
    | with_reducible apply claim_kept
    | with_reducible apply closeSession_kept
    | with_reducible apply draw_kept
    | with_reducible apply setFs_kept
    | with_reducible apply raise_kept
    | with_reducible apply appendLog_kept
    | with_reducible apply outCtl_kept
    | with_reducible apply forEach_kept
    | with_reducible apply sendNumbered_kept
    | (with_reducible refine Kept.lit (by assumption) ?_; rfl)
    | split
    | (clear_value *; split)
    | (with_reducible refine Kept.lit ?_ ?_; on_goal 2 => rfl
       with_reducible first | apply claim_kept | apply closeSession_kept | apply draw_kept | apply setFs_kept | apply raise_kept | apply appendLog_kept | apply outCtl_kept | apply forEach_kept | apply sendNumbered_kept)
    | (have hk := ‹Kept z _›; exact hk.setBounds rfl id (fun _ => Nat.zero_le _) (fun _ => Nat.zero_le _) rfl)
    | dsimp -zeta only)

theorem dropChallenge_kept {s : State} {z : State} (h : Kept z s) :
    Kept z (dropChallenge s) := by
  unfold dropChallenge
  repeat' (first
    | (intro z; intros; try beta_reduce)
    | with_reducible assumption
    | (extract_lets +onlyGivenNames x; refine Kept.cut (p := Kept z x) ?_ (fun _ => ?_)
       on_goal 1 => dsimp -zeta only [x]; clear x
       on_goal 2 => try clear_value x
       on_goal 2 => rename' x => y)
    | (extract_lets +onlyGivenNames x; refine Kept.cut (p := Kept z x.1) ?_ (fun _ => ?_)
       on_goal 1 => dsimp -zeta only [x]; clear x
       on_goal 2 => try clear_value x
       on_goal 2 => rename' x => y)
    | (extract_lets +onlyGivenNames x; refine Kept.ofFun x ?_; dsimp -zeta only [x]; clear x)
    | (extract_lets +onlyGivenNames x; rename' x => y)
    | with_reducible apply challenge_kept
    | (with_reducible refine Kept.lit (by assumption) ?_; rfl)
    | (with_reducible refine Kept.lit ?_ ?_; on_goal 2 => rfl
       with_reducible first | apply challenge_kept)
    | dsimp -zeta only)

theorem proveFailed_kept {s : State} {f : CtlFrame} {why : Nat} {slot : Nat} {z : State} (h : Kept z s) :
    Kept z (proveFailed s f why slot) := by
  unfold proveFailed
  repeat' (first
    | (intro z; intros; try beta_reduce)
    | with_reducible assumption
    | with_reducible apply refuseAuth_kept
    | with_reducible apply raise_kept
    | with_reducible apply bumpF_kept
    | (with_reducible refine Kept.lit (by assumption) ?_; rfl)
    | dsimp -zeta only)

theorem proveSession_kept {f : CtlFrame} {s : State} {z : State} (h : Kept z s) :
    Kept z (proveSession f s) := by
  unfold proveSession
  repeat' (first
    | (intro z; intros; try beta_reduce)
    | with_reducible assumption
    | (extract_lets +onlyGivenNames x; refine Kept.cut (p := Kept z x) ?_ (fun _ => ?_)
       on_goal 1 => dsimp -zeta only [x]; clear x
       on_goal 2 => try clear_value x
       on_goal 2 => rename' x => y)
    | (extract_lets +onlyGivenNames x; refine Kept.cut (p := Kept z x.1) ?_ (fun _ => ?_)
       on_goal 1 => dsimp -zeta only [x]; clear x
       on_goal 2 => try clear_value x
       on_goal 2 => rename' x => y)
    | (extract_lets +onlyGivenNames x; refine Kept.ofFun x ?_; dsimp -zeta only [x]; clear x)
    | (extract_lets +onlyGivenNames x; rename' x => y)
    | with_reducible apply proveFailed_kept
    | with_reducible apply refuse_kept
    | with_reducible apply dropChallenge_kept
    | with_reducible apply accept_kept
    | (with_reducible refine Kept.lit (by assumption) ?_; rfl)
    | split
    | (clear_value *; split)
    | (with_reducible refine Kept.lit ?_ ?_; on_goal 2 => rfl
       with_reducible first | apply proveFailed_kept | apply refuse_kept | apply dropChallenge_kept | apply accept_kept)
    | with_reducible refine Kept.ofPair (by assumption) ?_
    | dsimp -zeta only)

theorem execProve_kept {f : CtlFrame} {s : State} {z : State} (h : Kept z s) :
    KeptOut z (execProve f s) := by
  unfold execProve
  repeat' (first
    | (intro z; intros; try beta_reduce)
    | with_reducible assumption
    | with_reducible apply inModule_kept
    | with_reducible apply openingFrame_kept
    | with_reducible apply proveSession_kept
    | with_reducible apply KeptOut.next
    | with_reducible exact KeptOut.fault _
    | (with_reducible refine Kept.lit (by assumption) ?_; rfl)
    | split
    | (clear_value *; split)
    | dsimp -zeta only)

theorem execChallengeExpired_kept {s : State} {z : State} (h : Kept z s) :
    KeptOut z (execChallengeExpired s) := by
  unfold execChallengeExpired
  repeat' (first
    | (intro z; intros; try beta_reduce)
    | with_reducible assumption
    | (extract_lets +onlyGivenNames x; refine Kept.cut (p := Kept z x) ?_ (fun _ => ?_)
       on_goal 1 => dsimp -zeta only [x]; clear x
       on_goal 2 => try clear_value x
       on_goal 2 => rename' x => y)
    | (extract_lets +onlyGivenNames x; refine Kept.cut (p := Kept z x.1) ?_ (fun _ => ?_)
       on_goal 1 => dsimp -zeta only [x]; clear x
       on_goal 2 => try clear_value x
       on_goal 2 => rename' x => y)
    | (extract_lets +onlyGivenNames x; refine Kept.ofFun x ?_; dsimp -zeta only [x]; clear x)
    | (extract_lets +onlyGivenNames x; rename' x => y)
    | with_reducible apply inModule_kept
    | with_reducible apply dropChallenge_kept
    | with_reducible apply KeptOut.next
    | with_reducible exact KeptOut.fault _
    | (with_reducible refine Kept.lit (by assumption) ?_; rfl)
    | split
    | (clear_value *; split)
    | (with_reducible refine Kept.lit ?_ ?_; on_goal 2 => rfl
       with_reducible first | apply inModule_kept | apply dropChallenge_kept)
    | with_reducible refine Kept.ofPair (by assumption) ?_
    | dsimp -zeta only)

theorem execClose_kept {f : CtlFrame} {s : State} {z : State} (h : Kept z s) :
    KeptOut z (execClose f s) := by
  unfold execClose
  repeat' (first
    | (intro z; intros; try beta_reduce)
    | with_reducible assumption
    | with_reducible apply inModule_kept
    | with_reducible apply sessionFrame_kept
    | with_reducible apply closeSession_kept
    | with_reducible apply respond_kept
    | with_reducible apply KeptOut.next
    | with_reducible exact KeptOut.fault _
    | (with_reducible refine Kept.lit (by assumption) ?_; rfl)
    | split
    | (clear_value *; split)
    | dsimp -zeta only)

theorem execKeepalive_kept {f : CtlFrame} {s : State} {z : State} (h : Kept z s) :
    KeptOut z (execKeepalive f s) := by
  unfold execKeepalive
  repeat' (first
    | (intro z; intros; try beta_reduce)
    | with_reducible assumption
    | with_reducible apply inModule_kept
    | with_reducible apply sessionFrame_kept
    | with_reducible apply respond_kept
    | with_reducible apply KeptOut.next
    | with_reducible exact KeptOut.fault _
    | (with_reducible refine Kept.lit (by assumption) ?_; rfl)
    | split
    | (clear_value *; split)
    | dsimp -zeta only)

theorem execAck_kept {f : CtlFrame} {s : State} {z : State} (h : Kept z s) :
    KeptOut z (execAck f s) := by
  unfold execAck
  repeat' (first
    | (intro z; intros; try beta_reduce)
    | with_reducible assumption
    | with_reducible apply inModule_kept
    | with_reducible apply sessionFrame_kept
    | with_reducible apply respond_kept
    | with_reducible apply KeptOut.next
    | with_reducible exact KeptOut.fault _
    | (with_reducible refine Kept.lit (by assumption) ?_; rfl)
    | split
    | (clear_value *; split)
    | dsimp -zeta only)

theorem execSessionIdleTimeout_kept {s : State} {z : State} (h : Kept z s) :
    KeptOut z (execSessionIdleTimeout s) := by
  unfold execSessionIdleTimeout
  repeat' (first
    | (intro z; intros; try beta_reduce)
    | with_reducible assumption
    | with_reducible apply inModule_kept
    | with_reducible apply closeSession_kept
    | with_reducible apply KeptOut.next
    | with_reducible exact KeptOut.fault _
    | (with_reducible refine Kept.lit (by assumption) ?_; rfl)
    | split
    | (clear_value *; split)
    | dsimp -zeta only)

theorem retransmit_kept {s : State} {z : State} (h : Kept z s) :
    Kept z (retransmit s) := by
  unfold retransmit
  repeat' (first
    | (intro z; intros; try beta_reduce)
    | with_reducible assumption
    | (extract_lets +onlyGivenNames x; refine Kept.cut (p := Kept z x) ?_ (fun _ => ?_)
       on_goal 1 => dsimp -zeta only [x]; clear x
       on_goal 2 => try clear_value x
       on_goal 2 => rename' x => y)
    | (extract_lets +onlyGivenNames x; refine Kept.cut (p := Kept z x.1) ?_ (fun _ => ?_)
       on_goal 1 => dsimp -zeta only [x]; clear x
       on_goal 2 => try clear_value x
       on_goal 2 => rename' x => y)
    | (extract_lets +onlyGivenNames x; refine Kept.ofFun x ?_; dsimp -zeta only [x]; clear x)
    | (extract_lets +onlyGivenNames x; rename' x => y)
    | with_reducible apply closeSession_kept
    | with_reducible apply outCtl_kept
    | (with_reducible refine Kept.lit (by assumption) ?_; rfl)
    | split
    | (clear_value *; split)
    | (with_reducible refine Kept.lit ?_ ?_; on_goal 2 => rfl
       with_reducible first | apply closeSession_kept | apply outCtl_kept)
    | with_reducible refine Kept.ofPair (by assumption) ?_
    | (have hk := ‹Kept z _›; rename_i e _ _; exact hk.setBounds rfl id id (fun k => by rw [e] at k; exact k) rfl)
    | dsimp -zeta only)

theorem execRetransmitTimeout_kept {s : State} {z : State} (h : Kept z s) :
    KeptOut z (execRetransmitTimeout s) := by
  unfold execRetransmitTimeout
  repeat' (first
    | (intro z; intros; try beta_reduce)
    | with_reducible assumption
    | with_reducible apply inModule_kept
    | with_reducible apply retransmit_kept
    | with_reducible apply KeptOut.next
    | with_reducible exact KeptOut.fault _
    | (with_reducible refine Kept.lit (by assumption) ?_; rfl)
    | split
    | (clear_value *; split)
    | dsimp -zeta only)

theorem eventNote_kept {s : State} {z : State} (h : Kept z s) :
    Kept z (eventNote s) := by
  unfold eventNote
  repeat' (first
    | (intro z; intros; try beta_reduce)
    | with_reducible assumption
    | (extract_lets +onlyGivenNames x; refine Kept.cut (p := Kept z x) ?_ (fun _ => ?_)
       on_goal 1 => dsimp -zeta only [x]; clear x
       on_goal 2 => try clear_value x
       on_goal 2 => rename' x => y)
    | (extract_lets +onlyGivenNames x; refine Kept.cut (p := Kept z x.1) ?_ (fun _ => ?_)
       on_goal 1 => dsimp -zeta only [x]; clear x
       on_goal 2 => try clear_value x
       on_goal 2 => rename' x => y)
    | (extract_lets +onlyGivenNames x; refine Kept.ofFun x ?_; dsimp -zeta only [x]; clear x)
    | (extract_lets +onlyGivenNames x; rename' x => y)
    | with_reducible apply sendNumbered_kept
    | (with_reducible refine Kept.lit (by assumption) ?_; rfl)
    | split
    | (clear_value *; split)
    | (with_reducible refine Kept.lit ?_ ?_; on_goal 2 => rfl
       with_reducible first | apply sendNumbered_kept)
    | with_reducible refine Kept.ofPair (by assumption) ?_
    | dsimp -zeta only)

theorem execEventNote_kept {s : State} {z : State} (h : Kept z s) :
    KeptOut z (execEventNote s) := by
  unfold execEventNote
  repeat' (first
    | (intro z; intros; try beta_reduce)
    | with_reducible assumption
    | with_reducible apply inModule_kept
    | with_reducible apply eventNote_kept
    | with_reducible apply KeptOut.next
    | with_reducible exact KeptOut.fault _
    | (with_reducible refine Kept.lit (by assumption) ?_; rfl)
    | split
    | (clear_value *; split)
    | dsimp -zeta only)

end Sys2Proof.Machine
end

