-- ==== Sys2Proof/Laws/KeptSeq.lean ====
section
/-! SUPPORT. Laws/KeptSeq.lean: what every operation of Machine/Seq.lean keeps (Laws/Kept.lean). -/
namespace Sys2Proof.Machine
open Sys2Proof

theorem setPreg_kept {s : State} {p : Nat} {i : Nat} {v : Nat} {z : State} (h : Kept z s) :
    Kept z (setPreg s p i v) := by
  unfold setPreg
  repeat' (first
    | (intro z; intros; try beta_reduce)
    | with_reducible assumption
    | (extract_lets +onlyGivenNames x; refine Kept.cut (p := Kept z x) ?_ (fun _ => ?_)
       on_goal 1 => dsimp -zeta only [x]; clear x
       on_goal 2 => try clear_value x
       on_goal 2 => rename' x => y)
    | (extract_lets +onlyGivenNames x; refine Kept.cut (p := Kept z x.1) ?_ (fun _ => ?_)
       on_goal 1 => dsimp -zeta only [x]; clear x
       on_goal 2 => try clear_value x
       on_goal 2 => rename' x => y)
    | (extract_lets +onlyGivenNames x; refine Kept.ofFun x ?_; dsimp -zeta only [x]; clear x)
    | (extract_lets +onlyGivenNames x; rename' x => y)
    | with_reducible apply modStall_kept
    | (with_reducible refine Kept.lit (by assumption) ?_; rfl)
    | split
    | (clear_value *; split)
    | (with_reducible refine Kept.lit ?_ ?_; on_goal 2 => rfl
       with_reducible first | apply modStall_kept)
    | dsimp -zeta only)

theorem jump_kept {s : State} {p : Nat} {ix : Nat} {z : State} (h : Kept z s) :
    Kept z (jump s p ix) := by
  unfold jump
  repeat' (first
    | (intro z; intros; try beta_reduce)
    | with_reducible assumption
    | with_reducible apply setF_kept
    | (with_reducible refine Kept.lit (by assumption) ?_; rfl)
    | dsimp -zeta only)

theorem advance_kept {s : State} {p : Nat} {z : State} (h : Kept z s) :
    Kept z (advance s p) := by
  unfold advance
  repeat' (first
    | (intro z; intros; try beta_reduce)
    | with_reducible assumption
    | with_reducible apply jump_kept
    | (with_reducible refine Kept.lit (by assumption) ?_; rfl)
    | dsimp -zeta only)

theorem issue_kept {p : Nat} {op : Nat} {s : State} {run : State → Nat → State} (h_run : ∀ z a0 a1, Kept z a0 → Kept z (run a0 a1)) {z : State} (h : Kept z s) :
    KeptOut z (issue p op s run) := by
  unfold issue
  repeat' (first
    | (intro z; intros; try beta_reduce)
    | with_reducible assumption
    | (extract_lets +onlyGivenNames x; refine Kept.cut (p := Kept z x) ?_ (fun _ => ?_)
       on_goal 1 => dsimp -zeta only [x]; clear x
       on_goal 2 => try clear_value x
       on_goal 2 => rename' x => y)
    | (extract_lets +onlyGivenNames x; refine Kept.cut (p := Kept z x.1) ?_ (fun _ => ?_)
       on_goal 1 => dsimp -zeta only [x]; clear x
       on_goal 2 => try clear_value x
       on_goal 2 => rename' x => y)
    | (extract_lets +onlyGivenNames x; refine Kept.ofFun x ?_; dsimp -zeta only [x]; clear x)
    | (extract_lets +onlyGivenNames x; rename' x => y)
    | with_reducible apply onStall_kept
    | with_reducible apply modStall_kept
    | with_reducible apply advance_kept
    | with_reducible apply bumpF_kept
    | with_reducible apply h_run
    | with_reducible apply KeptOut.next
    | with_reducible exact KeptOut.fault _
    | (with_reducible refine Kept.lit (by assumption) ?_; rfl)
    | split
    | (clear_value *; split)
    | (with_reducible refine Kept.lit ?_ ?_; on_goal 2 => rfl
       with_reducible first | apply onStall_kept | apply modStall_kept | apply advance_kept | apply bumpF_kept)
    | with_reducible refine Kept.ofPair (by assumption) ?_
    | dsimp -zeta only)

theorem faultIns_kept {s : State} {p : Nat} {w : Nat} {status : Nat} {detail : Nat} {z : State} (h : Kept z s) :
    Kept z (faultIns s p w status detail) := by
  unfold faultIns
  repeat' (first
    | (intro z; intros; try beta_reduce)
    | with_reducible assumption
    | with_reducible apply instrFault_kept
    | (with_reducible refine Kept.lit (by assumption) ?_; rfl)
    | dsimp -zeta only)

theorem storeRead_kept {s : State} {p : Nat} {w : Nat} {reader : Nat} {off : Nat} {n : Nat} {z : State} (h : Kept z s) :
    Kept z (storeRead s p w reader off n).1 := by
  unfold storeRead
  repeat' (first
    | (intro z; intros; try beta_reduce)
    | with_reducible assumption
    | (extract_lets +onlyGivenNames x; refine Kept.cut (p := Kept z x) ?_ (fun _ => ?_)
       on_goal 1 => dsimp -zeta only [x]; clear x
       on_goal 2 => try clear_value x
       on_goal 2 => rename' x => y)
    | (extract_lets +onlyGivenNames x; refine Kept.cut (p := Kept z x.1) ?_ (fun _ => ?_)
       on_goal 1 => dsimp -zeta only [x]; clear x
       on_goal 2 => try clear_value x
       on_goal 2 => rename' x => y)
    | (extract_lets +onlyGivenNames x; refine Kept.ofFun x ?_; dsimp -zeta only [x]; clear x)
    | (extract_lets +onlyGivenNames x; rename' x => y)
    | with_reducible apply readChecked_kept
    | with_reducible apply faultIns_kept
    | (with_reducible refine Kept.lit (by assumption) ?_; rfl)
    | split
    | (clear_value *; split)
    | (with_reducible refine Kept.lit ?_ ?_; on_goal 2 => rfl
       with_reducible first | apply readChecked_kept | apply faultIns_kept)
    | with_reducible refine Kept.ofPair (by assumption) ?_
    | dsimp -zeta only)

theorem storeParts_kept {s : State} {p w reader off n : Nat} {z : State} (h : Kept z s) :
    Kept z (storeParts s p w reader off n).1 :=
  Kept.orElse (g := fun t => faultIns t p w 7 off) (partsChecked_kept h) (fun _ hk => faultIns_kept hk)

theorem execStepNop_kept {p : Nat} {s : State} {z : State} (h : Kept z s) :
    KeptOut z (execStepNop p s) := by
  unfold execStepNop
  repeat' (first
    | (intro z; intros; try beta_reduce)
    | with_reducible assumption
    | with_reducible apply issue_kept
    | with_reducible apply advance_kept
    | with_reducible apply KeptOut.next
    | with_reducible exact KeptOut.fault _
    | (with_reducible refine Kept.lit (by assumption) ?_; rfl)
    | split
    | (clear_value *; split)
    | dsimp -zeta only)

theorem runSeti_kept {p : Nat} {s : State} {w : Nat} {z : State} (h : Kept z s) :
    Kept z (runSeti p s w) := by
  unfold runSeti
  repeat' (first
    | (intro z; intros; try beta_reduce)
    | with_reducible assumption
    | with_reducible apply advance_kept
    | with_reducible apply setPreg_kept
    | (with_reducible refine Kept.lit (by assumption) ?_; rfl)
    | dsimp -zeta only)

theorem execSeti_kept {p : Nat} {s : State} {z : State} (h : Kept z s) :
    KeptOut z (execSeti p s) := by
  unfold execSeti
  repeat' (first
    | (intro z; intros; try beta_reduce)
    | with_reducible assumption
    | with_reducible apply issue_kept
    | with_reducible apply runSeti_kept
    | with_reducible apply KeptOut.next
    | with_reducible exact KeptOut.fault _
    | (with_reducible refine Kept.lit (by assumption) ?_; rfl)
    | split
    | (clear_value *; split)
    | dsimp -zeta only)

theorem runAddi_kept {p : Nat} {s : State} {w : Nat} {z : State} (h : Kept z s) :
    Kept z (runAddi p s w) := by
  unfold runAddi
  repeat' (first
    | (intro z; intros; try beta_reduce)
    | with_reducible assumption
    | with_reducible apply advance_kept
    | with_reducible apply setPreg_kept
    | (with_reducible refine Kept.lit (by assumption) ?_; rfl)
    | dsimp -zeta only)

theorem execAddi_kept {p : Nat} {s : State} {z : State} (h : Kept z s) :
    KeptOut z (execAddi p s) := by
  unfold execAddi
  repeat' (first
    | (intro z; intros; try beta_reduce)
    | with_reducible assumption
    | with_reducible apply issue_kept
    | with_reducible apply runAddi_kept
    | with_reducible apply KeptOut.next
    | with_reducible exact KeptOut.fault _
    | (with_reducible refine Kept.lit (by assumption) ?_; rfl)
    | split
    | (clear_value *; split)
    | dsimp -zeta only)

theorem runLdp_kept {p : Nat} {s : State} {w : Nat} {z : State} (h : Kept z s) :
    Kept z (runLdp p s w) := by
  unfold runLdp
  repeat' (first
    | (intro z; intros; try beta_reduce)
    | with_reducible assumption
    | (extract_lets +onlyGivenNames x; refine Kept.cut (p := Kept z x) ?_ (fun _ => ?_)
       on_goal 1 => dsimp -zeta only [x]; clear x
       on_goal 2 => try clear_value x
       on_goal 2 => rename' x => y)
    | (extract_lets +onlyGivenNames x; refine Kept.cut (p := Kept z x.1) ?_ (fun _ => ?_)
       on_goal 1 => dsimp -zeta only [x]; clear x
       on_goal 2 => try clear_value x
       on_goal 2 => rename' x => y)
    | (extract_lets +onlyGivenNames x; refine Kept.ofFun x ?_; dsimp -zeta only [x]; clear x)
    | (extract_lets +onlyGivenNames x; rename' x => y)
    | with_reducible apply faultIns_kept
    | with_reducible apply storeRead_kept
    | with_reducible apply advance_kept
    | with_reducible apply setPreg_kept
    | (with_reducible refine Kept.lit (by assumption) ?_; rfl)
    | split
    | (clear_value *; split)
    | (with_reducible refine Kept.lit ?_ ?_; on_goal 2 => rfl
       with_reducible first | apply faultIns_kept | apply storeRead_kept | apply advance_kept | apply setPreg_kept)
    | with_reducible refine Kept.ofPair (by assumption) ?_
    | dsimp -zeta only)

theorem execLdp_kept {p : Nat} {s : State} {z : State} (h : Kept z s) :
    KeptOut z (execLdp p s) := by
  unfold execLdp
  repeat' (first
    | (intro z; intros; try beta_reduce)
    | with_reducible assumption
    | with_reducible apply issue_kept
    | with_reducible apply runLdp_kept
    | with_reducible apply KeptOut.next
    | with_reducible exact KeptOut.fault _
    | (with_reducible refine Kept.lit (by assumption) ?_; rfl)
    | split
    | (clear_value *; split)
    | dsimp -zeta only)

theorem runStp_kept {p : Nat} {s : State} {w : Nat} {z : State} (h : Kept z s) :
    Kept z (runStp p s w) :=
  Kept.ofIte (faultIns_kept h) (Kept.thenGo
    (g := fun t => advance (writeNat t (storeBase p + slotOffset s p w) 8 (preg s p (bits w 55 52))) p)
    (storeParts_kept h) (fun _ hk => advance_kept (writeNat_kept hk)))

theorem execStp_kept {p : Nat} {s : State} {z : State} (h : Kept z s) :
    KeptOut z (execStp p s) := by
  unfold execStp
  repeat' (first
    | (intro z; intros; try beta_reduce)
    | with_reducible assumption
    | with_reducible apply issue_kept
    | with_reducible apply runStp_kept
    | with_reducible apply KeptOut.next
    | with_reducible exact KeptOut.fault _
    | (with_reducible refine Kept.lit (by assumption) ?_; rfl)
    | split
    | (clear_value *; split)
    | dsimp -zeta only)

theorem runLoop_kept {p : Nat} {s : State} {w : Nat} {z : State} (h : Kept z s) :
    Kept z (runLoop p s w) := by
  unfold runLoop
  repeat' (first
    | (intro z; intros; try beta_reduce)
    | with_reducible assumption
    | (extract_lets +onlyGivenNames x; refine Kept.cut (p := Kept z x) ?_ (fun _ => ?_)
       on_goal 1 => dsimp -zeta only [x]; clear x
       on_goal 2 => try clear_value x
       on_goal 2 => rename' x => y)
    | (extract_lets +onlyGivenNames x; refine Kept.cut (p := Kept z x.1) ?_ (fun _ => ?_)
       on_goal 1 => dsimp -zeta only [x]; clear x
       on_goal 2 => try clear_value x
       on_goal 2 => rename' x => y)
    | (extract_lets +onlyGivenNames x; refine Kept.ofFun x ?_; dsimp -zeta only [x]; clear x)
    | (extract_lets +onlyGivenNames x; rename' x => y)
    | with_reducible apply advance_kept
    | with_reducible apply setPreg_kept
    | with_reducible apply jump_kept
    | (with_reducible refine Kept.lit (by assumption) ?_; rfl)
    | split
    | (clear_value *; split)
    | dsimp -zeta only)

theorem execLoop_kept {p : Nat} {s : State} {z : State} (h : Kept z s) :
    KeptOut z (execLoop p s) := by
  unfold execLoop
  repeat' (first
    | (intro z; intros; try beta_reduce)
    | with_reducible assumption
    | with_reducible apply issue_kept
    | with_reducible apply runLoop_kept
    | with_reducible apply KeptOut.next
    | with_reducible exact KeptOut.fault _
    | (with_reducible refine Kept.lit (by assumption) ?_; rfl)
    | split
    | (clear_value *; split)
    | dsimp -zeta only)

theorem execWait_kept {p : Nat} {s : State} {z : State} (h : Kept z s) :
    KeptOut z (execWait p s) := by
  unfold execWait
  repeat' (first
    | (intro z; intros; try beta_reduce)
    | with_reducible assumption
    | with_reducible apply issue_kept
    | with_reducible apply advance_kept
    | with_reducible apply KeptOut.next
    | with_reducible exact KeptOut.fault _
    | (with_reducible refine Kept.lit (by assumption) ?_; rfl)
    | split
    | (clear_value *; split)
    | dsimp -zeta only)

theorem runMove_kept {p : Nat} {s : State} {w : Nat} {z : State} (h : Kept z s) :
    Kept z (runMove p s w) := by
  unfold runMove
  repeat' (first
    | (intro z; intros; try beta_reduce)
    | with_reducible assumption
    | (extract_lets +onlyGivenNames x; refine Kept.cut (p := Kept z x) ?_ (fun _ => ?_)
       on_goal 1 => dsimp -zeta only [x]; clear x
       on_goal 2 => try clear_value x
       on_goal 2 => rename' x => y)
    | (extract_lets +onlyGivenNames x; refine Kept.cut (p := Kept z x.1) ?_ (fun _ => ?_)
       on_goal 1 => dsimp -zeta only [x]; clear x
       on_goal 2 => try clear_value x
       on_goal 2 => rename' x => y)
    | (extract_lets +onlyGivenNames x; refine Kept.ofFun x ?_; dsimp -zeta only [x]; clear x)
    | (extract_lets +onlyGivenNames x; rename' x => y)
    | with_reducible apply faultIns_kept
    | with_reducible apply advance_kept
    | with_reducible apply startChain_kept
    | (with_reducible refine Kept.lit (by assumption) ?_; rfl)
    | split
    | (clear_value *; split)
    | dsimp -zeta only)

theorem execMove_kept {p : Nat} {s : State} {z : State} (h : Kept z s) :
    KeptOut z (execMove p s) := by
  unfold execMove
  repeat' (first
    | (intro z; intros; try beta_reduce)
    | with_reducible assumption
    | with_reducible apply issue_kept
    | with_reducible apply runMove_kept
    | with_reducible apply KeptOut.next
    | with_reducible exact KeptOut.fault _
    | (with_reducible refine Kept.lit (by assumption) ?_; rfl)
    | split
    | (clear_value *; split)
    | dsimp -zeta only)

theorem setBank_kept {s : State} {p : Nat} {b : Nat} {v : Nat} {z : State} (h : Kept z s) :
    Kept z (setBank s p b v) := by
  unfold setBank
  repeat' (first
    | (intro z; intros; try beta_reduce)
    | with_reducible assumption
    | with_reducible apply setF_kept
    | (with_reducible refine Kept.lit (by assumption) ?_; rfl)
    | split
    | (clear_value *; split)
    | dsimp -zeta only)

theorem refuseTop_kept {s : State} {p : Nat} {w : Nat} {n : Nat} {slot : Nat} {detail : Nat} {z : State} (h : Kept z s) :
    Kept z (refuseTop s p w n slot detail) := by
  unfold refuseTop
  repeat' (first
    | (intro z; intros; try beta_reduce)
    | with_reducible assumption
    | with_reducible apply faultIns_kept
    | with_reducible apply raise_kept
    | (with_reducible refine Kept.lit (by assumption) ?_; rfl)
    | dsimp -zeta only)

theorem queueMm_kept {s : State} {p : Nat} {o : MMOp} {z : State} (h : Kept z s) :
    Kept z (queueMm s p o) := by
  unfold queueMm
  repeat' (first
    | (intro z; intros; try beta_reduce)
    | with_reducible assumption
    | (extract_lets +onlyGivenNames x; refine Kept.cut (p := Kept z x) ?_ (fun _ => ?_)
       on_goal 1 => dsimp -zeta only [x]; clear x
       on_goal 2 => try clear_value x
       on_goal 2 => rename' x => y)
    | (extract_lets +onlyGivenNames x; refine Kept.cut (p := Kept z x.1) ?_ (fun _ => ?_)
       on_goal 1 => dsimp -zeta only [x]; clear x
       on_goal 2 => try clear_value x
       on_goal 2 => rename' x => y)
    | (extract_lets +onlyGivenNames x; refine Kept.ofFun x ?_; dsimp -zeta only [x]; clear x)
    | (extract_lets +onlyGivenNames x; rename' x => y)
    | with_reducible apply modStall_kept
    | (with_reducible refine Kept.lit (by assumption) ?_; rfl)
    | split
    | (clear_value *; split)
    | (with_reducible refine Kept.lit ?_ ?_; on_goal 2 => rfl
       with_reducible first | apply modStall_kept)
    | dsimp -zeta only)

theorem acceptTop_kept {s : State} {p : Nat} {o : TileOp} {osize : Nat} {z : State} (h : Kept z s) :
    Kept z (acceptTop s p o osize) := by
  unfold acceptTop
  repeat' (first
    | (intro z; intros; try beta_reduce)
    | with_reducible assumption
    | (extract_lets +onlyGivenNames x; refine Kept.cut (p := Kept z x) ?_ (fun _ => ?_)
       on_goal 1 => dsimp -zeta only [x]; clear x
       on_goal 2 => try clear_value x
       on_goal 2 => rename' x => y)
    | (extract_lets +onlyGivenNames x; refine Kept.cut (p := Kept z x.1) ?_ (fun _ => ?_)
       on_goal 1 => dsimp -zeta only [x]; clear x
       on_goal 2 => try clear_value x
       on_goal 2 => rename' x => y)
    | (extract_lets +onlyGivenNames x; refine Kept.ofFun x ?_; dsimp -zeta only [x]; clear x)
    | (extract_lets +onlyGivenNames x; rename' x => y)
    | with_reducible apply modStall_kept
    | with_reducible apply when_kept
    | with_reducible apply setF_kept
    | with_reducible apply queueMm_kept
    | with_reducible apply abortRetrim_kept
    | (with_reducible refine Kept.lit (by assumption) ?_; rfl)
    | split
    | (clear_value *; split)
    | (with_reducible refine Kept.lit ?_ ?_; on_goal 2 => rfl
       with_reducible first | apply modStall_kept | apply when_kept | apply setF_kept | apply queueMm_kept | apply abortRetrim_kept)
    | dsimp -zeta only)

theorem runTop_kept {p : Nat} {s : State} {w : Nat} {z : State} (h : Kept z s) :
    Kept z (runTop p s w) := by
  unfold runTop
  repeat' (first
    | (intro z; intros; try beta_reduce)
    | with_reducible assumption
    | (extract_lets +onlyGivenNames x; refine Kept.cut (p := Kept z x) ?_ (fun _ => ?_)
       on_goal 1 => dsimp -zeta only [x]; clear x
       on_goal 2 => try clear_value x
       on_goal 2 => rename' x => y)
    | (extract_lets +onlyGivenNames x; refine Kept.cut (p := Kept z x.1) ?_ (fun _ => ?_)
       on_goal 1 => dsimp -zeta only [x]; clear x
       on_goal 2 => try clear_value x
       on_goal 2 => rename' x => y)
    | (extract_lets +onlyGivenNames x; refine Kept.ofFun x ?_; dsimp -zeta only [x]; clear x)
    | (extract_lets +onlyGivenNames x; rename' x => y)
    | with_reducible apply faultIns_kept
    | with_reducible apply refuseTop_kept
    | with_reducible apply advance_kept
    | with_reducible apply acceptTop_kept
    | (with_reducible refine Kept.lit (by assumption) ?_; rfl)
    | split
    | (clear_value *; split)
    | (with_reducible refine Kept.lit ?_ ?_; on_goal 2 => rfl
       with_reducible first | apply faultIns_kept | apply refuseTop_kept | apply advance_kept | apply acceptTop_kept)
    | with_reducible refine Kept.ofPair (by assumption) ?_
    | dsimp -zeta only)

theorem execTop_kept {p : Nat} {s : State} {z : State} (h : Kept z s) :
    KeptOut z (execTop p s) := by
  unfold execTop
  repeat' (first
    | (intro z; intros; try beta_reduce)
    | with_reducible assumption
    | with_reducible apply issue_kept
    | with_reducible apply runTop_kept
    | with_reducible apply KeptOut.next
    | with_reducible exact KeptOut.fault _
    | (with_reducible refine Kept.lit (by assumption) ?_; rfl)
    | split
    | (clear_value *; split)
    | dsimp -zeta only)

theorem inputTrap_kept {s : State} {p : Nat} {w2 : Nat} {v : BadVal} {z : State} (h : Kept z s) :
    Kept z (inputTrap s p w2 v) := by
  unfold inputTrap
  repeat' (first
    | (intro z; intros; try beta_reduce)
    | with_reducible assumption
    | with_reducible apply trap_kept
    | (with_reducible refine Kept.lit (by assumption) ?_; rfl)
    | dsimp -zeta only)

theorem qinToken_kept {p : Nat} {mode : Nat} {els : Nat} {c : Site} {seg : Nat} {code : Nat} {scale : Nat} {s : State} {xi : Nat × Nat × List F32} {z : State} (h : Kept z s) :
    Kept z (qinToken p mode els c seg code scale s xi) := by
  unfold qinToken
  repeat' (first
    | (intro z; intros; try beta_reduce)
    | with_reducible assumption
    | (extract_lets +onlyGivenNames x; refine Kept.cut (p := Kept z x) ?_ (fun _ => ?_)
       on_goal 1 => dsimp -zeta only [x]; clear x
       on_goal 2 => try clear_value x
       on_goal 2 => rename' x => y)
    | (extract_lets +onlyGivenNames x; refine Kept.cut (p := Kept z x.1) ?_ (fun _ => ?_)
       on_goal 1 => dsimp -zeta only [x]; clear x
       on_goal 2 => try clear_value x
       on_goal 2 => rename' x => y)
    | (extract_lets +onlyGivenNames x; refine Kept.ofFun x ?_; dsimp -zeta only [x]; clear x)
    | (extract_lets +onlyGivenNames x; rename' x => y)
    | with_reducible apply tally_kept
    | with_reducible apply write_kept
    | (with_reducible refine Kept.lit (by assumption) ?_; rfl)
    | dsimp -zeta only)

theorem runQin_kept {p : Nat} {s : State} {w : Nat} {z : State} (h : Kept z s) :
    Kept z (runQin p s w) := by
  unfold runQin
  extract_lets
  refine Kept.ofIte (faultIns_kept h) (Kept.ofIte (faultIns_kept h) (Kept.ofIte (faultIns_kept h) ?_))
  split
  · rename_i e
    exact Kept.ofPair e (storeRead_kept h)
  · rename_i e
    have hr := Kept.ofPair e (storeRead_kept h)
    split
    · exact faultIns_kept hr
    split
    · exact inputTrap_kept hr
    exact Kept.thenGo (g := fun t => advance (forEach _ _ t) p) (storeParts_kept hr)
      (fun _ hk => advance_kept (forEach_kept (fun _ _ _ hq => qinToken_kept hq) hk))

theorem execQin_kept {p : Nat} {s : State} {z : State} (h : Kept z s) :
    KeptOut z (execQin p s) := by
  unfold execQin
  repeat' (first
    | (intro z; intros; try beta_reduce)
    | with_reducible assumption
    | with_reducible apply issue_kept
    | with_reducible apply runQin_kept
    | with_reducible apply KeptOut.next
    | with_reducible exact KeptOut.fault _
    | (with_reducible refine Kept.lit (by assumption) ?_; rfl)
    | split
    | (clear_value *; split)
    | dsimp -zeta only)

theorem setVreg_kept {s : State} {p : Nat} {i : Nat} {l : List F32} {z : State} (h : Kept z s) :
    Kept z (setVreg s p i l) := by
  unfold setVreg
  repeat' (first
    | (intro z; intros; try beta_reduce)
    | with_reducible assumption
    | (extract_lets +onlyGivenNames x; refine Kept.cut (p := Kept z x) ?_ (fun _ => ?_)
       on_goal 1 => dsimp -zeta only [x]; clear x
       on_goal 2 => try clear_value x
       on_goal 2 => rename' x => y)
    | (extract_lets +onlyGivenNames x; refine Kept.cut (p := Kept z x.1) ?_ (fun _ => ?_)
       on_goal 1 => dsimp -zeta only [x]; clear x
       on_goal 2 => try clear_value x
       on_goal 2 => rename' x => y)
    | (extract_lets +onlyGivenNames x; refine Kept.ofFun x ?_; dsimp -zeta only [x]; clear x)
    | (extract_lets +onlyGivenNames x; rename' x => y)
    | with_reducible apply modStall_kept
    | (with_reducible refine Kept.lit (by assumption) ?_; rfl)
    | (with_reducible refine Kept.lit ?_ ?_; on_goal 2 => rfl
       with_reducible first | apply modStall_kept)
    | dsimp -zeta only)

theorem runVld_kept {p : Nat} {s : State} {w : Nat} {z : State} (h : Kept z s) :
    Kept z (runVld p s w) := by
  unfold runVld
  repeat' (first
    | (intro z; intros; try beta_reduce)
    | with_reducible assumption
    | (extract_lets +onlyGivenNames x; refine Kept.cut (p := Kept z x) ?_ (fun _ => ?_)
       on_goal 1 => dsimp -zeta only [x]; clear x
       on_goal 2 => try clear_value x
       on_goal 2 => rename' x => y)
    | (extract_lets +onlyGivenNames x; refine Kept.cut (p := Kept z x.1) ?_ (fun _ => ?_)
       on_goal 1 => dsimp -zeta only [x]; clear x
       on_goal 2 => try clear_value x
       on_goal 2 => rename' x => y)
    | (extract_lets +onlyGivenNames x; refine Kept.ofFun x ?_; dsimp -zeta only [x]; clear x)
    | (extract_lets +onlyGivenNames x; rename' x => y)
    | with_reducible apply faultIns_kept
    | with_reducible apply storeRead_kept
    | with_reducible apply trapDecode_kept
    | with_reducible apply trap_kept
    | with_reducible apply advance_kept
    | with_reducible apply setVreg_kept
    | (with_reducible refine Kept.lit (by assumption) ?_; rfl)
    | split
    | (clear_value *; split)
    | (with_reducible refine Kept.lit ?_ ?_; on_goal 2 => rfl
       with_reducible first | apply faultIns_kept | apply storeRead_kept | apply trapDecode_kept | apply trap_kept | apply advance_kept | apply setVreg_kept)
    | with_reducible refine Kept.ofPair (by assumption) ?_
    | dsimp -zeta only)

theorem execVld_kept {p : Nat} {s : State} {z : State} (h : Kept z s) :
    KeptOut z (execVld p s) := by
  unfold execVld
  repeat' (first
    | (intro z; intros; try beta_reduce)
    | with_reducible assumption
    | with_reducible apply issue_kept
    | with_reducible apply runVld_kept
    | with_reducible apply KeptOut.next
    | with_reducible exact KeptOut.fault _
    | (with_reducible refine Kept.lit (by assumption) ?_; rfl)
    | split
    | (clear_value *; split)
    | dsimp -zeta only)

theorem vstBytes_kept {s : State} {sel : Nat} {c : Site} {w2 : Nat → Nat} {l : List F32} {z : State} (h : Kept z s) :
    Kept z (vstBytes s sel c w2 l).1 := by
  unfold vstBytes
  repeat' (first
    | (intro z; intros; try beta_reduce)
    | with_reducible assumption
    | (extract_lets +onlyGivenNames x; refine Kept.cut (p := Kept z x) ?_ (fun _ => ?_)
       on_goal 1 => dsimp -zeta only [x]; clear x
       on_goal 2 => try clear_value x
       on_goal 2 => rename' x => y)
    | (extract_lets +onlyGivenNames x; refine Kept.cut (p := Kept z x.1) ?_ (fun _ => ?_)
       on_goal 1 => dsimp -zeta only [x]; clear x
       on_goal 2 => try clear_value x
       on_goal 2 => rename' x => y)
    | (extract_lets +onlyGivenNames x; refine Kept.ofFun x ?_; dsimp -zeta only [x]; clear x)
    | (extract_lets +onlyGivenNames x; rename' x => y)
    | with_reducible apply convertRule_kept
    | with_reducible apply countSat_kept
    | (with_reducible refine Kept.lit (by assumption) ?_; rfl)
    | split
    | (clear_value *; split)
    | dsimp -zeta only)

theorem runVst_kept {p : Nat} {s : State} {w : Nat} {z : State} (h : Kept z s) :
    Kept z (runVst p s w) := by
  unfold runVst
  repeat' (first
    | (intro z; intros; try beta_reduce)
    | with_reducible assumption
    | (extract_lets +onlyGivenNames x; refine Kept.cut (p := Kept z x) ?_ (fun _ => ?_)
       on_goal 1 => dsimp -zeta only [x]; clear x
       on_goal 2 => try clear_value x
       on_goal 2 => rename' x => y)
    | (extract_lets +onlyGivenNames x; refine Kept.cut (p := Kept z x.1) ?_ (fun _ => ?_)
       on_goal 1 => dsimp -zeta only [x]; clear x
       on_goal 2 => try clear_value x
       on_goal 2 => rename' x => y)
    | (extract_lets +onlyGivenNames x; refine Kept.ofFun x ?_; dsimp -zeta only [x]; clear x)
    | (extract_lets +onlyGivenNames x; rename' x => y)
    | with_reducible apply faultIns_kept
    | with_reducible apply inputTrap_kept
    | with_reducible apply vstBytes_kept
    | with_reducible apply advance_kept
    | with_reducible apply write_kept
    | (with_reducible refine Kept.lit (by assumption) ?_; rfl)
    | split
    | (clear_value *; split)
    | (with_reducible refine Kept.lit ?_ ?_; on_goal 2 => rfl
       with_reducible first | apply faultIns_kept | apply inputTrap_kept | apply vstBytes_kept | apply advance_kept | apply write_kept)
    | with_reducible refine Kept.ofPair (by assumption) ?_
    | dsimp -zeta only)

theorem execVst_kept {p : Nat} {s : State} {z : State} (h : Kept z s) :
    KeptOut z (execVst p s) := by
  unfold execVst
  repeat' (first
    | (intro z; intros; try beta_reduce)
    | with_reducible assumption
    | with_reducible apply issue_kept
    | with_reducible apply runVst_kept
    | with_reducible apply KeptOut.next
    | with_reducible exact KeptOut.fault _
    | (with_reducible refine Kept.lit (by assumption) ?_; rfl)
    | split
    | (clear_value *; split)
    | dsimp -zeta only)

theorem runVop_kept {p : Nat} {s : State} {w : Nat} {z : State} (h : Kept z s) :
    Kept z (runVop p s w) := by
  unfold runVop
  repeat' (first
    | (intro z; intros; try beta_reduce)
    | with_reducible assumption
    | (extract_lets +onlyGivenNames x; refine Kept.cut (p := Kept z x) ?_ (fun _ => ?_)
       on_goal 1 => dsimp -zeta only [x]; clear x
       on_goal 2 => try clear_value x
       on_goal 2 => rename' x => y)
    | (extract_lets +onlyGivenNames x; refine Kept.cut (p := Kept z x.1) ?_ (fun _ => ?_)
       on_goal 1 => dsimp -zeta only [x]; clear x
       on_goal 2 => try clear_value x
       on_goal 2 => rename' x => y)
    | (extract_lets +onlyGivenNames x; refine Kept.ofFun x ?_; dsimp -zeta only [x]; clear x)
    | (extract_lets +onlyGivenNames x; rename' x => y)
    | with_reducible apply trapBits_kept
    | with_reducible apply trap_kept
    | with_reducible apply advance_kept
    | with_reducible apply setVreg_kept
    | (with_reducible refine Kept.lit (by assumption) ?_; rfl)
    | split
    | (clear_value *; split)
    | (with_reducible refine Kept.lit ?_ ?_; on_goal 2 => rfl
       with_reducible first | apply trapBits_kept | apply trap_kept | apply advance_kept | apply setVreg_kept)
    | with_reducible refine Kept.ofPair (by assumption) ?_
    | dsimp -zeta only)

theorem execVop_kept {p : Nat} {s : State} {z : State} (h : Kept z s) :
    KeptOut z (execVop p s) := by
  unfold execVop
  repeat' (first
    | (intro z; intros; try beta_reduce)
    | with_reducible assumption
    | with_reducible apply issue_kept
    | with_reducible apply runVop_kept
    | with_reducible apply KeptOut.next
    | with_reducible exact KeptOut.fault _
    | (with_reducible refine Kept.lit (by assumption) ?_; rfl)
    | split
    | (clear_value *; split)
    | dsimp -zeta only)

theorem runVseti_kept {p : Nat} {s : State} {w : Nat} {z : State} (h : Kept z s) :
    Kept z (runVseti p s w) := by
  unfold runVseti
  repeat' (first
    | (intro z; intros; try beta_reduce)
    | with_reducible assumption
    | with_reducible apply advance_kept
    | with_reducible apply setVreg_kept
    | (with_reducible refine Kept.lit (by assumption) ?_; rfl)
    | dsimp -zeta only)

theorem execVseti_kept {p : Nat} {s : State} {z : State} (h : Kept z s) :
    KeptOut z (execVseti p s) := by
  unfold execVseti
  repeat' (first
    | (intro z; intros; try beta_reduce)
    | with_reducible assumption
    | with_reducible apply issue_kept
    | with_reducible apply runVseti_kept
    | with_reducible apply KeptOut.next
    | with_reducible exact KeptOut.fault _
    | (with_reducible refine Kept.lit (by assumption) ?_; rfl)
    | split
    | (clear_value *; split)
    | dsimp -zeta only)

theorem touchBanks_kept {s : State} {p : Nat} {o : MMOp} {z : State} (h : Kept z s) :
    Kept z (touchBanks s p o) := by
  unfold touchBanks
  repeat' (first
    | (intro z; intros; try beta_reduce)
    | with_reducible assumption
    | with_reducible apply forEach_kept
    | with_reducible apply setBank_kept
    | (with_reducible refine Kept.lit (by assumption) ?_; rfl)
    | split
    | (clear_value *; split)
    | dsimp -zeta only)

theorem runMm_kept {p : Nat} {s : State} {w : Nat} {z : State} (h : Kept z s) :
    Kept z (runMm p s w) := by
  unfold runMm
  repeat' (first
    | (intro z; intros; try beta_reduce)
    | with_reducible assumption
    | (extract_lets +onlyGivenNames x; refine Kept.cut (p := Kept z x) ?_ (fun _ => ?_)
       on_goal 1 => dsimp -zeta only [x]; clear x
       on_goal 2 => try clear_value x
       on_goal 2 => rename' x => y)
    | (extract_lets +onlyGivenNames x; refine Kept.cut (p := Kept z x.1) ?_ (fun _ => ?_)
       on_goal 1 => dsimp -zeta only [x]; clear x
       on_goal 2 => try clear_value x
       on_goal 2 => rename' x => y)
    | (extract_lets +onlyGivenNames x; refine Kept.ofFun x ?_; dsimp -zeta only [x]; clear x)
    | (extract_lets +onlyGivenNames x; rename' x => y)
    | with_reducible apply faultIns_kept
    | with_reducible apply advance_kept
    | with_reducible apply touchBanks_kept
    | with_reducible apply queueMm_kept
    | (with_reducible refine Kept.lit (by assumption) ?_; rfl)
    | split
    | (clear_value *; split)
    | (with_reducible refine Kept.lit ?_ ?_; on_goal 2 => rfl
       with_reducible first | apply faultIns_kept | apply advance_kept | apply touchBanks_kept | apply queueMm_kept)
    | with_reducible refine Kept.ofPair (by assumption) ?_
    | dsimp -zeta only)

theorem execMm_kept {p : Nat} {s : State} {z : State} (h : Kept z s) :
    KeptOut z (execMm p s) := by
  unfold execMm
  repeat' (first
    | (intro z; intros; try beta_reduce)
    | with_reducible assumption
    | with_reducible apply issue_kept
    | with_reducible apply runMm_kept
    | with_reducible apply KeptOut.next
    | with_reducible exact KeptOut.fault _
    | (with_reducible refine Kept.lit (by assumption) ?_; rfl)
    | split
    | (clear_value *; split)
    | dsimp -zeta only)

theorem runTzero_kept {p : Nat} {s : State} {w : Nat} {z : State} (h : Kept z s) :
    Kept z (runTzero p s w) := by
  unfold runTzero
  repeat' (first
    | (intro z; intros; try beta_reduce)
    | with_reducible assumption
    | (extract_lets +onlyGivenNames x; refine Kept.cut (p := Kept z x) ?_ (fun _ => ?_)
       on_goal 1 => dsimp -zeta only [x]; clear x
       on_goal 2 => try clear_value x
       on_goal 2 => rename' x => y)
    | (extract_lets +onlyGivenNames x; refine Kept.cut (p := Kept z x.1) ?_ (fun _ => ?_)
       on_goal 1 => dsimp -zeta only [x]; clear x
       on_goal 2 => try clear_value x
       on_goal 2 => rename' x => y)
    | (extract_lets +onlyGivenNames x; refine Kept.ofFun x ?_; dsimp -zeta only [x]; clear x)
    | (extract_lets +onlyGivenNames x; rename' x => y)
    | with_reducible apply zero_kept
    | with_reducible apply advance_kept
    | with_reducible apply setBank_kept
    | (with_reducible refine Kept.lit (by assumption) ?_; rfl)
    | split
    | (clear_value *; split)
    | dsimp -zeta only)

theorem execTzero_kept {p : Nat} {s : State} {z : State} (h : Kept z s) :
    KeptOut z (execTzero p s) := by
  unfold execTzero
  repeat' (first
    | (intro z; intros; try beta_reduce)
    | with_reducible assumption
    | with_reducible apply issue_kept
    | with_reducible apply runTzero_kept
    | with_reducible apply KeptOut.next
    | with_reducible exact KeptOut.fault _
    | (with_reducible refine Kept.lit (by assumption) ?_; rfl)
    | split
    | (clear_value *; split)
    | dsimp -zeta only)

end Sys2Proof.Machine
end

