-- ==== Sys2Proof/Laws/KeptGradEngine.lean ====
section
/-! SUPPORT. Laws/KeptGradEngine.lean: what every operation of Machine/GradEngine.lean keeps (Laws/Kept.lean). -/
namespace Sys2Proof.Machine
open Sys2Proof

theorem writeTile_kept {s : State} {p : Nat} {o : MMOp} {l : List (Nat × Nat × List F32)} {z : State} (h : Kept z s) :
    Kept z (writeTile s p o l) := by
  unfold writeTile
  repeat' (first
    | (intro z; intros; try beta_reduce)
    | with_reducible assumption
    | with_reducible apply forEach_kept
    | with_reducible apply write_kept
    | (with_reducible refine Kept.lit (by assumption) ?_; rfl)
    | dsimp -zeta only)

theorem macTrap_kept {s : State} {p : Nat} {o : MMOp} {xi : Nat × Nat × F32} {z : State} (h : Kept z s) :
    Kept z (macTrap s p o xi) := by
  unfold macTrap
  repeat' (first
    | (intro z; intros; try beta_reduce)
    | with_reducible assumption
    | (extract_lets +onlyGivenNames x; refine Kept.cut (p := Kept z x) ?_ (fun _ => ?_)
       on_goal 1 => dsimp -zeta only [x]; clear x
       on_goal 2 => try clear_value x
       on_goal 2 => rename' x => y)
    | (extract_lets +onlyGivenNames x; refine Kept.cut (p := Kept z x.1) ?_ (fun _ => ?_)
       on_goal 1 => dsimp -zeta only [x]; clear x
       on_goal 2 => try clear_value x
       on_goal 2 => rename' x => y)
    | (extract_lets +onlyGivenNames x; refine Kept.ofFun x ?_; dsimp -zeta only [x]; clear x)
    | (extract_lets +onlyGivenNames x; rename' x => y)
    | with_reducible apply trapBits_kept
    | with_reducible apply trap_kept
    | (with_reducible refine Kept.lit (by assumption) ?_; rfl)
    | dsimp -zeta only)

theorem stopMm_kept {s : State} {p : Nat} {o : MMOp} {x : MacStop} {z : State} (h : Kept z s) : Kept z (stopMm s p o x) := by
  cases x with
  | decode k operand j v => exact trapDecode_kept h
  | acc m n v => exact macTrap_kept h

theorem linesRead_kept {s : State} {p : Nat} {o : MMOp} {z : State} (h : Kept z s) :
    Kept z (linesRead s p o).1 := by
  unfold linesRead
  repeat' (first
    | (intro z; intros; try beta_reduce)
    | with_reducible assumption
    | (extract_lets +onlyGivenNames x; refine Kept.cut (p := Kept z x) ?_ (fun _ => ?_)
       on_goal 1 => dsimp -zeta only [x]; clear x
       on_goal 2 => try clear_value x
       on_goal 2 => rename' x => y)
    | (extract_lets +onlyGivenNames x; refine Kept.cut (p := Kept z x.1) ?_ (fun _ => ?_)
       on_goal 1 => dsimp -zeta only [x]; clear x
       on_goal 2 => try clear_value x
       on_goal 2 => rename' x => y)
    | (extract_lets +onlyGivenNames x; refine Kept.ofFun x ?_; dsimp -zeta only [x]; clear x)
    | (extract_lets +onlyGivenNames x; rename' x => y)
    | with_reducible apply checkBrands_kept
    | (with_reducible refine Kept.lit (by assumption) ?_; rfl)
    | with_reducible apply Kept.foldl
    | with_reducible apply Kept.foldl_fst
    | split
    | (clear_value *; split)
    | dsimp -zeta only)

theorem holdTile_kept {p : Nat} {o : MMOp} {v : MacOut} {s : State} {xi : Nat × Nat × List Nat} {z : State} (h : Kept z s) :
    Kept z (holdTile p o v s xi) := by
  unfold holdTile
  repeat' (first
    | (intro z; intros; try beta_reduce)
    | with_reducible assumption
    | (extract_lets +onlyGivenNames x; refine Kept.cut (p := Kept z x) ?_ (fun _ => ?_)
       on_goal 1 => dsimp -zeta only [x]; clear x
       on_goal 2 => try clear_value x
       on_goal 2 => rename' x => y)
    | (extract_lets +onlyGivenNames x; refine Kept.cut (p := Kept z x.1) ?_ (fun _ => ?_)
       on_goal 1 => dsimp -zeta only [x]; clear x
       on_goal 2 => try clear_value x
       on_goal 2 => rename' x => y)
    | (extract_lets +onlyGivenNames x; refine Kept.ofFun x ?_; dsimp -zeta only [x]; clear x)
    | (extract_lets +onlyGivenNames x; rename' x => y)
    | with_reducible apply modStall_kept
    | with_reducible apply setF_kept
    | with_reducible apply raise_kept
    | (with_reducible refine Kept.lit (by assumption) ?_; rfl)
    | split
    | (clear_value *; split)
    | (with_reducible refine Kept.lit ?_ ?_; on_goal 2 => rfl
       with_reducible first | apply modStall_kept | apply setF_kept | apply raise_kept)
    | dsimp -zeta only)

theorem dropMm_kept {s : State} {p : Nat} {z : State} (h : Kept z s) :
    Kept z (dropMm s p) := by
  unfold dropMm
  repeat' (first
    | (intro z; intros; try beta_reduce)
    | with_reducible assumption
    | (extract_lets +onlyGivenNames x; refine Kept.cut (p := Kept z x) ?_ (fun _ => ?_)
       on_goal 1 => dsimp -zeta only [x]; clear x
       on_goal 2 => try clear_value x
       on_goal 2 => rename' x => y)
    | (extract_lets +onlyGivenNames x; refine Kept.cut (p := Kept z x.1) ?_ (fun _ => ?_)
       on_goal 1 => dsimp -zeta only [x]; clear x
       on_goal 2 => try clear_value x
       on_goal 2 => rename' x => y)
    | (extract_lets +onlyGivenNames x; refine Kept.ofFun x ?_; dsimp -zeta only [x]; clear x)
    | (extract_lets +onlyGivenNames x; rename' x => y)
    | with_reducible apply modStall_kept
    | (with_reducible refine Kept.lit (by assumption) ?_; rfl)
    | (with_reducible refine Kept.lit ?_ ?_; on_goal 2 => rfl
       with_reducible first | apply modStall_kept)
    | dsimp -zeta only)

theorem endMm_kept {s : State} {p : Nat} {o : MMOp} {faults : List MacFault} {z : State} (h : Kept z s) :
    Kept z (endMm s p o faults) := by
  unfold endMm
  repeat' (first
    | (intro z; intros; try beta_reduce)
    | with_reducible assumption
    | (extract_lets +onlyGivenNames x; refine Kept.cut (p := Kept z x) ?_ (fun _ => ?_)
       on_goal 1 => dsimp -zeta only [x]; clear x
       on_goal 2 => try clear_value x
       on_goal 2 => rename' x => y)
    | (extract_lets +onlyGivenNames x; refine Kept.cut (p := Kept z x.1) ?_ (fun _ => ?_)
       on_goal 1 => dsimp -zeta only [x]; clear x
       on_goal 2 => try clear_value x
       on_goal 2 => rename' x => y)
    | (extract_lets +onlyGivenNames x; refine Kept.ofFun x ?_; dsimp -zeta only [x]; clear x)
    | (extract_lets +onlyGivenNames x; rename' x => y)
    | with_reducible apply linesRead_kept
    | with_reducible apply instrFault_kept
    | with_reducible apply bumpF_kept
    | with_reducible apply stopMm_kept
    | with_reducible apply macTrap_kept
    | with_reducible apply writeTile_kept
    | with_reducible apply dropMm_kept
    | with_reducible apply forEach_kept
    | with_reducible apply holdTile_kept
    | (with_reducible refine Kept.lit (by assumption) ?_; rfl)
    | split
    | (clear_value *; split)
    | (with_reducible refine Kept.lit ?_ ?_; on_goal 2 => rfl
       with_reducible first | apply linesRead_kept | apply instrFault_kept | apply bumpF_kept | apply stopMm_kept | apply macTrap_kept | apply writeTile_kept | apply dropMm_kept | apply forEach_kept | apply holdTile_kept)
    | with_reducible refine Kept.ofPair (by assumption) ?_
    | dsimp -zeta only)

theorem fallbackToken_kept {s : State} {p : Nat} {t : Nat} {i : Nat} {o : TileOp} {two : Bool} {scale : F32} {codes : List Int} {faults : List MacFault} {z : State} (h : Kept z s) :
    Kept z (fallbackToken s p t i o two scale codes faults) := by
  unfold fallbackToken
  repeat' (first
    | (intro z; intros; try beta_reduce)
    | with_reducible assumption
    | (extract_lets +onlyGivenNames x; refine Kept.cut (p := Kept z x) ?_ (fun _ => ?_)
       on_goal 1 => dsimp -zeta only [x]; clear x
       on_goal 2 => try clear_value x
       on_goal 2 => rename' x => y)
    | (extract_lets +onlyGivenNames x; refine Kept.cut (p := Kept z x.1) ?_ (fun _ => ?_)
       on_goal 1 => dsimp -zeta only [x]; clear x
       on_goal 2 => try clear_value x
       on_goal 2 => rename' x => y)
    | (extract_lets +onlyGivenNames x; refine Kept.ofFun x ?_; dsimp -zeta only [x]; clear x)
    | (extract_lets +onlyGivenNames x; rename' x => y)
    | with_reducible apply bumpF_kept
    | with_reducible apply resultTrap_kept
    | with_reducible apply releaseToken_kept
    | with_reducible apply modStall_kept
    | with_reducible apply setF_kept
    | with_reducible apply raise_kept
    | (with_reducible refine Kept.lit (by assumption) ?_; rfl)
    | split
    | (clear_value *; split)
    | (with_reducible refine Kept.lit ?_ ?_; on_goal 2 => rfl
       with_reducible first | apply bumpF_kept | apply resultTrap_kept | apply releaseToken_kept | apply modStall_kept | apply setF_kept | apply raise_kept)
    | with_reducible refine Kept.ofPair (by assumption) ?_
    | dsimp -zeta only)

theorem fallbackNext_kept {s : State} {p : Nat} {slot : Nat} {faults : List MacFault} {z : State} (h : Kept z s) :
    Kept z (fallbackNext s p slot faults) := by
  unfold fallbackNext
  repeat' (first
    | (intro z; intros; try beta_reduce)
    | with_reducible assumption
    | (extract_lets +onlyGivenNames x; refine Kept.cut (p := Kept z x) ?_ (fun _ => ?_)
       on_goal 1 => dsimp -zeta only [x]; clear x
       on_goal 2 => try clear_value x
       on_goal 2 => rename' x => y)
    | (extract_lets +onlyGivenNames x; refine Kept.cut (p := Kept z x.1) ?_ (fun _ => ?_)
       on_goal 1 => dsimp -zeta only [x]; clear x
       on_goal 2 => try clear_value x
       on_goal 2 => rename' x => y)
    | (extract_lets +onlyGivenNames x; refine Kept.ofFun x ?_; dsimp -zeta only [x]; clear x)
    | (extract_lets +onlyGivenNames x; rename' x => y)
    | with_reducible apply checkBrands_kept
    | with_reducible apply openToken_kept
    | with_reducible apply bumpF_kept
    | with_reducible apply fallbackToken_kept
    | with_reducible apply corruptStop_kept
    | (with_reducible refine Kept.lit (by assumption) ?_; rfl)
    | split
    | (clear_value *; split)
    | (with_reducible refine Kept.lit ?_ ?_; on_goal 2 => rfl
       with_reducible first | apply checkBrands_kept | apply openToken_kept | apply bumpF_kept | apply fallbackToken_kept | apply corruptStop_kept)
    | with_reducible refine Kept.ofPair (by assumption) ?_
    | dsimp -zeta only)

theorem mmComplete_kept {p : Nat} {faults : List MacFault} {s : State} {z : State} (h : Kept z s) :
    Kept z (mmComplete p faults s) := by
  unfold mmComplete
  repeat' (first
    | (intro z; intros; try beta_reduce)
    | with_reducible assumption
    | (extract_lets +onlyGivenNames x; refine Kept.cut (p := Kept z x) ?_ (fun _ => ?_)
       on_goal 1 => dsimp -zeta only [x]; clear x
       on_goal 2 => try clear_value x
       on_goal 2 => rename' x => y)
    | (extract_lets +onlyGivenNames x; refine Kept.cut (p := Kept z x.1) ?_ (fun _ => ?_)
       on_goal 1 => dsimp -zeta only [x]; clear x
       on_goal 2 => try clear_value x
       on_goal 2 => rename' x => y)
    | (extract_lets +onlyGivenNames x; refine Kept.ofFun x ?_; dsimp -zeta only [x]; clear x)
    | (extract_lets +onlyGivenNames x; rename' x => y)
    | with_reducible apply fallbackNext_kept
    | with_reducible apply endMm_kept
    | (with_reducible refine Kept.lit (by assumption) ?_; rfl)
    | split
    | (clear_value *; split)
    | (with_reducible refine Kept.lit ?_ ?_; on_goal 2 => rfl
       with_reducible first | apply fallbackNext_kept | apply endMm_kept)
    | with_reducible refine Kept.ofPair (by assumption) ?_
    | dsimp -zeta only)

theorem execMmComplete_kept {p : Nat} {faults : List MacFault} {s : State} {z : State} (h : Kept z s) :
    KeptOut z (execMmComplete p faults s) := by
  unfold execMmComplete
  repeat' (first
    | (intro z; intros; try beta_reduce)
    | with_reducible assumption
    | with_reducible apply onStall_kept
    | with_reducible apply mmComplete_kept
    | with_reducible apply KeptOut.next
    | with_reducible exact KeptOut.fault _
    | (with_reducible refine Kept.lit (by assumption) ?_; rfl)
    | split
    | (clear_value *; split)
    | dsimp -zeta only)

theorem endGeVote_kept {s : State} {p : Nat} {z : State} (h : Kept z s) :
    Kept z (endGeVote s p) := by
  unfold endGeVote
  repeat' (first
    | (intro z; intros; try beta_reduce)
    | with_reducible assumption
    | (extract_lets +onlyGivenNames x; refine Kept.cut (p := Kept z x) ?_ (fun _ => ?_)
       on_goal 1 => dsimp -zeta only [x]; clear x
       on_goal 2 => try clear_value x
       on_goal 2 => rename' x => y)
    | (extract_lets +onlyGivenNames x; refine Kept.cut (p := Kept z x.1) ?_ (fun _ => ?_)
       on_goal 1 => dsimp -zeta only [x]; clear x
       on_goal 2 => try clear_value x
       on_goal 2 => rename' x => y)
    | (extract_lets +onlyGivenNames x; refine Kept.ofFun x ?_; dsimp -zeta only [x]; clear x)
    | (extract_lets +onlyGivenNames x; rename' x => y)
    | with_reducible apply modStall_kept
    | with_reducible apply dropMm_kept
    | with_reducible apply setF_kept
    | (with_reducible refine Kept.lit (by assumption) ?_; rfl)
    | split
    | (clear_value *; split)
    | (with_reducible refine Kept.lit ?_ ?_; on_goal 2 => rfl
       with_reducible first | apply modStall_kept | apply dropMm_kept | apply setF_kept)
    | dsimp -zeta only)

theorem geDecided_kept {s : State} {p : Nat} {outcome : Nat} {col : Nat} {z : State} (h : Kept z s) :
    Kept z (geDecided s p outcome col) := by
  unfold geDecided
  repeat' (first
    | (intro z; intros; try beta_reduce)
    | with_reducible assumption
    | (extract_lets +onlyGivenNames x; refine Kept.cut (p := Kept z x) ?_ (fun _ => ?_)
       on_goal 1 => dsimp -zeta only [x]; clear x
       on_goal 2 => try clear_value x
       on_goal 2 => rename' x => y)
    | (extract_lets +onlyGivenNames x; refine Kept.cut (p := Kept z x.1) ?_ (fun _ => ?_)
       on_goal 1 => dsimp -zeta only [x]; clear x
       on_goal 2 => try clear_value x
       on_goal 2 => rename' x => y)
    | (extract_lets +onlyGivenNames x; refine Kept.ofFun x ?_; dsimp -zeta only [x]; clear x)
    | (extract_lets +onlyGivenNames x; rename' x => y)
    | with_reducible apply bumpF_kept
    | with_reducible apply showVote_kept
    | with_reducible apply strikeGe_kept
    | with_reducible apply raise_kept
    | (with_reducible refine Kept.lit (by assumption) ?_; rfl)
    | split
    | (clear_value *; split)
    | dsimp -zeta only)

theorem decideTile_kept {s : State} {p : Nat} {g : GeVote} {faults : List MacFault} {z : State} (h : Kept z s) :
    Kept z (decideTile s p g faults) := by
  unfold decideTile
  repeat' (first
    | (intro z; intros; try beta_reduce)
    | with_reducible assumption
    | (extract_lets +onlyGivenNames x; refine Kept.cut (p := Kept z x) ?_ (fun _ => ?_)
       on_goal 1 => dsimp -zeta only [x]; clear x
       on_goal 2 => try clear_value x
       on_goal 2 => rename' x => y)
    | (extract_lets +onlyGivenNames x; refine Kept.cut (p := Kept z x.1) ?_ (fun _ => ?_)
       on_goal 1 => dsimp -zeta only [x]; clear x
       on_goal 2 => try clear_value x
       on_goal 2 => rename' x => y)
    | (extract_lets +onlyGivenNames x; refine Kept.ofFun x ?_; dsimp -zeta only [x]; clear x)
    | (extract_lets +onlyGivenNames x; rename' x => y)
    | with_reducible apply stopMm_kept
    | with_reducible apply endGeVote_kept
    | with_reducible apply strikeGe_kept
    | with_reducible apply noMajority_kept
    | with_reducible apply macTrap_kept
    | with_reducible apply geDecided_kept
    | with_reducible apply writeTile_kept
    | (with_reducible refine Kept.lit (by assumption) ?_; rfl)
    | split
    | (clear_value *; split)
    | (with_reducible refine Kept.lit ?_ ?_; on_goal 2 => rfl
       with_reducible first | apply stopMm_kept | apply endGeVote_kept | apply strikeGe_kept | apply noMajority_kept | apply macTrap_kept | apply geDecided_kept | apply writeTile_kept)
    | with_reducible refine Kept.ofPair (by assumption) ?_
    | dsimp -zeta only)

theorem decideToken_kept {s : State} {p : Nat} {g : GeVote} {o : TileOp} {faults : List MacFault} {z : State} (h : Kept z s) :
    Kept z (decideToken s p g o faults) := by
  unfold decideToken
  repeat' (first
    | (intro z; intros; try beta_reduce)
    | with_reducible assumption
    | (extract_lets +onlyGivenNames x; refine Kept.cut (p := Kept z x) ?_ (fun _ => ?_)
       on_goal 1 => dsimp -zeta only [x]; clear x
       on_goal 2 => try clear_value x
       on_goal 2 => rename' x => y)
    | (extract_lets +onlyGivenNames x; refine Kept.cut (p := Kept z x.1) ?_ (fun _ => ?_)
       on_goal 1 => dsimp -zeta only [x]; clear x
       on_goal 2 => try clear_value x
       on_goal 2 => rename' x => y)
    | (extract_lets +onlyGivenNames x; refine Kept.ofFun x ?_; dsimp -zeta only [x]; clear x)
    | (extract_lets +onlyGivenNames x; rename' x => y)
    | with_reducible apply endGeVote_kept
    | with_reducible apply readChecked_kept
    | with_reducible apply corruptStop_kept
    | with_reducible apply strikeGe_kept
    | with_reducible apply noMajority_kept
    | with_reducible apply geDecided_kept
    | with_reducible apply resultTrap_kept
    | with_reducible apply releaseToken_kept
    | (with_reducible refine Kept.lit (by assumption) ?_; rfl)
    | split
    | (clear_value *; split)
    | (with_reducible refine Kept.lit ?_ ?_; on_goal 2 => rfl
       with_reducible first | apply endGeVote_kept | apply readChecked_kept | apply corruptStop_kept | apply strikeGe_kept | apply noMajority_kept | apply geDecided_kept | apply resultTrap_kept | apply releaseToken_kept)
    | with_reducible refine Kept.ofPair (by assumption) ?_
    | dsimp -zeta only)

theorem geVoteDecided_kept {p : Nat} {faults : List MacFault} {s : State} {z : State} (h : Kept z s) :
    Kept z (geVoteDecided p faults s) := by
  unfold geVoteDecided
  repeat' (first
    | (intro z; intros; try beta_reduce)
    | with_reducible assumption
    | (extract_lets +onlyGivenNames x; refine Kept.cut (p := Kept z x) ?_ (fun _ => ?_)
       on_goal 1 => dsimp -zeta only [x]; clear x
       on_goal 2 => try clear_value x
       on_goal 2 => rename' x => y)
    | (extract_lets +onlyGivenNames x; refine Kept.cut (p := Kept z x.1) ?_ (fun _ => ?_)
       on_goal 1 => dsimp -zeta only [x]; clear x
       on_goal 2 => try clear_value x
       on_goal 2 => rename' x => y)
    | (extract_lets +onlyGivenNames x; refine Kept.ofFun x ?_; dsimp -zeta only [x]; clear x)
    | (extract_lets +onlyGivenNames x; rename' x => y)
    | with_reducible apply decideToken_kept
    | with_reducible apply decideTile_kept
    | (with_reducible refine Kept.lit (by assumption) ?_; rfl)
    | split
    | (clear_value *; split)
    | (with_reducible refine Kept.lit ?_ ?_; on_goal 2 => rfl
       with_reducible first | apply decideToken_kept | apply decideTile_kept)
    | with_reducible refine Kept.ofPair (by assumption) ?_
    | dsimp -zeta only)

theorem execGeVoteDecided_kept {p : Nat} {faults : List MacFault} {s : State} {z : State} (h : Kept z s) :
    KeptOut z (execGeVoteDecided p faults s) := by
  unfold execGeVoteDecided
  repeat' (first
    | (intro z; intros; try beta_reduce)
    | with_reducible assumption
    | with_reducible apply onStall_kept
    | with_reducible apply geVoteDecided_kept
    | with_reducible apply KeptOut.next
    | with_reducible exact KeptOut.fault _
    | (with_reducible refine Kept.lit (by assumption) ?_; rfl)
    | split
    | (clear_value *; split)
    | dsimp -zeta only)

theorem setTout_kept {s : State} {p : Nat} {o : ToutOp} {z : State} (h : Kept z s) :
    Kept z (setTout s p o) := by
  unfold setTout
  repeat' (first
    | (intro z; intros; try beta_reduce)
    | with_reducible assumption
    | (extract_lets +onlyGivenNames x; refine Kept.cut (p := Kept z x) ?_ (fun _ => ?_)
       on_goal 1 => dsimp -zeta only [x]; clear x
       on_goal 2 => try clear_value x
       on_goal 2 => rename' x => y)
    | (extract_lets +onlyGivenNames x; refine Kept.cut (p := Kept z x.1) ?_ (fun _ => ?_)
       on_goal 1 => dsimp -zeta only [x]; clear x
       on_goal 2 => try clear_value x
       on_goal 2 => rename' x => y)
    | (extract_lets +onlyGivenNames x; refine Kept.ofFun x ?_; dsimp -zeta only [x]; clear x)
    | (extract_lets +onlyGivenNames x; rename' x => y)
    | with_reducible apply modStall_kept
    | (with_reducible refine Kept.lit (by assumption) ?_; rfl)
    | split
    | (clear_value *; split)
    | (with_reducible refine Kept.lit ?_ ?_; on_goal 2 => rfl
       with_reducible first | apply modStall_kept)
    | dsimp -zeta only)

theorem handOn_kept {s : State} {p : Nat} {pl : Placement} {o : ToutOp} {z : State} (h : Kept z s) :
    Kept z (handOn s p pl o) := by
  unfold handOn
  repeat' (first
    | (intro z; intros; try beta_reduce)
    | with_reducible assumption
    | (extract_lets +onlyGivenNames x; refine Kept.cut (p := Kept z x) ?_ (fun _ => ?_)
       on_goal 1 => dsimp -zeta only [x]; clear x
       on_goal 2 => try clear_value x
       on_goal 2 => rename' x => y)
    | (extract_lets +onlyGivenNames x; refine Kept.cut (p := Kept z x.1) ?_ (fun _ => ?_)
       on_goal 1 => dsimp -zeta only [x]; clear x
       on_goal 2 => try clear_value x
       on_goal 2 => rename' x => y)
    | (extract_lets +onlyGivenNames x; refine Kept.ofFun x ?_; dsimp -zeta only [x]; clear x)
    | (extract_lets +onlyGivenNames x; rename' x => y)
    | with_reducible apply setBank_kept
    | (with_reducible refine Kept.lit (by assumption) ?_; rfl)
    | split
    | (clear_value *; split)
    | (with_reducible refine Kept.lit ?_ ?_; on_goal 2 => rfl
       with_reducible first | apply setBank_kept)
    | dsimp -zeta only)

theorem runTout_kept {p : Nat} {s : State} {w : Nat} {z : State} (h : Kept z s) :
    Kept z (runTout p s w) := by
  unfold runTout
  repeat' (first
    | (intro z; intros; try beta_reduce)
    | with_reducible assumption
    | (extract_lets +onlyGivenNames x; refine Kept.cut (p := Kept z x) ?_ (fun _ => ?_)
       on_goal 1 => dsimp -zeta only [x]; clear x
       on_goal 2 => try clear_value x
       on_goal 2 => rename' x => y)
    | (extract_lets +onlyGivenNames x; refine Kept.cut (p := Kept z x.1) ?_ (fun _ => ?_)
       on_goal 1 => dsimp -zeta only [x]; clear x
       on_goal 2 => try clear_value x
       on_goal 2 => rename' x => y)
    | (extract_lets +onlyGivenNames x; refine Kept.ofFun x ?_; dsimp -zeta only [x]; clear x)
    | (extract_lets +onlyGivenNames x; rename' x => y)
    | with_reducible apply faultIns_kept
    | with_reducible apply setBank_kept
    | with_reducible apply modStall_kept
    | with_reducible apply advance_kept
    | with_reducible apply handOn_kept
    | (with_reducible refine Kept.lit (by assumption) ?_; rfl)
    | split
    | (clear_value *; split)
    | (with_reducible refine Kept.lit ?_ ?_; on_goal 2 => rfl
       with_reducible first | apply faultIns_kept | apply setBank_kept | apply modStall_kept | apply advance_kept | apply handOn_kept)
    | with_reducible refine Kept.ofPair (by assumption) ?_
    | dsimp -zeta only)

theorem execTout_kept {p : Nat} {s : State} {z : State} (h : Kept z s) :
    KeptOut z (execTout p s) := by
  unfold execTout
  repeat' (first
    | (intro z; intros; try beta_reduce)
    | with_reducible assumption
    | with_reducible apply issue_kept
    | with_reducible apply runTout_kept
    | with_reducible apply KeptOut.next
    | with_reducible exact KeptOut.fault _
    | (with_reducible refine Kept.lit (by assumption) ?_; rfl)
    | split
    | (clear_value *; split)
    | dsimp -zeta only)

theorem pullRow_kept {s : State} {p : Nat} {own : ToutOp} {pl x : Placement} {c : ToutOp} {i : Nat} {z : State}
    {r : State × Bytes} (h : Kept z s) (e : pullRow s p own pl x c i = .ok r) : Kept z r.1 := by
  unfold pullRow at e
  dsimp only at e
  split at e
  · cases e
  · split at e
    · cases e
    · cases e; exact convertRule_kept h

theorem pullRow_trap {s t : State} {p : Nat} {own : ToutOp} {pl x : Placement} {c : ToutOp} {i : Nat} {z : State}
    {f : State → State} (e : pullRow s p own pl x c i = .error f) (h : Kept z t) : Kept z (f t) := by
  unfold pullRow at e
  dsimp only at e
  split at e
  · cases e; exact trap_kept h
  · split at e
    · cases e; exact trap_kept (trapBits_kept h)
    · cases e

theorem pullRows_kept {p : Nat} {own : ToutOp} {pl x : Placement} {c : ToutOp} {n i : Nat} {s : State} {z : State}
    {r : State × List (Nat × Bytes)} (h : Kept z s) (e : pullRows p own pl x c n i s = .ok r) : Kept z r.1 := by
  induction n generalizing i s r with
  | zero => cases e; exact h
  | succ n ih =>
    unfold pullRows at e
    split at e
    · cases e
    · rename_i h1
      split at e
      · cases e
      · rename_i h2
        cases e
        have hk := ih (pullRow_kept h h1) h2
        exact hk

theorem pullRows_trap {p : Nat} {own : ToutOp} {pl x : Placement} {c : ToutOp} {n i : Nat} {s t : State} {z : State}
    {f : State → State} (e : pullRows p own pl x c n i s = .error f) (h : Kept z t) : Kept z (f t) := by
  induction n generalizing i s with
  | zero => cases e
  | succ n ih =>
    unfold pullRows at e
    split at e
    · rename_i h1
      cases e; exact pullRow_trap h1 h
    · split at e
      · rename_i h2
        cases e; exact ih h2
      · cases e

theorem bankRead_kept {s : State} {p : Nat} {b : Nat} {z : State} (h : Kept z s) :
    Kept z (bankRead s p b).1 := by
  unfold bankRead
  repeat' (first
    | (intro z; intros; try beta_reduce)
    | with_reducible assumption
    | with_reducible apply checkBrands_kept
    | (with_reducible refine Kept.lit (by assumption) ?_; rfl)
    | dsimp -zeta only)

theorem partialPull_kept {p : Nat} {s : State} {z : State} (h : Kept z s) :
    Kept z (partialPull p s) := by
  unfold partialPull
  repeat' (first
    | (intro z; intros; try beta_reduce)
    | with_reducible assumption
    | (extract_lets +onlyGivenNames x; refine Kept.cut (p := Kept z x) ?_ (fun _ => ?_)
       on_goal 1 => dsimp -zeta only [x]; clear x
       on_goal 2 => try clear_value x
       on_goal 2 => rename' x => y)
    | (extract_lets +onlyGivenNames x; refine Kept.cut (p := Kept z x.1) ?_ (fun _ => ?_)
       on_goal 1 => dsimp -zeta only [x]; clear x
       on_goal 2 => try clear_value x
       on_goal 2 => rename' x => y)
    | (extract_lets +onlyGivenNames x; refine Kept.ofFun x ?_; dsimp -zeta only [x]; clear x)
    | (extract_lets +onlyGivenNames x; rename' x => y)
    | with_reducible apply handOn_kept
    | with_reducible apply bankRead_kept
    | with_reducible apply corruptStop_kept
    | with_reducible apply forEach_kept
    | with_reducible apply write_kept
    | with_reducible apply setBank_kept
    | with_reducible apply modStall_kept
    | with_reducible apply setTout_kept
    | (with_reducible refine Kept.lit (by assumption) ?_; rfl)
    | split
    | (clear_value *; split)
    | (with_reducible refine Kept.lit ?_ ?_; on_goal 2 => rfl
       with_reducible first | apply handOn_kept | apply bankRead_kept | apply corruptStop_kept | apply forEach_kept | apply write_kept | apply setBank_kept | apply modStall_kept | apply setTout_kept)
    | with_reducible refine Kept.ofPair (by assumption) ?_
    | exact pullRows_trap ‹_› (by assumption)
    | exact pullRows_kept (by assumption) ‹_›
    | dsimp -zeta only)

theorem execTroughPartialPull_kept {p : Nat} {s : State} {z : State} (h : Kept z s) :
    KeptOut z (execTroughPartialPull p s) := by
  unfold execTroughPartialPull
  repeat' (first
    | (intro z; intros; try beta_reduce)
    | with_reducible assumption
    | with_reducible apply onStall_kept
    | with_reducible apply partialPull_kept
    | with_reducible apply KeptOut.next
    | with_reducible exact KeptOut.fault _
    | (with_reducible refine Kept.lit (by assumption) ?_; rfl)
    | split
    | (clear_value *; split)
    | dsimp -zeta only)

theorem waitOne_kept {p : Nat} {s : State} {o : ToutOp} {z : State} (h : Kept z s) :
    Kept z (waitOne p s o) := by
  unfold waitOne
  repeat' (first
    | (intro z; intros; try beta_reduce)
    | with_reducible assumption
    | (extract_lets +onlyGivenNames x; refine Kept.cut (p := Kept z x) ?_ (fun _ => ?_)
       on_goal 1 => dsimp -zeta only [x]; clear x
       on_goal 2 => try clear_value x
       on_goal 2 => rename' x => y)
    | (extract_lets +onlyGivenNames x; refine Kept.cut (p := Kept z x.1) ?_ (fun _ => ?_)
       on_goal 1 => dsimp -zeta only [x]; clear x
       on_goal 2 => try clear_value x
       on_goal 2 => rename' x => y)
    | (extract_lets +onlyGivenNames x; refine Kept.ofFun x ?_; dsimp -zeta only [x]; clear x)
    | (extract_lets +onlyGivenNames x; rename' x => y)
    | with_reducible apply raiseOnce_kept
    | (with_reducible refine Kept.lit (by assumption) ?_; rfl)
    | split
    | (clear_value *; split)
    | (with_reducible refine Kept.lit ?_ ?_; on_goal 2 => rfl
       with_reducible first | apply raiseOnce_kept)
    | with_reducible refine Kept.ofPair (by assumption) ?_
    | dsimp -zeta only)

theorem partialWait_kept {p : Nat} {s : State} {z : State} (h : Kept z s) :
    Kept z (partialWait p s) := by
  unfold partialWait
  repeat' (first
    | (intro z; intros; try beta_reduce)
    | with_reducible assumption
    | with_reducible apply forEach_kept
    | with_reducible apply waitOne_kept
    | (with_reducible refine Kept.lit (by assumption) ?_; rfl)
    | dsimp -zeta only)

theorem execPartialWait_kept {p : Nat} {s : State} {z : State} (h : Kept z s) :
    KeptOut z (execPartialWait p s) := by
  unfold execPartialWait
  repeat' (first
    | (intro z; intros; try beta_reduce)
    | with_reducible assumption
    | with_reducible apply onStall_kept
    | with_reducible apply partialWait_kept
    | with_reducible apply KeptOut.next
    | with_reducible exact KeptOut.fault _
    | (with_reducible refine Kept.lit (by assumption) ?_; rfl)
    | split
    | (clear_value *; split)
    | dsimp -zeta only)

end Sys2Proof.Machine
end

