-- ==== Sys2Proof/Laws/KeptMesh.lean ====
section
/-! SUPPORT. Laws/KeptMesh.lean: what every operation of Machine/Mesh.lean keeps (Laws/Kept.lean). -/
namespace Sys2Proof.Machine
open Sys2Proof

theorem meshGrant_kept {s : State} {barn : Nat} {z : State} (h : Kept z s) :
    Kept z (meshGrant s barn).1 := by
  unfold meshGrant
  repeat' (first
    | (intro z; intros; try beta_reduce)
    | with_reducible assumption
    | (extract_lets +onlyGivenNames x; refine Kept.cut (p := Kept z x) ?_ (fun _ => ?_)
       on_goal 1 => dsimp -zeta only [x]; clear x
       on_goal 2 => try clear_value x
       on_goal 2 => rename' x => y)
    | (extract_lets +onlyGivenNames x; refine Kept.cut (p := Kept z x.1) ?_ (fun _ => ?_)
       on_goal 1 => dsimp -zeta only [x]; clear x
       on_goal 2 => try clear_value x
       on_goal 2 => rename' x => y)
    | (extract_lets +onlyGivenNames x; refine Kept.ofFun x ?_; dsimp -zeta only [x]; clear x)
    | (extract_lets +onlyGivenNames x; rename' x => y)
    | (with_reducible refine Kept.lit (by assumption) ?_; rfl)
    | with_reducible apply Kept.foldl
    | with_reducible apply Kept.foldl_fst
    | split
    | (clear_value *; split)
    | with_reducible refine Kept.ofPair (by assumption) ?_
    | dsimp -zeta only)

theorem meshSet_kept {s : State} {xi : MeshItem} {yi : MeshItem} {z : State} (h : Kept z s) :
    Kept z (meshSet s xi yi) := by
  unfold meshSet
  repeat' (first
    | (intro z; intros; try beta_reduce)
    | with_reducible assumption
    | (extract_lets +onlyGivenNames x; refine Kept.cut (p := Kept z x) ?_ (fun _ => ?_)
       on_goal 1 => dsimp -zeta only [x]; clear x
       on_goal 2 => try clear_value x
       on_goal 2 => rename' x => y)
    | (extract_lets +onlyGivenNames x; refine Kept.cut (p := Kept z x.1) ?_ (fun _ => ?_)
       on_goal 1 => dsimp -zeta only [x]; clear x
       on_goal 2 => try clear_value x
       on_goal 2 => rename' x => y)
    | (extract_lets +onlyGivenNames x; refine Kept.ofFun x ?_; dsimp -zeta only [x]; clear x)
    | (extract_lets +onlyGivenNames x; rename' x => y)
    | (with_reducible refine Kept.lit (by assumption) ?_; rfl)
    | split
    | (clear_value *; split)
    | dsimp -zeta only)

theorem meshMove_kept {s : State} {xi : MeshItem} {dest : MeshPlace} {z : State} (h : Kept z s) :
    Kept z (meshMove s xi dest) := by
  unfold meshMove
  repeat' (first
    | (intro z; intros; try beta_reduce)
    | with_reducible assumption
    | (extract_lets +onlyGivenNames x; refine Kept.cut (p := Kept z x) ?_ (fun _ => ?_)
       on_goal 1 => dsimp -zeta only [x]; clear x
       on_goal 2 => try clear_value x
       on_goal 2 => rename' x => y)
    | (extract_lets +onlyGivenNames x; refine Kept.cut (p := Kept z x.1) ?_ (fun _ => ?_)
       on_goal 1 => dsimp -zeta only [x]; clear x
       on_goal 2 => try clear_value x
       on_goal 2 => rename' x => y)
    | (extract_lets +onlyGivenNames x; refine Kept.ofFun x ?_; dsimp -zeta only [x]; clear x)
    | (extract_lets +onlyGivenNames x; rename' x => y)
    | (with_reducible refine Kept.lit (by assumption) ?_; rfl)
    | dsimp -zeta only)

theorem crossSegment_kept {barn n : Nat} {f : TokFrame} {s t : State} {z : State} (h : Kept z s)
    (e : crossSegment barn f n s = some t) : Kept z t := by
  induction n generalizing s with
  | zero => cases e
  | succ n ih =>
    unfold crossSegment at e
    extract_lets g at e
    have hg : Kept z g.1 := meshGrant_kept h
    split at e
    · cases e
    · split at e
      · exact ih (meshSet_kept hg) e
      · extract_lets d u at e
        have hu : Kept z u := meshMove_kept hg
        clear_value u
        split at e
        · cases e; exact hu
        · split at e
          · cases e
          · exact ih hu e

theorem crossBridges_kept {n : Nat} {f : TokFrame} {s t : State} {z : State} (h : Kept z s)
    (e : crossBridges f n s = some t) : Kept z t := by
  induction n generalizing s with
  | zero => cases e
  | succ n ih =>
    unfold crossBridges at e
    split at e
    · cases e
    · split at e
      · cases e; exact h
      · cases e
      · split at e
        · cases e
        · extract_lets d u v at e
          split at e
          · cases e
          · refine ih ?_ e
            exact meshMove_kept (h.same rfl)

theorem meshEnter_kept {s : State} {f : TokFrame} {z : State} (h : Kept z s) :
    Kept z (meshEnter s f) := by
  unfold meshEnter
  repeat' (first
    | (intro z; intros; try beta_reduce)
    | with_reducible assumption
    | (extract_lets +onlyGivenNames x; refine Kept.cut (p := Kept z x) ?_ (fun _ => ?_)
       on_goal 1 => dsimp -zeta only [x]; clear x
       on_goal 2 => try clear_value x
       on_goal 2 => rename' x => y)
    | (extract_lets +onlyGivenNames x; refine Kept.cut (p := Kept z x.1) ?_ (fun _ => ?_)
       on_goal 1 => dsimp -zeta only [x]; clear x
       on_goal 2 => try clear_value x
       on_goal 2 => rename' x => y)
    | (extract_lets +onlyGivenNames x; refine Kept.ofFun x ?_; dsimp -zeta only [x]; clear x)
    | (extract_lets +onlyGivenNames x; rename' x => y)
    | (with_reducible refine Kept.lit (by assumption) ?_; rfl)
    | dsimp -zeta only)

theorem meshHold_kept {s : State} {f : TokFrame} {z : State} (h : Kept z s) :
    Kept z (meshHold s f) := by
  unfold meshHold
  repeat' (first
    | (intro z; intros; try beta_reduce)
    | with_reducible assumption
    | (extract_lets +onlyGivenNames x; refine Kept.cut (p := Kept z x) ?_ (fun _ => ?_)
       on_goal 1 => dsimp -zeta only [x]; clear x
       on_goal 2 => try clear_value x
       on_goal 2 => rename' x => y)
    | (extract_lets +onlyGivenNames x; refine Kept.cut (p := Kept z x.1) ?_ (fun _ => ?_)
       on_goal 1 => dsimp -zeta only [x]; clear x
       on_goal 2 => try clear_value x
       on_goal 2 => rename' x => y)
    | (extract_lets +onlyGivenNames x; refine Kept.ofFun x ?_; dsimp -zeta only [x]; clear x)
    | (extract_lets +onlyGivenNames x; rename' x => y)
    | (with_reducible refine Kept.lit (by assumption) ?_; rfl)
    | dsimp -zeta only)

theorem meshTake_kept {f : TokFrame} {s t : State} {z : State} (h : Kept z s) (e : meshTake s f = some t) : Kept z t := by
  unfold meshTake at e
  extract_lets n at e
  split at e
  · cases e
  · extract_lets o at e
    obtain ⟨u, ho, e⟩ := Option.bind_eq_some_iff.mp e
    have hu : Kept z u := by
      dsimp -zeta only [o] at ho
      split at ho
      · obtain ⟨v, hv, ho⟩ := Option.bind_eq_some_iff.mp ho
        exact crossBridges_kept (crossSegment_kept h hv) ho
      · exact crossBridges_kept h ho
    split at e
    · split at e
      · cases e; exact hu.same rfl
      · cases e
    · cases e

end Sys2Proof.Machine
end

