-- ==== Sys2Proof/Laws/KeptRing.lean ====
section
/-! SUPPORT. Laws/KeptRing.lean: what every operation of Machine/Ring.lean keeps (Laws/Kept.lean). -/
namespace Sys2Proof.Machine
open Sys2Proof

theorem doorbell_kept {r : Nat} {v : Nat} {s : State} {z : State} (h : Kept z s) :
    Kept z (doorbell r v s) := by
  unfold doorbell
  repeat' (first
    | (intro z; intros; try beta_reduce)
    | with_reducible assumption
    | with_reducible apply setF_kept
    | (with_reducible refine Kept.lit (by assumption) ?_; rfl)
    | split
    | (clear_value *; split)
    | dsimp -zeta only)

theorem execRingDoorbell_kept {ring : Nat} {producer : Nat} {s : State} {z : State} (h : Kept z s) :
    KeptOut z (execRingDoorbell ring producer s) := by
  unfold execRingDoorbell
  repeat' (first
    | (intro z; intros; try beta_reduce)
    | with_reducible assumption
    | with_reducible apply onUnit_kept
    | with_reducible apply doorbell_kept
    | with_reducible apply KeptOut.next
    | with_reducible exact KeptOut.fault _
    | (with_reducible refine Kept.lit (by assumption) ?_; rfl)
    | split
    | (clear_value *; split)
    | dsimp -zeta only)

theorem ringCfg_kept {r : Nat} {v : Nat} {s : State} {z : State} (h : Kept z s) :
    Kept z (ringCfg r v s) := by
  unfold ringCfg
  repeat' (first
    | (intro z; intros; try beta_reduce)
    | with_reducible assumption
    | with_reducible apply setF_kept
    | (with_reducible refine Kept.lit (by assumption) ?_; rfl)
    | split
    | (clear_value *; split)
    | dsimp -zeta only)

theorem execRingCfgWrite_kept {ring : Nat} {value : Nat} {s : State} {z : State} (h : Kept z s) :
    KeptOut z (execRingCfgWrite ring value s) := by
  unfold execRingCfgWrite
  repeat' (first
    | (intro z; intros; try beta_reduce)
    | with_reducible assumption
    | with_reducible apply onUnit_kept
    | with_reducible apply ringCfg_kept
    | with_reducible apply KeptOut.next
    | with_reducible exact KeptOut.fault _
    | (with_reducible refine Kept.lit (by assumption) ?_; rfl)
    | split
    | (clear_value *; split)
    | dsimp -zeta only)

theorem evtCfg_kept {v : Nat} {s : State} {z : State} (h : Kept z s) :
    Kept z (evtCfg v s) := by
  unfold evtCfg
  repeat' (first
    | (intro z; intros; try beta_reduce)
    | with_reducible assumption
    | with_reducible apply setFs_kept
    | (with_reducible refine Kept.lit (by assumption) ?_; rfl)
    | split
    | (clear_value *; split)
    | dsimp -zeta only)

theorem execEvtCfgWrite_kept {value : Nat} {s : State} {z : State} (h : Kept z s) :
    KeptOut z (execEvtCfgWrite value s) := by
  unfold execEvtCfgWrite
  repeat' (first
    | (intro z; intros; try beta_reduce)
    | with_reducible assumption
    | with_reducible apply inModule_kept
    | with_reducible apply evtCfg_kept
    | with_reducible apply KeptOut.next
    | with_reducible exact KeptOut.fault _
    | (with_reducible refine Kept.lit (by assumption) ?_; rfl)
    | split
    | (clear_value *; split)
    | dsimp -zeta only)

theorem evtConsumer_kept {v : Nat} {s : State} {z : State} (h : Kept z s) :
    Kept z (evtConsumer v s) := by
  unfold evtConsumer
  repeat' (first
    | (intro z; intros; try beta_reduce)
    | with_reducible assumption
    | with_reducible apply setF_kept
    | (with_reducible refine Kept.lit (by assumption) ?_; rfl)
    | split
    | (clear_value *; split)
    | dsimp -zeta only)

theorem execEvtConsumerWrite_kept {value : Nat} {s : State} {z : State} (h : Kept z s) :
    KeptOut z (execEvtConsumerWrite value s) := by
  unfold execEvtConsumerWrite
  repeat' (first
    | (intro z; intros; try beta_reduce)
    | with_reducible assumption
    | with_reducible apply inModule_kept
    | with_reducible apply evtConsumer_kept
    | with_reducible apply KeptOut.next
    | with_reducible exact KeptOut.fault _
    | (with_reducible refine Kept.lit (by assumption) ?_; rfl)
    | split
    | (clear_value *; split)
    | dsimp -zeta only)

theorem takeCmd_kept {ring : Nat} {op : Nat} {s : State} {run : State → CmdRec → State} (h_run : ∀ z a0 a1, Kept z a0 → Kept z (run a0 a1)) {z : State} (h : Kept z s) :
    KeptOut z (takeCmd ring op s run) := by
  unfold takeCmd
  repeat' (first
    | (intro z; intros; try beta_reduce)
    | with_reducible assumption
    | (extract_lets +onlyGivenNames x; refine Kept.cut (p := Kept z x) ?_ (fun _ => ?_)
       on_goal 1 => dsimp -zeta only [x]; clear x
       on_goal 2 => try clear_value x
       on_goal 2 => rename' x => y)
    | (extract_lets +onlyGivenNames x; refine Kept.cut (p := Kept z x.1) ?_ (fun _ => ?_)
       on_goal 1 => dsimp -zeta only [x]; clear x
       on_goal 2 => try clear_value x
       on_goal 2 => rename' x => y)
    | (extract_lets +onlyGivenNames x; refine Kept.ofFun x ?_; dsimp -zeta only [x]; clear x)
    | (extract_lets +onlyGivenNames x; rename' x => y)
    | with_reducible apply onUnit_kept
    | with_reducible apply setF_kept
    | with_reducible apply complete_kept
    | with_reducible apply h_run
    | with_reducible apply KeptOut.next
    | with_reducible exact KeptOut.fault _
    | (with_reducible refine Kept.lit (by assumption) ?_; rfl)
    | split
    | (clear_value *; split)
    | dsimp -zeta only)

theorem legalIn_kept {ok : Bool} {s : State} {c : CmdRec} {run : State → CmdRec → State} (h_run : ∀ z a0 a1, Kept z a0 → Kept z (run a0 a1)) {z : State} (h : Kept z s) :
    Kept z (legalIn ok s c run) := by
  unfold legalIn
  repeat' (first
    | (intro z; intros; try beta_reduce)
    | with_reducible assumption
    | with_reducible apply complete_kept
    | with_reducible apply h_run
    | (with_reducible refine Kept.lit (by assumption) ?_; rfl)
    | split
    | (clear_value *; split)
    | dsimp -zeta only)

theorem planChecked_kept {s : State} {c : CmdRec} {run : State → CmdRec → State} (h_run : ∀ z a0 a1, Kept z a0 → Kept z (run a0 a1)) {z : State} (h : Kept z s) :
    Kept z (planChecked s c run) := by
  unfold planChecked
  repeat' (first
    | (intro z; intros; try beta_reduce)
    | with_reducible assumption
    | with_reducible apply planMismatch_kept
    | with_reducible apply complete_kept
    | with_reducible apply h_run
    | (with_reducible refine Kept.lit (by assumption) ?_; rfl)
    | split
    | (clear_value *; split)
    | with_reducible refine Kept.ofPair (by assumption) ?_
    | dsimp -zeta only)

theorem startLong_kept {s : State} {c : CmdRec} {due : Option Nat} {count : Nat} {z : State} (h : Kept z s) :
    Kept z (startLong s c due count) := by
  unfold startLong
  repeat' (first
    | (intro z; intros; try beta_reduce)
    | with_reducible assumption
    | (extract_lets +onlyGivenNames x; refine Kept.cut (p := Kept z x) ?_ (fun _ => ?_)
       on_goal 1 => dsimp -zeta only [x]; clear x
       on_goal 2 => try clear_value x
       on_goal 2 => rename' x => y)
    | (extract_lets +onlyGivenNames x; refine Kept.cut (p := Kept z x.1) ?_ (fun _ => ?_)
       on_goal 1 => dsimp -zeta only [x]; clear x
       on_goal 2 => try clear_value x
       on_goal 2 => rename' x => y)
    | (extract_lets +onlyGivenNames x; refine Kept.ofFun x ?_; dsimp -zeta only [x]; clear x)
    | (extract_lets +onlyGivenNames x; rename' x => y)
    | (with_reducible refine Kept.lit (by assumption) ?_; rfl)
    | dsimp -zeta only)

theorem startRunning_kept {s : State} {c : CmdRec} {z : State} (h : Kept z s) :
    Kept z (startRunning s c) := by
  unfold startRunning
  repeat' (first
    | (intro z; intros; try beta_reduce)
    | with_reducible assumption
    | with_reducible apply startLong_kept
    | (with_reducible refine Kept.lit (by assumption) ?_; rfl)
    | dsimp -zeta only)

theorem execNop_kept {ring : Nat} {s : State} {z : State} (h : Kept z s) :
    KeptOut z (execNop ring s) := by
  unfold execNop
  repeat' (first
    | (intro z; intros; try beta_reduce)
    | with_reducible assumption
    | with_reducible apply takeCmd_kept
    | with_reducible apply complete_kept
    | with_reducible apply KeptOut.next
    | with_reducible exact KeptOut.fault _
    | (with_reducible refine Kept.lit (by assumption) ?_; rfl)
    | split
    | (clear_value *; split)
    | dsimp -zeta only)

theorem haltCmd_kept {s : State} {c : CmdRec} {z : State} (h : Kept z s) :
    Kept z (haltCmd s c) := by
  unfold haltCmd
  repeat' (first
    | (intro z; intros; try beta_reduce)
    | with_reducible assumption
    | with_reducible apply complete_kept
    | with_reducible apply enterHalted_kept
    | (with_reducible refine Kept.lit (by assumption) ?_; rfl)
    | dsimp -zeta only)

theorem execHalt_kept {ring : Nat} {s : State} {z : State} (h : Kept z s) :
    KeptOut z (execHalt ring s) := by
  unfold execHalt
  repeat' (first
    | (intro z; intros; try beta_reduce)
    | with_reducible assumption
    | with_reducible apply takeCmd_kept
    | with_reducible apply legalIn_kept
    | with_reducible apply haltCmd_kept
    | with_reducible apply KeptOut.next
    | with_reducible exact KeptOut.fault _
    | (with_reducible refine Kept.lit (by assumption) ?_; rfl)
    | split
    | (clear_value *; split)
    | dsimp -zeta only)

theorem commandBusy_kept {s : State} {z : State} (h : Kept z s) :
    Kept z (commandBusy s) := by
  unfold commandBusy
  repeat' (first
    | (intro z; intros; try beta_reduce)
    | with_reducible assumption
    | (extract_lets +onlyGivenNames x; refine Kept.cut (p := Kept z x) ?_ (fun _ => ?_)
       on_goal 1 => dsimp -zeta only [x]; clear x
       on_goal 2 => try clear_value x
       on_goal 2 => rename' x => y)
    | (extract_lets +onlyGivenNames x; refine Kept.cut (p := Kept z x.1) ?_ (fun _ => ?_)
       on_goal 1 => dsimp -zeta only [x]; clear x
       on_goal 2 => try clear_value x
       on_goal 2 => rename' x => y)
    | (extract_lets +onlyGivenNames x; refine Kept.ofFun x ?_; dsimp -zeta only [x]; clear x)
    | (extract_lets +onlyGivenNames x; rename' x => y)
    | with_reducible apply sendCompletion_kept
    | (with_reducible refine Kept.lit (by assumption) ?_; rfl)
    | split
    | (clear_value *; split)
    | (with_reducible refine Kept.lit ?_ ?_; on_goal 2 => rfl
       with_reducible first | apply sendCompletion_kept)
    | with_reducible refine Kept.ofPair (by assumption) ?_
    | dsimp -zeta only)

theorem execCommandBusy_kept {s : State} {z : State} (h : Kept z s) :
    KeptOut z (execCommandBusy s) := by
  unfold execCommandBusy
  repeat' (first
    | (intro z; intros; try beta_reduce)
    | with_reducible assumption
    | with_reducible apply inModule_kept
    | with_reducible apply commandBusy_kept
    | with_reducible apply KeptOut.next
    | with_reducible exact KeptOut.fault _
    | (with_reducible refine Kept.lit (by assumption) ?_; rfl)
    | split
    | (clear_value *; split)
    | dsimp -zeta only)

end Sys2Proof.Machine
end

