-- ==== Sys2Proof/Laws/KeptRegisters.lean ====
section
/-! SUPPORT. Laws/KeptRegisters.lean: what every operation of Machine/Registers.lean keeps (Laws/Kept.lean). -/
namespace Sys2Proof.Machine
open Sys2Proof

theorem writeField_kept {u : Nat} {v : Nat} {s : State} {f : Field} {z : State} (h : Kept z s) :
    Kept z (writeField u v s f) := by
  unfold writeField
  repeat' (first
    | (intro z; intros; try beta_reduce)
    | with_reducible assumption
    | (extract_lets +onlyGivenNames x; refine Kept.cut (p := Kept z x) ?_ (fun _ => ?_)
       on_goal 1 => dsimp -zeta only [x]; clear x
       on_goal 2 => try clear_value x
       on_goal 2 => rename' x => y)
    | (extract_lets +onlyGivenNames x; refine Kept.cut (p := Kept z x.1) ?_ (fun _ => ?_)
       on_goal 1 => dsimp -zeta only [x]; clear x
       on_goal 2 => try clear_value x
       on_goal 2 => rename' x => y)
    | (extract_lets +onlyGivenNames x; refine Kept.ofFun x ?_; dsimp -zeta only [x]; clear x)
    | (extract_lets +onlyGivenNames x; rename' x => y)
    | with_reducible apply setF_kept
    | (with_reducible refine Kept.lit (by assumption) ?_; rfl)
    | split
    | (clear_value *; split)
    | (with_reducible refine Kept.lit ?_ ?_; on_goal 2 => rfl
       with_reducible first | apply setF_kept)
    | with_reducible refine Kept.ofPair (by assumption) ?_
    | dsimp -zeta only)

theorem writeFields_kept {r : RegRef} {v : Nat} {s : State} {z : State} (h : Kept z s) :
    Kept z (writeFields r v s) := by
  unfold writeFields
  repeat' (first
    | (intro z; intros; try beta_reduce)
    | with_reducible assumption
    | with_reducible apply forEach_kept
    | with_reducible apply writeField_kept
    | (with_reducible refine Kept.lit (by assumption) ?_; rfl)
    | dsimp -zeta only)

theorem putPending_kept {r : RegRef} {v : Nat} {s : State} {z : State} (h : Kept z s) :
    Kept z (putPending r v s) := by
  unfold putPending
  repeat' (first
    | (intro z; intros; try beta_reduce)
    | with_reducible assumption
    | with_reducible apply forEach_kept
    | with_reducible apply setP_kept
    | (with_reducible refine Kept.lit (by assumption) ?_; rfl)
    | dsimp -zeta only)

theorem clearRecord_kept {valid : Field} {rest : List Field} {v : Nat} {s : State} {z : State} (h : Kept z s) :
    Kept z (clearRecord valid rest v s) := by
  unfold clearRecord
  repeat' (first
    | (intro z; intros; try beta_reduce)
    | with_reducible assumption
    | with_reducible apply setFs_kept
    | (with_reducible refine Kept.lit (by assumption) ?_; rfl)
    | split
    | (clear_value *; split)
    | dsimp -zeta only)

theorem writeFeedThr_kept {v : Nat} {s : State} {z : State} (h : Kept z s) :
    Kept z (writeFeedThr v s) := by
  unfold writeFeedThr
  repeat' (first
    | (intro z; intros; try beta_reduce)
    | with_reducible assumption
    | with_reducible apply feedFlow_kept
    | with_reducible apply setFs_kept
    | (with_reducible refine Kept.lit (by assumption) ?_; rfl)
    | dsimp -zeta only)

theorem writePortCtl_kept {n : Nat} {v : Nat} {s : State} {z : State} (h : Kept z s) :
    Kept z (writePortCtl n v s) := by
  unfold writePortCtl
  repeat' (first
    | (intro z; intros; try beta_reduce)
    | with_reducible assumption
    | (extract_lets +onlyGivenNames x; refine Kept.cut (p := Kept z x) ?_ (fun _ => ?_)
       on_goal 1 => dsimp -zeta only [x]; clear x
       on_goal 2 => try clear_value x
       on_goal 2 => rename' x => y)
    | (extract_lets +onlyGivenNames x; refine Kept.cut (p := Kept z x.1) ?_ (fun _ => ?_)
       on_goal 1 => dsimp -zeta only [x]; clear x
       on_goal 2 => try clear_value x
       on_goal 2 => rename' x => y)
    | (extract_lets +onlyGivenNames x; refine Kept.ofFun x ?_; dsimp -zeta only [x]; clear x)
    | (extract_lets +onlyGivenNames x; rename' x => y)
    | with_reducible apply setF_kept
    | with_reducible apply afterSecured_kept
    | with_reducible apply enablePort_kept
    | (with_reducible refine Kept.lit (by assumption) ?_; rfl)
    | dsimp -zeta only)

theorem writeActs_kept {x : Nat × (Nat → Nat → State → State)} (hx : x ∈ writeActs) {i v : Nat} {s : State} {z : State}
    (h : Kept z s) : Kept z (x.2 i v s) := by
  simp only [writeActs, List.mem_cons, List.not_mem_nil, or_false] at hx
  rcases hx with rfl | rfl | rfl | rfl | rfl | rfl | rfl | rfl | rfl | rfl | rfl | rfl | rfl | rfl | rfl | rfl | rfl | rfl
    | rfl | rfl | rfl
  · dsimp only
    split
    · exact clearField_kept h
    · exact h
  · exact writeBudget_kept h
  · exact ringCfg_kept h
  · exact doorbell_kept h
  · exact evtCfg_kept h
  · exact evtConsumer_kept h
  · exact histReset_kept h
  · exact writeShare_kept h
  · exact chStart_kept h
  · exact chPause_kept h
  · exact chResume_kept h
  · exact chAbort_kept h
  · exact chReq_kept h
  · exact writePortCtl_kept h
  · exact afterSecured_kept (retrainPort_kept h)
  · exact writeFeedCfg_kept h
  · exact writeFeedThr_kept h
  · exact writeConsumed_kept h
  · exact releaseWrite_kept h
  · exact clearRecord_kept h
  · exact clearRecord_kept h

theorem writeReg_kept {r : RegRef} {v : Nat} {s : State} {z : State} (h : Kept z s) :
    Kept z (writeReg r v s) := by
  unfold writeReg
  repeat' (first
    | (intro z; intros; try beta_reduce)
    | with_reducible assumption
    | (extract_lets +onlyGivenNames x; refine Kept.cut (p := Kept z x) ?_ (fun _ => ?_)
       on_goal 1 => dsimp -zeta only [x]; clear x
       on_goal 2 => try clear_value x
       on_goal 2 => rename' x => y)
    | (extract_lets +onlyGivenNames x; refine Kept.cut (p := Kept z x.1) ?_ (fun _ => ?_)
       on_goal 1 => dsimp -zeta only [x]; clear x
       on_goal 2 => try clear_value x
       on_goal 2 => rename' x => y)
    | (extract_lets +onlyGivenNames x; refine Kept.ofFun x ?_; dsimp -zeta only [x]; clear x)
    | (extract_lets +onlyGivenNames x; rename' x => y)
    | with_reducible apply putPending_kept
    | with_reducible apply writeFields_kept
    | (with_reducible refine Kept.lit (by assumption) ?_; rfl)
    | split
    | (clear_value *; split)
    | (with_reducible refine Kept.lit ?_ ?_; on_goal 2 => rfl
       with_reducible first | apply putPending_kept | apply writeFields_kept)
    | with_reducible refine Kept.ofPair (by assumption) ?_
    | exact writeActs_kept (List.mem_of_find?_eq_some (by assumption)) h
    | dsimp -zeta only)

theorem putReg_kept {s : State} {r : RegRef} {v : Nat} {z : State} (h : Kept z s) :
    Kept z (putReg s r v) := by
  unfold putReg
  repeat' (first
    | (intro z; intros; try beta_reduce)
    | with_reducible assumption
    | with_reducible apply writeReg_kept
    | (with_reducible refine Kept.lit (by assumption) ?_; rfl)
    | split
    | (clear_value *; split)
    | dsimp -zeta only)

theorem registerWrite_kept {addr : Nat} {value : Nat} {s : State} {z : State} (h : Kept z s) :
    Kept z (registerWrite addr value s) := by
  unfold registerWrite
  repeat' (first
    | (intro z; intros; try beta_reduce)
    | with_reducible assumption
    | (extract_lets +onlyGivenNames x; refine Kept.cut (p := Kept z x) ?_ (fun _ => ?_)
       on_goal 1 => dsimp -zeta only [x]; clear x
       on_goal 2 => try clear_value x
       on_goal 2 => rename' x => y)
    | (extract_lets +onlyGivenNames x; refine Kept.cut (p := Kept z x.1) ?_ (fun _ => ?_)
       on_goal 1 => dsimp -zeta only [x]; clear x
       on_goal 2 => try clear_value x
       on_goal 2 => rename' x => y)
    | (extract_lets +onlyGivenNames x; refine Kept.ofFun x ?_; dsimp -zeta only [x]; clear x)
    | (extract_lets +onlyGivenNames x; rename' x => y)
    | with_reducible apply putReg_kept
    | (with_reducible refine Kept.lit (by assumption) ?_; rfl)
    | split
    | (clear_value *; split)
    | (with_reducible refine Kept.lit ?_ ?_; on_goal 2 => rfl
       with_reducible first | apply putReg_kept)
    | with_reducible refine Kept.ofPair (by assumption) ?_
    | dsimp -zeta only)

theorem execRegisterWrite_kept {addr : Nat} {value : Nat} {s : State} {z : State} (h : Kept z s) :
    KeptOut z (execRegisterWrite addr value s) := by
  unfold execRegisterWrite
  repeat' (first
    | (intro z; intros; try beta_reduce)
    | with_reducible assumption
    | with_reducible apply inModule_kept
    | with_reducible apply registerWrite_kept
    | with_reducible apply KeptOut.next
    | with_reducible exact KeptOut.fault _
    | (with_reducible refine Kept.lit (by assumption) ?_; rfl)
    | split
    | (clear_value *; split)
    | dsimp -zeta only)

end Sys2Proof.Machine
end

