-- ==== Sys2Proof/Tests/Slice0.lean ====
section
/-! SUPPORT. Tests/Slice0.lean: the author's own tests: ill-formed terms refused, the manual's worked examples, and for each
statement a state and operands that meet its hypotheses. -/
namespace Sys2Proof.Tests
set_option Elab.async false
open Sys2Proof Sys2Proof.Machine

/-! ## Well-formedness: each check refuses a term it should refuse, and admits one it should -/

def addrA : NetAddr := { mac := 0x02AA00000001, ip := 0xFFFF0A000001, udp := 49200 }

def rxHost : Rx :=
  { port := 24, fcsOk := true, len := 200, dstMac := 0, dstIp := 0, ipv6 := false, hdrOk := true, udpSum := 0,
    sumOk := true, frag := false, dstUdp := 0, udpLen := 56, src := addrA }

def tag16 : Bytes := List.replicate 16 0

def ctlA : CtlFrame :=
  { magic := 0, version := 0, ftype := 0, sessionId := 0, seq := 0, ack := 0, planTag := 0, step := 0, bodyLen := 0,
    flags := 0, zero := 0, body := [], tag := tag16, rx := rxHost }

def entA : TokEntry := { ordinal := 0, posRank := 0, w8 := 0, wC := 0 }

def tokA : TokFrame :=
  { magic := 0, version := 0, kind := 0, flags := 0, format := 0, layer := 0, planTag := 0, step := 0, srcModule := 0,
    dstModule := 0, srcStall := 0, dstStall := 0, target := 0, tokenCount := 0, segFirst := 0, segCount := 0,
    frameSeq := 0, bodyLen := 0, brand := 0, queue := 0, returnQueue := 0, zero := 0, table := [entA], payload := [],
    rx := some rxHost }

def teamA : TeamFrame :=
  { magic := 0, version := 0, ftype := 0, srcModule := 0, dstModule := 0, step := 0, page := 0, group := 0, chunk := 0,
    length := 0, zero := 0, payload := [], tag := tag16, rx := rxHost }

def feedA : FeedFrame :=
  { magic := 0, version := 0, z0 := 0, sessionId := 0, offset := 0, step := 0, length := 0, z1 := 0, payload := [],
    tag := tag16, rx := rxHost }

def telA : Telemetry :=
  { vin10mV := 5000, iin10mA := 0, pinW := 0, tjC := 60, coolInC := 30, coolOutC := 40, dimmC := 50, laserFault := false,
    hostFault := false, teamSense := false }

def dimmA : Dimm :=
  { present := true, mrdimm := true, ecc := true, spd5118 := true, gib := 256, mts := 8800, ranks := 2,
    timings := [] }

def reportA : PhaseReport :=
  { fwAOk := true, fwBOk := true, interconnectOk := true, hbmOk := true, repairs := [], dimms := List.replicate 8 dimmA,
    loftTrained := List.replicate 8 true, loftLinks := List.replicate 4 true, zlvKatOk := true,
    lasers := List.replicate 4 none, pluggable := none, ports := [], stalls := [], trims := [], patterns := [], refs := [],
    warmTrainFail := false, warmGeFail := [], training := [], effQ16 := 61899 }

def plugA : Pluggable := { osfp := true, needMw := 16000, apps := [⟨true, true, 8, []⟩], laneState := 0, alarms := 0 }

def laserA : LaserModule := { identity := 0, outs := [], drawMw := 0, tempC := 0, alarms := 0 }

def measA : TrimMeas :=
  { nullSum := List.replicate 528 0, nullSq := List.replicate 528 0, diffSum := List.replicate 528 0,
    rowNullSum := List.replicate 512 0, rowNullSq := List.replicate 512 0, rowDiffSum := List.replicate 512 0,
    refs := List.replicate 8 [(0, 4096)] }

theorem test_wf_admits : (Instr.openFrame ctlA).wf = true ∧ (Instr.dispatchFrame tokA).wf = true ∧ (Instr.hello teamA).wf = true ∧
    (Instr.feedFrame feedA).wf = true ∧ (Instr.bringupPhaseDone reportA).wf = true ∧ (Instr.trimDone 511 33 measA).wf = true ∧
    (Instr.telemetryRefresh telA).wf = true ∧ (Instr.moverBurst 575 []).wf = true := by decide +kernel

theorem test_wf_refuses_addresses : { rxHost with port := 25 }.wf = false ∧ { rxHost with dstMac := 2 ^ 48 }.wf = false ∧
    { rxHost with dstIp := 2 ^ 128 }.wf = false ∧ { rxHost with udpSum := 65536 }.wf = false ∧
    { rxHost with dstUdp := 65536 }.wf = false ∧ { rxHost with udpLen := 65536 }.wf = false ∧
    { rxHost with src := { addrA with mac := 2 ^ 48 } }.wf = false ∧ { addrA with ip := 2 ^ 128 }.wf = false ∧
    { addrA with udp := 65536 }.wf = false := by decide +kernel

theorem test_wf_refuses_control_frames : { ctlA with magic := 65536 }.wf = false ∧ { ctlA with version := 256 }.wf = false ∧
    { ctlA with ftype := 256 }.wf = false ∧ { ctlA with sessionId := 2 ^ 32 }.wf = false ∧ { ctlA with seq := 2 ^ 32 }.wf = false ∧
    { ctlA with ack := 2 ^ 32 }.wf = false ∧ { ctlA with planTag := 2 ^ 64 }.wf = false ∧ { ctlA with step := 2 ^ 64 }.wf = false ∧
    { ctlA with bodyLen := 65536 }.wf = false ∧ { ctlA with flags := 65536 }.wf = false ∧ { ctlA with zero := 2 ^ 32 }.wf = false ∧
    { ctlA with tag := [] }.wf = false ∧ { ctlA with rx := { rxHost with port := 25 } }.wf = false := by decide +kernel

theorem test_wf_refuses_token_frames : { tokA with magic := 65536 }.wf = false ∧ { tokA with kind := 256 }.wf = false ∧
    { tokA with layer := 65536 }.wf = false ∧ { tokA with planTag := 2 ^ 64 }.wf = false ∧ { tokA with step := 2 ^ 64 }.wf = false ∧
    { tokA with srcStall := 65536 }.wf = false ∧ { tokA with target := 2 ^ 32 }.wf = false ∧ { tokA with frameSeq := 2 ^ 32 }.wf = false ∧
    { tokA with brand := 2 ^ 64 }.wf = false ∧ { tokA with returnQueue := 256 }.wf = false ∧ { tokA with bodyLen := 2 ^ 32 }.wf = false ∧
    { tokA with target := 65536, bodyLen := 65536 }.wf = true ∧
    { tokA with table := [{ entA with ordinal := 2 ^ 32 }] }.wf = false ∧ { tokA with table := [{ entA with wC := 2 ^ 32 }] }.wf = false ∧
    { tokA with rx := some { rxHost with port := 25 } }.wf = false := by decide +kernel

theorem test_wf_refuses_team_and_feed_frames : { teamA with ftype := 256 }.wf = false ∧ { teamA with page := 2 ^ 32 }.wf = false ∧
    { teamA with group := 256 }.wf = false ∧ { teamA with chunk := 256 }.wf = false ∧ { teamA with tag := [] }.wf = false ∧
    { teamA with rx := { rxHost with port := 25 } }.wf = false ∧ { feedA with offset := 2 ^ 64 }.wf = false ∧
    { feedA with length := 65536 }.wf = false ∧ { feedA with tag := [] }.wf = false ∧
    { feedA with rx := { rxHost with port := 25 } }.wf = false := by decide +kernel

theorem test_wf_refuses_board_and_bringup : ([
    .bayIdentityRead ⟨some [], true⟩, .railFault (2^32) 0, .railFault 0 (2^32), .coreClockLost 2, .pllUnlock 17,
    .telemetryRefresh { telA with vin10mV := 65536 }, .telemetryRefresh { telA with iin10mA := 65536 }, .telemetryRefresh
    { telA with pinW := 65536 }, .alertCauseClear ⟨65536, none⟩, .alertCauseClear ⟨0, some 256⟩, .hostModuleInserted { plugA with needMw := 65536 },
    .hostModuleInserted { plugA with laneState := 256 }, .hostModuleInserted { plugA with alarms := 2^32 }, .i3cDynamicAddress 128, .laserModuleInserted 4 laserA,
    .laserModuleRemoved 4 true, .dimmThermalPoll 8 0, .bringupPhaseDone { reportA with dimms := [] }, .bringupPhaseDone {
    reportA with loftTrained := [] }, .bringupPhaseDone { reportA with loftLinks := [] }, .bringupPhaseDone { reportA with lasers := [] },
    .bringupPhaseDone { reportA with ports := [⟨25, 0⟩] }, .bringupPhaseDone { reportA with refs := [(17408, List.replicate 8 [(0, 4096)])] },
    .bringupPhaseDone { reportA with refs := [(0, [])] }, .bringupPhaseDone { reportA with trims := [(17408, measA)] }, .loftTestDone [8], .wakeRequest
    512 .demand, .stallWakeComplete 512, .stallNap 512, .stallSleep 512, .stallParked 512, .ledgerCorrection 65536,
    .budgetWrite (2^64), .dieCurrentLimit 4 0, .dieCurrentLimit 0 1024, .dieCurrentPark 4, .dieThermalThrottle 4 0,
    .dieThermalThrottle 0 256, .dieStepLower 4 true 0, .dieStepLower 0 true 1024, .dieThermalTrip 4 0, .dieThermalTrip 0
    256, .wakeWait 512] : List Instr).all (fun c => !c.wf) = true := by decide +kernel

theorem test_wf_refuses_session_and_rings : ([
    .openFrame { ctlA with tag := [] }, .prove { ctlA with tag := [] }, .close { ctlA with tag := [] }, .keepalive { ctlA
    with tag := [] }, .ack { ctlA with tag := [] }, .access { ctlA with tag := [] } [], .gate { ctlA with tag := [] },
    .registerWrite (2^48) 0, .registerWrite 0 (2^64), .ringDoorbell 2 0, .ringDoorbell 0 (2^64), .ringCfgWrite 2 0,
    .ringCfgWrite 0 (2^64), .evtCfgWrite (2^64), .evtConsumerWrite (2^64), .nop 2, .halt 2, .haltClear 2, .jobEnd 2,
    .rollback 2 [], .harnessLoad 2, .harnessUnload 2, .harnessAmend 2, .loftFill 2, .mirrorCopy 2, .attest 2, .slotUpdate
    2, .fwUpdate 2, .scrub 2 [], .releaseWrite (2^64), .feedConsumedWrite (2^64), .feedCfgWrite (2^64)] : List Instr).all (fun c => !c.wf) = true := by decide +kernel

theorem test_wf_refuses_stalls : ([
    .stepNop 512, .fwdEnd 512, .endProgram 512, .layer 512, .seti 512, .addi 512, .ldp 512, .stp 512, .loop 512, .wait
    512, .move 512, .top 512, .qin 512, .mm 512, .vld 512, .vst 512, .vop 512, .vseti 512, .tzero 512, .tout 512, .route
    512, .dispatch 512, .combine 512, .wake 512, .tileOpComplete 512 0, .tileOpComplete 0 32, .sumWrite 512 0, .sumWrite 0
    16, .mmComplete 512 [], .mmComplete 0 [⟨0, 0, 2^32⟩], .tileVoteDecided 512, .geVoteDecided 512 [], .geVoteDecided 0
    [⟨0, 0, 2^32⟩], .troughPartialPull 512, .partialWait 512, .combineWait 512, .toutLineStaged 512] : List Instr).all (fun c => !c.wf) = true := by decide +kernel

theorem test_wf_refuses_arrays : ([
    .driftWindowDone 512 0 0 1, .driftWindowDone 0 34 0 1, .retrimDue 0 34, .retrimForced 0 34,
    .trimOverdue 0 34, .idleRetrimStart 0 34, .trimDone 0 34 measA, .trimDone 0 0 { measA with nullSum := [] }, .trimDone
    0 0 { measA with diffSum := [] }, .trimDone 0 0 { measA with rowNullSum := [] }, .trimDone 0 0 { measA with rowDiffSum
    := [] }, .trimDone 0 0 { measA with nullSq := [] }, .trimDone 0 0 { measA with rowNullSq := [] }, .trimDone 0 0 { measA with refs := [] }, .trimDone 0 0 { measA with refs := List.replicate 8 [(0, 4095)] }, .trimDone 0 0 { measA with refs := List.replicate 8 [(256, 4096)] }, .rotationStart 512,
    .rotationFillDone 512 [], .rotationFillDone 0 [⟨512, []⟩], .rotationFillDone 0 [⟨0, [[⟨528, true, 0⟩]]⟩],
    .rotationFillDone 0 [⟨0, [[⟨0, true, 1985⟩]]⟩], .rotationTakeover 512 [], .tileLevelWrite 0 34 0 0 [] [], .tileLevelWrite
    0 0 512 0 [] [], .tileLevelWrite 0 0 0 512 [0] [], .tileLevelWrite 0 0 0 0 [128] [], .tileLevelRead
    0 34 0 0 0, .tileLevelRead 0 0 512 0 0, .tileLevelRead 0 0 0 512 1, .slotOnFallback 0 32, .rebuildStart 0 32 [],
    .rebuildDone 0 32 []] : List Instr).all (fun c => !c.wf) = true := by decide +kernel

theorem test_wf_refuses_frames : ([
    .dispatchFrame { tokA with kind := 256 }, .returnFrame { tokA with kind := 256 }, .closeFrame { tokA with kind := 256
    }, .wakeFrame { tokA with kind := 256 }, .summaryFrame { tokA with kind := 256 }, .queryFrame { tokA with kind := 256
    }, .partialFrame { tokA with kind := 256 }, .refuseFrame { tokA with kind := 256 }, .hello { teamA with tag := [] },
    .beat { teamA with tag := [] }, .bye { teamA with tag := [] }, .page { teamA with tag := [] }, .pageAck { teamA with
    tag := [] }, .commit { teamA with tag := [] }, .commitAck { teamA with tag := [] }, .teamAccess { teamA with tag := []
    } [], .accessResp { teamA with tag := [] }, .feedFrame { feedA with tag := [] }, .pageResend 8 0, .pageResend 0 (2^32)] : List Instr).all (fun c => !c.wf) = true := by decide +kernel

theorem test_wf_refuses_chips_channels_ports : ([
    .pln 4, .ctx 4, .updateOp 4, .stw 4, .sts 4, .updChipDone 4, .chipLost 4, .loftFlitCrcError 4 true, .loftLinkRetrained
    4, .loftLinkLost 4 0, .loftLinkLost 0 8, .loftPatrol 8 0 .clean, .loftPatrol 0 (2^32) .clean, .moverBurst 576 [],
    .chStart 64, .chPause 64, .chResume 64, .chAbort 64, .chReq 64, .rateShareWrite 56 0, .rateShareWrite 64 0,
    .rateShareWrite 57 (2^64), .rateHeld 56, .rateHeld 64, .portUp 25 8 0, .portUp 0 5 0, .portUp 0 8 2,
    .portAttemptFailed 25, .portLost 25 1, .portLost 0 0, .portLost 0 7, .portRetrainTimer 24, .portRetrain 24,
    .portEnable 24 true, .fecDegraded 24 0, .fecDegraded 0 (2^32), .pfcFrame ⟨25, []⟩, .pfcFrame ⟨0, [(8, 0)]⟩, .pfcFrame
    ⟨0, [(0, 65536)]⟩, .pfcPauseExpired 25 0, .pfcPauseExpired 0 8, .pfcStorm 25 0, .pfcStorm 0 8, .xoffRepeat 25 0,
    .xoffRepeat 0 8, .egressFrameStart 25, .arpRequest 25 0 addrA, .arpRequest 0 (2^32) addrA, .arpRequest 0 0 { addrA
    with mac := 2^48 }, .neighbourSolicitation 25 0 addrA, .neighbourSolicitation 0 (2^128) addrA, .neighbourSolicitation
    0 0 { addrA with mac := 2^48 }, .echoRequest { rxHost with port := 25 } [], .echoRequest rxHost (List.replicate 9217
    0)] : List Instr).all (fun c => !c.wf) = true := by decide +kernel

/-! ## The manual's worked examples -/

/-- The example after R118 of "Control over Ethernet": the stall store of stall 2.1.7. -/
theorem test_stall_store_address : storeBase (128 * 2 + 32 * 1 + 7) + 0x1000 = 0x089380001000 := by decide

/-- The example of R139: a pending CLK.IDLE value, wake_linger 1,000, sleep_idle 5,000, nap_idle 50; the active value stays. -/
theorem test_pending_clk_idle :
    ((findReg 0x0F0003008010).map (fun r => (r.reg.base, r.pending))) = some (0x3000010, true) := by decide +kernel

/-- The example of R193: 150 nonzero codes drive 4 phases with one split. -/
theorem test_drive_packing :
    let x := fun i => if i < 44 then 30 else if i < 64 then 29 else if i < 88 then 41 else if i < 96 then 42
      else if i < 120 then 39 else if i < 128 then 38 else 5
    let r := packToken 256 ((List.range 150).map (fun i => ⟨i, x i, 31⟩))
    r.2 = 1 ∧ r.1.map (fun g => g.length) = [64, 32, 32, 22] ∧ r.1.map predicted = [58900, 40920, 38440, 3410] := by
  decide +kernel

/-- The example of R237: levels 12 and 13 around u = 12.550 and u = 13.005 (hyst_16 = 1). -/
theorem test_crossing_rule : crossed false 1 ⟨false, 12493, 1000⟩ 12 = 12 ∧ crossed false 1 ⟨false, 12550, 1000⟩ 12 = 12 ∧
    crossed false 1 ⟨false, 13005, 1000⟩ 12 = 13 := by decide +kernel

/-- The example of R257: the counter words of a weight gradient of expert 17. -/
theorem test_rounding_counter : srW0 5000 3 2 6 0 = 0x0000001388019300 ∧ srW1 (some 17) = 0x10011 ∧
    srW2 100 2000 = 0x00000000640007D0 := by decide +kernel

/-- The same example: the element byte turns at r = 0xCCCC_D000, and is 0x75 under RNE. -/
theorem test_stochastic_rounding : (convEl 2 (-16) (some 0xCCCCCFFF) 0x3E99999A).1 = 0x75 ∧
    (convEl 2 (-16) (some 0xCCCCD000) 0x3E99999A).1 = 0x74 ∧ (convEl 2 (-16) none 0x3E99999A).1 = 0x75 := by decide +kernel

/-- The example of R264: 3,000 goes out as BF16 0x453C under carry, the scale byte is 0x76, element 9 is 0x78. -/
theorem test_outlier_carry :
    let l : List F32 := ((List.replicate 32 0x3A83126F).set 5 0x453B8000).set 9 0x3F000000
    let c := convSub 1 true (fun _ => none) 0 l
    let d := convSub 1 false (fun _ => none) 0 l
    c.scale = 0x76 ∧ c.ix = 0x85 ∧ c.val = 0x453C ∧ c.conv.bytes.getD 9 0 = 0x78 ∧ c.conv.bytes.getD 0 0 = 0x30 ∧ c.conv.ecl = 0 ∧
      d.scale = 0x82 ∧ d.conv.bytes.getD 5 0 = 0x7C ∧ d.conv.bytes.getD 9 0 = 0x18 ∧ d.conv.ecl = 30 := by decide +kernel

/-- The example of R225: s0 = 0.28 codes at K = 256 gives tau_fwd 3,111, tau_tps 1,092 and sigma_q10 386. -/
theorem test_check_tolerances :
    let q := sigmaSq { measA with nullSq := 21353300 :: List.replicate 527 0 } 256
    rootScaled 825575 100 q = 3111 ∧ rootScaled 289631 100 q = 1092 ∧ rootScaled 1024 1 q = 386 := by decide +kernel

/-- The example of R312: module 2's share of 96 slots over 5 modules, and its three stalls' regions. -/
theorem test_capacity_shares : share 96 5 2 = 19 ∧ start 96 5 2 = 39 ∧ (List.range 3).map (share 19 3) = [7, 6, 6] ∧
    (List.range 3).map (start 19 3) = [0, 7, 13] := by decide

/-- The first bytes of SHAKE256 over no bytes, as its standard publishes them. -/
theorem test_shake256_of_nothing : shake256 [] 4 = [0x46, 0xB9, 0xDD, 0x2B] := by decide +kernel

/-! ## Witnesses: for each statement with hypotheses, a state and operands that meet those of every clause -/

/-- A module in a mode with its rails on. -/
def inMode (m : Mode) : State := { State.reset with mode := m, board := { Board.reset with railsOn := true } }

/-- The answer of a command that goes on. -/
def after (c : Instr) (s : State) : Option State := match exec c s with | .next t => some t | _ => none

def cmdA : CmdRec := { ring := 0, opcode := 0x3001, tag := 0, planTag := 0, args := [] }

def runA : Running := ⟨cmdA, 0, false, none, 0⟩

def jobA : JobRec :=
  { narrow := false, layers := 1, dModel := 512, topK := 1, maxSeq := 512, moduleCount := 1, portsMin := 0, expertIds := 0,
    planSalt := 0, seed := 0 }

/-- A block of layer 0 on slot 0 of stall 0, with its master block at the start of the loft. -/
def placeA : Placement :=
  { module := 0, stall := 0, slot := 0, twoSlice := false, layer := 0, tensor := 0, home := 0, rowSeg := 0, colBlk := 0,
    loftAddr := 0x040000000000, ownerStall := 0, sumOrder := 0, updateProgram := 0 }

/-- An image of one stall that runs one program. -/
def imageOf (prog : List Nat) : Image :=
  { raw := [], length := 0, planTag := 5, buildId := 0, job := jobA, modules := [], placement := [placeA], homes := [],
    attention := [], formats := [], frozen := [], bindings := [(0, 0, 0)], programs := [prog], updates := [], loftTensors := [],
    intervalK := 1, strict := false, bufferMib := 64, teams := [], capacities := [], arbitration := [], constants := [] }

def inImage (m : Mode) (prog : List Nat) : State :=
  { inMode m with job := { Job.reset with image := some (imageOf prog) } }

def rdy : State := inMode .ready
def run : State := inMode .running

theorem witness_StepRunsFront : State.reset.pending = [] := rfl

/-- For StepKeepsMemory, StepKeepsTables and ExecKeepsQueue. -/
theorem witness_StepKeeps : State.reset.memOk = true ∧ State.reset.tablesOk = true ∧ State.reset.boundsOk = true ∧
    step State.reset = .next State.reset := ⟨by decide +kernel, by decide +kernel, by decide +kernel, rfl⟩

theorem witness_EveryCommandAnswers : (Instr.moverBurst 575 []).wf = true ∧ (Instr.rateHeld 57).wf = true ∧
    (Instr.rateHeld 63).wf = true := by decide +kernel

theorem witness_OffKept : State.reset.mode = .off ∧ State.reset.board.railsOn = false ∧ State.reset.board.resetting = false ∧
    Instr.inputOutOfLimits ≠ .alwaysOnRailsGood ∧ (after .inputOutOfLimits State.reset).isSome = true := by decide +kernel

theorem witness_RingFull :
    (let s := setFs rdy [(R.ctlEvtProducer_producer, 2048), (R.ctlEvtCfg_sizeCode, 0)]
     s.board.railsOn = true ∧ s.mode ≠ .off ∧ s.mode ≠ .watch ∧ s.mode ≠ .bringup ∧
      evtSize s ≤ (getF s R.ctlEvtProducer_producer + 2 ^ 32 - getF s R.ctlEvtConsumer_consumer) % 2 ^ 32) ∧
    (inMode .bringup).mode = .bringup := by decide +kernel

def pageA : Page := { group := 1, page := 0, addr := 0x040000000000, buf := none, home := false, acked := false, sentAt := none }

theorem witness_MemoryWrites : rdy.team.pages = [] ∧
    (let s := setF { rdy with team := { rdy.team with pages := [pageA] } } R.pairBuf_base1m 0 1
     s.team.pages = [pageA] ∧ pageA.buf = none ∧ pageA.home = false ∧ meets pageA.addr pageSize 0x040000000000 1 = true ∧
      bufFree s = some 0 ∧ getF s R.pairBuf_base1m * 2 ^ 20 + 0 * pageSize + pageSize ≤ 0x040000000000) ∧
    (rdy.board.railsOn = true ∧ rdy.mode ≠ .off ∧ rdy.mode ≠ .watch ∧ rdy.mode ≠ .bringup ∧
      (getF rdy R.ctlEvtProducer_producer + 2 ^ 32 - getF rdy R.ctlEvtConsumer_consumer) % 2 ^ 32 < evtSize rdy) := by
  decide +kernel

theorem witness_LaneSum : ∃ v : Nat → Nat → F32, (List.replicate 512 (0 : F32)).length = 512 ∧
    (∀ i < 512, v 0 i = (List.replicate 512 (0 : F32)).getD i 0) ∧
    ∀ j < 9, ∀ i, v (j + 1) i = fadd (v j (2 * i)) (v j (2 * i + 1)) :=
  ⟨fun _ _ => 0, List.length_replicate, fun i h => by rw [List.getD_eq_getElem?_getD, List.getElem?_replicate, if_pos h]; rfl,
    fun _ _ _ => (by decide +kernel : (0 : F32) = fadd 0 0)⟩

theorem witness_IntegerPower : (3 : Nat) ≤ 16777215 ∧ ffinite 0x40400000 = true ∧ (fexact 0x40400000).neg = false ∧
    (fexact 0x40400000).num = 3 * (fexact 0x40400000).den ∧ (fexact 0x40400000).den ≠ 0 ∧
    (fexact 0x4B7FFFFF).num = 16777215 * (fexact 0x4B7FFFFF).den ∧ (fexact 0x80000000).num = 0 * (fexact 0x80000000).den := by
  decide +kernel

/-- A module with an open session. -/
def opn : State := { rdy with ses := { rdy.ses with key := some (List.replicate 32 7), lastId := 1, expect := 1, peer := addrA } }

theorem witness_EventNotes :
    (let s := setF opn R.ctlEvtProducer_producer 0 1
     s.board.railsOn = true ∧ sessionOpen s = true ∧ getF s R.ctlEvtProducer_producer ≠ getF s R.ctlEvtConsumer_consumer ∧
      s.ses.lastNote = none) ∧
    (let s := { opn with ses := { opn.ses with lastNote := some 0 } }
     s.board.railsOn = true ∧ s.ses.lastNote = some 0 ∧ s.now < 0 + getF s R.ctlEvtStatus_noteTicks) ∧
    (rdy.board.railsOn = true ∧ sessionOpen rdy = false) := by decide +kernel

/-- For PowerUp and ResetLine. -/
theorem witness_PowerAndReset :
    (let s := { State.reset with board := { Board.reset with inrush := true } }
     s.mode = .off ∧ s.board.inrush = true) ∧
    (let s := { inMode .watch with board := { Board.reset with bayRead := true } }
     s.mode = .watch ∧ s.board.bayRead = true ∧ s.board.leverOpen = false) ∧
    (rdy.mode ≠ .off ∧ rdy.mode ≠ .watch) := by decide +kernel

/-- A bay memory that passes its check: bay 3, team sense wired, power limit 0. -/
def bayA : Bytes :=
  let b := leBytes 4 0x59414256 ++ [1, 4] ++ leBytes 2 3 ++ List.replicate 0xF4 0
  b ++ leBytes 4 (crc32 b)

set_option maxRecDepth 100000 in
theorem witness_BayIdentity : ((inMode .watch).mode = .watch ∧ (inMode .watch).board.resetN = false ∧ bayStatus (some bayA) = 0) ∧
    bayStatus none ≠ 0 ∧ bayStatus (some (bayA.set 6 9)) ≠ 0 ∧ fieldAt bayA 0x1C 2 = 0 := by decide +kernel

theorem witness_AlertCauses : rdy.mode ≠ .off ∧ pecOk rdy 0x30 0x3FF none = true ∧ pecOk rdy 0x30 1 (some 0) = true ∧
    (let s := { rdy with board := { rdy.board with busMode := 1 } }
     pecOk s 0x30 0x3FF none = true ∧ pecOk s 0x30 1 (some 158) = true ∧ pecOk s 0x30 1 (some 0) = false) := by decide +kernel

theorem witness_HardFaults : (rdy.board.railsOn = true ∧ rdy.mode ≠ .halted ∧ rdy.mode ≠ .bringup) ∧
    (let s := inImage .halted []
     s.board.railsOn = true ∧ s.mode = .halted ∧ s.job.image.isSome = true ∧ s.job.running = none ∧
      getF s R.ctlState_haltStateLosing = 0) ∧
    ((inMode .bringup).board.railsOn = true ∧ (inMode .bringup).mode = .bringup ∧ (inMode .bringup).bring.stopped = false) ∧
    (rdy.board.railsOn = true ∧ upStates rdy = true ∧ (16 : Nat) = 16) ∧
    (let s := modStall rdy 0 (fun t => { t with st := .awake })
     (0 : Nat) < 16 ∧ isRunning (getStall s (32 * 0 + 0)) = true) ∧
    ((3 : Nat) < 4 ∧ (115 : Nat) ≤ 115) := by decide +kernel

/-- For AlwaysOnClock. -/
theorem witness_BoardEvents :
    (let s := { inMode .watch with reg := [] }
     s.mode ≠ .off ∧ onF (setF s R.bruBayId_clk25AonOk 0 1) R.bruBayId_clk25AonOk = true ∧
      onF (setF s R.bruBayId_clk25AonOk 0 0) R.bruBayId_clk25AonOk = false) ∧
    (rdy.board.railsOn = true ∧ (3 : Nat) < 4 ∧ rdy.job.token = none) ∧
    (onF (setF rdy R.lftChannel_populated 7 1) R.lftChannel_populated 7 = true) := by decide +kernel

/-- For BringupPhases and LoftTestAndFieldMap. -/
theorem witness_BringupPhases :
    (let s := setF (inMode .bringup) R.bruStatus_phase 0 1
     s.board.railsOn = true ∧ s.mode = .bringup ∧ s.bring.stopped = false ∧ getF s R.bruStatus_waitingPorts = 0 ∧
      reportA.warmTrainFail = false ∧ getF s R.bruStatus_phase = 1) ∧
    (let s := setF (inMode .bringup) R.bruStatus_phase 0 2
     s.board.railsOn = true ∧ s.mode = .bringup ∧ s.bring.stopped = false ∧ getF s R.bruStatus_waitingPorts = 0 ∧
      reportA.warmTrainFail = false ∧ getF s R.bruStatus_phase = 2) ∧
    (let s := setF (inMode .bringup) R.bruStatus_phase 0 4
     s.board.railsOn = true ∧ s.mode = .bringup ∧ s.bring.loftDone = false ∧ 4 ≤ getF s R.bruStatus_phase) ∧
    (rdy.board.railsOn = true ∧ upStates rdy = true) := by decide +kernel

/-- For ClassDecided and StallDecided. -/
theorem witness_ClassAndStalls : (inMode .bringup).mode = .bringup ∧ (inMode .bringup).bring.stopped = false := by decide +kernel

/-- For QuietTick, BudgetWritten and GovernorSteps. -/
theorem witness_Governor :
    (rdy.mode ≠ .off ∧ rdy.board.railsOn = true ∧ rdy.gov.waitq = [] ∧ rdy.gov.budgetNext = none ∧ rdy.job.running = none ∧
      getF rdy R.pwrGov_g = 0 ∧
      within rdy (ledger rdy) = true) ∧
    ((inMode .watch).mode ≠ .off ∧ { inMode .watch with board := Board.reset }.board.railsOn = false) ∧
    (let s := { rdy with gov := { rdy.gov with budgetNext := some 1800 } }
     s.mode ≠ .off ∧ s.board.railsOn = true ∧ s.gov.budgetNext = some 1800 ∧ 1800 < 2 ^ 16 ∧ s.job.running = none) ∧
    (let s := setF rdy R.pwrBudget_budgetW 0 0
     overBudget s = true ∧ getF s R.pwrGov_g < 7 ∧ s.gov.excess = false) ∧
    overBudget rdy = false ∧
    (let s := { setF rdy R.pwrGov_g 0 7 with now := 2500 }
     0 < getF s R.pwrGov_g ∧ getF s R.pwrGov_g ≤ 7 ∧ s.gov.waitq = [] ∧ s.gov.lastLower + 2500 ≤ s.now ∧
      ledgerLower s * 65536 * 100 ≤ allowance s * 99) := by decide +kernel

def slp : State := modStall rdy 511 (fun t => { t with st := .sleep })

theorem witness_WakeRequests :
    ((511 : Nat) < 512 ∧ isResting (getStall slp 511) = true ∧ (getStall slp 511).granted = false ∧
      slp.gov.waitq.any (fun q => q.stall == 511) = false ∧ WakeSrc.demand ≠ .ahead) ∧
    isRunning (getStall (modStall rdy 511 (fun t => { t with st := .awake })) 511) = true ∧
    (let q : WakeReq := ⟨511, 0, .demand, false, false⟩
     let s := { slp with gov := { slp.gov with waitq := [q] }, now := 2 ^ 32 }
     s.gov.waitq.find? (fun r => r.stall == 511) = some q ∧ q.alarmed = false ∧ q.time + getF s R.pwrWake_waitAlarm < s.now) := by
  decide +kernel

/-- For StallPower and StallParks. -/
theorem witness_StallPower :
    (let s := modStall slp 511 (fun t => { t with granted := true })
     s.board.railsOn = true ∧ (getStall s 511).granted = true ∧ isResting (getStall s 511) = true ∧ s.mode ≠ .running ∧
      (getStall s 511).late = none ∧ (getChan s (64 + 511)).byPark = false ∧ s.wakesPlain 511) ∧
    (let s := modStall (inImage .running []) 0 (fun t => { t with st := .nap, granted := true })
     s.board.railsOn = true ∧ (getStall s 0).granted = true ∧ isResting (getStall s 0) = true ∧ s.mode = .running ∧
      isBound s 0 = true ∧ (getStall s 0).started = false ∧ getF s R.genStall_idle 0 = 0 ∧ s.wakesPlain 0) ∧
    (let s := modStall rdy 511 (fun t => { t with st := .awake, idleSince := 0 })
     let u := { s with now := 2 ^ 20 }
     (getStall u 511).st = .awake ∧ hasWork u 511 = false ∧ (getStall u 511).linger = none ∧ getF u R.clkStall_pinAwake 511 = 0 ∧
      (getStall u 511).idleSince + max 1 (getF u R.clkIdle_napIdle) ≤ u.now) ∧
    (let s := { modStall rdy 511 (fun t => { t with st := .nap, napSince := 0 }) with now := 2 ^ 20 }
     (getStall s 511).st = .nap ∧ (getStall s 511).granted = false ∧ getF s R.clkStall_noSleep 511 = 0 ∧
      (getStall s 511).napSince + getF s R.clkIdle_sleepIdle ≤ s.now) ∧
    (let s := { modStall (setF rdy R.pwrBudget_budgetW 0 0) 511 (fun t => { t with st := .awake }) with
       gov := { rdy.gov with toPark := [(511, false)] } }
     s.board.railsOn = true ∧ s.gov.toPark.find? (fun q => q.1 == 511) = some (511, false) ∧ parksNow s 511 false = true ∧
      isRunning (getStall s 511) = true ∧ s.gov.waitq.any (fun q => q.stall == 511) = false) := by
  unfold State.wakesPlain; decide +kernel

/-- For LedgerCorrected and DieLimits. -/
theorem witness_LedgerAndDies : rdy.board.railsOn = true ∧
    (let s := { rdy with now := 2 ^ 20 }
     (3 : Nat) < 4 ∧ (1023 : Nat) < 2 ^ 10 ∧ getF s R.pwrDie_ilimA 3 < 1023 ∧ diePassed s 0 3 50 = true ∧ getF s R.pwrDie_tI 3 < 7 ∧
      (255 : Nat) < 2 ^ 8 ∧ getF s R.pwrDie_thermC 3 ≤ 255 ∧ diePassed s 2 3 2500 = true ∧ getF s R.pwrDie_tT 3 < 7) ∧
    (let s := { setF rdy R.pwrDie_tI 3 7 with now := 2 ^ 20 }
     100 * 0 < 95 * getF s R.pwrDie_ilimA 3 ∧ diePassed s 1 3 2500 = true ∧ 0 < getF s R.pwrDie_tI 3 ∧ getF s R.pwrDie_tI 3 ≤ 7) ∧
    (let s := { setF rdy R.pwrDie_tT 3 7 with now := 2 ^ 20 }
     0 + 5 < getF s R.pwrDie_thermC 3 ∧ diePassed s 3 3 25000 = true ∧ 0 < getF s R.pwrDie_tT 3 ∧ getF s R.pwrDie_tT 3 ≤ 7) ∧
    (let s := modStall (setF (setF rdy R.pwrDie_tI 3 7) R.pwrDie_currentA 3 1023) 511 (fun t => { t with st := .awake })
     dieStep s 3 = 7 ∧ getF s R.pwrDie_ilimA 3 < getF s R.pwrDie_currentA 3 ∧
      (parkOrder s).find? (fun q => dieOf q == 3 && !s.gov.toPark.any (fun r => r.1 == q)) = some 511) := by decide +kernel

/-- A module whose host port is up, in a mode. -/
def hostUp (m : Mode) : State := setF (inMode m) R.hstStatus_state 0 2

/-- The key of the open session of these tests. -/
def keyA : Bytes := List.replicate 32 7

/-- The same with an open session. -/
def inSession (m : Mode) : State :=
  { hostUp m with ses := { Session.reset with key := some keyA, lastId := 1, expect := 1, peer := addrA } }

/-- A control frame of a type and body that the host port takes in. -/
def ctlOf (ty : Nat) (body : Bytes) : CtlFrame :=
  { ctlA with
    magic := 0x4356, version := 1, ftype := ty, seq := 1, bodyLen := body.length, body := body
    rx := { rxHost with dstIp := linkLocal 0, dstUdp := 0xB810, udpLen := 56 + body.length } }

/-- A frame with the tag of a session key. -/
def signed (k : Bytes) (f : CtlFrame) : CtlFrame := { f with tag := ctlTag k f }

theorem takes_signed {s : State} {k : Bytes} {f : CtlFrame} {ty : Nat} (hk : s.ses.key = some k)
    (hi : f.sessionId = getF s R.ctlState_sessionId) (h : s.hears f ty) (hq : seqAhead s f = 0) : s.takes (signed k f) ty := by
  refine ⟨h, ?_, hq⟩
  have e : ctlTag k (signed k f) = ctlTag k f := rfl
  simp only [authentic, hk, e]
  simp [signed, hi]

/-- What `hears` asks, as a Bool. -/
def hearsB (s : State) (f : CtlFrame) (ty : Nat) : Bool :=
  s.board.railsOn && f.rx.port == 24 && portOpen s 24 && dropReason s f.rx == 0 &&
    f.rx.dstUdp == getF s R.hstCtl_controlUdp && ctlForm f && f.ftype == ty

theorem hears_of {s : State} {f : CtlFrame} {ty : Nat} (h : hearsB s f ty = true) : s.hears f ty := by
  simpa [hearsB, State.hears, and_assoc] using h

/-- An OPEN for key slot 0. -/
def openA : CtlFrame := ctlOf 0x01 (List.replicate 160 0)

def withSlot (s : State) : State := { s with nv := { s.nv with slots := [⟨1, []⟩, ⟨0, []⟩, ⟨0, []⟩, ⟨0, []⟩] } }

def chalA : Challenge := { openBody := openA.body, chalBody := [], ephemeral := [], keySlot := 0, preempt := false, sent := 0 }

theorem witness_SessionOpening :
    ((withSlot (hostUp .ready)).hears openA 0x01 ∧ upStates (withSlot (hostUp .ready)) = true ∧
      sessionOpen (withSlot (hostUp .ready)) = false ∧ slotAllowed (withSlot (hostUp .ready)) (openSlot openA.body) = true) ∧
    (let s := { withSlot (hostUp .ready) with ses := { Session.reset with challenge := some chalA } }
     s.hears (ctlOf 0x03 (List.replicate 120 0)) 0x03 ∧ pendingChallenge s = some chalA ∧ upStates s = true ∧
      sessionOpen s = false ∧ slotAllowed s chalA.keySlot = true) ∧
    (let s := { rdy with ses := { Session.reset with challenge := some chalA }, now := 25000000 }
     s.board.railsOn = true ∧ s.ses.challenge = some chalA ∧ chalA.sent + 25000000 ≤ s.now) :=
  ⟨⟨hears_of (by decide +kernel), by decide +kernel⟩, ⟨hears_of (by decide +kernel), by decide +kernel⟩, by decide +kernel⟩

/-- The operation of an ACCESS body: read of eight bytes at HBM address 0. -/
def readOp : Bytes := [1, 0, 0, 0] ++ leBytes 4 8 ++ leBytes 8 0

theorem witness_SessionFrames :
    (inSession .ready).takes (signed keyA (ctlOf 0x06 [])) 0x06 ∧ (inSession .ready).takes (signed keyA (ctlOf 0x07 [])) 0x07 ∧
    (inSession .ready).takes (signed keyA (ctlOf 0x05 [])) 0x05 ∧
    ((inSession .ready).takes (signed keyA (ctlOf 0x10 readOp)) 0x10 ∧ (accessOps (signed keyA (ctlOf 0x10 readOp)).body).isSome = true ∧
      (signed keyA (ctlOf 0x10 readOp)).planTag = 0) :=
  ⟨takes_signed rfl (by decide +kernel) (hears_of (by decide +kernel)) (by decide +kernel),
    takes_signed rfl (by decide +kernel) (hears_of (by decide +kernel)) (by decide +kernel),
    takes_signed rfl (by decide +kernel) (hears_of (by decide +kernel)) (by decide +kernel),
    takes_signed rfl (by decide +kernel) (hears_of (by decide +kernel)) (by decide +kernel), by decide +kernel, rfl⟩

def outA : CtlOut :=
  { ftype := 0x31, sessionId := 0, seq := 1, ack := 0, planTag := 0, step := 0, flags := 0, body := [], tagged := true }

/-- For SessionTimers and BusyNoted. -/
theorem witness_SessionTimers :
    (let s := { inSession .ready with now := 25000 * 10000 }
     s.board.railsOn = true ∧ sessionOpen s = true ∧ s.ses.lastRx + 25000 * getF s R.ctlTimers_idleMs ≤ s.now) ∧
    (let s := { inSession .ready with ses := { (inSession .ready).ses with unacked := [⟨outA, 7, 0⟩] } }
     s.ses.unacked = [⟨outA, 7, 0⟩] ∧ (0 : Nat) ≤ s.now ∧ 7 < getF s R.ctlTimers_retxTries) ∧
    (let s := { inSession .ready with ses := { (inSession .ready).ses with unacked := [⟨outA, 8, 0⟩] } }
     sessionOpen s = true ∧ s.ses.unacked = [⟨outA, 8, 0⟩] ∧ getF s R.ctlTimers_retxTries ≤ 8) ∧
    (let s := { rdy with job := { Job.reset with running := some runA }, now := 2500 }
     s.job.running = some runA ∧ 0 + 2500 ≤ s.now) := by decide +kernel

/-- For RegisterWrites and RingRegisters. -/
theorem witness_RegisterAccess :
    (∃ r, findReg 0x0F0003000010 = some r ∧ r.pending = false ∧ regStatus rdy r 0 = 0 ∧
      writeActs.find? (fun x => x.1 == r.reg.base) = none ∧ R.clkIdle_napIdle ∈ r.reg.fields) ∧
    (∃ r, findReg 0x0F0003008010 = some r ∧ r.pending = true ∧ regStatus rdy r 0 = 0 ∧ R.clkIdle_napIdle ∈ r.reg.fields ∧
      R.clkIdle_napIdle.acc = .rwg) ∧
    findReg 0x0F00FFFFFFF8 = none ∧ ((1 : Nat) < 2 ∧ ringConsumer rdy 1 < 2 ^ 32) :=
  ⟨⟨(findReg 0x0F0003000010).get (by decide +kernel), Option.some_get _ |>.symm, by decide +kernel, by decide +kernel,
      Option.isNone_iff_eq_none.mp (by decide +kernel), by decide +kernel⟩,
    ⟨(findReg 0x0F0003008010).get (by decide +kernel), Option.some_get _ |>.symm, by decide +kernel⟩, by decide +kernel⟩

/-- A module in a mode with one command record on ring 0. -/
def withCmd (s : State) (op plan : Nat) (args : List Nat) : State :=
  setF { s with mem := putBytes [] 0 (leBytes 2 op ++ leBytes 2 0 ++ leBytes 4 9 ++ leBytes 8 plan ++
    args.flatMap (leBytes 8)) } R.ctlRingDoorbell_producer 0 1

/-- The record that stands on ring 0. -/
def cmdOf (s : State) : CmdRec := parseCmd 0 (nextRecord s 0)

/-- What `holds` asks, as a Bool. -/
def holdsB (s : State) (op : Nat) : Bool :=
  s.board.railsOn && canTake s 0 && (cmdOf s).opcode == op && zeroAt (nextRecord s 0) 2 2

theorem holds_of {s : State} {op : Nat} (h : holdsB s op = true) : s.holds 0 op (cmdOf s) := by
  simp only [holdsB, Bool.and_eq_true, beq_iff_eq] at h
  exact ⟨by decide, h.1.1.1, h.1.1.2, rfl, h.1.2, h.2⟩

/-- For HaltAndEnd and RolledBack. -/
theorem witness_HaltAndEnd :
    (withCmd rdy 0x0001 0 []).holds 0 0x0001 (cmdOf (withCmd rdy 0x0001 0 [])) ∧
    ((withCmd run 0x0002 0 []).holds 0 0x0002 (cmdOf (withCmd run 0x0002 0 [])) ∧ inJob (withCmd run 0x0002 0 []) = true) ∧
    ((withCmd (inMode .halted) 0x0003 0 []).holds 0 0x0003 (cmdOf (withCmd (inMode .halted) 0x0003 0 [])) ∧
      (withCmd (inMode .halted) 0x0003 0 []).mode = .halted) ∧
    (let s := withCmd (setF (inMode .gate) R.gteStatus_gateComplete 0 1) 0x0004 0 []
     s.holds 0 0x0004 (cmdOf s) ∧ s.mode = .gate ∧ onF s R.gteStatus_gateComplete = true ∧ s.job.token = none ∧
      s.team.step = none) ∧
    (let s := withCmd (inMode .halted) 0x0005 0 [1]
     s.holds 0 0x0005 (cmdOf s) ∧ haltedKept s = true ∧ (cmdOf s).planTag = getF s R.gtePlan_planTag) :=
  ⟨holds_of (by decide +kernel), ⟨holds_of (by decide +kernel), by decide +kernel⟩,
    ⟨holds_of (by decide +kernel), by decide +kernel⟩, ⟨holds_of (by decide +kernel), by decide +kernel⟩,
    ⟨holds_of (by decide +kernel), by decide +kernel⟩⟩

theorem witness_ImageLoad : (withCmd rdy 0x3001 0 [0, 64, 0]).holds 0 0x3001 (cmdOf (withCmd rdy 0x3001 0 [0, 64, 0])) ∧
    (withCmd rdy 0x3001 0 [0, 64, 0]).mode = .ready ∧ (withCmd rdy 0x3001 0 [0, 64, 0]).job.loading = none :=
  ⟨holds_of (by decide +kernel), by decide +kernel⟩

theorem witness_ImageLoaded :
    (let s := { modStall rdy 0 (fun t => { t with st := .awake }) with job := { Job.reset with running := some runA, loading := some (imageOf []) } }
     s.board.railsOn = true ∧ s.mode = .ready ∧ s.job.running = some runA ∧ runA.cmd.opcode = 0x3001 ∧
      s.job.loading = some (imageOf []) ∧ writesWait s ((ownStalls (imageOf []) (ownIndex s)).filter (fun p =>
        !((ownStalls (imageOf []) (ownIndex s)).filter (fun q => [511].contains q)).contains p)) = false) ∧
    (let s := withCmd (inImage .harnessed []) 0x3002 0 []
     s.holds 0 0x3002 (cmdOf s) ∧ s.mode = .harnessed ∧ (cmdOf s).planTag = getF s R.gtePlan_planTag) :=
  ⟨by decide +kernel, holds_of (by decide +kernel), by decide +kernel⟩

theorem witness_ImageUnload :
    (let s := withCmd (inImage .harnessed []) 0x3002 0 []
     s.holds 0 0x3002 (cmdOf s) ∧ s.mode = .harnessed ∧ (cmdOf s).planTag = getF s R.gtePlan_planTag) ∧
    (let r : Running := ⟨{ cmdA with opcode := 0x3002 }, 0, true, some 0, 0⟩
     let s := { inImage .harnessed [] with job := { (inImage .harnessed []).job with running := some r } }
     s.board.railsOn = true ∧ s.mode = .harnessed ∧ s.job.running = some r ∧ r.cmd.opcode = 0x3002 ∧
      timeOver { s with now := (s.now + 1) % 2 ^ 64 } r = true) :=
  ⟨⟨holds_of (by decide +kernel), by decide +kernel⟩, by decide +kernel⟩

def amendA : Amend := { cmd := cmdA, image := imageOf [], types := [], structural := false, length := 0, staged := false }

def tokenA : Token := { step := 7, planTag := 0, snapshot := [] }

theorem witness_Amendments :
    (let s := withCmd (inImage .harnessed []) 0x3003 0 [4096, 64]
     let u := { s with mem := putBytes s.mem (4096 + 8) (leBytes 4 64) }
     u.holds 0 0x3003 (cmdOf u) ∧ inJob u = true ∧ projected u = some (imageOf []) ∧
      imageSpan (u.taken 0) (arg (cmdOf u) 0) (arg (cmdOf u) 1) = true ∧ u.job.amends.length < 4 ∧
      getF u R.hrnHeld_heldBytes + arg (cmdOf u) 1 ≤ heldMax) ∧
    (let s := { inMode .harnessed with job := { Job.reset with amends := [amendA] } }
     s.board.railsOn = true ∧ s.job.amends.findIdx? (fun a => !a.staged) = some 0 ∧ s.job.token = none) ∧
    (let s := { inMode .harnessed with job := { Job.reset with amends := [amendA], token := some tokenA } }
     s.job.amends.findIdx? (fun a => !a.staged) = some 0 ∧ s.job.token = some tokenA ∧ atRest s = true ∧ tokenA.step < 2 ^ 40) :=
  ⟨⟨holds_of (by decide +kernel), by decide +kernel⟩, by decide +kernel, by decide +kernel⟩

/-- A GATE frame for step 7. -/
def gateA : CtlFrame := { ctlOf 0x20 (leBytes 8 7) with step := 7 }

theorem witness_GateToken :
    (let s := setF (inSession .harnessed) R.gteNext_anyStep 0 1
     s.takes (signed keyA gateA) 0x20 ∧ gateA.step = fieldAt gateA.body 0 8 ∧ gateA.step < 2 ^ 40 ∧ inJob s = true ∧
      s.job.token = none ∧ jobEnding s = false ∧ gateA.planTag = getF s R.hrnPlanNext_planTag ∧ stepNo s ≠ 0xFFFFFFFFFF ∧
      onF s R.gteNext_anyStep = true ∧ atRest s = true ∧ amendsStaged s = true) ∧
    (let s := setF (inSession .running) R.gteNext_expected 0 7
     s.takes (signed keyA gateA) 0x20 ∧ inJob s = true ∧ s.job.token = none ∧ jobEnding s = false ∧
      gateA.planTag = getF s R.hrnPlanNext_planTag ∧ stepNo s ≠ 0xFFFFFFFFFF ∧ getF s R.gteNext_expected = gateA.step ∧
      atRest s = false) :=
  ⟨⟨takes_signed rfl (by decide +kernel) (hears_of (by decide +kernel)) (by decide +kernel), by decide +kernel⟩,
    takes_signed rfl (by decide +kernel) (hears_of (by decide +kernel)) (by decide +kernel), by decide +kernel⟩

/-- For GateWindow and SecuringHold. -/
theorem witness_GateWindow :
    (let s := inMode .gate
     s.board.railsOn = true ∧ s.mode = .gate ∧ onF s R.gteStatus_gateComplete = false ∧ s.job.gcReady = false ∧
      writesWait s s.job.toWrite = false ∧ anyLinkDown s = false ∧ s.job.token = none ∧ onF s R.gteStatus_haltPending = false) ∧
    (let s := { inMode .gate with job := { Job.reset with gcReady := true } }
     onF s R.gteStatus_gateComplete = false ∧ s.job.gcReady = true ∧ s.job.gateHold = false ∧ holdCause s = none) ∧
    (let s := { inMode .gate with job := { Job.reset with gcHeldSince := some 0 }, now := 2 ^ 60, team := { Team.reset with step := some 1 } }
     s.job.gcHeldSince = some 0 ∧ holdCause s = some 0 ∧ s.job.notifiedHold = false ∧
      0 + 25000 * getF s R.pairCtl_secureAlarmMs < s.now) ∧
    (rdy.board.railsOn = true ∧ rdy.job.token = none) := by decide +kernel

/-- For MirrorCopied, LoftFilled and Scrubbed. -/
theorem witness_MemoryCommands :
    ((withCmd rdy 0xD001 0 [0, 65536, 0, 1]).holds 0 0xD001 (cmdOf (withCmd rdy 0xD001 0 [0, 65536, 0, 1])) ∧
      (withCmd rdy 0xD001 0 [0, 65536, 0, 1]).mode = .ready) ∧
    (let s := setFs (withCmd rdy 0x9001 0 [0x040000000000, 64, 1]) [(R.bruFit_loftChannelGib, 256), (R.lftChannel_populated, 1), (R.lftChannel_gib, 256)]
     s.holds 0 0x9001 (cmdOf s) ∧ anyLinkDown s = false ∧ s.mode = .ready ∧ s.team.pages = [] ∧
      fillStatus (s.taken 0) (arg (cmdOf s) 0) (arg (cmdOf s) 1) = 0 ∧ arg (cmdOf s) 1 ≠ 0) ∧
    (let s := withCmd rdy 0xE004 0 [31]
     s.holds 0 0xE004 (cmdOf s) ∧ s.mode = .ready ∧ 0 < arg (cmdOf s) 0 ∧ arg (cmdOf s) 0 < 32) ∧
    anyLinkDown { rdy with upd := { rdy.upd with retraining := [(3, 0)] } } = true :=
  ⟨⟨holds_of (by decide +kernel), by decide +kernel⟩, ⟨holds_of (by decide +kernel), by decide +kernel⟩,
    ⟨holds_of (by decide +kernel), by decide +kernel⟩, by decide +kernel⟩

theorem hbm_range {a : Nat} (h : a < hbmEnd) : rangeOf a = some 0 := by rw [rangeOf, if_pos h]

theorem hbm_span (s : State) {a n : Nat} (h : a < hbmEnd) (e : a + n ≤ hbmEnd) : judgeSpan s a n = (0, 0) := by
  have r := hbm_range h
  have q : rangeOf (a + n - 1) = some 0 := hbm_range (by omega)
  simp [judgeSpan, addressable, oneRange, reachesAbsent, reachesFaulted, reachesResting, r, q]

theorem hbm_write (s : State) {a : Nat} {b : Bytes} (h : a < hbmEnd) (e : a + b.length ≤ hbmEnd) :
    judgeWrite coreMaster s a b = (0, 0) := by
  have r := hbm_range h
  simp [judgeWrite, judgePlace, firstRefusal, hbm_span s h e, coreMaster, r]

theorem hbm_read (s : State) {a n : Nat} (h : a < hbmEnd) (e : a + n ≤ hbmEnd) : judgeRead s a n = (0, 0) := by
  have r := hbm_range h
  simp [judgeRead, firstRefusal, hbm_span s h e, r]

theorem leBytes_len (n v : Nat) : (leBytes n v).length = n := by
  induction n generalizing v with
  | zero => rfl
  | succ n ih => simp [leBytes, ih]

theorem slice_len (b : Bytes) (o n : Nat) : (slice b o n).length = n := by simp [slice]

theorem digest_len (b : Bytes) (n : Nat) : (shake256 b n).length ≤ n := by simp [shake256, sponge]

theorem imageDigest_len (s : State) : (imageDigest s).length ≤ 64 := by
  unfold imageDigest; split <;> simp [digest_len]

theorem ascii_len : (ascii "VATT").length = 4 := by decide


theorem head_len (s : State) (n : Bytes) : (reportHead s n).length ≤ 392 := by
  have h := imageDigest_len s
  have d := digest_len ((List.range 4).flatMap (slotBytes s)) 32
  unfold reportHead
  generalize imageDigest s = x at *
  generalize shake256 ((List.range 4).flatMap (slotBytes s)) 32 = y at *
  simp only [List.length_append, leBytes_len, slice_len, ascii_len]
  omega

theorem report_len (s : State) (n : Bytes) : (report s n).length ≤ 512 := by
  have h := head_len s n
  unfold report
  generalize reportHead s n = x at *
  simp only [List.length_append, leBytes_len, slice_len]
  omega

theorem chain_len : chain.length ≤ 4096 := List.length_take_le _ _

theorem witness_Attested :
    let s := withCmd rdy 0xE001 0 [64, 8192, 4100]
    let c := cmdOf s
    let u := s.taken 0
    s.holds 0 0xE001 c ∧
      (firstRefusal [judgeRead u (arg c 0 + 8) 32, judgeWrite coreMaster u (arg c 0) (report u (readBytes u (arg c 0 + 8) 32)),
        judgeWrite coreMaster u (arg c 1) chainBytes]).2 = 0 ∧
      arg c 0 % 64 = 0 ∧ chain.length + 4 ≤ arg c 2 ∧ rangeOf (arg c 0) ≠ some 3 ∧ rangeOf (arg c 0) ≠ some 4 ∧
      rangeOf (arg c 1) ≠ some 3 ∧ rangeOf (arg c 1) ≠ some 4 := by
  intro s c u
  have h0 : arg c 0 = 64 := by decide +kernel
  have h1 : arg c 1 = 8192 := by decide +kernel
  have h2 : arg c 2 = 4100 := by decide +kernel
  have n := chain_len
  have w := hbm_write u (a := 64) (b := report u (readBytes u (64 + 8) 32)) (by decide) (by have := report_len u (readBytes u (64 + 8) 32); simp only [hbmEnd]; omega)
  have x := hbm_write u (a := 8192) (b := chainBytes) (by decide) (by simp only [chainBytes, List.length_append, leBytes_len, hbmEnd]; omega)
  refine ⟨holds_of (by decide +kernel), ?_, by rw [h0], by omega, ?_⟩
  · rw [h0, h1, hbm_read u (by decide) (by decide), w, x]; rfl
  · rw [h0, h1]; decide

theorem witness_Scrubbed :
    let r : Running := ⟨{ cmdA with opcode := 0xE004, args := [31] }, 0, true, some 0, 0⟩
    let s := { rdy with job := { Job.reset with running := some r } }
    s.board.railsOn = true ∧ s.mode = .ready ∧ s.job.running = some r ∧ r.cmd.opcode = 0xE004 ∧ arg r.cmd 0 < 32 ∧
      timeOver { s with now := (s.now + 1) % 2 ^ 64 } r = true ∧ writesWait s s.job.toWrite = false := by decide +kernel

theorem witness_KeyAndFirmware :
    (let s := withCmd rdy 0xE002 0 [4096]
     s.holds 0 0xE002 (cmdOf s) ∧ s.mode = .ready ∧ inHbm (arg (cmdOf s) 0) 224 = true) ∧
    (let s := withCmd rdy 0xE003 0 [4096, 192]
     s.holds 0 0xE003 (cmdOf s) ∧ s.mode = .ready ∧ 192 ≤ arg (cmdOf s) 1 ∧ arg (cmdOf s) 1 ≤ 2 ^ 24 ∧
      inHbm (arg (cmdOf s) 0) (arg (cmdOf s) 1) = true) :=
  ⟨⟨holds_of (by decide +kernel), by decide +kernel⟩, holds_of (by decide +kernel), by decide +kernel⟩

/-- Stall 0 at work on a program of one instruction, with these parameter registers. -/
def atIns (w : Nat) (regs : List (Nat × Nat)) : State :=
  setF (modStall (inImage .running [w]) 0 (fun t => { t with st := .awake, started := true, regs := regs })) R.genStall_pass 0 1

/-- What `issues` asks, as a Bool. -/
def issuesB (s : State) (p op w : Nat) : Bool :=
  decide (p < 512) && s.board.railsOn && canIssue s p && (programOf s p)[insAt s p]? == some w && insOp w == op &&
    !(bit w 0 && frozenLayer s (getStall s p).layer)

theorem issues_of {s : State} {p op w : Nat} (h : issuesB s p op w = true) : s.issues p op w := by
  simp only [issuesB, Bool.and_eq_true, beq_iff_eq, decide_eq_true_eq, Bool.not_eq_true'] at h
  exact ⟨h.1.1.1.1.1, h.1.1.1.1.2, h.1.1.1.2, h.1.1.2, h.1.2, h.2⟩

/-- An instruction word with its opcode. -/
def word (op : Nat) (l : List (Nat × Nat)) : Nat := op * 2 ^ 56 + (l.map (fun x => x.2 * 2 ^ x.1)).sum

/-- An image with one expert of layer 0, whose intake is stall 1, routed to by stall 0, and one layer of routed attention. -/
def imageT (prog : List Nat) : Image :=
  { imageOf prog with placement := [{ placeA with tensor := 10 }, { placeA with slot := 1 }], homes := [⟨0, 0, 0, 0, 1, 1⟩], attention := [⟨0, 0, 5, 1, 0, 1⟩] }

theorem witness_SeqControl :
    (atIns 0 []).issues 0 0x00 0 ∧
    ((atIns (word 3 []) []).issues 0 0x03 (word 3 []) ∧ bit (word 3 []) 25 = false) ∧
    (let w := word 3 [(25, 1), (47, 1)]
     let s := atIns w []
     s.issues 0 0x03 w ∧ bit w 25 = true ∧ routedCount s 0 (bits w 55 47) = 0 ∧ layerClosed s (bits w 55 47) = true) ∧
    (let w := word 3 [(25, 1)]
     let s := { atIns w [] with job := { (atIns w []).job with image := some (imageT [w]) } }
     s.issues 0 0x03 w ∧ bit w 25 = true ∧ routedCount s 0 (bits w 55 47) = 0 ∧ layerClosed s (bits w 55 47) = false) ∧
    (let w := word 9 [(51, 1)]
     let s := setF (atIns w []) R.genStall_bank0 0 1
     s.issues 0 0x09 w ∧ waitOver (s.ended 0) 0 w = false) ∧
    (let w := word 0x20 [(0, 1)]
     let s := { atIns w [] with job := { (atIns w []).job with image := some { imageOf [w] with frozen := [1] } } }
     s.board.railsOn = true ∧ canIssue s 0 = true ∧ (programOf s 0)[insAt s 0]? = some w ∧ bit w 0 = true ∧
      frozenLayer s (getStall s 0).layer = true ∧ (0x20, Instr.mm 0) ∈ stepRows 0 ∧ 0x20 = insOp w) ∧
    (let w := word 8 [(52, 15), (1, 0)]
     (atIns w [(15, 1)]).issues 0 0x08 w) ∧
    (let w := word 9 []
     (atIns w []).issues 0 0x09 w ∧ waitOver ((atIns w []).ended 0) 0 w = true) ∧
    (let w := word 1 []
     (atIns w []).issues 0 0x01 w ∧ (getStall (closeAll ((atIns w []).ended 0) 0 0) 0).stop = false) ∧
    (let w := word 2 []
     (atIns w []).issues 0 0x02 w ∧ asyncDone ((atIns w []).ended 0) 0 = true ∧ (getStall (atIns w []) 0).combines = [] ∧
      (getStall (closeAll ((atIns w []).ended 0) 0 1) 0).stop = false) :=
  ⟨issues_of (by decide +kernel), ⟨issues_of (by decide +kernel), by decide +kernel⟩,
    ⟨issues_of (by decide +kernel), by decide +kernel⟩, ⟨issues_of (by decide +kernel), by decide +kernel⟩,
    ⟨issues_of (by decide +kernel), by decide +kernel⟩, by decide +kernel, issues_of (by decide +kernel),
    ⟨issues_of (by decide +kernel), by decide +kernel⟩, ⟨issues_of (by decide +kernel), by decide +kernel⟩,
    issues_of (by decide +kernel), by decide +kernel⟩

theorem witness_SeqParameters :
    (atIns (word 4 [(52, 0)]) []).issues 0 0x04 (word 4 [(52, 0)]) ∧ (atIns (word 5 [(52, 15)]) []).issues 0 0x05 (word 5 [(52, 15)]) ∧
    (let w := word 6 [(52, 15), (48, 1)]
     let s := atIns w [(1, 0x37FFF8)]
     s.issues 0 0x06 w ∧ inStore (slotOffset s 0 w) 8 = true ∧ s.brandBad = []) ∧
    (let w := word 7 [(52, 15), (48, 1)]
     let s := atIns w [(1, 0x37FFF8)]
     s.issues 0 0x07 w ∧ inStore (slotOffset s 0 w) 8 = true ∧ s.brandBad = [] ∧ s.team.pages = []) :=
  ⟨issues_of (by decide +kernel), issues_of (by decide +kernel), ⟨issues_of (by decide +kernel), by decide +kernel⟩,
    issues_of (by decide +kernel), by decide +kernel⟩

theorem witness_SeqStarts :
    (let w := word 0x0A [(52, 1)]
     (atIns w []).issues 0 0x0A w ∧ (getChan (atIns w []) (64 + 0)).st = 0 ∧ preg (atIns w []) 0 (bits w 55 52) % 2 ^ 23 % 64 = 0 ∧
      inStore (preg (atIns w []) 0 (bits w 55 52) % 2 ^ 23) 64 = true) ∧
    (let w := word 0x0A [(52, 1)]
     let s := atIns w [(1, 8)]
     s.issues 0 0x0A w ∧ preg s 0 (bits w 55 52) % 2 ^ 23 % 64 ≠ 0 ∧ getF s R.genFault_valid 0 = 0) ∧
    (let w := word 0x0A [(52, 1)]
     let s := atIns w [(1, 0x7FFFC0)]
     s.issues 0 0x0A w ∧ inStore (preg s 0 (bits w 55 52) % 2 ^ 23) 64 = false ∧ getF s R.genFault_valid 0 = 0) ∧
    (let w := word 0x10 [(42, 1)]
     let s := atIns w [(1, 2 ^ 48)]
     s.issues 0 0x10 w ∧ placeOf s 0 (topOf s 0 w).slot = some placeA ∧
      (topSpans (topOf s 0 w) placeA.twoSlice).all (fun x => inStore x.1 x.2) = true ∧ (topOf s 0 w).set = 0 ∧
      (getStall s 0).ops = [] ∧ quiesced s 0 (topOf s 0 w).slot = false ∧ (topOf s 0 w).onFallback = false ∧ (topOf s 0 w).n ≠ 0) :=
  ⟨⟨issues_of (by decide +kernel), by decide +kernel⟩, ⟨issues_of (by decide +kernel), by decide +kernel⟩,
    ⟨issues_of (by decide +kernel), by decide +kernel⟩, issues_of (by decide +kernel), by decide +kernel⟩

theorem witness_SeqGradient :
    (let w := word 0x20 [(52, 1), (48, 2), (44, 3), (40, 4), (36, 1), (32, 2)]
     let s := atIns w [(1, 0x4800004000), (2, 0x4800008000), (3, 0x0000002000012000), (4, 16 * 2 ^ 48 + 64 * 2 ^ 32 + 128 * 2 ^ 16)]
     s.issues 0 0x20 w ∧ mmFault (mmOf s 0 w) = none ∧ (getStall s 0).mmq.length < 2) ∧
    (let w := word 0x40 [(55, 1)]
     (atIns w []).issues 0 0x40 w ∧ (atIns w []).team.pages = [] ∧ (getStall (atIns w []) 0).mmq = []) ∧
    (let w := word 0x41 []
     (atIns w []).issues 0 0x41 w ∧ placeOf (atIns w []) 0 (bits w 54 50) = some placeA ∧ (getStall (atIns w []) 0).touts = []) :=
  ⟨⟨issues_of (by decide +kernel), by decide +kernel⟩, ⟨issues_of (by decide +kernel), by decide +kernel⟩, issues_of (by decide +kernel), by decide +kernel⟩

theorem witness_SeqQuantise :
    (let w := word 0x11 [(51, 1), (47, 2)]
     let s := atIns w [(1, 2 ^ 32), (2, 0x00400020)]
     let a := preg s 0 (bits w 54 51)
     let b := preg s 0 (bits w 50 47)
     s.issues 0 0x11 w ∧ s.brandBad = [] ∧ inStore (64 * bits a 15 0) (2048 * bits a 47 32) = true ∧
      inStore (64 * bits b 15 0) (512 * bits a 47 32) = true ∧ inStore (64 * bits b 31 16) (4 * bits a 47 32) = true ∧
      (match qinTokens (s.ended 0) 0 (64 * bits a 15 0) (bits a 31 16) (bits a 47 32) with
       | some l => l.all (fun x => (firstBad 0 x.2).isNone)
       | none => false) = true) :=
  ⟨issues_of (by decide +kernel), by decide +kernel⟩

theorem witness_SeqVector :
    (let w := word 0x30 [(51, 31), (47, 1), (43, 5)]
     let s := atIns w []
     s.issues 0 0x30 w ∧ s.brandBad = [] ∧ inStore (64 * bits (preg s 0 (bits w 50 47)) 15 0) (segBytes (bits w 46 43)) = true ∧
      (match decodeSeg (bits w 46 43) (readBytes s (storeBase 0) (segBytes (bits w 46 43))) with
       | .ok l => (firstBad 0 (l.map exactToF32)).isNone
       | .error _ => false) = true) ∧
    (let w := word 0x31 [(51, 31), (47, 1), (43, 15)]
     let s := atIns w []
     s.issues 0 0x31 w ∧ inStore (64 * bits (preg s 0 (bits w 50 47)) 15 0) (vstSize (s.ended 0) (bits w 46 43) (getStall s 0).layer) = true ∧
      bits w 46 43 = 15) ∧
    (let w := word 0x32 [(51, 31), (30, 17)]
     let s := atIns w []
     s.issues 0 0x32 w ∧ (vopBad (vopLanes (bits w 35 30) (bits w 29 21) (vreg s 0 (bits w 50 46)) (vreg s 0 (bits w 45 41))
      (vreg s 0 (bits w 40 36)))).isNone = true) ∧
    (atIns (word 0x33 [(51, 31)]) []).issues 0 0x33 (word 0x33 [(51, 31)]) :=
  ⟨⟨issues_of (by decide +kernel), by decide +kernel⟩, ⟨issues_of (by decide +kernel), by decide +kernel⟩,
    ⟨issues_of (by decide +kernel), by decide +kernel⟩, issues_of (by decide +kernel)⟩

/-- Stall 0 at a travel instruction whose descriptor stands at offset 0 of its store. -/
def atTravel (w : Nat) (d : Bytes) : State :=
  let s := atIns w []
  { s with job := { s.job with image := some (imageT [w]) }, mem := putBytes [] (storeBase 0) (slice d 0 64)
           rte := { s.rte with lists := [⟨0, 0, 0x2000, 0, 1, 0, 1⟩], queues := [(0, ⟨2, 5, 1, 0, 0, 0, 4, 4, 0, 0⟩)] } }

def routeA : Bytes := [0, 0, 1, 0] ++ leBytes 4 0 ++ leBytes 4 1 ++ leBytes 4 1 ++ leBytes 4 0x1000 ++ leBytes 4 64 ++ leBytes 4 0 ++ leBytes 4 0x2000

def sendA : Bytes := [1, 0, 5, 1] ++ leBytes 2 0 ++ [0, 1] ++ leBytes 4 1 ++ leBytes 4 0x2000 ++ leBytes 12 0 ++ leBytes 4 0x3000 ++ leBytes 4 0x3000

def combA : Bytes := [0, 1, 0, 0] ++ leBytes 2 0 ++ leBytes 2 1 ++ leBytes 4 1 ++ leBytes 4 0x2000 ++ leBytes 8 0 ++ leBytes 8 0x10000

/-- A route entry in the list at 0x2000: its first choice stands. -/
def withEntry (s : State) : State := { s with mem := putBytes s.mem (storeBase 0 + 0x2000) [0, 0, 0, 0, 0, 0, 1, 0] }

theorem witness_SeqTravel :
    (let w := word 0x50 []
     let s := atTravel w routeA
     let u := s.ended 0
     let b := readBytes s (storeBase 0) 64
     s.issues 0 0x50 w ∧ s.brandBad = [] ∧ preg s 0 (bits w 55 52) = 0 ∧ inStore 0 64 = true ∧
      routeFault u 0 b (parseRoute b) = none ∧ (badScore u 0 (parseRoute b)).isNone = true ∧ (parseRoute b).kind = 0 ∧
      (badGate u 0 (parseRoute b)).isNone = true) ∧
    (let w := word 0x50 []
     let s := atTravel w ((routeA.set 0 1).set 25 0x30)
     let u := s.ended 0
     let b := readBytes s (storeBase 0) 64
     s.issues 0 0x50 w ∧ s.brandBad = [] ∧ routeFault u 0 b (parseRoute b) = none ∧
      (badScore u 0 (parseRoute b)).isNone = true ∧ (parseRoute b).kind = 1 ∧ (blockPastEnd u 0 (parseRoute b)).isNone = true ∧
      ((attnOf u (parseRoute b).layer).bind (fun a => tooMany u 0 (parseRoute b) a)) = none ∧
      (attnOf u (parseRoute b).layer).isSome = true) ∧
    (let w := word 0x51 []
     let s := withEntry (atTravel w sendA)
     let u := s.ended 0
     let b := readBytes s (storeBase 0) 64
     let d := parseSend b
     let l := rowSpans d (sendToks u 0 d)
     s.issues 0 0x51 w ∧ s.brandBad = [] ∧ sendFault u 0 b d = none ∧ d.kind = 1 ∧
      l.findSome? (fun x => geFault u x.1 x.2) = none ∧ l.any (fun x => linkHeld u x.1 x.2) = false ∧ (geReads u 0 l).2 = true ∧
      (sendToks u 0 d).length = 1 ∧ (getStall (sendAll (geReads u 0 l).1 0 d (sendToks u 0 d)) 0).stop = false) ∧
    (let w := word 0x51 []
     let s := atTravel w (sendA.set 0 3)
     let b := readBytes s (storeBase 0) 64
     s.issues 0 0x51 w ∧ s.brandBad = [] ∧ sendFault (s.ended 0) 0 b (parseSend b) = none ∧ (parseSend b).kind = 3) ∧
    (let w := word 0x52 []
     let s := withEntry (atTravel w combA)
     let b := readBytes s (storeBase 0) 64
     let d := parseComb b
     s.issues 0 0x52 w ∧ s.brandBad = [] ∧ combFault (s.ended 0) 0 b d = none ∧
      counterOf s (queueIx 0 d.queue) < expectedSegs (s.ended 0) 0 d (combList 0 d)) ∧
    (let w := word 0x52 []
     let s := setF (withEntry (atTravel w combA)) R.rteQueue_counter 0 5
     let u := s.ended 0
     let b := readBytes s (storeBase 0) 64
     let d := parseComb b
     let l := combList 0 d
     s.issues 0 0x52 w ∧ s.brandBad = [] ∧ combFault u 0 b d = none ∧ expectedSegs u 0 d l = 1 ∧
      expectedSegs u 0 d l ≤ counterOf u (queueIx 0 d.queue) ∧ linkHeld u d.resid (wideRow d * d.n) = false ∧
      freshCuts u (queueIx 0 d.queue) l = [] ∧ (geReads u 0 (combSpans u 0 d l)).2 = true ∧
      (combBad (geReads u 0 (combSpans u 0 d l)).1 0 d l).isNone = true) ∧
    (let w := word 0x53 []
     let s := atTravel w [1]
     s.issues 0 0x53 w ∧ s.brandBad = [] ∧ wakeFault (s.ended 0) 0 (readBytes s (storeBase 0) 64) = none) :=
  ⟨⟨issues_of (by decide +kernel), by decide +kernel⟩, ⟨issues_of (by decide +kernel), by decide +kernel⟩,
    ⟨issues_of (by decide +kernel), by decide +kernel⟩, ⟨issues_of (by decide +kernel), by decide +kernel⟩,
    ⟨issues_of (by decide +kernel), by decide +kernel⟩, ⟨issues_of (by decide +kernel), by decide +kernel⟩,
    issues_of (by decide +kernel), by decide +kernel⟩


/-- Stall 0 at work, with changes to its record. -/
def busyB (f : Stall → Stall) : State := modStall (atIns 0 []) 0 f

/-- A tile operation of two tokens on slot 0. -/
def opA : TileOp :=
  { mode := 0, slot := 0, n := 2, code := 0, scale := 0x1000, out := 0x2000, set := 0, next := 1, run := 0, instr := 0, layer := 0,
    onFallback := false }

def oneF : Bytes := [0, 0, 128, 63]

theorem witness_TileTokens :
    let s := { busyB (fun t => { t with ops := [opA] }) with mem := putBytes [] (storeBase 0 + 0x1004) oneF }
    (0 : Nat) < 512 ∧ s.board.railsOn = true ∧ (getStall s 0).ops.find? (fun x => x.slot == 0) = some opA ∧
      tokenReady s 0 opA = true ∧ opA.onFallback = false ∧ posOf (getStall s 0) 0 ∉ (getStall s 0).bad ∧ s.brandBad = [] ∧
      opA.set = 0 ∧ placeOf s 0 opA.slot = some placeA ∧ (tokenIn s 0 opA false).2 = some (0x3F800000, List.replicate 512 0) ∧
      ffinite 0x3F800000 = true := by decide +kernel

def sumA : SumSet := { set := 3, run := 0, members := [0, 31], out := 0x4000, mode := 0, n := 1, osize := 2048, next := 0 }

def tvoteA : TileVote :=
  { no := 0, slot := 0, tile := 0, token := 1, mode := 0, groups := [0], outs := [], tvals := [], codes := [], n := 2, scale := 0,
    set := 0, out := 0x2000, pass := 1 }

/-- A product of one tile on zero operands. -/
def prodA : MMOp :=
  { a := 0x10000000000000, b := 0x10000000000000, c := 0, k := 64, m := 64, n := 128, aFmt := 1, bFmt := 1, aOrient := 0, bOrient := 0,
    kind := 2, instr := 0, layer := 0 }

def gvoteA : GeVote := { no := 0, op := prodA, tileM := 0, tileN := 0, cols := [0], acc := [], accI := [], tok := none }

theorem witness_SumWritten :
    let s := busyB (fun t => { t with sets := [sumA], run := 1, bufs := [(bufKey 0 3 0, [0]), (bufKey 31 3 0, [0])] })
    s.board.railsOn = true ∧ (getStall s 0).sets.find? (fun y => y.set == 3) = some sumA ∧ working s 0 = true ∧
      sumA.run < (getStall s 0).run ∧ sumA.members ≠ [] ∧
      (∀ m ∈ sumA.members, (tget? (getStall s 0).bufs (bufKey m sumA.set sumA.next)).isSome = true) ∧
      (firstBad 0 (sumOuts (sumA.members.filterMap (fun m => tget? (getStall s 0).bufs (bufKey m sumA.set sumA.next))))).isNone = true := by
  decide +kernel

/-- Stall 0 with one token held for a vote, its level record loaded or not. -/
def voteS (l : List (Nat × Nat)) : State :=
  let s := busyB (fun t => { t with ops := [opA], votes := [tvoteA] })
  { s with cal := { s.cal with loads := l } }

theorem witness_VotesDecided :
    (∀ l ∈ [[], [(loadKey 3 0 0, recordSize)]],
      let s := voteS l
      s.board.railsOn = true ∧ (getStall s 0).votes = [tvoteA] ∧ (getStall s 0).ops.find? (fun x => x.slot == tvoteA.slot) = some opA ∧
        working s 0 = true ∧ voteFirst (getStall s 0) tvoteA.no = true ∧ placeOf s 0 tvoteA.slot = some placeA ∧
        loaded s (loadKey 3 0 0) = decide (l ≠ [])) ∧
    (let s := voteS [(loadKey 3 0 0, recordSize)]
     poisoned s (levelAddr s placeA) recordSize = [] ∧ getF s R.brdTile_state (tileIx 0 0) ≠ 1) ∧
    (let s := { voteS [(loadKey 3 0 0, recordSize)] with upd := { (voteS []).upd with poison := [levelAddr (voteS []) placeA] } }
     poisoned s (levelAddr s placeA) recordSize ≠ []) ∧
    (let s := busyB (fun t => { t with geVotes := [gvoteA] })
     s.board.railsOn = true ∧ (getStall s 0).geVotes = [gvoteA] ∧ working s 0 = true ∧ voteFirst (getStall s 0) gvoteA.no = true ∧
      getF s R.brdStall_geState 0 ≠ 1 ∧ gvoteA.tok = none) ∧
    (let g := { gvoteA with tok := some { opA with onFallback := true }, accI := [List.replicate 512 0] }
     let s := setF (busyB (fun t => { t with ops := [{ opA with onFallback := true }], geVotes := [g] })) R.genStall_fbValid0 0 1
     s.board.railsOn = true ∧ (getStall s 0).geVotes = [g] ∧ working s 0 = true ∧ voteFirst (getStall s 0) g.no = true ∧
      getF s R.brdStall_geState 0 ≠ 1 ∧ (fallbackOf s 0 0).isSome = true ∧ readChecked s 0 (cStall 0) (storeBase 0 + 0x1000) 4 =
        (s, some [0, 0, 0, 0])) := by
  decide +kernel

theorem witness_ProductDone :
    let s := busyB (fun t => { t with mmq := [prodA] })
    (0 : Nat) < 512 ∧ s.board.railsOn = true ∧ (getStall s 0).mmq = [prodA] ∧ working s 0 = true ∧ (getStall s 0).geVotes = [] ∧
      prodA.kind ≠ 4 ∧ s.brandBad = [] := by decide +kernel

def toutA : ToutOp :=
  { bank := 0, instr := 0, slot := 0, half := 0, site := 0, owner := true, order := 1, since := 0, alarmed := false, layer := 0 }

def toutB : ToutOp := { toutA with bank := 1, slot := 1, owner := false }

def placeB : Placement := { placeA with slot := 1, sumOrder := 1 }

/-- Stall 0 holds an owner's bank and the bank of its one contributor, itself. -/
def pullA : State :=
  let s := busyB (fun t => { t with touts := [toutA, toutB] })
  { s with job := { s.job with image := some { imageOf [0] with placement := [placeA, placeB] } } }

theorem witness_StepHalves :
    (let s := setFs (inImage .running [0]) [(R.genPass_pass, 1), (R.genStall_atFwdEnd, 1)]
     s.board.railsOn = true ∧ barrierMet s = true ∧ s.rte.held = [] ∧ boundStalls s = [0]) ∧
    (run.board.railsOn = true ∧ barrierMet (inImage .running [0]) = false ∧ backwardOver (inImage .running [0]) = false) ∧
    (let s := { setF run R.genPass_pass 0 1 with job := { Job.reset with firstArrival := some 0 }, now := 2 ^ 40 }
     s.board.railsOn = true ∧ s.job.firstArrival = some 0 ∧ getF s R.genPass_pass = 1 ∧
      0 + 25 * getF s R.genCtl_fwdAlarmUs ≤ s.now) ∧
    (let s := setFs (inImage .running [0]) [(R.genPass_pass, 2), (R.genStall_pass, 3)]
     s.board.railsOn = true ∧ backwardOver s = true ∧ s.upd.poison = []) := by decide +kernel

theorem witness_ChipDone :
    let s := setChip run 3 { getChip run 3 with active := true, unit := none, units := [] }
    (3 : Nat) < 4 ∧ s.board.railsOn = true ∧ s.mode = .running ∧ (getChip s 3).active = true ∧ (getChip s 3).unit = none ∧
      (getChip s 3).units = [] ∧ linkDown s 3 = false ∧
      linkDown { s with upd := { s.upd with retraining := [(3, 0)] } } 3 = true := by decide +kernel

theorem witness_PartialPulls :
    (pullA.board.railsOn = true ∧ pullOp pullA 0 = some toutA ∧ placeOf pullA 0 toutA.slot = some placeA ∧ working pullA 0 = true ∧
      nextPull pullA placeA toutA = some placeB ∧ offered pullA placeB toutA.half = some toutB ∧ working pullA placeB.stall = true ∧
      pullA.brandBad = [] ∧ toutB.bank < 2 ∧ toutA.bank < 2 ∧ toutB.bank ≠ toutA.bank) ∧
    (let s := { pullA with now := 2 ^ 40 }
     s.board.railsOn = true ∧ pullOps s 0 = [toutA] ∧ ((placeOf s 0 toutA.slot).bind (fun pl => nextPull s pl toutA)).isSome = true ∧
      toutA.since + 25 * getF s R.genCtl_partialAlarmUs ≤ s.now) ∧
    (run.board.railsOn = true ∧ pullOps run 0 = []) := by decide +kernel

/-- Stall 0 with the line of a bank on its way. -/
def lineA (line : Nat) : State := { pullA with upd := { pullA.upd with lines := [(0, 1, 1, 0, line)] } }

theorem witness_LinesStaged :
    (∀ line ∈ [0, 5, 8191], let s := lineA line
     s.board.railsOn = true ∧ working s 0 = true ∧ s.upd.lines.find? (fun l => l.1 == 0) = some (0, 1, 1, 0, line) ∧
      (getStall s 0).touts.find? (fun x => x.bank == 1) = some toutB ∧ placeOf s 0 1 = some placeB ∧ (1 : Nat) < 2 ∧
      linkDown s (chipOf placeB.loftAddr) = false) ∧
    (let s := { lineA 5 with upd := { (lineA 5).upd with retraining := [(chipOf placeB.loftAddr, 0)] } }
     linkDown s (chipOf placeB.loftAddr) = true ∧ working s 0 = true) ∧
    64 * (8191 + 1) = bankLen placeB.twoSlice ∧ 64 * (5 + 1) < bankLen placeB.twoSlice := by decide +kernel

/-- Stall 0 with a COMBINE that waits. -/
def waitC (alarmed : Bool) : State :=
  { busyB (fun t => { t with combines := [⟨0, word 0x52 [], [], 0, alarmed⟩] }) with now := 2 ^ 40 }

theorem witness_TravelWaits :
    ((waitC false).board.railsOn = true ∧ ((getStall (waitC false) 0).combines.find? (fun c =>
      !c.alarmed && decide (c.since + 25 * getF (waitC false) R.rteCtl_combineAlarmUs ≤ (waitC false).now))).isSome = true) ∧
    ((getStall (waitC true) 0).combines.find? (fun c =>
      !c.alarmed && decide (c.since + 25 * getF (waitC true) R.rteCtl_combineAlarmUs ≤ (waitC true).now))) = none ∧
    (let s := { inImage .running [0] with
       job := { (inImage .running [0]).job with image := some (imageT [0]) }, now := 2 ^ 40
       rte := { (inImage .running [0]).rte with firstClose := some 0 } }
     s.board.railsOn = true ∧ s.rte.firstClose = some 0 ∧ onF s R.rteClose_dispatchClosed = false ∧
      0 + 25 * getF s R.rteCtl_closeAlarmUs ≤ s.now ∧
      (servedLayers s).find? (fun l => !allClosed s 0 l && !s.once.contains (0x8008, l)) = some 0) ∧
    run.rte.firstClose = none := by decide +kernel

/-- The image of these frames: one expert of layer 0 entered at stall 1, whose stall 0 placed the dispatching tensor, and one
layer of routed attention. -/
def imageF : Image :=
  { imageT [] with
    placement := [{ placeA with tensor := 10 }, { placeA with tensor := 1, stall := 1 }], updates := [⟨0, [0]⟩] }

/-- A token frame of a kind to stall 1 from stall 0 with one token of one segment of FP32, of this module. -/
def tokOf (kind fmt segs : Nat) : TokFrame :=
  { tokA with
    magic := 0x4654, version := 1, kind := kind, format := fmt, tokenCount := 1, segCount := segs, dstStall := 1
    bodyLen := bodyLen kind 0 (if kind = 8 then 0 else fmt) 1 segs
    payload := List.replicate (bodyLen kind 0 (if kind = 8 then 0 else fmt) 1 segs - 80) 0, rx := none }

/-- Frames without a table. -/
def bareOf (kind : Nat) : TokFrame := { tokOf kind 0 0 with tokenCount := 0, table := [], bodyLen := 64, payload := [] }

/-- A module whose mesh holds the frame, with queue 0 of stall 1 of a kind of two slots. -/
def meshOf (f : TokFrame) (k : Nat) (p : StallSt) : State :=
  let s := setF (modStall (inImage .running []) 1 (fun t => { t with st := p })) R.brdCtl_brandEn 0 0
  { s with job := { s.job with image := some imageF }
           rte := { s.rte with mesh := [⟨f, .segment, 0⟩], queues := [(queueIx 1 0, ⟨k, 5, 2, 0, 0, 0, 2, 2, 0x10000, 0x8000⟩)] } }

/-- What `admits` asks of a frame of this module, as a Bool. -/
def admitsB (s : State) (f : TokFrame) (kind : Nat) : Bool :=
  s.board.railsOn && f.rx.isNone && (meshTake s f).isSome && f.kind == kind && tokForm f && f.step == stepNo s &&
    (!bit f.flags 0 || getF s R.genPass_pass != 1) && f.planTag == getF s R.gtePlan_planTag && s.mode == .running &&
    (tokChecks (s.lifted f) f).isNone

theorem admits_of {s : State} {f : TokFrame} {kind : Nat} (h : admitsB s f kind = true) : s.admits f kind := by
  simp only [admitsB, Bool.and_eq_true, beq_iff_eq, Option.isNone_iff_eq_none, Bool.or_eq_true, Bool.not_eq_true',
    bne_iff_ne, ne_eq] at h
  obtain ⟨⟨⟨⟨⟨⟨⟨⟨⟨h0, h1⟩, h2⟩, h3⟩, h4⟩, h5⟩, h6⟩, h7⟩, h8⟩, h9⟩ := h
  refine ⟨⟨h0, by rw [h1]; exact h2⟩, h3, h4, h5, fun hb => ?_, h7, by rw [h8]; decide, by rw [h8]; decide, h9⟩
  rcases h6 with h | h
  · rw [hb] at h; cases h
  · exact h

/-- What `atWork` asks, as a Bool. -/
def atWorkB (s : State) (f : TokFrame) : Bool :=
  !isResting (getStall s f.dstStall) && (!bit f.flags 0 || !onF s R.genStall_idle f.dstStall)

theorem atWork_of {s : State} {f : TokFrame} (h : atWorkB s f = true) : s.atWork f := by
  simp only [atWorkB, Bool.and_eq_true, Bool.not_eq_true', Bool.or_eq_true] at h
  refine ⟨h.1, fun hb => ?_⟩
  rcases h.2 with h | h
  · rw [hb] at h; cases h
  · exact h

theorem witness_TokenSlots :
    (let f := tokOf 1 5 1
     let s := meshOf f 1 .awake
     s.admits f 1 ∧ (s.lifted f).atWork f ∧ f.table = [entA] ∧ bit f.flags 1 = false ∧ s.brandBad = [] ∧
      slotSt (s.lifted f) (frameQueue f) entA.w8 % 2 ^ 32 + f.segCount < 2 ^ 32 ∧
      ¬ capacity (s.lifted f) f.target ≤ entA.w8) ∧
    (let f := { tokOf 1 5 1 with table := [{ entA with w8 := 1 }] }
     let s := setF (meshOf f 1 .awake) R.rteCtl_defaultCap 0 1
     s.admits f 1 ∧ (s.lifted f).atWork f ∧ bit f.flags 1 = false ∧ s.brandBad = [] ∧ capacity (s.lifted f) f.target ≤ 1) ∧
    (let f := tokOf 6 5 1
     let s := meshOf f 3 .awake
     s.admits f 6 ∧ (s.lifted f).atWork f ∧ f.table = [entA] ∧ bit f.flags 1 = false ∧ s.brandBad = [] ∧
      slotSt (s.lifted f) (frameQueue f) entA.w8 % 2 ^ 32 + f.segCount < 2 ^ 32) ∧
    (let f := tokOf 5 5 1
     let s := meshOf f 4 .awake
     s.admits f 5 ∧ (s.lifted f).atWork f ∧ f.table = [entA] ∧ bit f.flags 1 = false ∧ s.brandBad = []) :=
  ⟨⟨admits_of (by decide +kernel), atWork_of (by decide +kernel), by decide +kernel⟩,
    ⟨admits_of (by decide +kernel), atWork_of (by decide +kernel), by decide +kernel⟩,
    ⟨admits_of (by decide +kernel), atWork_of (by decide +kernel), by decide +kernel⟩,
    ⟨admits_of (by decide +kernel), atWork_of (by decide +kernel), by decide +kernel⟩⟩

theorem witness_TokenReturns :
    (let f := tokOf 2 5 1
     let s := meshOf f 2 .awake
     s.admits f 2 ∧ (s.lifted f).atWork f ∧ f.table = [entA] ∧ bit f.flags 1 = false ∧ bit f.flags 2 = false ∧
      s.brandBad = [] ∧ (getStall (s.lifted f) f.dstStall).combines = []) ∧
    (let f := { tokOf 2 0 0 with flags := 4 }
     let s := meshOf f 2 .awake
     s.admits f 2 ∧ (s.lifted f).atWork f ∧ f.table = [entA] ∧ bit f.flags 1 = false ∧ bit f.flags 2 = true ∧ s.brandBad = []) ∧
    (let f := tokOf 7 5 1
     let s := meshOf f 2 .awake
     s.admits f 7 ∧ (s.lifted f).atWork f ∧ f.table = [entA] ∧ bit f.flags 1 = false ∧ s.brandBad = [] ∧
      (getStall (s.lifted f) f.dstStall).combines = []) :=
  ⟨⟨admits_of (by decide +kernel), atWork_of (by decide +kernel), by decide +kernel⟩,
    ⟨admits_of (by decide +kernel), atWork_of (by decide +kernel), by decide +kernel⟩,
    admits_of (by decide +kernel), atWork_of (by decide +kernel), by decide +kernel⟩

theorem witness_TokenSignals :
    (let f := bareOf 3
     let s := meshOf f 0 .awake
     s.admits f 3 ∧ behindLate (s.lifted f) f = false ∧ (sources (s.lifted f) f.srcModule f.layer).contains f.srcStall = true) ∧
    (let f := { bareOf 4 with target := 1 }
     let s := meshOf f 0 .nap
     s.admits f 4 ∧ expertAt (s.lifted f) f.target f.dstStall = false ∧ isResting (getStall s f.dstStall) = true) ∧
    (let f := { bareOf 8 with format := 9 }
     (meshOf f 0 .awake).admits f 8 ∧ isResting (getStall ((meshOf f 0 .awake).lifted f) f.dstStall) = false) ∧
    (let f := { bareOf 8 with format := 9 }
     (meshOf f 0 .nap).admits f 8 ∧ isResting (getStall ((meshOf f 0 .nap).lifted f) f.dstStall) = true) :=
  ⟨⟨admits_of (by decide +kernel), by decide +kernel⟩, ⟨admits_of (by decide +kernel), by decide +kernel⟩,
    ⟨admits_of (by decide +kernel), by decide +kernel⟩, admits_of (by decide +kernel), by decide +kernel⟩

def unitA : UpdUnit := ⟨false, 0, 0, 0, 0, 0, 0⟩

/-- Chip 3 at the one slot of its update program. -/
def atSlotA (w : Nat) : State :=
  let s := inImage .running []
  setChip { s with job := { s.job with image := some { imageF with updates := [⟨0, [w]⟩] } } } 3
    { getChip s 3 with unit := some unitA, active := true, vec := some 0 }

theorem witness_UpdateSlots :
    (atSlotA (word 1 [(52, 15)])).atSlot 3 1 unitA (word 1 [(52, 15)]) ∧ (atSlotA (word 2 [])).atSlot 3 2 unitA (word 2 []) ∧
    (let w := word 3 [(42, 0x28), (36, 0x28), (30, 0x28)]
     let s := atSlotA w
     s.atSlot 3 3 unitA w ∧ allLanes 3 unitA ((getChip s 3).vec.getD 0) (getChip s 3).slot (opSources w) s = (s, some [[0], [0]]) ∧
      (([[0], [0]] : List (List F32)).findSome? badLane).isNone = true ∧
      (badLane (opLanes s (opKind w) (if (getChip s 3).vec.isNone then 1 else unitLanes s unitA ((getChip s 3).vec.getD 0))
        [[0], [0]])).isNone = true) ∧
    (let w := word 4 [(42, 0x28)]
     let s := atSlotA w
     s.atSlot 3 4 unitA w ∧ srcLanes s 3 unitA ((getChip s 3).vec.getD 0) (getChip s 3).slot (srcA w) = (s, some [0]) ∧
      (badLane [0]).isNone = true) ∧
    (let w := word 5 [(42, 0x28), (54, 3)]
     let s := atSlotA w
     s.atSlot 3 5 unitA w ∧ srcLanes s 3 unitA ((getChip s 3).vec.getD 0) (getChip s 3).slot (srcA w) = (s, some [0]) ∧
      (badLane [0]).isNone = true) ∧
    nextSlot [word 1 [], word 2 []] true 1 = some 1 :=
  ⟨⟨by decide, by decide +kernel, by decide +kernel, by decide +kernel, by decide +kernel⟩,
    ⟨by decide, by decide +kernel, by decide +kernel, by decide +kernel, by decide +kernel⟩,
    ⟨⟨by decide, by decide +kernel, by decide +kernel, by decide +kernel, by decide +kernel⟩, by decide +kernel⟩,
    ⟨⟨by decide, by decide +kernel, by decide +kernel, by decide +kernel, by decide +kernel⟩, by decide +kernel⟩,
    ⟨⟨by decide, by decide +kernel, by decide +kernel, by decide +kernel, by decide +kernel⟩, by decide +kernel⟩, by decide +kernel⟩

/-- The last tile of the last stall, awake, long after reset. -/
def lateT : State := { modStall rdy 511 (fun t => { t with st := .awake }) with now := 2 ^ 50 }

def lastU : Nat := tileIx 511 33

theorem witness_TrimsDue :
    (lateT.board.railsOn = true ∧ (tget Drift.reset lateT.cal.drift lastU).full.head? ≠ some (0, 0)) ∧
    (let s := { lateT with cal := { lateT.cal with drift := [(lastU, ⟨0, 0, 0, [(11, 10), (1, 1)]⟩)] } }
     (tget Drift.reset s.cal.drift lastU).full.head? ≠ some (1, 1)) ∧
    (let s := { lateT with cal := { lateT.cal with drift := [(lastU, ⟨0, 0, 0, [(11, 10), (1, 1)]⟩)] } }
     (tget Drift.reset s.cal.drift lastU).full = [(11, 10), (1, 1)] ∧ trimmable s 511 33 = true ∧
      0 < (tget (1, 1) s.cal.gRef lastU).1 ∧
      driftPpm 11 10 (tget (1, 1) s.cal.gRef lastU) ≤ 524287 ∧ -524288 ≤ driftPpm 11 10 (tget (1, 1) s.cal.gRef lastU) ∧
      driftPast 11 10 (tget (1, 1) s.cal.gRef lastU) (getF s R.calCtl_driftPpm) = true) ∧
    (trimmable lateT 511 33 = true ∧ 25000 * getF lateT R.calCtl_trimMs ≤ trimAge lateT lastU) ∧
    (let s := setF { lateT with now := 0 } R.calTileAge_phases lastU (2 ^ getF lateT R.calCtl_trimPhasesLog2)
     trimmable s 511 33 = true ∧ 2 ^ getF s R.calCtl_trimPhasesLog2 ≤ getF s R.calTileAge_phases lastU) ∧
    (let s := setF { lateT with cal := { lateT.cal with dueAt := [(lastU, 0)] } } R.calTileAge_due lastU 1
     trimmable s 511 33 = true ∧ onF s R.calTileAge_due lastU = true ∧ forceCause s 511 33 = some 0) ∧
    (let s := setF { lateT with cal := { lateT.cal with forcedAt := [(lastU, 0)] } } R.calTileAge_forced lastU 1
     onF s R.calTileAge_forced lastU = true ∧ onF s R.calTileAge_overdue lastU = false ∧
      tget s.now s.cal.forcedAt lastU + 250000 ≤ s.now) := by decide +kernel

theorem witness_TrimsDone :
    (let s := setF lateT R.calTileAge_due lastU 1
     trimmable s 511 33 = true ∧ onF s R.calTileAge_due lastU = true ∧ (getStall s 511).st = .awake ∧ tileIdle s 511 33 = true ∧
      s.cal.fills = [] ∧ s.cal.trimming = [] ∧ writePending s 511 33 = false) ∧
    (let s := { lateT with cal := { lateT.cal with trimming := [(lastU, 0)] } }
     s.cal.trimming.find? (fun q => q.1 == lastU) = some (lastU, 0) ∧ isRunning (getStall s 511) = true) ∧
    (let s := { lateT with cal := { lateT.cal with trimming := [(lastU, 3)] } }
     s.cal.trimming.find? (fun q => q.1 == lastU) = some (lastU, 3) ∧ isRunning (getStall s 511) = true) := by decide +kernel

/-- Stall 0 of a running module, awake, at a time of its own. -/
def loftA : State := { busyB (fun t => t) with now := 100 }

def calOf (f : Cal → Cal) : State := { loftA with cal := f loftA.cal }

def fillA : Fill :=
  { stall := 0, slot := 0, fromTile := 0, toTile := 32, phase := 1, rows := [], retried := false, since := 0 }



theorem witness_Rotations :
    (let s := setF (calOf (fun c => { c with forcedAt := [(tileIx 0 0, 50)] })) R.calTileAge_forced (tileIx 0 0) 1
     s.board.railsOn = true ∧ firstForced s 0 = some (50, 0, 0) ∧ (getStall s 0).relief = some 32 ∧ canRotate s 0 = true ∧
      barnRotations s (barnOf 0) < getF s R.calCtl_rotPerBarn ∧ firstInBarn s 0 50 = true) ∧
    (let s := calOf (fun c => { c with fills := [fillA], loads := [(loadKey 1 0 0, recordSize)] })
     fillOf s 0 false = some fillA ∧ fillA.phase = 1 ∧ placeOf s 0 fillA.slot = some placeA ∧ isRunning (getStall s 0) = true ∧
      inWindow s = false ∧ loaded s (loadKey 1 0 fillA.slot) = true ∧ s.upd.poison = [] ∧ s.upd.softErr = []) ∧
    (let s := calOf (fun c => { c with fills := [{ fillA with phase := 3 }] })
     fillOf s 0 false = some { fillA with phase := 3 } ∧ placeOf s 0 fillA.slot = some placeA ∧
      isRunning (getStall s 0) = true ∧ inWindow s = false ∧ slotHeld (getStall s 0) fillA.slot = false ∧ s.upd.poison = [] ∧
      s.upd.softErr = []) := by decide +kernel

theorem witness_LevelsAndWear :
    (let s := { rdy with now := 2 ^ 60 }
     s.board.railsOn = true ∧ s.cal.lastFlush + 25000000 * getF s R.calWear_flushS ≤ s.now) ∧
    (levelWriteStatus lateT 511 33 (528 * 511 + 511) [31] = 0 ∧ levelWriteStatus lateT 511 33 (528 * 511 + 511) [32] ≠ 0 ∧
      levelWriteStatus lateT 511 33 (528 * 511 + 512) [0] ≠ 0) ∧
    (levelReadStatus lateT 511 33 (528 * 511 + 511) 1 = 0 ∧ levelReadStatus lateT 511 33 (528 * 511 + 527) 2 ≠ 0) ∧
    atRest (inMode .harnessed) = true := by decide +kernel

def rebA : RebuildReq := ⟨0, 0, 50⟩

/-- Slot 0 of stall 0 on its first fallback image. -/
def onImage (f : Cal → Cal) : State := setFs (calOf f) [(R.genStall_fbValid0, 1), (R.genStall_fbSlot0, 0)]

theorem witness_FallbackAndRebuild :
    (∀ l ∈ [[], [(loadKey 0 0 0, recordSize)]],
      let s := calOf (fun c => { c with failing := [(0, 0, 2, 50)], loads := l })
      s.board.railsOn = true ∧ s.cal.failing.find? (fun q => q.1 == 0 && q.2.1 == 0) = some (0, 0, 2, 50) ∧
      isRunning (getStall s 0) = true ∧ (getStall s 0).stop = false ∧ inWindow s = false ∧ placeOf s 0 0 = some placeA ∧
      fallbackOf s 0 0 = none ∧ freeImage s 0 = some 0 ∧ s.upd.poison = [] ∧ s.upd.softErr = [] ∧
      loaded s (loadKey 0 0 0) = decide (l ≠ [])) ∧
    (let s := onImage (fun c => { c with rebuilds := [rebA] })
     s.cal.rebuilds.find? (fun r => r.stall == 0 && r.slot == 0) = some rebA ∧ nextSpare s 0 = some 33 ∧
      placeOf s 0 0 = some placeA ∧ fallbackOf s 0 0 = some 0 ∧ rebuildReady s rebA = true ∧ barnRebuilds s (barnOf 0) < 2 ∧
      (∀ q ∈ s.cal.rebuilds, barnOf q.stall = barnOf 0 → rebuildReady s q = true → rebuildBefore q rebA = false) ∧
      inWindow s = false ∧ (getStall s 0).stop = false ∧ s.brandBad = []) ∧
    (let f := { fillA with phase := 6, toTile := 33 }
     let s := onImage (fun c => { c with fills := [f] })
     fillOf s 0 true = some f ∧ f.slot = 0 ∧ placeOf s 0 0 = some placeA ∧ fallbackOf s 0 0 = some 0 ∧
      isRunning (getStall s 0) = true ∧ inWindow s = false ∧ slotHeld (getStall s 0) 0 = false ∧
      s.cal.trimming.contains (tileIx 0 f.toTile, 5) = false) := by decide +kernel

theorem witness_LoftLinks :
    (let s := setF rdy R.lftLink_up 3 1
     s.board.railsOn = true ∧ onF s R.lftLink_up 3 = true) ∧
    (let s := { setF rdy R.lftLink_up 3 1 with upd := { rdy.upd with replays := [(3, 15)] } }
     onF s R.lftLink_up 3 = true ∧ tget 0 s.upd.replays 3 + 1 = 16) ∧
    (let s := { rdy with upd := { rdy.upd with retraining := [(3, 0)] }, now := 25000 }
     s.board.railsOn = true ∧ (tget? s.upd.retraining 3).isSome = true ∧ tget? s.upd.retraining 3 = some 0 ∧ (7 : Nat) < 8 ∧
      0 + 25000 ≤ s.now ∧ s.upd.heldAccess = [] ∧ s.team.staged = [] ∧ upStates s = true) ∧
    (rdy.board.railsOn = true ∧ upStates rdy = true ∧ (getChip rdy 3).lost = false) := by decide +kernel

theorem witness_LoftPatrolled :
    let s := setF (setF rdy R.lftChannel_populated 7 1) R.bruFit_loftChannelGib 0 1
    s.board.railsOn = true ∧ upStates s = true ∧ onF s R.lftChannel_populated 7 = true ∧ 16777215 < fittedBytes s / 64 ∧
      (getChip s (7 / 2)).lost = false ∧ s.team.pages = [] ∧
      patrolBad s (lineAddr 7 16777215) .uncorrectable = true ∧ patrolBad s (lineAddr 7 16777215) .corrected = false := by
  decide +kernel

/-- A descriptor of 128 bytes from the start of HBM to a place in it, in bursts of 64. -/
def descA : Desc :=
  { flags := 0, srcW := 0, dstW := 0, reqSrc := 0, reqArg := 0, burst := 64, srcLog2 := 0, dstLog2 := 0, length := 128, src := 0,
    dst := 0x10000, srcStride := 0, dstStride := 0, next := 0, tag := 0 }

/-- A module with a channel at a descriptor. -/
def chanS (c st : Nat) (d : Desc) (done pend : Nat) : State :=
  setChan run c { getChan run c with st := st, desc := some d, bytesDone := done, pending := pend }

theorem witness_ChannelCommands : (rdy.board.railsOn = true ∧ (getChan rdy 56).st = 0 ∧ rdy.mode ≠ .bringup) ∧
    (let s := chanS 56 1 { descA with reqSrc := 1 } 0 65534
     s.board.railsOn = true ∧ (getChan s 56).st = 1 ∧ onSoftware s 56 = true ∧ (getChan s 56).pending < 65535) ∧
    ((57 : Nat) ≤ 57 ∧ (63 : Nat) < 64) := by decide +kernel

theorem witness_Rates : shareFloor 57 ≤ 256 ∧ shareFloor 63 ≤ 256 ∧
    (let x := chanS 57 1 descA 0 0
     let s := { setChan x 57 { getChan x 57 with held := true } with now := 2 ^ 40, feed := { x.feed with staging := [{ feedA with length := 64 }] } }
     s.board.railsOn = true ∧ (getChan s 57).held = true ∧ (getChan s 57).alarmed = false ∧
      (getChan s 57).heldSince + 25 * getF s R.movCtl_rateAlarmUs ≤ s.now ∧ pendingBytes s 57 ≠ 0) := by decide +kernel

/-- Stall 0 with a token held for a vote whose record lies in the loft of chip 0, and a bucket of channel 60. -/
def loadS (bucket : Nat) : State :=
  setChan (voteS []) 60 { getChan (voteS []) 60 with bucket := bucket }

theorem witness_Bursts :
    (∀ x ∈ [(56, 0, 0), (64, 64, 1), (575, 0, 1)],
      let s := chanS x.1 1 { descA with reqSrc := x.2.2 } x.2.1 1
      s.board.railsOn = true ∧ (getChan s x.1).desc = some { descA with reqSrc := x.2.2 } ∧ (getChan s x.1).st = 1 ∧
        (getChan s x.1).bytesDone < descA.length ∧ burstHeld s { descA with reqSrc := x.2.2 } x.2.1 64 = false) ∧
    (let d := { descA with reqSrc := 1 }
     let s := chanS 64 1 d 0 0
     (getChan s 64).desc = some d ∧ d.reqSrc ≠ 0 ∧ (getChan s 64).pending = 0) ∧
    (∀ b ∈ [0, 2 ^ 30], let s := loadS b
     s.board.railsOn = true ∧ wantedLoads s 0 = [loadKey 3 0 0] ∧ linkDown s 0 = false ∧
      (256 * min (burstSize s 60) (recordSize - tget 0 s.cal.loads (loadKey 3 0 0)) ≤ (getChan s 60).bucket ↔ b ≠ 0)) ∧
    (let s := { loadS 0 with upd := { (loadS 0).upd with retraining := [(0, 0)] } }
     wantedLoads s 0 = [loadKey 3 0 0] ∧ linkDown s 0 = true) := by decide +kernel

theorem witness_PortStates :
    (let s := setF rdy R.prtPortStatus_state 23 1
     s.board.railsOn = true ∧ getF s R.prtPortStatus_state 23 = 1 ∧ s.mode ≠ .bringup) ∧
    (let s := setF rdy R.hstStatus_state 0 1
     s.board.railsOn = true ∧ getF s R.hstStatus_state = 1) ∧
    (let s := setF rdy R.prtPortStatus_state 23 3
     s.board.railsOn = true ∧ portOpen s 23 = true ∧ s.job.token = none ∧ s.job.running = none ∧ retrainStatus s 23 = 0) ∧
    (getF (hostUp .ready) R.hstStatus_state = 2 ∧ (hostUp .ready).job.token = none ∧ (hostUp .ready).job.running = none ∧
      retrainStatus (hostUp .ready) 24 = 0) ∧
    (let s := { setFs rdy [(R.bruFit_laserUsable, 15)] with now := 2 ^ 60 }
     let u := setF (setF s R.prtPortStatus_state 23 2) R.prtPortCtl_enable 23 1
     u.board.railsOn = true ∧ getF u R.prtPortStatus_state 23 = 2 ∧ onF u R.prtPortCtl_enable 23 = true ∧ laserOk u 23 = true ∧
      tget 0 u.prt.trainStart 23 + 25000000 * getF u R.prtCtl_retrainS ≤ u.now) ∧
    (let s := setF rdy R.prtPortCtl_enable 23 0
     onF s R.prtPortCtl_enable 23 = false ∧ s.job.token = none ∧ s.job.running = none) := by decide +kernel

/-- A module with port 23 up, and its flow control. -/
def portS (f : Prt → Prt) : State :=
  let s := setF rdy R.prtPortStatus_state 23 3
  { s with prt := f s.prt, now := 2 ^ 40 }

theorem witness_FlowControl :
    (portOpen (portS (fun p => p)) 23 = true ∧ portOpen (hostUp .ready) 24 = true) ∧
    (let s := portS (fun p => { p with pauseEnd := [(prioKey 23 7, 125)] })
     s.board.railsOn = true ∧ tget? s.prt.pauseEnd (prioKey 23 7) = some 125 ∧ 125 ≤ 125 * s.now) ∧
    (let s := portS (fun p => { p with pauseStart := [(prioKey 23 7, 0)] })
     tget? s.prt.pauseStart (prioKey 23 7) = some 0 ∧ 0 + 25 * getF s R.prtCtl_pfcAlarmUs ≤ s.now ∧ prioKey 23 7 ∉ s.prt.stormed) ∧
    (let s := portS (fun p => { p with xoff := [prioKey 23 7] })
     prioKey 23 7 ∈ s.prt.xoff ∧ tget 0 s.prt.lastXoff (prioKey 23 7) + 250 ≤ s.now) := by decide +kernel

/-- A frame that waits for port 23. -/
def outP (cls : Nat) : OutFrame :=
  { port := 23, prio := 0, cls := cls, die := 0, dst := addrA, srcMac := 0, vid := 0, flow := 0, srcUdp := 0, body := .arpReply 0 }

theorem witness_PortAnswers :
    (let s := setFs (portS (fun p => p)) [(R.prtAddr4_valid, 1), (R.prtAddr4_ipv4, 0x0A000001)]
     s.board.railsOn = true ∧ portOpen s 23 = true ∧ (0x0A000001 : Nat) < 2 ^ 32 ∧ ownIp s 23 (mapped4 0x0A000001) = true) ∧
    (let s := setF (portS (fun p => p)) R.prtAddr6Hi_addrHi 0 0xFE80000000000000
     s.board.railsOn = true ∧ portOpen s 23 = true ∧ 0xFE80000000000000 * 2 ^ 64 / 2 ^ 32 ≠ 0xFFFF ∧
      ownIp s 23 (0xFE80000000000000 * 2 ^ 64) = true) ∧
    (let s := hostUp .ready
     let r := { rxHost with dstIp := linkLocal 0 }
     s.board.railsOn = true ∧ portOpen s r.port = true ∧ r.port = 24 ∧ dropReason s { r with dstUdp := getF s R.hstCtl_controlUdp } = 0) ∧
    (∀ cls ∈ [1, 4], let s := portS (fun p => { p with queue := [outP cls] })
     s.board.railsOn = true ∧ portOpen s 23 = true ∧ classHead s 23 cls = some 0 ∧
      ∀ k, 1 ≤ k → k < cls → classHead s 23 k = none) := by
  refine ⟨by decide +kernel, by decide +kernel, by decide +kernel, fun cls h => ?_⟩
  rcases List.mem_cons.mp h with rfl | h
  · exact ⟨by decide +kernel, by decide +kernel, by decide +kernel, fun k h1 h2 => absurd h2 (by omega)⟩
  · obtain rfl := List.mem_singleton.mp h
    refine ⟨by decide +kernel, by decide +kernel, by decide +kernel, fun k h1 h2 => ?_⟩
    have e : ∀ k < 4, classHead (portS (fun p => { p with queue := [outP 4] })) 23 k = none := by decide +kernel
    exact e k h2

/-- A feed frame of 64 bytes for the open session, with its tag. -/
def feedB : FeedFrame :=
  let f := { feedA with
    magic := 0x4446, version := 1, length := 64, payload := List.replicate 64 0
    rx := { rxHost with dstIp := linkLocal 0, dstUdp := 0xB811, udpLen := 112 } }
  { f with tag := kmac256 keyA (feedHeader f ++ f.payload) "VRH-FEED" }

theorem witness_FeedRing :
    ((inSession .harnessed).hearsFeed feedB ∧ feedFault (setF (inSession .harnessed) R.gteNext_anyStep 0 1) feedB = 0) ∧
    feedC rdy ≤ 0 % 2 ^ 64 ∧ feedCfgStatus rdy 20 = 0 ∧ feedCfgStatus rdy 19 ≠ 0 := by
  refine ⟨⟨⟨by decide +kernel, rfl, by decide +kernel, by decide +kernel, by decide +kernel⟩, by decide +kernel⟩, by decide +kernel⟩

/-- A laser module whose twelve outputs serve every wavelength. -/
def laserB : LaserModule :=
  { laserA with outs := [1271, 1291, 1311, 1331].flatMap (fun l => List.replicate 3 (l, 100)), drawMw := 12000 }

theorem witness_ModulesFitted : rdy.board.railsOn = true ∧ hostUsable plugA = true ∧
    hostUsable { plugA with needMw := 16001 } = false ∧ laserUsable laserB = true ∧ laserUsable { laserB with drawMw := 12001 } = false ∧
    rdy.job.token = none ∧ rdy.job.running = none ∧ onF (setF rdy R.prtPortCtl_enable 23 1) R.prtPortCtl_enable 23 = true ∧
    (23 : Nat) ∈ socketPorts 3 ∧ onF (setF rdy R.lftChannel_populated 7 1) R.lftChannel_populated 7 = true := by decide +kernel

/-- A module in a team, forming (1) or formed (2), whose team ports 0 and 23 are up. -/
def teamS (st : Nat) : State :=
  let s := setFs (inImage .running []) [(R.prtAddr4_valid, 1), (R.prtAddr4_ipv4, 0x0A000001), (R.pairStatus_team, st),
    (R.pairStatus_partnerIndex, 1), (R.pairStatus_port1, 23), (R.bruBayId_bayNumber, 3)]
  let s := [0, 23].foldl (fun s n => setF (setF s R.prtPortStatus_state n 3) R.prtPortStatus_team n 1) s
  { s with team := { s.team with key := some keyA } }

/-- A team frame of the partner with this payload, by port 0, with its tag. -/
def teamOf (ty step page : Nat) (pay : Bytes) : TeamFrame :=
  let f := { teamA with
    magic := 0x4D54, version := 1, ftype := ty, srcModule := 1, step := step, page := page, length := pay.length, payload := pay
    rx := { rxHost with port := 0, dstMac := 1, dstIp := mapped4 0x0A000001, dstUdp := 0xB813, udpLen := 48 + pay.length } }
  { f with tag := teamTag keyA f }

/-- What `fromPartner` asks, the tag aside, as a Bool. -/
def partnerB (s : State) (f : TeamFrame) (ty : Nat) : Bool :=
  s.board.railsOn && decide (f.rx.port < 24) && portOpen s f.rx.port && dropReason s f.rx == 0 &&
    f.rx.dstUdp == getF s R.prtCtl_teamUdp && teamForm f && f.ftype == ty &&
    (getF s R.pairStatus_team == 1 || getF s R.pairStatus_team == 2) && s.team.key == some keyA &&
    f.srcModule == getF s R.pairStatus_partnerIndex && f.dstModule == ownIndex s && stagedOn s f.rx.port == []

theorem partner_of {s : State} {ty step page : Nat} {pay : Bytes} (h : partnerB s (teamOf ty step page pay) ty = true) :
    s.fromPartner (teamOf ty step page pay) ty := by
  simp only [partnerB, Bool.and_eq_true, beq_iff_eq, decide_eq_true_eq, Bool.or_eq_true] at h
  obtain ⟨⟨⟨⟨⟨⟨⟨⟨⟨⟨⟨h0, h1⟩, h2⟩, h3⟩, h4⟩, h5⟩, h6⟩, h7⟩, h8⟩, h9⟩, h10⟩, h11⟩ := h
  exact ⟨h0, h1, h2, h3, h4, h5, h6, h7, ⟨keyA, h8, rfl⟩, h9, h10, h11⟩

/-- The payload of a HELLO for plan tag 0 from a bay. -/
def helloA (bay : Nat) : Bytes := List.replicate 16 0 ++ leBytes 2 1 ++ leBytes 2 bay ++ List.replicate 84 0

theorem witness_TeamForms :
    (∀ bay ∈ [4, 0xFFFF], (teamS 1).fromPartner (teamOf 1 0 0 (helloA bay)) 1 ∧ getF (teamS 1) R.pairStatus_team = 1 ∧
      fieldAt (teamOf 1 0 0 (helloA bay)).payload 0 8 = getF (teamS 1) R.gtePlan_planTag ∧
      fieldAt (teamOf 1 0 0 (helloA bay)).payload 16 2 = (teamOf 1 0 0 (helloA bay)).srcModule) ∧
    ((rdy.now < rdy.team.lastBeat + 25 * getF rdy R.pairCtl_beatUs) ∧ getF rdy R.pairStatus_team ≠ 1 ∧ getF rdy R.pairStatus_team ≠ 2) ∧
    (let s := { teamS 2 with now := 2 ^ 40 }
     s.board.railsOn = true ∧ s.team.lastBeat + 25 * getF s R.pairCtl_beatUs ≤ s.now ∧ getF s R.pairStatus_team = 2) ∧
    (teamS 2).fromPartner (teamOf 2 0 0 []) 2 ∧
    (let s := { teamS 1 with now := 2 ^ 40 }
     s.board.railsOn = true ∧ getF s R.pairStatus_team = 1 ∧ s.team.formStart + 250000000 ≤ s.now) := by
  refine ⟨fun bay h => ?_, by decide +kernel, by decide +kernel, partner_of (by decide +kernel), by decide +kernel⟩
  rcases List.mem_cons.mp h with rfl | h
  · exact ⟨partner_of (by decide +kernel), by decide +kernel⟩
  · obtain rfl := List.mem_singleton.mp h
    exact ⟨partner_of (by decide +kernel), by decide +kernel⟩

theorem witness_TeamBreaks :
    (let s := { teamS 2 with now := 2 ^ 40 }
     s.board.railsOn = true ∧ getF s R.pairStatus_team = 2 ∧ s.job.token = none ∧ s.team.lastRx + 25 * getF s R.pairCtl_lossUs ≤ s.now) ∧
    (let s := setF (teamS 2) R.pairStatus_senseArmed 0 1
     getF s R.pairStatus_senseArmed = 1 ∧ getF s R.pairStatus_team = 2 ∧ s.job.token = none) ∧
    (teamS 2).fromPartner (teamOf 9 0 0 []) 9 := ⟨by decide +kernel, by decide +kernel, partner_of (by decide +kernel)⟩

/-- A page of this module's securing on its way. -/
def pageB : Page := { pageA with group := 0, home := true, sentAt := some 0 }

theorem witness_TeamPages :
    (let s := setF (teamS 2) R.pairGroup_partnerPages 0 1
     let f := teamOf 3 5 0 (List.replicate 8192 0)
     s.fromPartner f 3 ∧ getF s R.pairStatus_team = 2 ∧ getF s R.pairMirrorStat_partnerStep ≤ f.step ∧
      f.page < getF s R.pairGroup_partnerPages f.group ∧ pageChunks s f.group f.page < 8) ∧
    (let s := { teamS 2 with team := { (teamS 2).team with step := some 5 } }
     s.fromPartner (teamOf 4 5 0 []) 4 ∧ s.team.step = some (teamOf 4 5 0 []).step ∧ s.mode ≠ .gate ∧ s.job.running = none) ∧
    (let s := { teamS 2 with team := { (teamS 2).team with step := some 5, pages := [pageB] }, now := 2 ^ 40 }
     s.board.railsOn = true ∧ s.team.pages.find? (fun q => q.group == 0 && q.page == 0) = some pageB ∧ pageB.home = true ∧
      pageB.acked = false ∧ getF s R.pairStatus_team = 2 ∧ pageB.sentAt = some 0 ∧ 0 + 5000 ≤ s.now ∧ s.upd.poison = [] ∧
      s.upd.softErr = []) := ⟨⟨partner_of (by decide +kernel), by decide +kernel⟩,
    ⟨partner_of (by decide +kernel), by decide +kernel⟩, by decide +kernel⟩

/-- An ACCESS payload that reads eight bytes at an address. -/
def readAt (a : Nat) : Bytes := [1, 0, 0, 0] ++ leBytes 4 8 ++ leBytes 8 a

theorem witness_TeamCommits :
    (let s := { teamS 2 with team := { (teamS 2).team with chunks := [(5, 0, 0, 7)] } }
     let f := teamOf 5 5 0 (leBytes 8 5 ++ List.replicate 8 0)
     s.fromPartner f 5 ∧ getF s R.pairStatus_team = 2 ∧ partnerStep s = some f.step ∧ fieldAt f.payload 0 8 = f.step) ∧
    (let s := { teamS 2 with team := { (teamS 2).team with step := some 5 } }
     s.fromPartner (teamOf 6 5 0 []) 6 ∧ s.team.step = some (teamOf 6 5 0 []).step ∧ s.team.pages = [] ∧ s.mode ≠ .gate ∧
      s.job.running = none) ∧
    (let f := teamOf 7 0 1 readOp
     (teamS 2).fromPartner f 7 ∧ getF (teamS 2) R.pairStatus_team = 2 ∧ (teamS 2).team.accessSeq < f.page ∧
      (accessOps f.payload).map (opsHeld (teamS 2)) = some false) ∧
    (let f := teamOf 7 0 1 (readAt 0x040000000000)
     let s := { teamS 2 with upd := { (teamS 2).upd with retraining := [(0, 0)] } }
     s.fromPartner f 7 ∧ s.team.accessSeq < f.page ∧ (accessOps f.payload).map (opsHeld s) = some true) ∧
    (teamS 2).fromPartner (teamOf 8 0 0 []) 8 :=
  ⟨⟨partner_of (by decide +kernel), by decide +kernel⟩, ⟨partner_of (by decide +kernel), by decide +kernel⟩,
    ⟨partner_of (by decide +kernel), by decide +kernel⟩, ⟨partner_of (by decide +kernel), by decide +kernel⟩,
    partner_of (by decide +kernel)⟩

end Sys2Proof.Tests
end

section
/-! The statements on the scope of the model: what every step keeps of memory, the state before power, the class of a module and
the roles of its stalls, and writes to registers. -/
namespace Sys2Proof.Machine
open Sys2Proof

/-! ## What every step keeps -/

/-- Whatever the command, its next state is kept: each arm of `exec` by the law of its operation. -/
theorem exec_kept (c : Instr) {z s : State} (h : Kept z s) : KeptOut z (exec c s) :=
  match c with
  | .powerInputInRange => execPowerInputInRange_kept h
  | .alwaysOnRailsGood => execAlwaysOnRailsGood_kept h
  | .inputOutOfLimits => execInputOutOfLimits_kept h
  | .bayIdentityRead _ => execBayIdentityRead_kept h
  | .resetNReleased => execResetNReleased_kept h
  | .resetNLow => execResetNLow_kept h
  | .lastRailOff => execLastRailOff_kept h
  | .leverOpened => execLeverOpened_kept h
  | .railFault _ _ => execRailFault_kept h
  | .clk25AonLost => execClk25AonLost_kept h
  | .clk25AonRestored => execClk25AonRestored_kept h
  | .coreClockLost _ => execCoreClockLost_kept h
  | .pllUnlock _ => execPllUnlock_kept h
  | .telemetryRefresh _ => execTelemetryRefresh_kept h
  | .alertCauseClear _ => execAlertCauseClear_kept h
  | .i3cDynamicAddress _ => execI3cDynamicAddress_kept h
  | .tapInstruction _ => execTapInstruction_kept h
  | .teamSenseLoss => execTeamSenseLoss_kept h
  | .hostModuleInserted _ => execHostModuleInserted_kept h
  | .hostModuleRemoved _ => execHostModuleRemoved_kept h
  | .laserModuleInserted _ _ => execLaserModuleInserted_kept h
  | .laserModuleRemoved _ _ => execLaserModuleRemoved_kept h
  | .dimmThermalPoll _ _ => execDimmThermalPoll_kept h
  | .bringupPhaseDone _ => execBringupPhaseDone_kept h
  | .loftTestDone _ => execLoftTestDone_kept h
  | .wakeRequest _ _ => execWakeRequest_kept h
  | .governorTick => execGovernorTick_kept h
  | .stallWakeComplete _ => execStallWakeComplete_kept h
  | .stallNap _ => execStallNap_kept h
  | .stallSleep _ => execStallSleep_kept h
  | .governorStepRaise => execGovernorStepRaise_kept h
  | .stallParked _ => execStallParked_kept h
  | .governorStepLower => execGovernorStepLower_kept h
  | .ledgerCorrection _ => execLedgerCorrection_kept h
  | .budgetWrite _ => execBudgetWrite_kept h
  | .dieCurrentLimit _ _ => execDieCurrentLimit_kept h
  | .dieCurrentPark _ => execDieCurrentPark_kept h
  | .dieThermalThrottle _ _ => execDieThermalThrottle_kept h
  | .dieStepLower _ _ _ => execDieStepLower_kept h
  | .dieThermalTrip _ _ => execDieThermalTrip_kept h
  | .wakeWait _ => execWakeWait_kept h
  | .openFrame _ => execOpenFrame_kept h
  | .prove _ => execProve_kept h
  | .challengeExpired => execChallengeExpired_kept h
  | .close _ => execClose_kept h
  | .keepalive _ => execKeepalive_kept h
  | .ack _ => execAck_kept h
  | .access _ _ => execAccess_kept h
  | .registerWrite _ _ => execRegisterWrite_kept h
  | .sessionIdleTimeout => execSessionIdleTimeout_kept h
  | .retransmitTimeout => execRetransmitTimeout_kept h
  | .eventNote => execEventNote_kept h
  | .ringDoorbell _ _ => execRingDoorbell_kept h
  | .ringCfgWrite _ _ => execRingCfgWrite_kept h
  | .evtCfgWrite _ => execEvtCfgWrite_kept h
  | .evtConsumerWrite _ => execEvtConsumerWrite_kept h
  | .commandBusy => execCommandBusy_kept h
  | .nop _ => execNop_kept h
  | .halt _ => execHalt_kept h
  | .haltClear _ => execHaltClear_kept h
  | .jobEnd _ => execJobEnd_kept h
  | .rollback _ _ => execRollback_kept h
  | .gate _ => execGate_kept h
  | .harnessLoad _ => execHarnessLoad_kept h
  | .harnessLoadDone _ _ => execHarnessLoadDone_kept h
  | .harnessUnload _ => execHarnessUnload_kept h
  | .harnessAmend _ => execHarnessAmend_kept h
  | .amendStaged => execAmendStaged_kept h
  | .stepNop _ => execStepNop_kept h
  | .fwdEnd _ => execFwdEnd_kept h
  | .endProgram _ => execEndProgram_kept h
  | .layer _ => execLayer_kept h
  | .seti _ => execSeti_kept h
  | .addi _ => execAddi_kept h
  | .ldp _ => execLdp_kept h
  | .stp _ => execStp_kept h
  | .loop _ => execLoop_kept h
  | .wait _ => execWait_kept h
  | .move _ => execMove_kept h
  | .top _ => execTop_kept h
  | .qin _ => execQin_kept h
  | .mm _ => execMm_kept h
  | .vld _ => execVld_kept h
  | .vst _ => execVst_kept h
  | .vop _ => execVop_kept h
  | .vseti _ => execVseti_kept h
  | .tzero _ => execTzero_kept h
  | .tout _ => execTout_kept h
  | .route _ => execRoute_kept h
  | .dispatch _ => execDispatch_kept h
  | .combine _ => execCombine_kept h
  | .wake _ => execWake_kept h
  | .tileOpComplete _ _ => execTileOpComplete_kept h
  | .sumWrite _ _ => execSumWrite_kept h
  | .mmComplete _ _ => execMmComplete_kept h
  | .tileVoteDecided _ => execTileVoteDecided_kept h
  | .geVoteDecided _ _ => execGeVoteDecided_kept h
  | .driftWindowDone _ _ _ _ => execDriftWindowDone_kept h
  | .retrimDue _ _ => execRetrimDue_kept h
  | .retrimForced _ _ => execRetrimForced_kept h
  | .trimOverdue _ _ => execTrimOverdue_kept h
  | .idleRetrimStart _ _ => execIdleRetrimStart_kept h
  | .trimDone _ _ _ => execTrimDone_kept h
  | .rotationStart _ => execRotationStart_kept h
  | .rotationFillDone _ _ => execRotationFillDone_kept h
  | .rotationTakeover _ _ => execRotationTakeover_kept h
  | .wearFlush => execWearFlush_kept h
  | .tileLevelWrite _ _ _ _ _ _ => execTileLevelWrite_kept h
  | .tileLevelRead _ _ _ _ _ => execTileLevelRead_kept h
  | .fieldClear => execFieldClear_kept h
  | .histReset => execHistReset_kept h
  | .backwardBegin => execBackwardBegin_kept h
  | .forwardBarrierSlow => execForwardBarrierSlow_kept h
  | .backwardComplete => execBackwardComplete_kept h
  | .troughPartialPull _ => execTroughPartialPull_kept h
  | .partialWait _ => execPartialWait_kept h
  | .dispatchFrame _ => execDispatchFrame_kept h
  | .returnFrame _ => execReturnFrame_kept h
  | .closeFrame _ => execCloseFrame_kept h
  | .wakeFrame _ => execWakeFrame_kept h
  | .summaryFrame _ => execSummaryFrame_kept h
  | .queryFrame _ => execQueryFrame_kept h
  | .partialFrame _ => execPartialFrame_kept h
  | .refuseFrame _ => execRefuseFrame_kept h
  | .combineWait _ => execCombineWait_kept h
  | .closeWait => execCloseWait_kept h
  | .toutLineStaged _ => execToutLineStaged_kept h
  | .pln _ => execPln_kept h
  | .ctx _ => execCtx_kept h
  | .updateOp _ => execUpdateOp_kept h
  | .stw _ => execStw_kept h
  | .sts _ => execSts_kept h
  | .updChipDone _ => execUpdChipDone_kept h
  | .gateComplete _ => execGateComplete_kept h
  | .loftFlitCrcError _ _ => execLoftFlitCrcError_kept h
  | .loftLinkRetrained _ => execLoftLinkRetrained_kept h
  | .loftLinkLost _ _ => execLoftLinkLost_kept h
  | .loftPatrol _ _ _ => execLoftPatrol_kept h
  | .loftFill _ => execLoftFill_kept h
  | .moverBurst _ _ => execMoverBurst_kept h
  | .chStart _ => execChStart_kept h
  | .chPause _ => execChPause_kept h
  | .chResume _ => execChResume_kept h
  | .chAbort _ => execChAbort_kept h
  | .chReq _ => execChReq_kept h
  | .rateShareWrite _ _ => execRateShareWrite_kept h
  | .rateWindow => execRateWindow_kept h
  | .rateHeld _ => execRateHeld_kept h
  | .portUp _ _ _ => execPortUp_kept h
  | .portAttemptFailed _ => execPortAttemptFailed_kept h
  | .portLost _ _ => execPortLost_kept h
  | .portRetrainTimer _ => execPortRetrainTimer_kept h
  | .portRetrain _ => execPortRetrain_kept h
  | .portEnable _ _ => execPortEnable_kept h
  | .fecDegraded _ _ => execFecDegraded_kept h
  | .pfcFrame _ => execPfcFrame_kept h
  | .pfcPauseExpired _ _ => execPfcPauseExpired_kept h
  | .pfcStorm _ _ => execPfcStorm_kept h
  | .xoffRepeat _ _ => execXoffRepeat_kept h
  | .egressFrameStart _ => execEgressFrameStart_kept h
  | .arpRequest _ _ _ => execArpRequest_kept h
  | .neighbourSolicitation _ _ _ => execNeighbourSolicitation_kept h
  | .echoRequest _ _ => execEchoRequest_kept h
  | .feedFrame _ => execFeedFrame_kept h
  | .feedConsumedWrite _ => execFeedConsumedWrite_kept h
  | .feedCfgWrite _ => execFeedCfgWrite_kept h
  | .hello _ => execHello_kept h
  | .beat _ => execBeat_kept h
  | .beatTimer => execBeatTimer_kept h
  | .teamSilence => execTeamSilence_kept h
  | .teamFormationTimeout => execTeamFormationTimeout_kept h
  | .bye _ => execBye_kept h
  | .page _ => execPage_kept h
  | .pageAck _ => execPageAck_kept h
  | .pageResend _ _ => execPageResend_kept h
  | .commit _ => execCommit_kept h
  | .commitAck _ => execCommitAck_kept h
  | .teamAccess _ _ => execTeamAccess_kept h
  | .accessResp _ => execAccessResp_kept h
  | .securingHeld => execSecuringHeld_kept h
  | .releaseWrite _ => execReleaseWrite_kept h
  | .mirrorCopy _ => execMirrorCopy_kept h
  | .slotOnFallback _ _ => execSlotOnFallback_kept h
  | .rebuildStart _ _ _ => execRebuildStart_kept h
  | .rebuildDone _ _ _ => execRebuildDone_kept h
  | .attest _ => execAttest_kept h
  | .slotUpdate _ => execSlotUpdate_kept h
  | .fwUpdate _ => execFwUpdate_kept h
  | .scrub _ _ => execScrub_kept h
  | .chipLost _ => execChipLost_kept h

/-- A step takes the command at the front of the queue, and is kept but for that. -/
theorem step_kept {s t : State} (h : step s = .next t) : Kept { s with pending := s.pending.tail } t := by
  unfold step at h
  cases hp : s.pending with
  | nil =>
    rw [hp] at h
    cases h
    exact .ofParts (by simp [keptParts, hp])
  | cons c r =>
    rw [hp] at h
    exact (exec_kept c (.refl _)).out t h

/-- Settles O3: whatever command a step runs, its law (`exec_kept`) carries the canonical form over. -/
theorem stepKeepsMemory : Obligations.StepKeepsMemory :=
  fun _ _ hs h => (step_kept h).mem hs

/-! ## The state before power -/

/-- Settles O2: with no register written, each field reads as its table's reset value, and with nothing listed, each byte as 0. -/
theorem resetState : Obligations.ResetState :=
  ⟨rfl, rfl, rfl, rfl, fun _ _ => rfl, fun _ => rfl, rfl, rfl, rfl, rfl, rfl⟩

/-! ## Keys of register fields -/

/-- Two fields of one register, or of two registers laid out alike at one place. -/
def Field.sameReg (f g : Field) : Bool := f.base == g.base && f.stride == g.stride && f.paged == g.paged

theorem fkey_sameReg_ne {f g : Field} (h : f.sameReg g = true) (hl : f.lo ≠ g.lo) (u : Nat) : fkey f u ≠ fkey g u := by
  simp only [Field.sameReg, Bool.and_eq_true, beq_iff_eq] at h
  obtain ⟨⟨hb, hs⟩, hp⟩ := h
  intro e
  simp only [fkey, hb, hs, hp] at e
  omega

/-! ## The class of a module (R3, R103) -/

@[simp] theorem logEvent_stopped (s : State) (r : EventRec) : (logEvent s r).bring.stopped = s.bring.stopped := by
  unfold logEvent; split <;> rfl

@[simp] theorem raise_stopped (s : State) (code coord d0 d1 : Nat) :
    (raise s code coord d0 d1).bring.stopped = s.bring.stopped := by
  rcases raise_cases s code coord d0 d1 with e | ⟨-, r, e⟩ | ⟨-, r, e⟩ <;> rw [e]
  · exact logEvent_stopped s r
  · rw [(OnlyStores.ringEvent s r).bring]

@[simp] theorem stopBringup_stopped (s : State) (cause : Nat) : (stopBringup s cause).bring.stopped = true := by
  simp [stopBringup]

theorem getF_stopBringup_stopCause (s : State) (cause : Nat) :
    getF (stopBringup s cause) R.bruStatus_stopCause = cause % 2 ^ 5 := by
  simp only [stopBringup]
  rw [getF_raise (by decide), getF_setF_ne _ _ (by decide), getF_setF]
  rfl

theorem getF_stopBringup_ne {f : Field} {u : Nat} (he : fkey f u ∉ eventKeys)
    (hc : fkey f u ≠ fkey R.bruStatus_stopCause 0) (hm : fkey f u ≠ fkey R.bruStatus_elapsedMs 0) (s : State) (cause : Nat) :
    getF (stopBringup s cause) f u = getF s f u := by
  simp only [stopBringup]
  rw [getF_raise he, getF_setF_ne _ _ hm, getF_setF_ne _ _ hc]
  rfl

@[simp] theorem setFs_bring (s : State) (l : List (Field × Nat)) : (setFs s l).bring = s.bring :=
  forEach_frame State.bring (fun t (p : Field × Nat) => setF_bring t p.1 0 p.2) l s

/-- The stalls with verdict 0. -/
def liveStalls (s : State) : List Nat := (List.range 512).filter (fun p => getF s R.bruStallVerdict_verdict p == 0)

theorem liveStalls_length_le (s : State) : (liveStalls s).length ≤ 512 := by
  simpa [liveStalls] using List.length_filter_le (fun p => getF s R.bruStallVerdict_verdict p == 0) (List.range 512)

/-- What the fields of BRU.CLASS are set to when the class is decided (R103). -/
def classFields (s : State) : List (Field × Nat) :=
  let up := liveStalls s
  [(R.bruClass_class, classOf up.length), (R.bruClass_liveStalls, up.length), (R.bruClass_liveTiles, 32 * up.length),
    (R.bruClass_noReserveStalls, countIf up (fun p => (getStall s p).reserve.isNone)),
    (R.bruClass_noReliefStalls, countIf up (fun p => (getStall s p).relief.isNone)),
    (R.bruClass_disabledStalls, 512 - up.length)]

/-- The class is decided by setting the fields of BRU.CLASS, by events, and without a class by a stop with cause 9. -/
theorem decideClass_cases (s : State) : ∃ t : State,
    KeepsReg (setFs s (classFields s)) t ∧ t.bring.stopped = s.bring.stopped ∧
    decideClass s = if classOf (liveStalls s).length = 0 then stopBringup t 9 else t := by
  unfold decideClass
  extract_lets up l c s1 s2 factory s3
  have hreg : KeepsReg s1 s2 := .raise _ _ _ _ _
  have hstop : s2.bring.stopped = s.bring.stopped := by simp [s2, s1]
  refine ⟨s3, ?_, ?_, rfl⟩
  · dsimp only [s3]
    split
    · exact hreg.trans (.raise _ _ _ _ _)
    · exact hreg
  · dsimp only [s3]
    split <;> simp [hstop]

theorem decideClass_stopped (s : State) :
    (decideClass s).bring.stopped = (decide (classOf (liveStalls s).length = 0) || s.bring.stopped) := by
  obtain ⟨t, -, hstop, e⟩ := decideClass_cases s
  rw [e]
  split <;> simp [*]

/-- A field of BRU.CLASS reads as set, whether bring-up stops or not. -/
theorem getF_decideClass {f : Field} (he : fkey f 0 ∉ eventKeys) (hc : fkey f 0 ≠ fkey R.bruStatus_stopCause 0)
    (hm : fkey f 0 ≠ fkey R.bruStatus_elapsedMs 0) (s : State) :
    getF (decideClass s) f = getF (setFs s (classFields s)) f := by
  obtain ⟨t, hreg, -, e⟩ := decideClass_cases s
  rw [e]
  split
  · rw [getF_stopBringup_ne he hc hm, hreg f 0 he]
  · exact hreg f 0 he

theorem decideClass_fields (s : State) : getF (decideClass s) R.bruClass_class = classOf (liveStalls s).length ∧
    getF (decideClass s) R.bruClass_liveStalls = (liveStalls s).length ∧
    getF (decideClass s) R.bruClass_liveTiles = 32 * (liveStalls s).length ∧
    getF (decideClass s) R.bruClass_disabledStalls = 512 - (liveStalls s).length := by
  have hl := liveStalls_length_le s
  simp (disch := decide) only [getF_decideClass, setFs, classFields, List.foldl_cons, List.foldl_nil, getF_setF_ne, getF_setF]
  refine ⟨Nat.mod_eq_of_lt ?_, Nat.mod_eq_of_lt ?_, Nat.mod_eq_of_lt ?_, Nat.mod_eq_of_lt ?_⟩
  · unfold classOf; split_ifs <;> decide
  all_goals simp only [R.bruClass_liveStalls, R.bruClass_liveTiles, R.bruClass_disabledStalls]; omega

theorem decideClass_stopCause (s : State) (h : classOf (liveStalls s).length = 0) :
    getF (decideClass s) R.bruStatus_stopCause = 9 := by
  obtain ⟨t, -, -, e⟩ := decideClass_cases s
  rw [e, if_pos h, getF_stopBringup_stopCause]; rfl

/-! ## The verdict and the roles of a stall (R8, R101) -/

theorem verdictOf_badTiles {s : State} {p : Nat} (h : 2 < (badTiles s p).length) : verdictOf s p ≠ 0 := by
  unfold verdictOf; rw [if_pos h]; split_ifs <;> decide

theorem verdictOf_geBad {s : State} {p : Nat} (h : onF s R.fusStallFuse_geGood p = false) : verdictOf s p = 1 := by
  unfold verdictOf fuseGood; rw [h]; rfl

/-- The good positions of a stall, lowest first. -/
def goodTiles (s : State) (p : Nat) : List Nat := (List.range 34).filter (fun t => !tileBad s p t)

theorem goodTiles_eq (s : State) (p : Nat) :
    (List.range 34).filter (fun t => !(badTiles s p).contains t) = goodTiles s p :=
  List.filter_congr (fun t ht => by simp_all [badTiles])

theorem good_add_bad (s : State) (p : Nat) : (goodTiles s p).length + (badTiles s p).length = 34 := by
  simpa [goodTiles, badTiles, List.countP_eq_length_filter, add_comm] using
    (List.length_eq_countP_add_countP (tileBad s p) (l := List.range 34)).symm

theorem getStall_decideStall (s : State) (p : Nat) : getStall (decideStall s p) p =
    { Stall.reset with
      st := if verdictOf s p = 0 then .sleep else .disabled
      live := if verdictOf s p = 0 then (goodTiles s p).take 32 else []
      relief := if verdictOf s p = 0 then (goodTiles s p)[32]? else none
      reserve := if verdictOf s p = 0 then (goodTiles s p)[33]? else none
      bad := badTiles s p } := by
  simp only [decideStall, goodTiles_eq]
  rw [apply_ite (fun t => getStall t p)]
  have h : ∀ t c d e f, getStall (raise t c d e f) p = getStall t p := fun t c d e f => by simp [getStall]
  simp only [h, getStall_setStall, ite_self]

theorem decideStall_verdict {s : State} {p : Nat} (h : verdictOf s p = 0) :
    getF (decideStall s p) R.bruStallVerdict_verdict p = 0 := by
  simp only [decideStall, h, if_true, getF_setStall]
  rw [getF_setF_ne _ _ (fkey_sameReg_ne (by decide) (by decide) p), getF_setF_ne _ _ (fkey_sameReg_ne (by decide) (by decide) p),
    getF_setF_ne _ _ (fkey_sameReg_ne (by decide) (by decide) p), getF_setF]
  rfl

/-- A stall with verdict 0 has enough good positions for its 32 live ones. -/
theorem goodTiles_length {s : State} {p : Nat} (h : verdictOf s p = 0) : 32 ≤ (goodTiles s p).length := by
  have hbad : ¬ 2 < (badTiles s p).length := fun hb => verdictOf_badTiles hb h
  have := good_add_bad s p
  omega

theorem classOf_eq_zero_iff (l : Nat) : classOf l = 0 ↔ l < 448 := by
  unfold classOf; split_ifs <;> simp <;> omega

/-- What CLASS_DECIDED leaves in BRU.CLASS and BRU.STATUS (R103), by the number of live stalls. -/
theorem classDecided (s : State) (hs : s.bring.stopped = false) :
    let l := (liveStalls s).length
    getF (decideClass s) R.bruClass_liveStalls = l ∧ getF (decideClass s) R.bruClass_liveTiles = 32 * l ∧
      getF (decideClass s) R.bruClass_disabledStalls = 512 - l ∧
      (l = 512 → getF (decideClass s) R.bruClass_class = 1) ∧
      (496 ≤ l → l < 512 → getF (decideClass s) R.bruClass_class = 2) ∧
      (448 ≤ l → l < 496 → getF (decideClass s) R.bruClass_class = 3) ∧
      (l < 448 → getF (decideClass s) R.bruClass_class = 0 ∧ (decideClass s).bring.stopped = true ∧
        getF (decideClass s) R.bruStatus_stopCause = 9) ∧
      (448 ≤ l → (decideClass s).bring.stopped = false) := by
  intro l
  obtain ⟨hclass, hlive, htiles, hdis⟩ := decideClass_fields s
  have hstop := decideClass_stopped s
  rw [hs, Bool.or_false] at hstop
  refine ⟨hlive, htiles, hdis, fun h => ?_, fun h h' => ?_, fun h h' => ?_, fun h => ?_, fun h => ?_⟩
  · rw [hclass]; exact if_pos h
  · rw [hclass, classOf, if_neg (by omega), if_pos h]
  · rw [hclass, classOf, if_neg (by omega), if_neg (by omega), if_pos h]
  · have h0 := (classOf_eq_zero_iff _).mpr h
    exact ⟨hclass.trans h0, hstop.trans (decide_eq_true h0), decideClass_stopCause s h0⟩
  · exact hstop.trans (decide_eq_false (by rw [classOf_eq_zero_iff]; omega))

/-- What a stall is once resolved (R8, R101): at rest with its roles, or disabled without live positions. -/
theorem stallDecided (s : State) (p : Nat) :
    (verdictOf s p = 0 → getF (decideStall s p) R.bruStallVerdict_verdict p = 0 ∧
      (getStall (decideStall s p) p).st = .sleep ∧
      (getStall (decideStall s p) p).live = (goodTiles s p).take 32 ∧ (getStall (decideStall s p) p).live.length = 32 ∧
      (getStall (decideStall s p) p).relief = (goodTiles s p)[32]? ∧
      (getStall (decideStall s p) p).reserve = (goodTiles s p)[33]?) ∧
    (verdictOf s p ≠ 0 → (getStall (decideStall s p) p).st = .disabled ∧ (getStall (decideStall s p) p).live = []) := by
  rw [getStall_decideStall]
  refine ⟨fun h => ?_, fun h => ?_⟩
  · have hlen := goodTiles_length h
    simp [h, decideStall_verdict h, hlen]
  · simp [h]

/-- Settles O18: the fields of BRU.CLASS are read back through the events and the stop that follow them; a stall with verdict 0
has at most two bad positions, so that 32 good ones are left. -/
theorem classAndStalls : Obligations.ClassAndStalls := by
  refine ⟨fun s _ hs => classDecided s hs, fun s p _ => ?_⟩
  obtain ⟨hlive, hdead⟩ := stallDecided s p
  exact ⟨hlive, hdead, verdictOf_badTiles, verdictOf_geBad⟩

/-! ## Folds -/

/-- A fold whose steps over the list's own elements leave a part of the state leaves it. -/
theorem forEach_frame_mem {α β : Type} (g : State → β) {f : State → α → State} {l : List α}
    (h : ∀ a ∈ l, ∀ s, g (f s a) = g s) (s : State) : g (forEach l f s) = g s :=
  List.foldlRecOn l f (motive := fun t => g t = g s) rfl (fun t ht a ha => (h a ha t).trans ht)

/-- A fold in which one element alone changes a part of the state ends with what that element makes of it. -/
theorem forEach_at {α β : Type} (g : State → β) {f : State → α → State} {l : List α} {a : α} {v : β} {s : State}
    (hl : l.Nodup) (ha : a ∈ l) (hother : ∀ b ∈ l, b ≠ a → ∀ t, g (f t b) = g t)
    (hit : ∀ t, g t = g s → g (f t a) = v) :
    g (forEach l f s) = v := by
  obtain ⟨l₁, l₂, rfl⟩ := List.append_of_mem ha
  obtain ⟨-, hn₂, hdis⟩ := List.nodup_append.mp hl
  have h₁ : g (forEach l₁ f s) = g s :=
    forEach_frame_mem g (fun b hb => hother b (by simp [hb]) (hdis b hb a (by simp))) s
  have h₂ := forEach_frame_mem g (l := l₂)
    (fun b hb => hother b (by simp [hb]) (fun e => (List.nodup_cons.mp hn₂).1 (e ▸ hb))) (f (forEach l₁ f s) a)
  simp only [forEach, List.foldl_append, List.foldl_cons] at h₁ h₂ ⊢
  rw [h₂, hit _ h₁]

/-! ## The register map (R137) -/

/-- The fields of a register stand at its place, lie within its 64 bits and begin at different bits. -/
def RegDef.wellLaid (r : RegDef) : Bool :=
  r.fields.all (fun f => f.base == r.base && f.stride == r.stride && f.paged == r.paged && decide (f.lo + f.width ≤ 64)
    && f.width != 0) &&
    decide ((r.fields.map Field.lo).Nodup)

theorem allRegs_wellLaid : allRegs.all RegDef.wellLaid = true := by decide +kernel

theorem findIn_mem {x : Nat} {pending : Bool} {l : List RegDef} {r : RegRef} (h : findIn x pending l = some r) :
    r.reg ∈ l := by
  induction l with
  | nil => cases h
  | cons d l ih =>
    unfold findIn at h
    extract_lets y at h
    split at h
    · split at h
      · cases h; exact List.mem_cons_self
      · exact List.mem_cons_of_mem _ (ih h)
    · exact List.mem_cons_of_mem _ (ih h)

theorem findReg_mem {a : Nat} {r : RegRef} (h : findReg a = some r) : r.reg ∈ allRegs := by
  unfold findReg at h
  extract_lets x at h
  split at h
  · cases h
  · rcases (Option.orElse_eq_some _ _ _).mp h with h | ⟨-, h⟩
    · exact findIn_mem h
    · exact findIn_mem h

/-- Every register that an address names is one of the map, and laid out well. -/
theorem findReg_wellLaid {a : Nat} {r : RegRef} (h : findReg a = some r) : r.reg.wellLaid = true :=
  List.all_eq_true.mp allRegs_wellLaid _ (findReg_mem h)

section wellLaid
variable {r : RegDef} (hr : r.wellLaid = true)
include hr

theorem wellLaid_nodup : r.fields.Nodup := by
  simp only [RegDef.wellLaid, Bool.and_eq_true, decide_eq_true_eq] at hr
  exact .of_map _ hr.2

theorem wellLaid_fits {f : Field} (hf : f ∈ r.fields) : 0 < f.width ∧ f.lo + f.width ≤ 64 := by
  simp only [RegDef.wellLaid, Bool.and_eq_true, List.all_eq_true, decide_eq_true_eq, bne_iff_ne] at hr
  have := hr.1 f hf
  omega

theorem wellLaid_fkey_ne {f g : Field} (hf : f ∈ r.fields) (hg : g ∈ r.fields) (h : f ≠ g) (u : Nat) :
    fkey f u ≠ fkey g u := by
  simp only [RegDef.wellLaid, Bool.and_eq_true, List.all_eq_true, decide_eq_true_eq, beq_iff_eq] at hr
  obtain ⟨⟨⟨⟨⟨hb, hs⟩, hp⟩, -⟩, -⟩, hn⟩ := And.imp_left (fun h => h f hf) hr
  obtain ⟨⟨⟨⟨hb', hs'⟩, hp'⟩, -⟩, -⟩ := hr.1 g hg
  refine fkey_sameReg_ne (by simp [Field.sameReg, *]) (fun e => h ?_) u
  exact List.inj_on_of_nodup_map hn hf hg e

end wellLaid

/-! ## Words and fields -/

/-- The bits of a field in a written value are those in its 64-bit word. -/
theorem inWord_mod {f : Field} (h : 0 < f.width ∧ f.lo + f.width ≤ 64) (v : Nat) :
    inWord f (v % 2 ^ 64) = bits v (f.lo + f.width - 1) f.lo := by
  obtain ⟨hw, hfit⟩ := h
  have e : f.lo + f.width - 1 + 1 - f.lo = f.width := by omega
  have e' : 64 = f.lo + (64 - f.lo) := by omega
  rw [inWord, bits, e, e', pow_add, Nat.mod_mul_right_div_self]
  exact Nat.mod_mod_of_dvd _ (pow_dvd_pow 2 (by omega))

theorem inWord_lt (f : Field) (v : Nat) : inWord f v < 2 ^ f.width := Nat.mod_lt _ (Nat.two_pow_pos _)

theorem bits_mod (v hi lo : Nat) : bits v hi lo % 2 ^ (hi + 1 - lo) = bits v hi lo := Nat.mod_mod _ _

theorem setF_mod (s : State) (f : Field) (u v : Nat) : setF s f u (v % 2 ^ f.width) = setF s f u v := by
  simp [setF]

/-! ## Register writes (R16 to R19, R140) -/

/-- What a field holds after a write to its register, by its access code (R16). -/
def valueAfter (f : Field) (new old : Nat) : Nat :=
  match f.acc with
  | .rw => new
  | .wo => new
  | .w1c => if new = 0 then old else 0
  | _ => old

theorem getF_writeField (u v : Nat) (s : State) (f : Field) :
    getF (writeField u v s f) f u = valueAfter f (inWord f v) (getF s f u) := by
  have hv := Nat.mod_eq_of_lt (inWord_lt f v)
  cases h : f.acc <;> simp only [writeField, valueAfter, h, getF_setF, hv]
  split <;> simp

theorem getF_writeField_ne {f g : Field} {u : Nat} (h : fkey f u ≠ fkey g u) (v : Nat) (s : State) :
    getF (writeField u v s g) f u = getF s f u := by
  cases hg : g.acc <;> simp only [writeField, hg, getF_setF_ne _ _ h]
  split
  · rfl
  · exact getF_setF_ne s 0 h

/-- A write to a field changes the register table alone. -/
theorem writeField_reg (u v : Nat) (s : State) (f : Field) : ∃ m, writeField u v s f = { s with reg := m } := by
  unfold writeField
  split
  · exact ⟨_, rfl⟩
  · exact ⟨_, rfl⟩
  · split
    · exact ⟨s.reg, rfl⟩
    · exact ⟨_, rfl⟩
  · exact ⟨s.reg, rfl⟩

theorem writeFields_frame {β : Type} (g : State → β) (hg : ∀ s m, g { s with reg := m } = g s) (r : RegRef) (v : Nat)
    (s : State) : g (writeFields r v s) = g s :=
  forEach_frame g (fun t f => by obtain ⟨m, e⟩ := writeField_reg r.unit v t f; rw [e, hg]) r.reg.fields s

theorem getF_writeFields {r : RegRef} (hr : r.reg.wellLaid = true) {f : Field} (hf : f ∈ r.reg.fields) (v : Nat) (s : State) :
    getF (writeFields r v s) f r.unit = valueAfter f (inWord f v) (getF s f r.unit) :=
  forEach_at (fun t => getF t f r.unit) (wellLaid_nodup hr) hf
    (fun _ hg hne t => getF_writeField_ne (wellLaid_fkey_ne hr hf hg hne.symm r.unit) v t)
    (fun t ht => by rw [getF_writeField, ht])

theorem getP_putPending {r : RegRef} (hr : r.reg.wellLaid = true) {f : Field} (hf : f ∈ r.reg.fields) (ha : f.acc = .rwg)
    (v : Nat) (s : State) : getP (putPending r v s) f r.unit = inWord f v := by
  have hp : tget? (putPending r v s).pend (fkey f r.unit) = some (inWord f v) := by
    refine forEach_at (fun t => tget? t.pend (fkey f r.unit)) ((wellLaid_nodup hr).filter _)
      (List.mem_filter.mpr ⟨hf, by simp [ha]⟩) ?_ ?_
    · intro g hg hne t
      have hk := wellLaid_fkey_ne hr hf (List.mem_filter.mp hg).1 hne.symm r.unit
      simp [setP, tget?_tset, hk]
    · intro t _
      simp [setP, tget?_tset, Nat.mod_eq_of_lt (inWord_lt f v)]
  simp [getP, hp]

theorem putPending_frame {β : Type} (g : State → β) (hg : ∀ s m, g { s with pend := m } = g s) (r : RegRef) (v : Nat)
    (s : State) : g (putPending r v s) = g s :=
  forEach_frame g (fun t _ => hg t _) _ s

theorem registerWrite_found {a v : Nat} {r : RegRef} {s : State} (hr : findReg a = some r) (hs : regStatus s r v = 0) :
    registerWrite a v s = writeReg r (v % 2 ^ 64) s := by
  simp [registerWrite, hr, putReg, hs]

theorem registerWrite_refused {a v : Nat} {s : State} (h : ∀ r, findReg a = some r → regStatus s r v ≠ 0) :
    registerWrite a v s = s := by
  unfold registerWrite
  split
  · rfl
  · next r hr => simp [putReg, h r hr]

theorem exec_registerWrite_refused {a v : Nat} {s : State} (h : ∀ r, findReg a = some r → regStatus s r v ≠ 0) :
    exec (.registerWrite a v) s = .next s := by
  simp [exec, execRegisterWrite, inModule, live, registerWrite_refused h]

theorem exec_registerWrite_active {s : State} {a v : Nat} {r : RegRef} {f : Field} (hon : s.board.railsOn = true)
    (hfind : findReg a = some r) (hact : r.pending = false) (hs : regStatus s r v = 0)
    (hplain : writeActs.find? (fun x => x.1 == r.reg.base) = none) (hf : f ∈ r.reg.fields) :
    ∃ t, exec (.registerWrite a v) s = .next t ∧ t.mem = s.mem ∧ t.mode = s.mode ∧ t.pend = s.pend ∧
      getF t f r.unit = valueAfter f (bits v (f.lo + f.width - 1) f.lo) (getF s f r.unit) := by
  have hr := findReg_wellLaid hfind
  have hw : registerWrite a v s = writeFields r (v % 2 ^ 64) s := by
    rw [registerWrite_found hfind hs, writeReg, hact, hplain]; rfl
  refine ⟨_, inModule_on hon, ?_⟩
  rw [hw]
  exact ⟨writeFields_frame State.mem (fun _ _ => rfl) r _ s, writeFields_frame State.mode (fun _ _ => rfl) r _ s,
    writeFields_frame State.pend (fun _ _ => rfl) r _ s, by rw [getF_writeFields hr hf, inWord_mod (wellLaid_fits hr hf)]⟩

theorem exec_registerWrite_pending {s : State} {a v : Nat} {r : RegRef} {f : Field} (hon : s.board.railsOn = true)
    (hfind : findReg a = some r) (hpend : r.pending = true) (hs : regStatus s r v = 0) (hf : f ∈ r.reg.fields)
    (ha : f.acc = .rwg) :
    ∃ t, exec (.registerWrite a v) s = .next t ∧ t.reg = s.reg ∧ t.mem = s.mem ∧
      getP t f r.unit = bits v (f.lo + f.width - 1) f.lo := by
  have hr := findReg_wellLaid hfind
  have hw : registerWrite a v s = putPending r (v % 2 ^ 64) s := by
    rw [registerWrite_found hfind hs, writeReg, hpend]; rfl
  refine ⟨_, inModule_on hon, ?_⟩
  rw [hw]
  exact ⟨putPending_frame State.reg (fun _ _ => rfl) r _ s, putPending_frame State.mem (fun _ _ => rfl) r _ s,
    by rw [getP_putPending hr hf ha, inWord_mod (wellLaid_fits hr hf)]⟩

/-! ## The rings' registers (R142, R143, R153) -/

theorem bits_31_0 (v : Nat) : bits v 31 0 = v % 2 ^ 32 := by simp [bits]

theorem doorbellStatus_eq_zero_iff (s : State) (r v : Nat) : doorbellStatus s r v = 0 ↔
    indexAhead (ringConsumer s r) (v % 2 ^ 32) ≤ ringSize s r ∧
      indexAhead (ringConsumer s r) (ringProducer s r) ≤ indexAhead (ringConsumer s r) (v % 2 ^ 32) := by
  simp only [doorbellStatus, bits_31_0, ite_eq_right_iff, reduceCtorEq, imp_false, not_or, Nat.not_lt]

theorem exec_ringDoorbell {s : State} {r v : Nat} (hr : r < 2) (hon : s.board.railsOn = true) :
    exec (.ringDoorbell r v) s = .next (if indexAhead (ringConsumer s r) (v % 2 ^ 32) ≤ ringSize s r ∧
      indexAhead (ringConsumer s r) (ringProducer s r) ≤ indexAhead (ringConsumer s r) (v % 2 ^ 32)
      then setF s R.ctlRingDoorbell_producer r v else s) := by
  refine (onUnit_on hr hon).trans ?_
  simp only [doorbell, doorbellStatus_eq_zero_iff, bits_31_0]
  rw [← setF_mod s R.ctlRingDoorbell_producer r v]
  rfl

theorem ringCfgStatus_eq_zero_iff (s : State) (r v : Nat) : ringCfgStatus s r v = 0 ↔
    ringPending s r = false ∧ bits v 3 0 ≤ 10 ∧ bits v 47 12 * 4096 + 4096 * 2 ^ bits v 3 0 ≤ hbmEnd := by
  unfold ringCfgStatus
  cases ringPending s r
  · simp
  · simp

theorem evtCfgStatus_eq_zero_iff (s : State) (v : Nat) : evtCfgStatus s v = 0 ↔
    getF s R.ctlEvtProducer_producer = getF s R.ctlEvtConsumer_consumer ∧ bits v 3 0 ≤ 9 ∧
      bits v 47 12 * 4096 + 65536 * 2 ^ bits v 3 0 ≤ hbmEnd := by
  unfold evtCfgStatus
  by_cases h : getF s R.ctlEvtProducer_producer = getF s R.ctlEvtConsumer_consumer <;> simp [h]

theorem evtConsumerStatus_eq_zero_iff (s : State) (v : Nat) : evtConsumerStatus s v = 0 ↔
    indexAhead (getF s R.ctlEvtConsumer_consumer) (v % 2 ^ 32) ≤
      indexAhead (getF s R.ctlEvtConsumer_consumer) (getF s R.ctlEvtProducer_producer) := by
  simp [evtConsumerStatus, bits_31_0]

/-- The three fields that a new place and size of a ring set lie apart, and apart from the ring's consumer (R141). -/
theorem ringCfg_keys {r : Nat} (hr : r < 2) : fkey R.ctlRingCfg_base4k r ≠ fkey R.ctlRingCfg_sizeCode r ∧
    fkey R.ctlRingCfg_base4k r ≠ fkey R.ctlRingDoorbell_producer r ∧
    fkey R.ctlRingCfg_sizeCode r ≠ fkey R.ctlRingDoorbell_producer r ∧
    fkey R.ctlRingStatus_consumer r ≠ fkey R.ctlRingCfg_base4k r ∧
    fkey R.ctlRingStatus_consumer r ≠ fkey R.ctlRingCfg_sizeCode r ∧
    fkey R.ctlRingStatus_consumer r ≠ fkey R.ctlRingDoorbell_producer r := by
  revert r; decide

theorem exec_ringCfgWrite {s : State} {r v : Nat} (hr : r < 2) (hon : s.board.railsOn = true)
    (hc : ringConsumer s r < 2 ^ 32) :
    ∃ t, exec (.ringCfgWrite r v) s = .next t ∧ t.mem = s.mem ∧ t.mode = s.mode ∧
      if ringPending s r = false ∧ bits v 3 0 ≤ 10 ∧ bits v 47 12 * 4096 + 4096 * 2 ^ bits v 3 0 ≤ hbmEnd then
        getF t R.ctlRingCfg_base4k r = bits v 47 12 ∧ getF t R.ctlRingCfg_sizeCode r = bits v 3 0 ∧
          ringPending t r = false ∧ ringConsumer t r = ringConsumer s r
      else t = s := by
  refine ⟨ringCfg r v s, onUnit_on hr hon, ?_⟩
  simp only [ringCfg, ringCfgStatus_eq_zero_iff]
  split
  · obtain ⟨hbs, hbp, hsp, hcb, hcs, hcp⟩ := ringCfg_keys hr
    have hcons : ∀ a b c, ringConsumer (setF (setF (setF s R.ctlRingCfg_base4k r a) R.ctlRingCfg_sizeCode r b)
        R.ctlRingDoorbell_producer r c) r = ringConsumer s r := fun a b c => by
      simp only [ringConsumer, getF_setF_ne _ _ hcp, getF_setF_ne _ _ hcs, getF_setF_ne _ _ hcb]
    refine ⟨rfl, rfl, ?_, ?_, ?_, hcons _ _ _⟩
    · rw [getF_setF_ne _ _ hbp, getF_setF_ne _ _ hbs, getF_setF]
      exact bits_mod v 47 12
    · rw [getF_setF_ne _ _ hsp, getF_setF]
      exact bits_mod v 3 0
    · rw [ringPending, hcons, ringProducer, getF_setF]
      simpa [R.ctlRingDoorbell_producer] using (Nat.mod_eq_of_lt hc).symm
  · exact ⟨rfl, rfl, rfl⟩

theorem exec_evtCfgWrite {s : State} {v : Nat} (hon : s.board.railsOn = true) :
    ∃ t, exec (.evtCfgWrite v) s = .next t ∧ t.mem = s.mem ∧ t.mode = s.mode ∧
      if getF s R.ctlEvtProducer_producer = getF s R.ctlEvtConsumer_consumer ∧ bits v 3 0 ≤ 9 ∧
          bits v 47 12 * 4096 + 65536 * 2 ^ bits v 3 0 ≤ hbmEnd then
        getF t R.ctlEvtCfg_base4k = bits v 47 12 ∧ evtSize t = 2048 * 2 ^ bits v 3 0 ∧
          getF t R.ctlEvtProducer_producer = getF s R.ctlEvtProducer_producer
      else t = s := by
  refine ⟨evtCfg v s, inModule_on hon, ?_⟩
  simp only [evtCfg, evtCfgStatus_eq_zero_iff, setFs, List.foldl_cons, List.foldl_nil]
  split
  · refine ⟨rfl, rfl, ?_, ?_, ?_⟩
    · rw [getF_setF_ne _ _ (by decide), getF_setF]
      exact bits_mod v 47 12
    · rw [evtSize, getF_setF]
      exact congrArg (2048 * 2 ^ ·) (bits_mod v 3 0)
    · rw [getF_setF_ne _ _ (by decide), getF_setF_ne _ _ (by decide)]
  · exact ⟨rfl, rfl, rfl⟩

theorem exec_evtConsumerWrite {s : State} {v : Nat} (hon : s.board.railsOn = true) :
    exec (.evtConsumerWrite v) s = .next (if indexAhead (getF s R.ctlEvtConsumer_consumer) (v % 2 ^ 32) ≤
        indexAhead (getF s R.ctlEvtConsumer_consumer) (getF s R.ctlEvtProducer_producer)
      then setF s R.ctlEvtConsumer_consumer 0 v else s) := by
  refine (inModule_on hon).trans ?_
  simp only [evtConsumer, evtConsumerStatus_eq_zero_iff, bits_31_0]
  rw [← setF_mod s R.ctlEvtConsumer_consumer 0 v]
  rfl

/-- Settles O26: the fields of a register are apart from each other, so that a write to all of them leaves in each what its
access code says; the rings' registers follow their status functions. -/
theorem registerAccess : Obligations.RegisterAccess := by
  refine ⟨fun s a v r f hon hfind hact hs hplain hf => ?_, fun s a v r f hon hfind hpend hs hf ha => ?_,
    fun s a v h => exec_registerWrite_refused h, fun s r v hr hon => exec_ringDoorbell hr hon,
    fun s r v hr hon hc => exec_ringCfgWrite hr hon hc, fun s v hon => exec_evtCfgWrite hon,
    fun s v hon => exec_evtConsumerWrite hon⟩
  · obtain ⟨t, he, hmem, hmode, hp, hval⟩ := exec_registerWrite_active hon hfind hact hs hplain hf
    exact ⟨t, he, hmem, hmode, hp, hval.trans (by unfold valueAfter; rfl)⟩
  · exact exec_registerWrite_pending hon hfind hpend hs hf ha

end Sys2Proof.Machine
end

section
/-! The statements on what the model answers and keeps as a whole: every command's answer, writes to memory and events in the
ring, and requests to wake. -/
namespace Sys2Proof.Machine
open Sys2Proof

/-! ## What a command answers (R25, R38, R76) -/

/-- An outcome that is a next state wherever `ok` holds, and nowhere a refusal. -/
structure Answers (ok : Prop) (o : Out) : Prop where
  next : ok → ∃ t, o = .next t
  admitted : ∀ r, o ≠ .refused r

namespace Answers
variable {ok ok' : Prop} {o : Out} {a b : Bool}

theorem of_next (ok : Prop) (t : State) : Answers ok (.next t) := ⟨fun _ => ⟨t, rfl⟩, nofun⟩

theorem mono (h : Answers ok o) (himp : ok' → ok) : Answers ok' o := ⟨h.next ∘ himp, h.admitted⟩

/-- Operands checked beside the unit's number. -/
theorem left (h : Answers (a = true) o) : Answers ((a && b) = true) o := h.mono Bool.and_elim_left

theorem right (h : Answers (b = true) o) : Answers ((a && b) = true) o := h.mono Bool.and_elim_right

theorem ite {c : Prop} [Decidable c] {o' : Out} (h : Answers ok o) (h' : Answers ok o') :
    Answers ok (if c then o else o') := by
  split
  · exact h
  · exact h'

/-- A command that runs where its unit exists stops with a fault elsewhere. -/
theorem ite_fault {c : Prop} [Decidable c] {t : State} {f : Fault} : Answers c (if c then .next t else .fault f) := by
  split
  · exact of_next _ t
  · next h => exact ⟨fun hc => absurd hc h, nofun⟩

end Answers

theorem inModule_answers (ok : Prop) (s : State) (f : State → State) : Answers ok (inModule s f) := .of_next ok _

theorem onUnit_answers {n u : Nat} {s : State} {f : State → State} : Answers (decide (u < n) = true) (onUnit n u s f) :=
  Answers.ite_fault.mono of_decide_eq_true

theorem onStall_answers {p : Nat} {s : State} {f : State → State} : Answers (isStall p = true) (onStall p s f) :=
  Answers.ite_fault.mono of_decide_eq_true

theorem onTile_answers {p t : Nat} {s : State} {f : State → State} : Answers (isTile p t = true) (onTile p t s f) :=
  Answers.ite_fault.mono (by simp [isTile])

/-- A paced channel's command (R377). -/
theorem onPaced_answers {c : Nat} {t : State} :
    Answers (isPaced c = true) (if 57 ≤ c ∧ c < 64 then (.next t : Out) else .fault .noSuchUnit) :=
  Answers.ite_fault.mono (by simp [isPaced])

/-- What each command asks of its operands is enough for its unit to exist, by the kind of unit it names. -/
theorem exec_answers (c : Instr) (s : State) : Answers (c.wf = true) (exec c s) :=
  match c with
  | .powerInputInRange | .alwaysOnRailsGood | .inputOutOfLimits | .bayIdentityRead _ | .resetNReleased | .resetNLow
  | .lastRailOff | .leverOpened | .clk25AonLost | .clk25AonRestored | .telemetryRefresh _ | .alertCauseClear _
  | .i3cDynamicAddress _ | .tapInstruction _ | .governorTick => .of_next _ _
  | .railFault _ _ | .coreClockLost _ | .pllUnlock _ | .teamSenseLoss | .hostModuleInserted _ | .hostModuleRemoved _
  | .bringupPhaseDone _ | .loftTestDone _ | .governorStepRaise | .governorStepLower | .ledgerCorrection _ | .budgetWrite _
  | .openFrame _ | .prove _ | .challengeExpired | .close _ | .keepalive _ | .ack _ | .access _ _ | .registerWrite _ _
  | .sessionIdleTimeout | .retransmitTimeout | .eventNote | .evtCfgWrite _ | .evtConsumerWrite _ | .commandBusy | .gate _
  | .harnessLoadDone _ _ | .amendStaged | .wearFlush | .fieldClear | .histReset | .backwardBegin | .forwardBarrierSlow
  | .backwardComplete | .dispatchFrame _ | .returnFrame _ | .closeFrame _ | .wakeFrame _ | .summaryFrame _ | .queryFrame _
  | .partialFrame _ | .refuseFrame _ | .closeWait | .gateComplete _ | .rateWindow | .feedFrame _ | .feedConsumedWrite _
  | .feedCfgWrite _ | .hello _ | .beat _ | .beatTimer | .teamSilence | .teamFormationTimeout | .bye _ | .page _ | .pageAck _
  | .pageResend _ _ | .commit _ | .commitAck _ | .teamAccess _ _ | .accessResp _ | .securingHeld | .releaseWrite _ =>
    inModule_answers _ s _
  | .wakeRequest _ _ | .stallWakeComplete _ | .stallNap _ | .stallSleep _ | .stallParked _ | .wakeWait _ | .stepNop _
  | .fwdEnd _ | .endProgram _ | .layer _ | .seti _ | .addi _ | .ldp _ | .stp _ | .loop _ | .wait _ | .move _ | .top _
  | .qin _ | .mm _ | .vld _ | .vst _ | .vop _ | .vseti _ | .tzero _ | .tout _ | .route _ | .dispatch _ | .combine _
  | .wake _ | .tileVoteDecided _ | .rotationStart _ | .troughPartialPull _ | .partialWait _ | .combineWait _
  | .toutLineStaged _ => onStall_answers
  | .sumWrite _ _ | .mmComplete _ _ | .geVoteDecided _ _ | .rotationFillDone _ _ | .rotationTakeover _ _
  | .tileOpComplete _ _ | .slotOnFallback _ _ => onStall_answers.left
  | .rebuildStart _ _ _ | .rebuildDone _ _ _ => onStall_answers.left.left
  | .driftWindowDone _ _ _ _ | .retrimDue _ _ | .retrimForced _ _ | .trimOverdue _ _ | .idleRetrimStart _ _ => onTile_answers
  | .trimDone _ _ _ => onTile_answers.left
  | .tileLevelRead _ _ _ _ _ => onTile_answers.left.left
  | .tileLevelWrite _ _ _ _ _ _ => onTile_answers.right.left.left.left
  | .laserModuleInserted _ _ | .laserModuleRemoved _ _ | .dimmThermalPoll _ _ | .dieCurrentPark _ | .nop _ | .halt _
  | .haltClear _ | .jobEnd _ | .harnessLoad _ | .harnessUnload _ | .harnessAmend _ | .pln _ | .ctx _ | .updateOp _ | .stw _
  | .sts _ | .updChipDone _ | .loftFlitCrcError _ _ | .loftLinkRetrained _ | .chStart _ | .chPause _ | .chResume _
  | .chAbort _ | .chReq _ | .portAttemptFailed _ | .portRetrainTimer _ | .portEnable _ _ | .egressFrameStart _
  | .mirrorCopy _ | .attest _ | .slotUpdate _ | .fwUpdate _ | .chipLost _ => onUnit_answers
  | .dieCurrentLimit _ _ | .dieThermalThrottle _ _ | .dieStepLower _ _ _ | .dieThermalTrip _ _ | .ringDoorbell _ _
  | .ringCfgWrite _ _ | .rollback _ _ | .loftLinkLost _ _ | .loftPatrol _ _ _ | .moverBurst _ _ | .fecDegraded _ _
  | .pfcFrame _ | .pfcPauseExpired _ _ | .pfcStorm _ _ | .xoffRepeat _ _ | .scrub _ _ => onUnit_answers.left
  | .portUp _ _ _ | .portLost _ _ | .arpRequest _ _ _ | .neighbourSolicitation _ _ _ => onUnit_answers.left.left
  | .echoRequest _ _ => onUnit_answers.left.left.left
  | .portRetrain _ => onUnit_answers.mono (fun h => decide_eq_true (Nat.lt_succ_of_lt (of_decide_eq_true h)))
  | .rateShareWrite _ _ => onPaced_answers.left
  | .rateHeld _ => onPaced_answers
  | .loftFill _ => .ite (inModule_answers _ s _) onUnit_answers

/-- Settles O6: the operands that the manual admits name units that exist, and only a missing unit stops a command. -/
theorem everyCommandAnswers : Obligations.EveryCommandAnswers :=
  ⟨fun c s => (exec_answers c s).next, fun c s => (exec_answers c s).admitted⟩

/-! ## Bytes in memory (R12, R417) -/

@[simp] theorem leBytes_length (n v : Nat) : (leBytes n v).length = n := by
  induction n generalizing v with
  | zero => rfl
  | succ n ih => rw [leBytes, List.length_cons, ih]

/-- Bits above a field's bytes do not show in them. -/
theorem leBytes_mod (n v : Nat) : leBytes n (v % 2 ^ (8 * n)) = leBytes n v := by
  induction n generalizing v with
  | zero => rfl
  | succ n ih =>
    have hpow : 2 ^ (8 * (n + 1)) = 256 * 2 ^ (8 * n) := by rw [mul_add, pow_add, mul_comm]; rfl
    have hlow : BitVec.ofNat 8 (v % 2 ^ (8 * (n + 1))) = BitVec.ofNat 8 v :=
      BitVec.eq_of_toNat_eq (by simp [hpow])
    have hhigh : v % 2 ^ (8 * (n + 1)) / 256 = v / 256 % 2 ^ (8 * n) := by rw [hpow, Nat.mod_mul_right_div_self]
    rw [leBytes, leBytes, hlow, hhigh, ih]

@[simp] theorem eventBytes_length (r : EventRec) : (eventBytes r).length = 32 := by simp [eventBytes]

/-- A write past protection leaves a span that it does not meet. -/
theorem readBytes_rawWrite_apart {s : State} {a c n : Nat} {b : Bytes} (h : c + n ≤ a ∨ a + b.length ≤ c) :
    readBytes (rawWrite s a b) c n = readBytes s c n := by
  simp only [readBytes_eq]
  refine List.map_congr_left (fun i hi => ?_)
  rw [List.mem_range] at hi
  rw [readByte_rawWrite, if_neg (by omega)]

/-- A copied span reads as its source did, even where the two overlap. -/
theorem readBytes_quietCopy (s : State) (src dst n : Nat) : readBytes (quietCopy s src dst n) dst n = readBytes s src n := by
  rw [readBytes_congr (quietCopy_mem s src dst n |>.trans (rawCopy_mem s src dst n).symm), readBytes_eq, readBytes_eq]
  refine List.map_congr_left (fun i hi => ?_)
  rw [List.mem_range] at hi
  rw [readByte_rawCopy, if_pos (by omega)]
  congr 1
  omega

/-- Whatever pages are protected, a write ends with its bytes in place. -/
theorem readBytes_write (s : State) (a : Nat) (b : Bytes) : readBytes (write s a b) a b.length = b :=
  readBytes_rawWrite _ a b

theorem readByte_write {s : State} (h : s.team.pages = []) (a : Nat) (b : Bytes) (x : Nat) :
    readByte (write s a b) x = if a ≤ x ∧ x < a + b.length then b.getD (x - a) 0 else readByte s x := by
  rw [write_unprotected s a b h, readByte_rawWrite]

/-! ## The first write to a protected page (R450) -/

/-- The address of place `k` of the securing buffer. -/
def bufSlot (s : State) (k : Nat) : Nat := getF s R.pairBuf_base1m * 2 ^ 20 + k * pageSize

/-- A write to the one protected page, not saved yet, saves it first. -/
theorem protect_single {s : State} {a n : Nat} {p : Page} (hp : s.team.pages = [p]) (hbuf : p.buf = none)
    (hhome : p.home = false) (hmeets : meets p.addr pageSize a n = true) : protect s a n = protectPage s p := by
  simp [protect, hp, hbuf, hhome, hmeets, forEach]

/-- A page is saved to the lowest free place of the buffer. -/
theorem protectPage_room {s : State} {p : Page} {k : Nat} (hk : bufFree s = some k) : protectPage s p =
    showBuf (setPage (quietCopy s p.addr (bufSlot s k) pageSize) { p with buf := some k }) := by
  rw [protectPage, hk]
  rfl

theorem protectPage_mem {s : State} {p : Page} {k : Nat} (hk : bufFree s = some k) :
    (protectPage s p).mem = (quietCopy s p.addr (bufSlot s k) pageSize).mem := by
  rw [protectPage_room hk]
  rfl

theorem protectPage_pages {s : State} {p : Page} {k : Nat} (hp : s.team.pages = [p]) (hk : bufFree s = some k) :
    (protectPage s p).team.pages = [{ p with buf := some k }] := by
  have hpages : (protectPage s p).team.pages =
      s.team.pages.map (fun q => if q.addr = p.addr then { p with buf := some k } else q) := by
    rw [protectPage_room hk]
    rfl
  rw [hpages, hp, List.map_singleton, if_pos rfl]

/-- The first write to a protected page leaves the old page in the buffer, and the page's record says where. -/
theorem write_protected {s : State} {a k : Nat} {b : Bytes} {p : Page} (hp : s.team.pages = [p]) (hbuf : p.buf = none)
    (hhome : p.home = false) (hmeets : meets p.addr pageSize a b.length = true) (hk : bufFree s = some k)
    (hapart : bufSlot s k + pageSize ≤ a ∨ a + b.length ≤ bufSlot s k) :
    readBytes (write s a b) (bufSlot s k) pageSize = readBytes s p.addr pageSize ∧
      (write s a b).team.pages = [{ p with buf := some k }] := by
  rw [write, protect_single hp hbuf hhome hmeets]
  constructor
  · rw [readBytes_rawWrite_apart hapart, readBytes_congr (protectPage_mem hk), readBytes_quietCopy]
  · exact protectPage_pages hp hk

/-! ## An event in the ring (R152, R153) -/

/-- The record of an event raised now. -/
def eventNow (s : State) (code coord d0 d1 : Nat) : EventRec :=
  { time := s.now, code := code, coord := coord, step := getF s R.gteStep_step, d0 := d0 % 2 ^ 32, d1 := d1 % 2 ^ 32 }

theorem eventBytes_eventNow (s : State) (code coord d0 d1 : Nat) : eventBytes (eventNow s code coord d0 d1) =
    leBytes 8 s.now ++ leBytes 2 code ++ leBytes 2 0 ++ leBytes 4 coord ++ leBytes 8 (getF s R.gteStep_step) ++
      leBytes 4 d0 ++ leBytes 4 d1 := by
  rw [eventBytes, ← leBytes_mod 4 d0, ← leBytes_mod 4 d1]
  rfl

/-- With the rails on and bring-up over, an event goes to the ring. -/
theorem raise_up {s : State} (hon : s.board.railsOn = true) (hoff : s.mode ≠ .off) (hwatch : s.mode ≠ .watch)
    (hbring : s.mode ≠ .bringup) (code coord d0 d1 : Nat) :
    raise s code coord d0 d1 = ringEvent s (eventNow s code coord d0 d1) := by
  unfold raise
  rw [hon]
  cases h : s.mode
  case off => exact absurd h hoff
  case watch => exact absurd h hwatch
  case bringup => exact absurd h hbring
  all_goals rfl

/-- The address of the record at the producer's place. -/
def evtSlot (s : State) : Nat :=
  getF s R.ctlEvtCfg_base4k * 4096 + 32 * (getF s R.ctlEvtProducer_producer % evtSize s)

theorem ringEvent_room {s : State} (r : EventRec)
    (h : (getF s R.ctlEvtProducer_producer + 2 ^ 32 - getF s R.ctlEvtConsumer_consumer) % 2 ^ 32 < evtSize s) :
    ringEvent s r = setF (write s (evtSlot s) (eventBytes r)) R.ctlEvtProducer_producer 0
      (getF s R.ctlEvtProducer_producer + 1) :=
  if_neg (Nat.not_le.mpr h)

/-- An event with room stands as its 32 bytes, the producer has moved on, and no other byte has changed. -/
theorem ringEvent_stored {s : State} (r : EventRec) (hp : s.team.pages = [])
    (h : (getF s R.ctlEvtProducer_producer + 2 ^ 32 - getF s R.ctlEvtConsumer_consumer) % 2 ^ 32 < evtSize s) :
    readBytes (ringEvent s r) (evtSlot s) 32 = eventBytes r ∧
      getF (ringEvent s r) R.ctlEvtProducer_producer = (getF s R.ctlEvtProducer_producer + 1) % 2 ^ 32 ∧
      ∀ x, x < evtSlot s ∨ evtSlot s + 32 ≤ x → readByte (ringEvent s r) x = readByte s x := by
  rw [ringEvent_room r h]
  refine ⟨?_, getF_setF _ _ _ _, fun x hx => ?_⟩
  · rw [readBytes_congr (setF_mem _ _ _ _), ← eventBytes_length r, readBytes_write]
  · have hsame : readByte (write s (evtSlot s) (eventBytes r)) x = readByte s x := by
      rw [readByte_write hp, eventBytes_length, if_neg (by omega)]
    exact hsame

/-- Settles O9: a write stores its own bytes last, after the protected pages it meets were saved; an event with room in the ring
is such a write. -/
theorem memoryWrites : Obligations.MemoryWrites := by
  refine ⟨readBytes_write, fun s a x b hp => readByte_write hp a b x,
    fun s a k b p hp hbuf hhome hmeets hk => write_protected hp hbuf hhome hmeets hk,
    fun s code coord d0 d1 hon hoff hwatch hbring hp hroom => ?_⟩
  rw [raise_up hon hoff hwatch hbring, ← eventBytes_eventNow]
  exact ringEvent_stored _ hp hroom

/-! ## Requests to wake (R42, R112, R113) -/

/-- A wake-ahead starts or renews the linger of its stall, whether its request then waits or not (R113). -/
def lingered (s : State) (p : Nat) (src : WakeSrc) : State := if src = .ahead then renewLinger s p else s

theorem when_ahead_eq_lingered (s : State) (p : Nat) (src : WakeSrc) :
    when (src == .ahead) (fun t => renewLinger t p) s = lingered s p src := by
  cases src <;> rfl

@[simp] theorem lingered_gov (s : State) (p : Nat) (src : WakeSrc) : (lingered s p src).gov = s.gov := by cases src <;> rfl

@[simp] theorem lingered_now (s : State) (p : Nat) (src : WakeSrc) : (lingered s p src).now = s.now := by cases src <;> rfl

theorem isResting_not_disabled {t : Stall} (h : isResting t = true) : t.st ≠ .disabled := by
  intro e; simp [isResting, e] at h

theorem isResting_not_running {t : Stall} (h : isResting t = true) : isRunning t = false := by
  cases e : t.st <;> simp_all [isResting, isRunning]

section request
variable {s : State} {p : Nat} (src : WakeSrc) (die : Bool)

theorem requestWake_disabled (h : (getStall s p).st = .disabled) : requestWake s p src die = s := by
  simp [requestWake, h]

/-- A stall that runs needs no request. -/
theorem requestWake_running (hst : (getStall s p).st ≠ .disabled) (h : isRunning (getStall s p) = true) :
    requestWake s p src die = lingered s p src := by
  simp [requestWake, hst, h, lingered]

/-- A stall that does not run has its request put in the queue, unless it has its grant or waits already. -/
theorem requestWake_idle (hst : (getStall s p).st ≠ .disabled) (h : isRunning (getStall s p) = false) :
    requestWake s p src die =
      if (getStall s p).granted = true ∨ s.gov.waitq.any (fun q => q.stall == p) = true then lingered s p src
      else { lingered s p src with gov := { s.gov with waitq := insertWake s.gov.waitq ⟨p, s.now, src, false, die⟩ } } := by
  simp only [requestWake, beq_eq_false_iff_ne.mpr hst, h, when_ahead_eq_lingered, lingered_gov, lingered_now, Bool.or_eq_true,
    Bool.false_eq_true, if_false]

/-- The request of a resting stall without a grant joins the queue. -/
theorem requestWake_resting (hrest : isResting (getStall s p) = true) (hgrant : (getStall s p).granted = false)
    (hwait : s.gov.waitq.any (fun q => q.stall == p) = false) : requestWake s p src die =
      { lingered s p src with gov := { s.gov with waitq := insertWake s.gov.waitq ⟨p, s.now, src, false, die⟩ } } := by
  rw [requestWake_idle src die (isResting_not_disabled hrest) (isResting_not_running hrest), if_neg (by simp [hgrant, hwait])]

/-- A stall that runs, has its grant or waits already gets no request. -/
theorem requestWake_kept_out (hst : (getStall s p).st ≠ .disabled) (h : isRunning (getStall s p) = true ∨
    (getStall s p).granted = true ∨ s.gov.waitq.any (fun q => q.stall == p) = true) :
    requestWake s p src die = lingered s p src := by
  cases hrun : isRunning (getStall s p)
  case true => exact requestWake_running src die hst hrun
  case false =>
    rw [requestWake_idle src die hst hrun, if_pos (h.resolve_left (by simp [hrun]))]

end request

/-! ## The order of the queue (R42) -/

/-- Requests in order of time, those of one tick by stall index. -/
def wakeLe (a b : WakeReq) : Prop := a.time < b.time ∨ (a.time = b.time ∧ a.stall ≤ b.stall)

theorem insertWake_perm (l : List WakeReq) (r : WakeReq) : (insertWake l r).Perm (r :: l) := by
  induction l with
  | nil => exact .refl _
  | cons q t ih =>
    rw [insertWake]
    split
    · exact .refl _
    · exact (ih.cons q).trans (.swap r q t)

theorem insertWake_sorted {l : List WakeReq} (r : WakeReq) (h : l.Pairwise wakeLe) : (insertWake l r).Pairwise wakeLe := by
  induction l with
  | nil => exact List.pairwise_singleton _ _
  | cons q t ih =>
    obtain ⟨hq, ht⟩ := List.pairwise_cons.mp h
    rw [insertWake]
    split
    · next hlt =>
      refine List.pairwise_cons.mpr ⟨fun x hx => ?_, h⟩
      rcases List.mem_cons.mp hx with rfl | hx
      · unfold wakeLe; omega
      · have := hq x hx
        unfold wakeLe at *; omega
    · next hge =>
      refine List.pairwise_cons.mpr ⟨fun x hx => ?_, ih ht⟩
      rcases List.mem_cons.mp ((insertWake_perm t r).mem_iff.mp hx) with rfl | hx
      · unfold wakeLe; omega
      · exact hq x hx

/-! ## A long wait (R123) -/

/-- The state with a stall's request marked as reported. -/
def alarmed (s : State) (p : Nat) : State :=
  { s with gov := { s.gov with waitq := s.gov.waitq.map (fun r => if r.stall = p then { r with alarmed := true } else r) } }

/-- A request not yet reported that has waited too long raises its event. -/
theorem wakeWait_raises {s : State} {p : Nat} {q : WakeReq} (hq : s.gov.waitq.find? (fun r => r.stall == p) = some q)
    (ha : q.alarmed = false) (ht : q.time + getF s R.pwrWake_waitAlarm < s.now) :
    wakeWait s p = raise (alarmed s p) 0x2005 (cStall p) (s.now - q.time) (waitCause s q) := by
  simp [wakeWait, hq, ha, ht, alarmed]

/-- Any other request, and a stall without one, raises none. -/
theorem wakeWait_quiet {s : State} {p : Nat}
    (h : ∀ q, s.gov.waitq.find? (fun r => r.stall == p) = some q →
      q.alarmed = true ∨ s.now ≤ q.time + getF s R.pwrWake_waitAlarm) : wakeWait s p = s := by
  unfold wakeWait
  split
  · rfl
  · next q hq =>
    rw [if_neg]
    rcases h q hq with ha | ht
    · simp [ha]
    · simp [Nat.not_lt.mpr ht]

/-- A command on a stall that its change leaves alone is answered with the same state, the rails on or off. -/
theorem onStall_same {p : Nat} {s : State} {f : State → State} (hp : p < 512) (h : f s = s) : onStall p s f = .next s := by
  simp [onStall, live, hp, h]

/-- Settles O20: a request of a stall that neither runs nor has its grant nor waits already joins the queue, at its place there
(`insertWake_sorted`); every other leaves the queue. A long wait is reported where its request is not marked yet. -/
theorem wakeRequests : Obligations.WakeRequests :=
  ⟨fun _ _ src hp hon hrest hgrant hwait =>
      (onStall_on hp hon).trans (congrArg _ (requestWake_resting src false hrest hgrant hwait)),
    fun l r => ⟨insertWake_perm l r, insertWake_sorted r⟩,
    fun _ _ src hp hon hst h => (onStall_on hp hon).trans (congrArg _ (requestWake_kept_out src false hst h)),
    fun _ _ src hp hst => onStall_same hp (requestWake_disabled src false hst),
    fun _ _ _ hp hon hq ha ht => (onStall_on hp hon).trans (congrArg _ (wakeWait_raises hq ha ht)),
    fun _ _ hp h => onStall_same hp (wakeWait_quiet h)⟩

end Sys2Proof.Machine
end

section
/-! The statement on OFF: what every command but the one that ends it leaves there. -/
namespace Sys2Proof.Machine
open Sys2Proof

/-- OFF, the rails down and no reset under way. -/
structure OffState (s : State) : Prop where
  mode : s.mode = .off
  rails : s.board.railsOn = false
  reset : s.board.resetting = false

/-- Every next state of an outcome is OFF, with its rails down and no reset under way. -/
structure OffOut (o : Out) : Prop where
  out : ∀ t, o = .next t → OffState t

namespace OffOut
variable {s t : State} {n u p : Nat} {f : State → State}

theorem of_next (h : OffState t) : OffOut (.next t) := ⟨fun _ e => by cases e; exact h⟩

theorem of_fault (e : Fault) : OffOut (.fault e) := ⟨fun _ h => by cases h⟩

theorem ite {c : Prop} [Decidable c] {o o' : Out} (h : c → OffOut o) (h' : ¬ c → OffOut o') : OffOut (if c then o else o') := by
  split
  · next hc => exact h hc
  · next hc => exact h' hc

theorem live (h : OffState s) : OffState (live f s) := by
  rwa [Machine.live, h.rails]

theorem inModule (h : OffState s) : OffOut (inModule s f) := of_next (live h)

theorem onUnit (h : OffState s) : OffOut (onUnit n u s f) := ite (fun _ => of_next (live h)) (fun _ => of_fault _)

theorem onStall (h : OffState s) : OffOut (onStall p s f) := ite (fun _ => of_next (live h)) (fun _ => of_fault _)

theorem onTile (h : OffState s) : OffOut (onTile p u s f) := ite (fun _ => of_next (live h)) (fun _ => of_fault _)


theorem onPaced (h : OffState s) : OffOut (if 57 ≤ u ∧ u < 64 then (.next (Machine.live f s) : Out) else .fault .noSuchUnit) :=
  ite (fun _ => of_next (live h)) (fun _ => of_fault _)

/-- A command whose condition fails in OFF is answered with the same state. -/
theorem of_neg {c : Prop} [Decidable c] {t : State} (h : OffState s) (hc : ¬ c) : OffOut (.next (if c then t else s)) := by
  rw [if_neg hc]; exact of_next h

/-- A command that does nothing in OFF. -/
theorem of_pos {c : Prop} [Decidable c] {t : State} (h : OffState s) (hc : c) : OffOut (.next (if c then s else t)) := by
  rw [if_pos hc]; exact of_next h

end OffOut

namespace OffState
variable {s : State}

/-- In OFF the module is not in WATCH. -/
theorem not_watch (h : OffState s) : (s.mode == .watch) = false := by rw [h.mode]; rfl

theorem is_off (h : OffState s) : (s.mode == .off) = true := by rw [h.mode]; rfl

/-- RESET_N is sampled in WATCH alone (R60). -/
theorem sampleReset (h : OffState s) : OffState (sampleReset s) := by
  rwa [Machine.sampleReset, h.not_watch]

/-- Where no rail is on, no reset begins (R61). -/
theorem beginReset (h : OffState s) : OffState (beginReset s) := by
  rwa [Machine.beginReset, h.is_off]

end OffState

/-- Whatever the command but ALWAYS_ON_RAILS_GOOD, a module in OFF stays there: a command on the rails' part of the module does
nothing, and each of the others by its own condition. -/
theorem exec_off (c : Instr) {s : State} (h : OffState s) (hc : c ≠ .alwaysOnRailsGood) : OffOut (exec c s) :=
  match c with
  | .alwaysOnRailsGood => absurd rfl hc
  | .powerInputInRange => .of_next (by rw [h.is_off]; exact ⟨h.mode, h.rails, h.reset⟩)
  | .inputOutOfLimits => .of_next ⟨rfl, rfl, rfl⟩
  | .bayIdentityRead _ => .of_neg h (by simp [h.not_watch])
  | .resetNReleased => .of_next (.sampleReset ⟨h.mode, h.rails, h.reset⟩)
  | .resetNLow => .of_next (.beginReset ⟨h.mode, h.rails, h.reset⟩)
  | .lastRailOff => .of_neg h (by simp [h.reset])
  | .leverOpened => .of_next (.beginReset ⟨h.mode, h.rails, h.reset⟩)
  | .clk25AonLost | .clk25AonRestored | .telemetryRefresh _ | .alertCauseClear _ | .governorTick =>
    .of_pos h (by simp [h.is_off])
  | .i3cDynamicAddress _ => .of_neg h (by simp [h.mode])
  | .tapInstruction _ => .of_next ⟨h.mode, h.rails, h.reset⟩
  | .railFault _ _ | .coreClockLost _ | .pllUnlock _ | .teamSenseLoss | .hostModuleInserted _ | .hostModuleRemoved _
  | .bringupPhaseDone _ | .loftTestDone _ | .governorStepRaise | .governorStepLower | .ledgerCorrection _ | .budgetWrite _
  | .openFrame _ | .prove _ | .challengeExpired | .close _ | .keepalive _ | .ack _ | .access _ _ | .registerWrite _ _
  | .sessionIdleTimeout | .retransmitTimeout | .eventNote | .evtCfgWrite _ | .evtConsumerWrite _ | .commandBusy | .gate _
  | .harnessLoadDone _ _ | .amendStaged | .wearFlush | .fieldClear | .histReset | .backwardBegin | .forwardBarrierSlow
  | .backwardComplete | .dispatchFrame _ | .returnFrame _ | .closeFrame _ | .wakeFrame _ | .summaryFrame _ | .queryFrame _
  | .partialFrame _ | .refuseFrame _ | .closeWait | .gateComplete _ | .rateWindow | .feedFrame _ | .feedConsumedWrite _
  | .feedCfgWrite _ | .hello _ | .beat _ | .beatTimer | .teamSilence | .teamFormationTimeout | .bye _ | .page _ | .pageAck _
  | .pageResend _ _ | .commit _ | .commitAck _ | .teamAccess _ _ | .accessResp _ | .securingHeld | .releaseWrite _ =>
    .inModule h
  | .wakeRequest _ _ | .stallWakeComplete _ | .stallNap _ | .stallSleep _ | .stallParked _ | .wakeWait _ | .stepNop _
  | .fwdEnd _ | .endProgram _ | .layer _ | .seti _ | .addi _ | .ldp _ | .stp _ | .loop _ | .wait _ | .move _ | .top _
  | .qin _ | .mm _ | .vld _ | .vst _ | .vop _ | .vseti _ | .tzero _ | .tout _ | .route _ | .dispatch _ | .combine _
  | .wake _ | .tileVoteDecided _ | .rotationStart _ | .troughPartialPull _ | .partialWait _ | .combineWait _
  | .toutLineStaged _ | .sumWrite _ _ | .mmComplete _ _ | .geVoteDecided _ _ | .rotationFillDone _ _
  | .rotationTakeover _ _ | .tileOpComplete _ _ | .slotOnFallback _ _ | .rebuildStart _ _ _ | .rebuildDone _ _ _ =>
    .onStall h
  | .driftWindowDone _ _ _ _ | .retrimDue _ _ | .retrimForced _ _ | .trimOverdue _ _ | .idleRetrimStart _ _
  | .trimDone _ _ _ | .tileLevelRead _ _ _ _ _ | .tileLevelWrite _ _ _ _ _ _ => .onTile h
  | .laserModuleInserted _ _ | .laserModuleRemoved _ _ | .dimmThermalPoll _ _ | .dieCurrentPark _ | .nop _ | .halt _
  | .haltClear _ | .jobEnd _ | .harnessLoad _ | .harnessUnload _ | .harnessAmend _ | .pln _ | .ctx _ | .updateOp _ | .stw _
  | .sts _ | .updChipDone _ | .loftFlitCrcError _ _ | .loftLinkRetrained _ | .chStart _ | .chPause _ | .chResume _
  | .chAbort _ | .chReq _ | .portAttemptFailed _ | .portRetrainTimer _ | .portEnable _ _ | .egressFrameStart _
  | .mirrorCopy _ | .attest _ | .slotUpdate _ | .fwUpdate _ | .chipLost _ | .dieCurrentLimit _ _
  | .dieThermalThrottle _ _ | .dieStepLower _ _ _ | .dieThermalTrip _ _ | .ringDoorbell _ _
  | .ringCfgWrite _ _ | .rollback _ _ | .loftLinkLost _ _ | .loftPatrol _ _ _ | .moverBurst _ _ | .fecDegraded _ _
  | .pfcFrame _ | .pfcPauseExpired _ _ | .pfcStorm _ _ | .xoffRepeat _ _ | .scrub _ _ | .portUp _ _ _ | .portLost _ _
  | .arpRequest _ _ _ | .neighbourSolicitation _ _ _ | .echoRequest _ _ | .portRetrain _ => .onUnit h
  | .rateShareWrite _ _ | .rateHeld _ => .onPaced h
  | .loftFill _ => .ite (fun _ => .inModule h) (fun _ => .onUnit h)

/-- Settles O7: every command but ALWAYS_ON_RAILS_GOOD keeps a module in OFF (`exec_off`). -/
theorem offKept : Obligations.OffKept := fun c _ _ hmode hrails hreset hc h =>
  have k := (exec_off c ⟨hmode, hrails, hreset⟩ hc).out _ h
  ⟨k.mode, k.rails, k.reset⟩

end Sys2Proof.Machine
end

section
/-! The statements on power, reset and the bay identity: the changes that the register table or the bring-up log alone sees, and
what entry to bring-up, a reset and a read of the bay leave. -/
namespace Sys2Proof.Machine
open Sys2Proof

/-! ## Changes of registers alone -/

/-- `t` differs from `s` in the register table alone. -/
structure OnlyReg (s t : State) : Prop where
  eq : t = { s with reg := t.reg }

namespace OnlyReg
variable {z s t : State}

theorem refl (s : State) : OnlyReg s s := ⟨rfl⟩

theorem trans (h : OnlyReg z s) (k : OnlyReg s t) : OnlyReg z t := ⟨by rw [k.eq, h.eq]⟩

theorem setF (s : State) (f : Field) (u v : Nat) : OnlyReg s (setF s f u v) := ⟨rfl⟩

theorem forEach {α : Type} {f : State → α → State} (h : ∀ s a, OnlyReg s (f s a)) (l : List α) (s : State) :
    OnlyReg s (forEach l f s) := by
  induction l generalizing s with
  | nil => exact refl s
  | cons a l ih => exact (h s a).trans (ih _)

theorem setFs (s : State) (l : List (Field × Nat)) : OnlyReg s (setFs s l) :=
  forEach (fun t (p : Field × Nat) => setF t p.1 0 p.2) l s

theorem loadFuses (s : State) : OnlyReg s (loadFuses s) :=
  (forEach (fun t (_ : Nat × List FuseCopy) =>
    (((setF t _ _ _).trans (setF _ _ _ _)).trans (setF _ _ _ _)).trans (setF _ _ _ _)) _ s).trans (setFs _ _)

end OnlyReg

@[simp] theorem setFs_mode (s : State) (l : List (Field × Nat)) : (setFs s l).mode = s.mode := by rw [(OnlyReg.setFs s l).eq]

@[simp] theorem setFs_board (s : State) (l : List (Field × Nat)) : (setFs s l).board = s.board := by rw [(OnlyReg.setFs s l).eq]

@[simp] theorem setFs_job (s : State) (l : List (Field × Nat)) : (setFs s l).job = s.job := by rw [(OnlyReg.setFs s l).eq]

/-- `t` differs from `s` at most in the registers and the bring-up log. -/
structure OnlyLog (s t : State) : Prop where
  eq : t = { s with reg := t.reg, bring := { s.bring with log := t.bring.log } }

namespace OnlyLog
variable {z s t : State}

theorem refl (s : State) : OnlyLog s s := ⟨rfl⟩

theorem trans (h : OnlyLog z s) (k : OnlyLog s t) : OnlyLog z t := ⟨by rw [k.eq, h.eq]⟩

theorem ofReg (h : OnlyReg s t) : OnlyLog s t := ⟨by rw [h.eq]⟩

/-- In bring-up an event goes to the log (R104). -/
theorem raise (h : s.mode = .bringup) (code coord d0 d1 : Nat) : OnlyLog s (raise s code coord d0 d1) := by
  rcases raise_cases s code coord d0 d1 with e | ⟨-, r, e⟩ | ⟨hn, -⟩
  · rw [e]; exact refl s
  · rw [e, logEvent]
    split
    · exact ⟨rfl⟩
    · exact ofReg (.setF _ _ _ _)
  · exact absurd h hn

theorem mode (h : OnlyLog s t) : t.mode = s.mode := by rw [h.eq]

end OnlyLog

/-! ## Entry to bring-up (R60, R86, R87, R104) -/

/-- Fields whose keys differ modulo 64 lie apart, whatever their units. -/
theorem fkey_ne_of_lo {f g : Field} (h : f.lo % 64 ≠ g.lo % 64) (u w : Nat) : fkey f u ≠ fkey g w := by
  unfold fkey; omega

/-- The module at its entry to bring-up, its registers not set yet. -/
def bringupStart (s : State) : State :=
  let t := loadFuses (resetCore s)
  { t with
    mode := .bringup,
    board := { t.board with railsOn := true, pwrOk := true, resetting := false, warmValid := false, afterFault := false,
                            everBrought := true },
    bring := { Bring.reset with start := t.now } }

/-- Entry to bring-up shows the path and the budget. -/
def bringupSet (s : State) : State :=
  setFs (bringupStart s) [(R.bruStatus_path, b2n (warmRefusal s == 0)), (R.bruStatus_warmRefusal, warmRefusal s),
    (R.pwrBudget_budgetW, min 2400 (getF (bringupStart s) R.pwrBudget_ceilingW))]

/-- Entry to bring-up ends with its one or two events. -/
theorem enterBringup_events (s : State) :
    OnlyLog (bringupSet s) (enterBringup s) ∧ KeepsReg (bringupSet s) (enterBringup s) := by
  have hmode : (bringupSet s).mode = .bringup := (OnlyLog.ofReg (.setFs _ _)).mode
  have h1 := OnlyLog.raise hmode 0x1001 cPkg (b2n (warmRefusal s == 0)) (warmRefusal s)
  change OnlyLog _ (if _ then _ else _) ∧ KeepsReg _ (if _ then _ else _)
  split
  · exact ⟨h1.trans (.raise (h1.mode.trans hmode) _ _ _ _), (KeepsReg.raise _ _ _ _ _).trans (.raise _ _ _ _ _)⟩
  · exact ⟨h1, .raise _ _ _ _ _⟩

/-- What entry to bring-up leaves beside the registers and the log. -/
theorem enterBringup_eq (s : State) : OnlyLog
    { resetCore s with
      mode := .bringup,
      board := { s.board with railsOn := true, pwrOk := true, resetting := false, warmValid := false, afterFault := false,
                              everBrought := true },
      bring := { Bring.reset with start := s.now } } (enterBringup s) := by
  refine OnlyLog.trans (OnlyLog.ofReg ?_) (enterBringup_events s).1
  refine OnlyReg.trans ?_ (.setFs _ _)
  have h : OnlyReg (resetCore s) (loadFuses (resetCore s)) := .loadFuses _
  exact ⟨by rw [bringupStart, h.eq]; rfl⟩

/-- A register that a reset does not keep reads as its reset value (R20). -/
theorem getF_resetCore {f : Field} {u : Nat} (h : keptKey (fkey f u) = false) (s : State) : getF (resetCore s) f u = f.rst := by
  simp only [getF, tget, resetCore]
  rw [tget?_filter s.reg keptKey, h]
  rfl

theorem getF_loadFuses {f : Field} {u : Nat} (h : ∀ g ∈ [R.fusStallFuse_tileGood, R.fusStallFuse_geGood,
      R.fusStallFuse_storeGood, R.fusStallFuse_troughGood], f.lo % 64 ≠ g.lo % 64)
    (h' : ∀ g ∈ [R.fusMapInfo_fuseGoodStalls, R.fusMapInfo_mapOk], fkey f u ≠ fkey g 0) (s : State) :
    getF (loadFuses s) f u = getF s f u := by
  simp only [List.forall_mem_cons, List.not_mem_nil, IsEmpty.forall_iff, implies_true, and_true] at h h'
  obtain ⟨ht, hg, hst, htr⟩ := h
  unfold loadFuses
  rw [getF_setFs_ne _ _ (by simpa using h')]
  refine forEach_frame (fun t => getF t f u) (fun t x => ?_) _ s
  rw [getF_setF_ne _ _ (fkey_ne_of_lo htr _ _), getF_setF_ne _ _ (fkey_ne_of_lo hst _ _), getF_setF_ne _ _ (fkey_ne_of_lo hg _ _),
    getF_setF_ne _ _ (fkey_ne_of_lo ht _ _)]

theorem getF_bringupSet_ne {f : Field} {u : Nat} (hp : fkey f u ≠ fkey R.bruStatus_path 0)
    (hw : fkey f u ≠ fkey R.bruStatus_warmRefusal 0) (hb : fkey f u ≠ fkey R.pwrBudget_budgetW 0) (s : State) :
    getF (bringupSet s) f u = getF (bringupStart s) f u :=
  getF_setFs_ne _ _ (by simp [hp, hw, hb])

theorem enterBringup_phase (s : State) : getF (enterBringup s) R.bruStatus_phase = 0 := by
  rw [(enterBringup_events s).2 _ _ (by decide), getF_bringupSet_ne (by decide) (by decide) (by decide)]
  exact (getF_loadFuses (by decide) (by decide) _).trans (getF_resetCore (by decide +kernel) s)

theorem enterBringup_path (s : State) : getF (enterBringup s) R.bruStatus_path = b2n (warmRefusal s == 0) := by
  rw [(enterBringup_events s).2 _ _ (by decide), bringupSet]
  simp (disch := decide) only [setFs, List.foldl_cons, List.foldl_nil, getF_setF_ne, getF_setF]
  exact Nat.mod_eq_of_lt (by unfold b2n; split <;> decide)

theorem enterBringup_budget (s : State) : getF (enterBringup s) R.pwrBudget_budgetW =
    min 2400 (getF (enterBringup s) R.pwrBudget_ceilingW) := by
  rw [(enterBringup_events s).2 _ _ (by decide), (enterBringup_events s).2 R.pwrBudget_ceilingW 0 (by decide),
    getF_bringupSet_ne (f := R.pwrBudget_ceilingW) (by decide) (by decide) (by decide), bringupSet]
  simp (disch := decide) only [setFs, List.foldl_cons, List.foldl_nil, getF_setF]
  exact Nat.mod_eq_of_lt (by simp only [R.pwrBudget_budgetW]; omega)

/-! ## RESET_N and the lever (R60 to R62) -/

/-- RESET_N sampled high in WATCH, with the bay read and the lever closed, starts bring-up. -/
theorem sampleReset_starts {s : State} (hmode : s.mode = .watch) (hreset : s.board.resetN = true) (hbay : s.board.bayRead = true)
    (hlever : s.board.leverOpen = false) : sampleReset s = enterBringup s := by
  simp [sampleReset, hmode, hreset, hbay, hlever]

/-- RESET_N sampled low starts nothing. -/
theorem sampleReset_low {s : State} (h : s.board.resetN = false) : sampleReset s = s := by
  simp [sampleReset, h]

/-- Outside OFF and WATCH a reset switches the rails off. -/
theorem beginReset_up {s : State} (hoff : s.mode ≠ .off) (hwatch : s.mode ≠ .watch) :
    beginReset s = { dropRails s with board := { (dropRails s).board with resetting := true } } := by
  simp [beginReset, hoff, hwatch]

theorem exec_alwaysOnRailsGood {s : State} (hmode : s.mode = .off) (hinrush : s.board.inrush = true) :
    exec .alwaysOnRailsGood s = .next { s with mode := .watch, now := 0, board := { s.board with pwrOk := true } } := by
  simp [exec, execAlwaysOnRailsGood, hmode, hinrush]

theorem exec_resetNReleased {s : State} (hmode : s.mode = .watch) (hbay : s.board.bayRead = true)
    (hlever : s.board.leverOpen = false) :
    exec .resetNReleased s = .next (enterBringup { s with board := { s.board with resetN := true } }) := by
  refine congrArg Host.Outcome.next (sampleReset_starts ?_ rfl ?_ ?_)
  exacts [hmode, hbay, hlever]

theorem exec_resetNLow {s : State} (hoff : s.mode ≠ .off) (hwatch : s.mode ≠ .watch) :
    exec .resetNLow s = .next { dropRails s with
      board := { (dropRails s).board with resetN := false, resetting := true } } := by
  refine congrArg Host.Outcome.next (beginReset_up ?_ ?_)
  exacts [hoff, hwatch]

theorem exec_leverOpened {s : State} (hoff : s.mode ≠ .off) (hwatch : s.mode ≠ .watch) :
    exec .leverOpened s = .next { dropRails s with
      board := { (dropRails s).board with leverOpen := true, switchOpen := true, afterFault := true, resetting := true } } := by
  refine congrArg Host.Outcome.next ((beginReset_up ?_ ?_).trans ?_)
  · exact hoff
  · exact hwatch
  · simp [dropRails, hoff]

/-- Settles O13: each command by its own condition; entry to bring-up is read through the events that end it
(`enterBringup_eq`), and a reset is `dropRails`. -/
theorem powerAndReset : Obligations.PowerAndReset := by
  refine ⟨fun s => ?_, fun s hmode hinrush => ?_, fun s => ?_, fun s hmode hbay hlever => ?_, fun s hoff hwatch => ?_,
    fun s hoff hwatch => ?_, fun s => rfl⟩
  · simp [exec, execPowerInputInRange]
  · exact ⟨_, exec_alwaysOnRailsGood hmode hinrush, rfl, rfl, rfl, rfl, rfl, rfl⟩
  · exact ⟨_, rfl, rfl, rfl, rfl, rfl, rfl, rfl, rfl, rfl, rfl⟩
  · refine ⟨_, exec_resetNReleased hmode hbay hlever, ?_⟩
    rw [enterBringup_phase, enterBringup_path, enterBringup_budget, (enterBringup_eq _).eq]
    exact ⟨rfl, rfl, rfl, rfl, rfl, rfl, rfl, rfl, rfl, rfl, rfl, rfl, rfl, rfl, rfl⟩
  · exact ⟨_, exec_resetNLow hoff hwatch, rfl, rfl, rfl, rfl, rfl, rfl, rfl, rfl⟩
  · exact ⟨_, exec_leverOpened hoff hwatch, rfl, rfl, rfl, rfl, rfl, rfl, rfl, rfl⟩

/-! ## The bay identity memory (R71 to R73) -/

theorem leNat_lt (b : Bytes) : leNat b < 256 ^ b.length := by
  induction b with
  | nil => simp [leNat]
  | cons x r ih =>
    have hx := x.isLt
    rw [leNat, List.length_cons, pow_succ]
    omega

@[simp] theorem slice_length (b : Bytes) (off len : Nat) : (slice b off len).length = len := by
  simp [slice]

/-- A field of `len` bytes fits in them. -/
theorem fieldAt_lt (b : Bytes) (off len : Nat) : fieldAt b off len < 256 ^ len := by
  simpa [fieldAt] using leNat_lt (slice b off len)

/-- A field of memory fits a register field of as many bits. -/
theorem fieldAt_mod (b : Bytes) (off len : Nat) : fieldAt b off len % 2 ^ (8 * len) = fieldAt b off len :=
  Nat.mod_eq_of_lt (by rw [pow_mul]; exact fieldAt_lt b off len)

@[simp] theorem setAlert_reg (s : State) (i : Nat) : (setAlert s i).reg = s.reg := rfl

/-- The power limit that a valid memory gives (R73). -/
def bayLimit (m : Bytes) : Nat := if fieldAt m 0x1C 2 = 0 then 2500 else fieldAt m 0x1C 2

theorem loadBay_fields (s : State) (m : Bytes) :
    getF (loadBay s m) R.bruBayId_bayStatus = 0 ∧ getF (loadBay s m) R.bruBayId_bayNumber = fieldAt m 6 2 ∧
    getF (loadBay s m) R.bruBayId_powerLimitW = bayLimit m ∧
    getF (loadBay s m) R.bruBayId_sensedBay = fieldAt m 0x1E 2 ∧
    getF (loadBay s m) R.bruBayId_teamSenseWired = bits (fieldAt m 5 1) 2 2 ∧
    getF (loadBay s m) R.bruBayTags_feedTagA = fieldAt m 0x10 4 ∧
    getF (loadBay s m) R.bruBayTags_feedTagB = fieldAt m 0x14 4 ∧
    getF (loadBay s m) R.bruBayLoop_loopTag = fieldAt m 0x18 4 ∧
    getF (loadBay s m) R.bruBayInstall_installationId = fieldAt m 8 8 ∧
    getF (loadBay s m) R.pwrBudget_ceilingW = ceilingOf (fieldAt m 0x1C 2) := by
  have hlimit : bayLimit m < 2 ^ 16 := by
    have := fieldAt_lt m 0x1C 2
    unfold bayLimit
    split <;> omega
  have hceil : ceilingOf (fieldAt m 0x1C 2) < 2 ^ 16 := by unfold ceilingOf; split <;> omega
  have hset : ∀ f : Field, getF (loadBay s m) f = getF (setFs s [(R.bruBayId_bayStatus, 0),
      (R.bruBayId_bayNumber, fieldAt m 6 2), (R.bruBayId_powerLimitW, bayLimit m), (R.bruBayId_sensedBay, fieldAt m 0x1E 2),
      (R.bruBayId_teamSenseWired, bits (fieldAt m 5 1) 2 2), (R.bruBayTags_feedTagA, fieldAt m 0x10 4),
      (R.bruBayTags_feedTagB, fieldAt m 0x14 4), (R.bruBayLoop_loopTag, fieldAt m 0x18 4),
      (R.bruBayInstall_installationId, fieldAt m 8 8), (R.pwrBudget_ceilingW, ceilingOf (fieldAt m 0x1C 2))]) f := fun _ => rfl
  simp (disch := decide) only [hset, setFs, List.foldl_cons, List.foldl_nil, getF_setF_ne, getF_setF]
  exact ⟨rfl, fieldAt_mod _ _ _, Nat.mod_eq_of_lt hlimit, fieldAt_mod _ _ _, bits_mod _ 2 2, fieldAt_mod _ _ _, fieldAt_mod _ _ _,
    fieldAt_mod _ _ _, fieldAt_mod _ _ _, Nat.mod_eq_of_lt hceil⟩

theorem loadBay_board (s : State) (m : Bytes) : (loadBay s m).board =
    { s.board with bayLabel := slice m 0x20 32, busMode := bits (fieldAt m 5 1) 1 0 } := by simp [loadBay]

theorem loadBay_mode (s : State) (m : Bytes) : (loadBay s m).mode = s.mode := by simp [loadBay]

theorem noBay_board (s : State) (st : Nat) : (noBay s st).board =
    { s.board with bayLabel := [], busMode := 0, alerts := setBit s.board.alerts 7 true } := by simp [noBay, setAlert]

theorem noBay_mode (s : State) (st : Nat) : (noBay s st).mode = s.mode := by simp [noBay, setAlert]

theorem noBay_fields (s : State) {st : Nat} (h : st < 4) :
    getF (noBay s st) R.bruBayId_bayStatus = st ∧ getF (noBay s st) R.bruBayId_bayNumber = 0xFFFF ∧
    getF (noBay s st) R.bruBayId_powerLimitW = 2400 ∧ getF (noBay s st) R.bruBayId_sensedBay = 0xFFFF ∧
    getF (noBay s st) R.bruBayId_teamSenseWired = 0 ∧ getF (noBay s st) R.bruBayTags_feedTagA = 0 ∧
    getF (noBay s st) R.bruBayTags_feedTagB = 0 ∧ getF (noBay s st) R.bruBayLoop_loopTag = 0 ∧
    getF (noBay s st) R.bruBayInstall_installationId = 0 ∧ getF (noBay s st) R.pwrBudget_ceilingW = 2400 := by
  have hset : ∀ f : Field, getF (noBay s st) f = getF (setFs s [(R.bruBayId_bayStatus, st), (R.bruBayId_bayNumber, 0xFFFF),
      (R.bruBayId_powerLimitW, 2400), (R.bruBayId_sensedBay, 0xFFFF), (R.bruBayId_teamSenseWired, 0),
      (R.bruBayTags_feedTagA, 0), (R.bruBayTags_feedTagB, 0), (R.bruBayLoop_loopTag, 0), (R.bruBayInstall_installationId, 0),
      (R.pwrBudget_ceilingW, 2400)]) f := fun f => getF_congr (by rw [noBay, setAlert_reg]) f 0
  simp (disch := decide) only [hset, setFs, List.foldl_cons, List.foldl_nil, getF_setF_ne, getF_setF]
  exact ⟨Nat.mod_eq_of_lt h, rfl, rfl, rfl, rfl, rfl, rfl, rfl, rfl, rfl⟩

theorem bayStatus_lt (o : Option Bytes) : bayStatus o < 4 := by
  unfold bayStatus
  split
  · decide
  · split_ifs <;> decide

/-- What a read of the bay gives the state: the fields of a valid memory, or none. -/
def bayLoaded (s : State) (o : Option Bytes) : State :=
  match o with
  | some m => if bayStatus o = 0 then loadBay s m else noBay s (bayStatus o)
  | none => noBay s 1

theorem bayLoaded_valid {s : State} {m : Bytes} (h : bayStatus (some m) = 0) : bayLoaded s (some m) = loadBay s m := if_pos h

theorem bayLoaded_invalid {s : State} {o : Option Bytes} (h : bayStatus o ≠ 0) : bayLoaded s o = noBay s (bayStatus o) := by
  cases o with
  | none => rfl
  | some m => exact if_neg h

/-- The bay has been read: what was read stands, and a dynamic address only in I3C Basic mode. -/
def bayDone (u : State) (ok : Bool) : State :=
  { u with board := { u.board with
      bayRead := true, recordOk := ok, dynAddr := if u.board.busMode = 0 then u.board.dynAddr else none } }

@[simp] theorem bayDone_mode (u : State) (ok : Bool) : (bayDone u ok).mode = u.mode := rfl
@[simp] theorem bayDone_bayRead (u : State) (ok : Bool) : (bayDone u ok).board.bayRead = true := rfl
@[simp] theorem bayDone_recordOk (u : State) (ok : Bool) : (bayDone u ok).board.recordOk = ok := rfl
@[simp] theorem bayDone_bayLabel (u : State) (ok : Bool) : (bayDone u ok).board.bayLabel = u.board.bayLabel := rfl
@[simp] theorem bayDone_alerts (u : State) (ok : Bool) : (bayDone u ok).board.alerts = u.board.alerts := rfl
@[simp] theorem getF_bayDone (u : State) (ok : Bool) (f : Field) (k : Nat) : getF (bayDone u ok) f k = getF u f k := rfl

/-- With RESET_N low a read of the bay starts nothing (R60). -/
theorem exec_bayIdentityRead {s : State} (o : Option Bytes) (ok : Bool) (hmode : s.mode = .watch) (hreset : s.board.resetN = false) :
    exec (.bayIdentityRead ⟨o, ok⟩) s = .next (bayDone (bayLoaded s o) ok) := by
  have hlow : (bayLoaded s o).board.resetN = false := by
    by_cases h : bayStatus o = 0
    · cases o with
      | none => exact absurd h (by decide)
      | some m => rw [bayLoaded_valid h, loadBay_board]; exact hreset
    · rw [bayLoaded_invalid h, noBay_board]; exact hreset
  exact (congrArg Host.Outcome.next (if_pos (by simp [hmode]))).trans (congrArg Host.Outcome.next (sampleReset_low hlow))

/-- Settles O14: a read of the bay loads its fields, or those of no bay (`loadBay_fields`, `noBay_fields`), and samples RESET_N,
which is low. -/
theorem bayIdentity : Obligations.BayIdentity := by
  refine ⟨fun s m ok hmode hreset hst => ⟨_, exec_bayIdentityRead _ ok hmode hreset, ?_⟩,
    fun s o ok hmode hreset hst => ⟨_, exec_bayIdentityRead _ ok hmode hreset, ?_⟩⟩
  · have hfields := loadBay_fields s m
    rw [bayLoaded_valid hst]
    simpa [loadBay_mode, loadBay_board, hmode, bayLimit, ceilingOf] using hfields
  · have hfields := noBay_fields s (bayStatus_lt o)
    rw [bayLoaded_invalid hst]
    simpa [noBay_mode, noBay_board, hmode, bit_setBit] using hfields

end Sys2Proof.Machine
end

section
/-! The statement on the faults that halt the module at once: what entry to HALTED, the loss of the rails and a stop of bring-up
leave. -/
namespace Sys2Proof.Machine
open Sys2Proof

/-! ## Frames of the changes that a fault makes -/

@[simp] theorem setAlert_mode (s : State) (i : Nat) : (setAlert s i).mode = s.mode := rfl

@[simp] theorem setAlert_alerts (s : State) (i : Nat) : (setAlert s i).board.alerts = setBit s.board.alerts i true := rfl

@[simp] theorem getF_setAlert (s : State) (i : Nat) (f : Field) (u : Nat) : getF (setAlert s i) f u = getF s f u := rfl

@[simp] theorem dropRails_mode (s : State) : (dropRails s).mode = s.mode := rfl
@[simp] theorem dropRails_mem (s : State) : (dropRails s).mem = [] := rfl
@[simp] theorem dropRails_railsOn (s : State) : (dropRails s).board.railsOn = false := rfl
@[simp] theorem dropRails_alerts (s : State) : (dropRails s).board.alerts = s.board.alerts := rfl
@[simp] theorem dropRails_stopped (s : State) : (dropRails s).bring.stopped = s.bring.stopped := rfl
@[simp] theorem getF_dropRails (s : State) (f : Field) (u : Nat) : getF (dropRails s) f u = getF s f u := rfl

@[simp] theorem stopBringup_mode (s : State) (cause : Nat) : (stopBringup s cause).mode = s.mode := by simp [stopBringup]

/-- In bring-up an event leaves memory (R104). -/
theorem raise_mem_bringup {s : State} (h : s.mode = .bringup) (code coord d0 d1 : Nat) :
    (raise s code coord d0 d1).mem = s.mem := by rw [(OnlyLog.raise h code coord d0 d1).eq]

/-! ## Entry to HALTED (R65, R144 to R147) -/

/-- Entry to HALTED ends with its cause, and with the mode and alert cause 6. -/
theorem enterHalted_eq {s : State} (h : s.mode ≠ .halted) (cause : Nat) (losing : Bool) : ∃ t : State,
    enterHalted s cause losing = setAlert { setFs t [(R.ctlState_haltCause, cause), (R.ctlState_haltStateLosing, b2n losing),
      (R.gteStatus_haltPending, 0)] with mode := .halted } 6 := by
  rw [enterHalted, if_neg (by simpa using h)]
  exact ⟨_, rfl⟩

/-- A module that halts, of a cause, losing its state or not, with alert cause 6. -/
structure HaltedBy (cause : Nat) (losing : Bool) (t : State) : Prop where
  mode : t.mode = .halted
  cause : getF t R.ctlState_haltCause = cause
  losing : getF t R.ctlState_haltStateLosing = b2n losing
  alert : bit t.board.alerts 6 = true

theorem b2n_lt (b : Bool) : b2n b < 2 := by cases b <;> decide

theorem enterHalted_haltedBy {s : State} {cause : Nat} (h : s.mode ≠ .halted) (hc : cause < 16) (losing : Bool) :
    HaltedBy cause losing (enterHalted s cause losing) := by
  obtain ⟨t, e⟩ := enterHalted_eq h cause losing
  have hget : ∀ f : Field, getF (enterHalted s cause losing) f = getF (setFs t [(R.ctlState_haltCause, cause),
      (R.ctlState_haltStateLosing, b2n losing), (R.gteStatus_haltPending, 0)]) f := fun f => by rw [e]; rfl
  refine ⟨by rw [e]; rfl, ?_, ?_, by rw [e, setAlert_alerts, bit_setBit, if_pos rfl]⟩
  · simp (disch := decide) only [hget, setFs, List.foldl_cons, List.foldl_nil, getF_setF_ne, getF_setF]
    exact Nat.mod_eq_of_lt hc
  · simp (disch := decide) only [hget, setFs, List.foldl_cons, List.foldl_nil, getF_setF_ne, getF_setF]
    exact Nat.mod_eq_of_lt (b2n_lt losing)

theorem haltRailsOff_haltedBy {s : State} {cause : Nat} (h : s.mode ≠ .halted) (hc : cause < 16) :
    HaltedBy cause true (haltRailsOff s cause) :=
  have k := enterHalted_haltedBy h hc true
  ⟨k.mode, k.cause, k.losing, k.alert⟩

/-! ## The faults (R63, R65, R108, R122) -/

/-- The field that shows a core clock present: 0 CLK25_CORE, 1 CLK156. -/
def clockOk (clk : Nat) : Field := if clk = 0 then R.bruBayId_clk25CoreOk else R.bruBayId_clk156Ok

theorem fkey_clockOk_ne {f : Field} {u : Nat} (h0 : fkey f u ≠ fkey R.bruBayId_clk25CoreOk 0)
    (h1 : fkey f u ≠ fkey R.bruBayId_clk156Ok 0) (clk : Nat) : fkey f u ≠ fkey (clockOk clk) 0 := by
  unfold clockOk; split
  · exact h0
  · exact h1

/-- A field elsewhere reads past the loss of a clock and its event. -/
theorem getF_clockLost {f : Field} {u : Nat} (he : fkey f u ∉ eventKeys) (h0 : fkey f u ≠ fkey R.bruBayId_clk25CoreOk 0)
    (h1 : fkey f u ≠ fkey R.bruBayId_clk156Ok 0) (s : State)
    (clk code coord d0 d1 : Nat) : getF (raise (setF s (clockOk clk) 0 0) code coord d0 d1) f u = getF s f u := by
  rw [getF_raise he, getF_setF_ne _ _ (fkey_clockOk_ne h0 h1 clk)]

/-- A stop of bring-up leaves the lost clock shown. -/
theorem getF_stopBringup_clockOk (s : State) (clk code d1 cause : Nat) :
    getF (stopBringup (raise (setF s (clockOk clk) 0 0) code cPkg clk d1) cause) (clockOk clk) = 0 := by
  have h : ∀ f ∈ [R.bruBayId_clk25CoreOk, R.bruBayId_clk156Ok],
      getF (stopBringup (raise (setF s f 0 0) code cPkg clk d1) cause) f = 0 := by
    simp only [List.forall_mem_cons, List.not_mem_nil, false_imp_iff, implies_true, and_true]
    constructor <;> rw [getF_stopBringup_ne (by decide) (by decide) (by decide), getF_raise (by decide), getF_setF, Nat.zero_mod]
  exact h _ (by unfold clockOk; split <;> simp)

section faults
variable {s : State} (hon : s.board.railsOn = true)
include hon

theorem exec_railFault (h : s.mode ≠ .halted) (rail mv : Nat) : ∃ u : State, u.mode ≠ .halted ∧
    exec (.railFault rail mv) s = .next { haltRailsOff u 4 with
      board := { (haltRailsOff u 4).board with afterFault := true } } := by
  refine ⟨_, ?_, inModule_on hon⟩
  rw [when_frame State.mode (fun t => stopBringup_mode t 10), raise_mode]
  exact h

theorem exec_coreClockLost (h : s.mode ≠ .bringup) (clk : Nat) : exec (.coreClockLost clk) s =
    .next (enterHalted (raise (setF s (clockOk clk) 0 0) 0x200C cPkg clk (modeCode s.mode)) 5 (losingNow s)) :=
  (inModule_on hon).trans (congrArg _ (if_neg (by simpa using h)))

theorem exec_coreClockLost_bringup (h : s.mode = .bringup) (hstop : s.bring.stopped = false) (clk : Nat) :
    exec (.coreClockLost clk) s =
      .next (stopBringup (raise (setF s (clockOk clk) 0 0) 0x100D cPkg clk (modeCode s.mode)) 2) := by
  refine (inModule_on hon).trans ((congrArg _ (if_pos (by simp [h]))).trans (congrArg _ (if_neg ?_)))
  simp [hstop]

/-- A PLL whose clock runs loses lock: noted, with its event (R108). -/
def unlocked (s : State) (pll : Nat) : State :=
  raise { s with gov := { s.gov with unlocked := pll :: s.gov.unlocked.filter (fun x => x != pll) } } 0x200D cPkg pll
    (modeCode s.mode)

theorem exec_pllUnlock {pll : Nat}
    (h : pll = 16 ∨ (pll < 16 ∧ ∃ i < 32, isRunning (getStall s (32 * pll + i)) = true)) :
    exec (.pllUnlock pll) s =
      .next (if s.mode = .bringup then unlocked s pll else enterHalted (unlocked s pll) 5 true) := by
  refine (inModule_on hon).trans ((congrArg _ (if_neg ?_)).trans ?_)
  · simpa [List.any_eq_true, or_iff_not_imp_left] using h
  · simp [unlocked]

theorem exec_dieThermalTrip {d tj : Nat} (hd : d < 4) (ht : 115 ≤ tj) : exec (.dieThermalTrip d tj) s =
    .next (let u := raise (setF s R.pwrDie_tjC d tj) 0x2008 (cDie d) tj 115
      if s.mode = .bringup then dropRails { u with bring := { u.bring with stopped := true } } else haltRailsOff u 6) := by
  refine (onUnit_on hd hon).trans ((congrArg _ (if_neg (by omega))).trans ?_)
  simp

end faults

/-! ## A fault in a module already halted (R65, R108, R456) -/

theorem sendTeam_reg (s : State) (port ftype step page group chunk : Nat) (b : Bytes) :
    (sendTeam s port ftype step page group chunk b).reg = s.reg := rfl

theorem getF_leaveTeam {f : Field} {u : Nat} (h : fkey f u ≠ fkey R.pairStatus_team 0) (s : State) :
    getF (leaveTeam s) f u = getF s f u := by
  unfold leaveTeam
  split
  · rw [getF_setF_ne _ _ h]
    exact getF_congr (forEach_frame State.reg (fun t p => sendTeam_reg t p 9 0 0 0 0 []) _ s) f u
  · rfl

theorem leaveTeam_mode (s : State) : (leaveTeam s).mode = s.mode := by
  unfold leaveTeam
  split
  · exact (OnlyStores.forEach (fun t p => .sendTeam t p 9 0 0 0 0 []) _ s).mode
  · rfl

/-- The job of a halted module is lost, and the first cause stays. -/
theorem loseHalted_fields {s : State} (h : s.job.running = none) : (loseHalted s).mode = s.mode ∧
    getF (loseHalted s) R.ctlState_haltStateLosing = 1 ∧
    getF (loseHalted s) R.ctlState_haltCause = getF s R.ctlState_haltCause := by
  unfold loseHalted
  rw [h]
  refine ⟨leaveTeam_mode s, getF_setF _ _ _ _, ?_⟩
  rw [getF_setF_ne _ _ (by decide)]
  exact getF_leaveTeam (by decide) s

theorem enterHalted_again {s : State} (h : s.mode = .halted) (hl : getF s R.ctlState_haltStateLosing = 0) (cause : Nat) :
    enterHalted s cause true = loseHalted s := by
  simp [enterHalted, h, onF, hl]

/-- Settles O15: a halt ends with its cause (`enterHalted_haltedBy`), a stop of bring-up with its own; the first cause stays
because a second entry to HALTED only loses the job (`enterHalted_again`). -/
theorem hardFaults : Obligations.HardFaults := by
  refine ⟨fun s rail mv hon hm => ?_, fun s clk hon hm hb => ?_, fun s clk hon hb hstop => ?_, fun s pll hon hup hm hp => ?_,
    fun s d tj hd ht hon hm hb => ?_, fun s d tj hd ht hon hb => ?_, fun s hon hb => ?_, fun s clk hon hm hi hr hl => ?_⟩
  · obtain ⟨u, hu, e⟩ := exec_railFault hon hm rail mv
    obtain ⟨hmode, hcause, hlose, halert⟩ := haltRailsOff_haltedBy (cause := 4) hu (by decide)
    exact ⟨_, e, hmode, hcause, hlose, rfl, rfl, rfl, halert⟩
  · have hlosing : losingNow s = inJob s := by simp [losingNow, hm]
    rw [exec_coreClockLost hon hb clk, hlosing]
    obtain ⟨hmode, hcause, hlose, halert⟩ := enterHalted_haltedBy (cause := 5)
      (s := raise (setF s (clockOk clk) 0 0) 0x200C cPkg clk (modeCode s.mode)) (by simpa using hm) (by decide) (inJob s)
    exact ⟨_, rfl, hmode, hcause, hlose, halert⟩
  · refine ⟨_, exec_coreClockLost_bringup hon hb hstop clk, by simpa using hb, stopBringup_stopped _ _,
      getF_stopBringup_stopCause _ _, ?_⟩
    exact getF_stopBringup_clockOk s clk _ _ _
  · have hb : s.mode ≠ .bringup := by rintro h; simp [upStates, h] at hup
    rw [exec_pllUnlock hon hp, if_neg hb]
    obtain ⟨hmode, hcause, hlose, halert⟩ := enterHalted_haltedBy (cause := 5) (s := unlocked s pll)
      (by simpa [unlocked] using hm) (by decide) true
    exact ⟨_, rfl, hmode, hcause, hlose, halert⟩
  · rw [exec_dieThermalTrip hon hd ht, if_neg hb]
    obtain ⟨hmode, hcause, hlose, -⟩ := haltRailsOff_haltedBy (cause := 6)
      (s := raise (setF s R.pwrDie_tjC d tj) 0x2008 (cDie d) tj 115) (by simpa using hm) (by decide)
    exact ⟨_, rfl, hmode, hcause, hlose, rfl, rfl⟩
  · rw [exec_dieThermalTrip hon hd ht, if_pos hb]
    exact ⟨_, rfl, by simpa using hb, rfl, rfl, rfl⟩
  · rw [exec_pllUnlock hon (.inl rfl), if_pos hb]
    refine ⟨_, rfl, by simpa [unlocked] using hb, by simp [unlocked], by simp [unlocked], ?_⟩
    exact raise_mem_bringup (by exact hb) _ _ _ _
  · have hlosing : losingNow s = true := by simp [losingNow, hm, hi]
    rw [exec_coreClockLost hon (by simp [hm]) clk, hlosing, enterHalted_again (by simpa using hm)
      ((getF_clockLost (by decide) (by decide) (by decide) ..).trans hl)]
    obtain ⟨hmode, hlose, hcause⟩ := loseHalted_fields
      (s := raise (setF s (clockOk clk) 0 0) 0x200C cPkg clk (modeCode s.mode)) (by simpa using hr)
    exact ⟨_, rfl, hmode.trans (by simpa using hm), hlose, hcause.trans (getF_clockLost (by decide) (by decide) (by decide) ..)⟩

end Sys2Proof.Machine
end

section
/-! The register fields of the laser sockets, the fabric ports' states and the team's state (R79, R391, R443), which the halt of
a job, the report of gate-complete, the end of a securing and the frames of a lost port leave as they are. -/
namespace Sys2Proof.Machine
open Sys2Proof

/-! ## Fields at given keys -/

/-- Every register field of a key in `K` reads in `t` as in `s`. -/
def KeepsKeys (K : List Nat) (s t : State) : Prop := ∀ f u, fkey f u ∈ K → getF t f u = getF s f u

namespace KeepsKeys
variable {K L : List Nat} {z s t : State}

theorem refl (s : State) : KeepsKeys K s s := fun _ _ _ => rfl

theorem trans (h : KeepsKeys K z s) (k : KeepsKeys K s t) : KeepsKeys K z t :=
  fun f u m => (k f u m).trans (h f u m)

theorem mono (h : KeepsKeys K s t) (hL : L ⊆ K) : KeepsKeys L s t := fun f u m => h f u (hL m)

/-- The register table is the same. -/
theorem same (h : t.reg = s.reg) : KeepsKeys K s t := fun f u _ => getF_congr h f u

theorem setF {g : Field} {w : Nat} (h : fkey g w ∉ K) (s : State) (v : Nat) : KeepsKeys K s (setF s g w v) :=
  fun _ _ m => getF_setF_ne s v (fun e => h (e ▸ m))

theorem forEach {α : Type} {l : List α} {f : State → α → State} (h : ∀ s, ∀ a ∈ l, KeepsKeys K s (f s a)) (s : State) :
    KeepsKeys K s (forEach l f s) := fun g u m =>
  forEach_frame_mem (fun t => getF t g u) (fun a ha t => h t a ha g u m) s

theorem setFs {l : List (Field × Nat)} (h : ∀ f ∈ l.map Prod.fst, fkey f 0 ∉ K) (s : State) : KeepsKeys K s (setFs s l) :=
  forEach (fun t p hp => setF (h p.1 (List.mem_map_of_mem hp)) t p.2) s

theorem ite {c : Prop} [Decidable c] {a b : State} (h : c → KeepsKeys K s a) (k : ¬ c → KeepsKeys K s b) :
    KeepsKeys K s (if c then a else b) := by
  split
  · next hc => exact h hc
  · next hc => exact k hc

theorem ofReg (h : KeepsReg s t) (hK : ∀ k ∈ K, k ∉ eventKeys) : KeepsKeys K s t := fun f u m => h f u (hK _ m)

theorem clearUnits {f : Field} {n : Nat} (h : ∀ k ∈ K, unitOf f n k = none) (s : State) : KeepsKeys K s (clearUnits s f n) := by
  intro g u m
  simp only [getF, tget, Machine.clearUnits]
  rw [tget?_filter s.reg (fun k => (unitOf f n k).isNone), if_pos (by simp [h _ m])]

end KeepsKeys

/-! ## The fields at the module's edge -/

/-- What shows the laser modules fitted and the states of the fabric ports. -/
def portKeys : List Nat :=
  [fkey R.bruFit_laserPresent 0, fkey R.bruFit_laserUsable 0] ++ (List.range 24).map (fkey R.prtPortStatus_state)

/-- The same, and the state of the team with its cause. -/
def edgeKeys : List Nat := [fkey R.pairStatus_team 0, fkey R.pairStatus_cause 0] ++ portKeys

theorem portKeys_subset : portKeys ⊆ edgeKeys := List.subset_append_right _ _

/-- A field whose lowest bit no field at the edge shares lies apart from them, whatever its unit. -/
theorem not_edge_of_lo {f : Field} (h : f.lo % 64 ∉ [61, 57, 16, 12]) (u : Nat) : fkey f u ∉ edgeKeys := by
  have hlo : ∀ k ∈ edgeKeys, k % 64 ∈ [61, 57, 16, 12] := by decide +kernel
  intro m
  have e : fkey f u % 64 = f.lo % 64 := by unfold fkey; omega
  exact h (e ▸ hlo _ m)

/-- The fields at the edge read the same in both states. -/
abbrev KeepsEdge (s t : State) : Prop := KeepsKeys edgeKeys s t

namespace KeepsEdge

theorem raise (s : State) (code coord d0 d1 : Nat) : KeepsEdge s (raise s code coord d0 d1) :=
  .ofReg (.raise s code coord d0 d1) (by decide +kernel)

/-! ## The end of a securing (R451, R452) -/

theorem stepSecured (s : State) : KeepsEdge s (stepSecured s) := by
  unfold Machine.stepSecured
  split
  · exact .refl s
  · exact (KeepsKeys.same (by rfl)).trans ((KeepsKeys.setFs (by simp only [List.map_cons, List.map_nil]; decide +kernel) _).trans (raise _ _ _ _ _))

theorem endSecuring (s : State) : KeepsEdge s (endSecuring s) := by
  unfold Machine.endSecuring
  split
  · exact .refl s
  · extract_lets t
    have h : KeepsEdge s t := .same rfl
    exact .ite (fun _ => h.trans (.same rfl)) (fun _ => h.trans (stepSecured t))

theorem sweepPages (s : State) : KeepsEdge s (sweepPages s) := by
  unfold Machine.sweepPages
  refine .ite (fun _ => ?_) (fun _ => .refl s)
  extract_lets _ t u
  have ht : KeepsEdge s t := (KeepsKeys.same (by rfl)).trans (.setF (by decide +kernel) _ _)
  have hu : KeepsEdge s u := ht.trans (.setF (by decide +kernel) _ _)
  exact .ite (fun _ => hu.trans (endSecuring u)) (fun _ => hu)

/-! ## Completions and frames to the host (R129, R144) -/

theorem sendNumbered (s : State) (c : CtlOut) : KeepsEdge s (sendNumbered s c) := .same (sendNumbered_reg s c)

theorem complete (s : State) (c : CmdRec) (status detail : Nat) : KeepsEdge s (complete s c status detail) :=
  (KeepsKeys.setF (not_edge_of_lo (by decide) _) s _).trans (sendNumbered _ _)

theorem finish (s : State) (c : CmdRec) (status detail : Nat) : KeepsEdge s (finish s c status detail) :=
  (KeepsKeys.same (by rfl)).trans (complete _ c status detail)

/-! ## The halt of a job (R144 to R147, R178) -/

theorem dropAmends (s : State) (status : Nat) : KeepsEdge s (dropAmends s status) := by
  unfold Machine.dropAmends
  extract_lets t _ u
  have ht : KeepsEdge s t := .forEach (fun t a _ => complete t a.cmd status 0) s
  have hu : KeepsEdge s u := (ht.trans (.same (by rfl))).trans (.setFs (by simp only [List.map_cons, List.map_nil]; decide +kernel) _)
  exact hu.trans (.setF (by decide +kernel) _ _)

/-- The fields of GEN.STALL that an image leaves behind lie apart from those at the edge. -/
theorem stallFields_apart : ∀ f ∈ [R.genStall_pc, R.genStall_pass, R.genStall_idle, R.genStall_faulted, R.genStall_atFwdEnd,
    R.genStall_fbCount, R.genStall_fbSlot0, R.genStall_fbValid0, R.genStall_fbSlot1, R.genStall_fbValid1, R.genStall_bank0,
    R.genStall_bank1], ∀ p, fkey f p ∉ edgeKeys := by
  simp only [List.forall_mem_cons, List.not_mem_nil, false_imp_iff, implies_true, and_true]
  refine ⟨?_, ?_, ?_, ?_, ?_, ?_, ?_, ?_, ?_, ?_, ?_, ?_⟩ <;> exact not_edge_of_lo (by decide)

theorem dropImage (s : State) : KeepsEdge s (dropImage s) := by
  unfold Machine.dropImage
  extract_lets _ _ _ _ a _ b c _ d e f
  have ha : KeepsEdge s a := .same rfl
  have hb : KeepsEdge s b := ha.trans (.forEach (fun t p _ => .same (by rfl)) _)
  have hc : KeepsEdge s c := hb.trans (.forEach (fun t p _ => .forEach (fun u f hf => .setF (stallFields_apart f hf p) u 0) t) _)
  clear_value c
  have hd : KeepsEdge s d := hc.trans (.same rfl)
  have he : KeepsEdge s e := hd.trans (.forEach (fun t p _ => .ite (fun _ => .same (by rfl)) (fun _ => .refl t)) _)
  have hf : KeepsEdge s f := ((he.trans (.clearUnits (by decide +kernel) _)).trans (.clearUnits (by decide +kernel) _)).trans
    (.clearUnits (by decide +kernel) _)
  exact hf.trans (.setFs (by simp only [List.map_cons, List.map_nil]; decide +kernel) _)

theorem endRunning (s : State) : KeepsEdge s (endRunning s) := by
  unfold Machine.endRunning
  split
  · exact .refl s
  · refine .ite (fun _ => .refl s) (fun _ => .ite (fun _ => ?_) (fun _ => finish s _ _ _))
    exact (((raise s _ _ _ _).trans (finish _ _ _ _)).trans (.same (by rfl))).trans (dropImage _)

theorem pauseChan (s : State) (c : Nat) (park : Bool) : KeepsEdge s (pauseChan s c park) := by
  unfold Machine.pauseChan
  exact .ite (fun _ => .same rfl) (fun _ => .refl s)

theorem stopCompute (s : State) : KeepsEdge s (stopCompute s) := by
  unfold Machine.stopCompute
  extract_lets a b c _ d
  have ha : KeepsEdge s a := .forEach (fun t p _ => pauseChan t _ _) s
  have hb : KeepsEdge s b := ha.trans (.forEach (fun t p _ => .same (by rfl)) _)
  have hc : KeepsEdge s c := hb.trans (.setF (by decide +kernel) _ _)
  clear_value c
  have hd : KeepsEdge s d := hc.trans (.same rfl)
  exact hd.trans (.forEach (fun t z _ => .same (by rfl)) _)

/-- A halt that loses nothing leaves the team as it is (R456). -/
theorem enterHalted (s : State) (cause : Nat) : KeepsEdge s (enterHalted s cause false) := by
  unfold Machine.enterHalted
  refine .ite (fun _ => .refl s) (fun _ => ?_)
  extract_lets a _ b c d
  have ha : KeepsEdge s a := ((endRunning s).trans (dropAmends _ _)).trans (stopCompute _)
  clear_value a
  have hc : KeepsEdge s c := ha.trans (.same rfl)
  have hd : KeepsEdge s d := hc.trans (.setFs (by simp only [List.map_cons, List.map_nil]; decide +kernel) _)
  clear_value d
  exact hd.trans (.same rfl)

/-! ## The report of gate-complete, and JOB_END (R147, R151, R449, R453) -/

theorem beginSecuring (s : State) : KeepsEdge s (beginSecuring s) := by
  unfold Machine.beginSecuring
  refine .ite (fun _ => .refl s) (fun _ => ?_)
  extract_lets ps keep _ a b c
  have ha : KeepsEdge s a := .same rfl
  have hb : KeepsEdge s b := ha.trans (.setFs (by simp only [List.map_cons, List.map_nil]; decide +kernel) _)
  have hc : KeepsEdge s c := hb.trans (raise _ _ _ _ _)
  exact .ite (fun _ => hc.trans (endSecuring c)) (fun _ => hc)

end KeepsEdge

theorem tryCommit_none {s : State} (h : s.job.token = none) : tryCommit s = s := by
  rw [tryCommit, h]

theorem sendNumbered_job (s : State) (c : CtlOut) : (sendNumbered s c).job = s.job := by
  unfold sendNumbered; split
  · rfl
  · split <;> rfl

theorem stepSecured_job (s : State) : (stepSecured s).job = s.job := by
  unfold stepSecured
  split
  · rfl
  · rw [raise_job, setFs_job]

theorem endSecuring_job (s : State) : (endSecuring s).job = s.job := by
  unfold endSecuring
  split
  · rfl
  · extract_lets t
    split
    · rfl
    · rw [stepSecured_job]; rfl

theorem beginSecuring_job (s : State) : (beginSecuring s).job = s.job := by
  unfold beginSecuring
  extract_lets
  split
  · rfl
  · split
    · rw [endSecuring_job, raise_job, setFs_job]
    · rw [raise_job, setFs_job]

namespace KeepsEdge

/-- With no token held, the report of gate-complete commits nothing. -/
theorem reportGate {s : State} (h : s.job.token = none) : KeepsEdge s (reportGate s) := by
  unfold Machine.reportGate
  extract_lets halting held a job b c
  have ha : KeepsEdge s a := .setFs (by simp only [List.map_cons, List.map_nil]; decide +kernel) s
  have hja : a.job = s.job := setFs_job _ _
  clear_value a
  have hb : KeepsEdge s b := (ha.trans (.same (by rfl))).trans (beginSecuring _)
  have hjb : b.job.token = none := by rw [show b.job = _ from beginSecuring_job _]; exact (congrArg Job.token hja).trans h
  clear_value b
  have hc : KeepsEdge s c := hb.trans (sendNumbered _ _)
  have hjc : c.job.token = none := by rw [show c.job = _ from sendNumbered_job _ _]; exact hjb
  clear_value c
  exact .ite (fun _ => (hc.trans (raise _ _ _ _ _)).trans (enterHalted _ 2)) (fun _ => by rwa [tryCommit_none hjc])

theorem tryReport {s : State} (h : s.job.token = none) : KeepsEdge s (tryReport s) := by
  unfold Machine.tryReport
  refine .ite (fun _ => .refl s) (fun _ => ?_)
  split
  · exact reportGate h
  · exact .same rfl

theorem endJob (s : State) (c : CmdRec) : KeepsEdge s (endJob s c) := by
  unfold Machine.endJob
  extract_lets a
  have ha : KeepsEdge s a := (dropAmends s 2).trans (.same (by rfl))
  clear_value a
  exact ((ha.trans (.same (by rfl))).trans (.setF (by decide +kernel) _ _)).trans (finish _ c 0 0)

/-- What waits for a securing goes on; with no token held, no commit follows. -/
theorem afterSecured {s : State} (h : s.job.token = none) : KeepsEdge s (afterSecured s) := by
  unfold Machine.afterSecured
  extract_lets a
  have ha : KeepsEdge s a := tryReport h
  split
  · exact .ite (fun _ => ha.trans (endJob a _)) (fun _ => ha)
  · exact ha

end KeepsEdge

/-! ## A team that breaks (R446) -/

theorem sweepPages_job (s : State) : (sweepPages s).job = s.job := by
  unfold sweepPages
  split
  · extract_lets _ t u
    split
    · exact endSecuring_job u
    · rfl
  · rfl

theorem breakTeam_job (s : State) (cause : Nat) : (breakTeam s cause).job = s.job := by
  unfold breakTeam
  extract_lets sent t
  have ht : t.job = s.job := by rw [show t.job = _ from raise_job ..]; exact setFs_job _ _
  clear_value t
  split
  · split
    · exact (stepSecured_job t).trans ht
    · exact (sweepPages_job t).trans ht
  · rfl

/-- After the team's state and cause, a break changes no field at the edge. -/
theorem breakTeam_formed {s : State} (h : teamFormed s = true) (cause : Nat) :
    KeepsEdge (setFs s [(R.pairStatus_team, 4), (R.pairStatus_cause, cause)]) (breakTeam s cause) := by
  unfold breakTeam
  extract_lets sent t
  have ht : KeepsEdge (setFs s [(R.pairStatus_team, 4), (R.pairStatus_cause, cause)]) t := .raise _ _ _ _ _
  clear_value t
  rw [if_pos h]
  exact .ite (fun _ => ht.trans (KeepsEdge.stepSecured t)) (fun _ => ht.trans (KeepsEdge.sweepPages t))

/-! ## A port that goes down (R391, R392, R398) -/

/-- A field whose lowest bit no such field shares lies apart from what shows the sockets and the ports. -/
theorem not_port_of_lo {f : Field} (h : f.lo % 64 ∉ [61, 16, 12]) (u : Nat) : fkey f u ∉ portKeys := by
  have hlo : ∀ k ∈ portKeys, k % 64 ∈ [61, 16, 12] := by decide +kernel
  intro m
  have e : fkey f u % 64 = f.lo % 64 := by unfold fkey; omega
  exact h (e ▸ hlo _ m)

/-- The fields of the sockets and ports read the same in both states, and the same token is held. -/
structure KeepsPorts (s t : State) : Prop where
  keys : KeepsKeys portKeys s t
  token : t.job.token = s.job.token

namespace KeepsPorts
variable {z s t : State}

theorem refl (s : State) : KeepsPorts s s := ⟨.refl s, rfl⟩

theorem trans (h : KeepsPorts z s) (k : KeepsPorts s t) : KeepsPorts z t := ⟨h.keys.trans k.keys, k.token.trans h.token⟩

theorem same (h : t.reg = s.reg) (k : t.job.token = s.job.token) : KeepsPorts s t := ⟨.same h, k⟩

theorem ofEdge (h : KeepsEdge s t) (k : t.job = s.job) : KeepsPorts s t := ⟨h.mono portKeys_subset, by rw [k]⟩

theorem ite {c : Prop} [Decidable c] {a b : State} (h : c → KeepsPorts s a) (k : ¬ c → KeepsPorts s b) :
    KeepsPorts s (if c then a else b) := by
  split
  · next hc => exact h hc
  · next hc => exact k hc

theorem forEach {α : Type} {f : State → α → State} (h : ∀ s a, KeepsPorts s (f s a)) (l : List α) (s : State) :
    KeepsPorts s (forEach l f s) :=
  ⟨.forEach (fun t a _ => (h t a).keys) s, forEach_frame (fun t => t.job.token) (fun t a => (h t a).token) l s⟩

theorem raise (s : State) (code coord d0 d1 : Nat) : KeepsPorts s (raise s code coord d0 d1) :=
  ofEdge (.raise _ _ _ _ _) (raise_job _ _ _ _ _)

theorem breakTeam (s : State) (cause : Nat) : KeepsPorts s (breakTeam s cause) := by
  refine ⟨?_, by rw [breakTeam_job]⟩
  by_cases h : teamFormed s = true
  · exact (KeepsKeys.setFs (by simp only [List.map_cons, List.map_nil]; decide +kernel) s).trans
      ((breakTeam_formed h cause).mono portKeys_subset)
  · rw [Machine.breakTeam, if_neg h]; exact .refl s

theorem noRoute (s : State) (p dst : Nat) : KeepsPorts s (noRoute s p dst) :=
  (same (by rfl) (by rfl)).trans (raise (stopStall s p) _ _ _ _)

theorem sendToken (s : State) (f : TokFrame) : KeepsPorts s (sendToken s f) := by
  unfold Machine.sendToken
  refine .ite (fun _ => .same rfl rfl) (fun _ => ?_)
  split
  · exact noRoute s _ _
  · split
    · exact noRoute s _ _
    · exact .same rfl rfl

theorem rePort (n : Nat) (s : State) (f : OutFrame) : KeepsPorts s (rePort n s f) := by
  unfold Machine.rePort
  refine .ite (fun _ => .same rfl rfl) (fun _ => ?_)
  split
  · exact sendToken s _
  · split
    · exact .same rfl rfl
    · exact .refl s
  · exact .refl s

theorem requeue (s : State) (n : Nat) : KeepsPorts s (requeue s n) :=
  (same (by rfl) (by rfl)).trans (forEach (rePort n) _ _)

theorem showTeamPorts (s : State) : KeepsPorts s (showTeamPorts s) :=
  ⟨.setFs (by simp only [List.map_cons, List.map_nil]; decide +kernel) s, by rw [Machine.showTeamPorts, setFs_job]⟩

theorem teamPortLost (s : State) (n : Nat) : KeepsPorts s (teamPortLost s n) := by
  unfold Machine.teamPortLost
  extract_lets a up b
  have ha : KeepsPorts s a := showTeamPorts s
  have hb : KeepsPorts s b := ha.trans (raise _ _ _ _ _)
  exact .ite (fun _ => .ite (fun _ => hb.trans (breakTeam b 2)) (fun _ => hb)) (fun _ => ha)

theorem checkMin (s : State) (before : Nat) : KeepsPorts s (checkMin s before) := by
  unfold Machine.checkMin
  split
  · exact .refl s
  · exact .ite (fun _ => raise _ _ _ _ _) (fun _ => .refl s)

/-- But for its new state, a port that goes down changes nothing that shows the sockets and ports. -/
theorem portDown (s : State) (n cause st : Nat) :
    KeepsPorts (setF s R.prtPortStatus_state n st) (portDown s n cause st) := by
  unfold Machine.portDown
  extract_lets was before full a b c d
  have ha : KeepsPorts (setF s R.prtPortStatus_state n st) a := ⟨.setF (not_port_of_lo (by decide) n) _ _, rfl⟩
  have hb : KeepsPorts (setF s R.prtPortStatus_state n st) b :=
    (ha.trans ⟨.setF (not_port_of_lo (by decide) n) _ _, rfl⟩).trans (raise _ _ _ _ _)
  have hc : KeepsPorts (setF s R.prtPortStatus_state n st) c := .ite (fun _ => hb.trans (requeue b n)) (fun _ => hb)
  have hd : KeepsPorts (setF s R.prtPortStatus_state n st) d := .ite (fun _ => hc.trans (teamPortLost c n)) (fun _ => hc)
  exact .ite (fun _ => hd.trans (checkMin d before)) (fun _ => ha)

end KeepsPorts

end Sys2Proof.Machine
end

section
/-! The statement on the events at the board's edge: the alert causes, the modules in their cages and sockets, and the DIMMs. -/
namespace Sys2Proof.Machine
open Sys2Proof

/-! ## The alert causes (R67, R69) -/

/-- Setting causes changes the alert word alone. -/
theorem setCauses_eq (l : List Bool) (i : Nat) (s : State) :
    setCauses l i s = { s with board := { s.board with alerts := (setCauses l i s).board.alerts } } := by
  induction l generalizing i s with
  | nil => rfl
  | cons c r ih =>
    rw [setCauses, ih]
    unfold alertIf
    split <;> rfl

/-- From bit `i` on, each cause is set whose condition holds, and none is cleared. -/
theorem bit_setCauses (l : List Bool) (i j : Nat) (s : State) : bit (setCauses l i s).board.alerts j =
    (bit s.board.alerts j || (decide (i ≤ j) && l.getD (j - i) false)) := by
  induction l generalizing i s with
  | nil => simp [setCauses]
  | cons c r ih =>
    have hset : bit (alertIf c i s).board.alerts j = (bit s.board.alerts j || (c && decide (j = i))) := by
      unfold alertIf
      by_cases hj : j = i <;> cases c <;> simp [bit_setBit, hj]
    rw [setCauses, ih, hset]
    rcases Nat.lt_trichotomy j i with hlt | rfl | hgt
    · simp [show ¬ i + 1 ≤ j by omega, show ¬ i ≤ j by omega, show j ≠ i by omega]
    · simp
    · obtain ⟨k, rfl⟩ : ∃ k, j = i + 1 + k := ⟨j - (i + 1), by omega⟩
      simp [show i + 1 + k - i = k + 1 by omega, show i ≤ i + 1 + k by omega,
        show i + 1 + k ≠ i by omega]

/-- Clearing causes one after another clears those of the list that are written as 1. -/
theorem bit_clear_foldl (w : Nat) (l : List Nat) (a j : Nat) :
    bit (l.foldl (fun a i => if bit w i then setBit a i false else a) a) j = (bit a j && !(decide (j ∈ l) && bit w j)) := by
  induction l generalizing a with
  | nil => simp
  | cons i r ih =>
    rw [List.foldl_cons, ih]
    by_cases hj : j = i
    · subst hj
      cases hw : bit w j <;> simp [bit_setBit]
    · cases hw : bit w i <;> simp [hj, bit_setBit]

theorem bit_clearCauses (s : State) (w : Nat) {i : Nat} (hi : i < 10) :
    bit (clearCauses s w).board.alerts i = (bit s.board.alerts i && !bit w i) := by
  refine (bit_clear_foldl w (List.range 10) _ i).trans ?_
  simp [hi]

/-- The conditions read the mode, whether the bay was read, and registers other than the level of TEAM_SENSE. -/
theorem alertConditions_congr {s t : State} (m : Telemetry) (hmode : t.mode = s.mode)
    (hread : t.board.bayRead = s.board.bayRead)
    (hget : ∀ f u, fkey f u ≠ fkey R.bruBayId_teamSenseLevel 0 → getF t f u = getF s f u) :
    alertConditions t m = alertConditions s m := by
  have hI : ∀ d, getF t R.pwrDie_tI d = getF s R.pwrDie_tI d := fun d => hget _ d (fkey_ne_of_lo (by decide) d 0)
  have hT : ∀ d, getF t R.pwrDie_tT d = getF s R.pwrDie_tT d := fun d => hget _ d (fkey_ne_of_lo (by decide) d 0)
  have hstep : dieStep t = dieStep s := funext fun d => by rw [dieStep, dieStep, hI, hT]
  have hacts : dieActs t = dieActs s := by rw [dieActs, dieActs, hstep]
  have hbay : bayInvalid t = bayInvalid s := by rw [bayInvalid, bayInvalid, hget R.bruBayId_bayStatus 0 (by decide)]
  rw [alertConditions, alertConditions, hacts, hbay, hmode, hread]

/-- What a telemetry refresh leaves (R67, R68): the event that it may raise leaves the board. -/
theorem refresh_spec (s : State) (m : Telemetry) : (refresh m s).board.telem = m ∧ (refresh m s).mode = s.mode ∧
    (refresh m s).now = s.now ∧ ∀ i < 10, bit (refresh m s).board.alerts i =
      (bit s.board.alerts i || (alertConditions s m).getD i false) := by
  unfold refresh
  extract_lets had board t u
  have hcond : alertConditions t m = alertConditions s m := alertConditions_congr m rfl rfl (fun f u h => getF_setF_ne _ _ h)
  have hu : u = { t with board := { t.board with alerts := u.board.alerts } } := setCauses_eq _ _ _
  have hbits : ∀ i, bit u.board.alerts i = (bit s.board.alerts i || (alertConditions s m).getD i false) := fun i => by
    rw [show u = setCauses (alertConditions t m) 0 t from rfl, bit_setCauses, hcond]
    simp [t, board]
  have hkept : u.board.telem = m ∧ u.mode = s.mode ∧ u.now = s.now := by rw [hu]; exact ⟨rfl, rfl, rfl⟩
  obtain ⟨htelem, hmode, hnow⟩ := hkept
  split
  · exact ⟨by rw [raise_board, htelem], by rw [raise_mode, hmode], by rw [raise_now, hnow],
      fun i _ => by rw [raise_board]; exact hbits i⟩
  · exact ⟨htelem, hmode, hnow, fun i _ => hbits i⟩

/-! ## The modules in their cages and sockets (R76, R78, R79, R389, R390) -/

theorem hostInserted_spec (s : State) (m : Pluggable) : (hostInserted m s).mode = s.mode ∧
    getF (hostInserted m s) R.bruFit_hostModulePresent = 1 ∧
    getF (hostInserted m s) R.bruFit_hostModuleUsable = b2n (hostUsable m) ∧
    getF (hostInserted m s) R.hstStatus_state = b2n (hostUsable m) ∧ (hostInserted m s).att.host = some m := by
  have hb : b2n (hostUsable m) < 2 := b2n_lt _
  simp (disch := decide) only [hostInserted, readHost, getF_raise, getF_setF_ne, getF_setF, setFs, List.foldl_cons,
    List.foldl_nil, raise_mode, raise_att, setF_mode, setF_att, true_and, and_true]
  exact ⟨rfl, Nat.mod_eq_of_lt hb, Nat.mod_eq_of_lt (by simp only [R.hstStatus_state]; omega)⟩

/-- The host port's fall shows in its own fields. -/
theorem getF_hostDown {f : Field} (he : fkey f 0 ∉ eventKeys) (hs : fkey f 0 ≠ fkey R.hstStatus_state 0)
    (hc : fkey f 0 ≠ fkey R.hstStatus_downCause 0) (s : State) (cause st : Nat) : getF (hostDown s cause st) f = getF s f := by
  unfold hostDown
  extract_lets was t
  have ht : getF t f = getF s f := getF_setF_ne _ _ hs
  split
  · rw [getF_raise he, getF_setF_ne _ _ hc, ht]
  · exact ht

theorem getF_hostDown_state (s : State) (cause st : Nat) : getF (hostDown s cause st) R.hstStatus_state = st % 4 := by
  unfold hostDown
  extract_lets was t
  have ht : getF t R.hstStatus_state = st % 4 := getF_setF _ _ _ _
  split
  · rw [getF_raise (by decide), getF_setF_ne _ _ (by decide), ht]
  · exact ht

theorem hostDown_mode (s : State) (cause st : Nat) : (hostDown s cause st).mode = s.mode := by
  unfold hostDown
  extract_lets was t
  split
  · exact raise_mode _ _ _ _ _
  · rfl

theorem hostRemoved_spec (s : State) (faulted : Bool) : (hostRemoved faulted s).mode = s.mode ∧
    getF (hostRemoved faulted s) R.bruFit_hostModulePresent = (if faulted then getF s R.bruFit_hostModulePresent else 0) ∧
    getF (hostRemoved faulted s) R.bruFit_hostModuleUsable = 0 ∧ getF (hostRemoved faulted s) R.hstStatus_state = 0 := by
  unfold hostRemoved
  extract_lets t
  have hmode : t.mode = s.mode := (hostDown_mode _ 4 0).trans (raise_mode _ _ _ _ _)
  have hpresent : getF t R.bruFit_hostModulePresent = getF s R.bruFit_hostModulePresent :=
    (getF_hostDown (by decide) (by decide) (by decide) _ 4 0).trans (getF_raise (by decide) _ _ _ _ _)
  have hstate : getF t R.hstStatus_state = 0 := getF_hostDown_state _ 4 0
  clear_value t
  cases faulted
  case true =>
    exact ⟨hmode, (getF_setF_ne _ _ (by decide)).trans hpresent, getF_setF _ _ _ _, (getF_setF_ne _ _ (by decide)).trans hstate⟩
  case false =>
    refine ⟨hmode, ?_, getF_setF _ _ _ _, ?_⟩
    · exact (getF_setF_ne _ _ (by decide)).trans (getF_setF _ _ _ _)
    · exact (getF_setFs_ne _ _ (by decide)).trans hstate

/-- A mask of the four sockets has each one's bit. -/
theorem bit_mask (p : Nat → Bool) {i : Nat} (hi : i < 4) :
    bit (((List.range 4).map (fun i => b2n (p i) * 2 ^ i)).sum % 2 ^ 4) i = p i := by
  have h : ∀ a b c d : Bool, ∀ i < 4, bit ((b2n a * 2 ^ 0 + (b2n b * 2 ^ 1 + (b2n c * 2 ^ 2 + (b2n d * 2 ^ 3 + 0)))) % 2 ^ 4) i =
      [a, b, c, d].getD i false := by decide
  refine (h (p 0) (p 1) (p 2) (p 3) i hi).trans ?_
  interval_cases i <;> rfl

/-- The fitted record shows a socket's module, and whether it is usable (R79). -/
theorem showLasers_bits (s : State) {i : Nat} (hi : i < 4) :
    bit (getF (showLasers s) R.bruFit_laserPresent) i = (tget? s.att.lasers i).isSome ∧
    bit (getF (showLasers s) R.bruFit_laserUsable) i =
      ((tget? s.att.lasers i).any laserUsable && (tget? s.att.laserCtl i).isSome) := by
  simp (disch := decide) only [showLasers, setFs, List.foldl_cons, List.foldl_nil, getF_setF_ne, getF_setF]
  exact ⟨bit_mask _ hi, bit_mask _ hi⟩

theorem mem_socketPorts {i n : Nat} : n ∈ socketPorts i ↔ n / 6 = i := by
  simp only [socketPorts, rangeFrom, List.mem_map, List.mem_range]
  constructor
  · rintro ⟨a, ha, rfl⟩; omega
  · exact fun h => ⟨n % 6, by omega, by omega⟩

theorem socketPorts_nodup (i : Nat) : (socketPorts i).Nodup :=
  List.nodup_range.map (fun _ _ h => Nat.add_left_cancel h)

/-! ## The start of training (R79, R390) -/

/-- What a training attempt on a port shows of it: its state and its start, and the two things that it reads. -/
def attemptView (n : Nat) (s : State) : Nat × Option Nat × Nat × Nat :=
  (getF s R.prtPortStatus_state n, tget? s.prt.trainStart n, s.now, getF s R.bruFit_laserUsable)

theorem getF_startAttempt {f : Field} {u : Nat} (s : State) (n : Nat) (hs : fkey f u ≠ fkey R.prtPortStatus_state n)
    (ha : fkey f u ≠ fkey R.prtPortStatus_attempts n) : getF (startAttempt s n) f u = getF s f u := by
  unfold startAttempt
  split
  · exact getF_setF_ne _ _ hs
  · exact (getF_bumpF_ne _ _ ha).trans (getF_setF_ne _ _ hs)

theorem startAttempt_now (s : State) (n : Nat) : (startAttempt s n).now = s.now := by
  unfold startAttempt; split <;> rfl

theorem startAttempt_mode (s : State) (n : Nat) : (startAttempt s n).mode = s.mode := by
  unfold startAttempt; split <;> rfl

theorem startAttempt_other {s : State} {n b : Nat} (h : b ≠ n) : attemptView n (startAttempt s b) = attemptView n s := by
  have hstate : fkey R.prtPortStatus_state n ≠ fkey R.prtPortStatus_state b := fkey_unit_ne rfl (by decide) h.symm
  have htrain : tget? (startAttempt s b).prt.trainStart n = tget? s.prt.trainStart n := by
    unfold startAttempt
    split
    · rfl
    · exact (tget?_tset _ _ _ _).trans (if_neg h.symm)
  rw [attemptView, attemptView, getF_startAttempt s b hstate (fkey_ne_of_lo (by decide) _ _), htrain, startAttempt_now,
    getF_startAttempt s b (fkey_ne_of_lo (by decide) _ _) (fkey_ne_of_lo (by decide) _ _)]

theorem startAttempt_lit {s : State} {n : Nat} (h : laserOk s n = true) :
    attemptView n (startAttempt s n) = (1, some s.now, s.now, getF s R.bruFit_laserUsable) := by
  have hstate : getF (startAttempt s n) R.prtPortStatus_state n = 1 := by
    rw [startAttempt, if_neg (by simp [h])]
    exact (getF_bumpF_ne _ _ (fkey_ne_of_lo (by decide) _ _)).trans (getF_setF _ _ _ _)
  have htrain : tget? (startAttempt s n).prt.trainStart n = some s.now := by
    rw [startAttempt, if_neg (by simp [h])]
    exact (tget?_tset _ _ _ _).trans (if_pos rfl)
  rw [attemptView, hstate, htrain, startAttempt_now,
    getF_startAttempt s n (fkey_ne_of_lo (by decide) _ _) (fkey_ne_of_lo (by decide) _ _)]

/-- Attempts on several ports with light start each of them. -/
theorem startAttempts_spec {s : State} {l : List Nat} {n : Nat} (hl : l.Nodup) (hn : n ∈ l) (h : laserOk s n = true) :
    getF (forEach l startAttempt s) R.prtPortStatus_state n = 1 ∧
      tget? (forEach l startAttempt s).prt.trainStart n = some s.now := by
  have e := forEach_at (attemptView n) (v := (1, some s.now, s.now, getF s R.bruFit_laserUsable)) hl hn
    (fun b _ hb t => startAttempt_other hb) (fun t ht => by
      simp only [attemptView, Prod.mk.injEq] at ht
      obtain ⟨-, -, hnow, hlaser⟩ := ht
      rw [startAttempt_lit (by rwa [laserOk, hlaser]), hnow, hlaser])
  exact ⟨congrArg Prod.fst e, congrArg (fun x => x.2.1) e⟩

/-! ## A laser module put in or taken out (R78, R79, R392) -/

theorem getF_showLasers {f : Field} {u : Nat} (hp : fkey f u ≠ fkey R.bruFit_laserPresent 0)
    (hu : fkey f u ≠ fkey R.bruFit_laserUsable 0) (s : State) : getF (showLasers s) f u = getF s f u :=
  getF_setFs_ne _ _ (by simp [hp, hu])

/-- The laser module of a socket has been read, and its event raised. -/
def laserRead (s : State) (i : Nat) (m : LaserModule) : State :=
  raise (readLaser s i m) 0xB00C cPkg i (if laserUsable m then 1 else 3)

theorem laserRead_mode (s : State) (i : Nat) (m : LaserModule) : (laserRead s i m).mode = s.mode :=
  (raise_mode _ _ _ _ _).trans (setFs_mode _ _)

theorem laserRead_now (s : State) (i : Nat) (m : LaserModule) : (laserRead s i m).now = s.now :=
  (raise_now _ _ _ _ _).trans (by rw [readLaser, showLasers, (OnlyReg.setFs _ _).eq])

theorem laserRead_bits (s : State) {i : Nat} (hi : i < 4) (m : LaserModule) :
    bit (getF (laserRead s i m) R.bruFit_laserPresent) i = true ∧
    bit (getF (laserRead s i m) R.bruFit_laserUsable) i = laserUsable m := by
  rw [laserRead, getF_raise (by decide), getF_raise (by decide), readLaser]
  have h := showLasers_bits { s with att := { s.att with
    lasers := tset s.att.lasers i m, laserCtl := tset s.att.laserCtl i (laserFor m) } } hi
  simpa [tget?_tset] using h

theorem laserRead_enable (s : State) (i : Nat) (m : LaserModule) {n : Nat} (hn : n < 24) :
    onF (laserRead s i m) R.prtPortCtl_enable n = onF s R.prtPortCtl_enable n := by
  have he : ∀ n < 24, fkey R.prtPortCtl_enable n ∉ eventKeys := by decide
  rw [onF, laserRead, getF_raise (he n hn), readLaser, getF_showLasers (fkey_ne_of_lo (by decide) _ _) (fkey_ne_of_lo (by decide) _ _)]
  rfl

theorem laserInserted_eq (s : State) (i : Nat) (m : LaserModule) : laserInserted i m s =
    if laserUsable m then forEach ((socketPorts i).filter (fun n => onF (laserRead s i m) R.prtPortCtl_enable n)) startAttempt
      (laserRead s i m) else laserRead s i m := rfl

theorem laserInserted_spec (s : State) {i : Nat} (hi : i < 4) (m : LaserModule) : (laserInserted i m s).mode = s.mode ∧
    bit (getF (laserInserted i m s) R.bruFit_laserPresent) i = true ∧
    bit (getF (laserInserted i m s) R.bruFit_laserUsable) i = laserUsable m ∧
    (laserUsable m = true → ∀ n ∈ socketPorts i, onF s R.prtPortCtl_enable n = true →
      getF (laserInserted i m s) R.prtPortStatus_state n = 1 ∧
        tget? (laserInserted i m s).prt.trainStart n = some s.now) := by
  obtain ⟨hpresent, husable⟩ := laserRead_bits s hi m
  have hmode := laserRead_mode s i m
  rw [laserInserted_eq]
  split
  · next hok =>
    have hget : ∀ f ∈ [R.bruFit_laserPresent, R.bruFit_laserUsable], ∀ (l : List Nat) (t : State),
        getF (forEach l startAttempt t) f = getF t f := by
      intro f hf l t
      refine forEach_frame (fun t => getF t f) (fun t n => getF_startAttempt t n ?_ ?_) l t <;>
        exact fkey_ne_of_lo (by revert f; decide) _ _
    refine ⟨(forEach_frame State.mode startAttempt_mode _ _).trans hmode, by rwa [hget _ (by simp)], by rwa [hget _ (by simp)],
      fun _ n hn hen => ?_⟩
    have hsock := mem_socketPorts.mp hn
    rw [← laserRead_enable s i m (by omega)] at hen
    rw [← laserRead_now s i m]
    refine startAttempts_spec ((socketPorts_nodup i).filter _) (List.mem_filter.mpr ⟨hn, hen⟩) ?_
    rw [laserOk, hsock, husable, hok]
  · next hok => exact ⟨hmode, hpresent, husable, fun h => absurd h hok⟩

/-- What shows the sockets and the other ports is left by a port that goes down. -/
theorem getF_portDown_ne {f : Field} {u n : Nat} (hf : fkey f u ∈ portKeys) (hne : fkey f u ≠ fkey R.prtPortStatus_state n)
    (s : State) (cause st : Nat) : getF (portDown s n cause st) f u = getF s f u :=
  ((KeepsPorts.portDown s n cause st).keys f u hf).trans (getF_setF_ne _ _ hne)

theorem portState_mem_portKeys {n : Nat} (hn : n < 24) : fkey R.prtPortStatus_state n ∈ portKeys :=
  List.mem_append_right _ (List.mem_map_of_mem (List.mem_range.mpr hn))

theorem getF_portDown_state {n : Nat} (hn : n < 24) (s : State) (cause st : Nat) :
    getF (portDown s n cause st) R.prtPortStatus_state n = st % 8 :=
  ((KeepsPorts.portDown s n cause st).keys _ _ (portState_mem_portKeys hn)).trans (getF_setF _ _ _ _)

/-- Ports that lose their light show it, each port that was not off. -/
theorem portsDown_spec (s : State) {l : List Nat} (hl : l.Nodup) {n : Nat} (hn : n < 24) (hm : n ∈ l) :
    getF (forEach (l.filter (fun n => getF s R.prtPortStatus_state n != 0)) (fun s n => portDown s n 3 5) s)
      R.prtPortStatus_state n = if getF s R.prtPortStatus_state n = 0 then 0 else 5 := by
  have hother : ∀ b, b ≠ n → ∀ t, getF (portDown t b 3 5) R.prtPortStatus_state n = getF t R.prtPortStatus_state n :=
    fun b hb t => getF_portDown_ne (portState_mem_portKeys hn) (fkey_unit_ne rfl (by decide) hb.symm) t 3 5
  split
  · next h0 =>
    refine (forEach_frame_mem (fun t => getF t R.prtPortStatus_state n) (fun b hb t => hother b ?_ t) s).trans h0
    rintro rfl
    simp [h0] at hb
  · next h0 =>
    exact forEach_at (fun t => getF t R.prtPortStatus_state n) (hl.filter _) (List.mem_filter.mpr ⟨hm, by simpa using h0⟩)
      (fun b _ hb t => hother b hb t) (fun t _ => getF_portDown_state hn t 3 5)

/-- The laser module of a socket has failed or is gone, and its event is raised. -/
def laserGone (s : State) (i : Nat) (faulted : Bool) : State :=
  raise (if faulted then faultLaser s i else dropLaser s i) 0xB00C cPkg i (if faulted then 2 else 0)

theorem laserGone_bits (s : State) {i : Nat} (hi : i < 4) (faulted : Bool) :
    bit (getF (laserGone s i faulted) R.bruFit_laserPresent) i = (faulted && (tget? s.att.lasers i).isSome) ∧
    bit (getF (laserGone s i faulted) R.bruFit_laserUsable) i = false := by
  rw [laserGone, getF_raise (by decide), getF_raise (by decide)]
  cases faulted
  · have h := showLasers_bits { s with att := { s.att with
      lasers := tdel s.att.lasers i, laserCtl := tdel s.att.laserCtl i } } hi
    simpa [tget?_tdel, dropLaser] using h
  · have h := showLasers_bits { s with att := { s.att with laserCtl := tdel s.att.laserCtl i } } hi
    simpa [tget?_tdel, faultLaser] using h

theorem laserGone_state (s : State) (i : Nat) (faulted : Bool) {n : Nat} (hn : n < 24) :
    getF (laserGone s i faulted) R.prtPortStatus_state n = getF s R.prtPortStatus_state n := by
  have he : ∀ n < 24, fkey R.prtPortStatus_state n ∉ eventKeys := by decide
  rw [laserGone, getF_raise (he n hn)]
  split <;> exact getF_showLasers (fkey_ne_of_lo (by decide) _ _) (fkey_ne_of_lo (by decide) _ _) _

theorem laserGone_token (s : State) (i : Nat) (faulted : Bool) : (laserGone s i faulted).job.token = s.job.token := by
  rw [laserGone, raise_job]
  split <;> exact congrArg Job.token (setFs_job _ _)

theorem laserRemoved_spec (s : State) {i : Nat} (hi : i < 4) (faulted : Bool) (htoken : s.job.token = none) :
    bit (getF (afterSecured (laserRemoved i faulted s)) R.bruFit_laserPresent) i =
      (faulted && (tget? s.att.lasers i).isSome) ∧
    bit (getF (afterSecured (laserRemoved i faulted s)) R.bruFit_laserUsable) i = false ∧
    ∀ n ∈ socketPorts i, getF (afterSecured (laserRemoved i faulted s)) R.prtPortStatus_state n =
      (if getF s R.prtPortStatus_state n = 0 then 0 else 5) := by
  have hdown : laserRemoved i faulted s = forEach ((socketPorts i).filter
      (fun n => getF (laserGone s i faulted) R.prtPortStatus_state n != 0)) (fun s n => portDown s n 3 5)
      (laserGone s i faulted) := rfl
  have hnone : (laserRemoved i faulted s).job.token = none := by
    rw [hdown]
    exact (forEach_frame (fun t => t.job.token) (fun t n => (KeepsPorts.portDown t n 3 5).token) _ _).trans
      ((laserGone_token s i faulted).trans htoken)
  have hedge : KeepsKeys portKeys _ _ := (KeepsEdge.afterSecured hnone).mono portKeys_subset
  have hbits : ∀ f ∈ [R.bruFit_laserPresent, R.bruFit_laserUsable],
      getF (afterSecured (laserRemoved i faulted s)) f = getF (laserGone s i faulted) f := by
    intro f hf
    have hk : ∀ f ∈ [R.bruFit_laserPresent, R.bruFit_laserUsable], fkey f 0 ∈ portKeys ∧ f.lo % 64 ≠ 61 := by decide +kernel
    obtain ⟨hport, hlo⟩ := hk f hf
    rw [hedge f 0 hport, hdown]
    exact forEach_frame (fun t => getF t f) (fun t n => getF_portDown_ne hport (fkey_ne_of_lo hlo _ _) t 3 5) _ _
  obtain ⟨hpresent, husable⟩ := laserGone_bits s hi faulted
  refine ⟨by rwa [hbits _ (by simp)], by rwa [hbits _ (by simp)], fun n hn => ?_⟩
  have hn24 : n < 24 := by have := mem_socketPorts.mp hn; omega
  rw [hedge _ n (portState_mem_portKeys hn24), hdown, portsDown_spec _ (socketPorts_nodup i) hn24 hn, laserGone_state s i faulted hn24]

/-! ## The DIMMs (R81, R342) -/

theorem crossing_mode (s : State) (ch old new limit : Nat) : (crossing s ch old new limit).mode = s.mode := by
  unfold crossing
  split
  · exact raise_mode _ _ _ _ _
  · rfl

theorem getF_crossing {f : Field} {u : Nat} (h : fkey f u ∉ eventKeys) (s : State) (ch old new limit : Nat) :
    getF (crossing s ch old new limit) f u = getF s f u := by
  unfold crossing
  split
  · exact getF_raise h _ _ _ _ _
  · rfl

theorem dimmPoll_spec {s : State} {ch : Nat} (hch : ch < 8) (hpop : onF s R.lftChannel_populated ch = true) (temp : Int) :
    (dimmPoll ch temp s).mode = s.mode ∧ getF (dimmPoll ch temp s) R.lftChannel_tempC ch = min 255 temp.toNat ∧
      getF (dimmPoll ch temp s) R.lftChannel_refresh2x ch = b2n (decide (85 < temp)) ∧
      (95 < temp → bit (dimmPoll ch temp s).board.alerts 5 = true) := by
  have hkeys : ∀ ch < 8, fkey R.lftChannel_tempC ch ∉ eventKeys ∧ fkey R.lftChannel_refresh2x ch ∉ eventKeys := by decide
  obtain ⟨htemp, hrefresh⟩ := hkeys ch hch
  have hne : fkey R.lftChannel_tempC ch ≠ fkey R.lftChannel_refresh2x ch := fkey_ne_of_lo (by decide) _ _
  unfold dimmPoll
  rw [if_neg (by simp [hpop])]
  extract_lets new old a b
  have ha : a.mode = s.mode ∧ getF a R.lftChannel_tempC ch = min 255 new ∧
      getF a R.lftChannel_refresh2x ch = b2n (decide (85 < temp)) := by
    have h85 : decide (85 < new) = decide (85 < temp) := decide_eq_decide.mpr (by omega)
    refine ⟨rfl, ?_, ?_⟩
    · rw [getF_setF_ne _ _ hne, getF_setF]
      exact Nat.mod_eq_of_lt (by simp only [R.lftChannel_tempC]; omega)
    · rw [getF_setF, h85]
      exact Nat.mod_eq_of_lt (b2n_lt _)
  have hb : b.mode = s.mode ∧ getF b R.lftChannel_tempC ch = min 255 new ∧
      getF b R.lftChannel_refresh2x ch = b2n (decide (85 < temp)) := by
    simpa only [b, crossing_mode, getF_crossing htemp, getF_crossing hrefresh] using ha
  obtain ⟨hmode, ht, hr⟩ := hb
  split
  · exact ⟨hmode, ht, hr, fun _ => (bit_setBit _ _ _ _).trans (if_pos rfl)⟩
  · next h95 => exact ⟨hmode, ht, hr, fun h => absurd (show 95 < new by omega) h95⟩

/-- Settles O16: each command by what its change leaves; the ports of a laser module that goes are read through what their fall
and the end of a securing leave (`KeepsPorts.portDown`, `KeepsEdge.afterSecured`). -/
theorem boardEvents : Obligations.BoardEvents := by
  refine ⟨fun s hm hon => ?_, fun s hm hon => ?_, fun s m hm => ?_, fun s w pec hm hp => ?_, fun s w pec h => ?_, fun s a => ?_,
    fun s i => ⟨_, rfl, rfl, ?_⟩, fun s m hon => ?_, fun s faulted hon => ?_, fun s i m hi hon => ?_,
    fun s i faulted hi hon htoken _ => ?_, fun s ch temp hch hon hpop => ?_⟩
  · simp [exec, execClk25AonLost, hm, hon, setFs]
  · simp [exec, execClk25AonRestored, hm, hon, setFs]
  · obtain ⟨htelem, hmode, hnow, halerts⟩ := refresh_spec s m
    exact ⟨_, congrArg Host.Outcome.next (if_neg (by simpa using hm)), htelem, hmode, hnow, halerts⟩
  · exact ⟨_, congrArg Host.Outcome.next (if_neg (by simp [hm, hp])), rfl, fun i hi => bit_clearCauses s w hi⟩
  · exact congrArg Host.Outcome.next (if_pos (by simpa using h))
  · simp [exec, execI3cDynamicAddress]
  · simp [tapActs]
  · exact ⟨_, inModule_on hon, hostInserted_spec s m⟩
  · exact ⟨_, inModule_on hon, hostRemoved_spec s faulted⟩
  · exact ⟨_, onUnit_on hi hon, laserInserted_spec s hi m⟩
  · exact ⟨_, onUnit_on hi hon, laserRemoved_spec s hi faulted htoken⟩
  · exact ⟨_, onUnit_on hch hon, dimmPoll_spec hch hpop temp⟩

end Sys2Proof.Machine
end

section
/-! The statement on a team's forming and breaking: a frame from the partner, a HELLO, the beat, and each way a team breaks. -/
namespace Sys2Proof.Machine
open Sys2Proof

/-! ## A frame from the partner (R444, R445, R468) -/

/-- A valid frame of the partner has been heardTeam. -/
def heardTeam (s : State) : State := { s with team := { s.team with lastRx := s.now } }

/-- A frame from the partner runs, with the time of the last frame renewed. -/
theorem teamFrame_runs {s : State} {f : TeamFrame} {ty : Nat} (h : s.fromPartner f ty) (run : State → State)
    (w : List (Nat × WriteReport)) : teamFrame f ty s run w = .next (run (heardTeam s)) := by
  obtain ⟨hon, hport, hopen, hdrop, hudp, hform, hty, hteam, ⟨k, hkey, htag⟩, hsrc, hdst, hstaged⟩ := h
  have hteam' : (getF s R.pairStatus_team == 1 || teamFormed s) = true := by simpa [teamFormed] using hteam
  have hempty : (stagedOn (heardTeam s) f.rx.port).isEmpty = true := List.isEmpty_iff.mpr hstaged
  rw [teamFrame, inModule_on hon]
  refine congrArg Host.Outcome.next ?_
  rw [received, if_neg (by simp [hopen])]
  dsimp only
  rw [if_neg (by simp [hdrop]), if_pos hudp, if_neg (by simp [hport, hform, hty]), if_neg (by simp [hteam'])]
  split
  · next hnone => simp [hkey] at hnone
  · next k' hk' =>
    obtain rfl : k = k' := Option.some.inj (hkey.symm.trans hk')
    rw [if_neg (by simp [htag]), if_neg (by simp [hsrc, hdst])]
    exact if_pos hempty

theorem exec_hello {s : State} {f : TeamFrame} (h : s.fromPartner f 1) :
    exec (.hello f) s = .next (takeHello f (heardTeam s)) := teamFrame_runs h (takeHello f) []

theorem exec_beat {s : State} {f : TeamFrame} (h : s.fromPartner f 2) : exec (.beat f) s = .next (heardTeam s) :=
  teamFrame_runs h (fun s => s) []

theorem exec_bye {s : State} {f : TeamFrame} (h : s.fromPartner f 9) :
    exec (.bye f) s = .next (breakWith (heardTeam s) 4) :=
  teamFrame_runs h (fun s => breakWith s 4) []

/-! ## A team that breaks (R446) -/

/-- A formed team that breaks with no token held shows it, and its cause, whatever goes on then. -/
theorem breakWith_spec {s : State} (hteam : getF s R.pairStatus_team = 2) (htoken : s.job.token = none) {cause : Nat}
    (hc : cause < 16) : getF (breakWith s cause) R.pairStatus_team = 4 ∧ getF (breakWith s cause) R.pairStatus_cause = cause := by
  have hformed : teamFormed s = true := by simp [teamFormed, hteam]
  have hnone : (breakTeam s cause).job.token = none := by rw [breakTeam_job, htoken]
  have hedge : KeepsEdge _ (breakWith s cause) := (breakTeam_formed hformed cause).trans (KeepsEdge.afterSecured hnone)
  rw [hedge R.pairStatus_team 0 (by decide +kernel), hedge R.pairStatus_cause 0 (by decide +kernel)]
  simp (disch := decide) only [setFs, List.foldl_cons, List.foldl_nil, getF_setF_ne, getF_setF]
  exact ⟨rfl, Nat.mod_eq_of_lt hc⟩

theorem teamSilence_breaks {s : State} (hteam : getF s R.pairStatus_team = 2)
    (h : s.team.lastRx + 25 * getF s R.pairCtl_lossUs ≤ s.now) : teamSilence s = breakWith s 1 :=
  if_pos (by simp [teamFormed, hteam, h])

theorem senseLoss_breaks {s : State} (hteam : getF s R.pairStatus_team = 2) (h : getF s R.pairStatus_senseArmed = 1) :
    senseLoss s = breakWith s 3 :=
  if_pos (by simp [teamFormed, onF, hteam, h])

/-! ## A team refused (R443) -/

theorem refuseTeam_spec (s : State) (cause : Nat) : (refuseTeam s cause).mode = s.mode ∧ (refuseTeam s cause).job = s.job ∧
    getF (refuseTeam s cause) R.pairStatus_team = 3 ∧ getF (refuseTeam s cause) R.pairStatus_cause = cause % 16 := by
  refine ⟨(raise_mode _ _ _ _ _).trans (setFs_mode _ _), (raise_job _ _ _ _ _).trans (setFs_job _ _), ?_⟩
  simp (disch := decide) only [refuseTeam, getF_raise, setFs, List.foldl_cons, List.foldl_nil, getF_setF_ne, getF_setF]
  exact ⟨rfl, rfl⟩

theorem refuseCause_mod (s : State) : refuseCause s % 16 = (if (teamPorts s).all (portUpFull s) = true then
    (if s.team.obstacle = 0 then 6 else s.team.obstacle % 16) else 1) := by
  unfold refuseCause
  cases (teamPorts s).all (portUpFull s)
  · rfl
  · simp only [Bool.not_true, Bool.false_eq_true, if_false, if_true]
    split <;> rfl

/-! ## The beat (R443, R446) -/

/-- Frames sent one after another on several ports: nothing but the ports' queue changes, by one such frame for each. -/
theorem sendEach_spec (l : List Nat) (ftype : Nat) (payload : Bytes) (s : State) :
    let t := forEach l (fun t p => sendTeam t p ftype 0 0 0 0 payload) s
    t.reg = s.reg ∧ t.mem = s.mem ∧ t.mode = s.mode ∧ t.team = s.team ∧
      ∃ q, t.prt.queue = s.prt.queue ++ q ∧ q.map (fun o => o.port) = l ∧
        ∀ o ∈ q, ∃ g, o.body = .team g ∧ g.ftype = ftype ∧ g.payload = payload := by
  induction l generalizing s with
  | nil => exact ⟨rfl, rfl, rfl, rfl, [], by simp [forEach], rfl, by simp⟩
  | cons p l ih =>
    obtain ⟨hreg, hmem, hmode, hteam, q, hq, hports, hbody⟩ := ih (sendTeam s p ftype 0 0 0 0 payload)
    refine ⟨hreg, hmem, hmode, hteam, _ :: q, hq.trans (List.append_assoc _ [_] q), congrArg (p :: ·) hports, fun o ho => ?_⟩
    rcases List.mem_cons.mp ho with rfl | ho
    · exact ⟨_, rfl, rfl, rfl⟩
    · exact hbody o ho

theorem beatTimer_due {s : State} (hdue : s.team.lastBeat + 25 * getF s R.pairCtl_beatUs ≤ s.now)
    (hteam : getF s R.pairStatus_team = 1 ∨ getF s R.pairStatus_team = 2) :
    beatTimer s = sendBoth { s with team := { s.team with lastBeat := s.now } } (getF s R.pairStatus_team)
      (if getF s R.pairStatus_team = 1 then helloBody s else []) := by
  rw [beatTimer, if_neg (by omega)]
  rcases hteam with h | h <;> simp [h, teamFormed]

theorem beatTimer_idle {s : State} (h : s.now < s.team.lastBeat + 25 * getF s R.pairCtl_beatUs ∨
    (getF s R.pairStatus_team ≠ 1 ∧ getF s R.pairStatus_team ≠ 2)) : beatTimer s = s := by
  rcases h with h | ⟨h1, h2⟩
  · exact if_pos h
  · simp [beatTimer, teamFormed, h1, h2]

/-! ## A HELLO (R72, R443, R444) -/

/-- A bay of unknown number, on either side. -/
def bayUnknown (s : State) (b : Bytes) : Bool := getF s R.bruBayId_bayNumber == 0xFFFF || fieldAt b 18 2 == 0xFFFF

/-- The two modules share a feed, or may do so. -/
def feedTogether (s : State) (b : Bytes) : Bool :=
  bayUnknown s b || sharesFeed [getF s R.bruBayTags_feedTagA, getF s R.bruBayTags_feedTagB] [fieldAt b 24 4, fieldAt b 28 4]

/-- The two modules share a loop, or may do so. -/
def loopTogether (s : State) (b : Bytes) : Bool :=
  bayUnknown s b || getF s R.bruBayLoop_loopTag != 0 && getF s R.bruBayLoop_loopTag == fieldAt b 32 4

/-- TEAM_SENSE is armed: wired, and to the partner's bay (R75). -/
def senseTo (s : State) (b : Bytes) : Bool :=
  onF s R.bruBayId_teamSenseWired && fieldAt b 18 2 == getF s R.bruBayId_sensedBay

/-- What a HELLO tells of the partner stands in the registers, and the state of the team's ports. -/
def helloRead (s : State) (b : Bytes) : State := showTeamPorts (noteHello s b)

theorem getF_helloRead {f : Field} (hp : f.lo % 64 ≠ 20) (h0 : fkey f 0 ≠ fkey R.pairStatus_port0Up 0)
    (h1 : fkey f 0 ≠ fkey R.pairStatus_port1Up 0) (s : State) (b : Bytes) : getF (helloRead s b) f =
      getF (setFs s [(R.pairStatus_partnerBay, fieldAt b 18 2), (R.pairStatus_feedShared, b2n (feedTogether s b)),
        (R.pairStatus_loopShared, b2n (loopTogether s b)), (R.pairStatus_senseArmed, b2n (senseTo s b))]) f := by
  refine (getF_setFs_ne _ _ (by simp [h0, h1])).trans ?_
  exact forEach_frame (fun t => getF t f) (fun t c => getF_setF_ne t _ (fkey_ne_of_lo hp 0 c)) _ _

theorem helloRead_fields (s : State) (b : Bytes) : getF (helloRead s b) R.pairStatus_partnerBay = fieldAt b 18 2 ∧
    getF (helloRead s b) R.pairStatus_feedShared = b2n (feedTogether s b) ∧
    getF (helloRead s b) R.pairStatus_loopShared = b2n (loopTogether s b) ∧
    getF (helloRead s b) R.pairStatus_senseArmed = b2n (senseTo s b) ∧
    getF (helloRead s b) R.pairStatus_team = getF s R.pairStatus_team ∧
    onF (helloRead s b) R.pairCtl_strict = onF s R.pairCtl_strict := by
  simp (disch := decide) only [getF_helloRead, onF, setFs, List.foldl_cons, List.foldl_nil, getF_setF_ne, getF_setF,
    and_true]
  exact ⟨fieldAt_mod _ _ _, Nat.mod_eq_of_lt (b2n_lt _), Nat.mod_eq_of_lt (b2n_lt _), Nat.mod_eq_of_lt (b2n_lt _)⟩

theorem helloRead_mode (s : State) (b : Bytes) : (helloRead s b).mode = s.mode :=
  (setFs_mode _ _).trans ((forEach_frame State.mode (fun t c => setF_mode t _ c _) _ _).trans (setFs_mode _ _))

/-- What a HELLO tells of the partner, by its keys. -/
def helloKeys : List Nat := [fkey R.pairStatus_partnerBay 0, fkey R.pairStatus_feedShared 0, fkey R.pairStatus_loopShared 0,
  fkey R.pairStatus_senseArmed 0]

/-- A state that follows a HELLO read: the same mode, and what the HELLO told. -/
structure AfterHello (s t : State) : Prop where
  mode : t.mode = s.mode
  keys : KeepsKeys helloKeys s t

namespace AfterHello
variable {s t : State}

theorem noteObstacle (h : AfterHello s t) (f : TeamFrame) (cause : Nat) : AfterHello s (noteObstacle t f cause) := by
  unfold Machine.noteObstacle
  split
  · exact ⟨h.mode, h.keys.trans (.same rfl)⟩
  · exact h

theorem raise (h : AfterHello s t) (code coord d0 d1 : Nat) : AfterHello s (raise t code coord d0 d1) :=
  ⟨(raise_mode _ _ _ _ _).trans h.mode, h.keys.trans (.ofReg (.raise _ _ _ _ _) (by decide +kernel))⟩

theorem refuseTeam (h : AfterHello s t) (cause : Nat) : AfterHello s (refuseTeam t cause) :=
  AfterHello.raise ⟨(setFs_mode _ _).trans h.mode,
    h.keys.trans (.setFs (by simp only [List.map_cons, List.map_nil]; decide +kernel) _)⟩ _ _ _ _

/-- A write of a field that no HELLO tells. -/
theorem setF (h : AfterHello s t) {f : Field} (hf : fkey f 0 ∉ helloKeys) (v : Nat) : AfterHello s (setF t f 0 v) :=
  ⟨(setF_mode _ _ _ _).trans h.mode, h.keys.trans (.setF hf _ _)⟩

theorem formTeam (h : AfterHello s t) (free : Bool) : AfterHello s (formTeam t free) := by
  have hbuffers : AfterHello s
      { t with team := { t.team with allDirty := true, accessSeq := 0, lastRx := t.now, chunks := [] } } :=
    ⟨h.mode, h.keys.trans (.same rfl)⟩
  exact (hbuffers.setF (f := R.pairStatus_team) (by decide +kernel) 2).raise _ _ _ _

end AfterHello

theorem getF_noteObstacle (s : State) (f : TeamFrame) (cause : Nat) (g : Field) : getF (noteObstacle s f cause) g = getF s g := by
  unfold noteObstacle
  split <;> rfl

theorem formTeam_team (s : State) (free : Bool) : getF (formTeam s free) R.pairStatus_team = 2 :=
  (getF_raise (by decide) _ _ _ _ _).trans (getF_setF _ _ _ _)

/-- The group pages of a HELLO, a chip each. -/
def helloPages (b : Bytes) : List Nat := (List.range 8).map (fun c => fieldAt b (40 + 4 * c) 4)

/-- The mirrors' capacities of a HELLO, a chip each. -/
def helloCaps (b : Bytes) : List Nat := (List.range 8).map (fun c => fieldAt b (72 + 4 * c) 4)

/-- Bit 0 for a feed, bit 1 for a loop that the two modules share. -/
def helloBits (s : State) (b : Bytes) : Nat :=
  getF (helloRead s b) R.pairStatus_feedShared + 2 * getF (helloRead s b) R.pairStatus_loopShared

theorem helloBits_ne_zero_iff (s : State) (b : Bytes) : helloBits s b ≠ 0 ↔ (feedTogether s b || loopTogether s b) = true := by
  obtain ⟨-, hfeed, hloop, -⟩ := helloRead_fields s b
  rw [helloBits, hfeed, hloop]
  cases feedTogether s b <;> cases loopTogether s b <;> decide

/-- A HELLO has been read, and what the two modules share was reported. -/
def helloReported (s : State) (b : Bytes) : State :=
  when (helloBits s b != 0) (fun t => raise t 0xD00A cPkg (helloBits s b) (getF t R.pairStatus_partnerBay)) (helloRead s b)

theorem helloReported_after (s : State) (b : Bytes) : AfterHello (helloRead s b) (helloReported s b) := by
  have hread : AfterHello (helloRead s b) (helloRead s b) := ⟨rfl, .refl _⟩
  unfold helloReported when
  split
  · exact hread.raise _ _ _ _
  · exact hread

theorem helloReported_strict (s : State) (b : Bytes) : onF (helloReported s b) R.pairCtl_strict = onF s R.pairCtl_strict := by
  obtain ⟨-, -, -, -, -, hstrict⟩ := helloRead_fields s b
  refine (when_frame (fun t => onF t R.pairCtl_strict) (fun t => ?_) _ _).trans hstrict
  exact congrArg (· != 0) (getF_raise (by decide) _ _ _ _ _)

/-- What a HELLO with this plan tag makes of a team that forms. -/
theorem takeHello_forming {s : State} {f : TeamFrame} (hteam : getF s R.pairStatus_team = 1)
    (hplan : fieldAt f.payload 0 8 = getF s R.gtePlan_planTag) (hsrc : fieldAt f.payload 16 2 = f.srcModule) :
    takeHello f s =
      if !mirrorsFit (helloRead s f.payload) (helloPages f.payload) (helloCaps f.payload) then
        noteObstacle (helloRead s f.payload) f 4
      else if !(teamPorts (helloRead s f.payload)).all (portUpFull (helloRead s f.payload)) then helloRead s f.payload
      else if helloBits s f.payload ≠ 0 ∧ onF (helloReported s f.payload) R.pairCtl_strict then
        refuseTeam (helloReported s f.payload) 5
      else formTeam (helloReported s f.payload) (helloBits s f.payload == 0) := by
  rw [takeHello, if_neg (by simpa using hteam), if_neg (by simp [hplan, hsrc])]
  rfl

theorem takeHello_spec {s : State} {f : TeamFrame} (hteam : getF s R.pairStatus_team = 1)
    (hplan : fieldAt f.payload 0 8 = getF s R.gtePlan_planTag) (hsrc : fieldAt f.payload 16 2 = f.srcModule) :
    AfterHello (helloRead s f.payload) (takeHello f s) ∧ getF (takeHello f s) R.pairStatus_team =
      if (teamPorts (helloRead s f.payload)).all (portUpFull (helloRead s f.payload)) = true ∧
          mirrorsFit (helloRead s f.payload) (helloPages f.payload) (helloCaps f.payload) = true then
        (if (feedTogether s f.payload || loopTogether s f.payload) = true ∧ onF s R.pairCtl_strict = true then 3 else 2)
      else 1 := by
  obtain ⟨-, -, -, -, hstill, -⟩ := helloRead_fields s f.payload
  have hread : AfterHello (helloRead s f.payload) (helloRead s f.payload) := ⟨rfl, .refl _⟩
  have hreported := helloReported_after s f.payload
  rw [takeHello_forming hteam hplan hsrc, helloReported_strict]
  simp only [helloBits_ne_zero_iff]
  cases mirrorsFit (helloRead s f.payload) (helloPages f.payload) (helloCaps f.payload)
  case false => exact ⟨hread.noteObstacle f 4, by simp [getF_noteObstacle, hstill, hteam]⟩
  cases (teamPorts (helloRead s f.payload)).all (portUpFull (helloRead s f.payload))
  case false => exact ⟨hread, by simp [hstill, hteam]⟩
  by_cases hstrict : (feedTogether s f.payload || loopTogether s f.payload) = true ∧ onF s R.pairCtl_strict = true
  · obtain ⟨-, -, hrefused, -⟩ := refuseTeam_spec (helloReported s f.payload) 5
    simp only [hstrict]
    exact ⟨hreported.refuseTeam 5, hrefused⟩
  · simp only [hstrict]
    exact ⟨hreported.formTeam _, formTeam_team _ _⟩

/-- What a HELLO told stands after all that it leads to. -/
theorem takeHello_told {s : State} {f : TeamFrame} (h : AfterHello (helloRead s f.payload) (takeHello f s)) :
    (takeHello f s).mode = s.mode ∧ getF (takeHello f s) R.pairStatus_partnerBay = fieldAt f.payload 18 2 ∧
      getF (takeHello f s) R.pairStatus_feedShared = b2n (feedTogether s f.payload) ∧
      getF (takeHello f s) R.pairStatus_loopShared = b2n (loopTogether s f.payload) ∧
      getF (takeHello f s) R.pairStatus_senseArmed = b2n (senseTo s f.payload) := by
  obtain ⟨hbay, hfeed, hloop, hsense, -, -⟩ := helloRead_fields s f.payload
  exact ⟨h.mode.trans (helloRead_mode _ _), (h.keys _ _ (by decide +kernel)).trans hbay,
    (h.keys _ _ (by decide +kernel)).trans hfeed, (h.keys _ _ (by decide +kernel)).trans hloop,
    (h.keys _ _ (by decide +kernel)).trans hsense⟩

/-! ## What reads the registers alone -/

section congr
variable {s t : State} (h : t.reg = s.reg)
include h

theorem teamPorts_congr : teamPorts t = teamPorts s := by simp only [teamPorts, getF_congr h]

theorem portUpFull_congr : portUpFull t = portUpFull s := by funext n; simp only [portUpFull, getF_congr h]

theorem mirrorsFit_congr : mirrorsFit t = mirrorsFit s := by funext p c; simp only [mirrorsFit, getF_congr h]

end congr

/-- The time of the last frame shows in no register that a HELLO leads to. -/
theorem helloRead_heardTeam (s : State) (b : Bytes) : (helloRead (heardTeam s) b).reg = (helloRead s b).reg := rfl

/-- Settles O59: a frame from the partner runs on the state with its time renewed (`teamFrame_runs`); a HELLO by
`takeHello_spec`, a break by `breakWith_spec`, and a refusal by `refuseTeam_spec`. -/
theorem teamForms : Obligations.TeamForms := by
  refine ⟨fun s f hf hteam hplan hsrc => ?_, fun s hon h => ?_, fun s hon hdue hteam => ?_, fun s f hf => exec_beat hf,
    fun s hon hteam hdue => ?_, fun s hon hteam htoken hdue => ?_, fun s hon hteam htoken harmed => ?_,
    fun s f hf hteam htoken => ?_⟩
  · obtain ⟨hafter, hformed⟩ := takeHello_spec (s := heardTeam s) (f := f) hteam hplan hsrc
    obtain ⟨hmode, hbay, hfeed, hloop, hsense⟩ := takeHello_told hafter
    have hreg := helloRead_heardTeam s f.payload
    rw [teamPorts_congr hreg, portUpFull_congr hreg, mirrorsFit_congr hreg] at hformed
    exact ⟨_, exec_hello hf, hmode, hbay, hfeed, hloop, hsense, hformed⟩
  · exact (inModule_on hon).trans (congrArg _ (beatTimer_idle h))
  · obtain ⟨hreg, hmem, hmode, hlast, q, hq, hports, hbody⟩ := sendEach_spec
      ((teamPorts s).filter (portOpen s)) (getF s R.pairStatus_team) (if getF s R.pairStatus_team = 1 then helloBody s else [])
      { s with team := { s.team with lastBeat := s.now } }
    refine ⟨_, q, (inModule_on hon).trans (congrArg _ (beatTimer_due hdue hteam)), ?_⟩
    exact ⟨congrArg Team.lastBeat hlast, hreg, hmem, hmode, hq, hports, hbody⟩
  · obtain ⟨hmode, hjob, hrefused, hcause⟩ := refuseTeam_spec s (refuseCause s)
    exact ⟨_, (inModule_on hon).trans (congrArg _ (if_pos ⟨hteam, hdue⟩)), hrefused, hcause.trans (refuseCause_mod s), hmode, hjob⟩
  · exact ⟨_, (inModule_on hon).trans (congrArg _ (teamSilence_breaks hteam hdue)), breakWith_spec hteam htoken (by decide)⟩
  · exact ⟨_, (inModule_on hon).trans (congrArg _ (senseLoss_breaks hteam harmed)), breakWith_spec hteam htoken (by decide)⟩
  · exact ⟨_, exec_bye hf, breakWith_spec (s := heardTeam s) hteam htoken (by decide)⟩

end Sys2Proof.Machine
end

section
/-! The statements on bring-up: what every step keeps of the tables and their bounds, and the loft test of a bring-up that
stopped. -/
namespace Sys2Proof.Machine
open Sys2Proof

/-! ## The tables and the bounds (R104, R131, R132, R464) -/

/-- Settles O4: whatever command a step runs, its law (`exec_kept`) carries the order of the tables and the bounds over. -/
theorem stepKeepsTables : Obligations.StepKeepsTables :=
  ⟨fun _ _ hs h => (step_kept h).tables hs, fun _ _ hs h => (step_kept h).bounds hs⟩

/-! ## The loft test of a bring-up that stopped (R89, R94) -/

/-- A bring-up that stopped does nothing further (R94): the end of the loft test changes nothing. -/
theorem loftTest_stopped {s : State} (h : s.bring.stopped = true) (failed : List Nat) : loftTest failed s = s := by
  simp [loftTest, h]

/-- A cold bring-up in phase 4, its loft test under way. -/
def loftTestRunning : State :=
  setF { State.reset with mode := .bringup, board := { Board.reset with railsOn := true } } R.bruStatus_phase 0 4

/-- The same bring-up, stopped by a ZLV-20 that fails its known-answer run (R94, cause 8). -/
def loftTestStopped : State := stopBringup loftTestRunning 8

theorem loftTestStopped_state : loftTestStopped.board.railsOn = true ∧ loftTestStopped.mode = .bringup ∧
    loftTestStopped.bring.loftDone = false ∧ 4 ≤ getF loftTestStopped R.bruStatus_phase := by decide +kernel

/-- Refutes O17: its clause on LOFT_TEST_DONE leaves out that bring-up has not stopped. In `loftTestStopped` the command
changes nothing (`loftTest_stopped`), so that the loft test does not count as done. -/
theorem not_bringupPhases : ¬ Obligations.BringupPhases := by
  rintro ⟨-, -, hloft, -⟩
  obtain ⟨hon, hmode, hdone, hphase⟩ := loftTestStopped_state
  obtain ⟨t, hexec, htested, -, -⟩ := hloft loftTestStopped [] hon hmode hdone hphase
  have hrun : exec (.loftTestDone []) loftTestStopped = .next loftTestStopped :=
    (inModule_on hon).trans (congrArg _ (loftTest_stopped (stopBringup_stopped _ _) []))
  obtain rfl : loftTestStopped = t := Host.Outcome.next.inj (hrun.symm.trans hexec)
  exact Bool.false_ne_true (hdone.symm.trans htested)

end Sys2Proof.Machine
end

section
/-! The statement on the ledger and the limits of the dies, and what an event at most changes of the state they read. -/
namespace Sys2Proof.Machine
open Sys2Proof

/-! ## Fields that no event changes -/

/-- The first `n` units of a field lie in one stretch of keys that holds none that an event changes. -/
def Field.apartFromEvents (f : Field) (n : Nat) : Bool :=
  !f.paged && decide (0 < f.stride) && eventKeys.all (fun k => decide (k < fkey f 0) || decide (fkey f n ≤ k))

theorem unit_not_event {f : Field} {n u : Nat} (h : f.apartFromEvents n = true) (hu : u < n) : fkey f u ∉ eventKeys := by
  simp only [Field.apartFromEvents, Bool.and_eq_true, Bool.not_eq_true', decide_eq_true_eq, List.all_eq_true,
    Bool.or_eq_true] at h
  obtain ⟨⟨hp, hs⟩, hk⟩ := h
  intro m
  have hlt : f.stride * u < f.stride * n := Nat.mul_lt_mul_of_pos_left hu hs
  have := hk _ m
  simp only [fkey, unitOff, hp, Bool.false_eq_true, if_false] at this
  omega

/-- `t` is `s`, or `s` with one event raised. -/
def MayRaise (s t : State) : Prop := t = s ∨ ∃ code coord d0 d1, t = raise s code coord d0 d1

namespace MayRaise
variable {s t : State}

theorem refl (s : State) : MayRaise s s := .inl rfl

theorem raise (s : State) (code coord d0 d1 : Nat) : MayRaise s (raise s code coord d0 d1) := .inr ⟨code, coord, d0, d1, rfl⟩

theorem ite {c : Prop} [Decidable c] {a b : State} (ha : MayRaise s a) (hb : MayRaise s b) : MayRaise s (if c then a else b) := by
  split
  · exact ha
  · exact hb

/-- What no event changes is the same. -/
theorem frame {β : Type} (h : MayRaise s t) (g : State → β)
    (hg : ∀ s code coord d0 d1, g (Machine.raise s code coord d0 d1) = g s) : g t = g s := by
  rcases h with rfl | ⟨code, coord, d0, d1, rfl⟩
  · rfl
  · exact hg s code coord d0 d1

theorem gov (h : MayRaise s t) : t.gov = s.gov := h.frame State.gov raise_gov
theorem mode (h : MayRaise s t) : t.mode = s.mode := h.frame State.mode raise_mode
theorem job (h : MayRaise s t) : t.job = s.job := h.frame State.job raise_job
theorem rte (h : MayRaise s t) : t.rte = s.rte := h.frame State.rte raise_rte
theorem board (h : MayRaise s t) : t.board = s.board := h.frame State.board raise_board
theorem stalls (h : MayRaise s t) : t.stalls = s.stalls := h.frame State.stalls raise_stalls

theorem getF (h : MayRaise s t) {f : Field} {u : Nat} (hf : fkey f u ∉ eventKeys) : getF t f u = getF s f u :=
  h.frame (fun t => Machine.getF t f u) (getF_raise hf)

end MayRaise

/-! ## The correction of the ledger (R116) -/

/-- The correction term after one comparison, with its halving on the tenth in a row at least 2 % below the budget. -/
def correctedMw (s : State) (w : Nat) : Nat :=
  let c := s.gov.cMw + ceilDiv (12000000 * w * getF s R.pwrCost_effQ16 - ledger s * 65536) (12000 * 65536)
  if 100 * w ≤ 98 * getF s R.pwrBudget_budgetW ∧ s.gov.lowRuns + 1 = 10 then (if c / 2 < 1000 then 0 else c / 2) else c

theorem correct_spec (s : State) (w : Nat) : (correct s w).gov.cMw = correctedMw s w ∧ (correct s w).stalls = s.stalls ∧
    (correct s w).mode = s.mode ∧ (correct s w).gov.waitq = s.gov.waitq := by
  unfold correct
  extract_lets budget eff excess low g runs risen c hot n t
  have htenth : runs = 10 ↔ 100 * w ≤ 98 * budget ∧ g.lowRuns + 1 = 10 := by
    by_cases h : 100 * w ≤ 98 * budget <;> simp [runs, low, h]
  have hc : c = correctedMw s w := if_congr htenth rfl rfl
  split
  · simp only [raise_gov, raise_stalls, raise_mode]
    exact ⟨hc, rfl, rfl, rfl⟩
  · exact ⟨hc, rfl, rfl, rfl⟩

/-! ## The limits of the dies (R121) -/

/-- The state with one of a die's steps set, and the time of the change noted. -/
def dieStepped (s : State) (kind d : Nat) (f : Field) (v : Nat) : State := setF (stampDie s kind d) f d v

@[simp] theorem dieStepped_stalls (s : State) (kind d : Nat) (f : Field) (v : Nat) :
    (dieStepped s kind d f v).stalls = s.stalls := rfl

@[simp] theorem dieStepped_mode (s : State) (kind d : Nat) (f : Field) (v : Nat) : (dieStepped s kind d f v).mode = s.mode := rfl

theorem getF_dieStepped (s : State) (kind d : Nat) (f : Field) (v : Nat) :
    getF (dieStepped s kind d f v) f d = v % 2 ^ f.width := getF_setF _ f d v

theorem getF_dieStepped_ne (s : State) (kind d : Nat) {f g : Field} (v : Nat) (h : fkey g d ≠ fkey f d) :
    getF (dieStepped s kind d f v) g d = getF s g d := getF_setF_ne _ v h

theorem dieCurrentUp_passed {s : State} {d a : Nat} (hlim : getF s R.pwrDie_ilimA d < a) (hpass : diePassed s 0 d 50 = true)
    (hstep : getF s R.pwrDie_tI d < 7) : MayRaise
      (setAlert (dieStepped (setF s R.pwrDie_currentA d a) 0 d R.pwrDie_tI (getF s R.pwrDie_tI d + 1)) 4)
      (dieCurrentUp s d a) := by
  have hI := getF_setF_ne s a (fkey_ne_of_lo (f := R.pwrDie_tI) (g := R.pwrDie_currentA) (by decide) d d)
  have hL := getF_setF_ne s a (fkey_ne_of_lo (f := R.pwrDie_ilimA) (g := R.pwrDie_currentA) (by decide) d d)
  have hp : diePassed (setF s R.pwrDie_currentA d a) 0 d 50 = true := hpass
  simp only [dieCurrentUp, hI, hL, hlim, hp, hstep, and_self, if_true]
  exact .ite (.raise _ _ _ _ _) (.refl _)

theorem dieThermalUp_passed {s : State} {d tj : Nat} (hlim : getF s R.pwrDie_thermC d ≤ tj)
    (hpass : diePassed s 2 d 2500 = true) (hstep : getF s R.pwrDie_tT d < 7) : MayRaise
      (setAlert (dieStepped (setF s R.pwrDie_tjC d tj) 2 d R.pwrDie_tT (getF s R.pwrDie_tT d + 1)) 4)
      (dieThermalUp s d tj) := by
  have hT := getF_setF_ne s tj (fkey_ne_of_lo (f := R.pwrDie_tT) (g := R.pwrDie_tjC) (by decide) d d)
  have hL := getF_setF_ne s tj (fkey_ne_of_lo (f := R.pwrDie_thermC) (g := R.pwrDie_tjC) (by decide) d d)
  have hp : diePassed (setF s R.pwrDie_tjC d tj) 2 d 2500 = true := hpass
  simp only [dieThermalUp, hT, hL, hlim, hp, hstep, and_self, if_true]
  exact .ite (.raise _ _ _ _ _) (.refl _)

theorem dieDown_current {s : State} {d v : Nat} (hlim : 100 * v < 95 * getF s R.pwrDie_ilimA d)
    (hpass : diePassed s 1 d 2500 = true) (hstep : 0 < getF s R.pwrDie_tI d) : dieDown s d false v =
      dieStepped (setF s R.pwrDie_currentA d v) 1 d R.pwrDie_tI (getF s R.pwrDie_tI d - 1) := by
  have hI := getF_setF_ne s v (fkey_ne_of_lo (f := R.pwrDie_tI) (g := R.pwrDie_currentA) (by decide) d d)
  have hL := getF_setF_ne s v (fkey_ne_of_lo (f := R.pwrDie_ilimA) (g := R.pwrDie_currentA) (by decide) d d)
  have hp : diePassed (setF s R.pwrDie_currentA d v) 1 d 2500 = true := hpass
  simp [dieDown, hI, hL, hlim, hp, hstep, dieStepped]

theorem dieDown_thermal {s : State} {d v : Nat} (hlim : v + 5 < getF s R.pwrDie_thermC d)
    (hpass : diePassed s 3 d 25000 = true) (hstep : 0 < getF s R.pwrDie_tT d) : dieDown s d true v =
      dieStepped (setF s R.pwrDie_tjC d v) 3 d R.pwrDie_tT (getF s R.pwrDie_tT d - 1) := by
  have hT := getF_setF_ne s v (fkey_ne_of_lo (f := R.pwrDie_tT) (g := R.pwrDie_tjC) (by decide) d d)
  have hL := getF_setF_ne s v (fkey_ne_of_lo (f := R.pwrDie_thermC) (g := R.pwrDie_tjC) (by decide) d d)
  have hp : diePassed (setF s R.pwrDie_tjC d v) 3 d 25000 = true := hpass
  simp [dieDown, hT, hL, hlim, hp, hstep, dieStepped]

/-- What a rise leaves, of the current's step or of the temperature's: the step `f` is one higher, the measured value `m` shows,
and alert cause 4 is set, whether an event is raised or not. -/
theorem dieRise_spec {s t : State} {d kind a n : Nat} {m f : Field}
    (h : MayRaise (setAlert (dieStepped (setF s m d a) kind d f n) 4) t) (hm : fkey m d ∉ eventKeys)
    (hf : fkey f d ∉ eventKeys) (hne : fkey m d ≠ fkey f d) (ha : a < 2 ^ m.width) (hn : n < 2 ^ f.width) :
    getF t f d = n ∧ getF t m d = a ∧ bit t.board.alerts 4 = true ∧ t.stalls = s.stalls ∧ t.mode = s.mode := by
  refine ⟨?_, ?_, ?_, h.stalls, h.mode⟩
  · rw [h.getF hf, getF_setAlert, getF_dieStepped, Nat.mod_eq_of_lt hn]
  · rw [h.getF hm, getF_setAlert, getF_dieStepped_ne _ _ _ _ hne, getF_setF, Nat.mod_eq_of_lt ha]
  · rw [h.board, setAlert_alerts, bit_setBit, if_pos rfl]

/-- What a fall leaves: the step `f` is one lower, and the other limit's step `g` as it was. -/
theorem dieFall_spec (s : State) {d kind v n : Nat} {m f g : Field} (hgm : fkey g d ≠ fkey m d) (hgf : fkey g d ≠ fkey f d)
    (hn : n < 2 ^ f.width) : getF (dieStepped (setF s m d v) kind d f n) f d = n ∧
      getF (dieStepped (setF s m d v) kind d f n) g d = getF s g d := by
  rw [getF_dieStepped, Nat.mod_eq_of_lt hn, getF_dieStepped_ne _ _ _ _ hgf, getF_setF_ne _ _ hgm]
  exact ⟨rfl, rfl⟩

theorem diePark_first {s : State} {d p : Nat} (hstep : dieStep s d = 7)
    (hlim : getF s R.pwrDie_ilimA d < getF s R.pwrDie_currentA d)
    (hp : (parkOrder s).find? (fun q => dieOf q == d && !s.gov.toPark.any (fun r => r.1 == q)) = some p) :
    diePark s d = { s with gov := { s.gov with toPark := s.gov.toPark ++ [(p, true)] } } := by
  simp only [diePark, hstep, hlim, hp, and_self, if_true]

/-- Settles O22: the correction by `correct_spec`; a rise of a die's step by `dieRise_spec` and a fall by `dieFall_spec`, each for
the current and for the temperature; the stall a die parks by `diePark_first`. -/
theorem ledgerAndDies : Obligations.LedgerAndDies := by
  refine ⟨fun s w hon => ⟨_, inModule_on hon, correct_spec s w⟩, fun s d a hd hon ha hlim hpass hstep => ?_,
    fun s d tj hd hon htj hlim hpass hstep => ?_, fun s d v hd hon hlim hpass hpos hmax => ?_,
    fun s d v hd hon hlim hpass hpos hmax => ?_,
    fun s d p hd hon hstep hlim hp => (onUnit_on hd hon).trans (congrArg _ (diePark_first hstep hlim hp))⟩
  · exact ⟨_, onUnit_on hd hon, dieRise_spec (dieCurrentUp_passed hlim hpass hstep) (unit_not_event (by decide) hd)
      (unit_not_event (by decide) hd) (fkey_ne_of_lo (by decide) d d) ha (Nat.succ_lt_succ hstep)⟩
  · exact ⟨_, onUnit_on hd hon, dieRise_spec (dieThermalUp_passed hlim hpass hstep) (unit_not_event (by decide) hd)
      (unit_not_event (by decide) hd) (fkey_ne_of_lo (by decide) d d) htj (Nat.succ_lt_succ hstep)⟩
  · obtain ⟨hstepped, hother⟩ := dieFall_spec s (kind := 1) (v := v) (m := R.pwrDie_currentA) (f := R.pwrDie_tI)
      (g := R.pwrDie_tT) (fkey_ne_of_lo (by decide) d d) (fkey_ne_of_lo (by decide) d d)
      (show getF s R.pwrDie_tI d - 1 < 2 ^ 3 by omega)
    exact ⟨_, (onUnit_on hd hon).trans (congrArg _ (dieDown_current hlim hpass hpos)), hstepped, hother, rfl⟩
  · obtain ⟨hstepped, hother⟩ := dieFall_spec s (kind := 3) (v := v) (m := R.pwrDie_tjC) (f := R.pwrDie_tT)
      (g := R.pwrDie_tI) (fkey_ne_of_lo (by decide) d d) (fkey_ne_of_lo (by decide) d d)
      (show getF s R.pwrDie_tT d - 1 < 2 ^ 3 by omega)
    exact ⟨_, (onUnit_on hd hon).trans (congrArg _ (dieDown_thermal hlim hpass hpos)), hstepped, hother, rfl⟩

end Sys2Proof.Machine
end

section
/-! The statement on the governor: its tick, a written budget, and the steps of g. -/
namespace Sys2Proof.Machine
open Sys2Proof

/-! ## What the ledger reads (R109, R111, R114) -/

theorem tget?_map {α β : Type} (m : Tab α) (f : Nat → α → β) (k : Nat) :
    tget? (m.map (fun p => (p.1, f p.1 p.2))) k = (tget? m k).map (f k) := by
  induction m with
  | nil => rfl
  | cons p r ih =>
    rw [List.map_cons, tget?_cons, tget?_cons, ih]
    split
    · next h => rw [h]; rfl
    · rfl

section congr
variable {s t : State} (hreg : t.reg = s.reg) (hst : ∀ p, (getStall t p).st = (getStall s p).st)
  (hc : t.gov.cMw = s.gov.cMw)

include hreg hst in
theorem charge_congr (p : Nat) : charge t p = charge s p := by
  simp only [charge, hst, awakeCost, effStep, dieStep, getF_congr hreg]

include hreg hst hc in
theorem overBudget_congr : overBudget t = overBudget s := by
  have hledger : ledger t = ledger s := by
    simp only [ledger, funext (charge_congr hreg hst), hc, getF_congr hreg]
  have hallowance : allowance t = allowance s := by simp only [allowance, getF_congr hreg]
  rw [overBudget, overBudget, within, within, hledger, hallowance]

end congr

/-! ## A tick (R107, R110) -/

/-- The record of a stall with its idle ticks counted. -/
def idleCounted (s : State) (p : Nat) (t : Stall) : Stall :=
  if isRunning t && !(t.st == .awake && quiet s p) then { t with idleSince := s.now } else t

theorem idleCounted_st (s : State) (p : Nat) (t : Stall) : (idleCounted s p t).st = t.st := by
  unfold idleCounted; split <;> rfl

theorem countIdle_stalls (s : State) : (countIdle s).stalls = s.stalls.map (fun x => (x.1, idleCounted s x.1 x.2)) := by
  unfold countIdle idleCounted
  exact List.map_congr_left (fun x _ => by split <;> rfl)

theorem countIdle_st (s : State) (p : Nat) : (getStall (countIdle s) p).st = (getStall s p).st := by
  rw [getStall, getStall, tget, tget, countIdle_stalls, tget?_map]
  cases tget? s.stalls p with
  | none => rfl
  | some t => exact idleCounted_st s p t

/-- The state with the watch counter one tick on. -/
def ticked (s : State) : State := { s with now := (s.now + 1) % 2 ^ 64 }

theorem tick_railsOff {s : State} (h : s.board.railsOn = false) : tick s = ticked s := by simp [tick, ticked, h]

theorem tick_railsOn {s : State} (h : s.board.railsOn = true) :
    tick s = consider (accrue (lowerStep (raiseStep (applyBudget (countIdle (ticked s)))))) := by simp [tick, ticked, h]

theorem overBudget_counted (s : State) : overBudget (countIdle (ticked s)) = overBudget s :=
  overBudget_congr rfl (countIdle_st (ticked s)) rfl

theorem workOn_idle {s : State} (h : s.job.running = none) : workOn s = s := by rw [workOn, h]

/-- Outside OFF a tick is the governor's, when it leaves no command in progress. -/
theorem exec_governorTick {s : State} (hmode : s.mode ≠ .off) (hjob : (tick s).job.running = none) :
    exec .governorTick s = .next (tick s) := by
  have harm : exec .governorTick s = execGovernorTick s := rfl
  rw [harm, execGovernorTick, beq_eq_false_iff_ne.mpr hmode, if_neg Bool.false_ne_true, workOn_idle hjob]

/-! ## The steps of g, and grants, where nothing is to do (R115, R117 to R120) -/

theorem applyBudget_none {s : State} (h : s.gov.budgetNext = none) : applyBudget s = s := by rw [applyBudget, h]

/-- Within the budget, the stalls chosen for it run on. -/
theorem raiseStep_within {s : State} (h : overBudget s = false) : raiseStep s =
    { s with gov := { s.gov with excess := false, toPark := s.gov.toPark.filter (fun q => q.2) } } := by
  simp [raiseStep, h]

theorem raiseStep_over {s : State} (h : overBudget s = true) (hg : getF s R.pwrGov_g < 7) (hfirst : s.gov.excess = false) :
    raiseStep s = setG { s with gov := { s.gov with excess := true, lastRaise := s.now } } (getF s R.pwrGov_g + 1) := by
  simp [raiseStep, h, hg, hfirst]

theorem lowerStep_zero {s : State} (h : getF s R.pwrGov_g = 0) : lowerStep s = s := by simp [lowerStep, h]

theorem consider_empty {s : State} (h : s.gov.waitq = []) : consider s = s := by
  rw [consider, h, considerGo, ← h]

/-- What a tick leaves of the governor's state where nothing is to do. -/
def governedQuiet (g : Gov) : Gov :=
  { g with tokens := min 1200 (g.tokens + 24), excess := false, toPark := g.toPark.filter (fun q => q.2) }

/-- The parts of a tick, one after the other, in a state whose idle ticks are counted. -/
theorem govern_quiet {s : State} (hwait : s.gov.waitq = []) (hnext : s.gov.budgetNext = none) (hg : getF s R.pwrGov_g = 0)
    (hfits : overBudget s = false) : consider (accrue (lowerStep (raiseStep (applyBudget s)))) =
      { s with gov := governedQuiet s.gov } := by
  rw [applyBudget_none hnext, raiseStep_within hfits, lowerStep_zero (by exact hg), consider_empty (by exact hwait)]
  rfl

theorem tick_quiet {s : State} (hon : s.board.railsOn = true) (hwait : s.gov.waitq = []) (hnext : s.gov.budgetNext = none)
    (hg : getF s R.pwrGov_g = 0) (hfits : overBudget s = false) :
    tick s = { countIdle (ticked s) with gov := governedQuiet s.gov } :=
  (tick_railsOn hon).trans (govern_quiet hwait hnext hg ((overBudget_counted s).trans hfits))

/-! ## A fall of g (R120) -/

theorem setG_mayRaise (s : State) (g : Nat) : MayRaise (setF s R.pwrGov_g 0 g) (setG s g) := .raise _ _ _ _ _

/-- A fall of g comes with its event, and to 0 with no stall parked with another. -/
theorem lowerStep_falls {s : State} (hg : 0 < getF s R.pwrGov_g) (hwait : s.gov.waitq = [])
    (htime : s.gov.lastLower + 2500 ≤ s.now) (hroom : ledgerLower s * 65536 * 100 ≤ allowance s * 99) :
    MayRaise (setG { s with gov := { s.gov with lastLower := s.now } } (getF s R.pwrGov_g - 1)) (lowerStep s) := by
  simp only [lowerStep, hg, hwait, htime, hroom, List.isEmpty_nil, decide_true, Bool.and_self, if_true]
  exact .ite (.raise _ _ _ _ _) (.refl _)

theorem lowerStep_spec {s : State} (hg : 0 < getF s R.pwrGov_g) (hmax : getF s R.pwrGov_g ≤ 7) (hwait : s.gov.waitq = [])
    (htime : s.gov.lastLower + 2500 ≤ s.now) (hroom : ledgerLower s * 65536 * 100 ≤ allowance s * 99) :
    getF (lowerStep s) R.pwrGov_g = getF s R.pwrGov_g - 1 ∧ (lowerStep s).gov.lastLower = s.now ∧
      (lowerStep s).stalls = s.stalls ∧ (lowerStep s).mode = s.mode := by
  have hlast := lowerStep_falls hg hwait htime hroom
  have hset := setG_mayRaise { s with gov := { s.gov with lastLower := s.now } } (getF s R.pwrGov_g - 1)
  refine ⟨?_, congrArg Gov.lastLower (hlast.gov.trans hset.gov), hlast.stalls.trans hset.stalls, hlast.mode.trans hset.mode⟩
  rw [hlast.getF (by decide), hset.getF (by decide), getF_setF]
  exact Nat.mod_eq_of_lt (show getF s R.pwrGov_g - 1 < 2 ^ 3 by omega)

/-! ## A written budget (R117) -/

theorem budgetStatus_eq_zero_iff (s : State) (w : Nat) : budgetStatus s w = 0 ↔
    upStates s = true ∧ 1200 ≤ bits w 15 0 ∧ bits w 15 0 ≤ budgetCeiling s := by
  unfold budgetStatus
  cases upStates s <;> simp

/-- What shows the budget, what waits to become it, and the command in progress. -/
def budgetView (s : State) : Nat × Option Nat × Option Running :=
  (getF s R.pwrBudget_budgetW, s.gov.budgetNext, s.job.running)

theorem MayRaise.budgetView {s t : State} (h : MayRaise s t) : budgetView t = budgetView s := by
  simp only [Machine.budgetView, h.getF (f := R.pwrBudget_budgetW) (u := 0) (by decide), h.gov, h.job]

theorem setG_budgetView (s : State) (g : Nat) : budgetView (setG s g) = budgetView s := by
  rw [(setG_mayRaise s g).budgetView]
  simp only [budgetView, getF_setF_ne s g (show fkey R.pwrBudget_budgetW 0 ≠ fkey R.pwrGov_g 0 by decide), setF_gov, setF_job]

/-- The written budget is in force, and none waits. -/
theorem setBudget_budgetView (s : State) (b : Nat) : budgetView (setBudget s b) = (b % 2 ^ 16, none, s.job.running) := by
  have h : MayRaise (setF { s with gov := { s.gov with budgetNext := none } } R.pwrBudget_budgetW 0 b) (setBudget s b) :=
    .ite (.refl _) (.raise _ _ _ _ _)
  rw [h.budgetView]
  simp only [budgetView, getF_setF, setF_gov, setF_job]
  rfl

theorem raiseStep_budgetView (s : State) : budgetView (raiseStep s) = budgetView s := by
  unfold raiseStep
  split_ifs
  · rfl
  · rfl
  · exact setG_budgetView _ _
  · rfl

theorem lowerStep_budgetView (s : State) : budgetView (lowerStep s) = budgetView s := by
  unfold lowerStep
  split
  · exact (MayRaise.ite (.raise _ _ _ _ _) (.refl _)).budgetView.trans (setG_budgetView _ _)
  · rfl

theorem considerGo_budgetView (l : List WakeReq) (s : State) : budgetView (considerGo l s) = budgetView s := by
  induction l generalizing s with
  | nil => rfl
  | cons r l ih =>
    unfold considerGo
    split_ifs
    · exact ih s
    · exact ih (grant s r)
    · rfl

theorem consider_budgetView (s : State) : budgetView (consider s) = budgetView s :=
  considerGo_budgetView s.gov.waitq { s with gov := { s.gov with waitq := [] } }

theorem accrue_budgetView (s : State) : budgetView (accrue s) = budgetView s := rfl

/-- The next tick puts the written budget in force, whatever else it does. -/
theorem tick_budgetView {s : State} {b : Nat} (hon : s.board.railsOn = true) (hnext : s.gov.budgetNext = some b) :
    budgetView (tick s) = (b % 2 ^ 16, none, s.job.running) := by
  have hset : applyBudget (countIdle (ticked s)) = setBudget (countIdle (ticked s)) b := by
    rw [applyBudget, show (countIdle (ticked s)).gov.budgetNext = some b from hnext]
  rw [tick_railsOn hon, hset, consider_budgetView, accrue_budgetView, lowerStep_budgetView, raiseStep_budgetView,
    setBudget_budgetView]
  rfl

/-- Settles O19: the tick by `tick_quiet` and, with a budget written, by `tick_budgetView`; the steps of g by the equations of
`raiseStep` and by `lowerStep_spec`. -/
theorem governor : Obligations.Governor := by
  refine ⟨fun s hmode hon hwait hnext hjob hg hfits => ?_, fun s hmode hoff hjob => ?_, fun s w hon => ?_,
    fun s b hmode hon hnext hb hjob => ?_,
    fun s hon hover hg hfirst => (inModule_on hon).trans (congrArg _ (raiseStep_over hover hg hfirst)),
    fun s hon hfits => (inModule_on hon).trans (congrArg _ (raiseStep_within hfits)),
    fun s hon hg hmax hwait htime hroom => ⟨_, inModule_on hon, lowerStep_spec hg hmax hwait htime hroom⟩⟩
  · have htick := tick_quiet hon hwait hnext hg (by rw [overBudget, hfits]; rfl)
    exact (exec_governorTick hmode (by rw [htick]; exact hjob)).trans (congrArg _ htick)
  · have htick := tick_railsOff hoff
    exact (exec_governorTick hmode (by rw [htick]; exact hjob)).trans (congrArg _ htick)
  · exact (inModule_on hon).trans (congrArg _ (if_congr (budgetStatus_eq_zero_iff s w) rfl rfl))
  · obtain ⟨hbudget, hnone, hrunning⟩ : _ ∧ _ ∧ _ := by
      simpa only [budgetView, Prod.mk.injEq] using tick_budgetView hon hnext
    exact ⟨_, exec_governorTick hmode (hrunning.trans hjob), hbudget.trans (Nat.mod_eq_of_lt hb), hnone⟩

end Sys2Proof.Machine
end

section
/-! The statement on the power states of a stall: it wakes, starts its program, naps, sleeps and is parked. -/
namespace Sys2Proof.Machine
open Sys2Proof

/-! ## A stall wakes (R112, R113) -/

theorem getStall_congr {s t : State} (h : t.stalls = s.stalls) (p : Nat) : getStall t p = getStall s p := by
  rw [getStall, getStall, h]

/-- A barn's PLL that locks again changes the governor's state alone. -/
theorem relockPll_gov (s : State) (b : Nat) : ∃ g, relockPll s b = { s with gov := g } := by
  unfold relockPll
  split
  · exact ⟨_, rfl⟩
  · exact ⟨_, rfl⟩

/-- The state of a granted stall that wakes, before what waited for it resumes. -/
def woken (s : State) (p : Nat) : State :=
  setF (modStall (relockPll s (barnOf p)) p (fun t => { t with st := runState s p, granted := false, idleSince := s.now }))
    R.clkStall_parked p 0

section woken
variable (s : State) (p : Nat)

theorem getStall_woken : getStall (woken s p) p =
    { getStall s p with st := runState s p, granted := false, idleSince := s.now } := by
  obtain ⟨g, hg⟩ := relockPll_gov s (barnOf p)
  rw [woken, getStall_setF, getStall_modStall, hg]
  rfl

/-- What reads neither the registers nor the stalls nor the governor's state is as it was. -/
theorem woken_frame {β : Type} (f : State → β) (hf : ∀ s g l r, f { s with gov := g, stalls := l, reg := r } = f s) :
    f (woken s p) = f s := by
  obtain ⟨g, hg⟩ := relockPll_gov s (barnOf p)
  rw [woken, hg]
  exact hf s _ _ _

theorem woken_mode : (woken s p).mode = s.mode := woken_frame s p State.mode (fun _ _ _ _ => rfl)

theorem woken_job : (woken s p).job = s.job := woken_frame s p State.job (fun _ _ _ _ => rfl)

theorem woken_rte : (woken s p).rte = s.rte := woken_frame s p State.rte (fun _ _ _ _ => rfl)

theorem getChan_woken (c : Nat) : getChan (woken s p) c = getChan s c :=
  woken_frame s p (fun t => getChan t c) (fun _ _ _ _ => rfl)

theorem getF_woken : getF (woken s p) R.clkStall_parked p = 0 := getF_setF _ _ _ _

theorem getF_woken_ne {f : Field} {u : Nat} (h : fkey f u ≠ fkey R.clkStall_parked p) : getF (woken s p) f u = getF s f u := by
  obtain ⟨g, hg⟩ := relockPll_gov s (barnOf p)
  rw [woken, getF_setF_ne _ _ h, hg]
  rfl

theorem isRunning_woken : isRunning (getStall (woken s p) p) = true := by
  rw [getStall_woken]
  unfold isRunning runState
  dsimp only
  split_ifs <;> rfl

/-- A granted stall wakes; then its mover channel, its late frame's event and its program follow. -/
theorem wakeComplete_granted {s : State} {p : Nat} (hgrant : (getStall s p).granted = true)
    (hrest : isResting (getStall s p) = true) :
    wakeComplete s p = startProgram (showLate (unparkChan (woken s p) (64 + p)) p) p := by
  obtain ⟨g, hg⟩ := relockPll_gov s (barnOf p)
  simp only [wakeComplete, woken, hgrant, hrest, hg, Bool.and_self, if_true]
  rfl

end woken

/-! ## What follows a wake (R113, R284, R382, R476) -/

theorem unparkChan_working {s : State} {c : Nat} (h : (getChan s c).byPark = false) : unparkChan s c = s := by
  simp [unparkChan, h]

theorem showLate_none {s : State} {p : Nat} (h : (getStall s p).late = none) : showLate s p = s := by
  rw [showLate, h]

theorem startProgram_elsewhere {s : State} (h : s.mode ≠ .running) (p : Nat) : startProgram s p = s := by
  simp [startProgram, h]

theorem startProgram_starts {s : State} {p : Nat} (hmode : s.mode = .running) (hrun : isRunning (getStall s p) = true)
    (hbound : isBound s p = true) (hfresh : (getStall s p).started = false) (hidle : getF s R.genStall_idle p = 0) :
    startProgram s p = setF (setF (modStall s p (fun t => { t with started := true, regs := [], vregs := [] }))
      R.genStall_pc p 0) R.genStall_pass p 1 := by
  simp [startProgram, hmode, hrun, hbound, hfresh, onF, hidle]

theorem startProgram_rte (s : State) (p : Nat) : (startProgram s p).rte = s.rte := by
  unfold startProgram; dsimp only; split <;> rfl

theorem startProgram_job (s : State) (p : Nat) : (startProgram s p).job = s.job := by
  unfold startProgram; dsimp only; split <;> rfl

/-- What the start of a stall's program depends on is as it was. -/
structure KeepsStart (p : Nat) (s t : State) : Prop where
  reg : KeepsReg s t
  mode : t.mode = s.mode
  job : t.job = s.job
  rte : t.rte = s.rte
  st : (getStall t p).st = (getStall s p).st
  started : (getStall t p).started = (getStall s p).started

namespace KeepsStart
variable {p : Nat} {z s t : State}

theorem refl (s : State) : KeepsStart p s s := ⟨.refl s, rfl, rfl, rfl, rfl, rfl⟩

theorem trans (h : KeepsStart p z s) (k : KeepsStart p s t) : KeepsStart p z t :=
  ⟨h.reg.trans k.reg, k.mode.trans h.mode, k.job.trans h.job, k.rte.trans h.rte, k.st.trans h.st, k.started.trans h.started⟩

theorem unparkChan (s : State) (c : Nat) : KeepsStart p s (unparkChan s c) := by
  unfold Machine.unparkChan
  dsimp only
  split
  · exact ⟨.same rfl, rfl, rfl, rfl, rfl, rfl⟩
  · exact .refl s

theorem raise (s : State) (code coord d0 d1 : Nat) : KeepsStart p s (raise s code coord d0 d1) :=
  have h := getStall_congr (raise_stalls s code coord d0 d1) p
  ⟨.raise s _ _ _ _, raise_mode _ _ _ _ _, raise_job _ _ _ _ _, raise_rte _ _ _ _ _, by rw [h], by rw [h]⟩

theorem showLate (s : State) : KeepsStart p s (showLate s p) := by
  unfold Machine.showLate
  dsimp only
  split
  · exact .refl s
  · have hshown : KeepsStart p s (modStall s p (fun t => { t with late := none, wokenLate := true })) :=
      ⟨.same rfl, rfl, rfl, rfl, by rw [getStall_modStall], by rw [getStall_modStall]⟩
    split
    · exact hshown
    · exact hshown.trans (raise _ _ _ _ _)

theorem isRunning (h : KeepsStart p s t) : isRunning (getStall t p) = isRunning (getStall s p) := by
  simp only [Machine.isRunning, h.st]

theorem isBound (h : KeepsStart p s t) : isBound t p = isBound s p := by
  simp only [Machine.isBound, ownIndex, h.job, h.reg R.hrnStatus_moduleIndex 0 (by decide)]

end KeepsStart

/-- Of a stall that wakes, the state in which its program starts. -/
theorem wakeComplete_starts {s : State} {p : Nat} (hgrant : (getStall s p).granted = true)
    (hrest : isResting (getStall s p) = true) :
    ∃ t, KeepsStart p (woken s p) t ∧ wakeComplete s p = startProgram t p :=
  ⟨_, (KeepsStart.unparkChan _ _).trans (KeepsStart.showLate _), wakeComplete_granted hgrant hrest⟩

theorem wakesPlain_congr {s t : State} {p : Nat} (hrte : t.rte = s.rte) (hjob : t.job = s.job) (h : s.wakesPlain p) :
    t.wakesPlain p := by
  rwa [State.wakesPlain, hrte, hjob]

theorem wakeComplete_wakesPlain {s : State} {p : Nat} (hgrant : (getStall s p).granted = true)
    (hrest : isResting (getStall s p) = true) (h : s.wakesPlain p) : (wakeComplete s p).wakesPlain p := by
  obtain ⟨t, ht, hwake⟩ := wakeComplete_starts hgrant hrest
  rw [hwake]
  exact wakesPlain_congr ((startProgram_rte t p).trans (ht.rte.trans (woken_rte s p)))
    ((startProgram_job t p).trans (ht.job.trans (woken_job s p))) h

/-- No frame and no close waits for the stall: none is delivered. -/
theorem deliverLate_plain {s : State} {p : Nat} (h : s.wakesPlain p) : deliverLate s p = s := by
  obtain ⟨hlate, -⟩ := h
  simp only [List.any_eq_false, Bool.or_eq_true, beq_iff_eq, not_or] at hlate
  have hmine : s.rte.late.filter (fun x => x.1 == p) = [] := by simpa using fun a b hx => (hlate (a, b) hx).1
  have hothers : s.rte.late.filter (fun x => x.1 != p) = s.rte.late := by simpa using fun a b hx => (hlate (a, b) hx).1
  have hcloses : s.rte.late.filter (fun x => x.1 == 0xFFFF) = [] := by simpa using fun a b hx => (hlate (a, b) hx).2
  have hrest : s.rte.late.filter (fun x => x.1 != 0xFFFF) = s.rte.late := by simpa using fun a b hx => (hlate (a, b) hx).2
  simp only [deliverLate, hmine, hothers, forEach, List.foldl_nil, hcloses, hrest]

theorem writeWoken_plain {s : State} {p : Nat} (h : s.wakesPlain p) : writeWoken p s = s := by
  obtain ⟨-, hwrite⟩ := h
  exact if_pos (by rw [hwrite, Bool.not_false, Bool.or_true])

/-- Where nothing waits for the stall, its wake is all that happens. -/
theorem exec_stallWakeComplete {s : State} {p : Nat} (hp : p < 512) (hon : s.board.railsOn = true)
    (h : (wakeComplete s p).wakesPlain p) : exec (.stallWakeComplete p) s = .next (wakeComplete s p) := by
  have hwoken : stallWoken p s = wakeComplete s p := by
    simp only [stallWoken, deliverLate_plain h, ite_self]
  exact (onStall_on hp hon).trans (congrArg _ (by rw [hwoken, writeWoken_plain h]))

/-- A stall that wakes outside RUNNING, its channel not paused and no event due, does no more than wake. -/
theorem wakeComplete_rests {s : State} {p : Nat} (hgrant : (getStall s p).granted = true)
    (hrest : isResting (getStall s p) = true) (hmode : s.mode ≠ .running) (hlate : (getStall s p).late = none)
    (hchan : (getChan s (64 + p)).byPark = false) : wakeComplete s p = woken s p := by
  rw [wakeComplete_granted hgrant hrest, unparkChan_working ((congrArg Chan.byPark (getChan_woken s p _)).trans hchan),
    showLate_none ((congrArg Stall.late (getStall_woken s p)).trans hlate),
    startProgram_elsewhere (by rw [woken_mode]; exact hmode)]

/-- A bound stall that wakes in RUNNING starts its program at instruction 0. -/
theorem wakeComplete_running {s : State} {p : Nat} (hp : p < 512) (hgrant : (getStall s p).granted = true)
    (hrest : isResting (getStall s p) = true) (hmode : s.mode = .running) (hbound : isBound s p = true)
    (hfresh : (getStall s p).started = false) (hidle : getF s R.genStall_idle p = 0) :
    isRunning (getStall (wakeComplete s p) p) = true ∧ (getStall (wakeComplete s p) p).started = true ∧
      getF (wakeComplete s p) R.genStall_pc p = 0 ∧ getF (wakeComplete s p) R.genStall_pass p = 1 ∧
      getF (wakeComplete s p) R.clkStall_parked p = 0 := by
  obtain ⟨t, ht, hwake⟩ := wakeComplete_starts hgrant hrest
  have hrun : isRunning (getStall t p) = true := ht.isRunning.trans (isRunning_woken s p)
  have hboundt : isBound t p = true := by
    rw [ht.isBound, isBound, woken_job, ownIndex, getF_woken_ne s p (fkey_ne_of_lo (by decide) 0 p)]
    exact hbound
  have hidlet : getF t R.genStall_idle p = 0 := by
    rw [ht.reg _ _ (unit_not_event (n := 512) (by decide) hp), getF_woken_ne s p (fkey_ne_of_lo (by decide) p p), hidle]
  have hparked : getF t R.clkStall_parked p = 0 := by
    rw [ht.reg _ _ (unit_not_event (n := 512) (by decide) hp), getF_woken]
  rw [hwake, startProgram_starts (ht.mode.trans ((woken_mode s p).trans hmode)) hrun hboundt
    (ht.started.trans ((congrArg Stall.started (getStall_woken s p)).trans hfresh)) hidlet]
  refine ⟨?_, ?_, ?_, getF_setF _ _ _ _, ?_⟩
  · rw [getStall_setF, getStall_setF, getStall_modStall]; exact hrun
  · rw [getStall_setF, getStall_setF, getStall_modStall]
  · rw [getF_setF_ne _ _ (fkey_ne_of_lo (by decide) p p), getF_setF]; rfl
  · rw [getF_setF_ne _ _ (fkey_ne_of_lo (by decide) p p), getF_setF_ne _ _ (fkey_ne_of_lo (by decide) p p),
      getF_modStall, hparked]

/-! ## A stall naps and sleeps (R110) -/

/-- The state of a stall that enters NAP for want of work. -/
def napped (s : State) (p : Nat) : State :=
  { modStall s p (fun t => { t with st := .nap, napSince := s.now }) with
    gov := { s.gov with granted := s.gov.granted.filter (fun q => q != p) }
    cal := { s.cal with fresh := s.cal.fresh.filter (fun q => q != p) } }

theorem napStall_idle {s : State} {p : Nat} (hst : (getStall s p).st = .awake) (hwork : hasWork s p = false)
    (hlinger : (getStall s p).linger = none) (hpin : getF s R.clkStall_pinAwake p = 0)
    (htime : (getStall s p).idleSince + max 1 (getF s R.clkIdle_napIdle) ≤ s.now) : napStall s p = napped s p := by
  have hquiet : quiet s p = true := by simp [quiet, hwork, lingerOver, hlinger, onF, hpin]
  exact if_pos (by simp only [hst, hquiet, htime, decide_true, Bool.and_true, beq_self_eq_true])

theorem napped_spec (s : State) (p : Nat) : (getStall (napped s p) p).st = .nap ∧
    (getStall (napped s p) p).napSince = s.now ∧ (napped s p).reg = s.reg ∧ (napped s p).mem = s.mem ∧
    ∀ q, q ≠ p → getStall (napped s p) q = getStall s q := by
  have hstalls : (napped s p).stalls = (modStall s p (fun t => { t with st := .nap, napSince := s.now })).stalls := rfl
  refine ⟨?_, ?_, rfl, rfl, fun q hq => ?_⟩
  · rw [getStall_congr hstalls, getStall_modStall]
  · rw [getStall_congr hstalls, getStall_modStall]
  · rw [getStall_congr hstalls, getStall_modStall_ne _ _ hq]

theorem sleepStall_napping {s : State} {p : Nat} (hst : (getStall s p).st = .nap) (hgrant : (getStall s p).granted = false)
    (hsleep : getF s R.clkStall_noSleep p = 0) (htime : (getStall s p).napSince + getF s R.clkIdle_sleepIdle ≤ s.now) :
    sleepStall s p = modStall s p (fun t => { t with st := .sleep }) := by
  simp [sleepStall, hst, hgrant, onF, hsleep, htime]

/-! ## A stall is parked (R119) -/

/-- The module with the mover channel of a stall paused and its tiles' idle re-trims aborted. -/
def workHeld (s : State) (p : Nat) : State :=
  forEach (List.range 34) (fun s t => abortIdle s (34 * p + t)) (pauseChan s (64 + p) true)

/-- What neither a pause of a channel nor an aborted re-trim changes is the same. -/
theorem workHeld_frame {β : Type} (g : State → β) (hmovs : ∀ s m, g { s with movs := m } = g s)
    (hcal : ∀ s c r, g { s with cal := c, reg := r } = g s) (s : State) (p : Nat) : g (workHeld s p) = g s := by
  have hpause : g (pauseChan s (64 + p) true) = g s := by
    unfold pauseChan
    dsimp only
    split
    · exact hmovs s _
    · rfl
  refine (forEach_frame g (fun t a => ?_) _ _).trans hpause
  unfold abortIdle
  split
  · exact hcal t _ _
  · rfl

theorem workHeld_gov (s : State) (p : Nat) : (workHeld s p).gov = s.gov :=
  workHeld_frame State.gov (fun _ _ => rfl) (fun _ _ _ => rfl) s p

theorem workHeld_now (s : State) (p : Nat) : (workHeld s p).now = s.now :=
  workHeld_frame State.now (fun _ _ => rfl) (fun _ _ _ => rfl) s p

theorem workHeld_mode (s : State) (p : Nat) : (workHeld s p).mode = s.mode :=
  workHeld_frame State.mode (fun _ _ => rfl) (fun _ _ _ => rfl) s p

/-- The governor's state once a stall is parked: it is no longer among those chosen, and the episode has one more. -/
def parkedGov (s : State) (p : Nat) : Gov :=
  { s.gov with
    toPark := s.gov.toPark.filter (fun q => q.1 != p), granted := s.gov.granted.filter (fun q => q != p)
    episode := (if parkedCount s = 0 then 0 else s.gov.episode) + 1 }

/-- The state with a stall entered into NAP as parked, before its event and its wake request. -/
def parkedNap (s : State) (p : Nat) (g : Gov) : State :=
  { setF (modStall s p (fun t => { t with st := .nap, napSince := s.now, granted := false })) R.clkStall_parked p 1
    with gov := g }

theorem getStall_parkedNap (s : State) (p : Nat) (g : Gov) :
    getStall (parkedNap s p g) p = { getStall s p with st := .nap, napSince := s.now, granted := false } := by
  have h : (parkedNap s p g).stalls =
    (modStall s p (fun t => { t with st := .nap, napSince := s.now, granted := false })).stalls := rfl
  rw [getStall_congr h, getStall_modStall]

theorem parkedNap_now (s : State) (p : Nat) (g : Gov) : (parkedNap s p g).now = s.now := rfl

theorem parkedNap_mode (s : State) (p : Nat) (g : Gov) : (parkedNap s p g).mode = s.mode := rfl

theorem getF_parkedNap (s : State) (p : Nat) (g : Gov) : getF (parkedNap s p g) R.clkStall_parked p = 1 :=
  getF_setF (modStall s p _) R.clkStall_parked p 1

theorem parkStall_chosen {s : State} {p : Nat} {die : Bool}
    (hchosen : s.gov.toPark.find? (fun q => q.1 == p) = some (p, die)) (hturn : parksNow s p die = true)
    (hrun : isRunning (getStall s p) = true) : ∃ t, MayRaise (parkedNap (workHeld s p) p (parkedGov s p)) t ∧
      parkStall s p = requestWake t p .program die := by
  refine ⟨_, .raise _ 0x2003 (cStall p) (b2n die) (if parkedCount s = 0 then 0 else s.gov.episode), ?_⟩
  have hgov := workHeld_gov s p
  unfold workHeld at hgov
  simp only [parkStall, hchosen, hrun, hturn, Bool.not_true, Bool.false_eq_true, if_false, setF_gov, modStall_gov, hgov]
  rfl

theorem parkStall_spec {s : State} {p : Nat} {die : Bool} (hp : p < 512)
    (hchosen : s.gov.toPark.find? (fun q => q.1 == p) = some (p, die)) (hturn : parksNow s p die = true)
    (hrun : isRunning (getStall s p) = true) (hwait : s.gov.waitq.any (fun q => q.stall == p) = false) :
    (getStall (parkStall s p) p).st = .nap ∧ getF (parkStall s p) R.clkStall_parked p = 1 ∧
      (parkStall s p).gov = { parkedGov s p with waitq := insertWake s.gov.waitq ⟨p, s.now, .program, false, die⟩ } ∧
      (parkStall s p).mode = s.mode := by
  obtain ⟨t, ht, hpark⟩ := parkStall_chosen hchosen hturn hrun
  have hstall := (getStall_congr ht.stalls p).trans (getStall_parkedNap (workHeld s p) p (parkedGov s p))
  have hgov : t.gov = parkedGov s p := ht.gov
  have hnow : t.now = s.now := by rw [ht.frame State.now raise_now, parkedNap_now, workHeld_now]
  have hmode : t.mode = s.mode := by rw [ht.mode, parkedNap_mode, workHeld_mode]
  have hparked : getF t R.clkStall_parked p = 1 := by
    rw [ht.getF (unit_not_event (n := 512) (by decide) hp), getF_parkedNap]
  rw [hpark, requestWake_resting .program die (by rw [hstall]; rfl) (by rw [hstall]) (by rw [hgov]; exact hwait), hgov, hnow]
  exact ⟨congrArg Stall.st hstall, hparked, rfl, hmode⟩

/-- Settles O21: a wake by `wakeComplete_rests` and `wakeComplete_running`, a nap by `napStall_idle`, a sleep by
`sleepStall_napping`, a parking by `parkStall_spec`. -/
theorem stallPower : Obligations.StallPower := by
  refine ⟨fun s p hp hon hgrant hrest hmode hlate hchan hplain => ?_,
    fun s p hp hon hgrant hrest hmode hbound hfresh hidle hplain =>
      ⟨_, exec_stallWakeComplete hp hon (wakeComplete_wakesPlain hgrant hrest hplain),
        wakeComplete_running hp hgrant hrest hmode hbound hfresh hidle⟩,
    fun s p hp hon hst hwork hlinger hpin htime =>
      ⟨_, (onStall_on hp hon).trans (congrArg _ (napStall_idle hst hwork hlinger hpin htime)), napped_spec s p⟩,
    fun s p hp hon hst hgrant hsleep htime =>
      (onStall_on hp hon).trans (congrArg _ (sleepStall_napping hst hgrant hsleep htime)),
    fun s p die hp hon hchosen hturn hrun hwait => ?_⟩
  · exact (exec_stallWakeComplete hp hon (wakeComplete_wakesPlain hgrant hrest hplain)).trans
      (congrArg _ (wakeComplete_rests hgrant hrest hmode hlate hchan))
  · obtain ⟨hst, hparked, hgov, hmode⟩ := parkStall_spec hp hchosen hturn hrun hwait
    exact ⟨_, onStall_on hp hon, hst, hparked, congrArg Gov.waitq hgov, congrArg Gov.toPark hgov,
      congrArg Gov.episode hgov, hmode⟩

end Sys2Proof.Machine
end

section
/-! What the module's control frames leave unchanged, and what a control frame in sequence does (R126, R129, R131, R132). -/
namespace Sys2Proof.Machine
-- As one text the file leaves little memory for threads, so what follows is elaborated in turn.
set_option Elab.async false
open Sys2Proof

/-! ## Frames that are sent or wait -/

/-- The state `s` with the egress queue and the numbered frames of `t`. -/
def withSends (s t : State) : State :=
  { s with prt := { s.prt with queue := t.prt.queue }
           ses := { s.ses with nextSeq := t.ses.nextSeq, unacked := t.ses.unacked, waiting := t.ses.waiting
                               carried := t.ses.carried } }

/-- From `s` to `t` frames to the host are queued, sent or acknowledged, and nothing else moves. -/
structure OnlySends (s t : State) : Prop where
  eq : t = withSends s t

theorem OnlySends.refl (s : State) : OnlySends s s := ⟨rfl⟩

theorem OnlySends.trans {s t u : State} (h : OnlySends s t) (k : OnlySends t u) : OnlySends s u :=
  ⟨(k.eq.trans (congrArg (withSends · u) h.eq)).trans rfl⟩

section
variable {s t : State} (h : OnlySends s t)
include h

theorem OnlySends.reg : t.reg = s.reg := (congrArg State.reg h.eq).trans rfl
theorem OnlySends.mem : t.mem = s.mem := (congrArg State.mem h.eq).trans rfl
theorem OnlySends.mode : t.mode = s.mode := (congrArg State.mode h.eq).trans rfl
theorem OnlySends.now : t.now = s.now := (congrArg State.now h.eq).trans rfl
theorem OnlySends.job : t.job = s.job := (congrArg State.job h.eq).trans rfl
theorem OnlySends.upd : t.upd = s.upd := (congrArg State.upd h.eq).trans rfl
theorem OnlySends.board : t.board = s.board := (congrArg State.board h.eq).trans rfl
theorem OnlySends.stalls : t.stalls = s.stalls := (congrArg State.stalls h.eq).trans rfl
theorem OnlySends.pend : t.pend = s.pend := (congrArg State.pend h.eq).trans rfl
theorem OnlySends.team : t.team = s.team := (congrArg State.team h.eq).trans rfl
theorem OnlySends.key : t.ses.key = s.ses.key := (congrArg (fun t => t.ses.key) h.eq).trans rfl
theorem OnlySends.expect : t.ses.expect = s.ses.expect := (congrArg (fun t => t.ses.expect) h.eq).trans rfl
theorem OnlySends.lastRx : t.ses.lastRx = s.ses.lastRx := (congrArg (fun t => t.ses.lastRx) h.eq).trans rfl
theorem OnlySends.peer : t.ses.peer = s.ses.peer := (congrArg (fun t => t.ses.peer) h.eq).trans rfl
theorem OnlySends.lastId : t.ses.lastId = s.ses.lastId := (congrArg (fun t => t.ses.lastId) h.eq).trans rfl
theorem OnlySends.lastNote : t.ses.lastNote = s.ses.lastNote := (congrArg (fun t => t.ses.lastNote) h.eq).trans rfl
theorem OnlySends.challenge : t.ses.challenge = s.ses.challenge := (congrArg (fun t => t.ses.challenge) h.eq).trans rfl

theorem OnlySends.getF (f : Field) (u : Nat) : getF t f u = getF s f u := getF_congr h.reg f u

end

theorem OnlySends.sendNow (s : State) (c : CtlOut) : OnlySends s (sendNow s c) := ⟨rfl⟩

theorem OnlySends.sendNumbered (s : State) (c : CtlOut) : OnlySends s (sendNumbered s c) := by
  unfold Machine.sendNumbered
  split
  · exact ⟨rfl⟩
  · split
    · exact .sendNow s c
    · exact ⟨rfl⟩

theorem OnlySends.drainGo (n : Nat) (s : State) : OnlySends s (drainGo n s) := by
  induction n generalizing s with
  | zero => exact .refl s
  | succ n ih =>
    unfold Machine.drainGo
    split
    · exact ⟨rfl⟩
    · split
      · next c r _ _ =>
        have hdrop : OnlySends s { s with ses := { s.ses with waiting := r } } := ⟨rfl⟩
        exact (hdrop.trans (.sendNow _ c)).trans (ih _)
      · exact ⟨rfl⟩

theorem OnlySends.takeAck (s : State) (n : Nat) : OnlySends s (takeAck s n) :=
  .trans (t := { s with ses := { s.ses with unacked := s.ses.unacked.filter (fun u => !decide (u.frame.seq ≤ n)) } }) ⟨rfl⟩
    (.drainGo _ _)

theorem OnlySends.forEach {α : Type} {f : State → α → State} (hf : ∀ s a, OnlySends s (f s a)) (l : List α) (s : State) :
    OnlySends s (forEach l f s) := by
  induction l generalizing s with
  | nil => exact .refl s
  | cons a l ih => exact (hf s a).trans (ih (f s a))

/-- What a valid tag changes beside the frames acknowledged and sent on: the time last heard, and the peer (R129, R400). -/
theorem heard_onlySends (s : State) (f : CtlFrame) :
    OnlySends { s with ses := { s.ses with lastRx := s.now, peer := f.rx.src } } (heard s f) := .takeAck _ _

theorem takeAck_unacked_of_waiting_nil {s : State} (h : s.ses.waiting = []) (n : Nat) :
    (takeAck s n).ses.unacked = s.ses.unacked.filter (fun u => decide (n < u.frame.seq)) := by
  have hgo : takeAck s n =
      { s with ses := { s.ses with unacked := s.ses.unacked.filter (fun u => !decide (u.frame.seq ≤ n)) } } := by
    simp [takeAck, drainWaiting, drainGo, h]
  refine (congrArg (fun t => t.ses.unacked) hgo).trans (List.filter_congr fun u _ => ?_)
  simp [← decide_not]

/-! ## The newest frames -/

theorem lastCtl_outCtl (s : State) (d : NetAddr) (c : CtlOut) : (outCtl s d c).lastCtl = some (d, c) := by
  simp [State.lastCtl, outCtl, enqueue]

theorem numbered_sendNumbered (s : State) (c : CtlOut) : (sendNumbered s c).numbered = s.numbered ++ [(c.ftype, c.body)] := by
  by_cases hopen : sessionOpen s = true
  · by_cases hroom : (s.ses.waiting.isEmpty && decide (s.ses.unacked.length < 64)) = true
    · have hsent : sendNumbered s c = sendNow s c := by simp [sendNumbered, hopen, hroom]
      have hwait : s.ses.waiting = [] := by simpa using (Bool.and_eq_true_iff.mp hroom).1
      have hkeep : sessionOpen (sendNow s c) = true := hopen
      rw [hsent, State.numbered, State.numbered, if_pos hkeep, if_pos hopen]
      simp [sendNow, hwait]
    · have hwaits : sendNumbered s c = { s with ses := { s.ses with waiting := s.ses.waiting ++ [c] } } := by
        simp only [sendNumbered, hopen, hroom]; rfl
      have hkeep : sessionOpen (sendNumbered s c) = true := hwaits ▸ hopen
      simp [State.numbered, hkeep, hopen]
      simp [hwaits]
  · have hcarried : sendNumbered s c = { s with ses := { s.ses with carried := s.ses.carried ++ [c] } } := by
      simp [sendNumbered, hopen]
    have hkeep : ¬ sessionOpen (sendNumbered s c) = true := hcarried ▸ hopen
    simp [State.numbered, hkeep, hopen]
    simp [hcarried]

theorem numbered_last_sendNumbered (s : State) (c : CtlOut) :
    (sendNumbered s c).numbered.getLast? = some (c.ftype, c.body) := by
  rw [numbered_sendNumbered, List.getLast?_concat]

theorem numbered_sendCompletion (s : State) (c : CmdRec) (status detail : Nat) :
    (sendCompletion s c status detail).numbered = s.numbered ++ [(0x30, completionBody c status detail)] :=
  numbered_sendNumbered _ _

theorem answers_respond (s : State) (f : CtlFrame) (b : Bytes) : (respond s f b).answers f b :=
  ⟨getF s R.ctlState_sessionId, lastCtl_outCtl _ _ _⟩

/-! ## Frames that the host port takes in (R126, R128, R131, R401) -/

theorem received_of_hears {s : State} {f : CtlFrame} {ty : Nat} (h : s.hears f ty) (g : State → State) :
    received s f.rx (getF s R.hstCtl_controlUdp) g = g s := by
  obtain ⟨-, hport, hopen, hkept, hudp, -⟩ := h
  simp [received, hport, hopen, hkept, hudp]

theorem openingFrame_of_hears {s : State} {f : CtlFrame} {ty : Nat} (h : s.hears f ty) (run : State → State) :
    openingFrame s f ty run = run s := by
  rw [openingFrame, received_of_hears h]
  obtain ⟨-, hport, -, -, -, hform, hty⟩ := h
  simp [hport, hform, hty]

theorem sessionFrame_of_takes {s : State} {f : CtlFrame} {ty : Nat} (h : s.takes f ty) (run : State → State) :
    sessionFrame s f ty run = run (s.inOrder f) := by
  obtain ⟨hhears, hauth, hahead⟩ := h
  have hnext : seqAhead (heard s f) f = 0 := by rw [seqAhead, (heard_onlySends s f).expect]; exact hahead
  rw [sessionFrame, received_of_hears hhears]
  obtain ⟨-, hport, -, -, -, hform, hty⟩ := hhears
  simp [hport, hform, hty, hauth, sequence, hnext, State.inOrder]

/-! ## Events and the queue of control frames -/

theorem lastCtl_congr {s t : State} (h : t.prt.queue = s.prt.queue) : t.lastCtl = s.lastCtl := by
  rw [State.lastCtl, State.lastCtl, h]

theorem lastCtl_sendTeam (s : State) (port ftype step page group chunk : Nat) (payload : Bytes) :
    (sendTeam s port ftype step page group chunk payload).lastCtl = s.lastCtl := by
  simp [State.lastCtl, sendTeam, enqueue]

theorem lastCtl_streamPage (s : State) (p : Page) : (streamPage s p).lastCtl = s.lastCtl := by
  have hpage : ∀ t src step group page, (sendPage t src step group page).lastCtl = t.lastCtl := fun t _ _ _ _ =>
    forEach_frame State.lastCtl (fun _ _ => lastCtl_sendTeam _ _ _ _ _ _ _ _) _ t
  unfold streamPage
  extract_lets n base j src s1 s2 s3 s4 s5
  calc (setPage s5 { p with home := true, sentAt := some s5.now }).lastCtl
    _ = s5.lastCtl := lastCtl_congr rfl
    _ = s4.lastCtl := when_frame State.lastCtl (fun _ => hpage _ _ _ _ _) _ s4
    _ = s.lastCtl := lastCtl_congr rfl

theorem lastCtl_protect (s : State) (a n : Nat) : (protect s a n).lastCtl = s.lastCtl :=
  forEach_frame State.lastCtl (fun t p => by
    unfold protectPage
    split
    · rfl
    · exact lastCtl_streamPage t p) _ s

theorem lastCtl_write (s : State) (a : Nat) (b : Bytes) : (write s a b).lastCtl = s.lastCtl := lastCtl_protect s a b.length

theorem lastCtl_raise (s : State) (code coord d0 d1 : Nat) : (raise s code coord d0 d1).lastCtl = s.lastCtl := by
  rcases raise_cases s code coord d0 d1 with e | ⟨-, r, e⟩ | ⟨-, r, e⟩ <;> rw [e]
  · unfold logEvent
    split <;> rfl
  · unfold ringEvent
    dsimp only
    split
    · rfl
    · exact lastCtl_write s _ _

@[simp] theorem setFs_ses (s : State) (l : List (Field × Nat)) : (setFs s l).ses = s.ses :=
  forEach_frame State.ses (fun t (p : Field × Nat) => setF_ses t p.1 0 p.2) l s

/-! ## The end of a session (R129) -/

/-- The session that stood open in `s` has ended in `t`; the mode, the job and the last frame queued are as before. -/
structure SessionEnded (s t : State) : Prop where
  closed : sessionOpen t = false
  open_zero : getF t R.ctlState_sessionOpen = 0
  id_zero : getF t R.ctlState_sessionId = 0
  slot_none : getF t R.secStatus_sessionSlot = 7
  mode : t.mode = s.mode
  job : t.job = s.job
  lastId : t.ses.lastId = s.ses.lastId
  lastCtl : t.lastCtl = s.lastCtl

theorem closeSession_ended {s : State} (h : sessionOpen s = true) (cause : Nat) : SessionEnded s (closeSession s cause) := by
  rw [closeSession, h, Bool.not_true, if_neg Bool.false_ne_true]
  extract_lets t kept r u
  constructor
  case closed => simp [sessionOpen, u, r, Session.reset]
  case open_zero | id_zero | slot_none =>
    simp (disch := decide) only [setFs, List.foldl_cons, List.foldl_nil, getF_setF_ne, getF_setF]
    rfl
  case mode => simp [u, t]
  case job => simp [u, t]
  case lastId => simp [u, t]
  case lastCtl => exact lastCtl_raise s _ _ _ _

/-! ## The statements on event notes and timers -/

/-- A frame that is sent again: one more try, and twice the wait (R132). -/
def sentAgain (s : State) (u : Unacked) : Unacked :=
  { u with tries := u.tries + 1, due := s.now + 25 * getF s R.ctlTimers_retxUs * 2 ^ (u.tries + 1) }

/-- Settles O12: the note goes out as a numbered frame exactly under the three conditions. -/
theorem eventNotes : Obligations.EventNotes := by
  refine ⟨fun s hon hopen hnew hdue => ?_, fun s a hon hlast hsoon => ?_, fun s hon hquiet => ?_⟩
  · have hdue' : (match s.ses.lastNote with
        | none => true
        | some a => decide (a + getF s R.ctlEvtStatus_noteTicks ≤ s.now)) = true := by
      cases hlast : s.ses.lastNote with
      | none => rfl
      | some a => exact decide_eq_true (hdue a hlast)
    have hsends := OnlySends.sendNumbered { s with ses := { s.ses with lastNote := some s.now } }
      (ctlFrame s 0x31 0 0 (leBytes 4 (getF s R.ctlEvtProducer_producer) ++ leBytes 4 (getF s R.ctlEvtStatus_dropped)))
    refine ⟨_, ?_, hsends.lastNote, hsends.reg, hsends.mem, numbered_sendNumbered _ _⟩
    refine (inModule_on hon).trans (congrArg Host.Outcome.next ?_)
    unfold eventNote
    extract_lets p due
    have hdue : due = true := hdue'
    rw [if_pos (by simp [hopen, hnew, hdue, p])]
  · refine (inModule_on hon).trans (congrArg Host.Outcome.next ?_)
    rw [eventNote]
    simp [hlast, Nat.not_le.mpr hsoon]
  · refine (inModule_on hon).trans (congrArg Host.Outcome.next ?_)
    rw [eventNote]
    rcases hquiet with hclosed | hsame
    · simp [hclosed]
    · simp [hsame]

/-- Settles O25: the idle time, the retransmission and the BUSY completion. -/
theorem sessionTimers : Obligations.SessionTimers := by
  refine ⟨fun s hon hopen hidle => ?_, fun s u r hon hun hdue htries => ?_, fun s u r hon hopen hun hdue htries => ?_,
    fun s r hon hrun hbusy hlong => ?_⟩
  · obtain ⟨hc, ho, hi, -, hm, hj, -, -⟩ := closeSession_ended hopen 3
    refine ⟨_, (inModule_on hon).trans ?_, hc, ho, hi, hm, hj⟩
    rw [if_pos (by simp [hopen, hidle])]
  · have hagain : retransmit s = outCtl { s with ses := { s.ses with unacked := sentAgain s u :: r } } s.ses.peer u.frame := by
      simp only [retransmit, hun, Nat.not_lt.mpr hdue, Nat.not_le.mpr htries, if_false]
      rfl
    exact ⟨_, sentAgain s u, (inModule_on hon).trans (congrArg _ hagain), rfl, rfl, rfl, rfl, lastCtl_outCtl _ _ _, rfl, rfl⟩
  · obtain ⟨hc, ho, -, -, hm, -, -, -⟩ := closeSession_ended hopen 4
    refine ⟨_, (inModule_on hon).trans ?_, hc, ho, hm⟩
    simp [retransmit, hun, Nat.not_lt.mpr hdue, htries]
  · set u : State := { s with job := { s.job with running := some { r with busy := true } } }
    set t := sendCompletion u r.cmd 1 0
    have hsends : OnlySends u t := .sendNumbered _ _
    refine ⟨t, (inModule_on hon).trans ?_, (congrArg Job.running hsends.job).trans rfl, hsends.reg, hsends.mem,
      numbered_sendCompletion u r.cmd 1 0, ?_⟩
    · simp [commandBusy, hrun, hbusy, Nat.not_lt.mpr hlong, t, u]
    · have hran : t.job.running = some { r with busy := true } := congrArg Job.running hsends.job
      refine (inModule_on (by rw [hsends.board]; exact hon)).trans ?_
      simp [commandBusy, hran]

/-! ## The frames of an open session -/

theorem inOrder_eq (s : State) (f : CtlFrame) : OnlySends
    { s with ses := { s.ses with lastRx := s.now, peer := f.rx.src, expect := (s.ses.expect + 1) % 2 ^ 32 } }
    (s.inOrder f) := by
  have h := heard_onlySends s f
  refine ⟨?_⟩
  rw [State.inOrder, h.expect]
  exact (congrArg (fun t : State => { t with ses := { t.ses with expect := (s.ses.expect + 1) % 2 ^ 32 } }) h.eq).trans rfl

theorem session_command {s : State} {f : CtlFrame} {ty : Nat} (h : s.takes f ty) (run : State → State) :
    inModule s (fun s => sessionFrame s f ty run) = .next (run (s.inOrder f)) :=
  (inModule_on h.1.1).trans (congrArg _ (sessionFrame_of_takes h run))

theorem sessionOpen_of_authentic {s : State} {f : CtlFrame} (h : authentic s f = true) : sessionOpen s = true := by
  unfold authentic at h
  split at h
  · cases h
  · next k hk => simp [sessionOpen, hk]

theorem opsHeld_congr {s t : State} (h : t.upd = s.upd) (l : List AccOp) : opsHeld t l = opsHeld s l := by
  simp only [opsHeld, linkHeld, linkDown, h]

theorem lastCtl_lastFrom_outCtl (s : State) (udp : Nat) (d : NetAddr) (c : CtlOut) :
    (lastFrom udp (outCtl s d c)).lastCtl = some (d, c) := by
  simp [State.lastCtl, lastFrom, outCtl, enqueue]

theorem answers_answerAccess {f : CtlFrame} {l : List AccOp} (h : accessOps f.body = some l)
    (w : List (Nat × WriteReport)) (s : State) : (answerAccess f w s).answers f (runOps s 0 l w).2 := by
  rw [answerAccess, h]
  exact ⟨_, lastCtl_lastFrom_outCtl _ _ _ _⟩

section
variable {s : State} {f : CtlFrame} {l : List AccOp} (hops : accessOps f.body = some l)
  (htag : f.planTag = 0 ∨ f.planTag = getF s R.gtePlan_planTag) (hheld : s.upd.heldAccess = [])
include hops htag hheld

theorem accessFrame_held (hdown : opsHeld s l = true) (w : List (Nat × WriteReport)) :
    accessFrame f w s = { s with upd := { s.upd with heldAccess := [(f, w)] } } := by
  have htag' : ¬ (f.planTag ≠ 0 ∧ f.planTag ≠ getF s R.gtePlan_planTag) := fun h => htag.elim h.1 h.2
  simp only [accessFrame, hops, if_neg htag', hdown, true_or, if_true, hheld, List.nil_append]

theorem accessFrame_runs (hdown : ¬ opsHeld s l = true) (w : List (Nat × WriteReport)) :
    accessFrame f w s = answerAccess f w s := by
  have htag' : ¬ (f.planTag ≠ 0 ∧ f.planTag ≠ getF s R.gtePlan_planTag) := fun h => htag.elim h.1 h.2
  simp [accessFrame, hops, htag', hdown, hheld]

end

/-- Settles O24: each frame of the session in sequence, from the state it takes effect in. -/
theorem sessionFrames : Obligations.SessionFrames := by
  refine ⟨fun s f h => ?_, fun s f h => ?_, fun s f l w h hops htag hheld => ?_, fun s f h => ?_⟩
  · have hin := inOrder_eq s f
    exact ⟨_, session_command h _, answers_respond _ f [], hin.expect, hin.lastRx, hin.peer, hin.key, hin.reg, hin.mem,
      hin.mode, hin.job⟩
  · have hin := inOrder_eq s f
    refine ⟨_, session_command h _, answers_respond _ f [], hin.expect, hin.lastRx, hin.key, hin.reg, hin.mem, hin.mode,
      fun hwait => ?_⟩
    exact takeAck_unacked_of_waiting_nil (s := { s with ses := { s.ses with lastRx := s.now, peer := f.rx.src } }) hwait f.ack
  · have hin := inOrder_eq s f
    have htag' : f.planTag = 0 ∨ f.planTag = getF (s.inOrder f) R.gtePlan_planTag := by rwa [hin.getF]
    have hheld' : (s.inOrder f).upd.heldAccess = [] := (congrArg Upd.heldAccess hin.upd).trans hheld
    have hdown' : opsHeld (s.inOrder f) l = opsHeld s l := opsHeld_congr hin.upd l
    refine ⟨_, session_command h _, ?_⟩
    rw [← hdown']
    split
    · next hdown =>
      rw [accessFrame_held hops htag' hheld' hdown]
      exact ⟨rfl, hin.mem, hin.reg⟩
    · next hdown =>
      rw [accessFrame_runs hops htag' hheld' hdown]
      refine ⟨answers_answerAccess hops w _, ?_⟩
      rw [answerAccess, hops]
      exact ⟨rfl, rfl, rfl⟩
  · have hin := inOrder_eq s f
    have hopen : sessionOpen (respond (s.inOrder f) f []) = true :=
      (congrArg Option.isSome hin.key).trans (sessionOpen_of_authentic h.2.1)
    obtain ⟨hc, ho, hi, hslot, hm, hj, hid, hlast⟩ := closeSession_ended hopen 1
    refine ⟨_, session_command h _, ?_, hc, ho, hi, hslot, hm.trans hin.mode, hj.trans hin.job, hid.trans hin.lastId⟩
    obtain ⟨id, hid⟩ := answers_respond (s.inOrder f) f []
    exact ⟨id, hlast.trans hid⟩

/-! ## The session's opening -/

theorem freshId_spec (s : State) : freshId s ≠ 0 ∧ freshId s ≠ s.ses.lastId ∧ freshId s < 2 ^ 32 := by
  unfold freshId
  extract_lets v c
  cases hfind : c.find? (fun x => x != 0 && x != s.ses.lastId) with
  | some x =>
    have hgood := List.find?_some hfind
    have hmem := List.mem_of_find?_eq_some hfind
    simp [c, v] at hgood hmem
    simp
    omega
  | none =>
    simp [c, v] at hfind
    omega

theorem setSlot_onlyReg (s : State) (i : Nat) (k : KeySlot) :
    OnlyReg { s with nv := { s.nv with slots := s.nv.slots.set i k } } (setSlot s i k) :=
  (OnlyReg.setFs _ _).trans (.forEach (fun t i => .setF t _ i _) _ _)

theorem claim_frame (s : State) (c : Challenge) :
    (claim s c).ses = s.ses ∧ (claim s c).mode = s.mode ∧ (claim s c).now = s.now := by
  unfold claim
  split
  · rw [(setSlot_onlyReg s 0 _).eq]
    exact ⟨rfl, rfl, rfl⟩
  · exact ⟨rfl, rfl, rfl⟩

theorem closeSession_frame (s : State) (cause : Nat) : (closeSession s cause).ses.lastId = s.ses.lastId ∧
    (closeSession s cause).mode = s.mode ∧ (closeSession s cause).now = s.now := by
  by_cases h : sessionOpen s = true
  · have he := closeSession_ended h cause
    refine ⟨he.lastId, he.mode, ?_⟩
    rw [closeSession, h, Bool.not_true, if_neg Bool.false_ne_true]
    exact (congrArg State.now (OnlyReg.setFs _ _).eq).trans (raise_now _ _ _ _ _)
  · simp [closeSession, h]

/-- What the bring-up log's way to the event ring leaves unchanged (R104, R130). -/
structure LogAppended (s t : State) : Prop where
  mode : t.mode = s.mode
  ses : t.ses = { s.ses with firstAfterReady := t.ses.firstAfterReady }
  reg : KeepsReg s t

theorem appendLog_appended (s : State) : LogAppended s (appendLog s) := by
  unfold appendLog
  split
  · constructor
    · exact forEach_frame State.mode (fun t r => (OnlyStores.ringEvent t r).mode) _ _
    · rw [forEach_frame State.ses (fun t r => (OnlyStores.ringEvent t r).ses)]
    · exact .trans (.same rfl) (.forEach (fun t r => .ringEvent t r) _ _)
  · exact ⟨rfl, rfl, .refl s⟩

/-- A session has been opened at `s` with the sender of `f` (R127, R129, R466). -/
structure SessionOpened (s t : State) (f : CtlFrame) : Prop where
  mode : t.mode = s.mode
  opened : sessionOpen t = true
  challenge : t.ses.challenge = none
  expect : t.ses.expect = 1
  lastRx : t.ses.lastRx = s.now
  peer : t.ses.peer = f.rx.src
  shown : getF t R.ctlState_sessionOpen = 1
  id_shown : getF t R.ctlState_sessionId = t.ses.lastId
  id_pos : 0 < t.ses.lastId
  id_lt : t.ses.lastId < 2 ^ 32
  id_new : t.ses.lastId ≠ s.ses.lastId

theorem accept_opened (s : State) (f : CtlFrame) (c : Challenge) : SessionOpened s (accept s f c) f := by
  unfold accept
  extract_lets td ks s0 id slot carried r s1 s2 s3 s4
  obtain ⟨hses, hmode, hnow⟩ := claim_frame (closeSession s 2) c
  obtain ⟨hid, hmode', hnow'⟩ := closeSession_frame s 2
  have hsends : OnlySends s3 (forEach carried sendNumbered s4) :=
    .trans (t := s4) ⟨rfl⟩ (.forEach (fun t c => .sendNumbered t c) _ _)
  have hlog := appendLog_appended s2
  have hses3 : s3.ses = { s1.ses with firstAfterReady := (appendLog s2).ses.firstAfterReady } :=
    (raise_ses _ _ _ _ _).trans (hlog.ses.trans (by rw [setFs_ses]))
  have hshown : ∀ g, fkey g 0 ∉ eventKeys → getF (forEach carried sendNumbered s4) g = getF s2 g := fun g hg =>
    (hsends.getF g 0).trans ((getF_raise hg _ _ _ _ _).trans (hlog.reg g 0 hg))
  have hnew : id ≠ 0 ∧ id ≠ s.ses.lastId ∧ id < 2 ^ 32 := by
    have h := freshId_spec s0
    rwa [hses, hid] at h
  have hlastId : (forEach carried sendNumbered s4).ses.lastId = id := hsends.lastId.trans (congrArg Session.lastId hses3)
  constructor
  case mode =>
    calc (forEach carried sendNumbered s4).mode
      _ = s3.mode := hsends.mode
      _ = s2.mode := (raise_mode _ _ _ _ _).trans hlog.mode
      _ = s.mode := (setFs_mode _ _).trans (hmode.trans hmode')
  case opened =>
    exact congrArg Option.isSome (hsends.key.trans (congrArg Session.key hses3))
  case challenge => exact hsends.challenge.trans (congrArg Session.challenge hses3)
  case expect => exact hsends.expect.trans (congrArg Session.expect hses3)
  case lastRx =>
    exact hsends.lastRx.trans ((congrArg Session.lastRx hses3).trans (hnow.trans hnow'))
  case peer => exact hsends.peer.trans (congrArg Session.peer hses3)
  case shown =>
    rw [hshown _ (by decide)]
    simp (disch := decide) only [s2, setFs, List.foldl_cons, List.foldl_nil, getF_setF_ne, getF_setF]
    rfl
  case id_shown =>
    rw [hshown _ (by decide), hlastId]
    simp (disch := decide) only [s2, setFs, List.foldl_cons, List.foldl_nil, getF_setF_ne, getF_setF]
    exact Nat.mod_eq_of_lt hnew.2.2
  case id_pos => rw [hlastId]; exact Nat.pos_of_ne_zero hnew.1
  case id_lt => rw [hlastId]; exact hnew.2.2
  case id_new => rw [hlastId]; exact hnew.2.1

/-- A PROVE has failed at `s`: it is counted, and no session opens or ends (R467). -/
structure ProveCounted (s t : State) : Prop where
  mode : t.mode = s.mode
  key : t.ses.key = s.ses.key
  challenge : t.ses.challenge = s.ses.challenge
  lastId : t.ses.lastId = s.ses.lastId
  shown : getF t R.ctlState_sessionOpen = getF s R.ctlState_sessionOpen
  counted : getF t R.secStatus_proveFailures = min 65535 (getF s R.secStatus_proveFailures + 1)

/-- What the refusal of a frame with AUTH changes: the count, the time of the last refusal sent, and the queue (R128). -/
theorem refuseAuth_frame (s : State) (f : CtlFrame) : (refuseAuth s f).mode = s.mode ∧
    (refuseAuth s f).reg = (bumpF s R.ctlCounters_authRefused 0 1).reg ∧
    (refuseAuth s f).ses = { s.ses with lastAuth := (refuseAuth s f).ses.lastAuth } := by
  unfold refuseAuth
  extract_lets t due
  split
  · exact ⟨rfl, rfl, rfl⟩
  · exact ⟨rfl, rfl, rfl⟩

theorem proveFailed_counted (s : State) (f : CtlFrame) (why slot : Nat) : ProveCounted s (proveFailed s f why slot) := by
  unfold proveFailed
  set u := raise (bumpF s R.secStatus_proveFailures 0 1) 0xE003 cPkg why slot
  obtain ⟨hmode, hreg, hses⟩ := refuseAuth_frame u f
  have huses : u.ses = s.ses := raise_ses _ _ _ _ _
  have hread : ∀ g, fkey g 0 ∉ eventKeys → fkey g 0 ≠ fkey R.ctlCounters_authRefused 0 →
      getF (refuseAuth u f) g = getF (bumpF s R.secStatus_proveFailures 0 1) g := fun g hg hne =>
    (getF_congr hreg g 0).trans ((getF_bumpF_ne _ _ hne).trans (getF_raise hg _ _ _ _ _))
  rw [huses] at hses
  constructor
  case mode => exact hmode.trans (raise_mode _ _ _ _ _)
  case key => rw [hses]
  case challenge => rw [hses]
  case lastId => rw [hses]
  case shown => rw [hread _ (by decide) (by decide), getF_bumpF_ne _ _ (by decide)]
  case counted => rw [hread _ (by decide) (by decide), getF_bumpF]; rfl

theorem openSession_challenges {s : State} {f : CtlFrame} (hup : upStates s = true)
    (hfree : sessionOpen s = false ∨ bit f.flags 2 = true) (hslot : slotAllowed s (openSlot f.body) = true) :
    openSession f s = challenge s f := by
  have hmay : ¬ (sessionOpen s && !bit f.flags 2) = true := by
    rcases hfree with h | h <;> simp [h]
  simp [openSession, hup, hmay, hslot]

section
variable {s : State} {f : CtlFrame} {c : Challenge} (hpend : pendingChallenge s = some c)
include hpend

theorem proveSession_accepts (hup : upStates s = true) (hfree : sessionOpen s = false ∨ c.preempt = true)
    (hslot : slotAllowed s c.keySlot = true)
    (hsig : verify (proveKey s c) "VRHSEH" (transcript c.openBody c.chalBody) (slice f.body 0 114) = true) :
    proveSession f s = accept (dropChallenge s) f c := by
  have hmay : ¬ (!upStates s || (sessionOpen s && !c.preempt) || !slotAllowed s c.keySlot) = true := by
    rcases hfree with h | h <;> simp [h, hup, hslot]
  simp only [proveSession, hpend, hsig, Bool.not_true, Bool.false_eq_true, if_false, if_neg hmay]

theorem proveSession_fails
    (hsig : ¬ verify (proveKey s c) "VRHSEH" (transcript c.openBody c.chalBody) (slice f.body 0 114) = true) :
    proveSession f s = proveFailed s f 1 (if c.keySlot = 0xFF then 4 else c.keySlot) := by
  simp [proveSession, hpend, hsig]

end

/-- Settles O23: OPEN, PROVE and the challenge that expires. -/
theorem sessionOpening : Obligations.SessionOpening := by
  refine ⟨fun s f h hup hfree hslot => ?_, fun s f c h hpend hup hfree hslot => ?_, fun s c hon hc hold => ?_⟩
  · refine ⟨challenge s f, _, (inModule_on h.1).trans (congrArg _ ?_), rfl, rfl, rfl, rfl, rfl, rfl, rfl, rfl,
      lastCtl_outCtl _ _ _⟩
    rw [openingFrame_of_hears h, openSession_challenges hup hfree hslot]
  · refine ⟨proveSession f s, (inModule_on h.1).trans (congrArg _ (openingFrame_of_hears h _)), ?_⟩
    by_cases hsig : verify (proveKey s c) "VRHSEH" (transcript c.openBody c.chalBody) (slice f.body 0 114) = true
    · rw [proveSession_accepts hpend hup hfree hslot hsig, if_pos hsig]
      obtain ⟨hm, ho, hch, he, hr, hp, hshown, hid, hpos, hlt, hnew⟩ := accept_opened (dropChallenge s) f c
      exact ⟨hm, ho, hch, he, hr, hp, hshown, hid, hpos, hlt, hnew⟩
    · rw [proveSession_fails hpend hsig, if_neg hsig]
      obtain ⟨hm, hk, hch, hid, ho, hcount⟩ := proveFailed_counted s f 1 (if c.keySlot = 0xFF then 4 else c.keySlot)
      exact ⟨hm, hk, hch, hid, ho, hcount⟩
  · refine (inModule_on hon).trans (congrArg _ ?_)
    simp only [hc, if_pos hold, dropChallenge]

end Sys2Proof.Machine
end

section
/-! What the work of a step and of a gate window leaves of the job: the mode, the image, the token, the commands held, the
securing in flight, the fields of the gate and the stalls that rest (R146 to R151, R449, R476). -/
namespace Sys2Proof.Machine
set_option Elab.async false
open Sys2Proof

/-! ## Fields that lie apart from given keys -/

/-- No unit of the field stands at a key of `K`: for each key its lowest bit differs, or its first unit lies above. -/
def Field.apartFrom (K : List Nat) (f : Field) : Bool := K.all (fun k => k % 64 != f.lo % 64 || decide (k / 64 < f.base))

theorem fkey_of_apartFrom {K : List Nat} {f : Field} (h : Field.apartFrom K f = true) (u : Nat) : fkey f u ∉ K := by
  intro m
  have hk : (fkey f u % 64 != f.lo % 64 || decide (fkey f u / 64 < f.base)) = true := List.all_eq_true.mp h _ m
  simp only [Bool.or_eq_true, bne_iff_ne, ne_eq, decide_eq_true_eq] at hk
  unfold fkey at hk
  omega

/-- What shows the step, the gate and the pass. -/
def stepKeys : List Nat :=
  [fkey R.gteStep_step 0, fkey R.gteNext_expected 0, fkey R.gteNext_anyStep 0, fkey R.gteStatus_gateComplete 0,
    fkey R.genPass_pass 0]

/-- The same, and halt_pending. -/
def jobKeys : List Nat := fkey R.gteStatus_haltPending 0 :: stepKeys

theorem stepKeys_subset : stepKeys ⊆ jobKeys := List.subset_cons_self _ _

theorem jobKeys_not_event : ∀ k ∈ jobKeys, k ∉ eventKeys := by decide

theorem KeepsReg.jobKeys {s t : State} (h : KeepsReg s t) : KeepsKeys jobKeys s t := .ofReg h jobKeys_not_event

/-! ## What the job keeps -/

/-- From `z` to `t` the job stands: its mode, its records but for the hold of the gate window and the first arrival, the
securing in flight, the fields of the gate, and the stalls of which `W` holds. In RUNNING a plan mismatch may set
halt_pending (R150). -/
structure Steady (W : Nat → Prop) (z t : State) : Prop where
  mode : t.mode = z.mode
  job : t.job = { z.job with gateHold := t.job.gateHold, firstArrival := t.job.firstArrival }
  team : t.team = { z.team with pages := t.team.pages, dirty := t.team.dirty }
  pages : z.team.pages = [] → t.team.pages = []
  keys : KeepsKeys stepKeys z t
  haltPending : z.mode ≠ .running → getF t R.gteStatus_haltPending = getF z R.gteStatus_haltPending
  stalls : ∀ p, W p → getStall t p = getStall z p

namespace Steady
variable {W : Nat → Prop} {z s t : State}

theorem refl (W : Nat → Prop) (s : State) : Steady W s s := ⟨rfl, rfl, rfl, id, .refl s, fun _ => rfl, fun _ _ => rfl⟩

theorem trans (h : Steady W z s) (k : Steady W s t) : Steady W z t where
  mode := k.mode.trans h.mode
  job := by rw [k.job, h.job]
  team := by rw [k.team, h.team]
  pages := fun e => k.pages (h.pages e)
  keys := h.keys.trans k.keys
  haltPending := fun e => (k.haltPending (h.mode ▸ e)).trans (h.haltPending e)
  stalls := fun p hp => (k.stalls p hp).trans (h.stalls p hp)

theorem token (h : Steady W z t) : t.job.token = z.job.token := by rw [h.job]
theorem amends (h : Steady W z t) : t.job.amends = z.job.amends := by rw [h.job]
theorem image (h : Steady W z t) : t.job.image = z.job.image := by rw [h.job]
theorem securing (h : Steady W z t) : t.team.step = z.team.step := by rw [h.team]
theorem allDirty (h : Steady W z t) : t.team.allDirty = z.team.allDirty := by rw [h.team]

/-- The parts of a state that `Steady` speaks of, but for the hold of the gate and the first arrival. -/
def parts (s : State) := (s.mode, { s.job with gateHold := false, firstArrival := none }, s.team, s.reg, s.stalls)

/-- A change of other parts alone. -/
theorem same (h : Steady W z s) (e : parts t = parts s := by rfl) : Steady W z t := by
  simp only [parts, Prod.mk.injEq] at e
  obtain ⟨hm, hj, ht, hr, hs⟩ := e
  refine h.trans ⟨hm, ?_, by rw [ht], by rw [ht]; exact id, .same hr, fun _ => getF_congr hr _ _,
    fun p _ => getStall_congr hs p⟩
  rw [show t.job = { ({ t.job with gateHold := false, firstArrival := none } : Job) with
    gateHold := t.job.gateHold, firstArrival := t.job.firstArrival } from rfl, hj]

/-- A change of registers alone, at other keys. -/
theorem ofKeys (h : Steady W z s) (k : KeepsKeys jobKeys s t) (hm : t.mode = s.mode) (hj : t.job = s.job)
    (ht : t.team = s.team) (hs : t.stalls = s.stalls) : Steady W z t :=
  h.trans ⟨hm, by rw [hj], by rw [ht], by rw [ht]; exact id, k.mono stepKeys_subset,
    fun _ => k _ 0 (List.mem_cons_self ..), fun p _ => getStall_congr hs p⟩

theorem setF (h : Steady W z s) {f : Field} {u : Nat} (hf : fkey f u ∉ jobKeys) (v : Nat) : Steady W z (setF s f u v) :=
  h.ofKeys (.setF hf s v) rfl rfl rfl rfl

theorem bumpF (h : Steady W z s) {f : Field} {u : Nat} (hf : fkey f u ∉ jobKeys) (n : Nat) : Steady W z (bumpF s f u n) :=
  h.setF hf _

/-- A field of any unit, apart from the job's. -/
theorem setUnit (h : Steady W z s) {f : Field} (hf : f.apartFrom jobKeys = true) (u v : Nat) : Steady W z (Machine.setF s f u v) :=
  h.setF (fkey_of_apartFrom hf u) v

theorem bumpUnit (h : Steady W z s) {f : Field} (hf : f.apartFrom jobKeys = true) (u n : Nat) :
    Steady W z (Machine.bumpF s f u n) := h.setUnit hf u _

theorem clearUnits (h : Steady W z s) {f : Field} {n : Nat} (hf : ∀ k ∈ jobKeys, unitOf f n k = none) :
    Steady W z (clearUnits s f n) := h.ofKeys (.clearUnits hf s) rfl rfl rfl rfl

/-! ## Loops and conditions -/

theorem foldl {α : Type} {f : State → α → State} (hf : ∀ s a, Steady W z s → Steady W z (f s a)) (h : Steady W z s)
    (l : List α) : Steady W z (l.foldl f s) := by
  induction l generalizing s with
  | nil => exact h
  | cons a l ih => exact ih (hf s a h)

theorem forEach {α : Type} {f : State → α → State} (hf : ∀ s a, Steady W z s → Steady W z (f s a)) (h : Steady W z s)
    (l : List α) : Steady W z (forEach l f s) := foldl hf h l

theorem forEach_mem {α : Type} {l : List α} {f : State → α → State} (hf : ∀ s, ∀ a ∈ l, Steady W z s → Steady W z (f s a))
    (h : Steady W z s) : Steady W z (Machine.forEach l f s) :=
  List.foldlRecOn l f (motive := Steady W z) h (fun t ht a ha => hf t a ha ht)

/-- A loop that carries a state beside another value. -/
theorem foldl_fst {α β : Type} {f : State × β → α → State × β} (hf : ∀ x a, Steady W z x.1 → Steady W z (f x a).1)
    {x : State × β} (h : Steady W z x.1) (l : List α) : Steady W z (l.foldl f x).1 := by
  induction l generalizing x with
  | nil => exact h
  | cons a l ih => exact ih (hf x a h)

theorem ite {c : Prop} [Decidable c] {a b : State} (h : Steady W z a) (k : Steady W z b) : Steady W z (if c then a else b) := by
  split
  · exact h
  · exact k

theorem when {f : State → State} (h : Steady W z s) (hf : Steady W z (f s)) (c : Bool) : Steady W z (when c f s) := ite hf h

theorem setFs (h : Steady W z s) {l : List (Field × Nat)} (hl : ∀ f ∈ l.map Prod.fst, fkey f 0 ∉ jobKeys) :
    Steady W z (setFs s l) :=
  h.forEach_mem (fun _ p hp k => k.setF (hl _ (List.mem_map_of_mem hp)) p.2)

/-! ## Memory and events -/

theorem ofStores (h : Steady W z s) (k : OnlyStores s t) (hr : KeepsReg s t)
    (ht : t.team = { s.team with pages := t.team.pages, dirty := t.team.dirty })
    (hp : s.team.pages = [] → t.team.pages = []) : Steady W z t :=
  h.trans ⟨k.mode, by rw [k.job], ht, hp, hr.jobKeys.mono stepKeys_subset, fun _ => hr.jobKeys _ 0 (List.mem_cons_self ..),
    fun p _ => getStall_congr k.stalls p⟩

theorem setPage (h : Steady W z s) (p : Page) : Steady W z (setPage s p) :=
  h.ofStores (.setPage s p) (.setPage s p) rfl (fun e => by simp [Machine.setPage, e])

theorem sendTeam (h : Steady W z s) (port ftype step page group chunk : Nat) (b : Bytes) :
    Steady W z (sendTeam s port ftype step page group chunk b) := h.same rfl

theorem quietWrite (h : Steady W z s) (a : Nat) (b : Bytes) : Steady W z (quietWrite s a b) := h.same rfl

theorem quietCopy (h : Steady W z s) (a b n : Nat) : Steady W z (quietCopy s a b n) := h.same rfl

theorem streamPage (h : Steady W z s) (p : Page) : Steady W z (streamPage s p) := by
  unfold Machine.streamPage
  extract_lets n base j src a b c d e
  have ha : Steady W z a := h.quietCopy _ _ _
  have hb : Steady W z b := ha.quietWrite _ _
  have hc : Steady W z c := hb.quietWrite _ _
  have hd : Steady W z d := hc.setF (by decide) 0
  have he : Steady W z e := hd.when (hd.forEach (fun t k ht => ht.sendTeam _ _ _ _ _ _ _) _) _
  exact he.setPage _

theorem protect (h : Steady W z s) (a n : Nat) : Steady W z (protect s a n) := by
  refine h.forEach (fun t p ht => ?_) _
  unfold protectPage
  split
  · exact ((ht.quietCopy _ _ _).setPage _).setF (f := R.pairBuf_usedMib) (by decide) _
  · exact ht.streamPage p

theorem write (h : Steady W z s) (a : Nat) (b : Bytes) : Steady W z (write s a b) :=
  (h.protect a b.length).ofStores (.rawWrite _ a b) (.same rfl) rfl id

theorem copy (h : Steady W z s) (a b n : Nat) : Steady W z (copy s a b n) :=
  (h.protect b n).ofStores (.rawCopy _ a b n) (.same rfl) rfl id

theorem zero (h : Steady W z s) (a n : Nat) : Steady W z (zero s a n) :=
  (h.protect a n).ofStores (.rawZero _ a n) (.same rfl) rfl id

theorem patch (h : Steady W z s) (a n : Nat) (l : List (Nat × Byte)) : Steady W z (patch s a n l) := by
  unfold Machine.patch
  split
  · exact h
  · extract_lets lo hi t
    exact (h.protect _ _).ofStores (by constructor <;> rfl) (.same rfl) rfl id

theorem raise (h : Steady W z s) (code coord d0 d1 : Nat) : Steady W z (raise s code coord d0 d1) := by
  rcases raise_cases s code coord d0 d1 with e | ⟨-, r, e⟩ | ⟨-, r, e⟩ <;> rw [e]
  · exact h
  · unfold logEvent
    exact ite (h.same rfl) (h.bumpF (by decide) _)
  · unfold ringEvent
    exact ite (h.bumpF (by decide) _) ((h.write _ _).setF (by decide) _)

theorem raiseOnce (h : Steady W z s) (code unit coord d0 d1 : Nat) : Steady W z (raiseOnce s code unit coord d0 d1) :=
  ite h ((h.same (t := { s with once := (code, unit) :: s.once }) rfl).raise code coord d0 d1)

/-! ## Stalls and mover channels -/

theorem modStall (h : Steady W z s) {p : Nat} (hp : ¬ W p) (f : Stall → Stall) : Steady W z (modStall s p f) :=
  h.trans ⟨rfl, rfl, rfl, id, .same rfl, fun _ => rfl, fun _ hq =>
    getStall_modStall_ne s f (fun e => hp (e ▸ hq))⟩

theorem setChan (h : Steady W z s) (c : Nat) (x : Chan) : Steady W z (setChan s c x) := h.same rfl

theorem holdGate (h : Steady W z s) : Steady W z (holdGate s) := h.same rfl

end Steady

end Sys2Proof.Machine
end

section
/-! The frames that a step takes leave the job as it stands (R113, R291, R319 to R334). -/
namespace Sys2Proof.Machine
set_option Elab.async false
open Sys2Proof

/-- No stall. -/
def noStall (_ : Nat) : Prop := False

namespace Steady
variable {W : Nat → Prop} {z s : State}

/-! ## Stalls that stop, trap or wake -/

theorem modAny (h : Steady noStall z s) (p : Nat) (f : Stall → Stall) : Steady noStall z (Machine.modStall s p f) :=
  h.modStall id f

theorem stopStall (h : Steady noStall z s) (p : Nat) : Steady noStall z (stopStall s p) := (h.modAny p _).holdGate

theorem unitFields (h : Steady W z s) {l : List (Field × Nat)} (p : Nat)
    (hl : ∀ f ∈ l.map Prod.fst, f.apartFrom jobKeys = true) :
    Steady W z (l.foldl (fun t x => Machine.setF t x.1 p x.2) s) :=
  h.forEach_mem (fun _ x hx k => k.setUnit (hl _ (List.mem_map_of_mem hx)) p x.2)

theorem instrFault (h : Steady noStall z s) (p status opcode instr detail : Nat) :
    Steady noStall z (instrFault s p status opcode instr detail) := by
  unfold Machine.instrFault
  extract_lets t u
  have ht : Steady noStall z t := h.stopStall p
  have hu : Steady noStall z u := ht.unitFields p (by simp only [List.map_cons, List.map_nil]; decide)
  exact ite ht (hu.raise _ _ _ _)

theorem draw (h : Steady W z s) : Steady W z (draw s) := h.same

theorem badBits (h : Steady W z s) (b : BadVal) : Steady W z (badBits s b).1 := by
  unfold Machine.badBits
  split
  iterate 3 exact h
  split
  · exact h
  · exact h.draw

theorem trapBits (h : Steady W z s) (a : F32) : Steady W z (trapBits s a).1 := by
  unfold Machine.trapBits
  split
  · exact h.draw
  · exact h

theorem trapShown (h : Steady noStall z s) (p source operand kind layer instr tile elem value shown : Nat) :
    Steady noStall z (trapShown s p source operand kind layer instr tile elem value shown) := by
  unfold Machine.trapShown
  extract_lets t u first v w
  have ht : Steady noStall z t := h.modAny p _
  have hu : Steady noStall z u := ht.unitFields p (by simp only [List.map_cons, List.map_nil]; decide)
  clear_value u
  have hv : Steady noStall z v := hu.when (hu.setFs (by simp only [List.map_cons, List.map_nil]; decide)) first
  have hw : Steady noStall z w := hv.setFs (by simp only [List.map_cons, List.map_nil]; decide)
  exact ite ht (hw.raise _ _ _ _)

theorem trapDecode (h : Steady noStall z s) (p source operand layer instr tile elem : Nat) (v : BadVal) :
    Steady noStall z (trapDecode s p source operand layer instr tile elem v) :=
  (h.badBits v).trapShown _ _ _ _ _ _ _ _ _ _

theorem combTrap (h : Steady noStall z s) (p : Nat) (d : CombDesc) (ins : Nat) (x : Nat × CombBad) :
    Steady noStall z (combTrap s p d ins x) := by
  unfold Machine.combTrap
  exact ite (h.trapDecode _ _ _ _ _ _ _ _) ((h.trapBits _).trapShown _ _ _ _ _ _ _ _ _ _)

theorem renewLinger (h : Steady noStall z s) (p : Nat) : Steady noStall z (renewLinger s p) := h.modAny p _

theorem requestWake (h : Steady noStall z s) (p : Nat) (src : WakeSrc) (die : Bool) :
    Steady noStall z (requestWake s p src die) := by
  unfold Machine.requestWake
  extract_lets t u
  have hu : Steady noStall z u := h.when (h.renewLinger p) _
  exact ite h (ite (ite (h.renewLinger p) h) (ite hu hu.same))

theorem wakeHome (h : Steady noStall z s) (e : Nat) : Steady noStall z (wakeHome s e) := by
  unfold Machine.wakeHome
  split
  · exact h.forEach (fun t p ht => ht.requestWake p _ _) _
  · exact h

theorem takeWake (h : Steady noStall z s) (f : TokFrame) : Steady noStall z (takeWake s f) :=
  ite (h.wakeHome _) (h.requestWake _ _ _)

theorem demandWake (h : Steady noStall z s) (p : Nat) : Steady noStall z (demandWake s p) :=
  ite (((h.bumpUnit (f := R.clkStall_lateWakes) (by decide) p 1).modAny p _).requestWake _ _ _) h

theorem keepLate (h : Steady noStall z s) (f : TokFrame) : Steady noStall z (keepLate s f) := h.same.demandWake _

/-! ## Frames that leave -/

theorem enqueue (h : Steady W z s) (f : OutFrame) : Steady W z (enqueue s f) := h.same

theorem sendToken (h : Steady noStall z s) (f : TokFrame) : Steady noStall z (sendToken s f) := by
  have hnone : ∀ p d, Steady noStall z (noRoute s p d) := fun p d => (h.stopStall p).raise _ _ _ _
  unfold Machine.sendToken
  refine ite h.same ?_
  split
  · exact hnone _ _
  · split
    · exact hnone _ _
    · exact h.enqueue _

theorem emit (h : Steady noStall z s) (p : Nat) (f : TokFrame) : Steady noStall z (emit s p f) := h.same.sendToken _

theorem refuseTok (h : Steady noStall z s) (f : TokFrame) (status : Nat) (send : Bool) :
    Steady noStall z (refuseTok s f status send) :=
  ite ((h.raise _ _ _ _).emit _ _) (h.raise _ _ _ _)

theorem sendGroup (h : Steady noStall z s) (p : Nat) (d : SendDesc) (g : List SendTok) (x : Nat × Nat) :
    Steady noStall z (sendGroup p d g s x) := by
  unfold Machine.sendGroup
  split
  · exact h
  · exact h.emit _ _

theorem sendAll (h : Steady noStall z s) (p : Nat) (d : SendDesc) (toks : List SendTok) :
    Steady noStall z (sendAll s p d toks) :=
  h.forEach (fun _ _ ht => ht.forEach (fun _ _ hu => hu.sendGroup _ _ _ _) _) _

theorem resend (h : Steady noStall z s) (p : Nat) (l : RouteList) (entries : List (Nat × Nat)) :
    Steady noStall z (resend s p l entries) := by
  unfold Machine.resend
  split
  · exact h
  · exact h.sendAll _ _ _

theorem sendPfc (h : Steady W z s) (port prio time : Nat) : Steady W z (sendPfc s port prio time) := h.enqueue _

theorem showXoff (h : Steady W z s) (port : Nat) : Steady W z (showXoff s port) :=
  ite (h.setUnit (by decide) _ _) h

theorem setXoff (h : Steady W z s) (port prio : Nat) (on : Bool) : Steady W z (setXoff s port prio on) :=
  ite ((h.same.sendPfc _ _ _).showXoff _) (ite ((h.same.sendPfc _ _ _).showXoff _) h)

theorem showHold (h : Steady W z s) : Steady W z (showHold s) := by
  unfold Machine.showHold
  extract_lets n size room pass was on last prio t
  have ht : Steady W z t := h.setFs (by simp only [List.map_cons, List.map_nil]; decide)
  exact ite ht (ht.forEach (fun u port hu => hu.setXoff _ _ _) _)

theorem holdTok (h : Steady W z s) (f : TokFrame) : Steady W z (holdTok s f) :=
  ite ((h.bumpF (f := R.prtHoldStat_dropped) (by decide) 1).raise _ _ _ _) h.same.showHold

/-! ## Queues, slots and mover requests -/

theorem addRequest (h : Steady W z s) (c : Nat) : Steady W z (addRequest s c) := by
  unfold Machine.addRequest
  extract_lets x n t u
  have ht : Steady W z t := ite (h.bumpUnit (by decide) _ _) (h.bumpUnit (by decide) _ _)
  have hu : Steady W z u := ht.setChan c _
  exact ite h (ite (h.setChan c _) (ite hu (hu.raise _ _ _ _)))

theorem queueRise (h : Steady W z s) (p q n : Nat) : Steady W z (queueRise s p q n) := by
  unfold Machine.queueRise
  split
  · exact ite (h.forEach (fun t _ ht => ht.addRequest _) _) h
  · exact h

theorem raiseCounter (h : Steady W z s) (ix n : Nat) : Steady W z (raiseCounter s ix n) :=
  ite h ((h.setUnit (f := R.rteQueue_counter) (by decide) _ _).queueRise _ _ _)

theorem stepPrefix (h : Steady W z s) (ix : Nat) : Steady W z (stepPrefix s ix) := h.raiseCounter _ _

theorem putRow (h : Steady W z s) (f : TokFrame) (q : Queue) (row i : Nat) : Steady W z (putRow s f q row i) :=
  ite (h.write _ _) ((h.write _ _).write _ _)

theorem bumpHomes (h : Steady W z s) (ix : Nat) : Steady W z (bumpHomes s ix) := by
  unfold Machine.bumpHomes
  refine ite h (h.forEach (fun t p ht => ?_) _)
  split
  iterate 4 exact ht.bumpUnit (by decide) _ _
  exact ht

theorem setSlotSt (h : Steady W z s) (ix slot v : Nat) : Steady W z (setSlotSt s ix slot v) := h.same

theorem fillSlot (h : Steady W z s) (ix slot : Nat) : Steady W z (fillSlot s ix slot) := (h.setSlotSt _ _ _).bumpHomes _

theorem emptySlot (h : Steady W z s) (ix slot : Nat) : Steady W z (emptySlot s ix slot) := by
  unfold Machine.emptySlot
  extract_lets q t u
  have hu : Steady W z u := (h.setSlotSt ix slot _).write _ _
  exact ite h (ite (hu.zero _ _) hu)

theorem homeCut (h : Steady noStall z s) (f : TokFrame) (ix : Nat) (e : TokEntry) : Steady noStall z (homeCut s f ix e) :=
  ite h (((h.same.emptySlot _ _).raiseOnce _ _ _ _ _).emit _ _)

theorem dispatchTok (h : Steady noStall z s) (f : TokFrame) (x : Nat × TokEntry) : Steady noStall z (dispatchTok f s x) := by
  unfold Machine.dispatchTok
  extract_lets ix q e got full a b c
  have hb : Steady noStall z b := (h.putRow _ _ _ _).write _ _
  have hc : Steady noStall z c := hb.setSlotSt _ _ _
  exact ite (h.homeCut _ _ _) (ite (hc.fillSlot _ _) hc)

theorem summaryTok (h : Steady W z s) (f : TokFrame) (x : Nat × TokEntry) : Steady W z (summaryTok f s x) :=
  (h.putRow _ _ _ _).setSlotSt _ _ _

theorem takeRow (h : Steady W z s) (ix slot pos : Nat) : Steady W z (takeRow s ix slot pos).1 := by
  unfold Machine.takeRow
  split
  · exact h
  · exact h.same

theorem queryTok (h : Steady W z s) (f : TokFrame) (x : Nat × TokEntry) : Steady W z (queryTok f s x) := by
  unfold Machine.queryTok
  extract_lets ix q e first qb t a got full b c
  have ha : Steady W z a := (h.takeRow _ _ _).putRow _ _ _ _
  have hb : Steady W z b := ite (ha.write _ _) (ite (ha.write _ _) ha)
  have hc : Steady W z c := hb.setSlotSt _ _ _
  exact ite (hc.fillSlot _ _) hc

theorem noteCut (h : Steady W z s) (ix slot : Nat) : Steady W z (noteCut s ix slot) := ite h.same h.same

theorem returnTok (h : Steady W z s) (f : TokFrame) (x : Nat × TokEntry) : Steady W z (returnTok f s x) :=
  ite ((h.same.noteCut _ _).raiseCounter _ _) ((h.putRow _ _ _ _).raiseCounter _ _)

/-! ## Brands and loft reads -/

theorem checkBrands (h : Steady W z s) (reader coord a n : Nat) : Steady W z (checkBrands s reader coord a n).1 := by
  unfold Machine.checkBrands
  split
  · exact h
  · refine h.forEach (fun t p ht => ?_) _
    have hbad : Steady W z (Machine.setFs t [(R.brdLineLast_valid, 1), (R.brdLineLast_reader, reader), (R.brdLineLast_address, p.1)]) :=
      ht.setFs (by simp only [List.map_cons, List.map_nil]; decide)
    exact ite ((hbad.bumpF (by decide) _).raise _ _ _ _) ((ht.same.bumpF (by decide) _).raise _ _ _ _)

theorem partsChecked (h : Steady W z s) (reader coord : Nat) (l : List (Nat × Nat)) :
    Steady W z (partsChecked s reader coord l).1 := by
  unfold Machine.partsChecked
  refine foldl_fst (fun x a hx => ?_) h _
  exact hx.checkBrands reader coord a 64

theorem noteCorrected (h : Steady W z s) (l : Nat) : Steady W z (noteCorrected s l) := by
  unfold Machine.noteCorrected
  extract_lets c t due
  have ht : Steady W z t := h.bumpUnit (by decide) _ _
  exact ite (ht.same.raise _ _ _ _) ht

theorem noteUncorrectable (h : Steady W z s) (l : Nat) : Steady W z (noteUncorrectable s l) := by
  unfold Machine.noteUncorrectable
  extract_lets c t
  have ht : Steady W z t := (h.bumpUnit (f := R.lftChannel_uncorrected) (by decide) c 1).setFs
    (by simp only [List.map_cons, List.map_nil]; decide)
  exact ht.raise _ _ _ _

theorem loftRead (h : Steady W z s) (a n : Nat) : Steady W z (loftRead s a n).1 :=
  (h.forEach (fun _ _ ht => ht.noteCorrected _) _).forEach (fun _ _ ht => ht.noteUncorrectable _) _

theorem geRead (h : Steady W z s) (p a n : Nat) : Steady W z (geRead s p a n).1 := (h.checkBrands _ _ _ _).loftRead _ _

theorem geReads (h : Steady W z s) (p : Nat) (l : List (Nat × Nat)) : Steady W z (geReads s p l).1 := by
  unfold Machine.geReads
  refine foldl_fst (fun x y hx => ?_) h l
  exact hx.geRead p y.1 y.2

/-! ## COMBINE -/

theorem keepMerges (h : Steady W z s) (p : Nat) (d : CombDesc) (l : RouteList) : Steady W z (keepMerges s p d l) :=
  ite h h.same

theorem combWrite (h : Steady W z s) (p : Nat) (d : CombDesc) (l : RouteList) : Steady W z (combWrite s p d l) :=
  (h.keepMerges p d l).forEach (fun _ _ ht => ht.write _ _) _

theorem runCombined (h : Steady noStall z s) (p : Nat) (c : PendComb) (d : CombDesc) :
    Steady noStall z (runCombined p c d s) := by
  unfold Machine.runCombined
  extract_lets l r t
  have hr : Steady noStall z r.1 := h.geReads _ _
  refine ite (hr.instrFault _ _ _ _ _) ?_
  split
  · exact hr.combTrap _ _ _ _
  · exact (hr.combWrite _ _ _).same

theorem writeEntries (h : Steady W z s) (p : Nat) (l : RouteList) (t : Nat) (es : List RouteEntry) :
    Steady W z (writeEntries s p l t es) := h.write _ _

theorem seatToken (h : Steady W z s) (p l e : Nat) : Steady W z (seatToken s p l e).1 :=
  h.same.bumpF (by decide) _

theorem useSpare (h : Steady W z s) (p l k r stands : Nat) (gate : F32) (es : List RouteEntry) :
    Steady W z (useSpare s p l k r stands gate es).1 := by
  unfold Machine.useSpare
  split
  · split
    · exact (h.seatToken _ _ _).bumpF (by decide) _
    · exact h
  · split
    · exact h.bumpF (by decide) _
    · exact h

theorem dealCut {x : State × List (Nat × Nat)} (h : Steady W z x.1) (p : Nat) (l : RouteList) (c : CutEntry) :
    Steady W z (dealCut p l x c).1 := by
  unfold Machine.dealCut
  extract_lets s k t r es done
  split
  · exact h
  · extract_lets es' u v
    split
    · exact Steady.same ((h.bumpF (f := R.rteStep_dropped) (u := 0) (by decide) 1).writeEntries _ _ _ _)
    · have hv : Steady W z v := Steady.same ((h.useSpare _ _ _ _ _ _ _).writeEntries _ _ _ _)
      split
      · exact hv.same
      · exact hv

theorem noteChoices (h : Steady W z s) (s0 : State) (l : Nat) : Steady W z (noteChoices s0 s l) := by
  unfold Machine.noteChoices
  extract_lets t
  have ht : Steady W z t := ite (h.raiseOnce _ _ _ _ _) h
  exact ite (ht.raiseOnce _ _ _ _ _) ht

theorem serveCombine (h : Steady noStall z s) (p : Nat) (c : PendComb) : Steady noStall z (serveCombine p s c) := by
  unfold Machine.serveCombine
  extract_lets d l ix x t
  have hx : Steady noStall z x.1 := foldl_fst (x := (s, [])) (fun y e hy => hy.dealCut p l e) h _
  have ht : Steady noStall z t := (hx.resend _ _ _).noteChoices _ _
  exact ite h (ite ((ht.runCombined _ _ _).modAny _ _) ht)

theorem serveCombines (h : Steady noStall z s) (p : Nat) : Steady noStall z (serveCombines s p) :=
  h.forEach (fun _ _ ht => ht.serveCombine p _) _

/-! ## Closes -/

theorem noteArrival (h : Steady W z s) : Steady W z (noteArrival s) := ite h h.same

theorem showClosed (h : Steady W z s) : Steady W z (showClosed s) := h.setF (by decide) _

theorem emptyRegion (h : Steady W z s) (c : CloseRec) : Steady W z (emptyRegion s c) :=
  h.forEach (fun _ _ ht => (ht.forEach (fun _ _ hu => hu.emptySlot _ _) _).stepPrefix _) _

theorem takeClose (h : Steady W z s) (pass layer module stall : Nat) : Steady W z (takeClose s pass layer module stall) := by
  unfold Machine.takeClose
  extract_lets c _ a _ b d
  have ha : Steady W z a := h.same
  have hb : Steady W z b := ha.same
  have hd : Steady W z d := ite ((hb.bumpF (f := R.rteClose_received) (u := 0) (by decide) 1).showClosed.noteArrival) ha
  exact ite h (hd.emptyRegion _)

/-! ## A token frame -/

theorem deliver (h : Steady noStall z s) (f : TokFrame) : Steady noStall z (deliver s f) := by
  unfold Machine.deliver
  extract_lets l ix c t
  have hc : Steady noStall z c.1 := h.partsChecked _ _ _
  have ht : Steady noStall z t := by
    refine ite (hc.stopStall _) ?_
    split
    · exact (h.forEach (fun _ _ ht => ht.dispatchTok _ _) l).stepPrefix _
    · exact (h.forEach (fun _ _ ht => ht.returnTok _ _) l).serveCombines _
    · exact (h.forEach (fun _ _ ht => ht.summaryTok _ _) l).stepPrefix _
    · exact (h.forEach (fun _ _ ht => ht.queryTok _ _) l).stepPrefix _
    · exact (h.forEach (fun _ _ ht => ht.returnTok _ _) l).serveCombines _
    · exact (h.stopStall _).raise _ _ _ _
    · exact h
  exact ite (ht.takeClose _ _ _ _) ht

theorem notePlan (h : Steady W z s) (src tag : Nat) : Steady W z (notePlan s src tag) := by
  unfold Machine.notePlan
  extract_lets f a b c
  have ha : Steady W z a := h.when (h.bumpF (by decide) 1) _
  have hf : fkey f 0 ∉ jobKeys := by
    dsimp only [f]
    split
    · decide
    · split <;> decide
  have hb : Steady W z b := (ha.bumpF hf 1).setF (by decide) _
  have hc : Steady W z c := hb.setF (by decide) _
  exact hc.raiseOnce _ _ _ _ _

/-- In RUNNING a plan mismatch sets halt_pending and halts nothing (R150). -/
theorem planMismatch (h : Steady W z s) (hz : z.mode = .running) (src tag : Nat) : Steady W z (planMismatch s src tag) := by
  have ht := h.notePlan src tag
  have hm : (Machine.notePlan s src tag).mode = .running := ht.mode.trans hz
  have hrest : atRest (Machine.notePlan s src tag) = false := by simp [atRest, hm]
  unfold Machine.planMismatch
  simp only [hrest, hm, Bool.false_eq_true, if_false]
  refine ht.trans ⟨rfl, rfl, rfl, id, .setF (by decide) _ _, fun e => absurd hm e, fun _ _ => rfl⟩

theorem tokChecks {t : State} (h : Steady noStall z s) (f : TokFrame) (e : tokChecks s f = some t) : Steady noStall z t := by
  unfold Machine.tokChecks at e
  split at e
  · cases e; exact (h.bumpF (f := R.rteRefused_absentQuota) (by decide) 1).refuseTok _ _ _
  split at e
  · cases e; exact (h.bumpF (f := R.rteRefused_range) (by decide) 1).refuseTok _ _ _
  split at e
  · cases e; exact (h.bumpF (f := R.rteRefused_absentQuota) (by decide) 1).refuseTok _ _ _
  split at e
  · cases e; exact ((h.bumpF (f := R.brdCount2_frameBrand) (by decide) 1).raise _ _ _ _).refuseTok _ _ _
  · cases e

theorem processTok (h : Steady noStall z s) (hz : z.mode = .running) (f : TokFrame) : Steady noStall z (processTok s f) := by
  unfold Machine.processTok
  refine ite ((ite (h.planMismatch hz _ _) h).refuseTok _ _ _) ?_
  split
  · next e => exact h.tokChecks f e
  · exact ite (h.takeWake f) (ite (ite h.same (h.deliver f)) (ite (h.same.raise _ _ _ _) (ite (h.keepLate f) (h.deliver f))))

theorem takeTok (h : Steady noStall z s) (hz : z.mode = .running) (f : TokFrame) : Steady noStall z (takeTok s f) :=
  ite ((h.bumpF (f := R.rteRefused_format) (by decide) 1).refuseTok _ _ _)
    (ite (h.holdTok f) (ite (((h.bumpF (f := R.rteRefused_stale) (by decide) 1).raise _ _ _ _).refuseTok _ _ _)
      (ite (h.holdTok f) (h.processTok hz f))))

/-- The frames that waited for the step are taken (R323). -/
theorem releaseHeld (h : Steady noStall z s) (hz : z.mode = .running) : Steady noStall z (releaseHeld s) :=
  h.same.showHold.forEach (fun _ _ ht => ht.takeTok hz _) _

end Steady

end Sys2Proof.Machine
end

section
/-! The gate commit (R17, R149, R180): the step is begun in RUNNING, and its number, the next one expected and the pass are
shown whatever the frames that waited do (R45, R150, R291). -/
namespace Sys2Proof.Machine
set_option Elab.async false
open Sys2Proof

namespace Steady
variable {W : Nat → Prop} {z s : State}

/-! ## What the commit does beside the step's own fields -/

theorem makeDue (h : Steady noStall z s) (u : Nat) : Steady noStall z (makeDue s u) := by
  unfold Machine.makeDue
  extract_lets p t
  have ht : Steady noStall z t := h.when (h.same.requestWake _ _ _) _
  exact ite h (ht.same.setUnit (by decide) _ _)

theorem noteRange (h : Steady noStall z s) (u : Nat) : Steady noStall z (noteRange s u) := h.same.makeDue u

theorem showBound (h : Steady W z s) (old : List Nat) : Steady W z (showBound s old) := by
  unfold Machine.showBound
  extract_lets l off t
  have ht : Steady W z t := h.setF (by decide) _
  exact ite (ht.raise _ _ _ _) ht

theorem selectPark (h : Steady W z s) : Steady W z (selectPark s) := h.same

theorem setG (h : Steady W z s) (g : Nat) : Steady W z (setG s g) := (h.setF (by decide) g).raise _ _ _ _

theorem raiseStep (h : Steady W z s) : Steady W z (raiseStep s) :=
  ite h.same (ite (ite h (h.same.setG _)) h.same.selectPark)

theorem restStall (h : Steady W z s) (p : Nat) : Steady W z (restStall s p) := by
  unfold Machine.restStall
  extract_lets n m v c t
  have ht : Steady W z t := (h.setUnit (by decide) p v).setUnit (by decide) p c
  exact Steady.raiseStep ((ht.setUnit (by decide) p v).setUnit (by decide) p c)

theorem countSuspects (h : Steady W z s) (p : Nat) : Steady W z (countSuspects s p) := by
  unfold Machine.countSuspects
  extract_lets n old t
  have ht : Steady W z t := h.setUnit (by decide) p n
  exact ht.setF (by decide) _

theorem clearSuspects (h : Steady W z s) (n : Nat) : Steady W z (clearSuspects s n) := by
  unfold Machine.clearSuspects
  extract_lets w
  refine h.forEach (fun t p ht => ite ht ?_) _
  extract_lets a b
  have ha : Steady W z a := by
    refine ht.forEach (fun v i hv => ?_) _
    extract_lets u
    have hgood := ((hv.setUnit (f := R.brdTile_state) (by decide) u 0).setUnit (f := R.brdTile_strikes) (by decide) u 0).setUnit
      (f := R.brdTile_suspectStep) (by decide) u 0
    exact ite (hgood.raise _ _ _ _) hv
  clear_value a
  have hb : Steady W z b := by
    have hgood := ((ha.setUnit (f := R.brdStall_geState) (by decide) p 0).setUnit (f := R.brdStall_geStrikes) (by decide) p 0).setUnit
      (f := R.brdStall_geSuspectStep) (by decide) p 0
    exact ite ((hgood.setF (by decide) _).raise _ _ _ _) ha
  exact (hb.countSuspects p).restStall p

theorem showScale (h : Steady W z s) (l : Nat) : Steady W z (showScale s l) := by
  refine h.forEach_mem (fun t x hx ht => ht.setUnit ?_ _ _)
  have hall : ∀ f ∈ [R.fmtScale_scaleC0, R.fmtScale_scaleC1, R.fmtScale_scaleC2, R.fmtScale_scaleC3, R.fmtScale_scaleC4],
      f.apartFrom jobKeys = true := by decide
  exact hall _ (List.mem_map_of_mem (f := Prod.snd) hx)

theorem commitWeights (h : Steady W z s) : Steady W z (commitWeights s) :=
  h.forEach (fun _ _ ht => ht.setUnit (by decide) _ _) _

/-- The routing table is read again when its place has changed (R397). -/
theorem newTable (h : Steady W z s) (c : Bool) :
    Steady W z (Machine.when c (fun s => { s with prt := { s.prt with table := readTable s } }) s) :=
  h.when h.same c

theorem readQueues (h : Steady W z s) : Steady W z (readQueues s) := by
  unfold Machine.readQueues
  extract_lets lo ixs qs t
  have ht : Steady W z t := h.clearUnits (by decide)
  exact Steady.forEach (fun _ _ hu => hu.setUnit (by decide) _ _) ht.same _

theorem startProgram (h : Steady noStall z s) (p : Nat) : Steady noStall z (startProgram s p) :=
  ite (((h.modAny p _).setUnit (by decide) _ _).setUnit (by decide) _ _) h

theorem wakeForWrites (h : Steady noStall z s) (ps : List Nat) : Steady noStall z (wakeForWrites s ps) :=
  h.forEach (fun _ _ ht => ite (ht.requestWake _ _ _) ht) _

end Steady

/-! ## The step is cleared -/

/-- The fields that the end of a ROLLBACK sets, and those of a gate commit. -/
def setKeys : List Nat := [fkey R.pairRelease_step 0, fkey R.hstFeedConsumed_consumed 0] ++ jobKeys

theorem KeepsReg.setKeys {s t : State} (h : KeepsReg s t) : KeepsKeys setKeys s t := .ofReg h (by decide)

/-- What clearing the past step leaves: the mode, the securing, the feed, the fields of the gate, and of the job all but the
records of the window (R45, R151). -/
structure StepCleared (s t : State) : Prop where
  mode : t.mode = s.mode
  team : t.team = s.team
  feed : t.feed = s.feed
  job : t.job = { s.job with clampTiles := [], firstArrival := none, gcReady := false, gcHeldSince := none, notifiedHold := false }
  keys : KeepsKeys setKeys s t

theorem clearUnits_only (s : State) (f : Field) (n : Nat) : OnlyReg s (clearUnits s f n) := ⟨rfl⟩

theorem clearFields_onlyReg (l : List (Field × Nat)) (s : State) :
    OnlyReg s (forEach l (fun t x => clearUnits t x.1 x.2) s) := by
  refine .forEach (fun t x => ?_) l s
  exact clearUnits_only t x.1 x.2

theorem clearCounters_keys (s : State) :
    KeepsKeys setKeys s (forEach gateCounters (fun t x => clearUnits t x.1 x.2) s) := by
  have hcount : ∀ x ∈ gateCounters, ∀ k ∈ setKeys, unitOf x.1 x.2 k = none := by decide
  exact .forEach (fun t x hx => .clearUnits (hcount x hx) t) s

theorem chipsIdle_onlyReg (s : State) :
    OnlyReg s (forEach (List.range 4) (fun s z => if (getChip s z).lost then s else setF s R.updChip_state z 1) s) :=
  .forEach (fun t z => by
    split
    · exact .refl t
    · exact .setF t _ z 1) _ s

theorem chipsIdle_keys (s : State) : KeepsKeys setKeys s
    (forEach (List.range 4) (fun s z => if (getChip s z).lost then s else setF s R.updChip_state z 1) s) :=
  .forEach (fun t z _ => .ite (fun _ => .refl t) (fun _ => .setF (fkey_of_apartFrom (by decide) z) t 1)) s

theorem clearStep_cleared (s : State) : StepCleared s (clearStep s) := by
  unfold clearStep
  extract_lets filled a _ _ _ _ _ b
  have ha : OnlyReg s a := clearFields_onlyReg gateCounters s
  have hka : KeepsKeys setKeys s a := clearCounters_keys s
  clear_value a
  have hmode : a.mode = s.mode := (congrArg State.mode ha.eq).trans rfl
  have hteam : a.team = s.team := (congrArg State.team ha.eq).trans rfl
  have hfeed : a.feed = s.feed := (congrArg State.feed ha.eq).trans rfl
  have hjob : a.job = s.job := (congrArg State.job ha.eq).trans rfl
  have hb : KeepsKeys setKeys a b := .same rfl
  have hkc : KeepsKeys setKeys b (setFs b [(R.updStatus_phase, 0), (R.updStatus_chipsDone, 0)]) :=
    .setFs (by simp only [List.map_cons, List.map_nil]; decide) b
  have hd := (OnlyReg.setFs b [(R.updStatus_phase, 0), (R.updStatus_chipsDone, 0)]).trans (chipsIdle_onlyReg _)
  exact ⟨(congrArg State.mode hd.eq).trans hmode, (congrArg State.team hd.eq).trans hteam,
    (congrArg State.feed hd.eq).trans hfeed, (congrArg State.job hd.eq).trans (by rw [← hjob]),
    (hka.trans hb).trans (hkc.trans (chipsIdle_keys _))⟩

/-! ## The commit -/

/-! ### The team that an amendment changes -/

theorem showTeamFlags_job (s : State) (l : List Nat) : (showTeamFlags s l).job = s.job :=
  forEach_frame State.job (fun t n => setF_job t _ n _) _ s

theorem clearTeam_job (s : State) : (clearTeam s).job = s.job := (showTeamFlags_job _ _).trans (setFs_job _ _)

theorem leaveTeam_job (s : State) : (leaveTeam s).job = s.job := by
  unfold leaveTeam
  split
  · exact (OnlyStores.forEach (fun t p => .sendTeam t p 9 0 0 0 0 []) _ s).job
  · rfl

theorem refuseTeam_job (s : State) (cause : Nat) : (refuseTeam s cause).job = s.job :=
  (raise_job _ _ _ _ _).trans (setFs_job _ _)

theorem joinTeam_job (s : State) : (joinTeam s).job = s.job := by
  unfold joinTeam
  extract_lets a
  have ha : a.job = s.job := clearTeam_job s
  split
  · exact ha
  · extract_lets x b _ c
    have hb : b.job = s.job := (showTeamFlags_job _ _).trans ((setFs_job _ _).trans ha)
    clear_value b
    have hc : c.job = s.job := hb
    split
    · exact (refuseTeam_job _ _).trans hc
    · exact hc

theorem amendTeam_job (s : State) (old new : Image) : (amendTeam s old new).job = s.job := by
  unfold amendTeam
  extract_lets a
  split
  · rfl
  · exact (joinTeam_job _).trans (leaveTeam_job _)

/-! ### The amendments and the step -/

theorem changedHistories_job (s : State) (old new : Image) : (changedHistories s old new).job = s.job := rfl

theorem loadPrograms_job (s : State) (i : Image) : (loadPrograms s i).job = s.job :=
  forEach_frame State.job (fun t z => setF_job t _ z _) _ s

theorem loadArb_job (s : State) (i : Image) (own : Nat) : (loadArb s i own).job = s.job := by
  unfold loadArb
  extract_lets a
  have ha : a.job = s.job := forEach_frame State.job (fun t p => by rw [setF_job, setF_job]) _ s
  exact (forEach_frame State.job (fun t r => by rw [setF_job, setF_job]) _ a).trans ha

theorem applyAmend_token (s : State) (x : Amend) : (applyAmend s x).job.token = s.job.token := by
  unfold applyAmend
  split
  · rfl
  · extract_lets tag new _ a b c d e
    have hb : b.job = a.job := when_frame State.job (fun t => changedHistories_job t _ new) _ a
    have hc : c.job = b.job := when_frame State.job (fun t => loadPrograms_job t new) _ b
    have hd : d.job = c.job := when_frame State.job (fun t => loadArb_job t new _) _ c
    have he : e.job = d.job := when_frame State.job (fun t => amendTeam_job t _ new) _ d
    rw [complete, sendCompletion, sendNumbered_job, setF_job, raise_job, he, hd, hc, hb]
    rfl

theorem applyAmends_token (s : State) : (applyAmends s).job.token = s.job.token :=
  (congrArg Job.token (setFs_job _ _)).trans
    (forEach_frame (fun t => t.job.token) applyAmend_token s.job.amends s)

theorem applyAmends_amends (s : State) : (applyAmends s).job.amends = [] := congrArg Job.amends (setFs_job _ _)

/-- The step `n` is shown in RUNNING, with the next one expected; no token is held and no command (R149). -/
structure StepShown (n : Nat) (t : State) : Prop where
  mode : t.mode = .running
  step : getF t R.gteStep_step = n % 2 ^ 40
  expected : getF t R.gteNext_expected = (n + 1) % 2 ^ 40
  anyStep : getF t R.gteNext_anyStep = 0
  gateComplete : getF t R.gteStatus_gateComplete = 0
  token : t.job.token = none
  amends : t.job.amends = []

theorem StepShown.steady {n : Nat} {W : Nat → Prop} {s t : State} (h : StepShown n s) (k : Steady W s t) : StepShown n t where
  mode := k.mode.trans h.mode
  step := (k.keys _ 0 (by decide)).trans h.step
  expected := (k.keys _ 0 (by decide)).trans h.expected
  anyStep := (k.keys _ 0 (by decide)).trans h.anyStep
  gateComplete := (k.keys _ 0 (by decide)).trans h.gateComplete
  token := k.token.trans h.token
  amends := k.amends.trans h.amends

/-- The beginning of the step shows its first pass, whatever the frames that waited do (R291, R323). -/
theorem beginStep_shown {n : Nat} {s : State} (h : StepShown n s) :
    StepShown n (beginStep s) ∧ getF (beginStep s) R.genPass_pass = 1 := by
  unfold beginStep
  extract_lets a b c d
  have ha : StepShown n a := h.steady (Steady.refl noStall s).readQueues
  clear_value a
  have hb : StepShown n b := by
    obtain ⟨hmode, hstep, hexp, hany, hgate, htoken, hamends⟩ := ha
    constructor
    case mode => exact (setFs_mode _ _).trans hmode
    case token => exact (congrArg Job.token (setFs_job _ _)).trans htoken
    case amends => exact (congrArg Job.amends (setFs_job _ _)).trans hamends
    all_goals simpa (disch := decide) only [b, setFs, List.foldl_cons, List.foldl_nil, getF_setF_ne]
  have hpass : getF b R.genPass_pass = 1 := by
    simp (disch := decide) only [b, setFs, List.foldl_cons, List.foldl_nil, getF_setF_ne, getF_setF]
    rfl
  clear_value b
  have hd : Steady noStall b d := ((Steady.refl noStall b).showClosed.forEach (fun _ _ k => k.startProgram _) _).wakeForWrites _
  have hend : Steady noStall b (noteArrival (releaseHeld d)) := (hd.releaseHeld hb.mode).noteArrival
  exact ⟨hb.steady hend, (hend.keys _ 0 (by decide)).trans hpass⟩

/-- The fields that a commit of step `n` sets. -/
def commitFields (n : Nat) : List (Field × Nat) :=
  [(R.gteStep_step, n), (R.gteNext_expected, n + 1), (R.gteNext_anyStep, 0), (R.gteStatus_gateComplete, 0)]

theorem commitFields_keys (s : State) (n : Nat) : getF (setFs s (commitFields n)) R.gteStep_step = n % 2 ^ 40 ∧
    getF (setFs s (commitFields n)) R.gteNext_expected = (n + 1) % 2 ^ 40 ∧
    getF (setFs s (commitFields n)) R.gteNext_anyStep = 0 ∧ getF (setFs s (commitFields n)) R.gteStatus_gateComplete = 0 := by
  simp (disch := decide) only [commitFields, setFs, List.foldl_cons, List.foldl_nil, getF_setF_ne, getF_setF, Nat.zero_mod,
    and_true]
  exact ⟨rfl, rfl⟩

theorem StepCleared.shown {s t : State} (h : StepCleared s t) {n : Nat} (hs : getF s R.gteStep_step = n % 2 ^ 40)
    (he : getF s R.gteNext_expected = (n + 1) % 2 ^ 40) (ha : getF s R.gteNext_anyStep = 0)
    (hg : getF s R.gteStatus_gateComplete = 0) (ht : s.job.token = none) (hl : s.job.amends = []) :
    StepShown n { t with mode := .running } where
  mode := rfl
  step := (h.keys R.gteStep_step 0 (by decide)).trans hs
  expected := (h.keys R.gteNext_expected 0 (by decide)).trans he
  anyStep := (h.keys R.gteNext_anyStep 0 (by decide)).trans ha
  gateComplete := (h.keys R.gteStatus_gateComplete 0 (by decide)).trans hg
  token := (congrArg Job.token h.job).trans ht
  amends := (congrArg Job.amends h.job).trans hl

theorem commitFields_shown {s : State} (ht : s.job.token = none) (ha : s.job.amends = []) (n : Nat) :
    StepShown n { clearStep (setFs s (commitFields n)) with mode := .running } := by
  obtain ⟨hstep, hexp, hany, hgate⟩ := commitFields_keys s n
  have hj : (setFs s (commitFields n)).job = s.job := setFs_job _ _
  exact (clearStep_cleared _).shown hstep hexp hany hgate (by rw [hj, ht]) (by rw [hj, ha])

theorem commitPending_job (s : State) (k : Cal) (snap : Tab Nat) : (commitPending { s with cal := k } snap).job = s.job := rfl

/-- The values of the commit, with the tiles whose range they change (R17, R227). -/
theorem commitValues_job {s : State} (ht : s.job.token = none) (ha : s.job.amends = []) (k : Cal) (snap : Tab Nat)
    (l : List Nat) : (forEach l noteRange (commitPending { s with cal := k } snap)).job.token = none ∧
      (forEach l noteRange (commitPending { s with cal := k } snap)).job.amends = [] := by
  have hj := commitPending_job s k snap
  have hc := (Steady.refl noStall (commitPending { s with cal := k } snap)).forEach (fun _ u h => h.noteRange u) l
  exact ⟨hc.token.trans ((congrArg Job.token hj).trans ht), hc.amends.trans ((congrArg Job.amends hj).trans ha)⟩

/-- A commit runs the token's step (R149). -/
theorem commitGate_shown (s : State) (x : Token) :
    StepShown x.step (commitGate s x) ∧ getF (commitGate s x) R.genPass_pass = 1 := by
  unfold commitGate
  extract_lets checks table ranges _ a _ b c d e f g h i
  have hc : c.job.token = none ∧ c.job.amends = [] :=
    commitValues_job (applyAmends_token _) (applyAmends_amends _) _ _ _
  have hf : StepShown x.step f := commitFields_shown hc.1 hc.2 x.step
  have hg : Steady noStall f g := ((Steady.refl _ f).clearSuspects _).showBound _
  have hh : Steady noStall f h := hg.newTable _
  have hi : Steady noStall f i := hh.commitWeights.forEach (fun _ _ k => k.showScale _) _
  exact beginStep_shown (hf.steady hi)

end Sys2Proof.Machine
end

section
/-! The statement on the gate token (R147, R149, R420). -/
namespace Sys2Proof.Machine
set_option Elab.async false
open Sys2Proof

/-! ## A frame in sequence leaves the job as it is -/

section
variable (s : State) (f : CtlFrame)

theorem inOrder_mode : (s.inOrder f).mode = s.mode := (inOrder_eq s f).mode
theorem inOrder_job : (s.inOrder f).job = s.job := (inOrder_eq s f).job
theorem inOrder_reg : (s.inOrder f).reg = s.reg := (inOrder_eq s f).reg
theorem inOrder_mem : (s.inOrder f).mem = s.mem := (inOrder_eq s f).mem
theorem inOrder_pend : (s.inOrder f).pend = s.pend := (inOrder_eq s f).pend

end

/-! ## The gate token -/

/-- The token of a GATE frame: its step and tag, and the pending values of that moment (R17, R149). -/
def tokenOf (s : State) (f : CtlFrame) : Token := { step := f.step, planTag := f.planTag, snapshot := s.pend }

/-- The state in which a GATE frame is answered, its token held (R149). -/
def tokenHeld (s : State) (f : CtlFrame) : State :=
  { answerGate s f (if atRest s then 0 else 1) with job := { s.job with token := some (tokenOf s f) } }

theorem tokenHeld_mode (s : State) (f : CtlFrame) : (tokenHeld s f).mode = s.mode := rfl
theorem tokenHeld_reg (s : State) (f : CtlFrame) : (tokenHeld s f).reg = s.reg := rfl
theorem tokenHeld_mem (s : State) (f : CtlFrame) : (tokenHeld s f).mem = s.mem := rfl
theorem tokenHeld_token (s : State) (f : CtlFrame) : (tokenHeld s f).job.token = some (tokenOf s f) := rfl
theorem tokenHeld_amends (s : State) (f : CtlFrame) : (tokenHeld s f).job.amends = s.job.amends := rfl

theorem tokenHeld_answers (s : State) (f : CtlFrame) :
    (tokenHeld s f).answers f (leBytes 1 (if atRest s then 0 else 1) ++ leBytes 7 0) := answers_respond s f _

theorem atRest_congr {s t : State} (hm : t.mode = s.mode) (hr : t.reg = s.reg) : atRest t = atRest s := by
  simp only [atRest, onF, hm, getF_congr hr]

/-- A GATE frame that fits: the job stands with no token and no end in sight, the projected tag, the expected step (R147, R149). -/
structure GateFits (s : State) (f : CtlFrame) : Prop where
  form : f.step = fieldAt f.body 0 8
  small : f.step < 2 ^ 40
  job : inJob s = true
  token : s.job.token = none
  goesOn : jobEnding s = false
  tag : f.planTag = getF s R.hrnPlanNext_planTag
  more : stepNo s ≠ 0xFFFFFFFFFF
  expected : onF s R.gteNext_anyStep = true ∨ getF s R.gteNext_expected = f.step

theorem GateFits.congr {s t : State} {f : CtlFrame} (h : GateFits s f) (hm : t.mode = s.mode) (hj : t.job = s.job)
    (hr : t.reg = s.reg) : GateFits t f := by
  obtain ⟨hform, hsmall, hjob, htok, hgo, htag, hmore, hexp⟩ := h
  constructor
  case form => exact hform
  case small => exact hsmall
  case job => simpa only [inJob, hm] using hjob
  case token => rw [hj, htok]
  case goesOn => simpa only [jobEnding, hj] using hgo
  case tag => rwa [getF_congr hr]
  case more => simpa only [stepNo, getF_congr hr] using hmore
  case expected => simpa only [onF, getF_congr hr] using hexp

theorem gateFrame_fits {s : State} {f : CtlFrame} (h : GateFits s f) : gateFrame f s = tryCommit (tokenHeld s f) := by
  obtain ⟨hform, hsmall, hjob, htok, hgo, htag, hmore, hexp⟩ := h
  have hn : ¬ (f.step ≠ fieldAt f.body 0 8 ∨ fieldAt f.body 0 8 / 2 ^ 40 ≠ 0) := by
    rw [← hform]
    omega
  have hfree : ¬ (!inJob s || s.job.token.isSome || jobEnding s) = true := by simp [hjob, htok, hgo]
  have hnext : ¬ (stepNo s = 0xFFFFFFFFFF ∨ (!(onF s R.gteNext_anyStep || fieldAt f.body 0 8 == getF s R.gteNext_expected)) = true) := by
    rw [← hform]
    rcases hexp with h | h <;> simp [hmore, h]
  unfold gateFrame
  extract_lets n u x _
  rw [if_neg hn, if_neg hfree, if_neg (not_not.mpr htag), if_neg hnext]
  simp only [tokenHeld, x, u, n, ← hform]
  rfl

theorem tryCommit_commits {s : State} {x : Token} (ht : s.job.token = some x) (hrest : atRest s = true)
    (hstaged : amendsStaged s = true) : tryCommit s = commitGate s x := by
  simp [tryCommit, ht, hrest, hstaged]

theorem tryCommit_waits {s : State} (h : atRest s = false ∨ amendsStaged s = false) : tryCommit s = s := by
  unfold tryCommit
  split
  · rcases h with h | h <;> simp [h]
  · rfl

theorem atRest_tokenHeld (s : State) (f : CtlFrame) : atRest (tokenHeld s f) = atRest s :=
  atRest_congr (tokenHeld_mode s f) (tokenHeld_reg s f)

theorem amendsStaged_tokenHeld (s : State) (f : CtlFrame) : amendsStaged (tokenHeld s f) = amendsStaged s := by
  rw [amendsStaged, amendsStaged, tokenHeld_amends]

theorem atRest_inOrder (s : State) (f : CtlFrame) : atRest (s.inOrder f) = atRest s :=
  atRest_congr (inOrder_mode s f) (inOrder_reg s f)

theorem amendsStaged_inOrder (s : State) (f : CtlFrame) : amendsStaged (s.inOrder f) = amendsStaged s := by
  rw [amendsStaged, amendsStaged, inOrder_job]

/-- A GATE frame that fits, in sequence. -/
theorem exec_gate {s : State} {f : CtlFrame} (h : s.takes f 0x20) (hfits : GateFits s f) :
    exec (.gate f) s = .next (tryCommit (tokenHeld (s.inOrder f) f)) := by
  have hfits' := hfits.congr (inOrder_mode s f) (inOrder_job s f) (inOrder_reg s f)
  exact (session_command h (gateFrame f)).trans (congrArg _ (gateFrame_fits hfits'))

/-- Settles O31: a commit at rest, the token held otherwise. -/
theorem gateToken : Obligations.GateToken := by
  refine ⟨fun s f h hform hsmall hjob htok hgo htag hmore hexp hrest hstaged => ?_,
    fun s f h hform hsmall hjob htok hgo htag hmore hexp hwait => ?_⟩
  · refine ⟨_, exec_gate h ⟨hform, hsmall, hjob, htok, hgo, htag, hmore, hexp⟩, ?_⟩
    rw [tryCommit_commits (tokenHeld_token _ f) (by rw [atRest_tokenHeld, atRest_inOrder, hrest])
      (by rw [amendsStaged_tokenHeld, amendsStaged_inOrder, hstaged])]
    obtain ⟨⟨hm, hs, he, ha, hg, ht, hl⟩, hp⟩ := commitGate_shown (tokenHeld (s.inOrder f) f) (tokenOf (s.inOrder f) f)
    exact ⟨hm, hs.trans (Nat.mod_eq_of_lt hsmall), he, ha, hg, hp, ht, hl⟩
  · refine ⟨_, exec_gate h ⟨hform, hsmall, hjob, htok, hgo, htag, hmore, hexp⟩, ?_⟩
    rw [tryCommit_waits (by rwa [atRest_tokenHeld, atRest_inOrder, amendsStaged_tokenHeld, amendsStaged_inOrder]),
      tokenHeld_mode, tokenHeld_reg, tokenHeld_mem, tokenHeld_token, tokenOf, inOrder_pend]
    refine ⟨inOrder_mode s f, inOrder_reg s f, inOrder_mem s f, rfl, ?_⟩
    rw [← atRest_inOrder s f]
    exact tokenHeld_answers _ f

end Sys2Proof.Machine
end

section
/-! Array writes, failed tiles and lost stalls leave the job as it stands (R233 to R241, R301, R428, R436 to R442). -/
namespace Sys2Proof.Machine
set_option Elab.async false
open Sys2Proof

namespace Steady
variable {W : Nat → Prop} {z s : State}

/-! ## Writing levels into an array (R236, R239, R240) -/

theorem setRow (h : Steady W z s) (tile r : Nat) (l : List (Nat × Int)) : Steady W z (setRow s tile r l) := by
  unfold Machine.setRow
  extract_lets k old zero new _
  exact h.same rfl

theorem setLevels (h : Steady W z s) (tile : Nat) (l : List (Nat × Nat × Int)) : Steady W z (setLevels s tile l) := by
  unfold Machine.setLevels
  extract_lets t _
  have ht : Steady W z t := h.forEach (fun _ _ k => k.setRow _ _ _) _
  clear_value t
  exact ht.same

theorem wearShow (h : Steady W z s) (tile pair : Nat) : Steady W z (wearShow s tile pair) := by
  unfold Machine.wearShow
  extract_lets n p t a b
  have ha : Steady W z a := h.when ((h.setUnit (by decide) _ _).setUnit (by decide) _ _) _
  have hb : Steady W z b := ha.when (ha.raiseOnce _ _ _ _ _) _
  exact ite ((hb.setUnit (by decide) _ _).raise _ _ _ _) hb

theorem pulse (h : Steady W z s) (tile pair : Nat) : Steady W z (pulse s tile pair) := by
  unfold Machine.pulse
  extract_lets x _ t k
  have ht : Steady W z t := h.same
  exact ite (ht.same.wearShow _ _) ht

theorem addStuck (h : Steady W z s) (tile pair : Nat) : Steady W z (addStuck s tile pair) :=
  ite h (h.same.setUnit (by decide) _ _)

theorem stickPairs (h : Steady W z s) (tile r : Nat) (l : List (Nat × Int)) : Steady W z (stickPairs s tile r l) := by
  unfold Machine.stickPairs
  exact h.forEach (fun _ _ k => k.addStuck _ _) l

theorem writeRow (h : Steady W z s) (tile r : Nat) (full : Bool) (old : List Int) (l : List (Nat × Int))
    (reads : List (List CellRead)) : Steady W z (writeRow s tile r full old l reads).1 := by
  unfold Machine.writeRow
  extract_lets skip l' data x new a b
  clear_value x
  have ha : Steady W z a := h.setLevels _ _
  have hb : Steady W z b := ha.forEach (fun _ _ k => k.pulse _ _) _
  exact hb.stickPairs _ _ _

theorem writeRows (tile : Nat) (full : Bool) (old : Nat → List Int) (l : List (Nat × Nat × Int)) (w : WriteReport)
    (rs : List Nat) (h : Steady W z s) : Steady W z (writeRows tile full old l w rs s).1 := by
  induction rs generalizing s with
  | nil => exact h
  | cons r rs ih =>
    unfold Machine.writeRows
    extract_lets x y
    have hx : Steady W z x.1 := h.writeRow _ _ _ _ _ _
    clear_value x
    exact ih hx

theorem endWrite (h : Steady W z s) (tile n : Nat) (st : List (Nat × Nat × Int)) : Steady W z (endWrite s tile n st).1 := by
  unfold Machine.endWrite
  extract_lets p t
  split
  · exact h
  · extract_lets a k past b
    have ha : Steady W z a := h.raiseOnce _ _ _ _ _
    have hb : Steady W z b := ha.when (ha.raise _ _ _ _) past
    exact hb

theorem writePairs (h : Steady W z s) (tile : Nat) (l : List (Nat × Nat × Int)) (w : WriteReport) :
    Steady W z (writePairs s tile l w).1 := by
  unfold Machine.writePairs
  split
  · exact h
  · exact (writeRows _ _ _ _ _ _ h).endWrite _ _ _

theorem zeroLevels (h : Steady W z s) (tile : Nat) : Steady W z (zeroLevels s tile) := h.same

theorem clearStuck (h : Steady W z s) (tile : Nat) : Steady W z (clearStuck s tile) := h.same.setUnit (by decide) _ _

theorem fullWrite (h : Steady W z s) (tile : Nat) (l : List (Nat × Nat × Int)) (w : WriteReport) :
    Steady W z (fullWrite s tile l w).1 := by
  unfold Machine.fullWrite
  split
  · exact h
  · exact (writeRows _ _ _ _ _ _ ((h.clearStuck tile).zeroLevels tile)).endWrite _ _ _

/-! ## Level records -/

theorem recordWrite (h : Steady W z s) (base : Nat) (l : List (Nat × Nat × Int)) : Steady W z (recordWrite s base l) :=
  h.forEach (fun _ _ k => k.patch _ _ _) _

theorem recordStuck (h : Steady W z s) (pl : Placement) (l : List (Nat × Nat × Int)) : Steady W z (recordStuck s pl l) :=
  h.recordWrite _ _

theorem recordTile (h : Steady W z s) (pl : Placement) (tile : Nat) : Steady W z (recordTile s pl tile) := h.write _ _

theorem rowsReadable (h : Steady W z s) (base : Nat) (rows : List Nat) : Steady W z (rowsReadable s base rows).1 := by
  unfold Machine.rowsReadable
  refine foldl_fst (fun x r hx => ?_) h rows
  exact hx.loftRead _ _

theorem refillRows (h : Steady W z s) (p t base : Nat) (rows : List Nat) (pl : Placement) (w : WriteReport) :
    Steady W z (refillRows s p t base rows pl w).1 := by
  unfold Machine.refillRows
  extract_lets l r
  have hr : Steady W z r.1 := h.writePairs _ _ _
  dsimp only
  exact hr.recordStuck pl r.2.stuck

/-! ## Rotations, rebuilds and spares (R235, R436, R439 to R441) -/

theorem showRotation (h : Steady W z s) (p : Nat) : Steady W z (showRotation s p) := by
  unfold Machine.showRotation
  split
  · exact (((h.setUnit (by decide) _ _).setUnit (by decide) _ _).setUnit (by decide) _ _).setUnit (by decide) _ _
  · exact ((((h.setUnit (by decide) _ _).setUnit (by decide) _ _).setUnit (by decide) _ _).setUnit (by decide) _ _).setUnit
      (by decide) _ _

theorem dropFill (h : Steady W z s) (p : Nat) (rebuild : Bool) : Steady W z (dropFill s p rebuild) := h.same.showRotation p

theorem dropTrims (h : Steady W z s) (p kind : Nat) : Steady W z (dropTrims s p kind) := h.same

theorem showRebuild (h : Steady W z s) (b : Nat) : Steady W z (showRebuild s b) :=
  (h.setUnit (by decide) b _).setUnit (by decide) b _

theorem pruneRebuilds (h : Steady W z s) (p : Nat) : Steady W z (pruneRebuilds s p) := ite h (h.same.showRebuild _)

theorem restartRebuild (h : Steady W z s) (p : Nat) (f : Fill) : Steady W z (restartRebuild s p f) := by
  unfold Machine.restartRebuild
  extract_lets t
  have ht : Steady W z t := ((h.dropTrims p 5).dropFill p true).raise _ _ _ _
  exact ht.same.showRebuild _

section
variable {p : Nat} (hp : ¬ W p)
include hp

theorem settle (h : Steady W z s) : Steady W z (settle s p) := ite (h.modStall hp _) h

theorem abandonRotation (h : Steady W z s) (row : Nat) : Steady W z (abandonRotation s p row) := by
  unfold Machine.abandonRotation
  split
  · exact h
  · extract_lets t
    have ht : Steady W z t := (h.dropTrims p 3).dropFill p false
    exact settle hp (ite (ht.raise _ _ _ _) ht)

theorem loseSpare (h : Steady W z s) (t : Nat) : Steady W z (loseSpare s p t) :=
  ite ((h.modStall hp _).raise _ _ _ _) (ite ((h.modStall hp _).raise _ _ _ _) h)

theorem moveSlot (h : Steady W z s) (slot t : Nat) : Steady W z (moveSlot s p slot t) :=
  (((h.modStall hp _).setUnit (by decide) _ _).setUnit (by decide) _ _).setUnit (by decide) _ _

theorem takeOver (h : Steady W z s) (f : Fill) : Steady W z (takeOver s p f) := by
  unfold Machine.takeOver
  extract_lets t u
  have ht : Steady W z t := by
    dsimp only [t]
    split
    · exact (h.rowsReadable _ _).refillRows _ _ _ _ _ _
    · exact h
  have hu : Steady W z u := (moveSlot hp ht f.slot f.toTile).modStall hp _
  exact (abandonRotation hp hu 2).raise _ _ _ _

/-! ## Failed tiles and lost stalls (R235, R441, R442) -/

theorem failSlot (h : Steady W z s) (t slot cause : Nat) : Steady W z (failSlot s p t slot cause) := by
  unfold Machine.failSlot
  split
  · exact ite h.same (ite (takeOver hp h _) (ite (abandonRotation hp h 3).same (settle hp (h.dropFill p false)).same))
  · exact h.same

theorem loseStall (h : Steady W z s) (cause : Nat) : Steady W z (loseStall s p cause) := by
  unfold Machine.loseStall
  extract_lets a b c _ _ d _ e f
  have ha : Steady W z a := ite h (h.setF (by decide) _)
  have hb : Steady W z b := abandonRotation hp ha 5
  have hc : Steady W z c := hb.dropFill p true
  clear_value c
  have hd : Steady W z d := hc.same
  have he : Steady W z e := (hd.showRebuild _).setChan _ _
  have hf : Steady W z f := he.modStall hp _
  exact hf.holdGate.raise _ _ _ _

theorem failTile (h : Steady W z s) (t cause : Nat) : Steady W z (failTile s p t cause) := by
  unfold Machine.failTile
  extract_lets st a _ b c d e f
  have ha : Steady W z a := Steady.setUnit (f := R.fusStallField_tileFieldOff) (h.modStall hp _) (by decide) _ _
  have hb : Steady W z b := ha.same
  have hc : Steady W z c := ite (abandonRotation hp hb 1) hb
  have hd : Steady W z d := ite (hc.dropFill p false) hc
  have he : Steady W z e := by
    dsimp only [e]
    split
    · exact ite (hd.restartRebuild p _) hd
    · exact hd
  have hf : Steady W z f := loseSpare hp he t
  refine ite h (ite (loseStall hp hf 1) ?_)
  split
  · exact settle hp (hf.pruneRebuilds p)
  · exact failSlot hp hf _ _ _

end

end Steady

end Sys2Proof.Machine
end

section
/-! The gate window's writes and pushes, the report of gate-complete, and the statement on the gate window (R149, R151, R240,
R261, R271, R449, R453, R454, R476). -/
namespace Sys2Proof.Machine
set_option Elab.async false
open Sys2Proof

namespace Steady
variable {W : Nat → Prop} {z s : State}

/-! ## The writes of the window (R239, R240, R301) -/

theorem markRows (h : Steady W z s) (p slot : Nat) (rows : List Nat) : Steady W z (markRows s p slot rows) := h.same rfl

theorem writeSlot (h : Steady noStall z s) (w : List (Nat × WriteReport)) (x : (Nat × Nat) × List (Nat × Nat × Int)) :
    Steady noStall z (writeSlot w s x) := by
  unfold Machine.writeSlot
  extract_lets p slot a pos tile l r
  have ha : Steady noStall z a := h.markRows _ _ _
  have hr : Steady noStall z r.1 := ha.writePairs _ _ _
  split
  · exact h
  · extract_lets base b c
    have hb : Steady noStall z b := hr.recordWrite _ _
    have hc : Steady noStall z c := (hb.bumpF (by decide) _).bumpF (by decide) _
    split
    · exact (ha.recordWrite _ _).recordWrite _ _
    · exact ite (ha.recordWrite _ _) (ite (failTile id hc _ _) hc)

theorem showClamped (h : Steady W z s) : Steady W z (showClamped s) := by
  unfold Machine.showClamped
  extract_lets ls
  refine (h.clearUnits (by decide)).forEach (fun t l ht => ?_) ls
  exact (ht.bumpUnit (by decide) _ _).raiseOnce _ _ _ _ _

theorem windowWrites (h : Steady noStall z s) (w : List (Nat × WriteReport)) : Steady noStall z (windowWrites w s) := by
  unfold Machine.windowWrites
  extract_lets worn a b c
  have ha : Steady noStall z a := (h.setFs (by simp only [List.map_cons, List.map_nil]; decide)).showClamped
  have hb : Steady noStall z b := ha.forEach (fun _ _ k => k.writeSlot _ _) _
  have hc : Steady noStall z c := hb.forEach (fun _ _ k => failTile id k _ _) _
  exact hc.setF (by decide) _

/-! ## The pushes of the window (R261, R271) -/

theorem flatField_mem (l : Nat) : flatField l ∈ [R.fmtFlatCnt_count0, R.fmtFlatCnt_count1, R.fmtFlatCnt_count2, R.fmtFlatCnt_count3] := by
  unfold flatField
  split <;> simp

theorem flatField_apart (l : Nat) : (flatField l).apartFrom jobKeys = true := by
  have hall : ∀ f ∈ [R.fmtFlatCnt_count0, R.fmtFlatCnt_count1, R.fmtFlatCnt_count2, R.fmtFlatCnt_count3],
      f.apartFrom jobKeys = true := by decide
  exact hall _ (flatField_mem l)

theorem flatLayer (h : Steady W z s) (l : Nat) : Steady W z (flatLayer s l) := by
  unfold Machine.flatLayer
  extract_lets ran g _ t n th
  have ht : Steady W z t := ite h (ite (h.bumpUnit (flatField_apart l) _ 1) (h.same.setUnit (flatField_apart l) _ 0))
  exact ite (ht.same.raise _ _ _ _) ht

theorem touchNumeric (h : Steady W z s) : Steady W z (touchNumeric s) :=
  (h.protect _ _).ofStores (by constructor <;> rfl) (.same rfl) rfl id

theorem windowPushes (h : Steady W z s) : Steady W z (windowPushes s) := by
  unfold Machine.windowPushes
  have hpush : Steady W z (pushHistories s) := h.same rfl
  exact (hpush.forEach (fun _ _ k => k.flatLayer _) _).touchNumeric

end Steady

end Sys2Proof.Machine
end

section
/-! The fields of the release, the feed and the step through the halt of a job, the report of gate-complete, JOB_END and the end
of a ROLLBACK (R145 to R147, R449, R453, R458). -/
namespace Sys2Proof.Machine
set_option Elab.async false
open Sys2Proof

/-- The step released, what the feed has consumed, the step and the next one expected. -/
def heldKeys : List Nat :=
  [fkey R.pairRelease_step 0, fkey R.hstFeedConsumed_consumed 0, fkey R.gteStep_step 0, fkey R.gteNext_expected 0,
    fkey R.gteNext_anyStep 0]

theorem heldKeys_subset : heldKeys ⊆ setKeys := by decide

/-- Those fields read the same in both states. -/
abbrev KeepsHeld (s t : State) : Prop := KeepsKeys heldKeys s t

namespace KeepsHeld

theorem setUnit {f : Field} (hf : f.apartFrom heldKeys = true) (s : State) (u v : Nat) : KeepsHeld s (setF s f u v) :=
  .setF (fkey_of_apartFrom hf u) s v

theorem raise (s : State) (code coord d0 d1 : Nat) : KeepsHeld s (raise s code coord d0 d1) :=
  .ofReg (.raise s code coord d0 d1) (by decide)

/-! ## Completions (R144) -/

theorem complete (s : State) (c : CmdRec) (status detail : Nat) : KeepsHeld s (complete s c status detail) :=
  (setUnit (by decide) s _ _).trans (.same (sendNumbered_reg _ _))

theorem finish (s : State) (c : CmdRec) (status detail : Nat) : KeepsHeld s (finish s c status detail) :=
  (KeepsKeys.same (by rfl)).trans (complete _ c status detail)

theorem dropAmends (s : State) (status : Nat) : KeepsHeld s (dropAmends s status) := by
  unfold Machine.dropAmends
  extract_lets t _ u
  have ht : KeepsHeld s t := .forEach (fun t a _ => complete t a.cmd status 0) s
  have hu : KeepsHeld s u := (ht.trans (.same (by rfl))).trans (.setFs (by simp only [List.map_cons, List.map_nil]; decide) _)
  exact hu.trans (.setF (by decide) _ _)

/-! ## The halt of a job (R144 to R147, R178) -/

theorem stallFields_apart : ∀ f ∈ [R.genStall_pc, R.genStall_pass, R.genStall_idle, R.genStall_faulted, R.genStall_atFwdEnd,
    R.genStall_fbCount, R.genStall_fbSlot0, R.genStall_fbValid0, R.genStall_fbSlot1, R.genStall_fbValid1, R.genStall_bank0,
    R.genStall_bank1], f.apartFrom heldKeys = true := by decide

theorem dropImage (s : State) : KeepsHeld s (dropImage s) := by
  unfold Machine.dropImage
  extract_lets _ _ _ _ a _ b c _ d e f
  have ha : KeepsHeld s a := .same rfl
  have hb : KeepsHeld s b := ha.trans (.forEach (fun t p _ => .same (by rfl)) _)
  have hc : KeepsHeld s c := hb.trans (.forEach (fun t p _ => .forEach (fun u f hf => setUnit (stallFields_apart f hf) u p 0) t) _)
  clear_value c
  have hd : KeepsHeld s d := hc.trans (.same rfl)
  have he : KeepsHeld s e := hd.trans (.forEach (fun t p _ => .ite (fun _ => .same (by rfl)) (fun _ => .refl t)) _)
  have hf : KeepsHeld s f := ((he.trans (.clearUnits (by decide) _)).trans (.clearUnits (by decide) _)).trans
    (.clearUnits (by decide) _)
  exact hf.trans (.setFs (by simp only [List.map_cons, List.map_nil]; decide) _)

theorem endRunning (s : State) : KeepsHeld s (endRunning s) := by
  unfold Machine.endRunning
  split
  · exact .refl s
  · refine .ite (fun _ => .refl s) (fun _ => .ite (fun _ => ?_) (fun _ => finish s _ _ _))
    exact (((raise s _ _ _ _).trans (finish _ _ _ _)).trans (.same (by rfl))).trans (dropImage _)

theorem stopCompute (s : State) : KeepsHeld s (stopCompute s) := by
  unfold Machine.stopCompute
  extract_lets a b c _ d
  have ha : KeepsHeld s a := .forEach (fun t p _ => by
    unfold pauseChan
    exact .ite (fun _ => .same rfl) (fun _ => .refl t)) s
  have hb : KeepsHeld s b := ha.trans (.forEach (fun t p _ => .same (by rfl)) _)
  have hc : KeepsHeld s c := hb.trans (.setF (by decide) _ _)
  clear_value c
  have hd : KeepsHeld s d := hc.trans (.same rfl)
  exact hd.trans (.forEach (fun t z _ => .same (by rfl)) _)

theorem enterHalted (s : State) (cause : Nat) : KeepsHeld s (enterHalted s cause false) := by
  unfold Machine.enterHalted
  refine .ite (fun _ => .refl s) (fun _ => ?_)
  extract_lets a _ b c d
  have ha : KeepsHeld s a := ((endRunning s).trans (dropAmends _ _)).trans (stopCompute _)
  clear_value a
  have hc : KeepsHeld s c := ha.trans (.same rfl)
  have hd : KeepsHeld s d := hc.trans (.setFs (by simp only [List.map_cons, List.map_nil]; decide) _)
  clear_value d
  exact hd.trans (.same rfl)

end KeepsHeld

/-! ## The securing begins (R449) -/

/-- The fields that the beginning of a securing leaves: those of a commit, and the length of the last window. -/
def reportKeys : List Nat := fkey R.gteStatus_lastWindowTicks 0 :: setKeys

theorem reportKeys_not_event : ∀ k ∈ reportKeys, k ∉ eventKeys := by decide

/-- What the beginning of a securing leaves: the mode, the job and the fields of the gate. -/
structure SecuringBegun (s t : State) : Prop where
  mode : t.mode = s.mode
  job : t.job = s.job
  now : t.now = s.now
  keys : KeepsKeys reportKeys s t

theorem SecuringBegun.refl (s : State) : SecuringBegun s s := ⟨rfl, rfl, rfl, .refl s⟩

theorem SecuringBegun.trans {s t u : State} (h : SecuringBegun s t) (k : SecuringBegun t u) : SecuringBegun s u :=
  ⟨k.mode.trans h.mode, k.job.trans h.job, k.now.trans h.now, h.keys.trans k.keys⟩

theorem SecuringBegun.raise (s : State) (code coord d0 d1 : Nat) : SecuringBegun s (raise s code coord d0 d1) :=
  ⟨raise_mode _ _ _ _ _, raise_job _ _ _ _ _, raise_now _ _ _ _ _, .ofReg (.raise s code coord d0 d1) reportKeys_not_event⟩

theorem SecuringBegun.ofReg {s t : State} (h : OnlyReg s t) (k : KeepsKeys reportKeys s t) : SecuringBegun s t :=
  ⟨by rw [h.eq], by rw [h.eq], by rw [h.eq], k⟩

theorem stepSecured_begun (s : State) : SecuringBegun s (stepSecured s) := by
  unfold stepSecured
  split
  · exact .refl s
  · next n _ =>
    refine SecuringBegun.trans (t := { s with team := { s.team with step := none } }) ⟨rfl, rfl, rfl, .same rfl⟩ ?_
    exact (SecuringBegun.ofReg (.setFs _ _) (.setFs (by simp only [List.map_cons, List.map_nil]; decide) _)).trans
      (.raise _ _ _ _ _)

theorem endSecuring_begun (s : State) : SecuringBegun s (endSecuring s) := by
  unfold endSecuring
  split
  · exact .refl s
  · extract_lets t
    have ht : SecuringBegun s t := ⟨rfl, rfl, rfl, .same rfl⟩
    split
    · exact ht.trans ⟨rfl, rfl, rfl, .same rfl⟩
    · exact ht.trans (stepSecured_begun t)

theorem beginSecuring_begun (s : State) : SecuringBegun s (beginSecuring s) := by
  unfold beginSecuring
  extract_lets n ps keep _ a b c
  have ha : SecuringBegun s a := ⟨rfl, rfl, rfl, .same rfl⟩
  have hb : SecuringBegun a b := .ofReg (.setFs _ _) (.setFs (by simp only [List.map_cons, List.map_nil]; decide) _)
  have hc : SecuringBegun s c := (ha.trans hb).trans (.raise _ _ _ _ _)
  split
  · exact .refl s
  · split
    · exact hc.trans (endSecuring_begun c)
    · exact hc

/-! ## The report of gate-complete (R151, R453) -/

/-- Gate-complete has been reported: shown with the length of the window, and told to the host by GATE_DONE (R151). -/
structure GateReported (s t : State) : Prop where
  mode : t.mode = s.mode
  job : t.job = { s.job with gcHeldSince := none, notifiedHold := false }
  complete : onF t R.gteStatus_gateComplete = true
  ticks : getF t R.gteStatus_lastWindowTicks = min (2 ^ 32 - 1) (s.now - s.job.windowStart)
  told : t.numbered.getLast? = some (0x21, leBytes 8 (stepNo s) ++ leBytes 4 (getF t R.gteStatus_lastWindowTicks) ++
    leBytes 4 (4 * b2n (decide (0 < getF t R.pairSecure_pagesLeft))))

theorem reportGate_reported {s : State} (ht : s.job.token = none) (hp : onF s R.gteStatus_haltPending = false) :
    GateReported s (reportGate s) := by
  unfold reportGate
  rw [hp, ht]
  extract_lets halting held a _ b c
  have ha : getF a R.gteStatus_gateComplete = 1 ∧
      getF a R.gteStatus_lastWindowTicks = min (2 ^ 32 - 1) (s.now - s.job.windowStart) ∧ stepNo a = stepNo s := by
    simp (disch := decide) only [a, stepNo, setFs, List.foldl_cons, List.foldl_nil, getF_setF_ne, getF_setF, and_true]
    exact ⟨rfl, Nat.mod_eq_of_lt (Nat.lt_of_le_of_lt (Nat.min_le_left _ _) (by decide))⟩
  obtain ⟨hdone, hticks, hstep⟩ := ha
  have hmode : a.mode = s.mode := setFs_mode _ _
  have hjob : a.job = s.job := setFs_job _ _
  have hb : SecuringBegun { a with job := { a.job with gcHeldSince := none, notifiedHold := false } } b := beginSecuring_begun _
  clear_value a
  have hbjob : b.job = { s.job with gcHeldSince := none, notifiedHold := false } := by rw [hb.job, hjob]
  clear_value b
  have hc : OnlySends b c := .sendNumbered b _
  have hctoken : c.job.token = none := by rw [hc.job, hbjob]; exact ht
  rw [if_neg Bool.false_ne_true, tryCommit_none hctoken]
  have hcticks : getF c R.gteStatus_lastWindowTicks = getF b R.gteStatus_lastWindowTicks := hc.getF _ _
  constructor
  case mode => exact hc.mode.trans (hb.mode.trans hmode)
  case job => exact hc.job.trans hbjob
  case complete =>
    have h1 : getF c R.gteStatus_gateComplete = 1 := (hc.getF _ _).trans ((hb.keys _ 0 (by decide)).trans hdone)
    simp [onF, h1]
  case ticks => exact hcticks.trans ((hb.keys _ 0 (by decide)).trans hticks)
  case told =>
    have hn : stepNo b = stepNo s := (hb.keys R.gteStep_step 0 (by decide)).trans hstep
    rw [hcticks, hc.getF, ← hn]
    have hlast := numbered_last_sendNumbered b
    refine (hlast _).trans ?_
    simp [ctlFrame, b2n, held]

theorem heldKeys_reported : heldKeys ⊆ reportKeys := by decide

theorem KeepsHeld.reportGate {s : State} (h : s.job.token = none) : KeepsHeld s (reportGate s) := by
  unfold Machine.reportGate
  extract_lets halting held a _ b c
  have ha : KeepsHeld s a := .setFs (by simp only [List.map_cons, List.map_nil]; decide) s
  have hja : a.job = s.job := setFs_job _ _
  clear_value a
  have hb : SecuringBegun { a with job := { a.job with gcHeldSince := none, notifiedHold := false } } b := beginSecuring_begun _
  have hkb : KeepsHeld s b := (ha.trans (.same (by rfl))).trans (hb.keys.mono heldKeys_reported)
  have hjb : b.job.token = none := by rw [hb.job, hja]; exact h
  clear_value b
  have hc : OnlySends b c := .sendNumbered b _
  have hkc : KeepsHeld s c := hkb.trans (.same hc.reg)
  have hjc : c.job.token = none := by rw [hc.job]; exact hjb
  clear_value c
  exact .ite (fun _ => (hkc.trans (raise _ _ _ _ _)).trans (enterHalted _ 2)) (fun _ => by rwa [tryCommit_none hjc])

theorem KeepsHeld.tryReport {s : State} (h : s.job.token = none) : KeepsHeld s (tryReport s) := by
  unfold Machine.tryReport
  refine .ite (fun _ => .refl s) (fun _ => ?_)
  split
  · exact reportGate h
  · exact .same rfl

theorem KeepsHeld.endJob (s : State) (c : CmdRec) : KeepsHeld s (endJob s c) := by
  unfold Machine.endJob
  extract_lets a
  have ha : KeepsHeld s a := (dropAmends s 2).trans (.same (by rfl))
  clear_value a
  exact ((ha.trans (.same (by rfl))).trans (.setF (by decide) _ _)).trans (finish _ c 0 0)

theorem KeepsHeld.afterSecured {s : State} (h : s.job.token = none) : KeepsHeld s (afterSecured s) := by
  unfold Machine.afterSecured
  extract_lets a
  have ha : KeepsHeld s a := tryReport h
  split
  · exact .ite (fun _ => ha.trans (endJob a _)) (fun _ => ha)
  · exact ha

/-! ## The statement -/

section
variable {s : State} (hm : s.mode = .gate) (hdone : onF s R.gteStatus_gateComplete = false)
include hm hdone

theorem gateComplete_writes (hready : s.job.gcReady = false) (hwait : writesWait s s.job.toWrite = false)
    (hlink : anyLinkDown s = false) (w : List (Nat × WriteReport)) : gateComplete w s =
      tryReport { windowPushes (windowWrites w s) with
        job := { (windowPushes (windowWrites w s)).job with gcReady := true, toWrite := [] } } := by
  simp [gateComplete, hm, hdone, hready, hwait, hlink]

theorem gateComplete_reports (hready : s.job.gcReady = true) (hold : s.job.gateHold = false) (hcause : holdCause s = none)
    (w : List (Nat × WriteReport)) : gateComplete w s = reportGate s := by
  simp [gateComplete, tryReport, hm, hdone, hready, hold, hcause]

end

/-- The report leaves the window's records, and the mode, as they are. -/
theorem tryReport_keeps {s : State} (ht : s.job.token = none) (hp : onF s R.gteStatus_haltPending = false) :
    (tryReport s).mode = s.mode ∧ (tryReport s).job.gcReady = s.job.gcReady ∧ (tryReport s).job.image = s.job.image := by
  unfold tryReport
  split
  · exact ⟨rfl, rfl, rfl⟩
  · split
    · have h := reportGate_reported ht hp
      exact ⟨h.mode, by rw [h.job], by rw [h.job]⟩
    · exact ⟨rfl, rfl, rfl⟩

theorem bits_lt_40 (v : Nat) : bits v 39 0 < 2 ^ 40 := Nat.mod_lt _ (by decide)

/-- Settles O32: the window's work leaves the job as it stands (`Steady.windowWrites`, `Steady.windowPushes`), and so does what
a release sets going (`KeepsHeld.afterSecured`). -/
theorem gateWindow : Obligations.GateWindow := by
  refine ⟨fun s w hon hm hdone hready hwait hlink ht hp => ?_, fun s w hon hm hdone hready hold hcause ht hp => ?_,
    fun s a k hon hsince hcause hnot hlong => ?_, fun s v hon ht => ?_⟩
  · have h : Steady noStall s (windowPushes (windowWrites w s)) := ((Steady.refl _ s).windowWrites w).windowPushes
    have hm' : (windowPushes (windowWrites w s)).mode = .gate := h.mode.trans hm
    have hp' : onF (windowPushes (windowWrites w s)) R.gteStatus_haltPending = false := by
      simpa only [onF, h.haltPending (by rw [hm]; decide)] using hp
    have ht' : (windowPushes (windowWrites w s)).job.token = none := h.token.trans ht
    have hi' : (windowPushes (windowWrites w s)).job.image = s.job.image := h.image
    refine ⟨_, (inModule_on hon).trans (congrArg _ (gateComplete_writes hm hdone hready hwait hlink w)), ?_⟩
    generalize windowPushes (windowWrites w s) = u at hm' hp' ht' hi'
    obtain ⟨hmode, hready', himage⟩ := tryReport_keeps (s := { u with job := { u.job with gcReady := true, toWrite := [] } }) ht' hp'
    exact ⟨hmode.trans hm', hready', himage.trans hi'⟩
  · have h := reportGate_reported ht hp
    exact ⟨_, (inModule_on hon).trans (congrArg _ (gateComplete_reports hm hdone hready hold hcause w)), h.mode.trans hm,
      h.complete, h.ticks, h.told⟩
  · have hraise : securingHeld s = raise { s with job := { s.job with notifiedHold := true } } 0xD00F cPkg (stepNo s % 2 ^ 32) k := by
      simp [securingHeld, hsince, hcause, hnot, Nat.not_le.mpr hlong]
    exact ⟨_, (inModule_on hon).trans (congrArg _ hraise), by rw [raise_job], raise_mode _ _ _ _ _, rfl⟩
  · refine ⟨releaseWrite v s, inModule_on hon, ?_⟩
    by_cases hv : getF s R.pairRelease_step ≤ bits v 39 0
    · rw [if_pos hv]
      have hset : releaseWrite v s = afterSecured (setF s R.pairRelease_step 0 (bits v 39 0)) := by
        simp [releaseWrite, releaseStatus, Nat.not_lt.mpr hv]
      have hkeeps : KeepsHeld (setF s R.pairRelease_step 0 (bits v 39 0)) _ := .afterSecured ht
      rw [hset, hkeeps R.pairRelease_step 0 (by decide), getF_setF]
      exact Nat.mod_eq_of_lt (bits_lt_40 v)
    · rw [if_neg hv]
      simp [releaseWrite, releaseStatus, Nat.lt_of_not_le hv]

end Sys2Proof.Machine
end

section
/-! Commands that are taken and completed, and what HALT, HALT_CLEAR and JOB_END leave (R141 to R147). -/
namespace Sys2Proof.Machine
set_option Elab.async false
open Sys2Proof

/-! ## A command that its row takes (R142, R143) -/

theorem holds_ring {s : State} {ring op : Nat} {c : CmdRec} (h : s.holds ring op c) : c.ring = ring := by
  obtain ⟨-, -, -, rfl, -, -⟩ := h
  rfl

theorem holds_running {s : State} {ring op : Nat} {c : CmdRec} (h : s.holds ring op c) : s.job.running = none := by
  obtain ⟨-, -, htake, -, -, -⟩ := h
  simp only [canTake, Bool.and_eq_true, Option.isNone_iff_eq_none] at htake
  exact htake.1.1.2

theorem takeCmd_of_holds {s : State} {ring op : Nat} {c : CmdRec} (h : s.holds ring op c) (hop : opcodes.contains op = true)
    (run : State → CmdRec → State) : takeCmd ring op s run = .next (run (s.taken ring) c) := by
  obtain ⟨hr, hon, htake, hc, hcode, hz⟩ := h
  refine (onUnit_on hr hon).trans (congrArg _ ?_)
  simp only [htake, if_true, hc, hcode, hop, hz]
  rfl

/-- A field apart from the rings' consumer indexes reads as before (R142). -/
theorem getF_taken {s : State} {ring : Nat} {f : Field} {u : Nat} (hr : ring < 2)
    (h : ∀ r < 2, fkey f u ≠ fkey R.ctlRingStatus_consumer r) : getF (s.taken ring) f u = getF s f u :=
  getF_setF_ne _ _ (h ring hr)

theorem ringConsumer_taken (s : State) (ring : Nat) :
    ringConsumer (s.taken ring) ring = (ringConsumer s ring + 1) % 2 ^ 32 := getF_setF _ _ _ _

theorem getF_taken_completed (s : State) (ring : Nat) :
    getF (s.taken ring) R.ctlRingStatus_completed ring = getF s R.ctlRingStatus_completed ring :=
  getF_setF_ne _ _ (fkey_ne_of_lo (by decide) _ _)

/-! ## Completions (R144) -/

/-- From `s` to `t` commands are completed: registers count them, frames are sent or queued, and nothing else moves. -/
structure OnlyCompletes (s t : State) : Prop where
  eq : t = { withSends s t with reg := t.reg }

namespace OnlyCompletes
variable {s t u : State}

theorem refl (s : State) : OnlyCompletes s s := ⟨rfl⟩

theorem trans (h : OnlyCompletes s t) (k : OnlyCompletes t u) : OnlyCompletes s u :=
  ⟨(k.eq.trans (congrArg (fun v => { withSends v u with reg := u.reg }) h.eq)).trans rfl⟩

theorem ofReg (h : OnlyReg s t) : OnlyCompletes s t := ⟨h.eq.trans (by rw [h.eq]; rfl)⟩

theorem ofSends (h : OnlySends s t) : OnlyCompletes s t :=
  ⟨h.eq.trans (congrArg (fun r => { withSends s t with reg := r }) h.reg.symm)⟩

theorem complete (s : State) (c : CmdRec) (status detail : Nat) : OnlyCompletes s (complete s c status detail) :=
  (ofReg (.setF s _ _ _)).trans (ofSends (.sendNumbered _ _))

theorem forEach {α : Type} {f : State → α → State} (hf : ∀ s a, OnlyCompletes s (f s a)) (l : List α) (s : State) :
    OnlyCompletes s (forEach l f s) := by
  induction l generalizing s with
  | nil => exact .refl s
  | cons a l ih => exact (hf s a).trans (ih (f s a))

section
variable (h : OnlyCompletes s t)
include h

theorem mode : t.mode = s.mode := (congrArg State.mode h.eq).trans rfl
theorem mem : t.mem = s.mem := (congrArg State.mem h.eq).trans rfl
theorem job : t.job = s.job := (congrArg State.job h.eq).trans rfl
theorem team : t.team = s.team := (congrArg State.team h.eq).trans rfl
theorem feed : t.feed = s.feed := (congrArg State.feed h.eq).trans rfl
theorem board : t.board = s.board := (congrArg State.board h.eq).trans rfl
theorem stalls : t.stalls = s.stalls := (congrArg State.stalls h.eq).trans rfl

end

end OnlyCompletes

theorem numbered_complete (s : State) (c : CmdRec) (status detail : Nat) :
    (complete s c status detail).numbered.getLast? = some (0x30, completionBody c status detail) :=
  numbered_last_sendNumbered _ _

theorem getF_complete_completed (s : State) (c : CmdRec) (status detail : Nat) :
    getF (complete s c status detail) R.ctlRingStatus_completed c.ring =
      (getF s R.ctlRingStatus_completed c.ring + 1) % 2 ^ 32 :=
  ((OnlySends.sendNumbered _ _).getF _ _).trans (getF_setF _ _ _ _)

/-- A field of another place in its word than the completion count reads as before. -/
theorem getF_complete {f : Field} {u : Nat} (h : f.lo % 64 ≠ R.ctlRingStatus_completed.lo % 64) (s : State) (c : CmdRec)
    (status detail : Nat) : getF (complete s c status detail) f u = getF s f u :=
  ((OnlySends.sendNumbered _ _).getF _ _).trans (getF_setF_ne _ _ (fkey_ne_of_lo h _ _))

/-- A completion counts on from what the state before had counted. -/
theorem completes_complete {s t : State} {c : CmdRec}
    (h : getF t R.ctlRingStatus_completed c.ring = getF s R.ctlRingStatus_completed c.ring) (status detail : Nat) :
    s.completes (complete t c status detail) c status detail :=
  ⟨(getF_complete_completed t c status detail).trans (by rw [h]), numbered_complete t c status detail⟩

/-! ## Commands held when a job ends (R145, R179) -/

/-- The commands held are gone, with their completions; the rest of the job and of the module stands. -/
structure AmendsDropped (s t : State) : Prop where
  mode : t.mode = s.mode
  mem : t.mem = s.mem
  job : t.job = { s.job with amends := [] }
  team : t.team = s.team
  feed : t.feed = s.feed
  board : t.board = s.board

theorem AmendsDropped.image {s t : State} (h : AmendsDropped s t) : t.job.image = s.job.image := by rw [h.job]

theorem AmendsDropped.ofReg {s t u : State} (h : AmendsDropped s t) (k : OnlyReg t u) : AmendsDropped s u where
  mode := (congrArg State.mode k.eq).trans h.mode
  mem := (congrArg State.mem k.eq).trans h.mem
  job := (congrArg State.job k.eq).trans h.job
  team := (congrArg State.team k.eq).trans h.team
  feed := (congrArg State.feed k.eq).trans h.feed
  board := (congrArg State.board k.eq).trans h.board

theorem dropAmends_dropped (s : State) (status : Nat) : AmendsDropped s (dropAmends s status) := by
  unfold dropAmends
  extract_lets t _ u
  have ht : OnlyCompletes s t := by
    refine .forEach (fun t a => ?_) _ s
    exact .complete t a.cmd status 0
  clear_value t
  have ha : AmendsDropped s { t with job := { t.job with amends := [] } } :=
    ⟨ht.mode, ht.mem, by rw [ht.job], ht.team, ht.feed, ht.board⟩
  have hu : AmendsDropped s u := ha.ofReg (.setFs _ _)
  exact hu.ofReg (.setF _ _ _ _)

/-! ## HALT (R144, R146, R147) -/

/-- The job, the team and the memory stand. -/
structure KeepsJob (s t : State) : Prop where
  job : t.job = s.job
  team : t.team = s.team
  mem : t.mem = s.mem

namespace KeepsJob
variable {s t u : State}

theorem refl (s : State) : KeepsJob s s := ⟨rfl, rfl, rfl⟩

theorem trans (h : KeepsJob s t) (k : KeepsJob t u) : KeepsJob s u :=
  ⟨k.job.trans h.job, k.team.trans h.team, k.mem.trans h.mem⟩

theorem forEach {α : Type} {f : State → α → State} (hf : ∀ s a, KeepsJob s (f s a)) (l : List α) (s : State) :
    KeepsJob s (forEach l f s) :=
  ⟨forEach_frame State.job (fun t a => (hf t a).job) l s, forEach_frame State.team (fun t a => (hf t a).team) l s,
    forEach_frame State.mem (fun t a => (hf t a).mem) l s⟩

theorem ofReg (h : OnlyReg s t) : KeepsJob s t :=
  ⟨(congrArg State.job h.eq).trans rfl, (congrArg State.team h.eq).trans rfl, (congrArg State.mem h.eq).trans rfl⟩

theorem setF (s : State) (f : Field) (u v : Nat) : KeepsJob s (setF s f u v) := ⟨rfl, rfl, rfl⟩

theorem setMode (s : State) (m : Mode) : KeepsJob s { s with mode := m } := ⟨rfl, rfl, rfl⟩

theorem setAlert (s : State) (i : Nat) : KeepsJob s (setAlert s i) := ⟨rfl, rfl, rfl⟩

theorem setChip (s : State) (z : Nat) (c : Chip) : KeepsJob s (setChip s z c) := ⟨rfl, rfl, rfl⟩

theorem modStall (s : State) (p : Nat) (f : Stall → Stall) : KeepsJob s (modStall s p f) := ⟨rfl, rfl, rfl⟩

theorem pauseChan (s : State) (c : Nat) (park : Bool) : KeepsJob s (pauseChan s c park) := by
  unfold Machine.pauseChan
  extract_lets h
  split
  · exact ⟨rfl, rfl, rfl⟩
  · exact refl s

theorem stopCompute (s : State) : KeepsJob s (stopCompute s) := by
  unfold Machine.stopCompute
  extract_lets a b c _ d
  have ha : KeepsJob s a := .forEach (fun t p => .pauseChan t _ _) _ s
  have hb : KeepsJob a b := .forEach (fun t p => modStall t p _) _ a
  have hc : KeepsJob s c := (ha.trans hb).trans (.setF b _ _ _)
  clear_value c
  have hd : KeepsJob s d := hc.trans ⟨rfl, rfl, rfl⟩
  clear_value d
  exact hd.trans (.forEach (fun t z => setChip t z _) _ d)

end KeepsJob

/-- No token is held, and no writes wait. -/
def withoutToken (s : State) : State := { s with job := { s.job with token := none, toWrite := [], reports := [] } }

/-- Entry to HALTED that loses nothing, with no command in progress (R144 to R147). -/
theorem enterHalted_idle {s : State} (hm : s.mode ≠ .halted) (hr : s.job.running = none) (cause : Nat) :
    enterHalted s cause false = setAlert { setFs (withoutToken (stopCompute (dropAmends s 2))) [(R.ctlState_haltCause, cause),
      (R.ctlState_haltStateLosing, b2n false), (R.gteStatus_haltPending, 0)] with mode := .halted } 6 := by
  have hend : endRunning s = s := by rw [endRunning, hr]
  rw [enterHalted, if_neg (by simpa using hm), hend]
  rfl

/-- With no command in progress, a halt that loses nothing keeps the image and the memory, and no token (R146). -/
theorem enterHalted_keeps {s : State} (hm : s.mode ≠ .halted) (hr : s.job.running = none) (cause : Nat) :
    (enterHalted s cause false).job.token = none ∧ (enterHalted s cause false).job.image = s.job.image ∧
      (enterHalted s cause false).mem = s.mem := by
  rw [enterHalted_idle hm hr]
  have hdrop := dropAmends_dropped s 2
  have hstop := KeepsJob.stopCompute (dropAmends s 2)
  generalize dropAmends s 2 = w at hdrop hstop
  generalize stopCompute w = a at hstop
  have hset : KeepsJob (withoutToken a) (setFs (withoutToken a) [(R.ctlState_haltCause, cause),
    (R.ctlState_haltStateLosing, b2n false), (R.gteStatus_haltPending, 0)]) := .ofReg (.setFs _ _)
  generalize setFs (withoutToken a) _ = d at hset
  obtain ⟨hjob, -, hmem⟩ := (hset.trans (.setMode d .halted)).trans (.setAlert _ 6)
  exact ⟨by rw [hjob]; rfl, by rw [hjob, withoutToken, hstop.job, hdrop.image], (hmem.trans hstop.mem).trans hdrop.mem⟩

end Sys2Proof.Machine
end

section
/-! HALT_CLEAR and JOB_END: the image is left, or the job ends with it (R146, R147, R178). -/
namespace Sys2Proof.Machine
set_option Elab.async false
open Sys2Proof

theorem sendTeam_team (s : State) (port ftype step page group chunk : Nat) (b : Bytes) :
    (sendTeam s port ftype step page group chunk b).team = s.team := rfl

/-! ## The records of faults, cleared (R146, R305) -/

/-- The records of faults are cleared: the mode, the team, the feed and the job stand, and nothing holds the gate. -/
structure FaultsCleared (s t : State) : Prop where
  mode : t.mode = s.mode
  team : t.team = s.team
  feed : t.feed = s.feed
  job : t.job = { s.job with gateHold := false }

theorem clearFaults_cleared (s : State) : FaultsCleared s (clearFaults s) := by
  unfold clearFaults
  extract_lets a b _
  have ha : OnlyReg s a := clearFields_onlyReg recordFields s
  clear_value a
  have hmode : b.mode = a.mode := forEach_frame State.mode (fun t p => modStall_mode t p _) _ a
  have hteam : b.team = a.team := forEach_frame State.team (fun t p => modStall_team t p _) _ a
  have hfeed : b.feed = a.feed := forEach_frame State.feed (fun t p => modStall_feed t p _) _ a
  have hjob : b.job = a.job := forEach_frame State.job (fun t p => modStall_job t p _) _ a
  clear_value b
  have hb : b.job = s.job := hjob.trans (by rw [ha.eq])
  exact ⟨hmode.trans (by rw [ha.eq]), hteam.trans (by rw [ha.eq]), hfeed.trans (by rw [ha.eq]),
    congrArg (fun j : Job => { j with gateHold := false }) hb⟩

theorem clearUnitFaults_cleared (s : State) : FaultsCleared s (clearUnitFaults s) := by
  unfold clearUnitFaults
  extract_lets a _ _ b
  have ha : FaultsCleared s a := clearFaults_cleared s
  clear_value a
  have hb : FaultsCleared s b := ⟨ha.mode, ha.team, ha.feed, ha.job⟩
  clear_value b
  have hc := chipsIdle_onlyReg b
  exact ⟨(congrArg State.mode hc.eq).trans hb.mode, (congrArg State.team hc.eq).trans hb.team,
    (congrArg State.feed hc.eq).trans hb.feed, (congrArg State.job hc.eq).trans hb.job⟩

/-! ## No securing in flight -/

/-- No securing is in flight, and no page waits. -/
structure NoSecuring (s : State) : Prop where
  step : s.team.step = none
  pages : s.team.pages = []

namespace NoSecuring
variable {s t : State}

theorem ofTeam (h : NoSecuring s) (e : t.team = s.team) : NoSecuring t := ⟨e ▸ h.step, e ▸ h.pages⟩

theorem ofReg (h : NoSecuring s) (k : OnlyReg s t) : NoSecuring t := h.ofTeam ((congrArg State.team k.eq).trans rfl)

theorem forEach {α : Type} {f : State → α → State} (hf : ∀ s a, (f s a).team = s.team) (h : NoSecuring s) (l : List α) :
    NoSecuring (forEach l f s) := h.ofTeam (forEach_frame State.team hf l s)

theorem abandonSecuring (s : State) : NoSecuring (abandonSecuring s) := by
  unfold Machine.abandonSecuring
  generalize ha : ({ s with team := { s.team with pages := [], step := none, awaits := none } } : State) = a
  have h : NoSecuring a := ha ▸ ⟨rfl, rfl⟩
  exact (h.ofReg (.setF a _ _ _)).ofReg (.setFs _ _)

theorem leaveTeam (h : NoSecuring s) : NoSecuring (leaveTeam s) := by
  unfold Machine.leaveTeam
  split
  · extract_lets a _
    have ha : NoSecuring a := h.forEach (fun t p => sendTeam_team t p 9 0 0 0 0 []) _
    clear_value a
    exact ⟨ha.step, ha.pages⟩
  · exact h

theorem clearTeam (h : NoSecuring s) : NoSecuring (clearTeam s) := by
  unfold Machine.clearTeam
  generalize ha : ({ s with team := { s.team with rec? := none } } : State) = a
  have hn : NoSecuring a := ha ▸ ⟨h.step, h.pages⟩
  exact (hn.ofReg (.setFs _ _)).forEach (fun t _ => setF_team t _ _ _) _

theorem eraseTeamKey (h : NoSecuring s) : NoSecuring (eraseTeamKey s) :=
  forEach (s := { s with team := { s.team with key := none } }) (fun t _ => setF_team t _ _ _) ⟨h.step, h.pages⟩ _

theorem dropAmends (h : NoSecuring s) (status : Nat) : NoSecuring (dropAmends s status) :=
  h.ofTeam (dropAmends_dropped s status).team

end NoSecuring

/-! ## The image is left (R147, R178) -/

/-- The plan tag, and the state of the image. -/
def leftKeys : List Nat := [fkey R.gtePlan_planTag 0, fkey R.hrnStatus_state 0]

/-- The job has been left: no image, no plan tag, and no securing in flight. -/
structure JobLeft (s : State) : Prop where
  securing : NoSecuring s
  image : s.job.image = none
  planTag : getF s R.gtePlan_planTag = 0
  shown : getF s R.hrnStatus_state = 0

namespace JobLeft
variable {s t : State}

theorem ofKeys (h : JobLeft s) (k : KeepsKeys leftKeys s t) (hj : t.job = s.job) (ht : NoSecuring t) : JobLeft t :=
  ⟨ht, by rw [hj, h.image], (k _ 0 (by decide)).trans h.planTag, (k _ 0 (by decide)).trans h.shown⟩

/-- A change of other parts alone. -/
theorem same (h : JobLeft s) (e : (t.reg, t.job, t.team) = (s.reg, s.job, s.team)) : JobLeft t := by
  simp only [Prod.mk.injEq] at e
  obtain ⟨hr, hj, ht⟩ := e
  exact h.ofKeys (.same hr) hj (h.securing.ofTeam ht)

theorem setF (h : JobLeft s) {f : Field} {u : Nat} (hf : fkey f u ∉ leftKeys) (v : Nat) : JobLeft (setF s f u v) :=
  h.ofKeys (.setF hf s v) rfl (h.securing.ofTeam rfl)

theorem setUnit (h : JobLeft s) {f : Field} (hf : f.apartFrom leftKeys = true) (u v : Nat) : JobLeft (Machine.setF s f u v) :=
  h.setF (fkey_of_apartFrom hf u) v

theorem setFs (h : JobLeft s) {l : List (Field × Nat)} (hl : ∀ f ∈ l.map Prod.fst, fkey f 0 ∉ leftKeys) : JobLeft (setFs s l) :=
  h.ofKeys (.setFs hl s) (setFs_job s l) (h.securing.ofReg (.setFs s l))

theorem forEach {α : Type} {l : List α} {f : State → α → State} (hf : ∀ s, ∀ a ∈ l, JobLeft s → JobLeft (f s a))
    (h : JobLeft s) : JobLeft (forEach l f s) :=
  List.foldlRecOn l f (motive := JobLeft) h (fun t ht a ha => hf t a ha ht)

theorem raise (h : JobLeft s) (code coord d0 d1 : Nat) : JobLeft (raise s code coord d0 d1) :=
  have k : Steady noStall s (Machine.raise s code coord d0 d1) := (Steady.refl _ s).raise code coord d0 d1
  h.ofKeys (.ofReg (.raise s code coord d0 d1) (by decide)) (raise_job s code coord d0 d1)
    ⟨k.securing.trans h.securing.step, k.pages h.securing.pages⟩

theorem showRotation (h : JobLeft s) (p : Nat) : JobLeft (showRotation s p) := by
  unfold Machine.showRotation
  split
  · exact (((h.setUnit (by decide) p _).setUnit (by decide) p _).setUnit (by decide) p _).setUnit (by decide) p _
  · exact ((((h.setUnit (by decide) p _).setUnit (by decide) p _).setUnit (by decide) p _).setUnit (by decide) p _).setUnit
      (by decide) p _

/-- The counts of rebuilds of a barn lie apart from the plan tag and the image's state. -/
theorem rebuildFields_apart : ∀ b ∈ List.range 16, fkey R.pairRebuild_running b ∉ leftKeys ∧
    fkey R.pairRebuild_waiting b ∉ leftKeys ∧ fkey R.pairRebuild_done b ∉ leftKeys := by decide

theorem showRebuild (h : JobLeft s) {b : Nat} (hb : b ∈ List.range 16) : JobLeft (showRebuild s b) := by
  obtain ⟨hrun, hwait, -⟩ := rebuildFields_apart b hb
  exact (h.setF hrun _).setF hwait _

end JobLeft

/-- The job of no image, with the command in progress. -/
def withoutJob (s : State) : State := { s with job := { Job.reset with running := s.job.running } }

theorem dropImage_keeps (s : State) : KeepsJob (withoutJob s) (dropImage s) := by
  unfold dropImage
  extract_lets _ _ _ _ a _ b c _ d e f
  have ha : KeepsJob (withoutJob s) a := ⟨rfl, rfl, rfl⟩
  clear_value a
  have hb : KeepsJob a b := .forEach (fun t p => .modStall t p _) _ a
  have hc : KeepsJob b c := .forEach (fun t p => .forEach (fun u f => .setF u f p 0) _ t) _ b
  clear_value c
  have hd : KeepsJob c d := ⟨rfl, rfl, rfl⟩
  clear_value d
  have he : KeepsJob d e := .forEach (fun t p => by
    split
    · exact .modStall t p _
    · exact .refl t) _ d
  clear_value e
  have hf : KeepsJob e f := .ofReg (((clearUnits_only e _ _).trans (clearUnits_only _ _ _)).trans (clearUnits_only _ _ _))
  exact ((((ha.trans hb).trans hc).trans hd).trans (he.trans hf)).trans (.ofReg (.setFs f _))

theorem dropImage_left {s : State} (h : NoSecuring s) : JobLeft (dropImage s) := by
  have hkeep := dropImage_keeps s
  refine ⟨h.ofTeam hkeep.team, congrArg Job.image hkeep.job, ?_, ?_⟩
  all_goals
    unfold dropImage
    extract_lets _ _ _ _ a _ b c _ d e f
    clear_value f
    simp (disch := decide) only [setFs, List.foldl_cons, List.foldl_nil, getF_setF_ne, getF_setF, Nat.zero_mod]

/-- READY has been entered: the job left, and a valid warm record. -/
structure Readied (s : State) : Prop where
  left : JobLeft s
  mode : s.mode = .ready
  warm : s.board.warmValid = true

theorem Readied.setBudget {s : State} (h : Readied s) (b : Nat) : Readied (setBudget s b) := by
  unfold Machine.setBudget
  extract_lets old _ t
  have hgov : JobLeft { s with gov := { s.gov with budgetNext := none } } := h.left.same rfl
  have ht : Readied t := ⟨hgov.setF (by decide) b, h.mode, h.warm⟩
  clear_value t
  split
  · exact ht
  · exact ⟨ht.left.raise _ _ _ _, (raise_mode t _ _ _ _).trans ht.mode, by rw [raise_board, ht.warm]⟩

theorem JobLeft.defaultShares {s : State} (h : JobLeft s) : JobLeft (defaultShares s) :=
  h.forEach (fun t p _ ht => ht.setUnit (by decide) (p.1 - 57) p.2)

theorem defaultShares_onlyReg (s : State) : OnlyReg s (defaultShares s) := by
  refine .forEach (fun t p => ?_) _ s
  exact .setF t _ (p.1 - 57) p.2

/-- Entry to READY keeps what the job left, and makes the warm record valid (R59, R101). -/
theorem readyCommon_readied {s : State} (h : JobLeft s) (first : Bool) : Readied (readyCommon s first) := by
  unfold readyCommon
  extract_lets w a b c _ d _ _ e
  have hw : JobLeft { w with mode := .ready } := h.same rfl
  have ha : JobLeft a := hw.setFs (by simp only [readyFields, List.map_append, List.map_cons, List.map_nil]; decide)
  have ham : a.mode = .ready := setFs_mode _ _
  clear_value a
  have hb : JobLeft b := ha.forEach (fun t q hq ht => ht.setF (JobLeft.rebuildFields_apart q hq).2.2 0)
  have hbm : b.mode = .ready := (forEach_frame State.mode (fun t q => setF_mode t _ q 0) _ a).trans ham
  clear_value b
  have hc : JobLeft c := hb.forEach (fun t q _ ht => ht.setUnit (by decide) q 0)
  have hcm : c.mode = .ready := (forEach_frame State.mode (fun t q => setF_mode t _ q 0) _ b).trans hbm
  clear_value c
  have hs : JobLeft { c with ses := { c.ses with firstAfterReady := true } } := hc.same rfl
  have hd : JobLeft d := hs.defaultShares
  have hdm : d.mode = .ready := (congrArg State.mode (defaultShares_onlyReg _).eq).trans hcm
  clear_value d
  have he : Readied e := ⟨hd.same rfl, hdm, rfl⟩
  exact he.setBudget _

/-- HALT_CLEAR and HARNESS_UNLOAD end in READY, the job left (R147, R178). -/
theorem leaveJob_readied {s : State} (h : NoSecuring s) : Readied (leaveJob s) := by
  unfold leaveJob
  extract_lets a b
  have ha : JobLeft a := dropImage_left ((h.leaveTeam.clearTeam.eraseTeamKey).dropAmends 2)
  clear_value a
  have hrot : JobLeft (forEach (List.range 512) showRotation a) := ha.forEach (fun _ p _ ht => ht.showRotation p)
  have hb : JobLeft b := hrot.forEach (fun _ _ hb ht => ht.showRebuild hb)
  exact readyCommon_readied hb false

theorem Readied.complete {s : State} (h : Readied s) (c : CmdRec) (status detail : Nat) : Readied (complete s c status detail) :=
  have k := OnlyCompletes.complete s c status detail
  ⟨⟨h.left.securing.ofTeam k.team, by rw [k.job, h.left.image], (getF_complete (by decide) s c _ _).trans h.left.planTag,
    (getF_complete (by decide) s c _ _).trans h.left.shown⟩, k.mode.trans h.mode, by rw [k.board, h.warm]⟩

theorem finish_onlyCompletes (s : State) (c : CmdRec) (status detail : Nat) :
    OnlyCompletes { s with job := { s.job with running := none } } (finish s c status detail) := .complete _ c status detail

/-! ## NOP, HALT, HALT_CLEAR and JOB_END -/

section
variable {s : State} {ring : Nat} {c : CmdRec}

theorem mem_opcodes : ∀ op ∈ [0x0001, 0x0002, 0x0003, 0x0004, 0x0005], opcodes.contains op = true := by decide

theorem exec_nop (h : s.holds ring 0x0001 c) : exec (.nop ring) s = .next (complete (s.taken ring) c 0 0) := by
  have e : exec (.nop ring) s = takeCmd ring 0x0001 s (fun s c => complete s c 0 0) := rfl
  rw [e, takeCmd_of_holds h (mem_opcodes _ (by simp))]

theorem exec_halt (h : s.holds ring 0x0002 c) (hjob : inJob s = true) :
    exec (.halt ring) s = .next (haltCmd (s.taken ring) c) := by
  have e : exec (.halt ring) s = takeCmd ring 0x0002 s (fun s c => legalIn (inJob s) s c haltCmd) := rfl
  have hok : inJob (s.taken ring) = true := hjob
  rw [e, takeCmd_of_holds h (mem_opcodes _ (by simp)), legalIn, if_pos hok]

theorem exec_haltClear (h : s.holds ring 0x0003 c) (hm : s.mode = .halted) :
    exec (.haltClear ring) s = .next (haltClear (s.taken ring) c) := by
  have e : exec (.haltClear ring) s =
    takeCmd ring 0x0003 s (fun s c => legalIn (s.mode == .halted && s.board.railsOn) s c haltClear) := rfl
  obtain ⟨-, hon, -⟩ := id h
  have hok : ((s.taken ring).mode == .halted && (s.taken ring).board.railsOn) = true := by
    simp [State.taken, setF_mode, setF_board, hm, hon]
  rw [e, takeCmd_of_holds h (mem_opcodes _ (by simp)), legalIn, if_pos hok]

theorem exec_jobEnd (h : s.holds ring 0x0004 c) (hm : s.mode = .gate) (hdone : onF s R.gteStatus_gateComplete = true)
    (ht : s.job.token = none) (hstep : s.team.step = none) : exec (.jobEnd ring) s = .next (endJob (s.taken ring) c) := by
  have e : exec (.jobEnd ring) s =
    takeCmd ring 0x0004 s (fun s c => legalIn (gateOver s && s.job.token.isNone) s c jobEnd) := rfl
  obtain ⟨hr, -⟩ := id h
  have hkeep : getF (s.taken ring) R.gteStatus_gateComplete = getF s R.gteStatus_gateComplete := getF_taken hr (by decide)
  have hover : gateOver (s.taken ring) = true := by
    simpa [gateOver, onF, hkeep, hm, show (s.taken ring).mode = s.mode from rfl] using hdone
  have htoken : (s.taken ring).job.token = none := ht
  have hteam : (s.taken ring).team.step = none := hstep
  rw [e, takeCmd_of_holds h (mem_opcodes _ (by simp)), legalIn, hover, htoken, if_pos (by rfl), jobEnd, hteam, if_pos (by rfl)]

theorem nop_ends (h : s.holds ring 0x0001 c) : ∃ t, exec (.nop ring) s = .next t ∧
    s.completes t c 0 0 ∧ ringConsumer t ring = (ringConsumer s ring + 1) % 2 ^ 32 ∧ t.mem = s.mem ∧ t.mode = s.mode ∧
    t.job = s.job ∧ t.stalls = s.stalls := by
  have k := OnlyCompletes.complete (s.taken ring) c 0 0
  have hcompleted : getF (s.taken ring) R.ctlRingStatus_completed c.ring = getF s R.ctlRingStatus_completed c.ring := by
    rw [holds_ring h, getF_taken_completed]
  have hconsumer : ringConsumer (complete (s.taken ring) c 0 0) ring = ringConsumer (s.taken ring) ring :=
    getF_complete (by decide) _ _ _ _
  exact ⟨_, exec_nop h, completes_complete hcompleted 0 0, hconsumer.trans (ringConsumer_taken s ring), k.mem, k.mode, k.job,
    k.stalls⟩

theorem halt_ends (h : s.holds ring 0x0002 c) (hjob : inJob s = true) : ∃ t, exec (.halt ring) s = .next t ∧
    t.mode = .halted ∧ getF t R.ctlState_haltCause = 1 ∧ getF t R.ctlState_haltStateLosing = 0 ∧ t.job.token = none ∧
    t.job.image = s.job.image ∧ t.mem = s.mem ∧ bit t.board.alerts 6 = true ∧
    t.numbered.getLast? = some (0x30, completionBody c 0 (getF s R.gteStep_step)) := by
  have hm : (s.taken ring).mode ≠ .halted := by
    intro e
    rw [show (s.taken ring).mode = s.mode from rfl] at e
    simp [inJob, e] at hjob
  obtain ⟨hmode, hcause, hlosing, halert⟩ := enterHalted_haltedBy (cause := 1) hm (by decide) false
  have hidle := holds_running h
  have hrun : (s.taken ring).job.running = none := hidle
  obtain ⟨htoken, himage, hmem⟩ := enterHalted_keeps hm hrun 1
  have hstep : getF (s.taken ring) R.gteStep_step = getF s R.gteStep_step := getF_taken h.1 (by decide)
  have k := OnlyCompletes.complete (enterHalted (s.taken ring) 1 false) c 0 (getF (s.taken ring) R.gteStep_step)
  refine ⟨_, exec_halt h hjob, k.mode.trans hmode, (getF_complete (by decide) _ _ _ _).trans hcause,
    (getF_complete (by decide) _ _ _ _).trans hlosing, (congrArg Job.token k.job).trans htoken, (congrArg Job.image k.job).trans himage,
    k.mem.trans hmem, (congrArg (fun b : Board => bit b.alerts 6) k.board).trans halert, ?_⟩
  rw [← hstep]
  exact numbered_complete _ _ _ _

theorem haltClear_ends (h : s.holds ring 0x0003 c) (hm : s.mode = .halted) :
    ∃ t, exec (.haltClear ring) s = .next t ∧ t.mode = .ready ∧ t.job.image = none ∧ t.team.step = none ∧
      t.team.pages = [] ∧ getF t R.gtePlan_planTag = 0 ∧ getF t R.hrnStatus_state = 0 ∧ t.board.warmValid = true ∧
      t.numbered.getLast? = some (0x30, completionBody c 0 0) := by
  have hsec : NoSecuring (clearUnitFaults (abandonSecuring (s.taken ring))) :=
    (NoSecuring.abandonSecuring _).ofTeam (clearUnitFaults_cleared _).team
  have hready : Readied (haltClear (s.taken ring) c) := (leaveJob_readied hsec).complete c 0 0
  obtain ⟨⟨⟨hstep, hpages⟩, himage, htag, hshown⟩, hmode, hwarm⟩ := hready
  exact ⟨_, exec_haltClear h hm, hmode, himage, hstep, hpages, htag, hshown, hwarm, numbered_complete _ _ _ _⟩

theorem jobEnd_ends (h : s.holds ring 0x0004 c) (hm : s.mode = .gate) (hdone : onF s R.gteStatus_gateComplete = true)
    (ht : s.job.token = none) (hstep : s.team.step = none) :
    ∃ t, exec (.jobEnd ring) s = .next t ∧ t.mode = .harnessed ∧ getF t R.genPass_pass = 0 ∧ t.job.amends = [] ∧
      t.job.image = s.job.image ∧ t.job.running = none ∧ t.numbered.getLast? = some (0x30, completionBody c 0 0) := by
  have hdrop := (dropAmends_dropped (s.taken ring) 2).job
  refine ⟨_, exec_jobEnd h hm hdone ht hstep, ?_⟩
  unfold endJob
  extract_lets a
  have ha : a.job = { s.job with amends := [] } := hdrop
  clear_value a
  have hpass : getF (setF { a with mode := .harnessed } R.genPass_pass 0 0) R.genPass_pass = 0 := getF_setF _ _ _ _
  have hjob : (setF { a with mode := .harnessed } R.genPass_pass 0 0).job = { s.job with amends := [] } := ha
  have hmode : (setF { a with mode := .harnessed } R.genPass_pass 0 0).mode = .harnessed := rfl
  generalize setF { a with mode := .harnessed } R.genPass_pass 0 0 = b at hpass hjob hmode
  have k := finish_onlyCompletes b c 0 0
  exact ⟨k.mode.trans hmode, (getF_complete (by decide) _ _ _ _).trans hpass, by rw [k.job, hjob], by rw [k.job, hjob],
    by rw [k.job], numbered_complete _ _ _ _⟩

end

end Sys2Proof.Machine
end

section
/-! ROLLBACK: what the restoring of pages and arrays leaves of the job (R147, R451, R458). -/
namespace Sys2Proof.Machine
set_option Elab.async false
open Sys2Proof

/-! ## The securing is abandoned (R458) -/

/-- The movers of pages have stopped and the securing in flight is gone; the mode, the job, the memory and the stalls stand. -/
structure SecuringStopped (s t : State) : Prop where
  securing : NoSecuring t
  mode : t.mode = s.mode
  job : t.job = s.job
  mem : t.mem = s.mem
  stalls : t.stalls = s.stalls
  index : ownIndex t = ownIndex s
  completed : ∀ r, getF t R.ctlRingStatus_completed r = getF s R.ctlRingStatus_completed r

theorem abandonSecuring_stopped (s : State) : SecuringStopped s (abandonSecuring s) := by
  have hsec := NoSecuring.abandonSecuring s
  revert hsec
  unfold abandonSecuring showBuf
  generalize ha : ({ s with team := { s.team with pages := [], step := none, awaits := none } } : State) = a
  intro hsec
  have hb := (OnlyReg.setF a R.pairBuf_usedMib 0 (ceilDiv (bufUsed a).length 16)).trans
    (.setFs _ [(R.pairSecure_inFlight, 0), (R.pairSecure_pagesLeft, 0)])
  have hk : ∀ f u, (∀ g ∈ [R.pairBuf_usedMib, R.pairSecure_inFlight, R.pairSecure_pagesLeft], fkey f u ≠ fkey g 0) →
      getF (setFs (setF a R.pairBuf_usedMib 0 (ceilDiv (bufUsed a).length 16))
        [(R.pairSecure_inFlight, 0), (R.pairSecure_pagesLeft, 0)]) f u = getF s f u := by
    intro f u hf
    simp only [List.forall_mem_cons, List.not_mem_nil, false_imp_iff, implies_true, and_true] at hf
    obtain ⟨h1, h2, h3⟩ := hf
    simp only [setFs, List.foldl_cons, List.foldl_nil]
    rw [getF_setF_ne _ _ h3, getF_setF_ne _ _ h2, getF_setF_ne _ _ h1, ← ha]
    rfl
  refine ⟨hsec, (congrArg State.mode hb.eq).trans ?_, (congrArg State.job hb.eq).trans ?_, (congrArg State.mem hb.eq).trans ?_,
    (congrArg State.stalls hb.eq).trans ?_, hk _ _ (by decide), fun r => hk _ _ ?_⟩
  case refine_5 =>
    simp only [List.forall_mem_cons, List.not_mem_nil, false_imp_iff, implies_true, and_true]
    exact ⟨fkey_ne_of_lo (by decide) _ _, fkey_ne_of_lo (by decide) _ _, fkey_ne_of_lo (by decide) _ _⟩
  all_goals rw [← ha]

theorem rollbackStop_stopped (s : State) : SecuringStopped s (rollbackStop s) := by
  unfold rollbackStop
  obtain ⟨hsec, hmode, hjob, hmem, hstalls, hindex, hcompleted⟩ := abandonSecuring_stopped
    { s with movs := s.movs.filter (fun x => decide (x.1 < 57) || (decide (60 ≤ x.1) && decide (x.1 < 64))) }
  exact ⟨hsec, hmode, hjob, hmem, hstalls, hindex, hcompleted⟩

/-! ## Pages and values restored (R451, R458) -/

/-- Pages and values have been restored: the job and every stall stand, and the module's place in the image. -/
structure Restored (s t : State) : Prop where
  steady : Steady (fun _ => True) s t
  index : ownIndex t = ownIndex s

namespace Restored
variable {s t : State}

theorem refl (s : State) : Restored s s := ⟨.refl _ s, rfl⟩

theorem trans {u : State} (h : Restored s t) (k : Restored t u) : Restored s u :=
  ⟨h.steady.trans k.steady, k.index.trans h.index⟩

theorem forEach {α : Type} {f : State → α → State} (hf : ∀ s a, Restored s (f s a)) (l : List α) (s : State) :
    Restored s (forEach l f s) :=
  List.foldlRecOn l f (motive := Restored s) (refl s) (fun t ht a _ => ht.trans (hf t a))

theorem copy (s : State) (a b n : Nat) : Restored s (copy s a b n) :=
  ⟨(Steady.refl _ s).copy .., KeepsReg.copy s a b n _ _ (by decide)⟩

theorem setUnit {f : Field} (hf : f.apartFrom jobKeys = true) (hi : f.lo % 64 ≠ R.hrnStatus_moduleIndex.lo % 64) (s : State)
    (u v : Nat) : Restored s (setF s f u v) :=
  ⟨(Steady.refl _ s).setUnit hf u v, getF_setF_ne _ _ (fkey_ne_of_lo (Ne.symm hi) _ _)⟩

theorem noteCorrected (s : State) (l : Nat) : Restored s (noteCorrected s l) :=
  ⟨(Steady.refl _ s).noteCorrected l, by
    unfold Machine.noteCorrected
    extract_lets c t due
    have ht : ownIndex t = ownIndex s := getF_setF_ne _ _ (fkey_ne_of_lo (by decide) _ _)
    clear_value t
    split
    · exact (KeepsReg.raise _ _ _ _ _ R.hrnStatus_moduleIndex 0 (by decide)).trans ht
    · exact ht⟩

theorem noteUncorrectable (s : State) (l : Nat) : Restored s (noteUncorrectable s l) :=
  ⟨(Steady.refl _ s).noteUncorrectable l, by
    unfold Machine.noteUncorrectable
    extract_lets c t
    have hb : ownIndex (bumpF s R.lftChannel_uncorrected c 1) = ownIndex s := getF_setF_ne _ _ (fkey_ne_of_lo (by decide) _ _)
    have ht : ownIndex t = ownIndex (bumpF s R.lftChannel_uncorrected c 1) := by
      simp (disch := decide) only [ownIndex, t, setFs, List.foldl_cons, List.foldl_nil, getF_setF_ne]
    clear_value t
    exact (KeepsReg.raise _ _ _ _ _ R.hrnStatus_moduleIndex 0 (by decide)).trans (ht.trans hb)⟩

theorem loftRead (s : State) (a n : Nat) : Restored s (loftRead s a n).1 :=
  (forEach noteCorrected _ s).trans (forEach noteUncorrectable _ _)

theorem restorePage (n : Nat) (s : State) (x : Nat × Nat × Nat) : Restored s (restorePage n s x) := by
  unfold Machine.restorePage
  split
  · exact (loftRead s _ pageSize).trans (copy _ _ _ _)
  · exact refl s

theorem flatField_index (l : Nat) : (flatField l).lo % 64 ≠ R.hrnStatus_moduleIndex.lo % 64 := by
  have hall : ∀ f ∈ [R.fmtFlatCnt_count0, R.fmtFlatCnt_count1, R.fmtFlatCnt_count2, R.fmtFlatCnt_count3],
      f.lo % 64 ≠ R.hrnStatus_moduleIndex.lo % 64 := by decide
  exact hall _ (Steady.flatField_mem l)

theorem restoreNumeric (s : State) (n : Nat) : Restored s (restoreNumeric s n) := by
  unfold Machine.restoreNumeric
  split
  · exact refl s
  · next f l _ =>
    have hf : Restored s { s with fmt := f } := ⟨(Steady.refl _ s).same rfl, rfl⟩
    exact hf.trans (forEach (fun t x => setUnit (Steady.flatField_apart x.1) (flatField_index x.1) t _ _) l _)

end Restored

/-! ## Arrays written again (R458) -/

namespace Steady
variable {W : Nat → Prop} {z s : State}

theorem corruptStop (h : Steady W z s) {p : Nat} (hp : ¬ W p) : Steady W z (corruptStop s p) := (h.modStall hp _).holdGate

theorem rewriteTile (h : Steady W z s) (w : List (Nat × WriteReport)) {pl : Placement} (hp : ¬ W pl.stall) :
    Steady W z (rewriteTile w s pl) := by
  unfold Machine.rewriteTile
  extract_lets base pos t rd u r v
  have ht : Steady W z t := h.markRows _ _ _
  have hrd : Steady W z rd.1 := ht.loftRead _ _
  clear_value rd
  refine ite ht ?_
  split
  · exact ite (hrd.copy _ _ _) (hrd.corruptStop hp)
  · refine ite ht (ite (hrd.corruptStop hp) ?_)
    have hr : Steady W z r.1 := hrd.fullWrite _ _ _
    have hv : Steady W z v := by
      refine hr.when ?_ _
      exact hr.recordTile pl u
    exact ite (hv.failTile hp _ _) hv

theorem rewriteStalls (h : Steady W z s) (w : List (Nat × WriteReport)) {ps : List Nat} (hp : ∀ p ∈ ps, ¬ W p) :
    Steady W z (rewriteStalls w ps s) := by
  refine h.forEach_mem (fun t x hx ht => ht.rewriteTile w (hp _ ?_))
  simpa using (List.mem_filter.mp hx).2

end Steady

end Sys2Proof.Machine
end

section
/-! The end of a ROLLBACK, and the statement on NOP, HALT, HALT_CLEAR, JOB_END and ROLLBACK (R146, R147, R458, R476). -/
namespace Sys2Proof.Machine
set_option Elab.async false
open Sys2Proof

/-! ## The registers of a ROLLBACK (R458) -/

/-- The module stands at step `n`: it and the next one are shown and released, the feed is at 0, and nothing is being secured. -/
structure AtStep (n : Nat) (s : State) : Prop where
  securing : NoSecuring s
  feed : s.feed.p = 0
  consumed : getF s R.hstFeedConsumed_consumed = 0
  step : getF s R.gteStep_step = n % 2 ^ 40
  expected : getF s R.gteNext_expected = (n + 1) % 2 ^ 40
  anyStep : getF s R.gteNext_anyStep = 0
  release : getF s R.pairRelease_step = n % 2 ^ 40

theorem AtStep.of {n : Nat} {s t : State} (h : AtStep n s) (hs : NoSecuring t) (hf : t.feed.p = s.feed.p) (k : KeepsHeld s t) :
    AtStep n t where
  securing := hs
  feed := hf.trans h.feed
  consumed := (k _ 0 (by decide)).trans h.consumed
  step := (k _ 0 (by decide)).trans h.step
  expected := (k _ 0 (by decide)).trans h.expected
  anyStep := (k _ 0 (by decide)).trans h.anyStep
  release := (k _ 0 (by decide)).trans h.release

/-- From `s` to `t` the team, the feed and the registers stand. -/
structure KeepsFeed (s t : State) : Prop where
  team : t.team = s.team
  feed : t.feed = s.feed
  reg : t.reg = s.reg

/-- Flow control toward the host shows in no register of a fabric port. -/
theorem showXoff_host (s : State) : showXoff s 24 = s := if_neg (by decide)

theorem KeepsFeed.setXoff (s : State) (prio : Nat) (on : Bool) : KeepsFeed s (setXoff s 24 prio on) := by
  unfold Machine.setXoff
  simp only [showXoff_host]
  split
  · exact ⟨rfl, rfl, rfl⟩
  · split
    · exact ⟨rfl, rfl, rfl⟩
    · exact ⟨rfl, rfl, rfl⟩

/-- The feed begins again. -/
theorem feedReset_fields {s : State} (h : NoSecuring s) : NoSecuring (feedReset s) ∧ (feedReset s).feed.p = 0 ∧
    getF (feedReset s) R.hstFeedConsumed_consumed = 0 := by
  unfold feedReset
  generalize ha : ({ s with feed := { s.feed with p := 0, h := 0, written := [], staging := [] } } : State) = a
  have hn : NoSecuring a := ha ▸ h.ofTeam rfl
  have hp : a.feed.p = 0 := by rw [← ha]
  have hc : getF (setFs a [(R.hstFeedPrefix_prefix, 0), (R.hstFeedConsumed_consumed, 0)]) R.hstFeedConsumed_consumed = 0 := by
    simp only [setFs, List.foldl_cons, List.foldl_nil, getF_setF, Nat.zero_mod]
  have hb := OnlyReg.setFs a [(R.hstFeedPrefix_prefix, 0), (R.hstFeedConsumed_consumed, 0)]
  generalize setFs a [(R.hstFeedPrefix_prefix, 0), (R.hstFeedConsumed_consumed, 0)] = b at hc hb
  have hbn : NoSecuring b := hn.ofReg hb
  have hbp : b.feed.p = 0 := (congrArg (fun t => t.feed.p) hb.eq).trans hp
  unfold feedFlow
  extract_lets run gap used ring n stage
  have k := KeepsFeed.setXoff { b with feed := { b.feed with xoffRing := ring, xoffStage := stage } }
    (getF b R.hstCtl_feedPcp) (ring || stage)
  exact ⟨hbn.ofTeam k.team, (congrArg Feed.p k.feed).trans hbp, (getF_congr k.reg _ _).trans hc⟩

theorem rollbackRegs_atStep {s : State} (h : NoSecuring s) (n : Nat) : AtStep n (rollbackRegs s n) := by
  unfold rollbackRegs
  extract_lets a
  have ha : NoSecuring a := by
    refine iteInduction (fun _ => h) (fun _ => ?_)
    exact h.ofReg (.setFs s _)
  clear_value a
  obtain ⟨hsec, hfeed, hconsumed⟩ := feedReset_fields ha
  generalize feedReset a = b at hsec hfeed hconsumed
  have hc := OnlyReg.setFs b [(R.gteStep_step, n), (R.gteNext_expected, n + 1), (R.gteNext_anyStep, 0), (R.pairRelease_step, n),
    (R.gteStatus_haltPending, 0), (R.genPass_pass, 0)]
  refine ⟨hsec.ofReg hc, (congrArg (fun t => t.feed.p) hc.eq).trans hfeed, ?_, ?_, ?_, ?_, ?_⟩
  all_goals
    simp (disch := decide) only [setFs, List.foldl_cons, List.foldl_nil, getF_setF_ne, getF_setF]
  · exact hconsumed
  · rfl
  · rfl
  · rfl
  · rfl

/-! ## The job of a ROLLBACK that ends (R147, R458, R476) -/

theorem clearFaults_held (s : State) : KeepsHeld s (clearFaults s) := by
  unfold clearFaults
  extract_lets a b
  have hclear : ∀ x ∈ recordFields, ∀ k ∈ heldKeys, unitOf x.1 x.2 k = none := by decide
  have ha : KeepsHeld s a := .forEach (fun t x hx => .clearUnits (hclear x hx) t) s
  clear_value a
  have hb : KeepsHeld s b := ha.trans (.forEach (fun t p _ => .same (by rfl)) a)
  clear_value b
  exact hb.trans (.same rfl)

theorem clearUnitFaults_held (s : State) : KeepsHeld s (clearUnitFaults s) := by
  unfold clearUnitFaults
  extract_lets a _ _ b
  have ha : KeepsHeld s a := clearFaults_held s
  clear_value a
  have hb : KeepsHeld s b := ha.trans (.same rfl)
  clear_value b
  exact hb.trans ((chipsIdle_keys b).mono heldKeys_subset)

/-- No token is held and no command waits for the gate. -/
structure JobQuiet (s : State) : Prop where
  token : s.job.token = none
  amends : s.job.amends = []

theorem rollbackClear_quiet {n : Nat} {s : State} (h : AtStep n s) : AtStep n (rollbackClear s) ∧ JobQuiet (rollbackClear s) := by
  unfold rollbackClear
  extract_lets a
  have hdrop := dropAmends_dropped s 2
  have hclear := clearStep_cleared (dropAmends s 2)
  have hk : KeepsHeld s a := (KeepsHeld.dropAmends s 2).trans (hclear.keys.mono heldKeys_subset)
  have ha : AtStep n a := h.of (h.securing.ofTeam (hclear.team.trans hdrop.team))
    ((congrArg Feed.p hclear.feed).trans (congrArg Feed.p hdrop.feed)) hk
  have hamends : a.job.amends = [] := (congrArg Job.amends hclear.job).trans (congrArg Job.amends hdrop.job)
  clear_value a
  generalize hdef : ({ a with rte := { a.rte with held := [], mesh := [] },
                              job := { a.job with token := none, gcReady := false } } : State) = b
  have hb : AtStep n b := hdef ▸ ha.of (ha.securing.ofTeam rfl) rfl (.same rfl)
  have hquiet : JobQuiet b := hdef ▸ ⟨rfl, hamends⟩
  obtain ⟨-, hteam, hfeed, hjob⟩ := clearUnitFaults_cleared b
  exact ⟨hb.of (hb.securing.ofTeam hteam) (congrArg Feed.p hfeed) (clearUnitFaults_held b),
    (congrArg Job.token hjob).trans hquiet.token, (congrArg Job.amends hjob).trans hquiet.amends⟩

/-- The ROLLBACK `c` to step `n` has ended: HARNESSED at that step, every page dirty, nothing held and no command in progress. -/
structure RolledBackTo (n : Nat) (c : CmdRec) (t : State) : Prop where
  atStep : AtStep n t
  mode : t.mode = .harnessed
  allDirty : t.team.allDirty = true
  token : t.job.token = none
  running : t.job.running = none
  amends : t.job.amends = []
  told : t.numbered.getLast? = some (0x30, completionBody c 0 0)

theorem rollbackEnd_rolledBack {s : State} (h : NoSecuring s) (c : CmdRec) (pages : Nat) :
    RolledBackTo (arg c 0) c (rollbackEnd s c pages) := by
  unfold rollbackEnd
  extract_lets a _ b
  obtain ⟨ha, htoken, hamends⟩ : AtStep (arg c 0) a ∧ JobQuiet a := rollbackClear_quiet (rollbackRegs_atStep h (arg c 0))
  clear_value a
  have hb : AtStep (arg c 0) b := ha.of ⟨ha.securing.step, ha.securing.pages⟩ rfl (.same rfl)
  have hd : Steady noStall b (raise b 0xD010 cPkg (arg c 0 % 2 ^ 32) pages) := (Steady.refl _ b).raise _ _ _ _
  have hdk := KeepsHeld.raise b 0xD010 cPkg (arg c 0 % 2 ^ 32) pages
  have hdf := raise_feed b 0xD010 cPkg (arg c 0 % 2 ^ 32) pages
  generalize raise b 0xD010 cPkg (arg c 0 % 2 ^ 32) pages = d at hd hdk hdf
  have hdstep : AtStep (arg c 0) d := hb.of ⟨hd.securing.trans hb.securing.step, hd.pages hb.securing.pages⟩ (by rw [hdf]) hdk
  have k := finish_onlyCompletes d c 0 0
  exact ⟨hdstep.of (hdstep.securing.ofTeam k.team) (congrArg Feed.p k.feed) (.finish d c 0 0), k.mode.trans hd.mode,
    (congrArg Team.allDirty k.team).trans hd.allDirty, (congrArg Job.token k.job).trans (hd.token.trans htoken),
    congrArg Job.running k.job, (congrArg Job.amends k.job).trans (hd.amends.trans hamends),
    numbered_complete _ _ _ _⟩

end Sys2Proof.Machine
end

section
/-! ROLLBACK goes on while a stall rests whose arrays it writes, or ends; the statement on the commands of control (R147, R458). -/
namespace Sys2Proof.Machine
set_option Elab.async false
open Sys2Proof

/-! ## Stalls woken for writes (R476) -/

/-- From `s` to `t` requests to wake wait at most: the job, the team and the stalls stand. -/
structure OnlyAsksWake (s t : State) : Prop where
  job : t.job = s.job
  team : t.team = s.team
  stalls : t.stalls = s.stalls

theorem requestWake_asks (s : State) (p : Nat) (die : Bool) : OnlyAsksWake s (requestWake s p .program die) := by
  unfold requestWake
  extract_lets t u
  have hu : u = s := if_neg (by decide)
  clear_value u
  subst hu
  split
  · exact ⟨rfl, rfl, rfl⟩
  · split
    · exact iteInduction (fun h => absurd h (by decide)) (fun _ => ⟨rfl, rfl, rfl⟩)
    · split
      · exact ⟨rfl, rfl, rfl⟩
      · exact ⟨rfl, rfl, rfl⟩

theorem wakeForWrites_asks (s : State) (ps : List Nat) : OnlyAsksWake s (wakeForWrites s ps) := by
  refine List.foldlRecOn ps _ (motive := OnlyAsksWake s) ⟨rfl, rfl, rfl⟩ (fun t ht p _ => ?_)
  refine iteInduction (fun _ => ?_) (fun _ => ht)
  obtain ⟨hjob, hteam, hstalls⟩ := requestWake_asks t p false
  exact ⟨hjob.trans ht.job, hteam.trans ht.team, hstalls.trans ht.stalls⟩

theorem toWrite_asks (s : State) (ps : List Nat) : OnlyAsksWake { s with job := { s.job with toWrite := ps } } (toWrite s ps) :=
  wakeForWrites_asks _ ps

/-! ## ROLLBACK to a step whose pages can be restored (R458, R476) -/

/-- The module's own stalls, each once. -/
def ownOnce (s : State) : List Nat := distinct ((ownPlacements s).map (fun x => x.stall))

/-- Its stalls that rest. -/
def ownResting (s : State) : List Nat := (ownOnce s).filter (fun p => isResting (getStall s p))

theorem mem_ownOnce {s : State} {p : Nat} : p ∈ ownOnce s ↔ ∃ x ∈ ownPlacements s, x.stall = p := by
  rw [ownOnce, distinct, List.mem_eraseDups, List.mem_map]

theorem mem_ownResting {s : State} {p : Nat} : p ∈ ownResting s ↔ p ∈ ownOnce s ∧ isResting (getStall s p) = true :=
  List.mem_filter

theorem ownResting_eq_nil {s : State} (h : (ownPlacements s).any (fun x => isResting (getStall s x.stall)) = false) :
    ownResting s = [] := by
  refine List.eq_nil_iff_forall_not_mem.mpr (fun p hp => ?_)
  obtain ⟨hmem, hrest⟩ := mem_ownResting.mp hp
  obtain ⟨x, hx, rfl⟩ := mem_ownOnce.mp hmem
  simp [List.any_eq_false.mp h x hx] at hrest

theorem exists_ownResting {s : State} (h : (ownPlacements s).any (fun x => isResting (getStall s x.stall)) = true) :
    ∃ p, p ∈ ownResting s := by
  obtain ⟨x, hx, hrest⟩ := List.any_eq_true.mp h
  exact ⟨x.stall, mem_ownResting.mpr ⟨mem_ownOnce.mpr ⟨x, hx, rfl⟩, hrest⟩⟩

theorem Restored.placements {s t : State} (h : Restored s t) : ownPlacements t = ownPlacements s := by
  rw [ownPlacements, ownPlacements, h.index, h.steady.image]

theorem Restored.anyResting {s t : State} (h : Restored s t) :
    (ownPlacements t).any (fun x => isResting (getStall t x.stall)) =
      (ownPlacements s).any (fun x => isResting (getStall s x.stall)) := by
  simp only [h.placements, h.steady.stalls _ trivial]

/-- The pages and values of step `n` restored. -/
def restoredTo (s : State) (n : Nat) (ps : List (Nat × Nat × Nat)) : State :=
  restoreNumeric (forEach ps (restorePage n) s) n

theorem restoredTo_restored (s : State) (n : Nat) (ps : List (Nat × Nat × Nat)) : Restored s (restoredTo s n ps) :=
  (Restored.forEach (Restored.restorePage n) ps s).trans (.restoreNumeric _ n)

/-- The arrays of the stalls that do not rest, written again. -/
def rewritten (w : List (Nat × WriteReport)) (s : State) : State :=
  rewriteStalls w ((ownOnce s).filter (fun p => !(ownResting s).contains p)) s

theorem rewritten_steady (w : List (Nat × WriteReport)) (s : State) : Steady (· ∈ ownResting s) s (rewritten w s) := by
  refine (Steady.refl _ s).rewriteStalls w (fun p hp => ?_)
  simpa using (List.mem_filter.mp hp).2

/-- The ROLLBACK as it waits for the stalls that rest. -/
def rollbackWaits (w : List (Nat × WriteReport)) (s : State) (c : CmdRec) (pages : Nat) : State :=
  toWrite (startLong { rewritten w s with job := { (rewritten w s).job with reports := w } } c none pages) (ownResting s)

theorem rollbackTo_eq (s : State) (c : CmdRec) (w : List (Nat × WriteReport)) (n : Nat) (ps : List (Nat × Nat × Nat)) :
    rollbackTo s c w n ps = rollbackMore (rollbackWaits w (restoredTo s n ps) c ps.length)
      ⟨c, (rollbackWaits w (restoredTo s n ps) c ps.length).now, false, none, ps.length⟩ := rfl

/-- The ROLLBACK waits with its command in progress, for the stalls that rest; nothing is being secured. -/
structure RollbackWaiting (s t : State) : Prop where
  securing : NoSecuring t
  running : t.job.running.isSome = true
  toWrite : t.job.toWrite = ownResting s
  stalls : ∀ p ∈ ownResting s, getStall t p = getStall s p

theorem rollbackWaits_waiting (w : List (Nat × WriteReport)) {s : State} (h : NoSecuring s) (c : CmdRec) (pages : Nat) :
    RollbackWaiting s (rollbackWaits w s c pages) := by
  unfold rollbackWaits
  have hr := rewritten_steady w s
  generalize rewritten w s = a at hr
  obtain ⟨hjob, hteam, hstalls⟩ := toWrite_asks (startLong { a with job := { a.job with reports := w } } c none pages) (ownResting s)
  exact ⟨⟨(congrArg Team.step hteam).trans (hr.securing.trans h.step), (congrArg Team.pages hteam).trans (hr.pages h.pages)⟩,
    by rw [hjob]; rfl, congrArg Job.toWrite hjob, fun p hp => (getStall_congr hstalls p).trans (hr.stalls p hp)⟩

theorem rollbackTo_waits {s : State} (h : NoSecuring s) (c : CmdRec) (w : List (Nat × WriteReport)) (n : Nat)
    (ps : List (Nat × Nat × Nat)) (hrest : (ownPlacements s).any (fun x => isResting (getStall s x.stall)) = true) :
    NoSecuring (rollbackTo s c w n ps) ∧ (rollbackTo s c w n ps).job.running.isSome = true ∧
      (rollbackTo s c w n ps).job.toWrite ≠ [] := by
  have hres := restoredTo_restored s n ps
  have hsec : NoSecuring (restoredTo s n ps) := ⟨hres.steady.securing.trans h.step, hres.steady.pages h.pages⟩
  obtain ⟨p, hp⟩ := exists_ownResting (hres.anyResting.trans hrest)
  obtain ⟨hsec', hrun, hwrite, hstalls⟩ := rollbackWaits_waiting w hsec c ps.length
  rw [rollbackTo_eq, rollbackMore, if_pos ?_]
  · exact ⟨hsec', hrun, by rw [hwrite]; exact List.ne_nil_of_mem hp⟩
  · rw [hwrite, writesWait, List.any_eq_true]
    exact ⟨p, hp, by rw [hstalls p hp]; exact (mem_ownResting.mp hp).2⟩

theorem rollbackTo_rolledBack {s : State} (h : NoSecuring s) (c : CmdRec) (w : List (Nat × WriteReport)) (n : Nat)
    (ps : List (Nat × Nat × Nat)) (hrest : (ownPlacements s).any (fun x => isResting (getStall s x.stall)) = false) :
    RolledBackTo (arg c 0) c (rollbackTo s c w n ps) := by
  have hres := restoredTo_restored s n ps
  have hsec : NoSecuring (restoredTo s n ps) := ⟨hres.steady.securing.trans h.step, hres.steady.pages h.pages⟩
  have hnone := ownResting_eq_nil (hres.anyResting.trans hrest)
  obtain ⟨hsec', -, hwrite, -⟩ := rollbackWaits_waiting w hsec c ps.length
  have hgo : writesWait (rollbackWaits w (restoredTo s n ps) c ps.length)
      (rollbackWaits w (restoredTo s n ps) c ps.length).job.toWrite = false := by rw [hwrite, hnone]; rfl
  rw [rollbackTo_eq]
  generalize rollbackWaits w (restoredTo s n ps) c ps.length = x at hsec' hgo
  have hx : NoSecuring { x with job := { x.job with toWrite := [], reports := [] } } := hsec'.ofTeam rfl
  rw [rollbackMore, hgo, if_neg Bool.false_ne_true]
  exact rollbackEnd_rolledBack hx c ps.length

/-! ## The command ROLLBACK (R147, R458) -/

section
variable {s : State} {ring : Nat} {c : CmdRec}

theorem exec_rollback (h : s.holds ring 0x0005 c) (hm : gateOver s = true ∨ haltedKept s = true)
    (htag : c.planTag = getF s R.gtePlan_planTag) (w : List (Nat × WriteReport)) :
    exec (.rollback ring w) s = .next (rollback w (s.taken ring) c) := by
  have e : exec (.rollback ring w) s = takeCmd ring 0x0005 s (fun s c =>
    legalIn (gateOver s || haltedKept s) s c (fun s c => planChecked s c (rollback w))) := rfl
  obtain ⟨hr, -⟩ := id h
  have hgate : getF (s.taken ring) R.gteStatus_gateComplete = getF s R.gteStatus_gateComplete := getF_taken hr (by decide)
  have hlose : getF (s.taken ring) R.ctlState_haltStateLosing = getF s R.ctlState_haltStateLosing := getF_taken hr (by decide)
  have hplan : getF (s.taken ring) R.gtePlan_planTag = getF s R.gtePlan_planTag := getF_taken hr (by decide)
  have hok : (gateOver (s.taken ring) || haltedKept (s.taken ring)) = true := by
    simpa [gateOver, haltedKept, onF, hgate, hlose, show (s.taken ring).mode = s.mode from rfl] using hm
  rw [e, takeCmd_of_holds h (mem_opcodes _ (by simp)), legalIn, if_pos hok, planChecked, if_pos (htag.trans hplan.symm)]

/-- A ROLLBACK restores where it can, and is refused elsewhere. -/
theorem rollback_eq (w : List (Nat × WriteReport)) (s : State) (c : CmdRec) : rollback w s c =
    (let v := rollbackStop s
     let ps := pagesToRestore v (s.team.pages.map (fun p => p.addr)) (arg c 0)
     if canRestore v (arg c 0) = true ∧ (∀ x ∈ ps, (slotFor v (arg c 0) x).isSome = true) then rollbackTo v c w (arg c 0) ps
     else complete v c 3 0) := by
  unfold rollback
  simp only [Bool.and_eq_true, List.all_eq_true]

theorem rollback_ends (h : s.holds ring 0x0005 c) (hm : gateOver s = true ∨ haltedKept s = true)
    (htag : c.planTag = getF s R.gtePlan_planTag) (w : List (Nat × WriteReport)) :
    let v := rollbackStop (s.taken ring)
    let ps := pagesToRestore v (s.team.pages.map (fun p => p.addr)) (arg c 0)
    ∃ t, exec (.rollback ring w) s = .next t ∧ t.team.pages = [] ∧ t.team.step = none ∧
      if canRestore v (arg c 0) = true ∧ (∀ x ∈ ps, (slotFor v (arg c 0) x).isSome = true) then
        if (ownPlacements s).any (fun x => isResting (getStall s x.stall)) then t.job.running.isSome = true ∧ t.job.toWrite ≠ []
        else
          t.mode = .harnessed ∧ getF t R.gteStep_step = arg c 0 % 2 ^ 40 ∧
            getF t R.gteNext_expected = (arg c 0 + 1) % 2 ^ 40 ∧ getF t R.gteNext_anyStep = 0 ∧
            getF t R.pairRelease_step = arg c 0 % 2 ^ 40 ∧ t.team.allDirty = true ∧ t.job.token = none ∧
            t.job.running = none ∧ t.job.amends = [] ∧ t.feed.p = 0 ∧ getF t R.hstFeedConsumed_consumed = 0 ∧
            t.numbered.getLast? = some (0x30, completionBody c 0 0)
      else t.mode = s.mode ∧ t.mem = s.mem ∧ t.job = s.job ∧ s.completes t c 3 0 := by
  intro v ps
  obtain ⟨hr, -⟩ := id h
  obtain ⟨hsec, hmode, hjob, hmem, hstalls, hindex, hcompleted⟩ : SecuringStopped (s.taken ring) v := rollbackStop_stopped _
  have hrests : (ownPlacements v).any (fun x => isResting (getStall v x.stall)) =
      (ownPlacements s).any (fun x => isResting (getStall s x.stall)) := by
    have hplaces : ownPlacements v = ownPlacements s := by
      have hi : ownIndex v = ownIndex s := hindex.trans (getF_taken hr (by decide))
      have himage : v.job.image = s.job.image := congrArg Job.image hjob
      rw [ownPlacements, ownPlacements, hi, himage]
    have hstall : ∀ p, getStall v p = getStall s p := getStall_congr hstalls
    simp only [hplaces, hstall]
  refine ⟨_, exec_rollback h hm htag w, ?_⟩
  have heq : rollback w (s.taken ring) c = if canRestore v (arg c 0) = true ∧ (∀ x ∈ ps, (slotFor v (arg c 0) x).isSome = true)
      then rollbackTo v c w (arg c 0) ps else complete v c 3 0 := rollback_eq w (s.taken ring) c
  rw [heq]
  clear_value v ps
  by_cases hcan : canRestore v (arg c 0) = true ∧ ∀ x ∈ ps, (slotFor v (arg c 0) x).isSome = true
  · rw [if_pos hcan, if_pos hcan, ← hrests]
    by_cases hrest : (ownPlacements v).any (fun x => isResting (getStall v x.stall)) = true
    · obtain ⟨⟨hstep, hpages⟩, hwait⟩ := rollbackTo_waits hsec c w (arg c 0) ps hrest
      rw [if_pos hrest]
      exact ⟨hpages, hstep, hwait⟩
    · obtain ⟨⟨hsec', hfeed, hconsumed, hstep, hexpected, hany, hrelease⟩, hmode', hdirty, htoken, hrun, hamends, htold⟩ :=
        rollbackTo_rolledBack hsec c w (arg c 0) ps (by simpa using hrest)
      rw [if_neg hrest]
      exact ⟨hsec'.pages, hsec'.step, hmode', hstep, hexpected, hany, hrelease, hdirty, htoken, hrun, hamends, hfeed, hconsumed,
        htold⟩
  · rw [if_neg hcan, if_neg hcan]
    have k := OnlyCompletes.complete v c 3 0
    have hsame : getF v R.ctlRingStatus_completed c.ring = getF s R.ctlRingStatus_completed c.ring := by
      rw [hcompleted, holds_ring h, getF_taken_completed]
    exact ⟨(congrArg Team.pages k.team).trans hsec.pages, (congrArg Team.step k.team).trans hsec.step, k.mode.trans hmode,
      k.mem.trans hmem, k.job.trans hjob, completes_complete hsame 3 0⟩

end

/-- Settles O27: NOP, HALT, HALT_CLEAR and JOB_END end with the state they leave (`nop_ends`, `halt_ends`, `haltClear_ends`,
`jobEnd_ends`); a ROLLBACK waits for the stalls that rest, ends at its step, or is refused (`rollback_ends`). -/
theorem haltAndEnd : Obligations.HaltAndEnd :=
  ⟨fun _ _ _ h => nop_ends h, fun _ _ _ h hjob => halt_ends h hjob, fun _ _ _ h hm => haltClear_ends h hm,
    fun _ _ _ h hm hdone ht hstep => jobEnd_ends h hm hdone ht hstep, fun _ _ _ w h hm htag => rollback_ends h hm htag w⟩

end Sys2Proof.Machine
end

section
/-! A halt and a plan mismatch leave the image; an amendment is held, staged and committed; the statement on HARNESS_AMEND
(R149, R150, R179, R180, R183). -/
namespace Sys2Proof.Machine
set_option Elab.async false
open Sys2Proof

/-! ## A plan mismatch (R144 to R147, R150, R183) -/

theorem setAlert_job (s : State) (i : Nat) : (setAlert s i).job = s.job := rfl

/-- With no command in progress, a halt that loses nothing takes of the job the token, the amendments and the writes that
wait. -/
theorem enterHalted_job {s : State} (hm : s.mode ≠ .halted) (hr : s.job.running = none) (cause : Nat) :
    (enterHalted s cause false).job = { s.job with amends := [], token := none, toWrite := [], reports := [] } := by
  have hdrop := (dropAmends_dropped s 2).job
  have hstop := (KeepsJob.stopCompute (dropAmends s 2)).job
  refine (congrArg State.job (enterHalted_idle hm hr cause)).trans ?_
  generalize stopCompute (dropAmends s 2) = a at hstop
  have htoken : (withoutToken a).job = { s.job with amends := [], token := none, toWrite := [], reports := [] } :=
    congrArg (fun j : Job => { j with token := none, toWrite := [], reports := [] }) (hstop.trans hdrop)
  generalize withoutToken a = b at htoken
  have hset := setFs_job b [(R.ctlState_haltCause, cause), (R.ctlState_haltStateLosing, b2n false), (R.gteStatus_haltPending, 0)]
  rw [setAlert_job]
  exact hset.trans htoken

/-- With no command in progress, a plan mismatch keeps the image, even where it halts the module. -/
theorem planMismatch_keeps {s : State} (hr : s.job.running = none) (src tag : Nat) :
    (planMismatch s src tag).job.image = s.job.image ∧ (planMismatch s src tag).job.running = none := by
  unfold planMismatch
  extract_lets t
  have ht : Steady noStall s t := (Steady.refl noStall s).notePlan src tag
  clear_value t
  have hrun : t.job.running = none := by rw [ht.job, hr]
  split
  · next hrest =>
    have hm : t.mode ≠ .halted := by
      intro e
      simp [atRest, e] at hrest
    rw [enterHalted_job (by rwa [raise_mode]) (by rwa [raise_job]), raise_job]
    exact ⟨ht.image, hrun⟩
  · split
    · exact ⟨ht.image, hrun⟩
    · exact ⟨ht.image, hrun⟩

/-! ## An amendment that is refused, and one that is held (R179) -/

/-- A completion counts on from any state that shows the same count. -/
theorem State.completes.of_count {s v t : State} {c : CmdRec} {status detail : Nat} (h : v.completes t c status detail)
    (e : getF v R.ctlRingStatus_completed c.ring = getF s R.ctlRingStatus_completed c.ring) : s.completes t c status detail :=
  ⟨by rw [← e]; exact h.1, h.2⟩

/-- A refusal is raised and completed, and changes nothing of the job. -/
theorem complete_raise_spec (s : State) (code d0 d1 : Nat) {c : CmdRec} (hc : c.ring < 2) (status : Nat) :
    (complete (raise s code cPkg d0 d1) c status 0).mode = s.mode ∧
      (complete (raise s code cPkg d0 d1) c status 0).job = s.job ∧
      s.completes (complete (raise s code cPkg d0 d1) c status 0) c status 0 := by
  have k := OnlyCompletes.complete (raise s code cPkg d0 d1) c status 0
  have hkey : ∀ r < 2, fkey R.ctlRingStatus_completed r ∉ eventKeys := by decide
  exact ⟨k.mode.trans (raise_mode _ _ _ _ _), k.job.trans (raise_job _ _ _ _ _),
    completes_complete (getF_raise (hkey _ hc) _ _ _ _ _) status 0⟩

theorem refuseAmend_plain {f : Nat × Nat} (hf : f.2 ≠ 4) (s : State) (c : CmdRec) (base : Nat) :
    refuseAmend s c f base = complete (raise s 0x3007 cPkg f.1 f.2) c f.1 0 := by
  simp only [refuseAmend, if_neg hf]

theorem refuseAmend_keeps {s : State} (hr : s.job.running = none) (c : CmdRec) (f : Nat × Nat) (base : Nat) :
    (refuseAmend s c f base).job.image = s.job.image ∧ (refuseAmend s c f base).job.running = none := by
  unfold refuseAmend
  extract_lets t
  have ht : t.job = s.job := (OnlyCompletes.complete _ c f.1 0).job.trans (raise_job _ _ _ _ _)
  clear_value t
  split
  · have h := planMismatch_keeps (s := t) (by rw [ht, hr]) 2
    rw [← ht]
    exact h _
  · rw [ht]
    exact ⟨rfl, hr⟩

/-- The record of an amendment that passes. -/
def heldAmend (c : CmdRec) (b : Bytes) (new : Image) : Amend :=
  { cmd := c, image := new, types := (sectionsOf b).map (fun p => p.1),
    structural := ((sectionsOf b).map (fun p => p.1)).any structuralType, length := b.length, staged := false }

/-- The amendment is held last, its tag is the projected one, and the command is BUSY. -/
theorem holdAmend_spec (s : State) (c : CmdRec) (b : Bytes) (new : Image) :
    (holdAmend s c b new).mode = s.mode ∧
      (holdAmend s c b new).job = { s.job with amends := s.job.amends ++ [heldAmend c b new] } ∧
      getF (holdAmend s c b new) R.hrnPlanNext_planTag = new.planTag % 2 ^ 64 ∧
      (holdAmend s c b new).numbered.getLast? = some (0x30, completionBody c 1 0) := by
  unfold holdAmend showHeld
  extract_lets ts v a _ w
  have hv : v.mode = s.mode ∧ v.job = s.job := ⟨write_mode s _ _, write_job s _ _⟩
  clear_value v
  have hw : w.mode = s.mode ∧ w.job = { s.job with amends := s.job.amends ++ [heldAmend c b new] } := by
    exact ⟨(setFs_mode _ _).trans hv.1, (setFs_job _ _).trans
      (congrArg (fun j : Job => { j with amends := j.amends ++ [heldAmend c b new] }) hv.2)⟩
  have htag : getF w R.hrnPlanNext_planTag = new.planTag % 2 ^ 64 := getF_setF _ _ _ _
  clear_value w
  have hsend := OnlySends.sendNumbered (raise w 0x3005 cPkg (new.planTag % 2 ^ 32) (typeMask ts))
  have hlast := numbered_last_sendNumbered (raise w 0x3005 cPkg (new.planTag % 2 ^ 32) (typeMask ts))
  exact ⟨((hsend _).mode.trans (raise_mode _ _ _ _ _)).trans hw.1, ((hsend _).job.trans (raise_job _ _ _ _ _)).trans hw.2,
    (((hsend _).getF _ _).trans (getF_raise (by decide) _ _ _ _ _)).trans htag, hlast _⟩

/-! ## HARNESS_AMEND (R179) -/

/-- The image that a held amendment makes of the one it applies to. -/
def amendImage (base : Image) (b : Bytes) : Image :=
  decodeImage (mergeRaw base.raw (sectionsOf b)) base.length (fieldAt b 0x10 8) base.buildId

section
variable {s : State} {ring : Nat} {c : CmdRec} {base : Image}

theorem exec_harnessAmend (h : s.holds ring 0x3003 c) (hjob : inJob s = true) :
    exec (.harnessAmend ring) s = .next (amendCmd (s.taken ring) c) := by
  have e : exec (.harnessAmend ring) s = takeCmd ring 0x3003 s (fun s c => legalIn (inJob s) s c amendCmd) := rfl
  have hok : inJob (s.taken ring) = true := hjob
  rw [e, takeCmd_of_holds h (by decide), legalIn, if_pos hok]

section within
variable (hbase : projected s = some base) (hspan : imageSpan s (arg c 0) (arg c 1) = true) (hfew : s.job.amends.length < 4)
  (hroom : getF s R.hrnHeld_heldBytes + arg c 1 ≤ heldMax)
include hbase hspan hfew hroom

theorem amendCmd_holds (hf : amendFault s c (readBytes s (arg c 0) (arg c 1)) base
      (amendImage base (readBytes s (arg c 0) (arg c 1))) = none) :
    amendCmd s c =
      holdAmend s c (readBytes s (arg c 0) (arg c 1)) (amendImage base (readBytes s (arg c 0) (arg c 1))) := by
  rw [amendImage] at hf
  simp [amendCmd, amendImage, hbase, hspan, hf, Nat.not_le.mpr hfew, Nat.not_lt.mpr hroom]

theorem amendCmd_refuses {f : Nat × Nat} (hf : amendFault s c (readBytes s (arg c 0) (arg c 1)) base
      (amendImage base (readBytes s (arg c 0) (arg c 1))) = some f) :
    amendCmd s c = refuseAmend s c f (fieldAt (readBytes s (arg c 0) (arg c 1)) 0x18 8) := by
  rw [amendImage] at hf
  simp [amendCmd, hbase, hspan, hf, Nat.not_le.mpr hfew, Nat.not_lt.mpr hroom]

end within

theorem harnessAmend_ends (h : s.holds ring 0x3003 c) (hjob : inJob s = true) (hbase : projected s = some base)
    (hspan : imageSpan (s.taken ring) (arg c 0) (arg c 1) = true) (hfew : s.job.amends.length < 4)
    (hroom : getF s R.hrnHeld_heldBytes + arg c 1 ≤ heldMax) :
    let b := readBytes s (arg c 0) (arg c 1)
    let new := decodeImage (mergeRaw base.raw (sectionsOf b)) base.length (fieldAt b 0x10 8) base.buildId
    ∃ t, exec (.harnessAmend ring) s = .next t ∧ t.job.image = s.job.image ∧ t.job.running = none ∧
      match amendFault (s.taken ring) c b base new with
      | none => t.mode = s.mode ∧ getF t R.hrnPlanNext_planTag = new.planTag % 2 ^ 64 ∧
          (∃ a, t.job.amends = s.job.amends ++ [a] ∧ a.cmd = c ∧ a.image = new ∧ a.staged = false ∧
            a.length = arg c 1) ∧
          t.numbered.getLast? = some (0x30, completionBody c 1 0)
      | some f => f.2 ≠ 4 → t.mode = s.mode ∧ t.job.amends = s.job.amends ∧ s.completes t c f.1 0 := by
  intro b new
  obtain ⟨hr, -⟩ := id h
  have hidle := holds_running h
  have hrun : (s.taken ring).job.running = none := hidle
  have hroom' : getF (s.taken ring) R.hrnHeld_heldBytes + arg c 1 ≤ heldMax := by rwa [getF_taken hr (by decide)]
  refine ⟨_, exec_harnessAmend h hjob, ?_⟩
  cases hf : amendFault (s.taken ring) c b base new with
  | none =>
    have hheld : amendCmd (s.taken ring) c = holdAmend (s.taken ring) c b new :=
      amendCmd_holds (s := s.taken ring) hbase hspan hfew hroom' hf
    obtain ⟨hmode, hkept, htag, htold⟩ := holdAmend_spec (s.taken ring) c b new
    rw [hheld]
    exact ⟨by rw [hkept]; rfl, by rw [hkept]; exact hrun, hmode, htag,
      ⟨heldAmend c b new, by rw [hkept]; rfl, rfl, rfl, rfl, readBytes_length _ _ _⟩, htold⟩
  | some f =>
    have hrefused : amendCmd (s.taken ring) c = refuseAmend (s.taken ring) c f (fieldAt b 0x18 8) :=
      amendCmd_refuses (s := s.taken ring) hbase hspan hfew hroom' hf
    rw [hrefused]
    obtain ⟨himage, hrunning⟩ := refuseAmend_keeps hrun c f (fieldAt b 0x18 8)
    refine ⟨himage, hrunning, fun hplain => ?_⟩
    rw [refuseAmend_plain hplain]
    obtain ⟨hmode, hkept, hdone⟩ := complete_raise_spec (s.taken ring) 0x3007 f.1 f.2 (c := c) (by rwa [holds_ring h]) f.1
    exact ⟨hmode, congrArg Job.amends hkept, hdone.of_count (getF_setF_ne _ _ (fkey_ne_of_lo (by decide) _ _))⟩

end

/-! ## Staging (R180) -/

/-- The amendment at place `k` is staged. -/
def stagedAt (k : Nat) (l : List Amend) : List Amend := l.mapIdx (fun i a => if i = k then { a with staged := true } else a)

theorem all_staged {k : Nat} {l : List Amend} (h : ∀ i, i ≠ k → ∀ a, l[i]? = some a → a.staged = true) :
    (stagedAt k l).all (fun a => a.staged) = true := by
  refine List.all_eq_true.mpr (fun a ha => ?_)
  obtain ⟨i, hi, rfl⟩ := List.mem_mapIdx.mp ha
  by_cases e : i = k
  · rw [if_pos e]
  · rw [if_neg e]
    exact h i e _ (List.getElem?_eq_getElem hi)

/-- The state with the staging of that amendment ended. -/
def stageEnded (s : State) (k : Nat) : State := { s with job := { s.job with amends := stagedAt k s.job.amends } }

theorem atRest_stageEnded (s : State) (k : Nat) : atRest (stageEnded s k) = atRest s := atRest_congr rfl rfl

theorem exec_amendStaged {s : State} {k : Nat} (hon : s.board.railsOn = true)
    (hk : s.job.amends.findIdx? (fun a => !a.staged) = some k) : exec .amendStaged s =
      .next (tryCommit (stageEnded s k)) := by
  refine (inModule_on hon).trans (congrArg _ ?_)
  rw [amendStaged, hk]
  rfl

/-- Settles O30: an amendment held or refused (`harnessAmend_ends`); the staging of the oldest one, which waits
(`tryCommit_waits`) or, with the last one staged, commits the step of the token (`commitGate_shown`). -/
theorem amendments : Obligations.Amendments := by
  refine ⟨fun s ring c base h hjob hbase hspan hfew hroom => harnessAmend_ends h hjob hbase hspan hfew hroom,
    fun s k hon hk hwait => ?_, fun s k x hon hk hall htoken hrest hsmall => ?_⟩
  · refine (exec_amendStaged hon hk).trans (congrArg _ ?_)
    rcases hwait with htoken | hrest
    · exact tryCommit_none htoken
    · exact tryCommit_waits (.inl ((atRest_stageEnded s k).trans hrest))
  · have hcommit : tryCommit (stageEnded s k) = commitGate (stageEnded s k) x :=
      tryCommit_commits htoken ((atRest_stageEnded s k).trans hrest) (all_staged hall)
    obtain ⟨⟨hmode, hstep, -, -, -, hnone, hamends⟩, -⟩ := commitGate_shown (stageEnded s k) x
    rw [← hcommit] at hmode hstep hnone hamends
    exact ⟨_, exec_amendStaged hon hk, hmode, hstep.trans (Nat.mod_eq_of_lt hsmall), hnone, hamends⟩

end Sys2Proof.Machine
end

section
/-! HARNESS_LOAD: what puts the records of an image into their units leaves the mode, the job and the image shown as they are; the
statement on an image that is loaded or refused (R165, R173, R175 to R177, R448). -/
namespace Sys2Proof.Machine
set_option Elab.async false
open Sys2Proof

/-! ## The image shown -/

/-- The plan tag, the state of the image and the module's place in it. -/
def imageKeys : List Nat := [fkey R.gtePlan_planTag 0, fkey R.hrnStatus_state 0, fkey R.hrnStatus_moduleIndex 0]

/-- From `s` to `t` the mode, the job and the fields of the keys `K` stand. -/
structure KeepsImage (K : List Nat) (s t : State) : Prop where
  mode : t.mode = s.mode
  job : t.job = s.job
  keys : KeepsKeys K s t

namespace KeepsImage
variable {K : List Nat} {s t u : State}

theorem refl (s : State) : KeepsImage K s s := ⟨rfl, rfl, .refl s⟩

theorem trans (h : KeepsImage K s t) (k : KeepsImage K t u) : KeepsImage K s u :=
  ⟨k.mode.trans h.mode, k.job.trans h.job, h.keys.trans k.keys⟩

/-- A change of other parts alone. -/
theorem same (e : (t.mode, t.job, t.reg) = (s.mode, s.job, s.reg)) : KeepsImage K s t := by
  simp only [Prod.mk.injEq] at e
  obtain ⟨hm, hj, hr⟩ := e
  exact ⟨hm, hj, .same hr⟩

theorem setF {f : Field} {u : Nat} (hf : fkey f u ∉ K) (s : State) (v : Nat) : KeepsImage K s (setF s f u v) :=
  ⟨rfl, rfl, .setF hf s v⟩

/-- A field of any unit, apart from those of the keys. -/
theorem setUnit {f : Field} (hf : f.apartFrom K = true) (s : State) (u v : Nat) : KeepsImage K s (Machine.setF s f u v) :=
  setF (fkey_of_apartFrom hf u) s v

theorem setFs {l : List (Field × Nat)} (hl : ∀ f ∈ l.map Prod.fst, fkey f 0 ∉ K) (s : State) :
    KeepsImage K s (setFs s l) :=
  ⟨setFs_mode s l, setFs_job s l, .setFs hl s⟩

theorem forEach_mem {α : Type} {l : List α} {f : State → α → State} (hf : ∀ s, ∀ a ∈ l, KeepsImage K s (f s a))
    (s : State) : KeepsImage K s (forEach l f s) :=
  List.foldlRecOn l f (motive := KeepsImage K s) (refl s) (fun t ht a ha => ht.trans (hf t a ha))

theorem forEach {α : Type} {f : State → α → State} (hf : ∀ s a, KeepsImage K s (f s a)) (l : List α) (s : State) :
    KeepsImage K s (forEach l f s) := forEach_mem (fun t a _ => hf t a) s

theorem raise (hK : ∀ k ∈ K, k ∉ eventKeys) (s : State) (code coord d0 d1 : Nat) :
    KeepsImage K s (raise s code coord d0 d1) :=
  ⟨raise_mode s code coord d0 d1, raise_job s code coord d0 d1, .ofReg (.raise s code coord d0 d1) hK⟩

/-! ## The records of an image in their units (R173, R177, R448) -/

theorem loadArb (s : State) (i : Image) (own : Nat) : KeepsImage imageKeys s (loadArb s i own) := by
  unfold Machine.loadArb
  extract_lets a
  have ha : KeepsImage imageKeys s a := by
    refine .forEach (fun t p => ?_) _ s
    exact (setUnit (by decide) t p 16).trans (setUnit (by decide) _ p 16)
  refine ha.trans (.forEach (fun t x => ?_) _ a)
  exact (setUnit (by decide) t x.2.1 _).trans (setUnit (by decide) _ x.2.1 _)

theorem loadPrograms (s : State) (i : Image) : KeepsImage imageKeys s (loadPrograms s i) := by
  refine .forEach (fun t z => ?_) _ s
  exact setUnit (by decide) t z _

theorem freshHome (s : State) (c : Nat) : KeepsImage imageKeys s (freshHome s c) := by
  unfold Machine.freshHome
  extract_lets g base n a
  have ha : KeepsImage imageKeys s a := .same rfl
  refine ha.trans (.forEach (fun t x => ?_) _ a)
  exact .same rfl

theorem loadGroups (s : State) (i : Image) (own : Nat) : KeepsImage imageKeys s (loadGroups s i own) := by
  unfold Machine.loadGroups
  extract_lets g a _ b d
  have ha : KeepsImage imageKeys s a := by
    refine .forEach (fun t c => ?_) _ s
    exact (setUnit (by decide) t c _).trans (setUnit (by decide) _ c _)
  clear_value a
  have hb : KeepsImage imageKeys s b := ha.trans (.same rfl)
  have hd : KeepsImage imageKeys b d := .setFs (by simp only [List.map_cons, List.map_nil]; decide) b
  exact (hb.trans hd).trans (.forEach freshHome _ d)

theorem clearHistories (s : State) : KeepsImage imageKeys s (clearHistories s) := by
  have hfmt : KeepsImage imageKeys s { s with fmt := Fmt.reset } := .same rfl
  refine hfmt.trans (.forEach (fun t k => ?_) _ _)
  exact (((setUnit (by decide) t k 0).trans (setUnit (by decide) _ k 0)).trans (setUnit (by decide) _ k 0)).trans
    (setUnit (by decide) _ k 0)

/-! ## Stalls woken for writes (R476) -/

/-- A stall asked to wake for a write changes the governor's queue at most. -/
theorem requestWake (s : State) (p : Nat) (die : Bool) : KeepsImage K s (requestWake s p .program die) := by
  unfold Machine.requestWake
  extract_lets t u
  have hu : u = s := if_neg (by decide)
  clear_value u
  subst hu
  split
  · exact refl _
  · split
    · exact iteInduction (fun h => absurd h (by decide)) (fun _ => refl _)
    · split
      · exact refl _
      · exact .same rfl

theorem toWrite (s : State) (ps : List Nat) : KeepsImage K { s with job := { s.job with toWrite := ps } } (toWrite s ps) := by
  refine .forEach (fun t p => ?_) ps _
  split
  · exact requestWake t p false
  · exact refl t

end KeepsImage

/-- The image is installed: the module's place in it is shown, and its state as before (R165, R177). -/
theorem installImage_spec (s : State) (i : Image) (own : Nat) : (installImage s i own).mode = s.mode ∧
    (installImage s i own).job = s.job ∧ getF (installImage s i own) R.hrnStatus_state = getF s R.hrnStatus_state ∧
    getF (installImage s i own) R.hrnStatus_moduleIndex = own % 2 ^ 16 := by
  unfold installImage
  extract_lets a
  have hmode : a.mode = s.mode := setFs_mode _ _
  have hjob : a.job = s.job := setFs_job _ _
  have hshown : getF a R.hrnStatus_state = getF s R.hrnStatus_state ∧ getF a R.hrnStatus_moduleIndex = own % 2 ^ 16 := by
    simp (disch := decide) only [a, setFs, List.foldl_cons, List.foldl_nil, getF_setF_ne, getF_setF, true_and]
    rfl
  obtain ⟨hstate, hindex⟩ := hshown
  clear_value a
  have k : KeepsImage imageKeys a (clearHistories (loadGroups (loadPrograms (loadArb a i own) i) i own)) :=
    (((KeepsImage.loadArb a i own).trans (.loadPrograms _ i)).trans (.loadGroups _ i own)).trans (.clearHistories _)
  exact ⟨k.mode.trans hmode, k.job.trans hjob, (k.keys _ 0 (by decide)).trans hstate, (k.keys _ 0 (by decide)).trans hindex⟩

/-! ## A load that is refused, and one that starts (R177) -/

theorem refuseLoad_spec (s : State) {c : CmdRec} (hc : c.ring < 2) (f : Nat × Nat) : (refuseLoad s c f).mode = s.mode ∧
    (refuseLoad s c f).job = s.job ∧ getF (refuseLoad s c f) R.hrnStatus_state = 0 ∧
    s.completes (refuseLoad s c f) c f.1 0 := by
  obtain ⟨hmode, hjob, hdone⟩ := complete_raise_spec (setF s R.hrnStatus_state 0 0) 0x3003 f.1 f.2 hc f.1
  have hshown : getF (setF s R.hrnStatus_state 0 0) R.hrnStatus_state = 0 := getF_setF _ _ _ _
  exact ⟨hmode, hjob, (getF_complete (by decide) _ _ _ _).trans ((getF_raise (by decide) _ _ _ _ _).trans hshown),
    hdone.of_count (getF_setF_ne _ _ (fkey_ne_of_lo (by decide) _ _))⟩

/-- The image is being loaded: its records in their units, the command in progress, its stalls asked to wake. -/
def loadStarted (s : State) (c : CmdRec) (i : Image) (own : Nat) : State :=
  let t := startRunning (installImage (setF s R.hrnStatus_state 0 1) i own) c
  toWrite { t with job := { t.job with loading := some i } } (ownStalls i own)

theorem loadStarted_spec (s : State) (c : CmdRec) (i : Image) (own : Nat) : (loadStarted s c i own).mode = s.mode ∧
    (loadStarted s c i own).job.image = s.job.image ∧ (loadStarted s c i own).job.running.map (fun r => r.cmd) = some c ∧
    (loadStarted s c i own).job.loading = some i ∧ getF (loadStarted s c i own) R.hrnStatus_state = 1 ∧
    getF (loadStarted s c i own) R.hrnStatus_moduleIndex = own % 2 ^ 16 := by
  unfold loadStarted
  obtain ⟨hmode, hjob, hstate, hindex⟩ := installImage_spec (setF s R.hrnStatus_state 0 1) i own
  rw [getF_setF] at hstate
  generalize installImage (setF s R.hrnStatus_state 0 1) i own = v at hmode hjob hstate hindex
  extract_lets t
  have htmode : t.mode = s.mode := hmode
  have htimage : t.job.image = s.job.image := (show t.job.image = v.job.image from rfl).trans (congrArg Job.image hjob)
  have htrun : t.job.running.map (fun r => r.cmd) = some c := rfl
  have htstate : getF t R.hrnStatus_state = 1 := hstate
  have htindex : getF t R.hrnStatus_moduleIndex = own % 2 ^ 16 := hindex
  clear_value t
  have k := KeepsImage.toWrite (K := imageKeys) { t with job := { t.job with loading := some i } } (ownStalls i own)
  exact ⟨k.mode.trans htmode, (congrArg Job.image k.job).trans htimage,
    (congrArg (fun j => j.running.map (fun r => r.cmd)) k.job).trans htrun, congrArg Job.loading k.job,
    (k.keys _ 0 (by decide)).trans htstate, (k.keys _ 0 (by decide)).trans htindex⟩

/-! ## HARNESS_LOAD (R176, R177) -/

/-- The event that shows a load asked for. -/
def loadAsked (s : State) (c : CmdRec) : State := raise s 0x3001 cPkg (arg c 1) (arg c 2)

/-- The image copied into the harness region. -/
def loadCopied (s : State) (c : CmdRec) : State := copy (loadAsked s c) (arg c 0) harnessBase (arg c 1)

/-- The bytes of the copied image. -/
def copiedBytes (s : State) (c : CmdRec) : Bytes := readBytes (loadCopied s c) harnessBase (arg c 1)

/-- The image that they spell. -/
def copiedImage (s : State) (c : CmdRec) : Image :=
  decodeImage (sectionsOf (copiedBytes s c)) (arg c 1) (fieldAt (copiedBytes s c) 0x10 8) (fieldAt (copiedBytes s c) 0x20 8)

/-- What a load leaves as it was before the checks: the mode, the job and the completions counted. -/
theorem loadAsked_spec (s : State) (c : CmdRec) : (loadAsked s c).mode = s.mode ∧ (loadAsked s c).job = s.job ∧
    ∀ r < 2, getF (loadAsked s c) R.ctlRingStatus_completed r = getF s R.ctlRingStatus_completed r := by
  have hkey : ∀ r < 2, fkey R.ctlRingStatus_completed r ∉ eventKeys := by decide
  exact ⟨raise_mode _ _ _ _ _, raise_job _ _ _ _ _, fun r hr => getF_raise (hkey r hr) _ _ _ _ _⟩

theorem loadCopied_spec (s : State) (c : CmdRec) : (loadCopied s c).mode = s.mode ∧ (loadCopied s c).job = s.job ∧
    ∀ r < 2, getF (loadCopied s c) R.ctlRingStatus_completed r = getF s R.ctlRingStatus_completed r := by
  obtain ⟨hmode, hjob, hcount⟩ := loadAsked_spec s c
  have k := OnlyStores.copy (loadAsked s c) (arg c 0) harnessBase (arg c 1)
  have hkey : ∀ r < 2, fkey R.ctlRingStatus_completed r ∉ eventKeys := by decide
  exact ⟨k.mode.trans hmode, k.job.trans hjob, fun r hr => (KeepsReg.copy _ _ _ _ _ r (hkey r hr)).trans (hcount r hr)⟩

section
variable {s : State} {ring : Nat} {c : CmdRec}

theorem loadCmd_refuses_span (h : ¬ (imageSpan (loadAsked s c) (arg c 0) (arg c 1) = true ∧ arg c 1 ≤ imageMax)) :
    loadCmd s c = refuseLoad (loadAsked s c) c (3, 1) := by
  have hout : (!(imageSpan (loadAsked s c) (arg c 0) (arg c 1) && decide (arg c 1 ≤ imageMax))) = true := by
    simpa only [Bool.not_eq_true', ← Bool.not_eq_true, Bool.and_eq_true, decide_eq_true_eq] using h
  exact if_pos hout

/-- An image within its bounds goes on to the checks. -/
theorem load_within {v : State} {a n : Nat} (h : imageSpan v a n = true ∧ n ≤ imageMax) :
    ¬ (!(imageSpan v a n && decide (n ≤ imageMax))) = true := by
  simp only [h.1, h.2, decide_true, Bool.and_self, Bool.not_true, Bool.false_eq_true, not_false_eq_true]

section within
variable (h : imageSpan (loadAsked s c) (arg c 0) (arg c 1) = true ∧ arg c 1 ≤ imageMax)
include h

theorem loadCmd_refuses {f : Nat × Nat}
    (hf : loadFault (loadCopied s c) c (copiedBytes s c) (copiedImage s c) (arg c 2) = some f) :
    loadCmd s c = refuseLoad (loadCopied s c) c f := by
  unfold loadCmd
  extract_lets a n own v u b i
  have hfault : loadFault u c b i own = some f := hf
  rw [if_neg (load_within (v := v) (a := a) (n := n) h), hfault]
  rfl

theorem loadCmd_starts (hf : loadFault (loadCopied s c) c (copiedBytes s c) (copiedImage s c) (arg c 2) = none) :
    loadCmd s c = loadStarted (loadCopied s c) c (copiedImage s c) (arg c 2) := by
  unfold loadCmd
  extract_lets +onlyGivenNames a n own v u b i
  have hfault : loadFault u c b i own = none := hf
  rw [if_neg (load_within (v := v) (a := a) (n := n) h), hfault, show loadCopied s c = u from rfl,
    show copiedImage s c = i from rfl, show arg c 2 = own from rfl]
  clear_value u i own
  rfl

end within

theorem exec_harnessLoad (h : s.holds ring 0x3001 c) (hm : s.mode = .ready) :
    exec (.harnessLoad ring) s = .next (loadCmd (s.taken ring) c) := by
  have e : exec (.harnessLoad ring) s = takeCmd ring 0x3001 s (fun s c => legalIn (s.mode == .ready) s c loadCmd) := rfl
  have hok : ((s.taken ring).mode == .ready) = true := beq_iff_eq.mpr hm
  rw [e, takeCmd_of_holds h (by decide), legalIn, if_pos hok]

/-- A refused load leaves a ready module as it was, its image shown as none. -/
theorem refuseLoad_ends {v : State} (h : s.holds ring 0x3001 c) (hm : s.mode = .ready) (hl : s.job.loading = none)
    (hv : v.mode = s.mode ∧ v.job = s.job ∧
      ∀ r < 2, getF v R.ctlRingStatus_completed r = getF s R.ctlRingStatus_completed r)
    (f : Nat × Nat) : (refuseLoad v c f).mode = .ready ∧ (refuseLoad v c f).job.image = s.job.image ∧
      (refuseLoad v c f).job.running = none ∧ (refuseLoad v c f).job.loading = none ∧
      getF (refuseLoad v c f) R.hrnStatus_state = 0 ∧ s.completes (refuseLoad v c f) c f.1 0 := by
  obtain ⟨hmode, hjob, hcount⟩ := hv
  have hc : c.ring < 2 := by
    rw [holds_ring h]
    exact h.1
  obtain ⟨hmode', hjob', hstate, hdone⟩ := refuseLoad_spec v hc f
  have hkept : (refuseLoad v c f).job = s.job := hjob'.trans hjob
  exact ⟨(hmode'.trans hmode).trans hm, by rw [hkept], by rw [hkept, holds_running h], by rw [hkept, hl], hstate,
    hdone.of_count (hcount _ hc)⟩

end

/-- Settles O28: out of its bounds, or with a check that fails, the image is refused (`refuseLoad_ends`); else the load starts
(`loadStarted_spec`). -/
theorem imageLoad : Obligations.ImageLoad := by
  intro s ring c h hm hl v u b i
  have hcount : ∀ r < 2, getF (s.taken ring) R.ctlRingStatus_completed r = getF s R.ctlRingStatus_completed r := by
    intro r _
    exact getF_setF_ne _ _ (fkey_ne_of_lo (by decide) _ _)
  refine ⟨_, exec_harnessLoad h hm, ?_⟩
  by_cases hin : imageSpan v (arg c 0) (arg c 1) = true ∧ arg c 1 ≤ imageMax
  · obtain ⟨hmode, hjob, hcopied⟩ := loadCopied_spec (s.taken ring) c
    rw [if_pos hin]
    cases hf : loadFault u c b i (arg c 2) with
    | none =>
      rw [show loadCmd (s.taken ring) c = loadStarted u c i (arg c 2) from loadCmd_starts hin hf]
      obtain ⟨hstarted, himage, hrun, hload, hstate, hindex⟩ := loadStarted_spec u c i (arg c 2)
      exact ⟨(hstarted.trans hmode).trans hm, himage.trans (congrArg Job.image hjob), hrun, hload, hstate, hindex⟩
    | some f =>
      rw [show loadCmd (s.taken ring) c = refuseLoad u c f from loadCmd_refuses hin hf]
      exact refuseLoad_ends h hm hl ⟨hmode, hjob, fun r hr => (hcopied r hr).trans (hcount r hr)⟩ f
  · obtain ⟨hmode, hjob, hasked⟩ := loadAsked_spec (s.taken ring) c
    rw [if_neg hin, show loadCmd (s.taken ring) c = refuseLoad v c (3, 1) from loadCmd_refuses_span hin]
    obtain ⟨hready, himage, hrun, hload, -, hdone⟩ :=
      refuseLoad_ends h hm hl ⟨hmode, hjob, fun r hr => (hasked r hr).trans (hcount r hr)⟩ (3, 1)
    exact ⟨hready, himage, hrun, hload, hdone⟩

end Sys2Proof.Machine
end

section
/-! HARNESS_LOAD_DONE: the arrays of an image are written, and it becomes the active one or is given up (R175 to
R178, R236, R442). -/
namespace Sys2Proof.Machine
set_option Elab.async false
open Sys2Proof

/-! ## The arrays of an image written (R177 step 3, R236) -/

namespace Steady
variable {W : Nat → Prop} {z s : State}

theorem setWexp (h : Steady W z s) (pl : Placement) (e : Int) : Steady W z (setWexp s pl e) :=
  h.forEach (fun _ _ ht => ht.write _ _) _

theorem loadTile (h : Steady noStall z s) (pl : Placement) (w : List (Nat × WriteReport)) :
    Steady noStall z (loadTile s pl w) := by
  unfold Machine.loadTile
  extract_lets t tile m e l step a b d r u
  have hm : Steady noStall z m.1 := (h.loftRead _ _).draw
  clear_value m
  have ha : Steady noStall z a := (hm.setUnit (by decide) tile step).setWexp pl e
  have hb : Steady noStall z b := Steady.setUnit (Steady.same ha) (by decide) tile l.2
  have hd : Steady noStall z d := hb.when (hb.raiseOnce _ _ _ _ _) _
  have hr : Steady noStall z r.1 := hd.fullWrite _ _ _
  have hu : Steady noStall z u := hr.recordTile pl tile
  exact ite (failTile id hu _ _) hu

end Steady

/-- The image `i` is the active one, and none is being loaded. -/
def imageTaken (s : State) (i : Image) : State :=
  { s with job := { s.job with image := some i, loading := none, toWrite := [] } }

/-- The stalls given up are lost, and the tiles placed on the others written. -/
def arraysLoaded (w : List (Nat × WriteReport)) (lost : List Nat) (s : State) (i : Image) : State :=
  let t := forEach ((ownStalls i (ownIndex s)).filter (fun p => lost.contains p)) (fun t p => loseStall t p 2) (imageTaken s i)
  forEach (ownPlaces i (ownIndex t)) (fun t pl => if (getStall t pl.stall).st == .disabled then t else loadTile t pl w) t

theorem arraysLoaded_steady (w : List (Nat × WriteReport)) (lost : List Nat) (s : State) (i : Image) :
    Steady noStall (imageTaken s i) (arraysLoaded w lost s i) := by
  unfold arraysLoaded
  extract_lets t
  have ht : Steady noStall (imageTaken s i) t := (Steady.refl _ _).forEach (fun _ _ k => Steady.loseStall id k 2) _
  exact ht.forEach (fun _ pl k => .ite k (k.loadTile pl w)) _

/-! ## An image that is given up (R177, R178) -/

/-- From `s` to `t` the mode, the frames to the host and the stalls out of use stand. -/
structure KeepsFront (s t : State) : Prop where
  mode : t.mode = s.mode
  ses : t.ses = s.ses
  disabled : ∀ p, ((getStall t p).st == .disabled) = ((getStall s p).st == .disabled)

namespace KeepsFront
variable {s t u : State}

theorem refl (s : State) : KeepsFront s s := ⟨rfl, rfl, fun _ => rfl⟩

theorem trans (h : KeepsFront s t) (k : KeepsFront t u) : KeepsFront s u :=
  ⟨k.mode.trans h.mode, k.ses.trans h.ses, fun p => (k.disabled p).trans (h.disabled p)⟩

/-- A change of other parts alone. -/
theorem same (e : (t.mode, t.ses, t.stalls) = (s.mode, s.ses, s.stalls)) : KeepsFront s t := by
  simp only [Prod.mk.injEq] at e
  obtain ⟨hm, hs, ht⟩ := e
  exact ⟨hm, hs, fun p => by rw [getStall_congr ht]⟩

theorem ofReg (h : OnlyReg s t) : KeepsFront s t := .same (by rw [h.eq])

theorem forEach {α : Type} {f : State → α → State} (hf : ∀ s a, KeepsFront s (f s a)) (l : List α) (s : State) :
    KeepsFront s (forEach l f s) :=
  List.foldlRecOn l f (motive := KeepsFront s) (refl s) (fun t ht a _ => ht.trans (hf t a))

/-- A stall is changed, and is out of use after it as before. -/
theorem modStall (s : State) (p : Nat) {f : Stall → Stall}
    (hf : ((f (getStall s p)).st == .disabled) = ((getStall s p).st == .disabled)) : KeepsFront s (modStall s p f) := by
  refine ⟨rfl, rfl, fun q => ?_⟩
  by_cases e : q = p
  · rw [e, getStall_modStall, hf]
  · rw [getStall_modStall_ne s f e]

/-- A running stall, and the state it shows, is in use. -/
theorem runState_used (s : State) (p : Nat) (h : isRunning (getStall s p) = true) :
    (runState s p == .disabled) = ((getStall s p).st == .disabled) := by
  have hst : ((getStall s p).st == .disabled) = false := by
    cases e : (getStall s p).st with
    | disabled => simp [isRunning, e] at h
    | _ => rfl
  rw [hst, runState]
  split
  · rfl
  · split
    · rfl
    · rfl

theorem dropImage (s : State) : KeepsFront s (dropImage s) := by
  unfold Machine.dropImage
  extract_lets _ _ _ _ a _ b c _ d e f
  have ha : KeepsFront s a := .same rfl
  have hb : KeepsFront a b := .forEach (fun t p => .modStall t p rfl) _ a
  have hc : KeepsFront b c := .forEach (fun t p => .forEach (fun u f => .ofReg (.setF u f p 0)) _ t) _ b
  clear_value c
  have hd : KeepsFront c d := .same rfl
  clear_value d
  have he : KeepsFront d e := .forEach (fun t p => by
    split
    · next h => exact .modStall t p (runState_used t p h)
    · exact .refl t) _ d
  clear_value e
  have hf : KeepsFront e f := .ofReg (((clearUnits_only e _ _).trans (clearUnits_only _ _ _)).trans (clearUnits_only _ _ _))
  exact ((((ha.trans hb).trans hc).trans hd).trans (he.trans hf)).trans (.ofReg (.setFs f _))

end KeepsFront

theorem numbered_congr {s t : State} (h : t.ses = s.ses) : t.numbered = s.numbered := by
  rw [State.numbered, State.numbered, sessionOpen, sessionOpen, h]

/-- The image is given up: the load of `c` ends with status 7, no image is left, and the stalls out of use in `x` are so
in `t`. -/
structure GivenUp (x : State) (c : CmdRec) (t : State) : Prop where
  mode : t.mode = x.mode
  image : t.job.image = none
  loading : t.job.loading = none
  running : t.job.running = none
  told : t.numbered.getLast? = some (0x30, completionBody c 7 0)
  disabled : ∀ p, ((getStall t p).st == .disabled) = ((getStall x p).st == .disabled)

theorem forgetArrays_givenUp (x : State) (c : CmdRec) :
    GivenUp x c (forgetArrays (finish (raise x 0x3003 cPkg 7 8) c 7 0)) := by
  have k := finish_onlyCompletes (raise x 0x3003 cPkg 7 8) c 7 0
  have htold : (finish (raise x 0x3003 cPkg 7 8) c 7 0).numbered.getLast? = some (0x30, completionBody c 7 0) :=
    numbered_complete _ _ _ _
  generalize finish (raise x 0x3003 cPkg 7 8) c 7 0 = u at k htold
  have hmode : u.mode = x.mode := k.mode.trans (raise_mode _ _ _ _ _)
  have hstalls : u.stalls = x.stalls := k.stalls.trans (raise_stalls _ _ _ _ _)
  have hrun : u.job.running = none := congrArg Job.running k.job
  unfold forgetArrays
  have hfront := KeepsFront.dropImage { u with job := { u.job with loading := none } }
  have hjob : (dropImage { u with job := { u.job with loading := none } }).job = { Job.reset with running := u.job.running } :=
    (dropImage_keeps _).job
  generalize dropImage { u with job := { u.job with loading := none } } = t at hfront hjob
  exact ⟨hfront.mode.trans hmode, congrArg Job.image hjob, congrArg Job.loading hjob, (congrArg Job.running hjob).trans hrun,
    (congrArg List.getLast? (numbered_congr hfront.ses)).trans htold,
    fun p => (hfront.disabled p).trans (by rw [← getStall_congr hstalls p]; rfl)⟩

/-! ## An image that becomes the active one (R177 step 4, R443) -/

/-- From `s` to `t` registers and the team change at most, and the fields that show the image stand. -/
structure OnlyTeam (s t : State) : Prop where
  eq : t = { s with reg := t.reg, team := t.team }
  keys : KeepsKeys imageKeys s t

namespace OnlyTeam
variable {s t u : State}

theorem trans (h : OnlyTeam s t) (k : OnlyTeam t u) : OnlyTeam s u :=
  ⟨k.eq.trans (congrArg (fun v => { v with reg := u.reg, team := u.team }) h.eq), h.keys.trans k.keys⟩

theorem mode (h : OnlyTeam s t) : t.mode = s.mode := (congrArg State.mode h.eq).trans rfl
theorem job (h : OnlyTeam s t) : t.job = s.job := (congrArg State.job h.eq).trans rfl
theorem ses (h : OnlyTeam s t) : t.ses = s.ses := (congrArg State.ses h.eq).trans rfl
theorem stalls (h : OnlyTeam s t) : t.stalls = s.stalls := (congrArg State.stalls h.eq).trans rfl

theorem setTeam (s : State) (x : Team) : OnlyTeam s { s with team := x } := ⟨rfl, .same rfl⟩

theorem setFs {l : List (Field × Nat)} (hl : ∀ f ∈ l.map Prod.fst, fkey f 0 ∉ imageKeys) (s : State) :
    OnlyTeam s (setFs s l) :=
  ⟨by rw [(OnlyReg.setFs s l).eq], .setFs hl s⟩

theorem showTeamFlags (s : State) (l : List Nat) : OnlyTeam s (showTeamFlags s l) := by
  have h : OnlyReg s (Machine.showTeamFlags s l) := .forEach (fun t n => .setF t _ n _) _ s
  refine ⟨by rw [h.eq], .forEach (fun t n _ => ?_) s⟩
  exact .setF (fkey_of_apartFrom (by decide) n) t _

theorem clearTeam (s : State) : OnlyTeam s (clearTeam s) :=
  ((setTeam s { s.team with rec? := none }).trans (setFs (by simp only [List.map_cons, List.map_nil]; decide) _)).trans
    (showTeamFlags _ _)

end OnlyTeam

/-- A team joined, or refused with its event. -/
theorem joinTeam_onlyTeam (s : State) : ∃ u, OnlyTeam s u ∧ MayRaise u (joinTeam s) := by
  unfold joinTeam
  extract_lets a
  have ha : OnlyTeam s a := .clearTeam s
  clear_value a
  split
  · exact ⟨a, ha, .refl a⟩
  · extract_lets x b _ c
    have hb : OnlyTeam a b := (OnlyTeam.setFs (by simp only [List.map_cons, List.map_nil]; decide) a).trans (.showTeamFlags _ _)
    have hc : OnlyTeam s c := (ha.trans hb).trans (.setTeam b _)
    clear_value c
    split
    · exact ⟨setFs c [(R.pairStatus_team, 3), (R.pairStatus_cause, 2)],
        hc.trans (.setFs (by simp only [List.map_cons, List.map_nil]; decide) c), .raise _ _ _ _ _⟩
    · exact ⟨c, hc, .refl c⟩

/-- The image `i` is active: HARNESSED under its plan tag, the load of `c` ended, the stalls as in `x`. -/
structure Activated (x : State) (c : CmdRec) (i : Image) (t : State) : Prop where
  mode : t.mode = .harnessed
  job : t.job = { x.job with running := none }
  planTag : getF t R.gtePlan_planTag = i.planTag % 2 ^ 64
  shown : getF t R.hrnStatus_state = 2
  told : t.numbered.getLast? = some (0x30, completionBody c 0 i.planTag)
  stalls : t.stalls = x.stalls

theorem activate_activated (x : State) (c : CmdRec) (i : Image) : Activated x c i (activate x c i) := by
  unfold activate
  extract_lets a
  have hmode : a.mode = .harnessed := setFs_mode _ _
  have hjob : a.job = x.job := setFs_job _ _
  have hstalls : a.stalls = x.stalls := (congrArg State.stalls (OnlyReg.setFs _ _).eq).trans rfl
  have hshown : getF a R.gtePlan_planTag = i.planTag % 2 ^ 64 ∧ getF a R.hrnStatus_state = 2 := by
    simp (disch := decide) only [a, setFs, List.foldl_cons, List.foldl_nil, getF_setF_ne, getF_setF]
    exact ⟨rfl, rfl⟩
  obtain ⟨htag, hstate⟩ := hshown
  clear_value a
  have hraise := KeepsImage.raise (K := imageKeys) (by decide) a 0x3002 cPkg (i.planTag % 2 ^ 32) (i.planTag / 2 ^ 32)
  have hrstalls := raise_stalls a 0x3002 cPkg (i.planTag % 2 ^ 32) (i.planTag / 2 ^ 32)
  generalize raise a 0x3002 cPkg (i.planTag % 2 ^ 32) (i.planTag / 2 ^ 32) = b at hraise hrstalls
  have k := finish_onlyCompletes b c 0 i.planTag
  have hkeys : ∀ f ∈ [R.gtePlan_planTag, R.hrnStatus_state], getF (finish b c 0 i.planTag) f = getF a f := by
    simp only [List.forall_mem_cons, List.not_mem_nil, false_imp_iff, implies_true, and_true]
    exact ⟨(getF_complete (by decide) _ _ _ _).trans (hraise.keys _ 0 (by decide)),
      (getF_complete (by decide) _ _ _ _).trans (hraise.keys _ 0 (by decide))⟩
  have htold : (finish b c 0 i.planTag).numbered.getLast? = some (0x30, completionBody c 0 i.planTag) := numbered_complete _ _ _ _
  generalize finish b c 0 i.planTag = d at k hkeys htold
  have hdmode : d.mode = .harnessed := k.mode.trans (hraise.mode.trans hmode)
  have hdjob : d.job = { x.job with running := none } := k.job.trans (by rw [hraise.job, hjob])
  have hdstalls : d.stalls = x.stalls := k.stalls.trans (hrstalls.trans hstalls)
  have hdtag := (hkeys R.gtePlan_planTag (by simp)).trans htag
  have hdstate := (hkeys R.hrnStatus_state (by simp)).trans hstate
  obtain ⟨u, hteam, hlast⟩ := joinTeam_onlyTeam d
  have hses : (joinTeam d).ses = d.ses := (hlast.frame State.ses raise_ses).trans hteam.ses
  exact ⟨(hlast.mode.trans hteam.mode).trans hdmode,
    (hlast.job.trans hteam.job).trans hdjob,
    ((hlast.getF (by decide)).trans (hteam.keys _ 0 (by decide))).trans hdtag,
    ((hlast.getF (by decide)).trans (hteam.keys _ 0 (by decide))).trans hdstate,
    (congrArg List.getLast? (numbered_congr hses)).trans htold,
    (hlast.stalls.trans hteam.stalls).trans hdstalls⟩

/-! ## HARNESS_LOAD_DONE (R177) -/

/-- One of the image's stalls is out of use. -/
def stallMissing (s : State) (ps : List Nat) : Bool := ps.any (fun p => (getStall s p).st == .disabled)

theorem stallMissing_congr {s t : State} (h : ∀ p, ((getStall t p).st == .disabled) = ((getStall s p).st == .disabled))
    (ps : List Nat) : stallMissing t ps = stallMissing s ps := by
  simp only [stallMissing, h]

section
variable {s : State} {r : Running} {i : Image} {w : List (Nat × WriteReport)} {lost : List Nat}

theorem exec_harnessLoadDone (hon : s.board.railsOn = true) (hm : s.mode = .ready) (hr : s.job.running = some r)
    (hop : r.cmd.opcode = 0x3001) (hl : s.job.loading = some i)
    (hwait : writesWait s ((ownStalls i (ownIndex s)).filter (fun p => !((ownStalls i (ownIndex s)).filter (fun q =>
      lost.contains q)).contains p)) = false) : exec (.harnessLoadDone w lost) s =
    .next (if stallMissing (arraysLoaded w lost s i) (ownStalls i (ownIndex s)) then
      forgetArrays (finish (raise (arraysLoaded w lost s i) 0x3003 cPkg 7 8) r.cmd 7 0)
    else activate (arraysLoaded w lost s i) r.cmd i) := by
  have hgo : ¬ (r.cmd.opcode ≠ 0x3001 ∨ s.mode ≠ .ready ∨ writesWait s ((ownStalls i (ownIndex s)).filter (fun p =>
      !((ownStalls i (ownIndex s)).filter (fun q => lost.contains q)).contains p)) = true) := by
    simp only [hop, hm, hwait, ne_eq, not_true_eq_false, Bool.false_eq_true, or_self, not_false_eq_true]
  refine (inModule_on hon).trans (congrArg _ ?_)
  unfold loadDone
  rw [hr, hl]
  exact if_neg hgo

theorem harnessLoadDone_ends (hon : s.board.railsOn = true) (hm : s.mode = .ready) (hr : s.job.running = some r)
    (hop : r.cmd.opcode = 0x3001) (hl : s.job.loading = some i)
    (hwait : writesWait s ((ownStalls i (ownIndex s)).filter (fun p => !((ownStalls i (ownIndex s)).filter (fun q =>
      lost.contains q)).contains p)) = false) :
    ∃ t, exec (.harnessLoadDone w lost) s = .next t ∧ t.job.loading = none ∧ t.job.running = none ∧
      if (ownStalls i (ownIndex s)).any (fun p => (getStall t p).st == .disabled) = true then
        t.mode = .ready ∧ t.job.image = none ∧ t.numbered.getLast? = some (0x30, completionBody r.cmd 7 0)
      else t.mode = .harnessed ∧ t.job.image = some i ∧ getF t R.gtePlan_planTag = i.planTag % 2 ^ 64 ∧
        getF t R.hrnStatus_state = 2 ∧ t.numbered.getLast? = some (0x30, completionBody r.cmd 0 i.planTag) := by
  refine ⟨_, exec_harnessLoadDone hon hm hr hop hl hwait, ?_⟩
  have hx := arraysLoaded_steady w lost s i
  generalize arraysLoaded w lost s i = x at hx
  have hmode : x.mode = .ready := hx.mode.trans hm
  have himage : x.job.image = some i := hx.image
  have hload : x.job.loading = none := by
    rw [hx.job]
    rfl
  by_cases hlost : stallMissing x (ownStalls i (ownIndex s)) = true
  · rw [if_pos hlost]
    obtain ⟨hmode', hnone, hload', hrun, htold, hdisabled⟩ := forgetArrays_givenUp x r.cmd
    generalize forgetArrays (finish (raise x 0x3003 cPkg 7 8) r.cmd 7 0) = t at *
    refine ⟨hload', hrun, ?_⟩
    have hgone : (ownStalls i (ownIndex s)).any (fun p => (getStall t p).st == .disabled) = true :=
      (stallMissing_congr hdisabled _).trans hlost
    rw [if_pos hgone]
    exact ⟨hmode'.trans hmode, hnone, htold⟩
  · rw [if_neg hlost]
    obtain ⟨hmode', hjob, htag, hstate, htold, hstalls⟩ := activate_activated x r.cmd i
    generalize activate x r.cmd i = t at *
    have hdisabled : ∀ p, ((getStall t p).st == .disabled) = ((getStall x p).st == .disabled) := fun p => by
      rw [getStall_congr hstalls]
    refine ⟨by rw [hjob, hload], by rw [hjob], ?_⟩
    have hused : ¬ (ownStalls i (ownIndex s)).any (fun p => (getStall t p).st == .disabled) = true :=
      fun e => hlost ((stallMissing_congr hdisabled _).symm.trans e)
    rw [if_neg hused]
    exact ⟨hmode', by rw [hjob, himage], htag, hstate, htold⟩

end

end Sys2Proof.Machine
end

section
/-! HARNESS_UNLOAD, and the tick that finds its time over; the statement on HARNESS_LOAD_DONE and HARNESS_UNLOAD (R107,
R115, R175, R177, R178). -/
namespace Sys2Proof.Machine
set_option Elab.async false
open Sys2Proof

/-! ## HARNESS_UNLOAD (R178) -/

theorem exec_harnessUnload {s : State} {ring : Nat} {c : CmdRec} (h : s.holds ring 0x3002 c) (hm : s.mode = .harnessed)
    (htag : c.planTag = getF s R.gtePlan_planTag) : exec (.harnessUnload ring) s = .next (unloadCmd (s.taken ring) c) := by
  have e : exec (.harnessUnload ring) s = takeCmd ring 0x3002 s (fun s c =>
    legalIn (s.mode == .harnessed) s c (fun s c => planChecked s c unloadCmd)) := rfl
  obtain ⟨hr, -⟩ := id h
  have hok : ((s.taken ring).mode == .harnessed) = true := beq_iff_eq.mpr hm
  have hplan : getF (s.taken ring) R.gtePlan_planTag = getF s R.gtePlan_planTag := getF_taken hr (by decide)
  rw [e, takeCmd_of_holds h (by decide), legalIn, if_pos hok, planChecked, if_pos (htag.trans hplan.symm)]

/-- The harness region is zero, the command goes on for at most 21 ms, and the rest of the job stands. -/
theorem unloadCmd_spec (s : State) (c : CmdRec) : (unloadCmd s c).mode = s.mode ∧ (unloadCmd s c).job.image = s.job.image ∧
    (∃ d, (unloadCmd s c).job.running = some ⟨c, s.now, false, some d, 0⟩ ∧ s.now ≤ d ∧ d ≤ s.now + 525000) ∧
    getF (unloadCmd s c) R.hrnStatus_state = 3 ∧
    ∀ x, readByte (unloadCmd s c) x = if harnessBase ≤ x ∧ x < harnessBase + 0xFF00000 then 0 else readByte s x := by
  unfold unloadCmd
  have hmem := readByte_rawZero s harnessBase 0xFF00000
  have hraw := OnlyStores.rawZero s harnessBase 0xFF00000
  generalize rawZero s harnessBase 0xFF00000 = u at hmem hraw
  have hstate : getF (setF u R.hrnStatus_state 0 3) R.hrnStatus_state = 3 := getF_setF _ _ _ _
  have himage : u.job.image = s.job.image := congrArg Job.image hraw.job
  have hrun : (startLong (draw (setF u R.hrnStatus_state 0 3)) c (some (s.now + Config.freeNat s.draws 178 % 525001))
      0).job.running = some ⟨c, s.now, false, some (s.now + Config.freeNat s.draws 178 % 525001), 0⟩ := by
    rw [← hraw.now]
    rfl
  exact ⟨hraw.mode, himage, ⟨_, hrun, Nat.le_add_right _ _,
    Nat.add_le_add_left (Nat.le_of_lt_succ (Nat.mod_lt _ (by decide))) _⟩, hstate, hmem⟩

theorem harnessUnload_starts {s : State} {ring : Nat} {c : CmdRec} (h : s.holds ring 0x3002 c) (hm : s.mode = .harnessed)
    (htag : c.planTag = getF s R.gtePlan_planTag) :
    ∃ t d, exec (.harnessUnload ring) s = .next t ∧ t.mode = .harnessed ∧ t.job.image = s.job.image ∧
      t.job.running = some ⟨c, s.now, false, some d, 0⟩ ∧ s.now ≤ d ∧ d ≤ s.now + 525000 ∧
      getF t R.hrnStatus_state = 3 ∧
      ∀ x, readByte t x = if harnessBase ≤ x ∧ x < harnessBase + 0xFF00000 then 0 else readByte s x := by
  obtain ⟨hmode, himage, ⟨d, hrun, hfrom, hto⟩, hstate, hmem⟩ := unloadCmd_spec (s.taken ring) c
  exact ⟨_, d, exec_harnessUnload h hm htag, hmode.trans hm, himage, hrun, hfrom, hto, hstate, hmem⟩

/-! ## What a tick leaves (R107, R115 to R120) -/

/-- The mode, the watch counter and the job. -/
def workView (s : State) : Mode × Nat × Job := (s.mode, s.now, s.job)

theorem MayRaise.workView {s t : State} (h : MayRaise s t) : workView t = workView s :=
  h.frame Machine.workView (fun s code coord d0 d1 => by simp only [Machine.workView, raise_mode, raise_now, raise_job])

theorem setG_workView (s : State) (g : Nat) : workView (setG s g) = workView s := (setG_mayRaise s g).workView

theorem applyBudget_workView (s : State) : workView (applyBudget s) = workView s := by
  unfold applyBudget
  split
  · rfl
  · next b _ =>
    have h : MayRaise (setF { s with gov := { s.gov with budgetNext := none } } R.pwrBudget_budgetW 0 b) (setBudget s b) :=
      .ite (.refl _) (.raise _ _ _ _ _)
    exact h.workView

theorem raiseStep_workView (s : State) : workView (raiseStep s) = workView s := by
  unfold raiseStep
  split_ifs
  · rfl
  · rfl
  · exact setG_workView _ _
  · rfl

theorem lowerStep_workView (s : State) : workView (lowerStep s) = workView s := by
  unfold lowerStep
  split
  · exact (MayRaise.ite (.raise _ _ _ _ _) (.refl _)).workView.trans (setG_workView _ _)
  · rfl

theorem considerGo_workView (l : List WakeReq) (s : State) : workView (considerGo l s) = workView s := by
  induction l generalizing s with
  | nil => rfl
  | cons r l ih =>
    unfold considerGo
    split_ifs
    · exact ih s
    · exact ih (grant s r)
    · rfl

/-- Of these a tick changes the watch counter alone. -/
theorem tick_workView {s : State} (hon : s.board.railsOn = true) : workView (tick s) = workView (ticked s) := by
  have hconsider : ∀ s, workView (consider s) = workView s := fun s =>
    considerGo_workView s.gov.waitq { s with gov := { s.gov with waitq := [] } }
  calc workView (tick s)
    _ = workView (consider (accrue (lowerStep (raiseStep (applyBudget (countIdle (ticked s))))))) := by rw [tick_railsOn hon]
    _ = workView (lowerStep (raiseStep (applyBudget (countIdle (ticked s))))) := hconsider _
    _ = workView (countIdle (ticked s)) := by rw [lowerStep_workView, raiseStep_workView, applyBudget_workView]
    _ = workView (ticked s) := rfl

/-! ## The image is left (R178) -/

namespace KeepsImage

theorem showRotation (s : State) (p : Nat) : KeepsImage leftKeys s (showRotation s p) := by
  unfold Machine.showRotation
  split
  · exact (((setUnit (by decide) s p _).trans (setUnit (by decide) _ p _)).trans (setUnit (by decide) _ p _)).trans
      (setUnit (by decide) _ p _)
  · exact ((((setUnit (by decide) s p _).trans (setUnit (by decide) _ p _)).trans (setUnit (by decide) _ p _)).trans
      (setUnit (by decide) _ p _)).trans (setUnit (by decide) _ p _)

theorem setBudget (s : State) (b : Nat) : KeepsImage leftKeys s (setBudget s b) := by
  unfold Machine.setBudget
  extract_lets old _ t
  have hgov : KeepsImage leftKeys s { s with gov := { s.gov with budgetNext := none } } := .same rfl
  have ht : KeepsImage leftKeys s t := hgov.trans (.setUnit (by decide) _ 0 b)
  clear_value t
  split
  · exact ht
  · exact ht.trans (.raise (by decide) t _ _ _ _)

/-- Entry to READY leaves the job, and the image shown. -/
theorem readyCommon (s : State) (first : Bool) : KeepsImage leftKeys { s with mode := .ready } (readyCommon s first) := by
  unfold Machine.readyCommon
  extract_lets w a b c _ d _ _ e
  have hw : KeepsImage leftKeys { s with mode := .ready } { w with mode := .ready } := .same rfl
  have ha : KeepsImage leftKeys { w with mode := .ready } a :=
    .setFs (by simp only [readyFields, List.map_append, List.map_cons, List.map_nil]; decide) _
  clear_value a
  have hb : KeepsImage leftKeys a b := .forEach_mem (fun t q hq => .setF (JobLeft.rebuildFields_apart q hq).2.2 t 0) a
  clear_value b
  have hc : KeepsImage leftKeys b c := by
    refine .forEach (fun t q => ?_) _ b
    exact .setUnit (by decide) t q 0
  clear_value c
  have hses : KeepsImage leftKeys c { c with ses := { c.ses with firstAfterReady := true } } := .same rfl
  have hd : KeepsImage leftKeys c d := by
    refine hses.trans (.forEach (fun t p => ?_) _ _)
    exact .setUnit (by decide) t (p.1 - 57) p.2
  clear_value d
  have he : KeepsImage leftKeys d e := .same rfl
  exact (((((hw.trans ha).trans hb).trans hc).trans hd).trans he).trans (.setBudget e _)

end KeepsImage

theorem dropImage_shown (s : State) : getF (dropImage s) R.gtePlan_planTag = 0 ∧ getF (dropImage s) R.hrnStatus_state = 0 := by
  unfold dropImage
  extract_lets _ _ _ _ a _ b c _ d e f
  clear_value f
  simp (disch := decide) only [setFs, List.foldl_cons, List.foldl_nil, getF_setF_ne, getF_setF, Nat.zero_mod, and_self]

/-- READY without an image, whatever is being secured (R178). -/
structure ImageLeft (t : State) : Prop where
  mode : t.mode = .ready
  image : t.job.image = none
  amends : t.job.amends = []
  planTag : getF t R.gtePlan_planTag = 0
  shown : getF t R.hrnStatus_state = 0

namespace ImageLeft
variable {s t : State}

theorem keeps (h : ImageLeft s) (k : KeepsImage leftKeys s t) : ImageLeft t where
  mode := k.mode.trans h.mode
  image := (congrArg Job.image k.job).trans h.image
  amends := (congrArg Job.amends k.job).trans h.amends
  planTag := (k.keys _ 0 (by decide)).trans h.planTag
  shown := (k.keys _ 0 (by decide)).trans h.shown

theorem finish (h : ImageLeft s) (c : CmdRec) (status detail : Nat) : ImageLeft (finish s c status detail) :=
  have k := finish_onlyCompletes s c status detail
  ⟨k.mode.trans h.mode, (congrArg Job.image k.job).trans h.image, (congrArg Job.amends k.job).trans h.amends,
    (getF_complete (by decide) _ _ _ _).trans h.planTag, (getF_complete (by decide) _ _ _ _).trans h.shown⟩

theorem ofDropped (h : KeepsImage leftKeys (dropImage s) t) : ImageLeft { t with mode := .ready } := by
  have hjob := (dropImage_keeps s).job
  obtain ⟨htag, hshown⟩ := dropImage_shown s
  generalize dropImage s = a at h hjob htag hshown
  exact ⟨rfl, congrArg Job.image (h.job.trans hjob), congrArg Job.amends (h.job.trans hjob),
    (h.keys _ 0 (by decide)).trans htag, (h.keys _ 0 (by decide)).trans hshown⟩

end ImageLeft

/-- The rotations and rebuilds of an image that is left are shown as ended. -/
theorem showEnded_keeps (s : State) :
    KeepsImage leftKeys s (forEach (List.range 16) showRebuild (forEach (List.range 512) showRotation s)) := by
  refine (KeepsImage.forEach KeepsImage.showRotation _ s).trans (.forEach_mem (fun t q hq => ?_) _)
  obtain ⟨hrun, hwait, -⟩ := JobLeft.rebuildFields_apart q hq
  exact (KeepsImage.setF hrun t _).trans (.setF hwait _ _)

theorem leaveJob_left (s : State) : ImageLeft (leaveJob s) :=
  (ImageLeft.ofDropped (showEnded_keeps (dropImage (dropAmends (eraseTeamKey (clearTeam (leaveTeam s))) 2)))).keeps
    (.readyCommon _ false)

theorem unloadEnd_left (s : State) (c : CmdRec) : ImageLeft (unloadEnd s c) :=
  ((leaveJob_left s).keeps (.raise (by decide) _ _ _ _ _)).finish c 0 0

/-- The command in progress has ended, with its completion. -/
theorem finish_ends (s : State) (c : CmdRec) (status detail : Nat) : (finish s c status detail).job.running = none ∧
    (finish s c status detail).numbered.getLast? = some (0x30, completionBody c status detail) :=
  ⟨congrArg Job.running (finish_onlyCompletes s c status detail).job, numbered_complete _ _ _ _⟩

theorem unloadEnd_ends (s : State) (c : CmdRec) : (unloadEnd s c).job.running = none ∧
    (unloadEnd s c).numbered.getLast? = some (0x30, completionBody c 0 0) := by
  unfold unloadEnd
  exact finish_ends _ c 0 0

theorem workOn_unload {s : State} {r : Running} (hr : s.job.running = some r) (hop : r.cmd.opcode = 0x3002)
    (hover : timeOver s r = true) : workOn s = unloadEnd s r.cmd := by
  simp only [workOn, hr, hop, hover, if_true]

theorem exec_governorTick_unload {s : State} {r : Running} (hon : s.board.railsOn = true) (hm : s.mode ≠ .off)
    (hr : s.job.running = some r) (hop : r.cmd.opcode = 0x3002) (hover : timeOver (ticked s) r = true) :
    exec .governorTick s = .next (unloadEnd (tick s) r.cmd) := by
  have harm : exec .governorTick s = execGovernorTick s := rfl
  have hview := tick_workView hon
  simp only [workView, Prod.mk.injEq] at hview
  obtain ⟨-, hnow, hjob⟩ := hview
  have hrun : (tick s).job.running = some r := (congrArg Job.running hjob).trans hr
  have hover' : timeOver (tick s) r = true := by
    rw [timeOver, hnow]
    exact hover
  rw [harm, execGovernorTick, beq_eq_false_iff_ne.mpr hm, if_neg Bool.false_ne_true, workOn_unload hrun hop hover']

/-- Settles O29: a load ends with its image active or given up (`harnessLoadDone_ends`); an unload starts
(`harnessUnload_starts`), and the tick that finds its time over leaves the image (`unloadEnd_left`). -/
theorem imageLoaded : Obligations.ImageLoaded := by
  refine ⟨fun s r i w lost hon hm hr hop hl hwait => harnessLoadDone_ends hon hm hr hop hl hwait,
    fun s ring c h hm htag => harnessUnload_starts h hm htag, fun s r hon hm hr hop hover => ?_⟩
  obtain ⟨hmode, himage, hamends, htag, hshown⟩ := unloadEnd_left (tick s) r.cmd
  obtain ⟨hrun, htold⟩ := unloadEnd_ends (tick s) r.cmd
  exact ⟨_, exec_governorTick_unload hon (by rw [hm]; decide) hr hop hover, hmode, himage, hamends, hrun, htag, hshown, htold⟩

end Sys2Proof.Machine
end

section
/-! The issue of a step instruction (R285, R295): the state it runs on, and what leaves the program counter to the advance. -/
namespace Sys2Proof.Machine
set_option Elab.async false
open Sys2Proof

/-! ## The end of a run of TOPs (R211) -/

/-- The end of a run of TOPs changes the number of the run and the summing sets alone. -/
theorem endTops_eq (t : Stall) : endTops t = { t with run := (endTops t).run, sets := (endTops t).sets } := by
  unfold endTops
  split <;> rfl

theorem getStall_ended (s : State) (p : Nat) : getStall (s.ended p) p =
    { getStall s p with run := (endTops (getStall s p)).run, sets := (endTops (getStall s p)).sets } :=
  (getStall_modStall s p endTops).trans (endTops_eq _)

@[simp] theorem preg_ended (s : State) (p i : Nat) : preg (s.ended p) p i = preg s p i := by
  simp only [preg, getStall_ended]

@[simp] theorem vreg_ended (s : State) (p i : Nat) : vreg (s.ended p) p i = vreg s p i := by
  simp only [vreg, getStall_ended]

@[simp] theorem mmOf_ended (s : State) (p w : Nat) : mmOf (s.ended p) p w = mmOf s p w := by
  simp only [mmOf, preg_ended, getStall_ended]
  rfl

/-! ## Issue -/

theorem getStall_layer_ended (s : State) (p : Nat) : (getStall (s.ended p) p).layer = (getStall s p).layer := by
  rw [getStall_ended]

/-- Any instruction but TOP runs with the run of TOPs before it ended. -/
theorem issue_runs {s : State} {p op w : Nat} (h : s.issues p op w) (hop : op ≠ 0x10) (run : State → Nat → State) :
    issue p op s run = .next (run (s.ended p) w) := by
  obtain ⟨hp, hon, hcan, hword, hins, hfrozen⟩ := h
  have hthawed : (bit w 0 && frozenLayer (s.ended p) (getStall (s.ended p) p).layer) = false := by
    rw [getStall_layer_ended]
    exact hfrozen
  rw [State.ended] at hthawed ⊢
  rw [issue, onStall_on hp hon]
  simp only [hcan, hword, hins, hop, hthawed, Bool.not_true, Bool.false_eq_true, ne_eq, not_true_eq_false, if_false]

/-- A TOP goes on with the run. -/
theorem issue_top {s : State} {p w : Nat} (h : s.issues p 0x10 w) (run : State → Nat → State) :
    issue p 0x10 s run = .next (run s w) := by
  obtain ⟨hp, hon, hcan, hword, hins, hfrozen⟩ := h
  rw [issue, onStall_on hp hon]
  simp [hcan, hword, hins, hfrozen]

/-! ## What leaves the program counter -/

/-- From `s` to `t` the module's mode and the stall's program counter stand. -/
structure KeepsPc (p : Nat) (s t : State) : Prop where
  mode : t.mode = s.mode
  pc : insAt t p = insAt s p

namespace KeepsPc
variable {p : Nat} {z s t : State}

theorem refl (s : State) : KeepsPc p s s := ⟨rfl, rfl⟩

theorem trans (h : KeepsPc p z s) (k : KeepsPc p s t) : KeepsPc p z t := ⟨k.mode.trans h.mode, k.pc.trans h.pc⟩

theorem same (hm : t.mode = s.mode := by rfl) (hr : t.reg = s.reg := by rfl) : KeepsPc p s t := ⟨hm, getF_congr hr _ _⟩

/-- What at most an event or a write changes of the registers leaves the program counter. -/
theorem ofReg (hm : t.mode = s.mode) (hr : KeepsReg s t) : KeepsPc p s t :=
  ⟨hm, hr _ _ (fkey_of_apartFrom (by decide) p)⟩

theorem setF {f : Field} (hf : f.lo % 64 ≠ 51) (s : State) (u v : Nat) : KeepsPc p s (setF s f u v) :=
  ⟨rfl, getF_setF_ne s v (fkey_ne_of_lo (Ne.symm hf) p u)⟩

theorem bumpF {f : Field} (hf : f.lo % 64 ≠ 51) (s : State) (u n : Nat) : KeepsPc p s (bumpF s f u n) := setF hf s u _

theorem forEach {α : Type} {f : State → α → State} (h : ∀ s a, KeepsPc p s (f s a)) (l : List α) (s : State) :
    KeepsPc p s (forEach l f s) := by
  induction l generalizing s with
  | nil => exact refl s
  | cons a l ih => exact (h s a).trans (ih _)

theorem setFs {l : List (Field × Nat)} (hl : ∀ f ∈ l.map Prod.fst, f.lo % 64 ≠ 51) (s : State) :
    KeepsPc p s (setFs s l) := by
  induction l generalizing s with
  | nil => exact refl s
  | cons x l ih =>
    obtain ⟨hx, hl⟩ := List.forall_mem_cons.mp hl
    exact (setF hx s 0 x.2).trans (ih hl _)

theorem ite {c : Prop} [Decidable c] {a b : State} (ha : KeepsPc p s a) (hb : KeepsPc p s b) :
    KeepsPc p s (if c then a else b) := by
  split
  · exact ha
  · exact hb

theorem modStall (s : State) (q : Nat) (f : Stall → Stall) : KeepsPc p s (modStall s q f) := same

theorem ended (s : State) (q : Nat) : KeepsPc p s (s.ended q) := modStall s q _

theorem write (s : State) (a : Nat) (b : Bytes) : KeepsPc p s (write s a b) := ofReg (write_mode s a b) (.write s a b)

theorem zero (s : State) (a n : Nat) : KeepsPc p s (zero s a n) := ofReg (zero_mode s a n) (.zero s a n)

theorem raise (s : State) (code coord d0 d1 : Nat) : KeepsPc p s (raise s code coord d0 d1) :=
  ofReg (raise_mode s code coord d0 d1) (.raise s code coord d0 d1)

theorem raiseOnce (s : State) (code unit coord d0 d1 : Nat) : KeepsPc p s (raiseOnce s code unit coord d0 d1) :=
  ite (refl s) ((same (t := { s with once := (code, unit) :: s.once })).trans (raise _ _ _ _ _))

theorem stopStall (s : State) (q : Nat) : KeepsPc p s (stopStall s q) := same

theorem checkBrands (s : State) (reader coord a n : Nat) : KeepsPc p s (checkBrands s reader coord a n).1 := by
  unfold Machine.checkBrands
  split
  · exact refl s
  · refine forEach (fun t x => ?_) _ s
    have hlast : KeepsPc p t (Machine.setFs t [(R.brdLineLast_valid, 1), (R.brdLineLast_reader, reader),
        (R.brdLineLast_address, x.1)]) :=
      setFs (by simp only [List.map_cons, List.map_nil]; decide) t
    exact ite ((hlast.trans (bumpF (by decide) _ _ _)).trans (raise _ _ _ _ _))
      (((same (t := { t with brandBad := _ })).trans (bumpF (by decide) _ _ _)).trans (raise _ _ _ _ _))

/-- The stall goes on with the next instruction. -/
theorem goesOn (h : KeepsPc p s t) : s.goesOn (advance t p) p := by
  refine ⟨?_, h.mode⟩
  rw [advance, jump, getF_setF, h.pc]
  rfl

end KeepsPc

end Sys2Proof.Machine
end

section
/-! The statement on the instructions that start what runs beside the program: MOVE, TOP, MM, TZERO and TOUT (R189, R211, R275
to R277, R286, R289, R296, R297, R370). -/
namespace Sys2Proof.Machine
set_option Elab.async false
open Sys2Proof

/-! ## MOVE (R286, R289, R370) -/

namespace KeepsPc
variable {p : Nat}

theorem refuseChan (s : State) (c status phase check : Nat) : KeepsPc p s (refuseChan s c status phase check) := by
  unfold Machine.refuseChan
  extract_lets h t u
  have hu : KeepsPc p s u := (same (t := t)).trans (raise t _ _ _ _)
  refine ite (hu.trans ?_) (hu.trans ?_)
  · exact ((setF (by decide) _ _ _).trans (setF (by decide) _ _ _)).trans ((setF (by decide) _ _ _).trans (stopStall _ _))
  · exact (setF (by decide) _ _ _).trans (setF (by decide) _ _ _)

theorem descDone (s : State) (c : Nat) (d : Desc) : KeepsPc p s (descDone s c d) := ite (raise s _ _ _ _) (refl s)

theorem chanIdle (s : State) (c : Nat) : KeepsPc p s (chanIdle s c) := by
  have ht : KeepsPc p s (setChan s c { getChan s c with st := 0 }) := same
  exact ite ht (ht.trans (setF (by decide) _ _ _))

theorem readDesc (s : State) (c loc phase : Nat) : KeepsPc p s (readDesc s c loc phase).1 := by
  unfold Machine.readDesc
  split
  · exact refuseChan s _ _ _ _
  · extract_lets r
    have hr : KeepsPc p s r.1 := checkBrands s 3 cPkg _ 64
    split
    · exact hr.trans (refuseChan _ _ _ _ _)
    · extract_lets d t k
      have ht : KeepsPc p s t := hr.trans same
      split
      · exact ht.trans (refuseChan _ _ _ _ _)
      · split
        · split
          · exact ht.trans (descDone _ _ _)
          · exact (ht.trans (descDone _ _ _)).trans (chanIdle _ _)
        · exact ite ht (ht.trans (refuseChan _ _ _ _ _))

theorem startDesc (n : Nat) (s : State) (c loc phase : Nat) : KeepsPc p s (startDesc n s c loc phase) := by
  induction n generalizing s loc phase with
  | zero => exact readDesc s c loc phase
  | succ n ih =>
    unfold Machine.startDesc
    extract_lets r
    have hr : KeepsPc p s r.1 := readDesc s c loc phase
    split
    · next m next hm _ =>
      obtain rfl : n = m := Nat.succ.inj hm
      exact hr.trans (ih _ _ _)
    · exact hr

theorem startChain (s : State) (c loc : Nat) : KeepsPc p s (startChain s c loc) :=
  (same (t := setChan s c _)).trans (startDesc 64 _ c loc 0)

end KeepsPc

/-- The descriptor address of a MOVE. -/
def moveAt (s : State) (p w : Nat) : Nat := preg s p (bits w 55 52) % 2 ^ 23

theorem move_starts {s : State} {p w : Nat} (h : s.issues p 0x0A w) (hidle : (getChan s (64 + p)).st = 0)
    (halign : moveAt s p w % 64 = 0) (hin : inStore (moveAt s p w) 64 = true) :
    ∃ t, exec (.move p) s = .next t ∧ s.goesOn t p ∧
      getChan t (64 + p) = getChan (startChain (s.ended p) (64 + p) (moveAt s p w)) (64 + p) := by
  have hrun : runMove p (s.ended p) w = advance (startChain (s.ended p) (64 + p) (moveAt s p w)) p := by
    have hidle' : (getChan (s.ended p) (64 + p)).st = 0 := hidle
    unfold moveAt at *
    simp only [runMove, preg_ended, halign, hin, hidle', ne_eq, not_true_eq_false, Bool.not_true, Bool.false_eq_true, or_self,
      if_false, if_true]
  exact ⟨_, (issue_runs h (by decide) _).trans (congrArg _ hrun), ((KeepsPc.ended s p).trans (.startChain _ _ _)).goesOn, rfl⟩

/-- The first fault of an instruction that breaks a limit stops the stall and stands in GEN.FAULT (R289). -/
theorem instrFault_first {s : State} {p : Nat} (hfree : getF s R.genFault_valid p = 0) (status opcode instr detail : Nat) :
    (getStall (instrFault s p status opcode instr detail) p).stop = true ∧
      getF (instrFault s p status opcode instr detail) R.genFault_status p =
        status % 2 ^ R.genFault_status.width ∧
      getF (instrFault s p status opcode instr detail) R.genFault_detail p =
        detail % 2 ^ R.genFault_detail.width := by
  have hvalid : onF (stopStall s p) R.genFault_valid p = false := by
    have : getF (stopStall s p) R.genFault_valid p = 0 := hfree
    simp [onF, this]
  have hstop : (getStall (stopStall s p) p).stop = true := by
    have : getStall (stopStall s p) p = _ := getStall_modStall s p (fun t => { t with stop := true })
    rw [this]
  simp only [instrFault, hvalid, Bool.false_eq_true, if_false, List.foldl_cons, List.foldl_nil]
  refine ⟨?_, ?_, ?_⟩
  · rw [getStall_congr (raise_stalls _ _ _ _ _)]
    simp only [getStall_setF]
    exact hstop
  · rw [getF_raise (fkey_of_apartFrom (by decide) p), getF_setF_ne _ _ (fkey_ne_of_lo (by decide) p p),
      getF_setF_ne _ _ (fkey_ne_of_lo (by decide) p p), getF_setF_ne _ _ (fkey_ne_of_lo (by decide) p p),
      getF_setF_ne _ _ (fkey_ne_of_lo (by decide) p p), getF_setF]
  · rw [getF_raise (fkey_of_apartFrom (by decide) p), getF_setF_ne _ _ (fkey_ne_of_lo (by decide) p p), getF_setF]

theorem move_faults {s : State} {p w : Nat} (h : s.issues p 0x0A w)
    (hbad : moveAt s p w % 64 ≠ 0 ∨ inStore (moveAt s p w) 64 = false) (hfree : getF s R.genFault_valid p = 0) :
    ∃ t, exec (.move p) s = .next t ∧ (getStall t p).stop = true ∧ getF t R.genFault_status p = 3 ∧
      getF t R.genFault_detail p = moveAt s p w := by
  have hrun : runMove p (s.ended p) w = faultIns (s.ended p) p w 3 (moveAt s p w) := by
    unfold moveAt at *
    simp only [runMove, preg_ended, Bool.not_eq_true', hbad, if_true]
  obtain ⟨hstop, hstatus, hdetail⟩ := instrFault_first (s := s.ended p) hfree 3 (insOp w) (insAt s p) (moveAt s p w)
  have hsmall : moveAt s p w < 2 ^ R.genFault_detail.width := (Nat.mod_lt _ (by decide)).trans (by decide)
  exact ⟨_, (issue_runs h (by decide) _).trans (congrArg _ hrun), hstop, hstatus, hdetail.trans (Nat.mod_eq_of_lt hsmall)⟩

/-! ## TOP (R189, R211, R286) -/

/-- A span that lies in the store lies in the stall's memory. -/
theorem le_storeTop_of_inStore {off n : Nat} (h : inStore off n = true) (hn : n ≠ 0) : off + n ≤ 0x380000 := by
  rw [inStore, beq_eq_false_iff_ne.mpr hn, Bool.false_or] at h
  exact of_decide_eq_true h

/-- With every span in the store, neither check of the spans of an operation finds one. -/
theorem find_outside_none {l : List (Nat × Nat)} (h : ∀ x ∈ l, inStore x.1 x.2 = true) :
    (l.filter (fun x => x.2 != 0)).find? (fun x => decide (0x400000 < x.1 + x.2)) = none ∧
      (l.filter (fun x => x.2 != 0)).find? (fun x => !inStore x.1 x.2) = none := by
  simp only [List.find?_eq_none, List.mem_filter, bne_iff_ne, and_imp]
  refine ⟨fun x hx hn => ?_, fun x hx _ => by simp [h x hx]⟩
  have := le_storeTop_of_inStore (h x hx) hn
  simp only [decide_eq_true_eq]
  omega

/-- A TOP none of whose checks fails, and that has not to wait, is accepted. -/
theorem runTop_accepts {s : State} {p w : Nat} {pl : Placement} (hpl : placeOf s p (topOf s p w).slot = some pl)
    (hin : ∀ x ∈ topSpans (topOf s p w) pl.twoSlice, inStore x.1 x.2 = true)
    (hset : (topOf s p w).set = 0 ∨
      (setAgrees (getStall s p) (topOf s p w) (4 * outElems (topOf s p w).mode pl.twoSlice) = some true ∧
        alreadyMember (getStall s p) (topOf s p w) = false))
    (hfree : ∀ x ∈ (getStall s p).ops, x.slot ≠ (topOf s p w).slot) (hquiet : quiesced s p (topOf s p w).slot = false)
    (hroom : (topOf s p w).onFallback = true → (getStall s p).mmq.length < 2) :
    runTop p s w = advance (acceptTop s p (topOf s p w) (4 * outElems (topOf s p w).mode pl.twoSlice)) p := by
  obtain ⟨hbeyond, hout⟩ := find_outside_none hin
  have hagrees : (if (topOf s p w).set = 0 then some true
      else setAgrees (getStall s p) (topOf s p w) (4 * outElems (topOf s p w).mode pl.twoSlice)) = some true := by
    split
    · rfl
    · next h => exact (hset.resolve_left h).1
  have hfresh : ¬ ((topOf s p w).set ≠ 0 ∧ alreadyMember (getStall s p) (topOf s p w) = true) := fun h => by
    simp [(hset.resolve_left h.1).2] at h
  have hfull : ((topOf s p w).onFallback && decide (2 ≤ (getStall s p).mmq.length)) = false := by
    cases hfb : (topOf s p w).onFallback
    · rfl
    · simpa using hroom hfb
  have hidle : (getStall s p).ops.any (fun x => x.slot == (topOf s p w).slot) = false := by simpa using hfree
  simp only [runTop, hpl, hbeyond, hout, hagrees, hidle, hquiet, hfull, Bool.or_false, Bool.false_and, Bool.false_eq_true,
    if_false, hfresh]

/-- Joining a summing set changes the sets alone. -/
theorem joinSet_ops (t : Stall) (o : TileOp) (osize : Nat) : (joinSet t o osize).ops = t.ops := by
  unfold joinSet
  split
  · rfl
  · split <;> rfl

/-- The stall's tile operations and the memory stand, beside what `KeepsPc` says. -/
structure KeepsOps (p : Nat) (s t : State) : Prop extends KeepsPc p s t where
  ops : (getStall t p).ops = (getStall s p).ops
  mem : t.mem = s.mem

namespace KeepsOps
variable {p : Nat} {z s t : State}

theorem trans (h : KeepsOps p z s) (k : KeepsOps p s t) : KeepsOps p z t :=
  ⟨h.toKeepsPc.trans k.toKeepsPc, k.ops.trans h.ops, k.mem.trans h.mem⟩

theorem setF {f : Field} (hf : f.lo % 64 ≠ 51) (s : State) (u v : Nat) : KeepsOps p s (setF s f u v) :=
  ⟨.setF hf s u v, rfl, rfl⟩

theorem modStall (s : State) {f : Stall → Stall} (hf : ∀ t, (f t).ops = t.ops) : KeepsOps p s (modStall s p f) :=
  ⟨.modStall s p f, by rw [getStall_modStall, hf], rfl⟩

theorem refl (s : State) : KeepsOps p s s := ⟨.refl s, rfl, rfl⟩

theorem ite {c : Prop} [Decidable c] {a b : State} (ha : KeepsOps p s a) (hb : KeepsOps p s b) :
    KeepsOps p s (if c then a else b) := by
  split
  · exact ha
  · exact hb

theorem same (hpc : KeepsPc p s t := by exact .same) (hs : t.stalls = s.stalls := by rfl) (hm : t.mem = s.mem := by rfl) :
    KeepsOps p s t := ⟨hpc, congrArg Stall.ops (getStall_congr hs p), hm⟩

theorem abortRetrim (s : State) (u : Nat) : KeepsOps p s (abortRetrim s p u) := by
  have habort : KeepsOps p s (abortIdle s u) :=
    ite ((same (t := { s with cal := _ })).trans (setF (by decide) _ _ _)) (refl s)
  exact ite (habort.trans (ite (modStall _ (fun _ => rfl)) (refl _))) (refl s)

end KeepsOps

/-- An accepted operation with tokens is the slot's. -/
theorem acceptTop_ops {s : State} {p : Nat} {o : TileOp} (hn : o.n ≠ 0) (osize : Nat) :
    KeepsPc p s (acceptTop s p o osize) ∧ (acceptTop s p o osize).mem = s.mem ∧
      (getStall (acceptTop s p o osize) p).ops = (getStall s p).ops ++ [o] := by
  unfold acceptTop
  extract_lets a pos u b c
  rw [if_neg hn]
  have ha : KeepsOps p s a := .modStall s (joinSet_ops · o osize)
  have hb : KeepsPc p s b ∧ b.mem = s.mem ∧ (getStall b p).ops = (getStall s p).ops ++ [o] :=
    ⟨ha.toKeepsPc.trans (.modStall a p _), ha.mem, by rw [getStall_modStall, ha.ops]⟩
  have hc : KeepsOps p b c := KeepsOps.ite ((KeepsOps.setF (by decide) b _ _).trans (.setF (by decide) _ _ _)) (.refl b)
  have hend : ∀ m, KeepsOps p c (if o.onFallback = true then queueMm c p m else abortRetrim c p u) := fun m =>
    .ite (.modStall c (fun _ => rfl)) (.abortRetrim c u)
  obtain ⟨hbpc, hbmem, hbops⟩ := hb
  have hall := fun m => hc.trans (hend m)
  exact ⟨hbpc.trans (hall _).toKeepsPc, (hall _).mem.trans hbmem, (hall _).ops.trans hbops⟩

/-! ## MM and TZERO (R276 to R280, R296) -/

theorem KeepsPc.setBank {p : Nat} (s : State) (q b v : Nat) : KeepsPc p s (setBank s q b v) :=
  .ite (.setF (by decide) s q v) (.setF (by decide) s q v)

theorem setBank_stalls (s : State) (p b v : Nat) : (setBank s p b v).stalls = s.stalls := by
  unfold setBank
  split <;> rfl

theorem setBank_mem (s : State) (p b v : Nat) : (setBank s p b v).mem = s.mem := by
  unfold setBank
  split <;> rfl

theorem bankState_setBank (s : State) (p b : Nat) {v : Nat} (hv : v < 4) : bankState (setBank s p b v) p b = v := by
  unfold setBank bankState
  split <;> rw [getF_setF] <;> exact Nat.mod_eq_of_lt hv

theorem bankState_congr {s t : State} (h : t.reg = s.reg) (p b : Nat) : bankState t p b = bankState s p b := by
  simp only [bankState, getF_congr h]

theorem bankState_advance (s : State) (p b : Nat) : bankState (advance s p) p b = bankState s p b := by
  unfold bankState
  split <;> exact getF_setF_ne s _ (fkey_ne_of_lo (by decide) p p)

/-- An MM in order joins the queue, and its banks become busy. -/
theorem runMm_queues {s : State} {p w : Nat} (hok : mmFault (mmOf s p w) = none) (hroom : (getStall s p).mmq.length < 2) :
    runMm p s w = advance (touchBanks (queueMm s p (mmOf s p w)) p (mmOf s p w)) p := by
  simp only [runMm, hok, Nat.not_le.mpr hroom, if_false]

/-- A bank with something to write is busy from then on. -/
def busied (s : State) (p b : Nat) : State := if bankState s p b = 0 then setBank s p b 1 else s

theorem KeepsPc.busied {p : Nat} (s : State) (q b : Nat) : KeepsPc p s (busied s q b) := .ite (.setBank s q b 1) (.refl s)

theorem busied_stalls (s : State) (p b : Nat) : (busied s p b).stalls = s.stalls := by
  unfold busied
  split
  · exact setBank_stalls s p b 1
  · rfl

theorem busied_mem (s : State) (p b : Nat) : (busied s p b).mem = s.mem := by
  unfold busied
  split
  · exact setBank_mem s p b 1
  · rfl

theorem bankState_busied (s : State) (p b : Nat) :
    bankState (busied s p b) p b = if bankState s p b = 0 then 1 else bankState s p b := by
  unfold busied
  split
  · exact bankState_setBank s p b (by decide)
  · rfl

/-- The banks that a product touches change their states alone. -/
theorem touchBanks_keeps (s : State) (p : Nat) (o : MMOp) : KeepsPc p s (touchBanks s p o) ∧
    (touchBanks s p o).stalls = s.stalls ∧ (touchBanks s p o).mem = s.mem :=
  ⟨.forEach (fun t b => .busied t p b) _ s, forEach_frame _ (fun t b => busied_stalls t p b) _ s,
    forEach_frame _ (fun t b => busied_mem t p b) _ s⟩

theorem mm_queues {s : State} {p w : Nat} (h : s.issues p 0x20 w) (hok : mmFault (mmOf s p w) = none)
    (hroom : (getStall s p).mmq.length < 2) :
    ∃ t, exec (.mm p) s = .next t ∧ s.goesOn t p ∧ (getStall t p).mmq = (getStall s p).mmq ++ [mmOf s p w] ∧
      t.mem = s.mem := by
  have hqueue : (getStall (s.ended p) p).mmq = (getStall s p).mmq := by rw [getStall_ended]
  have hrun := runMm_queues (s := s.ended p) (p := p) (w := w) (by rw [mmOf_ended]; exact hok) (by rw [hqueue]; exact hroom)
  rw [mmOf_ended] at hrun
  obtain ⟨hpc, hstalls, hmem⟩ := touchBanks_keeps (queueMm (s.ended p) p (mmOf s p w)) p (mmOf s p w)
  refine ⟨_, (issue_runs h (by decide) _).trans (congrArg _ hrun),
    (((KeepsPc.ended s p).trans (.modStall _ p _)).trans hpc).goesOn, ?_, hmem⟩
  calc (getStall (touchBanks (queueMm (s.ended p) p (mmOf s p w)) p (mmOf s p w)) p).mmq
      = (getStall (queueMm (s.ended p) p (mmOf s p w)) p).mmq := by rw [getStall_congr hstalls]
    _ = (getStall s p).mmq ++ [mmOf s p w] := by rw [queueMm, getStall_modStall, hqueue]

theorem zero_unprotected {s : State} (h : s.team.pages = []) (a n : Nat) : zero s a n = rawZero s a n := by
  unfold zero protect
  rw [h]
  rfl

/-- With no product of its bank queued and no page protected, TZERO zeroes the bank. -/
theorem runTzero_zeroes {s : State} {p w : Nat} (hpages : s.team.pages = [])
    (hdone : ∀ o ∈ (getStall s p).mmq, b2n (bit w 55) ∉ mmBanks o) :
    runTzero p s w = advance (busied (rawZero s (bankBase p (b2n (bit w 55))) 0x80000) p (b2n (bit w 55))) p := by
  have hwait : ((getStall s p).mmq.any (fun o => (mmBanks o).contains (b2n (bit w 55)))) = false := by simpa using hdone
  simp only [runTzero, hwait, zero_unprotected hpages, Bool.false_eq_true, if_false, busied]

theorem tzero_zeroes {s : State} {p w : Nat} (h : s.issues p 0x40 w) (hpages : s.team.pages = [])
    (hdone : ∀ o ∈ (getStall s p).mmq, b2n (bit w 55) ∉ mmBanks o) :
    ∃ t, exec (.tzero p) s = .next t ∧ s.goesOn t p ∧
      bankState t p (b2n (bit w 55)) = (if bankState s p (b2n (bit w 55)) = 0 then 1 else bankState s p (b2n (bit w 55))) ∧
      ∀ a, readByte t a = if bankBase p (b2n (bit w 55)) ≤ a ∧ a < bankBase p (b2n (bit w 55)) + 0x80000 then 0
        else readByte s a := by
  have hrun := runTzero_zeroes (s := s.ended p) hpages (by rw [getStall_ended]; exact hdone)
  have hreg : (s.ended p).reg = s.reg := rfl
  have hz : KeepsPc p s (rawZero (s.ended p) (bankBase p (b2n (bit w 55))) 0x80000) :=
    (KeepsPc.ended s p).trans (.same (rawZero_mode _ _ _) (rawZero_reg _ _ _))
  refine ⟨_, (issue_runs h (by decide) _).trans (congrArg _ hrun), (hz.trans (.busied _ p _)).goesOn, ?_, fun a => ?_⟩
  · simp only [bankState_advance, bankState_busied, bankState_congr ((rawZero_reg _ _ _).trans hreg)]
  · exact (congrArg (tget 0 · a) (busied_mem _ _ _)).trans (readByte_rawZero (s.ended p) _ _ a)

/-! ## TOUT (R296, R297) -/

/-- The record of a bank that a TOUT hands on. -/
def toutOf (s : State) (p w : Nat) (pl : Placement) : ToutOp :=
  { bank := b2n (bit w 55), instr := insAt s p, slot := bits w 54 50, half := b2n (bit w 49), site := bits w 48 42,
    owner := pl.ownerStall == p && pl.sumOrder == 0, order := 1, since := s.now, alarmed := false,
    layer := (getStall s p).layer }

/-- The bank noted, and draining or waiting for its owner. -/
def toutNoted (s : State) (p w : Nat) (pl : Placement) : State :=
  setBank (modStall s p (fun t => { t with touts := t.touts ++ [toutOf s p w pl] })) p (b2n (bit w 55))
    (if (toutOf s p w pl).owner then 2 else 3)

theorem runTout_hands {s : State} {p w : Nat} {pl : Placement} (hpl : placeOf s p (bits w 54 50) = some pl)
    (hfree : ∀ o ∈ (getStall s p).touts, o.bank ≠ b2n (bit w 55)) :
    runTout p s w = advance (if (toutOf s p w pl).owner then handOn (toutNoted s p w pl) p pl (toutOf s p w pl)
      else toutNoted s p w pl) p := by
  have hany : ((getStall s p).touts.any (fun o => o.bank == b2n (bit w 55))) = false := by simpa using hfree
  simp only [runTout, hpl, hany, Bool.false_eq_true, if_false, toutNoted, toutOf]
  rfl

/-- Handing a bank on marks it as draining, whatever else waits for its chip. -/
theorem handOn_keeps {s : State} {p : Nat} {pl : Placement} {o : ToutOp} (h : bankState s p o.bank = 2) :
    KeepsPc p s (handOn s p pl o) ∧ (handOn s p pl o).stalls = s.stalls ∧ (handOn s p pl o).mem = s.mem ∧
      bankState (handOn s p pl o) p o.bank = 2 := by
  unfold handOn
  split
  · exact ⟨(KeepsPc.same).trans (.setBank _ p o.bank 2), setBank_stalls _ _ _ _, setBank_mem _ _ _ _,
      bankState_setBank _ _ _ (by decide)⟩
  · exact ⟨.refl s, rfl, rfl, h⟩

/-- The noted bank stands in its stall's list, draining where the stall owns it. -/
theorem toutNoted_keeps (s : State) (p w : Nat) (pl : Placement) : KeepsPc p s (toutNoted s p w pl) ∧
    (getStall (toutNoted s p w pl) p).touts = (getStall s p).touts ++ [toutOf s p w pl] ∧
    (toutNoted s p w pl).mem = s.mem ∧
    bankState (toutNoted s p w pl) p (b2n (bit w 55)) = if (toutOf s p w pl).owner then 2 else 3 := by
  refine ⟨(KeepsPc.modStall s p _).trans (.setBank _ p _ _), ?_, setBank_mem _ _ _ _,
    bankState_setBank _ _ _ (by split <;> decide)⟩
  rw [toutNoted, getStall_congr (setBank_stalls _ _ _ _), getStall_modStall]

theorem runTout_keeps {s : State} {p w : Nat} {pl : Placement} (hpl : placeOf s p (bits w 54 50) = some pl)
    (hfree : ∀ o ∈ (getStall s p).touts, o.bank ≠ b2n (bit w 55)) :
    ∃ t, runTout p s w = advance t p ∧ KeepsPc p s t ∧ (getStall t p).touts = (getStall s p).touts ++ [toutOf s p w pl] ∧
      t.mem = s.mem ∧ bankState t p (b2n (bit w 55)) = if (toutOf s p w pl).owner then 2 else 3 := by
  obtain ⟨hpc, htouts, hmem, hbank⟩ := toutNoted_keeps s p w pl
  refine ⟨_, runTout_hands hpl hfree, ?_⟩
  cases hown : (toutOf s p w pl).owner with
  | false =>
    rw [hown] at hbank
    exact ⟨hpc, htouts, hmem, hbank⟩
  | true =>
    rw [hown] at hbank
    obtain ⟨hpc', hstalls, hmem', hbank'⟩ := handOn_keeps (pl := pl) (o := toutOf s p w pl) hbank
    exact ⟨hpc.trans hpc', (congrArg Stall.touts (getStall_congr hstalls p)).trans htouts, hmem'.trans hmem, hbank'⟩

theorem tout_hands {s : State} {p w : Nat} {pl : Placement} (h : s.issues p 0x41 w)
    (hpl : placeOf s p (bits w 54 50) = some pl) (hfree : ∀ o ∈ (getStall s p).touts, o.bank ≠ b2n (bit w 55)) :
    ∃ t o, exec (.tout p) s = .next t ∧ s.goesOn t p ∧ (getStall t p).touts = (getStall s p).touts ++ [o] ∧
      o.bank = b2n (bit w 55) ∧ o.slot = bits w 54 50 ∧ o.half = b2n (bit w 49) ∧ o.since = s.now ∧ t.mem = s.mem ∧
      bankState t p (b2n (bit w 55)) = if pl.ownerStall = p ∧ pl.sumOrder = 0 then 2 else 3 := by
  have htouts : (getStall (s.ended p) p).touts = (getStall s p).touts := by rw [getStall_ended]
  obtain ⟨t, hrun, hpc, hnoted, hmem, hbank⟩ := runTout_keeps (s := s.ended p) hpl (by rw [htouts]; exact hfree)
  rw [htouts] at hnoted
  simp only [toutOf, Bool.and_eq_true, beq_iff_eq] at hbank
  exact ⟨_, toutOf (s.ended p) p w pl, (issue_runs h (by decide) _).trans (congrArg _ hrun),
    ((KeepsPc.ended s p).trans hpc).goesOn, hnoted, rfl, rfl, rfl, rfl, hmem, (bankState_advance _ _ _).trans hbank⟩

/-- Settles O37: MOVE by `move_starts` and `move_faults`, TOP by `runTop_accepts` and `acceptTop_ops`, MM, TZERO and TOUT by
`mm_queues`, `tzero_zeroes` and `tout_hands`. -/
theorem seqStarts : Obligations.SeqStarts := by
  refine ⟨fun s p w h hidle halign hin => move_starts h hidle halign hin, fun s p w h hbad hfree => move_faults h hbad hfree,
    fun s p w pl h hpl hin hset hfree hquiet hroom hn => ?_, fun s p w h hok hroom => mm_queues h hok hroom,
    fun s p w h hpages hdone => tzero_zeroes h hpages hdone, fun s p w pl h hpl hfree => tout_hands h hpl hfree⟩
  obtain ⟨hpc, hmem, hops⟩ := acceptTop_ops (s := s) (p := p) hn (4 * outElems (topOf s p w).mode pl.twoSlice)
  exact ⟨_, (issue_top h _).trans (congrArg _ (runTop_accepts hpl hin hset hfree hquiet hroom)), hpc.goesOn, hops, hmem⟩

end Sys2Proof.Machine
end

section
/-! Reads of lines whose brands match (R415 to R419), and the statement on QIN and the vector unit (R247 to R268, R280 to R283,
R286). -/
namespace Sys2Proof.Machine
set_option Elab.async false
open Sys2Proof

/-! ## Reads with no brand failure (R417, R419) -/

section sound
variable {s : State} (h : s.brandBad = [])
include h

theorem checkBrands_sound (reader coord a n : Nat) : checkBrands s reader coord a n = (s, true) := by
  unfold checkBrands
  split
  · rfl
  · simp [badLines, h, forEach]

theorem readChecked_sound (reader coord a n : Nat) : readChecked s reader coord a n = (s, some (readBytes s a n)) := by
  rw [readChecked, checkBrands_sound h]
  rfl

theorem partsChecked_sound (reader coord : Nat) (l : List (Nat × Nat)) : partsChecked s reader coord l = (s, true) := by
  unfold partsChecked
  generalize l.flatMap (fun x => partLines x.1 x.2) = lines
  induction lines with
  | nil => rfl
  | cons a lines ih =>
    rw [List.foldl_cons, checkBrands_sound h]
    exact ih

theorem storeRead_sound (p w reader off n : Nat) :
    storeRead s p w reader off n = (s, some (readBytes s (storeBase p + off) n)) := by
  rw [storeRead, readChecked_sound h]

theorem storeParts_sound (p w reader off n : Nat) : storeParts s p w reader off n = (s, true) := by
  rw [storeParts, partsChecked_sound h]
  rfl

end sound

/-! ## Conversions (R247 to R268) -/

theorem raiseOnce_stalls (s : State) (code unit coord d0 d1 : Nat) :
    (raiseOnce s code unit coord d0 d1).stalls = s.stalls := by
  unfold raiseOnce
  split
  · rfl
  · rw [raise_stalls]

theorem KeepsPc.convAlarm {p : Nat} (s : State) (alarm : Field) (code layer cls count : Nat) :
    KeepsPc p s (convAlarm s alarm code layer cls count) := .ite (.raiseOnce _ _ _ _ _ _) (.refl s)

theorem convAlarm_stalls (s : State) (alarm : Field) (code layer cls count : Nat) :
    (convAlarm s alarm code layer cls count).stalls = s.stalls := by
  unfold convAlarm
  dsimp only
  split
  · exact raiseOnce_stalls _ _ _ _ _ _
  · rfl

theorem KeepsPc.tally {p : Nat} (s : State) (layer cls sat ecl car : Nat) (amaxIn amaxOut : F32) :
    KeepsPc p s (tally s layer cls sat ecl car amaxIn amaxOut) := by
  unfold Machine.tally
  extract_lets k g f t
  have ht : KeepsPc p s t := (((same (t := { s with fmt := f })).trans (bumpF (by decide) _ _ _)).trans
    (bumpF (by decide) _ _ _)).trans (bumpF (by decide) _ _ _)
  exact ((ht.trans (.convAlarm _ _ _ _ _ _)).trans (.convAlarm _ _ _ _ _ _)).trans (.convAlarm _ _ _ _ _ _)

theorem tally_stalls (s : State) (layer cls sat ecl car : Nat) (amaxIn amaxOut : F32) :
    (tally s layer cls sat ecl car amaxIn amaxOut).stalls = s.stalls := by
  unfold tally
  dsimp only
  rw [convAlarm_stalls, convAlarm_stalls, convAlarm_stalls]
  rfl

theorem fp8Exp_keeps (s : State) (layer cls fmt : Nat) (amax : F32) (p : Nat) :
    KeepsPc p s (fp8Exp s layer cls fmt amax).1 ∧ (fp8Exp s layer cls fmt amax).1.stalls = s.stalls := by
  unfold fp8Exp
  dsimp only
  split
  · exact ⟨.raiseOnce _ _ _ _ _ _, raiseOnce_stalls _ _ _ _ _ _⟩
  · exact ⟨.refl s, rfl⟩

theorem convertRule_keeps (s : State) (cls kind mode : Nat) (c : Site) (w2 : Nat → Nat) (l : List F32) (p : Nat) :
    KeepsPc p s (convertRule s cls kind mode c w2 l).1 ∧ (convertRule s cls kind mode c w2 l).1.stalls = s.stalls := by
  unfold convertRule
  dsimp only
  split
  · dsimp only
    obtain ⟨hpc, hstalls⟩ := fp8Exp_keeps s c.layer cls (fmtRule s c.layer cls).format (amaxOf l) p
    exact ⟨hpc.trans (.tally _ _ _ _ _ _ _ _), (tally_stalls _ _ _ _ _ _ _ _).trans hstalls⟩
  · dsimp only
    exact ⟨KeepsPc.tally _ _ _ _ _ _ _ _, tally_stalls _ _ _ _ _ _ _ _⟩

theorem vstBytes_keeps (s : State) (sel : Nat) (c : Site) (w2 : Nat → Nat) (l : List F32) (p : Nat) :
    KeepsPc p s (vstBytes s sel c w2 l).1 ∧ (vstBytes s sel c w2 l).1.stalls = s.stalls := by
  unfold vstBytes
  split
  · exact convertRule_keeps s sel sel 0 c w2 l p
  · split
    · exact ⟨.bumpF (by decide) s 0 _, rfl⟩
    · exact ⟨.refl s, rfl⟩

theorem KeepsPc.qinToken {p : Nat} (q mode els : Nat) (c : Site) (seg code scale : Nat) (s : State)
    (x : Nat × Nat × List F32) : KeepsPc p s (qinToken q mode els c seg code scale s x) :=
  ((KeepsPc.tally s _ _ _ _ _ _ _).trans (.write _ _ _)).trans (.write _ _ _)

/-! ## QIN (R260) -/

/-- A QIN whose blocks lie in the store, whose tokens have ordinals, and whose values are numbers, writes its tokens in turn. -/
theorem runQin_converts {s : State} {p w : Nat} {l : List (Nat × List F32)} (hsound : s.brandBad = [])
    (hsrc : inStore (64 * bits (preg s p (bits w 54 51)) 15 0) (2048 * bits (preg s p (bits w 54 51)) 47 32) = true)
    (hcode : inStore (64 * bits (preg s p (bits w 50 47)) 15 0)
      ((if bit w 23 then 256 else 512) * bits (preg s p (bits w 54 51)) 47 32) = true)
    (hscale : inStore (64 * bits (preg s p (bits w 50 47)) 31 16) (4 * bits (preg s p (bits w 54 51)) 47 32) = true)
    (htoks : qinTokens s p (64 * bits (preg s p (bits w 54 51)) 15 0) (bits (preg s p (bits w 54 51)) 31 16)
      (bits (preg s p (bits w 54 51)) 47 32) = some l)
    (hnum : ∀ x ∈ l, firstBad 0 x.2 = none) :
    runQin p s w = advance (forEach (l.mapIdx (fun i x => (i, x))) (qinToken p (b2n (bit w 55)) (if bit w 23 then 256 else 512)
      (siteOf s p (bits w 46 40)) (bits w 39 24) (64 * bits (preg s p (bits w 50 47)) 15 0)
      (64 * bits (preg s p (bits w 50 47)) 31 16)) s) p := by
  have hclean : l.findSome? (fun x => (firstBad 0 x.2).map (fun v => (x.1, v))) = none := by
    simpa [List.findSome?_eq_none_iff] using hnum
  simp only [runQin, hsrc, hcode, hscale, htoks, hclean, storeRead_sound hsound, storeParts_sound hsound, Bool.not_true,
    Bool.false_eq_true, if_false, if_true]

/-! ## The vector unit (R280 to R283) -/

theorem vreg_setVreg (s : State) (p i j : Nat) (l : List F32) :
    vreg (setVreg s p i l) p j = if j = i then l else vreg s p j := by
  rw [vreg, setVreg, getStall_modStall, tget?_tset, vreg]
  split <;> rfl

theorem vreg_congr {s t : State} (h : t.stalls = s.stalls) (p i : Nat) : vreg t p i = vreg s p i := by
  rw [vreg, vreg, getStall_congr h]

theorem readBytes_advance (s : State) (p a n : Nat) : readBytes (advance s p) a n = readBytes s a n := rfl

theorem vreg_advance (s : State) (p q i : Nat) : vreg (advance s q) p i = vreg s p i := rfl

/-- An instruction that ends with one register written. -/
theorem setVreg_goesOn (s : State) (p i : Nat) (l : List F32) :
    s.goesOn (advance (setVreg (s.ended p) p i l) p) p ∧ (advance (setVreg (s.ended p) p i l) p).mem = s.mem ∧
      ∀ j, vreg (advance (setVreg (s.ended p) p i l) p) p j = if j = i then l else vreg s p j := by
  have hpc : KeepsPc p (s.ended p) (setVreg (s.ended p) p i l) := .modStall _ p _
  refine ⟨((KeepsPc.ended s p).trans hpc).goesOn, ?_, fun j => ?_⟩
  · rw [advance, jump, setF_mem, setVreg, modStall_mem, State.ended, modStall_mem]
  · rw [vreg_advance, vreg_setVreg, vreg_ended]

theorem runVld_loads {s : State} {p w : Nat} {l : List Exact} (hsound : s.brandBad = [])
    (hin : inStore (64 * bits (preg s p (bits w 50 47)) 15 0) (segBytes (bits w 46 43)) = true)
    (hseg : decodeSeg (bits w 46 43) (readBytes s (storeBase p + 64 * bits (preg s p (bits w 50 47)) 15 0)
      (segBytes (bits w 46 43))) = .ok l)
    (hnum : firstBad 0 (l.map exactToF32) = none) :
    runVld p s w = advance (setVreg s p (bits w 55 51) (l.map exactToF32)) p := by
  simp only [runVld, hin, storeRead_sound hsound, hseg, hnum, Bool.not_true, Bool.false_eq_true, if_false]

/-- What a VST stores, and the state with its conversion counted. -/
def vstOut (s : State) (p w o : Nat) : State × Bytes :=
  vstBytes s (bits w 46 43) (siteOf s p (bits w 42 36)) (fun lane => srW2 o (512 * bits (preg s p (bits w 50 47)) 47 32 + lane))
    (vreg s p (bits w 55 51))

theorem runVst_stores {s : State} {p w o : Nat}
    (hin : inStore (64 * bits (preg s p (bits w 50 47)) 15 0) (vstSize s (bits w 46 43) (getStall s p).layer) = true)
    (hord : (if bits w 46 43 = 15 then some 0 else ordinalAt s p (bits (preg s p (bits w 50 47)) 31 16)) = some o)
    (hnum : bits w 46 43 = 15 ∨ firstBad 0 (vreg s p (bits w 55 51)) = none) :
    runVst p s w = advance (write (vstOut s p w o).1 (storeBase p + 64 * bits (preg s p (bits w 50 47)) 15 0)
      (vstOut s p w o).2) p := by
  have hclean : (if bits w 46 43 = 15 then none else firstBad 0 (vreg s p (bits w 55 51))) = none := by
    split
    · rfl
    · next h => exact hnum.resolve_left h
  have hsite : (siteOf s p (bits w 42 36)).layer = (getStall s p).layer := rfl
  simp only [runVst, hsite, hin, hord, hclean, Bool.not_true, Bool.false_eq_true, if_false, vstOut]

theorem runVop_writes {s : State} {p w : Nat}
    (hnum : vopBad (vopLanes (bits w 35 30) (bits w 29 21) (vreg s p (bits w 50 46)) (vreg s p (bits w 45 41))
      (vreg s p (bits w 40 36))) = none) :
    runVop p s w = advance (setVreg s p (bits w 55 51) ((vopLanes (bits w 35 30) (bits w 29 21) (vreg s p (bits w 50 46))
      (vreg s p (bits w 45 41)) (vreg s p (bits w 40 36))).map (fun v => v.out))) p := by
  simp only [runVop, hnum]

/-- Settles O38: QIN by `runQin_converts`, VST by `runVst_stores`; VLD, VOP and VSETI each end with one register written
(`setVreg_goesOn`). -/
theorem seqVector : Obligations.SeqVector := by
  refine ⟨?qin, ?vld, ?vst, ?vop, ?vseti⟩
  case vseti => exact fun s p w h => ⟨_, issue_runs h (by decide) _, setVreg_goesOn s p _ _⟩
  case qin =>
    intro s p w h hsound a b els hsrc hcode hscale l htoks hnum
    have hrun := runQin_converts (s := s.ended p) (p := p) (w := w) hsound (by rw [preg_ended]; exact hsrc)
      (by rw [preg_ended, preg_ended]; exact hcode) (by rw [preg_ended, preg_ended]; exact hscale)
      (by rw [preg_ended]; exact htoks) hnum
    rw [preg_ended] at hrun
    exact ⟨_, (issue_runs h (by decide) _).trans (congrArg _ hrun),
      ((KeepsPc.ended s p).trans (.forEach (fun t x => .qinToken _ _ _ _ _ _ _ t x) _ _)).goesOn, rfl⟩
  case vld =>
    intro s p w l h hsound off hin hseg hnum
    have hrun := runVld_loads (s := s.ended p) (p := p) (w := w) hsound (by rw [preg_ended]; exact hin)
      (by rw [preg_ended]; exact hseg) hnum
    exact ⟨_, (issue_runs h (by decide) _).trans (congrArg _ hrun), setVreg_goesOn s p _ _⟩
  case vst =>
    intro s p w o h a u x hin hord hnum
    have hrun := runVst_stores (s := u) (p := p) (w := w) (o := o) (by rw [preg_ended, getStall_layer_ended]; exact hin)
      (by rw [preg_ended]; exact hord) (by rw [vreg_ended]; exact hnum)
    have hout : vstOut u p w o = x := by rw [vstOut, preg_ended, vreg_ended]
    rw [hout, preg_ended] at hrun
    obtain ⟨hpc, hstalls⟩ := vstBytes_keeps u (bits w 46 43) (siteOf u p (bits w 42 36))
      (fun lane => srW2 o (512 * bits a 47 32 + lane)) (vreg s p (bits w 55 51)) p
    refine ⟨_, (issue_runs h (by decide) _).trans (congrArg _ hrun),
      (((KeepsPc.ended s p).trans hpc).trans (.write _ _ _)).goesOn, fun i => ?_, ?_⟩
    · rw [vreg_advance, vreg_congr ((write_stalls _ _ _).trans hstalls), vreg_ended]
    · rw [readBytes_advance, readBytes_write]
  case vop =>
    intro s p w h l hnum
    have hrun := runVop_writes (s := s.ended p) (p := p) (w := w) (by simpa only [vreg_ended] using hnum)
    simp only [vreg_ended] at hrun
    exact ⟨_, (issue_runs h (by decide) _).trans (congrArg _ hrun), setVreg_goesOn s p _ _⟩

end Sys2Proof.Machine
end

section
/-! The statement on one token of a tile operation (R189 to R205): what the counts and events of a token leave of the stalls, how
a token's outputs are released, and a token's three ends. -/
namespace Sys2Proof.Machine
set_option Elab.async false
open Sys2Proof

/-! ## What counts, events and traps leave of the stalls -/

/-- From `s` to `t` the module's mode and the stalls stand. -/
structure KeepsStalls (s t : State) : Prop where
  mode : t.mode = s.mode
  stalls : t.stalls = s.stalls

namespace KeepsStalls
variable {z s t : State}

theorem refl (s : State) : KeepsStalls s s := ⟨rfl, rfl⟩

theorem trans (h : KeepsStalls z s) (k : KeepsStalls s t) : KeepsStalls z t :=
  ⟨k.mode.trans h.mode, k.stalls.trans h.stalls⟩

theorem getStall (h : KeepsStalls s t) (p : Nat) : getStall t p = getStall s p := getStall_congr h.stalls p

theorem same (hm : t.mode = s.mode := by rfl) (hs : t.stalls = s.stalls := by rfl) : KeepsStalls s t := ⟨hm, hs⟩

theorem ite {c : Prop} [Decidable c] {a b : State} (ha : KeepsStalls s a) (hb : KeepsStalls s b) :
    KeepsStalls s (if c then a else b) := by
  split
  · exact ha
  · exact hb

theorem forEach {α : Type} {f : State → α → State} (h : ∀ s a, KeepsStalls s (f s a)) (l : List α) (s : State) :
    KeepsStalls s (forEach l f s) := by
  induction l generalizing s with
  | nil => exact refl s
  | cons a l ih => exact (h s a).trans (ih _)

theorem setF (s : State) (f : Field) (u v : Nat) : KeepsStalls s (setF s f u v) := ⟨rfl, rfl⟩

theorem bumpF (s : State) (f : Field) (u n : Nat) : KeepsStalls s (bumpF s f u n) := ⟨rfl, rfl⟩

theorem setFs (s : State) (l : List (Field × Nat)) : KeepsStalls s (setFs s l) :=
  forEach (fun t (x : Field × Nat) => setF t x.1 0 x.2) l s

theorem write (s : State) (a : Nat) (b : Bytes) : KeepsStalls s (write s a b) := ⟨write_mode s a b, write_stalls s a b⟩

theorem raise (s : State) (code coord d0 d1 : Nat) : KeepsStalls s (raise s code coord d0 d1) :=
  ⟨raise_mode s code coord d0 d1, raise_stalls s code coord d0 d1⟩

theorem raiseOnce (s : State) (code unit coord d0 d1 : Nat) : KeepsStalls s (raiseOnce s code unit coord d0 d1) :=
  ite (refl s) ((same (t := { s with once := (code, unit) :: s.once })).trans (raise _ _ _ _ _))

theorem addStep (s : State) (tile splits clamped : Nat) : KeepsStalls s (addStep s tile splits clamped) := same

theorem noteClamped (s : State) (p t mode n : Nat) : KeepsStalls s (noteClamped s p t mode n) :=
  ite (refl s) (((bumpF s _ _ _).trans (addStep _ _ _ _)).trans (raiseOnce _ _ _ _ _ _))

theorem noteSplits (s : State) (p t n : Nat) : KeepsStalls s (noteSplits s p t n) := by
  unfold Machine.noteSplits
  extract_lets u v a
  have hv : KeepsStalls s v := (bumpF s _ _ _).trans (addStep _ _ _ _)
  exact ite (refl s) (ite (hv.trans (raiseOnce _ _ _ _ _ _)) hv)

theorem noteClips (s : State) (p t : Nat) (l : List (Nat × Int)) : KeepsStalls s (noteClips s p t l) := by
  unfold Machine.noteClips
  split
  · exact refl s
  · exact (bumpF s _ _ _).trans (raiseOnce _ _ _ _ _ _)

theorem notePhases (s : State) (p t n : Nat) : KeepsStalls s (notePhases s p t n) :=
  (((bumpF s _ _ _).trans (bumpF _ _ _ _)).trans (setF _ _ _ _)).trans (bumpF _ _ _ _)

theorem runPass (s : State) (tile mode : Nat) (l : List Drive) : KeepsStalls s (runPass s tile mode l).1 := by
  unfold Machine.runPass
  extract_lets k g lines entries r t u
  have hu : KeepsStalls s u := ite same (refl s)
  exact hu.trans same

theorem runToken (s : State) (tile mode : Nat) (two : Bool) (codes : List Int) (scale : F32) :
    KeepsStalls s (runToken s tile mode two codes scale).1 := by
  unfold Machine.runToken
  extract_lets k w x o outs rows f y
  have hx : KeepsStalls s x.1 := runPass s tile mode _
  split
  · exact hx
  · split
    · exact hx.trans (runPass _ _ _ _)
    · exact hx

theorem trapBits (s : State) (a : F32) : KeepsStalls s (trapBits s a).1 := by
  unfold Machine.trapBits
  split
  · exact same
  · exact refl s

end KeepsStalls

/-- The stall stopped, nothing else of it changed. -/
def halted (s : State) (p : Nat) : State := modStall s p (fun t => { t with stop := true })

theorem getStall_halted (s : State) (p : Nat) : getStall (halted s p) p = { getStall s p with stop := true } :=
  getStall_modStall s p _

/-- A trap stops its stall, whether its record is the first or not (R269, R270). -/
theorem trapShown_stops (s : State) (p source operand kind layer instr tile elem value shown : Nat) :
    KeepsStalls (halted s p) (trapShown s p source operand kind layer instr tile elem value shown) := by
  unfold trapShown
  extract_lets u v first w x
  have hv : KeepsStalls (halted s p) v := KeepsStalls.forEach (fun t (y : Field × Nat) => .setF t y.1 p y.2) _ u
  clear_value v
  have hw : KeepsStalls (halted s p) w := hv.trans (.ite (.setFs v _) (.refl v))
  exact .ite (.refl _) (hw.trans ((KeepsStalls.setFs w _).trans (.raise _ _ _ _ _)))

/-- A result that is no number stops the stall (R202). -/
theorem resultTrap_stops (s : State) (p tile : Nat) (o : TileOp) (v : BadVal) :
    (resultTrap s p tile o v).mode = s.mode ∧
      getStall (resultTrap s p tile o v) p = { getStall s p with stop := true } := by
  have hbits := KeepsStalls.trapBits s (BitVec.ofNat 32 v.value)
  have htrap := trapShown_stops (trapBits s (BitVec.ofNat 32 v.value)).1 p 3 2 v.kind o.layer o.instr tile (srW2 o.next v.lane)
    (trapBits s (BitVec.ofNat 32 v.value)).2
    (if v.kind = 3 then 0 else (trapBits s (BitVec.ofNat 32 v.value)).2)
  exact ⟨htrap.mode.trans hbits.mode, by
    rw [resultTrap, trap, htrap.getStall, getStall_halted, hbits.getStall]⟩

/-! ## Outputs released (R203, R211) -/

theorem f32Bytes_length (l : List F32) : (f32Bytes l).length = 4 * l.length := by
  simp [f32Bytes, List.length_flatMap, Nat.mul_comm]

/-- A set operation stands in its slot's place. -/
theorem mem_setOp {t : Stall} {o x : TileOp} (hx : x ∈ t.ops) (hslot : x.slot = o.slot) : o ∈ (setOp t o).ops :=
  List.mem_map.mpr ⟨x, hx, if_pos hslot⟩

theorem setOp_live (t : Stall) (o : TileOp) : (setOp t o).live = t.live := rfl

/-- An operation that ends leaves its slot and its tile free. -/
theorem endOp_frees (s : State) (p : Nat) (o : TileOp) : (endOp s p o).mode = s.mode ∧ (endOp s p o).mem = s.mem ∧
    (∀ x ∈ (getStall (endOp s p o) p).ops, x.slot ≠ o.slot) ∧
    getF (endOp s p o) R.tilStatus_busy (tileIx p (posOf (getStall s p) o.slot)) = 0 := by
  refine ⟨rfl, rfl, fun x hx => ?_, ?_⟩
  · rw [endOp, getStall_modStall] at hx
    simpa using (List.mem_filter.mp hx).2
  · rw [endOp, getF_modStall, getF_setF]
    rfl

/-- An operation with its next token. -/
def TileOp.stepped (o : TileOp) : TileOp := { o with next := o.next + 1 }

/-- The operation of a slot has moved on to its next token. -/
def steppedOn (s : State) (p : Nat) (o : TileOp) : State := modStall s p (fun t => setOp t o.stepped)

theorem getStall_steppedOn (s : State) (p : Nat) (o : TileOp) :
    getStall (steppedOn s p o) p = setOp (getStall s p) o.stepped := getStall_modStall s p _

/-- Where the outputs of an operation's next token go. -/
def outsAt (p : Nat) (o : TileOp) (outs : List F32) : Nat := storeBase p + o.out + 4 * outs.length * o.next

theorem releaseToken_store (s : State) (p : Nat) {o : TileOp} (outs : List F32) (hset : o.set = 0) : releaseToken s p o outs =
    if o.stepped.next = o.stepped.n then endOp (steppedOn (write s (outsAt p o outs) (f32Bytes outs)) p o) p o.stepped
    else steppedOn (write s (outsAt p o outs) (f32Bytes outs)) p o := by
  simp only [releaseToken, hset, if_true, steppedOn, TileOp.stepped, outsAt]

/-- Outputs that go to the store stand there, and the operation moves on or ends. -/
theorem releaseToken_released {s : State} {p : Nat} {o : TileOp} {outs : List F32} (hset : o.set = 0)
    (ho : o ∈ (getStall s p).ops) : (releaseToken s p o outs).mode = s.mode ∧
    readBytes (releaseToken s p o outs) (outsAt p o outs) (4 * outs.length) = f32Bytes outs ∧
    (if o.next + 1 = o.n then (∀ x ∈ (getStall (releaseToken s p o outs) p).ops, x.slot ≠ o.slot) ∧
        getF (releaseToken s p o outs) R.tilStatus_busy (tileIx p (posOf (getStall s p) o.slot)) = 0
      else o.stepped ∈ (getStall (releaseToken s p o outs) p).ops) := by
  have hw := KeepsStalls.write s (outsAt p o outs) (f32Bytes outs)
  have hread : readBytes (write s (outsAt p o outs) (f32Bytes outs)) (outsAt p o outs) (4 * outs.length) = f32Bytes outs := by
    rw [← f32Bytes_length, readBytes_write]
  generalize hu : write s (outsAt p o outs) (f32Bytes outs) = u at hw hread
  have hstall : getStall (steppedOn u p o) p = setOp (getStall s p) o.stepped := by rw [getStall_steppedOn, hw.getStall]
  have hread' : readBytes (steppedOn u p o) (outsAt p o outs) (4 * outs.length) = f32Bytes outs :=
    (readBytes_congr (modStall_mem u p _) _ _).trans hread
  have hmode : (steppedOn u p o).mode = s.mode := (modStall_mode u p _).trans hw.mode
  rw [releaseToken_store s p outs hset, hu]
  by_cases hlast : o.next + 1 = o.n
  · rw [if_pos hlast, if_pos (show o.stepped.next = o.stepped.n from hlast)]
    obtain ⟨hm, hmem, hops, hbusy⟩ := endOp_frees (steppedOn u p o) p o.stepped
    rw [hstall] at hbusy
    exact ⟨hm.trans hmode, (readBytes_congr hmem _ _).trans hread', hops, hbusy⟩
  · rw [if_neg hlast, if_neg (show ¬ o.stepped.next = o.stepped.n from hlast)]
    exact ⟨hmode, hread', by rw [hstall]; exact mem_setOp ho rfl⟩

/-! ## A token held for a vote (R205) -/

/-- One vote more waits. -/
theorem holdToken_holds (s : State) (p t : Nat) (o : TileOp) (codes : List Int) (scale : F32) (r : TokenOut) :
    (holdToken s p t o codes scale r).mode = s.mode ∧
      (getStall (holdToken s p t o codes scale r) p).votes.length = (getStall s p).votes.length + 1 := by
  unfold holdToken
  extract_lets u mask a b v first c
  have hb : KeepsStalls s b := (KeepsStalls.setF s _ _ _).trans (.forEach (fun t f => .raise t _ _ _ _) _ a)
  have hend : KeepsStalls c
      (if first = true then setF c R.brdStatus_votesRunning 0 (getF c R.brdStatus_votesRunning + 1) else c) :=
    .ite (.setF c _ _ _) (.refl c)
  refine ⟨hend.mode.trans hb.mode, ?_⟩
  rw [hend.getStall, getStall_modStall, hb.getStall]
  exact List.length_append

/-! ## A token (R192, R196, R201) -/

theorem tokenIn_sound {s : State} (h : s.brandBad = []) (p : Nat) (o : TileOp) (two : Bool) : (tokenIn s p o two).1 = s := by
  simp only [tokenIn, readChecked_sound h]

/-- Whether the slot of an operation is in two-slice mode. -/
def twoSliceOf (s : State) (p : Nat) (o : TileOp) : Bool := ((placeOf s p o.slot).map (fun r => r.twoSlice)).getD false

/-- The next token of an operation on its tile: a zero token gives zeros, any other what the array gives. -/
theorem runNext_token {s : State} {p : Nat} {o : TileOp} {scale : F32} {codes : Bytes} (hsound : s.brandBad = [])
    (hin : (tokenIn s p o (twoSliceOf s p o)).2 = some (scale, codes)) (hscale : ffinite scale = true)
    (htile : o.onFallback = false) : runNext s p o =
      if fzero? scale = true ∨ codes.all (fun b => b == 0) = true then
        releaseToken (notePhases s p (posOf (getStall s p) o.slot) 0) p o
          (List.replicate (outElems o.mode (twoSliceOf s p o)) 0)
      else arrayToken (noteClamped s p (posOf (getStall s p) o.slot) o.mode (countIf codes (fun b => b.toInt == -128))) p
        (posOf (getStall s p) o.slot) o (twoSliceOf s p o) scale (codes.map driveCode) := by
  unfold twoSliceOf at *
  simp only [runNext, openToken, hin, tokenIn_sound hsound, hscale, htile, Bool.not_true, Bool.false_eq_true, if_false,
    Bool.or_eq_true]

/-- What the array gives for a token of a tile. -/
def arrayOut (s : State) (p t : Nat) (o : TileOp) (two : Bool) (scale : F32) (codes : List Int) : TokenOut :=
  (runToken s (tileIx p t) o.mode two codes scale).2

/-- A token that ran on the array, with its phases, splits and clips counted. -/
def tokenNoted (s : State) (p t : Nat) (o : TileOp) (two : Bool) (scale : F32) (codes : List Int) : State :=
  let r := arrayOut s p t o two scale codes
  noteClips (noteSplits (notePhases (runToken s (tileIx p t) o.mode two codes scale).1 p t r.phases) p t r.splits) p t r.clips

theorem tokenNoted_keeps (s : State) (p t : Nat) (o : TileOp) (two : Bool) (scale : F32) (codes : List Int) :
    KeepsStalls s (tokenNoted s p t o two scale codes) :=
  (((KeepsStalls.runToken s (tileIx p t) o.mode two codes scale).trans (.notePhases _ p t _)).trans
    (.noteSplits _ p t _)).trans (.noteClips _ p t _)

/-- A token whose checks fail is held. -/
theorem arrayToken_fails {s : State} {p t : Nat} {o : TileOp} {two : Bool} {scale : F32} {codes : List Int}
    (h : (arrayOut s p t o two scale codes).fails ≠ []) : arrayToken s p t o two scale codes =
      holdToken (tokenNoted s p t o two scale codes) p t o codes scale (arrayOut s p t o two scale codes) := by
  have hfails : (!(arrayOut s p t o two scale codes).fails.isEmpty) = true := by simpa using h
  unfold arrayOut at hfails
  simp only [arrayToken, hfails, if_true, tokenNoted, arrayOut]

/-- A token whose checks pass but whose result is no number traps. -/
theorem arrayToken_bad {s : State} {p t : Nat} {o : TileOp} {two : Bool} {scale : F32} {codes : List Int} {v : BadVal}
    (h : (arrayOut s p t o two scale codes).fails = [])
    (hbad : firstBad 0 (arrayOut s p t o two scale codes).outs = some v) :
    arrayToken s p t o two scale codes = resultTrap (tokenNoted s p t o two scale codes) p t o v := by
  unfold arrayOut at h hbad
  simp only [arrayToken, h, hbad, List.isEmpty_nil, Bool.not_true, Bool.false_eq_true, if_false, tokenNoted, arrayOut]

/-- A token whose checks pass and whose results are numbers is released. -/
theorem arrayToken_passes {s : State} {p t : Nat} {o : TileOp} {two : Bool} {scale : F32} {codes : List Int}
    (h : (arrayOut s p t o two scale codes).fails = [])
    (hgood : firstBad 0 (arrayOut s p t o two scale codes).outs = none) : arrayToken s p t o two scale codes =
      releaseToken (tokenNoted s p t o two scale codes) p o (arrayOut s p t o two scale codes).outs := by
  unfold arrayOut at h hgood
  simp only [arrayToken, h, hgood, List.isEmpty_nil, Bool.not_true, Bool.false_eq_true, if_false, tokenNoted, arrayOut]

/-- Settles O40: a zero token and one whose checks pass are released (`releaseToken_released`), or trap
(`resultTrap_stops`); one whose checks fail is held (`holdToken_holds`). -/
theorem tileTokens : Obligations.TileTokens := by
  intro s p slot o scale codes hp hon hfind hready htile hgood hsound hset two t0 hin hscale zeros u r
  have hmem : o ∈ (getStall s p).ops := List.mem_of_find?_eq_some hfind
  obtain rfl : o.slot = slot := by simpa using List.find?_some hfind
  have hrun : exec (.tileOpComplete p o.slot) s = .next (runNext s p o) := by
    have hcomplete : tileOpComplete p o.slot s = runNext s p o := by
      simp [tileOpComplete, hfind, hready, htile, hgood]
    exact (onStall_on hp hon).trans (congrArg _ hcomplete)
  have htoken := runNext_token hsound hin hscale htile
  refine ⟨_, hrun, ?_⟩
  by_cases hzero : fzero? scale = true ∨ codes.all (fun b => b == 0) = true
  · have hk := KeepsStalls.notePhases s p t0 0
    simp only [htoken.trans (if_pos hzero), hzero, if_true]
    obtain ⟨hmode, hread, hnext⟩ := releaseToken_released (outs := zeros) hset (by rw [hk.getStall]; exact hmem)
    rw [hk.getStall] at hnext
    exact ⟨hmode.trans hk.mode, hread, hnext⟩
  · have harray : runNext s p o = arrayToken u p t0 o two scale (codes.map driveCode) := htoken.trans (if_neg hzero)
    have hk := (KeepsStalls.noteClamped s p t0 o.mode (countIf codes (fun b => b.toInt == -128))).trans
      (tokenNoted_keeps u p t0 o two scale (codes.map driveCode))
    rw [harray, if_neg hzero]
    by_cases hfails : r.fails = []
    · rw [if_neg (not_not_intro hfails)]
      cases hbad : firstBad 0 r.outs with
      | some v =>
        obtain ⟨hmode, hstall⟩ := resultTrap_stops (tokenNoted u p t0 o two scale (codes.map driveCode)) p t0 o v
        rw [arrayToken_bad hfails hbad]
        exact ⟨hmode.trans hk.mode, by rw [hstall]⟩
      | none =>
        obtain ⟨hmode, hread, hnext⟩ := releaseToken_released (outs := r.outs) hset (by rw [hk.getStall]; exact hmem)
        rw [arrayToken_passes hfails hbad]
        rw [hk.getStall] at hnext
        exact ⟨hmode.trans hk.mode, hread, hnext⟩
    · rw [arrayToken_fails hfails, if_pos hfails]
      obtain ⟨hmode, hvotes⟩ := holdToken_holds (tokenNoted u p t0 o two scale (codes.map driveCode)) p t0 o
        (codes.map driveCode) scale r
      exact ⟨hmode.trans hk.mode, hvotes.trans (by rw [hk.getStall])⟩

end Sys2Proof.Machine
end

section
/-! The statement on summing sets and votes (R424 to R427), which its clause on the counters of a tile vote refutes. -/
namespace Sys2Proof.Machine
set_option Elab.async false
open Sys2Proof

/-! ## A marginal vote while the count of workers that lost holds more than its 16 bits -/

/-- A block on slot 0 of stall 0, in one-slice mode. -/
def voteBlock : Placement :=
  { module := 0, stall := 0, slot := 0, twoSlice := false, layer := 0, tensor := 0, home := 0, rowSeg := 0, colBlk := 0,
    loftAddr := loftWindow, ownerStall := 0, sumOrder := 0, updateProgram := 0 }

/-- An image of that block alone. -/
def voteImage : Image :=
  { raw := [], length := 0, planTag := 0, buildId := 0,
    job := { narrow := false, layers := 1, dModel := 512, topK := 1, maxSeq := 512, moduleCount := 1, portsMin := 0,
             expertIds := 0, planSalt := 0, seed := 0 },
    modules := [], placement := [voteBlock], homes := [], attention := [], formats := [], frozen := [], bindings := [],
    programs := [], updates := [], loftTensors := [], intervalK := 1, strict := false, bufferMib := 64, teams := [],
    capacities := [], arbitration := [], constants := [] }

/-- An operation of two tokens on slot 0. -/
def voteOp : TileOp :=
  { mode := 0, slot := 0, n := 2, code := 0, scale := 0x1000, out := 0x2000, set := 0, next := 1, run := 0, instr := 0,
    layer := 0, onFallback := false }

/-- Its second token held for a vote on group 0: a zero residual, which both sides pass. -/
def heldVote : TileVote :=
  { no := 0, slot := 0, tile := 0, token := 1, mode := 0, groups := [0], outs := [], tvals := [], codes := [], n := 2,
    scale := 0, set := 0, out := 0x2000, pass := 1 }

/-- A stall that waits for that vote, its level record loaded, while the register table holds 65,536 for the votes that a
worker lost. -/
def overfullCount : State :=
  let s := { State.reset with
    mode := .running
    board := { Board.reset with railsOn := true }
    job := { Job.reset with image := some voteImage }
    reg := [(fkey R.brdCount2_workerLost 0, 65536)] }
  let s := modStall s 0 (fun t => { t with st := .awake, ops := [voteOp], votes := [heldVote] })
  { s with cal := { s.cal with loads := [(loadKey 3 0 0, recordSize)] } }

theorem overfullCount_waits : overfullCount.board.railsOn = true ∧ (getStall overfullCount 0).votes = [heldVote] ∧
    (getStall overfullCount 0).ops.find? (fun x => x.slot == heldVote.slot) = some voteOp ∧
    working overfullCount 0 = true ∧ voteFirst (getStall overfullCount 0) heldVote.no = true ∧
    placeOf overfullCount 0 heldVote.slot = some voteBlock := by decide +kernel

theorem overfullCount_recordIn : loaded overfullCount (loadKey 3 0 heldVote.slot) = true ∧
    poisoned overfullCount (levelAddr overfullCount voteBlock) recordSize = [] ∧
    getF overfullCount R.brdTile_state (tileIx 0 heldVote.tile) ≠ 1 := by decide +kernel

theorem overfullCount_before : getF overfullCount R.brdCount2_workerLost 0 = 65536 := by decide +kernel

/-- The vote is marginal: the count of the workers that lost is not touched. -/
theorem overfullCount_after :
    getF (decideTileVote 0 overfullCount) R.brdVoteLast_outcome 0 = 3 ∧
    getF (decideTileVote 0 overfullCount) R.brdCount2_marginal 0 = 1 ∧
    getF (decideTileVote 0 overfullCount) R.brdCount2_workerLost 0 = 65536 := by decide +kernel

/-- Refutes O41: its clause on a tile vote bounds all three counts by outcome to 16 bits, but a vote counts its own outcome
only (`noteVote`), and no hypothesis keeps the register table within the widths of its fields. In `overfullCount` the vote is
marginal, and the count of workers that lost keeps its 65,536. -/
theorem not_sumsAndVotes : ¬ Obligations.SumsAndVotes := by
  rintro ⟨-, htile, -⟩
  obtain ⟨hon, hvotes, hop, hwork, hfirst, hplace⟩ := overfullCount_waits
  obtain ⟨hloaded, hsound, hstate⟩ := overfullCount_recordIn
  have hdecided := htile overfullCount 0 heldVote [] voteOp voteBlock (by decide) hon hvotes hop hwork hfirst hplace
  rw [if_neg (by rw [hloaded]; decide), if_pos hsound] at hdecided
  obtain ⟨t, hexec, -, -, -, -, -, hcount, -⟩ := hdecided (.inr hstate)
  have hrun : exec (.tileVoteDecided 0) overfullCount = .next (decideTileVote 0 overfullCount) :=
    onStall_on (f := decideTileVote 0) (show 0 < 512 by decide) hon
  obtain rfl : decideTileVote 0 overfullCount = t := Host.Outcome.next.inj (hrun.symm.trans hexec)
  obtain ⟨-, -, hafter⟩ := overfullCount_after
  rw [hafter, overfullCount_before] at hcount
  omega

end Sys2Proof.Machine
end

section
/-! What a settled stall keeps, and a tile that becomes due, is forced, or whose tracker's window is judged (R226, R227, R230,
R231). -/
namespace Sys2Proof.Machine
set_option Elab.async false
open Sys2Proof

/-! ## Flags -/

theorem onF_setF_one {f : Field} (hw : f.width ≠ 0) (s : State) (u : Nat) : onF (setF s f u 1) f u = true := by
  simp [onF, Nat.mod_eq_of_lt (Nat.one_lt_two_pow hw)]

theorem onF_setF_zero (s : State) (f : Field) (u : Nat) : onF (setF s f u 0) f u = false := by simp [onF]

theorem onF_congr {s t : State} {f : Field} {u : Nat} (h : getF t f u = getF s f u) : onF t f u = onF s f u := by
  rw [onF, onF, h]

/-- A flag that no event changes. -/
theorem onF_raise {f : Field} (h : f.apartFrom eventKeys = true) (s : State) (u code coord d0 d1 : Nat) :
    onF (raise s code coord d0 d1) f u = onF s f u := onF_congr (getF_raise (fkey_of_apartFrom h u) s code coord d0 d1)

/-- A flag stands when a field that begins at another bit of its register is set. -/
theorem onF_setF_ne {f g : Field} (h : f.lo % 64 ≠ g.lo % 64) (s : State) (u w v : Nat) :
    onF (setF s g w v) f u = onF s f u := onF_congr (getF_setF_ne s v (fkey_ne_of_lo h u w))

/-! ## A stall settles (R230) -/

/-- A settled stall takes up another state at most. -/
theorem settle_eq (s : State) (p : Nat) : settle s p = { s with stalls := (settle s p).stalls } := by
  unfold settle
  split <;> rfl

@[simp] theorem settle_mode (s : State) (p : Nat) : (settle s p).mode = s.mode := by rw [settle_eq]
@[simp] theorem settle_mem (s : State) (p : Nat) : (settle s p).mem = s.mem := by rw [settle_eq]
@[simp] theorem settle_reg (s : State) (p : Nat) : (settle s p).reg = s.reg := by rw [settle_eq]
@[simp] theorem settle_cal (s : State) (p : Nat) : (settle s p).cal = s.cal := by rw [settle_eq]

@[simp] theorem getF_settle (s : State) (p : Nat) (f : Field) (u : Nat) : getF (settle s p) f u = getF s f u :=
  getF_congr (settle_reg s p) f u

theorem getStall_settle (s : State) (p : Nat) : ∃ st, getStall (settle s p) p = { getStall s p with st := st } := by
  unfold settle
  split
  · exact ⟨_, getStall_modStall s p _⟩
  · exact ⟨(getStall s p).st, rfl⟩

@[simp] theorem settle_bad (s : State) (p : Nat) : (getStall (settle s p) p).bad = (getStall s p).bad := by
  obtain ⟨st, e⟩ := getStall_settle s p
  rw [e]

@[simp] theorem settle_live (s : State) (p : Nat) : (getStall (settle s p) p).live = (getStall s p).live := by
  obtain ⟨st, e⟩ := getStall_settle s p
  rw [e]

@[simp] theorem settle_relief (s : State) (p : Nat) : (getStall (settle s p) p).relief = (getStall s p).relief := by
  obtain ⟨st, e⟩ := getStall_settle s p
  rw [e]

/-! ## A tile becomes due, and is forced (R226, R227, R231) -/

/-- A request to wake for a program changes the governor's queue at most. -/
theorem requestWake_program (s : State) (p : Nat) (die : Bool) :
    requestWake s p .program die = { s with gov := (requestWake s p .program die).gov } := by
  by_cases hst : (getStall s p).st = .disabled
  · rw [requestWake_disabled _ _ hst]
  · cases hrun : isRunning (getStall s p)
    · rw [requestWake_idle _ _ hst hrun]
      split <;> rfl
    · rw [requestWake_running _ _ hst hrun]
      rfl

/-- From `s` to `t` the module's mode, the trackers' windows and the measured changes stand. -/
structure KeepsDrift (s t : State) : Prop where
  mode : t.mode = s.mode
  drift : t.cal.drift = s.cal.drift
  delta : ∀ u, getF t R.calTileStat_deltaPpm u = getF s R.calTileStat_deltaPpm u

namespace KeepsDrift
variable {z s t : State}

theorem trans (h : KeepsDrift z s) (k : KeepsDrift s t) : KeepsDrift z t :=
  ⟨k.mode.trans h.mode, k.drift.trans h.drift, fun u => (k.delta u).trans (h.delta u)⟩

theorem setF {f : Field} (hf : R.calTileStat_deltaPpm.lo % 64 ≠ f.lo % 64) (s : State) (u v : Nat) :
    KeepsDrift s (setF s f u v) :=
  ⟨rfl, rfl, fun w => getF_setF_ne s v (fkey_ne_of_lo hf w u)⟩

theorem raise (s : State) (code coord d0 d1 : Nat) : KeepsDrift s (raise s code coord d0 d1) :=
  ⟨raise_mode .., by rw [raise_cal], fun u => getF_raise (fkey_of_apartFrom (by decide) u) ..⟩

end KeepsDrift

/-- A tile that is not due yet becomes so, and its stall may ask to wake for it. -/
theorem makeDue_fresh {s : State} {u : Nat} (h : onF s R.calTileAge_due u = false) : ∃ gov fresh, makeDue s u =
    setF { s with
      gov := gov
      cal := { s.cal with fresh := fresh, dueAt := tset s.cal.dueAt u s.now,
                          duePhases := tset s.cal.duePhases u (getF s R.calTileAge_phases u) } } R.calTileAge_due u 1 := by
  unfold makeDue
  extract_lets p a
  have ha : ∃ gov fresh, a = { s with gov := gov, cal := { s.cal with fresh := fresh } } := by
    unfold a when
    split
    · exact ⟨_, _, requestWake_program _ p false⟩
    · exact ⟨s.gov, s.cal.fresh, rfl⟩
  clear_value a
  obtain ⟨gov, fresh, rfl⟩ := ha
  exact ⟨gov, fresh, if_neg (by simp [h])⟩

theorem onF_makeDue (s : State) (u : Nat) : onF (makeDue s u) R.calTileAge_due u = true := by
  cases h : onF s R.calTileAge_due u
  · obtain ⟨gov, fresh, e⟩ := makeDue_fresh h
    rw [e]
    exact onF_setF_one (by decide) _ u
  · simp [makeDue, h]

theorem makeDue_mem (s : State) (u : Nat) : (makeDue s u).mem = s.mem := by
  cases h : onF s R.calTileAge_due u
  · obtain ⟨gov, fresh, e⟩ := makeDue_fresh h
    rw [e, setF_mem]
  · simp [makeDue, h]

theorem KeepsDrift.makeDue (s : State) (u : Nat) : KeepsDrift s (makeDue s u) := by
  cases h : onF s R.calTileAge_due u
  · obtain ⟨gov, fresh, e⟩ := makeDue_fresh h
    rw [e]
    refine KeepsDrift.trans ?_ (.setF (f := R.calTileAge_due) (by decide) _ u 1)
    exact ⟨rfl, rfl, fun _ => rfl⟩
  · simp only [Machine.makeDue, h, if_true]
    exact ⟨rfl, rfl, fun _ => rfl⟩

theorem KeepsDrift.forceTrim (s : State) (p t cause : Nat) : KeepsDrift s (forceTrim s p t cause) := by
  unfold Machine.forceTrim
  extract_lets u a _ b
  have ha : KeepsDrift s a := (KeepsDrift.makeDue s u).trans (.setF (f := R.calTileAge_forced) (by decide) _ u 1)
  split
  · exact ⟨rfl, rfl, fun _ => rfl⟩
  · have hb : KeepsDrift a b := ⟨rfl, rfl, fun _ => rfl⟩
    exact (ha.trans hb).trans (.raise b ..)

theorem onF_forceTrim (s : State) (p t cause : Nat) :
    onF (forceTrim s p t cause) R.calTileAge_forced (tileIx p t) = true := by
  unfold forceTrim
  extract_lets u a b
  split
  · assumption
  · rw [onF_raise (by decide)]
    exact onF_setF_one (by decide) _ u

/-! ## A window of the tracker is judged (R226) -/

/-- The tracker of a tile with its oldest full window gone. -/
def windowGone (s : State) (u : Nat) (l : List (Int × Nat)) : State :=
  { s with cal := { s.cal with drift := tput Drift.reset s.cal.drift u { tget Drift.reset s.cal.drift u with full := l } } }

theorem windowGone_full (s : State) (u : Nat) (l : List (Int × Nat)) :
    (tget Drift.reset (windowGone s u l).cal.drift u).full = l := by
  simp [windowGone]

/-- The measured change of a tile, in ppm, shown. -/
def deltaShown (s : State) (u : Nat) (v : Int) : State := setF s R.calTileStat_deltaPpm u (ofSigned 20 v)

theorem getF_deltaShown (s : State) (u : Nat) (v : Int) :
    getF (deltaShown s u v) R.calTileStat_deltaPpm u = (v % 2 ^ 20).toNat := by
  have hwidth : ofSigned 20 v < 2 ^ R.calTileStat_deltaPpm.width := by
    unfold ofSigned
    have := Int.emod_lt_of_pos v (show (0 : Int) < ((2 ^ 20 : Nat) : Int) by decide)
    have := Int.emod_nonneg v (show ((2 ^ 20 : Nat) : Int) ≠ 0 by decide)
    show _ < 2 ^ 20
    omega
  rw [deltaShown, getF_setF, Nat.mod_eq_of_lt hwidth]
  rfl

section judged
variable {s : State} {p t xx : Nat} {xy : Int} {l : List (Int × Nat)} {g : Int × Nat}
  (hfull : (tget Drift.reset s.cal.drift (tileIx p t)).full = (xy, xx) :: l) (htrim : trimmable s p t = true) (hxx : xx ≠ 0)
  (href : tget (1, 1) s.cal.gRef (tileIx p t) = g) (hg : 0 < g.1) (hhigh : driftPpm xy xx g ≤ 524287)
  (hlow : -524288 ≤ driftPpm xy xx g)
include hfull htrim hxx href hg hhigh hlow

/-- A window of a tile that can be renewed, with something driven and a reference from a trim, whose change fits the
register. -/
theorem driftDone_judged :
    let a := deltaShown (windowGone s (tileIx p t) l) (tileIx p t) (driftPpm xy xx g)
    driftDone p t s =
      if driftPast xy xx g (getF s R.calCtl_driftPpm) = true then
        forceTrim (raise a 0x5002 (cTile p t) (ofSigned 32 (driftPpm xy xx g)) (getF s R.calCtl_driftPpm)) p t 2
      else a := by
  intro a
  have hrange : ¬ (driftPpm xy xx g < -524288 ∨ 524287 < driftPpm xy xx g) := by omega
  have htrim' : trimmable (windowGone s (tileIx p t) l) p t = true := htrim
  have hskip : ¬ ((!trimmable (windowGone s (tileIx p t) l) p t || decide (xx = 0) || decide (g.1 ≤ 0)) = true) := by
    simp [htrim', hxx, hg]
  unfold driftDone
  extract_lets u tracker ref
  obtain rfl : ref = g := href
  rw [show tracker.full = (xy, xx) :: l from hfull]
  refine (if_neg hskip).trans ?_
  extract_lets v lim b
  rw [show b = a from if_neg hrange]
  rfl

/-- The window is gone, the measured change kept, and a trim forced where it is past the limit. -/
theorem driftDone_spec : (driftDone p t s).mode = s.mode ∧
    (tget Drift.reset (driftDone p t s).cal.drift (tileIx p t)).full = l ∧
    getF (driftDone p t s) R.calTileStat_deltaPpm (tileIx p t) = (driftPpm xy xx g % 2 ^ 20).toNat ∧
    (driftPast xy xx g (getF s R.calCtl_driftPpm) = true →
      onF (driftDone p t s) R.calTileAge_forced (tileIx p t) = true) := by
  rw [driftDone_judged hfull htrim hxx href hg hhigh hlow]
  generalize driftPpm xy xx g = d
  have hdelta := getF_deltaShown (windowGone s (tileIx p t) l) (tileIx p t) d
  have hgone := windowGone_full s (tileIx p t) l
  split
  · have hk := (KeepsDrift.raise (deltaShown (windowGone s (tileIx p t) l) (tileIx p t) d) 0x5002 (cTile p t) (ofSigned 32 d)
      (getF s R.calCtl_driftPpm)).trans (.forceTrim _ p t 2)
    exact ⟨hk.mode, by rw [hk.drift]; exact hgone, (hk.delta _).trans hdelta, fun _ => onF_forceTrim _ p t 2⟩
  · next hpast => exact ⟨rfl, hgone, hdelta, fun h => absurd h hpast⟩

end judged

end Sys2Proof.Machine
end

section
/-! What a passing trim brings into force, what a tile that fails leaves of its stall, and the end of an idle re-trim (R219,
R222, R224, R436). -/
namespace Sys2Proof.Machine
set_option Elab.async false
open Sys2Proof

/-! ## What renews a trim (R219, R222, R224) -/

theorem startAge_due (s : State) (u kind : Nat) : onF (startAge s u kind) R.calTileAge_due u = false := by
  unfold startAge forEach
  simp only [List.foldl_cons, List.foldl_nil]
  rw [onF_setF_ne (by decide), onF_setF_ne (by decide), onF_setF_zero]

theorem startAge_forced (s : State) (u kind : Nat) : onF (startAge s u kind) R.calTileAge_forced u = false := by
  unfold startAge forEach
  simp only [List.foldl_cons, List.foldl_nil]
  rw [onF_setF_ne (by decide), onF_setF_zero]

theorem startAge_overdue (s : State) (u kind : Nat) : onF (startAge s u kind) R.calTileAge_overdue u = false :=
  onF_setF_zero _ R.calTileAge_overdue u

theorem startAge_trimmed (s : State) (u kind : Nat) : tget? (startAge s u kind).cal.trimmed u = some s.now := by
  show tget? (tset s.cal.trimmed u s.now) u = some s.now
  rw [tget?_tset, if_pos rfl]

theorem startAge_mode (s : State) (u kind : Nat) : (startAge s u kind).mode = s.mode := rfl

theorem startAge_trimming (s : State) (u kind : Nat) : (startAge s u kind).cal.trimming = s.cal.trimming := rfl

/-- The tolerances and results of a trim are registers. -/
theorem showStat_onlyReg (s : State) (u : Nat) (m : TrimMeas) : OnlyReg s (showStat (setTolerance s u m) u m) :=
  by
  unfold showStat setTolerance
  exact ((((OnlyReg.setF s _ _ _).trans (.setF _ _ _ _)).trans (.setF _ _ _ _)).trans (.setF _ _ _ _)).trans (.setF _ _ _ _)

/-- Trim entries of a tile, by line, and its g_ref brought into force. -/
def entriesIn (s : State) (u : Nat) (l : List (Nat × Nat)) (g : Int × Nat) : State :=
  let a := forEach l (fun t x => setTrim t u x.1 x.2) s
  { a with cal := { a.cal with gRef := tset a.cal.gRef u g } }

theorem entriesIn_mode (s : State) (u : Nat) (l : List (Nat × Nat)) (g : Int × Nat) : (entriesIn s u l g).mode = s.mode :=
  forEach_frame State.mode (f := fun t (x : Nat × Nat) => setTrim t u x.1 x.2) (fun _ _ => rfl) l s

theorem entriesIn_now (s : State) (u : Nat) (l : List (Nat × Nat)) (g : Int × Nat) : (entriesIn s u l g).now = s.now :=
  forEach_frame State.now (f := fun t (x : Nat × Nat) => setTrim t u x.1 x.2) (fun _ _ => rfl) l s

theorem entriesIn_trimming (s : State) (u : Nat) (l : List (Nat × Nat)) (g : Int × Nat) :
    (entriesIn s u l g).cal.trimming = s.cal.trimming :=
  forEach_frame (fun t => t.cal.trimming) (f := fun t (x : Nat × Nat) => setTrim t u x.1 x.2) (fun _ _ => rfl) l s

theorem passTrim_eq (s : State) (u kind : Nat) (m : TrimMeas) : ∃ l g, passTrim s u kind m =
    startAge (showStat (setTolerance (entriesIn s u l g) u m) u m) u kind :=
  ⟨(trimLines m).mapIdx (fun l x => (l, trimEntry x.2.toNat x.1)), trimRef m, by unfold passTrim entriesIn; rfl⟩

/-- A passing trim starts the tile's age again: it is neither due nor forced nor overdue. -/
theorem passTrim_renews (s : State) (u kind : Nat) (m : TrimMeas) : (passTrim s u kind m).mode = s.mode ∧
    (passTrim s u kind m).cal.trimming = s.cal.trimming ∧ tget? (passTrim s u kind m).cal.trimmed u = some s.now ∧
    onF (passTrim s u kind m) R.calTileAge_due u = false ∧ onF (passTrim s u kind m) R.calTileAge_forced u = false ∧
    onF (passTrim s u kind m) R.calTileAge_overdue u = false := by
  obtain ⟨l, g, e⟩ := passTrim_eq s u kind m
  rw [e]
  have hshown := showStat_onlyReg (entriesIn s u l g) u m
  generalize showStat (setTolerance (entriesIn s u l g) u m) u m = t at hshown ⊢
  refine ⟨?_, ?_, ?_, startAge_due t u kind, startAge_forced t u kind, startAge_overdue t u kind⟩
  · rw [startAge_mode, hshown.eq]
    exact entriesIn_mode s u l g
  · rw [startAge_trimming, hshown.eq]
    exact entriesIn_trimming s u l g
  · rw [startAge_trimmed, hshown.eq]
    exact congrArg some (entriesIn_now s u l g)

/-! ## A tile that fails is bad (R436) -/

/-- From `z` to `s` the bad tiles of stall `p` stand. -/
def KeepsBad (p : Nat) (z s : State) : Prop := (getStall s p).bad = (getStall z p).bad

theorem getStall_fieldOff (s : State) (p q : Nat) (x : Option Nat) : getStall (fieldOff s p x) q = getStall s q := by
  cases x <;> rfl

theorem getStall_moveSlot (s : State) (p slot t : Nat) :
    getStall (moveSlot s p slot t) p = { getStall s p with live := (getStall s p).live.set slot t } := by
  simp only [moveSlot, getStall_setF, getStall_modStall]

namespace KeepsBad
variable {p : Nat} {z s t : State}

theorem refl (p : Nat) (s : State) : KeepsBad p s s := rfl

theorem trans (h : KeepsBad p z s) (k : KeepsBad p s t) : KeepsBad p z t := Eq.trans k h

theorem same (h : KeepsBad p z s) (e : t.stalls = s.stalls := by rfl) : KeepsBad p z t :=
  h.trans (congrArg Stall.bad (getStall_congr e p))

/-- What leaves the stall's record as it is. -/
theorem steady (h : KeepsBad p z s) (k : Steady (· = p) s t) : KeepsBad p z t := h.trans (congrArg Stall.bad (k.stalls p rfl))

theorem modStall (h : KeepsBad p z s) {f : Stall → Stall} (hf : ∀ x, (f x).bad = x.bad) : KeepsBad p z (modStall s p f) :=
  h.trans (by rw [KeepsBad, getStall_modStall, hf])

theorem ite {c : Prop} [Decidable c] {a b : State} (ha : KeepsBad p z a) (hb : KeepsBad p z b) :
    KeepsBad p z (if c then a else b) := by
  split
  · exact ha
  · exact hb

theorem raise (h : KeepsBad p z s) (code coord d0 d1 : Nat) : KeepsBad p z (raise s code coord d0 d1) :=
  h.same (raise_stalls ..)

theorem settle (h : KeepsBad p z s) : KeepsBad p z (settle s p) := h.trans (settle_bad s p)

theorem dropFill (h : KeepsBad p z s) (rebuild : Bool) : KeepsBad p z (dropFill s p rebuild) :=
  h.steady ((Steady.refl _ s).dropFill p rebuild)

theorem abandonRotation (h : KeepsBad p z s) (row : Nat) : KeepsBad p z (abandonRotation s p row) := by
  unfold Machine.abandonRotation
  split
  · exact h
  · extract_lets t
    have ht : KeepsBad p z t := h.steady (((Steady.refl _ s).dropTrims p 3).dropFill p false)
    exact (ite (ht.raise ..) ht).settle

theorem loseSpare (h : KeepsBad p z s) (t : Nat) : KeepsBad p z (loseSpare s p t) := by
  refine ite (raise (h.modStall ?relief) ..) (ite (raise (h.modStall ?reserve) ..) h)
  case relief => exact fun _ => rfl
  case reserve => exact fun _ => rfl

theorem moveSlot (h : KeepsBad p z s) (slot t : Nat) : KeepsBad p z (moveSlot s p slot t) :=
  h.trans (by rw [KeepsBad, getStall_moveSlot])

theorem takeOver (h : KeepsBad p z s) (f : Fill) : KeepsBad p z (takeOver s p f) := by
  unfold Machine.takeOver
  extract_lets t u
  have ht : KeepsBad p z t := by
    dsimp only [t]
    split
    · exact h.steady (((Steady.refl _ s).rowsReadable _ _).refillRows _ _ _ _ _ _)
    · exact h
  have hu : KeepsBad p z u := (ht.moveSlot f.slot f.toTile).modStall (fun _ => rfl)
  exact (hu.abandonRotation 2).raise ..

theorem failSlot (h : KeepsBad p z s) (t slot cause : Nat) : KeepsBad p z (failSlot s p t slot cause) := by
  unfold Machine.failSlot
  split
  · exact ite h.same (ite (h.takeOver _) (ite (h.abandonRotation 3).same (h.dropFill false).settle.same))
  · exact h.same

theorem loseStall (h : KeepsBad p z s) (cause : Nat) : KeepsBad p z (loseStall s p cause) := by
  unfold Machine.loseStall
  extract_lets a b c _ _ d _ e f
  have ha : KeepsBad p z a := ite h h.same
  have hc : KeepsBad p z c := (ha.abandonRotation 5).dropFill true
  clear_value c
  have hd : KeepsBad p z d := hc.same
  have he : KeepsBad p z e := hd.steady (((Steady.refl _ d).showRebuild _).setChan _ _)
  have hf : KeepsBad p z f := he.modStall (fun _ => rfl)
  exact KeepsBad.raise (s := Machine.holdGate f) hf.same ..

end KeepsBad

/-- A tile that fails is on its stall's list of bad tiles. -/
theorem mem_bad_failTile (s : State) (p t cause : Nat) : t ∈ (getStall (failTile s p t cause) p).bad := by
  unfold failTile
  extract_lets st a _ b c d e f
  have ha : t ∈ (getStall a p).bad := by
    dsimp only [a]
    rw [getStall_fieldOff, getStall_modStall]
    exact List.mem_append_right _ (List.mem_singleton_self t)
  have hb : KeepsBad p a b := (KeepsBad.refl p a).same
  have hc : KeepsBad p a c := .ite (hb.abandonRotation 1) hb
  have hd : KeepsBad p a d := .ite (hc.dropFill false) hc
  have he : KeepsBad p a e := by
    dsimp only [e]
    split
    · exact .ite (hd.steady ((Steady.refl _ d).restartRebuild p _)) hd
    · exact hd
  have hf : KeepsBad p a f := he.loseSpare t
  by_cases hold : st.bad.contains t = true
  · rw [if_pos hold]
    exact List.contains_iff_mem.mp hold
  · have hend : ∀ u, KeepsBad p a u → t ∈ (getStall u p).bad := fun u hu => hu ▸ ha
    rw [if_neg hold]
    split
    · exact hend _ (hf.loseStall 1)
    · split
      · exact hend _ (hf.steady ((Steady.refl _ f).pruneRebuilds p)).settle
      · exact hend _ (hf.failSlot t _ cause)

/-! ## A trim ends (R222) -/

/-- A trim out of its bounds fails the tile. -/
theorem trimFails_bad (s : State) (p t c : Nat) (m : TrimMeas) : (trimFails s p t c m).mode = s.mode ∧
    t ∈ (getStall (trimFails s p t c m) p).bad := by
  unfold trimFails
  extract_lets sigma
  refine ⟨?_, by rw [settle_bad]; exact mem_bad_failTile _ p t 2⟩
  rw [settle_mode]
  exact ((((Steady.refl noStall s).raise 0x5001 (cTile p t) c sigma).failTile id t 2)).mode

/-- A trim that ends leaves its place among those under way. -/
def trimOver (s : State) (u : Nat) : State :=
  { s with cal := { s.cal with trimming := s.cal.trimming.filter (fun q => q.1 != u) } }

theorem trimOver_trimming (s : State) (u : Nat) : ∀ q ∈ (trimOver s u).cal.trimming, q.1 ≠ u :=
  fun _ hq => bne_iff_ne.mp (List.mem_filter.mp hq).2

theorem trimDone_ends {s : State} {p t kind : Nat} (m : TrimMeas)
    (hfind : s.cal.trimming.find? (fun q => q.1 == tileIx p t) = some (tileIx p t, kind))
    (hrun : isRunning (getStall s p) = true) :
    trimDone p t m s = settle (endTrim (trimOver s (tileIx p t)) p t kind (trimFault m) m) p := by
  unfold trimDone
  extract_lets u
  rw [hfind]
  exact if_neg (by rw [hrun]; decide)

theorem endIdle_pass (s : State) (p t : Nat) (m : TrimMeas) : endTrim s p t 0 0 m = passTrim s (tileIx p t) 2 m := rfl

theorem endIdle_fail {c : Nat} (h : c ≠ 0) (s : State) (p t : Nat) (m : TrimMeas) :
    endTrim s p t 0 c m = trimFails s p t c m := if_neg h

/-- An idle re-trim within its bounds starts the tile's age and leaves the tile neither due, forced nor overdue. -/
theorem idle_trim_passes (s : State) (p t : Nat) (m : TrimMeas) :
    let v := settle (endTrim (trimOver s (tileIx p t)) p t 0 0 m) p
    v.mode = s.mode ∧ (∀ q ∈ v.cal.trimming, q.1 ≠ tileIx p t) ∧ tget? v.cal.trimmed (tileIx p t) = some s.now ∧
      onF v R.calTileAge_due (tileIx p t) = false ∧ onF v R.calTileAge_forced (tileIx p t) = false ∧
      onF v R.calTileAge_overdue (tileIx p t) = false := by
  obtain ⟨hmode, htrimming, hage, hflags⟩ := passTrim_renews (trimOver s (tileIx p t)) (tileIx p t) 2 m
  rw [endIdle_pass]
  generalize passTrim (trimOver s (tileIx p t)) (tileIx p t) 2 m = v at hmode htrimming hage hflags ⊢
  simp only [settle_mode, settle_cal, onF, getF_settle] at hflags ⊢
  exact ⟨hmode, by rw [htrimming]; exact trimOver_trimming s _, hage, hflags⟩

/-- An idle re-trim out of its bounds leaves the tile bad. -/
theorem idle_trim_fails {c : Nat} (h : c ≠ 0) (s : State) (p t : Nat) (m : TrimMeas) :
    let v := settle (endTrim (trimOver s (tileIx p t)) p t 0 c m) p
    v.mode = s.mode ∧ t ∈ (getStall v p).bad := by
  intro v
  obtain ⟨hmode, hbad⟩ := trimFails_bad (trimOver s (tileIx p t)) p t c m
  rw [← endIdle_fail h] at hmode hbad
  exact ⟨(settle_mode _ p).trans hmode, by rw [settle_bad]; exact hbad⟩

end Sys2Proof.Machine
end

section
/-! The statement on trims: when one is due, forced or overdue, how an idle one begins and how a trim ends (R219 to R222, R224,
R226 to R229). -/
namespace Sys2Proof.Machine
set_option Elab.async false
open Sys2Proof

/-! ## The clauses of the statement -/

/-- Another window than the tracker's oldest is not judged. -/
theorem exec_driftWindowDone_other {s : State} {p t xx : Nat} {xy : Int} (hp : p < 512) (ht : t < 34)
    (hon : s.board.railsOn = true) (h : (tget Drift.reset s.cal.drift (tileIx p t)).full.head? ≠ some (xy, xx)) :
    exec (.driftWindowDone p t xy xx) s = .next s :=
  (onTile_on hp ht hon).trans (congrArg _ (if_neg h))

theorem exec_driftWindowDone_oldest {s : State} {p t xx : Nat} {xy : Int} {l : List (Int × Nat)} (hp : p < 512) (ht : t < 34)
    (hon : s.board.railsOn = true) (h : (tget Drift.reset s.cal.drift (tileIx p t)).full = (xy, xx) :: l) :
    exec (.driftWindowDone p t xy xx) s = .next (driftDone p t s) :=
  (onTile_on hp ht hon).trans (congrArg _ (if_pos (by rw [h]; rfl)))

/-- A tile past its age or its phases becomes due. -/
theorem retrimDue_makes {s : State} {p t : Nat} (htrim : trimmable s p t = true)
    (hage : 25000 * getF s R.calCtl_trimMs ≤ trimAge s (tileIx p t) ∨
      2 ^ getF s R.calCtl_trimPhasesLog2 ≤ getF s R.calTileAge_phases (tileIx p t)) :
    retrimDue p t s = makeDue s (tileIx p t) := by
  refine if_pos ?_
  simpa [htrim] using hage

theorem retrimForced_forces {s : State} {p t c : Nat} (htrim : trimmable s p t = true)
    (hdue : onF s R.calTileAge_due (tileIx p t) = true) (hcause : forceCause s p t = some c) :
    retrimForced p t s = forceTrim s p t c := by
  simp only [retrimForced, htrim, hdue, hcause, Bool.and_self, if_true]

/-- A forced tile that waited 10 ms is overdue, and not again until it is trimmed. -/
theorem trimOverdue_once {s : State} {p t : Nat} (hforced : onF s R.calTileAge_forced (tileIx p t) = true)
    (hover : onF s R.calTileAge_overdue (tileIx p t) = false)
    (hwait : tget s.now s.cal.forcedAt (tileIx p t) + 250000 ≤ s.now) :
    (trimOverdue p t s).mode = s.mode ∧ (trimOverdue p t s).board = s.board ∧
      onF (trimOverdue p t s) R.calTileAge_overdue (tileIx p t) = true := by
  have hraise : trimOverdue p t s = raise (setF s R.calTileAge_overdue (tileIx p t) 1) 0x5004 (cTile p t)
      ((s.now - tget s.now s.cal.forcedAt (tileIx p t)) / 25000) (min (2 ^ 20 - 1) (trimAge s (tileIx p t) / 25000)) :=
    if_pos (by simp [hforced, hover, hwait])
  rw [hraise]
  exact ⟨raise_mode .., raise_board .., (onF_raise (by decide) ..).trans (onF_setF_one (by decide) s _)⟩

theorem trimOverdue_again {s : State} {p t : Nat} (hover : onF s R.calTileAge_overdue (tileIx p t) = true) :
    trimOverdue p t s = s := if_neg (by simp [hover])

/-- An idle tile that is due begins its trim. -/
theorem idleRetrim_begins {s : State} {p t : Nat} (htrim : trimmable s p t = true)
    (hdue : onF s R.calTileAge_due (tileIx p t) = true)
    (hst : (getStall s p).st = .awake ∨ (getStall s p).st = .retrim) (hidle : tileIdle s p t = true)
    (hfill : ∀ f ∈ s.cal.fills, f.stall = p → f.fromTile ≠ t ∧ f.toTile ≠ t)
    (hnone : ∀ q ∈ s.cal.trimming, q.1 ≠ tileIx p t) (hwrite : writePending s p t = false) :
    idleRetrim p t s =
      settle { s with cal := { s.cal with trimming := s.cal.trimming ++ [(tileIx p t, 0)] } } p := by
  have hfilling : s.cal.fills.any (fun f => f.stall == p && (f.fromTile == t || f.toTile == t)) = false := by
    simpa [List.any_eq_false] using hfill
  have htrimming : s.cal.trimming.any (fun q => q.1 == tileIx p t) = false := by
    simpa [List.any_eq_false] using fun a b h => hnone (a, b) h
  have hst' : ((getStall s p).st == .awake || (getStall s p).st == .retrim) = true := by simpa using hst
  refine if_pos ?_
  simp only [htrim, hdue, hst', hidle, hfilling, htrimming, hwrite, Bool.not_false, Bool.and_self]

/-- Settles O49: the windows of the tracker (`driftDone_spec`), due, forced and overdue (`onF_makeDue`, `onF_forceTrim`,
`trimOverdue_once`), the start of an idle re-trim and the end of a trim (`idle_trim_passes`, `idle_trim_fails`). -/
theorem trims : Obligations.Trims := by
  refine ⟨?other, ?oldest, ?due, ?forced, ?overdue, ?idle, ?ended, ?anyKind⟩
  case other =>
    intro s p t xx xy hp ht hon h
    exact exec_driftWindowDone_other hp ht hon h
  case oldest =>
    intro s p t xx xy l hp ht hon hfull htrim hxx hg d hhigh hlow
    exact ⟨_, exec_driftWindowDone_oldest hp ht hon hfull, driftDone_spec hfull htrim hxx rfl hg hhigh hlow⟩
  case due =>
    intro s p t hp ht hon htrim hage
    refine ⟨_, (onTile_on hp ht hon).trans (congrArg _ (retrimDue_makes htrim hage)), ?_⟩
    exact ⟨(KeepsDrift.makeDue s _).mode, makeDue_mem s _, onF_makeDue s _⟩
  case forced =>
    intro s p t c hp ht hon htrim hdue hcause
    refine ⟨_, (onTile_on hp ht hon).trans (congrArg _ (retrimForced_forces htrim hdue hcause)), ?_⟩
    exact ⟨(KeepsDrift.forceTrim s p t c).mode, onF_forceTrim s p t c⟩
  case overdue =>
    intro s p t hp ht hon hforced hover hwait
    obtain ⟨hmode, hboard, hon'⟩ := trimOverdue_once hforced hover hwait
    refine ⟨_, onTile_on hp ht hon, hmode, hon', ?_⟩
    exact (onTile_on hp ht (by rw [hboard]; exact hon)).trans (congrArg _ (trimOverdue_again hon'))
  case idle =>
    intro s p t hp ht hon htrim hdue hst hidle hfill hnone hwrite
    refine ⟨_, (onTile_on hp ht hon).trans (congrArg _ (idleRetrim_begins htrim hdue hst hidle hfill hnone hwrite)), ?_⟩
    simp only [settle_cal, settle_mode, settle_mem, settle_reg, and_self]
  case ended =>
    intro s p t m hp ht hon hfind hrun
    refine ⟨_, (onTile_on hp ht hon).trans (congrArg _ (trimDone_ends m hfind hrun)), ?_⟩
    by_cases hpass : trimFault m = 0
    · rw [if_pos hpass, hpass]
      exact idle_trim_passes s p t m
    · rw [if_neg hpass]
      exact idle_trim_fails hpass s p t m
  case anyKind =>
    intro s p t kind m hp ht hon hfind hrun
    exact (onTile_on hp ht hon).trans (congrArg _ (trimDone_ends m hfind hrun))

end Sys2Proof.Machine
end

section
/-! How a stall's rotation is recorded and shown, reads of sound level records, and the mode through a tile's writes (R232 to
R236, R341). -/
namespace Sys2Proof.Machine
set_option Elab.async false
open Sys2Proof

/-! ## A stall's fill and how it is shown (R232) -/

/-- CAL.ROTATION is registers. -/
theorem showRotation_onlyReg (s : State) (p : Nat) : OnlyReg s (showRotation s p) := by
  unfold showRotation
  split
  · exact (((OnlyReg.setF s _ _ _).trans (.setF _ _ _ _)).trans (.setF _ _ _ _)).trans (.setF _ _ _ _)
  · exact ((((OnlyReg.setF s _ _ _).trans (.setF _ _ _ _)).trans (.setF _ _ _ _)).trans (.setF _ _ _ _)).trans (.setF _ _ _ _)

theorem dropFill_eq (s : State) (p : Nat) (rebuild : Bool) : dropFill s p rebuild =
    { s with
      reg := (dropFill s p rebuild).reg
      cal := { s.cal with fills := s.cal.fills.filter (fun f => !(f.stall == p && (f.phase == 6) == rebuild)) } } :=
  (showRotation_onlyReg _ p).eq

theorem setFill_eq (s : State) (f : Fill) : setFill s f =
    { s with
      reg := (setFill s f).reg
      cal := { s.cal with
        fills := s.cal.fills.filter (fun g => !(g.stall == f.stall && (g.phase == 6) == (f.phase == 6))) ++ [f] } } := by
  have h := (showRotation_onlyReg { dropFill s f.stall (f.phase == 6) with
    cal := { (dropFill s f.stall (f.phase == 6)).cal with
      fills := (dropFill s f.stall (f.phase == 6)).cal.fills ++ [f] } } f.stall).eq
  rw [dropFill_eq] at h
  unfold setFill
  rw [dropFill_eq]
  exact h

@[simp] theorem setFill_mode (s : State) (f : Fill) : (setFill s f).mode = s.mode := by rw [setFill_eq]
@[simp] theorem setFill_mem (s : State) (f : Fill) : (setFill s f).mem = s.mem := by rw [setFill_eq]
@[simp] theorem setFill_stalls (s : State) (f : Fill) : (setFill s f).stalls = s.stalls := by rw [setFill_eq]

theorem mem_fills_setFill (s : State) (f : Fill) : f ∈ (setFill s f).cal.fills := by
  rw [setFill_eq]
  exact List.mem_append_right _ (List.mem_singleton_self f)

/-- What shows a rotation leaves its count of rows, and clears it where there is no rotation. -/
theorem rowsFilled_showRotation (s : State) (p : Nat) : getF (showRotation s p) R.calRotation_rowsFilled p =
    if (fillOf s p false).isSome then getF s R.calRotation_rowsFilled p else 0 := by
  unfold showRotation
  cases fillOf s p false with
  | none => exact getF_setF ..
  | some f =>
    dsimp only
    rw [getF_setF_ne _ _ (fkey_ne_of_lo (by decide) p p), getF_setF_ne _ _ (fkey_ne_of_lo (by decide) p p),
      getF_setF_ne _ _ (fkey_ne_of_lo (by decide) p p), getF_setF_ne _ _ (fkey_ne_of_lo (by decide) p p)]
    rfl

theorem rowsFilled_showRotation_zero {s : State} {p : Nat} (h : getF s R.calRotation_rowsFilled p = 0) :
    getF (showRotation s p) R.calRotation_rowsFilled p = 0 := by
  rw [rowsFilled_showRotation, h]
  exact ite_self 0

/-- A rotation that takes the place of another one has filled no rows yet. -/
theorem rowsFilled_setFill (s : State) {f : Fill} (h : f.phase ≠ 6) :
    getF (setFill s f) R.calRotation_rowsFilled f.stall = 0 := by
  have hdrop : getF (dropFill s f.stall (f.phase == 6)) R.calRotation_rowsFilled f.stall = 0 := by
    rw [beq_eq_false_iff_ne.mpr h]
    unfold dropFill
    extract_lets l
    rw [rowsFilled_showRotation]
    have hnone : l.find? (fun g => g.stall == f.stall && (g.phase == 6) == false) = none :=
      List.find?_eq_none.mpr (fun _ hg => by simpa [imp_iff_not_or] using (List.mem_filter.mp hg).2)
    refine if_neg ?_
    rw [fillOf, hnone]
    decide
  exact rowsFilled_showRotation_zero hdrop

/-! ## Reads of sound level records (R341) -/

theorem loftRead_sound {s : State} (hpoison : s.upd.poison = []) (hsoft : s.upd.softErr = []) (a n : Nat) :
    loftRead s a n = (s, true) := by
  simp [loftRead, poisoned, hpoison, hsoft, forEach]

theorem rowsReadable_sound {s : State} (hpoison : s.upd.poison = []) (hsoft : s.upd.softErr = []) (base : Nat)
    (rows : List Nat) : rowsReadable s base rows = (s, true) := by
  unfold rowsReadable
  induction rows with
  | nil => rfl
  | cons r rows ih =>
    rw [List.foldl_cons, loftRead_sound hpoison hsoft]
    exact ih

/-- A fill leaves the module's mode. -/
theorem fillTile_mode (s : State) (p t k base : Nat) (pl : Placement) (w : WriteReport) :
    (fillTile s p t k base pl w).1.mode = s.mode := by
  unfold fillTile
  extract_lets u a r
  have ha : Steady noStall s a := (Steady.refl noStall s).setUnit (by decide) _ _
  have hr : Steady noStall s r.1 := ha.fullWrite _ _ _
  exact (hr.recordStuck pl r.2.stuck).mode

theorem refillRows_mode (s : State) (p t base : Nat) (rows : List Nat) (pl : Placement) (w : WriteReport) :
    (refillRows s p t base rows pl w).1.mode = s.mode := ((Steady.refl noStall s).refillRows p t base rows pl w).mode

theorem failTile_mode (s : State) (p t cause : Nat) : (failTile s p t cause).mode = s.mode :=
  ((Steady.refl noStall s).failTile id t cause).mode

end Sys2Proof.Machine
end

section
/-! The statement on rotations: how one starts, is filled and takes over (R232 to R235). -/
namespace Sys2Proof.Machine
set_option Elab.async false
open Sys2Proof

/-! ## A rotation starts (R232, R234) -/

/-- A rotation that has begun at time `now`: its first phase, nothing filled. -/
def Fill.begun (p slot t r now : Nat) : Fill :=
  { stall := p, slot := slot, fromTile := t, toTile := r, phase := 1, rows := [], retried := false, since := now }

theorem rotationStart_begins {s : State} {p time slot t r : Nat} (hforced : firstForced s p = some (time, slot, t))
    (hrelief : (getStall s p).relief = some r) (hcan : canRotate s p = true)
    (hroom : barnRotations s (barnOf p) < getF s R.calCtl_rotPerBarn) (hfirst : firstInBarn s p time = true) :
    rotationStart p s = settle (setFill (setF (dropLoad s (loadKey 1 p slot)) R.calRotation_rowsFilled p 0)
      (Fill.begun p slot t r s.now)) p := by
  simp only [rotationStart, hforced, hrelief, hcan, hroom, hfirst, decide_true, Bool.and_self, if_true]
  rfl

/-! ## The fill of a rotation ends (R233, R234, R239) -/

/-- The relief tile is filled: the rotation is in its second phase, and the tile trims. -/
def fillEnded (s : State) (p : Nat) (f : Fill) : State :=
  let t := setF (setFill s { f with phase := 2, rows := [] }) R.calRotation_rowsFilled p 512
  { t with cal := { t.cal with trimming := t.cal.trimming ++ [(tileIx p f.toTile, 3)] } }

theorem fillEnded_spec (s : State) (p : Nat) (f : Fill) : (fillEnded s p f).mode = s.mode ∧
    { f with phase := 2, rows := [] } ∈ (fillEnded s p f).cal.fills ∧
    (tileIx p f.toTile, 3) ∈ (fillEnded s p f).cal.trimming ∧ getF (fillEnded s p f) R.calRotation_rowsFilled p = 512 := by
  have hmode := setFill_mode s { f with phase := 2, rows := [] }
  have hfills := mem_fills_setFill s { f with phase := 2, rows := [] }
  unfold fillEnded
  generalize setFill s { f with phase := 2, rows := [] } = t at hmode hfills ⊢
  exact ⟨hmode, hfills, List.mem_append_right _ (List.mem_singleton_self _), getF_setF t R.calRotation_rowsFilled p 512⟩

theorem rotationFill_fills {s : State} {p : Nat} {f : Fill} {pl : Placement} (w : WriteReport)
    (hfill : fillOf s p false = some f) (hphase : f.phase = 1) (hplace : placeOf s p f.slot = some pl)
    (hrun : isRunning (getStall s p) = true) (hwindow : inWindow s = false)
    (hloaded : loaded s (loadKey 1 p f.slot) = true) (hpoison : s.upd.poison = []) (hsoft : s.upd.softErr = []) :
    let r := fillTile (dropLoad s (loadKey 1 p f.slot)) p f.toTile f.fromTile (levelAddr s pl) pl w
    rotationFill p w s = if r.2 = true then failTile r.1 p f.toTile 3 else fillEnded r.1 p f := by
  have hread : loftRead (dropLoad s (loadKey 1 p f.slot)) (levelAddr s pl) recordSize =
      (dropLoad s (loadKey 1 p f.slot), true) :=
    loftRead_sound (s := dropLoad s (loadKey 1 p f.slot)) hpoison hsoft _ _
  simp only [rotationFill, hfill, Option.filter_some, hphase, beq_self_eq_true, if_true, hplace, hrun, hwindow, hloaded,
    hread, Bool.not_true, Bool.or_self, Bool.false_eq_true, if_false]
  rfl

/-! ## The takeover (R234) -/

/-- The relief tile has the slot, and the former tile is the relief tile. -/
def slotTaken (s : State) (p : Nat) (f : Fill) : State :=
  modStall (moveSlot s p f.slot f.toTile) p (fun x => { x with relief := some f.fromTile })

theorem slotTaken_mode (s : State) (p : Nat) (f : Fill) : (slotTaken s p f).mode = s.mode := by
  rw [slotTaken, modStall_mode, moveSlot]
  simp only [setF_mode, modStall_mode]

theorem getStall_slotTaken (s : State) (p : Nat) (f : Fill) : getStall (slotTaken s p f) p =
    { getStall s p with live := (getStall s p).live.set f.slot f.toTile, relief := some f.fromTile } := by
  rw [slotTaken, getStall_modStall, getStall_moveSlot]

/-- The rotation is in its last phase, and its former tile trims. -/
def lastPhase (s : State) (p : Nat) (f : Fill) : State :=
  let t := setFill s { f with phase := 4, rows := [] }
  { t with cal := { t.cal with trimming := t.cal.trimming ++ [(tileIx p f.fromTile, 3)] } }

theorem lastPhase_spec (s : State) (p : Nat) (f : Fill) : (lastPhase s p f).mode = s.mode ∧
    (lastPhase s p f).stalls = s.stalls ∧ { f with phase := 4, rows := [] } ∈ (lastPhase s p f).cal.fills ∧
    (tileIx p f.fromTile, 3) ∈ (lastPhase s p f).cal.trimming :=
  ⟨setFill_mode s _, setFill_stalls s _, mem_fills_setFill s _, List.mem_append_right _ (List.mem_singleton_self _)⟩

theorem takeover_spec (s : State) (p : Nat) (f : Fill) :
    let u := settle (lastPhase (slotTaken s p f) p f) p
    u.mode = s.mode ∧ (getStall u p).live = (getStall s p).live.set f.slot f.toTile ∧
      (getStall u p).relief = some f.fromTile ∧ { f with phase := 4, rows := [] } ∈ u.cal.fills ∧
      (tileIx p f.fromTile, 3) ∈ u.cal.trimming := by
  obtain ⟨hmode, hstalls, hfills, htrimming⟩ := lastPhase_spec (slotTaken s p f) p f
  simp only [settle_mode, settle_live, settle_relief, settle_cal, getStall_congr hstalls, getStall_slotTaken, hmode,
    slotTaken_mode, true_and]
  exact ⟨hfills, htrimming⟩

theorem rotationTake_takes {s : State} {p : Nat} {f : Fill} {pl : Placement} (w : WriteReport)
    (hfill : fillOf s p false = some f) (hphase : f.phase = 3) (hplace : placeOf s p f.slot = some pl)
    (hrun : isRunning (getStall s p) = true) (hwindow : inWindow s = false) (hheld : slotHeld (getStall s p) f.slot = false)
    (hpoison : s.upd.poison = []) (hsoft : s.upd.softErr = []) :
    let r := refillRows s p f.toTile (levelAddr s pl) f.rows pl w
    rotationTake p w s = if r.2 = true then failTile r.1 p f.toTile 3 else
      settle (lastPhase (slotTaken r.1 p f) p f) p := by
  simp only [rotationTake, hfill, Option.filter_some, hphase, beq_self_eq_true, if_true, hplace, hrun, hwindow, hheld,
    rowsReadable_sound hpoison hsoft, Bool.not_true, Bool.or_self, Bool.false_eq_true, if_false, slotTaken, lastPhase]

/-- Settles O50: a rotation starts (`rotationStart_begins`), its fill ends (`fillEnded_spec`) and it takes over
(`takeover_spec`); a tile whose write fails is failed. -/
theorem rotations : Obligations.Rotations := by
  refine ⟨?start, ?fill, ?takeover⟩
  case start =>
    intro s p time slot t r hp hon hforced hrelief hcan hroom hfirst
    refine ⟨_, Fill.begun p slot t r s.now, (onStall_on (f := rotationStart p) hp hon).trans
      (congrArg _ (rotationStart_begins hforced hrelief hcan hroom hfirst)), ?_⟩
    simp only [settle_mode, settle_mem, settle_cal, getF_settle, setFill_mode, setFill_mem]
    exact ⟨rfl, rfl, mem_fills_setFill _ _, rfl, rfl, rfl, rfl, rfl, rfl,
      rowsFilled_setFill _ (f := Fill.begun p slot t r s.now) (show 1 ≠ 6 by decide)⟩
  case fill =>
    intro s p f pl w hp hon hfill hphase hplace hrun hwindow hloaded hpoison hsoft r
    have hstep : rotationFill p w s = if r.2 = true then failTile r.1 p f.toTile 3 else fillEnded r.1 p f :=
      rotationFill_fills w hfill hphase hplace hrun hwindow hloaded hpoison hsoft
    have hmode : r.1.mode = s.mode := fillTile_mode _ _ _ _ _ _ _
    clear_value r
    refine ⟨_, (onStall_on (f := rotationFill p w) hp hon).trans (congrArg _ hstep), ?_⟩
    by_cases hfails : r.2 = true
    · rw [if_pos hfails, if_pos hfails]
      exact ⟨(failTile_mode _ _ _ _).trans hmode, rfl⟩
    · rw [if_neg hfails, if_neg hfails]
      obtain ⟨hkept, hended⟩ := fillEnded_spec r.1 p f
      exact ⟨hkept.trans hmode, hended⟩
  case takeover =>
    intro s p f pl w hp hon hfill hphase hplace hrun hwindow hheld hpoison hsoft r
    have hstep : rotationTake p w s = if r.2 = true then failTile r.1 p f.toTile 3 else
        settle (lastPhase (slotTaken r.1 p f) p f) p :=
      rotationTake_takes w hfill hphase hplace hrun hwindow hheld hpoison hsoft
    have hmode : r.1.mode = s.mode := refillRows_mode _ _ _ _ _ _ _
    clear_value r
    refine ⟨_, (onStall_on (f := rotationTake p w) hp hon).trans (congrArg _ hstep), ?_⟩
    by_cases hfails : r.2 = true
    · rw [if_pos hfails, if_pos hfails]
      exact ⟨(failTile_mode _ _ _ _).trans hmode, rfl⟩
    · rw [if_neg hfails, if_neg hfails]
      obtain ⟨hkept, htook⟩ := takeover_spec r.1 p f
      exact ⟨hkept.trans hmode, htook⟩

end Sys2Proof.Machine
end

section
/-! The statement on the owner's pulls and the staged lines (R269, R297, R338), which its clause on late partials refutes. -/
namespace Sys2Proof.Machine
set_option Elab.async false
open Sys2Proof

/-! ## Two banks wait for a partial, one of them for a stall that no load admits -/

/-- The stall number, far above the 512 of R25, whose GEN.STALL idle bit would stand where PAIR.BUF.used_mib does. -/
def strayStall : Nat := (R.pairBuf_usedMib.base - R.genStall_idle.base) / 8

/-- The two fields are held under one number of the register table. -/
theorem strayStall_key : fkey R.genStall_idle strayStall = fkey R.pairBuf_usedMib 0 := by decide +kernel

/-- A second block of stall 0, on slot 1. -/
def secondBlock : Placement := { voteBlock with slot := 1, rowSeg := 1 }

/-- Two blocks that stall 0 owns: stall 1 contributes to the first, `strayStall` to the second. -/
def strayImage : Image :=
  { voteImage with placement :=
      [voteBlock, { voteBlock with stall := 1, sumOrder := 1 }, secondBlock,
        { secondBlock with stall := strayStall, sumOrder := 1 }] }

/-- The bank of the first block, handed to TOUT at time 0, its first partial not yet pulled. -/
def firstHanded : ToutOp :=
  { bank := 0, instr := 0, slot := 0, half := 0, site := 0, owner := true, order := 1, since := 0, alarmed := false, layer := 0 }

/-- The bank of the second block, handed at the same time. -/
def secondHanded : ToutOp := { firstHanded with bank := 1, slot := 1 }

/-- The page at the start of the event ring, still to be secured. -/
def ringPage : Page :=
  { group := 0, page := 0, addr := R.ctlEvtCfg_base4k.rst * 4096, buf := none, home := false, acked := false, sentAt := none }

/-- A running module, long past partial_alarm_us, whose stall 0 has handed both banks, and whose next event record falls in a
page that is being secured. -/
def strayWait : State :=
  let s := { State.reset with
    mode := .running
    board := { Board.reset with railsOn := true }
    job := { Job.reset with image := some strayImage }
    now := 2 ^ 40 }
  let s := modStall s 0 (fun t => { t with st := .awake, touts := [firstHanded, secondHanded] })
  { s with team := { s.team with pages := [ringPage] } }

/-- Both banks are handed; the second waits for a partial, and has waited too long. -/
theorem strayWait_due : strayWait.board.railsOn = true ∧ pullOps strayWait 0 = [firstHanded, secondHanded] ∧
    ((placeOf strayWait 0 secondHanded.slot).bind (fun pl => nextPull strayWait pl secondHanded)).isSome = true ∧
    secondHanded.since + 25 * getF strayWait R.genCtl_partialAlarmUs ≤ strayWait.now := by decide +kernel

/-- After the first bank's turn. -/
def firstReported : State := waitOne 0 strayWait firstHanded

theorem firstReported_once : firstReported.once = [(0x7005, firstHanded.slot)] := by decide +kernel

/-- The report of the first bank has put the ring's page into the securing buffer: `strayStall` now reads as idle, and the
second bank waits for nobody. -/
theorem firstReported_noPull :
    (placeOf firstReported 0 secondHanded.slot).bind (fun pl => nextPull firstReported pl secondHanded) = none := by
  decide +kernel

/-- A bank that waits for no partial is not reported. -/
theorem waitOne_noPull {s : State} {p : Nat} {o : ToutOp}
    (h : (placeOf s p o.slot).bind (fun pl => nextPull s pl o) = none) : waitOne p s o = s := by
  rw [waitOne, h]

/-- Only the first bank is reported. -/
theorem partialWait_strayWait : partialWait 0 strayWait = firstReported := by
  obtain ⟨-, hhanded, -⟩ := strayWait_due
  rw [partialWait, hhanded]
  exact waitOne_noPull firstReported_noPull

/-- Refutes O44: its clause on PARTIAL_WAIT judges every bank in the state before the command, while the banks are judged in
turn, each after the reports of those before it. No hypothesis keeps the image's stalls below 512, as the checks of a load do
(`placementOk`), and the report of one bank may change PAIR.BUF.used_mib, where the idle bit of `strayStall` would stand
(`strayStall_key`). In `strayWait` the second bank is due, but by its turn its contributor reads as idle, and it is not
reported. -/
theorem not_partialPulls : ¬ Obligations.PartialPulls := by
  rintro ⟨-, hwait, -⟩
  obtain ⟨hon, hhanded, hnext, hlate⟩ := strayWait_due
  obtain ⟨t, hexec, -, -, -, hreported, -⟩ := hwait strayWait 0 (by decide) hon
  have hrun : exec (.partialWait 0) strayWait = .next firstReported :=
    (onStall_on (f := partialWait 0) (show 0 < 512 by decide) hon).trans (congrArg _ partialWait_strayWait)
  obtain rfl : firstReported = t := Host.Outcome.next.inj (hrun.symm.trans hexec)
  have hsecond : (0x7005, 32 * 0 + secondHanded.slot) ∈ firstReported.once :=
    hreported secondHanded (by rw [hhanded]; decide) ⟨hnext, hlate⟩
  rw [firstReported_once] at hsecond
  exact absurd hsecond (by decide)

end Sys2Proof.Machine
end

section
/-! The statement on RSUM (R282): the tree of rounded neighbour sums. -/
namespace Sys2Proof.Machine
set_option Elab.async false
open Sys2Proof

theorem pairSums_length {l : List F32} {n : Nat} (h : l.length = 2 * n) : (pairSums l).length = n := by
  induction n generalizing l with
  | zero =>
    obtain rfl := List.eq_nil_of_length_eq_zero h
    rfl
  | succ n ih =>
    match l, h with
    | a :: b :: r, h =>
      have hr : r.length = 2 * n := by simpa [Nat.mul_succ] using h
      rw [pairSums, List.length_cons, ih hr]

theorem getD_pairSums {l : List F32} {i : Nat} (h : 2 * i + 1 < l.length) :
    (pairSums l).getD i 0 = fadd (l.getD (2 * i) 0) (l.getD (2 * i + 1) 0) := by
  induction i generalizing l with
  | zero =>
    match l, h with
    | a :: b :: r, _ => rfl
  | succ i ih =>
    match l, h with
    | a :: b :: r, h =>
      have hr : 2 * i + 1 < r.length := by
        rw [List.length_cons, List.length_cons] at h
        omega
      exact ih hr

/-- The top of a tree of `n` levels over the lanes `v 0`, each level the rounded sums of neighbours of the one before. -/
theorem treeLevels_headD {n : Nat} {l : List F32} {v : Nat → Nat → F32} (hlen : l.length = 2 ^ n)
    (hlanes : ∀ i < 2 ^ n, v 0 i = l.getD i 0)
    (hlevels : ∀ j < n, ∀ i, v (j + 1) i = fadd (v j (2 * i)) (v j (2 * i + 1))) : (treeLevels n l).headD 0 = v n 0 := by
  induction n generalizing l v with
  | zero =>
    rw [hlanes 0 (by decide)]
    cases l <;> rfl
  | succ n ih =>
    have hpow : 2 ^ (n + 1) = 2 * 2 ^ n := pow_succ' 2 n
    refine ih (v := fun j => v (j + 1)) (pairSums_length (hlen.trans hpow)) (fun i hi => ?_)
      (fun j hj => hlevels (j + 1) (Nat.succ_lt_succ hj))
    rw [hlevels 0 (Nat.succ_pos n), hlanes _ (by omega), hlanes _ (by omega), getD_pairSums (by omega)]

/-- Settles O10: every lane of RSUM is the tree's top (`treeLevels_headD`). -/
theorem laneSum : Obligations.LaneSum := by
  intro a b c lane v hlen hlanes hlevels
  have hsum : treeSum a = v 9 0 := treeLevels_headD hlen hlanes hlevels
  calc (vopLanes 18 lane a b c).map (fun x => x.out) = a.map (fun _ => treeSum a) := List.map_map
    _ = List.replicate a.length (treeSum a) := List.map_const' ..
    _ = List.replicate 512 (v 9 0) := by rw [hlen, hsum]

end Sys2Proof.Machine
end

section
/-! The statement on the instructions of the parameter registers: SETI, ADDI, LDP and STP (R284, R286). -/
namespace Sys2Proof.Machine
set_option Elab.async false
open Sys2Proof

/-! ## The parameter registers (R284) -/

@[simp] theorem preg_zero (s : State) (p : Nat) : preg s p 0 = 0 := if_pos rfl

theorem preg_congr {s t : State} (h : t.stalls = s.stalls) (p i : Nat) : preg t p i = preg s p i := by
  rw [preg, preg, getStall_congr h]

theorem preg_advance (s : State) (p q i : Nat) : preg (advance s q) p i = preg s p i := rfl

/-- A register just written reads as its value at 64 bits; register 0 takes none. -/
theorem preg_setPreg (s : State) (p i v j : Nat) :
    preg (setPreg s p i v) p j = if j = i ∧ j ≠ 0 then v % 2 ^ 64 else preg s p j := by
  by_cases hj : j = 0
  · simp [hj]
  · by_cases hi : i = 0
    · rw [setPreg, if_pos hi, if_neg (fun h => hj (h.1.trans hi))]
    · rw [setPreg, if_neg hi, preg, preg, getStall_modStall, tget_tput, if_neg hj, if_neg hj]
      simp only [hj, ne_eq, not_false_eq_true, and_true]

theorem setPreg_mem (s : State) (p i v : Nat) : (setPreg s p i v).mem = s.mem := by
  unfold setPreg
  split <;> rfl

theorem KeepsPc.setPreg {p : Nat} (s : State) (q i v : Nat) : KeepsPc p s (setPreg s q i v) :=
  .ite (.refl s) (.modStall s q _)

/-- An instruction that ends with one register written. -/
theorem setPreg_goesOn (s : State) (p i v : Nat) :
    s.goesOn (advance (setPreg (s.ended p) p i v) p) p ∧ (advance (setPreg (s.ended p) p i v) p).mem = s.mem ∧
      ∀ j, preg (advance (setPreg (s.ended p) p i v) p) p j = if j = i ∧ j ≠ 0 then v % 2 ^ 64 else preg s p j := by
  refine ⟨((KeepsPc.ended s p).trans (.setPreg _ p i v)).goesOn, setPreg_mem _ _ _ _, fun j => ?_⟩
  rw [preg_advance, preg_setPreg, preg_ended]

/-! ## Loads and stores of a register (R286, R419) -/

@[simp] theorem slotOffset_ended (s : State) (p w : Nat) : slotOffset (s.ended p) p w = slotOffset s p w := by
  simp only [slotOffset, preg_ended]

theorem readNat_lt (s : State) (a : Nat) : readNat s a 8 < 2 ^ 64 := by
  have h := leNat_lt (readBytes s a 8)
  rw [readBytes_length] at h
  exact h

theorem runLdp_loads {s : State} {p w : Nat} (hin : inStore (slotOffset s p w) 8 = true) (hsound : s.brandBad = []) :
    runLdp p s w = advance (setPreg s p (bits w 55 52) (readNat s (storeBase p + slotOffset s p w) 8)) p := by
  simp only [runLdp, hin, storeRead_sound hsound, Bool.not_true, Bool.false_eq_true, if_false]
  rfl

theorem runStp_stores {s : State} {p w : Nat} (hin : inStore (slotOffset s p w) 8 = true) (hsound : s.brandBad = []) :
    runStp p s w = advance (writeNat s (storeBase p + slotOffset s p w) 8 (preg s p (bits w 55 52))) p := by
  simp only [runStp, hin, storeParts_sound hsound, Bool.not_true, Bool.false_eq_true, if_false, if_true]

/-- Settles O36: SETI, ADDI and LDP each end with one register written (`setPreg_goesOn`); STP ends with a write of the
register's eight bytes (`readByte_write`). -/
theorem seqParameters : Obligations.SeqParameters := by
  refine ⟨fun s p w h => ?seti, fun s p w h => ?addi, fun s p w h hin hsound => ?ldp,
    fun s p w h hin hsound hpages => ?stp, preg_zero⟩
  case seti =>
    have hsmall : bits w 48 1 < 2 ^ 64 := (Nat.mod_lt _ (by decide)).trans (by decide)
    obtain ⟨hgo, hmem, hreg⟩ := setPreg_goesOn s p (bits w 55 52) (bits w 48 1)
    rw [Nat.mod_eq_of_lt hsmall] at hreg
    exact ⟨_, issue_runs h (by decide) _, hgo, hmem, hreg⟩
  case addi =>
    have hrun := issue_runs h (by decide) (runAddi p)
    rw [runAddi, preg_ended] at hrun
    obtain ⟨hgo, hmem, hreg⟩ := setPreg_goesOn s p (bits w 55 52)
      (ofSigned 64 ((preg s p (bits w 51 48) : Int) + toSigned 32 (bits w 32 1)))
    have hsmall : ofSigned 64 ((preg s p (bits w 51 48) : Int) + toSigned 32 (bits w 32 1)) < 2 ^ 64 := by
      unfold ofSigned
      omega
    rw [Nat.mod_eq_of_lt hsmall] at hreg
    exact ⟨_, hrun, hgo, hmem, hreg⟩
  case ldp =>
    have hload := runLdp_loads (s := s.ended p) (p := p) (w := w) (by rw [slotOffset_ended]; exact hin) hsound
    rw [slotOffset_ended] at hload
    obtain ⟨hgo, hmem, hreg⟩ := setPreg_goesOn s p (bits w 55 52) (readNat s (storeBase p + slotOffset s p w) 8)
    rw [Nat.mod_eq_of_lt (readNat_lt s _)] at hreg
    exact ⟨_, (issue_runs h (by decide) _).trans (congrArg _ hload), hgo, hmem, hreg⟩
  case stp =>
    have hstore := runStp_stores (s := s.ended p) (p := p) (w := w) (by rw [slotOffset_ended]; exact hin) hsound
    rw [slotOffset_ended, preg_ended] at hstore
    refine ⟨_, (issue_runs h (by decide) _).trans (congrArg _ hstore), ((KeepsPc.ended s p).trans (.write _ _ _)).goesOn,
      fun i => ?_, fun a => ?_⟩
    · rw [preg_advance, writeNat, preg_congr (write_stalls _ _ _), preg_ended]
    · have hread := readByte_write (s := s.ended p) hpages (storeBase p + slotOffset s p w)
        (leBytes 8 (preg s p (bits w 55 52))) a
      rw [leBytes_length] at hread
      exact hread

end Sys2Proof.Machine
end

section
/-! What the close of a layer leaves of the clock, the stalls' program counters and the mode: its frames leave by the mesh or a
port, or their stall stops (R321, R397, R398). -/
namespace Sys2Proof.Machine
set_option Elab.async false
open Sys2Proof

/-- From `s` to `t` the clock stands, beside what `KeepsPc` says. -/
structure KeepsTime (p : Nat) (s t : State) : Prop extends KeepsPc p s t where
  now : t.now = s.now

namespace KeepsTime
variable {p : Nat} {z s t : State}

theorem refl (s : State) : KeepsTime p s s := ⟨.refl s, rfl⟩

theorem trans (h : KeepsTime p z s) (k : KeepsTime p s t) : KeepsTime p z t :=
  ⟨h.toKeepsPc.trans k.toKeepsPc, k.now.trans h.now⟩

theorem same (hpc : KeepsPc p s t := by exact .same) (hnow : t.now = s.now := by rfl) : KeepsTime p s t := ⟨hpc, hnow⟩

theorem forEach {α : Type} {f : State → α → State} (h : ∀ s a, KeepsTime p s (f s a)) (l : List α) (s : State) :
    KeepsTime p s (forEach l f s) := by
  induction l generalizing s with
  | nil => exact refl s
  | cons a l ih => exact (h s a).trans (ih _)

theorem noRoute (s : State) (q dst : Nat) : KeepsTime p s (noRoute s q dst) :=
  ⟨(KeepsPc.stopStall s q).trans (.raise _ _ _ _ _), raise_now _ _ _ _ _⟩

theorem sendToken (s : State) (f : TokFrame) : KeepsTime p s (sendToken s f) := by
  unfold Machine.sendToken
  split
  · exact same
  · split
    · exact noRoute s _ _
    · split
      · exact noRoute s _ _
      · exact same

theorem emit (s : State) (q : Nat) (f : TokFrame) : KeepsTime p s (emit s q f) :=
  (same (t := { s with rte := { s.rte with frameSeq := _ } })).trans (sendToken _ _)

theorem closeToward (q pass l : Nat) (s : State) (m : Nat) : KeepsTime p s (closeToward q pass l s m) := by
  unfold Machine.closeToward
  extract_lets _ t
  have ht : KeepsTime p s t := same
  split
  · exact ht.trans same
  · exact ht.trans (emit _ _ _)

theorem closeLayer (s : State) (q pass l : Nat) : KeepsTime p s (closeLayer s q pass l) := forEach (closeToward q pass l) _ s

theorem closeAll (s : State) (q pass : Nat) : KeepsTime p s (closeAll s q pass) :=
  forEach (fun t l => closeLayer t q pass l) _ s

end KeepsTime

end Sys2Proof.Machine
end

section
/-! The statement on the step program's instructions of control: NOP, LAYER, LOOP, WAIT, FWD_END and END, and the passing over
of an instruction marked wg (R285 to R287, R290 to R292, R295, R321, R324). -/
namespace Sys2Proof.Machine
set_option Elab.async false
open Sys2Proof

/-! ## NOP and WAIT (R285, R287) -/

/-- NOP goes on. -/
def runNop (p : Nat) (s : State) (_ : Nat) : State := advance s p

/-- WAIT goes on once its conditions hold. -/
def runWait (p : Nat) (s : State) (w : Nat) : State := if waitOver s p w then advance s p else s

theorem exec_stepNop (p : Nat) (s : State) : exec (.stepNop p) s = issue p 0x00 s (runNop p) := rfl

theorem exec_wait (p : Nat) (s : State) : exec (.wait p) s = issue p 0x09 s (runWait p) := rfl

theorem ended_goesOn (s : State) (p : Nat) : s.goesOn (advance (s.ended p) p) p ∧ (advance (s.ended p) p).mem = s.mem ∧
    ∀ i, preg (advance (s.ended p) p) p i = preg s p i :=
  ⟨(KeepsPc.ended s p).goesOn, rfl, preg_ended s p⟩

theorem getStall_ended_ne (s : State) {p q : Nat} (h : q ≠ p) : getStall (s.ended p) q = getStall s q :=
  getStall_modStall_ne s endTops h

/-! ## LAYER (R286, R292, R324) -/

/-- A LAYER of a block that has its tokens, or that does not ask, sets the site. -/
theorem runLayer_sets {s : State} {p w : Nat} (h : ¬ (bit w 25 = true ∧ routedCount s p (bits w 55 47) = 0)) :
    runLayer p s w = advance (modStall s p (fun t =>
      { t with layer := bits w 55 47, tensor := bits w 46 43,
               expert := if bit w 42 then some (bits w 41 26) else none })) p := by
  have hidle : (bit w 25 && routedCount s p (bits w 55 47) == 0) = false := by
    rw [← Bool.not_eq_true, Bool.and_eq_true, beq_iff_eq]
    exact h
  simp only [runLayer, hidle, Bool.false_and, Bool.false_eq_true, if_false]

/-- A LAYER of a block without tokens skips to the next block, once the layer is closed. -/
theorem runLayer_idle {s : State} {p w : Nat} (hskip : bit w 25 = true) (hnone : routedCount s p (bits w 55 47) = 0) :
    runLayer p s w = if layerClosed s (bits w 55 47) then jump s p (nextBlock (programOf s p) (insAt s p)) else s := by
  simp only [runLayer, hskip, hnone, beq_self_eq_true, Bool.and_self, Bool.true_and, if_true]

theorem layer_sets {s : State} {p w : Nat} (h : s.issues p 0x03 w)
    (hgo : ¬ (bit w 25 = true ∧ routedCount s p (bits w 55 47) = 0)) :
    ∃ t, exec (.layer p) s = .next t ∧ s.goesOn t p ∧ (getStall t p).layer = bits w 55 47 ∧
      (getStall t p).tensor = bits w 46 43 ∧ (getStall t p).expert = (if bit w 42 then some (bits w 41 26) else none) ∧
      t.mem = s.mem := by
  have hrun := runLayer_sets (s := s.ended p) hgo
  refine ⟨_, (issue_runs h (by decide) _).trans (congrArg _ hrun), ((KeepsPc.ended s p).trans (.modStall _ p _)).goesOn, ?_⟩
  simp only [advance, jump, getStall_setF, getStall_modStall, true_and]
  rfl

theorem layer_idle {s : State} {p w : Nat} (h : s.issues p 0x03 w) (hskip : bit w 25 = true)
    (hnone : routedCount s p (bits w 55 47) = 0) :
    ∃ t, exec (.layer p) s = .next t ∧ t.mode = s.mode ∧ t.mem = s.mem ∧ (getStall t p).layer = (getStall s p).layer ∧
      getF t R.genStall_pc p = if layerClosed s (bits w 55 47) then nextBlock (programOf s p) (insAt s p) % 2 ^ 13
        else getF s R.genStall_pc p := by
  have hrun := (issue_runs h (by decide) _).trans (congrArg Host.Outcome.next (runLayer_idle (s := s.ended p) hskip hnone))
  have hclosed : layerClosed (s.ended p) (bits w 55 47) = layerClosed s (bits w 55 47) := rfl
  rw [hclosed] at hrun
  refine ⟨_, hrun, ?_⟩
  split
  · exact ⟨rfl, rfl, getStall_layer_ended s p, getF_setF _ _ _ _⟩
  · exact ⟨rfl, rfl, getStall_layer_ended s p, rfl⟩

/-! ## LOOP (R286) -/

theorem loop_counts {s : State} {p w : Nat} (h : s.issues p 0x08 w) :
    ∃ t, exec (.loop p) s = .next t ∧ t.mode = s.mode ∧ t.mem = s.mem ∧
      getF t R.genStall_pc p = (if preg s p (bits w 55 52) ≤ 1 then insAt s p + 1 else insAt s p - bits w 16 1) % 2 ^ 13 ∧
      ∀ i, preg t p i = if i = bits w 55 52 ∧ preg s p i ≠ 0 then (preg s p i - 1) % 2 ^ 64 else preg s p i := by
  have hrun := issue_runs h (by decide) (runLoop p)
  simp only [runLoop, preg_ended] at hrun
  refine ⟨_, hrun, ?_⟩
  by_cases hzero : preg s p (bits w 55 52) = 0
  · rw [if_pos hzero, hzero, if_pos (by decide)]
    obtain ⟨⟨hpc, hmode⟩, hmem, hreg⟩ := ended_goesOn s p
    refine ⟨hmode, hmem, hpc, fun i => ?_⟩
    rw [hreg, if_neg]
    rintro ⟨rfl, hi⟩
    exact hi hzero
  · have hkeep := (KeepsPc.ended (p := p) s p).trans (.setPreg (s.ended p) p (bits w 55 52) (preg s p (bits w 55 52) - 1))
    have hmem := setPreg_mem (s.ended p) p (bits w 55 52) (preg s p (bits w 55 52) - 1)
    have hcount : ∀ i, preg (setPreg (s.ended p) p (bits w 55 52) (preg s p (bits w 55 52) - 1)) p i =
        if i = bits w 55 52 ∧ preg s p i ≠ 0 then (preg s p i - 1) % 2 ^ 64 else preg s p i := by
      intro i
      rw [preg_setPreg, preg_ended]
      by_cases hi : i = bits w 55 52
      · subst hi
        rw [if_pos ⟨rfl, fun e => hzero (by rw [e, preg_zero])⟩, if_pos ⟨rfl, hzero⟩]
      · rw [if_neg (fun e => hi e.1), if_neg (fun e => hi e.1)]
    rw [if_neg hzero]
    generalize setPreg (s.ended p) p (bits w 55 52) (preg s p (bits w 55 52) - 1) = u at hkeep hmem hcount
    by_cases hone : preg s p (bits w 55 52) = 1
    · rw [if_pos hone, if_pos hone.le]
      obtain ⟨hpc, hmode⟩ := hkeep.goesOn
      exact ⟨hmode, hmem, hpc, hcount⟩
    · rw [if_neg hone, if_neg (by omega)]
      exact ⟨hkeep.mode, hmem, by rw [jump, getF_setF, hkeep.pc]; rfl, hcount⟩

/-! ## FWD_END and END (R290, R291, R293, R321) -/

/-- With its layers closed, a stall at FWD_END goes on in the backward half, and waits at the barrier before it. -/
theorem runFwdEnd_closed {s : State} {p w : Nat} (h : (getStall (closeAll s p 0) p).stop = false) : runFwdEnd p s w =
    if inBackward (closeAll s p 0) then advance (setF (closeAll s p 0) R.genStall_pass p 2) p
    else noteArrival (setF (closeAll s p 0) R.genStall_atFwdEnd p 1) := by
  simp only [runFwdEnd, h, Bool.false_eq_true, if_false]

theorem noteArrival_reg (s : State) : (noteArrival s).reg = s.reg := by
  unfold noteArrival
  split <;> rfl

theorem noteArrival_mode (s : State) : (noteArrival s).mode = s.mode := by
  unfold noteArrival
  split <;> rfl

theorem fwdEnd_ends {s : State} {p w : Nat} (h : s.issues p 0x01 w)
    (hstop : (getStall (closeAll (s.ended p) p 0) p).stop = false) :
    ∃ t, exec (.fwdEnd p) s = .next t ∧ t.mode = s.mode ∧
      if inBackward (closeAll (s.ended p) p 0) = true then s.goesOn t p ∧ getF t R.genStall_pass p = 2
      else getF t R.genStall_atFwdEnd p = 1 ∧ getF t R.genStall_pc p = insAt s p := by
  have hclosed : KeepsPc p s (closeAll (s.ended p) p 0) :=
    (KeepsPc.ended s p).trans (KeepsTime.closeAll (s.ended p) p 0).toKeepsPc
  refine ⟨_, (issue_runs h (by decide) _).trans (congrArg _ (runFwdEnd_closed hstop)), ?_⟩
  generalize closeAll (s.ended p) p 0 = c at hclosed
  split
  · have hgo := (hclosed.trans (.setF (f := R.genStall_pass) (by decide) c p 2)).goesOn
    refine ⟨hgo.2, hgo, ?_⟩
    rw [advance, jump, getF_setF_ne _ _ (fkey_ne_of_lo (by decide) p p), getF_setF]
    rfl
  · refine ⟨(noteArrival_mode _).trans hclosed.mode, ?_, ?_⟩
    · rw [getF_congr (noteArrival_reg _), getF_setF]
      rfl
    · rw [getF_congr (noteArrival_reg _), getF_setF_ne _ _ (fkey_ne_of_lo (by decide) p p)]
      exact hclosed.pc

theorem runEnd_over {s : State} {p w : Nat} (hdone : asyncDone s p = true) (hcombines : (getStall s p).combines = [])
    (hstop : (getStall (closeAll s p 1) p).stop = false) : runEnd p s w =
      modStall (setF (closeAll s p 1) R.genStall_pass p 3) p (fun t => { t with idleSince := (closeAll s p 1).now }) := by
  simp only [runEnd, hdone, hcombines, hstop, List.isEmpty_nil, Bool.not_true, Bool.false_eq_true, or_self, if_false]

theorem endProgram_ends {s : State} {p w : Nat} (h : s.issues p 0x02 w) (hdone : asyncDone (s.ended p) p = true)
    (hcombines : (getStall s p).combines = []) (hstop : (getStall (closeAll (s.ended p) p 1) p).stop = false) :
    ∃ t, exec (.endProgram p) s = .next t ∧ t.mode = s.mode ∧ getF t R.genStall_pass p = 3 ∧
      (getStall t p).idleSince = s.now := by
  have hclosed := KeepsTime.closeAll (p := p) (s.ended p) p 1
  have hrun := runEnd_over (w := w) hdone (by rw [getStall_ended]; exact hcombines) hstop
  refine ⟨_, (issue_runs h (by decide) _).trans (congrArg _ hrun), hclosed.mode, ?_, ?_⟩
  · rw [getF_modStall, getF_setF]
    rfl
  · rw [getStall_modStall]
    exact hclosed.now

/-! ## Instructions marked wg (R295) -/

/-- The state in which an instruction has its effect: that of a TOP is the stall's own. -/
def issueState (s : State) (p op : Nat) : State := if op = 0x10 then s else s.ended p

theorem issueState_keeps (s : State) (p op : Nat) : KeepsPc p s (issueState s p op) ∧
    (issueState s p op).mem = s.mem ∧ (∀ i, preg (issueState s p op) p i = preg s p i) ∧
    (∀ i, vreg (issueState s p op) p i = vreg s p i) ∧ (issueState s p op).reg = s.reg ∧
    (getStall (issueState s p op) p).layer = (getStall s p).layer := by
  unfold issueState
  split
  · exact ⟨.refl s, rfl, fun _ => rfl, fun _ => rfl, rfl, rfl⟩
  · exact ⟨.ended s p, rfl, preg_ended s p, vreg_ended s p, rfl, getStall_layer_ended s p⟩

/-- A wg instruction of a frozen layer is passed over, and counted. -/
theorem issue_skips {s : State} {p op w : Nat} (hp : p < 512) (hon : s.board.railsOn = true) (hcan : canIssue s p = true)
    (hword : (programOf s p)[insAt s p]? = some w) (hop : insOp w = op) (hwg : bit w 0 = true)
    (hfrozen : frozenLayer s (getStall s p).layer = true) (run : State → Nat → State) :
    issue p op s run = .next (advance (bumpF (issueState s p op) R.genCount_skipped p 1) p) := by
  obtain ⟨-, -, -, -, -, hlayer⟩ := issueState_keeps s p op
  have hskip : (bit w 0 && frozenLayer (issueState s p op) (getStall (issueState s p op) p).layer) = true := by
    have himage : ∀ l, frozenLayer (issueState s p op) l = frozenLayer s l := by
      intro l
      unfold issueState
      split <;> rfl
    rw [hwg, hlayer, himage, hfrozen]
    rfl
  rw [issue, onStall_on hp hon]
  simp only [issueState, State.ended] at hskip ⊢
  simp only [hcan, hword, hop, hskip, Bool.not_true, Bool.false_eq_true, ne_eq, not_true_eq_false, if_false, if_true]

/-- Every row of the step program goes through issue, under its own opcode. -/
theorem exec_stepRows {p : Nat} {x : Nat × Instr} (hx : x ∈ stepRows p) (s : State) :
    ∃ run, exec x.2 s = issue p x.1 s run := by
  unfold stepRows at hx
  fin_cases hx
  · exact ⟨_, exec_stepNop p s⟩
  iterate 8 exact ⟨_, rfl⟩
  · exact ⟨_, exec_wait p s⟩
  all_goals exact ⟨_, rfl⟩

theorem wg_skips {s : State} {p w : Nat} {x : Nat × Instr} (hp : p < 512) (hon : s.board.railsOn = true)
    (hcan : canIssue s p = true) (hword : (programOf s p)[insAt s p]? = some w) (hwg : bit w 0 = true)
    (hfrozen : frozenLayer s (getStall s p).layer = true) (hx : x ∈ stepRows p) (hop : x.1 = insOp w) :
    ∃ t, exec x.2 s = .next t ∧ s.goesOn t p ∧ t.mem = s.mem ∧ (∀ i, preg t p i = preg s p i) ∧
      (∀ i, vreg t p i = vreg s p i) ∧ getF t R.genCount_skipped p = min 0xFFFF (getF s R.genCount_skipped p + 1) := by
  obtain ⟨run, hexec⟩ := exec_stepRows hx s
  obtain ⟨hpc, hmem, hpreg, hvreg, hreg, -⟩ := issueState_keeps s p x.1
  refine ⟨_, hexec.trans (issue_skips hp hon hcan hword hop.symm hwg hfrozen run),
    (hpc.trans (.bumpF (f := R.genCount_skipped) (by decide) _ p 1)).goesOn, hmem, hpreg, hvreg, ?_⟩
  rw [advance, jump, getF_setF_ne _ _ (fkey_ne_of_lo (by decide) p p), getF_bumpF, getF_congr hreg]
  rfl

/-- Settles O35: NOP and WAIT by `ended_goesOn`, LAYER by `layer_sets` and `layer_idle`, LOOP by `loop_counts`, FWD_END by
`fwdEnd_ends`, END by `endProgram_ends`, and what a frozen layer passes over by `wg_skips`. -/
theorem seqControl : Obligations.SeqControl := by
  refine ⟨fun s p w h => ?nop, fun s p w h hgo => layer_sets h hgo, fun s p w h hskip hnone hclosed => ?skip,
    fun s p w h hskip hnone hopen => ?held, fun s p w h => loop_counts h, fun s p w h hover => ?passes,
    fun s p w h hover => ?waits, fun s p w h hstop => fwdEnd_ends h hstop,
    fun s p w h hdone hcombines hstop => endProgram_ends h hdone hcombines hstop,
    fun s p w x hp hon hcan hword hwg hfrozen hx hop => wg_skips hp hon hcan hword hwg hfrozen hx hop⟩
  case nop =>
    obtain ⟨hgo, hmem, hreg⟩ := ended_goesOn s p
    exact ⟨_, issue_runs h (by decide) (runNop p), hgo, hmem, hreg, fun q hq => getStall_ended_ne s hq⟩
  case skip =>
    obtain ⟨t, hexec, hmode, hmem, hlayer, hpc⟩ := layer_idle h hskip hnone
    exact ⟨t, hexec, hmode, hmem, hlayer, hpc.trans (if_pos hclosed)⟩
  case held =>
    obtain ⟨t, hexec, hmode, hmem, hlayer, hpc⟩ := layer_idle h hskip hnone
    exact ⟨t, hexec, hpc.trans (if_neg (Bool.not_eq_true _ ▸ hopen)), hmem, hmode, hlayer⟩
  case passes =>
    exact ⟨_, (issue_runs h (by decide) (runWait p)).trans (congrArg _ (if_pos hover)), ended_goesOn s p⟩
  case waits =>
    have hwait : ¬ waitOver (s.ended p) p w = true := by rw [hover]; exact Bool.false_ne_true
    exact ⟨_, (issue_runs h (by decide) (runWait p)).trans (congrArg _ (if_neg hwait)), rfl, rfl, rfl⟩

end Sys2Proof.Machine
end

section
/-! The statement on a matrix product's end (R276 to R280, R423): what stops it, and the tiles that are written or held. -/
namespace Sys2Proof.Machine
set_option Elab.async false
open Sys2Proof

/-! ## Reads of sound lines (R419) -/

theorem linesRead_sound {s : State} (h : s.brandBad = []) (p : Nat) (o : MMOp) : linesRead s p o = (s, true) := by
  unfold linesRead
  extract_lets lines
  clear_value lines
  induction lines with
  | nil => rfl
  | cons l lines ih =>
    rw [List.foldl_cons, checkBrands_sound h]
    exact ih

/-! ## A product that stops (R269, R277) -/

theorem KeepsStalls.badBits (s : State) (b : BadVal) : KeepsStalls s (badBits s b).1 := by
  unfold Machine.badBits
  split
  iterate 3 exact refl s
  split
  · exact refl s
  · exact same

/-- What keeps the stalls of a state but for the stop of one stops that one. -/
theorem KeepsStalls.stops {z s t : State} {p : Nat} (h : KeepsStalls z s) (k : KeepsStalls (halted s p) t) :
    t.mode = z.mode ∧ (Machine.getStall t p).stop = true :=
  ⟨k.mode.trans h.mode, by rw [k.getStall, getStall_halted]⟩

theorem macTrap_stops (s : State) (p : Nat) (o : MMOp) (x : Nat × Nat × F32) :
    (macTrap s p o x).mode = s.mode ∧ (getStall (macTrap s p o x) p).stop = true :=
  (KeepsStalls.trapBits s x.2.2).stops (trapShown_stops _ p _ _ _ _ _ _ _ _ _)

theorem stopMm_stops (s : State) (p : Nat) (o : MMOp) (x : MacStop) :
    (stopMm s p o x).mode = s.mode ∧ (getStall (stopMm s p o x) p).stop = true := by
  cases x with
  | decode k operand j v => exact (KeepsStalls.badBits s v).stops (trapShown_stops _ p _ _ _ _ _ _ _ _ _)
  | acc m n v => exact macTrap_stops s p o (m, n, v)

/-! ## Tiles that are written, and tiles that are held (R279, R423) -/

theorem KeepsStalls.writeTile (s : State) (p : Nat) (o : MMOp) (l : List (Nat × Nat × List F32)) :
    KeepsStalls s (writeTile s p o l) := forEach (fun t _ => write t _ _) l s

/-- A held tile waits as one more vote; the queue stands. -/
theorem holdTile_holds (p : Nat) (o : MMOp) (v : MacOut) (s : State) (x : Nat × Nat × List Nat) :
    (holdTile p o v s x).mode = s.mode ∧ (getStall (holdTile p o v s x) p).mmq = (getStall s p).mmq ∧
      (getStall (holdTile p o v s x) p).geVotes.length = (getStall s p).geVotes.length + 1 := by
  unfold holdTile
  extract_lets t first g a b
  have hb : KeepsStalls a b := .ite (.setF a _ _ _) (.refl a)
  have hend := hb.trans (.raise b 0xC004 (cStall p) (o.instr * 2 ^ 16 + x.2.2.length) (tileNo o x.1 x.2.1))
  refine ⟨hend.mode, ?_, ?_⟩
  · rw [hend.getStall, getStall_modStall]
  · rw [hend.getStall, getStall_modStall]
    exact List.length_append

theorem forEach_holdTile (p : Nat) (o : MMOp) (v : MacOut) (l : List (Nat × Nat × List Nat)) (s : State) :
    (forEach l (holdTile p o v) s).mode = s.mode ∧ (getStall (forEach l (holdTile p o v) s) p).mmq = (getStall s p).mmq ∧
      (getStall (forEach l (holdTile p o v) s) p).geVotes.length = (getStall s p).geVotes.length + l.length := by
  induction l generalizing s with
  | nil => exact ⟨rfl, rfl, rfl⟩
  | cons x l ih =>
    obtain ⟨hmode, hmmq, hvotes⟩ := holdTile_holds p o v s x
    obtain ⟨hmode', hmmq', hvotes'⟩ := ih (holdTile p o v s x)
    refine ⟨hmode'.trans hmode, hmmq'.trans hmmq, ?_⟩
    rw [List.length_cons, forEach, List.foldl_cons]
    exact hvotes'.trans (by omega)

/-- The failing tiles of a product, with their failing columns. -/
def heldTiles (s : State) (o : MMOp) (v : MacOut) : List (Nat × Nat × List Nat) :=
  (mmTiles o).filterMap (fun x =>
    let c := tileFails s o v x.1 x.2
    if c.isEmpty then none else some (x.1, x.2, c))

/-- The tiles with a column past its bound. -/
def failingTiles (s : State) (o : MMOp) (v : MacOut) : List (Nat × Nat) :=
  (mmTiles o).filter (fun x => !(tileFails s o v x.1 x.2).isEmpty)

/-- The tiles with every column within its bound. -/
def passingTiles (s : State) (o : MMOp) (v : MacOut) : List (Nat × Nat) :=
  (mmTiles o).filter (fun x => (tileFails s o v x.1 x.2).isEmpty)

theorem heldTiles_eq_map (s : State) (o : MMOp) (v : MacOut) :
    heldTiles s o v = (failingTiles s o v).map (fun x => (x.1, x.2, tileFails s o v x.1 x.2)) := by
  unfold heldTiles failingTiles
  induction mmTiles o with
  | nil => rfl
  | cons x l ih =>
    rw [List.filterMap_cons, List.filter_cons, ih]
    dsimp only
    cases (tileFails s o v x.1 x.2).isEmpty <;> rfl

/-- A tile of the product is written where it is not held. -/
theorem filter_not_held (s : State) (o : MMOp) (v : MacOut) :
    (mmTiles o).filter (fun x => !(heldTiles s o v).any (fun h => h.1 == x.1 && h.2.1 == x.2)) = passingTiles s o v := by
  refine List.filter_congr (fun x hx => ?_)
  rw [heldTiles_eq_map, Bool.eq_iff_iff, Bool.not_eq_true', Bool.eq_false_iff, ne_eq, List.any_eq_true]
  simp only [failingTiles, List.mem_map, List.mem_filter, Bool.and_eq_true, beq_iff_eq]
  constructor
  · intro h
    by_contra hbad
    exact h ⟨_, ⟨x, ⟨hx, by simpa using hbad⟩, rfl⟩, rfl, rfl⟩
  · rintro hgood ⟨_, ⟨y, ⟨-, hbad⟩, rfl⟩, h1, h2⟩
    obtain rfl : y = x := Prod.ext h1 h2
    rw [hgood] at hbad
    exact Bool.false_ne_true hbad

/-- The rows that the tiles within their bounds leave in the destination. -/
def passingRows (s : State) (p : Nat) (o : MMOp) (v : MacOut) : List (Nat × Nat × List F32) :=
  (passingTiles s o v).flatMap (fun x => tileRows s p o x.1 x.2 (tileAt v.acc x.1 x.2) (tileAt v.accI x.1 x.2))

/-- The end of a product that reads sound lines, with its cycles counted in `u`. -/
theorem endMm_sound {s : State} (h : s.brandBad = []) (p : Nat) (o : MMOp) (faults : List MacFault) :
    endMm s p o faults =
      let u := bumpF s R.genCount_mmCycles p (mmCycles o (getStall s p).moved)
      match formAcc u p o faults with
      | .error x => stopMm u p o x
      | .ok v =>
        match badDest o (passingRows u p o v) with
        | some x => macTrap u p o x
        | none =>
          if (heldTiles u o v).isEmpty then dropMm (writeTile u p o (passingRows u p o v)) p
          else forEach (heldTiles u o v) (holdTile p o v) (writeTile u p o (passingRows u p o v)) := by
  rw [endMm, linesRead_sound h]
  simp only [Bool.not_true, Bool.false_eq_true, if_false]
  cases formAcc (bumpF s R.genCount_mmCycles p (mmCycles o (getStall s p).moved)) p o faults with
  | error x => rfl
  | ok v =>
    have hgood := filter_not_held (bumpF s R.genCount_mmCycles p (mmCycles o (getStall s p).moved)) o v
    simp only [passingRows, ← hgood]
    rfl

theorem dropMm_mmq (s : State) (p : Nat) : (getStall (dropMm s p) p).mmq = (getStall s p).mmq.drop 1 := by
  rw [dropMm, getStall_modStall]

theorem mmComplete_endMm {s : State} {p : Nat} {o : MMOp} {l : List MMOp} (hq : (getStall s p).mmq = o :: l)
    (hwork : working s p = true) (hvotes : (getStall s p).geVotes = []) (hkind : o.kind ≠ 4) (faults : List MacFault) :
    mmComplete p faults s = endMm s p o faults := by
  simp [mmComplete, hq, hwork, hvotes, hkind]

/-- Settles O42: a product that cannot be formed, or whose result is no number, stops its stall (`stopMm_stops`,
`macTrap_stops`); else its good tiles are written, and it leaves the queue or waits for its votes (`forEach_holdTile`). -/
theorem productDone : Obligations.ProductDone := by
  intro s p o l faults hp hon hq hwork hvotes hkind hsound u
  have hu : KeepsStalls s u := .bumpF s _ _ _
  refine ⟨_, (onStall_on hp hon).trans
    (congrArg _ ((mmComplete_endMm hq hwork hvotes hkind faults).trans (endMm_sound hsound p o faults))), ?_⟩
  simp only [show bumpF s R.genCount_mmCycles p (mmCycles o (getStall s p).moved) = u from rfl]
  clear_value u
  cases formAcc u p o faults with
  | error x =>
    obtain ⟨hmode, hstop⟩ := stopMm_stops u p o x
    exact ⟨hmode.trans hu.mode, hstop⟩
  | ok v =>
    have hw : KeepsStalls s (writeTile u p o (passingRows u p o v)) := hu.trans (.writeTile u p o _)
    have hheld := heldTiles_eq_map u o v
    simp only [show (mmTiles o).filter (fun x => !(tileFails u o v x.1 x.2).isEmpty) = failingTiles u o v from rfl,
      show ((mmTiles o).filter (fun x => (tileFails u o v x.1 x.2).isEmpty)).flatMap
        (fun x => tileRows u p o x.1 x.2 (tileAt v.acc x.1 x.2) (tileAt v.accI x.1 x.2)) = passingRows u p o v from rfl]
    cases hdest : badDest o (passingRows u p o v) with
    | some x =>
      obtain ⟨hmode, hstop⟩ := macTrap_stops u p o x
      exact ⟨hmode.trans hu.mode, hstop⟩
    | none =>
      simp only [ne_eq, not_true_eq_false, if_false]
      by_cases hbad : failingTiles u o v = []
      · rw [hheld, hbad]
        simp only [List.map_nil, List.isEmpty_nil, if_true]
        exact ⟨hw.mode, by rw [dropMm_mmq, hw.getStall, hq]; rfl, rfl⟩
      · have hne : (heldTiles u o v).isEmpty = false := by rw [hheld]; simpa using hbad
        obtain ⟨hmode, hmmq, hlen⟩ := forEach_holdTile p o v (heldTiles u o v) (writeTile u p o (passingRows u p o v))
        rw [hne, if_neg Bool.false_ne_true, if_neg hbad]
        refine ⟨hmode.trans hw.mode, ?_, hmmq.trans (by rw [hw.getStall, hq])⟩
        rw [hlen, hw.getStall, hvotes, hheld, List.length_map]
        exact Nat.zero_add _

end Sys2Proof.Machine
end

section
/-! What a write, an event and a corrected line leave of the update chips and the loft (R341, R417, R450): lines are healed, and
nothing else changes. -/
namespace Sys2Proof.Machine
set_option Elab.async false
open Sys2Proof

/-- From `s` to `t` no line is poisoned anew, and beside the lines' errors the chips and the loft stand. -/
structure OnlyHeals (s t : State) : Prop where
  upd : t.upd = { s.upd with poison := t.upd.poison, softErr := t.upd.softErr }
  poison : s.upd.poison = [] → t.upd.poison = []

namespace OnlyHeals
variable {z s t : State}

theorem refl (s : State) : OnlyHeals s s := ⟨rfl, id⟩

theorem trans (h : OnlyHeals z s) (k : OnlyHeals s t) : OnlyHeals z t :=
  ⟨by rw [k.upd, h.upd], fun e => k.poison (h.poison e)⟩

theorem same (h : t.upd = s.upd := by rfl) : OnlyHeals s t := ⟨by rw [h], by rw [h]; exact id⟩

theorem chips (h : OnlyHeals s t) : t.upd.chips = s.upd.chips := by rw [h.upd]

theorem startTick (h : OnlyHeals s t) : t.upd.startTick = s.upd.startTick := by rw [h.upd]

theorem ite {c : Prop} [Decidable c] {a b : State} (ha : OnlyHeals s a) (hb : OnlyHeals s b) :
    OnlyHeals s (if c then a else b) := by
  split
  · exact ha
  · exact hb

theorem forEach {α : Type} {f : State → α → State} (h : ∀ s a, OnlyHeals s (f s a)) (l : List α) (s : State) :
    OnlyHeals s (forEach l f s) := by
  induction l generalizing s with
  | nil => exact refl s
  | cons a l ih => exact (h s a).trans (ih _)

theorem setF (s : State) (f : Field) (u v : Nat) : OnlyHeals s (setF s f u v) := same

theorem unpoison (s : State) (a n : Nat) : OnlyHeals s (unpoison s a n) := by
  refine ⟨rfl, fun e => ?_⟩
  show s.upd.poison.filter _ = []
  rw [e]
  rfl

theorem quietWrite (s : State) (a : Nat) (b : Bytes) : OnlyHeals s (quietWrite s a b) :=
  (same (t := Machine.rebrand { s with mem := putBytes s.mem a b } a b.length)).trans (unpoison _ _ _)

theorem quietCopy (s : State) (a b n : Nat) : OnlyHeals s (quietCopy s a b n) :=
  (same (t := Machine.rebrand { s with mem := copySpan s.mem a b n } b n)).trans (unpoison _ _ _)

theorem sendPage (s : State) (src step group page : Nat) : OnlyHeals s (sendPage s src step group page) :=
  forEach (fun _ _ => same) _ s

theorem streamPage (s : State) (p : Page) : OnlyHeals s (streamPage s p) := by
  unfold Machine.streamPage
  extract_lets n base j src a b c d e
  have hc : OnlyHeals s c := ((quietCopy s _ _ _).trans (quietWrite _ _ _)).trans (quietWrite _ _ _)
  have hd : OnlyHeals s d := hc.trans (setF _ _ _ _)
  have he : OnlyHeals s e := hd.trans (ite (sendPage d _ _ _ _) (refl d))
  exact he.trans same

theorem protect (s : State) (a n : Nat) : OnlyHeals s (protect s a n) := by
  refine forEach (fun t p => ?_) _ s
  unfold protectPage
  split
  · exact (quietCopy t _ _ _).trans same
  · exact streamPage t p

theorem write (s : State) (a : Nat) (b : Bytes) : OnlyHeals s (write s a b) :=
  ((protect s a b.length).trans (quietWrite _ a b)).trans same

theorem raise (s : State) (code coord d0 d1 : Nat) : OnlyHeals s (raise s code coord d0 d1) := by
  rcases raise_cases s code coord d0 d1 with e | ⟨-, r, e⟩ | ⟨-, r, e⟩ <;> rw [e]
  · exact refl s
  · unfold logEvent
    exact ite same same
  · unfold ringEvent
    exact ite same ((write _ _ _).trans same)

theorem raiseOnce (s : State) (code unit coord d0 d1 : Nat) : OnlyHeals s (raiseOnce s code unit coord d0 d1) :=
  ite (refl s) ((same (t := { s with once := (code, unit) :: s.once })).trans (raise _ _ _ _ _))

end OnlyHeals

end Sys2Proof.Machine
end

section
/-! The start of the update leaves the pass, the phase and its own start as they are shown, while no loft line is poisoned
(R293, R348, R349, R358, R360). -/
namespace Sys2Proof.Machine
set_option Elab.async false
open Sys2Proof

/-- What shows the pass of the module and the phase of the update. -/
def updateKeys : List Nat := [fkey R.genPass_pass 0, fkey R.updStatus_phase 0]

/-- From `z` to `t` the mode, the pass, the phase and the start of the update stand, and no line is poisoned. -/
structure InUpdate (z t : State) : Prop where
  mode : t.mode = z.mode
  keys : KeepsKeys updateKeys z t
  startTick : t.upd.startTick = z.upd.startTick
  poison : t.upd.poison = []

namespace InUpdate
variable {z s t : State}

theorem start (h : s.upd.poison = []) : InUpdate s s := ⟨rfl, .refl s, rfl, h⟩

theorem same (h : InUpdate z s) (hm : t.mode = s.mode := by rfl) (hr : t.reg = s.reg := by rfl)
    (hs : t.upd.startTick = s.upd.startTick := by rfl) (hp : t.upd.poison = s.upd.poison := by rfl) : InUpdate z t :=
  ⟨hm.trans h.mode, h.keys.trans (.same hr), hs.trans h.startTick, hp.trans h.poison⟩

theorem setF (h : InUpdate z s) {f : Field} {u : Nat} (hf : fkey f u ∉ updateKeys) (v : Nat) : InUpdate z (setF s f u v) :=
  ⟨h.mode, h.keys.trans (.setF hf s v), h.startTick, h.poison⟩

theorem setUnit (h : InUpdate z s) {f : Field} (hf : f.apartFrom updateKeys = true) (u v : Nat) :
    InUpdate z (Machine.setF s f u v) := h.setF (fkey_of_apartFrom hf u) v

theorem setFs (h : InUpdate z s) {l : List (Field × Nat)} (hl : ∀ f ∈ l.map Prod.fst, fkey f 0 ∉ updateKeys) :
    InUpdate z (setFs s l) := by
  induction l generalizing s with
  | nil => exact h
  | cons x l ih =>
    obtain ⟨hx, hl⟩ := List.forall_mem_cons.mp hl
    exact ih (h.setF hx x.2) hl

theorem ite {c : Prop} [Decidable c] {a b : State} (ha : InUpdate z a) (hb : InUpdate z b) :
    InUpdate z (if c then a else b) := by
  split
  · exact ha
  · exact hb

theorem forEach {α : Type} {f : State → α → State} (hf : ∀ s a, InUpdate z s → InUpdate z (f s a)) (h : InUpdate z s)
    (l : List α) : InUpdate z (forEach l f s) := by
  induction l generalizing s with
  | nil => exact h
  | cons a l ih => exact ih (hf s a h)

/-- A write or an event. -/
theorem ofHeals (h : InUpdate z s) (k : OnlyHeals s t) (hm : t.mode = s.mode) (hr : KeepsReg s t) : InUpdate z t :=
  ⟨hm.trans h.mode, h.keys.trans (.ofReg hr (by decide)), k.startTick.trans h.startTick, k.poison h.poison⟩

theorem write (h : InUpdate z s) (a : Nat) (b : Bytes) : InUpdate z (write s a b) :=
  h.ofHeals (.write s a b) (write_mode s a b) (.write s a b)

theorem raise (h : InUpdate z s) (code coord d0 d1 : Nat) : InUpdate z (raise s code coord d0 d1) :=
  h.ofHeals (.raise s _ _ _ _) (raise_mode s _ _ _ _) (.raise s _ _ _ _)

theorem raiseOnce (h : InUpdate z s) (code unit coord d0 d1 : Nat) : InUpdate z (raiseOnce s code unit coord d0 d1) :=
  ite h ((h.same (t := { s with once := (code, unit) :: s.once })).raise _ _ _ _)

theorem setChip (h : InUpdate z s) (c : Nat) (x : Chip) : InUpdate z (setChip s c x) := h.same

/-! ## Reads of the loft and faults of a chip (R341, R360) -/

theorem noteCorrected (h : InUpdate z s) (l : Nat) : InUpdate z (noteCorrected s l) := by
  unfold Machine.noteCorrected
  extract_lets c t due
  have ht : InUpdate z t := h.setUnit (by decide) _ _
  exact ite (ht.same.raise _ _ _ _) ht

/-- With no line poisoned, a read notes corrected lines at most. -/
theorem loftRead (h : InUpdate z s) (a n : Nat) : InUpdate z (loftRead s a n).1 := by
  have hnone : poisoned s a n = [] := by rw [poisoned, h.poison]; rfl
  unfold Machine.loftRead
  rw [hnone]
  exact h.forEach (fun _ l ht => ht.noteCorrected l) _

theorem unitRead (h : InUpdate z s) (c : Nat) (u : UpdUnit) (a n w first : Nat) :
    InUpdate z (unitRead s c u a n w first).1 := by
  have hnone : poisoned s a n = [] := by rw [poisoned, h.poison]; rfl
  have hgood : (Machine.loftRead s a n).2 = true := by rw [Machine.loftRead, hnone]; rfl
  unfold Machine.unitRead
  simp only [hgood, if_true]
  exact h.loftRead a n

theorem showDeferred (h : InUpdate z s) : InUpdate z (showDeferred s) := ite h (h.raiseOnce _ _ _ _ _)

/-- A fault that loses no state of the loft holds the gate window alone. -/
theorem faultChip (h : InUpdate z s) (c cause prog slot value element : Nat) (hcause : ¬ (cause = 4 ∨ cause = 5)) :
    InUpdate z (faultChip s c cause prog slot value element) := by
  unfold Machine.faultChip
  rw [if_neg hcause]
  have hset : InUpdate z (Machine.setF (Machine.setChip s c
      { getChip s c with faulted := true, active := false, unit := none, units := [] }) R.updChip_state c 5) :=
    (h.setChip _ _).setUnit (by decide) _ _
  have hshow := (hset.setFs (l := [(R.updFaultA_valid, 1), (R.updFaultA_cause, cause), (R.updFaultA_chip, c),
    (R.updFaultA_program, prog), (R.updFaultA_slot, slot), (R.updFaultA_value, value), (R.updFaultB_element, element),
    (R.updStatus_fault, 1)]) (by simp only [List.map_cons, List.map_nil]; decide)).showDeferred
  exact (hshow.same (t := holdGate _)).raise _ _ _ _

/-! ## Touch lists (R348, R349) -/

theorem touchRow (h : InUpdate z s) (c k : Nat) (t : LoftTensor) (row : Nat) (vals : List F32) :
    InUpdate z (touchRow s c k t row vals) := by
  unfold Machine.touchRow
  extract_lets prog ei st ca n u
  have hread := h.unitRead c u ca 16 16 0
  split
  · next e => rwa [e] at hread
  · next r b e =>
    rw [e] at hread
    refine ite ?_ ((hread.write _ _).write _ _)
    have hstage := hread.unitRead c u st (4 * t.rowLen) 4 0
    split
    · next e => rwa [e] at hstage
    · next e =>
      rw [e] at hstage
      exact hstage.write _ _

theorem touchGo {c base size bytes : Nat} (n off : Nat) (h : InUpdate z s)
    (e : Machine.touchGo c base size bytes n off s = some t) : InUpdate z t := by
  induction n generalizing off s with
  | zero =>
    rw [Machine.touchGo] at e
    split at e
    · obtain rfl := Option.some.inj e
      exact h
    · cases e
  | succ n ih =>
    have hrest : ∀ {v : State} (k : Nat), InUpdate z v →
        (if (getChip v c).faulted then some v else Machine.touchGo c base size bytes n k v) = some t → InUpdate z t := by
      intro v k hv e
      split at e
      · obtain rfl := Option.some.inj e
        exact hv
      · exact ih k hv e
    unfold Machine.touchGo at e
    split at e
    · cases e
    · dsimp only at e
      split at e
      · cases e
      · split at e
        · cases e
        · exact hrest _ (ite (h.touchRow _ _ _ _ _) h) e

theorem touchLists (h : InUpdate z s) (c : Nat) (l : List Nat) : InUpdate z (touchLists c l s) := by
  induction l generalizing s with
  | nil => exact h
  | cons p l ih =>
    unfold Machine.touchLists
    dsimp only
    refine ite (ih h) ?_
    split
    · next t e =>
      have ht : InUpdate z t := by
        split at e
        · cases e
        · exact touchGo _ _ h e
      exact ite ht (ih ht)
    · exact h.faultChip _ _ _ _ _ _ (by decide)

/-! ## The chips start (R358) -/

theorem startChip (h : InUpdate z s) (c : Nat) : InUpdate z (startChip s c) := by
  unfold Machine.startChip
  extract_lets x a b d
  have ha : InUpdate z a := (h.setUnit (by decide) _ _).setUnit (by decide) _ _
  have hb : InUpdate z b := ha.setChip _ _
  have hd : InUpdate z d := ite (hb.touchLists _ _) hb
  exact ite h (ite hd (hd.setChip _ _))

theorem nextUnit (h : InUpdate z s) (c : Nat) : InUpdate z (nextUnit s c) := by
  unfold Machine.nextUnit
  dsimp only
  split
  · exact h.setChip _ _
  · next u r _ =>
    refine ite (h.setChip _ _) ?_
    have hread := (h.setChip c { getChip s c with
      units := r, unit := some u, vec := none, uregs := [], planes := [], ctx := none, stores := [],
      crossings := [], clamped := 0 }).unitRead c u (unitCount s u) 16 16 0
    split
    · next e => rwa [e] at hread
    · next e =>
      rw [e] at hread
      exact ite (hread.faultChip _ _ _ _ _ _ (by decide)) ((hread.setUnit (by decide) _ _).setChip _ _)

end InUpdate

/-- The start of the update shows its phase and keeps its start, with the mode and the pass as they were. -/
theorem startUpdate_starts {s : State} (h : s.upd.poison = []) : (startUpdate s).mode = s.mode ∧
    getF (startUpdate s) R.genPass_pass = getF s R.genPass_pass ∧ getF (startUpdate s) R.updStatus_phase = 2 ∧
    (startUpdate s).upd.startTick = s.now := by
  unfold startUpdate
  extract_lets _ a b count
  have ha : a.mode = s.mode ∧ getF a R.genPass_pass = getF s R.genPass_pass ∧ getF a R.updStatus_phase = 2 ∧
      a.upd.startTick = s.now ∧ a.upd.poison = [] := by
    refine ⟨rfl, getF_setFs_ne _ _ ?_, getF_setFs _ [] _ _ _ ?_, rfl, h⟩
    · simp only [List.forall_mem_cons]
      decide
    · simp only [List.forall_mem_cons]
      decide
  clear_value a
  obtain ⟨hmode, hpass, hphase, hstart, hpoison⟩ := ha
  have hb : InUpdate a b := InUpdate.forEach (fun _ z ht => ht.startChip z) (.start hpoison) _
  have ht := InUpdate.forEach (f := fun s z => if (getChip s z).active then nextUnit s z else s)
    (fun _ z ht => .ite (ht.nextUnit z) ht) (hb.raise 0x9001 cPkg (count false) (count true)) (List.range 4)
  exact ⟨ht.mode.trans hmode, (ht.keys _ 0 (by decide)).trans hpass, (ht.keys _ 0 (by decide)).trans hphase,
    ht.startTick.trans hstart⟩

end Sys2Proof.Machine
end

section
/-! The start of the backward half: what the barrier's fields show once its stalls have gone on (R290, R291, R324). -/
namespace Sys2Proof.Machine
set_option Elab.async false
open Sys2Proof

/-! ## The fields of the barrier -/

/-- What shows the pass of the module and the length of its forward half. -/
def passKeys : List Nat := [fkey R.genPass_pass 0, fkey R.genPass_fwdTicks 0]

/-- The same, and the wait of stall `q` at its barrier. -/
def barrierKeys (q : Nat) : List Nat := fkey R.genStall_atFwdEnd q :: passKeys

/-- A field of any unit that lies apart from them. -/
theorem not_barrierKeys {f : Field} (hf : f.apartFrom passKeys = true ∧ f.lo % 64 ≠ 46) (u q : Nat) :
    fkey f u ∉ barrierKeys q := by
  rw [barrierKeys, List.mem_cons, not_or]
  exact ⟨fkey_ne_of_lo hf.2 u q, fkey_of_apartFrom hf.1 u⟩

theorem clearHomes_keys (s : State) (q : Nat) : KeepsKeys (barrierKeys q) s (clearHomes s) :=
  .forEach (fun t p _ =>
    (((KeepsKeys.setF (not_barrierKeys (by decide) p q) t 0).trans (.setF (not_barrierKeys (by decide) p q) _ 0)).trans
      (.setF (not_barrierKeys (by decide) p q) _ 0)).trans (.setF (not_barrierKeys (by decide) p q) _ 0)) s

theorem clearHomes_rte (s : State) : (clearHomes s).rte = s.rte := by
  unfold clearHomes
  refine forEach_frame State.rte (fun t p => ?_) _ s
  rfl

theorem setXoff_keys (s : State) (port prio : Nat) (on : Bool) (q : Nat) :
    KeepsKeys (barrierKeys q) s (setXoff s port prio on) := by
  have hshow : ∀ t : State, t.reg = s.reg → KeepsKeys (barrierKeys q) s (showXoff t port) := fun t h =>
    .ite (fun _ => (KeepsKeys.same h).trans (.setF (not_barrierKeys (by decide) port q) t _)) (fun _ => .same h)
  exact .ite (fun _ => hshow _ rfl) (fun _ => .ite (fun _ => hshow _ rfl) (fun _ => .refl s))

theorem showHold_keys (s : State) (q : Nat) : KeepsKeys (barrierKeys q) s (showHold s) := by
  unfold showHold
  extract_lets n size room pass was on last prio t
  have hfields : ∀ f ∈ [R.prtHoldStat_usedKib, R.prtHoldStat_passHeld, R.prtHoldStat_paused],
      f.apartFrom passKeys = true ∧ f.lo % 64 ≠ 46 := by decide
  have ht : KeepsKeys (barrierKeys q) s t := by
    refine KeepsKeys.setFs (fun f hf => ?_) s
    exact not_barrierKeys (hfields f hf) 0 q
  exact .ite (fun _ => ht) (fun _ => ht.trans (.forEach (fun u port _ => setXoff_keys u port prio on q) t))

/-- With no frame held, only the hold area's own fields follow. -/
theorem releaseHeld_none {s : State} (h : s.rte.held = []) (q : Nat) : KeepsKeys (barrierKeys q) s (releaseHeld s) := by
  unfold releaseHeld
  rw [h]
  exact (KeepsKeys.same (t := { s with rte := { s.rte with held := [] } }) rfl).trans (showHold_keys _ q)

/-! ## What the start of backward does to a bound stall (R290, R291) -/

theorem requestWake_program_keeps (s : State) (p : Nat) (die : Bool) : (requestWake s p .program die).reg = s.reg ∧
    (requestWake s p .program die).rte = s.rte := by
  rw [requestWake_program]
  exact ⟨rfl, rfl⟩

theorem beginStall_rte (s : State) (p : Nat) : (beginStall s p).rte = s.rte := by
  unfold beginStall
  split
  · rfl
  · split
    · exact (requestWake_program_keeps s p false).2
    · rfl

theorem beginStall_pass (s : State) (p : Nat) : KeepsKeys passKeys s (beginStall s p) := by
  unfold beginStall
  refine .ite (fun _ => ?_) (fun _ => .ite (fun _ => .same (requestWake_program_keeps s p false).1) (fun _ => ?_))
  · exact ((KeepsKeys.setF (fkey_of_apartFrom (by decide) p) s 0).trans
      (.setF (fkey_of_apartFrom (by decide) p) _ 2)).trans (.setF (fkey_of_apartFrom (by decide) p) _ _)
  · exact .setF (fkey_of_apartFrom (by decide) p) s 1

/-- The stall is past its barrier; every other waits at its own as before. -/
theorem beginStall_atFwdEnd (s : State) (p q : Nat) :
    getF (beginStall s p) R.genStall_atFwdEnd q = if q = p then 0 else getF s R.genStall_atFwdEnd q := by
  unfold beginStall
  by_cases hwaits : onF s R.genStall_atFwdEnd p = true
  · rw [if_pos hwaits, advance, jump, getF_setF_ne _ _ (fkey_ne_of_lo (by decide) q p),
      getF_setF_ne _ _ (fkey_ne_of_lo (by decide) q p)]
    by_cases hq : q = p
    · rw [if_pos hq, hq, getF_setF]
      rfl
    · rw [if_neg hq, getF_setF_ne _ _ (fkey_unit_ne (by decide) (by decide) hq)]
  · have hsame : getF s R.genStall_atFwdEnd q = if q = p then 0 else getF s R.genStall_atFwdEnd q := by
      split
      · next hq =>
        rw [hq]
        simpa [onF] using hwaits
      · rfl
    rw [if_neg hwaits, ← hsame]
    split
    · exact getF_congr (requestWake_program_keeps s p false).1 _ _
    · exact getF_setF_ne _ _ (fkey_ne_of_lo (by decide) q p)

theorem forEach_beginStall_atFwdEnd (l : List Nat) (s : State) {q : Nat} (h : q ∈ l ∨ getF s R.genStall_atFwdEnd q = 0) :
    getF (forEach l beginStall s) R.genStall_atFwdEnd q = 0 := by
  induction l generalizing s with
  | nil => exact h.resolve_left List.not_mem_nil
  | cons p l ih =>
    refine ih (beginStall s p) ?_
    rw [beginStall_atFwdEnd]
    by_cases hq : q = p
    · exact .inr (if_pos hq)
    · rw [if_neg hq]
      exact h.imp_left (fun m => (List.mem_cons.mp m).resolve_left hq)

theorem Steady.beginStall {z s : State} (h : Steady noStall z s) (p : Nat) : Steady noStall z (beginStall s p) :=
  ite (((h.setUnit (by decide) _ _).setUnit (by decide) _ _).setUnit (by decide) _ _)
    (ite (h.requestWake _ _ _) (h.setUnit (by decide) _ _))

theorem Steady.clearHomes {z s : State} (h : Steady noStall z s) : Steady noStall z (clearHomes s) :=
  h.forEach (fun _ _ ht => (((ht.setUnit (by decide) _ _).setUnit (by decide) _ _).setUnit (by decide) _ _).setUnit
    (by decide) _ _) _

/-! ## BACKWARD_BEGIN (R290) -/

/-- The module shown in its backward half. -/
def backwardShown (s : State) : State :=
  setFs s [(R.genPass_pass, 2), (R.genPass_fwdTicks, min (2 ^ 32 - 1) (s.now - getF s R.gteCommitTime_watch))]

theorem boundStalls_backwardShown (s : State) : boundStalls (backwardShown s) = boundStalls s := by
  have hown : ownIndex (backwardShown s) = ownIndex s := getF_setFs_ne _ _ (by simp only [List.forall_mem_cons]; decide)
  have hjob : (backwardShown s).job = s.job := rfl
  rw [boundStalls, hown, hjob]
  rfl

theorem backwardBegin_met {s : State} (h : barrierMet s = true) : backwardBegin s =
    releaseHeld (clearHomes (forEach (boundStalls s) beginStall (backwardShown s))) := by
  rw [← boundStalls_backwardShown]
  exact if_neg (by simp [h])

theorem barrierMet_running {s : State} (h : barrierMet s = true) : s.mode = .running := by
  simp only [barrierMet, Bool.and_eq_true, beq_iff_eq] at h
  obtain ⟨⟨⟨hrun, -⟩, -⟩, -⟩ := h
  exact hrun

theorem backwardBegin_mode {s : State} (h : barrierMet s = true) : (backwardBegin s).mode = .running := by
  have hrun : (backwardShown s).mode = .running := (setFs_mode s _).trans (barrierMet_running h)
  have hsteady : Steady noStall (backwardShown s) (backwardBegin s) := by
    rw [backwardBegin_met h]
    exact (((Steady.refl _ _).forEach (fun _ p ht => ht.beginStall p) _).clearHomes).releaseHeld hrun
  exact hsteady.mode.trans hrun

theorem backwardShown_pass (s : State) : getF (backwardShown s) R.genPass_pass = 2 ∧
    getF (backwardShown s) R.genPass_fwdTicks = min (2 ^ 32 - 1) (s.now - getF s R.gteCommitTime_watch) := by
  refine ⟨getF_setFs s [] _ _ _ (by simp only [List.forall_mem_cons]; decide), ?_⟩
  refine (getF_setFs s [_] [] _ _ (by simp)).trans (Nat.mod_eq_of_lt ?_)
  exact Nat.lt_of_le_of_lt (Nat.min_le_left _ _) (by decide)

/-- With no frame held, the backward half is shown, and no bound stall waits at its barrier. -/
theorem backwardBegin_shows {s : State} (h : barrierMet s = true) (hheld : s.rte.held = []) :
    getF (backwardBegin s) R.genPass_pass = 2 ∧
      getF (backwardBegin s) R.genPass_fwdTicks = min (2 ^ 32 - 1) (s.now - getF s R.gteCommitTime_watch) ∧
      ∀ p ∈ boundStalls s, getF (backwardBegin s) R.genStall_atFwdEnd p = 0 := by
  rw [backwardBegin_met h]
  have hbegun : KeepsKeys passKeys (backwardShown s) (forEach (boundStalls s) beginStall (backwardShown s)) :=
    .forEach (fun t p _ => beginStall_pass t p) _
  have hpast := fun p (hp : p ∈ boundStalls s) => forEach_beginStall_atFwdEnd (boundStalls s) (backwardShown s) (.inl hp)
  have hrte : (forEach (boundStalls s) beginStall (backwardShown s)).rte = s.rte :=
    forEach_frame _ beginStall_rte _ _
  generalize forEach (boundStalls s) beginStall (backwardShown s) = a at hbegun hpast hrte
  have hnone : (clearHomes a).rte.held = [] := by rw [clearHomes_rte, hrte, hheld]
  have hend := fun q => (clearHomes_keys a q).trans (releaseHeld_none hnone q)
  obtain ⟨hpass, hticks⟩ := backwardShown_pass s
  exact ⟨((hend 0 _ 0 (List.mem_cons_of_mem _ (by decide))).trans (hbegun _ 0 (by decide))).trans hpass,
    ((hend 0 _ 0 (List.mem_cons_of_mem _ (by decide))).trans (hbegun _ 0 (by decide))).trans hticks,
    fun p hp => (hend p _ p List.mem_cons_self).trans (hpast p hp)⟩

/-! ## FORWARD_BARRIER_SLOW (R290) -/

theorem mem_once_raiseOnce (s : State) (code unit coord d0 d1 : Nat) :
    (code, unit) ∈ (raiseOnce s code unit coord d0 d1).once := by
  unfold raiseOnce
  split
  · next h => exact List.contains_iff_mem.mp h
  · rw [raise_once]
    exact List.mem_cons_self

theorem raiseOnce_board (s : State) (code unit coord d0 d1 : Nat) :
    (raiseOnce s code unit coord d0 d1).board = s.board := by
  unfold raiseOnce
  split
  · rfl
  · rw [raise_board]

/-- What has been raised in the step is not raised again. -/
theorem raiseOnce_raised {s : State} {code unit : Nat} (h : (code, unit) ∈ s.once) (coord d0 d1 : Nat) :
    raiseOnce s code unit coord d0 d1 = s := if_pos (List.contains_iff_mem.mpr h)

theorem barrierSlow_late {s : State} {a : Nat} (hfirst : s.job.firstArrival = some a) (hpass : getF s R.genPass_pass = 1)
    (hlate : a + 25 * getF s R.genCtl_fwdAlarmUs ≤ s.now) : barrierSlow s =
      raiseOnce s 0x7004 0 cPkg (countIf (boundStalls s) (fun p => !arrivedNow s p)) ((s.now - a) / 25) := by
  simp only [barrierSlow, hfirst, hpass, hlate, and_self, if_true]

theorem barrierSlow_raised {s : State} (h : (0x7004, 0) ∈ s.once) : barrierSlow s = s := by
  unfold barrierSlow
  split
  · rfl
  · split
    · exact raiseOnce_raised h _ _ _
    · rfl

theorem barrierSlow_reports {s : State} {a : Nat} (hon : s.board.railsOn = true) (hfirst : s.job.firstArrival = some a)
    (hpass : getF s R.genPass_pass = 1) (hlate : a + 25 * getF s R.genCtl_fwdAlarmUs ≤ s.now) :
    ∃ t, exec .forwardBarrierSlow s = .next t ∧ t.mode = s.mode ∧ t.stalls = s.stalls ∧ (0x7004, 0) ∈ t.once ∧
      exec .forwardBarrierSlow t = .next t := by
  refine ⟨_, (inModule_on hon).trans (congrArg _ (barrierSlow_late hfirst hpass hlate)),
    (KeepsStalls.raiseOnce s _ _ _ _ _).mode, raiseOnce_stalls _ _ _ _ _ _, mem_once_raiseOnce _ _ _ _ _ _, ?_⟩
  refine (inModule_on ?_).trans (congrArg _ (barrierSlow_raised (mem_once_raiseOnce _ _ _ _ _ _)))
  rw [raiseOnce_board]
  exact hon

end Sys2Proof.Machine
end

section
/-! The end of a chip's update and of the update (R358, R361, R364, R366): the quarter written, the chip shown done, the gate
window opened. -/
namespace Sys2Proof.Machine
set_option Elab.async false
open Sys2Proof

/-! ## Memory outside the event ring (R153) -/

/-- The next record of the event ring lies in the ring. -/
theorem evtSlot_apart {s : State} {a : Nat} (ha : s.eventsOff a) (hsize : 0 < evtSize s) :
    a < evtSlot s ∨ evtSlot s + 32 ≤ a := by
  unfold State.eventsOff at ha
  unfold evtSlot
  have hplace := Nat.mod_lt (getF s R.ctlEvtProducer_producer) hsize
  generalize getF s R.ctlEvtProducer_producer % evtSize s = n at hplace ⊢
  generalize getF s R.ctlEvtCfg_base4k * 4096 = base at ha ⊢
  generalize evtSize s = size at ha hplace
  omega

/-- With no page protected, an event changes the event ring alone. -/
theorem readByte_raise {s : State} (hpages : s.team.pages = []) {a : Nat} (ha : s.eventsOff a) (code coord d0 d1 : Nat) :
    readByte (raise s code coord d0 d1) a = readByte s a := by
  rcases raise_cases s code coord d0 d1 with e | ⟨-, r, e⟩ | ⟨-, r, e⟩ <;> rw [e]
  · unfold logEvent
    split <;> rfl
  · by_cases hroom : (getF s R.ctlEvtProducer_producer + 2 ^ 32 - getF s R.ctlEvtConsumer_consumer) % 2 ^ 32 < evtSize s
    · obtain ⟨-, -, hother⟩ := ringEvent_stored r hpages hroom
      exact hother a (evtSlot_apart ha (Nat.lt_of_le_of_lt (Nat.zero_le _) hroom))
    · unfold ringEvent
      dsimp only
      rw [if_pos (Nat.le_of_not_lt hroom)]
      rfl

/-- What shows where the event ring lies. -/
def ringPlace : List Nat := [fkey R.ctlEvtCfg_base4k 0, fkey R.ctlEvtCfg_sizeCode 0]

theorem eventsOff_of_keys {s t : State} (h : KeepsKeys ringPlace s t) {a : Nat} (ha : s.eventsOff a) : t.eventsOff a := by
  have hbase : getF t R.ctlEvtCfg_base4k = getF s R.ctlEvtCfg_base4k := h _ 0 (by decide)
  have hsize : getF t R.ctlEvtCfg_sizeCode = getF s R.ctlEvtCfg_sizeCode := h _ 0 (by decide)
  unfold State.eventsOff evtSize at *
  rw [hbase, hsize]
  exact ha

/-! ## What the end of the update leaves (R358, R366) -/

/-- What shows the chips done and at work, and the place of the event ring. -/
def chipsKeys : List Nat := fkey R.updStatus_chipsDone 0 :: (List.range 4).map (fkey R.updChip_state) ++ ringPlace

/-- The same, and the phase of the update. -/
def windowKeys : List Nat := fkey R.updStatus_phase 0 :: chipsKeys

theorem chipsKeys_subset : chipsKeys ⊆ windowKeys := List.subset_cons_self _ _

theorem ringPlace_subset : ringPlace ⊆ chipsKeys := List.subset_append_right _ _

theorem windowKeys_not_event : ∀ k ∈ windowKeys, k ∉ eventKeys := by decide

/-- From `s` to `t` the chips and the fields of `windowKeys` stand, and memory but for the event ring. -/
structure KeepsChips (s t : State) : Prop where
  chips : t.upd.chips = s.upd.chips
  keys : KeepsKeys windowKeys s t
  mem : s.team.pages = [] → t.team.pages = [] ∧ ∀ a, s.eventsOff a → readByte t a = readByte s a

namespace KeepsChips
variable {z s t : State}

theorem refl (s : State) : KeepsChips s s := ⟨rfl, .refl s, fun h => ⟨h, fun _ _ => rfl⟩⟩

theorem ring (h : KeepsChips s t) : KeepsKeys ringPlace s t :=
  h.keys.mono (fun _ m => chipsKeys_subset (ringPlace_subset m))

theorem trans (h : KeepsChips z s) (k : KeepsChips s t) : KeepsChips z t := by
  refine ⟨k.chips.trans h.chips, h.keys.trans k.keys, fun hpages => ?_⟩
  obtain ⟨hpages', hmem⟩ := h.mem hpages
  obtain ⟨hpages'', hmem'⟩ := k.mem hpages'
  exact ⟨hpages'', fun a ha => (hmem' a (eventsOff_of_keys h.ring ha)).trans (hmem a ha)⟩

theorem same (hc : t.upd.chips = s.upd.chips := by rfl) (hr : t.reg = s.reg := by rfl)
    (hp : t.team.pages = s.team.pages := by rfl) (hm : t.mem = s.mem := by rfl) : KeepsChips s t :=
  ⟨hc, .same hr, fun h => ⟨hp.trans h, fun a _ => congrArg (tget 0 · a) hm⟩⟩

theorem setF {f : Field} {u : Nat} (hf : fkey f u ∉ windowKeys) (s : State) (v : Nat) : KeepsChips s (setF s f u v) :=
  ⟨rfl, .setF hf s v, fun h => ⟨h, fun _ _ => rfl⟩⟩

theorem ite {c : Prop} [Decidable c] {a b : State} (ha : KeepsChips s a) (hb : KeepsChips s b) :
    KeepsChips s (if c then a else b) := by
  split
  · exact ha
  · exact hb

theorem forEach {α : Type} {f : State → α → State} (h : ∀ s a, KeepsChips s (f s a)) (l : List α) (s : State) :
    KeepsChips s (forEach l f s) := by
  induction l generalizing s with
  | nil => exact refl s
  | cons a l ih => exact (h s a).trans (ih _)

theorem raise (s : State) (code coord d0 d1 : Nat) : KeepsChips s (raise s code coord d0 d1) :=
  ⟨(OnlyHeals.raise s _ _ _ _).chips, .ofReg (.raise s _ _ _ _) windowKeys_not_event, fun h =>
    ⟨((Steady.refl noStall s).raise _ _ _ _).pages h, fun _ ha => readByte_raise h ha _ _ _ _⟩⟩

theorem raiseOnce (s : State) (code unit coord d0 d1 : Nat) : KeepsChips s (raiseOnce s code unit coord d0 d1) :=
  ite (refl s) ((same (t := { s with once := (code, unit) :: s.once })).trans (raise _ _ _ _ _))

theorem showDeferred (s : State) : KeepsChips s (showDeferred s) := ite (refl s) (raiseOnce s _ _ _ _ _)

theorem abortIdle (s : State) (u : Nat) : KeepsChips s (abortIdle s u) :=
  ite ((same (t := { s with cal := { s.cal with trimming := s.cal.trimming.filter (fun q => q != (u, 0)) } })).trans
    (setF (fkey_of_apartFrom (by decide) u) _ _)) (refl s)

theorem settle (s : State) (p : Nat) : KeepsChips s (settle s p) := by
  rw [settle_eq]
  exact same

theorem abortRetrim (s : State) (p u : Nat) : KeepsChips s (abortRetrim s p u) :=
  ite ((abortIdle s u).trans (settle _ p)) (refl s)

theorem requestWake_program (s : State) (p : Nat) : KeepsChips s (requestWake s p .program false) := by
  rw [Machine.requestWake_program]
  exact same

theorem toWrite (s : State) (ps : List Nat) : KeepsChips s (toWrite s ps) :=
  (same (t := { s with job := { s.job with toWrite := ps } })).trans
    (forEach (fun t p => ite (requestWake_program t p) (refl t)) ps _)

theorem openWindow (s : State) : KeepsChips s (openWindow s) := by
  unfold Machine.openWindow
  extract_lets _ t
  have ht : KeepsChips s t := same
  exact (ht.trans (forEach (fun u l => abortRetrim u _ _) _ t)).trans (toWrite _ _)

end KeepsChips

theorem abortIdle_mode (s : State) (u : Nat) : (abortIdle s u).mode = s.mode := by
  unfold abortIdle
  split
  · exact setF_mode _ _ _ _
  · rfl

theorem abortRetrim_mode (s : State) (p u : Nat) : (abortRetrim s p u).mode = s.mode := by
  unfold abortRetrim
  split
  · rw [settle_mode, abortIdle_mode]
  · rfl

theorem toWrite_mode (s : State) (ps : List Nat) : (toWrite s ps).mode = s.mode := by
  unfold toWrite wakeForWrites
  refine forEach_frame State.mode (fun t p => ?_) ps _
  split
  · rw [requestWake_program]
  · rfl

theorem openWindow_mode (s : State) : (openWindow s).mode = .gate := by
  unfold openWindow abortForWrites
  rw [toWrite_mode]
  refine (forEach_frame State.mode (fun t l => ?_) _ _).trans rfl
  exact abortRetrim_mode t _ _

theorem allChipsDone_congr {s t : State} (hc : t.upd.chips = s.upd.chips)
    (hdone : getF t R.updStatus_chipsDone = getF s R.updStatus_chipsDone) : allChipsDone t = allChipsDone s := by
  have hchip : getChip t = getChip s := funext fun z => congrArg (tget Chip.reset · z) hc
  unfold allChipsDone
  rw [hdone, hchip]

theorem showDeferred_mode (s : State) : (showDeferred s).mode = s.mode := by
  unfold showDeferred
  dsimp only
  split
  · rfl
  · exact (KeepsStalls.raiseOnce s _ _ _ _ _).mode

theorem showDeferred_job (s : State) : (showDeferred s).job = s.job := by
  unfold showDeferred raiseOnce
  dsimp only
  split
  · rfl
  · split
    · rfl
    · rw [raise_job]

/-! ## The last chip is done (R358) -/

/-- From `s` to `t` the chips and what is shown of them stand, and memory but for the event ring, with no page protected. -/
structure ChipsStand (s t : State) : Prop where
  chips : t.upd.chips = s.upd.chips
  keys : KeepsKeys chipsKeys s t
  mem : s.team.pages = [] → ∀ a, s.eventsOff a → readByte t a = readByte s a

theorem KeepsChips.stand {s t : State} (h : KeepsChips s t) : ChipsStand s t :=
  ⟨h.chips, h.keys.mono chipsKeys_subset, fun hpages => (h.mem hpages).2⟩

theorem KeepsChips.thenStand {s t u : State} (h : KeepsChips s t) (k : ChipsStand t u) : ChipsStand s u := by
  refine ⟨k.chips.trans h.chips, (h.keys.mono chipsKeys_subset).trans k.keys, fun hpages a ha => ?_⟩
  obtain ⟨hpages', hmem⟩ := h.mem hpages
  exact (k.mem hpages' a (eventsOff_of_keys h.ring ha)).trans (hmem a ha)

/-- The update shown over, with its length. -/
def overShown (s : State) : State :=
  setFs s [(R.updStatus_phase, 3), (R.updStatus_lastTicks, min (2 ^ 32 - 1) (s.now - s.upd.startTick))]

theorem overShown_keys (s : State) : KeepsKeys chipsKeys s (overShown s) := by
  have hfields : ∀ f ∈ [R.updStatus_phase, R.updStatus_lastTicks], fkey f 0 ∉ chipsKeys := by decide
  refine KeepsKeys.setFs (fun f hf => ?_) s
  exact hfields f hf

theorem updateOver_keeps (s : State) : KeepsChips (overShown s) (updateOver s) :=
  (KeepsChips.raise (overShown s) _ _ _ _).trans (.ite (.refl _) (.openWindow _))

theorem updateOver_stand (s : State) : ChipsStand s (updateOver s) := by
  obtain ⟨hchips, hkeys, hmem⟩ := (updateOver_keeps s).stand
  exact ⟨hchips, (overShown_keys s).trans hkeys, fun hpages a ha =>
    hmem hpages a (eventsOff_of_keys ((overShown_keys s).mono ringPlace_subset) ha)⟩

theorem updateOver_phase (s : State) : getF (updateOver s) R.updStatus_phase = 3 :=
  ((updateOver_keeps s).keys _ 0 (by decide)).trans (getF_setFs s [] _ _ _ (by simp only [List.forall_mem_cons]; decide))

theorem updateOver_mode (s : State) : (updateOver s).mode = if s.job.gateHold then s.mode else .gate := by
  unfold updateOver
  dsimp only
  rw [raise_job, setFs_job]
  split
  · rw [raise_mode, setFs_mode]
  · exact openWindow_mode _

/-! ## UPD_CHIP_DONE (R361, R364, R367) -/

/-- The chip's quarter written, and the chip shown done. -/
def chipReported (z : Nat) (s : State) : State :=
  let t := setF (setChip (write s (quarterBase s z) (quarterImage s (getChip s z))) z { getChip s z with active := false })
    R.updChip_state z 4
  setF t R.updStatus_chipsDone 0 (setBit (getF t R.updStatus_chipsDone) z true)

/-- What follows the chip's report. -/
def reportEnd (s : State) : State :=
  if allChipsDone (showDeferred s) then updateOver (showDeferred s) else showDeferred s

theorem chipDone_reports {s : State} {z : Nat} (hrun : s.mode = .running) (hactive : (getChip s z).active = true)
    (hunit : (getChip s z).unit = none) (hunits : (getChip s z).units = []) (hlink : linkDown s z = false) :
    chipDone z s = reportEnd (chipReported z s) :=
  if_neg (by simp [hrun, hactive, hunit, hunits, hlink])

theorem chipDone_linkDown {s : State} {z : Nat} (h : linkDown s z = true) : chipDone z s = s :=
  if_pos (by simp [h])

theorem chipReported_shows {s : State} {z : Nat} (hz : z < 4) : (getChip (chipReported z s) z).active = false ∧
    getF (chipReported z s) R.updChip_state z = 4 ∧ bit (getF (chipReported z s) R.updStatus_chipsDone) z = true := by
  refine ⟨congrArg Chip.active (getChip_setChip _ _ _), ?_, ?_⟩
  · rw [chipReported, getF_setF_ne _ _ (fkey_ne_of_lo (by decide) z 0), getF_setF]
    rfl
  · rw [chipReported, getF_setF, bit_eq_testBit, Nat.testBit_mod_two_pow, ← bit_eq_testBit, bit_setBit, if_pos rfl]
    exact Bool.and_eq_true_iff.mpr ⟨decide_eq_true hz, rfl⟩

theorem chipReported_ring (s : State) (z : Nat) : KeepsKeys ringPlace s (chipReported z s) := by
  have hplace : fkey R.updChip_state z ∉ ringPlace := fkey_of_apartFrom (by decide) z
  exact ((KeepsKeys.ofReg (.write s _ _) (by decide)).trans (.setF hplace _ 4)).trans (.setF (by decide) _ _)

theorem chipReported_mode (s : State) (z : Nat) : (chipReported z s).mode = s.mode := write_mode s _ _

theorem chipReported_job (s : State) (z : Nat) : (chipReported z s).job = s.job := write_job s _ _

theorem chipReported_pages {s : State} (h : s.team.pages = []) (z : Nat) : (chipReported z s).team.pages = [] :=
  ((Steady.refl noStall s).write _ _).pages h

theorem reportEnd_stand (s : State) : ChipsStand s (reportEnd s) := by
  unfold reportEnd
  split
  · exact (KeepsChips.showDeferred s).thenStand (updateOver_stand _)
  · exact (KeepsChips.showDeferred s).stand

theorem reportEnd_allChipsDone (s : State) : allChipsDone (reportEnd s) = allChipsDone (showDeferred s) := by
  unfold reportEnd
  split
  · exact allChipsDone_congr (updateOver_stand _).chips ((updateOver_stand _).keys _ 0 (by decide))
  · rfl

/-- Once every chip is done the update is over and the window opens, unless it is held; until then the step runs on. -/
theorem reportEnd_over (s : State) : if allChipsDone (reportEnd s) = true then
    getF (reportEnd s) R.updStatus_phase = 3 ∧ (reportEnd s).mode = (if s.job.gateHold then s.mode else .gate)
    else (reportEnd s).mode = s.mode := by
  rw [reportEnd_allChipsDone]
  split
  · next h =>
    rw [reportEnd, if_pos h, updateOver_mode, showDeferred_mode, showDeferred_job]
    exact ⟨updateOver_phase _, rfl⟩
  · next h =>
    rw [reportEnd, if_neg h, showDeferred_mode]

/-- A chip with nothing left to do, over a link that stands, reports done. -/
theorem updChipDone_reports {s : State} {z : Nat} (hz : z < 4) (hrun : s.mode = .running) :
    let t := reportEnd (chipReported z s)
    (getChip t z).active = false ∧ getF t R.updChip_state z = 4 ∧ bit (getF t R.updStatus_chipsDone) z = true ∧
      (s.team.pages = [] → ∀ a, s.eventsOff a →
        readByte t a = readByte (write s (quarterBase s z) (quarterImage s (getChip s z))) a) ∧
      if allChipsDone t = true then getF t R.updStatus_phase = 3 ∧ t.mode = (if s.job.gateHold then .running else .gate)
      else t.mode = .running := by
  obtain ⟨hactive, hstate, hdone⟩ := chipReported_shows (s := s) hz
  obtain ⟨hchips, hkeys, hmem⟩ := reportEnd_stand (chipReported z s)
  have hover := reportEnd_over (chipReported z s)
  rw [chipReported_mode, chipReported_job, hrun] at hover
  have hkey : fkey R.updChip_state z ∈ chipsKeys :=
    List.mem_append_left _ (List.mem_cons_of_mem _ (List.mem_map_of_mem (List.mem_range.mpr hz)))
  refine ⟨?_, (hkeys _ z hkey).trans hstate, ?_, fun hpages a ha => ?_, hover⟩
  · rw [← hactive]
    exact congrArg (fun l => (tget Chip.reset l z).active) hchips
  · rw [← hdone, hkeys _ 0 (by decide)]
  · exact hmem (chipReported_pages hpages z) a (eventsOff_of_keys (chipReported_ring s z) ha)

/-! ## O43 -/

theorem backwardOver_running {s : State} (h : backwardOver s = true) : s.mode = .running := by
  simp only [backwardOver, Bool.and_eq_true, beq_iff_eq] at h
  obtain ⟨⟨⟨⟨hrun, -⟩, -⟩, -⟩, -⟩ := h
  exact hrun

theorem backwardComplete_starts {s : State} (h : backwardOver s = true) (hpoison : s.upd.poison = []) :
    (backwardComplete s).mode = .running ∧ getF (backwardComplete s) R.genPass_pass = 3 ∧
      getF (backwardComplete s) R.updStatus_phase = 2 ∧ (backwardComplete s).upd.startTick = s.now := by
  rw [backwardComplete, if_pos h]
  obtain ⟨hmode, hpass, hphase, hstart⟩ := startUpdate_starts (s := setF s R.genPass_pass 0 3) hpoison
  exact ⟨hmode.trans ((setF_mode s _ _ _).trans (backwardOver_running h)), hpass.trans (getF_setF _ _ _ _), hphase, hstart⟩

/-- Settles O43: each event by what its change leaves of the fields that show the pass, the barrier, the update and the chips. -/
theorem stepHalves : Obligations.StepHalves := by
  unfold Obligations.StepHalves
  refine ⟨fun s hon hmet => ?_, fun s hon hmet => ?_, fun s a hon hfirst hpass hlate => ?_, fun s hon hover hpoison => ?_,
    fun s hon hover => ?_, fun s z hz hon hrun hactive hunit hunits => ?_⟩
  · exact ⟨_, inModule_on hon, backwardBegin_mode hmet, fun hheld _ => backwardBegin_shows hmet hheld⟩
  · exact (inModule_on hon).trans (congrArg _ (if_pos (by simp [hmet])))
  · exact barrierSlow_reports hon hfirst hpass hlate
  · exact ⟨_, inModule_on hon, backwardComplete_starts hover hpoison⟩
  · exact (inModule_on hon).trans (congrArg _ (if_neg (by simp [hover])))
  · split
    · next hlink => exact (onUnit_on hz hon).trans (congrArg _ (chipDone_linkDown hlink))
    · next hlink =>
      have hend := chipDone_reports hrun hactive hunit hunits (Bool.eq_false_iff.mpr hlink)
      exact ⟨_, (onUnit_on hz hon).trans (congrArg _ hend), updChipDone_reports hz hrun⟩

end Sys2Proof.Machine
end

section
/-! The statements on a step of the queue and on POWN (R353): a step runs the front of the queue, a command leaves the queue, and
the power of an integer exponent is the square-and-multiply loop. -/
namespace Sys2Proof.Machine
open Sys2Proof

/-! ## A step of the queue -/

theorem step_nil {s : State} (h : s.pending = []) : step s = .next s := by
  unfold step; rw [h]

/-- Settles O1: a step matches on the queue, and the table gives no word a command. -/
theorem stepRunsFront : Obligations.StepRunsFront :=
  ⟨fun _ _ _ => rfl, fun _ h => step_nil h, fun _ _ _ => ⟨rfl, rfl⟩⟩

/-- Settles O5: every command's law (`exec_kept`) speaks of the queue and of the draws. -/
theorem execKeepsQueue : Obligations.ExecKeepsQueue := fun c _ _ h =>
  have hkept := (exec_kept c (.refl _)).out _ h
  ⟨hkept.queue, hkept.draws⟩

/-! ## POWN (R353) -/

/-- The exponent of POWN is the integer that the operand stands for. -/
theorem pownExp_eq_some {b : F32} {n : Nat} (hn : n < 16777216) (hb : ffinite b = true)
    (hsign : n = 0 ∨ (fexact b).neg = false) (hnum : (fexact b).num = n * (fexact b).den) (hden : (fexact b).den ≠ 0) :
    pownExp b = some n := by
  have hdiv : (fexact b).num / (fexact b).den = n := by rw [hnum, Nat.mul_div_cancel _ (Nat.pos_of_ne_zero hden)]
  have hmod : (fexact b).num % (fexact b).den = 0 := by rw [hnum, Nat.mul_mod_left]
  have hpos : (!(fexact b).neg || (fexact b).num == 0) = true := by
    rcases hsign with rfl | h
    · simp [hnum]
    · simp [h]
  unfold pownExp
  simp [hb, hpos, hmod, hdiv, hn]

/-- The loop from bit `k - 1` on ends at the last of the values that each bit makes of the one before. -/
theorem pownGo_eq {a : F32} {n : Nat} {r : Nat → F32}
    (hr : ∀ i < 24, r i = if n.testBit i then fmul (fmul (r (i + 1)) (r (i + 1))) a else fmul (r (i + 1)) (r (i + 1)))
    {k : Nat} (hk : k ≤ 24) : pownGo a n k (r k) = r 0 := by
  induction k with
  | zero => rfl
  | succ i ih =>
    have hstep := hr i (by omega)
    rw [← bit_eq_testBit] at hstep
    rw [pownGo, ← hstep]
    exact ih (by omega)

/-- Settles O11: the operand's integer is the loop's exponent, and the loop ends at the value of bit 0. -/
theorem integerPower : Obligations.IntegerPower := by
  intro a b c n r hn hb hsign hnum hden hone hr
  calc laneOp 10 a b c = (pownExp b).map (fun n => pownGo a n 24 oneCode) := rfl
    _ = some (pownGo a n 24 (r 24)) := by rw [pownExp_eq_some (by omega) hb hsign hnum hden, hone]; rfl
    _ = some (r 0) := by rw [pownGo_eq hr (by omega)]

end Sys2Proof.Machine
end

section
/-! The statement on the slots of an update program (R343, R350 to R355): reading sources leaves the chips as they stand, so that the
chip a slot has written is still at its unit, and goes on. -/
namespace Sys2Proof.Machine
open Sys2Proof

/-! ## Reads of the loft leave the chips (R341) -/

theorem raise_chips (s : State) (code coord d0 d1 : Nat) : (raise s code coord d0 d1).upd.chips = s.upd.chips :=
  (OnlyHeals.raise s code coord d0 d1).chips

theorem setFs_upd (s : State) (l : List (Field × Nat)) : (setFs s l).upd = s.upd := by rw [(OnlyReg.setFs s l).eq]

theorem noteCorrected_chips (s : State) (l : Nat) : (noteCorrected s l).upd.chips = s.upd.chips := by
  unfold noteCorrected
  extract_lets c u due
  split
  · exact raise_chips _ _ _ _ _
  · rfl

theorem noteUncorrectable_chips (s : State) (l : Nat) : (noteUncorrectable s l).upd.chips = s.upd.chips :=
  (raise_chips _ _ _ _ _).trans (by rw [setFs_upd]; rfl)

theorem loftRead_chips (s : State) (a n : Nat) : (loftRead s a n).1.upd.chips = s.upd.chips :=
  (forEach_frame (fun t => t.upd.chips) noteUncorrectable_chips _ _).trans
    (forEach_frame (fun t => t.upd.chips) noteCorrected_chips _ _)

theorem getChip_congr {s t : State} (h : t.upd.chips = s.upd.chips) (z : Nat) : getChip t z = getChip s z := by
  unfold getChip; rw [h]

/-! ## Sources (R350) -/

theorem unitRead_chips {s v : State} {z : Nat} {u : UpdUnit} {a n w first : Nat} {b : Bytes}
    (h : unitRead s z u a n w first = (v, some b)) : v.upd.chips = s.upd.chips := by
  unfold unitRead at h
  dsimp only at h
  split at h
  · obtain ⟨rfl, -⟩ := Prod.mk.inj h
    exact loftRead_chips s a n
  · exact absurd (Prod.mk.inj h).2 nofun

theorem planeLanes_chips {s t : State} {z : Nat} {u : UpdUnit} {v j : Nat} {l : List F32}
    (h : planeLanes s z u v j = (t, some l)) : t.upd.chips = s.upd.chips := by
  unfold planeLanes at h
  dsimp only at h
  split at h
  · exact absurd (Prod.mk.inj h).2 nofun
  · next hread =>
    obtain ⟨rfl, -⟩ := Prod.mk.inj h
    exact unitRead_chips hread

theorem srcLanes_chips {s t : State} {z : Nat} {u : UpdUnit} {v k code : Nat} {l : List F32}
    (h : srcLanes s z u v k code = (t, some l)) : t.upd.chips = s.upd.chips := by
  have hpure : ∀ {x : Option (List F32)}, (s, x) = (t, some l) → t.upd.chips = s.upd.chips := fun e => by
    rw [(Prod.mk.inj e).1]
  unfold srcLanes at h
  dsimp only at h
  split_ifs at h
  · exact hpure h
  · exact hpure h
  · split at h
    · next hplane =>
      obtain ⟨rfl, -⟩ := Prod.mk.inj h
      exact planeLanes_chips hplane
    · exact planeLanes_chips h
  · exact planeLanes_chips h
  · exact planeLanes_chips h
  all_goals exact hpure h

theorem allLanes_chips {z : Nat} {u : UpdUnit} {v k : Nat} {l : List Nat} {s t : State} {ls : List (List F32)}
    (h : allLanes z u v k l s = (t, some ls)) : t.upd.chips = s.upd.chips := by
  induction l generalizing s t ls with
  | nil => rw [(Prod.mk.inj h).1]
  | cons a r ih =>
    unfold allLanes at h
    split at h
    · exact absurd (Prod.mk.inj h).2 nofun
    · next hsrc =>
      split at h
      · exact absurd (Prod.mk.inj h).2 nofun
      · next hall =>
        obtain ⟨rfl, -⟩ := Prod.mk.inj h
        exact (ih hall).trans (srcLanes_chips hsrc)

/-! ## A slot (R343, R350 to R355) -/

/-- A slot whose effect leaves the chip at its unit is followed by the next one. -/
theorem chipSlot_advances {s : State} {z op w : Nat} {u : UpdUnit} (h : s.atSlot z op u w)
    {f : State → UpdUnit → Nat → Nat → State} {t : State} (hf : f s u ((getChip s z).vec.getD 0) w = t)
    (hunit : (getChip t z).unit = some u) : chipSlot z op s f = .next (advanceChip t z u) := by
  obtain ⟨hz, hon, hat, hw, hop⟩ := h
  refine (onUnit_on hz hon).trans (congrArg _ ?_)
  simp only [hat, hw, hop, if_true, hf, hunit, Option.isSome_some]

theorem State.atSlot.unit {s : State} {z op w : Nat} {u : UpdUnit} (h : s.atSlot z op u w) :
    (getChip s z).unit = some u := by
  obtain ⟨-, -, hat, -, -⟩ := h
  exact hat

/-- An operation whose sources and results are finite writes its register. -/
theorem runOp_writes {s v : State} {z w k : Nat} {u : UpdUnit} {ls : List (List F32)}
    (hread : allLanes z u k (getChip s z).slot (opSources w) s = (v, some ls)) (hsrc : ls.findSome? badLane = none)
    (hres : badLane (opLanes v (opKind w) (if (getChip s z).vec.isNone then 1 else unitLanes v u k) ls) = none) :
    let l := opLanes v (opKind w) (if (getChip s z).vec.isNone then 1 else unitLanes v u k) ls
    let v1 := bumpF v R.updChip_cycles z (opCycles w (getChip s z).vec.isNone)
    let v2 := if opKind w = 10 then draw v1 else v1
    runOp z s u k w = setChip v2 z { getChip v2 z with uregs := tset (getChip v2 z).uregs (getChip s z).slot l } := by
  unfold runOp
  simp only [hread, hsrc, hres]

/-- A store whose values are finite puts them aside for the vector's end. -/
theorem runStore_keeps {s v : State} {z j w k : Nat} {u : UpdUnit} {l : List F32}
    (hread : srcLanes s z u k (getChip s z).slot (srcA w) = (v, some l)) (hsrc : badLane l = none) :
    let v1 := bumpF v R.updChip_cycles z 1
    let vals := (List.range (unitLanes v1 u k)).map (laneOf l)
    runStore z j s u k w = setChip v1 z { getChip v1 z with stores := (getChip v1 z).stores ++ [(j, bits w 6 0, vals)] } := by
  unfold runStore
  simp only [hread, hsrc]

/-- Settles O48: each slot's effect by its own rule, and the chip is still at its unit, since only the loft was read. -/
theorem updateSlots : Obligations.UpdateSlots := by
  unfold Obligations.UpdateSlots
  refine ⟨fun s z w u h => ?_, fun s z w u h => ?_, fun s v z w u ls h hread hsrc => ?_, fun s v z w u l h hread hsrc => ?_,
    fun s v z w u l h hread hsrc => ?_, fun s z k u hnext => ?_⟩
  · exact chipSlot_advances h (f := fun s _ _ w => setChip s z { getChip s z with
      planes := tset (getChip s z).planes (plnOf w).1 (plnOf w).2 }) rfl (by rw [getChip_setChip]; exact h.unit)
  · exact chipSlot_advances h (f := fun s _ _ w => setChip s z { getChip s z with
      ctx := some (bits w 55 47, bits w 46 43, bits w 42 36) }) rfl (by rw [getChip_setChip]; exact h.unit)
  · intro lanes hres v1 v2
    have hdrawn : v2.upd.chips = v.upd.chips := by
      dsimp only [v2]
      split <;> rfl
    have hchips : v2.upd.chips = s.upd.chips := hdrawn.trans (allLanes_chips hread)
    exact chipSlot_advances h (runOp_writes hread hsrc hres) (by
      rw [getChip_setChip]; exact (congrArg Chip.unit (getChip_congr hchips z)).trans h.unit)
  · exact chipSlot_advances h (runStore_keeps hread hsrc) (by
      rw [getChip_setChip]; exact (congrArg Chip.unit (getChip_congr (srcLanes_chips hread) z)).trans h.unit)
  · exact chipSlot_advances h (f := fun s u v w => runStore z (1 + bits w 55 54) s u v w) (runStore_keeps hread hsrc) (by
      rw [getChip_setChip]; exact (congrArg Chip.unit (getChip_congr (srcLanes_chips hread) z)).trans h.unit)
  · unfold advanceChip
    simp only [hnext]

end Sys2Proof.Machine
end

section
/-! The statement on the channels' commands and on the rates of channels 57 to 63 (R369, R371 to R376). -/
namespace Sys2Proof.Machine
open Sys2Proof

/-! ## Commands of the base-die channels (R371, R372, R374) -/

section
variable {s : State} {c : Nat} (hc : c < 57)
include hc

theorem chStart_starts (hst : (getChan s c).st = 0) (hm : s.mode ≠ .bringup) : (chStart s c).1 =
    startChain (setF s R.movChStatus_aborted c 0) c (getF s R.movChDesc_desc64 c * 64) := by
  have hok : chStartStatus s c = 0 := if_neg (by simp [hst, hm, hc])
  have hdesc : getF (setF s R.movChStatus_aborted c 0) R.movChDesc_desc64 c = getF s R.movChDesc_desc64 c :=
    getF_setF_ne s 0 (fkey_ne_of_lo (by decide) c c)
  simp only [chStart, hok, ne_eq, not_true_eq_false, if_false, hdesc]

theorem chPause_eq : (chPause s c).1 =
    if (getChan s c).st = 1 then setChan s c { getChan s c with st := 2, byPark := false } else s := by
  have hlo : ¬ 57 ≤ c := by omega
  by_cases h : (getChan s c).st = 1 <;> simp [chPause, pauseChan, hlo, h]

theorem chResume_eq : (chResume s c).1 =
    if (getChan s c).st = 2 then setChan s c { getChan s c with st := 1 } else s := by
  have hlo : ¬ 57 ≤ c := by omega
  by_cases h : (getChan s c).st = 2 <;> simp [chResume, hlo, h]

theorem chAbort_eq : (chAbort s c).1 =
    if (getChan s c).st = 0 then s else setF (abortChan s c) R.movChStatus_aborted c 1 := by
  have hlo : ¬ 57 ≤ c := by omega
  by_cases h : (getChan s c).st = 0 <;> simp [chAbort, hlo, h]

theorem chReq_counts (hsw : onSoftware s c = true) (hroom : (getChan s c).pending < 65535) :
    (chReq s c).1 = setChan s c { getChan s c with pending := (getChan s c).pending + 1 } := by
  have hst : ¬ ((getChan s c).st ≠ 1 ∧ (getChan s c).st ≠ 2) := by
    have hrun := (Bool.and_eq_true_iff.mp hsw).1
    simp only [Bool.or_eq_true, beq_iff_eq] at hrun
    omega
  have hadm : ¬ (57 ≤ c ∨ (!onSoftware s c) = true) := by simp [hsw, hc]
  rw [chReq, if_neg hadm, addRequest, if_neg hst, if_pos hroom]

end

/-- A privileged channel takes no command of software (R369, R381). -/
theorem chCommands_privileged {s : State} {c : Nat} (hc : 57 ≤ c) : (chStart s c).1 = s ∧ (chPause s c).1 = s ∧
    (chResume s c).1 = s ∧ (chAbort s c).1 = s ∧ (chReq s c).1 = s := by
  simp [chStart, chStartStatus, chPause, chResume, chAbort, chReq, hc]

/-! ## Rates (R376) -/

theorem onPaced_on {c : Nat} {f : State → State} {s : State} (hlo : 57 ≤ c) (hhi : c < 64) (hon : s.board.railsOn = true) :
    (if 57 ≤ c ∧ c < 64 then .next (live f s) else .fault .noSuchUnit : Out) = .next (f s) := by
  rw [if_pos ⟨hlo, hhi⟩, live_on hon]

theorem shareStatus_eq_zero_iff (c v : Nat) : shareStatus c v = 0 ↔ shareFloor c ≤ v ∧ v ≤ 256 := by
  unfold shareStatus
  split <;> simp <;> omega

theorem writeShare_eq (c v : Nat) (s : State) : writeShare c v s =
    if shareFloor c ≤ v ∧ v ≤ 256 then setF s R.movRate_share (c - 57) v else s := by
  simp only [writeShare, shareStatus_eq_zero_iff]

/-- A window's bytes in a bucket, up to twice that. -/
def bucketFilled (s : State) (c : Nat) : Chan :=
  { getChan s c with
    bucket := min (2 * (getF s R.movRate_share (c - 57) * refRate c))
      ((getChan s c).bucket + getF s R.movRate_share (c - 57) * refRate c) }

theorem fillBucket_eq (s : State) (c : Nat) : fillBucket s c = setChan s c (bucketFilled s c) := rfl

/-- Buckets are filled channel by channel: each of the listed ones once, from what it was before. -/
theorem getChan_fillBuckets {l : List Nat} (hl : l.Nodup) (s : State) (c : Nat) :
    getChan (forEach l fillBucket s) c = if c ∈ l then bucketFilled s c else getChan s c := by
  split
  · next hc =>
    let seen (t : State) := (getChan t c, getF t R.movRate_share (c - 57))
    have hfill : seen (forEach l fillBucket s) = (bucketFilled s c, getF s R.movRate_share (c - 57)) := by
      refine forEach_at seen hl hc (fun b _ hb t => ?_) (fun t ht => ?_)
      · exact Prod.ext (getChan_setChan_ne t _ (Ne.symm hb)) rfl
      · obtain ⟨hchan, hshare⟩ := Prod.mk.inj ht
        refine Prod.ext ((getChan_setChan t c _).trans ?_) hshare
        unfold bucketFilled
        rw [hchan, hshare]
    exact congrArg Prod.fst hfill
  · next hc =>
    exact forEach_frame_mem (fun t => getChan t c) (fun b hb t => getChan_setChan_ne t _ (fun e => hc (e ▸ hb))) s

theorem rateWindow_frame {β : Type} (g : State → β) (hg : ∀ t c k, g (setChan t c k) = g t) (s : State) :
    g (rateWindow s) = g s := forEach_frame g (fun t c => hg t c _) _ s

theorem mem_rangeFrom {a n c : Nat} : c ∈ rangeFrom a n ↔ a ≤ c ∧ c < a + n := by
  simp only [rangeFrom, List.mem_map, List.mem_range]
  constructor
  · rintro ⟨i, hi, rfl⟩; omega
  · exact fun h => ⟨c - a, by omega, by omega⟩

theorem rangeFrom_nodup (a n : Nat) : (rangeFrom a n).Nodup :=
  List.nodup_range.map (fun _ _ h => Nat.add_left_cancel h)

theorem getChan_congr {s t : State} (h : t.movs = s.movs) (c : Nat) : getChan t c = getChan s c := by
  unfold getChan; rw [h]

/-- A channel's alarm that is due is raised (R376), once. -/
theorem rateHeld_alarms {s : State} {c : Nat} (hheld : (getChan s c).held = true) (hnew : (getChan s c).alarmed = false)
    (hdue : (getChan s c).heldSince + 25 * getF s R.movCtl_rateAlarmUs ≤ s.now) (hbytes : pendingBytes s c ≠ 0) :
    rateHeld c s = raise (setChan s c { getChan s c with alarmed := true }) 0xA004 cPkg c
      (min (2 ^ 32 - 1) (pendingBytes s c)) := if_pos (by simp [hheld, hnew, hdue, hbytes])

theorem rateHeld_alarmed {s : State} {c : Nat} (h : (getChan s c).alarmed = true) : rateHeld c s = s :=
  if_neg (by simp [h])

/-- Settles O54: each command by its own equation, the buckets filled one after the other, the alarm that shows it was raised. -/
theorem channelCommands : Obligations.ChannelCommands := by
  unfold Obligations.ChannelCommands
  refine ⟨fun s c hc hon hst hm => ?_, fun s c hc hon => ?_, fun s c hc hon => ?_, fun s c hc hon => ?_,
    fun s c hc hon hsw hroom => ?_, fun s c hlo hhi hon => ?_, fun s c v hlo hhi hon => ?_, fun s hon => ?_,
    fun s c hlo hhi hon hheld hnew hdue hbytes => ?_⟩
  · exact (onUnit_on (by omega) hon).trans (congrArg _ (chStart_starts hc hst hm))
  · exact (onUnit_on (by omega) hon).trans (congrArg _ (chPause_eq hc))
  · exact (onUnit_on (by omega) hon).trans (congrArg _ (chResume_eq hc))
  · refine ⟨_, (onUnit_on (by omega) hon).trans (congrArg _ (chAbort_eq hc)), ?_⟩
    split
    · exact ⟨rfl, rfl, rfl⟩
    · refine ⟨rfl, rfl, ?_, ?_, getF_setF _ _ _ _⟩ <;> rw [getChan_setF, abortChan, getChan_setChan]
  · exact (onUnit_on (by omega) hon).trans (congrArg _ (chReq_counts hc hsw hroom))
  · obtain ⟨hstart, hpause, hresume, habort, hreq⟩ := chCommands_privileged (s := s) hlo
    exact ⟨(onUnit_on hhi hon).trans (congrArg _ hstart), (onUnit_on hhi hon).trans (congrArg _ hpause),
      (onUnit_on hhi hon).trans (congrArg _ hresume), (onUnit_on hhi hon).trans (congrArg _ habort),
      (onUnit_on hhi hon).trans (congrArg _ hreq)⟩
  · exact (onPaced_on hlo hhi hon).trans (congrArg _ (writeShare_eq c v s))
  · refine ⟨_, inModule_on hon, rateWindow_frame State.reg (fun _ _ _ => rfl) s,
      rateWindow_frame State.mem (fun _ _ _ => rfl) s, rateWindow_frame State.mode (fun _ _ _ => rfl) s, fun c => ?_⟩
    have hfill := getChan_fillBuckets (rangeFrom_nodup 57 7) s c
    simp only [mem_rangeFrom] at hfill
    exact hfill
  · have halarm := rateHeld_alarms hheld hnew hdue hbytes
    refine ⟨_, (onPaced_on hlo hhi hon).trans (congrArg _ halarm), raise_mode _ _ _ _ _, ?_, ?_⟩
    · rw [getChan_congr (raise_movs _ _ _ _ _), getChan_setChan]
    · refine (onPaced_on hlo hhi (by rw [raise_board]; exact hon)).trans (congrArg _ (rateHeld_alarmed ?_))
      rw [getChan_congr (raise_movs _ _ _ _ _), getChan_setChan]

end Sys2Proof.Machine
end

section
/-! The statement on the feed (R407 to R411): a frame that is admitted is staged, a count is kept within its bounds, an idle feed
takes a new ring. -/
namespace Sys2Proof.Machine
open Sys2Proof

/-! ## Flow control toward the host (R409, R411) -/

/-- From `s` to `t` the frames to send and the feed's own pause conditions may differ, and nothing else. -/
structure OnlyFlow (s t : State) : Prop where
  eq : t = { s with prt := t.prt, feed := { s.feed with xoffRing := t.feed.xoffRing, xoffStage := t.feed.xoffStage } }

theorem setXoff_host_eq (s : State) (prio : Nat) (on : Bool) :
    setXoff s 24 prio on = { s with prt := (setXoff s 24 prio on).prt } := by
  unfold setXoff
  simp only [showXoff_host]
  split
  · rfl
  · split
    · rfl
    · rfl

theorem feedFlow_only (s : State) : OnlyFlow s (feedFlow s) := by
  unfold feedFlow
  extract_lets run gap used ring n stage
  constructor
  have h := setXoff_host_eq { s with feed := { s.feed with xoffRing := ring, xoffStage := stage } }
    (getF s R.hstCtl_feedPcp) (ring || stage)
  rw [h]

namespace OnlyFlow
variable {s t : State} (h : OnlyFlow s t)
include h

theorem mode : t.mode = s.mode := (congrArg State.mode h.eq).trans rfl
theorem mem : t.mem = s.mem := (congrArg State.mem h.eq).trans rfl
theorem reg : t.reg = s.reg := (congrArg State.reg h.eq).trans rfl
theorem ses : t.ses = s.ses := (congrArg State.ses h.eq).trans rfl
theorem staging : t.feed.staging = s.feed.staging := (congrArg (fun t => t.feed.staging) h.eq).trans rfl
theorem prefixEnd : t.feed.p = s.feed.p := (congrArg (fun t => t.feed.p) h.eq).trans rfl
theorem written : t.feed.written = s.feed.written := (congrArg (fun t => t.feed.written) h.eq).trans rfl

end OnlyFlow

/-! ## Feed frames (R407, R408) -/

theorem received_of_hearsFeed {s : State} {f : FeedFrame} (h : s.hearsFeed f) (g : State → State) :
    received s f.rx (getF s R.hstCtl_feedUdp) g = g s := by
  obtain ⟨-, hport, hopen, hkept, hudp⟩ := h
  simp [received, hport, hopen, hkept, hudp]

/-- A frame without fault is well formed, and its tag is the session's. -/
theorem feedFault_eq_zero {s : State} {f : FeedFrame} (h : feedFault s f = 0) :
    (feedForm f && feedAuthentic s f) = true := by
  unfold feedFault at h
  by_cases hform : feedForm f = true
  · by_cases hauth : feedAuthentic s f = true
    · rw [hform, hauth]; rfl
    · simp [hform, hauth] at h
  · simp [hform] at h

theorem takeFeed_admitted {s : State} {f : FeedFrame} (h : feedFault s f = 0) : takeFeed f s =
    feedFlow { s with ses := { s.ses with lastRx := s.now }, feed := { s.feed with staging := s.feed.staging ++ [f] } } := by
  have hheard : feedHeard s f = { s with ses := { s.ses with lastRx := s.now } } := if_pos (feedFault_eq_zero h)
  have hfault : feedFault ({ s with ses := { s.ses with lastRx := s.now } } : State) f = 0 := h
  simp only [takeFeed, hheard, hfault, ne_eq, not_true_eq_false, if_false]

/-! ## The registers of the ring (R410) -/

theorem consumedStatus_eq_zero_iff (s : State) (v : Nat) : consumedStatus s v = 0 ↔ feedC s ≤ v ∧ v ≤ s.feed.p := by
  unfold consumedStatus
  split <;> simp <;> omega

theorem getF_feedReset {f : Field} {u : Nat} (hp : fkey f u ≠ fkey R.hstFeedPrefix_prefix 0)
    (hc : fkey f u ≠ fkey R.hstFeedConsumed_consumed 0) (s : State) : getF (feedReset s) f u = getF s f u := by
  unfold feedReset
  rw [getF_congr (feedFlow_only _).reg, setFs, List.foldl_cons, List.foldl_cons, List.foldl_nil, getF_setF_ne _ _ hc,
    getF_setF_ne _ _ hp]
  rfl

/-- The feed begins again: its counts are 0 and nothing waits, and memory stands. -/
theorem feedReset_empty (s : State) : feedC (feedReset s) = 0 ∧ (feedReset s).feed.p = 0 ∧ (feedReset s).feed.staging = [] ∧
    (feedReset s).feed.written = [] ∧ (feedReset s).mem = s.mem ∧ (feedReset s).mode = s.mode := by
  unfold feedReset
  have k := feedFlow_only (setFs { s with feed := { s.feed with p := 0, h := 0, written := [], staging := [] } }
    [(R.hstFeedPrefix_prefix, 0), (R.hstFeedConsumed_consumed, 0)])
  refine ⟨?_, k.prefixEnd, k.staging, k.written, k.mem, k.mode⟩
  exact (getF_congr k.reg _ _).trans (getF_setF _ _ _ _)

/-- A new ring stands where it is put, at the size given, and the feed begins again. -/
theorem writeFeedCfg_fields {s : State} {v : Nat} (h : feedCfgStatus s v = 0) :
    getF (writeFeedCfg v s) R.hstFeedCfg_base64k = bits v 47 16 ∧ feedSize (writeFeedCfg v s) = 2 ^ bits v 5 0 := by
  rw [writeFeedCfg, if_pos h]
  constructor
  · rw [getF_feedReset (by decide) (by decide), setFs, List.foldl_cons, List.foldl_cons, List.foldl_nil,
      getF_setF_ne _ _ (show fkey R.hstFeedCfg_base64k 0 ≠ fkey R.hstFeedCfg_sizeLog2 0 by decide), getF_setF]
    exact bits_mod v 47 16
  · unfold feedSize
    rw [getF_feedReset (by decide) (by decide), setFs, List.foldl_cons, List.foldl_cons, List.foldl_nil, getF_setF]
    exact congrArg _ (bits_mod v 5 0)

/-- Settles O58: what an admitted frame, a count and a new ring change is followed by flow control, which leaves all of it. -/
theorem feedRing : Obligations.FeedRing := by
  unfold Obligations.FeedRing
  refine ⟨fun s f h hfault => ?_, fun s v hon => ?_, fun s v hon => ?_⟩
  · have k := feedFlow_only { s with ses := { s.ses with lastRx := s.now }, feed := { s.feed with staging := s.feed.staging ++ [f] } }
    have hstep : exec (.feedFrame f) s = .next (takeFeed f s) := by
      refine (inModule_on h.1).trans (congrArg _ ?_)
      rw [received_of_hearsFeed h, if_neg (fun hne => hne h.2.1)]
    rw [takeFeed_admitted hfault] at hstep
    exact ⟨_, hstep, k.staging, congrArg Session.lastRx k.ses, k.mem, k.mode⟩
  · have hstep : exec (.feedConsumedWrite v) s = .next (writeConsumed (v % 2 ^ 64) s) := inModule_on hon
    refine ⟨_, hstep, ?_⟩
    simp only [← consumedStatus_eq_zero_iff]
    by_cases h : consumedStatus s (v % 2 ^ 64) = 0
    · have k := feedFlow_only (setF s R.hstFeedConsumed_consumed 0 (v % 2 ^ 64))
      rw [if_pos h, writeConsumed, if_pos h]
      refine ⟨k.mem, k.mode, (getF_congr k.reg _ _).trans ?_⟩
      rw [getF_setF]
      exact Nat.mod_mod v (2 ^ 64)
    · rw [if_neg h, writeConsumed, if_neg h]
      exact ⟨rfl, rfl, rfl⟩
  · refine ⟨_, inModule_on hon, ?_⟩
    by_cases h : feedCfgStatus s v = 0
    · obtain ⟨hbase, hsize⟩ := writeFeedCfg_fields h
      rw [if_pos h]
      rw [writeFeedCfg, if_pos h] at hbase hsize ⊢
      obtain ⟨hc, hp, hstage, hwritten, hmem, hmode⟩ :=
        feedReset_empty (setFs s [(R.hstFeedCfg_base64k, bits v 47 16), (R.hstFeedCfg_sizeLog2, bits v 5 0)])
      exact ⟨hmem, hmode.trans (setFs_mode s _), hbase, hsize, hc, hp, hstage, hwritten⟩
    · rw [if_neg h, writeFeedCfg, if_neg h]
      exact ⟨rfl, rfl, rfl⟩

end Sys2Proof.Machine
end

section
/-! The statement on SLOT_UPDATE and FW_UPDATE (R464, R465, R471): what an applied record leaves of the slots, the epoch and the
firmware copies stands through the event, the completion and the session's end. -/
namespace Sys2Proof.Machine
open Sys2Proof

/-! ## Key slots (R464) -/

theorem setSlot_nv (s : State) (i : Nat) (k : KeySlot) :
    (setSlot s i k).nv = { s.nv with slots := s.nv.slots.set i k } := by
  rw [(setSlot_onlyReg s i k).eq]

theorem setSlot_mode (s : State) (i : Nat) (k : KeySlot) : (setSlot s i k).mode = s.mode := by
  rw [(setSlot_onlyReg s i k).eq]

theorem slotAt_congr {s t : State} (h : t.nv = s.nv) (i : Nat) : slotAt t i = slotAt s i := by
  unfold slotAt; rw [h]

/-- Folds whose steps agree on a part of the state wherever the states do agree on it at the end. -/
theorem forEach_congr {α β : Type} (g : State → β) {f : State → α → State}
    (hf : ∀ s t a, g t = g s → g (f t a) = g (f s a)) (l : List α) {s t : State} (h : g t = g s) :
    g (forEach l f t) = g (forEach l f s) := by
  induction l generalizing s t with
  | nil => exact h
  | cons a r ih => exact ih (hf s t a h)

theorem applySlot_nv_congr {s t : State} (h : t.nv = s.nv) (slot op : Nat) (key : Bytes) :
    (applySlot t slot op key).nv = (applySlot s slot op key).nv := by
  unfold applySlot
  split
  · rw [setSlot_nv, setSlot_nv, h]
  · rw [setSlot_nv, setSlot_nv, h, slotAt_congr h]
  · exact forEach_congr State.nv (fun a b i e => by rw [setSlot_nv, setSlot_nv, e]) _ h

theorem applySlot_mode (s : State) (slot op : Nat) (key : Bytes) : (applySlot s slot op key).mode = s.mode := by
  unfold applySlot
  split
  · exact setSlot_mode _ _ _
  · exact setSlot_mode _ _ _
  · exact forEach_frame State.mode (fun t i => setSlot_mode t i _) _ s

/-! ## The session's end leaves the slots and the epoch (R464, R465) -/

theorem OnlyCompletes.nv {s t : State} (h : OnlyCompletes s t) : t.nv = s.nv := (congrArg State.nv h.eq).trans rfl

theorem setFs_nv (s : State) (l : List (Field × Nat)) : (setFs s l).nv = s.nv := by rw [(OnlyReg.setFs s l).eq]

theorem closeSession_nv (s : State) (cause : Nat) : (closeSession s cause).nv = s.nv := by
  unfold closeSession
  split
  · rfl
  · exact (setFs_nv _ _).trans (raise_nv _ _ _ _ _)

theorem closeSession_mode (s : State) (cause : Nat) : (closeSession s cause).mode = s.mode := by
  obtain ⟨-, hmode, -⟩ := closeSession_frame s cause
  exact hmode

theorem getF_closeSession_epoch (s : State) (cause : Nat) :
    getF (closeSession s cause) R.secEpoch_epoch = getF s R.secEpoch_epoch := by
  unfold closeSession
  split
  · rfl
  · extract_lets t kept u
    rw [getF_setFs_ne _ _ (by simp only [List.forall_mem_cons]; decide)]
    exact getF_raise (by decide) s _ _ _ _

/-! ## SLOT_UPDATE (R464, R465) -/

section
variable {s : State} {ring : Nat} {c : CmdRec}

theorem taken_mode (s : State) (ring : Nat) : (s.taken ring).mode = s.mode := rfl

theorem getF_taken_ring {op : Nat} (h : s.holds ring op c) :
    getF (s.taken ring) R.ctlRingStatus_completed c.ring = getF s R.ctlRingStatus_completed c.ring := by
  rw [holds_ring h, getF_taken_completed]

/-- A command that READY admits runs in READY. -/
theorem takeCmd_ready {op : Nat} (h : s.holds ring op c) (hop : opcodes.contains op = true) (hm : s.mode = .ready)
    (run : State → CmdRec → State) :
    takeCmd ring op s (fun s c => legalIn (s.mode == .ready) s c run) = .next (run (s.taken ring) c) := by
  rw [takeCmd_of_holds h hop, legalIn, taken_mode, hm]
  rfl

/-- A record that is not applied ends with its status alone. -/
theorem slotUpdate_refuses (hin : inHbm (arg c 0) 224 = true) (hst : slotStatus s (readBytes s (arg c 0) 224) ≠ 0) :
    slotUpdate s c = complete s c (slotStatus s (readBytes s (arg c 0) 224)) 0 := by
  simp only [slotUpdate, hin, Bool.not_true, Bool.false_eq_true, if_false, if_pos hst]

/-- A record that is applied: the slots, then the epoch, the event, the completion, and the session may close. -/
theorem slotUpdate_applies (hin : inHbm (arg c 0) 224 = true) {b : Bytes} (hb : readBytes s (arg c 0) 224 = b)
    (hst : slotStatus s b = 0) : (slotUpdate s c).nv = (applySlot s (fieldAt b 0 1) (fieldAt b 2 1) (slice b 0x20 57)).nv ∧
      getF (slotUpdate s c) R.secEpoch_epoch = fieldAt b 8 8 ∧ (slotUpdate s c).mode = s.mode := by
  simp only [slotUpdate, hin, Bool.not_true, Bool.false_eq_true, if_false, hb, hst, ne_eq, not_true_eq_false]
  generalize hu : setF (applySlot s (fieldAt b 0 1) (fieldAt b 2 1) (slice b 0x20 57)) R.secEpoch_epoch 0 (fieldAt b 8 8) = u
  generalize hv : complete (raise u 0xE004 cPkg (fieldAt b 0 1) (fieldAt b 2 1)) c 0 0 = v
  have k : OnlyCompletes (raise u 0xE004 cPkg (fieldAt b 0 1) (fieldAt b 2 1)) v := hv ▸ OnlyCompletes.complete _ _ _ _
  have hnv : v.nv = (applySlot s (fieldAt b 0 1) (fieldAt b 2 1) (slice b 0x20 57)).nv := by
    rw [k.nv, raise_nv, ← hu, setF_nv]
  have hepoch : getF v R.secEpoch_epoch = fieldAt b 8 8 := by
    rw [← hv, getF_complete (by decide), getF_raise (by decide), ← hu, getF_setF]
    exact fieldAt_mod b 8 8
  have hmode : v.mode = s.mode := by
    rw [k.mode, raise_mode, ← hu, setF_mode, applySlot_mode]
  split
  · exact ⟨(closeSession_nv v 5).trans hnv, (getF_closeSession_epoch v 5).trans hepoch, (closeSession_mode v 5).trans hmode⟩
  · exact ⟨hnv, hepoch, hmode⟩

/-! ## FW_UPDATE (R471) -/

theorem fwUpdate_eq (hlo : 192 ≤ arg c 1) (hhi : arg c 1 ≤ 2 ^ 24) (hin : inHbm (arg c 0) (arg c 1) = true) {b : Bytes}
    (hb : readBytes s (arg c 0) (arg c 1) = b) : fwUpdate s c =
    if fwStatus s b (arg c 1) = 0 then
      complete (raise (stageFirmware s ⟨shake256 b 64, fieldAt b 6 2, Config.fwVersion (shake256 b 64)⟩) 0xE005 cPkg 0
        (fieldAt b 6 2)) c 0 0
    else complete s c (fwStatus s b (arg c 1)) 0 := by
  have hlen : ¬ (arg c 1 < 192 ∨ 2 ^ 24 < arg c 1) := by omega
  simp only [fwUpdate, if_neg hlen, hin, Bool.not_true, Bool.false_eq_true, if_false, hb, ne_eq, ite_not]

theorem stageFirmware_staged (s : State) (f : FwCopy) : (stageFirmware s f).nv.fwStaged = true ∧
    getF (stageFirmware s f) R.secFw_staged = 1 ∧ (stageFirmware s f).mode = s.mode ∧
    (if getF s R.secFw_runningCopy = 0 then (stageFirmware s f).nv.fwB = f ∧ (stageFirmware s f).nv.fwA = s.nv.fwA
      else (stageFirmware s f).nv.fwA = f ∧ (stageFirmware s f).nv.fwB = s.nv.fwB) := by
  have hshown : getF (stageFirmware s f) R.secFw_staged = 1 := getF_setF _ _ _ _
  refine ⟨?_, hshown, ?_, ?_⟩
  all_goals
    unfold stageFirmware
    by_cases h : getF s R.secFw_runningCopy = 0
    · simp [h]
    · simp [h]

theorem getF_stageFirmware {g : Field} {u : Nat} (h : fkey g u ≠ fkey R.secFw_staged 0) (s : State) (f : FwCopy) :
    getF (stageFirmware s f) g u = getF s g u := by
  unfold stageFirmware
  rw [getF_setF_ne _ _ h]
  split <;> rfl

end

/-- Settles O34: both commands by their own equations, and what they change is read back past the event and the completion. -/
theorem keyAndFirmware : Obligations.KeyAndFirmware := by
  unfold Obligations.KeyAndFirmware
  refine ⟨fun s ring c h hm hin => ?_, fun s ring c h hm hlo hhi hin => ?_⟩
  · intro b st
    have hb : readBytes (s.taken ring) (arg c 0) 224 = b := rfl
    refine ⟨_, takeCmd_ready h (by decide) hm slotUpdate, ?_⟩
    by_cases hst : st = 0
    · rw [if_pos hst]
      obtain ⟨hnv, hepoch, hmode⟩ := slotUpdate_applies hin hb hst
      exact ⟨hmode, by rw [hnv, applySlot_nv_congr (s := s) (t := s.taken ring) rfl], hepoch⟩
    · have k := OnlyCompletes.complete (s.taken ring) c st 0
      rw [if_neg hst, slotUpdate_refuses hin (by rw [hb]; exact hst), hb]
      exact ⟨k.mode, k.nv, (getF_complete (by decide) _ _ _ _).trans (getF_taken h.1 (by decide)),
        completes_complete (getF_taken_ring h) st 0⟩
  · intro b st
    have hb : readBytes (s.taken ring) (arg c 0) (arg c 1) = b := rfl
    refine ⟨_, takeCmd_ready h (by decide) hm fwUpdate, ?_⟩
    rw [fwUpdate_eq hlo hhi hin hb]
    by_cases hst : st = 0
    · have hkey : ∀ r < 2, fkey R.ctlRingStatus_completed r ∉ eventKeys := by decide
      have hring : c.ring < 2 := by rw [holds_ring h]; exact h.1
      obtain ⟨hstaged, hshown, hmode, hcopies⟩ := stageFirmware_staged (s.taken ring)
        ⟨shake256 b 64, fieldAt b 6 2, Config.fwVersion (shake256 b 64)⟩
      rw [getF_taken h.1 (by decide)] at hcopies
      rw [if_pos hst, if_pos hst]
      generalize hu : stageFirmware (s.taken ring) ⟨shake256 b 64, fieldAt b 6 2, Config.fwVersion (shake256 b 64)⟩ = u at *
      have hcount : getF u R.ctlRingStatus_completed c.ring = getF s R.ctlRingStatus_completed c.ring := by
        rw [← hu, getF_stageFirmware (fkey_ne_of_lo (by decide) _ _), getF_taken_ring h]
      have k := OnlyCompletes.complete (raise u 0xE005 cPkg 0 (fieldAt b 6 2)) c 0 0
      have hnv : (complete (raise u 0xE005 cPkg 0 (fieldAt b 6 2)) c 0 0).nv = u.nv := k.nv.trans (raise_nv _ _ _ _ _)
      refine ⟨k.mode.trans ((raise_mode _ _ _ _ _).trans hmode), ?_, ?_, ?_, ?_⟩
      · rw [hst]
        exact completes_complete (by rw [getF_raise (hkey _ hring), hcount]) 0 0
      · rw [hnv, hstaged]
      · rw [getF_complete (by decide), getF_raise (by decide), hshown]
      · rw [hnv]; exact hcopies
    · have k := OnlyCompletes.complete (s.taken ring) c st 0
      rw [if_neg hst, if_neg hst]
      exact ⟨k.mode, completes_complete (getF_taken_ring h) st 0, k.nv⟩

end Sys2Proof.Machine
end

section
/-! What the end of a securing, the report of gate-complete and the loss of a port leave of register fields elsewhere, with no token
held and no command in progress (R151, R391, R392, R446, R451, R453). -/
namespace Sys2Proof.Machine
open Sys2Proof

/-- The keys that a team port's loss, the end of a securing and the report of gate-complete set, but for the rings' counts of
completions. -/
def lossKeys : List Nat :=
  eventKeys ++ [fkey R.pairStatus_team 0, fkey R.pairStatus_cause 0, fkey R.pairStatus_port0Up 0, fkey R.pairStatus_port1Up 0,
    fkey R.pairPrev_previous 0, fkey R.pairSecure_prevValid 0, fkey R.pairSecure_committed 0, fkey R.pairSecure_inFlight 0,
    fkey R.pairSecure_pagesLeft 0, fkey R.hrnStatus_heldAmends 0, fkey R.hrnStatus_structuralHeld 0,
    fkey R.hrnHeld_heldBytes 0, fkey R.hrnPlanNext_planTag 0, fkey R.brdStatus_votesRunning 0, fkey R.ctlState_haltCause 0,
    fkey R.ctlState_haltStateLosing 0, fkey R.gteStatus_haltPending 0, fkey R.gteStatus_gateComplete 0,
    fkey R.gteStatus_lastWindowTicks 0, fkey R.genPass_pass 0]

/-- No field of `K` is one of those. -/
structure AwayFromLoss (K : List Nat) : Prop where
  keys : ∀ k ∈ K, k ∉ lossKeys
  lo : ∀ k ∈ K, k % 64 ≠ 32

namespace AwayFromLoss
variable {K : List Nat} (hK : AwayFromLoss K)
include hK

theorem setF {f : Field} (h : fkey f 0 ∈ lossKeys) (s : State) (v : Nat) : KeepsKeys K s (setF s f 0 v) :=
  .setF (fun m => hK.keys _ m h) s v

theorem setFs {l : List (Field × Nat)} (h : ∀ f ∈ l.map Prod.fst, fkey f 0 ∈ lossKeys) (s : State) :
    KeepsKeys K s (setFs s l) := .setFs (fun f hf m => hK.keys _ m (h f hf)) s

theorem raise (s : State) (code coord d0 d1 : Nat) : KeepsKeys K s (raise s code coord d0 d1) :=
  .ofReg (.raise s code coord d0 d1) (fun k m e => hK.keys k m (List.mem_append_left _ e))

/-! ## A securing's end, and a team that breaks (R446, R451) -/

theorem stepSecured (s : State) : KeepsKeys K s (stepSecured s) := by
  unfold Machine.stepSecured
  split
  · exact .refl s
  · exact ((KeepsKeys.same (by rfl)).trans (hK.setFs (by simp only [List.map_cons, List.map_nil]; decide) _)).trans
      (hK.raise _ _ _ _ _)

theorem endSecuring (s : State) : KeepsKeys K s (endSecuring s) := by
  unfold Machine.endSecuring
  split
  · exact .refl s
  · extract_lets t
    have h : KeepsKeys K s t := .same rfl
    exact .ite (fun _ => h.trans (.same rfl)) (fun _ => h.trans (hK.stepSecured t))

theorem sweepPages (s : State) : KeepsKeys K s (sweepPages s) := by
  unfold Machine.sweepPages
  refine .ite (fun _ => ?_) (fun _ => .refl s)
  extract_lets _ t u
  have ht : KeepsKeys K s t := (KeepsKeys.same (by rfl)).trans (hK.setF (by decide) _ _)
  have hu : KeepsKeys K s u := ht.trans (hK.setF (by decide) _ _)
  exact .ite (fun _ => hu.trans (hK.endSecuring u)) (fun _ => hu)

theorem breakTeam (s : State) (cause : Nat) : KeepsKeys K s (breakTeam s cause) := by
  unfold Machine.breakTeam
  refine .ite (fun _ => ?_) (fun _ => .refl s)
  extract_lets sent t
  have ht : KeepsKeys K s t := (hK.setFs (by simp only [List.map_cons, List.map_nil]; decide) s).trans (hK.raise _ _ _ _ _)
  exact .ite (fun _ => ht.trans (hK.stepSecured t)) (fun _ => ht.trans (hK.sweepPages t))

/-! ## The report of gate-complete (R151, R453) -/

theorem complete (s : State) (c : CmdRec) (status detail : Nat) : KeepsKeys K s (complete s c status detail) := by
  refine (KeepsKeys.setF (fun m => hK.lo _ m ?_) s _).trans (.same (sendNumbered_reg _ _))
  simp only [fkey, R.ctlRingStatus_completed]
  omega

theorem finish (s : State) (c : CmdRec) (status detail : Nat) : KeepsKeys K s (finish s c status detail) :=
  (KeepsKeys.same (by rfl)).trans (hK.complete _ c status detail)

theorem dropAmends (s : State) (status : Nat) : KeepsKeys K s (dropAmends s status) := by
  unfold Machine.dropAmends
  extract_lets t _ u
  have ht : KeepsKeys K s t := .forEach (fun t a _ => hK.complete t a.cmd status 0) s
  have hu : KeepsKeys K s u :=
    (ht.trans (.same (by rfl))).trans (hK.setFs (by simp only [List.map_cons, List.map_nil]; decide) _)
  exact hu.trans (hK.setF (by decide) _ _)

theorem stopCompute (s : State) : KeepsKeys K s (stopCompute s) := by
  unfold Machine.stopCompute
  extract_lets a b c _ d
  have ha : KeepsKeys K s a := .forEach (fun t p _ => by unfold pauseChan; exact .ite (fun _ => .same rfl) (fun _ => .refl t)) s
  have hb : KeepsKeys K s b := ha.trans (.forEach (fun t p _ => .same (by rfl)) _)
  have hc : KeepsKeys K s c := hb.trans (hK.setF (by decide) _ _)
  clear_value c
  have hd : KeepsKeys K s d := hc.trans (.same rfl)
  exact hd.trans (.forEach (fun t z _ => .same (by rfl)) _)

theorem enterHalted {s : State} (h : s.job.running = none) (cause : Nat) : KeepsKeys K s (enterHalted s cause false) := by
  unfold Machine.enterHalted
  refine .ite (fun _ => .refl s) (fun _ => ?_)
  rw [show Machine.endRunning s = s by rw [Machine.endRunning, h]]
  extract_lets a _ b c d
  have ha : KeepsKeys K s a := (hK.dropAmends s 2).trans (hK.stopCompute _)
  clear_value a
  have hc : KeepsKeys K s c := ha.trans (.same rfl)
  have hd : KeepsKeys K s d := hc.trans (hK.setFs (by simp only [List.map_cons, List.map_nil]; decide) _)
  clear_value d
  exact hd.trans (.same rfl)

theorem beginSecuring (s : State) : KeepsKeys K s (beginSecuring s) := by
  unfold Machine.beginSecuring
  refine .ite (fun _ => .refl s) (fun _ => ?_)
  extract_lets ps keep _ a b c
  have ha : KeepsKeys K s a := .same rfl
  have hb : KeepsKeys K s b := ha.trans (hK.setFs (by simp only [List.map_cons, List.map_nil]; decide) _)
  have hc : KeepsKeys K s c := hb.trans (hK.raise _ _ _ _ _)
  exact .ite (fun _ => hc.trans (hK.endSecuring c)) (fun _ => hc)

theorem reportGate {s : State} (ht : s.job.token = none) (hr : s.job.running = none) : KeepsKeys K s (reportGate s) := by
  unfold Machine.reportGate
  extract_lets halting held a job b c
  have ha : KeepsKeys K s a := hK.setFs (by simp only [List.map_cons, List.map_nil]; decide) s
  have hja : a.job = s.job := setFs_job _ _
  clear_value a
  have hb : KeepsKeys K s b := (ha.trans (.same (by rfl))).trans (hK.beginSecuring _)
  have hjb : b.job.token = none ∧ b.job.running = none := by
    rw [show b.job = _ from beginSecuring_job _]
    exact ⟨(congrArg Job.token hja).trans ht, (congrArg Job.running hja).trans hr⟩
  clear_value b
  have hc : KeepsKeys K s c := hb.trans (.same (sendNumbered_reg _ _))
  have hjc : c.job.token = none ∧ c.job.running = none := by rw [show c.job = _ from sendNumbered_job _ _]; exact hjb
  clear_value c
  exact .ite (fun _ => (hc.trans (hK.raise _ _ _ _ _)).trans (hK.enterHalted (by rw [raise_job]; exact hjc.2) 2))
    (fun _ => by rwa [tryCommit_none hjc.1])

theorem tryReport {s : State} (ht : s.job.token = none) (hr : s.job.running = none) : KeepsKeys K s (tryReport s) := by
  unfold Machine.tryReport
  refine .ite (fun _ => .refl s) (fun _ => ?_)
  split
  · exact hK.reportGate ht hr
  · exact .same rfl

theorem endJob (s : State) (c : CmdRec) : KeepsKeys K s (endJob s c) := by
  unfold Machine.endJob
  extract_lets a
  have ha : KeepsKeys K s a := (hK.dropAmends s 2).trans (.same (by rfl))
  clear_value a
  exact ((ha.trans (.same (by rfl))).trans (hK.setF (by decide) _ _)).trans (hK.finish _ c 0 0)

/-- What waited for a securing goes on; with no token held and no command in progress, no commit and no unload follows. -/
theorem afterSecured {s : State} (ht : s.job.token = none) (hr : s.job.running = none) : KeepsKeys K s (afterSecured s) := by
  unfold Machine.afterSecured
  extract_lets a
  have ha : KeepsKeys K s a := hK.tryReport ht hr
  split
  · exact .ite (fun _ => ha.trans (hK.endJob a _)) (fun _ => ha)
  · exact ha

/-! ## A port that goes down (R391, R392, R394, R446) -/

theorem sendToken (s : State) (f : TokFrame) : KeepsKeys K s (sendToken s f) := by
  have hnone : ∀ p dst, KeepsKeys K s (noRoute s p dst) := fun p dst =>
    (KeepsKeys.same (by rfl)).trans (hK.raise (stopStall s p) _ _ _ _)
  unfold Machine.sendToken
  refine .ite (fun _ => .same rfl) (fun _ => ?_)
  split
  · exact hnone _ _
  · split
    · exact hnone _ _
    · exact .same rfl

theorem requeue (s : State) (n : Nat) : KeepsKeys K s (requeue s n) := by
  refine (KeepsKeys.same (by rfl)).trans (.forEach (fun t f _ => ?_) _)
  unfold rePort
  refine .ite (fun _ => .same rfl) (fun _ => ?_)
  split
  · exact hK.sendToken t _
  · split
    · exact .same rfl
    · exact .refl t
  · exact .refl t

theorem showTeamPorts (s : State) : KeepsKeys K s (showTeamPorts s) :=
  hK.setFs (by simp only [List.map_cons, List.map_nil]; decide) s

theorem teamPortLost (s : State) (n : Nat) : KeepsKeys K s (teamPortLost s n) := by
  unfold Machine.teamPortLost
  extract_lets a up b
  have ha : KeepsKeys K s a := hK.showTeamPorts s
  have hb : KeepsKeys K s b := ha.trans (hK.raise _ _ _ _ _)
  exact .ite (fun _ => .ite (fun _ => hb.trans (hK.breakTeam b 2)) (fun _ => hb)) (fun _ => ha)

theorem checkMin (s : State) (before : Nat) : KeepsKeys K s (checkMin s before) := by
  unfold Machine.checkMin
  split
  · exact .refl s
  · exact .ite (fun _ => hK.raise _ _ _ _ _) (fun _ => .refl s)

end AwayFromLoss

/-- The fields that a port shows when its link has gone to another state: the state, no weight, and the cause where it is shown. -/
def linkShown (s : State) (n cause st : Nat) : State :=
  let t := setF (setF s R.prtPortStatus_state n st) R.prtPortStatus_weight n 0
  if portOpen s n || cause == 5 || cause == 6 then setF t R.prtPortStatus_downCause n cause else t

/-- Beside the port's own fields, its fall changes the queue, the events and the team. -/
theorem AwayFromLoss.portDown {K : List Nat} (hK : AwayFromLoss K) (s : State) (n cause st : Nat) :
    KeepsKeys K (linkShown s n cause st) (portDown s n cause st) := by
  unfold Machine.portDown linkShown
  extract_lets a was before full b c d
  split
  · have hb : KeepsKeys K (Machine.setF a R.prtPortStatus_downCause n cause) b := hK.raise _ _ _ _ _
    have hc : KeepsKeys K (Machine.setF a R.prtPortStatus_downCause n cause) c :=
      .ite (fun _ => hb.trans (hK.requeue b n)) (fun _ => hb)
    have hd : KeepsKeys K (Machine.setF a R.prtPortStatus_downCause n cause) d :=
      .ite (fun _ => hc.trans (hK.teamPortLost c n)) (fun _ => hc)
    exact hd.trans (hK.checkMin d before)
  · exact .refl a

end Sys2Proof.Machine
end

section
/-! The statement on the ports that come up and go down (R389 to R394): each change of a link's own fields, read back past the events,
the team and the gate's report that may follow it. -/
namespace Sys2Proof.Machine
open Sys2Proof

/-! ## The fields of the links -/

/-- What shows a fabric port's link: state, weight, cause, lane group and enable. -/
def linkFields : List Field :=
  [R.prtPortStatus_state, R.prtPortStatus_weight, R.prtPortStatus_downCause, R.prtPortStatus_laneGroup, R.prtPortCtl_enable]

/-- What shows the links and their lasers: the fabric ports' fields and the host's. -/
def linkKeys : List Nat :=
  [fkey R.bruFit_laserUsable 0, fkey R.hstStatus_state 0, fkey R.hstStatus_downCause 0] ++
    (List.range 24).flatMap (fun n => linkFields.map (fun f => fkey f n))

theorem linkKeys_away : AwayFromLoss linkKeys := ⟨by decide +kernel, by decide +kernel⟩

theorem mem_linkKeys {n : Nat} (hn : n < 24) {f : Field} (hf : f ∈ linkFields) : fkey f n ∈ linkKeys :=
  List.mem_append_right _ (List.mem_flatMap.mpr ⟨n, List.mem_range.mpr hn, List.mem_map_of_mem hf⟩)

/-- The links show the same in both states. -/
abbrev KeepsLinks (s t : State) : Prop := KeepsKeys linkKeys s t

namespace KeepsLinks
variable {s t : State} (h : KeepsLinks s t)
include h

theorem port {n : Nat} (hn : n < 24) {f : Field} (hf : f ∈ linkFields) : getF t f n = getF s f n := h f n (mem_linkKeys hn hf)

theorem hostState : getF t R.hstStatus_state = getF s R.hstStatus_state := h _ 0 (by decide)

theorem hostCause : getF t R.hstStatus_downCause = getF s R.hstStatus_downCause := h _ 0 (by decide)

theorem laserOk (n : Nat) : laserOk t n = laserOk s n := by
  unfold Machine.laserOk
  rw [h R.bruFit_laserUsable 0 (by decide)]

end KeepsLinks

/-! ## A link goes down, an attempt starts (R390 to R393) -/

theorem KeepsLinks.portDown (s : State) (n cause st : Nat) : KeepsLinks (linkShown s n cause st) (portDown s n cause st) :=
  linkKeys_away.portDown s n cause st

theorem getF_linkShown_state (s : State) (n cause st : Nat) : getF (linkShown s n cause st) R.prtPortStatus_state n = st % 8 := by
  unfold linkShown
  extract_lets t
  have ht : getF t R.prtPortStatus_state n = st % 8 := by
    rw [getF_setF_ne _ _ (fkey_ne_of_lo (by decide) n n), getF_setF]
    rfl
  split
  · rw [getF_setF_ne _ _ (fkey_ne_of_lo (by decide) n n), ht]
  · exact ht

theorem getF_linkShown_weight (s : State) (n cause st : Nat) : getF (linkShown s n cause st) R.prtPortStatus_weight n = 0 := by
  unfold linkShown
  extract_lets t
  have ht : getF t R.prtPortStatus_weight n = 0 := getF_setF _ _ _ _
  split
  · rw [getF_setF_ne _ _ (fkey_ne_of_lo (by decide) n n), ht]
  · exact ht

theorem getF_linkShown_downCause {s : State} {n cause : Nat} (h : portOpen s n = true ∨ cause = 5 ∨ cause = 6) (st : Nat) :
    getF (linkShown s n cause st) R.prtPortStatus_downCause n = cause % 16 := by
  have hshow : (portOpen s n || cause == 5 || cause == 6) = true := by
    rcases h with h | h | h <;> simp [h]
  rw [linkShown, if_pos hshow, getF_setF]
  rfl

/-- A field of another place in its word than state, weight and cause reads as before. -/
theorem getF_linkShown_ne {f : Field} (h : f.lo % 64 ∉ [61, 57, 37]) (u : Nat) (s : State) (n cause st : Nat) :
    getF (linkShown s n cause st) f u = getF s f u := by
  simp only [List.mem_cons, List.not_mem_nil, or_false, not_or] at h
  obtain ⟨hstate, hweight, hcause⟩ := h
  unfold linkShown
  extract_lets t
  have ht : getF t f u = getF s f u := by
    rw [getF_setF_ne _ _ (fkey_ne_of_lo hweight u n), getF_setF_ne _ _ (fkey_ne_of_lo hstate u n)]
  split
  · rw [getF_setF_ne _ _ (fkey_ne_of_lo hcause u n), ht]
  · exact ht

theorem laserOk_portDown (s : State) (n cause st m : Nat) : laserOk (portDown s n cause st) m = laserOk s m := by
  rw [(KeepsLinks.portDown s n cause st).laserOk, laserOk, getF_linkShown_ne (by decide)]
  rfl

/-- An attempt trains, or fails for want of a laser. -/
theorem startAttempt_state (s : State) (n : Nat) :
    getF (startAttempt s n) R.prtPortStatus_state n = if laserOk s n = true then 1 else 5 := by
  unfold startAttempt
  cases laserOk s n
  · exact getF_setF _ _ _ _
  · exact (getF_bumpF_ne _ _ (fkey_ne_of_lo (by decide) n n)).trans (getF_setF _ _ _ _)

theorem startAttempt_enable (s : State) (n : Nat) : getF (startAttempt s n) R.prtPortCtl_enable n = getF s R.prtPortCtl_enable n := by
  have hbase : fkey R.prtPortCtl_enable n ≠ fkey R.prtPortStatus_attempts n := by
    simp only [fkey, unitOff, R.prtPortCtl_enable, R.prtPortStatus_attempts]
    simp
  unfold startAttempt
  cases laserOk s n
  · exact getF_setF_ne _ _ (fkey_ne_of_lo (by decide) n n)
  · exact (getF_bumpF_ne _ _ hbase).trans (getF_setF_ne _ _ (fkey_ne_of_lo (by decide) n n))

theorem startAttempt_starts {s : State} {n : Nat} (h : laserOk s n = true) :
    tget? (startAttempt s n).prt.trainStart n = some s.now ∧ (startAttempt s n).mode = s.mode ∧
      (startAttempt s n).mem = s.mem := by
  simp [startAttempt, h, tget?_tset]

/-- A port that keeps its mode as it falls: it was not up, so that no frame waited and no team can break. -/
theorem portDown_mode_training {s : State} {n : Nat} (h : getF s R.prtPortStatus_state n = 1) (hn : n < 24) (cause st : Nat) :
    (portDown s n cause st).mode = s.mode := by
  have hopen : portOpen s n = false := by simp [portOpen, h, show n ≠ 24 by omega]
  have hfull : portUpFull s n = false := by simp [portUpFull, h]
  unfold portDown
  simp only [hopen, hfull, Bool.false_or, Bool.false_eq_true, if_false]
  split
  · unfold checkMin
    split
    · simp
    · split <;> simp
  · rfl

/-! ## The ports come up (R389, R390, R394) -/

theorem portUp_fabric {s : State} {n lanes group : Nat} (hn : n < 24) (hst : getF s R.prtPortStatus_state n = 1)
    (hm : s.mode ≠ .bringup) : (portUp n lanes group s).mode = s.mode ∧
      if lanes = 8 then getF (portUp n lanes group s) R.prtPortStatus_state n = 3
      else getF (portUp n lanes group s) R.prtPortStatus_state n = 4 ∧
        getF (portUp n lanes group s) R.prtPortStatus_laneGroup n = group % 2 := by
  unfold portUp
  rw [if_neg (by omega), if_neg (by simp [hst])]
  extract_lets g t u
  have htm : t.mode = s.mode := by dsimp only [t]; split <;> simp
  have hum : u.mode = s.mode := by rw [show u.mode = t.mode from setFs_mode _ _, htm]
  have hu : KeepsLinks t u := linkKeys_away.showTeamPorts t
  have hstay : (u.mode == .bringup && onF u R.bruStatus_waitingPorts) = false := by
    simp [hum, hm]
  rw [hstay, if_neg Bool.false_ne_true]
  refine ⟨hum, ?_⟩
  rw [hu.port hn (by decide), hu.port hn (f := R.prtPortStatus_laneGroup) (by decide)]
  dsimp only [t]
  split
  · rw [linkKeys_away.raise _ _ _ _ _ _ n (mem_linkKeys hn (by decide)), getF_setF]
    rfl
  · simp only [linkKeys_away.raise _ _ _ _ _ _ n (mem_linkKeys hn (f := R.prtPortStatus_state) (by decide)),
      linkKeys_away.raise _ _ _ _ _ _ n (mem_linkKeys hn (f := R.prtPortStatus_laneGroup) (by decide))]
    rw [getF_setF_ne _ _ (fkey_ne_of_lo (by decide) n n), getF_setF, getF_setF]
    exact ⟨rfl, Nat.mod_mod_of_dvd _ (by decide)⟩

theorem portUp_host {s : State} (hst : getF s R.hstStatus_state = 1) (group : Nat) :
    (portUp 24 8 group s).mode = s.mode ∧ getF (portUp 24 8 group s) R.hstStatus_state = 2 := by
  rw [portUp, if_pos rfl, if_pos ⟨hst, rfl⟩]
  exact ⟨raise_mode _ _ _ _ _, (getF_raise (by decide) _ _ _ _ _).trans (getF_setF _ _ _ _)⟩

theorem hostDown_job (s : State) (cause st : Nat) : (hostDown s cause st).job = s.job := by
  unfold hostDown
  extract_lets was t
  split
  · exact raise_job _ _ _ _ _
  · rfl

/-- The host port that was up shows why it fell. -/
theorem getF_hostDown_cause {s : State} (h : getF s R.hstStatus_state = 2) (cause st : Nat) :
    getF (hostDown s cause st) R.hstStatus_downCause = cause % 16 := by
  unfold hostDown
  rw [h]
  exact (getF_raise (by decide) _ _ _ _ _).trans (getF_setF _ _ _ _)

/-! ## The gate token and the command in progress stand (R147, R149) -/

/-- The token held and the command in progress. -/
def heldWork (s : State) : Option Token × Option Running := (s.job.token, s.job.running)

theorem sendToken_heldWork (s : State) (f : TokFrame) : heldWork (sendToken s f) = heldWork s := by
  have hnone : ∀ p dst, heldWork (noRoute s p dst) = heldWork s := fun p dst => by
    unfold heldWork noRoute
    rw [raise_job]
    rfl
  unfold sendToken
  split
  · rfl
  · split
    · exact hnone _ _
    · split
      · exact hnone _ _
      · rfl

theorem requeue_heldWork (s : State) (n : Nat) : heldWork (requeue s n) = heldWork s := by
  refine forEach_frame heldWork (fun t f => ?_) _ _
  unfold rePort
  split
  · rfl
  · split
    · exact sendToken_heldWork t _
    · split <;> rfl
    · rfl

theorem teamPortLost_job (s : State) (n : Nat) : (teamPortLost s n).job = s.job := by
  unfold teamPortLost
  extract_lets a up b
  have ha : a.job = s.job := setFs_job _ _
  have hb : b.job = s.job := (raise_job _ _ _ _ _).trans ha
  split
  · split
    · exact (breakTeam_job b 2).trans hb
    · exact hb
  · exact ha

theorem checkMin_job (s : State) (before : Nat) : (checkMin s before).job = s.job := by
  unfold checkMin
  split
  · rfl
  · split
    · exact raise_job _ _ _ _ _
    · rfl

theorem portDown_heldWork (s : State) (n cause st : Nat) : heldWork (portDown s n cause st) = heldWork s := by
  unfold portDown
  extract_lets was before full a t b c
  have ht : heldWork t = heldWork s := congrArg (fun j : Job => (j.token, j.running)) (raise_job _ _ _ _ _)
  have hb : heldWork b = heldWork s := by
    dsimp only [b]
    split
    · exact (requeue_heldWork t n).trans ht
    · exact ht
  have hc : heldWork c = heldWork s := by
    dsimp only [c]
    split
    · exact (congrArg (fun j : Job => (j.token, j.running)) (teamPortLost_job b n)).trans hb
    · exact hb
  split
  · exact (congrArg (fun j : Job => (j.token, j.running)) (checkMin_job c before)).trans hc
  · rfl

theorem startAttempt_heldWork (s : State) (n : Nat) : heldWork (startAttempt s n) = heldWork s := by
  unfold startAttempt
  split <;> rfl

/-- With nothing held and nothing in progress, what waited for a securing changes no link. -/
theorem KeepsLinks.afterSecured {s : State} (h : heldWork s = (none, none)) : KeepsLinks s (afterSecured s) := by
  obtain ⟨htoken, hrun⟩ := Prod.mk.inj h
  exact linkKeys_away.afterSecured htoken hrun

/-! ## PORT_LOST, PORT_RETRAIN and PORT_ENABLE (R392, R393) -/

/-- A fall of a fabric port, with what follows it. -/
theorem portDown_settled {s : State} (hwork : heldWork s = (none, none)) (n cause st : Nat) :
    KeepsLinks (linkShown s n cause st) (afterSecured (portDown s n cause st)) :=
  (KeepsLinks.portDown s n cause st).trans (KeepsLinks.afterSecured ((portDown_heldWork s n cause st).trans hwork))

theorem retrainPort_fabric {s : State} {n : Nat} (hn : n < 24) (h : retrainStatus s n = 0) :
    retrainPort n s = startAttempt (if portOpen s n then portDown s n 1 2 else s) n := by
  rw [retrainPort, if_neg (by simp [h]), if_neg (by omega)]

theorem retrainPort_host {s : State} (h : retrainStatus s 24 = 0) : retrainPort 24 s = hostDown s 1 1 := by
  rw [retrainPort, if_neg (by simp [h]), if_pos rfl]

/-- The state of a port whose retraining starts, from a link that was up or not. -/
theorem retrain_state (s : State) (n : Nat) :
    getF (startAttempt (if portOpen s n then portDown s n 1 2 else s) n) R.prtPortStatus_state n =
      if laserOk s n = true then 1 else 5 := by
  rw [startAttempt_state]
  split
  · rw [laserOk_portDown]
  · rfl

theorem laserOk_enabled (s : State) (n v : Nat) : laserOk (setF s R.prtPortCtl_enable n v) n = laserOk s n := by
  have hkey : fkey R.bruFit_laserUsable 0 ≠ fkey R.prtPortCtl_enable n := fkey_ne_of_lo (by decide) 0 n
  rw [laserOk, getF_setF_ne _ _ hkey]
  rfl

/-- A port disabled: shown disabled and down. -/
theorem enablePort_off {s : State} {n : Nat} (hn : n < 24) (hwork : heldWork s = (none, none)) :
    onF (afterSecured (enablePort n false s)) R.prtPortCtl_enable n = false ∧
      getF (afterSecured (enablePort n false s)) R.prtPortStatus_state n = 0 := by
  have hset : onF (setF s R.prtPortCtl_enable n 0) R.prtPortCtl_enable n = false := onF_setF_zero _ _ _
  have hkept : heldWork (setF s R.prtPortCtl_enable n 0) = (none, none) := hwork
  rw [show enablePort n false s = if getF (setF s R.prtPortCtl_enable n 0) R.prtPortStatus_state n = 0
    then setF s R.prtPortCtl_enable n 0 else portDown (setF s R.prtPortCtl_enable n 0) n 5 0 from rfl]
  generalize setF s R.prtPortCtl_enable n 0 = u at hset hkept
  split
  · next hdown =>
    have k := KeepsLinks.afterSecured hkept
    exact ⟨by rw [onF, k.port hn (by decide)]; exact hset, (k.port hn (by decide)).trans hdown⟩
  · have k := portDown_settled hkept n 5 0
    refine ⟨?_, (k.port hn (by decide)).trans (getF_linkShown_state _ _ _ _)⟩
    rw [onF, k.port hn (by decide), getF_linkShown_ne (by decide)]
    exact hset

/-- A port enabled that was not: shown enabled, and its first attempt starts. -/
theorem enablePort_on {s : State} {n : Nat} (hn : n < 24) (hwork : heldWork s = (none, none))
    (hoff : onF s R.prtPortCtl_enable n = false) :
    onF (afterSecured (enablePort n true s)) R.prtPortCtl_enable n = true ∧
      getF (afterSecured (enablePort n true s)) R.prtPortStatus_state n = if laserOk s n = true then 1 else 5 := by
  have hstart : enablePort n true s = startAttempt (setF s R.prtPortCtl_enable n 1) n := by
    simp [enablePort, hoff, b2n]
  have k := KeepsLinks.afterSecured ((startAttempt_heldWork (setF s R.prtPortCtl_enable n 1) n).trans hwork)
  rw [hstart]
  refine ⟨?_, ?_⟩
  · rw [onF, k.port hn (by decide), startAttempt_enable]
    exact onF_setF_one (by decide) s n
  · rw [k.port hn (by decide), startAttempt_state, laserOk_enabled]

theorem exec_portLost {s t : State} {n cause : Nat} (hn : n < 25) (hon : s.board.railsOn = true) (h : portLost n cause s = t) :
    exec (.portLost n cause) s = .next (afterSecured t) := by
  rw [← h]
  exact onUnit_on hn hon

theorem exec_portRetrain {s t : State} {n : Nat} (hn : n < 25) (hon : s.board.railsOn = true) (h : retrainPort n s = t) :
    exec (.portRetrain n) s = .next (afterSecured t) := by
  rw [← h]
  exact onUnit_on hn hon

/-- Settles O56: each change by the fields it sets, and what follows it (events, the team, the gate's report) leaves the links. -/
theorem portStates : Obligations.PortStates := by
  unfold Obligations.PortStates
  refine ⟨fun s n lanes group hn hon hst hm => ?_, fun s group hon hst => ?_, fun s n hn hon hst => ?_,
    fun s n cause hn hc hon hopen ht hr => ?_, fun s cause hc hon hst ht hr => ?_, fun s n hn hon hst hen hlaser hdue => ?_,
    fun s n hn hon hok ht hr => ?_, fun s hon hok ht hr => ?_, fun s n hn hon ht hr => ?_⟩
  · exact ⟨_, onUnit_on (by omega) hon, portUp_fabric hn hst hm⟩
  · exact ⟨_, onUnit_on (n := 25) (u := 24) (by decide) hon, portUp_host hst group⟩
  · have hfail : attemptFailed n s = portDown s n 6 2 := by rw [attemptFailed, if_neg (by omega), if_pos hst]
    have k := KeepsLinks.portDown s n 6 2
    refine ⟨_, (onUnit_on (by omega) hon).trans (congrArg _ hfail), portDown_mode_training hst hn 6 2, ?_, ?_, ?_⟩
    · rw [k.port hn (by decide), getF_linkShown_state]
    · rw [k.port hn (by decide), getF_linkShown_downCause (.inr (.inr rfl))]
    · rw [k.port hn (by decide), getF_linkShown_weight]
  · have hlost : portLost n cause s = portDown s n cause (if cause = 3 then 5 else 2) := by
      rw [portLost, if_neg (by omega), if_pos hopen]
    have k := portDown_settled (Prod.ext ht hr) n cause (if cause = 3 then 5 else 2)
    refine ⟨_, exec_portLost (by omega) hon hlost, ?_, ?_, ?_⟩
    · rw [k.port hn (by decide), getF_linkShown_state]
      split <;> rfl
    · rw [k.port hn (by decide), getF_linkShown_downCause (.inl hopen), Nat.mod_eq_of_lt (by omega)]
    · rw [k.port hn (by decide), getF_linkShown_weight]
  · have hlost : portLost 24 cause s = hostDown s cause 1 := by rw [portLost, if_pos rfl, if_pos hst]
    have k := KeepsLinks.afterSecured (s := hostDown s cause 1) (by unfold heldWork; rw [hostDown_job, ht, hr])
    refine ⟨_, exec_portLost (by omega) hon hlost, ?_, ?_⟩
    · rw [k.hostState, getF_hostDown_state]
    · rw [k.hostCause, getF_hostDown_cause hst, Nat.mod_eq_of_lt (by omega)]
  · have htimer : retrainTimer n s = startAttempt s n := if_pos ⟨hst, hen, hlaser, hdue⟩
    obtain ⟨hstart, hmode, hmem⟩ := startAttempt_starts hlaser
    exact ⟨_, (onUnit_on (by omega) hon).trans (congrArg _ htimer), hmode, hmem,
      (startAttempt_state s n).trans (if_pos hlaser), hstart⟩
  · have hwork : heldWork (startAttempt (if portOpen s n then portDown s n 1 2 else s) n) = (none, none) := by
      rw [startAttempt_heldWork]
      split
      · exact (portDown_heldWork s n 1 2).trans (Prod.ext ht hr)
      · exact Prod.ext ht hr
    refine ⟨_, exec_portRetrain (by omega) hon (retrainPort_fabric hn hok), ?_⟩
    rw [(KeepsLinks.afterSecured hwork).port hn (by decide), retrain_state]
  · have k := KeepsLinks.afterSecured (s := hostDown s 1 1) (by unfold heldWork; rw [hostDown_job, ht, hr])
    refine ⟨_, exec_portRetrain (by omega) hon (retrainPort_host hok), ?_,
      fun hst => ?_⟩
    · rw [k.hostState, getF_hostDown_state]
    · rw [k.hostCause, getF_hostDown_cause hst]
  · have hwork : heldWork s = (none, none) := Prod.ext ht hr
    exact ⟨⟨_, onUnit_on hn hon, enablePort_off hn hwork⟩, fun hoff => ⟨_, onUnit_on hn hon, enablePort_on hn hwork hoff⟩⟩

end Sys2Proof.Machine
end

section
/-! The statement on the traffic of the ports: priority flow control and the counters (R403, R404, R414), the replies of published
protocols (R386, R396, R401), and the order of egress (R402). -/
namespace Sys2Proof.Machine
open Sys2Proof

/-! ## What an event leaves of the ports (R152, R450) -/

/-- From `s` to `t` the ports stand but for the frames that wait to be sent. -/
structure OnlyQueues (s t : State) : Prop where
  prt : t.prt = { s.prt with queue := t.prt.queue }

namespace OnlyQueues
variable {z s t : State}

theorem refl (s : State) : OnlyQueues s s := ⟨rfl⟩

theorem trans (h : OnlyQueues z s) (k : OnlyQueues s t) : OnlyQueues z t := ⟨by rw [k.prt, h.prt]⟩

theorem same (h : t.prt = s.prt := by rfl) : OnlyQueues s t := ⟨by rw [h]⟩

theorem ite {c : Prop} [Decidable c] {a b : State} (ha : OnlyQueues s a) (hb : OnlyQueues s b) :
    OnlyQueues s (if c then a else b) := by
  split
  · exact ha
  · exact hb

theorem forEach {α : Type} {f : State → α → State} (h : ∀ s a, OnlyQueues s (f s a)) (l : List α) (s : State) :
    OnlyQueues s (forEach l f s) := by
  induction l generalizing s with
  | nil => exact refl s
  | cons a l ih => exact (h s a).trans (ih _)

theorem setF (s : State) (f : Field) (u v : Nat) : OnlyQueues s (setF s f u v) := same

theorem setPage (s : State) (p : Page) : OnlyQueues s (setPage s p) := same

theorem quietWrite (s : State) (a : Nat) (b : Bytes) : OnlyQueues s (quietWrite s a b) := same

theorem quietCopy (s : State) (a b n : Nat) : OnlyQueues s (quietCopy s a b n) := same

theorem sendTeam (s : State) (port ftype step page group chunk : Nat) (payload : Bytes) :
    OnlyQueues s (sendTeam s port ftype step page group chunk payload) := ⟨rfl⟩

theorem sendPage (s : State) (src step group page : Nat) : OnlyQueues s (sendPage s src step group page) :=
  forEach (fun t _ => sendTeam t _ _ _ _ _ _ _) _ s

theorem streamPage (s : State) (p : Page) : OnlyQueues s (streamPage s p) := by
  unfold Machine.streamPage
  extract_lets n base j src a b c d e
  have hc : OnlyQueues s c := ((quietCopy s _ _ _).trans (quietWrite _ _ _)).trans (quietWrite _ _ _)
  have hd : OnlyQueues s d := hc.trans (setF c _ _ _)
  have he : OnlyQueues s e := hd.trans (ite (sendPage d _ _ _ _) (refl d))
  exact he.trans (setPage e _)

theorem protect (s : State) (a n : Nat) : OnlyQueues s (protect s a n) := by
  refine forEach (fun t p => ?_) _ s
  unfold protectPage
  split
  · exact OnlyQueues.same
  · exact streamPage t p

theorem write (s : State) (a : Nat) (b : Bytes) : OnlyQueues s (write s a b) :=
  ((protect s a b.length).trans (quietWrite _ a b)).trans same

theorem raise (s : State) (code coord d0 d1 : Nat) : OnlyQueues s (raise s code coord d0 d1) := by
  rcases raise_cases s code coord d0 d1 with e | ⟨-, r, e⟩ | ⟨-, r, e⟩ <;> rw [e]
  · exact refl s
  · unfold logEvent
    exact ite same same
  · unfold ringEvent
    exact ite same ((write _ _ _).trans same)

end OnlyQueues

theorem raise_stormed (s : State) (code coord d0 d1 : Nat) : (raise s code coord d0 d1).prt.stormed = s.prt.stormed  := by
  rw [(OnlyQueues.raise s code coord d0 d1).prt]

/-! ## Priority flow control (R403, R404) -/

theorem showPaused_eq (s : State) (port : Nat) : showPaused s port = { s with reg := (showPaused s port).reg } := by
  unfold showPaused
  split <;> rfl

/-- A named priority's pause ends after its quanta, or at once. -/
theorem pfcOne_pauses (port q time : Nat) (hq : q < 8) (s : State) : (pfcOne port s (q, time)).mode = s.mode ∧
    (pfcOne port s (q, time)).mem = s.mem ∧ tget? (pfcOne port s (q, time)).prt.pauseEnd (prioKey port q) =
      (if time = 0 then none else some (125 * s.now + time * quantum s port)) ∧
    (pfcOne port s (q, time)).prt.queue = s.prt.queue := by
  unfold pfcOne release
  rw [Nat.mod_eq_of_lt hq]
  by_cases ht : time = 0
  · simp only [ht, if_true]
    rw [showPaused_eq]
    exact ⟨rfl, rfl, by simp [tget?_tdel], rfl⟩
  · simp only [ht, if_false]
    rw [showPaused_eq]
    exact ⟨rfl, rfl, by simp [tget?_tset], rfl⟩

theorem release_ends (s : State) (port q : Nat) : (release s port q).mode = s.mode ∧ (release s port q).mem = s.mem ∧
    tget? (release s port q).prt.pauseEnd (prioKey port q) = none ∧ prioKey port q ∉ (release s port q).prt.stormed := by
  unfold release
  rw [showPaused_eq]
  exact ⟨rfl, rfl, by simp [tget?_tdel], by simp⟩

/-- The state with a storm of a priority noted as reported (R404). -/
def noteStorm (s : State) (port q : Nat) : State :=
  { s with prt := { s.prt with stormed := prioKey port q :: s.prt.stormed } }

/-- A storm that is due and not yet reported is reported. -/
theorem pfcStorm_reports {s : State} {port q a : Nat} (hstart : tget? s.prt.pauseStart (prioKey port q) = some a)
    (hdue : a + 25 * getF s R.prtCtl_pfcAlarmUs ≤ s.now) (hnew : prioKey port q ∉ s.prt.stormed) : pfcStorm port q s =
      raise (noteStorm s port q) 0xB005 cPkg port q := by
  simp only [pfcStorm, hstart]
  exact if_pos ⟨hdue, by simp [hnew]⟩

theorem pfcStorm_reported {s : State} {port q : Nat} (h : prioKey port q ∈ s.prt.stormed) : pfcStorm port q s = s := by
  unfold pfcStorm
  dsimp only
  split
  · exact if_neg (fun hc => by simp [h] at hc)
  · rfl

theorem fecDegraded_counts (n k : Nat) (s : State) : (fecDegraded n k s).mode = s.mode ∧ (n < 24 →
    getF (fecDegraded n k s) R.prtPortFec_corrected n =
      min (2 ^ R.prtPortFec_corrected.width - 1) (getF s R.prtPortFec_corrected n + k)) := by
  unfold fecDegraded
  extract_lets t due
  have hkey : ∀ n < 24, fkey R.prtPortFec_corrected n ∉ eventKeys := by decide +kernel
  split
  · exact ⟨raise_mode _ _ _ _ _, fun hn => (getF_raise (hkey n hn) _ _ _ _ _).trans (getF_bumpF _ _ _ _)⟩
  · exact ⟨rfl, fun _ => getF_bumpF _ _ _ _⟩

/-! ## Egress (R37, R402) -/

/-- The smallest of the numbers, where there is one, is one of them. -/
theorem foldl_min_mem {l : List Nat} {m : Option Nat} {i : Nat} (h : l.foldl (fun m i => match m with
    | none => some i
    | some j => some (min i j)) m = some i) : m = some i ∨ i ∈ l := by
  induction l generalizing m with
  | nil => exact .inl h
  | cons a r ih =>
    rcases ih h with hm | hr
    · cases m with
      | none => exact .inr (by simp_all)
      | some j =>
        rcases min_choice a j with e | e <;> simp only [e, Option.some.injEq] at hm
        · exact .inr (by simp [hm])
        · exact .inl (by simp [hm])
    · exact .inr (List.mem_cons_of_mem _ hr)

theorem queueHead_frame {s : State} {port cls prio i : Nat} (h : queueHead s port cls prio = some i) :
    ∃ f, s.prt.queue[i]? = some f ∧ f.port = port ∧ f.cls = cls := by
  unfold queueHead takeFirst at h
  obtain ⟨d, -, hd⟩ := List.mem_filterMap.mp (List.mem_of_head? h)
  obtain ⟨hlt, hfit, -⟩ := List.findIdx?_eq_some_iff_getElem.mp hd
  simp only [Bool.and_eq_true, beq_iff_eq] at hfit
  obtain ⟨⟨⟨⟨hport, hcls⟩, -⟩, -⟩, -⟩ := hfit
  exact ⟨_, List.getElem?_eq_getElem hlt, hport, hcls⟩

/-- The frame that a class gives next waits for this port, in this class. -/
theorem classHead_frame {s : State} {port cls i : Nat} (h : classHead s port cls = some i) :
    ∃ f, s.prt.queue[i]? = some f ∧ f.port = port ∧ f.cls = cls := by
  rcases foldl_min_mem h with hn | hm
  · cases hn
  · obtain ⟨q, -, hq⟩ := List.mem_filterMap.mp hm
    exact queueHead_frame hq

/-- The first class that may start is the one that does. -/
theorem classHeads_first {s : State} {port cls i : Nat} (hlo : 1 ≤ cls) (hhi : cls ≤ 4) (h : classHead s port cls = some i)
    (hlower : ∀ k, 1 ≤ k → k < cls → classHead s port k = none) :
    ([1, 2, 3, 4].filterMap (classHead s port)).head? = some i := by
  have hcls : cls = 1 ∨ cls = 2 ∨ cls = 3 ∨ cls = 4 := by omega
  rcases hcls with rfl | rfl | rfl | rfl
  · simp [h]
  · simp [h, hlower 1]
  · simp [h, hlower 1, hlower 2]
  · simp [h, hlower 1, hlower 2, hlower 3]

/-- Settles O57: what each row changes of the ports' records; what an event leaves of them; the head of the lowest class. -/
theorem portTraffic : Obligations.PortTraffic := by
  unfold Obligations.PortTraffic
  refine ⟨fun s port q time hp hq hon hopen => ?_, fun s port q e hp hq hon hend hover => ?_,
    fun s port q a hp hq hon hstart hdue hnew => ?_, fun s port q hp hq hon hx hdue => ?_, fun s n k hn hon => ?_,
    fun s port ip src hp hon hopen hip hown => ?_, fun s port ip src hp hon hopen hip hown => ?_,
    fun s r b hp hon hopen hdrop => ?_, fun s port cls i hp hon hopen hlo hhi hhead hlower => ?_⟩
  · refine ⟨_, (onUnit_on hp hon).trans (congrArg _ (if_pos hopen)), pfcOne_pauses port q time hq s⟩
  · have hrel : pauseExpired port q s = release s port q := by simp only [pauseExpired, hend, if_pos hover]
    refine ⟨release s port q, (onUnit_on hp hon).trans (congrArg _ ?_), release_ends s port q⟩
    rw [Nat.mod_eq_of_lt hq, hrel]
  · have hseen : prioKey port q ∈ (raise (noteStorm s port q) 0xB005 cPkg port q).prt.stormed := by
      rw [raise_stormed]
      exact List.mem_cons_self
    refine ⟨_, (onUnit_on hp hon).trans (congrArg _ ?_), raise_mode (noteStorm s port q) 0xB005 cPkg port q, hseen,
      (onUnit_on hp (by rw [raise_board]; exact hon)).trans (congrArg _ ?_)⟩
    · rw [Nat.mod_eq_of_lt hq, pfcStorm_reports hstart hdue hnew]
    · rw [Nat.mod_eq_of_lt hq, pfcStorm_reported hseen]
  · have hsend : xoffRepeat port q s = sendPfc { s with prt := { s.prt with
        lastXoff := tset s.prt.lastXoff (prioKey port q) s.now } } port q 65535 := if_pos (by simp [hx, hdue])
    refine ⟨_, _, (onUnit_on hp hon).trans (congrArg _ ((congrArg (fun k => xoffRepeat port k s) (Nat.mod_eq_of_lt hq)).trans
      hsend)), rfl, rfl, rfl, rfl, rfl, rfl, ?_⟩
    exact (tget?_tset _ _ _ _).trans (if_pos rfl)
  · obtain ⟨hmode, hcount⟩ := fecDegraded_counts n k s
    exact ⟨_, onUnit_on hn hon, hmode, hcount hn⟩
  · exact ⟨_, _, (onUnit_on hp hon).trans (congrArg _ (if_pos
      (by rw [hopen, decide_eq_true hip, hown]; rfl))), rfl, rfl, rfl, rfl, rfl⟩
  · exact ⟨_, _, (onUnit_on hp hon).trans (congrArg _ (if_pos
      (by rw [hopen, bne_iff_ne.mpr hip, hown]; rfl))), rfl, rfl, rfl, rfl, rfl⟩
  · have hreply : echoRequest r b s = reply s r.port r.src (.echoReply b) := by
      simp only [echoRequest, hopen, Bool.not_true, Bool.false_eq_true, if_false, hdrop, ne_eq, not_true_eq_false]
    exact ⟨_, _, (onUnit_on hp hon).trans (congrArg _ hreply), rfl, rfl, rfl, rfl, rfl⟩
  · obtain ⟨f, hf, hport, hcls⟩ := classHead_frame hhead
    have hstart : egressStart port s = { s with prt := { s.prt with
        queue := s.prt.queue.eraseIdx i, wire := s.prt.wire ++ [f],
        lastDie := tset s.prt.lastDie (prioKey port f.prio) f.die } } := by
      simp only [egressStart, hopen, Bool.not_true, Bool.false_eq_true, if_false, classHeads_first hlo hhi hhead hlower, hf]
    exact ⟨_, f, (onUnit_on hp hon).trans (congrArg _ hstart), hf, hport, hcls, rfl, rfl, rfl, rfl⟩

end Sys2Proof.Machine
end

section
/-! The statement on the pages and the commit of a securing, and on the partner's accesses (R445, R451, R452, R469). -/
namespace Sys2Proof.Machine
open Sys2Proof

/-! ## Numbers in memory (R12) -/

/-- The bytes of a number spell it, where they can. -/
theorem leNat_leBytes {n v : Nat} (h : v < 256 ^ n) : leNat (leBytes n v) = v := by
  induction n generalizing v with
  | zero =>
    obtain rfl : v = 0 := by simpa using h
    rfl
  | succ n ih =>
    rw [leBytes, leNat, ih (by rw [pow_succ] at h; omega), BitVec.toNat_ofNat]
    omega

/-- The first bytes of a span just stored read as they were stored. -/
theorem readBytes_quietWrite_prefix (s : State) (a : Nat) (b c : Bytes) :
    readBytes (quietWrite s a (b ++ c)) a b.length = b := by
  rw [readBytes_eq]
  refine List.ext_getElem (by simp) (fun i h1 h2 => ?_)
  simp only [List.getElem_map, List.getElem_range, readByte, quietWrite_mem, tget_putBytes, List.length_append]
  rw [if_pos (by omega), Nat.add_sub_cancel_left]
  simp [h2, List.getElem?_append_left]

/-- The same memory reads the same. -/
theorem readNat_congr {s t : State} (h : t.mem = s.mem) (a n : Nat) : readNat t a n = readNat s a n := by
  rw [readNat, readBytes, h]; rfl

/-! ## The securing's own steps leave (R452) -/

/-- With no page protected, an event leaves the team's record but for the dirty marks. -/
theorem raise_team {s : State} (h : s.team.pages = []) (code coord d0 d1 : Nat) :
    ∃ dirty, (raise s code coord d0 d1).team = { s.team with dirty := dirty } := by
  rcases raise_cases s code coord d0 d1 with e | ⟨-, r, e⟩ | ⟨-, r, e⟩ <;> rw [e]
  · exact ⟨_, rfl⟩
  · unfold logEvent
    split <;> exact ⟨_, rfl⟩
  · unfold ringEvent
    dsimp only
    split
    · exact ⟨_, rfl⟩
    · rw [write_unprotected _ _ _ h]
      exact ⟨_, rfl⟩

theorem setFs_team (s : State) (l : List (Field × Nat)) : (setFs s l).team = s.team := by
  rw [(OnlyReg.setFs s l).eq]

/-- The step that is secured is in flight no longer, and protects no page. -/
theorem stepSecured_team {s : State} (h : s.team.pages = []) :
    (stepSecured s).team.pages = [] ∧ (stepSecured s).team.step = none := by
  unfold stepSecured
  split
  · next hn => exact ⟨h, hn⟩
  · extract_lets old _ t
    have ht : t.team = { s.team with step := none } := setFs_team _ _
    obtain ⟨dirty, hdirty⟩ := raise_team (s := t) (by rw [ht]; exact h) 0xD00E cPkg _ _
    rw [hdirty, ht]
    exact ⟨h, rfl⟩

theorem endSecuring_pages {s : State} (h : s.team.pages = []) : (endSecuring s).team.pages = [] := by
  unfold endSecuring
  split
  · exact h
  · extract_lets t
    have ht : t.team.pages = [] := h
    split
    · exact h
    · exact (stepSecured_team ht).1

/-- After a sweep no page is left that was done. -/
theorem sweepPages_pages (s : State) : ∀ p ∈ (sweepPages s).team.pages, p ∈ s.team.pages ∧ pageDone s p = false := by
  unfold sweepPages
  split
  · extract_lets swept shown left
    have hleft : left.team.pages = s.team.pages.filter (fun p => !pageDone s p) := rfl
    have hkept : ∀ p ∈ left.team.pages, p ∈ s.team.pages ∧ pageDone s p = false := fun p hp => by
      rw [hleft] at hp
      exact ⟨(List.mem_filter.mp hp).1, by simpa using (List.mem_filter.mp hp).2⟩
    split
    · next hempty => rw [endSecuring_pages (List.isEmpty_iff.mp hempty)]; simp
    · exact hkept
  · next hnone => exact fun p hp => ⟨hp, by simpa using (List.any_eq_false.mp (by simpa using hnone)) p hp⟩

theorem sweepPages_mode (s : State) : (sweepPages s).mode = s.mode := by
  unfold sweepPages
  split
  · extract_lets swept shown left
    split
    · exact (endSecuring_begun left).mode
    · rfl
  · rfl

/-- Outside the window and with no command running, nothing waits for a securing. -/
theorem afterSecured_none {s : State} (hm : s.mode ≠ .gate) (hr : s.job.running = none) : afterSecured s = s := by
  have ht : tryReport s = s := if_pos (by simp [hm])
  rw [afterSecured, ht]
  simp only [hr]

/-! ## PAGE (R451) -/

theorem mirrorSlot_congr {s t : State} {g : Nat} (hmem : t.mem = s.mem) (hchunks : t.team.chunks = s.team.chunks)
    (hbase : mirrorBase t g = mirrorBase s g) (i step : Nat) : mirrorSlot t g i step = mirrorSlot s g i step := by
  unfold mirrorSlot olderSlot pageChunks
  rw [hchunks, hbase]
  simp only [readNat_congr hmem]

/-- The state in which a chunk of a securing's step is taken: one of another step drops the chunks of the last (R451). -/
def atPartnerStep (s : State) (step : Nat) : State :=
  if partnerStep s = some step then s else { s with team := { s.team with chunks := [] } }

/-- The same, with the counts that PAIR.MIRROR_STAT shows. -/
def shownPartnerStep (s : State) (step : Nat) : State :=
  if partnerStep s = some step then s
  else setFs { s with team := { s.team with chunks := [] } }
    [(R.pairMirrorStat_pagesReceived, 0), (R.pairMirrorStat_partnerPrevValid, 0)]

theorem shownPartnerStep_spec (s : State) (step g : Nat) : (shownPartnerStep s step).mode = s.mode ∧
    (shownPartnerStep s step).mem = s.mem ∧ (shownPartnerStep s step).prt = s.prt ∧
    (shownPartnerStep s step).team.chunks = (atPartnerStep s step).team.chunks ∧
    mirrorBase (shownPartnerStep s step) g = mirrorBase s g ∧ partnerPages (shownPartnerStep s step) g = partnerPages s g := by
  unfold shownPartnerStep atPartnerStep
  split
  · exact ⟨rfl, rfl, rfl, rfl, rfl, rfl⟩
  · refine ⟨rfl, rfl, rfl, rfl, congrArg (fun x => loftBase g + x * pageSize) (getF_setFs_ne _ _ ?_),
      getF_setFs_ne _ _ ?_⟩ <;> intro f hf <;> fin_cases hf <;> exact fkey_ne_of_lo (by decide) _ _

theorem atPartnerStep_keeps (s : State) (step g : Nat) : (atPartnerStep s step).mem = s.mem ∧
    mirrorBase (atPartnerStep s step) g = mirrorBase s g := by
  unfold atPartnerStep
  split <;> exact ⟨rfl, rfl⟩

theorem quietWrite_keeps (s : State) (a : Nat) (b : Bytes) : (quietWrite s a b).mode = s.mode ∧
    (quietWrite s a b).team = s.team ∧ (quietWrite s a b).prt = s.prt := ⟨rfl, rfl, rfl⟩

/-- Where a chunk of the partner's page goes: the address of its mirror slot, and the chunk's place in it. -/
def chunkPlace (f : TeamFrame) (s : State) : Nat :=
  slotAddr (mirrorBase s f.group) (partnerPages s f.group) f.page (mirrorSlot s f.group f.page f.step) + 8192 * f.chunk

/-- The chunk stands in the mirror and is noted as received. -/
def placeChunk (f : TeamFrame) (s : State) : State :=
  let t := quietWrite s (chunkPlace f s) f.payload
  let c := (f.step, f.group, f.page, f.chunk)
  if t.team.chunks.contains c then t else { t with team := { t.team with chunks := t.team.chunks ++ [c] } }

/-- The page whose chunks are all there gets its directory entry and is counted: `s` before its last chunk, `t` after. -/
def entryShown (f : TeamFrame) (s t : State) : State :=
  let e := dirEntry (mirrorBase s f.group) f.page
  let t := quietWrite t e (leBytes 8 ((partnerGroup t f.group).getD f.page 0))
  let t := quietWrite t (e + 8 + 8 * mirrorSlot s f.group f.page f.step) (leBytes 8 f.step)
  when (pageChunks s f.group f.page != 8) (fun t => bumpF t R.pairMirrorStat_pagesReceived 0 1) t

/-- PAGE's chunk of a page of the partner, in a securing not older than the last one taken. -/
theorem takePage_eq {s : State} {f : TeamFrame} (hteam : getF s R.pairStatus_team = 2)
    (hstep : getF s R.pairMirrorStat_partnerStep ≤ f.step) (hpage : f.page < getF s R.pairGroup_partnerPages f.group) :
    takePage f s = (let v := shownPartnerStep s f.step
      if pageChunks (placeChunk f v) f.group f.page < 8 then placeChunk f v
      else sendTeam (entryShown f v (placeChunk f v)) f.rx.port 4 f.step f.page f.group 0 []) := by
  have hformed : teamFormed s = true := by simp [teamFormed, hteam]
  unfold takePage
  rw [if_neg (by simp [hformed]), if_neg (by simp only [partnerPages]; omega)]
  rfl

theorem placeChunk_spec (f : TeamFrame) (s : State) : (placeChunk f s).mode = s.mode ∧
    (placeChunk f s).mem = putBytes s.mem (chunkPlace f s) f.payload ∧ (placeChunk f s).prt = s.prt ∧
    (f.step, f.group, f.page, f.chunk) ∈ (placeChunk f s).team.chunks := by
  unfold placeChunk
  extract_lets t c
  split
  · next h => exact ⟨rfl, rfl, rfl, by simpa using h⟩
  · exact ⟨rfl, rfl, rfl, List.mem_concat_self⟩

theorem entryShown_spec (f : TeamFrame) (s t : State) : (entryShown f s t).mode = t.mode ∧
    (entryShown f s t).prt = t.prt ∧ (entryShown f s t).team = t.team := by
  unfold entryShown
  extract_lets e a b
  obtain ⟨hmode, hteam, hprt⟩ : b.mode = t.mode ∧ b.team = t.team ∧ b.prt = t.prt := by
    obtain ⟨hm, ht, hp⟩ := quietWrite_keeps t e (leBytes 8 ((partnerGroup t f.group).getD f.page 0))
    obtain ⟨hm', ht', hp'⟩ := quietWrite_keeps a (e + 8 + 8 * mirrorSlot s f.group f.page f.step) (leBytes 8 f.step)
    exact ⟨hm'.trans hm, ht'.trans ht, hp'.trans hp⟩
  clear_value b
  unfold when
  split <;> exact ⟨hmode, hprt, hteam⟩

/-- A team frame sent is the newest that waits. -/
theorem sendTeam_sends (s : State) (port ftype step page group chunk : Nat) (payload : Bytes) :
    ∃ o g, (sendTeam s port ftype step page group chunk payload).prt.queue = s.prt.queue ++ [o] ∧ o.port = port ∧
      o.body = .team g ∧ g.ftype = ftype ∧ g.step = step ∧ g.page = page ∧ g.group = group :=
  ⟨_, _, rfl, rfl, rfl, rfl, rfl, rfl, rfl⟩

/-- A chunk of the partner's page stands in its slot and is counted; the eighth is answered. -/
theorem takePage_takes {s : State} {f : TeamFrame} (hteam : getF s R.pairStatus_team = 2)
    (hstep : getF s R.pairMirrorStat_partnerStep ≤ f.step) (hpage : f.page < getF s R.pairGroup_partnerPages f.group) :
    (takePage f s).mode = s.mode ∧ (f.step, f.group, f.page, f.chunk) ∈ (takePage f s).team.chunks ∧
      if pageChunks (takePage f s) f.group f.page < 8 then
        (takePage f s).mem = putBytes s.mem (slotAddr (mirrorBase s f.group) (getF s R.pairGroup_partnerPages f.group) f.page
          (mirrorSlot (atPartnerStep s f.step) f.group f.page f.step) + 8192 * f.chunk) f.payload ∧
          (takePage f s).prt.queue = s.prt.queue
      else ∃ o g, (takePage f s).prt.queue = s.prt.queue ++ [o] ∧ o.port = f.rx.port ∧ o.body = .team g ∧ g.ftype = 4 ∧
        g.step = f.step ∧ g.page = f.page ∧ g.group = f.group := by
  obtain ⟨hvmode, hvmem, hvprt, hvchunks, hvbase, hvpages⟩ := shownPartnerStep_spec s f.step f.group
  obtain ⟨hamem, habase⟩ := atPartnerStep_keeps s f.step f.group
  have hslot := mirrorSlot_congr (hvmem.trans hamem.symm) hvchunks (hvbase.trans habase.symm) f.page f.step
  rw [takePage_eq hteam hstep hpage]
  generalize hv : shownPartnerStep s f.step = v at *
  obtain ⟨hmode, hmem, hprt, hc⟩ := placeChunk_spec f v
  obtain ⟨hemode, heprt, heteam⟩ := entryShown_spec f v (placeChunk f v)
  dsimp only
  by_cases hfew : pageChunks (placeChunk f v) f.group f.page < 8
  · rw [if_pos hfew, if_pos hfew, hmem, hvmem, chunkPlace, hslot, hvbase, hvpages]
    exact ⟨hmode.trans hvmode, hc, rfl, congrArg Prt.queue (hprt.trans hvprt)⟩
  · have hcount (o : State) (h : o.team = (placeChunk f v).team) :
        pageChunks (sendTeam o f.rx.port 4 f.step f.page f.group 0 []) f.group f.page =
          pageChunks (placeChunk f v) f.group f.page := congrArg (fun x : Team => countIf x.chunks _) h
    rw [if_neg hfew, if_neg (by rw [hcount _ heteam]; exact hfew)]
    obtain ⟨o, g, hqueue, hsent⟩ := sendTeam_sends (entryShown f v (placeChunk f v)) f.rx.port 4 f.step f.page f.group 0 []
    refine ⟨hemode.trans (hmode.trans hvmode), (congrArg Team.chunks heteam) ▸ hc, o, g, ?_, hsent⟩
    rw [hqueue, heprt, hprt, hvprt]

/-! ## PAGE_ACK and COMMIT_ACK (R451 to R453) -/

/-- The pages of a securing with the acknowledgement of one of them (R451). -/
def ackPages (s : State) (f : TeamFrame) : State :=
  { s with team := { s.team with
    pages := s.team.pages.map
      (fun p => if p.group = f.group ∧ p.page = f.page ∧ p.home then { p with acked := true } else p) } }

/-- An acknowledged page whose home copy stands is done. -/
theorem sweepPages_ackPages {s : State} (f : TeamFrame) : ∀ p ∈ (sweepPages (ackPages s f)).team.pages,
    ¬ (p.group = f.group ∧ p.page = f.page ∧ p.home = true) := by
  rintro p hp ⟨hgroup, hpage, hhome⟩
  obtain ⟨hmem, hdone⟩ := sweepPages_pages _ p hp
  obtain ⟨q, -, rfl⟩ := List.mem_map.mp hmem
  split at hdone
  · next hq => simp [pageDone, hq.2.2] at hdone
  · next hq =>
    rw [if_neg hq] at hgroup hpage hhome
    exact hq ⟨hgroup, hpage, hhome⟩

theorem takePageAck_done {s : State} {f : TeamFrame} (hstep : s.team.step = some f.step) (hm : s.mode ≠ .gate)
    (hr : s.job.running = none) : takePageAck f s = sweepPages (ackPages s f) := by
  rw [takePageAck, if_neg (by simp [hstep])]
  exact afterSecured_none (by rw [sweepPages_mode]; exact hm) (by rw [sweepPages_job]; exact hr)

/-- The acknowledgement of a commit secures the step. -/
theorem stepSecured_shows {s : State} {n : Nat} (hstep : s.team.step = some n) (hn : n < 2 ^ 40) :
    getF (stepSecured s) R.pairSecure_committed = n ∧
    getF (stepSecured s) R.pairPrev_previous = getF s R.pairSecure_committed % 2 ^ 40 ∧
    getF (stepSecured s) R.pairSecure_inFlight = 0 := by
  unfold stepSecured
  rw [hstep]
  simp (disch := decide +kernel) only [getF_raise, setFs, List.foldl_cons, List.foldl_nil, getF_setF_ne, getF_setF]
  exact ⟨Nat.mod_eq_of_lt hn, rfl, rfl⟩

theorem takeCommitAck_secures {s : State} {f : TeamFrame} (hstep : s.team.step = some f.step) (hpages : s.team.pages = [])
    (hm : s.mode ≠ .gate) (hr : s.job.running = none) : takeCommitAck f s = stepSecured s := by
  rw [takeCommitAck, if_pos (by simp [hstep, hpages])]
  exact afterSecured_none (by rw [(stepSecured_begun s).mode]; exact hm) (by rw [stepSecured_job]; exact hr)

/-! ## A page sent again (R451) -/

/-- Page frames sent one after another: the ports' queue grows by them alone. -/
theorem sendChunks_spec (s : State) (src step group page : Nat) (l : List Nat) :
    let t := forEach l (fun t k => sendTeam t (pagePort t page) 3 step page group k (readBytes t (src + 8192 * k) 8192)) s
    t.mem = s.mem ∧ t.reg = s.reg ∧ t.mode = s.mode ∧ t.team = s.team ∧ t.now = s.now ∧
      ∃ q, t.prt.queue = s.prt.queue ++ q ∧ q.length = l.length ∧
        ∀ o ∈ q, ∃ x, o.body = .team x ∧ x.ftype = 3 ∧ x.step = step ∧ x.group = group ∧ x.page = page := by
  induction l generalizing s with
  | nil => exact ⟨rfl, rfl, rfl, rfl, rfl, [], by simp [forEach], rfl, by simp⟩
  | cons k l ih =>
    obtain ⟨hmem, hreg, hmode, hteam, hnow, q, hq, hlen, hbody⟩ :=
      ih (sendTeam s (pagePort s page) 3 step page group k (readBytes s (src + 8192 * k) 8192))
    refine ⟨hmem, hreg, hmode, hteam, hnow, _ :: q, hq.trans (List.append_assoc _ [_] q), congrArg (· + 1) hlen,
      fun o ho => ?_⟩
    rcases List.mem_cons.mp ho with rfl | ho
    · exact ⟨_, rfl, rfl, rfl, rfl, rfl⟩
    · exact hbody o ho

/-- A page's eight frames are sent. -/
theorem sendPage_spec (s : State) (src step group page : Nat) :
    (sendPage s src step group page).mem = s.mem ∧ (sendPage s src step group page).reg = s.reg ∧
    (sendPage s src step group page).mode = s.mode ∧ ∃ q, (sendPage s src step group page).prt.queue = s.prt.queue ++ q ∧
      q.length = 8 ∧
      ∀ o ∈ q, ∃ x, o.body = .team x ∧ x.ftype = 3 ∧ x.step = step ∧ x.group = group ∧ x.page = page := by
  obtain ⟨hmem, hreg, hmode, -, -, q, hq, hlen, hbody⟩ := sendChunks_spec s src step group page (List.range 8)
  unfold sendPage
  exact ⟨hmem, hreg, hmode, q, hq, hlen.trans List.length_range, hbody⟩

theorem setPage_keeps (s : State) (p : Page) : (setPage s p).mem = s.mem ∧ (setPage s p).reg = s.reg ∧
    (setPage s p).mode = s.mode ∧ (setPage s p).prt = s.prt := ⟨rfl, rfl, rfl, rfl⟩

/-- The record of a page takes the place of the one with its address. -/
theorem mem_setPage {s : State} {p x : Page} (hx : x ∈ (setPage s p).team.pages) (haddr : x.addr = p.addr) : x = p := by
  obtain ⟨y, -, rfl⟩ := List.mem_map.mp hx
  split at haddr
  · next h => exact if_pos h
  · next h => exact absurd haddr h

/-- A page that waits too long for its acknowledgement is sent again from its home slot, which is in order to read. -/
theorem resendPage_sends {s : State} {g i a : Nat} {p : Page}
    (hfind : s.team.pages.find? (fun q => q.group == g && q.page == i) = some p) (hhome : p.home = true)
    (hacked : p.acked = false) (hteam : getF s R.pairStatus_team = 2) (hsent : p.sentAt = some a) (hdue : a + 5000 ≤ s.now)
    (hpoison : s.upd.poison = []) (hsoft : s.upd.softErr = []) :
    ∃ src, resendPage g i s = setPage (sendPage s src (secStep s) g i) { p with sentAt := some s.now } := by
  have hformed : teamFormed s = true := by simp [teamFormed, hteam]
  unfold resendPage
  simp only [hfind]
  rw [if_pos (by simp [hhome, hacked, hformed, hsent, hdue])]
  simp only [noteRead, loftRead_sound hpoison hsoft]
  exact ⟨_, rfl⟩

/-! ## COMMIT (R452) -/

/-- A well-formed team frame's step is at most 40 bits wide (R445). -/
theorem teamForm_step {f : TeamFrame} (h : teamForm f = true) : f.step < 2 ^ 40 := by
  simp only [teamForm, Bool.and_eq_true, beq_iff_eq] at h
  omega

theorem teamForm_length {f : TeamFrame} (h : teamForm f = true) (hty : f.ftype = 7) : f.length ≤ 8192 := by
  simp only [teamForm, Bool.and_eq_true, hty, teamLen, decide_eq_true_eq] at h
  omega

/-- The partner's commit of its step in flight is kept in the mirror's record, and answered. -/
theorem takeCommit_takes {s : State} {f : TeamFrame} (hteam : getF s R.pairStatus_team = 2)
    (hstep : partnerStep s = some f.step) (hnamed : fieldAt f.payload 0 8 = f.step) (hwidth : f.step < 2 ^ 40) :
    ∃ o g, (takeCommit f s).mode = s.mode ∧ getF (takeCommit f s) R.pairMirrorStat_partnerStep = f.step ∧
      (takeCommit f s).team.chunks = [] ∧ readNat (takeCommit f s) (mirrorBase s 0) 8 = f.step ∧
      (takeCommit f s).prt.queue = s.prt.queue ++ [o] ∧ o.body = .team g ∧ g.ftype = 6 ∧ g.step = f.step := by
  have hformed : teamFormed s = true := by simp [teamFormed, hteam]
  unfold takeCommit
  rw [if_neg (by simp [hformed]), if_neg (by simp [hstep, hnamed])]
  refine ⟨_, _, rfl, ?_, rfl, ?_, rfl, rfl, rfl, rfl⟩
  · show getF (setFs _ _) R.pairMirrorStat_partnerStep = f.step
    simp (disch := decide +kernel) only [setFs, List.foldl_cons, List.foldl_nil, getF_setF_ne, getF_setF]
    exact Nat.mod_eq_of_lt hwidth
  · refine Eq.trans ?_ (leNat_leBytes (n := 8) (v := f.step) (by omega))
    refine congrArg leNat ?_
    have h := readBytes_quietWrite_prefix s (mirrorBase s 0) (leBytes 8 f.step)
      (leBytes 8 (getF s R.pairMirrorStat_partnerStep) ++ leBytes 8 (getF s R.gtePlan_planTag) ++
        leBytes 8 (fieldAt f.payload 8 8))
    rw [leBytes_length] at h
    exact h

/-! ## The partner's accesses (R138, R338, R445, R469) -/

theorem showXoff_keeps (s : State) (port : Nat) : (showXoff s port).mem = s.mem ∧ (showXoff s port).team = s.team := by
  unfold showXoff
  split <;> exact ⟨rfl, rfl⟩

/-- A pause condition that arises or clears touches neither memory nor the team's record (R404). -/
theorem setXoff_keeps (s : State) (port prio : Nat) (on : Bool) :
    (setXoff s port prio on).mem = s.mem ∧ (setXoff s port prio on).team = s.team := by
  unfold setXoff
  dsimp only
  split
  · exact showXoff_keeps _ _
  · split
    · exact showXoff_keeps _ _
    · exact ⟨rfl, rfl⟩

/-- A frame that finds its port's staging memory empty is staged. -/
theorem stageTeam_empty {s : State} {f : TeamFrame} (w : List (Nat × WriteReport)) (hempty : stagedOn s f.rx.port = [])
    (hlen : f.length ≤ 8192) : (stageTeam s f w).mem = s.mem ∧
      (stageTeam s f w).team = { s.team with staged := s.team.staged ++ [(f, w)] } := by
  have hroom : ¬ 2 ^ 20 < teamStaged s f.rx.port + 48 + f.length := by
    rw [teamStaged, hempty]
    simp only [List.map_nil, List.sum_nil]
    omega
  rw [stageTeam, if_neg hroom]
  exact setXoff_keeps _ _ _ _

/-- A page number above the last one's runs the frame's operations, or waits for the links they need. -/
theorem teamAccess_runs {s : State} {f : TeamFrame} (w : List (Nat × WriteReport)) {l : List AccOp}
    (hteam : getF s R.pairStatus_team = 2) (hseq : s.team.accessSeq < f.page) (hops : accessOps f.payload = some l) :
    teamAccess f w s = if opsHeld s l = true then stageTeam { s with team := { s.team with accessSeq := f.page } } f w
      else answerTeam f w { s with team := { s.team with accessSeq := f.page } } := by
  have hformed : teamFormed s = true := by simp [teamFormed, hteam]
  rw [teamAccess, if_neg (by simp [hformed]), if_neg (by omega)]
  simp only [hops]
  rw [opsHeld_congr (t := { s with team := { s.team with accessSeq := f.page } }) (s := s) rfl]

theorem answerTeam_answers {s : State} {f : TeamFrame} (w : List (Nat × WriteReport)) {l : List AccOp}
    (hops : accessOps f.payload = some l) :
    answerTeam f w s = sendTeam (runOps s 0 l w).1 f.rx.port 8 0 f.page 0 0 (runOps s 0 l w).2 := by
  rw [answerTeam, hops]
  rfl

/-- The time of the last frame does not choose the slot. -/
theorem mirrorSlot_heard (s : State) (g i step : Nat) : mirrorSlot (atPartnerStep (heardTeam s) step) g i step =
    mirrorSlot (atPartnerStep s step) g i step := by
  unfold atPartnerStep
  rw [show partnerStep (heardTeam s) = partnerStep s from rfl]
  split <;> exact mirrorSlot_congr rfl rfl rfl i step

/-- Settles O60: what each frame of the partner does to the mirror, this module's securing, and the staging memory. -/
theorem teamPages : Obligations.TeamPages := by
  unfold Obligations.TeamPages
  refine ⟨fun s f hf hteam hstep hpage => ?_, fun s f hf hstep hm hr => ?_,
    fun s g i a p hon hfind hhome hacked hteam hsent hdue hpoison hsoft => ?_, fun s f hf hteam hstep hnamed => ?_,
    fun s f hf hstep hpages hm hr => ?_, fun s f w l hf hteam hseq hops => ?_, fun s f hf hteam => ?_⟩
  · intro v
    have htakes := takePage_takes (s := heardTeam s) hteam hstep hpage
    rw [mirrorSlot_heard] at htakes
    exact ⟨_, teamFrame_runs hf (takePage f) [], htakes⟩
  · refine ⟨_, teamFrame_runs hf (takePageAck f) [], ?_⟩
    rw [takePageAck_done (s := heardTeam s) hstep hm hr]
    exact ⟨sweepPages_mode _, sweepPages_ackPages f⟩
  · obtain ⟨src, hsend⟩ := resendPage_sends hfind hhome hacked hteam hsent hdue hpoison hsoft
    obtain ⟨hmem, hreg, hmode, q, hq, hlen, hbody⟩ := sendPage_spec s src (secStep s) g i
    generalize sendPage s src (secStep s) g i = u at *
    obtain ⟨hmem', hreg', hmode', hprt'⟩ := setPage_keeps u { p with sentAt := some s.now }
    exact ⟨_, q, (inModule_on hon).trans (congrArg _ hsend), hmem'.trans hmem, hreg'.trans hreg, hmode'.trans hmode,
      fun x hx haddr => mem_setPage hx haddr, (congrArg Prt.queue hprt').trans hq, hlen, hbody⟩
  · have hwidth : f.step < 2 ^ 40 := teamForm_step hf.2.2.2.2.2.1
    obtain ⟨o, g, h⟩ := takeCommit_takes (s := heardTeam s) hteam hstep hnamed hwidth
    exact ⟨_, o, g, teamFrame_runs hf (takeCommit f) [], h⟩
  · have hwidth : f.step < 2 ^ 40 := teamForm_step hf.2.2.2.2.2.1
    refine ⟨_, teamFrame_runs hf (takeCommitAck f) [], ?_⟩
    rw [takeCommitAck_secures (s := heardTeam s) hstep hpages hm hr]
    exact ⟨(stepSecured_begun _).mode, (stepSecured_team (s := heardTeam s) hpages).2,
      stepSecured_shows (s := heardTeam s) hstep hwidth⟩
  · have hrun : exec (.teamAccess f w) s = .next (teamAccess f w (heardTeam s)) := teamFrame_runs hf (teamAccess f w) w
    rw [teamAccess_runs (s := heardTeam s) w hteam hseq hops, opsHeld_congr (t := heardTeam s) (s := s) rfl] at hrun
    by_cases hheld : opsHeld s l = true
    · rw [if_pos hheld] at hrun ⊢
      have hlen : f.length ≤ 8192 := teamForm_length hf.2.2.2.2.2.1 hf.2.2.2.2.2.2.1
      obtain ⟨hmem, hsame⟩ := stageTeam_empty
        (s := { heardTeam s with team := { (heardTeam s).team with accessSeq := f.page } }) w hf.2.2.2.2.2.2.2.2.2.2.2 hlen
      exact ⟨_, hrun, hmem, congrArg Team.staged hsame, congrArg Team.accessSeq hsame⟩
    · rw [if_neg hheld] at hrun ⊢
      rw [answerTeam_answers w hops] at hrun
      intro r
      exact ⟨_, _, _, hrun, rfl, rfl, rfl, rfl, rfl, rfl, rfl, rfl⟩
  · refine (teamFrame_runs hf (accessResp f) []).trans (congrArg _ (if_pos ?_))
    exact beq_iff_eq.mpr hteam

end Sys2Proof.Machine
end

section
/-! The statement on the loft's links, its chips and its patrol (R337, R338, R341). -/
namespace Sys2Proof.Machine
open Sys2Proof

/-! ## What a halt leaves of a loft link (R337) -/

/-- Where the loft's links are shown up, and with how many lanes. -/
def loftLinkKeys : List Nat := (List.range 4).flatMap (fun z => [fkey R.lftLink_up z, fkey R.lftLink_lanes z])

theorem loftLinkKeys_away : AwayFromLoss loftLinkKeys := ⟨by decide, by decide⟩

theorem mem_loftLinkKeys {z : Nat} (hz : z < 4) :
    fkey R.lftLink_up z ∈ loftLinkKeys ∧ fkey R.lftLink_lanes z ∈ loftLinkKeys :=
  ⟨List.mem_flatMap.mpr ⟨z, List.mem_range.mpr hz, by simp⟩, List.mem_flatMap.mpr ⟨z, List.mem_range.mpr hz, by simp⟩⟩

/-- From `s` to `t` the loft's links and their retrainings stand, and so does the mode unless the module halts. -/
structure KeepsLoftLinks (s t : State) : Prop where
  keys : KeepsKeys loftLinkKeys s t
  retraining : t.upd.retraining = s.upd.retraining
  halts : t.mode = s.mode ∨ t.mode = .halted

namespace KeepsLoftLinks
variable {z s t : State}

theorem refl (s : State) : KeepsLoftLinks s s := ⟨.refl s, rfl, .inl rfl⟩

theorem trans (h : KeepsLoftLinks z s) (k : KeepsLoftLinks s t) : KeepsLoftLinks z t :=
  ⟨h.keys.trans k.keys, k.retraining.trans h.retraining,
    k.halts.elim (fun e => h.halts.imp e.trans e.trans) .inr⟩

theorem same (hreg : t.reg = s.reg := by rfl) (hupd : t.upd.retraining = s.upd.retraining := by rfl)
    (hmode : t.mode = s.mode := by rfl) : KeepsLoftLinks s t := ⟨.same hreg, hupd, .inl hmode⟩

theorem ite {c : Prop} [Decidable c] {a b : State} (ha : c → KeepsLoftLinks s a) (hb : ¬ c → KeepsLoftLinks s b) :
    KeepsLoftLinks s (if c then a else b) := by
  split
  · next h => exact ha h
  · next h => exact hb h

theorem forEach {α : Type} {f : State → α → State} (h : ∀ s a, KeepsLoftLinks s (f s a)) (l : List α) (s : State) :
    KeepsLoftLinks s (forEach l f s) := by
  induction l generalizing s with
  | nil => exact refl s
  | cons a l ih => exact (h s a).trans (ih _)

theorem forEachOf {α : Type} {f : State → α → State} {l : List α} (h : ∀ s, ∀ a ∈ l, KeepsLoftLinks s (f s a))
    (s : State) : KeepsLoftLinks s (Machine.forEach l f s) := by
  induction l generalizing s with
  | nil => exact refl s
  | cons a l ih =>
    exact (h s a List.mem_cons_self).trans (ih (fun s b hb => h s b (List.mem_cons_of_mem a hb)) _)

theorem raise (s : State) (code coord d0 d1 : Nat) : KeepsLoftLinks s (raise s code coord d0 d1) :=
  ⟨loftLinkKeys_away.raise s _ _ _ _, by rw [(OnlyHeals.raise s code coord d0 d1).upd], .inl (raise_mode _ _ _ _ _)⟩

theorem sendNumbered (s : State) (c : CtlOut) : KeepsLoftLinks s (sendNumbered s c) := by
  unfold Machine.sendNumbered
  exact ite (fun _ => same) (fun _ => ite (fun _ => same) (fun _ => same))

theorem setFs {l : List (Field × Nat)} (h : ∀ f ∈ l.map Prod.fst, fkey f 0 ∉ loftLinkKeys) (s : State) :
    KeepsLoftLinks s (setFs s l) := ⟨.setFs h s, by rw [setFs_upd], .inl (setFs_mode s l)⟩

theorem setF {f : Field} {u : Nat} (h : fkey f u ∉ loftLinkKeys) (s : State) (v : Nat) :
    KeepsLoftLinks s (setF s f u v) := ⟨.setF h s v, rfl, .inl rfl⟩

theorem complete (s : State) (c : CmdRec) (status detail : Nat) : KeepsLoftLinks s (complete s c status detail) := by
  refine (setF (fun m => loftLinkKeys_away.lo _ m ?_) s _).trans (sendNumbered _ _)
  simp only [fkey, R.ctlRingStatus_completed]
  omega

theorem finish (s : State) (c : CmdRec) (status detail : Nat) : KeepsLoftLinks s (finish s c status detail) :=
  (same (s := s)).trans (complete _ c status detail)

theorem dropAmends (s : State) (status : Nat) : KeepsLoftLinks s (dropAmends s status) := by
  unfold Machine.dropAmends
  extract_lets t _ u
  have ht : KeepsLoftLinks s t :=
    by
    have h (t : State) (a : Amend) : KeepsLoftLinks t (Machine.complete t a.cmd status 0) := complete t a.cmd status 0
    exact forEach h _ s
  clear_value t
  have hj : KeepsLoftLinks t { t with job := { t.job with amends := [] } } := same
  have hu : KeepsLoftLinks t u := hj.trans (setFs (by simp only [List.map_cons, List.map_nil]; decide) _)
  exact (ht.trans hu).trans (setF (by decide) _ _)

theorem modStall (s : State) (p : Nat) (f : Stall → Stall) : KeepsLoftLinks s (modStall s p f) :=
  same rfl (by rw [modStall_upd])

theorem clearUnits {f : Field} {n : Nat} (h : ∀ k ∈ loftLinkKeys, unitOf f n k = none) (s : State) :
    KeepsLoftLinks s (clearUnits s f n) := ⟨.clearUnits h s, rfl, .inl rfl⟩

theorem dropImage (s : State) : KeepsLoftLinks s (dropImage s) := by
  unfold Machine.dropImage
  extract_lets _ _ _ _ a _ b c _ d e f
  have hstall : ∀ g ∈ [R.genStall_pc, R.genStall_pass, R.genStall_idle, R.genStall_faulted, R.genStall_atFwdEnd,
      R.genStall_fbCount, R.genStall_fbSlot0, R.genStall_fbValid0, R.genStall_fbSlot1, R.genStall_fbValid1,
      R.genStall_bank0, R.genStall_bank1], ∀ k ∈ loftLinkKeys, k % 64 ≠ g.lo % 64 := by decide
  have ha : KeepsLoftLinks s a := same
  clear_value a
  have hb : KeepsLoftLinks a b := forEach (fun t p => modStall t p _) _ a
  clear_value b
  have hstep (t : State) (p : Nat) : KeepsLoftLinks t (Machine.forEach [R.genStall_pc, R.genStall_pass, R.genStall_idle,
      R.genStall_faulted, R.genStall_atFwdEnd, R.genStall_fbCount, R.genStall_fbSlot0, R.genStall_fbValid0, R.genStall_fbSlot1,
      R.genStall_fbValid1, R.genStall_bank0, R.genStall_bank1] (fun t f => Machine.setF t f p 0) t) :=
    forEachOf (fun u g hg => setF (fun m => hstall g hg _ m (by unfold fkey; omega)) u 0) t
  have hc : KeepsLoftLinks b c := forEach hstep _ b
  clear_value c
  have hd : KeepsLoftLinks c d := same
  clear_value d
  have he : KeepsLoftLinks d e := forEach (fun t p => ite (fun _ => modStall t p _) (fun _ => refl t)) _ d
  clear_value e
  have hf : KeepsLoftLinks e f := ((clearUnits (by decide +kernel) e).trans (clearUnits (by decide +kernel) _)).trans
    (clearUnits (by decide +kernel) _)
  exact ((((ha.trans hb).trans (hc.trans hd)).trans he).trans hf).trans
    (setFs (by simp only [List.map_cons, List.map_nil]; decide) _)

theorem endRunning (s : State) : KeepsLoftLinks s (endRunning s) := by
  unfold Machine.endRunning
  split
  · exact refl s
  · refine ite (fun _ => refl s) (fun _ => ite (fun _ => ?_) (fun _ => finish s _ _ _))
    exact (((raise s _ _ _ _).trans (finish _ _ _ _)).trans (same (s := Machine.finish _ _ _ _))).trans (dropImage _)

theorem stopCompute (s : State) : KeepsLoftLinks s (stopCompute s) := by
  unfold Machine.stopCompute
  extract_lets a b c _ d
  have ha : KeepsLoftLinks s a := forEach (fun t p => by unfold pauseChan; exact ite (fun _ => same) (fun _ => refl t)) _ s
  have hb : KeepsLoftLinks a b := forEach (fun t p => modStall t p _) _ a
  have hc : KeepsLoftLinks b c := setF (by decide) b 0
  clear_value c
  have hd : KeepsLoftLinks c d := same
  exact ((ha.trans hb).trans (hc.trans hd)).trans (forEach (fun t z => same) _ d)

theorem leaveTeam (s : State) : KeepsLoftLinks s (leaveTeam s) := by
  unfold Machine.leaveTeam
  refine ite (fun _ => ?_) (fun _ => refl s)
  extract_lets a
  have ha : KeepsLoftLinks s a := forEach (fun t p => same) _ s
  clear_value a
  exact (ha.trans same).trans (setF (by decide) { a with team := { a.team with rec? := none } } 0)

theorem loseHalted (s : State) : KeepsLoftLinks s (loseHalted s) := by
  unfold Machine.loseHalted
  extract_lets a _ b
  have hw : KeepsLoftLinks s (when s.job.running.isSome Machine.endRunning s) := ite (fun _ => endRunning s) (fun _ => refl s)
  have ha : KeepsLoftLinks s a := hw.trans (leaveTeam _)
  clear_value a
  have hb : KeepsLoftLinks a b := same
  exact (ha.trans hb).trans (setF (by decide) b 1)

/-- A halt leaves the loft's links as they are shown. -/
theorem enterHalted (s : State) (cause : Nat) (losing : Bool) : KeepsLoftLinks s (enterHalted s cause losing) := by
  unfold Machine.enterHalted
  refine ite (fun _ => ite (fun _ => loseHalted s) (fun _ => refl s)) (fun _ => ?_)
  extract_lets a _ b c d
  have ha : KeepsLoftLinks s a := ((endRunning s).trans (dropAmends _ 2)).trans (stopCompute _)
  clear_value a
  have hb : KeepsLoftLinks a b := same
  have hc : KeepsLoftLinks b c := ite (fun _ => leaveTeam b) (fun _ => refl b)
  clear_value c
  have hd : KeepsLoftLinks c d := setFs (by simp only [List.map_cons, List.map_nil]; decide) c
  clear_value d
  have hend : KeepsLoftLinks d { d with mode := .halted } := ⟨.same rfl, rfl, .inr rfl⟩
  exact (((ha.trans hb).trans (hc.trans hd)).trans hend).trans same

theorem raiseOnce (s : State) (code unit coord d0 d1 : Nat) : KeepsLoftLinks s (raiseOnce s code unit coord d0 d1) :=
  ite (fun _ => refl s) (fun _ => (same (s := s)).trans (raise _ _ _ _ _))

theorem showDeferred (s : State) : KeepsLoftLinks s (showDeferred s) := by
  unfold Machine.showDeferred
  exact ite (fun _ => refl s) (fun _ => raiseOnce s _ _ _ _ _)

theorem setChip (s : State) (z : Nat) (c : Chip) : KeepsLoftLinks s (setChip s z c) := same

end KeepsLoftLinks

/-- The state of a chip is shown apart from the loft's links. -/
theorem chipState_apart (z : Nat) : fkey R.updChip_state z ∉ loftLinkKeys := by
  have hlo : ∀ k ∈ loftLinkKeys, k % 64 ≠ R.updChip_state.lo % 64 := by decide
  exact fun m => hlo _ m (by unfold fkey; omega)

theorem KeepsLoftLinks.faultChip (s : State) (z cause prog slot value element : Nat) :
    KeepsLoftLinks s (faultChip s z cause prog slot value element) := by
  unfold Machine.faultChip
  extract_lets _ a b c d
  have hb : KeepsLoftLinks a b := (setF (chipState_apart z) a 5).trans
    (setFs (by simp only [List.map_cons, List.map_nil]; decide) _)
  have hc : KeepsLoftLinks b c := showDeferred b
  have hd : KeepsLoftLinks c d := (KeepsLoftLinks.same (s := c) (t := holdGate c)).trans (raise _ _ _ _ _)
  have h : KeepsLoftLinks s d := ((setChip s z _).trans hb).trans (hc.trans hd)
  exact ite (fun _ => h.trans (enterHalted d 3 true)) (fun _ => h)

/-! ## A link or a chip lost (R338) -/

theorem mem_loftLink {z : Nat} (hz : z < 4) {s t : State} (h : KeepsLoftLinks s t) :
    getF t R.lftLink_up z = getF s R.lftLink_up z ∧ getF t R.lftLink_lanes z = getF s R.lftLink_lanes z :=
  ⟨h.keys _ _ (mem_loftLinkKeys hz).1, h.keys _ _ (mem_loftLinkKeys hz).2⟩

/-- A link that trains shows its lanes, and itself up with 8 of them. -/
theorem setLink_shows (s : State) (z : Nat) {lanes : Nat} (hl : lanes < 16) : getF (setLink s z lanes) R.lftLink_up z =
    b2n (lanes == 8) ∧ getF (setLink s z lanes) R.lftLink_lanes z = lanes ∧
    tget? (setLink s z lanes).upd.retraining z = none := by
  have hne : fkey R.lftLink_up z ≠ fkey R.lftLink_lanes z := fkey_ne_of_lo (by decide) z z
  refine ⟨(getF_setF_ne _ _ hne).trans ((getF_setF _ _ _ _).trans ?_), (getF_setF _ _ _ _).trans (Nat.mod_eq_of_lt hl), ?_⟩
  · cases lanes == 8 <;> rfl
  · exact (tget?_tdel _ _ _).trans (if_pos rfl)

/-- A state-losing fault halts the module, whatever it did. -/
theorem enterHalted_halts (s : State) {cause : Nat} (hc : cause < 16) : (enterHalted s cause true).mode = .halted := by
  by_cases h : s.mode = .halted
  · exact (KeepsLoftLinks.enterHalted s cause true).halts.elim (fun e => e.trans h) id
  · exact (enterHalted_haltedBy h hc true).mode

theorem faultChip_halts (s : State) (z prog slot value element : Nat) :
    (faultChip s z 5 prog slot value element).mode = .halted := by
  unfold faultChip
  extract_lets
  rw [if_pos (.inr rfl)]
  exact enterHalted_halts _ (by decide)

/-- A lost link or chip takes the chip out of service and halts the module. -/
theorem loseChip_spec (s : State) {z lanes : Nat} (hz : z < 4) (hl : lanes < 16) :
    (getChip (loseChip s z lanes) z).lost = true ∧ getF (loseChip s z lanes) R.updChip_state z = 6 ∧
    getF (loseChip s z lanes) R.lftLink_up z = b2n (lanes == 8) ∧ getF (loseChip s z lanes) R.lftLink_lanes z = lanes ∧
    tget? (loseChip s z lanes).upd.retraining z = none ∧ (upStates s = true → (loseChip s z lanes).mode = .halted) := by
  obtain ⟨hup, hlanes, hretr⟩ := setLink_shows s z hl
  unfold loseChip
  extract_lets a b c
  have ha : KeepsLoftLinks (setLink s z lanes) a := .raise _ _ _ _ _
  have ham : a.mode = s.mode := raise_mode _ _ _ _ _
  clear_value a
  have hb : KeepsLoftLinks a b :=
    .ite (fun _ => .faultChip a z 5 0 0 0 0) (fun _ => .ite (fun _ => .enterHalted a 3 true) (fun _ => .refl a))
  have hbm : upStates s = true → b.mode = .halted := fun h => by
    simp only [b]
    split
    · exact faultChip_halts _ _ _ _ _ _
    · rw [if_pos (by rw [← h]; simp [upStates, ham])]
      exact enterHalted_halts _ (by decide)
  clear_value b
  have hend : KeepsLoftLinks b (setF (setChip b z c) R.updChip_state z 6) :=
    (KeepsLoftLinks.setChip b z c).trans (.setF (chipState_apart z) _ 6)
  have hall := (ha.trans hb).trans hend
  obtain ⟨hup', hlanes'⟩ := mem_loftLink hz hall
  exact ⟨congrArg Chip.lost (getChip_setChip _ _ _), getF_setF _ _ _ _, hup'.trans hup, hlanes'.trans hlanes,
    (congrArg (tget? · z) hall.retraining).trans hretr, hbm⟩

/-! ## A frame with a bad CRC (R337) -/

/-- A frame with a bad CRC is counted and replayed; the sixteenth replay of one frame has the link retrain. -/
theorem flitError_spec {s : State} {z : Nat} (hz : z < 4) (hup : onF s R.lftLink_up z = true) (replay : Bool) :
    let n := if replay then tget 0 s.upd.replays z + 1 else 0
    let t := flitError z replay s
    t.mode = s.mode ∧
      getF t R.lftLink_crcErrors z = min (2 ^ R.lftLink_crcErrors.width - 1) (getF s R.lftLink_crcErrors z + 1) ∧
      if n < 16 then onF t R.lftLink_up z = true ∧ tget 0 t.upd.replays z = n ∧ t.mem = s.mem
      else onF t R.lftLink_up z = false ∧ tget? t.upd.retraining z = some s.now := by
  intro n t
  have hev : ∀ u < 4, fkey R.lftLink_crcErrors u ∉ eventKeys ∧ fkey R.lftLink_up u ∉ eventKeys := by decide +kernel
  obtain ⟨hevc, hevu⟩ := hev z hz
  by_cases hn : n < 16
  · have ht : t = bumpF (bumpF { s with upd := { s.upd with replays := tput 0 s.upd.replays z n } } R.lftLink_crcErrors z 1)
        R.lftLink_replays z 1 := by
      simp only [t, flitError, hup, Bool.not_true, Bool.false_eq_true, if_false]
      exact if_pos hn
    rw [if_pos hn, ht]
    refine ⟨rfl, ?_, ?_, tget_tput_self _ _ _ _, rfl⟩
    · simp (disch := apply fkey_ne_of_lo; decide) only [getF_bumpF_ne, getF_bumpF]
      exact rfl
    · simp (disch := apply fkey_ne_of_lo; decide) only [onF, getF_bumpF_ne]
      exact hup
  · obtain ⟨u, v, ht, hreg, hmode, hretr⟩ : ∃ u v, t = raise u 0x9008 cPkg z v ∧ u.reg = (setF (setF (bumpF (bumpF s
        R.lftLink_crcErrors z 1) R.lftLink_retrains z 1) R.lftLink_up z 0) R.lftLink_lanes z 0).reg ∧ u.mode = s.mode ∧
        u.upd.retraining = tset s.upd.retraining z s.now := by
      simp only [t, flitError, hup, Bool.not_true, Bool.false_eq_true, if_false]
      rw [if_neg hn]
      exact ⟨_, _, rfl, rfl, rfl, rfl⟩
    rw [if_neg hn, ht]
    refine ⟨(raise_mode _ _ _ _ _).trans hmode, ?_, ?_, ?_⟩
    · rw [getF_raise hevc, getF_congr hreg]
      simp (disch := apply fkey_ne_of_lo; decide) only [getF_setF_ne, getF_bumpF_ne, getF_bumpF]
    · rw [onF, getF_raise hevu, getF_congr hreg]
      simp (disch := apply fkey_ne_of_lo; decide) only [getF_setF_ne, getF_setF]
      rfl
    · rw [(KeepsLoftLinks.raise u _ _ _ _).retraining, hretr]
      exact (tget?_tset _ _ _ _).trans (if_pos rfl)

/-! ## A link that comes back (R338) -/

theorem showXoff_up (s : State) (port z : Nat) : getF (showXoff s port) R.lftLink_up z = getF s R.lftLink_up z := by
  unfold showXoff
  split
  · exact getF_setF_ne _ _ (fkey_ne_of_lo (by decide) _ _)
  · rfl

/-- The ports' flow control, and nothing else, follows when no frame is staged. -/
theorem teamFlow_keeps (s : State) (port z : Nat) : (teamFlow s port).mode = s.mode ∧ (teamFlow s port).mem = s.mem ∧
    getF (teamFlow s port) R.lftLink_up z = getF s R.lftLink_up z := by
  have hshow (t : State) : (showXoff t port).mode = t.mode ∧ (showXoff t port).mem = t.mem := by
    unfold showXoff
    split <;> exact ⟨rfl, rfl⟩
  unfold teamFlow setXoff
  dsimp only
  split
  · exact ⟨(hshow _).1, (hshow _).2, showXoff_up _ _ _⟩
  · split
    · exact ⟨(hshow _).1, (hshow _).2, showXoff_up _ _ _⟩
    · exact ⟨rfl, rfl, rfl⟩

theorem resumeAccess_down {s : State} (h : anyLinkDown s = true) : resumeAccess s = s := if_pos h

/-- With no frame held and none staged, a link's return touches nothing more than the ports' flow control. -/
theorem resumeAccess_none {s : State} (hheld : s.upd.heldAccess = []) (hstaged : s.team.staged = []) (z : Nat) :
    (resumeAccess s).mode = s.mode ∧ (resumeAccess s).mem = s.mem ∧
      getF (resumeAccess s) R.lftLink_up z = getF s R.lftLink_up z := by
  unfold resumeAccess
  split
  · exact ⟨rfl, rfl, rfl⟩
  · rw [hheld, hstaged]
    exact ⟨forEach_frame State.mode (fun t p => (teamFlow_keeps t p z).1) _ _,
      forEach_frame State.mem (fun t p => (teamFlow_keeps t p z).2.1) _ _,
      forEach_frame (fun t => getF t R.lftLink_up z) (fun t p => (teamFlow_keeps t p z).2.2) _ _⟩

/-! ## The patrol (R341) -/

/-- With no page protected, an event leaves every poisoned line: its record is shorter than a line. -/
theorem raise_poison {s : State} (h : s.team.pages = []) (code coord d0 d1 : Nat) :
    (raise s code coord d0 d1).upd.poison = s.upd.poison ∧ (raise s code coord d0 d1).upd.softErr = s.upd.softErr := by
  rcases raise_cases s code coord d0 d1 with e | ⟨-, r, e⟩ | ⟨-, r, e⟩ <;> rw [e]
  · exact ⟨rfl, rfl⟩
  · unfold logEvent
    split <;> exact ⟨rfl, rfl⟩
  · unfold ringEvent
    dsimp only
    split
    · exact ⟨rfl, rfl⟩
    · rw [write_unprotected _ _ _ h]
      have hlen : (eventBytes r).length = 32 := eventBytes_length r
      refine ⟨List.filter_eq_self.mpr fun l _ => ?_, List.filter_eq_self.mpr fun l _ => ?_⟩ <;>
      · rw [hlen]
        simp
        omega

/-- A line that cannot be corrected is shown. -/
theorem noteUncorrectable_shows (s : State) (l : Nat) : getF (noteUncorrectable s l) R.lftEccLast_valid = 1 ∧
    getF (noteUncorrectable s l) R.lftEccLast_address = l % 2 ^ R.lftEccLast_address.width ∧
    (noteUncorrectable s l).mode = s.mode ∧
    (s.team.pages = [] → (noteUncorrectable s l).upd.poison = s.upd.poison) := by
  unfold noteUncorrectable
  extract_lets c t
  have ht : t.upd = s.upd ∧ t.team = s.team ∧ t.mode = s.mode := ⟨setFs_upd _ _, setFs_team _ _, setFs_mode _ _⟩
  refine ⟨?_, ?_, (raise_mode _ _ _ _ _).trans ht.2.2, fun h => ?_⟩
  · rw [getF_raise (by decide +kernel)]
    simp (disch := decide) only [t, setFs, List.foldl_cons, List.foldl_nil, getF_setF_ne, getF_setF]
    rfl
  · rw [getF_raise (by decide +kernel)]
    simp (disch := decide) only [t, setFs, List.foldl_cons, List.foldl_nil, getF_setF]
  · rw [(raise_poison (by rw [ht.2.1]; exact h) _ _ _ _).1, ht.1]

theorem noteCorrected_keeps {s : State} (h : s.team.pages = []) (l : Nat) : (noteCorrected s l).mode = s.mode ∧
    (noteCorrected s l).upd.poison = s.upd.poison ∧ (noteCorrected s l).upd.softErr = s.upd.softErr := by
  unfold noteCorrected
  extract_lets c t due
  split
  · exact ⟨raise_mode _ _ _ _ _, raise_poison (s := { t with upd := _ }) h _ _ _ _⟩
  · exact ⟨rfl, rfl, rfl⟩

/-- The lines that are poisoned once a read finds one that cannot be corrected. -/
def poisonWith (s : State) (a : Nat) : List Nat := if s.upd.poison.contains a then s.upd.poison else a :: s.upd.poison

theorem mem_poisonWith (s : State) (a : Nat) : a ∈ poisonWith s a := by
  unfold poisonWith
  split
  · next h => simpa using h
  · exact List.mem_cons_self

/-- The patrol of a line of a fitted channel, whose chip is in service. -/
theorem patrol_eq {s : State} {ch line : Nat} (hm : upStates s = true) (hpop : onF s R.lftChannel_populated ch = true)
    (hline : line < fittedBytes s / 64) (hlost : (getChip s (ch / 2)).lost = false) (found : Found) :
    ∃ v : State, v.mode = s.mode ∧ v.upd = s.upd ∧ v.team = s.team ∧ patrol ch line found s =
      if patrolBad v (lineAddr ch line) found then
        noteUncorrectable { v with upd := { v.upd with poison := poisonWith v (lineAddr ch line) } } (lineAddr ch line)
      else if found == .corrected || v.upd.softErr.contains (lineAddr ch line) then
        noteCorrected { v with upd := { v.upd with softErr := v.upd.softErr.filter (fun l => l != lineAddr ch line) } }
          (lineAddr ch line)
      else v := by
  refine ⟨setF s R.lftScrub_progressPct 0 (100 * line / (fittedBytes s / 64)), setF_mode _ _ _ _, setF_upd _ _ _ _,
    setF_team _ _ _ _, ?_⟩
  unfold patrol
  dsimp only
  rw [if_neg (by simpa [hm, hpop, hlost] using hline)]
  rfl

/-- The patrol poisons a line that cannot be corrected, and writes a corrected one back. -/
theorem patrol_spec {s : State} {ch line : Nat} (hm : upStates s = true) (hpop : onF s R.lftChannel_populated ch = true)
    (hline : line < fittedBytes s / 64) (hlost : (getChip s (ch / 2)).lost = false) (hpages : s.team.pages = [])
    (found : Found) : (patrol ch line found s).mode = s.mode ∧
      if patrolBad s (lineAddr ch line) found = true then
        lineAddr ch line ∈ (patrol ch line found s).upd.poison ∧ getF (patrol ch line found s) R.lftEccLast_valid = 1 ∧
          getF (patrol ch line found s) R.lftEccLast_address = lineAddr ch line % 2 ^ R.lftEccLast_address.width
      else (patrol ch line found s).upd.poison = s.upd.poison ∧
        lineAddr ch line ∉ (if found = .corrected then (patrol ch line found s).upd.softErr else []) := by
  obtain ⟨v, hmode, hupd, hteam, e⟩ := patrol_eq hm hpop hline hlost found
  have hvpages : v.team.pages = [] := by rw [hteam]; exact hpages
  rw [e, ← hupd, show patrolBad s = patrolBad v by unfold patrolBad; rw [hupd]]
  by_cases hbad : patrolBad v (lineAddr ch line) found = true
  · rw [if_pos hbad, if_pos hbad]
    obtain ⟨hvalid, haddr, hm', hp⟩ := noteUncorrectable_shows
      { v with upd := { v.upd with poison := poisonWith v (lineAddr ch line) } } (lineAddr ch line)
    exact ⟨hm'.trans hmode, by rw [hp hvpages]; exact mem_poisonWith v _, hvalid, haddr⟩
  · rw [if_neg hbad, if_neg hbad]
    by_cases hfix : (found == .corrected || v.upd.softErr.contains (lineAddr ch line)) = true
    · rw [if_pos hfix]
      obtain ⟨hm', hp, hs⟩ := noteCorrected_keeps
        (s := { v with upd := { v.upd with softErr := v.upd.softErr.filter (fun l => l != lineAddr ch line) } }) hvpages
        (lineAddr ch line)
      refine ⟨hm'.trans hmode, hp, ?_⟩
      rw [hs]
      split <;> simp
    · rw [if_neg hfix]
      refine ⟨hmode, rfl, ?_⟩
      rw [if_neg (by rintro rfl; exact hfix rfl)]
      simp

/-- Settles O53: a loft link's errors, its retraining and its loss, the loss of a chip, and the patrol's reads. -/
theorem loftHealth : Obligations.LoftHealth := by
  unfold Obligations.LoftHealth
  refine ⟨fun s z replay hz hon hup => ?_, fun s z hz hon hdown => ?_, fun s z lanes a hz hon hdown hlanes hlate => ?_,
    fun s z hz hon hm hlost => ?_, fun s ch line found hch hon hm hpop hline hlost hpages => ?_⟩
  · intro n
    exact ⟨_, onUnit_on hz hon, flitError_spec hz hup replay⟩
  · obtain ⟨hup, hlanes, hretr⟩ := setLink_shows s z (lanes := 8) (by decide)
    have hup' : onF (setLink s z 8) R.lftLink_up z = true := by rw [onF, hup]; rfl
    refine ⟨setLink s z 8, (onUnit_on hz hon).trans (congrArg _ (if_pos hdown)), hup', hlanes, hretr, rfl, rfl,
      resumeAccess_down, fun hheld hstaged => ?_⟩
    obtain ⟨hmode, hmem, hshown⟩ := resumeAccess_none (s := setLink s z 8) hheld hstaged z
    exact ⟨hmode, hmem, by rw [onF, hshown]; exact hup'⟩
  · have hlose : linkLost z lanes s = loseChip s z lanes := by
      simp only [linkLost, hdown]
      exact if_pos ⟨hlanes, hlate⟩
    obtain ⟨hgone, hstate, hup, hlanes', hretr, hhalt⟩ := loseChip_spec s (lanes := lanes) hz (by omega)
    have hne : (lanes == 8) = false := by simp; omega
    exact ⟨_, (onUnit_on hz hon).trans (congrArg (fun u => Host.Outcome.next (resumeAccess u)) hlose), hgone, hstate,
      by rw [onF, hup, hne]; rfl, hlanes', hretr, hhalt⟩
  · obtain ⟨hgone, hstate, -, -, -, hhalt⟩ := loseChip_spec s (lanes := 0) hz (by decide)
    exact ⟨_, (onUnit_on hz hon).trans (congrArg _ (if_pos (by simp [hm, hlost]))), hgone, hstate, hhalt hm⟩
  · exact ⟨_, onUnit_on hch hon, patrol_spec hm hpop hline hlost hpages found⟩

end Sys2Proof.Machine
end

section
/-! The statement on fallback and rebuild: a failed slot that goes on from its image, and a spare tile that takes it over (R301,
R437 to R440). -/
namespace Sys2Proof.Machine
open Sys2Proof

/-! ## Where the slots on fallback are shown (R301) -/

/-- The keys of a stall's two images: the slot of each, and whether it holds one. -/
def fallbackKeys (p : Nat) : List Nat :=
  [fkey R.genStall_fbSlot0 p, fkey R.genStall_fbValid0 p, fkey R.genStall_fbSlot1 p, fkey R.genStall_fbValid1 p]

/-- A field whose lowest bit is not one of theirs lies apart from them. -/
theorem not_fallbackKeys {f : Field} (h : f.lo % 64 ∉ [39, 38, 33, 32]) (u p : Nat) : fkey f u ∉ fallbackKeys p := by
  intro m
  simp only [fallbackKeys, List.mem_cons, List.not_mem_nil, or_false] at m
  have e : fkey f u % 64 = f.lo % 64 := by unfold fkey; omega
  apply h
  rw [← e]
  rcases m with m | m | m | m <;> rw [m] <;> simp only [fkey, R.genStall_fbSlot0, R.genStall_fbValid0, R.genStall_fbSlot1,
    R.genStall_fbValid1] <;> simp

theorem fallbackKeys_not_event {p : Nat} (hp : p < 512) : ∀ k ∈ fallbackKeys p, k ∉ eventKeys := by
  simp only [fallbackKeys, List.forall_mem_cons, List.not_mem_nil, false_imp_iff, implies_true, and_true]
  exact ⟨unit_not_event (n := 512) (by decide +kernel) hp, unit_not_event (n := 512) (by decide +kernel) hp,
    unit_not_event (n := 512) (by decide +kernel) hp, unit_not_event (n := 512) (by decide +kernel) hp⟩

theorem fallbackOf_congr {s t : State} {p : Nat} (h : KeepsKeys (fallbackKeys p) s t) (slot : Nat) :
    fallbackOf t p slot = fallbackOf s p slot := by
  unfold fallbackOf onF
  rw [h R.genStall_fbValid0 p (by simp [fallbackKeys]), h R.genStall_fbSlot0 p (by simp [fallbackKeys]),
    h R.genStall_fbValid1 p (by simp [fallbackKeys]), h R.genStall_fbSlot1 p (by simp [fallbackKeys])]

theorem freeImage_congr {s t : State} {p : Nat} (h : KeepsKeys (fallbackKeys p) s t) : freeImage t p = freeImage s p := by
  unfold freeImage onF
  rw [h R.genStall_fbValid0 p (by simp [fallbackKeys]), h R.genStall_fbValid1 p (by simp [fallbackKeys])]

/-- A slot that takes a free image is on fallback there. -/
theorem fallbackOf_takeImage {s : State} {p slot i : Nat} (hslot : slot < 32) (hnone : fallbackOf s p slot = none)
    (hfree : freeImage s p = some i) : fallbackOf (takeImage s p i slot) p slot = some i := by
  have hcases : i = 0 ∨ i = 1 := by
    unfold freeImage at hfree
    split at hfree
    · exact .inl (Option.some.inj hfree).symm
    · split at hfree
      · exact .inr (Option.some.inj hfree).symm
      · cases hfree
  have hw : slot % 2 ^ 5 = slot := Nat.mod_eq_of_lt hslot
  have hcount (t : State) (n : Nat) : fallbackOf (setF t R.genStall_fbCount p n) p slot = fallbackOf t p slot :=
    fallbackOf_congr (.setF (not_fallbackKeys (by decide) p p) t n) slot
  rcases hcases with rfl | rfl
  · rw [takeImage, hcount, if_pos rfl, fallbackOf, if_pos]
    simp (disch := apply fkey_ne_of_lo; decide) only [onF, getF_setF_ne, getF_setF, R.genStall_fbSlot0]
    rw [hw, beq_self_eq_true]
    rfl
  · rw [takeImage, hcount, if_neg (by decide), fallbackOf, if_neg, if_pos]
    · simp (disch := apply fkey_ne_of_lo; decide) only [onF, getF_setF_ne, getF_setF, R.genStall_fbSlot1]
      rw [hw, beq_self_eq_true]
      rfl
    · simp (disch := apply fkey_ne_of_lo; decide) only [onF, getF_setF_ne]
      intro hc
      rw [fallbackOf, onF, if_pos hc] at hnone
      cases hnone

/-! ## What a sequence leaves (R437) -/

/-- From `s` to `t` a stall's images hold what they held, and the failed slots and the mode stand. -/
structure KeepsFallback (p : Nat) (s t : State) : Prop where
  keys : KeepsKeys (fallbackKeys p) s t
  failing : t.cal.failing = s.cal.failing
  mode : t.mode = s.mode

namespace KeepsFallback
variable {p : Nat} {z s t : State}

theorem refl (s : State) : KeepsFallback p s s := ⟨.refl s, rfl, rfl⟩

theorem trans (h : KeepsFallback p z s) (k : KeepsFallback p s t) : KeepsFallback p z t :=
  ⟨h.keys.trans k.keys, k.failing.trans h.failing, k.mode.trans h.mode⟩

theorem same (hreg : t.reg = s.reg := by rfl) (hcal : t.cal.failing = s.cal.failing := by rfl)
    (hmode : t.mode = s.mode := by rfl) : KeepsFallback p s t := ⟨.same hreg, hcal, hmode⟩

theorem ite {c : Prop} [Decidable c] {a b : State} (ha : KeepsFallback p s a) (hb : KeepsFallback p s b) :
    KeepsFallback p s (if c then a else b) := by
  split
  · exact ha
  · exact hb

theorem setF {f : Field} (h : f.lo % 64 ∉ [39, 38, 33, 32]) (s : State) (u v : Nat) : KeepsFallback p s (setF s f u v) :=
  ⟨.setF (not_fallbackKeys h u p) s v, rfl, rfl⟩

theorem setFs {l : List (Field × Nat)} (h : ∀ f ∈ l.map Prod.fst, f.lo % 64 ∉ [39, 38, 33, 32]) (s : State) :
    KeepsFallback p s (setFs s l) :=
  ⟨.setFs (fun f hf => not_fallbackKeys (h f hf) 0 p) s, by rw [(OnlyReg.setFs s l).eq], setFs_mode s l⟩

theorem modStall (s : State) (q : Nat) (f : Stall → Stall) : KeepsFallback p s (modStall s q f) :=
  same rfl (by rw [modStall_cal])

theorem settle (s : State) (q : Nat) : KeepsFallback p s (settle s q) := ite (modStall s q _) (refl s)

theorem raise (hp : p < 512) (s : State) (code coord d0 d1 : Nat) : KeepsFallback p s (raise s code coord d0 d1) :=
  ⟨.ofReg (.raise s code coord d0 d1) (fallbackKeys_not_event hp), by rw [raise_cal], raise_mode _ _ _ _ _⟩

theorem copy (hp : p < 512) (s : State) (a b n : Nat) : KeepsFallback p s (copy s a b n) :=
  ⟨.ofReg (.copy s a b n) (fallbackKeys_not_event hp), by rw [copy_cal], copy_mode _ _ _ _⟩

theorem showRebuild (s : State) (b : Nat) : KeepsFallback p s (showRebuild s b) := by
  unfold Machine.showRebuild
  exact (setF (by decide) s _ _).trans (setF (by decide) _ _ _)

theorem queueRebuild (hp : p < 512) (s : State) (q slot since : Nat) : KeepsFallback p s (queueRebuild s q slot since) := by
  unfold Machine.queueRebuild
  refine ite (refl s) ?_
  extract_lets n busy _ t
  have ha : KeepsFallback p s { s with cal := { s.cal with rebuilds := s.cal.rebuilds ++ [⟨q, slot, since⟩] } } := same
  have ht : KeepsFallback p s t := ha.trans (showRebuild _ _)
  exact ite (ht.trans (raise hp t _ _ _ _)) ht

theorem noteSequence (hp : p < 512) (s : State) (q slot cause since : Nat) :
    KeepsFallback p s (noteSequence s q slot cause since) := by
  unfold Machine.noteSequence
  extract_lets us pos t
  have ht : KeepsFallback p s t := setFs (by simp only [List.map_cons, List.map_nil]; decide) s
  exact (ht.trans (setF (by decide) t _ _)).trans (raise hp _ _ _ _ _)

end KeepsFallback

/-! ## A failed slot goes on from its image (R301, R437) -/

/-- The sequence of a failed slot ends: it is no longer among those that wait. -/
theorem endSequence_spec {p : Nat} (hp : p < 512) (s : State) (slot cause since : Nat) :
    (endSequence s p slot cause since).mode = s.mode ∧
    fallbackOf (endSequence s p slot cause since) p slot = fallbackOf s p slot ∧
    ∀ q ∈ (endSequence s p slot cause since).cal.failing, ¬ (q.1 = p ∧ q.2.1 = slot) := by
  unfold endSequence
  extract_lets _ u v
  have hv : KeepsFallback p u v := .noteSequence hp u p slot cause since
  have hend : KeepsFallback p u (if (fallbackOf v p slot).isSome = true then queueRebuild v p slot since else v) :=
    .ite (hv.trans (.queueRebuild hp v p slot since)) hv
  have hu : KeepsKeys (fallbackKeys p) s u := .same rfl
  refine ⟨hend.mode, fallbackOf_congr (hu.trans hend.keys) slot, fun q hq => ?_⟩
  rw [hend.failing] at hq
  have hother := (List.mem_filter.mp hq).2
  rintro ⟨rfl, rfl⟩
  simp at hother

/-- A slot's fallback begins in the image it is given. -/
theorem beginFallback_spec {s : State} {p slot i : Nat} (hp : p < 512) (hslot : slot < 32) (hnone : fallbackOf s p slot = none)
    (hfree : freeImage s p = some i) :
    (beginFallback s p slot i).mode = s.mode ∧ fallbackOf (beginFallback s p slot i) p slot = some i := by
  unfold beginFallback
  extract_lets a _ b c d
  have hb : KeepsFallback p a b := .same
  have hd : KeepsFallback p a d := (hb.trans (.setF (by decide) b _ _)).trans (.modStall c p _)
  have hend := (hd.trans (.raise hp d 0x7002 (cStall p) slot (posOf (getStall d p) slot))).trans (.settle _ p)
  refine ⟨hend.mode.trans ?_, (fallbackOf_congr hend.keys slot).trans (fallbackOf_takeImage hslot hnone hfree)⟩
  show (takeImage s p i slot).mode = s.mode
  unfold takeImage
  split <;> rfl

/-- A record that is in order loads whole. -/
theorem loadImage_sound {s : State} (hpoison : s.upd.poison = []) (hsoft : s.upd.softErr = []) (p i : Nat) (pl : Placement) :
    loadImage s p i pl = (copy s (levelAddr s pl) (imageBase p i) recordSize, true) := by
  simp only [loadImage, loftRead_sound hpoison hsoft, if_true]

/-- A failed slot whose block is in goes on from an image of the store. -/
theorem slotOnFallback_spec {s : State} {p slot cause since i : Nat} {pl : Placement} (hp : p < 512) (hslot : slot < 32)
    (hfind : s.cal.failing.find? (fun q => q.1 == p && q.2.1 == slot) = some (p, slot, cause, since))
    (hrun : isRunning (getStall s p) = true) (hstop : (getStall s p).stop = false) (hwin : inWindow s = false)
    (hplace : placeOf s p slot = some pl) (hnone : fallbackOf s p slot = none) (hfree : freeImage s p = some i)
    (hpoison : s.upd.poison = []) (hsoft : s.upd.softErr = []) :
    if loaded s (loadKey 0 p slot) = false then slotOnFallback p slot s = s
    else (slotOnFallback p slot s).mode = s.mode ∧ fallbackOf (slotOnFallback p slot s) p slot = some i ∧
      ∀ q ∈ (slotOnFallback p slot s).cal.failing, ¬ (q.1 = p ∧ q.2.1 = slot) := by
  have hstep : slotOnFallback p slot s = if !loaded s (loadKey 0 p slot) then s else
      endSequence (beginFallback (copy (dropLoad s (loadKey 0 p slot)) (levelAddr (dropLoad s (loadKey 0 p slot)) pl)
        (imageBase p i) recordSize) p slot i) p slot cause since := by
    simp only [slotOnFallback, hfind, hrun, hstop, hwin, hplace, hnone, hfree, Bool.not_true, Bool.or_self, Bool.false_eq_true,
      if_false]
    rw [loadImage_sound (s := dropLoad s (loadKey 0 p slot)) hpoison hsoft]
    rfl
  rw [hstep]
  by_cases hl : loaded s (loadKey 0 p slot) = false
  · rw [if_pos hl, if_pos (by rw [hl]; rfl)]
  · rw [if_neg hl, if_neg (by simpa using hl)]
    have hcopy : KeepsFallback p s (copy (dropLoad s (loadKey 0 p slot)) (levelAddr (dropLoad s (loadKey 0 p slot)) pl)
      (imageBase p i) recordSize) := (KeepsFallback.same (s := s)).trans (.copy hp _ _ _ _)
    generalize copy (dropLoad s (loadKey 0 p slot)) (levelAddr (dropLoad s (loadKey 0 p slot)) pl) (imageBase p i)
      recordSize = u at *
    have hfree' : freeImage u p = some i := by rw [freeImage_congr hcopy.keys]; exact hfree
    obtain ⟨hbm, hbf⟩ := beginFallback_spec hp hslot ((fallbackOf_congr hcopy.keys slot).trans hnone) hfree'
    obtain ⟨hem, hef, hfail⟩ := endSequence_spec hp (beginFallback u p slot i) slot cause since
    exact ⟨hem.trans (hbm.trans hcopy.mode), hef.trans hbf, hfail⟩

/-! ## A rebuild (R439, R440) -/

/-- A rebuild that may start does. -/
theorem rebuildStart_starts {s : State} {p slot spare i : Nat} {r : RebuildReq} {pl : Placement} {w : WriteReport}
    (hreq : s.cal.rebuilds.find? (fun r => r.stall == p && r.slot == slot) = some r) (hspare : nextSpare s p = some spare)
    (hplace : placeOf s p slot = some pl) (hfb : fallbackOf s p slot = some i) (hready : rebuildReady s r = true)
    (hroom : barnRebuilds s (barnOf p) < 2) (hfirst : ∀ q ∈ s.cal.rebuilds, barnOf q.stall = barnOf p →
      rebuildReady s q = true → rebuildBefore q r = false)
    (hwin : inWindow s = false) (hstop : (getStall s p).stop = false) (hbrand : s.brandBad = []) :
    rebuildStart p slot w s = startRebuild s p slot i spare pl w := by
  have hall : s.cal.rebuilds.all (fun q => !(barnOf q.stall == barnOf p && rebuildReady s q && rebuildBefore q r)) = true := by
    refine List.all_eq_true.mpr (fun q hq => ?_)
    by_cases hb : barnOf q.stall = barnOf p
    · cases hr : rebuildReady s q
      · simp
      · simp [hfirst q hq hb hr]
    · simp [hb]
  have hsource : rebuildSource s p slot i pl = (s, true) := by simp only [rebuildSource, checkBrands_sound hbrand, if_true]
  simp only [rebuildStart, hreq, hspare, hplace, hfb, hall, hready, decide_eq_true hroom, hwin, hstop, hsource, Bool.not_false,
    Bool.and_self, if_true]

/-- The tiles that carry a stall's slots. -/
def liveOf (s : State) (p : Nat) : List Nat := (getStall s p).live

theorem liveOf_modStall {s : State} {p : Nat} {f : Stall → Stall} (h : (f (getStall s p)).live = (getStall s p).live) :
    liveOf (modStall s p f) p = liveOf s p := by
  unfold liveOf
  rw [getStall_modStall, h]

theorem liveOf_settle (s : State) (p : Nat) : liveOf (settle s p) p = liveOf s p := by
  unfold settle
  split
  · exact liveOf_modStall rfl
  · rfl

theorem liveOf_raise (s : State) (p code coord d0 d1 : Nat) : liveOf (raise s code coord d0 d1) p = liveOf s p :=
  congrArg Stall.live (getStall_congr (raise_stalls s code coord d0 d1) p)

theorem freeFallback_stalls (s : State) (p slot : Nat) : (freeFallback s p slot).stalls = s.stalls := by
  unfold freeFallback
  split
  · rfl
  · dsimp only
    split <;> rfl

theorem liveOf_endFallback (s : State) (p slot : Nat) : liveOf (endFallback s p slot) p = liveOf s p := by
  unfold endFallback
  extract_lets n a _ b c
  have hb : b.stalls = s.stalls := freeFallback_stalls s p slot
  clear_value b
  have hc : c.stalls = b.stalls := by
    rw [show c = if (getStall b p).ops.any (fun o => o.slot == slot) then
      setF b R.tilStatus_busy (tileIx p (posOf (getStall b p) slot)) 1 else b from rfl]
    split <;> rfl
  rw [liveOf_raise, liveOf_modStall rfl]
  exact congrArg Stall.live (getStall_congr (hc.trans hb) p)

theorem dropFill_stalls (s : State) (p : Nat) (rebuild : Bool) : (dropFill s p rebuild).stalls = s.stalls := by
  unfold dropFill showRotation
  dsimp only
  split <;> rfl

theorem pruneRebuilds_stalls (s : State) (p : Nat) : (pruneRebuilds s p).stalls = s.stalls := by
  unfold pruneRebuilds
  split <;> rfl

theorem liveOf_moveSlot (s : State) (p slot t : Nat) : liveOf (moveSlot s p slot t) p = (getStall s p).live.set slot t := by
  unfold liveOf moveSlot
  simp only [getStall_setF, getStall_modStall]

/-- The slot whose rebuild ends is carried by its spare. -/
theorem finishRebuild_live (s : State) (p : Nat) (f : Fill) :
    (getStall (finishRebuild s p f) p).live = (getStall s p).live.set f.slot f.toTile := by
  unfold finishRebuild
  extract_lets a b c d e
  have ha : liveOf a p = (getStall s p).live.set f.slot f.toTile := liveOf_moveSlot s p f.slot f.toTile
  clear_value a
  have hb : liveOf b p = liveOf a p := liveOf_modStall rfl
  clear_value b
  have hc : liveOf c p = liveOf b p :=
    (congrArg Stall.live (getStall_congr (dropFill_stalls _ p true) p)).trans (liveOf_endFallback b p f.slot)
  clear_value c
  have hd : liveOf d p = liveOf c p := liveOf_raise _ _ _ _ _ _
  clear_value d
  have he : liveOf e p = liveOf d p := congrArg Stall.live (getStall_congr rfl p)
  refine (liveOf_settle _ p).trans ((congrArg Stall.live (getStall_congr (pruneRebuilds_stalls e p) p)).trans ?_)
  exact he.trans (hd.trans (hc.trans (hb.trans ha)))

theorem rebuildDone_ends {s : State} {p slot i : Nat} {f : Fill} {pl : Placement} {w : WriteReport}
    (hfill : fillOf s p true = some f) (hslot : f.slot = slot) (hplace : placeOf s p slot = some pl)
    (hfb : fallbackOf s p slot = some i) (hrun : isRunning (getStall s p) = true) (hwin : inWindow s = false)
    (hheld : slotHeld (getStall s p) slot = false) (htrim : s.cal.trimming.contains (tileIx p f.toTile, 5) = false) :
    rebuildDone p slot w s = (let r := refillRows s p f.toTile (imageBase p i) f.rows pl w
      if r.2 then failTile r.1 p f.toTile 3 else finishRebuild r.1 p f) := by
  have hfilter : (fillOf s p true).filter (fun f => f.slot == slot) = some f := by simp [hfill, hslot]
  simp only [rebuildDone, hfilter, hplace, hfb, hrun, hwin, hheld, htrim, Bool.not_true, Bool.or_self, Bool.false_eq_true,
    if_false]

/-- Settles O52: a failed slot goes on from its image, a rebuild starts, and at its end the spare carries the slot. -/
theorem fallbackAndRebuild : Obligations.FallbackAndRebuild := by
  unfold Obligations.FallbackAndRebuild
  refine ⟨fun s p slot cause since i pl hp hslot hon hfind hrun hstop hwin hplace hnone hfree hpoison hsoft => ?_,
    fun s p slot spare i r pl w hp hon hreq hspare hplace hfb hready hroom hfirst hwin hstop hbrand => ?_,
    fun s p slot i f pl w hp hon hfill hslot hplace hfb hrun hwin hheld htrim => ?_⟩
  · have hstep := slotOnFallback_spec hp hslot hfind hrun hstop hwin hplace hnone hfree hpoison hsoft
    by_cases hl : loaded s (loadKey 0 p slot) = false
    · rw [if_pos hl] at hstep ⊢
      exact (onStall_on hp hon).trans (congrArg _ hstep)
    · rw [if_neg hl] at hstep ⊢
      exact ⟨_, onStall_on hp hon, hstep⟩
  · exact (onStall_on hp hon).trans
      (congrArg _ (rebuildStart_starts hreq hspare hplace hfb hready hroom hfirst hwin hstop hbrand))
  · intro r
    refine ⟨_, (onStall_on hp hon).trans (congrArg _ (rebuildDone_ends hfill hslot hplace hfb hrun hwin hheld htrim)), ?_⟩
    by_cases hfail : r.2 = true
    · rw [if_pos hfail]
      exact if_pos hfail
    · rw [if_neg hfail]
      exact (congrArg (fun t => (getStall t p).live) (if_neg hfail)).trans
        ((finishRebuild_live r.1 p f).trans (by rw [hslot]))

end Sys2Proof.Machine
end

section
/-! The statement on the bursts of the mover's channels (R338, R369, R373 to R376, R379, R380). -/
namespace Sys2Proof.Machine
open Sys2Proof

/-! ## What leaves memory but for the event ring (R153) -/

/-- From `s` to `t` the event ring keeps its place, and with no page protected memory changes in it alone. -/
structure OnlyRing (s t : State) : Prop where
  ring : KeepsKeys ringPlace s t
  mem : s.team.pages = [] → t.team.pages = [] ∧ ∀ a, s.eventsOff a → readByte t a = readByte s a

namespace OnlyRing
variable {z s t : State}

theorem refl (s : State) : OnlyRing s s := ⟨.refl s, fun h => ⟨h, fun _ _ => rfl⟩⟩

theorem trans (h : OnlyRing z s) (k : OnlyRing s t) : OnlyRing z t := by
  refine ⟨h.ring.trans k.ring, fun hpages => ?_⟩
  obtain ⟨hpages', hmem⟩ := h.mem hpages
  obtain ⟨hpages'', hmem'⟩ := k.mem hpages'
  exact ⟨hpages'', fun a ha => (hmem' a (eventsOff_of_keys h.ring ha)).trans (hmem a ha)⟩

theorem same (hr : t.reg = s.reg := by rfl) (hp : t.team.pages = s.team.pages := by rfl) (hm : t.mem = s.mem := by rfl) :
    OnlyRing s t := ⟨.same hr, fun h => ⟨hp.trans h, fun a _ => congrArg (tget 0 · a) hm⟩⟩

theorem ite {c : Prop} [Decidable c] {a b : State} (ha : OnlyRing s a) (hb : OnlyRing s b) :
    OnlyRing s (if c then a else b) := by
  split
  · exact ha
  · exact hb

theorem forEach {α : Type} {f : State → α → State} (h : ∀ s a, OnlyRing s (f s a)) (l : List α) (s : State) :
    OnlyRing s (forEach l f s) := by
  induction l generalizing s with
  | nil => exact refl s
  | cons a l ih => exact (h s a).trans (ih _)

theorem setF {f : Field} (hf : f.apartFrom ringPlace = true) (s : State) (u v : Nat) : OnlyRing s (setF s f u v) :=
  ⟨.setF (fkey_of_apartFrom hf u) s v, fun h => ⟨h, fun _ _ => rfl⟩⟩

theorem setFs {l : List (Field × Nat)} (h : ∀ f ∈ l.map Prod.fst, f.apartFrom ringPlace = true) (s : State) :
    OnlyRing s (setFs s l) :=
  ⟨.setFs (fun f hf => fkey_of_apartFrom (h f hf) 0) s, fun hp => ⟨by rw [setFs_team]; exact hp, fun a _ => by
    rw [(OnlyReg.setFs s l).eq]
    rfl⟩⟩

theorem raise (s : State) (code coord d0 d1 : Nat) : OnlyRing s (raise s code coord d0 d1) :=
  ⟨.ofReg (.raise s _ _ _ _) (by decide), fun h =>
    ⟨((Steady.refl noStall s).raise _ _ _ _).pages h, fun _ ha => readByte_raise h ha _ _ _ _⟩⟩

theorem setChan (s : State) (c : Nat) (h : Chan) : OnlyRing s (setChan s c h) := same

theorem stopStall (s : State) (p : Nat) : OnlyRing s (stopStall s p) := same

theorem chargePort (s : State) (x : Nat × Nat) : OnlyRing s (chargePort s x) := ite same (refl s)

theorem refuseChan (s : State) (c status phase check : Nat) : OnlyRing s (refuseChan s c status phase check) := by
  unfold Machine.refuseChan
  extract_lets h a b p
  have hb : OnlyRing s b := (setChan s c _).trans (raise a _ _ _ _)
  clear_value b
  refine ite ?_ ?_
  · exact (((hb.trans (setF (by decide) b p 1)).trans (setF (by decide) _ p status)).trans (setF (by decide) _ p phase)).trans
      (stopStall _ p)
  · exact (hb.trans (setF (by decide) b c status)).trans (setF (by decide) _ c phase)

theorem descDone (s : State) (c : Nat) (d : Desc) : OnlyRing s (descDone s c d) := ite (raise s _ _ _ _) (refl s)

theorem chanIdle (s : State) (c : Nat) : OnlyRing s (chanIdle s c) :=
  ite (setChan s c _) ((setChan s c _).trans (setF (by decide) _ c 1))

theorem checkBrands (s : State) (reader coord a n : Nat) : OnlyRing s (checkBrands s reader coord a n).1 := by
  unfold Machine.checkBrands
  split
  · exact refl s
  · refine forEach (fun t p => ?_) _ s
    refine ite ?_ ?_
    · exact ((setFs (by simp only [List.map_cons, List.map_nil]; decide) t).trans (setF (by decide) _ 0 _)).trans
        (raise _ _ _ _ _)
    · have hfix : OnlyRing t { t with brandBad := t.brandBad.filter (fun q => q.1 != p.1) } := same
      exact (hfix.trans (setF (by decide) _ 0 _)).trans (raise _ _ _ _ _)

theorem readDesc (s : State) (c loc phase : Nat) : OnlyRing s (readDesc s c loc phase).1 := by
  unfold Machine.readDesc
  split
  · exact refuseChan s c 3 phase 1
  · extract_lets r
    have hr : OnlyRing s r.1 := checkBrands s 3 cPkg _ 64
    clear_value r
    split
    · exact hr.trans (refuseChan _ c 7 phase 0)
    · next b _ =>
      extract_lets d u k
      have hu : OnlyRing s u := hr.trans (setChan r.1 c _)
      clear_value u
      split
      · exact hu.trans (refuseChan u c 4 phase 1)
      · split
        · split
          · exact hu.trans (descDone u c d)
          · exact (hu.trans (descDone u c d)).trans (chanIdle _ c)
        · exact ite hu (hu.trans (refuseChan u c _ phase _))

theorem startDesc (n : Nat) (s : State) (c loc phase : Nat) : OnlyRing s (startDesc n s c loc phase) := by
  induction n generalizing s loc phase with
  | zero =>
    unfold Machine.startDesc
    exact readDesc s c loc phase
  | succ n ih =>
    unfold Machine.startDesc
    dsimp only
    cases h : (Machine.readDesc s c loc phase).2 with
    | none => exact readDesc s c loc phase
    | some next => exact (readDesc s c loc phase).trans (ih _ _ _)

theorem endDesc (s : State) (c : Nat) (d : Desc) : OnlyRing s (endDesc s c d) :=
  (descDone s c d).trans (ite (startDesc 64 _ c d.next 2) (chanIdle _ c))

theorem addRequest (s : State) (c : Nat) : OnlyRing s (addRequest s c) := by
  unfold Machine.addRequest
  extract_lets h n a b
  have hb : OnlyRing s b := (ite (setF (by decide) s _ _) (setF (by decide) s _ _)).trans (setChan a c _)
  clear_value b
  exact ite (refl s) (ite (setChan s c _) (ite hb (hb.trans (raise b _ _ _ _))))

theorem tellPeers (s : State) (c : Nat) : OnlyRing s (tellPeers s c) := forEach addRequest _ s

end OnlyRing

/-! ## The channel's own record (R374, R379, R380) -/

/-- A refusal stops the channel. -/
theorem refuseChan_st (s : State) (c status phase check : Nat) : (getChan (refuseChan s c status phase check) c).st = 3 := by
  have hmovs : (refuseChan s c status phase check).movs = (setChan s c { getChan s c with st := 3 }).movs := by
    unfold refuseChan
    extract_lets h a b p
    have hb : b.movs = a.movs := raise_movs _ _ _ _ _
    clear_value b
    split
    · exact hb
    · exact hb
  rw [getChan_congr hmovs, getChan_setChan]

theorem chanIdle_st (s : State) (c : Nat) : (getChan (chanIdle s c) c).st = 0 := by
  have hmovs : (chanIdle s c).movs = (setChan s c { getChan s c with st := 0 }).movs := by
    unfold chanIdle
    dsimp only
    split <;> rfl
  rw [getChan_congr hmovs, getChan_setChan]

/-- A request leaves a channel's state and its bytes as they are. -/
theorem addRequest_keeps (s : State) (k c : Nat) : (getChan (addRequest s k) c).bytesDone = (getChan s c).bytesDone ∧
    (getChan (addRequest s k) c).st = (getChan s c).st := by
  have hset (t : State) (ht : t.movs = s.movs) (h : Chan) (hb : h.bytesDone = (getChan s k).bytesDone)
      (hst : h.st = (getChan s k).st) : (getChan (setChan t k h) c).bytesDone = (getChan s c).bytesDone ∧
        (getChan (setChan t k h) c).st = (getChan s c).st := by
    by_cases hc : c = k
    · subst hc
      rw [getChan_setChan]
      exact ⟨hb, hst⟩
    · rw [getChan_setChan_ne _ _ hc, getChan_congr ht]
      exact ⟨rfl, rfl⟩
  unfold addRequest
  extract_lets h n a b
  have ha : a.movs = s.movs := by
    simp only [a]
    split <;> rfl
  have hb := hset a ha { h with overflow := n, overShown := true } rfl rfl
  split
  · exact ⟨rfl, rfl⟩
  · split
    · exact hset s rfl _ rfl rfl
    · split
      · exact hb
      · rw [getChan_congr (raise_movs b _ _ _ _)]
        exact hb

theorem tellPeers_keeps (s : State) (k c : Nat) : (getChan (tellPeers s k) c).bytesDone = (getChan s c).bytesDone ∧
    (getChan (tellPeers s k) c).st = (getChan s c).st :=
  ⟨forEach_frame (fun t => (getChan t c).bytesDone) (fun t q => (addRequest_keeps t q c).1) _ s,
    forEach_frame (fun t => (getChan t c).st) (fun t q => (addRequest_keeps t q c).2) _ s⟩

theorem chargePort_movs (s : State) (x : Nat × Nat) : (chargePort s x).movs = s.movs := by
  unfold chargePort
  split <;> rfl

/-- A burst's bytes are done: the channel's count follows, and channels that wait for this one are told (R374, R375). -/
def burstDone (s : State) (c : Nat) (d : Desc) (b n : Nat) : State :=
  let u := setChan s c { getChan s c with bytesDone := b + n }
  tellPeers (if isStallChan c then
    forEach (sidePieces (srcSide d) b n true ++ sidePieces (dstSide d) b n false) chargePort u else u) c

theorem burstDone_chan (s : State) (c : Nat) (d : Desc) (b n : Nat) :
    (getChan (burstDone s c d b n) c).bytesDone = b + n ∧ (getChan (burstDone s c d b n) c).st = (getChan s c).st := by
  unfold burstDone
  extract_lets _ u
  obtain ⟨hbytes, hst⟩ := tellPeers_keeps (if isStallChan c then
    forEach (sidePieces (srcSide d) b n true ++ sidePieces (dstSide d) b n false) chargePort u else u) c c
  have hmovs : (if isStallChan c then forEach (sidePieces (srcSide d) b n true ++ sidePieces (dstSide d) b n false) chargePort u
      else u).movs = u.movs := by
    split
    · exact forEach_frame State.movs chargePort_movs _ u
    · rfl
  rw [hbytes, hst, getChan_congr hmovs]
  have hu : getChan u c = { getChan s c with bytesDone := b + n } := getChan_setChan _ _ _
  rw [hu]
  exact ⟨rfl, rfl⟩

theorem burstDone_ring (s : State) (c : Nat) (d : Desc) (b n : Nat) : OnlyRing s (burstDone s c d b n) := by
  unfold burstDone
  exact ((OnlyRing.setChan s c _).trans (.ite (.forEach OnlyRing.chargePort _ _) (.refl _))).trans (.tellPeers _ c)

/-- The last burst of a descriptor that no other follows ends the chain. -/
theorem endDesc_st {d : Desc} (h : bit d.flags 2 = false) (s : State) (c : Nat) : (getChan (endDesc s c d) c).st = 0 := by
  unfold endDesc
  dsimp only
  rw [if_neg (by simp [h])]
  exact chanIdle_st _ c

/-! ## A burst (R374, R375) -/

/-- What a burst leaves, by what its reads and its writes answer. -/
theorem moveBytes_spec (s : State) (c : Nat) (d : Desc) (b n : Nat) (w : List (Nat × WriteReport)) :
    let r := readPieces s (sidePieces (srcSide d) b n true)
    let x := writePieces r.1 (joinRound (joinWrites (cutStream (sidePieces (dstSide d) b n false) (r.2.2.take n)))) w
    let t := moveBytes s c d b n w
    if r.2.1 ≠ 0 then (getChan t c).st = 3
    else if x.2 ≠ 0 then (getChan t c).st = 3
    else
      (x.1.team.pages = [] → ∀ a, x.1.eventsOff a → readByte t a = readByte x.1 a) ∧
      if d.length ≤ b + n then bit d.flags 2 = false → (getChan t c).st = 0
      else (getChan t c).bytesDone = b + n ∧ (getChan t c).st = (getChan x.1 c).st := by
  intro r x t
  have ht : t = if r.2.1 ≠ 0 then refuseChan r.1 c r.2.1 1 0 else if x.2 ≠ 0 then refuseChan x.1 c x.2 1 0
      else if d.length ≤ b + n then endDesc (burstDone x.1 c d b n) c d else burstDone x.1 c d b n := rfl
  clear_value x t
  by_cases hr : r.2.1 ≠ 0
  · rw [if_pos hr] at ht ⊢
    rw [ht]
    exact refuseChan_st _ _ _ _ _
  rw [if_neg hr] at ht ⊢
  by_cases hx : x.2 ≠ 0
  · rw [if_pos hx] at ht ⊢
    rw [ht]
    exact refuseChan_st _ _ _ _ _
  rw [if_neg hx] at ht ⊢
  have hring : OnlyRing x.1 t := by
    rw [ht]
    exact (burstDone_ring x.1 c d b n).trans (.ite (.endDesc _ c d) (.refl _))
  refine ⟨fun hpages a ha => (hring.mem hpages).2 a ha, ?_⟩
  by_cases hend : d.length ≤ b + n
  · rw [if_pos hend] at ht ⊢
    rw [ht]
    exact fun h => endDesc_st h _ c
  · rw [if_neg hend] at ht ⊢
    rw [ht]
    exact burstDone_chan x.1 c d b n

/-- A channel at work on a descriptor moves its next burst, or waits. -/
theorem chanBurst_moves {s : State} {c : Nat} {d : Desc} (hdesc : (getChan s c).desc = some d) (hst : (getChan s c).st = 1)
    (hleft : (getChan s c).bytesDone < d.length) (w : List (Nat × WriteReport)) : chanBurst c w s =
      if (d.reqSrc ≠ 0 ∧ (getChan s c).pending = 0) ∨
          burstHeld s d (getChan s c).bytesDone (min d.burst (d.length - (getChan s c).bytesDone)) = true then s
      else moveBytes (takeRequest s c d) c d (getChan s c).bytesDone (min d.burst (d.length - (getChan s c).bytesDone)) w := by
  simp only [chanBurst, hdesc, hst, ne_eq, not_true_eq_false, if_false, if_neg (Nat.not_le.mpr hleft)]
  by_cases hreq : ¬ d.reqSrc = 0 ∧ (getChan s c).pending = 0
  · rw [if_pos hreq, if_pos (.inl hreq)]
  · rw [if_neg hreq]
    by_cases hheld : burstHeld s d (getChan s c).bytesDone (min d.burst (d.length - (getChan s c).bytesDone)) = true
    · rw [if_pos hheld, if_pos (.inr hheld)]
    · rw [if_neg hheld, if_neg (not_or.mpr ⟨hreq, hheld⟩)]

theorem takeRequest_pending (s : State) (c : Nat) (d : Desc) :
    (getChan (takeRequest s c d) c).pending = (getChan s c).pending - b2n (d.reqSrc != 0) := by
  unfold takeRequest
  by_cases h : d.reqSrc = 0
  · simp [h, b2n]
  · simp [h, b2n]

theorem moverBurst_chan {c : Nat} (hc : c < 57 ∨ (64 ≤ c ∧ c < 576)) (w : List (Nat × WriteReport)) (s : State) :
    moverBurst c w s = chanBurst c w s := by
  unfold moverBurst isStallChan
  rcases hc with h | ⟨h, -⟩
  · rw [if_neg (by simp; omega), if_pos h]
  · rw [if_pos (by simpa using h)]

/-! ## A burst of loft streaming (R301, R369, R376) -/

theorem ranDry_keeps (s : State) (c : Nat) : (ranDry s c).mem = s.mem ∧ (ranDry s c).reg = s.reg ∧
    (ranDry s c).mode = s.mode ∧ (ranDry s c).cal = s.cal ∧ (getChan (ranDry s c) c).bucket = (getChan s c).bucket := by
  unfold ranDry
  split
  · exact ⟨rfl, rfl, rfl, rfl, by rw [getChan_setChan]⟩
  · exact ⟨rfl, rfl, rfl, rfl, rfl⟩

/-- The bytes of a chip's first record wanted that the next burst streams. -/
def streamBytes (s : State) (c k : Nat) : Nat := min (burstSize s c) (recordSize - tget 0 s.cal.loads k)

/-- The bytes of a record that are streamed are counted. -/
def noteStreamed (s : State) (k n : Nat) : State := { s with cal := { s.cal with loads := tset s.cal.loads k n } }

/-- A channel's bucket gives a burst's bytes. -/
def drawBucket (s : State) (c n : Nat) : State :=
  setChan s c { getChan s c with bucket := (getChan s c).bucket - 256 * n, held := false }

/-- A channel whose bucket is too empty for its burst is held. -/
def holdBucket (s : State) (c : Nat) : State :=
  setChan s c { getChan s c with held := true, heldSince := if (getChan s c).held then (getChan s c).heldSince else s.now }

theorem takeBucket_eq (s : State) (c n : Nat) : takeBucket s c n =
    if 256 * n ≤ (getChan s c).bucket then (drawBucket s c n, true) else (holdBucket s c, false) := rfl

theorem loftBurst_eq {s : State} {c k : Nat} {l : List Nat} (hwant : wantedLoads s (c - 60) = k :: l) : loftBurst c s =
    if 256 * streamBytes s c k ≤ (getChan s c).bucket then
      ranDry (noteStreamed (drawBucket s c (streamBytes s c k)) k (tget 0 s.cal.loads k + streamBytes s c k)) c
    else holdBucket s c := by
  unfold loftBurst
  rewrite [hwant]
  dsimp only
  rewrite [← streamBytes, takeBucket_eq]
  by_cases hroom : 256 * streamBytes s c k ≤ (getChan s c).bucket
  · rewrite [if_pos hroom, if_pos hroom]
    exact if_neg Bool.false_ne_true
  · rewrite [if_neg hroom, if_neg hroom]
    exact if_pos rfl

/-- The channel streams as many bytes of the first record wanted as its bucket reaches, or is held. -/
theorem loftBurst_spec {s : State} {c k : Nat} {l : List Nat} (hwant : wantedLoads s (c - 60) = k :: l) :
    (loftBurst c s).mem = s.mem ∧ (loftBurst c s).reg = s.reg ∧ (loftBurst c s).mode = s.mode ∧
      if 256 * streamBytes s c k ≤ (getChan s c).bucket then
        tget 0 (loftBurst c s).cal.loads k = tget 0 s.cal.loads k + streamBytes s c k ∧
          (getChan (loftBurst c s) c).bucket = (getChan s c).bucket - 256 * streamBytes s c k
      else (getChan (loftBurst c s) c).held = true ∧ (loftBurst c s).cal = s.cal := by
  rw [loftBurst_eq hwant]
  generalize streamBytes s c k = n
  by_cases hroom : 256 * n ≤ (getChan s c).bucket
  · rw [if_pos hroom, if_pos hroom]
    have hum : (drawBucket s c n).mem = s.mem ∧ (drawBucket s c n).reg = s.reg ∧
        (drawBucket s c n).mode = s.mode ∧
        (getChan (drawBucket s c n) c).bucket = (getChan s c).bucket - 256 * n := by
      rw [drawBucket, getChan_setChan]
      exact ⟨rfl, rfl, rfl, rfl⟩
    generalize drawBucket s c n = u at *
    obtain ⟨hmem, hreg, hmode, hbucket⟩ := hum
    obtain ⟨hmem', hreg', hmode', hcal, hbucket'⟩ := ranDry_keeps (noteStreamed u k (tget 0 s.cal.loads k + n)) c
    refine ⟨hmem'.trans hmem, hreg'.trans hreg, hmode'.trans hmode, ?_, hbucket'.trans hbucket⟩
    rw [hcal]
    exact congrArg (Option.getD · 0) ((tget?_tset _ _ _ _).trans (if_pos rfl))
  · rw [if_neg hroom, if_neg hroom, holdBucket, getChan_setChan]
    exact ⟨rfl, rfl, rfl, rfl, rfl⟩

theorem moverBurst_loft {s : State} {z : Nat} (hz : z < 4) (w : List (Nat × WriteReport)) :
    moverBurst (60 + z) w s = if linkDown s z = true then s else loftBurst (60 + z) s := by
  unfold moverBurst isStallChan
  rw [if_neg (by simp; omega), if_neg (by omega), if_neg (by omega), if_neg (by omega), Nat.add_sub_cancel_left]

/-- Settles O55: what a burst moves, by what its reads and writes answer, and what the loft's channels stream. -/
theorem bursts : Obligations.Bursts := by
  unfold Obligations.Bursts
  refine ⟨fun s c d w hc hon hdesc hst hleft => ?_, fun s z k l w hz hon hwant => ?_⟩
  · intro b n
    have hrun : exec (.moverBurst c w) s = .next (chanBurst c w s) :=
      (onUnit_on (by omega) hon).trans (congrArg _ (moverBurst_chan hc w s))
    rw [chanBurst_moves hdesc hst hleft] at hrun
    by_cases hwait : (d.reqSrc ≠ 0 ∧ (getChan s c).pending = 0) ∨ burstHeld s d b n = true
    · rw [if_pos hwait] at hrun ⊢
      exact hrun
    · rw [if_neg hwait] at hrun ⊢
      exact ⟨takeRequest_pending s c d, _, hrun, moveBytes_spec (takeRequest s c d) c d b n w⟩
  · intro n
    have hrun : exec (.moverBurst (60 + z) w) s = .next (moverBurst (60 + z) w s) := onUnit_on (by omega) hon
    rw [moverBurst_loft hz] at hrun
    by_cases hdown : linkDown s z = true
    · rw [if_pos hdown] at hrun ⊢
      exact hrun
    · rw [if_neg hdown] at hrun ⊢
      exact ⟨_, hrun, loftBurst_spec (by rw [Nat.add_sub_cancel_left]; exact hwant)⟩

end Sys2Proof.Machine
end

section
/-! What a scrub in READY leaves alone (R473, R476): the mode and the time, through writes of arrays, tiles that fail and the
registers' reset. -/
namespace Sys2Proof.Machine
open Sys2Proof

/-- From `s` to `t` the module's mode and its time stand. -/
structure SameInstant (s t : State) : Prop where
  mode : t.mode = s.mode
  now : t.now = s.now

namespace SameInstant
variable {z s t : State}

theorem refl (s : State) : SameInstant s s := ⟨rfl, rfl⟩

theorem trans (h : SameInstant z s) (k : SameInstant s t) : SameInstant z t := ⟨k.mode.trans h.mode, k.now.trans h.now⟩

/-- A change of other parts alone. -/
theorem same (h : SameInstant z s) (hm : t.mode = s.mode := by rfl) (hn : t.now = s.now := by rfl) : SameInstant z t :=
  h.trans ⟨hm, hn⟩

theorem ite {c : Prop} [Decidable c] {a b : State} (ha : SameInstant z a) (hb : SameInstant z b) :
    SameInstant z (if c then a else b) := by
  split
  · exact ha
  · exact hb

theorem when {f : State → State} (h : SameInstant z s) (hf : SameInstant z (f s)) (c : Bool) : SameInstant z (when c f s) :=
  ite hf h

theorem forEach {α : Type} {f : State → α → State} (hf : ∀ s a, SameInstant s (f s a)) (h : SameInstant z s) (l : List α) :
    SameInstant z (forEach l f s) :=
  h.trans (List.foldlRecOn l f (motive := SameInstant s) (refl s) (fun t ht a _ => ht.trans (hf t a)))

theorem setF (h : SameInstant z s) (f : Field) (u v : Nat) : SameInstant z (setF s f u v) := h.same

theorem bumpF (h : SameInstant z s) (f : Field) (u n : Nat) : SameInstant z (bumpF s f u n) := h.same

theorem setFs (h : SameInstant z s) (l : List (Field × Nat)) : SameInstant z (setFs s l) :=
  h.forEach (fun t (x : Field × Nat) => (refl t).setF x.1 0 x.2) l

theorem modStall (h : SameInstant z s) (p : Nat) (f : Stall → Stall) : SameInstant z (modStall s p f) := h.same

theorem raise (h : SameInstant z s) (code coord d0 d1 : Nat) : SameInstant z (raise s code coord d0 d1) :=
  h.trans ⟨raise_mode _ _ _ _ _, raise_now _ _ _ _ _⟩

theorem raiseOnce (h : SameInstant z s) (code unit coord d0 d1 : Nat) : SameInstant z (raiseOnce s code unit coord d0 d1) := by
  unfold Machine.raiseOnce
  exact ite h (h.same.raise _ _ _ _)

theorem write (h : SameInstant z s) (a : Nat) (b : Bytes) : SameInstant z (write s a b) :=
  h.trans ⟨write_mode _ _ _, write_now _ _ _⟩

theorem zero (h : SameInstant z s) (a n : Nat) : SameInstant z (zero s a n) := h.trans ⟨zero_mode _ _ _, zero_now _ _ _⟩

theorem patch (h : SameInstant z s) (a n : Nat) (l : List (Nat × Byte)) : SameInstant z (patch s a n l) := by
  unfold Machine.patch
  split
  · exact h
  · exact h.trans ⟨protect_mode _ _ _, protect_now _ _ _⟩

/-! ## Writes of tiles (R236, R239) -/

theorem wearShow (h : SameInstant z s) (tile count : Nat) : SameInstant z (wearShow s tile count) := by
  unfold Machine.wearShow
  extract_lets n p t a b
  have ha : SameInstant z a := h.when ((h.setF _ _ _).setF _ _ _) _
  have hb : SameInstant z b := ha.when (ha.raiseOnce _ _ _ _ _) _
  exact ite ((hb.setF _ _ _).raise _ _ _ _) hb

theorem pulse (h : SameInstant z s) (tile pair : Nat) : SameInstant z (pulse s tile pair) := by
  unfold Machine.pulse
  extract_lets x _ t k
  have ht : SameInstant z t := h.same
  exact ite (ht.same.wearShow _ _) ht

theorem addStuck (h : SameInstant z s) (tile pair : Nat) : SameInstant z (addStuck s tile pair) := ite h (h.same.setF _ _ _)

theorem stickPairs (h : SameInstant z s) (tile r : Nat) (l : List (Nat × Int)) : SameInstant z (stickPairs s tile r l) := by
  unfold Machine.stickPairs
  exact h.forEach (fun t x => (refl t).addStuck _ _) l

theorem recordStuck (h : SameInstant z s) (pl : Placement) (l : List (Nat × Nat × Int)) : SameInstant z (recordStuck s pl l) := by
  unfold Machine.recordStuck Machine.recordWrite
  exact h.forEach (fun t r => (refl t).patch _ _ _) _

theorem setLevels (h : SameInstant z s) (tile : Nat) (l : List (Nat × Nat × Int)) : SameInstant z (setLevels s tile l) := by
  unfold Machine.setLevels
  extract_lets a
  have ha : SameInstant z a := h.forEach (fun t r => (refl t).same) _
  clear_value a
  exact ha.same

theorem writeRow (h : SameInstant z s) (tile r : Nat) (full : Bool) (old : List Int) (l : List (Nat × Int))
    (reads : List (List CellRead)) : SameInstant z (writeRow s tile r full old l reads).1 := by
  unfold Machine.writeRow
  extract_lets skip l' data x new a b
  clear_value x
  have ha : SameInstant z a := h.setLevels _ _
  have hb : SameInstant z b := ha.forEach (fun t c => (refl t).pulse _ _) _
  exact hb.stickPairs _ _ _

theorem writeRows (tile : Nat) (full : Bool) (old : Nat → List Int) (l : List (Nat × Nat × Int)) (w : WriteReport)
    (rs : List Nat) (h : SameInstant z s) : SameInstant z (writeRows tile full old l w rs s).1 := by
  induction rs generalizing s with
  | nil => exact h
  | cons r rs ih =>
    unfold Machine.writeRows
    extract_lets x y
    have hx : SameInstant z x.1 := h.writeRow _ _ _ _ _ _
    clear_value x
    exact ih hx

theorem endWrite (h : SameInstant z s) (tile n : Nat) (st : List (Nat × Nat × Int)) : SameInstant z (endWrite s tile n st).1 := by
  unfold Machine.endWrite
  extract_lets p t
  split
  · exact h
  · extract_lets a k past b
    have ha : SameInstant z a := h.raiseOnce _ _ _ _ _
    have hb : SameInstant z b := ha.when (ha.raise _ _ _ _) past
    exact hb

theorem writePairs (h : SameInstant z s) (tile : Nat) (l : List (Nat × Nat × Int)) (w : WriteReport) :
    SameInstant z (writePairs s tile l w).1 := by
  unfold Machine.writePairs
  split
  · exact h
  · exact (writeRows _ _ _ _ _ _ h).endWrite _ _ _

theorem fullWrite (h : SameInstant z s) (tile : Nat) (l : List (Nat × Nat × Int)) (w : WriteReport) :
    SameInstant z (fullWrite s tile l w).1 := by
  unfold Machine.fullWrite
  split
  · exact h
  · have hc : SameInstant z (clearStuck s tile) := h.same.setF _ _ _
    have hz : SameInstant z (zeroLevels (clearStuck s tile) tile) := hc.same
    exact (writeRows _ _ _ _ _ _ hz).endWrite _ _ _

/-! ## Level records (R341) -/

theorem loftRead (h : SameInstant z s) (a n : Nat) : SameInstant z (loftRead s a n).1 := by
  have hcorrected (t : State) (l : Nat) : SameInstant t (noteCorrected t l) := by
    unfold noteCorrected
    extract_lets c u due
    have hu : SameInstant t u := (refl t).bumpF _ _ _
    exact ite (hu.same.raise _ _ _ _) hu
  have hbad (t : State) (l : Nat) : SameInstant t (noteUncorrectable t l) := by
    unfold noteUncorrectable
    exact (((refl t).bumpF _ _ _).setFs _).raise _ _ _ _
  exact (h.forEach hcorrected _).forEach hbad _

theorem rowsReadable (h : SameInstant z s) (base : Nat) (rows : List Nat) : SameInstant z (rowsReadable s base rows).1 :=
  List.foldlRecOn rows _ (motive := fun x : State × Bool => SameInstant z x.1) h (fun _ hx _ _ => hx.loftRead _ _)

theorem refillRows (h : SameInstant z s) (p t base : Nat) (rows : List Nat) (pl : Placement) (w : WriteReport) :
    SameInstant z (refillRows s p t base rows pl w).1 := by
  unfold Machine.refillRows
  extract_lets l r
  have hr : SameInstant z r.1 := h.writePairs _ _ _
  dsimp only
  exact hr.recordStuck pl r.2.stuck

/-! ## Rotations, rebuilds and spares (R235, R436, R439 to R441) -/

theorem showRotation (h : SameInstant z s) (p : Nat) : SameInstant z (showRotation s p) := by
  unfold Machine.showRotation
  split
  · exact (((h.setF _ _ _).setF _ _ _).setF _ _ _).setF _ _ _
  · exact ((((h.setF _ _ _).setF _ _ _).setF _ _ _).setF _ _ _).setF _ _ _

theorem dropFill (h : SameInstant z s) (p : Nat) (rebuild : Bool) : SameInstant z (dropFill s p rebuild) :=
  h.same.showRotation p

theorem showRebuild (h : SameInstant z s) (b : Nat) : SameInstant z (showRebuild s b) := (h.setF _ _ _).setF _ _ _

theorem settle (h : SameInstant z s) (p : Nat) : SameInstant z (settle s p) := ite (h.modStall _ _) h

theorem abandonRotation (h : SameInstant z s) (p row : Nat) : SameInstant z (abandonRotation s p row) := by
  unfold Machine.abandonRotation
  split
  · exact h
  · extract_lets t
    have ht : SameInstant z t := SameInstant.dropFill (s := dropTrims s p 3) h.same p false
    exact settle (ite (ht.raise _ _ _ _) ht) p

theorem restartRebuild (h : SameInstant z s) (p : Nat) (f : Fill) : SameInstant z (restartRebuild s p f) := by
  unfold Machine.restartRebuild
  extract_lets t
  have ht : SameInstant z t := (SameInstant.dropFill (s := dropTrims s p 5) h.same p true).raise _ _ _ _
  exact ht.same.showRebuild _

theorem loseSpare (h : SameInstant z s) (p t : Nat) : SameInstant z (loseSpare s p t) :=
  ite ((h.modStall _ _).raise _ _ _ _) (ite ((h.modStall _ _).raise _ _ _ _) h)

theorem takeOver (h : SameInstant z s) (p : Nat) (f : Fill) : SameInstant z (takeOver s p f) := by
  unfold Machine.takeOver
  extract_lets t u
  have ht : SameInstant z t := by
    dsimp only [t]
    split
    · exact (h.rowsReadable _ _).refillRows _ _ _ _ _ _
    · exact h
  have hu : SameInstant z u := ((((ht.modStall p _).setF _ _ _).setF _ _ _).setF _ _ _).modStall p _
  exact (abandonRotation hu p 2).raise _ _ _ _

/-! ## Failed tiles and lost stalls (R235, R441, R442) -/

theorem failSlot (h : SameInstant z s) (p t slot cause : Nat) : SameInstant z (failSlot s p t slot cause) := by
  unfold Machine.failSlot
  split
  · exact ite h.same (ite (h.takeOver p _) (ite (h.abandonRotation p 3).same (settle (h.dropFill p false) p).same))
  · exact h.same

theorem loseStall (h : SameInstant z s) (p cause : Nat) : SameInstant z (loseStall s p cause) := by
  unfold Machine.loseStall
  extract_lets a b c _ _ d _ e f
  have ha : SameInstant z a := ite h (h.setF _ _ _)
  have hc : SameInstant z c := (ha.abandonRotation p 5).dropFill p true
  clear_value c
  have hd : SameInstant z (Machine.showRebuild d (barnOf p)) := SameInstant.showRebuild (s := d) hc.same _
  have he : SameInstant z e := hd.same
  have hf : SameInstant z f := he.modStall p _
  exact SameInstant.raise (s := holdGate f) hf.same _ _ _ _

theorem failTile (h : SameInstant z s) (p t cause : Nat) : SameInstant z (failTile s p t cause) := by
  unfold Machine.failTile
  extract_lets st a _ b c d e f
  have ha : SameInstant z a := (h.modStall p _).setF R.fusStallField_tileFieldOff p _
  have hb : SameInstant z b := ha.same
  have hc : SameInstant z c := ite (hb.abandonRotation p 1) hb
  have hd : SameInstant z d := ite (hc.dropFill p false) hc
  have he : SameInstant z e := by
    dsimp only [e]
    split
    · exact ite (hd.restartRebuild p _) hd
    · exact hd
  have hf : SameInstant z f := he.loseSpare p t
  refine ite h (ite (hf.loseStall p 1) ?_)
  split
  · exact SameInstant.settle (s := pruneRebuilds f p) (ite hf (hf.same.showRebuild _)) p
  · exact hf.failSlot p t _ cause

/-! ## The parts of a scrub (R473) -/

theorem scrubStall (h : SameInstant z s) (w : List (Nat × WriteReport)) (flags p : Nat) :
    SameInstant z (scrubStall w flags s p) := by
  unfold Machine.scrubStall
  extract_lets a tiles one
  have ha : SameInstant z a := h.when (h.zero _ _) _
  refine ha.when (ha.forEach (fun t i => ?_) tiles) _
  have hr : SameInstant t (Machine.fullWrite t (tileIx p i) [] (reportFor w (tileIx p i))).1 := (refl t).fullWrite _ _ _
  exact ite (hr.failTile p i 3) hr

theorem wakeForWrites (h : SameInstant z s) (ps : List Nat) : SameInstant z (wakeForWrites s ps) :=
  h.forEach (fun t p => ite (by rw [requestWake_program]; exact (refl t).same) (refl t)) ps

theorem toWrite (h : SameInstant z s) (ps : List Nat) : SameInstant z (toWrite s ps) :=
  SameInstant.wakeForWrites (s := { s with job := { s.job with toWrite := ps } }) h.same ps

theorem makeDue (h : SameInstant z s) (u : Nat) : SameInstant z (makeDue s u) := by
  unfold Machine.makeDue
  refine ite h ?_
  extract_lets p b _
  have hb : SameInstant z b := by
    refine ite ?_ h
    dsimp only
    rw [requestWake_program]
    exact h.same
  clear_value b
  exact SameInstant.setF (s := { b with cal := { b.cal with dueAt := tset b.cal.dueAt u b.now, duePhases := _ } }) hb.same _ _ _

theorem noteRange (h : SameInstant z s) (u : Nat) : SameInstant z (noteRange s u) := by
  unfold Machine.noteRange
  exact SameInstant.makeDue h.same u

theorem feedReset (h : SameInstant z s) : SameInstant z (feedReset s) := by
  have ha : SameInstant z { s with feed := { s.feed with p := 0, h := 0, written := [], staging := [] } } := h.same
  have k := feedFlow_only (Machine.setFs { s with feed := { s.feed with p := 0, h := 0, written := [], staging := [] } }
    [(R.hstFeedPrefix_prefix, 0), (R.hstFeedConsumed_consumed, 0)])
  exact (ha.setFs _).trans ⟨k.mode, (congrArg State.now k.eq).trans rfl⟩

theorem setBudget (h : SameInstant z s) (b : Nat) : SameInstant z (setBudget s b) := by
  unfold Machine.setBudget
  extract_lets old _ t
  have ht : SameInstant z t := SameInstant.setF h.same _ _ _
  exact ite ht (ht.raise _ _ _ _)

theorem enablePort (h : SameInstant z s) (n : Nat) : SameInstant z (enablePort n true s) := by
  unfold Machine.enablePort
  extract_lets was t
  have ht : SameInstant z t := h.setF _ _ _
  clear_value t
  rw [Bool.not_true, if_neg Bool.false_ne_true]
  exact ite (ht.trans ⟨startAttempt_mode t n, startAttempt_now t n⟩) ht

theorem scrubRegs (h : SameInstant z s) : SameInstant z (scrubRegs s) := by
  unfold Machine.scrubRegs
  extract_lets ranges budget off a b c d e
  have ha : SameInstant z a := h.forEach (fun t n => (refl t).enablePort n) _
  clear_value a
  have hb : SameInstant z b := by
    refine ha.forEach (fun t r => ?_) _
    exact (refl t).forEach (fun u f => ⟨clearUnits_mode _ _ _, clearUnits_now _ _ _⟩) _
  clear_value b
  have hp : SameInstant z { b with pend := [] } := hb.same
  have hc : SameInstant z c := hp.setFs _
  clear_value c
  have hd : SameInstant z d := (hc.setF _ _ _).setBudget _
  have he : SameInstant z e := hd.forEach (fun t r => (refl t).setF _ _ _) _
  have hf : SameInstant z (defaultShares e) := he.forEach (fun t p => (refl t).setF _ _ _) _
  exact (hf.forEach (fun t u => (refl t).noteRange u) ranges).feedReset

theorem scrubParts (h : SameInstant z s) (w : List (Nat × WriteReport)) (flags : Nat) :
    SameInstant z (scrubParts w flags s) := by
  unfold Machine.scrubParts
  extract_lets all wait a b c d
  have ha : SameInstant z a := h.when (SameInstant.same (s := Machine.zero s 0 hbmEnd) (h.zero _ _)) _
  have hb : SameInstant z b := ha.when (ha.forEach (fun t c => (refl t).zero _ _) _) _
  have hc : SameInstant z c := hb.forEach (fun t p => (refl t).scrubStall w flags p) _
  have hd : SameInstant z d := hc.when hc.scrubRegs _
  exact SameInstant.toWrite hd.same wait

end SameInstant

end Sys2Proof.Machine
end

section
/-! The statement on MIRROR_COPY, LOFT_FILL, SCRUB and ATTEST (R341, R367, R455, R460, R470, R473). -/
namespace Sys2Proof.Machine
open Sys2Proof

/-! ## Reads of the loft whose data goes on (R341) -/

theorem noteRead_stalls (s : State) (a n : Nat) : KeepsStalls s (noteRead s a n) := by
  have hcorrected (t : State) (l : Nat) : KeepsStalls t (noteCorrected t l) := by
    unfold noteCorrected
    extract_lets c u due
    have hu : KeepsStalls t u := .bumpF t _ _ _
    exact .ite (hu.trans ((KeepsStalls.same (s := u)).trans (.raise _ _ _ _ _))) hu
  have hbad (t : State) (l : Nat) : KeepsStalls t (noteUncorrectable t l) := by
    unfold noteUncorrectable
    exact ((KeepsStalls.bumpF t R.lftChannel_uncorrected _ _).trans (.setFs _ _)).trans (.raise _ _ _ _ _)
  exact (KeepsStalls.forEach hcorrected _ s).trans (KeepsStalls.forEach hbad _ _)

/-- The counts of completions of the two rings. -/
def doneKeys : List Nat := [fkey R.ctlRingStatus_completed 0, fkey R.ctlRingStatus_completed 1]

theorem mem_doneKeys {r : Nat} (h : r < 2) : fkey R.ctlRingStatus_completed r ∈ doneKeys := by
  obtain rfl | rfl : r = 0 ∨ r = 1 := by omega
  · exact List.mem_cons_self ..
  · exact List.mem_cons_of_mem _ (List.mem_cons_self ..)

theorem noteRead_done (s : State) (a n : Nat) : KeepsKeys doneKeys s (noteRead s a n) := by
  have hcorrected (t : State) (l : Nat) : KeepsKeys doneKeys t (noteCorrected t l) := by
    unfold noteCorrected
    extract_lets c u due
    have hu : KeepsKeys doneKeys t u := .setF (fkey_of_apartFrom (by decide) c) _ _
    exact .ite (fun _ => hu.trans ((KeepsKeys.same rfl).trans (.ofReg (.raise _ _ _ _ _) (by decide)))) (fun _ => hu)
  have hbad (t : State) (l : Nat) : KeepsKeys doneKeys t (noteUncorrectable t l) := by
    unfold noteUncorrectable
    extract_lets c u
    have hb : KeepsKeys doneKeys t (bumpF t R.lftChannel_uncorrected c 1) := .setF (fkey_of_apartFrom (by decide) c) _ _
    have hu : KeepsKeys doneKeys t u := hb.trans (.setFs (by simp only [List.map_cons, List.map_nil]; decide) _)
    exact hu.trans (.ofReg (.raise _ _ _ _ _) (by decide))
  exact (KeepsKeys.forEach (fun t l _ => hcorrected t l) s).trans (KeepsKeys.forEach (fun t l _ => hbad t l) _)

/-! ## MIRROR_COPY (R455, R460) -/

section
variable {s : State} {ring : Nat} {c : CmdRec}

theorem holds_cmdRing {op : Nat} (h : s.holds ring op c) : c.ring < 2 := by
  obtain ⟨hr, -⟩ := id h
  rw [holds_ring h]
  exact hr

/-- The copies of a MIRROR_COPY and its event leave the mode, the image, the stalls and the counts of completions. -/
theorem mirrorCopy_done (h : mirrorStatus s c (mirrorPages s (arg c 0) (arg c 1)) = 0) : ∃ t,
    mirrorCopy s c = complete t c 0 (mirrorPages s (arg c 0) (arg c 1)).length ∧ KeepsStalls s t ∧
      t.job.image = s.job.image ∧ KeepsKeys doneKeys s t := by
  unfold mirrorCopy
  dsimp only
  rw [h, if_neg (by simp)]
  refine ⟨_, rfl, ?_, ?_, ?_⟩
  · refine (KeepsStalls.forEach (fun t x => ?_) _ s).trans (.raise _ _ _ _ _)
    exact (noteRead_stalls t _ _).trans ⟨copy_mode _ _ _ _, copy_stalls _ _ _ _⟩
  · refine Steady.image (W := noStall) (Steady.raise (Steady.forEach (fun t x ht => ?_) (.refl _ s) _) _ _ _ _)
    exact Steady.copy (s := noteRead t _ _) (ht.loftRead _ _) _ _ _
  · refine (KeepsKeys.forEach (fun t x _ => ?_) s).trans (.ofReg (.raise _ _ _ _ _) (by decide))
    exact (noteRead_done t _ _).trans (.ofReg (.copy _ _ _ _) (by decide))

theorem takeCmd_legal {op : Nat} (h : s.holds ring op c) (hop : opcodes.contains op = true) (ok : State → Bool)
    (hok : ok (s.taken ring) = true) (run : State → CmdRec → State) :
    takeCmd ring op s (fun s c => legalIn (ok s) s c run) = .next (run (s.taken ring) c) := by
  rw [takeCmd_of_holds h hop, legalIn, if_pos hok]

theorem haltedKept_taken (hr : ring < 2) (s : State) : haltedKept (s.taken ring) = haltedKept s := by
  simp only [haltedKept, onF, taken_mode, getF_taken (f := R.ctlState_haltStateLosing) (u := 0) hr (by decide)]

end

theorem mirrorCopied {s : State} {ring : Nat} {c : CmdRec} (h : s.holds ring 0xD001 c)
    (hm : s.mode = .ready ∨ s.mode = .harnessed ∨ haltedKept s = true) :
    let u := s.taken ring
    let ps := mirrorPages u (arg c 0) (arg c 1)
    ∃ t, exec (.mirrorCopy ring) s = .next t ∧ t.mode = s.mode ∧ t.job.image = s.job.image ∧ t.stalls = s.stalls ∧
      if mirrorStatus u c ps = 0 then s.completes t c 0 ps.length
      else s.completes t c (mirrorStatus u c ps) 0 ∧ t.mem = s.mem := by
  intro u ps
  obtain ⟨hr, -⟩ := id h
  have hok : (u.mode == .ready || u.mode == .harnessed || haltedKept u) = true := by
    rw [haltedKept_taken hr, taken_mode]
    obtain hm | hm | hm := hm <;> simp [hm]
  refine ⟨_, takeCmd_legal h (by decide) (fun s => s.mode == .ready || s.mode == .harnessed || haltedKept s) hok _, ?_⟩
  by_cases hst : mirrorStatus u c ps = 0
  · obtain ⟨t, ht, hk, himage, hkeys⟩ := mirrorCopy_done hst
    have hc := OnlyCompletes.complete t c 0 ps.length
    rw [ht, if_pos hst]
    exact ⟨hc.mode.trans hk.mode, (congrArg Job.image hc.job).trans himage, hc.stalls.trans hk.stalls,
      completes_complete ((hkeys _ _ (mem_doneKeys (holds_cmdRing h))).trans (getF_taken_ring h)) _ _⟩
  · have hc := OnlyCompletes.complete u c (mirrorStatus u c ps) 0
    have ht : mirrorCopy u c = complete u c (mirrorStatus u c ps) 0 := if_pos hst
    rw [ht, if_neg hst]
    exact ⟨hc.mode, congrArg Job.image hc.job, hc.stalls, completes_complete (getF_taken_ring h) _ _, hc.mem⟩

/-! ## LOFT_FILL (R338, R367) -/

/-- A run of bytes put down once for each element of a list repeats. -/
theorem getD_flatMap_const {α : Type} (l : List α) (w : Bytes) {i : Nat} (h : i < l.length * w.length) :
    (l.flatMap (fun _ => w)).getD i 0 = w.getD (i % w.length) 0 := by
  induction l generalizing i with
  | nil => simp at h
  | cons a l ih =>
    rw [List.flatMap_cons]
    by_cases hi : i < w.length
    · rw [List.getD_append _ _ _ _ hi, Nat.mod_eq_of_lt hi]
    · have hle : w.length ≤ i := Nat.le_of_not_lt hi
      rw [List.length_cons, Nat.succ_mul] at h
      rw [List.getD_append_right _ _ _ _ hle, ih (by omega), ← Nat.mod_eq_sub_mod hle]

theorem leBytes_zero (n i : Nat) : (leBytes n 0).getD i 0 = 0 := by
  induction n generalizing i with
  | zero => rfl
  | succ n ih =>
    rw [leBytes]
    cases i with
    | zero => rfl
    | succ i => rw [List.getD_cons_succ, Nat.zero_div]; exact ih i

theorem fillStatus_whole {s : State} {a n : Nat} (h : fillStatus s a n = 0) : n % 64 = 0 := by
  unfold fillStatus at h
  by_contra hn
  rw [if_pos (.inr hn)] at h
  exact absurd h (by decide)

/-- With no page protected, the span holds the eight bytes again and again, and no other byte changes. -/
theorem readByte_fillSpan {s : State} (hp : s.team.pages = []) {a n : Nat} (hn : n % 64 = 0) (v x : Nat) :
    readByte (fillSpan s a n v) x =
      if a ≤ x ∧ x < a + n then (leBytes 8 v).getD ((x - a) % 8) 0 else readByte s x := by
  unfold fillSpan
  split
  · next hv => rw [zero_unprotected hp, readByte_rawZero, hv, leBytes_zero]
  · have hlen : ((List.range (n / 8)).flatMap (fun _ => leBytes 8 v)).length = n := by
      simp only [List.length_flatMap, leBytes_length, List.map_const', List.length_range, List.sum_replicate, smul_eq_mul]
      omega
    rw [readByte_write hp, hlen]
    refine ite_congr rfl (fun hx => ?_) (fun _ => rfl)
    rw [getD_flatMap_const _ _ (by rw [List.length_range, leBytes_length]; omega), leBytes_length]

theorem fillSpan_keeps (s : State) (a n v : Nat) : KeepsReg s (fillSpan s a n v) ∧ (fillSpan s a n v).mode = s.mode := by
  unfold fillSpan
  split
  · exact ⟨.zero s a n, zero_mode s a n⟩
  · exact ⟨.write s a _, write_mode s a _⟩

theorem anyLinkDown_taken (s : State) (ring : Nat) : anyLinkDown (s.taken ring) = anyLinkDown s := rfl

theorem loftFilled {s : State} {ring : Nat} {c : CmdRec} (h : s.holds ring 0x9001 c) (hlink : anyLinkDown s = false)
    (hm : s.mode = .ready ∨ s.mode = .harnessed ∨ s.mode = .halted) (hp : s.team.pages = [])
    (hst : fillStatus (s.taken ring) (arg c 0) (arg c 1) = 0) (hn : arg c 1 ≠ 0) :
    ∃ t, exec (.loftFill ring) s = .next t ∧ s.completes t c 0 0 ∧ t.mode = s.mode ∧
      ∀ x, readByte t x = if arg c 0 ≤ x ∧ x < arg c 0 + arg c 1 then (leBytes 8 (arg c 2)).getD ((x - arg c 0) % 8) 0
        else readByte s x := by
  have hok : ((s.taken ring).mode == .ready || (s.taken ring).mode == .harnessed || (s.taken ring).mode == .halted) = true := by
    rw [taken_mode]
    obtain hm | hm | hm := hm <;> simp [hm]
  have harm : exec (.loftFill ring) s = takeCmd ring 0x9001 s (fun s c =>
      legalIn (s.mode == .ready || s.mode == .harnessed || s.mode == .halted) s c loftFill) := by
    show execLoftFill ring s = _
    rw [execLoftFill, hlink, if_neg Bool.false_ne_true]
  have hrun : loftFill (s.taken ring) c = complete (fillSpan (s.taken ring) (arg c 0) (arg c 1) (arg c 2)) c 0 0 := by
    simp only [loftFill, hst, ne_eq, not_true_eq_false, hn, or_self, if_false]
  obtain ⟨hreg, hmode⟩ := fillSpan_keeps (s.taken ring) (arg c 0) (arg c 1) (arg c 2)
  refine ⟨_, harm.trans ((takeCmd_legal h (by decide)
    (fun s => s.mode == .ready || s.mode == .harnessed || s.mode == .halted) hok loftFill).trans (congrArg _ hrun)),
    completes_complete ?_ 0 0, (OnlyCompletes.complete _ _ _ _).mode.trans hmode, fun x => ?_⟩
  · exact (KeepsKeys.ofReg hreg (by decide : ∀ k ∈ doneKeys, k ∉ eventKeys) _ _ (mem_doneKeys (holds_cmdRing h))).trans
      (getF_taken_ring h)
  · have hmem := (OnlyCompletes.complete (fillSpan (s.taken ring) (arg c 0) (arg c 1) (arg c 2)) c 0 0).mem
    exact (congrArg (fun m => tget 0 m x) hmem).trans
      (readByte_fillSpan (s := s.taken ring) (a := arg c 0) hp (fillStatus_whole hst) (arg c 2) x)

theorem loftFill_waits {s : State} (h : anyLinkDown s = true) (ring : Nat) : exec (.loftFill ring) s = .next s := by
  show execLoftFill ring s = _
  rw [execLoftFill, if_pos h, inModule, live]
  split
  · rfl
  · rfl

/-! ## ATTEST (R470) -/

/-- A span outside the tile and register windows takes its bytes as they are. -/
theorem putSpan_eq_write {a : Nat} (h3 : rangeOf a ≠ some 3) (h4 : rangeOf a ≠ some 4) (s : State) (b : Bytes)
    (w : WriteReport) : putSpan s a b w = write s a b := by
  unfold putSpan
  split
  · next h => exact absurd h h3
  · next h => exact absurd h h4
  · rfl

theorem attested {s : State} {ring : Nat} {c : CmdRec} (h : s.holds ring 0xE001 c) :
    let u := s.taken ring
    (firstRefusal [judgeRead u (arg c 0 + 8) 32, judgeWrite coreMaster u (arg c 0) (report u (readBytes u (arg c 0 + 8) 32)),
      judgeWrite coreMaster u (arg c 1) chainBytes]).2 = 0 →
    arg c 0 % 64 = 0 → chain.length + 4 ≤ arg c 2 → rangeOf (arg c 0) ≠ some 3 → rangeOf (arg c 0) ≠ some 4 →
    rangeOf (arg c 1) ≠ some 3 → rangeOf (arg c 1) ≠ some 4 →
    ∃ t, exec (.attest ring) s = .next t ∧ readBytes t (arg c 1) chainBytes.length = chainBytes ∧ t.mode = s.mode ∧
      s.completes t c 0 chain.length := by
  intro u hjudged halign hroom h3 h4 k3 k4
  obtain ⟨-, -, htake, -⟩ := id h
  have hup : upStates u = true := by
    simp only [canTake, Bool.and_eq_true] at htake
    exact htake.1.1.1
  have hrun : attest u c =
      complete (write (write u (arg c 0) (report u (readBytes u (arg c 0 + 8) 32))) (arg c 1) chainBytes) c 0 chain.length := by
    unfold attest
    dsimp only
    rw [if_neg (by omega), hjudged, if_neg (by simp), putSpan_eq_write h3 h4, putSpan_eq_write k3 k4]
  refine ⟨_, (takeCmd_legal h (by decide) upStates hup attest).trans (congrArg _ hrun), ?_, ?_, completes_complete ?_ _ _⟩
  · exact (readBytes_congr (OnlyCompletes.complete _ _ _ _).mem _ _).trans (readBytes_write _ _ _)
  · exact (OnlyCompletes.complete _ _ _ _).mode.trans ((write_mode _ _ _).trans (write_mode _ _ _))
  · have hreg := (KeepsReg.write u (arg c 0) (report u (readBytes u (arg c 0 + 8) 32))).trans (.write _ (arg c 1) chainBytes)
    exact (KeepsKeys.ofReg hreg (by decide : ∀ k ∈ doneKeys, k ∉ eventKeys) _ _ (mem_doneKeys (holds_cmdRing h))).trans
      (getF_taken_ring h)

/-! ## The start of a SCRUB (R473) -/

theorem scrubBound_taken {s : State} {ring : Nat} (hr : ring < 2) (flags : Nat) :
    scrubBound (s.taken ring) flags = scrubBound s flags := by
  simp only [scrubBound, fittedBytes, getF_taken (f := R.bruFit_loftSpeedMts) (u := 0) hr (by decide),
    getF_taken (f := R.bruFit_loftChannelGib) (u := 0) hr (by decide)]

theorem scrubStarted {s : State} {ring : Nat} {c : CmdRec} (w : List (Nat × WriteReport)) (h : s.holds ring 0xE004 c)
    (hm : s.mode = .ready) : ∃ t, exec (.scrub ring w) s = .next t ∧ t.mode = .ready ∧
      if arg c 0 = 0 then s.completes t c 0 0
      else if 32 ≤ arg c 0 then s.completes t c 4 0
      else ∃ d, t.job.running = some ⟨c, s.now, false, some d, 0⟩ ∧ s.now ≤ d ∧ d ≤ s.now + scrubBound s (arg c 0) := by
  obtain ⟨hr, -⟩ := id h
  refine ⟨_, takeCmd_ready h (by decide) hm (scrub w), ?_⟩
  unfold scrub
  dsimp only
  by_cases hzero : arg c 0 = 0
  · rw [if_neg (by omega), if_pos hzero, if_pos hzero]
    exact ⟨(OnlyCompletes.complete _ _ _ _).mode.trans hm, completes_complete (getF_taken_ring h) _ _⟩
  by_cases hflags : 32 ≤ arg c 0
  · rw [if_pos hflags, if_neg hzero, if_pos hflags]
    exact ⟨(OnlyCompletes.complete _ _ _ _).mode.trans hm, completes_complete (getF_taken_ring h) _ _⟩
  have k := (SameInstant.refl (draw (s.taken ring))).scrubParts w (arg c 0)
  rw [if_neg hflags, if_neg hzero, if_neg hzero, if_neg hflags, scrubBound_taken hr]
  refine ⟨k.mode.trans hm, s.now + Config.freeNat s.draws 473 % (scrubBound s (arg c 0) + 1), ?_, Nat.le_add_right _ _,
    Nat.add_le_add_left (Nat.le_of_lt_succ (Nat.mod_lt _ (Nat.succ_pos _))) _⟩
  rw [startLong, k.now]
  rfl

/-! ## The end of a SCRUB (R107, R468, R473) -/

/-- The power states of the stalls. -/
def stallStates (s : State) (p : Nat) : StallSt := (getStall s p).st

theorem stallStates_congr {s t : State} (h : t.stalls = s.stalls) : stallStates t = stallStates s :=
  funext (fun p => congrArg Stall.st (getStall_congr h p))

theorem MayRaise.stallStates {s t : State} (h : MayRaise s t) : stallStates t = stallStates s :=
  h.frame Machine.stallStates (fun _ _ _ _ _ => stallStates_congr (raise_stalls _ _ _ _ _))

theorem setG_stallStates (s : State) (g : Nat) : stallStates (setG s g) = stallStates s := (setG_mayRaise s g).stallStates

theorem applyBudget_stallStates (s : State) : stallStates (applyBudget s) = stallStates s := by
  unfold applyBudget
  split
  · rfl
  · next b _ =>
    have h : MayRaise (setF { s with gov := { s.gov with budgetNext := none } } R.pwrBudget_budgetW 0 b) (setBudget s b) :=
      .ite (.refl _) (.raise _ _ _ _ _)
    exact h.stallStates

theorem raiseStep_stallStates (s : State) : stallStates (raiseStep s) = stallStates s := by
  unfold raiseStep
  split_ifs
  · rfl
  · rfl
  · exact setG_stallStates _ _
  · rfl

theorem lowerStep_stallStates (s : State) : stallStates (lowerStep s) = stallStates s := by
  unfold lowerStep
  split
  · exact (MayRaise.ite (.raise _ _ _ _ _) (.refl _)).stallStates.trans (setG_stallStates _ _)
  · rfl

/-- A grant charges a stall as awake and leaves it where it rests. -/
theorem grant_stallStates (s : State) (r : WakeReq) : stallStates (grant s r) = stallStates s := by
  funext p
  have hg : getStall (grant s r) p =
      getStall (modStall s r.stall (fun t => { t with granted := true, wakeFrom := stallCode t.st })) p := getStall_congr rfl p
  unfold stallStates
  rw [hg]
  by_cases hp : p = r.stall
  · rw [hp, getStall_modStall]
  · rw [getStall_modStall_ne _ _ hp]

theorem considerGo_stallStates (l : List WakeReq) (s : State) : stallStates (considerGo l s) = stallStates s := by
  induction l generalizing s with
  | nil => rfl
  | cons r l ih =>
    unfold considerGo
    split_ifs
    · exact ih s
    · exact (ih (grant s r)).trans (grant_stallStates s r)
    · rfl

theorem tick_stallStates {s : State} (hon : s.board.railsOn = true) : stallStates (tick s) = stallStates s :=
  have hconsider : ∀ s, stallStates (consider s) = stallStates s := fun s =>
    considerGo_stallStates s.gov.waitq { s with gov := { s.gov with waitq := [] } }
  calc stallStates (tick s)
    _ = stallStates (consider (accrue (lowerStep (raiseStep (applyBudget (countIdle (ticked s))))))) := by rw [tick_railsOn hon]
    _ = stallStates (accrue (lowerStep (raiseStep (applyBudget (countIdle (ticked s)))))) := hconsider _
    _ = stallStates (lowerStep (raiseStep (applyBudget (countIdle (ticked s))))) := stallStates_congr rfl
    _ = stallStates (countIdle (ticked s)) := by
      rw [lowerStep_stallStates, raiseStep_stallStates, applyBudget_stallStates]
    _ = stallStates (ticked s) := funext (countIdle_st (ticked s))
    _ = stallStates s := stallStates_congr rfl

theorem writesWait_congr {s t : State} (h : stallStates t = stallStates s) (ps : List Nat) :
    writesWait t ps = writesWait s ps := by
  refine List.any_congr rfl (fun p => ?_)
  have hp : (getStall t p).st = (getStall s p).st := congrFun h p
  rw [isResting, isResting, hp]

theorem eraseTeamKey_spec (s : State) : (eraseTeamKey s).team.key = none ∧ (eraseTeamKey s).mode = s.mode ∧
    ∀ u < 4, getF (eraseTeamKey s) R.secTeamSecret_secret u = 0 := by
  have hteam : (eraseTeamKey s).team = { s.team with key := none } :=
    forEach_frame State.team (fun t u => setF_team t R.secTeamSecret_secret u 0) _ _
  refine ⟨by rw [hteam], forEach_frame State.mode (fun t u => setF_mode t R.secTeamSecret_secret u 0) _ _, fun u hu => ?_⟩
  unfold eraseTeamKey
  simp only [forEach, List.range_succ, List.range_zero, List.nil_append, List.cons_append, List.foldl_cons, List.foldl_nil]
  obtain rfl | rfl | rfl | rfl : u = 0 ∨ u = 1 ∨ u = 2 ∨ u = 3 := by omega
  all_goals simp (disch := decide) only [getF_setF_ne, getF_setF, Nat.zero_mod]

/-- What SEC.SCRUB shows of a scrub that ended, with its event and its completion, on a state that has lost the team key. -/
theorem scrubShown (a : State) (c : CmdRec) {flags : Nat} (hflags : flags < 32) (ms : Nat) :
    let t := finish (raise (setFs a [(R.secScrub_flags, flags), (R.secScrub_clean, 1), (R.secScrub_ms, ms)]) 0xE007 cPkg flags ms)
      c 0 0
    t.mode = a.mode ∧ t.job.running = none ∧ getF t R.secScrub_flags = flags ∧ getF t R.secScrub_clean = 1 ∧
      t.team.key = a.team.key ∧ (∀ u < 4, getF t R.secTeamSecret_secret u = getF a R.secTeamSecret_secret u) ∧
      t.numbered.getLast? = some (0x30, completionBody c 0 0) := by
  intro t
  have hnoted {f : Field} {u : Nat} (hf : fkey f u ∉ eventKeys) (hc : f.lo % 64 ≠ R.ctlRingStatus_completed.lo % 64) :
      getF t f u = getF (setFs a [(R.secScrub_flags, flags), (R.secScrub_clean, 1), (R.secScrub_ms, ms)]) f u :=
    (getF_complete hc _ _ _ _).trans (getF_raise hf _ _ _ _ _)
  have k := finish_onlyCompletes
    (raise (setFs a [(R.secScrub_flags, flags), (R.secScrub_clean, 1), (R.secScrub_ms, ms)]) 0xE007 cPkg flags ms) c 0 0
  have hteam := ((Steady.refl noStall (setFs a [(R.secScrub_flags, flags), (R.secScrub_clean, 1), (R.secScrub_ms, ms)])).raise
    0xE007 cPkg flags ms).team
  obtain ⟨hrun, hlast⟩ := finish_ends
    (raise (setFs a [(R.secScrub_flags, flags), (R.secScrub_clean, 1), (R.secScrub_ms, ms)]) 0xE007 cPkg flags ms) c 0 0
  refine ⟨k.mode.trans ((raise_mode _ _ _ _ _).trans (setFs_mode _ _)), hrun, ?_, ?_, ?_, fun u hu => ?_, hlast⟩
  · refine (hnoted (by decide) (by decide)).trans ?_
    exact (getF_setFs a [] [(R.secScrub_clean, 1), (R.secScrub_ms, ms)] R.secScrub_flags flags
      (by simp only [List.forall_mem_cons]; decide)).trans (Nat.mod_eq_of_lt hflags)
  · refine (hnoted (by decide) (by decide)).trans ?_
    exact getF_setFs a [(R.secScrub_flags, flags)] [(R.secScrub_ms, ms)] R.secScrub_clean 1
      (by simp only [List.forall_mem_cons]; decide)
  · have h := (congrArg Team.key k.team).trans (congrArg Team.key hteam)
    have hset : (setFs a [(R.secScrub_flags, flags), (R.secScrub_clean, 1), (R.secScrub_ms, ms)]).team.key = a.team.key :=
      congrArg Team.key (setFs_team a _)
    exact h.trans hset
  · refine (hnoted (unit_not_event (n := 4) (by decide) hu) (by decide)).trans (getF_setFs_ne _ _ (fun p hp => ?_))
    have happart : ∀ u < 4, fkey R.secTeamSecret_secret u ∉
        [fkey R.secScrub_flags 0, fkey R.secScrub_clean 0, fkey R.secScrub_ms 0] := by decide
    exact fun e => happart u hu (e ▸ List.mem_map_of_mem (f := fun q : Field × Nat => fkey q.1 0) hp)

theorem scrubEnd_spec (s : State) {r : Running} (hflags : arg r.cmd 0 < 32) :
    (scrubEnd s r).mode = s.mode ∧ (scrubEnd s r).job.running = none ∧
      getF (scrubEnd s r) R.secScrub_flags = arg r.cmd 0 ∧ getF (scrubEnd s r) R.secScrub_clean = 1 ∧
      (scrubEnd s r).team.key = none ∧ (∀ u < 4, getF (scrubEnd s r) R.secTeamSecret_secret u = 0) ∧
      (scrubEnd s r).numbered.getLast? = some (0x30, completionBody r.cmd 0 0) := by
  obtain ⟨hkey, hmode, hsecret⟩ := eraseTeamKey_spec { s with job := { s.job with toWrite := [], reports := [] } }
  obtain ⟨hm, hrun, hflag, hclean, hk, hs, hlast⟩ := scrubShown
    (eraseTeamKey { s with job := { s.job with toWrite := [], reports := [] } }) r.cmd hflags ((s.now - r.taken) / 25000)
  exact ⟨hm.trans hmode, hrun, hflag, hclean, hk.trans hkey, fun u hu => (hs u hu).trans (hsecret u hu), hlast⟩

theorem scrubEnded {s : State} {r : Running} (hon : s.board.railsOn = true) (hm : s.mode = .ready)
    (hr : s.job.running = some r) (hop : r.cmd.opcode = 0xE004)
    (hover : timeOver (ticked s) r = true) (hwait : writesWait s s.job.toWrite = false) :
    exec .governorTick s = .next (scrubEnd (tick s) r) ∧ (tick s).mode = .ready := by
  have hview := tick_workView hon
  simp only [workView, Prod.mk.injEq] at hview
  obtain ⟨hmode, hnow, hjob⟩ := hview
  have hrun : (tick s).job.running = some r := (congrArg Job.running hjob).trans hr
  have hover' : timeOver (tick s) r = true := by
    rw [timeOver, hnow]
    exact hover
  have hwait' : writesWait (tick s) (tick s).job.toWrite = false := by
    rw [hjob, writesWait_congr (tick_stallStates hon)]
    exact hwait
  refine ⟨?_, hmode.trans hm⟩
  show execGovernorTick s = _
  rw [execGovernorTick, hm, if_neg (by decide)]
  refine congrArg _ ?_
  simp only [workOn, hrun, hop, hover', hwait', Bool.not_false, and_self, if_true]
  rw [if_neg (by decide), if_neg (by decide)]

/-- Settles O33: a copy of the partner's pages (`mirrorCopied`), a fill of the loft (`loftFilled`, `loftFill_waits`), a scrub's
start and end (`scrubStarted`, `scrubEnd_spec`) and an attestation (`attested`). -/
theorem memoryCommands : Obligations.MemoryCommands := by
  refine ⟨fun s ring c h hm => mirrorCopied h hm, fun s ring c h hlink hm hp hst hn => loftFilled h hlink hm hp hst hn,
    fun s ring h => loftFill_waits h ring, fun s ring c w h hm => scrubStarted w h hm,
    fun s r hon hm hr hop hflags hover hwait => ?_, fun s ring c h => attested h⟩
  obtain ⟨hexec, hready⟩ := scrubEnded hon hm hr hop hover hwait
  obtain ⟨hmode, hspec⟩ := scrubEnd_spec (tick s) hflags
  exact ⟨_, hexec, hmode.trans hready, hspec⟩

end Sys2Proof.Machine
end

section
/-! An admitted token frame (R113, R319, R334): its arrival changes the mesh alone, and it goes past every check to its kind. -/
namespace Sys2Proof.Machine
open Sys2Proof

/-! ## Frames on the mesh (R34, R35, R334) -/

/-- From `s` to `t` nothing but the routing unit's own record differs. -/
structure OnlyRoutes (s t : State) : Prop where
  eq : t = { s with rte := t.rte }

namespace OnlyRoutes
variable {s t u : State}

theorem refl (s : State) : OnlyRoutes s s := ⟨rfl⟩

theorem trans (h : OnlyRoutes s t) (k : OnlyRoutes t u) : OnlyRoutes s u :=
  ⟨k.eq.trans (congrArg (fun v => { v with rte := u.rte }) h.eq)⟩

theorem same (r : Rte) : OnlyRoutes s { s with rte := r } := ⟨rfl⟩

theorem meshGrant (s : State) (barn : Nat) : OnlyRoutes s (meshGrant s barn).1 := by
  unfold Machine.meshGrant
  extract_lets l asks paid total best credit u
  clear_value best
  cases best with
  | some p => exact same _
  | none =>
    dsimp only
    split
    · exact same _
    · exact same _

theorem crossSegment {barn n : Nat} {f : TokFrame} (h : crossSegment barn f n s = some t) : OnlyRoutes s t := by
  induction n generalizing s with
  | zero => exact absurd h nofun
  | succ n ih =>
    unfold Machine.crossSegment at h
    extract_lets g at h
    have hg : OnlyRoutes s g.1 := meshGrant s barn
    split at h
    · exact absurd h nofun
    · next x _ =>
      extract_lets dest u at h
      have hu : OnlyRoutes s u := hg.trans (same _)
      split_ifs at h
      · exact (hg.trans (same _)).trans (ih h)
      · exact Option.some.inj h ▸ hu
      · exact hu.trans (ih h)

theorem crossBridges {n : Nat} {f : TokFrame} (h : crossBridges f n s = some t) : OnlyRoutes s t := by
  induction n generalizing s with
  | zero => exact absurd h nofun
  | succ n ih =>
    unfold Machine.crossBridges at h
    split at h
    · exact absurd h nofun
    · split at h
      · exact Option.some.inj h ▸ refl s
      · exact absurd h nofun
      · split at h
        · exact absurd h nofun
        · extract_lets dest _ u v at h
          have hv : OnlyRoutes s v := (same _).trans (same _)
          split_ifs at h
          exact hv.trans (ih h)

theorem meshTake {f : TokFrame} (h : meshTake s f = some t) : OnlyRoutes s t := by
  unfold Machine.meshTake at h
  extract_lets n at h
  split at h
  · exact absurd h nofun
  · next x _ =>
    extract_lets w at h
    obtain ⟨u, hu, h⟩ := Option.bind_eq_some_iff.mp h
    have hcross : OnlyRoutes s u := by
      dsimp only [w] at hu
      split at hu
      · obtain ⟨v, hv, hu⟩ := Option.bind_eq_some_iff.mp hu
        exact (crossSegment hv).trans (crossBridges hu)
      · exact crossBridges hu
    split at h
    · split_ifs at h
      exact Option.some.inj h ▸ hcross.trans (same _)
    · exact absurd h nofun

theorem lifted (s : State) (f : TokFrame) : OnlyRoutes s (s.lifted f) := by
  unfold Machine.State.lifted
  split
  · exact refl s
  · cases h : Machine.meshTake s f with
    | none => exact refl s
    | some t => exact meshTake h

section
variable (h : OnlyRoutes s t)
include h

theorem mode : t.mode = s.mode := (congrArg State.mode h.eq).trans rfl
theorem now : t.now = s.now := (congrArg State.now h.eq).trans rfl
theorem mem : t.mem = s.mem := (congrArg State.mem h.eq).trans rfl
theorem reg : t.reg = s.reg := (congrArg State.reg h.eq).trans rfl
theorem team : t.team = s.team := (congrArg State.team h.eq).trans rfl
theorem brandBad : t.brandBad = s.brandBad := (congrArg State.brandBad h.eq).trans rfl

end

end OnlyRoutes

/-! ## An admitted frame (R319, R320, R420) -/

theorem received_of_port {s : State} {r : Rx} {udp : Nat} (hopen : portOpen s r.port = true) (hkept : dropReason s r = 0)
    (hudp : r.dstUdp = udp) (g : State → State) : received s r udp g = g s := by
  simp [received, hopen, hkept, hudp]

/-- The row of a frame of its kind that arrives takes it from the mesh or its port. -/
theorem frameRow_arrives {s : State} {f : TokFrame} {kind : Nat} (h : s.arrives f) (hk : f.kind = kind) :
    frameRow kind f s = .next (takeTok (s.lifted f) f) := by
  obtain ⟨hon, hplace⟩ := h
  have htakes : rowTakes kind f = true := by simp [rowTakes, hk]
  unfold frameRow
  rw [inModule_on hon, htakes, Bool.not_true, if_neg Bool.false_ne_true]
  refine congrArg Host.Outcome.next ?_
  unfold State.lifted
  cases hrx : f.rx with
  | none =>
    rw [hrx] at hplace
    dsimp only at hplace ⊢
    obtain ⟨t, ht⟩ := Option.isSome_iff_exists.mp hplace
    rw [ht]
    rfl
  | some r =>
    rw [hrx] at hplace
    dsimp only at hplace ⊢
    obtain ⟨hport, hopen, hkept, hudp, hroom⟩ := hplace
    rw [if_pos hport, received_of_port hopen hkept hudp, fabricTok, if_pos hroom]

section
variable {s : State} {f : TokFrame} {kind : Nat}

/-- What an admitted frame does, past the checks: by its kind, and by its stall. -/
theorem frameRow_admits (h : s.admits f kind) : frameRow kind f s = .next (
    if f.kind = 4 then takeWake (s.lifted f) f
    else if f.kind = 3 then
      if behindLate (s.lifted f) f then
        { s.lifted f with rte := { (s.lifted f).rte with late := (s.lifted f).rte.late ++ [(0xFFFF, { f with rx := none })] } }
      else deliver (s.lifted f) f
    else if bit f.flags 0 && onF (s.lifted f) R.genStall_idle f.dstStall && f.kind != 8 then discardIdle (s.lifted f) f
    else if isResting (getStall (s.lifted f) f.dstStall) then keepLate (s.lifted f) f
    else deliver (s.lifted f) f) := by
  obtain ⟨harr, hk, hform, hstep, hpass, hplan, hhalted, hready, hchecks⟩ := h
  have hu := OnlyRoutes.lifted s f
  rw [frameRow_arrives harr hk]
  refine congrArg Host.Outcome.next ?_
  generalize s.lifted f = u at hu hchecks ⊢
  have hget (g : Field) (i : Nat) : getF u g i = getF s g i := getF_congr hu.reg g i
  have hstep' : stepNo u = stepNo s := hget _ _
  have hnow : (bit f.flags 0 && getF u R.genPass_pass == 1) = false := by
    cases hb : bit f.flags 0
    · rfl
    · rw [hget, Bool.true_and, beq_eq_false_iff_ne]
      exact hpass hb
  have hown : ¬ (f.planTag ≠ getF u R.gtePlan_planTag ∨ (u.mode == .halted) = true ∨ (u.mode == .ready) = true) := by
    rw [hget, hu.mode]
    simp [hplan, hhalted, hready]
  unfold takeTok
  dsimp only
  rw [hform, hnow, if_neg (by decide), if_neg (by omega), if_neg (by omega), if_neg (by decide)]
  unfold processTok
  rw [if_neg hown, hchecks]

/-- An admitted frame for a stall at work is delivered. -/
theorem frameRow_atWork (h : s.admits f kind) (hw : (s.lifted f).atWork f) (h3 : kind ≠ 3) (h4 : kind ≠ 4) :
    frameRow kind f s = .next (deliver (s.lifted f) f) := by
  obtain ⟨-, hk, -⟩ := id h
  obtain ⟨hrest, hidle⟩ := hw
  have hstays : (bit f.flags 0 && onF (s.lifted f) R.genStall_idle f.dstStall && f.kind != 8) = false := by
    cases hb : bit f.flags 0
    · rfl
    · rw [hidle hb]; rfl
  rw [frameRow_admits h, hk, if_neg h4, if_neg h3, ← hk, hstays, hrest, if_neg Bool.false_ne_true, if_neg Bool.false_ne_true]

end

end Sys2Proof.Machine
end

section
/-! WAKE frames, and the alarms of a travel that waits (R326, R328, R332, R335). -/
namespace Sys2Proof.Machine
open Sys2Proof

/-! ## Requests to wake (R113, R332) -/

/-- A stall is disabled, runs, has its grant, or has a request that waits. -/
def Awaited (s : State) (p : Nat) : Prop := (getStall s p).st = .disabled ∨ isRunning (getStall s p) = true ∨
  (getStall s p).granted = true ∨ s.gov.waitq.any (fun q => q.stall == p) = true

/-- A linger renewed leaves the state of every stall, its grant and the requests that wait. -/
theorem lingered_view (s : State) (p : Nat) (src : WakeSrc) (q : Nat) :
    (getStall (lingered s p src) q).st = (getStall s q).st ∧
      (getStall (lingered s p src) q).granted = (getStall s q).granted := by
  unfold lingered
  split
  · by_cases hq : q = p
    · subst hq
      rw [renewLinger, getStall_modStall]
      exact ⟨rfl, rfl⟩
    · rw [renewLinger, getStall_modStall_ne _ _ hq]
      exact ⟨rfl, rfl⟩
  · exact ⟨rfl, rfl⟩

theorem isRunning_congr {t u : Stall} (h : t.st = u.st) : isRunning t = isRunning u := by
  unfold isRunning
  rw [h]

theorem Awaited.lingered {s : State} {q : Nat} (h : Awaited s q) (p : Nat) (src : WakeSrc) : Awaited (lingered s p src) q := by
  obtain ⟨hst, hgrant⟩ := lingered_view s p src q
  unfold Awaited
  rw [isRunning_congr hst, hst, hgrant, lingered_gov]
  exact h

theorem Awaited.insertWake {s : State} {q : Nat} (h : Awaited s q) (r : WakeReq) :
    Awaited { s with gov := { s.gov with waitq := insertWake s.gov.waitq r } } q := by
  obtain h | h | h | h := h
  · exact .inl h
  · exact .inr (.inl h)
  · exact .inr (.inr (.inl h))
  · refine .inr (.inr (.inr ?_))
    rw [(insertWake_perm s.gov.waitq r).any_eq, List.any_cons, h, Bool.or_true]

/-- A request leaves a stall awaited that was. -/
theorem Awaited.requestWake {s : State} {q : Nat} (h : Awaited s q) (p : Nat) (src : WakeSrc) (die : Bool) :
    Awaited (requestWake s p src die) q := by
  by_cases hst : (getStall s p).st = .disabled
  · rw [requestWake_disabled _ _ hst]
    exact h
  · cases hrun : isRunning (getStall s p) with
    | true =>
      rw [requestWake_running _ _ hst hrun]
      exact h.lingered p src
    | false =>
      rw [requestWake_idle _ _ hst hrun]
      split
      · exact h.lingered p src
      · have k := (h.lingered p src).insertWake ⟨p, s.now, src, false, die⟩
        rw [lingered_gov] at k
        exact k

/-- After its request a stall is awaited. -/
theorem requestWake_awaited (s : State) (p : Nat) (src : WakeSrc) (die : Bool) : Awaited (requestWake s p src die) p := by
  by_cases hst : (getStall s p).st = .disabled
  · rw [requestWake_disabled _ _ hst]
    exact .inl hst
  · cases hrun : isRunning (getStall s p) with
    | true =>
      rw [requestWake_running _ _ hst hrun]
      exact Awaited.lingered (.inr (.inl hrun)) p src
    | false =>
      rw [requestWake_idle _ _ hst hrun]
      split
      · next h => exact Awaited.lingered (.inr (.inr h)) p src
      · refine .inr (.inr (.inr ?_))
        dsimp only
        rw [(insertWake_perm s.gov.waitq _).any_eq, List.any_cons, beq_self_eq_true, Bool.true_or]

/-- Requests for every stall of a list leave each of them awaited. -/
theorem forEach_requestWake_awaited {l : List Nat} {q : Nat} {src : WakeSrc} {die : Bool} :
    ∀ s : State, q ∈ l ∨ Awaited s q → Awaited (forEach l (fun s p => requestWake s p src die) s) q := by
  induction l with
  | nil => exact fun s h => h.resolve_left (List.not_mem_nil)
  | cons a l ih =>
    intro s h
    refine ih (requestWake s a src die) ?_
    obtain h | h := h
    · obtain rfl | h := List.mem_cons.mp h
      · exact .inr (requestWake_awaited s q src die)
      · exact .inl h
    · exact .inr (h.requestWake a src die)

/-- A wake-ahead for a stall that is not disabled renews its linger, and a request waits where none is needed not. -/
theorem requestWake_ahead {s : State} {p : Nat} (h : (getStall s p).st ≠ .disabled) :
    (getStall (requestWake s p .ahead false) p).linger = some s.now ∧ (requestWake s p .ahead false).gov.waitq =
      if isRunning (getStall s p) = true ∨ (getStall s p).granted = true ∨ s.gov.waitq.any (fun q => q.stall == p) = true
      then s.gov.waitq else insertWake s.gov.waitq ⟨p, s.now, .ahead, false, false⟩ := by
  have hlinger : (getStall (lingered s p .ahead) p).linger = some s.now := by
    rw [lingered, if_pos rfl, renewLinger, getStall_modStall]
  cases hrun : isRunning (getStall s p) with
  | true =>
    rw [requestWake_running _ _ h hrun, if_pos (.inl rfl), lingered_gov]
    exact ⟨hlinger, rfl⟩
  | false =>
    rw [requestWake_idle _ _ h hrun]
    split
    · next hg =>
      rw [if_pos (.inr hg), lingered_gov]
      exact ⟨hlinger, rfl⟩
    · next hg =>
      rw [if_neg (by simpa using hg)]
      exact ⟨hlinger, rfl⟩

theorem requestWake_mem (s : State) (p : Nat) (src : WakeSrc) (die : Bool) : (requestWake s p src die).mem = s.mem := by
  have hl : (lingered s p src).mem = s.mem := by
    unfold lingered
    split <;> rfl
  by_cases hst : (getStall s p).st = .disabled
  · rw [requestWake_disabled _ _ hst]
  · cases hrun : isRunning (getStall s p) with
    | true => rw [requestWake_running _ _ hst hrun, hl]
    | false =>
      rw [requestWake_idle _ _ hst hrun]
      split
      · exact hl
      · exact hl

/-! ## WAKE frames (R332) -/

theorem wakeFramed {s : State} {f : TokFrame} (h : s.admits f 4) :
    let u := s.lifted f
    let d := getStall u f.dstStall
    ∃ t, exec (.wakeFrame f) s = .next t ∧ t.mode = s.mode ∧ t.mem = s.mem ∧
      if (expertAt u f.target f.dstStall && ((attnOf u f.layer).isNone || !keyAt u f.layer f.target f.dstStall)) = true then
        ∀ h, homeOf u f.target = some h → ∀ p ∈ intakeStalls u h, (getStall t p).st = .disabled ∨
          isRunning (getStall t p) = true ∨ (getStall t p).granted = true ∨ t.gov.waitq.any (fun q => q.stall == p) = true
      else if d.st = .disabled then t = u
      else (getStall t f.dstStall).linger = some s.now ∧
        t.gov.waitq = if isRunning d = true ∨ d.granted = true ∨ u.gov.waitq.any (fun q => q.stall == f.dstStall) = true
          then u.gov.waitq else insertWake u.gov.waitq ⟨f.dstStall, s.now, .ahead, false, false⟩ := by
  intro u d
  obtain ⟨-, hk, -⟩ := id h
  have hu := OnlyRoutes.lifted s f
  have hexec : exec (.wakeFrame f) s = .next (takeWake u f) := by
    refine (frameRow_admits h).trans ?_
    rw [hk, if_pos rfl]
  refine ⟨_, hexec, ((Steady.refl noStall u).takeWake f).mode.trans hu.mode, ?_, ?_⟩
  · refine Eq.trans ?_ hu.mem
    unfold takeWake wakeHome
    split
    · split
      · exact forEach_frame State.mem (fun t p => requestWake_mem t p _ _) _ u
      · rfl
    · exact requestWake_mem u _ _ _
  · unfold takeWake
    by_cases hhome : (expertAt u f.target f.dstStall &&
        ((attnOf u f.layer).isNone || !keyAt u f.layer f.target f.dstStall)) = true
    · rw [if_pos hhome, if_pos hhome]
      intro r hr p hp
      rw [wakeHome, hr]
      exact forEach_requestWake_awaited u (.inl hp)
    · rw [if_neg hhome, if_neg hhome]
      by_cases hd : d.st = .disabled
      · rw [if_pos hd, requestWake_disabled _ _ hd]
      · rw [if_neg hd, ← hu.now]
        exact requestWake_ahead hd

/-! ## The alarms of a travel that waits (R326, R328, R335) -/

theorem combineAlarmed {s : State} {p : Nat} (hp : p < 512) (hon : s.board.railsOn = true) :
    match (getStall s p).combines.find? (fun c =>
      !c.alarmed && decide (c.since + 25 * getF s R.rteCtl_combineAlarmUs ≤ s.now)) with
    | none => exec (.combineWait p) s = .next s
    | some c =>
      let d := parseComb c.desc
      let l := combList p d
      ∃ t, exec (.combineWait p) s = .next t ∧ t.mode = s.mode ∧
        t = raise { s with stalls := t.stalls } 0x8007 (cStall p) d.layer
          (expectedSegs s p d l - counterOf s (queueIx p d.queue)) ∧
        (getStall t p).combines = (getStall s p).combines.map (fun x => if x = c then { x with alarmed := true } else x) ∧
        ∀ q, q ≠ p → getStall t q = getStall s q := by
  have hexec : exec (.combineWait p) s = .next (combineWait p s) := onStall_on hp hon
  split
  · next hnone =>
    rw [hexec, combineWait, hnone]
  · next c hsome =>
    have ht : combineWait p s = raise (modStall s p (fun t =>
          { t with combines := t.combines.map (fun x => if x = c then { x with alarmed := true } else x) }))
        0x8007 (cStall p) (parseComb c.desc).layer
        (expectedSegs s p (parseComb c.desc) (combList p (parseComb c.desc))
          - counterOf s (queueIx p (parseComb c.desc).queue)) := by
      rw [combineWait, hsome]
    refine ⟨_, hexec.trans (congrArg _ ht), raise_mode _ _ _ _ _, ?_, ?_, fun q hq => ?_⟩
    · rw [raise_stalls]
      rfl
    · rw [getStall_congr (raise_stalls _ _ _ _ _), getStall_modStall]
    · rw [getStall_congr (raise_stalls _ _ _ _ _), getStall_modStall_ne _ _ hq]

theorem closeAlarmed {s : State} {a l : Nat} (hon : s.board.railsOn = true) (hfirst : s.rte.firstClose = some a)
    (hopen : onF s R.rteClose_dispatchClosed = false) (hlate : a + 25 * getF s R.rteCtl_closeAlarmUs ≤ s.now)
    (hl : (servedLayers s).find? (fun l => !allClosed s 0 l && !s.once.contains (0x8008, l)) = some l) :
    ∃ t m, exec .closeWait s = .next t ∧ t.mode = s.mode ∧ t.stalls = s.stalls ∧ (0x8008, l) ∈ t.once ∧
      t = raiseOnce s 0x8008 l cPkg l m ∧ m < modules s ∧
      (sources s m l).all (fun p => s.rte.closes.contains ⟨0, l, m, p⟩) = false := by
  have hlack : allClosed s 0 l = false := by
    have h := List.find?_some hl
    simp only [Bool.and_eq_true, Bool.not_eq_true'] at h
    exact h.1
  obtain ⟨m, hm⟩ : ∃ m, (List.range (modules s)).find? (fun m =>
      !(sources s m l).all (fun p => s.rte.closes.contains ⟨0, l, m, p⟩)) = some m := by
    refine Option.isSome_iff_exists.mp (List.find?_isSome.mpr ?_)
    unfold allClosed at hlack
    obtain ⟨m, hmem, hall⟩ := List.all_eq_false.mp hlack
    exact ⟨m, hmem, by simpa using hall⟩
  have hrun : closeWait s = raiseOnce s 0x8008 l cPkg l m := by
    unfold closeWait
    rw [hfirst]
    dsimp only
    rw [hopen, Bool.false_or, if_neg (by simpa using hlate), hl]
    dsimp only
    rw [hm, Option.getD_some]
  have hkeeps := KeepsStalls.raiseOnce s 0x8008 l cPkg l m
  refine ⟨_, m, (inModule_on hon).trans (congrArg _ hrun), hkeeps.mode, hkeeps.stalls, mem_once_raiseOnce _ _ _ _ _ _, rfl,
    List.mem_range.mp (List.mem_of_find?_eq_some hm), ?_⟩
  simpa using List.find?_some hm

theorem closeWait_quiet {s : State} (hon : s.board.railsOn = true)
    (h : s.rte.firstClose = none ∨ onF s R.rteClose_dispatchClosed = true ∨
      (∀ a, s.rte.firstClose = some a → s.now < a + 25 * getF s R.rteCtl_closeAlarmUs) ∨
      ∀ l ∈ servedLayers s, allClosed s 0 l = true ∨ (0x8008, l) ∈ s.once) : exec .closeWait s = .next s := by
  refine (inModule_on hon).trans (congrArg Host.Outcome.next ?_)
  unfold closeWait
  cases hfirst : s.rte.firstClose with
  | none => rfl
  | some a =>
    dsimp only
    by_cases hdone : (onF s R.rteClose_dispatchClosed || decide (s.now < a + 25 * getF s R.rteCtl_closeAlarmUs)) = true
    · rw [if_pos hdone]
    · rw [if_neg hdone]
      simp only [Bool.or_eq_true, decide_eq_true_eq, not_or] at hdone
      obtain ⟨hopen, hlate⟩ := hdone
      have hall : ∀ l ∈ servedLayers s, allClosed s 0 l = true ∨ (0x8008, l) ∈ s.once := by
        obtain h | h | h | h := h
        · exact absurd (hfirst.symm.trans h) nofun
        · exact absurd h hopen
        · exact absurd (h a hfirst) hlate
        · exact h
      have hnone : (servedLayers s).find? (fun l => !allClosed s 0 l && !s.once.contains (0x8008, l)) = none := by
        refine List.find?_eq_none.mpr (fun l hl => ?_)
        obtain h | h := hall l hl
        · simp [h]
        · simp [h]
      rw [hnone]

end Sys2Proof.Machine
end

section
/-! What a queue's counter and the requests of its channel leave alone (R322, R374). -/
namespace Sys2Proof.Machine
open Sys2Proof

/-! ## Requests to a channel, and a queue's counter (R322, R374) -/

/-- A field that no counter of a queue is: another lowest bit, or an address past the queues' page. -/
def Field.apartFromCounters (f : Field) : Bool := f.lo % 64 != 32 || decide (0xB020000 ≤ f.base)

/-- The queues' counters read the same. -/
def KeepsCounters (s t : State) : Prop := ∀ ix < 8192, counterOf t ix = counterOf s ix

theorem fkey_counter_ne {f : Field} (h : Field.apartFromCounters f = true) (u : Nat) {ix : Nat} (hix : ix < 8192) :
    fkey R.rteQueue_counter ix ≠ fkey f u := by
  simp only [Field.apartFromCounters, Bool.or_eq_true, bne_iff_ne, ne_eq, decide_eq_true_eq] at h
  obtain h | h := h
  · exact fkey_ne_of_lo (fun e => h (e ▸ rfl)) _ _
  · simp only [fkey, unitOff, R.rteQueue_counter, Bool.false_eq_true, if_false]
    omega

namespace KeepsCounters
variable {z s t : State}

theorem refl (s : State) : KeepsCounters s s := fun _ _ => rfl

theorem trans (h : KeepsCounters z s) (k : KeepsCounters s t) : KeepsCounters z t := fun ix hix => (k ix hix).trans (h ix hix)

theorem same (h : t.reg = s.reg := by rfl) : KeepsCounters s t := fun _ _ => getF_congr h _ _

theorem ofReg (h : KeepsReg s t) : KeepsCounters s t := fun ix hix => h _ ix (unit_not_event (n := 8192) (by decide) hix)

theorem setF {f : Field} (h : Field.apartFromCounters f = true) (s : State) (u v : Nat) : KeepsCounters s (setF s f u v) :=
  fun _ hix => getF_setF_ne s v (fkey_counter_ne h u hix)

theorem ite {c : Prop} [Decidable c] {a b : State} (ha : KeepsCounters s a) (hb : KeepsCounters s b) :
    KeepsCounters s (if c then a else b) := by
  split
  · exact ha
  · exact hb

theorem forEach {α : Type} {f : State → α → State} (h : ∀ s a, KeepsCounters s (f s a)) (l : List α) (s : State) :
    KeepsCounters s (forEach l f s) :=
  List.foldlRecOn l f (motive := KeepsCounters s) (refl s) (fun t ht a _ => ht.trans (h t a))

end KeepsCounters

/-- From `s` to `t` requests for channels came at most: the routing unit, the job, the stalls, the events told once and the
queues' counters stand, and memory but for the event ring. -/
structure OnlyRequests (s t : State) : Prop where
  rte : t.rte = s.rte
  once : t.once = s.once
  job : t.job = s.job
  stalls : t.stalls = s.stalls
  received : getF t R.rteClose_received = getF s R.rteClose_received
  counters : KeepsCounters s t
  ring : OnlyRing s t

namespace OnlyRequests
variable {z s t : State}

theorem refl (s : State) : OnlyRequests s s := ⟨rfl, rfl, rfl, rfl, rfl, .refl s, .refl s⟩

theorem trans (h : OnlyRequests z s) (k : OnlyRequests s t) : OnlyRequests z t :=
  ⟨k.rte.trans h.rte, k.once.trans h.once, k.job.trans h.job, k.stalls.trans h.stalls, k.received.trans h.received,
    h.counters.trans k.counters, h.ring.trans k.ring⟩

theorem ite {c : Prop} [Decidable c] {a b : State} (ha : OnlyRequests s a) (hb : OnlyRequests s b) :
    OnlyRequests s (if c then a else b) := by
  split
  · exact ha
  · exact hb

theorem setChan (s : State) (c : Nat) (h : Chan) : OnlyRequests s (setChan s c h) := ⟨rfl, rfl, rfl, rfl, rfl, .same, .same⟩

theorem bumpF {f : Field} (hc : Field.apartFromCounters f = true) (hr : f.apartFrom ringPlace = true)
    (hd : f.apartFrom [fkey R.rteClose_received 0] = true) (s : State) (u n : Nat) : OnlyRequests s (bumpF s f u n) :=
  ⟨rfl, rfl, rfl, rfl, getF_setF_ne _ _ (fun e => fkey_of_apartFrom hd u (e ▸ List.mem_cons_self ..)),
    .setF hc s u _, .setF hr s u _⟩

theorem raise (s : State) (code coord d0 d1 : Nat) : OnlyRequests s (raise s code coord d0 d1) :=
  ⟨raise_rte _ _ _ _ _, raise_once _ _ _ _ _, raise_job _ _ _ _ _, raise_stalls _ _ _ _ _,
    getF_raise (by decide) _ _ _ _ _, .ofReg (.raise _ _ _ _ _), .raise _ _ _ _ _⟩

theorem addRequest (s : State) (c : Nat) : OnlyRequests s (addRequest s c) := by
  unfold Machine.addRequest
  extract_lets h n a b
  have ha : OnlyRequests s a := 
    ite (bumpF (by decide) (by decide) (by decide) s _ _) (bumpF (by decide) (by decide) (by decide) s _ _)
  have hb : OnlyRequests s b := ha.trans (setChan a c _)
  clear_value b
  exact ite (refl s) (ite (setChan s c _) (ite hb (hb.trans (raise b _ _ _ _))))

theorem queueRise (s : State) (p q n : Nat) : OnlyRequests s (queueRise s p q n) := by
  unfold Machine.queueRise
  split
  · exact ite (List.foldlRecOn _ _ (motive := OnlyRequests s) (refl s) (fun t ht _ _ => ht.trans (addRequest t _))) (refl s)
  · exact refl s

end OnlyRequests

/-- From `s` to `t` one counter of a queue has risen, with requests for its stall's channel. -/
structure OnlyRises (s t : State) : Prop where
  rte : t.rte = s.rte
  once : t.once = s.once
  job : t.job = s.job
  stalls : t.stalls = s.stalls
  received : getF t R.rteClose_received = getF s R.rteClose_received
  ring : OnlyRing s t

theorem OnlyRises.trans {z s t : State} (h : OnlyRises z s) (k : OnlyRises s t) : OnlyRises z t :=
  ⟨k.rte.trans h.rte, k.once.trans h.once, k.job.trans h.job, k.stalls.trans h.stalls, k.received.trans h.received,
    h.ring.trans k.ring⟩

theorem raiseCounter_rises (s : State) (ix n : Nat) : OnlyRises s (raiseCounter s ix n) := by
  unfold raiseCounter
  split
  · exact ⟨rfl, rfl, rfl, rfl, rfl, .refl s⟩
  · have h := OnlyRequests.queueRise (setF s R.rteQueue_counter ix (counterOf s ix + n)) (ix / 16) (ix % 16) n
    exact ⟨h.rte, h.once, h.job, h.stalls, h.received.trans (getF_setF_ne _ _ (fkey_ne_of_lo (by decide) _ _)),
      (OnlyRing.setF (by decide) s ix _).trans h.ring⟩

/-- A counter rises by what came, and only its channel hears of it. -/
theorem counterOf_raiseCounter (s : State) {ix : Nat} (hix : ix < 8192) (n : Nat) :
    counterOf (raiseCounter s ix n) ix = if n = 0 then counterOf s ix else (counterOf s ix + n) % 2 ^ 32 := by
  unfold raiseCounter
  split
  · rfl
  · have h := OnlyRequests.queueRise (setF s R.rteQueue_counter ix (counterOf s ix + n)) (ix / 16) (ix % 16) n
    exact (h.counters ix hix).trans (getF_setF _ _ _ _)

theorem stepPrefix_rises (s : State) (ix : Nat) : OnlyRises s (stepPrefix s ix) := raiseCounter_rises s ix _

end Sys2Proof.Machine
end

section
/-! CLOSE and REFUSE frames; the statement on signals (R319, R321, R323). -/
namespace Sys2Proof.Machine
open Sys2Proof

/-! ## CLOSE frames (R319, R321, R323) -/

/-- From `s` to `t` slots became known-empty: the closes and their count, the job and the stalls stand. -/
structure OnlyEmpties (s t : State) : Prop where
  closes : t.rte.closes = s.rte.closes
  job : t.job = s.job
  stalls : t.stalls = s.stalls
  received : getF t R.rteClose_received = getF s R.rteClose_received

namespace OnlyEmpties
variable {z s t : State}

theorem refl (s : State) : OnlyEmpties s s := ⟨rfl, rfl, rfl, rfl⟩

theorem trans (h : OnlyEmpties z s) (k : OnlyEmpties s t) : OnlyEmpties z t :=
  ⟨k.closes.trans h.closes, k.job.trans h.job, k.stalls.trans h.stalls, k.received.trans h.received⟩

theorem forEach {α : Type} {f : State → α → State} (h : ∀ s a, OnlyEmpties s (f s a)) (l : List α) (s : State) :
    OnlyEmpties s (forEach l f s) :=
  List.foldlRecOn l f (motive := OnlyEmpties s) (refl s) (fun t ht a _ => ht.trans (h t a))

theorem write (s : State) (a : Nat) (b : Bytes) : OnlyEmpties s (write s a b) :=
  ⟨congrArg Rte.closes (write_rte s a b), write_job s a b, write_stalls s a b, getF_write (by decide) s a b⟩

theorem zero (s : State) (a n : Nat) : OnlyEmpties s (zero s a n) :=
  ⟨congrArg Rte.closes (zero_rte s a n), zero_job s a n, zero_stalls s a n, KeepsReg.zero s a n _ 0 (by decide)⟩

theorem setSlotSt (s : State) (ix slot v : Nat) : OnlyEmpties s (setSlotSt s ix slot v) := ⟨rfl, rfl, rfl, rfl⟩

theorem emptySlot (s : State) (ix slot : Nat) : OnlyEmpties s (emptySlot s ix slot) := by
  unfold Machine.emptySlot
  extract_lets q t u
  have ht : OnlyEmpties s t := setSlotSt s ix slot _
  clear_value t
  have hu : OnlyEmpties s u := ht.trans (write t _ _)
  clear_value u
  split
  · exact refl s
  · split
    · exact hu.trans (zero u _ _)
    · exact hu

theorem ofRises (h : OnlyRises s t) : OnlyEmpties s t := ⟨congrArg Rte.closes h.rte, h.job, h.stalls, h.received⟩

theorem emptyRegion (s : State) (c : CloseRec) : OnlyEmpties s (emptyRegion s c) :=
  forEach (fun t ix => (forEach (fun u k => emptySlot u ix k) _ t).trans (ofRises (stepPrefix_rises _ ix))) _ s

end OnlyEmpties

theorem noteArrival_keeps (s : State) : (noteArrival s).rte = s.rte ∧ (noteArrival s).reg = s.reg ∧
    (noteArrival s).stalls = s.stalls ∧ (noteArrival s).job.gateHold = s.job.gateHold := by
  unfold noteArrival
  split <;> exact ⟨rfl, rfl, rfl, rfl⟩

/-- A close that arrives stops no stall and ends no hold of the gate. -/
theorem takeClose_keeps (s : State) (pass layer m p : Nat) : (takeClose s pass layer m p).stalls = s.stalls ∧
    (takeClose s pass layer m p).job.gateHold = s.job.gateHold := by
  unfold takeClose
  extract_lets c _ a _ b d
  have hb : b.stalls = s.stalls ∧ b.job.gateHold = s.job.gateHold := ⟨rfl, rfl⟩
  have hd : d.stalls = s.stalls ∧ d.job.gateHold = s.job.gateHold := by
    dsimp only [d]
    split
    · obtain ⟨-, -, hstalls, hhold⟩ := noteArrival_keeps (showClosed (bumpF b R.rteClose_received 0 1))
      exact ⟨hstalls.trans hb.1, hhold.trans hb.2⟩
    · exact ⟨rfl, rfl⟩
  have h := OnlyEmpties.emptyRegion d c
  clear_value d
  split
  · exact ⟨rfl, rfl⟩
  · exact ⟨h.stalls.trans hd.1, (congrArg Job.gateHold h.job).trans hd.2⟩

/-- A close of a source of its layer is recorded, and a new one counts where its layer is served. -/
theorem takeClose_records {s : State} {pass layer m p : Nat} (hsrc : (sources s m layer).contains p = true) :
    (⟨pass, layer, m, p⟩ : CloseRec) ∈ (takeClose s pass layer m p).rte.closes ∧
      (pass = 0 → (⟨pass, layer, m, p⟩ : CloseRec) ∉ s.rte.closes → (servedLayers s).contains layer = true →
        getF (takeClose s pass layer m p) R.rteClose_received =
          min (2 ^ R.rteClose_received.width - 1) (getF s R.rteClose_received + 1)) := by
  unfold takeClose
  extract_lets c _ a _ b d
  have ha : a.rte.closes = s.rte.closes ++ [c] := rfl
  have h := OnlyEmpties.emptyRegion d c
  have hd : d.rte.closes = s.rte.closes ++ [c] := by
    dsimp only [d]
    split
    · exact (congrArg Rte.closes (noteArrival_keeps _).1).trans ha
    · exact ha
  by_cases hc : c ∈ s.rte.closes
  · rw [if_pos (by simp [hc])]
    exact ⟨hc, fun _ hnew => absurd hc hnew⟩
  · rw [if_neg (by simp only [Bool.or_eq_true, List.contains_iff_mem, hc, hsrc]; decide)]
    refine ⟨?_, fun hpass _ hserved => ?_⟩
    · rw [h.closes, hd]
      exact List.mem_append_right _ (List.mem_singleton_self c)
    · rw [h.received]
      have hcond : pass = 0 ∧ (servedLayers a).contains layer = true := ⟨hpass, hserved⟩
      dsimp only [d]
      rw [if_pos hcond, getF_congr (noteArrival_keeps _).2.1, showClosed, getF_setF_ne _ _ (fkey_ne_of_lo (by decide) _ _)]
      exact getF_bumpF _ _ _ _

theorem takeClose_stranger {s : State} {layer m p : Nat} (h : (sources s m layer).contains p = false) (pass : Nat) :
    takeClose s pass layer m p = s := by
  unfold takeClose
  dsimp only
  rw [h, Bool.not_false, Bool.or_true, if_pos rfl]

/-- A frame without metadata or trailers has no spans to check. -/
theorem frameSpans_nil {f : TokFrame} (h1 : f.kind ≠ 1) (h6 : f.kind ≠ 6) (h7 : f.kind ≠ 7) (s : State) :
    frameSpans s f = [] := by
  have htr : trailerOf f.kind f.flags = 0 := by simp [trailerOf, h6, h7]
  unfold frameSpans
  simp [htr, h1, h6]

theorem partsChecked_nil (s : State) (reader coord : Nat) : partsChecked s reader coord [] = (s, true) := rfl

theorem deliver_close {f : TokFrame} (hk : f.kind = 3) (s : State) :
    deliver s f = takeClose s (f.flags % 2) f.layer f.srcModule f.srcStall := by
  unfold deliver
  rw [frameSpans_nil (by omega) (by omega) (by omega), partsChecked_nil, hk]
  simp

theorem deliver_refuse {f : TokFrame} (hk : f.kind = 8) (s : State) : deliver s f =
    if bit f.flags 1 then takeClose (takeRefuse s f) (f.flags % 2) f.layer f.srcModule f.srcStall else takeRefuse s f := by
  unfold deliver
  rw [frameSpans_nil (by omega) (by omega) (by omega), partsChecked_nil, hk]
  simp

theorem closeFramed {s : State} {f : TokFrame} (h : s.admits f 3) :
    let u := s.lifted f
    let c : CloseRec := ⟨f.flags % 2, f.layer, f.srcModule, f.srcStall⟩
    ∃ t, exec (.closeFrame f) s = .next t ∧ t.mode = s.mode ∧
      if behindLate u f = true then t.rte.late = u.rte.late ++ [(0xFFFF, { f with rx := none })] ∧ t.rte.closes = u.rte.closes
      else if (sources u f.srcModule f.layer).contains f.srcStall = true then
        c ∈ t.rte.closes ∧
        (f.flags % 2 = 0 → c ∉ u.rte.closes → (servedLayers u).contains f.layer = true →
          getF t R.rteClose_received = min (2 ^ R.rteClose_received.width - 1) (getF u R.rteClose_received + 1))
      else t = u := by
  intro u c
  obtain ⟨-, hk, -⟩ := id h
  have hu := OnlyRoutes.lifted s f
  have hexec := frameRow_admits h
  rw [if_neg (by omega), if_pos hk] at hexec
  by_cases hlate : behindLate u f = true
  · rw [if_pos hlate] at hexec
    refine ⟨_, hexec, hu.mode, ?_⟩
    rw [if_pos hlate]
    exact ⟨rfl, rfl⟩
  · rw [if_neg hlate, deliver_close hk] at hexec
    refine ⟨_, hexec, ((Steady.refl noStall u).takeClose _ _ _ _).mode.trans hu.mode, ?_⟩
    rw [if_neg hlate]
    by_cases hsrc : (sources u f.srcModule f.layer).contains f.srcStall = true
    · rw [if_pos hsrc]
      exact takeClose_records hsrc
    · rw [if_neg hsrc]
      exact takeClose_stranger (Bool.eq_false_iff.mpr hsrc) _

/-! ## REFUSE frames (R319) -/

/-- A stall that rests gets a request for a frame that comes late. -/
theorem demandWake_asks {s : State} {p : Nat} (h : isResting (getStall s p) = true) :
    (demandWake s p).rte = s.rte ∧ (demandWake s p).mode = s.mode ∧
      ((getStall (demandWake s p) p).granted = true ∨ (demandWake s p).gov.waitq.any (fun q => q.stall == p) = true) := by
  unfold demandWake
  extract_lets t a b
  rw [if_pos h]
  have hb : getStall b p = { t with late := t.late <|> some (stallCode t.st, s.now) } := getStall_modStall a p _
  have hrest : isResting (getStall b p) = true := by
    rw [hb]
    exact h
  have hrte : b.rte = s.rte := rfl
  have hmode : b.mode = s.mode := rfl
  clear_value b
  rw [requestWake_idle _ _ (isResting_not_disabled hrest) (isResting_not_running hrest)]
  split
  · next hasked => exact ⟨hrte, hmode, hasked⟩
  · refine ⟨hrte, hmode, .inr ?_⟩
    dsimp only
    rw [(insertWake_perm b.gov.waitq _).any_eq, List.any_cons, beq_self_eq_true, Bool.true_or]

theorem refuseFramed {s : State} {f : TokFrame} (h : s.admits f 8) :
    let u := s.lifted f
    ∃ t, exec (.refuseFrame f) s = .next t ∧ t.mode = s.mode ∧
      if isResting (getStall u f.dstStall) = true then
        t.rte.late = u.rte.late ++ [(f.dstStall, { f with rx := none })] ∧
          ((getStall t f.dstStall).granted = true ∨ t.gov.waitq.any (fun q => q.stall == f.dstStall) = true)
      else (getStall t f.dstStall).stop = true ∧ t.job.gateHold = true := by
  intro u
  obtain ⟨-, hk, -⟩ := id h
  have hu := OnlyRoutes.lifted s f
  have hexec := frameRow_admits h
  have hstays : (bit f.flags 0 && onF (s.lifted f) R.genStall_idle f.dstStall && f.kind != 8) = false := by simp [hk]
  rw [if_neg (by omega), if_neg (by omega), hstays, if_neg Bool.false_ne_true] at hexec
  by_cases hrest : isResting (getStall u f.dstStall) = true
  · rw [if_pos hrest] at hexec
    refine ⟨_, hexec, ((Steady.refl noStall u).keepLate f).mode.trans hu.mode, ?_⟩
    rw [if_pos hrest]
    obtain ⟨hrte, -, hasked⟩ := demandWake_asks (p := f.dstStall)
      (s := { u with rte := { u.rte with late := u.rte.late ++ [(f.dstStall, { f with rx := none })] } }) hrest
    exact ⟨congrArg Rte.late hrte, hasked⟩
  · rw [if_neg hrest, deliver_refuse hk] at hexec
    have hm : (takeRefuse u f).mode = s.mode :=
      (((Steady.refl noStall u).stopStall f.dstStall).raise _ _ _ _).mode.trans hu.mode
    have hstop : (getStall (takeRefuse u f) f.dstStall).stop = true := by
      rw [takeRefuse, getStall_congr (raise_stalls _ _ _ _ _)]
      exact congrArg Stall.stop (getStall_modStall u f.dstStall (fun t => { t with stop := true }))
    have hhold : (takeRefuse u f).job.gateHold = true := by rw [takeRefuse, raise_job]; rfl
    refine ⟨_, hexec, ?_, ?_⟩
    · split
      · exact ((Steady.refl noStall _).takeClose _ _ _ _).mode.trans hm
      · exact hm
    · rw [if_neg hrest]
      split
      · obtain ⟨hs, hj⟩ := takeClose_keeps (takeRefuse u f) (f.flags % 2) f.layer f.srcModule f.srcStall
        exact ⟨by rw [getStall_congr hs]; exact hstop, hj.trans hhold⟩
      · exact ⟨hstop, hhold⟩

/-- Settles O47: a close of a source is recorded (`takeClose_records`), a wake-ahead asks for its stall
(`requestWake_ahead`, `forEach_requestWake_awaited`), a refusal stops its stall, and the two alarms tell once. -/
theorem tokenSignals : Obligations.TokenSignals :=
  ⟨fun _ _ h => closeFramed h, fun _ _ h => wakeFramed h, fun _ _ h => refuseFramed h, fun _ _ hp hon => combineAlarmed hp hon,
    fun _ _ _ hon hfirst hopen hlate hl => closeAlarmed hon hfirst hopen hlate hl, fun _ hon h => closeWait_quiet hon h⟩

end Sys2Proof.Machine
end

section
/-! What a delivered token of an expert or a query does to its slot (R316, R320, R322). -/
namespace Sys2Proof.Machine
open Sys2Proof

/-! ## The state of a slot (R321, R322) -/

theorem slotSt_congr {s t : State} (h : t.rte = s.rte) (ix slot : Nat) : slotSt t ix slot = slotSt s ix slot := by
  unfold slotSt; rw [h]

theorem slotFilled_congr {s t : State} (h : t.rte = s.rte) (ix slot : Nat) : slotFilled t ix slot = slotFilled s ix slot := by
  unfold slotFilled; rw [slotSt_congr h]

theorem slotDone_congr {s t : State} (h : t.rte = s.rte) (ix slot : Nat) : slotDone t ix slot = slotDone s ix slot := by
  unfold slotDone; rw [slotSt_congr h]

@[simp] theorem slotSt_setSlotSt (s : State) (ix slot v : Nat) : slotSt (setSlotSt s ix slot v) ix slot = v :=
  tget_tput_self 0 s.rte.slots (slotKey ix slot) v

theorem setSlotSt_ring (s : State) (ix slot v : Nat) : OnlyRing s (setSlotSt s ix slot v) := .same

theorem bumpHomes_rte (s : State) (ix : Nat) : (bumpHomes s ix).rte = s.rte := by
  unfold bumpHomes
  extract_lets q ps
  split
  · rfl
  · refine forEach_frame State.rte (fun t p => ?_) ps s
    split
    iterate 4 exact setF_rte _ _ _ _
    rfl

theorem bumpHomes_ring (s : State) (ix : Nat) : OnlyRing s (bumpHomes s ix) := by
  unfold bumpHomes
  refine .ite (.refl s) (.forEach (fun t p => ?_) _ s)
  split
  iterate 4 exact .setF (by decide) t p _
  exact .refl t

/-- Segments that a slot holds now: the slot counts them, and is filled with all of them in. -/
def countSlot (s : State) (ix slot got : Nat) (full : Bool) : State :=
  let c := setSlotSt s ix slot (slotSt s ix slot / 2 ^ 32 * 2 ^ 32 + got)
  if full && !slotFilled c ix slot then fillSlot c ix slot else c

theorem slotSt_countSlot (s : State) (ix slot : Nat) {got : Nat} (hgot : got < 2 ^ 32) (full : Bool) :
    slotSt (countSlot s ix slot got full) ix slot % 2 ^ 32 = got ∧
      (full = true → slotFilled (countSlot s ix slot got full) ix slot = true) := by
  unfold countSlot
  dsimp only
  generalize hc : setSlotSt s ix slot (slotSt s ix slot / 2 ^ 32 * 2 ^ 32 + got) = c
  have hst : slotSt c ix slot = slotSt s ix slot / 2 ^ 32 * 2 ^ 32 + got := by rw [← hc, slotSt_setSlotSt]
  split
  · have hrte := bumpHomes_rte (setSlotSt c ix slot (slotSt c ix slot % 2 ^ 32 + 2 ^ 32)) ix
    have hfill : slotSt (fillSlot c ix slot) ix slot = slotSt c ix slot % 2 ^ 32 + 2 ^ 32 :=
      (slotSt_congr hrte ix slot).trans (slotSt_setSlotSt _ _ _ _)
    refine ⟨by rw [hfill, hst]; omega, fun _ => ?_⟩
    rw [slotFilled, hfill, bit, beq_iff_eq]
    omega
  · next h =>
    refine ⟨by rw [hst]; omega, fun hfull => ?_⟩
    rw [hfull] at h
    simpa using h

theorem countSlot_ring (s : State) (ix slot got : Nat) (full : Bool) : OnlyRing s (countSlot s ix slot got full) := by
  unfold countSlot
  extract_lets c
  have hc : OnlyRing s c := setSlotSt_ring s ix slot _
  clear_value c
  exact .ite (hc.trans ((setSlotSt_ring c ix slot _).trans (bumpHomes_ring _ ix))) hc

/-! ## What a delivered token of each kind does (R320, R322) -/

section
variable {s : State} {f : TokFrame} {e : TokEntry} (htable : f.table = [e]) (hlast : bit f.flags 1 = false)
  (hbrands : s.brandBad = [])
include htable hlast hbrands

theorem deliver_dispatch (hk : f.kind = 1) : deliver s f = stepPrefix (dispatchTok f s (0, e)) (frameQueue f) := by
  unfold deliver
  rw [partsChecked_sound hbrands, hk, hlast, htable]
  rfl

theorem deliver_query (hk : f.kind = 6) : deliver s f = stepPrefix (queryTok f s (0, e)) (frameQueue f) := by
  unfold deliver
  rw [partsChecked_sound hbrands, hk, hlast, htable]
  rfl

theorem deliver_summary (hk : f.kind = 5) : deliver s f = stepPrefix (summaryTok f s (0, e)) (frameQueue f) := by
  unfold deliver
  rw [partsChecked_sound hbrands, hk, hlast, htable]
  rfl

theorem deliver_return (hk : f.kind = 2 ∨ f.kind = 7) :
    deliver s f = serveCombines (returnTok f s (0, e)) f.dstStall := by
  unfold deliver
  rw [partsChecked_sound hbrands, hlast, htable]
  obtain hk | hk := hk
  · rw [hk]; rfl
  · rw [hk]; rfl

end

theorem putRow_rte (s : State) (f : TokFrame) (q : Queue) (row i : Nat) : (putRow s f q row i).rte = s.rte := by
  unfold putRow
  dsimp only
  split
  · exact write_rte _ _ _
  · exact (write_rte _ _ _).trans (write_rte _ _ _)

theorem putRow_reg (s : State) (f : TokFrame) (q : Queue) (row i : Nat) : KeepsReg s (putRow s f q row i) := by
  unfold putRow
  dsimp only
  split
  · exact .write _ _ _
  · exact (KeepsReg.write _ _ _).trans (.write _ _ _)

theorem metaBytes_length (row ordinal posRank ret srcModule srcStall retQueue flags : Nat) :
    (metaBytes row ordinal posRank ret srcModule srcStall retQueue flags).length = 32 := by
  simp only [metaBytes, List.length_append, leBytes_length]

/-! ## A token within the home's capacity (R320, R322) -/

/-- A token of a DISPATCH frame with its row and its metadata written. -/
def tokenStored (s : State) (f : TokFrame) (e : TokEntry) (full : Bool) : State :=
  write (putRow s f (queueOf s (frameQueue f)) e.w8 0) ((queueOf s (frameQueue f)).metaAddr + 32 * e.w8)
    (metaBytes e.w8 e.ordinal e.posRank e.wC f.srcModule f.srcStall f.returnQueue (b2n full))

theorem tokenStored_rte (s : State) (f : TokFrame) (e : TokEntry) (full : Bool) : (tokenStored s f e full).rte = s.rte :=
  (write_rte _ _ _).trans (putRow_rte _ _ _ _ _)

theorem dispatchTok_stored {s : State} {f : TokFrame} {e : TokEntry} (h : ¬ capacity s f.target ≤ e.w8) :
    dispatchTok f s (0, e) =
      let got := slotSt s (frameQueue f) e.w8 % 2 ^ 32 + f.segCount
      let full := decide ((queueOf s (frameQueue f)).segs ≤ got)
      countSlot (tokenStored s f e full) (frameQueue f) e.w8 got full := by
  unfold dispatchTok
  dsimp only
  rw [if_neg h]
  rfl

/-- With no page protected, the metadata stands where no event record is put. -/
theorem readBytes_tokenStored {s t : State} {f : TokFrame} {e : TokEntry} {full : Bool}
    (h : OnlyRing (tokenStored s f e full) t) (hpages : s.team.pages = [])
    (hoff : ∀ i < 32, s.eventsOff ((queueOf s (frameQueue f)).metaAddr + 32 * e.w8 + i)) :
    readBytes t ((queueOf s (frameQueue f)).metaAddr + 32 * e.w8) 32 =
      metaBytes e.w8 e.ordinal e.posRank e.wC f.srcModule f.srcStall f.returnQueue (b2n full) := by
  have hkeys : KeepsKeys ringPlace s (tokenStored s f e full) :=
    .ofReg ((putRow_reg s f _ _ _).trans (.write _ _ _)) (by decide)
  have hpages' : (tokenStored s f e full).team.pages = [] :=
    (((Steady.refl noStall s).putRow f _ _ _).write _ _).pages hpages
  obtain ⟨-, hmem⟩ := h.mem hpages'
  have hstored := readBytes_write (putRow s f (queueOf s (frameQueue f)) e.w8 0)
    ((queueOf s (frameQueue f)).metaAddr + 32 * e.w8)
    (metaBytes e.w8 e.ordinal e.posRank e.wC f.srcModule f.srcStall f.returnQueue (b2n full))
  rw [metaBytes_length] at hstored
  refine Eq.trans ?_ hstored
  rw [readBytes_eq, readBytes_eq]
  exact List.map_congr_left (fun i hi => hmem _ (eventsOff_of_keys hkeys (hoff i (List.mem_range.mp hi))))

/-! ## A choice that the home cuts (R316) -/

/-- A frame sent leaves the slots, the cuts and the events told once. -/
theorem emit_keeps (s : State) (p : Nat) (f : TokFrame) :
    (emit s p f).rte.slots = s.rte.slots ∧ (emit s p f).rte.cuts = s.rte.cuts ∧ (emit s p f).once = s.once := by
  have hroute (t : State) (q dst : Nat) : (noRoute t q dst).rte = t.rte ∧ (noRoute t q dst).once = t.once :=
    ⟨raise_rte _ _ _ _ _, raise_once _ _ _ _ _⟩
  have hsend (t : State) (g : TokFrame) : (sendToken t g).rte.slots = t.rte.slots ∧ (sendToken t g).rte.cuts = t.rte.cuts ∧
      (sendToken t g).once = t.once := by
    unfold sendToken
    split
    · exact ⟨rfl, rfl, rfl⟩
    · split
      · rw [(hroute _ _ _).1, (hroute _ _ _).2]
        exact ⟨rfl, rfl, rfl⟩
      · split
        · rw [(hroute _ _ _).1, (hroute _ _ _).2]
          exact ⟨rfl, rfl, rfl⟩
        · exact ⟨rfl, rfl, rfl⟩
  unfold emit
  exact hsend _ _

theorem raiseOnce_rte (s : State) (code unit coord d0 d1 : Nat) : (raiseOnce s code unit coord d0 d1).rte = s.rte := by
  unfold raiseOnce
  split
  · rfl
  · exact raise_rte _ _ _ _ _

/-- A slot that becomes known-empty is done with; nothing else of the routing unit changes. -/
theorem emptySlot_rte {s : State} {ix slot : Nat} (h : slotDone s ix slot = false) :
    (emptySlot s ix slot).rte = (setSlotSt s ix slot (slotSt s ix slot % 2 ^ 32 + 2 ^ 33)).rte := by
  unfold emptySlot
  dsimp only
  rw [if_neg (Bool.eq_false_iff.mp h)]
  split
  · exact (zero_rte _ _ _).trans (write_rte _ _ _)
  · exact write_rte _ _ _

theorem homeCut_done {s : State} {f : TokFrame} {ix : Nat} {e : TokEntry} (h : slotDone s ix e.w8 = true) :
    homeCut s f ix e = s := if_pos h

theorem homeCut_cuts {s : State} {f : TokFrame} {ix : Nat} {e : TokEntry} (h : slotDone s ix e.w8 = false) :
    tget 0 (homeCut s f ix e).rte.cuts f.target = tget 0 s.rte.cuts f.target + 1 ∧
      slotDone (homeCut s f ix e) ix e.w8 = true ∧ (0x8005, f.layer) ∈ (homeCut s f ix e).once := by
  unfold homeCut
  rw [if_neg (Bool.eq_false_iff.mp h)]
  extract_lets n _ a b
  have ha : a.rte = _ := emptySlot_rte (s := { s with rte := { s.rte with cuts := tput 0 s.rte.cuts f.target n } }) h
  have hb : b.rte = a.rte := raiseOnce_rte _ _ _ _ _ _
  have hmem : (0x8005, f.layer) ∈ b.once := mem_once_raiseOnce _ _ _ _ _ _
  clear_value a b
  obtain ⟨hslots, hcuts, honce⟩ := emit_keeps b f.dstStall
    { blankFrame 2 (f.flags % 2 + 4) f.layer f.srcModule f.srcStall f.target f.returnQueue with
      table := [{ ordinal := e.ordinal, posRank := e.posRank, w8 := e.wC, wC := 0 }] }
  refine ⟨?_, ?_, honce ▸ hmem⟩
  · have hcut : a.rte.cuts = tput 0 s.rte.cuts f.target n := congrArg Rte.cuts ha
    rw [hcuts, hb, hcut, tget_tput_self]
  · have hslot : slotSt a ix e.w8 = slotSt s ix e.w8 % 2 ^ 32 + 2 ^ 33 :=
      (slotSt_congr ha ix e.w8).trans (slotSt_setSlotSt _ _ _ _)
    rw [slotDone, slotSt, hslots, hb, ← slotSt, hslot, decide_eq_true_eq]
    omega

end Sys2Proof.Machine
end

section
/-! The statement on slots, put together (R316, R320, R322, R329). -/
namespace Sys2Proof.Machine
open Sys2Proof

/-! ## A query row, a summary (R320, R329, R330) -/

theorem slotSt_takeRow (s : State) (ix slot pos k : Nat) : slotSt (takeRow s ix slot pos).1 ix k = slotSt s ix k := by
  unfold takeRow
  split <;> rfl

theorem queryTok_counted (s : State) (f : TokFrame) (e : TokEntry) : ∃ b, queryTok f s (0, e) =
    let got := slotSt s (frameQueue f) e.w8 % 2 ^ 32 + f.segCount
    countSlot b (frameQueue f) e.w8 got (decide ((queueOf s (frameQueue f)).segs *
      ((attnOf s f.layer).map (fun a => 2 ^ a.qLog2)).getD 1 ≤ got)) := by
  unfold queryTok
  extract_lets ix q e' first qb t a got full b c got'
  have hgot : got = got' := by
    have ha : slotSt a ix e'.w8 = slotSt s ix e'.w8 :=
      (slotSt_congr (putRow_rte _ _ _ _ _) _ _).trans (slotSt_takeRow _ _ _ _ _)
    dsimp only [got, got']
    rw [ha]
  exact ⟨b, by rw [← hgot]; rfl⟩

theorem slotSt_summaryTok (s : State) (f : TokFrame) (e : TokEntry) :
    slotSt (summaryTok f s (0, e)) (frameQueue f) e.ordinal =
      slotSt s (frameQueue f) e.ordinal % 2 ^ 32 + f.segCount +
        (if (queueOf s (frameQueue f)).segs ≤ slotSt s (frameQueue f) e.ordinal % 2 ^ 32 + f.segCount then 2 ^ 32 else 0) := by
  unfold summaryTok
  exact slotSt_setSlotSt _ _ _ _

/-! ## The statement -/

section
variable {s : State} {f : TokFrame} {e : TokEntry} (hw : (s.lifted f).atWork f) (htable : f.table = [e])
  (hlast : bit f.flags 1 = false) (hbrands : s.brandBad = [])
include hw htable hlast hbrands

theorem dispatchFramed (h : s.admits f 1) :
    let u := s.lifted f
    let ix := frameQueue f
    let got := slotSt u ix e.w8 % 2 ^ 32 + f.segCount
    let at_ := (queueOf u ix).metaAddr + 32 * e.w8
    ∃ t, exec (.dispatchFrame f) s = .next t ∧ t.mode = s.mode ∧
      if capacity u f.target ≤ e.w8 then
        if slotDone u ix e.w8 = true then t.rte.cuts = u.rte.cuts
        else tget 0 t.rte.cuts f.target = tget 0 u.rte.cuts f.target + 1 ∧ slotDone t ix e.w8 = true ∧
          (0x8005, f.layer) ∈ t.once
      else got < 2 ^ 32 →
        slotSt t ix e.w8 % 2 ^ 32 = got ∧ ((queueOf u ix).segs ≤ got → slotFilled t ix e.w8 = true) ∧
        (s.team.pages = [] → (∀ i < 32, s.eventsOff (at_ + i)) →
          readBytes t at_ 32 = metaBytes e.w8 e.ordinal e.posRank e.wC f.srcModule f.srcStall
            f.returnQueue (b2n (decide ((queueOf u ix).segs ≤ got)))) := by
  intro u ix got at_
  have hu := OnlyRoutes.lifted s f
  obtain ⟨-, hk, -⟩ := id h
  have hexec := (frameRow_atWork h hw (by decide) (by decide)).trans
    (congrArg _ (deliver_dispatch htable hlast (hu.brandBad.trans hbrands) hk))
  have k := stepPrefix_rises (dispatchTok f u (0, e)) ix
  refine ⟨stepPrefix (dispatchTok f u (0, e)) ix, hexec,
    (((Steady.refl noStall u).dispatchTok f (0, e)).stepPrefix ix).mode.trans hu.mode, ?_⟩
  by_cases hcap : capacity u f.target ≤ e.w8
  · have hcut : dispatchTok f u (0, e) = homeCut u f ix e := if_pos hcap
    rw [if_pos hcap, slotDone_congr k.rte, k.rte, k.once, hcut]
    by_cases hdone : slotDone u ix e.w8 = true
    · rw [if_pos hdone, homeCut_done hdone]
    · rw [if_neg hdone]
      exact homeCut_cuts (Bool.eq_false_iff.mpr hdone)
  · rw [if_neg hcap]
    intro hgot
    have hstored := dispatchTok_stored (e := e) hcap
    rw [slotSt_congr k.rte, slotFilled_congr k.rte]
    obtain ⟨hcount, hfull⟩ := slotSt_countSlot (tokenStored u f e (decide ((queueOf u ix).segs ≤ got))) ix e.w8 hgot
      (decide ((queueOf u ix).segs ≤ got))
    have hring : OnlyRing (tokenStored u f e (decide ((queueOf u ix).segs ≤ got))) (stepPrefix (dispatchTok f u (0, e)) ix) := by
      refine OnlyRing.trans ?_ k.ring
      rw [hstored]
      exact countSlot_ring _ _ _ _ _
    refine ⟨by rw [hstored]; exact hcount, fun hall => by rw [hstored]; exact hfull (decide_eq_true hall),
      fun hpages hoff => readBytes_tokenStored hring (by rw [hu.team]; exact hpages) (fun i hi => ?_)⟩
    exact eventsOff_of_keys (.same hu.reg) (hoff i hi)

theorem queryFramed (h : s.admits f 6) :
    let u := s.lifted f
    let ix := frameQueue f
    let got := slotSt u ix e.w8 % 2 ^ 32 + f.segCount
    let rows := ((attnOf u f.layer).map (fun a => 2 ^ a.qLog2)).getD 1
    got < 2 ^ 32 →
    ∃ t, exec (.queryFrame f) s = .next t ∧ t.mode = s.mode ∧ slotSt t ix e.w8 % 2 ^ 32 = got ∧
      ((queueOf u ix).segs * rows ≤ got → slotFilled t ix e.w8 = true) := by
  intro u ix got rows hgot
  have hu := OnlyRoutes.lifted s f
  obtain ⟨-, hk, -⟩ := id h
  have hexec := (frameRow_atWork h hw (by decide) (by decide)).trans
    (congrArg _ (deliver_query htable hlast (hu.brandBad.trans hbrands) hk))
  have k := stepPrefix_rises (queryTok f u (0, e)) ix
  obtain ⟨b, hb⟩ := queryTok_counted u f e
  obtain ⟨hcount, hfull⟩ := slotSt_countSlot b ix e.w8 hgot (decide ((queueOf u ix).segs * rows ≤ got))
  refine ⟨_, hexec, (((Steady.refl noStall u).queryTok f (0, e)).stepPrefix ix).mode.trans hu.mode, ?_, fun hall => ?_⟩
  · rw [slotSt_congr k.rte, hb]
    exact hcount
  · rw [slotFilled_congr k.rte, hb]
    exact hfull (decide_eq_true hall)

theorem summaryFramed (h : s.admits f 5) :
    let u := s.lifted f
    let ix := frameQueue f
    let got := slotSt u ix e.ordinal % 2 ^ 32 + f.segCount
    ∃ t, exec (.summaryFrame f) s = .next t ∧ t.mode = s.mode ∧
      slotSt t ix e.ordinal = got + (if (queueOf u ix).segs ≤ got then 2 ^ 32 else 0) := by
  intro u ix got
  have hu := OnlyRoutes.lifted s f
  obtain ⟨-, hk, -⟩ := id h
  have hexec := (frameRow_atWork h hw (by decide) (by decide)).trans
    (congrArg _ (deliver_summary htable hlast (hu.brandBad.trans hbrands) hk))
  have k := stepPrefix_rises (summaryTok f u (0, e)) ix
  refine ⟨_, hexec, (((Steady.refl noStall u).summaryTok f (0, e)).stepPrefix ix).mode.trans hu.mode, ?_⟩
  rw [slotSt_congr k.rte]
  exact slotSt_summaryTok u f e

end

/-- Settles O45: a token counts its segments and its metadata stands (`slotSt_countSlot`, `readBytes_tokenStored`), a choice
beyond the capacity is cut once (`homeCut_cuts`, `homeCut_done`). -/
theorem tokenSlots : Obligations.TokenSlots :=
  ⟨fun _ _ _ h hw htable hlast hbrands => dispatchFramed hw htable hlast hbrands h,
    fun _ _ _ h hw htable hlast hbrands => queryFramed hw htable hlast hbrands h,
    fun _ _ _ h hw htable hlast hbrands => summaryFramed hw htable hlast hbrands h⟩

end Sys2Proof.Machine
end

section
/-! A COMBINE that goes on leaves the counters of the queues (R316, R322, R327). -/
namespace Sys2Proof.Machine
open Sys2Proof

/-- A stall's field that no counter of a queue is. -/
def Field.apartAtStalls (f : Field) : Bool := Field.apartFromCounters f ||
  (!f.paged && f.stride == 8 && decide (f.lo < 64) && decide (f.base + 4096 ≤ R.rteQueue_counter.base))

theorem fkey_counter_ne_stall {f : Field} (h : Field.apartAtStalls f = true) {p : Nat} (hp : p < 512) {ix : Nat}
    (hix : ix < 8192) : fkey R.rteQueue_counter ix ≠ fkey f p := by
  simp only [Field.apartAtStalls, Bool.or_eq_true, Bool.and_eq_true, Bool.not_eq_true', beq_iff_eq, decide_eq_true_eq] at h
  obtain h | ⟨⟨⟨hpaged, hstride⟩, hlo⟩, hbase⟩ := h
  · exact fkey_counter_ne h p hix
  · simp only [fkey, unitOff, hpaged, hstride, R.rteQueue_counter, Bool.false_eq_true, if_false] at hbase ⊢
    omega

namespace KeepsCounters
variable {z s : State}

theorem setUnit (h : KeepsCounters z s) {f : Field} (hf : Field.apartFromCounters f = true) (u v : Nat) :
    KeepsCounters z (Machine.setF s f u v) := h.trans (.setF hf s u v)

theorem unitFields (h : KeepsCounters z s) {l : List (Field × Nat)} (p : Nat)
    (hl : ∀ f ∈ l.map Prod.fst, Field.apartFromCounters f = true) :
    KeepsCounters z (l.foldl (fun t x => Machine.setF t x.1 p x.2) s) :=
  List.foldlRecOn l _ (motive := KeepsCounters z) h (fun _ ht x hx => ht.setUnit (hl _ (List.mem_map_of_mem hx)) p x.2)

theorem setFs (h : KeepsCounters z s) {l : List (Field × Nat)} (hl : ∀ f ∈ l.map Prod.fst, Field.apartFromCounters f = true) :
    KeepsCounters z (setFs s l) := h.unitFields 0 hl

theorem raise (h : KeepsCounters z s) (code coord d0 d1 : Nat) : KeepsCounters z (raise s code coord d0 d1) :=
  h.trans (.ofReg (.raise _ _ _ _ _))

theorem raiseOnce (h : KeepsCounters z s) (code unit coord d0 d1 : Nat) : KeepsCounters z (raiseOnce s code unit coord d0 d1) :=
  h.trans (.ofReg (.raiseOnce _ _ _ _ _ _))

theorem write (h : KeepsCounters z s) (a : Nat) (b : Bytes) : KeepsCounters z (write s a b) := h.trans (.ofReg (.write _ _ _))

theorem whenever {c : Prop} [Decidable c] {a b : State} (ha : KeepsCounters z a) (hb : KeepsCounters z b) :
    KeepsCounters z (if c then a else b) := ite ha hb

theorem each {α : Type} {f : State → α → State} (hf : ∀ s a, KeepsCounters s (f s a)) (h : KeepsCounters z s) (l : List α) :
    KeepsCounters z (Machine.forEach l f s) := h.trans (forEach hf l s)

/-! ## Stalls that stop or trap (R269, R289) -/

theorem stopStall (h : KeepsCounters z s) (p : Nat) : KeepsCounters z (stopStall s p) := h.trans .same

theorem instrFault (h : KeepsCounters z s) (p status opcode instr detail : Nat) :
    KeepsCounters z (instrFault s p status opcode instr detail) := by
  unfold Machine.instrFault
  extract_lets t u
  have ht : KeepsCounters z t := h.stopStall p
  have hu : KeepsCounters z u := ht.unitFields p (by simp only [List.map_cons, List.map_nil]; decide)
  exact whenever ht (hu.raise _ _ _ _)

theorem badBits (h : KeepsCounters z s) (b : BadVal) : KeepsCounters z (badBits s b).1 := by
  have hd : KeepsCounters z (draw s) := h.trans .same
  unfold Machine.badBits
  split
  iterate 3 exact h
  split
  · exact h
  · exact hd

theorem trapBits (h : KeepsCounters z s) (a : F32) : KeepsCounters z (trapBits s a).1 := by
  have hd : KeepsCounters z (draw s) := h.trans .same
  unfold Machine.trapBits
  split
  · exact hd
  · exact h

theorem stallFields (h : KeepsCounters z s) {l : List (Field × Nat)} {p : Nat} (hp : p < 512)
    (hl : ∀ f ∈ l.map Prod.fst, Field.apartAtStalls f = true) :
    KeepsCounters z (l.foldl (fun t x => Machine.setF t x.1 p x.2) s) :=
  List.foldlRecOn l _ (motive := KeepsCounters z) h (fun _ ht _ hx => ht.trans (fun _ hix =>
    getF_setF_ne _ _ (fkey_counter_ne_stall (hl _ (List.mem_map_of_mem hx)) hp hix)))

theorem trapShown (h : KeepsCounters z s) {p : Nat} (hp : p < 512) (source operand kind layer instr tile elem value shown : Nat) :
    KeepsCounters z (trapShown s p source operand kind layer instr tile elem value shown) := by
  unfold Machine.trapShown
  extract_lets t u first v w
  have ht : KeepsCounters z t := h.stopStall p
  have hu : KeepsCounters z u := ht.stallFields hp (by simp only [List.map_cons, List.map_nil]; decide)
  clear_value u
  have hv : KeepsCounters z v := whenever (hu.setFs (by simp only [List.map_cons, List.map_nil]; decide)) hu
  have hw : KeepsCounters z w := hv.setFs (by simp only [List.map_cons, List.map_nil]; decide)
  exact whenever ht (hw.raise _ _ _ _)

theorem combTrap (h : KeepsCounters z s) {p : Nat} (hp : p < 512) (d : CombDesc) (ins : Nat) (x : Nat × CombBad) :
    KeepsCounters z (combTrap s p d ins x) := by
  unfold Machine.combTrap
  exact whenever ((h.badBits _).trapShown hp _ _ _ _ _ _ _ _ _) ((h.trapBits _).trapShown hp _ _ _ _ _ _ _ _ _)

/-! ## Frames that leave (R317, R398) -/

theorem noRoute (h : KeepsCounters z s) (q dst : Nat) : KeepsCounters z (noRoute s q dst) := (h.stopStall q).raise _ _ _ _

theorem sendToken (h : KeepsCounters z s) (f : TokFrame) : KeepsCounters z (sendToken s f) := by
  unfold Machine.sendToken
  split
  · exact h.trans .same
  · split
    · exact h.noRoute _ _
    · split
      · exact h.noRoute _ _
      · exact h.trans .same

theorem emit (h : KeepsCounters z s) (p : Nat) (f : TokFrame) : KeepsCounters z (emit s p f) := by
  unfold Machine.emit
  exact KeepsCounters.sendToken (h.trans .same) _

theorem sendAll (h : KeepsCounters z s) (p : Nat) (d : SendDesc) (toks : List SendTok) :
    KeepsCounters z (sendAll s p d toks) := by
  have hgroup (t : State) (g : List SendTok) (x : Nat × Nat) : KeepsCounters t (sendGroup p d g t x) := by
    unfold Machine.sendGroup
    split
    · exact refl t
    · exact emit (refl t) _ _
  unfold Machine.sendAll
  exact h.each (fun t g => (refl t).each (fun u x => hgroup u _ x) _) _

theorem resend (h : KeepsCounters z s) (p : Nat) (l : RouteList) (entries : List (Nat × Nat)) :
    KeepsCounters z (resend s p l entries) := by
  unfold Machine.resend
  split
  · exact h
  · exact h.sendAll _ _ _

/-! ## Reads (R341, R419) -/

theorem checkBrands (h : KeepsCounters z s) (reader coord a n : Nat) : KeepsCounters z (checkBrands s reader coord a n).1 := by
  unfold Machine.checkBrands
  split
  · exact h
  · refine h.each (fun t p => ?_) _
    have hbad : KeepsCounters t
        (Machine.setFs t [(R.brdLineLast_valid, 1), (R.brdLineLast_reader, reader), (R.brdLineLast_address, p.1)]) :=
      (refl t).setFs (by simp only [List.map_cons, List.map_nil]; decide)
    have hgood : KeepsCounters t { t with brandBad := t.brandBad.filter (fun q => q.1 != p.1) } := .same
    exact ite ((hbad.setUnit (by decide) _ _).raise _ _ _ _) ((hgood.setUnit (by decide) _ _).raise _ _ _ _)

theorem loftRead (h : KeepsCounters z s) (a n : Nat) : KeepsCounters z (loftRead s a n).1 := by
  have hcorrected (t : State) (l : Nat) : KeepsCounters t (noteCorrected t l) := by
    unfold noteCorrected
    extract_lets c u due
    have hu : KeepsCounters t u := .setF (by decide) t _ _
    exact ite (KeepsCounters.raise (hu.trans .same) _ _ _ _) hu
  have hbad (t : State) (l : Nat) : KeepsCounters t (noteUncorrectable t l) := by
    unfold noteUncorrectable
    extract_lets c u
    have hb : KeepsCounters t (bumpF t R.lftChannel_uncorrected c 1) := .setF (by decide) t _ _
    have hu : KeepsCounters t u := hb.setFs (by simp only [List.map_cons, List.map_nil]; decide)
    exact hu.raise _ _ _ _
  exact (h.each hcorrected _).each hbad _

theorem geReads (h : KeepsCounters z s) (p : Nat) (l : List (Nat × Nat)) : KeepsCounters z (geReads s p l).1 :=
  List.foldlRecOn l _ (motive := fun x : State × Bool => KeepsCounters z x.1) h
    (fun _ hx _ _ => (hx.checkBrands _ _ _ _).loftRead _ _)

/-! ## COMBINE (R316, R327) -/

theorem combWrite (h : KeepsCounters z s) (p : Nat) (d : CombDesc) (l : RouteList) : KeepsCounters z (combWrite s p d l) := by
  have hkept : KeepsCounters z (keepMerges s p d l) := by
    unfold Machine.keepMerges
    exact whenever h (h.trans .same)
  exact hkept.each (fun t x => (refl t).write _ _) _

theorem runCombined (h : KeepsCounters z s) {p : Nat} (hp : p < 512) (c : PendComb) (d : CombDesc) :
    KeepsCounters z (runCombined p c d s) := by
  unfold Machine.runCombined
  extract_lets l r t
  have hr : KeepsCounters z r.1 := h.geReads _ _
  refine whenever (hr.instrFault _ _ _ _ _) ?_
  split
  · exact hr.combTrap hp _ _ _
  · exact (hr.combWrite _ _ _).trans .same

theorem useSpare (h : KeepsCounters z s) (p l k r stands : Nat) (gate : F32) (es : List RouteEntry) :
    KeepsCounters z (useSpare s p l k r stands gate es).1 := by
  have hseat (e : Nat) : KeepsCounters z (seatToken s p l e).1 := by
    unfold seatToken
    exact KeepsCounters.setUnit (h.trans .same) (by decide) _ _
  unfold Machine.useSpare
  split
  · split
    · exact (hseat _).setUnit (by decide) _ _
    · exact h
  · split
    · exact h.setUnit (by decide) _ _
    · exact h

theorem dealCut {x : State × List (Nat × Nat)} (h : KeepsCounters z x.1) (p : Nat) (l : RouteList) (c : CutEntry) :
    KeepsCounters z (dealCut p l x c).1 := by
  unfold Machine.dealCut
  extract_lets s k t r es done
  split
  · exact h
  · extract_lets es' u v
    split
    · exact KeepsCounters.trans ((h.setUnit (f := R.rteStep_dropped) (by decide) 0 _).write _ _) .same
    · have hv : KeepsCounters z v := KeepsCounters.trans ((h.useSpare _ _ _ _ _ _ _).write _ _) .same
      clear_value v
      split
      · exact hv.trans .same
      · exact hv

theorem noteChoices (h : KeepsCounters z s) (s0 : State) (l : Nat) : KeepsCounters z (noteChoices s0 s l) := by
  unfold Machine.noteChoices
  extract_lets t
  have ht : KeepsCounters z t := whenever (h.raiseOnce _ _ _ _ _) h
  exact whenever (ht.raiseOnce _ _ _ _ _) ht

theorem serveCombine (s : State) {p : Nat} (hp : p < 512) (c : PendComb) : KeepsCounters s (serveCombine p s c) := by
  unfold Machine.serveCombine
  extract_lets d l ix x t
  have hx : KeepsCounters s x.1 :=
    List.foldlRecOn _ _ (motive := fun y : State × List (Nat × Nat) => KeepsCounters s y.1) (refl s)
      (fun _ hy e _ => hy.dealCut p l e)
  have ht : KeepsCounters s t := (hx.resend _ _ _).noteChoices _ _
  exact ite (refl s) (ite ((ht.runCombined hp _ _).trans .same) ht)

theorem serveCombines (s : State) {p : Nat} (hp : p < 512) : KeepsCounters s (serveCombines s p) :=
  forEach (fun t c => serveCombine t hp c) _ s

end KeepsCounters

end Sys2Proof.Machine
end

section
/-! The statement on RETURN and PARTIAL frames (R316, R322). -/
namespace Sys2Proof.Machine
open Sys2Proof

/-- The queue of an admitted frame of a kind that goes to one is a queue of a stall. -/
theorem State.admits.queue {s : State} {f : TokFrame} {kind : Nat} (h : s.admits f kind) (hs : (suitedKind kind).isSome = true) :
    f.dstStall < 512 ∧ frameQueue f < 8192 := by
  obtain ⟨-, hk, -, -, -, -, -, -, hchecks⟩ := h
  have hplace : tokPlace (s.lifted f) f = true := by
    by_contra hn
    rw [tokChecks, if_pos (by simp [hn])] at hchecks
    exact absurd hchecks nofun
  obtain ⟨k, hsuits⟩ := Option.isSome_iff_exists.mp hs
  rw [tokPlace, hk, hsuits] at hplace
  simp only [Bool.and_eq_true, decide_eq_true_eq] at hplace
  obtain ⟨⟨-, ⟨hstall, hqueue⟩, -⟩, -⟩ := hplace
  refine ⟨hstall, ?_⟩
  rw [frameQueue, queueIx]
  omega

theorem serveCombines_none {s : State} {p : Nat} (h : (getStall s p).combines = []) : serveCombines s p = s := by
  rw [serveCombines, h]
  rfl

/-! ## A choice that comes back cut (R316) -/

section
variable {s : State} {f : TokFrame} {e : TokEntry}

/-- A choice that came back cut is noted and counted. -/
theorem noteCut_notes (s : State) (ix slot : Nat) : (noteCut s ix slot).rte.cutBack = s.rte.cutBack ∧
    (noteCut s ix slot).rte.cutEntries.any (fun c => c.queue == ix && c.slot == slot) = true ∧
      (noteCut s ix slot).reg = s.reg ∧ (noteCut s ix slot).stalls = s.stalls := by
  unfold noteCut
  split
  · next h =>
    refine ⟨rfl, ?_, rfl, rfl⟩
    dsimp only
    obtain ⟨c, hc, hat⟩ := List.any_eq_true.mp h
    refine List.any_eq_true.mpr ⟨_, List.mem_map_of_mem hc, ?_⟩
    split
    · exact hat
    · exact hat
  · refine ⟨rfl, ?_, rfl, rfl⟩
    simp

/-- The state in which a choice that came back cut raises its queue's counter. -/
def cutNoted (s : State) (f : TokFrame) (e : TokEntry) : State :=
  noteCut { s with rte := { s.rte with cutBack := tput 0 s.rte.cutBack f.target (tget 0 s.rte.cutBack f.target + 1) } }
    (frameQueue f) e.w8

theorem returnTok_cut (hk : f.kind = 2) (hcut : bit f.flags 2 = true) (s : State) (e : TokEntry) :
    returnTok f s (0, e) = raiseCounter (cutNoted s f e) (frameQueue f) (queueOf s (frameQueue f)).segs := if_pos ⟨hk, hcut⟩

theorem returnTok_row (h : ¬ (f.kind = 2 ∧ bit f.flags 2 = true)) (s : State) (e : TokEntry) : returnTok f s (0, e) =
    raiseCounter (putRow s f (queueOf s (frameQueue f)) e.w8 0) (frameQueue f) f.segCount := if_neg h

theorem putRow_stalls (s : State) (f : TokFrame) (q : Queue) (row i : Nat) : (putRow s f q row i).stalls = s.stalls := by
  unfold putRow
  dsimp only
  split
  · exact write_stalls _ _ _
  · exact (write_stalls _ _ _).trans (write_stalls _ _ _)

theorem returnTok_stalls (s : State) (f : TokFrame) (e : TokEntry) : (returnTok f s (0, e)).stalls = s.stalls := by
  by_cases h : f.kind = 2 ∧ bit f.flags 2 = true
  · rw [returnTok_cut h.1 h.2, (raiseCounter_rises _ _ _).stalls]
    exact (noteCut_notes _ _ _).2.2.2
  · rw [returnTok_row h, (raiseCounter_rises _ _ _).stalls, putRow_stalls]

/-- A token that comes back raises its queue's counter by the segments it brings, a cut one by its row's. -/
theorem counterOf_returnTok (hix : frameQueue f < 8192) (s : State) (e : TokEntry) :
    let n := if f.kind = 2 ∧ bit f.flags 2 = true then (queueOf s (frameQueue f)).segs else f.segCount
    counterOf (returnTok f s (0, e)) (frameQueue f) =
      if n = 0 then counterOf s (frameQueue f) else (counterOf s (frameQueue f) + n) % 2 ^ 32 := by
  intro n
  by_cases h : f.kind = 2 ∧ bit f.flags 2 = true
  · have hn : n = (queueOf s (frameQueue f)).segs := if_pos h
    have hc : counterOf (cutNoted s f e) (frameQueue f) = counterOf s (frameQueue f) :=
      getF_congr (noteCut_notes _ _ _).2.2.1 _ _
    rw [returnTok_cut h.1 h.2, counterOf_raiseCounter _ hix, hc, hn]
  · have hn : n = f.segCount := if_neg h
    have hc : counterOf (putRow s f (queueOf s (frameQueue f)) e.w8 0) (frameQueue f) = counterOf s (frameQueue f) :=
      KeepsCounters.ofReg (putRow_reg s f _ _ _) _ hix
    rw [returnTok_row h, counterOf_raiseCounter _ hix, hc, hn]

/-- Where no event record is put, memory is as the row's write left it. -/
theorem readByte_returnTok (h : ¬ (f.kind = 2 ∧ bit f.flags 2 = true)) (hpages : s.team.pages = []) {a : Nat}
    (ha : s.eventsOff a) : readByte (returnTok f s (0, e)) a = readByte (putRow s f (queueOf s (frameQueue f)) e.w8 0) a := by
  have hring := (raiseCounter_rises (putRow s f (queueOf s (frameQueue f)) e.w8 0) (frameQueue f) f.segCount).ring
  obtain ⟨-, hmem⟩ := hring.mem (((Steady.refl noStall s).putRow f _ _ _).pages hpages)
  rw [returnTok_row h]
  exact hmem a (eventsOff_of_keys (.ofReg (putRow_reg s f _ _ _) (by decide)) ha)

/-- A row without a trailer takes its segments, and no other byte changes. -/
theorem readByte_putRow (htr : trailerOf f.kind f.flags = 0) (hpages : s.team.pages = []) (q : Queue) (row a : Nat) :
    readByte (putRow s f q row 0) a =
      let at_ := q.base + row * rowBytes q 0 + f.segFirst * segBytes q.format
      if at_ ≤ a ∧ a < at_ + (tokenBytes f 0).1.length then (tokenBytes f 0).1.getD (a - at_) 0 else readByte s a := by
  unfold putRow
  dsimp only
  rw [htr, if_pos rfl]
  exact readByte_write hpages _ _ _

end

/-! ## The statement -/

section
variable {s : State} {f : TokFrame} {e : TokEntry} (hw : (s.lifted f).atWork f) (htable : f.table = [e])
  (hlast : bit f.flags 1 = false) (hbrands : s.brandBad = [])
include hw htable hlast hbrands

theorem returnFramed (h : s.admits f 2) :
    let u := s.lifted f
    let ix := frameQueue f
    let q := queueOf u ix
    let n := if bit f.flags 2 then q.segs else f.segCount
    ∃ t, exec (.returnFrame f) s = .next t ∧ t.mode = s.mode ∧
      counterOf t ix = (if n = 0 then counterOf u ix else (counterOf u ix + n) % 2 ^ 32) ∧
      ((getStall u f.dstStall).combines = [] →
        if bit f.flags 2 = true then tget 0 t.rte.cutBack f.target = tget 0 u.rte.cutBack f.target + 1 ∧
          t.rte.cutEntries.any (fun c => c.queue == ix && c.slot == e.w8) = true
        else
          let at_ := q.base + e.w8 * rowBytes q 0 + f.segFirst * segBytes q.format
          let b := (tokenBytes f 0).1
          s.team.pages = [] → ∀ a, s.eventsOff a →
            readByte t a = if at_ ≤ a ∧ a < at_ + b.length then b.getD (a - at_) 0 else readByte s a) := by
  intro u ix q n
  have hu := OnlyRoutes.lifted s f
  obtain ⟨-, hk, -⟩ := id h
  obtain ⟨hstall, hix⟩ := h.queue rfl
  have hexec := (frameRow_atWork h hw (by decide) (by decide)).trans
    (congrArg _ (deliver_return htable hlast (hu.brandBad.trans hbrands) (.inl hk)))
  refine ⟨serveCombines (returnTok f u (0, e)) f.dstStall, hexec,
    (((Steady.refl noStall u).returnTok f (0, e)).serveCombines _).mode.trans hu.mode, ?_, fun hnone => ?_⟩
  · have hn : n = if f.kind = 2 ∧ bit f.flags 2 = true then (queueOf u ix).segs else f.segCount := by simp [n, q, hk]
    rw [KeepsCounters.serveCombines _ hstall ix hix, hn]
    exact counterOf_returnTok hix u e
  · rw [serveCombines_none (by rw [getStall_congr (returnTok_stalls u f e)]; exact hnone)]
    by_cases hcut : bit f.flags 2 = true
    · obtain ⟨hback, hnoted, -⟩ := noteCut_notes
        { u with rte := { u.rte with cutBack := tput 0 u.rte.cutBack f.target (tget 0 u.rte.cutBack f.target + 1) } } ix e.w8
      have hrte : (returnTok f u (0, e)).rte = (cutNoted u f e).rte := by
        rw [returnTok_cut hk hcut]
        exact (raiseCounter_rises _ _ _).rte
      rw [if_pos hcut, hrte]
      exact ⟨(congrArg (tget 0 · f.target) hback).trans 
        (tget_tput_self 0 u.rte.cutBack f.target (tget 0 u.rte.cutBack f.target + 1)), hnoted⟩
    · rw [if_neg hcut]
      intro at_ b hpages a ha
      have hpages' : u.team.pages = [] := by rw [hu.team]; exact hpages
      have hread : readByte u a = readByte s a := congrArg (tget 0 · a) hu.mem
      rw [readByte_returnTok (fun hc => hcut hc.2) hpages' (eventsOff_of_keys (.same hu.reg) ha),
        readByte_putRow (by rw [hk]; rfl) hpages', hread]

theorem partialFramed (h : s.admits f 7) :
    let u := s.lifted f
    let ix := frameQueue f
    ∃ t, exec (.partialFrame f) s = .next t ∧ t.mode = s.mode ∧
      counterOf t ix = (if f.segCount = 0 then counterOf u ix else (counterOf u ix + f.segCount) % 2 ^ 32) ∧
      ((getStall u f.dstStall).combines = [] → s.team.pages = [] →
        ∀ a, s.eventsOff a → readByte t a = readByte (putRow u f (queueOf u ix) e.w8 0) a) := by
  intro u ix
  have hu := OnlyRoutes.lifted s f
  obtain ⟨-, hk, -⟩ := id h
  obtain ⟨hstall, hix⟩ := h.queue rfl
  have hrow : ¬ (f.kind = 2 ∧ bit f.flags 2 = true) := fun hc => by omega
  have hexec := (frameRow_atWork h hw (by decide) (by decide)).trans
    (congrArg _ (deliver_return htable hlast (hu.brandBad.trans hbrands) (.inr hk)))
  refine ⟨serveCombines (returnTok f u (0, e)) f.dstStall, hexec,
    (((Steady.refl noStall u).returnTok f (0, e)).serveCombines _).mode.trans hu.mode, ?_, fun hnone hpages a ha => ?_⟩
  · have hcount := counterOf_returnTok hix u e
    rw [if_neg hrow] at hcount
    rw [KeepsCounters.serveCombines _ hstall ix hix]
    exact hcount
  · rw [serveCombines_none (by rw [getStall_congr (returnTok_stalls u f e)]; exact hnone)]
    exact readByte_returnTok hrow (by rw [hu.team]; exact hpages) (eventsOff_of_keys (.same hu.reg) ha)

end

/-- Settles O46: a token that comes back raises its counter (`counterOf_returnTok`), which no waiting COMBINE moves
(`KeepsCounters.serveCombines`), and its row or its cut stands. -/
theorem tokenReturns : Obligations.TokenReturns :=
  ⟨fun _ _ _ h hw htable hlast hbrands => returnFramed hw htable hlast hbrands h,
    fun _ _ _ h hw htable hlast hbrands => partialFramed hw htable hlast hbrands h⟩

end Sys2Proof.Machine
end

section
/-! Two states that differ in one stall's program counter and in the stalls' own records: reads, writes and events act alike on
them (R152 to R155, R341, R419, R447, R450, R451). A COMBINE runs beside the program that has gone on (R285, R286). -/
namespace Sys2Proof.Machine
open Sys2Proof

/-- The state with other registers and other stalls. -/
def State.withRegs (s : State) (r : Tab Nat) (ss : Tab Stall) : State := { s with reg := r, stalls := ss }

/-- `t` is `s` but for the program counter of the stall `p` and the stalls' records. -/
structure SameButPc (p : Nat) (s t : State) : Prop where
  eq : t = s.withRegs t.reg t.stalls
  reg : ∀ f i, fkey f i ≠ fkey R.genStall_pc p → getF t f i = getF s f i

/-- What a field reads where another field of its key was set is the same whatever the register table. -/
theorem getF_setF_key (s t : State) {f g : Field} {u i : Nat} (v : Nat) (hk : fkey g i = fkey f u) :
    getF (setF s f u v) g i = getF (setF t f u v) g i := by
  have hread (m : Tab Nat) (x : Nat) : tget g.rst (tput f.rst m (fkey g i) x) (fkey g i) = if x = f.rst then g.rst else x := by
    unfold tput
    split
    · rw [tget, tget?_tdel, if_pos rfl]
      rfl
    · rw [tget_tset, if_pos rfl]
  simp only [getF, setF, ← hk, hread]

namespace SameButPc
variable {p : Nat} {s t : State}

/-- The program counter moved on, and a stall's record changed. -/
theorem jump (s : State) (p ix q : Nat) (f : Stall → Stall) : SameButPc p s (jump (modStall s q f) p ix) :=
  ⟨rfl, fun _ _ h => getF_setF_ne _ _ h⟩

theorem read (h : SameButPc p s t) {f : Field} (hf : f.lo % 64 ≠ 51) (i : Nat) : getF t f i = getF s f i :=
  h.reg f i (fkey_ne_of_lo hf i p)

/-- What reads neither registers nor stalls. -/
theorem unread {α : Type} (h : SameButPc p s t) {g : State → α} (hg : ∀ (u : State) r ss, g (u.withRegs r ss) = g u) :
    g t = g s := (congrArg g h.eq).trans (hg s _ _)

/-- A change that neither reads nor changes registers and stalls. -/
theorem alike (h : SameButPc p s t) {f : State → State}
    (hf : ∀ (u : State) r ss, f (u.withRegs r ss) = (f u).withRegs r ss) : SameButPc p (f s) (f t) := by
  have ht : f t = (f s).withRegs t.reg t.stalls := (congrArg f h.eq).trans (hf s _ _)
  have hs : (f s).reg = s.reg := (congrArg State.reg (hf s s.reg s.stalls) :)
  have htr : (f t).reg = t.reg := (congrArg State.reg ht :)
  have hts : (f t).stalls = t.stalls := (congrArg State.stalls ht :)
  refine ⟨by rw [htr, hts]; exact ht, fun g i hg => ?_⟩
  rw [getF_congr htr, getF_congr hs]
  exact h.reg g i hg

theorem mem (h : SameButPc p s t) : t.mem = s.mem := (congrArg State.mem h.eq :)
theorem now (h : SameButPc p s t) : t.now = s.now := (congrArg State.now h.eq :)
theorem mode (h : SameButPc p s t) : t.mode = s.mode := (congrArg State.mode h.eq :)
theorem board (h : SameButPc p s t) : t.board = s.board := (congrArg State.board h.eq :)
theorem team (h : SameButPc p s t) : t.team = s.team := (congrArg State.team h.eq :)
theorem prt (h : SameButPc p s t) : t.prt = s.prt := (congrArg State.prt h.eq :)
theorem upd (h : SameButPc p s t) : t.upd = s.upd := (congrArg State.upd h.eq :)
theorem bring (h : SameButPc p s t) : t.bring = s.bring := (congrArg State.bring h.eq :)
theorem brandBad (h : SameButPc p s t) : t.brandBad = s.brandBad := (congrArg State.brandBad h.eq :)
theorem job (h : SameButPc p s t) : t.job = s.job := (congrArg State.job h.eq :)

theorem readBytes (h : SameButPc p s t) (a n : Nat) : readBytes t a n = readBytes s a n :=
  h.unread (g := (Machine.readBytes · a n)) (fun _ _ _ => rfl)

theorem readNat (h : SameButPc p s t) (a n : Nat) : readNat t a n = readNat s a n := congrArg leNat (h.readBytes a n)

theorem ite {c : Prop} [Decidable c] {a b a' b' : State} (ha : SameButPc p a a') (hb : SameButPc p b b') :
    SameButPc p (if c then a else b) (if c then a' else b') := by
  split
  · exact ha
  · exact hb

theorem forEach {α : Type} {f : State → α → State} (hf : ∀ s t a, SameButPc p s t → SameButPc p (f s a) (f t a))
    (h : SameButPc p s t) (l : List α) : SameButPc p (forEach l f s) (forEach l f t) := by
  induction l generalizing s t with
  | nil => exact h
  | cons a l ih => exact ih (hf s t a h)

/-! ## Register fields -/

theorem setF (h : SameButPc p s t) (f : Field) (u v : Nat) : SameButPc p (setF s f u v) (setF t f u v) := by
  refine ⟨?_, fun g i hg => ?_⟩
  · exact (congrArg (fun x : State => x.withRegs (tput f.rst t.reg (fkey f u) (v % 2 ^ f.width)) x.stalls) h.eq :)
  · by_cases hk : fkey g i = fkey f u
    · exact getF_setF_key t s v hk
    · rw [getF_setF_ne t v hk, getF_setF_ne s v hk, h.reg g i hg]

theorem bumpF (h : SameButPc p s t) {f : Field} (hf : f.lo % 64 ≠ 51) (u n : Nat) :
    SameButPc p (bumpF s f u n) (bumpF t f u n) := by
  rw [Machine.bumpF, Machine.bumpF, h.read hf]
  exact h.setF f u _

theorem setFs (h : SameButPc p s t) (l : List (Field × Nat)) : SameButPc p (setFs s l) (setFs t l) :=
  forEach (f := fun s (x : Field × Nat) => Machine.setF s x.1 0 x.2) (fun _ _ x k => k.setF x.1 0 x.2) h l

/-! ## Writes (R417, R447, R450, R451) -/

theorem rawWrite (h : SameButPc p s t) (a : Nat) (b : Bytes) : SameButPc p (rawWrite s a b) (rawWrite t a b) :=
  h.alike (f := (Machine.rawWrite · a b)) (fun _ _ _ => rfl)

theorem quietCopy (h : SameButPc p s t) (src dst n : Nat) : SameButPc p (quietCopy s src dst n) (quietCopy t src dst n) :=
  h.alike (f := (Machine.quietCopy · src dst n)) (fun _ _ _ => rfl)

theorem quietWrite (h : SameButPc p s t) (a : Nat) (b : Bytes) : SameButPc p (quietWrite s a b) (quietWrite t a b) :=
  h.alike (f := (Machine.quietWrite · a b)) (fun _ _ _ => rfl)

theorem setPage (h : SameButPc p s t) (q : Page) : SameButPc p (setPage s q) (setPage t q) :=
  h.alike (f := (Machine.setPage · q)) (fun _ _ _ => rfl)

theorem sendTeam (h : SameButPc p s t) (port ftype step page group chunk : Nat) (payload : Bytes) :
    SameButPc p (sendTeam s port ftype step page group chunk payload) (sendTeam t port ftype step page group chunk payload) := by
  unfold Machine.sendTeam partnerIp ownIndex
  simp (disch := decide) only [h.read, h.prt, h.team]
  exact h.alike (f := (enqueue · _)) (fun _ _ _ => rfl)

theorem pagePort (h : SameButPc p s t) (page : Nat) : pagePort t page = pagePort s page := by
  unfold Machine.pagePort portUpFull
  simp (disch := decide) only [h.read]

theorem sendPage (h : SameButPc p s t) (src step group page : Nat) :
    SameButPc p (sendPage s src step group page) (sendPage t src step group page) := by
  refine forEach (fun u v k huv => ?_) h _
  rw [huv.pagePort, huv.readBytes]
  exact huv.sendTeam _ _ _ _ _ _ _

theorem secStep (h : SameButPc p s t) : secStep t = secStep s := h.unread (fun _ _ _ => rfl)

theorem streamPage (h : SameButPc p s t) (q : Page) : SameButPc p (streamPage s q) (streamPage t q) := by
  have hn : (t.team.groups.getD q.group []).length = (s.team.groups.getD q.group []).length := by rw [h.team]
  have hbase : homeBase t q.group = homeBase s q.group := by
    rw [homeBase, h.read (by decide), ← homeBase]
  have hslot (a : Nat) : olderSlot t a q.page = olderSlot s a q.page := by
    simp only [olderSlot, h.readNat]
  have hsrc : pageSource t q = pageSource s q := by
    unfold pageSource
    rw [h.read (by decide)]
  unfold Machine.streamPage
  rw [hn, hbase]
  extract_lets n base j src a b c d e j' src' a' b' c' d' e'
  have hj : j' = j := hslot base
  have hfrom : src' = src := hsrc
  have ha : SameButPc p a a' := by
    dsimp only [a, a']
    rw [hj, hfrom]
    exact h.quietCopy _ _ _
  have hb : SameButPc p b b' := ha.quietWrite _ _
  have hc : SameButPc p c c' := by
    dsimp only [c, c']
    rw [hb.secStep, hj]
    exact hb.quietWrite _ _
  have hd : SameButPc p d d' := hc.setF _ _ _
  have he : SameButPc p e e' := by
    have hformed : teamFormed d' = teamFormed d := by rw [teamFormed, hd.read (by decide), ← teamFormed]
    dsimp only [e, e', when]
    rw [hformed, hd.secStep, hfrom]
    exact ite (hd.sendPage _ _ _ _) hd
  rw [he.now]
  exact he.setPage _

theorem showBuf (h : SameButPc p s t) : SameButPc p (showBuf s) (showBuf t) := by
  have hused : bufUsed t = bufUsed s := h.unread (g := bufUsed) (fun _ _ _ => rfl)
  rw [Machine.showBuf, Machine.showBuf, hused]
  exact h.setF _ _ _

theorem protectPage (h : SameButPc p s t) (q : Page) : SameButPc p (protectPage s q) (protectPage t q) := by
  have hfree : bufFree t = bufFree s := h.unread (g := bufFree) (fun _ _ _ => rfl)
  unfold Machine.protectPage
  rw [hfree, h.read (by decide)]
  split
  · exact ((h.quietCopy _ _ _).setPage _).showBuf
  · exact h.streamPage q

theorem protect (h : SameButPc p s t) (a n : Nat) : SameButPc p (protect s a n) (protect t a n) := by
  unfold Machine.protect
  rw [h.team]
  exact forEach (fun _ _ q k => k.protectPage q) h _

theorem write (h : SameButPc p s t) (a : Nat) (b : Bytes) : SameButPc p (write s a b) (write t a b) :=
  (h.protect a b.length).rawWrite a b

/-! ## Events (R104, R152 to R155) -/

theorem ringEvent (h : SameButPc p s t) (r : EventRec) : SameButPc p (ringEvent s r) (ringEvent t r) := by
  unfold Machine.ringEvent evtSize
  simp (disch := decide) only [h.read]
  exact ite (h.bumpF (by decide) _ _) ((h.write _ _).setF _ _ _)

theorem logEvent (h : SameButPc p s t) (r : EventRec) : SameButPc p (logEvent s r) (logEvent t r) := by
  unfold Machine.logEvent
  rw [h.bring]
  exact ite (h.alike (f := fun u => { u with bring := _ }) (fun _ _ _ => rfl)) (h.bumpF (by decide) _ _)

theorem raise (h : SameButPc p s t) (code coord d0 d1 : Nat) :
    SameButPc p (raise s code coord d0 d1) (raise t code coord d0 d1) := by
  unfold Machine.raise
  rw [h.now, h.board, h.mode, h.read (by decide)]
  refine ite h ?_
  split
  · exact h
  · exact h
  · exact h.logEvent _
  · exact h.ringEvent _

/-! ## Reads (R341, R419) -/

theorem checkBrands (h : SameButPc p s t) (reader coord a n : Nat) :
    SameButPc p (checkBrands s reader coord a n).1 (checkBrands t reader coord a n).1 ∧
      (checkBrands t reader coord a n).2 = (checkBrands s reader coord a n).2 := by
  have hbad : badLines t a n = badLines s a n := congrArg (List.filter _) h.brandBad
  have hon : onF t R.brdCtl_brandEn = onF s R.brdCtl_brandEn := by rw [onF, h.read (by decide), ← onF]
  unfold Machine.checkBrands
  rw [hbad, hon]
  split
  · exact ⟨h, rfl⟩
  · refine ⟨forEach (fun u v x k => ?_) h _, rfl⟩
    have hdrop : SameButPc p { u with brandBad := u.brandBad.filter (fun q => q.1 != x.1) }
        { v with brandBad := v.brandBad.filter (fun q => q.1 != x.1) } :=
      k.alike (f := fun w => { w with brandBad := w.brandBad.filter (fun q => q.1 != x.1) }) (fun _ _ _ => rfl)
    exact ite (((k.setFs _).bumpF (by decide) _ _).raise _ _ _ _) ((hdrop.bumpF (by decide) _ _).raise _ _ _ _)

theorem noteCorrected (h : SameButPc p s t) (l : Nat) : SameButPc p (noteCorrected s l) (noteCorrected t l) := by
  unfold Machine.noteCorrected
  extract_lets c a due _ a' due' _
  have ha : SameButPc p a a' := h.bumpF (by decide) _ _
  have hnoted := ha.alike (f := fun u => { u with upd := { u.upd with lastCorr := tset u.upd.lastCorr c u.now } })
    (fun _ _ _ => rfl)
  have hdue : due' = due := by
    dsimp only [due, due']
    rw [ha.upd, ha.now]
  rw [hdue, ha.read (by decide)]
  exact ite (hnoted.raise _ _ _ _) ha

theorem noteUncorrectable (h : SameButPc p s t) (l : Nat) : SameButPc p (noteUncorrectable s l) (noteUncorrectable t l) := by
  unfold Machine.noteUncorrectable
  exact ((h.bumpF (by decide) _ _).setFs _).raise _ _ _ _

theorem loftRead (h : SameButPc p s t) (a n : Nat) :
    SameButPc p (loftRead s a n).1 (loftRead t a n).1 ∧ (loftRead t a n).2 = (loftRead s a n).2 := by
  unfold Machine.loftRead poisoned
  rw [h.upd]
  exact ⟨forEach (fun _ _ l k => k.noteUncorrectable l) (forEach (fun _ _ l k => k.noteCorrected l) h _) _, rfl⟩

theorem geRead (h : SameButPc p s t) (q a n : Nat) :
    SameButPc p (geRead s q a n).1 (geRead t q a n).1 ∧ (geRead t q a n).2 = (geRead s q a n).2 := by
  obtain ⟨hc, hcok⟩ := h.checkBrands 4 (cStall q) a n
  obtain ⟨hl, hlok⟩ := hc.loftRead a n
  exact ⟨hl, by rw [Machine.geRead, Machine.geRead, hcok, hlok]⟩

theorem geReads (h : SameButPc p s t) (q : Nat) (l : List (Nat × Nat)) :
    SameButPc p (geReads s q l).1 (geReads t q l).1 ∧ (geReads t q l).2 = (geReads s q l).2 := by
  unfold Machine.geReads
  generalize true = ok
  induction l generalizing s t ok with
  | nil => exact ⟨h, rfl⟩
  | cons x l ih =>
    obtain ⟨hr, hok⟩ := h.geRead q x.1 x.2
    rw [List.foldl_cons, List.foldl_cons]
    dsimp only
    rw [hok]
    exact ih hr _

/-! ## The rows of a COMBINE (R327, R331) -/

theorem keepMerges (h : SameButPc p s t) (q : Nat) (d : CombDesc) (l : RouteList) :
    SameButPc p (keepMerges s q d l) (keepMerges t q d l) := by
  refine h.alike (f := (Machine.keepMerges · q d l)) (fun u r ss => ?_)
  dsimp only [Machine.keepMerges]
  split
  · rfl
  · rfl

theorem queueOf (h : SameButPc p s t) (ix : Nat) : queueOf t ix = queueOf s ix :=
  h.unread (g := (Machine.queueOf · ix)) (fun _ _ _ => rfl)

theorem tokenEntries (h : SameButPc p s t) (q : Nat) (l : RouteList) (i : Nat) : tokenEntries t q l i = tokenEntries s q l i := by
  simp only [Machine.tokenEntries, readEntry, h.readBytes]

theorem choiceRows (h : SameButPc p s t) (q : Nat) (d : CombDesc) (l : RouteList) (i : Nat) :
    choiceRows t q d l i = choiceRows s q d l i := by
  simp only [Machine.choiceRows, h.tokenEntries]

theorem blockRowsOf (h : SameButPc p s t) (q : Nat) (d : CombDesc) (l : RouteList) (i : Nat) :
    blockRowsOf t q d l i = blockRowsOf s q d l i := by
  simp only [Machine.blockRowsOf, h.tokenEntries]

theorem returnedRow (h : SameButPc p s t) (q : Queue) (tr slot : Nat) : returnedRow t q tr slot = returnedRow s q tr slot := by
  simp only [Machine.returnedRow, h.readBytes]

theorem rowTrailer (h : SameButPc p s t) (q : Queue) (slot : Nat) : rowTrailer t q slot = rowTrailer s q slot := by
  simp only [Machine.rowTrailer, h.readNat]

theorem mergedRow (h : SameButPc p s t) (q : Nat) (d : CombDesc) (l : RouteList) (i : Nat) :
    mergedRow t q d l i = mergedRow s q d l i := by
  have hrow : Machine.returnedRow t = Machine.returnedRow s := by
    funext x y z
    exact h.returnedRow x y z
  simp only [Machine.mergedRow, h.queueOf, h.blockRowsOf, h.rowTrailer, hrow]

theorem combRow (h : SameButPc p s t) (q : Nat) (d : CombDesc) (l : RouteList) (i : Nat) :
    combRow t q d l i = combRow s q d l i := by
  have hrow : Machine.returnedRow t = Machine.returnedRow s := by
    funext x y z
    exact h.returnedRow x y z
  have hfree : mergeOut t = mergeOut s := by
    funext n x
    cases x with
    | none => exact h.unread (g := fun u => mergeOut u n none) (fun _ _ _ => rfl)
    | some x => rfl
  simp only [Machine.combRow, h.queueOf, h.choiceRows, h.blockRowsOf, h.mergedRow, h.readBytes, hrow, hfree]

theorem combBad (h : SameButPc p s t) (q : Nat) (d : CombDesc) (l : RouteList) : combBad t q d l = combBad s q d l := by
  simp only [Machine.combBad, h.combRow]

theorem combSpans (h : SameButPc p s t) (q : Nat) (d : CombDesc) (l : RouteList) : combSpans t q d l = combSpans s q d l := by
  simp only [Machine.combSpans, h.queueOf, h.choiceRows, h.blockRowsOf]

theorem expectedSegs (h : SameButPc p s t) (q : Nat) (d : CombDesc) (l : RouteList) :
    expectedSegs t q d l = expectedSegs s q d l := by
  simp only [Machine.expectedSegs, h.tokenEntries]

theorem combWrite (h : SameButPc p s t) (q : Nat) (d : CombDesc) (l : RouteList) :
    SameButPc p (combWrite s q d l) (combWrite t q d l) := by
  unfold Machine.combWrite
  simp only [h.combRow]
  exact forEach (f := fun u (x : Nat × List F32) => Machine.write u (d.out + wideRow d * x.1) (f32Bytes x.2))
    (fun _ _ _ k => k.write _ _) (h.keepMerges q d l) _

end SameButPc

end Sys2Proof.Machine
end

section
/-! The statement on ROUTE, DISPATCH, COMBINE and WAKE (R309 to R316, R325 to R332). -/
namespace Sys2Proof.Machine
open Sys2Proof

/-! ## What leaves the program counter, and what leaves the stalls (R286, R341) -/

namespace KeepsPc
variable {p : Nat} {s : State}

theorem seatToken (s : State) (q l e : Nat) : KeepsPc p s (seatToken s q l e).1 := by
  have hseat (a : Tab Nat) : KeepsPc p s { s with rte := { s.rte with admitted := a } } := same
  exact (hseat _).trans (bumpF (by decide) _ _ _)

theorem useSpare (s : State) (q l k r stands : Nat) (gate : F32) (es : List RouteEntry) :
    KeepsPc p s (useSpare s q l k r stands gate es).1 := by
  unfold Machine.useSpare
  split
  · split
    · exact (seatToken s q l _).trans (bumpF (by decide) _ _ _)
    · exact refl s
  · split
    · exact bumpF (by decide) s _ _
    · exact refl s

theorem admitToken (q l k : Nat) (rs : List Nat) (s : State) (es : List RouteEntry) :
    KeepsPc p s (admitToken q l k rs (s, es)).1 := by
  induction rs generalizing s es with
  | nil => exact refl s
  | cons r rs ih =>
    unfold Machine.admitToken
    split
    · exact refl s
    · dsimp only
      split
      · exact ih _ _
      · split
        · exact (seatToken s q l _).trans (ih _ _)
        · exact (useSpare s q l k r _ _ es).trans (ih _ _)

theorem routeToken (q : Nat) (d : RouteDesc) (s : State) (t : Nat) : KeepsPc p s (routeToken q d s t) :=
  (admitToken q d.layer d.k _ s _).trans (write _ _ _)

theorem routeBlock (q : Nat) (d : RouteDesc) (a : AttnRec) (s : State) (t : Nat) : KeepsPc p s (routeBlock q d a s t) :=
  write s _ _

theorem noteChoices {z : State} (h : KeepsPc p z s) (s0 : State) (l : Nat) : KeepsPc p z (noteChoices s0 s l) := by
  unfold Machine.noteChoices
  extract_lets t
  have ht : KeepsPc p z t := ite (h.trans (raiseOnce _ _ _ _ _ _)) h
  exact ite (ht.trans (raiseOnce _ _ _ _ _ _)) ht

theorem sendAll (s : State) (q : Nat) (d : SendDesc) (toks : List SendTok) : KeepsPc p s (sendAll s q d toks) := by
  have hgroup (t : State) (g : List SendTok) (x : Nat × Nat) : KeepsPc p t (sendGroup q d g t x) := by
    unfold Machine.sendGroup
    split
    · exact refl t
    · exact (KeepsTime.emit t _ _).toKeepsPc
  exact forEach (fun t g => forEach (fun u x => hgroup u g x) _ t) _ s

theorem loftRead (s : State) (a n : Nat) : KeepsPc p s (loftRead s a n).1 := by
  have hcorrected (t : State) (l : Nat) : KeepsPc p t (noteCorrected t l) := by
    unfold noteCorrected
    extract_lets c u due
    have hu : KeepsPc p t u := bumpF (by decide) t _ _
    exact ite ((hu.trans same).trans (raise _ _ _ _ _)) hu
  have hbad (t : State) (l : Nat) : KeepsPc p t (noteUncorrectable t l) :=
    ((bumpF (by decide) t _ _).trans (setFs (by simp only [List.map_cons, List.map_nil]; decide) _)).trans (raise _ _ _ _ _)
  exact (forEach hcorrected _ s).trans (forEach hbad _ _)

theorem geReads (s : State) (q : Nat) (l : List (Nat × Nat)) : KeepsPc p s (geReads s q l).1 :=
  List.foldlRecOn l _ (motive := fun x : State × Bool => KeepsPc p s x.1) (refl s)
    (fun _ hx _ _ => (hx.trans (checkBrands _ _ _ _ _)).trans (loftRead _ _ _))

theorem combWrite (s : State) (q : Nat) (d : CombDesc) (l : RouteList) : KeepsPc p s (combWrite s q d l) := by
  have hkept : KeepsPc p s (keepMerges s q d l) := ite (refl s) same
  exact hkept.trans (forEach (fun t (x : Nat × List F32) => write t _ _) _ _)

theorem requestWake (s : State) (q : Nat) (src : WakeSrc) (die : Bool) : KeepsPc p s (requestWake s q src die) := by
  unfold Machine.requestWake
  extract_lets t u
  have hlinger : KeepsPc p s (renewLinger s q) := modStall s q _
  have hu : KeepsPc p s u := ite hlinger (refl s)
  exact ite (refl s) (ite (ite hlinger (refl s)) (ite hu (hu.trans same)))

theorem wakeHome (s : State) (e : Nat) : KeepsPc p s (wakeHome s e) := by
  unfold Machine.wakeHome
  split
  · exact forEach (fun t q => requestWake t q .ahead false) _ s
  · exact refl s

theorem wakeTarget (q pass l : Nat) (s : State) (x : Bool × Nat) : KeepsPc p s (wakeTarget q pass l s x) := by
  have hemit (f : TokFrame) : KeepsPc p s (emit s q f) := (KeepsTime.emit s q f).toKeepsPc
  unfold Machine.wakeTarget
  split
  · split
    · exact refl s
    · exact ite (requestWake s _ _ _) (hemit _)
  · split
    · exact refl s
    · exact ite (wakeHome s _) (hemit _)

end KeepsPc

namespace KeepsStalls

theorem checkBrands (s : State) (reader coord a n : Nat) : KeepsStalls s (checkBrands s reader coord a n).1 := by
  unfold Machine.checkBrands
  split
  · exact refl s
  · refine forEach (fun t x => ?_) _ s
    have hdrop : KeepsStalls t { t with brandBad := t.brandBad.filter (fun q => q.1 != x.1) } := same
    exact ite (((setFs t _).trans (bumpF _ _ _ _)).trans (raise _ _ _ _ _))
      ((hdrop.trans (bumpF _ _ _ _)).trans (raise _ _ _ _ _))

theorem geReads (s : State) (q : Nat) (l : List (Nat × Nat)) : KeepsStalls s (geReads s q l).1 :=
  List.foldlRecOn l _ (motive := fun x : State × Bool => KeepsStalls s x.1) (refl s)
    (fun _ hx _ _ => (hx.trans (checkBrands _ _ _ _ _)).trans (noteRead_stalls _ _ _))

theorem combWrite (s : State) (q : Nat) (d : CombDesc) (l : RouteList) : KeepsStalls s (combWrite s q d l) := by
  have hkept : KeepsStalls s (keepMerges s q d l) := ite (refl s) same
  exact hkept.trans (forEach (fun t (x : Nat × List F32) => write t _ _) _ _)

end KeepsStalls

/-! ## Descriptors (R309, R325, R327, R332, R417) -/

/-- A sound descriptor in the stall's store is read as it stands there. -/
theorem withDesc_runs {s : State} {p w : Nat} (hbrand : s.brandBad = []) (halign : preg s p (bits w 55 52) % 2 ^ 23 % 64 = 0)
    (hin : inStore (preg s p (bits w 55 52) % 2 ^ 23) 64 = true) (run : State → Bytes → State) :
    withDesc (s.ended p) p w run =
      run (s.ended p) (readBytes s (storeBase p + preg s p (bits w 55 52) % 2 ^ 23) 64) := by
  unfold withDesc
  dsimp only
  rw [preg_ended, storeRead_sound (s := s.ended p) hbrand, if_neg (by rw [halign, hin]; decide)]
  rfl

/-! ## ROUTE (R309 to R313) -/

/-- A ROUTE whose lines are checked and hold finite numbers notes its list and goes on. -/
theorem routeGo_notes {s : State} {p w : Nat} {d : RouteDesc} (hscore : badScore s p d = none)
    (hgate : d.kind = 0 → badGate s p d = none)
    (hblocks : d.kind ≠ 0 → blockPastEnd s p d = none ∧ ∃ a, attnOf s d.layer = some a ∧ tooMany s p d a = none) :
    ∃ z, KeepsPc p s z ∧ routeGo p w d s = advance (noteList z p d) p := by
  unfold routeGo
  rw [hscore]
  by_cases hkind : d.kind = 0
  · rw [if_pos hkind, hgate hkind]
    exact ⟨_, (KeepsPc.forEach (.routeToken p d) _ s).noteChoices s d.layer, rfl⟩
  · obtain ⟨hpast, a, ha, hmany⟩ := hblocks hkind
    rw [if_neg hkind, ha, hpast]
    dsimp only
    rw [hmany]
    exact ⟨_, .forEach (.routeBlock p d a) _ s, rfl⟩

theorem route_notes {s : State} {p w : Nat} (h : s.issues p 0x50 w) (hbrand : s.brandBad = []) :
    let off := preg s p (bits w 55 52) % 2 ^ 23
    let u := s.ended p
    let b := readBytes s (storeBase p + off) 64
    let d := parseRoute b
    off % 64 = 0 → inStore off 64 = true → routeFault u p b d = none → badScore u p d = none →
    (d.kind = 0 → badGate u p d = none) →
    (d.kind ≠ 0 → blockPastEnd u p d = none ∧ ∃ a, attnOf u d.layer = some a ∧ tooMany u p d a = none) →
    ∃ t, exec (.route p) s = .next t ∧ s.goesOn t p ∧
      t.rte.lists.head? = some ⟨p, d.layer, d.out, d.kind, d.k, d.spill, d.n⟩ := by
  intro off u b d halign hin hfault hscore hgate hblocks
  obtain ⟨z, hz, hgo⟩ := routeGo_notes (w := w) hscore hgate hblocks
  have hrun : runRoute p u w = routeGo p w d u := by
    unfold runRoute
    rw [withDesc_runs hbrand halign hin]
    dsimp only
    rw [hfault, faultOr, checkBrands_sound (s := u) hbrand, partsChecked_sound (s := u) hbrand]
    exact if_neg Bool.false_ne_true
  have hexec : exec (.route p) s = .next (advance (noteList z p d) p) :=
    (issue_runs h (by decide) (runRoute p)).trans (congrArg _ (hrun.trans hgo))
  exact ⟨_, hexec, (((KeepsPc.ended s p).trans hz).trans .same).goesOn, rfl⟩

end Sys2Proof.Machine
end

section
/-! The statement on ROUTE, DISPATCH, COMBINE and WAKE, second part: frames, rows and wakes (R309, R311, R325 to R332). -/
namespace Sys2Proof.Machine
open Sys2Proof

/-! ## DISPATCH (R321, R325) -/

/-- A DISPATCH of expert tokens in the forward pass keeps its descriptor, for the choices that replace cut ones (R316). -/
def noteSent (s : State) (p : Nat) (d : SendDesc) (b : Bytes) : State :=
  if d.kind = 1 ∧ d.pass = 0 then
    { s with rte := { s.rte with sent := (p, d.list, b) :: s.rte.sent.filter (fun x => !(x.1 == p && x.2.1 == d.list)) } }
  else s

theorem noteSent_keeps (s : State) (p : Nat) (d : SendDesc) (b : Bytes) : KeepsPc p s (noteSent s p d b) ∧
    (noteSent s p d b).stalls = s.stalls ∧ (noteSent s p d b).prt = s.prt ∧
    (d.kind = 1 → d.pass = 0 → (noteSent s p d b).rte.sent.head? = some (p, d.list, b)) := by
  unfold noteSent
  split
  · exact ⟨.same, rfl, rfl, fun _ _ => rfl⟩
  · next h => exact ⟨.refl s, rfl, rfl, fun hkind hpass => absurd ⟨hkind, hpass⟩ h⟩

section sound
variable {s : State} {p w : Nat} {b : Bytes} {d : SendDesc} (hbrand : s.brandBad = [])
  (halign : preg s p (bits w 55 52) % 2 ^ 23 % 64 = 0) (hin : inStore (preg s p (bits w 55 52) % 2 ^ 23) 64 = true)
  (hb : b = readBytes s (storeBase p + preg s p (bits w 55 52) % 2 ^ 23) 64) (hd : d = parseSend b)
  (hfault : sendFault (s.ended p) p b d = none)
include hbrand halign hin hb hd hfault

/-- A DISPATCH of kind 3 closes the layer. -/
theorem runDispatch_closes (hkind : d.kind = 3) :
    runDispatch p (s.ended p) w = advance (closeLayer (s.ended p) p d.pass d.layer) p := by
  have hdesc : runDispatch p (s.ended p) w = _ := withDesc_runs hbrand halign hin _
  dsimp only at hdesc
  rw [← hb, ← hd, hfault, faultOr, if_pos hkind] at hdesc
  exact hdesc

/-- A DISPATCH whose rows can be read sends its frames. -/
theorem runDispatch_sends {v : State} (hkind : d.kind ≠ 3)
    (hreach : (rowSpans d (sendToks (s.ended p) p d)).findSome? (fun x => geFault (s.ended p) x.1 x.2) = none)
    (hlink : (rowSpans d (sendToks (s.ended p) p d)).any (fun x => linkHeld (s.ended p) x.1 x.2) = false)
    (hread : (geReads (s.ended p) p (rowSpans d (sendToks (s.ended p) p d))).2 = true)
    (hv : v = sendAll (geReads (s.ended p) p (rowSpans d (sendToks (s.ended p) p d))).1 p d (sendToks (s.ended p) p d))
    (hgoes : (getStall v p).stop = false) : runDispatch p (s.ended p) w = advance (noteSent v p d b) p := by
  have hstop : (getStall (noteSent v p d b) p).stop = false := by
    obtain ⟨-, hstalls, -⟩ := noteSent_keeps v p d b
    rw [getStall_congr hstalls]
    exact hgoes
  have hdesc : runDispatch p (s.ended p) w = _ := withDesc_runs hbrand halign hin _
  dsimp only at hdesc
  rw [← hb, ← hd, hfault, faultOr, if_neg hkind, hreach, hlink, hread, ← hv] at hdesc
  dsimp only at hdesc
  rw [if_neg Bool.false_ne_true, Bool.not_true, if_neg Bool.false_ne_true] at hdesc
  exact hdesc.trans (if_neg (c := (getStall (noteSent v p d b) p).stop = true) (by rw [hstop]; decide))

end sound

theorem dispatch_sends {s : State} {p w : Nat} (h : s.issues p 0x51 w) (hbrand : s.brandBad = []) :
    let off := preg s p (bits w 55 52) % 2 ^ 23
    let u := s.ended p
    let b := readBytes s (storeBase p + off) 64
    let d := parseSend b
    let l := rowSpans d (sendToks u p d)
    let v := if d.kind = 3 then closeLayer u p d.pass d.layer else sendAll (geReads u p l).1 p d (sendToks u p d)
    off % 64 = 0 → inStore off 64 = true → sendFault u p b d = none →
    (d.kind ≠ 3 → l.findSome? (fun x => geFault u x.1 x.2) = none ∧ l.any (fun x => linkHeld u x.1 x.2) = false ∧
      (geReads u p l).2 = true ∧ (getStall v p).stop = false) →
    ∃ t, exec (.dispatch p) s = .next t ∧ s.goesOn t p ∧ t.prt.queue = v.prt.queue ∧
      (d.kind = 1 → d.pass = 0 → t.rte.sent.head? = some (p, d.list, b)) := by
  intro off u b d l v halign hin hfault hrows
  have hexec {z : State} (hrun : runDispatch p u w = advance z p) : exec (.dispatch p) s = .next (advance z p) :=
    (issue_runs h (by decide) (runDispatch p)).trans (congrArg _ hrun)
  have hended : KeepsPc p s u := .ended s p
  by_cases hkind : d.kind = 3
  · have hv : v = closeLayer u p d.pass d.layer := if_pos hkind
    rw [hv]
    exact ⟨_, hexec (runDispatch_closes hbrand halign hin rfl rfl hfault hkind),
      (hended.trans (KeepsTime.closeLayer u p d.pass d.layer).toKeepsPc).goesOn, rfl,
      fun hexpert => absurd (hexpert.symm.trans hkind) (by decide)⟩
  · obtain ⟨hreach, hlink, hread, hgoes⟩ := hrows hkind
    have hv : v = sendAll (geReads u p l).1 p d (sendToks u p d) := if_neg hkind
    have hsend : KeepsPc p s v := by
      rw [hv]
      exact (hended.trans (.geReads u p l)).trans (.sendAll _ _ _ _)
    obtain ⟨hpc, -, hprt, hsent⟩ := noteSent_keeps v p d b
    exact ⟨_, hexec (runDispatch_sends hbrand halign hin rfl rfl hfault hkind hreach hlink hread hv hgoes),
      (hsend.trans hpc).goesOn, congrArg Prt.queue hprt, hsent⟩

/-! ## COMBINE (R316, R327, R331) -/

/-- The COMBINE that the instruction at hand starts. -/
def combOf (s : State) (p w : Nat) (b : Bytes) : PendComb :=
  { ins := insAt s p, word := w, desc := b, since := s.now, alarmed := false }

/-- The program goes on with a COMBINE beside it (R285, R286). -/
def combBeside (s : State) (p : Nat) (c : PendComb) : State :=
  advance (modStall s p (fun t => { t with combines := t.combines ++ [c] })) p

/-- A sound COMBINE waits beside the program. -/
theorem runCombine_waits {s : State} {p w : Nat} (b : Bytes) (hbrand : s.brandBad = [])
    (halign : preg s p (bits w 55 52) % 2 ^ 23 % 64 = 0) (hin : inStore (preg s p (bits w 55 52) % 2 ^ 23) 64 = true)
    (hb : b = readBytes s (storeBase p + preg s p (bits w 55 52) % 2 ^ 23) 64)
    (hfault : combFault (s.ended p) p b (parseComb b) = none) :
    runCombine p (s.ended p) w = serveCombine p (combBeside (s.ended p) p (combOf s p w b)) (combOf s p w b) := by
  have hdesc : runCombine p (s.ended p) w = _ := withDesc_runs hbrand halign hin _
  dsimp only at hdesc
  rw [← hb, hfault] at hdesc
  exact hdesc

theorem combBeside_alike (s : State) (p : Nat) (c : PendComb) : SameButPc p s (combBeside s p c) := .jump s p _ p _

theorem combBeside_stall (s : State) (p : Nat) (c : PendComb) :
    getStall (combBeside (s.ended p) p c) p =
      { getStall (s.ended p) p with combines := (getStall s p).combines ++ [c] } := by
  rw [combBeside, advance, jump, getStall_setF, getStall_modStall, getStall_ended]

theorem combBeside_goesOn (s : State) (p : Nat) (c : PendComb) : s.goesOn (combBeside (s.ended p) p c) p :=
  ((KeepsPc.ended s p).trans (.modStall _ p _)).goesOn

/-- A COMBINE whose segments are not all in waits. -/
theorem serveCombine_waits {s : State} {p : Nat} {c : PendComb} {d : CombDesc} (hd : parseComb c.desc = d)
    (hwait : counterOf s (queueIx p d.queue) < expectedSegs s p d (combList p d)) : serveCombine p s c = s := by
  unfold serveCombine
  dsimp only
  rw [hd]
  exact if_pos (.inr (.inl hwait))

theorem counterOf_alike {s t : State} {p : Nat} (h : SameButPc p s t) (ix : Nat) : counterOf t ix = counterOf s ix :=
  h.read (by decide) ix

theorem combine_waits {s : State} {p w : Nat} (h : s.issues p 0x52 w) (hbrand : s.brandBad = []) :
    let off := preg s p (bits w 55 52) % 2 ^ 23
    let b := readBytes s (storeBase p + off) 64
    let d := parseComb b
    let c : PendComb := ⟨insAt s p, w, b, s.now, false⟩
    off % 64 = 0 → inStore off 64 = true → combFault (s.ended p) p b d = none →
    counterOf s (queueIx p d.queue) < expectedSegs (s.ended p) p d (combList p d) →
    ∃ t, exec (.combine p) s = .next t ∧ s.goesOn t p ∧ (getStall t p).combines = (getStall s p).combines ++ [c] ∧
      t.mem = s.mem := by
  intro off b d c halign hin hfault hwait
  have halike : SameButPc p (s.ended p) (combBeside (s.ended p) p c) := combBeside_alike _ p c
  have hserve : serveCombine p (combBeside (s.ended p) p c) c = combBeside (s.ended p) p c := by
    refine serveCombine_waits rfl ?_
    rw [counterOf_alike halike, halike.expectedSegs]
    exact hwait
  have hrun : runCombine p (s.ended p) w = combBeside (s.ended p) p c :=
    (runCombine_waits b hbrand halign hin rfl hfault).trans hserve
  refine ⟨_, (issue_runs h (by decide) (runCombine p)).trans (congrArg _ hrun), combBeside_goesOn s p c, ?_, halike.mem⟩
  rw [combBeside_stall]

/-- No choice to send again leaves the state as it is. -/
theorem resend_nil (s : State) (p : Nat) (l : RouteList) : resend s p l [] = s := by
  unfold resend
  split
  · rfl
  · rfl

theorem noteChoices_self (s : State) (l : Nat) : noteChoices s s l = s := by
  unfold noteChoices
  simp only [lt_irrefl, if_false]

/-- A COMBINE whose segments are in, with no cut choice left, forms its rows and is done. -/
theorem serveCombine_forms {s : State} {p : Nat} {c : PendComb} {d : CombDesc} (hd : parseComb c.desc = d)
    (hstop : (getStall s p).stop = false) (hin : expectedSegs s p d (combList p d) ≤ counterOf s (queueIx p d.queue))
    (hlink : linkHeld s d.resid (wideRow d * d.n) = false)
    (hcuts : d.kind < 2 → freshCuts s (queueIx p d.queue) (combList p d) = []) :
    serveCombine p s c = dropComb (runCombined p c d s) p c := by
  have hnone : (if d.kind < 2 then freshCuts s (queueIx p d.queue) (combList p d) else []) = [] := by
    split
    · next h => exact hcuts h
    · rfl
  unfold serveCombine
  dsimp only
  rw [hd, hnone, List.foldl_nil, resend_nil, noteChoices_self, if_neg, List.isEmpty_nil, if_pos rfl]
  rw [hstop, hlink]
  simpa using hin

/-- The rows of a COMBINE whose values are all sound. -/
theorem runCombined_forms {s : State} {p : Nat} {c : PendComb} {d : CombDesc}
    (hread : (geReads s p (combSpans s p d (combList p d))).2 = true)
    (hsound : combBad (geReads s p (combSpans s p d (combList p d))).1 p d (combList p d) = none) :
    ∃ n, runCombined p c d s =
      { combWrite (geReads s p (combSpans s p d (combList p d))).1 p d (combList p d) with draws := n } := by
  unfold runCombined
  dsimp only
  rw [hread, hsound]
  exact ⟨_, if_neg Bool.false_ne_true⟩

theorem issues_stop {s : State} {p op w : Nat} (h : s.issues p op w) : (getStall s p).stop = false := by
  obtain ⟨-, -, hcan, -⟩ := h
  unfold canIssue at hcan
  simp only [Bool.and_eq_true, Bool.not_eq_true'] at hcan
  obtain ⟨⟨⟨-, hstop⟩, -⟩, -⟩ := hcan
  exact hstop

theorem combine_forms {s : State} {p w : Nat} (h : s.issues p 0x52 w) (hbrand : s.brandBad = []) :
    let off := preg s p (bits w 55 52) % 2 ^ 23
    let u := s.ended p
    let b := readBytes s (storeBase p + off) 64
    let d := parseComb b
    let l := combList p d
    let c : PendComb := ⟨insAt s p, w, b, s.now, false⟩
    off % 64 = 0 → inStore off 64 = true → combFault u p b d = none →
    expectedSegs u p d l ≤ counterOf u (queueIx p d.queue) → linkHeld u d.resid (wideRow d * d.n) = false →
    (d.kind < 2 → freshCuts u (queueIx p d.queue) l = []) → (geReads u p (combSpans u p d l)).2 = true →
    combBad (geReads u p (combSpans u p d l)).1 p d l = none →
    ∃ t, exec (.combine p) s = .next t ∧ s.goesOn t p ∧ (getStall t p).combines = ((getStall s p).combines ++ [c]).erase c ∧
      t.mem = (combWrite (geReads u p (combSpans u p d l)).1 p d l).mem := by
  intro off u b d l c halign hin hfault hsegs hlink hcuts hread hsound
  have halike : SameButPc p u (combBeside u p c) := combBeside_alike u p c
  have hstall := combBeside_stall s p c
  have hgoes := combBeside_goesOn s p c
  have hbeside : runCombine p u w = serveCombine p (combBeside u p c) c := runCombine_waits b hbrand halign hin rfl hfault
  generalize combBeside u p c = v at halike hstall hgoes hbeside
  have hstop : (getStall v p).stop = false := by
    rw [hstall, getStall_ended]
    exact issues_stop h
  have hserve : serveCombine p v c = dropComb (runCombined p c d v) p c := by
    refine serveCombine_forms rfl hstop ?_ ?_ (fun hkind => ?_)
    · rw [halike.expectedSegs, counterOf_alike halike]
      exact hsegs
    · exact (halike.unread (g := (linkHeld · d.resid (wideRow d * d.n))) (fun _ _ _ => rfl)).trans hlink
    · exact (halike.unread (g := (freshCuts · (queueIx p d.queue) l)) (fun _ _ _ => rfl)).trans (hcuts hkind)
  have hspans : combSpans v p d l = combSpans u p d l := halike.combSpans p d l
  obtain ⟨hreads, hok⟩ := halike.geReads p (combSpans u p d l)
  obtain ⟨n, hformed⟩ := runCombined_forms (s := v) (p := p) (c := c) (d := d) (by rw [hspans, hok]; exact hread)
    (by rw [hspans, hreads.combBad]; exact hsound)
  rw [hspans] at hformed
  have hpc : KeepsPc p v (combWrite (geReads v p (combSpans u p d l)).1 p d l) :=
    (KeepsPc.geReads v p _).trans (.combWrite _ p d l)
  have hstalls : KeepsStalls v (combWrite (geReads v p (combSpans u p d l)).1 p d l) :=
    (KeepsStalls.geReads v p _).trans (.combWrite _ p d l)
  have hmem := (hreads.combWrite p d l).mem
  generalize combWrite (geReads v p (combSpans u p d l)).1 p d l = r at hformed hpc hstalls hmem
  have hrun : runCombine p u w = dropComb { r with draws := n } p c :=
    (hbeside.trans hserve).trans (congrArg (dropComb · p c) hformed)
  refine ⟨_, (issue_runs h (by decide) (runCombine p)).trans (congrArg _ hrun), ⟨hpc.pc.trans hgoes.1, hpc.mode.trans hgoes.2⟩,
    ?_, hmem⟩
  have hdrop : (getStall (dropComb { r with draws := n } p c) p).combines = (getStall r p).combines.erase c := by
    rw [dropComb, getStall_modStall]
    rfl
  rw [hdrop, hstalls.getStall, hstall]

/-! ## WAKE (R332) -/

theorem wake_asks {s : State} {p w : Nat} (h : s.issues p 0x53 w) (hbrand : s.brandBad = []) :
    let off := preg s p (bits w 55 52) % 2 ^ 23
    let u := s.ended p
    let b := readBytes s (storeBase p + off) 64
    let v := (wakeTargets u p b).foldl (wakeTarget p (fieldAt b 1 1) (fieldAt b 2 2)) u
    off % 64 = 0 → inStore off 64 = true → wakeFault u p b = none →
    ∃ t, exec (.wake p) s = .next t ∧ s.goesOn t p ∧ t.gov.waitq = v.gov.waitq ∧ t.prt.queue = v.prt.queue := by
  intro off u b v halign hin hfault
  have hdesc : runWake p u w = _ := withDesc_runs hbrand halign hin _
  rw [hfault, faultOr] at hdesc
  have hrun : runWake p u w = advance v p := hdesc
  have hwoken : KeepsPc p u v := .forEach (.wakeTarget p _ _) (wakeTargets u p b) u
  exact ⟨_, (issue_runs h (by decide) (runWake p)).trans (congrArg _ hrun), ((KeepsPc.ended s p).trans hwoken).goesOn, rfl, rfl⟩

/-- Settles O39: a ROUTE notes its list (`route_notes`), a DISPATCH queues its frames or closes its layer (`dispatch_sends`), a
COMBINE waits beside the program (`combine_waits`) or forms its rows (`combine_forms`), and a WAKE asks for its targets
(`wake_asks`). -/
theorem seqTravel : Obligations.SeqTravel :=
  ⟨fun _ _ _ h hbrand => route_notes h hbrand, fun _ _ _ h hbrand => dispatch_sends h hbrand,
    fun _ _ _ h hbrand => combine_waits h hbrand, fun _ _ _ h hbrand => combine_forms h hbrand,
    fun _ _ _ h hbrand => wake_asks h hbrand⟩

end Sys2Proof.Machine
end
